-- ==== Sys2Proof/Word.lean ====
section
/-! DEFINITION. The plainest types of the model: words, bytes, sparse maps and logical keys (spec/00_scope.md R3 to R5). -/

namespace Sys2Proof

/-- A 64-bit scalar value or virtual address. -/
abbrev Word := BitVec 64

/-- One byte of memory, of a line or of a record. -/
abbrev Byte := BitVec 8

/-- A sparse table keyed by numbers, kept sorted and without entries equal to what an unlisted key reads as. -/
abbrev SMap (β : Type) := List (Nat × β)

/-- The key of a split at a moment: clock, logical gang index, lowest member lane (R53). -/
structure Key where
  clock : Nat
  gang : Nat
  lane : Nat
  deriving DecidableEq, Repr

end Sys2Proof
end

