-- ==== Sys2Proof/Syntax.lean ====
section
/-! DEFINITION. The abstract syntax: one constructor of `Instr` per row of spec/opcode_table.json. The first 216 rows are
the 32-bit instructions of spec/08_encoding_assembly.md (their operands are the fields of R173, not yet checked); the
others are the steps of the device's other agents, whose operands say which request, unit, line or port the step is of. -/

namespace Sys2Proof

/-! ### Operand fields of the encoded instructions (R173, R174) -/

/-- Format 3R with both sources. -/
structure Op3R where
  ta : Bool
  tb : Bool
  d : BitVec 7
  a : BitVec 7
  b : BitVec 7
  deriving DecidableEq, Repr

/-- Format 3R with the a source only. -/
structure Op3A where
  ta : Bool
  d : BitVec 7
  a : BitVec 7
  deriving DecidableEq, Repr

/-- Format 3R whose b field holds a code k. -/
structure Op3K where
  ta : Bool
  d : BitVec 7
  a : BitVec 7
  k : BitVec 7
  deriving DecidableEq, Repr

/-- Format 3R whose a field holds a code k and which reads no register. -/
structure OpDK where
  d : BitVec 7
  k : BitVec 7
  deriving DecidableEq, Repr

/-- Format 2RI with an 8-bit immediate. -/
structure Op2I where
  ta : Bool
  d : BitVec 7
  a : BitVec 7
  imm : BitVec 8
  deriving DecidableEq, Repr

/-- Format 2RI of the shifts, whose immediate is 6 bits (R193). -/
structure Op2S where
  ta : Bool
  d : BitVec 7
  a : BitVec 7
  imm : BitVec 6
  deriving DecidableEq, Repr

/-- Format RI16. -/
structure OpRI where
  d : BitVec 7
  imm : BitVec 16
  deriving DecidableEq, Repr

/-- Format B. -/
structure OpB where
  off : BitVec 23
  deriving DecidableEq, Repr

/-- Format BC. -/
structure OpBC where
  s : BitVec 6
  off : BitVec 17
  deriving DecidableEq, Repr

/-- A vector-kind field alone: ret va (R198). -/
structure OpV where
  a : BitVec 7
  deriving DecidableEq, Repr

/-- A 6-bit scalar field alone. -/
structure OpS6 where
  s : BitVec 6
  deriving DecidableEq, Repr

/-- mode.t: the type code (R210). -/
structure OpT4 where
  t : BitVec 4
  deriving DecidableEq, Repr

/-- mode.g: the guard field (R210). -/
structure OpG6 where
  g : BitVec 6
  deriving DecidableEq, Repr

/-- mode.rm: flush bit and rounding (R210). -/
structure OpRM where
  z : Bool
  r : BitVec 2
  deriving DecidableEq, Repr

/-- mode.cv: class number and control (R210). -/
structure OpCV where
  k : BitVec 4
  c : BitVec 3
  deriving DecidableEq, Repr

/-- Format S with a scalar field and a 9-bit number. -/
structure OpSN where
  s : BitVec 6
  n : BitVec 9
  deriving DecidableEq, Repr

/-- Format S with a 9-bit number alone. -/
structure OpN9 where
  n : BitVec 9
  deriving DecidableEq, Repr

/-- Format M of the loads through a window: NT, SX, SZ are sub [4], [3], [2:0] (R238). -/
structure OpM where
  ta : Bool
  d : BitVec 7
  w : BitVec 3
  a : BitVec 7
  nt : Bool
  sx : Bool
  sz : BitVec 3
  deriving DecidableEq, Repr

/-- Format M of the stores through a window. -/
structure OpMst where
  ta : Bool
  d : BitVec 7
  w : BitVec 3
  a : BitVec 7
  nt : Bool
  sz : BitVec 3
  deriving DecidableEq, Repr

/-- Format M of ld.s (R241). -/
structure OpMs where
  ta : Bool
  d : BitVec 7
  a : BitVec 7
  sx : Bool
  sz : BitVec 3
  deriving DecidableEq, Repr

/-- Format M of st.s (R241). -/
structure OpMsst where
  ta : Bool
  d : BitVec 7
  a : BitVec 7
  sz : BitVec 3
  deriving DecidableEq, Repr

/-- pf (R242). -/
structure OpPf where
  ta : Bool
  w : BitVec 3
  a : BitVec 7
  l2 : Bool
  deriving DecidableEq, Repr

/-- dis (R243). -/
structure OpDis where
  d : BitVec 7
  w : BitVec 3
  a : BitVec 7
  deriving DecidableEq, Repr

/-- win.open (R237). -/
structure OpWa where
  w : BitVec 3
  a : BitVec 7
  deriving DecidableEq, Repr

/-- win.close (R237). -/
structure OpW where
  w : BitVec 3
  deriving DecidableEq, Repr

/-- Format M without sub: atom.cas and atom.maxi (R246, R247). -/
structure OpMw where
  ta : Bool
  d : BitVec 7
  w : BitVec 3
  a : BitVec 7
  deriving DecidableEq, Repr

/-- atom and red: sub holds the sub-operation code (R244). -/
structure OpAtom where
  ta : Bool
  d : BitVec 7
  w : BitVec 3
  a : BitVec 7
  n : BitVec 5
  deriving DecidableEq, Repr

/-- acq and rel: sub [2:0] holds the scope (R248). -/
structure OpAcq where
  ta : Bool
  d : BitVec 7
  w : BitVec 3
  a : BitVec 7
  scope : BitVec 3
  deriving DecidableEq, Repr

/-- Format X (R254). -/
structure OpX where
  cls : BitVec 2
  d : BitVec 7
  peer : BitVec 5
  a : BitVec 7
  ta : Bool
  deriving DecidableEq, Repr

/-- Format X of atom.x and red.x with the sub-operation code of the opcode (R178, R244). -/
structure OpXn where
  n : BitVec 5
  cls : BitVec 2
  d : BitVec 7
  peer : BitVec 5
  a : BitVec 7
  ta : Bool
  deriving DecidableEq, Repr

/-- peer.cap (R256). -/
structure OpPeer where
  d : BitVec 7
  peer : BitVec 5
  deriving DecidableEq, Repr

/-- Format F: kind, scope, class mask (R249). -/
structure OpF where
  kind : BitVec 3
  scope : BitVec 3
  mask : BitVec 4
  deriving DecidableEq, Repr

/-- wait.cnt: which count, and the bound (R250). -/
structure OpWait where
  k : BitVec 2
  n : BitVec 9
  deriving DecidableEq, Repr

/-- Format E with a tile handle alone. -/
structure OpH where
  h : BitVec 7
  deriving DecidableEq, Repr

/-- tile.q (R261). -/
structure OpHD where
  h : BitVec 7
  d : BitVec 6
  deriving DecidableEq, Repr

/-- Format E: first register of the scalar group and the counter (R260). -/
structure OpE where
  d : BitVec 6
  k : BitVec 3
  deriving DecidableEq, Repr

/-- gat and scat (R269). -/
structure OpHE where
  h : BitVec 7
  d : BitVec 6
  k : BitVec 3
  deriving DecidableEq, Repr

/-- mloop (R271). -/
structure OpMloop where
  d : BitVec 6
  f : BitVec 6
  k : BitVec 3
  deriving DecidableEq, Repr

/-- macc.z: n1 is the tile count minus 1, b the first tile (R262). -/
structure OpAcc where
  n1 : BitVec 3
  b : BitVec 3
  k : BitVec 3
  deriving DecidableEq, Repr

/-- macc.ld and macc.st (R274). -/
structure OpAccD where
  n1 : BitVec 3
  b : BitVec 3
  d : BitVec 6
  k : BitVec 3
  deriving DecidableEq, Repr

/-- ewait: the bound n and the counter (R266). -/
structure OpEw where
  n : BitVec 7
  k : BitVec 3
  deriving DecidableEq, Repr

/-- plb.inv: which entries, and the operand register (R283). -/
structure OpPlb where
  k : BitVec 8
  s : BitVec 6
  deriving DecidableEq, Repr

/-! ### Operands of the steps of other agents -/

/-- The three kinds of barrier (R251). -/
inductive BarrierKind where
  | wg
  | cluster
  | launch
  deriving DecidableEq, Repr

/-- A barrier: its kind, launch and (for the first two kinds) unit and workgroup (R251). -/
structure BarrierRef where
  kind : BarrierKind
  launch : Nat
  unit : Nat
  wg : Nat
  deriving DecidableEq, Repr

/-- The tag of a 128-B line at its home: partition, address-space id (4,095 for the global region) and the line's
offset [52:7] times 128 (R113). -/
structure LineRef where
  part : Nat
  asid : Nat
  va : Nat
  deriving DecidableEq, Repr

/-- A keeper of copies of a line (R127): a core's L1, another device, a host. -/
inductive CopyHolder where
  | core (n : Nat)
  | node (n : Nat)
  deriving DecidableEq, Repr

/-- What a fabric request asks of its target (R140, R145). -/
inductive FabricOp where
  | load (copy : Bool)
  | store (data : List Byte)
  | atomic (n : BitVec 5) (ty : BitVec 4) (rm : BitVec 2) (fz : Bool) (v w : List Byte)
  | reduce (n : BitVec 5) (ty : BitVec 4) (rm : BitVec 2) (fz : Bool) (v : List Byte)
  | cap
  /-- a store of a turn of a domain-scope launch, entered in Brim at its key (R75) -/
  | publication (key : Key) (data : List Byte)
  /-- a load of a domain-scope launch at a view, with the split's last turn key (R75) -/
  | loadAt (view : Key) (turn : Option Key)
  /-- an atomic or reduction of a domain-scope launch at the key of its turn (R75) -/
  | atomicAt (key : Key) (n : BitVec 5) (ty : BitVec 4) (rm : BitVec 2) (fz : Bool) (v w : List Byte)
  /-- what a member puts into the collective with a match tag (R270) -/
  | input (tag : BitVec 64) (data : List Byte)
  deriving DecidableEq, Repr

/-- Why a target performs nothing of an access: its HC refuses it, it lacks the operation, its spill area has no room for a publication
(R70, R385). -/
inductive FaultAnswer where
  | refused
  | unsupported
  | exhausted
  deriving DecidableEq, Repr

/-- A request that arrives over the fabric (R138): its source, its domain, the target address and size, its refusal
count (R132) and the source core (R134). -/
structure FabricReq where
  tag : Nat
  source : Nat
  core : Nat
  domain : Nat
  va : BitVec 64
  size : Nat
  op : FabricOp
  /-- the accesses of its request, this one among them (R143, R144) -/
  mates : Nat
  refusals : Nat
  /-- the domain rank of the source partition (R138) -/
  rank : Nat
  /-- the group identifier of a domain-scope launch (R277) -/
  gid : Option (BitVec 32)
  /-- its home has accepted it and it waits there (R131, R134) -/
  accepted : Bool
  deriving DecidableEq, Repr

/-- The answer of a target to a remote request that performed (R129, R145). -/
structure RemoteAnswer where
  data : List Byte
  coh : BitVec 2
  deriving DecidableEq, Repr

/-- One member's group descriptor as its device root sends it (R277). -/
structure MemberDesc where
  node : Nat
  gid : BitVec 32
  entries : List (BitVec 64)
  deriving DecidableEq, Repr

/-- The HPCC states of a line (R148). -/
inductive Mesi where
  | i
  | s
  | e
  | m
  deriving DecidableEq, Repr

/-- The PCIe atomics a host makes to a task page (R147, R313). -/
inductive HostAtomicOp where
  | fetchAdd
  | swap
  | cas (compare : BitVec 64)
  deriving DecidableEq, Repr

/-- A firmware image (R326, R327): its octets, the public key that comes with it as 48 octets of x and 48 of y, its signature r ‖ s, and
its security version. -/
structure FwImage where
  body : List (BitVec 8)
  key : List (BitVec 8)
  signature : BitVec 768
  version : BitVec 32
  deriving DecidableEq, Repr

/-- What steps 1 to 4 of a start find (R326, R401). -/
structure StartReport where
  romOk : Bool
  clustersOut : BitVec 64
  hbmOut : BitVec 8
  hcOut : BitVec 32
  sliceOut : BitVec 384
  fportOut : BitVec 24
  hportOut : BitVec 2
  bridgeOut : Bool
  deriving DecidableEq, Repr

/-- Where an ECC error lies (R382). -/
inductive EccLoc where
  | hbm (pa : Nat)
  | dirtyLine (l : LineRef)
  | brim (id : Nat)
  | cleanLine (l : LineRef)
  | cuff (gang order : Nat)
  | l1 (core : Nat) (l : LineRef)
  | hpcc (port : Nat) (addr : Nat)
  | icache (core : Nat) (va : Nat)
  | registerFile (gang : Nat)
  | scratchpad (core : Nat) (tile : Nat)
  | accumulator (launch unit : Nat)
  | mitten (id : Nat)
  | pageTable (part hc : Nat) (pa : Nat) (va : BitVec 64) (asid : Nat)
  | lateQueue (id : Nat)
  | trapBlock (part : Nat)
  deriving DecidableEq, Repr

/-- The operands of a step of another agent: which request, gang, launch, unit, line or port the step is of, and what
the outside world brings with it. The step finds them in the state (`State.arg`), where the agenda puts them. -/
inductive Arg where
  | none
  | num (a : Nat)
  | num2 (a b : Nat)
  | num3 (a b c : Nat)
  | num2v (a b : Nat) (v : BitVec 64)
  | numBool (a : Nat) (b : Bool)
  | floor (launch member : Nat) (key : Key)
  | barrier (b : BarrierRef)
  /-- a barrier of a domain-scope launch: the greatest clock and arrival key of the other members' splits (R51, R252) -/
  | memberBarrier (b : BarrierRef) (clock : Nat) (last : Key)
  | descs (launch : Nat) (ds : List MemberDesc)
  | line (l : LineRef)
  | lineNode (l : LineRef) (node : Nat)
  | lineHolder (l : LineRef) (holder : CopyHolder)
  | fabric (q : FabricReq)
  | forward (q : FabricReq) (dest : Nat)
  | answer (id : Nat) (r : RemoteAnswer)
  | remoteFault (id : Nat) (why : FaultAnswer) (lanes : BitVec 64)
  /-- a host's read; `tag` tells its requests apart -/
  | hostRead (port tag : Nat) (addr : BitVec 64) (own : Bool)
  /-- a posted write; `relaxed` is its relaxed ordering attribute (R97) -/
  | hostWrite (port tag : Nat) (addr : BitVec 64) (data : BitVec 512) (relaxed : Bool)
  | bisnp (l : LineRef) (port : Nat) (data : Option (List Byte))
  | grant (port addr : Nat) (state : Mesi) (data : List Byte)
  | hostAtomic (port tag : Nat) (addr : BitVec 64) (op : HostAtomicOp) (size : Nat) (v : BitVec 64)
  | create (port : Nat) (members : List Nat)
  | stage (port : Nat) (image : FwImage)
  | spdm (port : Nat) (nonce : BitVec 256)
  /-- a host's access to the word at an offset of BAR 0: a write with its value, or a read (R319) -/
  | bar (port off : Nat) (v : Option (BitVec 64))
  /-- a host's write of HDM decoder k in BAR 2: its base, and whether it is committed (R149, R319) -/
  | decoder (port k : Nat) (base : BitVec 64) (on : Bool)
  | start (e : StartReport)
  /-- a step of a start exceeds its bound: its number, the slots whose verification has ended, what has been found until then -/
  | startTimeout (step tried : Nat) (e : StartReport)
  | ecc (loc : EccLoc)
  | plb (core part asid : Nat) (va : BitVec 64)
  deriving DecidableEq, Repr

/-! ### The instructions and steps -/

/-- One constructor per row of spec/opcode_table.json. -/
inductive Instr where
  /-- R190. Writes the sum of two scalar registers, modulo 2^64. -/
  | add (o : Op3R)
  /-- R190. Writes the difference of two scalar registers, modulo 2^64. -/
  | sub (o : Op3R)
  /-- R190. Writes the low 64 bits of the product of two scalar registers. -/
  | mul (o : Op3R)
  /-- R190. Writes the high 64 bits of the signed 128-bit product. -/
  | mulh (o : Op3R)
  /-- R190. Writes the high 64 bits of the unsigned 128-bit product. -/
  | mulhn (o : Op3R)
  /-- R191. Writes the signed quotient truncated toward zero, with the fixed results for a zero divisor and for overflow. -/
  | div (o : Op3R)
  /-- R191. Writes the unsigned quotient, with all ones for a zero divisor. -/
  | divn (o : Op3R)
  /-- R191. Writes the signed remainder, which takes the sign of the dividend. -/
  | rem (o : Op3R)
  /-- R191. Writes the unsigned remainder. -/
  | remn (o : Op3R)
  /-- R190. Writes the bitwise AND of two scalar registers. -/
  | andS (o : Op3R)
  /-- R190. Writes the bitwise OR of two scalar registers. -/
  | orS (o : Op3R)
  /-- R190. Writes the bitwise XOR of two scalar registers. -/
  | xorS (o : Op3R)
  /-- R190. Shifts left by b[5:0]. -/
  | shl (o : Op3R)
  /-- R190. Shifts right logically by b[5:0]. -/
  | shr (o : Op3R)
  /-- R190. Shifts right arithmetically by b[5:0]. -/
  | sra (o : Op3R)
  /-- R190. Writes the signed minimum. -/
  | minS (o : Op3R)
  /-- R190. Writes the signed maximum. -/
  | maxS (o : Op3R)
  /-- R190. Writes the unsigned minimum. -/
  | minn (o : Op3R)
  /-- R190. Writes the unsigned maximum. -/
  | maxn (o : Op3R)
  /-- R190. Writes 1 if a is less than b as signed values, else 0. -/
  | slt (o : Op3R)
  /-- R190. Writes 1 if a is less than b as unsigned values, else 0. -/
  | sltn (o : Op3R)
  /-- R190. Writes 1 if a equals b, else 0. -/
  | seq (o : Op3R)
  /-- R190. Writes a if the old d is non-zero, else b. -/
  | sel (o : Op3R)
  /-- R192. Counts the leading zero bits of a. -/
  | clz (o : Op3A)
  /-- R192. Counts the trailing zero bits of a. -/
  | ctz (o : Op3A)
  /-- R192. Counts the one bits of a. -/
  | pop (o : Op3A)
  /-- R190. Adds b within the 53-bit offset field and keeps bits [63:53]. -/
  | lea (o : Op3R)
  /-- R193. Adds a sign-extended 8-bit immediate. -/
  | addi (o : Op2I)
  /-- R193. ANDs with a zero-extended 8-bit immediate. -/
  | andi (o : Op2I)
  /-- R193. ORs with a zero-extended 8-bit immediate. -/
  | ori (o : Op2I)
  /-- R193. XORs with a zero-extended 8-bit immediate. -/
  | xori (o : Op2I)
  /-- R193. Shifts left by an immediate of 0 to 63. -/
  | shli (o : Op2S)
  /-- R193. Shifts right logically by an immediate of 0 to 63. -/
  | shri (o : Op2S)
  /-- R193. Shifts right arithmetically by an immediate of 0 to 63. -/
  | srai (o : Op2S)
  /-- R194. Writes a sign-extended 16-bit immediate. -/
  | movi (o : OpRI)
  /-- R194. Shifts d left by 16 bits and inserts a 16-bit immediate. -/
  | movh (o : OpRI)
  /-- R196. Jumps by a signed word offset. -/
  | jmp (o : OpB)
  /-- R196. Writes the link to s63 and jumps by a signed word offset. -/
  | jal (o : OpB)
  /-- R196. Jumps to a register plus an offset, writes the link, and checks target alignment. -/
  | jr (o : Op2I)
  /-- R197. Pushes the return address onto the return stack, raises the call depth and jumps. -/
  | call (o : OpB)
  /-- R197. Pops the return stack and returns. -/
  | ret
  /-- R198. Pops the return stack and returns to a continuation per lane, dividing the split where the lanes differ. -/
  | retVa (o : OpV)
  /-- R199. Branches the whole split when a scalar register is zero. -/
  | bz (o : OpBC)
  /-- R199. Branches the whole split when a scalar register is non-zero. -/
  | bnz (o : OpBC)
  /-- R200. Branches the whole split when any active lane's predicate bit is set. -/
  | bany (o : OpBC)
  /-- R200. Branches the whole split when every active lane's predicate bit is set. -/
  | ball (o : OpBC)
  /-- R201. Branches per lane on a predicate and divides the split where the lanes disagree. -/
  | vbr (o : OpBC)
  /-- R204. Starts a hardware loop on lc0, or skips the body when the count is 0. -/
  | loopLc0 (o : OpBC)
  /-- R204. Starts a hardware loop on lc1, or skips the body when the count is 0. -/
  | loopLc1 (o : OpBC)
  /-- R203. Writes lc0 from a scalar register. -/
  | loopSetLc0 (o : OpS6)
  /-- R203. Writes lc1 from a scalar register. -/
  | loopSetLc1 (o : OpS6)
  /-- R203. Reads lc0 into a scalar register. -/
  | loopGetLc0 (o : OpS6)
  /-- R203. Reads lc1 into a scalar register. -/
  | loopGetLc1 (o : OpS6)
  /-- R207. Commits the current region and opens a new one. -/
  | region
  /-- R208. Commits the region and lowers the split's selection priority for 64 cycles. -/
  | yield
  /-- R207. Does nothing and adds weight 1. -/
  | nop
  /-- R209. Ends the active lanes, publishing the lineage's Cuff entries as a turn where any are unpublished. -/
  | halt
  /-- R210. Sets MODE.T. -/
  | modeT (o : OpT4)
  /-- R210. Sets the guard field MODE.G. -/
  | modeG (o : OpG6)
  /-- R210. Sets MODE.RM and MODE.FZ. -/
  | modeRm (o : OpRM)
  /-- R210. Sets one conversion class of MODE.CV, or all twelve classes. -/
  | modeCv (o : OpCV)
  /-- R210. Loads MODE from a scalar register. -/
  | modeLd (o : OpS6)
  /-- R210. Stores MODE into a scalar register. -/
  | modeSt (o : OpS6)
  /-- R211. Reads a special register numbered 0x000 to 0x010 into a scalar register. -/
  | rdsp (o : OpSN)
  /-- R215. Adds integers per lane, modulo 2^w. -/
  | vadd (o : Op3R)
  /-- R215. Subtracts integers per lane, modulo 2^w. -/
  | vsub (o : Op3R)
  /-- R215. Writes the low w bits of the integer product per lane. -/
  | vmul (o : Op3R)
  /-- R215. Writes the high w bits of the integer product per lane. -/
  | vmulh (o : Op3R)
  /-- R215. Multiplies and adds the old d per lane. -/
  | vmad (o : Op3R)
  /-- R216. Writes the bitwise AND per lane. -/
  | vand (o : Op3R)
  /-- R216. Writes the bitwise OR per lane. -/
  | vor (o : Op3R)
  /-- R216. Writes the bitwise XOR per lane. -/
  | vxor (o : Op3R)
  /-- R216. Writes the bitwise NOT per lane. -/
  | vnot (o : Op3A)
  /-- R215. Shifts left per lane. -/
  | vshl (o : Op3R)
  /-- R215. Shifts right logically per lane. -/
  | vshr (o : Op3R)
  /-- R215. Shifts right arithmetically per lane. -/
  | vsra (o : Op3R)
  /-- R215. Writes the integer minimum per lane. -/
  | vmin (o : Op3R)
  /-- R215. Writes the integer maximum per lane. -/
  | vmax (o : Op3R)
  /-- R215. Writes the integer absolute value per lane. -/
  | vabs (o : Op3A)
  /-- R215. Negates integers per lane. -/
  | vneg (o : Op3A)
  /-- R215. Counts leading zero bits per lane. -/
  | vclz (o : Op3A)
  /-- R215. Counts one bits per lane. -/
  | vpop (o : Op3A)
  /-- R218. Writes a group of four predicates from an integer comparison. -/
  | vcmp (o : Op3R)
  /-- R216. Selects a or b per lane by the bits of the old d. -/
  | vsel (o : Op3R)
  /-- R216. Copies a per lane. -/
  | vmov (o : Op3A)
  /-- R217. Selects bytes from a and b by a selector held in the old d. -/
  | vbcs (o : Op3R)
  /-- R217. Extracts a bit field per lane. -/
  | vbfe (o : Op3R)
  /-- R217. Inserts a bit field per lane. -/
  | vbfi (o : Op3R)
  /-- R215. Adds integers per lane with saturation. -/
  | vadds (o : Op3R)
  /-- R219. Adds floats per lane with one rounding. -/
  | vfadd (o : Op3R)
  /-- R219. Subtracts floats per lane with one rounding. -/
  | vfsub (o : Op3R)
  /-- R219. Multiplies floats per lane with one rounding. -/
  | vfmul (o : Op3R)
  /-- R219. Computes a fused multiply-add with the old d, rounded once. -/
  | vffma (o : Op3R)
  /-- R219. Inverts the float sign bit per lane. -/
  | vfneg (o : Op3A)
  /-- R219. Clears the float sign bit per lane. -/
  | vfabs (o : Op3A)
  /-- R219. Writes minimumNumber per lane. -/
  | vfmin (o : Op3R)
  /-- R219. Writes maximumNumber per lane. -/
  | vfmax (o : Op3R)
  /-- R220. Writes a group of four predicates from a float comparison, unordered included. -/
  | vfcmp (o : Op3R)
  /-- R221. Writes the correctly rounded reciprocal. -/
  | vfrcp (o : Op3A)
  /-- R221. Writes the correctly rounded reciprocal square root. -/
  | vfrsq (o : Op3A)
  /-- R221. Writes the correctly rounded square root. -/
  | vfsqrt (o : Op3A)
  /-- R221. Writes 2^a, correctly rounded. -/
  | vfexp2 (o : Op3A)
  /-- R221. Writes log2 a, correctly rounded. -/
  | vflog2 (o : Op3A)
  /-- R221. Writes sin a, correctly rounded. -/
  | vfsin (o : Op3A)
  /-- R221. Writes cos a, correctly rounded. -/
  | vfcos (o : Op3A)
  /-- R221. Writes tanh a, correctly rounded. -/
  | vftanh (o : Op3A)
  /-- R222. Writes a one-hot class mask of the float per lane. -/
  | vfclass (o : Op3A)
  /-- R223. Converts to f64. -/
  | vcvtF64 (o : Op3A)
  /-- R223. Converts to f32 under CVF32. -/
  | vcvtF32 (o : Op3A)
  /-- R223. Converts to f16 under CVF16. -/
  | vcvtF16 (o : Op3A)
  /-- R223. Converts to bf16 under CVBF16. -/
  | vcvtBf16 (o : Op3A)
  /-- R223. Converts to an e4m3 code under CVE4M3. -/
  | vcvtE4m3 (o : Op3A)
  /-- R223. Converts to an e5m2 code under CVE5M2. -/
  | vcvtE5m2 (o : Op3A)
  /-- R223. Converts to an e3m2 code under CVE3M2. -/
  | vcvtE3m2 (o : Op3A)
  /-- R223. Converts to an e2m3 code under CVE2M3. -/
  | vcvtE2m3 (o : Op3A)
  /-- R223. Converts to an e2m1 code under CVE2M1. -/
  | vcvtE2m1 (o : Op3A)
  /-- R223. Converts to i32 under CVI32. -/
  | vcvtI32 (o : Op3A)
  /-- R223. Converts to n32 under CVI32. -/
  | vcvtN32 (o : Op3A)
  /-- R223. Converts to i16 under CVI16. -/
  | vcvtI16 (o : Op3A)
  /-- R223. Converts to n16 under CVI16. -/
  | vcvtN16 (o : Op3A)
  /-- R223. Converts to i8 under CVI8. -/
  | vcvtI8 (o : Op3A)
  /-- R223. Converts to n8 under CVI8. -/
  | vcvtN8 (o : Op3A)
  /-- R223. Converts to i4 under CVI4. -/
  | vcvtI4 (o : Op3A)
  /-- R223. Converts to n4 under CVI4. -/
  | vcvtN4 (o : Op3A)
  /-- R224. Converts consecutive source registers and packs the results into one 32-bit lane. -/
  | vpack (o : Op3K)
  /-- R225. Unpacks the elements of a lane and converts each to T in consecutive destinations. -/
  | vunpk (o : Op3K)
  /-- R227. Shuffles lanes by an index within a segment. -/
  | vshf (o : Op3R)
  /-- R227. Shuffles lanes by XOR within a segment. -/
  | vshfx (o : Op3R)
  /-- R227. Shuffles lanes upward by a distance within a segment. -/
  | vshfu (o : Op3R)
  /-- R227. Shuffles lanes downward by a distance within a segment. -/
  | vshfd (o : Op3R)
  /-- R228. Writes a lane number, a dense rank, AWIDTH or W to each active lane. -/
  | vlane (o : OpDK)
  /-- R229. Writes an any, all or uniform vote over the active lanes to a predicate. -/
  | vvote (o : Op3K)
  /-- R229. Writes the mask of active lanes whose predicate bit is set to a scalar register. -/
  | vballot (o : Op3A)
  /-- R230. Reduces the active lanes by a fixed binary tree and writes the result to every active lane. -/
  | vred (o : Op3K)
  /-- R231. Forms inclusive or exclusive prefix results over the lane positions. -/
  | vscan (o : Op3K)
  /-- R232. Finds the greatest value and its index under the total order, ties broken by index. -/
  | vmaxi (o : Op3R)
  /-- R233. Sorts the value-index pairs in descending order and writes each rank to its lane. -/
  | vtopk (o : Op3R)
  /-- R228. Writes the active-lane count, the active mask, the lowest active lane or the membership mask to a scalar register. -/
  | rdw (o : OpDK)
  /-- R239. Loads from global memory per active lane through a window. -/
  | ldG (o : OpM)
  /-- R239. Stores to global memory per active lane into the region buffer or the Cuff buffer. -/
  | stG (o : OpMst)
  /-- R241. Loads from a scratchpad tile, checked against the tile state. -/
  | ldS (o : OpMs)
  /-- R241. Stores to a scratchpad tile, checked against the tile state. -/
  | stS (o : OpMsst)
  /-- R240. Loads a uniform value once per split into a scalar register. -/
  | ldU (o : OpM)
  /-- R240. Stores a scalar register once per split. -/
  | stU (o : OpMst)
  /-- R242. Starts a line fill per active lane and never traps. -/
  | pf (o : OpPf)
  /-- R243. Discards whole 64 KiB granules of a range. -/
  | dis (o : OpDis)
  /-- R237. Opens a window register with the permission, attribute and extent fetched from the home HC. -/
  | winOpen (o : OpWa)
  /-- R237. Clears a window's VALID bit. -/
  | winClose (o : OpW)
  /-- R255. Loads from peer devices by routing class, replayed once per distinct node. -/
  | ldX (o : OpX)
  /-- R255. Stores to peer devices by routing class. -/
  | stX (o : OpX)
  /-- R256. Reads each peer's capability word, returning 0 for a dead or non-member node. -/
  | peerCap (o : OpPeer)
  /-- R246. Performs a returning atomic operation at the home per active lane. -/
  | atom (o : OpAtom)
  /-- R246. Performs an element-size compare-and-swap at the home. -/
  | atomCas (o : OpMw)
  /-- R246. Performs a 16-B compare-and-swap at the home. -/
  | atomCas16 (o : OpMw)
  /-- R247. Keeps a running maximum with index in a 64-bit word. -/
  | atomMaxi (o : OpMw)
  /-- R246. Sends non-returning reduction updates to the home, or to Mitten in a deterministic launch. -/
  | red (o : OpAtom)
  /-- R248. Performs an acquire load at a scope, as a turn in a deterministic launch. -/
  | acq (o : OpAcq)
  /-- R248. Performs a release store at a scope, as a publishing turn in a deterministic launch. -/
  | rel (o : OpAcq)
  /-- R249. Orders the split's accesses of the selected classes by kind and scope. -/
  | fence (o : OpF)
  /-- R251. Makes the split's arrival at the workgroup barrier. -/
  | bar
  /-- R251. Makes the split's arrival at the cluster-group barrier. -/
  | barC
  /-- R252. Makes the split's arrival at the launch-wide barrier, publishing as a turn in a deterministic launch. -/
  | barG
  /-- R253. Presents a turn at the split's key and sets the last turn key. -/
  | turn
  /-- R253. Advances the clock by an immediate weight. -/
  | cjmpImm (o : OpN9)
  /-- R253. Advances the clock by a register weight. -/
  | cjmpReg (o : OpS6)
  /-- R253. Sets the clock to max(clock + 1, s). -/
  | cjmpto (o : OpS6)
  /-- R253. Reads the split's clock. -/
  | rdclk (o : OpS6)
  /-- R253. Reads the split's quantum index. -/
  | rdq (o : OpS6)
  /-- R250. Stalls until the selected count of outstanding accesses is at most n. -/
  | waitCnt (o : OpWait)
  /-- R261. Takes a tile as PRIVATE to the gang. -/
  | tileOwn (o : OpH)
  /-- R261. Moves a tile from PRIVATE to READY. -/
  | tileSeal (o : OpH)
  /-- R261. Returns a tile to EMPTY. -/
  | tileFree (o : OpH)
  /-- R261. Reads a tile table entry. -/
  | tileQ (o : OpHD)
  /-- R267. Issues a strided copy command to the copy engine. -/
  | cp (o : OpE)
  /-- R263. Issues a copy command preceded by a release, or by a publishing turn. -/
  | cpR (o : OpE)
  /-- R268. Issues a copy command that pushes to or pulls from a peer. -/
  | cpX (o : OpE)
  /-- R268. Issues a peer copy command preceded by a release, or by a publishing turn. -/
  | cpXR (o : OpE)
  /-- R269. Gathers rows by an index tile into a tile. -/
  | gat (o : OpHE)
  /-- R269. Issues a gather preceded by a release, or by a publishing turn. -/
  | gatR (o : OpHE)
  /-- R269. Scatters rows from a tile by an index tile. -/
  | scat (o : OpHE)
  /-- R269. Issues a scatter preceded by a release, or by a publishing turn. -/
  | scatR (o : OpHE)
  /-- R270. Runs a collective among the members of a group. -/
  | coll (o : OpE)
  /-- R270. Issues a collective preceded by a release, or by a publishing turn. -/
  | collR (o : OpE)
  /-- R273. Runs K steps of a matrix block product into accumulator tiles. -/
  | mloop (o : OpMloop)
  /-- R274. Sets a range of accumulator tiles to +0.0. -/
  | maccZ (o : OpAcc)
  /-- R274. Zeroes accumulator tiles after a release, or after a publishing turn. -/
  | maccZR (o : OpAcc)
  /-- R274. Loads accumulator tiles from memory or a tile, widened exactly. -/
  | maccLd (o : OpAccD)
  /-- R274. Loads accumulator tiles after a release, or after a publishing turn. -/
  | maccLdR (o : OpAccD)
  /-- R274. Narrows accumulator tiles to FMT and stores them. -/
  | maccSt (o : OpAccD)
  /-- R274. Stores accumulator tiles after a release, or after a publishing turn. -/
  | maccStR (o : OpAccD)
  /-- R266. Stalls until an engine counter is at most n, then joins the earlier commands. -/
  | ewait (o : OpEw)
  /-- R266. Reads an engine counter without creating an edge. -/
  | epoll (o : OpE)
  /-- R278. Decrements a task's PRED, readying the task when it reaches 0. -/
  | taskSig (o : OpSN)
  /-- R278. Increments a task's PRED. -/
  | taskPost (o : OpSN)
  /-- R278. Releases the launch's successors early and sets EARLY. -/
  | taskDone
  /-- R280. Retires and raises the software-trap cause. -/
  | trap (o : OpN9)
  /-- R338. Returns from a handler, restoring saved state and resuming the gang. -/
  | rte
  /-- R281. Reads a special register. -/
  | csrr (o : OpSN)
  /-- R281. Writes a special register according to its access type. -/
  | csrw (o : OpSN)
  /-- R281. Sets bits of a special register. -/
  | csrs (o : OpSN)
  /-- R281. Clears bits of a special register. -/
  | csrc (o : OpSN)
  /-- R280. Raises the breakpoint cause without retiring. -/
  | brk (o : OpN9)
  /-- R282. Reads an event counter. -/
  | pmcRead (o : OpSN)
  /-- R282. Reads an event counter and clears it in the same step. -/
  | pmcReadClear (o : OpSN)
  /-- R283. Invalidates granules in the instruction caches of every core of the partition. -/
  | icinv (o : OpSN)
  /-- R283. Invalidates PLB entries on every core and marks the covered windows STALE. -/
  | plbInv (o : OpPlb)
  /-- R284. Writes a page-table entry at the home HC, checking frame records and applying permission reductions. -/
  | hcOpEntry (o : OpS6)
  /-- R284. Sets an HC's root register for the partition. -/
  | hcOpRoot (o : OpS6)
  /-- R284. Writes the frame record of a 64 KiB frame. -/
  | hcOpFrame (o : OpS6)
  /-- R124. Migrates a page to a new frame under LOCK, holding writes during the copy. -/
  | hcOpMigrate (o : OpS6)
  /-- R372. Translates again and performs a granule's held late-fault entries in queue order. -/
  | hcOpReplay (o : OpS6)
  /-- R372. Frees a granule's held late-fault entries without performing them. -/
  | hcOpDrop (o : OpS6)
  /-- R372. Clears HELD, after which lines with uncorrectable errors read 0. -/
  | hcOpUnhold (o : OpS6)
  /-- R284. Reads a page-table entry. -/
  | hcOpRead (o : OpS6)
  /-- R255. Performs a returning atomic at the peer's home slice, its code taken from the opcode. -/
  | atomX (o : OpXn)
  /-- R255. Performs a non-returning reduction at the peer's home slice, its code taken from the opcode. -/
  | redX (o : OpXn)
  /-- R178. An instruction word whose opcode is unassigned, such as 0x0000_0000 or 0xFFFF_FFFF, raises the illegal-instruction cause. -/
  | illegalInstruction (w : BitVec 32)
  /-- R177. A word with an assigned opcode but a reserved field value that its step's mask excludes raises the reserved-operand cause. -/
  | reservedEncoding (w : BitVec 32)
  /-- R34. Merges two splits of a gang once their state matches. Operands: `Arg.num3` (gang, a, b). -/
  | regang
  /-- R102. Writes an arriving load or atomic result and marks the register full. Operands: `Arg.num` (id). -/
  | loadResultArrive
  /-- R365. Marks the destination lanes of a load refused at the HC as faulted. Operands: `Arg.num` (id). -/
  | loadFaultResponse
  /-- R111. Receives the home's acknowledgement of a performed store and updates the L1 copy. Operands: `Arg.num` (id). -/
  | storeAck
  /-- R61. Admits a waiting turn when the floor equals its key and performs it alone. Operands: `Arg.num2` (gang, lane). -/
  | turnAdmit
  /-- R63. Performs a waiting deterministic load once the floor reaches its view. Operands: `Arg.num` (id). -/
  | detLoadPerform
  /-- R409. Lets a scratchpad access, tile query, dispatch, accumulator command or task instruction proceed once its floor passes its key. Operands: `Arg.num2` (gang, lane). -/
  | floorGatedAction
  /-- R59. Propagates a new floor through the Crown tree. Operands: `Arg.num` (launch). -/
  | crownFloorUpdate
  /-- R68. Enters a publication at its home slice as a keyed Brim entry. Operands: `Arg.num` (id). -/
  | publicationArrive
  /-- R58. Releases a publication's key from the Crown node on its acknowledgement. Operands: `Arg.num` (id). -/
  | publicationAck
  /-- R73. Enters a keyed reduction update into the Mitten buffer, refusing the greatest pair when the buffer is full. Operands: `Arg.num` (id). -/
  | mittenUpdateArrive
  /-- R73. Places a refused update in the core's retry queue as a turn at its own key. Operands: `Arg.num` (id). -/
  | redRefusalReturn
  /-- R137. Receives a floor exchange in a flit sideband, and the root takes the least floor. Operands: `Arg.floor` (launch, member, key). -/
  | floorSideband
  /-- R137. Sends the floor on each port at least every 2 µs, as an idle flit if need be. Operands: `Arg.num` (port). -/
  | floorSendInterval
  /-- R51. Completes a barrier once all participants have arrived and sets their clocks. Operands: `Arg.barrier` (b), or `Arg.memberBarrier` (b, clock, last)
in domain scope. -/
  | barrierComplete
  /-- R109. Moves a command from the dependency table to its engine queue once its tiles admit it. Operands: `Arg.num` (id). -/
  | engineDispatch
  /-- R294. Grants the next matrix pass by effective priority at the end of a pass. Operands: `Arg.num` (cluster). -/
  | matrixPassGrant
  /-- R263. Finishes an engine command once all its writes have performed or been entered in Brim. Operands: `Arg.num` (id), or `Arg.answer` with the bytes a collective brings. -/
  | engineFinish
  /-- R266. Completes a waiting ewait and joins its commands. Operands: `Arg.num2` (gang, lane). -/
  | ewaitComplete
  /-- R376. Suspends an engine command whose access was refused at the HC, or whose Brim spill area is exhausted. Operands: `Arg.num` (id). -/
  | engineAccessFault
  /-- R378. Stops an mloop on a refused operand fetch and restores the shadow. Operands: `Arg.num` (id). -/
  | matrixOperandFault
  /-- R391. Stops a collective that lacks a member's contribution after RTIME. Operands: `Arg.num2` (id, node). -/
  | collectiveTimeout
  /-- R340. Receives at the core a record of a deferred store fault attributed to a gang. Operands: `Arg.num` (id). -/
  | deferredFaultRecord
  /-- R364. Translates and checks an access at its home HC, then performs, refuses or holds it. Operands: `Arg.num` (id). -/
  | hcAccess
  /-- R380. Writes a turn-stall record when a turn has waited past the watchdog bound. Operands: `Arg.num2` (gang, lane). -/
  | turnStallWatchdog
  /-- R287. Takes a task from intake when there is room and reserves its context, scratchpad and accumulator areas. Operands: `Arg.num` (part). -/
  | taskLeaveIntake
  /-- R277. Compares the group descriptors received from the members before any member's unit starts. Operands: `Arg.descs` (launch, ds). -/
  | domainDescriptorMatch
  /-- R290. Places a logically live unit on the core or cluster with the most free contexts. Operands: `Arg.num` (launch). -/
  | unitPlace
  /-- R289. Starts the waiting unit once the die's voltage and frequency report stable. Operands: `Arg.num` (die). -/
  | opPointStable
  /-- R37. Retires a unit whose gangs have ended and begins the unit C later. Operands: `Arg.num2` (launch, unit). -/
  | unitRetire
  /-- R276. Writes COMP and FLINE and decrements the successors' PRED. Operands: `Arg.num` (launch). -/
  | launchRetire
  /-- R298. Rotates the live units of a launch at the end of a residency period. Operands: `Arg.num` (launch). -/
  | residencyPeriodEnd
  /-- R300. Makes resident the non-resident split that holds the floor while a split waits because of it. Operands: `Arg.num` (launch). -/
  | turnDrivenSwapIn
  /-- R128. Serves a load miss from a core at the home slice. Operands: `Arg.num` (id). -/
  | homeLocalLoad
  /-- R128. Invalidates copies and performs a store or RMW at the home slice. Operands: `Arg.num` (id). -/
  | homeLocalStore
  /-- R128. Counts an invalidation acknowledgement and performs the write once all are in. Operands: `Arg.lineHolder` (l, holder). -/
  | invalidationAck
  /-- R129. Drops a remote-section copy and acknowledges, or answers absent. Operands: `Arg.num2v` (part, node, va). -/
  | invalidationArrive
  /-- R388. Treats a silent copy holder as absent after RTIME and marks the node dead. Operands: `Arg.lineNode` (l, node). -/
  | invalidationTimeout
  /-- R131. Accepts or refuses a request arriving over the fabric at its home. Operands: `Arg.fabric` (q). -/
  | fabricRequestArrive
  /-- R134. Ends a reservation whose request has not returned within 16 µs. Operands: `Arg.line` (l). -/
  | reservationExpire
  /-- R132. Counts a refusal at the source and starts the back-off. Operands: `Arg.num` (id). -/
  | refusalReceive
  /-- R132. Resends a refused request when its back-off expires. Operands: `Arg.num` (id). -/
  | refusalResend
  /-- R139. Forwards a two-hop request in the port logic of an intermediate device. Operands: `Arg.forward` (q, dest). -/
  | intermediateForward
  /-- R129. Completes a remote request on its response, filling the remote section if the response allows. Operands: `Arg.answer` (id, r). -/
  | remoteResponse
  /-- R385. Reports a fault response or an unsupported operation to the initiating split. Operands: `Arg.remoteFault` (id, why, lanes). -/
  | remoteFaultResponse
  /-- R386. Times out a remote request, sets the dead-peer bit and reports the peer-timeout cause. Operands: `Arg.num` (id). -/
  | remoteTimeout
  /-- R389. Ends a domain member launch after RTIME without a floor from a member. Operands: `Arg.num2` (launch, member). -/
  | floorSilenceTimeout
  /-- R135. Stops a probe aimed at a foreign partition's cluster and counts it. Operands: `Arg.num3` (cluster, domain, probe). -/
  | boundaryFilterProbe
  /-- R135. Answers a stopped probe absent 64 cycles after it arrives. Operands: `Arg.num` (probe). -/
  | boundaryFilterAnswer
  /-- R149. Serves a host CXL.mem read at the home slice and updates HOST. Operands: `Arg.hostRead` (port, tag, addr, own). -/
  | hostMemrd
  /-- R149. Performs a host CXL.mem write at the home slice. Operands: `Arg.hostWrite` (port, tag, addr, data, relaxed). -/
  | hostMemwr
  /-- R149. Completes a back-invalidate snoop and lets the line leave P. Operands: `Arg.bisnp` (l, port, data). -/
  | bisnpResponse
  /-- R148. Answers a host SnpData from the HPCC state. Operands: `Arg.num2` (port, addr). -/
  | hostSnpdata
  /-- R148. Answers a host SnpInv and invalidates the HPCC line. Operands: `Arg.num2` (port, addr). -/
  | hostSnpinv
  /-- R148. Answers a host SnpCur from the HPCC state. Operands: `Arg.num2` (port, addr). -/
  | hostSnpcur
  /-- R148. Receives the host's grant for RdAny or RdOwn and completes the device access at the gateway. Operands: `Arg.grant` (port, addr, state, data). -/
  | cxlCacheGrant
  /-- R313. Performs a host PCIe atomic on a task page, readying a task whose PRED reaches 0. Operands: `Arg.hostAtomic` (port, tag, addr, op, size, v). -/
  | hostAtomic
  /-- R396. Resets the bound partitions and settles the coherent state when the host link is lost. Operands: `Arg.num` (port). -/
  | hostLinkLoss
  /-- R396. Resumes service of the port when its link retrains. Operands: `Arg.numBool` (port, flit). -/
  | hostLinkRetrain
  /-- R321. Creates a partition from a record and binds it to the port. Operands: `Arg.create` (port, members). -/
  | create
  /-- R320. Resets a partition and frees its resources and its binding. Operands: `Arg.num` (port). -/
  | destroy
  /-- R320. Resets a partition. Operands: `Arg.num` (port). -/
  | reset
  /-- R320. Copies a partition's record into the mailbox. Operands: `Arg.num` (port). -/
  | query
  /-- R328. Writes a signed attestation response to host memory. Operands: `Arg.num` (port). -/
  | attest
  /-- R329. Sets the port's power cap. Operands: `Arg.num` (port). -/
  | powercap
  /-- R327. Verifies an image and writes it into the inactive firmware slot. Operands: `Arg.stage` (port, image). -/
  | stage
  /-- R402. Copies the start-failure record into the mailbox. Operands: `Arg.num` (port). -/
  | startrec
  /-- R402. Optionally clears the failed-start count, then starts the device. Operands: `Arg.num` (port). -/
  | restart
  /-- R328. Answers an SPDM GET_CERTIFICATE over PCIe DOE. Operands: `Arg.num` (port). -/
  | spdmGetCertificate
  /-- R328. Answers an SPDM CHALLENGE over PCIe DOE. Operands: `Arg.spdm` (port, nonce). -/
  | spdmChallenge
  /-- R328. Answers an SPDM GET_MEASUREMENTS over PCIe DOE. Operands: `Arg.spdm` (port, nonce). -/
  | spdmGetMeasurements
  /-- R150. Writes an aperture map entry, invalidating windows and PLB entries on a permission reduction. Operands: `Arg.bar` (port, off, v). -/
  | apertureMapWrite
  /-- R345. Writes FQBASE or FQLOG and resets FQHEAD and FQTAIL. Operands: `Arg.bar` (port, off, v). -/
  | fqConfigWrite
  /-- R331. Writes an event selector and clears its counter. Operands: `Arg.bar` (port, off, v). -/
  | eselWrite
  /-- R322. Writes a register without behaviour of its own, ignoring out-of-range values and honouring W1C. Operands: `Arg.bar` (port, off, v),
also for a read of any register, `Arg.decoder` (port, k, base, on), or `Arg.num2` (port, k) for a read of a decoder. -/
  | registerWrite
  /-- R326. Runs the ROM, verifies firmware, trains and tests the units, and brings up the host ports. Operands: `Arg.start` (e). -/
  | deviceStart
  /-- R400. Fails a start whose step exceeds its bound. Operands: `Arg.startTimeout` (step, tried, e). -/
  | startStepTimeout
  /-- R400. Starts again 100 ms after a failed start, or enters minimal mode at a count of 3. -/
  | startRetry
  /-- R329. Lowers the dies' operating point when the draw exceeds the cap. Operands: `Arg.num` (the draw in W). -/
  | powerCapExceed
  /-- R329. Raises the operating point again after 10 ms below 95 % of the cap. Operands: `Arg.num` (the draw in W). -/
  | powerCapRelease
  /-- R330. Holds a die at point 3 when a sensor reaches 95 °C. Operands: `Arg.num` (die). -/
  | thermalHold
  /-- R330. Releases the hold after every sensor of the die has read below 90 °C for 10 ms. Operands: `Arg.num` (die). -/
  | thermalHoldRelease
  /-- R330. Stops all issue and resets every partition at 110 °C. -/
  | thermalTrip
  /-- R381. Corrects an error, writes the word back and counts it. Operands: `Arg.ecc` (loc). -/
  | eccCorrected
  /-- R382. Handles an uncorrectable error according to its location. Operands: `Arg.ecc` (loc). -/
  | eccUncorrectable
  /-- R381. Reads through each HC's share every 24 hours and writes back corrected words. Operands: `Arg.num` (hc). -/
  | hbmScrub
  /-- R123. An entry fetched from the home HC or gateway for a PLB miss, a refetch or a win.open arrives at the core, and the waiting access is checked against it. Operands: `Arg.plb` (core, part, asid, va). -/
  | plbFetchResponse
  /-- R108. An engine operation finishes its reads of a DRAINING tile, and the tile becomes DRAINING(n − 1), or READY when n = 1. Operands: `Arg.num` (id). -/
  | engineReadsDone
  /-- R326. A host configuration request reaches a port: it is answered with Configuration Request Retry Status before step 4 of start, and it may request a device reset. Operands: `Arg.numBool` (port, reset). -/
  | configurationRequest
  /-- R396. A host port's link leaves the active state, which starts the 100 ms retrain window. Operands: `Arg.num` (port). -/
  | hostLinkDown
  /-- R330. After a thermal trip, every sensor reads below 85 °C, and the device accepts CREATE again. -/
  | thermalTripClear
  /-- R402. In minimal mode, host port 0 has not trained within 1 s, so the system controller brings up port 1 instead. -/
  | minimalPortFallback
  deriving DecidableEq, Repr

end Sys2Proof
end

