-- ==== Sys2Proof/WellFormed.lean ====
section
/-! DEFINITION. Well-formed instructions: the fields of the word hold values that the spec permits whatever the state of
the split (R8, R174, R176, and the fields each instruction's description leaves unassigned). Checks that depend on MODE.T
or on a register's value are made by the instruction's meaning. -/

namespace Sys2Proof

/-- A 7-bit scalar field: s0 to s63 (R174). -/
def isS (f : BitVec 7) : Bool := decide (f.toNat < 64)

/-- A vector destination: v0 to v95 (R174). -/
def isV (f : BitVec 7) : Bool := decide (f.toNat < 96)

/-- A predicate field: p0 to p15 (R174). -/
def isP (f : BitVec 7) : Bool := decide (f.toNat < 16)

/-- A tile handle: 0 to 63 (R174). -/
def isTile (f : BitVec 7) : Bool := decide (f.toNat < 64)

/-- The destination of a comparison: a group of four predicates (R218). -/
def isGroup4 (f : BitVec 7) : Bool := f == 0 || f == 4 || f == 8 || f == 12

/-- A packing code of R224. -/
def isPackCode (c : BitVec 7) : Bool :=
  let k := c.toNat % 16
  decide (c.toNat < 32) && decide (1 ≤ k) && decide (k ≤ 10) && (decide (c.toNat < 16) || decide (8 ≤ k))

/-- SX and SZ of a vector access (R238). -/
def isLoadSize (sx : Bool) (sz : BitVec 3) : Bool :=
  decide (sz.toNat < 6) && (!sx || sz == 1 || sz == 2)

/-- SX and SZ of a uniform access (R238). -/
def isUniformSize (sx : Bool) (sz : BitVec 3) : Bool :=
  decide (sz.toNat < 4) && (!sx || sz == 1 || sz == 2)

/-- The register rules of the 8-B and 16-B sizes (R238). -/
def isGroupOf (sz : BitVec 3) (d : BitVec 7) : Bool :=
  if sz == 4 then decide (d.toNat % 2 = 0)
  else if sz == 5 then decide (d.toNat % 4 = 0) && decide (d.toNat ≤ 92)
  else true

/-- The address operand of a remote instruction: an even pair, or a uniform value (R254). -/
def isPairOrScalar (a : BitVec 7) : Bool := decide (96 ≤ a.toNat) || decide (a.toNat % 2 = 0)

/-- The sub-operation codes of atom.x (R244). -/
def isAtomXCode (n : BitVec 5) : Bool := decide (n.toNat < 7) || decide (8 ≤ n.toNat ∧ n.toNat ≤ 10)

/-- A scalar group of m registers that does not pass s63 (R260). -/
def isScalarGroup (d : BitVec 6) (m : Nat) : Bool := decide (d.toNat + m ≤ 64)

/-- The numbers of the special registers (R182, R322). -/
def isSpecial (n : BitVec 9) : Bool :=
  let k := n.toNat
  decide (k ≤ 0x010) || decide (0x020 ≤ k ∧ k ≤ 0x023) || decide (0x100 ≤ k ∧ k ≤ 0x10F)
    || decide (0x180 ≤ k ∧ k ≤ 0x184) || decide (0x190 ≤ k ∧ k ≤ 0x19F)

/-- The instruction's fields hold permitted values. -/
def wellFormed (i : Instr) : Bool :=
  match i with
  | .add o => isS o.d && isS o.a && isS o.b
  | .sub o => isS o.d && isS o.a && isS o.b
  | .mul o => isS o.d && isS o.a && isS o.b
  | .mulh o => isS o.d && isS o.a && isS o.b
  | .mulhn o => isS o.d && isS o.a && isS o.b
  | .div o => isS o.d && isS o.a && isS o.b
  | .divn o => isS o.d && isS o.a && isS o.b
  | .rem o => isS o.d && isS o.a && isS o.b
  | .remn o => isS o.d && isS o.a && isS o.b
  | .andS o => isS o.d && isS o.a && isS o.b
  | .orS o => isS o.d && isS o.a && isS o.b
  | .xorS o => isS o.d && isS o.a && isS o.b
  | .shl o => isS o.d && isS o.a && isS o.b
  | .shr o => isS o.d && isS o.a && isS o.b
  | .sra o => isS o.d && isS o.a && isS o.b
  | .minS o => isS o.d && isS o.a && isS o.b
  | .maxS o => isS o.d && isS o.a && isS o.b
  | .minn o => isS o.d && isS o.a && isS o.b
  | .maxn o => isS o.d && isS o.a && isS o.b
  | .slt o => isS o.d && isS o.a && isS o.b
  | .sltn o => isS o.d && isS o.a && isS o.b
  | .seq o => isS o.d && isS o.a && isS o.b
  | .sel o => isS o.d && isS o.a && isS o.b
  | .clz o => isS o.d && isS o.a
  | .ctz o => isS o.d && isS o.a
  | .pop o => isS o.d && isS o.a
  | .lea o => isS o.d && isS o.a && isS o.b
  | .addi o => isS o.d && isS o.a
  | .andi o => isS o.d && isS o.a
  | .ori o => isS o.d && isS o.a
  | .xori o => isS o.d && isS o.a
  | .shli o => isS o.d && isS o.a
  | .shri o => isS o.d && isS o.a
  | .srai o => isS o.d && isS o.a
  | .movi o => isS o.d
  | .movh o => isS o.d
  | .jmp _ => true
  | .jal _ => true
  | .jr o => isS o.d && isS o.a
  | .call _ => true
  | .ret => true
  | .retVa _ => true
  | .bz _ => true
  | .bnz _ => true
  | .bany o => decide (o.s.toNat < 16)
  | .ball o => decide (o.s.toNat < 16)
  | .vbr o => decide (o.s.toNat < 16)
  | .loopLc0 o => decide (2 ≤ o.off.toNat) && decide (o.off.toNat ≤ 65535)
  | .loopLc1 o => decide (2 ≤ o.off.toNat) && decide (o.off.toNat ≤ 65535)
  | .loopSetLc0 _ => true
  | .loopSetLc1 _ => true
  | .loopGetLc0 _ => true
  | .loopGetLc1 _ => true
  | .region => true
  | .yield => true
  | .nop => true
  | .halt => true
  | .modeT _ => true
  | .modeG _ => true
  | .modeRm _ => true
  | .modeCv o => decide (o.k.toNat < 12) || o.k == 15
  | .modeLd _ => true
  | .modeSt _ => true
  | .rdsp o => decide (o.n.toNat ≤ 16)
  | .vadd o => isV o.d
  | .vsub o => isV o.d
  | .vmul o => isV o.d
  | .vmulh o => isV o.d
  | .vmad o => isV o.d
  | .vand o => isV o.d
  | .vor o => isV o.d
  | .vxor o => isV o.d
  | .vnot o => isV o.d
  | .vshl o => isV o.d
  | .vshr o => isV o.d
  | .vsra o => isV o.d
  | .vmin o => isV o.d
  | .vmax o => isV o.d
  | .vabs o => isV o.d
  | .vneg o => isV o.d
  | .vclz o => isV o.d
  | .vpop o => isV o.d
  | .vcmp o => isGroup4 o.d
  | .vsel o => isV o.d
  | .vmov o => isV o.d
  | .vbcs o => isV o.d
  | .vbfe o => isV o.d
  | .vbfi o => isV o.d
  | .vadds o => isV o.d
  | .vfadd o => isV o.d
  | .vfsub o => isV o.d
  | .vfmul o => isV o.d
  | .vffma o => isV o.d
  | .vfneg o => isV o.d
  | .vfabs o => isV o.d
  | .vfmin o => isV o.d
  | .vfmax o => isV o.d
  | .vfcmp o => isGroup4 o.d
  | .vfrcp o => isV o.d
  | .vfrsq o => isV o.d
  | .vfsqrt o => isV o.d
  | .vfexp2 o => isV o.d
  | .vflog2 o => isV o.d
  | .vfsin o => isV o.d
  | .vfcos o => isV o.d
  | .vftanh o => isV o.d
  | .vfclass o => isV o.d
  | .vcvtF64 o => isV o.d
  | .vcvtF32 o => isV o.d
  | .vcvtF16 o => isV o.d
  | .vcvtBf16 o => isV o.d
  | .vcvtE4m3 o => isV o.d
  | .vcvtE5m2 o => isV o.d
  | .vcvtE3m2 o => isV o.d
  | .vcvtE2m3 o => isV o.d
  | .vcvtE2m1 o => isV o.d
  | .vcvtI32 o => isV o.d
  | .vcvtN32 o => isV o.d
  | .vcvtI16 o => isV o.d
  | .vcvtN16 o => isV o.d
  | .vcvtI8 o => isV o.d
  | .vcvtN8 o => isV o.d
  | .vcvtI4 o => isV o.d
  | .vcvtN4 o => isV o.d
  | .vpack o => isV o.d && isPackCode o.k && isV o.a
  | .vunpk o => isV o.d && isPackCode o.k && isV o.a
  | .vshf o => isV o.d
  | .vshfx o => isV o.d
  | .vshfu o => isV o.d
  | .vshfd o => isV o.d
  | .vlane o => isV o.d && decide (o.k.toNat < 4)
  | .vvote o => isP o.d && isP o.a && decide (o.k.toNat < 3)
  | .vballot o => isS o.d && isP o.a
  | .vred o => isV o.d && decide (o.k.toNat < 6)
  | .vscan o => isV o.d && decide (o.k.toNat < 16) && decide (o.k.toNat % 8 < 6)
  | .vmaxi o => isV o.d
  | .vtopk o => isV o.d
  | .rdw o => isS o.d && decide (o.k.toNat < 4)
  | .ldG o => isV o.d && isLoadSize o.sx o.sz && isGroupOf o.sz o.d
  | .stG o => isV o.d && isLoadSize false o.sz && isGroupOf o.sz o.d
  | .ldS o => isV o.d && isLoadSize o.sx o.sz && isGroupOf o.sz o.d
  | .stS o => isV o.d && isLoadSize false o.sz && isGroupOf o.sz o.d
  | .ldU o => isS o.d && isS o.a && isUniformSize o.sx o.sz
  | .stU o => isS o.d && isS o.a && isUniformSize false o.sz
  | .pf _ => true
  | .dis o => isS o.d && isS o.a
  | .winOpen o => isS o.a
  | .winClose _ => true
  | .ldX o => isV o.d && isPairOrScalar o.a
  | .stX o => isV o.d && isPairOrScalar o.a
  | .peerCap o => isV o.d && decide (o.d.toNat % 2 = 0)
  | .atom o => isV o.d && decide (o.n.toNat < 7)
  | .atomCas o => isV o.d
  | .atomCas16 o => decide (o.d.toNat % 4 = 0) && decide (o.d.toNat ≤ 88)
  | .atomMaxi o => isV o.d && decide (o.d.toNat % 2 = 0)
  | .red o => isV o.d && decide (o.n.toNat < 6)
  | .acq o => isV o.d && decide (o.scope.toNat < 7)
  | .rel o => isV o.d && decide (o.scope.toNat < 7)
  | .fence o => decide (1 ≤ o.kind.toNat) && decide (o.kind.toNat ≤ 3) && decide (o.scope.toNat < 7)
  | .bar => true
  | .barC => true
  | .barG => true
  | .turn => true
  | .cjmpImm _ => true
  | .cjmpReg _ => true
  | .cjmpto _ => true
  | .rdclk _ => true
  | .rdq _ => true
  | .waitCnt _ => true
  | .tileOwn o => isTile o.h
  | .tileSeal o => isTile o.h
  | .tileFree o => isTile o.h
  | .tileQ o => isTile o.h
  | .cp o => isScalarGroup o.d 5
  | .cpR o => isScalarGroup o.d 5
  | .cpX o => isScalarGroup o.d 6
  | .cpXR o => isScalarGroup o.d 6
  | .gat o => isTile o.h && isScalarGroup o.d 4
  | .gatR o => isTile o.h && isScalarGroup o.d 4
  | .scat o => isTile o.h && isScalarGroup o.d 4
  | .scatR o => isTile o.h && isScalarGroup o.d 4
  | .coll o => isScalarGroup o.d 5
  | .collR o => isScalarGroup o.d 5
  | .mloop o => isScalarGroup o.d 8 && isScalarGroup o.f 4
  | .maccZ o => decide (o.b.toNat + o.n1.toNat < 8)
  | .maccZR o => decide (o.b.toNat + o.n1.toNat < 8)
  | .maccLd o => decide (o.b.toNat + o.n1.toNat < 8) && isScalarGroup o.d 2
  | .maccLdR o => decide (o.b.toNat + o.n1.toNat < 8) && isScalarGroup o.d 2
  | .maccSt o => decide (o.b.toNat + o.n1.toNat < 8) && isScalarGroup o.d 2
  | .maccStR o => decide (o.b.toNat + o.n1.toNat < 8) && isScalarGroup o.d 2
  | .ewait _ => true
  | .epoll _ => true
  | .taskSig o => o.n != 0
  | .taskPost o => o.n != 0
  | .taskDone => true
  | .trap _ => true
  | .rte => true
  | .csrr o => isSpecial o.n
  | .csrw o => isSpecial o.n
  | .csrs o => isSpecial o.n
  | .csrc o => isSpecial o.n
  | .brk _ => true
  | .pmcRead o => decide (o.n.toNat < 16)
  | .pmcReadClear o => decide (o.n.toNat < 16)
  | .icinv _ => true
  | .plbInv o => decide (o.k.toNat < 3)
  | .hcOpEntry o => isScalarGroup o.s 3
  | .hcOpRoot o => isScalarGroup o.s 3
  | .hcOpFrame o => isScalarGroup o.s 3
  | .hcOpMigrate o => isScalarGroup o.s 3
  | .hcOpReplay o => isScalarGroup o.s 3
  | .hcOpDrop o => isScalarGroup o.s 3
  | .hcOpUnhold o => isScalarGroup o.s 3
  | .hcOpRead o => isScalarGroup o.s 3
  | .atomX o => isV o.d && isPairOrScalar o.a && isAtomXCode o.n
  | .redX o => isV o.d && isPairOrScalar o.a && decide (o.n.toNat < 6)
  | .regang => true
  | .loadResultArrive => true
  | .loadFaultResponse => true
  | .storeAck => true
  | .turnAdmit => true
  | .detLoadPerform => true
  | .floorGatedAction => true
  | .crownFloorUpdate => true
  | .publicationArrive => true
  | .publicationAck => true
  | .mittenUpdateArrive => true
  | .redRefusalReturn => true
  | .floorSideband => true
  | .floorSendInterval => true
  | .barrierComplete => true
  | .engineDispatch => true
  | .matrixPassGrant => true
  | .engineFinish => true
  | .ewaitComplete => true
  | .engineAccessFault => true
  | .matrixOperandFault => true
  | .collectiveTimeout => true
  | .deferredFaultRecord => true
  | .hcAccess => true
  | .turnStallWatchdog => true
  | .taskLeaveIntake => true
  | .domainDescriptorMatch => true
  | .unitPlace => true
  | .opPointStable => true
  | .unitRetire => true
  | .launchRetire => true
  | .residencyPeriodEnd => true
  | .turnDrivenSwapIn => true
  | .homeLocalLoad => true
  | .homeLocalStore => true
  | .invalidationAck => true
  | .invalidationArrive => true
  | .invalidationTimeout => true
  | .fabricRequestArrive => true
  | .reservationExpire => true
  | .refusalReceive => true
  | .refusalResend => true
  | .intermediateForward => true
  | .remoteResponse => true
  | .remoteFaultResponse => true
  | .remoteTimeout => true
  | .floorSilenceTimeout => true
  | .boundaryFilterProbe => true
  | .boundaryFilterAnswer => true
  | .hostMemrd => true
  | .hostMemwr => true
  | .bisnpResponse => true
  | .hostSnpdata => true
  | .hostSnpinv => true
  | .hostSnpcur => true
  | .cxlCacheGrant => true
  | .hostAtomic => true
  | .hostLinkLoss => true
  | .hostLinkRetrain => true
  | .create => true
  | .destroy => true
  | .reset => true
  | .query => true
  | .attest => true
  | .powercap => true
  | .stage => true
  | .startrec => true
  | .restart => true
  | .spdmGetCertificate => true
  | .spdmChallenge => true
  | .spdmGetMeasurements => true
  | .apertureMapWrite => true
  | .fqConfigWrite => true
  | .eselWrite => true
  | .registerWrite => true
  | .deviceStart => true
  | .startStepTimeout => true
  | .startRetry => true
  | .powerCapExceed => true
  | .powerCapRelease => true
  | .thermalHold => true
  | .thermalHoldRelease => true
  | .thermalTrip => true
  | .eccCorrected => true
  | .eccUncorrectable => true
  | .hbmScrub => true
  | .illegalInstruction _ => false
  | .reservedEncoding _ => false
  | .plbFetchResponse => true
  | .engineReadsDone => true
  | .configurationRequest => true
  | .hostLinkDown => true
  | .thermalTripClear => true
  | .minimalPortFallback => true

/-- A step of another agent than an issuing split: it has no encoding and no split fetches it. -/
def isAgentStep (i : Instr) : Bool :=
  match i with
  | .add _ => false
  | .sub _ => false
  | .mul _ => false
  | .mulh _ => false
  | .mulhn _ => false
  | .div _ => false
  | .divn _ => false
  | .rem _ => false
  | .remn _ => false
  | .andS _ => false
  | .orS _ => false
  | .xorS _ => false
  | .shl _ => false
  | .shr _ => false
  | .sra _ => false
  | .minS _ => false
  | .maxS _ => false
  | .minn _ => false
  | .maxn _ => false
  | .slt _ => false
  | .sltn _ => false
  | .seq _ => false
  | .sel _ => false
  | .clz _ => false
  | .ctz _ => false
  | .pop _ => false
  | .lea _ => false
  | .addi _ => false
  | .andi _ => false
  | .ori _ => false
  | .xori _ => false
  | .shli _ => false
  | .shri _ => false
  | .srai _ => false
  | .movi _ => false
  | .movh _ => false
  | .jmp _ => false
  | .jal _ => false
  | .jr _ => false
  | .call _ => false
  | .ret => false
  | .retVa _ => false
  | .bz _ => false
  | .bnz _ => false
  | .bany _ => false
  | .ball _ => false
  | .vbr _ => false
  | .loopLc0 _ => false
  | .loopLc1 _ => false
  | .loopSetLc0 _ => false
  | .loopSetLc1 _ => false
  | .loopGetLc0 _ => false
  | .loopGetLc1 _ => false
  | .region => false
  | .yield => false
  | .nop => false
  | .halt => false
  | .modeT _ => false
  | .modeG _ => false
  | .modeRm _ => false
  | .modeCv _ => false
  | .modeLd _ => false
  | .modeSt _ => false
  | .rdsp _ => false
  | .vadd _ => false
  | .vsub _ => false
  | .vmul _ => false
  | .vmulh _ => false
  | .vmad _ => false
  | .vand _ => false
  | .vor _ => false
  | .vxor _ => false
  | .vnot _ => false
  | .vshl _ => false
  | .vshr _ => false
  | .vsra _ => false
  | .vmin _ => false
  | .vmax _ => false
  | .vabs _ => false
  | .vneg _ => false
  | .vclz _ => false
  | .vpop _ => false
  | .vcmp _ => false
  | .vsel _ => false
  | .vmov _ => false
  | .vbcs _ => false
  | .vbfe _ => false
  | .vbfi _ => false
  | .vadds _ => false
  | .vfadd _ => false
  | .vfsub _ => false
  | .vfmul _ => false
  | .vffma _ => false
  | .vfneg _ => false
  | .vfabs _ => false
  | .vfmin _ => false
  | .vfmax _ => false
  | .vfcmp _ => false
  | .vfrcp _ => false
  | .vfrsq _ => false
  | .vfsqrt _ => false
  | .vfexp2 _ => false
  | .vflog2 _ => false
  | .vfsin _ => false
  | .vfcos _ => false
  | .vftanh _ => false
  | .vfclass _ => false
  | .vcvtF64 _ => false
  | .vcvtF32 _ => false
  | .vcvtF16 _ => false
  | .vcvtBf16 _ => false
  | .vcvtE4m3 _ => false
  | .vcvtE5m2 _ => false
  | .vcvtE3m2 _ => false
  | .vcvtE2m3 _ => false
  | .vcvtE2m1 _ => false
  | .vcvtI32 _ => false
  | .vcvtN32 _ => false
  | .vcvtI16 _ => false
  | .vcvtN16 _ => false
  | .vcvtI8 _ => false
  | .vcvtN8 _ => false
  | .vcvtI4 _ => false
  | .vcvtN4 _ => false
  | .vpack _ => false
  | .vunpk _ => false
  | .vshf _ => false
  | .vshfx _ => false
  | .vshfu _ => false
  | .vshfd _ => false
  | .vlane _ => false
  | .vvote _ => false
  | .vballot _ => false
  | .vred _ => false
  | .vscan _ => false
  | .vmaxi _ => false
  | .vtopk _ => false
  | .rdw _ => false
  | .ldG _ => false
  | .stG _ => false
  | .ldS _ => false
  | .stS _ => false
  | .ldU _ => false
  | .stU _ => false
  | .pf _ => false
  | .dis _ => false
  | .winOpen _ => false
  | .winClose _ => false
  | .ldX _ => false
  | .stX _ => false
  | .peerCap _ => false
  | .atom _ => false
  | .atomCas _ => false
  | .atomCas16 _ => false
  | .atomMaxi _ => false
  | .red _ => false
  | .acq _ => false
  | .rel _ => false
  | .fence _ => false
  | .bar => false
  | .barC => false
  | .barG => false
  | .turn => false
  | .cjmpImm _ => false
  | .cjmpReg _ => false
  | .cjmpto _ => false
  | .rdclk _ => false
  | .rdq _ => false
  | .waitCnt _ => false
  | .tileOwn _ => false
  | .tileSeal _ => false
  | .tileFree _ => false
  | .tileQ _ => false
  | .cp _ => false
  | .cpR _ => false
  | .cpX _ => false
  | .cpXR _ => false
  | .gat _ => false
  | .gatR _ => false
  | .scat _ => false
  | .scatR _ => false
  | .coll _ => false
  | .collR _ => false
  | .mloop _ => false
  | .maccZ _ => false
  | .maccZR _ => false
  | .maccLd _ => false
  | .maccLdR _ => false
  | .maccSt _ => false
  | .maccStR _ => false
  | .ewait _ => false
  | .epoll _ => false
  | .taskSig _ => false
  | .taskPost _ => false
  | .taskDone => false
  | .trap _ => false
  | .rte => false
  | .csrr _ => false
  | .csrw _ => false
  | .csrs _ => false
  | .csrc _ => false
  | .brk _ => false
  | .pmcRead _ => false
  | .pmcReadClear _ => false
  | .icinv _ => false
  | .plbInv _ => false
  | .hcOpEntry _ => false
  | .hcOpRoot _ => false
  | .hcOpFrame _ => false
  | .hcOpMigrate _ => false
  | .hcOpReplay _ => false
  | .hcOpDrop _ => false
  | .hcOpUnhold _ => false
  | .hcOpRead _ => false
  | .atomX _ => false
  | .redX _ => false
  | .regang => true
  | .loadResultArrive => true
  | .loadFaultResponse => true
  | .storeAck => true
  | .turnAdmit => true
  | .detLoadPerform => true
  | .floorGatedAction => true
  | .crownFloorUpdate => true
  | .publicationArrive => true
  | .publicationAck => true
  | .mittenUpdateArrive => true
  | .redRefusalReturn => true
  | .floorSideband => true
  | .floorSendInterval => true
  | .barrierComplete => true
  | .engineDispatch => true
  | .matrixPassGrant => true
  | .engineFinish => true
  | .ewaitComplete => true
  | .engineAccessFault => true
  | .matrixOperandFault => true
  | .collectiveTimeout => true
  | .deferredFaultRecord => true
  | .hcAccess => true
  | .turnStallWatchdog => true
  | .taskLeaveIntake => true
  | .domainDescriptorMatch => true
  | .unitPlace => true
  | .opPointStable => true
  | .unitRetire => true
  | .launchRetire => true
  | .residencyPeriodEnd => true
  | .turnDrivenSwapIn => true
  | .homeLocalLoad => true
  | .homeLocalStore => true
  | .invalidationAck => true
  | .invalidationArrive => true
  | .invalidationTimeout => true
  | .fabricRequestArrive => true
  | .reservationExpire => true
  | .refusalReceive => true
  | .refusalResend => true
  | .intermediateForward => true
  | .remoteResponse => true
  | .remoteFaultResponse => true
  | .remoteTimeout => true
  | .floorSilenceTimeout => true
  | .boundaryFilterProbe => true
  | .boundaryFilterAnswer => true
  | .hostMemrd => true
  | .hostMemwr => true
  | .bisnpResponse => true
  | .hostSnpdata => true
  | .hostSnpinv => true
  | .hostSnpcur => true
  | .cxlCacheGrant => true
  | .hostAtomic => true
  | .hostLinkLoss => true
  | .hostLinkRetrain => true
  | .create => true
  | .destroy => true
  | .reset => true
  | .query => true
  | .attest => true
  | .powercap => true
  | .stage => true
  | .startrec => true
  | .restart => true
  | .spdmGetCertificate => true
  | .spdmChallenge => true
  | .spdmGetMeasurements => true
  | .apertureMapWrite => true
  | .fqConfigWrite => true
  | .eselWrite => true
  | .registerWrite => true
  | .deviceStart => true
  | .startStepTimeout => true
  | .startRetry => true
  | .powerCapExceed => true
  | .powerCapRelease => true
  | .thermalHold => true
  | .thermalHoldRelease => true
  | .thermalTrip => true
  | .eccCorrected => true
  | .eccUncorrectable => true
  | .hbmScrub => true
  | .illegalInstruction _ => false
  | .reservedEncoding _ => false
  | .plbFetchResponse => true
  | .engineReadsDone => true
  | .configurationRequest => true
  | .hostLinkDown => true
  | .thermalTripClear => true
  | .minimalPortFallback => true

end Sys2Proof
end

