-- ==== Sys2Proof/Decode.lean ====
section
/-! DEFINITION. The decoder of 32-bit instruction words, the encoder, and the byte form of a word, from the formats of
R173, the opcode map of R178 and the fields that each instruction's description fixes (R176). -/

namespace Sys2Proof

/-! ### Fields of a word, read as a number with bit 0 least significant -/

/-- The fields of Op3R at word bits [22], [21], [20:14], [13:7], [6:0] (R173). -/
def rd3R (w : Nat) : Op3R :=
  { ta := decide (w / 4194304 % 2 = 1), tb := decide (w / 2097152 % 2 = 1), d := BitVec.ofNat 7 (w / 16384), a := BitVec.ofNat 7 (w / 128), b := BitVec.ofNat 7 w }

/-- The fields of Op3A at word bits [22], [20:14], [13:7] (R173). -/
def rd3A (w : Nat) : Op3A :=
  { ta := decide (w / 4194304 % 2 = 1), d := BitVec.ofNat 7 (w / 16384), a := BitVec.ofNat 7 (w / 128) }

/-- The fields of Op2I at word bits [22], [21:15], [14:8], [7:0] (R173). -/
def rd2I (w : Nat) : Op2I :=
  { ta := decide (w / 4194304 % 2 = 1), d := BitVec.ofNat 7 (w / 32768), a := BitVec.ofNat 7 (w / 256), imm := BitVec.ofNat 8 w }

/-- The fields of Op2S at word bits [22], [21:15], [14:8], [5:0] (R173). -/
def rd2S (w : Nat) : Op2S :=
  { ta := decide (w / 4194304 % 2 = 1), d := BitVec.ofNat 7 (w / 32768), a := BitVec.ofNat 7 (w / 256), imm := BitVec.ofNat 6 w }

/-- The fields of OpRI at word bits [22:16], [15:0] (R173). -/
def rdRI (w : Nat) : OpRI :=
  { d := BitVec.ofNat 7 (w / 65536), imm := BitVec.ofNat 16 w }

/-- The fields of OpB at word bits [22:0] (R173). -/
def rdB (w : Nat) : OpB :=
  { off := BitVec.ofNat 23 w }

/-- The fields of OpV at word bits [6:0] (R173). -/
def rdV (w : Nat) : OpV :=
  { a := BitVec.ofNat 7 w }

/-- The fields of OpBC at word bits [22:17], [16:0] (R173). -/
def rdBC (w : Nat) : OpBC :=
  { s := BitVec.ofNat 6 (w / 131072), off := BitVec.ofNat 17 w }

/-- The fields of OpS6 at word bits [22:17] (R173). -/
def rdS6 (w : Nat) : OpS6 :=
  { s := BitVec.ofNat 6 (w / 131072) }

/-- The fields of OpT4 at word bits [3:0] (R173). -/
def rdT4 (w : Nat) : OpT4 :=
  { t := BitVec.ofNat 4 w }

/-- The fields of OpG6 at word bits [5:0] (R173). -/
def rdG6 (w : Nat) : OpG6 :=
  { g := BitVec.ofNat 6 w }

/-- The fields of OpRM at word bits [2], [1:0] (R173). -/
def rdRM (w : Nat) : OpRM :=
  { z := decide (w / 4 % 2 = 1), r := BitVec.ofNat 2 w }

/-- The fields of OpCV at word bits [22:19], [2:0] (R173). -/
def rdCV (w : Nat) : OpCV :=
  { k := BitVec.ofNat 4 (w / 524288), c := BitVec.ofNat 3 w }

/-- The fields of OpS6 at word bits [5:0] (R173). -/
def rdS6_2 (w : Nat) : OpS6 :=
  { s := BitVec.ofNat 6 w }

/-- The fields of OpSN at word bits [14:9], [8:0] (R173). -/
def rdSN (w : Nat) : OpSN :=
  { s := BitVec.ofNat 6 (w / 512), n := BitVec.ofNat 9 w }

/-- The fields of Op3K at word bits [22], [20:14], [13:7], [6:0] (R173). -/
def rd3K (w : Nat) : Op3K :=
  { ta := decide (w / 4194304 % 2 = 1), d := BitVec.ofNat 7 (w / 16384), a := BitVec.ofNat 7 (w / 128), k := BitVec.ofNat 7 w }

/-- The fields of OpDK at word bits [20:14], [13:7] (R173). -/
def rdDK (w : Nat) : OpDK :=
  { d := BitVec.ofNat 7 (w / 16384), k := BitVec.ofNat 7 (w / 128) }

/-- The fields of OpM at word bits [22], [21:15], [14:12], [11:5], [4], [3], [2:0] (R173). -/
def rdM (w : Nat) : OpM :=
  { ta := decide (w / 4194304 % 2 = 1), d := BitVec.ofNat 7 (w / 32768), w := BitVec.ofNat 3 (w / 4096), a := BitVec.ofNat 7 (w / 32), nt := decide (w / 16 % 2 = 1), sx := decide (w / 8 % 2 = 1), sz := BitVec.ofNat 3 w }

/-- The fields of OpMst at word bits [22], [21:15], [14:12], [11:5], [4], [2:0] (R173). -/
def rdMst (w : Nat) : OpMst :=
  { ta := decide (w / 4194304 % 2 = 1), d := BitVec.ofNat 7 (w / 32768), w := BitVec.ofNat 3 (w / 4096), a := BitVec.ofNat 7 (w / 32), nt := decide (w / 16 % 2 = 1), sz := BitVec.ofNat 3 w }

/-- The fields of OpMs at word bits [22], [21:15], [11:5], [3], [2:0] (R173). -/
def rdMs (w : Nat) : OpMs :=
  { ta := decide (w / 4194304 % 2 = 1), d := BitVec.ofNat 7 (w / 32768), a := BitVec.ofNat 7 (w / 32), sx := decide (w / 8 % 2 = 1), sz := BitVec.ofNat 3 w }

/-- The fields of OpMsst at word bits [22], [21:15], [11:5], [2:0] (R173). -/
def rdMsst (w : Nat) : OpMsst :=
  { ta := decide (w / 4194304 % 2 = 1), d := BitVec.ofNat 7 (w / 32768), a := BitVec.ofNat 7 (w / 32), sz := BitVec.ofNat 3 w }

/-- The fields of OpPf at word bits [22], [14:12], [11:5], [0] (R173). -/
def rdPf (w : Nat) : OpPf :=
  { ta := decide (w / 4194304 % 2 = 1), w := BitVec.ofNat 3 (w / 4096), a := BitVec.ofNat 7 (w / 32), l2 := decide (w % 2 = 1) }

/-- The fields of OpDis at word bits [21:15], [14:12], [11:5] (R173). -/
def rdDis (w : Nat) : OpDis :=
  { d := BitVec.ofNat 7 (w / 32768), w := BitVec.ofNat 3 (w / 4096), a := BitVec.ofNat 7 (w / 32) }

/-- The fields of OpWa at word bits [14:12], [11:5] (R173). -/
def rdWa (w : Nat) : OpWa :=
  { w := BitVec.ofNat 3 (w / 4096), a := BitVec.ofNat 7 (w / 32) }

/-- The fields of OpW at word bits [14:12] (R173). -/
def rdW (w : Nat) : OpW :=
  { w := BitVec.ofNat 3 (w / 4096) }

/-- The fields of OpX at word bits [22:21], [20:14], [13:9], [8:2], [1] (R173). -/
def rdX (w : Nat) : OpX :=
  { cls := BitVec.ofNat 2 (w / 2097152), d := BitVec.ofNat 7 (w / 16384), peer := BitVec.ofNat 5 (w / 512), a := BitVec.ofNat 7 (w / 4), ta := decide (w / 2 % 2 = 1) }

/-- The fields of OpPeer at word bits [20:14], [13:9] (R173). -/
def rdPeer (w : Nat) : OpPeer :=
  { d := BitVec.ofNat 7 (w / 16384), peer := BitVec.ofNat 5 (w / 512) }

/-- The fields of OpAtom at word bits [22], [21:15], [14:12], [11:5], [4:0] (R173). -/
def rdAtom (w : Nat) : OpAtom :=
  { ta := decide (w / 4194304 % 2 = 1), d := BitVec.ofNat 7 (w / 32768), w := BitVec.ofNat 3 (w / 4096), a := BitVec.ofNat 7 (w / 32), n := BitVec.ofNat 5 w }

/-- The fields of OpMw at word bits [22], [21:15], [14:12], [11:5] (R173). -/
def rdMw (w : Nat) : OpMw :=
  { ta := decide (w / 4194304 % 2 = 1), d := BitVec.ofNat 7 (w / 32768), w := BitVec.ofNat 3 (w / 4096), a := BitVec.ofNat 7 (w / 32) }

/-- The fields of OpAcq at word bits [22], [21:15], [14:12], [11:5], [2:0] (R173). -/
def rdAcq (w : Nat) : OpAcq :=
  { ta := decide (w / 4194304 % 2 = 1), d := BitVec.ofNat 7 (w / 32768), w := BitVec.ofNat 3 (w / 4096), a := BitVec.ofNat 7 (w / 32), scope := BitVec.ofNat 3 w }

/-- The fields of OpF at word bits [22:20], [19:17], [16:13] (R173). -/
def rdF (w : Nat) : OpF :=
  { kind := BitVec.ofNat 3 (w / 1048576), scope := BitVec.ofNat 3 (w / 131072), mask := BitVec.ofNat 4 (w / 8192) }

/-- The fields of OpN9 at word bits [8:0] (R173). -/
def rdN9 (w : Nat) : OpN9 :=
  { n := BitVec.ofNat 9 w }

/-- The fields of OpS6 at word bits [14:9] (R173). -/
def rdS6_3 (w : Nat) : OpS6 :=
  { s := BitVec.ofNat 6 (w / 512) }

/-- The fields of OpWait at word bits [16:15], [8:0] (R173). -/
def rdWait (w : Nat) : OpWait :=
  { k := BitVec.ofNat 2 (w / 32768), n := BitVec.ofNat 9 w }

/-- The fields of OpH at word bits [22:16] (R173). -/
def rdH (w : Nat) : OpH :=
  { h := BitVec.ofNat 7 (w / 65536) }

/-- The fields of OpHD at word bits [22:16], [15:10] (R173). -/
def rdHD (w : Nat) : OpHD :=
  { h := BitVec.ofNat 7 (w / 65536), d := BitVec.ofNat 6 (w / 1024) }

/-- The fields of OpE at word bits [15:10], [2:0] (R173). -/
def rdE (w : Nat) : OpE :=
  { d := BitVec.ofNat 6 (w / 1024), k := BitVec.ofNat 3 w }

/-- The fields of OpHE at word bits [22:16], [15:10], [2:0] (R173). -/
def rdHE (w : Nat) : OpHE :=
  { h := BitVec.ofNat 7 (w / 65536), d := BitVec.ofNat 6 (w / 1024), k := BitVec.ofNat 3 w }

/-- The fields of OpMloop at word bits [15:10], [9:4], [2:0] (R173). -/
def rdMloop (w : Nat) : OpMloop :=
  { d := BitVec.ofNat 6 (w / 1024), f := BitVec.ofNat 6 (w / 16), k := BitVec.ofNat 3 w }

/-- The fields of OpAcc at word bits [21:19], [18:16], [2:0] (R173). -/
def rdAcc (w : Nat) : OpAcc :=
  { n1 := BitVec.ofNat 3 (w / 524288), b := BitVec.ofNat 3 (w / 65536), k := BitVec.ofNat 3 w }

/-- The fields of OpAccD at word bits [21:19], [18:16], [15:10], [2:0] (R173). -/
def rdAccD (w : Nat) : OpAccD :=
  { n1 := BitVec.ofNat 3 (w / 524288), b := BitVec.ofNat 3 (w / 65536), d := BitVec.ofNat 6 (w / 1024), k := BitVec.ofNat 3 w }

/-- The fields of OpEw at word bits [22:16], [2:0] (R173). -/
def rdEw (w : Nat) : OpEw :=
  { n := BitVec.ofNat 7 (w / 65536), k := BitVec.ofNat 3 w }

/-- The fields of OpPlb at word bits [22:15], [14:9] (R173). -/
def rdPlb (w : Nat) : OpPlb :=
  { k := BitVec.ofNat 8 (w / 32768), s := BitVec.ofNat 6 (w / 512) }

/-- The fields of OpXn at word bits [27:23], [22:21], [20:14], [13:9], [8:2], [1] (R173). -/
def rdXn (w : Nat) : OpXn :=
  { n := BitVec.ofNat 5 (w / 8388608), cls := BitVec.ofNat 2 (w / 2097152), d := BitVec.ofNat 7 (w / 16384), peer := BitVec.ofNat 5 (w / 512), a := BitVec.ofNat 7 (w / 4), ta := decide (w / 2 % 2 = 1) }

/-! ### Opcode map -/

/-- The instruction of a word w whose opcode lies from 0x000 to 0x03F (R178). -/
def decodeScalar (op w : Nat) : Instr :=
  match op with
  | 0x001 => .add (rd3R w)
  | 0x002 => .sub (rd3R w)
  | 0x003 => .mul (rd3R w)
  | 0x004 => .mulh (rd3R w)
  | 0x005 => .mulhn (rd3R w)
  | 0x006 => .div (rd3R w)
  | 0x007 => .divn (rd3R w)
  | 0x008 => .rem (rd3R w)
  | 0x009 => .remn (rd3R w)
  | 0x00A => .andS (rd3R w)
  | 0x00B => .orS (rd3R w)
  | 0x00C => .xorS (rd3R w)
  | 0x00D => .shl (rd3R w)
  | 0x00E => .shr (rd3R w)
  | 0x00F => .sra (rd3R w)
  | 0x010 => .minS (rd3R w)
  | 0x011 => .maxS (rd3R w)
  | 0x012 => .minn (rd3R w)
  | 0x013 => .maxn (rd3R w)
  | 0x014 => .slt (rd3R w)
  | 0x015 => .sltn (rd3R w)
  | 0x016 => .seq (rd3R w)
  | 0x017 => .sel (rd3R w)
  | 0x018 => if w % 128 = 0 ∧ w / 2097152 % 2 = 0 then .clz (rd3A w) else .reservedEncoding (BitVec.ofNat 32 w)
  | 0x019 => if w % 128 = 0 ∧ w / 2097152 % 2 = 0 then .ctz (rd3A w) else .reservedEncoding (BitVec.ofNat 32 w)
  | 0x01A => if w % 128 = 0 ∧ w / 2097152 % 2 = 0 then .pop (rd3A w) else .reservedEncoding (BitVec.ofNat 32 w)
  | 0x01B => .lea (rd3R w)
  | 0x020 => .addi (rd2I w)
  | 0x021 => .andi (rd2I w)
  | 0x022 => .ori (rd2I w)
  | 0x023 => .xori (rd2I w)
  | 0x024 => if w / 64 % 4 = 0 then .shli (rd2S w) else .reservedEncoding (BitVec.ofNat 32 w)
  | 0x025 => if w / 64 % 4 = 0 then .shri (rd2S w) else .reservedEncoding (BitVec.ofNat 32 w)
  | 0x026 => if w / 64 % 4 = 0 then .srai (rd2S w) else .reservedEncoding (BitVec.ofNat 32 w)
  | 0x028 => .movi (rdRI w)
  | 0x029 => .movh (rdRI w)
  | _ => .illegalInstruction (BitVec.ofNat 32 w)

/-- The instruction of a word w whose opcode lies from 0x040 to 0x07F (R178). -/
def decodeControl (op w : Nat) : Instr :=
  match op with
  | 0x040 => .jmp (rdB w)
  | 0x041 => .jal (rdB w)
  | 0x042 => .jr (rd2I w)
  | 0x043 => .call (rdB w)
  | 0x044 => if w % 8388608 = 0 then .ret else if w / 128 % 65536 = 256 then .retVa (rdV w) else .reservedEncoding (BitVec.ofNat 32 w)
  | 0x045 => .bz (rdBC w)
  | 0x046 => .bnz (rdBC w)
  | 0x047 => .bany (rdBC w)
  | 0x048 => .ball (rdBC w)
  | 0x049 => .vbr (rdBC w)
  | 0x04A => if w % 131072 = 0 then .loopSetLc0 (rdS6 w) else if w % 131072 = 131071 then .loopGetLc0 (rdS6 w) else .loopLc0 (rdBC w)
  | 0x04B => if w % 131072 = 0 then .loopSetLc1 (rdS6 w) else if w % 131072 = 131071 then .loopGetLc1 (rdS6 w) else .loopLc1 (rdBC w)
  | 0x04C => if w % 8388608 = 0 then .region else .reservedEncoding (BitVec.ofNat 32 w)
  | 0x04D => if w % 8388608 = 0 then .yield else .reservedEncoding (BitVec.ofNat 32 w)
  | 0x04E => if w % 8388608 = 0 then .nop else .reservedEncoding (BitVec.ofNat 32 w)
  | 0x04F => if w % 8388608 = 0 then .halt else .reservedEncoding (BitVec.ofNat 32 w)
  | 0x050 => if w / 16 % 524288 = 0 then .modeT (rdT4 w) else .reservedEncoding (BitVec.ofNat 32 w)
  | 0x051 => if w / 64 % 131072 = 0 then .modeG (rdG6 w) else .reservedEncoding (BitVec.ofNat 32 w)
  | 0x052 => if w / 8 % 1048576 = 0 then .modeRm (rdRM w) else .reservedEncoding (BitVec.ofNat 32 w)
  | 0x053 => if w / 8 % 65536 = 0 then .modeCv (rdCV w) else .reservedEncoding (BitVec.ofNat 32 w)
  | 0x054 => if w / 64 % 131072 = 0 then .modeLd (rdS6_2 w) else .reservedEncoding (BitVec.ofNat 32 w)
  | 0x055 => if w / 64 % 131072 = 0 then .modeSt (rdS6_2 w) else .reservedEncoding (BitVec.ofNat 32 w)
  | 0x056 => if w / 32768 % 256 = 0 then .rdsp (rdSN w) else .reservedEncoding (BitVec.ofNat 32 w)
  | _ => .illegalInstruction (BitVec.ofNat 32 w)

/-- The instruction of a word w whose opcode lies from 0x080 to 0x09F (R178). -/
def decodeVectorInt (op w : Nat) : Instr :=
  match op with
  | 0x080 => .vadd (rd3R w)
  | 0x081 => .vsub (rd3R w)
  | 0x082 => .vmul (rd3R w)
  | 0x083 => .vmulh (rd3R w)
  | 0x084 => .vmad (rd3R w)
  | 0x085 => .vand (rd3R w)
  | 0x086 => .vor (rd3R w)
  | 0x087 => .vxor (rd3R w)
  | 0x088 => if w % 128 = 0 ∧ w / 2097152 % 2 = 0 then .vnot (rd3A w) else .reservedEncoding (BitVec.ofNat 32 w)
  | 0x089 => .vshl (rd3R w)
  | 0x08A => .vshr (rd3R w)
  | 0x08B => .vsra (rd3R w)
  | 0x08C => .vmin (rd3R w)
  | 0x08D => .vmax (rd3R w)
  | 0x08E => if w % 128 = 0 ∧ w / 2097152 % 2 = 0 then .vabs (rd3A w) else .reservedEncoding (BitVec.ofNat 32 w)
  | 0x08F => if w % 128 = 0 ∧ w / 2097152 % 2 = 0 then .vneg (rd3A w) else .reservedEncoding (BitVec.ofNat 32 w)
  | 0x090 => if w % 128 = 0 ∧ w / 2097152 % 2 = 0 then .vclz (rd3A w) else .reservedEncoding (BitVec.ofNat 32 w)
  | 0x091 => if w % 128 = 0 ∧ w / 2097152 % 2 = 0 then .vpop (rd3A w) else .reservedEncoding (BitVec.ofNat 32 w)
  | 0x092 => .vcmp (rd3R w)
  | 0x093 => .vsel (rd3R w)
  | 0x094 => if w % 128 = 0 ∧ w / 2097152 % 2 = 0 then .vmov (rd3A w) else .reservedEncoding (BitVec.ofNat 32 w)
  | 0x095 => .vbcs (rd3R w)
  | 0x096 => .vbfe (rd3R w)
  | 0x097 => .vbfi (rd3R w)
  | 0x098 => .vadds (rd3R w)
  | _ => .illegalInstruction (BitVec.ofNat 32 w)

/-- The instruction of a word w whose opcode lies from 0x0A0 to 0x0BF (R178). -/
def decodeVectorFloat (op w : Nat) : Instr :=
  match op with
  | 0x0A0 => .vfadd (rd3R w)
  | 0x0A1 => .vfsub (rd3R w)
  | 0x0A2 => .vfmul (rd3R w)
  | 0x0A3 => .vffma (rd3R w)
  | 0x0A4 => if w % 128 = 0 ∧ w / 2097152 % 2 = 0 then .vfneg (rd3A w) else .reservedEncoding (BitVec.ofNat 32 w)
  | 0x0A5 => if w % 128 = 0 ∧ w / 2097152 % 2 = 0 then .vfabs (rd3A w) else .reservedEncoding (BitVec.ofNat 32 w)
  | 0x0A6 => .vfmin (rd3R w)
  | 0x0A7 => .vfmax (rd3R w)
  | 0x0A8 => .vfcmp (rd3R w)
  | 0x0A9 => if w % 128 = 0 ∧ w / 2097152 % 2 = 0 then .vfrcp (rd3A w) else .reservedEncoding (BitVec.ofNat 32 w)
  | 0x0AA => if w % 128 = 0 ∧ w / 2097152 % 2 = 0 then .vfrsq (rd3A w) else .reservedEncoding (BitVec.ofNat 32 w)
  | 0x0AB => if w % 128 = 0 ∧ w / 2097152 % 2 = 0 then .vfsqrt (rd3A w) else .reservedEncoding (BitVec.ofNat 32 w)
  | 0x0AC => if w % 128 = 0 ∧ w / 2097152 % 2 = 0 then .vfexp2 (rd3A w) else .reservedEncoding (BitVec.ofNat 32 w)
  | 0x0AD => if w % 128 = 0 ∧ w / 2097152 % 2 = 0 then .vflog2 (rd3A w) else .reservedEncoding (BitVec.ofNat 32 w)
  | 0x0AE => if w % 128 = 0 ∧ w / 2097152 % 2 = 0 then .vfsin (rd3A w) else .reservedEncoding (BitVec.ofNat 32 w)
  | 0x0AF => if w % 128 = 0 ∧ w / 2097152 % 2 = 0 then .vfcos (rd3A w) else .reservedEncoding (BitVec.ofNat 32 w)
  | 0x0B0 => if w % 128 = 0 ∧ w / 2097152 % 2 = 0 then .vftanh (rd3A w) else .reservedEncoding (BitVec.ofNat 32 w)
  | 0x0B1 => if w % 128 = 0 ∧ w / 2097152 % 2 = 0 then .vfclass (rd3A w) else .reservedEncoding (BitVec.ofNat 32 w)
  | _ => .illegalInstruction (BitVec.ofNat 32 w)

/-- The instruction of a word w whose opcode lies from 0x0C0 to 0x0DF (R178). -/
def decodeConvert (op w : Nat) : Instr :=
  match op with
  | 0x0C0 => if w % 128 = 0 ∧ w / 2097152 % 2 = 0 then .vcvtF64 (rd3A w) else .reservedEncoding (BitVec.ofNat 32 w)
  | 0x0C1 => if w % 128 = 0 ∧ w / 2097152 % 2 = 0 then .vcvtF32 (rd3A w) else .reservedEncoding (BitVec.ofNat 32 w)
  | 0x0C2 => if w % 128 = 0 ∧ w / 2097152 % 2 = 0 then .vcvtF16 (rd3A w) else .reservedEncoding (BitVec.ofNat 32 w)
  | 0x0C3 => if w % 128 = 0 ∧ w / 2097152 % 2 = 0 then .vcvtBf16 (rd3A w) else .reservedEncoding (BitVec.ofNat 32 w)
  | 0x0C4 => if w % 128 = 0 ∧ w / 2097152 % 2 = 0 then .vcvtE4m3 (rd3A w) else .reservedEncoding (BitVec.ofNat 32 w)
  | 0x0C5 => if w % 128 = 0 ∧ w / 2097152 % 2 = 0 then .vcvtE5m2 (rd3A w) else .reservedEncoding (BitVec.ofNat 32 w)
  | 0x0C6 => if w % 128 = 0 ∧ w / 2097152 % 2 = 0 then .vcvtE3m2 (rd3A w) else .reservedEncoding (BitVec.ofNat 32 w)
  | 0x0C7 => if w % 128 = 0 ∧ w / 2097152 % 2 = 0 then .vcvtE2m3 (rd3A w) else .reservedEncoding (BitVec.ofNat 32 w)
  | 0x0C8 => if w % 128 = 0 ∧ w / 2097152 % 2 = 0 then .vcvtE2m1 (rd3A w) else .reservedEncoding (BitVec.ofNat 32 w)
  | 0x0C9 => if w % 128 = 0 ∧ w / 2097152 % 2 = 0 then .vcvtI32 (rd3A w) else .reservedEncoding (BitVec.ofNat 32 w)
  | 0x0CA => if w % 128 = 0 ∧ w / 2097152 % 2 = 0 then .vcvtN32 (rd3A w) else .reservedEncoding (BitVec.ofNat 32 w)
  | 0x0CB => if w % 128 = 0 ∧ w / 2097152 % 2 = 0 then .vcvtI16 (rd3A w) else .reservedEncoding (BitVec.ofNat 32 w)
  | 0x0CC => if w % 128 = 0 ∧ w / 2097152 % 2 = 0 then .vcvtN16 (rd3A w) else .reservedEncoding (BitVec.ofNat 32 w)
  | 0x0CD => if w % 128 = 0 ∧ w / 2097152 % 2 = 0 then .vcvtI8 (rd3A w) else .reservedEncoding (BitVec.ofNat 32 w)
  | 0x0CE => if w % 128 = 0 ∧ w / 2097152 % 2 = 0 then .vcvtN8 (rd3A w) else .reservedEncoding (BitVec.ofNat 32 w)
  | 0x0CF => if w % 128 = 0 ∧ w / 2097152 % 2 = 0 then .vcvtI4 (rd3A w) else .reservedEncoding (BitVec.ofNat 32 w)
  | 0x0D0 => if w % 128 = 0 ∧ w / 2097152 % 2 = 0 then .vcvtN4 (rd3A w) else .reservedEncoding (BitVec.ofNat 32 w)
  | 0x0D1 => if w / 2097152 % 2 = 0 then .vpack (rd3K w) else .reservedEncoding (BitVec.ofNat 32 w)
  | 0x0D2 => if w / 2097152 % 2 = 0 then .vunpk (rd3K w) else .reservedEncoding (BitVec.ofNat 32 w)
  | _ => .illegalInstruction (BitVec.ofNat 32 w)

/-- The instruction of a word w whose opcode lies from 0x0E0 to 0x0FF (R178). -/
def decodeCrossLane (op w : Nat) : Instr :=
  match op with
  | 0x0E0 => .vshf (rd3R w)
  | 0x0E1 => .vshfx (rd3R w)
  | 0x0E2 => .vshfu (rd3R w)
  | 0x0E3 => .vshfd (rd3R w)
  | 0x0E4 => if w % 128 = 0 ∧ w / 2097152 % 4 = 0 then .vlane (rdDK w) else .reservedEncoding (BitVec.ofNat 32 w)
  | 0x0E5 => if w / 2097152 % 2 = 0 then .vvote (rd3K w) else .reservedEncoding (BitVec.ofNat 32 w)
  | 0x0E6 => if w % 128 = 0 ∧ w / 2097152 % 2 = 0 then .vballot (rd3A w) else .reservedEncoding (BitVec.ofNat 32 w)
  | 0x0E7 => if w / 2097152 % 2 = 0 then .vred (rd3K w) else .reservedEncoding (BitVec.ofNat 32 w)
  | 0x0E8 => if w / 2097152 % 2 = 0 then .vscan (rd3K w) else .reservedEncoding (BitVec.ofNat 32 w)
  | 0x0E9 => .vmaxi (rd3R w)
  | 0x0EA => .vtopk (rd3R w)
  | 0x0EB => if w % 128 = 0 ∧ w / 2097152 % 4 = 0 then .rdw (rdDK w) else .reservedEncoding (BitVec.ofNat 32 w)
  | _ => .illegalInstruction (BitVec.ofNat 32 w)

/-- The instruction of a word w whose opcode lies from 0x100 to 0x11F (R178). -/
def decodeMemory (op w : Nat) : Instr :=
  match op with
  | 0x100 => .ldG (rdM w)
  | 0x101 => if w / 8 % 2 = 0 then .stG (rdMst w) else .reservedEncoding (BitVec.ofNat 32 w)
  | 0x102 => if w / 16 % 2 = 0 ∧ w / 4096 % 8 = 0 then .ldS (rdMs w) else .reservedEncoding (BitVec.ofNat 32 w)
  | 0x103 => if w / 8 % 4 = 0 ∧ w / 4096 % 8 = 0 then .stS (rdMsst w) else .reservedEncoding (BitVec.ofNat 32 w)
  | 0x104 => .ldU (rdM w)
  | 0x105 => if w / 8 % 2 = 0 then .stU (rdMst w) else .reservedEncoding (BitVec.ofNat 32 w)
  | 0x106 => if w / 2 % 16 = 0 ∧ w / 32768 % 128 = 0 then .pf (rdPf w) else .reservedEncoding (BitVec.ofNat 32 w)
  | 0x107 => if w % 32 = 0 ∧ w / 4194304 % 2 = 0 then .dis (rdDis w) else .reservedEncoding (BitVec.ofNat 32 w)
  | 0x108 => if w % 32 = 0 ∧ w / 32768 % 256 = 0 then .winOpen (rdWa w) else .reservedEncoding (BitVec.ofNat 32 w)
  | 0x109 => if w % 4096 = 0 ∧ w / 32768 % 256 = 0 then .winClose (rdW w) else .reservedEncoding (BitVec.ofNat 32 w)
  | 0x110 => if w % 2 = 0 then .ldX (rdX w) else .reservedEncoding (BitVec.ofNat 32 w)
  | 0x111 => if w % 2 = 0 then .stX (rdX w) else .reservedEncoding (BitVec.ofNat 32 w)
  | 0x112 => if w % 512 = 0 ∧ w / 2097152 % 4 = 0 then .peerCap (rdPeer w) else .reservedEncoding (BitVec.ofNat 32 w)
  | _ => .illegalInstruction (BitVec.ofNat 32 w)

/-- The instruction of a word w whose opcode lies from 0x120 to 0x12F (R178). -/
def decodeSync (op w : Nat) : Instr :=
  match op with
  | 0x120 => .atom (rdAtom w)
  | 0x121 => if w % 32 = 0 then .atomCas (rdMw w) else if w % 32 = 1 then .atomCas16 (rdMw w) else .reservedEncoding (BitVec.ofNat 32 w)
  | 0x122 => if w % 32 = 0 then .atomMaxi (rdMw w) else .reservedEncoding (BitVec.ofNat 32 w)
  | 0x123 => .red (rdAtom w)
  | 0x124 => if w / 8 % 4 = 0 then .acq (rdAcq w) else .reservedEncoding (BitVec.ofNat 32 w)
  | 0x125 => if w / 8 % 4 = 0 then .rel (rdAcq w) else .reservedEncoding (BitVec.ofNat 32 w)
  | 0x126 => if w % 8192 = 0 then .fence (rdF w) else .reservedEncoding (BitVec.ofNat 32 w)
  | 0x127 => if w % 8388608 = 0 then .bar else .reservedEncoding (BitVec.ofNat 32 w)
  | 0x128 => if w % 8388608 = 0 then .barC else .reservedEncoding (BitVec.ofNat 32 w)
  | 0x129 => if w % 8388608 = 0 then .barG else .reservedEncoding (BitVec.ofNat 32 w)
  | 0x12A => if w % 8388608 = 0 then .turn else .reservedEncoding (BitVec.ofNat 32 w)
  | 0x12B => if w % 512 = 0 ∧ w / 32768 % 256 = 1 then .cjmpReg (rdS6_3 w) else if w / 512 % 16384 = 0 then .cjmpImm (rdN9 w) else .reservedEncoding (BitVec.ofNat 32 w)
  | 0x12C => if w % 512 = 0 ∧ w / 32768 % 256 = 0 then .cjmpto (rdS6_3 w) else .reservedEncoding (BitVec.ofNat 32 w)
  | 0x12D => if w % 512 = 0 ∧ w / 32768 % 256 = 0 then .rdclk (rdS6_3 w) else .reservedEncoding (BitVec.ofNat 32 w)
  | 0x12E => if w % 512 = 0 ∧ w / 32768 % 256 = 0 then .rdq (rdS6_3 w) else .reservedEncoding (BitVec.ofNat 32 w)
  | 0x12F => if w / 512 % 64 = 0 ∧ w / 131072 % 64 = 0 then .waitCnt (rdWait w) else .reservedEncoding (BitVec.ofNat 32 w)
  | _ => .illegalInstruction (BitVec.ofNat 32 w)

/-- The instruction of a word w whose opcode lies from 0x130 to 0x13F (R178). -/
def decodeEngine (op w : Nat) : Instr :=
  match op with
  | 0x130 => if w % 65536 = 0 then .tileOwn (rdH w) else .reservedEncoding (BitVec.ofNat 32 w)
  | 0x131 => if w % 65536 = 0 then .tileSeal (rdH w) else .reservedEncoding (BitVec.ofNat 32 w)
  | 0x132 => if w % 65536 = 0 then .tileFree (rdH w) else .reservedEncoding (BitVec.ofNat 32 w)
  | 0x133 => if w % 1024 = 0 then .tileQ (rdHD w) else .reservedEncoding (BitVec.ofNat 32 w)
  | 0x134 => if w / 8 % 128 = 0 ∧ w / 65536 % 128 = 0 then .cp (rdE w) else if w / 8 % 128 = 1 ∧ w / 65536 % 128 = 0 then .cpR (rdE w) else .reservedEncoding (BitVec.ofNat 32 w)
  | 0x135 => if w / 8 % 128 = 0 ∧ w / 65536 % 128 = 0 then .cpX (rdE w) else if w / 8 % 128 = 1 ∧ w / 65536 % 128 = 0 then .cpXR (rdE w) else .reservedEncoding (BitVec.ofNat 32 w)
  | 0x136 => if w / 8 % 128 = 0 then .gat (rdHE w) else if w / 8 % 128 = 1 then .gatR (rdHE w) else .reservedEncoding (BitVec.ofNat 32 w)
  | 0x137 => if w / 8 % 128 = 0 then .scat (rdHE w) else if w / 8 % 128 = 1 then .scatR (rdHE w) else .reservedEncoding (BitVec.ofNat 32 w)
  | 0x138 => if w / 8 % 128 = 0 ∧ w / 65536 % 128 = 0 then .coll (rdE w) else if w / 8 % 128 = 1 ∧ w / 65536 % 128 = 0 then .collR (rdE w) else .reservedEncoding (BitVec.ofNat 32 w)
  | 0x139 => if w / 8 % 2 = 0 ∧ w / 65536 % 128 = 0 then .mloop (rdMloop w) else .reservedEncoding (BitVec.ofNat 32 w)
  | 0x13A => if w / 8 % 8192 = 0 ∧ w / 4194304 % 2 = 0 then .maccZ (rdAcc w) else if w / 8 % 8192 = 1 ∧ w / 4194304 % 2 = 0 then .maccZR (rdAcc w) else .reservedEncoding (BitVec.ofNat 32 w)
  | 0x13B => if w / 8 % 128 = 0 ∧ w / 4194304 % 2 = 0 then .maccLd (rdAccD w) else if w / 8 % 128 = 1 ∧ w / 4194304 % 2 = 0 then .maccLdR (rdAccD w) else .reservedEncoding (BitVec.ofNat 32 w)
  | 0x13C => if w / 8 % 128 = 0 ∧ w / 4194304 % 2 = 0 then .maccSt (rdAccD w) else if w / 8 % 128 = 1 ∧ w / 4194304 % 2 = 0 then .maccStR (rdAccD w) else .reservedEncoding (BitVec.ofNat 32 w)
  | 0x13D => if w / 8 % 8192 = 0 then .ewait (rdEw w) else .reservedEncoding (BitVec.ofNat 32 w)
  | 0x13E => if w / 8 % 128 = 0 ∧ w / 65536 % 128 = 0 then .epoll (rdE w) else .reservedEncoding (BitVec.ofNat 32 w)
  | _ => .illegalInstruction (BitVec.ofNat 32 w)

/-- The instruction of a word w whose opcode lies from 0x140 to 0x17F (R178). -/
def decodeSystem (op w : Nat) : Instr :=
  match op with
  | 0x140 => if w / 32768 % 256 = 0 then .taskSig (rdSN w) else .reservedEncoding (BitVec.ofNat 32 w)
  | 0x141 => if w / 32768 % 256 = 0 then .taskPost (rdSN w) else .reservedEncoding (BitVec.ofNat 32 w)
  | 0x142 => if w % 8388608 = 0 then .taskDone else .reservedEncoding (BitVec.ofNat 32 w)
  | 0x150 => if w / 512 % 16384 = 0 then .trap (rdN9 w) else .reservedEncoding (BitVec.ofNat 32 w)
  | 0x151 => if w % 8388608 = 0 then .rte else .reservedEncoding (BitVec.ofNat 32 w)
  | 0x152 => if w / 32768 % 256 = 0 then .csrr (rdSN w) else .reservedEncoding (BitVec.ofNat 32 w)
  | 0x153 => if w / 32768 % 256 = 0 then .csrw (rdSN w) else .reservedEncoding (BitVec.ofNat 32 w)
  | 0x154 => if w / 32768 % 256 = 0 then .csrs (rdSN w) else .reservedEncoding (BitVec.ofNat 32 w)
  | 0x155 => if w / 32768 % 256 = 0 then .csrc (rdSN w) else .reservedEncoding (BitVec.ofNat 32 w)
  | 0x156 => if w / 512 % 16384 = 0 then .brk (rdN9 w) else .reservedEncoding (BitVec.ofNat 32 w)
  | 0x157 => if w / 32768 % 256 = 0 then .pmcRead (rdSN w) else if w / 32768 % 256 = 1 then .pmcReadClear (rdSN w) else .reservedEncoding (BitVec.ofNat 32 w)
  | 0x158 => if w / 32768 % 256 = 0 then .icinv (rdSN w) else .reservedEncoding (BitVec.ofNat 32 w)
  | 0x159 => if w % 512 = 0 then .plbInv (rdPlb w) else .reservedEncoding (BitVec.ofNat 32 w)
  | 0x15A => if w % 512 = 0 ∧ w / 32768 % 256 = 0 then .hcOpEntry (rdS6_3 w) else if w % 512 = 0 ∧ w / 32768 % 256 = 1 then .hcOpRoot (rdS6_3 w) else if w % 512 = 0 ∧ w / 32768 % 256 = 2 then .hcOpFrame (rdS6_3 w) else if w % 512 = 0 ∧ w / 32768 % 256 = 3 then .hcOpMigrate (rdS6_3 w) else if w % 512 = 0 ∧ w / 32768 % 256 = 4 then .hcOpReplay (rdS6_3 w) else if w % 512 = 0 ∧ w / 32768 % 256 = 5 then .hcOpDrop (rdS6_3 w) else if w % 512 = 0 ∧ w / 32768 % 256 = 6 then .hcOpUnhold (rdS6_3 w) else if w % 512 = 0 ∧ w / 32768 % 256 = 7 then .hcOpRead (rdS6_3 w) else .reservedEncoding (BitVec.ofNat 32 w)
  | _ => .illegalInstruction (BitVec.ofNat 32 w)

/-- The instruction a 32-bit word holds (R172, R173, R178): an unassigned opcode is the row ILLEGAL_INSTRUCTION, and an
assigned opcode with a field value its rows exclude is the row RESERVED_ENCODING. -/
def decodeNat (w : Nat) : Instr :=
  let op := w / 8388608 % 512
  if op < 0x040 then decodeScalar op w
  else if op < 0x080 then decodeControl op w
  else if op < 0x0A0 then decodeVectorInt op w
  else if op < 0x0C0 then decodeVectorFloat op w
  else if op < 0x0E0 then decodeConvert op w
  else if op < 0x100 then decodeCrossLane op w
  else if op < 0x120 then decodeMemory op w
  else if op < 0x130 then decodeSync op w
  else if op < 0x140 then decodeEngine op w
  else if op < 0x180 then decodeSystem op w
  else if op < 0x1A0 then
    if w % 2 = 0 then .atomX (rdXn w)
    else if (List.range 7 ++ [8, 9, 10]).contains (op - 0x180) then .reservedEncoding (BitVec.ofNat 32 w)
    else .illegalInstruction (BitVec.ofNat 32 w)
  else if op < 0x1C0 then
    if w % 2 = 0 then .redX (rdXn w)
    else if op - 0x1A0 < 6 then .reservedEncoding (BitVec.ofNat 32 w)
    else .illegalInstruction (BitVec.ofNat 32 w)
  else .illegalInstruction (BitVec.ofNat 32 w)

/-- The instruction of a 32-bit word. -/
def decode (w : BitVec 32) : Instr := decodeNat w.toNat

/-- Why bytes are no instruction word. -/
inductive DecodeError where
  /-- Fewer than the four bytes of a word (R172). -/
  | tooShort
  deriving DecidableEq, Repr

/-- The 32-bit word of four bytes, little-endian (R5, R172). -/
def wordOfBytes (b0 b1 b2 b3 : Byte) : BitVec 32 :=
  BitVec.ofNat 32 (b0.toNat + b1.toNat * 256 + b2.toNat * 65536 + b3.toNat * 16777216)

/-- The four bytes of a 32-bit word, lowest address first. -/
def bytesOfWord (w : BitVec 32) : List Byte :=
  [BitVec.ofNat 8 w.toNat, BitVec.ofNat 8 (w.toNat / 256), BitVec.ofNat 8 (w.toNat / 65536),
   BitVec.ofNat 8 (w.toNat / 16777216)]

/-- Decoding from any bytes: the instruction and the bytes after it, or why there is none. -/
def decodeBytes (bs : List Byte) : Except DecodeError (Instr × List Byte) :=
  match bs with
  | b0 :: b1 :: b2 :: b3 :: rest => .ok (decode (wordOfBytes b0 b1 b2 b3), rest)
  | _ => .error .tooShort

/-- The instruction the decoder reads from an instruction whose bits are w, laid out as the hardware stores them: one
little-endian word (R172). -/
def decodeTableWord (nbits w : Nat) : Option Instr :=
  if nbits ≤ 32 then
    match decodeBytes (bytesOfWord (BitVec.ofNat 32 w)) with
    | .ok (i, _) => some i
    | .error _ => none
  else none

/-! ### Encoder -/

/-- The word of an encoded instruction; none for a step that has no encoding. -/
def encode (i : Instr) : Option (BitVec 32) :=
  match i with
  | .add o => some (BitVec.ofNat 32 (0x00800000 + o.ta.toNat * 4194304 + o.tb.toNat * 2097152 + o.d.toNat * 16384 + o.a.toNat * 128 + o.b.toNat))
  | .sub o => some (BitVec.ofNat 32 (0x01000000 + o.ta.toNat * 4194304 + o.tb.toNat * 2097152 + o.d.toNat * 16384 + o.a.toNat * 128 + o.b.toNat))
  | .mul o => some (BitVec.ofNat 32 (0x01800000 + o.ta.toNat * 4194304 + o.tb.toNat * 2097152 + o.d.toNat * 16384 + o.a.toNat * 128 + o.b.toNat))
  | .mulh o => some (BitVec.ofNat 32 (0x02000000 + o.ta.toNat * 4194304 + o.tb.toNat * 2097152 + o.d.toNat * 16384 + o.a.toNat * 128 + o.b.toNat))
  | .mulhn o => some (BitVec.ofNat 32 (0x02800000 + o.ta.toNat * 4194304 + o.tb.toNat * 2097152 + o.d.toNat * 16384 + o.a.toNat * 128 + o.b.toNat))
  | .div o => some (BitVec.ofNat 32 (0x03000000 + o.ta.toNat * 4194304 + o.tb.toNat * 2097152 + o.d.toNat * 16384 + o.a.toNat * 128 + o.b.toNat))
  | .divn o => some (BitVec.ofNat 32 (0x03800000 + o.ta.toNat * 4194304 + o.tb.toNat * 2097152 + o.d.toNat * 16384 + o.a.toNat * 128 + o.b.toNat))
  | .rem o => some (BitVec.ofNat 32 (0x04000000 + o.ta.toNat * 4194304 + o.tb.toNat * 2097152 + o.d.toNat * 16384 + o.a.toNat * 128 + o.b.toNat))
  | .remn o => some (BitVec.ofNat 32 (0x04800000 + o.ta.toNat * 4194304 + o.tb.toNat * 2097152 + o.d.toNat * 16384 + o.a.toNat * 128 + o.b.toNat))
  | .andS o => some (BitVec.ofNat 32 (0x05000000 + o.ta.toNat * 4194304 + o.tb.toNat * 2097152 + o.d.toNat * 16384 + o.a.toNat * 128 + o.b.toNat))
  | .orS o => some (BitVec.ofNat 32 (0x05800000 + o.ta.toNat * 4194304 + o.tb.toNat * 2097152 + o.d.toNat * 16384 + o.a.toNat * 128 + o.b.toNat))
  | .xorS o => some (BitVec.ofNat 32 (0x06000000 + o.ta.toNat * 4194304 + o.tb.toNat * 2097152 + o.d.toNat * 16384 + o.a.toNat * 128 + o.b.toNat))
  | .shl o => some (BitVec.ofNat 32 (0x06800000 + o.ta.toNat * 4194304 + o.tb.toNat * 2097152 + o.d.toNat * 16384 + o.a.toNat * 128 + o.b.toNat))
  | .shr o => some (BitVec.ofNat 32 (0x07000000 + o.ta.toNat * 4194304 + o.tb.toNat * 2097152 + o.d.toNat * 16384 + o.a.toNat * 128 + o.b.toNat))
  | .sra o => some (BitVec.ofNat 32 (0x07800000 + o.ta.toNat * 4194304 + o.tb.toNat * 2097152 + o.d.toNat * 16384 + o.a.toNat * 128 + o.b.toNat))
  | .minS o => some (BitVec.ofNat 32 (0x08000000 + o.ta.toNat * 4194304 + o.tb.toNat * 2097152 + o.d.toNat * 16384 + o.a.toNat * 128 + o.b.toNat))
  | .maxS o => some (BitVec.ofNat 32 (0x08800000 + o.ta.toNat * 4194304 + o.tb.toNat * 2097152 + o.d.toNat * 16384 + o.a.toNat * 128 + o.b.toNat))
  | .minn o => some (BitVec.ofNat 32 (0x09000000 + o.ta.toNat * 4194304 + o.tb.toNat * 2097152 + o.d.toNat * 16384 + o.a.toNat * 128 + o.b.toNat))
  | .maxn o => some (BitVec.ofNat 32 (0x09800000 + o.ta.toNat * 4194304 + o.tb.toNat * 2097152 + o.d.toNat * 16384 + o.a.toNat * 128 + o.b.toNat))
  | .slt o => some (BitVec.ofNat 32 (0x0A000000 + o.ta.toNat * 4194304 + o.tb.toNat * 2097152 + o.d.toNat * 16384 + o.a.toNat * 128 + o.b.toNat))
  | .sltn o => some (BitVec.ofNat 32 (0x0A800000 + o.ta.toNat * 4194304 + o.tb.toNat * 2097152 + o.d.toNat * 16384 + o.a.toNat * 128 + o.b.toNat))
  | .seq o => some (BitVec.ofNat 32 (0x0B000000 + o.ta.toNat * 4194304 + o.tb.toNat * 2097152 + o.d.toNat * 16384 + o.a.toNat * 128 + o.b.toNat))
  | .sel o => some (BitVec.ofNat 32 (0x0B800000 + o.ta.toNat * 4194304 + o.tb.toNat * 2097152 + o.d.toNat * 16384 + o.a.toNat * 128 + o.b.toNat))
  | .clz o => some (BitVec.ofNat 32 (0x0C000000 + o.ta.toNat * 4194304 + o.d.toNat * 16384 + o.a.toNat * 128))
  | .ctz o => some (BitVec.ofNat 32 (0x0C800000 + o.ta.toNat * 4194304 + o.d.toNat * 16384 + o.a.toNat * 128))
  | .pop o => some (BitVec.ofNat 32 (0x0D000000 + o.ta.toNat * 4194304 + o.d.toNat * 16384 + o.a.toNat * 128))
  | .lea o => some (BitVec.ofNat 32 (0x0D800000 + o.ta.toNat * 4194304 + o.tb.toNat * 2097152 + o.d.toNat * 16384 + o.a.toNat * 128 + o.b.toNat))
  | .addi o => some (BitVec.ofNat 32 (0x10000000 + o.ta.toNat * 4194304 + o.d.toNat * 32768 + o.a.toNat * 256 + o.imm.toNat))
  | .andi o => some (BitVec.ofNat 32 (0x10800000 + o.ta.toNat * 4194304 + o.d.toNat * 32768 + o.a.toNat * 256 + o.imm.toNat))
  | .ori o => some (BitVec.ofNat 32 (0x11000000 + o.ta.toNat * 4194304 + o.d.toNat * 32768 + o.a.toNat * 256 + o.imm.toNat))
  | .xori o => some (BitVec.ofNat 32 (0x11800000 + o.ta.toNat * 4194304 + o.d.toNat * 32768 + o.a.toNat * 256 + o.imm.toNat))
  | .shli o => some (BitVec.ofNat 32 (0x12000000 + o.ta.toNat * 4194304 + o.d.toNat * 32768 + o.a.toNat * 256 + o.imm.toNat))
  | .shri o => some (BitVec.ofNat 32 (0x12800000 + o.ta.toNat * 4194304 + o.d.toNat * 32768 + o.a.toNat * 256 + o.imm.toNat))
  | .srai o => some (BitVec.ofNat 32 (0x13000000 + o.ta.toNat * 4194304 + o.d.toNat * 32768 + o.a.toNat * 256 + o.imm.toNat))
  | .movi o => some (BitVec.ofNat 32 (0x14000000 + o.d.toNat * 65536 + o.imm.toNat))
  | .movh o => some (BitVec.ofNat 32 (0x14800000 + o.d.toNat * 65536 + o.imm.toNat))
  | .jmp o => some (BitVec.ofNat 32 (0x20000000 + o.off.toNat))
  | .jal o => some (BitVec.ofNat 32 (0x20800000 + o.off.toNat))
  | .jr o => some (BitVec.ofNat 32 (0x21000000 + o.ta.toNat * 4194304 + o.d.toNat * 32768 + o.a.toNat * 256 + o.imm.toNat))
  | .call o => some (BitVec.ofNat 32 (0x21800000 + o.off.toNat))
  | .ret => some (BitVec.ofNat 32 0x22000000)
  | .retVa o => some (BitVec.ofNat 32 (0x22008000 + o.a.toNat))
  | .bz o => some (BitVec.ofNat 32 (0x22800000 + o.s.toNat * 131072 + o.off.toNat))
  | .bnz o => some (BitVec.ofNat 32 (0x23000000 + o.s.toNat * 131072 + o.off.toNat))
  | .bany o => some (BitVec.ofNat 32 (0x23800000 + o.s.toNat * 131072 + o.off.toNat))
  | .ball o => some (BitVec.ofNat 32 (0x24000000 + o.s.toNat * 131072 + o.off.toNat))
  | .vbr o => some (BitVec.ofNat 32 (0x24800000 + o.s.toNat * 131072 + o.off.toNat))
  | .loopLc0 o => some (BitVec.ofNat 32 (0x25000000 + o.s.toNat * 131072 + o.off.toNat))
  | .loopLc1 o => some (BitVec.ofNat 32 (0x25800000 + o.s.toNat * 131072 + o.off.toNat))
  | .loopSetLc0 o => some (BitVec.ofNat 32 (0x25000000 + o.s.toNat * 131072))
  | .loopSetLc1 o => some (BitVec.ofNat 32 (0x25800000 + o.s.toNat * 131072))
  | .loopGetLc0 o => some (BitVec.ofNat 32 (0x2501FFFF + o.s.toNat * 131072))
  | .loopGetLc1 o => some (BitVec.ofNat 32 (0x2581FFFF + o.s.toNat * 131072))
  | .region => some (BitVec.ofNat 32 0x26000000)
  | .yield => some (BitVec.ofNat 32 0x26800000)
  | .nop => some (BitVec.ofNat 32 0x27000000)
  | .halt => some (BitVec.ofNat 32 0x27800000)
  | .modeT o => some (BitVec.ofNat 32 (0x28000000 + o.t.toNat))
  | .modeG o => some (BitVec.ofNat 32 (0x28800000 + o.g.toNat))
  | .modeRm o => some (BitVec.ofNat 32 (0x29000000 + o.z.toNat * 4 + o.r.toNat))
  | .modeCv o => some (BitVec.ofNat 32 (0x29800000 + o.k.toNat * 524288 + o.c.toNat))
  | .modeLd o => some (BitVec.ofNat 32 (0x2A000000 + o.s.toNat))
  | .modeSt o => some (BitVec.ofNat 32 (0x2A800000 + o.s.toNat))
  | .rdsp o => some (BitVec.ofNat 32 (0x2B000000 + o.s.toNat * 512 + o.n.toNat))
  | .vadd o => some (BitVec.ofNat 32 (0x40000000 + o.ta.toNat * 4194304 + o.tb.toNat * 2097152 + o.d.toNat * 16384 + o.a.toNat * 128 + o.b.toNat))
  | .vsub o => some (BitVec.ofNat 32 (0x40800000 + o.ta.toNat * 4194304 + o.tb.toNat * 2097152 + o.d.toNat * 16384 + o.a.toNat * 128 + o.b.toNat))
  | .vmul o => some (BitVec.ofNat 32 (0x41000000 + o.ta.toNat * 4194304 + o.tb.toNat * 2097152 + o.d.toNat * 16384 + o.a.toNat * 128 + o.b.toNat))
  | .vmulh o => some (BitVec.ofNat 32 (0x41800000 + o.ta.toNat * 4194304 + o.tb.toNat * 2097152 + o.d.toNat * 16384 + o.a.toNat * 128 + o.b.toNat))
  | .vmad o => some (BitVec.ofNat 32 (0x42000000 + o.ta.toNat * 4194304 + o.tb.toNat * 2097152 + o.d.toNat * 16384 + o.a.toNat * 128 + o.b.toNat))
  | .vand o => some (BitVec.ofNat 32 (0x42800000 + o.ta.toNat * 4194304 + o.tb.toNat * 2097152 + o.d.toNat * 16384 + o.a.toNat * 128 + o.b.toNat))
  | .vor o => some (BitVec.ofNat 32 (0x43000000 + o.ta.toNat * 4194304 + o.tb.toNat * 2097152 + o.d.toNat * 16384 + o.a.toNat * 128 + o.b.toNat))
  | .vxor o => some (BitVec.ofNat 32 (0x43800000 + o.ta.toNat * 4194304 + o.tb.toNat * 2097152 + o.d.toNat * 16384 + o.a.toNat * 128 + o.b.toNat))
  | .vnot o => some (BitVec.ofNat 32 (0x44000000 + o.ta.toNat * 4194304 + o.d.toNat * 16384 + o.a.toNat * 128))
  | .vshl o => some (BitVec.ofNat 32 (0x44800000 + o.ta.toNat * 4194304 + o.tb.toNat * 2097152 + o.d.toNat * 16384 + o.a.toNat * 128 + o.b.toNat))
  | .vshr o => some (BitVec.ofNat 32 (0x45000000 + o.ta.toNat * 4194304 + o.tb.toNat * 2097152 + o.d.toNat * 16384 + o.a.toNat * 128 + o.b.toNat))
  | .vsra o => some (BitVec.ofNat 32 (0x45800000 + o.ta.toNat * 4194304 + o.tb.toNat * 2097152 + o.d.toNat * 16384 + o.a.toNat * 128 + o.b.toNat))
  | .vmin o => some (BitVec.ofNat 32 (0x46000000 + o.ta.toNat * 4194304 + o.tb.toNat * 2097152 + o.d.toNat * 16384 + o.a.toNat * 128 + o.b.toNat))
  | .vmax o => some (BitVec.ofNat 32 (0x46800000 + o.ta.toNat * 4194304 + o.tb.toNat * 2097152 + o.d.toNat * 16384 + o.a.toNat * 128 + o.b.toNat))
  | .vabs o => some (BitVec.ofNat 32 (0x47000000 + o.ta.toNat * 4194304 + o.d.toNat * 16384 + o.a.toNat * 128))
  | .vneg o => some (BitVec.ofNat 32 (0x47800000 + o.ta.toNat * 4194304 + o.d.toNat * 16384 + o.a.toNat * 128))
  | .vclz o => some (BitVec.ofNat 32 (0x48000000 + o.ta.toNat * 4194304 + o.d.toNat * 16384 + o.a.toNat * 128))
  | .vpop o => some (BitVec.ofNat 32 (0x48800000 + o.ta.toNat * 4194304 + o.d.toNat * 16384 + o.a.toNat * 128))
  | .vcmp o => some (BitVec.ofNat 32 (0x49000000 + o.ta.toNat * 4194304 + o.tb.toNat * 2097152 + o.d.toNat * 16384 + o.a.toNat * 128 + o.b.toNat))
  | .vsel o => some (BitVec.ofNat 32 (0x49800000 + o.ta.toNat * 4194304 + o.tb.toNat * 2097152 + o.d.toNat * 16384 + o.a.toNat * 128 + o.b.toNat))
  | .vmov o => some (BitVec.ofNat 32 (0x4A000000 + o.ta.toNat * 4194304 + o.d.toNat * 16384 + o.a.toNat * 128))
  | .vbcs o => some (BitVec.ofNat 32 (0x4A800000 + o.ta.toNat * 4194304 + o.tb.toNat * 2097152 + o.d.toNat * 16384 + o.a.toNat * 128 + o.b.toNat))
  | .vbfe o => some (BitVec.ofNat 32 (0x4B000000 + o.ta.toNat * 4194304 + o.tb.toNat * 2097152 + o.d.toNat * 16384 + o.a.toNat * 128 + o.b.toNat))
  | .vbfi o => some (BitVec.ofNat 32 (0x4B800000 + o.ta.toNat * 4194304 + o.tb.toNat * 2097152 + o.d.toNat * 16384 + o.a.toNat * 128 + o.b.toNat))
  | .vadds o => some (BitVec.ofNat 32 (0x4C000000 + o.ta.toNat * 4194304 + o.tb.toNat * 2097152 + o.d.toNat * 16384 + o.a.toNat * 128 + o.b.toNat))
  | .vfadd o => some (BitVec.ofNat 32 (0x50000000 + o.ta.toNat * 4194304 + o.tb.toNat * 2097152 + o.d.toNat * 16384 + o.a.toNat * 128 + o.b.toNat))
  | .vfsub o => some (BitVec.ofNat 32 (0x50800000 + o.ta.toNat * 4194304 + o.tb.toNat * 2097152 + o.d.toNat * 16384 + o.a.toNat * 128 + o.b.toNat))
  | .vfmul o => some (BitVec.ofNat 32 (0x51000000 + o.ta.toNat * 4194304 + o.tb.toNat * 2097152 + o.d.toNat * 16384 + o.a.toNat * 128 + o.b.toNat))
  | .vffma o => some (BitVec.ofNat 32 (0x51800000 + o.ta.toNat * 4194304 + o.tb.toNat * 2097152 + o.d.toNat * 16384 + o.a.toNat * 128 + o.b.toNat))
  | .vfneg o => some (BitVec.ofNat 32 (0x52000000 + o.ta.toNat * 4194304 + o.d.toNat * 16384 + o.a.toNat * 128))
  | .vfabs o => some (BitVec.ofNat 32 (0x52800000 + o.ta.toNat * 4194304 + o.d.toNat * 16384 + o.a.toNat * 128))
  | .vfmin o => some (BitVec.ofNat 32 (0x53000000 + o.ta.toNat * 4194304 + o.tb.toNat * 2097152 + o.d.toNat * 16384 + o.a.toNat * 128 + o.b.toNat))
  | .vfmax o => some (BitVec.ofNat 32 (0x53800000 + o.ta.toNat * 4194304 + o.tb.toNat * 2097152 + o.d.toNat * 16384 + o.a.toNat * 128 + o.b.toNat))
  | .vfcmp o => some (BitVec.ofNat 32 (0x54000000 + o.ta.toNat * 4194304 + o.tb.toNat * 2097152 + o.d.toNat * 16384 + o.a.toNat * 128 + o.b.toNat))
  | .vfrcp o => some (BitVec.ofNat 32 (0x54800000 + o.ta.toNat * 4194304 + o.d.toNat * 16384 + o.a.toNat * 128))
  | .vfrsq o => some (BitVec.ofNat 32 (0x55000000 + o.ta.toNat * 4194304 + o.d.toNat * 16384 + o.a.toNat * 128))
  | .vfsqrt o => some (BitVec.ofNat 32 (0x55800000 + o.ta.toNat * 4194304 + o.d.toNat * 16384 + o.a.toNat * 128))
  | .vfexp2 o => some (BitVec.ofNat 32 (0x56000000 + o.ta.toNat * 4194304 + o.d.toNat * 16384 + o.a.toNat * 128))
  | .vflog2 o => some (BitVec.ofNat 32 (0x56800000 + o.ta.toNat * 4194304 + o.d.toNat * 16384 + o.a.toNat * 128))
  | .vfsin o => some (BitVec.ofNat 32 (0x57000000 + o.ta.toNat * 4194304 + o.d.toNat * 16384 + o.a.toNat * 128))
  | .vfcos o => some (BitVec.ofNat 32 (0x57800000 + o.ta.toNat * 4194304 + o.d.toNat * 16384 + o.a.toNat * 128))
  | .vftanh o => some (BitVec.ofNat 32 (0x58000000 + o.ta.toNat * 4194304 + o.d.toNat * 16384 + o.a.toNat * 128))
  | .vfclass o => some (BitVec.ofNat 32 (0x58800000 + o.ta.toNat * 4194304 + o.d.toNat * 16384 + o.a.toNat * 128))
  | .vcvtF64 o => some (BitVec.ofNat 32 (0x60000000 + o.ta.toNat * 4194304 + o.d.toNat * 16384 + o.a.toNat * 128))
  | .vcvtF32 o => some (BitVec.ofNat 32 (0x60800000 + o.ta.toNat * 4194304 + o.d.toNat * 16384 + o.a.toNat * 128))
  | .vcvtF16 o => some (BitVec.ofNat 32 (0x61000000 + o.ta.toNat * 4194304 + o.d.toNat * 16384 + o.a.toNat * 128))
  | .vcvtBf16 o => some (BitVec.ofNat 32 (0x61800000 + o.ta.toNat * 4194304 + o.d.toNat * 16384 + o.a.toNat * 128))
  | .vcvtE4m3 o => some (BitVec.ofNat 32 (0x62000000 + o.ta.toNat * 4194304 + o.d.toNat * 16384 + o.a.toNat * 128))
  | .vcvtE5m2 o => some (BitVec.ofNat 32 (0x62800000 + o.ta.toNat * 4194304 + o.d.toNat * 16384 + o.a.toNat * 128))
  | .vcvtE3m2 o => some (BitVec.ofNat 32 (0x63000000 + o.ta.toNat * 4194304 + o.d.toNat * 16384 + o.a.toNat * 128))
  | .vcvtE2m3 o => some (BitVec.ofNat 32 (0x63800000 + o.ta.toNat * 4194304 + o.d.toNat * 16384 + o.a.toNat * 128))
  | .vcvtE2m1 o => some (BitVec.ofNat 32 (0x64000000 + o.ta.toNat * 4194304 + o.d.toNat * 16384 + o.a.toNat * 128))
  | .vcvtI32 o => some (BitVec.ofNat 32 (0x64800000 + o.ta.toNat * 4194304 + o.d.toNat * 16384 + o.a.toNat * 128))
  | .vcvtN32 o => some (BitVec.ofNat 32 (0x65000000 + o.ta.toNat * 4194304 + o.d.toNat * 16384 + o.a.toNat * 128))
  | .vcvtI16 o => some (BitVec.ofNat 32 (0x65800000 + o.ta.toNat * 4194304 + o.d.toNat * 16384 + o.a.toNat * 128))
  | .vcvtN16 o => some (BitVec.ofNat 32 (0x66000000 + o.ta.toNat * 4194304 + o.d.toNat * 16384 + o.a.toNat * 128))
  | .vcvtI8 o => some (BitVec.ofNat 32 (0x66800000 + o.ta.toNat * 4194304 + o.d.toNat * 16384 + o.a.toNat * 128))
  | .vcvtN8 o => some (BitVec.ofNat 32 (0x67000000 + o.ta.toNat * 4194304 + o.d.toNat * 16384 + o.a.toNat * 128))
  | .vcvtI4 o => some (BitVec.ofNat 32 (0x67800000 + o.ta.toNat * 4194304 + o.d.toNat * 16384 + o.a.toNat * 128))
  | .vcvtN4 o => some (BitVec.ofNat 32 (0x68000000 + o.ta.toNat * 4194304 + o.d.toNat * 16384 + o.a.toNat * 128))
  | .vpack o => some (BitVec.ofNat 32 (0x68800000 + o.ta.toNat * 4194304 + o.d.toNat * 16384 + o.a.toNat * 128 + o.k.toNat))
  | .vunpk o => some (BitVec.ofNat 32 (0x69000000 + o.ta.toNat * 4194304 + o.d.toNat * 16384 + o.a.toNat * 128 + o.k.toNat))
  | .vshf o => some (BitVec.ofNat 32 (0x70000000 + o.ta.toNat * 4194304 + o.tb.toNat * 2097152 + o.d.toNat * 16384 + o.a.toNat * 128 + o.b.toNat))
  | .vshfx o => some (BitVec.ofNat 32 (0x70800000 + o.ta.toNat * 4194304 + o.tb.toNat * 2097152 + o.d.toNat * 16384 + o.a.toNat * 128 + o.b.toNat))
  | .vshfu o => some (BitVec.ofNat 32 (0x71000000 + o.ta.toNat * 4194304 + o.tb.toNat * 2097152 + o.d.toNat * 16384 + o.a.toNat * 128 + o.b.toNat))
  | .vshfd o => some (BitVec.ofNat 32 (0x71800000 + o.ta.toNat * 4194304 + o.tb.toNat * 2097152 + o.d.toNat * 16384 + o.a.toNat * 128 + o.b.toNat))
  | .vlane o => some (BitVec.ofNat 32 (0x72000000 + o.d.toNat * 16384 + o.k.toNat * 128))
  | .vvote o => some (BitVec.ofNat 32 (0x72800000 + o.ta.toNat * 4194304 + o.d.toNat * 16384 + o.a.toNat * 128 + o.k.toNat))
  | .vballot o => some (BitVec.ofNat 32 (0x73000000 + o.ta.toNat * 4194304 + o.d.toNat * 16384 + o.a.toNat * 128))
  | .vred o => some (BitVec.ofNat 32 (0x73800000 + o.ta.toNat * 4194304 + o.d.toNat * 16384 + o.a.toNat * 128 + o.k.toNat))
  | .vscan o => some (BitVec.ofNat 32 (0x74000000 + o.ta.toNat * 4194304 + o.d.toNat * 16384 + o.a.toNat * 128 + o.k.toNat))
  | .vmaxi o => some (BitVec.ofNat 32 (0x74800000 + o.ta.toNat * 4194304 + o.tb.toNat * 2097152 + o.d.toNat * 16384 + o.a.toNat * 128 + o.b.toNat))
  | .vtopk o => some (BitVec.ofNat 32 (0x75000000 + o.ta.toNat * 4194304 + o.tb.toNat * 2097152 + o.d.toNat * 16384 + o.a.toNat * 128 + o.b.toNat))
  | .rdw o => some (BitVec.ofNat 32 (0x75800000 + o.d.toNat * 16384 + o.k.toNat * 128))
  | .ldG o => some (BitVec.ofNat 32 (0x80000000 + o.ta.toNat * 4194304 + o.d.toNat * 32768 + o.w.toNat * 4096 + o.a.toNat * 32 + o.nt.toNat * 16 + o.sx.toNat * 8 + o.sz.toNat))
  | .stG o => some (BitVec.ofNat 32 (0x80800000 + o.ta.toNat * 4194304 + o.d.toNat * 32768 + o.w.toNat * 4096 + o.a.toNat * 32 + o.nt.toNat * 16 + o.sz.toNat))
  | .ldS o => some (BitVec.ofNat 32 (0x81000000 + o.ta.toNat * 4194304 + o.d.toNat * 32768 + o.a.toNat * 32 + o.sx.toNat * 8 + o.sz.toNat))
  | .stS o => some (BitVec.ofNat 32 (0x81800000 + o.ta.toNat * 4194304 + o.d.toNat * 32768 + o.a.toNat * 32 + o.sz.toNat))
  | .ldU o => some (BitVec.ofNat 32 (0x82000000 + o.ta.toNat * 4194304 + o.d.toNat * 32768 + o.w.toNat * 4096 + o.a.toNat * 32 + o.nt.toNat * 16 + o.sx.toNat * 8 + o.sz.toNat))
  | .stU o => some (BitVec.ofNat 32 (0x82800000 + o.ta.toNat * 4194304 + o.d.toNat * 32768 + o.w.toNat * 4096 + o.a.toNat * 32 + o.nt.toNat * 16 + o.sz.toNat))
  | .pf o => some (BitVec.ofNat 32 (0x83000000 + o.ta.toNat * 4194304 + o.w.toNat * 4096 + o.a.toNat * 32 + o.l2.toNat))
  | .dis o => some (BitVec.ofNat 32 (0x83800000 + o.d.toNat * 32768 + o.w.toNat * 4096 + o.a.toNat * 32))
  | .winOpen o => some (BitVec.ofNat 32 (0x84000000 + o.w.toNat * 4096 + o.a.toNat * 32))
  | .winClose o => some (BitVec.ofNat 32 (0x84800000 + o.w.toNat * 4096))
  | .ldX o => some (BitVec.ofNat 32 (0x88000000 + o.cls.toNat * 2097152 + o.d.toNat * 16384 + o.peer.toNat * 512 + o.a.toNat * 4 + o.ta.toNat * 2))
  | .stX o => some (BitVec.ofNat 32 (0x88800000 + o.cls.toNat * 2097152 + o.d.toNat * 16384 + o.peer.toNat * 512 + o.a.toNat * 4 + o.ta.toNat * 2))
  | .peerCap o => some (BitVec.ofNat 32 (0x89000000 + o.d.toNat * 16384 + o.peer.toNat * 512))
  | .atom o => some (BitVec.ofNat 32 (0x90000000 + o.ta.toNat * 4194304 + o.d.toNat * 32768 + o.w.toNat * 4096 + o.a.toNat * 32 + o.n.toNat))
  | .atomCas o => some (BitVec.ofNat 32 (0x90800000 + o.ta.toNat * 4194304 + o.d.toNat * 32768 + o.w.toNat * 4096 + o.a.toNat * 32))
  | .atomCas16 o => some (BitVec.ofNat 32 (0x90800001 + o.ta.toNat * 4194304 + o.d.toNat * 32768 + o.w.toNat * 4096 + o.a.toNat * 32))
  | .atomMaxi o => some (BitVec.ofNat 32 (0x91000000 + o.ta.toNat * 4194304 + o.d.toNat * 32768 + o.w.toNat * 4096 + o.a.toNat * 32))
  | .red o => some (BitVec.ofNat 32 (0x91800000 + o.ta.toNat * 4194304 + o.d.toNat * 32768 + o.w.toNat * 4096 + o.a.toNat * 32 + o.n.toNat))
  | .acq o => some (BitVec.ofNat 32 (0x92000000 + o.ta.toNat * 4194304 + o.d.toNat * 32768 + o.w.toNat * 4096 + o.a.toNat * 32 + o.scope.toNat))
  | .rel o => some (BitVec.ofNat 32 (0x92800000 + o.ta.toNat * 4194304 + o.d.toNat * 32768 + o.w.toNat * 4096 + o.a.toNat * 32 + o.scope.toNat))
  | .fence o => some (BitVec.ofNat 32 (0x93000000 + o.kind.toNat * 1048576 + o.scope.toNat * 131072 + o.mask.toNat * 8192))
  | .bar => some (BitVec.ofNat 32 0x93800000)
  | .barC => some (BitVec.ofNat 32 0x94000000)
  | .barG => some (BitVec.ofNat 32 0x94800000)
  | .turn => some (BitVec.ofNat 32 0x95000000)
  | .cjmpImm o => some (BitVec.ofNat 32 (0x95800000 + o.n.toNat))
  | .cjmpReg o => some (BitVec.ofNat 32 (0x95808000 + o.s.toNat * 512))
  | .cjmpto o => some (BitVec.ofNat 32 (0x96000000 + o.s.toNat * 512))
  | .rdclk o => some (BitVec.ofNat 32 (0x96800000 + o.s.toNat * 512))
  | .rdq o => some (BitVec.ofNat 32 (0x97000000 + o.s.toNat * 512))
  | .waitCnt o => some (BitVec.ofNat 32 (0x97800000 + o.k.toNat * 32768 + o.n.toNat))
  | .tileOwn o => some (BitVec.ofNat 32 (0x98000000 + o.h.toNat * 65536))
  | .tileSeal o => some (BitVec.ofNat 32 (0x98800000 + o.h.toNat * 65536))
  | .tileFree o => some (BitVec.ofNat 32 (0x99000000 + o.h.toNat * 65536))
  | .tileQ o => some (BitVec.ofNat 32 (0x99800000 + o.h.toNat * 65536 + o.d.toNat * 1024))
  | .cp o => some (BitVec.ofNat 32 (0x9A000000 + o.d.toNat * 1024 + o.k.toNat))
  | .cpR o => some (BitVec.ofNat 32 (0x9A000008 + o.d.toNat * 1024 + o.k.toNat))
  | .cpX o => some (BitVec.ofNat 32 (0x9A800000 + o.d.toNat * 1024 + o.k.toNat))
  | .cpXR o => some (BitVec.ofNat 32 (0x9A800008 + o.d.toNat * 1024 + o.k.toNat))
  | .gat o => some (BitVec.ofNat 32 (0x9B000000 + o.h.toNat * 65536 + o.d.toNat * 1024 + o.k.toNat))
  | .gatR o => some (BitVec.ofNat 32 (0x9B000008 + o.h.toNat * 65536 + o.d.toNat * 1024 + o.k.toNat))
  | .scat o => some (BitVec.ofNat 32 (0x9B800000 + o.h.toNat * 65536 + o.d.toNat * 1024 + o.k.toNat))
  | .scatR o => some (BitVec.ofNat 32 (0x9B800008 + o.h.toNat * 65536 + o.d.toNat * 1024 + o.k.toNat))
  | .coll o => some (BitVec.ofNat 32 (0x9C000000 + o.d.toNat * 1024 + o.k.toNat))
  | .collR o => some (BitVec.ofNat 32 (0x9C000008 + o.d.toNat * 1024 + o.k.toNat))
  | .mloop o => some (BitVec.ofNat 32 (0x9C800000 + o.d.toNat * 1024 + o.f.toNat * 16 + o.k.toNat))
  | .maccZ o => some (BitVec.ofNat 32 (0x9D000000 + o.n1.toNat * 524288 + o.b.toNat * 65536 + o.k.toNat))
  | .maccZR o => some (BitVec.ofNat 32 (0x9D000008 + o.n1.toNat * 524288 + o.b.toNat * 65536 + o.k.toNat))
  | .maccLd o => some (BitVec.ofNat 32 (0x9D800000 + o.n1.toNat * 524288 + o.b.toNat * 65536 + o.d.toNat * 1024 + o.k.toNat))
  | .maccLdR o => some (BitVec.ofNat 32 (0x9D800008 + o.n1.toNat * 524288 + o.b.toNat * 65536 + o.d.toNat * 1024 + o.k.toNat))
  | .maccSt o => some (BitVec.ofNat 32 (0x9E000000 + o.n1.toNat * 524288 + o.b.toNat * 65536 + o.d.toNat * 1024 + o.k.toNat))
  | .maccStR o => some (BitVec.ofNat 32 (0x9E000008 + o.n1.toNat * 524288 + o.b.toNat * 65536 + o.d.toNat * 1024 + o.k.toNat))
  | .ewait o => some (BitVec.ofNat 32 (0x9E800000 + o.n.toNat * 65536 + o.k.toNat))
  | .epoll o => some (BitVec.ofNat 32 (0x9F000000 + o.d.toNat * 1024 + o.k.toNat))
  | .taskSig o => some (BitVec.ofNat 32 (0xA0000000 + o.s.toNat * 512 + o.n.toNat))
  | .taskPost o => some (BitVec.ofNat 32 (0xA0800000 + o.s.toNat * 512 + o.n.toNat))
  | .taskDone => some (BitVec.ofNat 32 0xA1000000)
  | .trap o => some (BitVec.ofNat 32 (0xA8000000 + o.n.toNat))
  | .rte => some (BitVec.ofNat 32 0xA8800000)
  | .csrr o => some (BitVec.ofNat 32 (0xA9000000 + o.s.toNat * 512 + o.n.toNat))
  | .csrw o => some (BitVec.ofNat 32 (0xA9800000 + o.s.toNat * 512 + o.n.toNat))
  | .csrs o => some (BitVec.ofNat 32 (0xAA000000 + o.s.toNat * 512 + o.n.toNat))
  | .csrc o => some (BitVec.ofNat 32 (0xAA800000 + o.s.toNat * 512 + o.n.toNat))
  | .brk o => some (BitVec.ofNat 32 (0xAB000000 + o.n.toNat))
  | .pmcRead o => some (BitVec.ofNat 32 (0xAB800000 + o.s.toNat * 512 + o.n.toNat))
  | .pmcReadClear o => some (BitVec.ofNat 32 (0xAB808000 + o.s.toNat * 512 + o.n.toNat))
  | .icinv o => some (BitVec.ofNat 32 (0xAC000000 + o.s.toNat * 512 + o.n.toNat))
  | .plbInv o => some (BitVec.ofNat 32 (0xAC800000 + o.k.toNat * 32768 + o.s.toNat * 512))
  | .hcOpEntry o => some (BitVec.ofNat 32 (0xAD000000 + o.s.toNat * 512))
  | .hcOpRoot o => some (BitVec.ofNat 32 (0xAD008000 + o.s.toNat * 512))
  | .hcOpFrame o => some (BitVec.ofNat 32 (0xAD010000 + o.s.toNat * 512))
  | .hcOpMigrate o => some (BitVec.ofNat 32 (0xAD018000 + o.s.toNat * 512))
  | .hcOpReplay o => some (BitVec.ofNat 32 (0xAD020000 + o.s.toNat * 512))
  | .hcOpDrop o => some (BitVec.ofNat 32 (0xAD028000 + o.s.toNat * 512))
  | .hcOpUnhold o => some (BitVec.ofNat 32 (0xAD030000 + o.s.toNat * 512))
  | .hcOpRead o => some (BitVec.ofNat 32 (0xAD038000 + o.s.toNat * 512))
  | .atomX o => some (BitVec.ofNat 32 (0xC0000000 + o.n.toNat * 8388608 + o.cls.toNat * 2097152 + o.d.toNat * 16384 + o.peer.toNat * 512 + o.a.toNat * 4 + o.ta.toNat * 2))
  | .redX o => some (BitVec.ofNat 32 (0xD0000000 + o.n.toNat * 8388608 + o.cls.toNat * 2097152 + o.d.toNat * 16384 + o.peer.toNat * 512 + o.a.toNat * 4 + o.ta.toNat * 2))
  | .regang => none
  | .loadResultArrive => none
  | .loadFaultResponse => none
  | .storeAck => none
  | .turnAdmit => none
  | .detLoadPerform => none
  | .floorGatedAction => none
  | .crownFloorUpdate => none
  | .publicationArrive => none
  | .publicationAck => none
  | .mittenUpdateArrive => none
  | .redRefusalReturn => none
  | .floorSideband => none
  | .floorSendInterval => none
  | .barrierComplete => none
  | .engineDispatch => none
  | .matrixPassGrant => none
  | .engineFinish => none
  | .ewaitComplete => none
  | .engineAccessFault => none
  | .matrixOperandFault => none
  | .collectiveTimeout => none
  | .deferredFaultRecord => none
  | .hcAccess => none
  | .turnStallWatchdog => none
  | .taskLeaveIntake => none
  | .domainDescriptorMatch => none
  | .unitPlace => none
  | .opPointStable => none
  | .unitRetire => none
  | .launchRetire => none
  | .residencyPeriodEnd => none
  | .turnDrivenSwapIn => none
  | .homeLocalLoad => none
  | .homeLocalStore => none
  | .invalidationAck => none
  | .invalidationArrive => none
  | .invalidationTimeout => none
  | .fabricRequestArrive => none
  | .reservationExpire => none
  | .refusalReceive => none
  | .refusalResend => none
  | .intermediateForward => none
  | .remoteResponse => none
  | .remoteFaultResponse => none
  | .remoteTimeout => none
  | .floorSilenceTimeout => none
  | .boundaryFilterProbe => none
  | .boundaryFilterAnswer => none
  | .hostMemrd => none
  | .hostMemwr => none
  | .bisnpResponse => none
  | .hostSnpdata => none
  | .hostSnpinv => none
  | .hostSnpcur => none
  | .cxlCacheGrant => none
  | .hostAtomic => none
  | .hostLinkLoss => none
  | .hostLinkRetrain => none
  | .create => none
  | .destroy => none
  | .reset => none
  | .query => none
  | .attest => none
  | .powercap => none
  | .stage => none
  | .startrec => none
  | .restart => none
  | .spdmGetCertificate => none
  | .spdmChallenge => none
  | .spdmGetMeasurements => none
  | .apertureMapWrite => none
  | .fqConfigWrite => none
  | .eselWrite => none
  | .registerWrite => none
  | .deviceStart => none
  | .startStepTimeout => none
  | .startRetry => none
  | .powerCapExceed => none
  | .powerCapRelease => none
  | .thermalHold => none
  | .thermalHoldRelease => none
  | .thermalTrip => none
  | .eccCorrected => none
  | .eccUncorrectable => none
  | .hbmScrub => none
  | .illegalInstruction w => some w
  | .reservedEncoding w => some w
  | .plbFetchResponse => none
  | .engineReadsDone => none
  | .configurationRequest => none
  | .hostLinkDown => none
  | .thermalTripClear => none
  | .minimalPortFallback => none

end Sys2Proof
end

