-- ==== Sys2Proof/Config.lean ====
section
/-! DEFINITION. What the OVD-Z9A fixes (R14 to R16, R21, R34, R67 to R73), and the free values: what the spec leaves open,
as constants without a body, of which nothing can be proved. -/

namespace Sys2Proof.Config

/-! ### Figures of the OVD-Z9A -/

/-- Slot width SWIDTH (R2, R21). -/
def swidth : Nat := 64
/-- The full value of HWCFG of an OVD-Z9A with every unit in service (R21). -/
def hwcfg : Word := 0x0130081820601021#64
/-- On-chip return stack entries (R32). -/
def returnOnChip : Nat := 8
/-- Bytes of a context area before its store log, and of a log entry (R181). -/
def contextBytes : Nat := 32768
def logEntryBytes : Nat := 192
/-- Bytes of an accumulator save area: eight tiles (R287). -/
def accumBytes : Nat := 524288
/-- Instructions that a core issues in a cycle, and the age at which a split goes first (R15, R292). -/
def issueWidth : Nat := 4
def ageCap : Nat := 256
/-- Cycles for which a split that has yielded is not considered (R208, R292). -/
def yieldCycles : Nat := 64
/-- The greatest call depth (R32). -/
def maxDepth : Nat := 256
/-- Distinct lines of a region buffer (R41). -/
def regionLines : Nat := 32
/-- Cuff line entries on chip (R64). -/
def cuffEntries : Nat := 64
/-- Brim entries of a slice (R68). -/
def brimEntries : Nat := 1024
/-- Mitten entries of a slice (R73). -/
def mittenEntries : Nat := 16
/-- Entries of a core's retry queue (R73). -/
def retryEntries : Nat := 32
/-- Entries of a core's dependency table (R109). -/
def dependencyEntries : Nat := 32
/-- Entries of a core's tile table (R15). -/
def tileEntries : Nat := 64
/-- Entries of a cluster's matrix reservation table (R293). -/
def matrixEntries : Nat := 16
/-- Entries of an engine queue (R297). -/
def queueEntries : Nat := 32
/-- Entries of a PLB (R123). -/
def plbEntries : Nat := 64
/-- Remote requests a core may have outstanding (R142). -/
def remoteOutstanding : Nat := 64
/-- Late-fault store queue entries of an HC (R367) and of a host port (R150). -/
def lateEntries : Nat := 256
def portLateEntries : Nat := 64
/-- Late-fault entries one partition may hold at one HC (R369). -/
def lateShare : Nat := 128
/-- Lines of an L2 slice: 512 KiB of 128 B (R14, R20). -/
def sliceLines : Nat := 4096
/-- L2 slices of the device, and slices of a cluster (R14, R15). -/
def deviceSlices : Nat := 384
def clusterSlices : Nat := 6
/-- Fabric ports of the device (R19). -/
def fabricPorts : Nat := 24
/-- Devices of a direct mesh at most (R136). -/
def meshDevices : Nat := 25
/-- Reservations of an L2 slice (R134). -/
def reservations : Nat := 8
/-- Elements of an accumulator tile (R179). -/
def tileElems : Nat := 16384
/-- Populated bytes of an HC's share: 12 GiB (R118). -/
def shareBytes : Nat := 12884901888
/-- Launches a partition runs at once (R286). -/
def runningLaunches : Nat := 16
/-- Instruction cache lines of a core: 32 KiB of 128 B (R126). -/
def icacheLines : Nat := 256
/-- Capability word of an OVD-Z9A of revision 0x01: REV, OPS 0x77F, FMT 0x7F, DDOM, PREC, LIVE (R146, R244); PREC is
given apart. -/
def capWord (precise : Bool) : Word :=
  BitVec.ofNat 64 (0x01 * 2 ^ 56 + 0x77F * 2 ^ 16 + 0x7F * 2 ^ 8 + 4 + (if precise then 2 else 0) + 1)

/-! ### Free values -/

/-- Where the context pool and the Brim spill area of a partition lie in the global region: a free value (R181 and R321 leave
the address to CREATE; log entry 8). -/
opaque poolVA : Nat → Word
/-- Byte i of the n-th save to a context area or save area, and where an entry of a return stack spills: R181 leaves the
layout to the device (log entry 51). -/
opaque contextByte : Nat → Nat → Byte
opaque returnPlace : Nat → Word → Nat
/-- Byte i of the n-th link of an intake list (R286; log entry 79). -/
opaque linkByte : Nat → Nat → Byte
/-- The address space of a task whose control block lies in the global region (log entry 8). -/
opaque taskAsid : Nat → Nat
/-- The slot of a workgroup on its core, and the base of one of its tiles in the scratchpad in units of 512 B (R106, R107: the
launch controller gives them), for the n-th placement. -/
opaque wgSlot : Nat → Nat
opaque tileBase : Nat → Nat
/-- The physical cycle counter after n steps of the model (R79). -/
opaque cycleAt : Nat → Word
/-- What a counter of an event that is timed by cycles counts at step n of the model (R331; log entry 19). -/
opaque eventsCounted : Nat → Nat → Nat
/-- The hash that gives the home slice of a line of a partition among its slices (R113: not architected). -/
opaque homeSlice : Nat → Nat → Nat
/-- What load and chance choose for the n-th request: the path of class A, the intermediate device of class V and its port
(R139). -/
opaque route : Nat → Nat
opaque hopPort : Nat → Nat
/-- The plane or trunk port of class O toward a node (R139: fixed at partition configuration). -/
opaque orderedPort : Nat → Nat
/-- The topology of a domain and its trunks, which the record of CREATE does not carry (R136; log entry 77). -/
opaque domainMesh : Nat → Bool
opaque domainPeer : Nat → Nat → Nat
/-- A peer takes part in domain-scope determinism: the DDOM bit of its capability word (R146, R390; log entry 92). -/
opaque peerDdom : Nat → Bool
/-- A home has no tracking buffers or answer slots for a request (R131, R141: their number is not given), at step n. -/
opaque noTracking : Nat → Bool
/-- The octets of the ROM (R328). -/
opaque romImage : List Byte
/-- The octets of the firmware image in slot A of a device as delivered, and the public key and signature with it (R326). -/
opaque factoryBody : List Byte
opaque factoryKey : List Byte
opaque factorySignature : BitVec 768
/-- What is fused into a device: the digest of the firmware key, and its unique secret; the certificate in its flash (R326, R328). -/
opaque fusedKey : BitVec 384
opaque fusedSecret : BitVec 384
opaque identityCertificate : List Byte
/-- The private alias key that the ROM derives from the secret and a firmware digest, its certificate by the identity key, and the secret
number of the n-th signature (R328; log entry 23). -/
opaque aliasKey : BitVec 384 → BitVec 384 → Nat
opaque aliasCertificate : BitVec 384 → BitVec 384 → List Byte
opaque signNumber : Nat → Nat
/-- The measurement block of an SPDM response (DMTF SPDM 1.2). -/
opaque spdmMeasurements : BitVec 384 → BitVec 384 → List Byte
/-- The tag of a tile that becomes FILLING, for the n-th dispatch (R263; log entry 18). -/
opaque freeByte : Nat → Byte

end Sys2Proof.Config
end

