-- ==== Sys2Proof/Machine/Crypto.lean ====
section
/-! DEFINITION. SHA-384 and ECDSA on P-384, which spec/16_host_partitions_monitors.md R326 and R328 name: FIPS 180-4 and FIPS 186-4
give them (log entry 23). -/

namespace Sys2Proof.Machine

/-! ### SHA-384 -/

/-- The round constants. -/
def shaRound : List Word :=
  [0x428a2f98d728ae22, 0x7137449123ef65cd, 0xb5c0fbcfec4d3b2f, 0xe9b5dba58189dbbc] ++
  [0x3956c25bf348b538, 0x59f111f1b605d019, 0x923f82a4af194f9b, 0xab1c5ed5da6d8118] ++
  [0xd807aa98a3030242, 0x12835b0145706fbe, 0x243185be4ee4b28c, 0x550c7dc3d5ffb4e2] ++
  [0x72be5d74f27b896f, 0x80deb1fe3b1696b1, 0x9bdc06a725c71235, 0xc19bf174cf692694] ++
  [0xe49b69c19ef14ad2, 0xefbe4786384f25e3, 0x0fc19dc68b8cd5b5, 0x240ca1cc77ac9c65] ++
  [0x2de92c6f592b0275, 0x4a7484aa6ea6e483, 0x5cb0a9dcbd41fbd4, 0x76f988da831153b5] ++
  [0x983e5152ee66dfab, 0xa831c66d2db43210, 0xb00327c898fb213f, 0xbf597fc7beef0ee4] ++
  [0xc6e00bf33da88fc2, 0xd5a79147930aa725, 0x06ca6351e003826f, 0x142929670a0e6e70] ++
  [0x27b70a8546d22ffc, 0x2e1b21385c26c926, 0x4d2c6dfc5ac42aed, 0x53380d139d95b3df] ++
  [0x650a73548baf63de, 0x766a0abb3c77b2a8, 0x81c2c92e47edaee6, 0x92722c851482353b] ++
  [0xa2bfe8a14cf10364, 0xa81a664bbc423001, 0xc24b8b70d0f89791, 0xc76c51a30654be30] ++
  [0xd192e819d6ef5218, 0xd69906245565a910, 0xf40e35855771202a, 0x106aa07032bbd1b8] ++
  [0x19a4c116b8d2d0c8, 0x1e376c085141ab53, 0x2748774cdf8eeb99, 0x34b0bcb5e19b48a8] ++
  [0x391c0cb3c5c95a63, 0x4ed8aa4ae3418acb, 0x5b9cca4f7763e373, 0x682e6ff3d6b2b8a3] ++
  [0x748f82ee5defb2fc, 0x78a5636f43172f60, 0x84c87814a1f0ab72, 0x8cc702081a6439ec] ++
  [0x90befffa23631e28, 0xa4506cebde82bde9, 0xbef9a3f7b2c67915, 0xc67178f2e372532b] ++
  [0xca273eceea26619c, 0xd186b8c721c0c207, 0xeada7dd6cde0eb1e, 0xf57d4f7fee6ed178] ++
  [0x06f067aa72176fba, 0x0a637dc5a2c898a6, 0x113f9804bef90dae, 0x1b710b35131c471b] ++
  [0x28db77f523047d84, 0x32caab7b40c72493, 0x3c9ebe0a15c9bebc, 0x431d67c49c100d4c] ++
  [0x4cc5d4becb3e42b6, 0x597f299cfc657e2a, 0x5fcb6fab3ad6faec, 0x6c44198c4a475817]

/-- The initial hash value. -/
def shaInit : List Word :=
  [0xcbbb9d5dc1059ed8, 0x629a292a367cd507, 0x9159015a3070dd17, 0x152fecd8f70e5939] ++
  [0x67332667ffc00b31, 0x8eb44a8768581511, 0xdb0c2e0d64f98fa7, 0x47b5481dbefa4fa4]

def shaCh (x y z : Word) : Word := (x &&& y) ^^^ (~~~x &&& z)
def shaMaj (x y z : Word) : Word := (x &&& y) ^^^ (x &&& z) ^^^ (y &&& z)
def shaBig0 (x : Word) : Word := x.rotateRight 28 ^^^ x.rotateRight 34 ^^^ x.rotateRight 39
def shaBig1 (x : Word) : Word := x.rotateRight 14 ^^^ x.rotateRight 18 ^^^ x.rotateRight 41
def shaSmall0 (x : Word) : Word := x.rotateRight 1 ^^^ x.rotateRight 8 ^^^ (x >>> 7)
def shaSmall1 (x : Word) : Word := x.rotateRight 19 ^^^ x.rotateRight 61 ^^^ (x >>> 6)

/-- The number that a string of octets stands for, its first octet the most significant. -/
def octetsNat (l : List Byte) : Nat := l.foldl (fun n b => n * 256 + b.toNat) 0

/-- A number as a string of n octets, its first octet the most significant. -/
def octets : Nat → Nat → List Byte
  | 0, _ => []
  | n + 1, x => octets n (x / 256) ++ [BitVec.ofNat 8 x]

/-- n words of eight octets each. -/
def shaWords : Nat → List Byte → List Word
  | 0, _ => []
  | n + 1, l => BitVec.ofNat 64 (octetsNat (l.take 8)) :: shaWords n (l.drop 8)

/-- The message schedule, latest word first, extended by n words. -/
def shaExtend : Nat → List Word → List Word
  | 0, w => w
  | n + 1, w =>
    shaExtend n ((shaSmall1 (w.getD 1 0) + w.getD 6 0 + shaSmall0 (w.getD 14 0) + w.getD 15 0) :: w)

/-- One round on the eight working words. -/
def shaStep (h : List Word) (kw : Word × Word) : List Word :=
  match h with
  | [a, b, c, d, e, f, g, x] =>
    let t1 := x + shaBig1 e + shaCh e f g + kw.1 + kw.2
    let t2 := shaBig0 a + shaMaj a b c
    [t1 + t2, a, b, c, d + t1, e, f, g]
  | _ => h

/-- The hash value after one block of 128 octets. -/
def shaBlock (h : List Word) (m : List Byte) : List Word :=
  let w := (shaExtend 64 (shaWords 16 m).reverse).reverse
  List.zipWith (· + ·) h ((shaRound.zip w).foldl shaStep h)

/-- The hash value after n blocks. -/
def shaBlocks : Nat → List Word → List Byte → List Word
  | 0, h, _ => h
  | n + 1, h, l => shaBlocks n (shaBlock h (l.take 128)) (l.drop 128)

/-- The message with its padding and its length in bits. -/
def shaPad (m : List Byte) : List Byte :=
  m ++ 0x80 :: List.replicate ((239 - m.length % 128) % 128) 0 ++ octets 16 (8 * m.length)

/-- SHA-384. -/
def sha384 (m : List Byte) : BitVec 384 :=
  let l := shaPad m
  BitVec.ofNat 384 (((shaBlocks (l.length / 128) shaInit l).take 6).foldl (fun n w => n * 2 ^ 64 + w.toNat) 0)

/-! ### P-384 -/

def curveP : Nat := 2 ^ 384 - 2 ^ 128 - 2 ^ 96 + 2 ^ 32 - 1
def curveN : Nat := 0xffffffffffffffffffffffffffffffffffffffffffffffffc7634d81f4372ddf581a0db248b0a77aecec196accc52973
def curveX : Nat := 0xaa87ca22be8b05378eb1c71ef320ad746e1d3b628ba79b9859f741e082542a385502f25dbf55296c3a545e3872760ab7
def curveY : Nat := 0x3617de4a96262c6f5d9e98bf9292dc29f8f41dbd289a147ce9da3113b5f0b8c00a60b1ce1d7e819d7a431d7c90ea0e5f

/-- b^e modulo m, for e below 2^fuel. -/
def powMod (m b e : Nat) : Nat → Nat
  | 0 => 1 % m
  | fuel + 1 =>
    let x := powMod m b (e / 2) fuel
    if e % 2 = 1 then x * x % m * b % m else x * x % m

/-- The inverse modulo a prime below 2^384. -/
def invMod (m a : Nat) : Nat := powMod m a (m - 2) 384

/-- A point in Jacobian coordinates; Z is 0 at infinity. -/
structure CurvePoint where
  x : Nat
  y : Nat
  z : Nat
  deriving DecidableEq, Repr

/-- a − b modulo p. -/
def subP (a b : Nat) : Nat := (a + curveP - b % curveP) % curveP
def mulP (a b : Nat) : Nat := a * b % curveP

/-- 2·P. -/
def CurvePoint.double (a : CurvePoint) : CurvePoint :=
  let yy := mulP a.y a.y
  let zz := mulP a.z a.z
  let s := mulP 4 (mulP a.x yy)
  let m := mulP 3 (mulP (subP a.x zz) (a.x + zz))
  let x := subP (mulP m m) (2 * s)
  { x := x, y := subP (mulP m (subP s x)) (mulP 8 (mulP yy yy)), z := mulP 2 (mulP a.y a.z) }

/-- P + Q. -/
def CurvePoint.add (a b : CurvePoint) : CurvePoint :=
  if a.z = 0 then b
  else if b.z = 0 then a
  else
    let za := mulP a.z a.z
    let zb := mulP b.z b.z
    let u := mulP a.x zb
    let s := mulP a.y (mulP zb b.z)
    let h := subP (mulP b.x za) u
    let r := subP (mulP b.y (mulP za a.z)) s
    if h = 0 then (if r = 0 then a.double else { x := 1, y := 1, z := 0 })
    else
      let hh := mulP h h
      let hhh := mulP h hh
      let v := mulP u hh
      let x := subP (subP (mulP r r) hhh) (2 * v)
      { x := x, y := subP (mulP r (subP v x)) (mulP s hhh), z := mulP h (mulP a.z b.z) }

/-- k·P, for k below 2^fuel. -/
def CurvePoint.times (a : CurvePoint) (k : Nat) : Nat → CurvePoint
  | 0 => { x := 1, y := 1, z := 0 }
  | fuel + 1 =>
    let d := (a.times (k / 2) fuel).double
    if k % 2 = 1 then d.add a else d

/-- The affine x coordinate. -/
def CurvePoint.affineX (a : CurvePoint) : Nat := mulP a.x (mulP (invMod curveP a.z) (invMod curveP a.z))

def curveG : CurvePoint := { x := curveX, y := curveY, z := 1 }

/-- The signature r ‖ s of a digest by a private key with a secret number k. -/
def ecdsaSign (key k : Nat) (digest : BitVec 384) : BitVec 768 :=
  let r := (curveG.times k 384).affineX % curveN
  let s := invMod curveN k * ((digest.toNat + r * key) % curveN) % curveN
  BitVec.ofNat 768 (r * 2 ^ 384 + s)

/-- A public key, 48 octets of x and 48 of y, verifies a signature of a digest. -/
def ecdsaVerify (key : List Byte) (digest : BitVec 384) (sig : BitVec 768) : Bool :=
  let r := sig.toNat / 2 ^ 384
  let s := sig.toNat % 2 ^ 384
  let q : CurvePoint := { x := octetsNat (key.take 48), y := octetsNat (key.drop 48), z := 1 }
  let w := invMod curveN s
  let a := (curveG.times (digest.toNat * w % curveN) 384).add (q.times (r * w % curveN) 384)
  decide (0 < r ∧ r < curveN ∧ 0 < s ∧ s < curveN) && decide (a.z ≠ 0) && decide (a.affineX % curveN = r)

end Sys2Proof.Machine
end

