-- ==== Sys2Proof/Machine/State.lean ====
section
/-! DEFINITION. The state of the device, as plain data, and the state after reset. Every structure names the rules that
give its fields; INVENTORY.md lists them with their reset values. -/

namespace Sys2Proof.Machine

/-! ### Registers -/

/-- The state of a scalar register or of a lane of a vector register (R102). An empty or faulted register names the
request whose result it awaits, which is its replay descriptor. -/
inductive RegState where
  | full
  | empty (id : Nat)
  | faulted (id : Nat)
  deriving DecidableEq, Repr

/-- A permission window (R122). -/
structure Window where
  base : Word
  valid : Bool
  stale : Bool
  coh : BitVec 2
  perm : BitVec 3
  limit : BitVec 31
  deriving DecidableEq, Repr

/-- An active loop record (R202). -/
structure LoopRec where
  start : Word
  stop : Word
  depth : Nat
  deriving DecidableEq, Repr

/-! ### Accesses -/

/-- Where the result of an access goes. -/
inductive Dest where
  | none
  | scalar (r : Nat)
  | vector (d n lane : Nat)
  deriving DecidableEq, Repr

/-- What an access does at its home (R83, R125, R246, R278). -/
inductive AccessOp where
  | load
  | store (data : List Byte)
  | rmw (n ty : Nat) (rm : BitVec 2) (fz : Bool) (v w : List Byte)
  | reduce (n ty : Nat) (rm : BitVec 2) (fz : Bool) (v : List Byte)
  | discard
  | count (add : Bool) (n : Nat)
  deriving DecidableEq, Repr

/-- How far an access has come: sent to its home, waiting for its home controller, waiting for invalidations of a line
in P, appended behind held bytes, performed with its value, refused with a cause. -/
inductive Phase where
  | sent
  | atHc
  | pending
  | held
  | done (data : List Byte)
  | refused (cause : BitVec 8)
  deriving DecidableEq, Repr

/-- An access in flight (R83), with what a fault record needs (R367). `lanes` is the writer mask of the split, `lane` its
own lane (64 for an access of the whole split), `after` the first request it need not wait for across a split creation
(R87), `key` and `view` the keys of a deterministic launch. -/
structure Req where
  id : Nat
  gang : Nat
  launch : Nat
  part : Nat
  asid : Nat
  core : Nat
  lanes : BitVec 64
  lane : Nat
  cls : BitVec 2
  va : Word
  size : Nat
  op : AccessOp
  dest : Dest
  /-- the gang index and workgroup of its gang, which a fault record names (R367) -/
  gangid : Nat
  wg : Nat
  /-- bytes of a load that the split's own buffered stores give, by position (R41, R63, R65) -/
  fwd : SMap Byte
  acquire : Bool
  /-- it drops the core's self-invalidating copies when it performs: an `acq` of cluster scope or wider (R89, R248) -/
  drops : Bool
  priv : Bool
  pc : Word
  word : BitVec 32
  serial : BitVec 32
  clock : Word
  key : Option Key
  view : Option Key
  after : Nat
  /-- the loaded value is sign-extended (R238, R152); a hint not to keep the line in L1 -/
  sx : Bool
  nt : Bool
  /-- a write to the context area of its gang, whose refusal has cause 0x74 (R375) -/
  spill : Bool
  phase : Phase
  deriving DecidableEq, Repr

/-- A remote request of one instruction to one line of one node (R143, R144), with its lanes, the refusals it has met (R132) and whether it
waits in back-off or is held back behind a refused class O request (R133). -/
structure RemoteReq where
  id : Nat
  gang : Nat
  launch : Nat
  part : Nat
  core : Nat
  node : Nat
  cls : BitVec 2
  lanes : BitVec 64
  rest : BitVec 64
  pc : Word
  word : BitVec 32
  serial : BitVec 32
  clock : Word
  va : Word
  size : Nat
  ops : List (Nat × Word × FabricOp)
  dest : List (Nat × Dest)
  /-- the first request of its replay: the target answers each line separately, and a replay counts once (R142, R144) -/
  group : Nat
  /-- lines that were invalidated while it was on its way: no copy of them is kept (R129) -/
  dropped : List Nat
  cmd : Option Nat
  refusals : Nat
  waiting : Bool
  heldBack : Bool
  /-- its gang has left its core: it is kept as a replay descriptor and sent again on resume (R104, R302) -/
  saved : Bool
  /-- the key of its turn in a deterministic launch; the view of a load of a domain-scope launch, which is sent once the floor
  has reached it (R75) -/
  key : Option Key
  view : Option Key
  /-- sign extension of a loaded value -/
  sx : Bool
  /-- the cause it failed with, and the lanes that failed (R385) -/
  fault : Option (BitVec 8)
  failed : BitVec 64
  /-- its answer and the lanes that it answers, until every line of its replay has been answered (R144, R385) -/
  answer : Option RemoteAnswer
  got : BitVec 64
  deriving DecidableEq, Repr

/-- A store, reduction or discard of an open region (R41), or a scratchpad store of it (R241). -/
structure BufStore where
  va : Word
  size : Nat
  op : AccessOp
  lane : Nat
  pc : Word
  word : BitVec 32
  clock : Word
  tile : Option Nat
  cls : BitVec 2
  serial : BitVec 32
  /-- its place among the stores that splits of its gang have made (R64) -/
  order : Nat
  deriving DecidableEq, Repr

/-- A committed Cuff entry (R64): one line's bytes by offset, its store key and writer mask, with the attribution of R367
and the order in which it was made. The region-tagged entries of an open region are its `buffer` (R41). -/
structure CuffEntry where
  line : Nat
  data : SMap Byte
  key : Key
  lanes : BitVec 64
  pc : Word
  serial : BitVec 32
  order : Nat
  /-- the slot of the store log that it has spilled to (R67) -/
  log : Option Nat
  deriving DecidableEq, Repr

/-! ### Splits -/

/-- What a split waits for before it can issue or complete its instruction. -/
inductive Wait where
  /-- nothing -/
  | none
  /-- scalar registers and vector lanes to be full or faulted (R103) -/
  | regs (ss vs : List Nat)
  /-- admission of the turn it has presented (R61) -/
  | turn (key : Key) (i : Instr)
  /-- a floor to pass its key (R409): the group's or the workgroup's, and whether it has -/
  | gated (key : Key) (group granted : Bool)
  /-- a floor to reach a view (R266), and the counter at which a split waits, where its faults are taken (R376) -/
  | view (key : Key) (counter : Option Nat)
  /-- the j-th barrier of a kind (R251) -/
  | barrier (kind : BarrierKind) (j : Nat)
  /-- the overflow trap of a barrier whose arrival was withdrawn, once no other split of its gang runs a handler (R52, R335) -/
  | overflowed (kind : BarrierKind)
  /-- accesses that are ordered before the remote instruction at its pc to perform (R86, R87) -/
  | earlier (writes : Bool)
  /-- a return stack entry that the context area gives back, while its spill is held at the HC (R375) -/
  | refill
  /-- a change of the state of tile h (R108, R241): the key at which it waits in a deterministic launch, when it came
  (R110), and whether the tile has changed since it was last looked up -/
  | tile (key : Option Key) (h since : Nat) (woken : Bool)
  /-- room in the dependency table or in a counter (R109, R263) -/
  | engine (counter : Nat)
  /-- a counter to fall (R266) -/
  | ewait (counter n upto : Nat)
  /-- its earlier accesses of the classes of a mask to perform (R91, R248) -/
  | order (mask : BitVec 4) (upto : Nat)
  /-- a count of R250 to fall to n -/
  | count (k n : Nat)
  /-- room for n remote requests (R142), or the answer of one -/
  | remoteRoom (n : Nat)
  | remote (id : Nat)
  /-- the answer of an access that the instruction waits for (R278) -/
  | answer (id : Nat)
  /-- an HC to copy a page to its new frame (R124, R284) -/
  | migration
  /-- stores to the record at FREC to perform (R338) -/
  | record
  /-- the lines of n bytes to leave P, and writes of the device's own to them to perform (R128) -/
  | lines (part asid off n : Nat)
  /-- a host's grant of a line (R148) -/
  | hostLine (port line : Nat)
  /-- an entry of the PLB or the fields of a window (R122, R123), and whether it has arrived -/
  | plb (va : Word) (arrived : Bool)
  deriving DecidableEq, Repr

/-- The state of a split at the entry of its region, restored by a discard (R43, R62, R157, R202). -/
structure Entry where
  pc : Word
  /-- requests from this one on belong to the region (R104) -/
  firstReq : Nat
  rstack : List Word
  lr0 : Option LoopRec
  lr1 : Option LoopRec
  lrLater : Bool
  lc0 : BitVec 32
  lc1 : BitVec 32
  sregs : SMap Word
  sstate : SMap RegState
  wins : SMap Window
  mode : Word
  exec : BitVec 64
  clock : Word
  fstat : Word
  lastTurn : Option Key
  vregs : SMap (BitVec 32)
  vstate : SMap RegState
  preds : SMap Bool
  deriving DecidableEq, Repr

/-- A split (R28). -/
structure Split where
  members : BitVec 64
  pc : Word
  rstack : List Word
  lr0 : Option LoopRec
  lr1 : Option LoopRec
  /-- the record of lc1 was activated later than that of lc0 (R205) -/
  lrLater : Bool
  lc0 : BitVec 32
  lc1 : BitVec 32
  /-- lanes on slices whose context another path has: a mark in the stack of such a slice keeps their place (R31, R33; log entry 9) -/
  away : BitVec 64
  /-- lanes on slices that rotated as it presented its turn: they leave the split when the turn has retired (R33, R35) -/
  parted : BitVec 64
  sregs : SMap Word
  sstate : SMap RegState
  wins : SMap Window
  mode : Word
  exec : BitVec 64
  clock : Word
  fstat : Word
  status : Word
  cause : Word
  epc : Word
  /-- EPC as the last trap entry wrote it (R338 step 4) -/
  entryEpc : Word
  frec : Word
  lastTurn : Option Key
  lastCmd : Option Key
  arrivals : List Nat
  /-- the open region: its entry, live-in and written registers and its buffered stores (R39 to R41); none while the
  split waits at a barrier or runs a handler -/
  entry : Option Entry
  /-- a region has opened and its first instruction has not retired: a delivery point (R340) -/
  fresh : Bool
  serial : BitVec 32
  liveIn : List Nat
  written : List Nat
  buffer : List BufStore
  wait : Wait
  yielded : Nat
  /-- the cycle from which its age counts: when it last issued, or when it became ready after that (R292) -/
  since : Option Nat
  /-- requests before this one are ordered before every access of the split (R87) -/
  after : Nat
  /-- lanes still to perform of the remote atomic or reduction at the pc (R144, R385) -/
  redo : Option (BitVec 64)
  /-- in a handler: what `redo` was at the instruction at EPC (R338, R385) -/
  again : Option (BitVec 64)
  deriving DecidableEq, Repr

/-- A deferred, engine or remote fault held for delivery (R340, R376, R385). -/
structure HeldFault where
  kind : Nat
  cause : BitVec 8
  sub : BitVec 8
  pc : Word
  va : Word
  lanes : BitVec 64
  serial : BitVec 32
  clock : Word
  pnode : Nat
  /-- writer lanes of the split or publication it belongs to -/
  lineage : BitVec 64
  /-- publication key in a deterministic launch -/
  key : Option Key
  /-- counter of a suspended engine command, and the command -/
  counter : Option Nat
  cmd : Option Nat
  deriving DecidableEq, Repr

/-- A gang (R23, R27, R28). -/
structure Gang where
  id : Nat
  launch : Nat
  unit : Nat
  wg : Nat
  num : Nat
  ngang : Nat
  nwg : Nat
  width : Nat
  part : Nat
  asid : Nat
  core : Nat
  slice : Nat
  resident : Bool
  ctx : Word
  /-- the extents of its context area: offset and length (R181, R287) -/
  area : List (Nat × Nat)
  serial : BitVec 32
  vregs : SMap (BitVec 32)
  vstate : SMap RegState
  preds : SMap Bool
  splits : List Split
  /-- parked paths of each slice, top of the stack first (R31) -/
  parked : SMap (List Split)
  cuff : List CuffEntry
  cuffSeq : Nat
  /-- the store instructions whose deferred fault has been delivered, by serial and pc: later entries of them raise no further trap
  (R340) -/
  told : List (BitVec 32 × Word)
  logCap : Nat
  faults : List HeldFault
  /-- a split of the gang runs its handler (R335) -/
  trapped : Bool
  ended : Bool
  deriving DecidableEq, Repr

/-! ### Scratchpad and engines -/

/-- The states of a tile (R107, R108). -/
inductive TileState where
  | empty
  | priv (g : Nat)
  | filling (tag : Nat)
  | ready
  | draining (n : Nat)
  deriving DecidableEq, Repr

/-- A tile of a workgroup: its table entry (R107) and its bytes of scratchpad. -/
structure Tile where
  launch : Nat
  unit : Nat
  wg : Nat
  h : Nat
  slot : Nat
  state : TileState
  size : Nat
  base : Nat
  data : SMap Byte
  /-- the write key of the engine operation that filled it last in a deterministic launch, and its tag: up to that key it is
  FILLING (R110) -/
  fill : Option (Key × Nat)
  /-- the write keys of the engine operations that have taken it as input in a deterministic launch, and whether each has finished its
  reads: by the order of keys it reads the tile up to its key (R110; log entry 88) -/
  reads : List (Key × Bool)
  deriving DecidableEq, Repr

/-- The engine operations (R262). -/
inductive EngOp where
  | cp
  | cpx
  | gat
  | scat
  | coll
  | mloop
  | maccZ
  | maccLd
  | maccSt
  deriving DecidableEq, Repr

/-- Where an engine command stands (R263): in the dependency table, in its engine's queue or in the matrix reservation
table, finished but not retired from its counter. -/
inductive CmdPhase where
  | table
  | queued
  | matrix
  | finished
  deriving DecidableEq, Repr

/-- An engine command (R263): operation, `.r` flag, issuer, counter, index tile or accumulator range, descriptor and
format block as read at issue, MODE at issue, keys (R76, R77), progress in units of work or K-steps, suspension, shadow
(R273) and reservation-table data (R293). -/
structure Cmd where
  id : Nat
  op : EngOp
  rel : Bool
  /-- its engine has begun it: an engine begins its commands in the order of its queue (R297) -/
  started : Bool
  /-- a collective has sent its member's input (R270) -/
  sent : Bool
  gang : Nat
  launch : Nat
  unit : Nat
  wg : Nat
  part : Nat
  asid : Nat
  core : Nat
  counter : Nat
  h : Nat
  b : Nat
  n : Nat
  desc : List Word
  fmt : List Word
  mode : Word
  pc : Word
  serial : BitVec 32
  clock : Word
  lgang : Nat
  lane : Nat
  lineage : BitVec 64
  issueKey : Key
  writeKey : Key
  /-- the view at which it reads and the last turn key with it (R63, R76) -/
  view : Option Key
  turn : Option Key
  /-- requests before this one are its issuing split's earlier accesses (R95) -/
  upto : Nat
  phase : CmdPhase
  progress : Nat
  suspended : Bool
  /-- the fault record of its suspension has been delivered (R376) -/
  delivered : Bool
  /-- it does not resume: it retires when its report is delivered (R385, R391) -/
  abandoned : Bool
  /-- what has arrived from other devices for its next unit of work (R268, R270) -/
  data : Option (List Byte)
  drained : Bool
  shadow : Option (SMap (BitVec 32))
  /-- aborted at a pre-emption and recorded for reissue (R304) -/
  recorded : Bool
  prio : Nat
  entered : Nat
  order : Nat
  deriving DecidableEq, Repr

/-- The accumulator tiles a0 to a7 of a cluster group (R179, R296). -/
structure Accum where
  launch : Nat
  unit : Nat
  data : SMap (BitVec 32)
  deriving DecidableEq, Repr

/-! ### Caches, homes and home controllers -/

/-- The states of an own line at its home slice other than I (R128). -/
inductive LineState where
  | c
  | d
  | p
  deriving DecidableEq, Repr

/-- A line held in its home L2 slice (R128): where its frame bytes lie, its state, write grant (R364), L1 presence vector,
OUT, the acknowledgements outstanding in P, the access that the line leaves P for, whether the hosts asked keep the line shared
(R149), and the bytes of writes by the device's own agents that perform when it leaves P (log entry 24). -/
structure Line where
  ref : LineRef
  pa : Nat
  state : LineState
  grant : Bool
  coh : BitVec 2
  presence : BitVec 256
  out : Bool
  acks : List CopyHolder
  hostAcks : List Nat
  resume : Arg
  share : Bool
  laid : SMap Byte
  deriving DecidableEq, Repr

/-- An L1 copy (R111): its bytes, the bytes pending an acknowledgement, the launch that filled a launch-read-only copy
(R112) and the keys S and E of a deterministic launch (R71). -/
structure L1Line where
  core : Nat
  ref : LineRef
  coh : BitVec 2
  data : List Byte
  pending : List Nat
  launch : Nat
  startKey : Option Key
  expiry : Option Key
  deriving DecidableEq, Repr

/-- An instruction cache line (R126). -/
structure ICLine where
  core : Nat
  ref : LineRef
  data : List Byte
  deriving DecidableEq, Repr

/-- A PLB entry (R123). -/
structure PlbEntry where
  core : Nat
  part : Nat
  asid : Nat
  granule : Nat
  perm : BitVec 3
  coh : BitVec 2
  deriving DecidableEq, Repr

/-- A remote-section copy (R129). -/
structure RemoteCopy where
  part : Nat
  node : Nat
  va : Nat
  coh : BitVec 2
  launch : Nat
  data : List Byte
  deriving DecidableEq, Repr

/-- A Brim entry (R68): one line's published bytes, its key and group, the bytes held under R371, and whether it lies in
the spill area (R70). -/
structure BrimEntry where
  id : Nat
  launch : Nat
  ref : LineRef
  key : Key
  order : Nat
  data : SMap Byte
  held : List Nat
  spilled : Bool
  /-- where the line's frame bytes lay when it was published (R69) -/
  pa : Nat
  deriving DecidableEq, Repr

/-- A keyed reduction update (R72), or a publication, on its way to its home or buffered there. -/
structure Update where
  id : Nat
  launch : Nat
  part : Nat
  asid : Nat
  gang : Nat
  core : Nat
  key : Key
  lane : Nat
  va : Word
  n : Nat
  ty : Nat
  rm : BitVec 2
  fz : Bool
  v : List Byte
  pc : Word
  serial : BitVec 32
  lanes : BitVec 64
  /-- returned by a full Mitten buffer, on its way to the retry queue (R73) -/
  refused : Bool
  /-- it waits at its home slice for room in its HC's late-fault store queue (R369) -/
  stalled : Bool
  deriving DecidableEq, Repr

/-- A publication of one line on its way to its home slice (R66, R77). -/
structure Publication where
  id : Nat
  launch : Nat
  gang : Nat
  core : Nat
  part : Nat
  asid : Nat
  ref : LineRef
  key : Key
  order : Nat
  data : SMap Byte
  lanes : BitVec 64
  pc : Word
  serial : BitVec 32
  clock : Word
  cmd : Option Nat
  /-- entered in Brim or answered with a fault, its acknowledgement on its way back (R58) -/
  answered : Bool
  /-- it waits at its home slice for room in its HC's late-fault store queue (R369) -/
  stalled : Bool
  deriving DecidableEq, Repr

/-- A late-fault store queue entry (R367). `follower` entries are never delivered (R368); `reqId` is the access it answers. -/
structure LateEntry where
  id : Nat
  /-- home controller, or 32 + port for a host-port gateway (R150) -/
  hc : Nat
  part : Nat
  asid : Nat
  va : Word
  size : Nat
  op : AccessOp
  data : SMap Byte
  gang : Option Nat
  gangid : Nat
  wg : Nat
  serial : BitVec 32
  pc : Word
  lanes : BitVec 64
  clock : Word
  cause : Option (BitVec 8)
  reqId : Option Nat
  brim : Option Nat
  key : Option Key
  node : Option Nat
  /-- its record has reached the core (R340) -/
  recorded : Bool
  delivered : Bool
  /-- its record went to the fault queue, its gang having ended (R340) -/
  filed : Bool
  deriving DecidableEq, Repr

/-- The outside directory entry of a line (R130). -/
structure OutDir where
  ref : LineRef
  dev : BitVec 32
  /-- HOST state of each port: 0 I, 1 S, 2 A -/
  host : List Nat
  deriving DecidableEq, Repr

/-- A reservation of a line for a fabric requester (R134). -/
structure Reservation where
  ref : LineRef
  source : Nat
  core : Nat
  tag : Nat
  deriving DecidableEq, Repr

/-- A requester that qualifies for a reservation, with its refusals (R134). -/
structure Qualified where
  want : Reservation
  count : Nat
  deriving DecidableEq, Repr

/-- A line of a host-port coherency cache (R148), with a grant outstanding for a device access. -/
structure HpccLine where
  port : Nat
  addr : Nat
  state : Mesi
  data : List Byte
  deriving DecidableEq, Repr

/-! ### Tasks, launches, partitions -/

/-- Where a logically live unit of a launch stands (R37, R38): not yet placed, on its cores, or pre-empted. -/
inductive UnitPhase where
  | live
  | resident
  | swapped
  deriving DecidableEq, Repr

/-- A unit of a launch that has begun and has not retired (R37). `since` orders residencies and waits (R298); `awaitsOp` marks
a unit that waits for an operating point (R289); `hold` is the bound that a turn-driven swap-in brought it in for (R300). -/
structure UnitState where
  idx : Nat
  phase : UnitPhase
  clock : Word
  final : Word
  since : Nat
  awaitsOp : Bool
  hold : Option Key
  /-- cores of its workgroups while resident -/
  cores : List Nat
  /-- which of the launch's reserved areas the unit uses (R287) -/
  slot : Nat
  /-- a launch of higher PRIO has displaced it (R299) -/
  displaced : Bool
  /-- it is to be pre-empted once its gangs have left their handlers (R298, R337) -/
  leaving : Bool
  deriving DecidableEq, Repr

/-- Where a launch stands (R286, R277, R276). -/
inductive LaunchPhase where
  | intake
  | matching
  | running
  | retired
  deriving DecidableEq, Repr

/-- A launch and its task control block's parameters (R275), DETCFG values (R56), determinism state (R59, R82) and units. -/
structure Launch where
  id : Nat
  part : Nat
  asid : Nat
  tcb : Word
  phase : LaunchPhase
  nsucc : Nat
  succp : Word
  entryVA : Word
  wpc : Nat
  cg : Bool
  nunit : Nat
  obs : Bool
  oph : Nat
  lag : Nat
  qexp : Nat
  dscope : Nat
  conc : Nat
  ngang : Nat
  width : Nat
  tiles : List Nat
  scratch : Nat
  argp : Word
  ctxLog : Nat
  prio : Nat
  comp : Word
  dgrp : Word
  gid : BitVec 32
  desc : List (BitVec 64)
  members : List Nat
  mrank : Nat
  mcount : Nat
  early : Bool
  fu : Bool
  fline : Word
  floor : Key
  memberFloors : SMap Key
  /-- the floor that its root last sent to the other members (R137) -/
  sentFloor : Key
  /-- how many barriers across members have completed (R51, R59) -/
  crossed : Nat
  units : List UnitState
  /-- the extents of the context pool that it has reserved: offset and length (R287) -/
  pool : List (Nat × Nat)
  /-- cycles of its residency period that have passed, and whether one has ended in this cycle (R298, R299) -/
  period : Nat
  periodDue : Bool
  /-- the RESPER of the period in progress (R323) -/
  resper : Nat
  ended : Option (BitVec 8 × Nat)
  stallNoted : Option Key
  /-- discards of a deterministic launch, which are sent when it retires (R125, R243) -/
  discards : List Req
  deriving DecidableEq, Repr

/-- A partition (R321) with its control registers (R322), counters (R331), trap block (R345), dead-peer bitmap (R387) and
aperture map (R150). -/
structure Partition where
  id : Nat
  port : Nat
  clmask : BitVec 64
  memmap : BitVec 384
  rsec : Nat
  l2p : Bool
  node : Nat
  domain : Nat
  drank : Nat
  members : List Nat
  ctxmb : Nat
  spillmb : Nat
  hdmgb : Nat
  record : List Byte
  /-- its domain is a direct mesh, and the ports of the trunk to each member (R136) -/
  mesh : Bool
  trunks : SMap (List Nat)
  /-- the members of its domain whose capability word has DDOM = 0 (R146, R390) -/
  noDdom : List Nat
  resper : Nat
  stepb : Nat
  rtime : Nat
  starve : Nat
  esel : SMap Word
  evc : SMap Word
  /-- the step at which a counter was last set to 0, for the timed events -/
  evcFrom : SMap Nat
  tvec : Word
  fqbase : Word
  fqlog : Nat
  fqhead : BitVec 32
  fqtail : BitVec 32
  fqlost : BitVec 32
  dead : SMap Word
  aperture : SMap Word
  intake : List Nat
  deriving DecidableEq, Repr

/-- A host port (R319, R320, R329, R396): its mailbox, its link in the active state, lost, in flit mode, its power cap. -/
structure Port where
  mailbox : SMap Byte
  linkUp : Bool
  down : Bool
  flit : Bool
  powerCap : Nat
  /-- bases of the eight HDM decoders in BAR 2, where they are committed (R149, R319) -/
  decoders : List (Option Word)
  deriving DecidableEq, Repr

/-- A die (R288 to R290, R330): operating point in force, the point it moves to, the steps its cap lowers it by, and its
thermal hold. -/
structure Die where
  point : Nat
  target : Option Nat
  lowered : Nat
  hold : Bool
  deriving DecidableEq, Repr

/-- Where the start of the device stands (R326, R400, R402). -/
inductive StartPhase where
  | running
  | started
  | failed
  | minimal
  deriving DecidableEq, Repr

/-- Start-up, firmware slots, the count of signatures made, and the start-failure record (R326, R327, R400 to R402). -/
structure Startup where
  phase : StartPhase
  step : Nat
  /-- the SHA-384 digest of the firmware key and the unique secret that are fused (R326, R328) -/
  fusedKey : BitVec 384
  secret : BitVec 384
  /-- the certificate of the identity key, in flash (R328) -/
  certificate : List Byte
  slotA : Option FwImage
  slotB : Option FwImage
  /-- the slot that the next start reads first: 1 A, 2 B (R326, R327) -/
  first : Nat
  /-- 0 none, 1 A, 2 B -/
  boot : Nat
  digest : BitVec 384
  version : BitVec 32
  minVersion : BitVec 32
  count : Nat
  record : List Word
  minimalPort : Nat
  signatures : Nat
  deriving DecidableEq, Repr

/-! ### The outside -/

/-- The path of a request (R139): the port it leaves by, and the device that forwards it. -/
structure FabricPath where
  port : Nat
  via : Option Nat
  deriving DecidableEq, Repr

/-- What a request says of its source (R138): domain number, node, domain rank of the partition. -/
structure FabricSource where
  domain : Nat
  node : Nat
  rank : Nat
  deriving DecidableEq, Repr

/-- What the device sends outward. -/
inductive Msg where
  | decoderData (port k : Nat) (base : Option Word)
  | imageRead (port : Nat) (addr : Word)
  | fabricRequest (id node : Nat) (cls : BitVec 2) (path : FabricPath) (source : FabricSource) (refusals : Nat)
      (ops : List (Nat × Word × FabricOp))
  | fabricForward (dest : Nat) (q : FabricReq)
  | fabricData (node tag : Nat) (data : List Byte) (coh : BitVec 2)
  | fabricAck (node tag : Nat)
  | fabricRefusal (node tag : Nat)
  | fabricFault (node tag : Nat)
  | fabricUnsupported (node tag : Nat)
  | fabricExhausted (node tag : Nat)
  | invalidate (node : Nat) (l : LineRef)
  | invalidationAnswer (node : Nat) (va : Word) (present : Bool)
  | probeAnswer (probe : Nat)
  | floorFlit (port launch : Nat) (key : Key)
  | descriptor (launch : Nat) (gid : BitVec 32) (entries : List (BitVec 64))
  | backInvalidate (port : Nat) (l : LineRef) (data : Bool)
  | hostData (port : Nat) (data : List Byte) (poisoned : Bool)
  | hostComplete (port : Nat)
  | hostAbort (port : Nat)
  | hostUnsupported (port : Nat)
  | barData (port off : Nat) (v : Word)
  | hostAtomicData (port : Nat) (old : Word)
  | cxlRead (port addr : Nat) (own : Bool)
  | snpAnswer (port addr : Nat) (name : String) (data : List Byte)
  | hostWrite (port : Nat) (addr : Word) (data : List Byte)
  | cleanEvict (port addr : Nat)
  | spdm (port : Nat) (data : List Byte)
  | configRetry (port : Nat)
  | configDone (port : Nat)
  deriving DecidableEq, Repr

/-- A request of another device some of whose accesses have been answered: its source and tag, the partition, how many are left, and the
address of the lowest refused one (R144, R383, R384). -/
structure Inbound where
  source : Nat
  tag : Nat
  part : Nat
  left : Nat
  refused : Option Word
  deriving DecidableEq, Repr

/-- A move the model still has to make: a step of another agent with its operands, or the choice of the split that issues
next. -/
inductive Move where
  | agent (i : Instr) (arg : Arg)
  | select (gang lane : Nat)
  deriving DecidableEq, Repr

/-! ### The state -/

/-- The device. `p` is the split at issue and `g` its gang without `p`; every other split lies in its gang's lists. -/
structure State where
  p : Split
  g : Gang
  gangs : List Gang
  reqs : List Req
  remotes : List RemoteReq
  cmds : List Cmd
  tiles : List Tile
  accums : List Accum
  loaded : SMap (Nat × Nat)
  lines : List Line
  l1 : List L1Line
  icache : List ICLine
  plb : List PlbEntry
  remoteCopies : List RemoteCopy
  brim : List BrimEntry
  pubs : List Publication
  updates : List Update
  mitten : List Update
  retry : List Update
  late : List LateEntry
  outDirs : List OutDir
  reserved : List Reservation
  /-- requesters that qualify for a reservation and hold none (R134) -/
  starving : List Qualified
  hpcc : List HpccLine
  /-- the lines that the gateways have asked their hosts for and that have not been granted: port and host address (R148) -/
  cxlAsked : List (Nat × Nat)
  /-- tasks whose PRED has reached 0 and whose control block, tile list or descriptor the task unit cannot read yet: partition, address
  space, offset (R149, R286) -/
  readied : List (Nat × Nat × Nat)
  /-- requests of cores, hosts and accepted ones of other devices that wait at a home, in arrival order (R128) -/
  hostQueue : List (LineRef × Arg)
  /-- those of hosts and other devices that have left a record of their stall for want of room in a late-fault store queue (R369) -/
  noted : List (LineRef × Arg)
  mem : List Host.Cell
  roots : SMap Nat
  frames : SMap (Nat × Nat × Nat)
  badLines : List Nat
  /-- physical addresses of page-table entries with an uncorrectable error (R382) -/
  badEntries : List Nat
  launches : List Launch
  parts : List Partition
  ports : List Port
  /-- the ports whose mailbox commands have reached the system controller, in their order (R320) -/
  posted : List Nat
  dies : List Die
  tripped : Bool
  filterCount : Nat
  /-- requests of other devices some of whose accesses have been answered (R383) -/
  inbound : List Inbound
  probes : List Nat
  corrected : Nat
  clustersOut : BitVec 64
  hbmOut : BitVec 8
  /-- HCs and L2 slices out of service by themselves (R22) -/
  hcOut : BitVec 32
  sliceOut : BitVec 384
  fportOut : BitVec 24
  bridgeOut : Bool
  /-- units of 64 KiB of each core's SRAM that are scratchpad (R105) -/
  division : SMap Nat
  startup : Startup
  /-- the cycle of the cores, and the instructions that each core has issued in it with the slices they take (R292) -/
  cycle : Nat
  taken : SMap (Nat × List Nat)
  /-- steps of the model so far -/
  ticks : Nat
  nextId : Nat
  arg : Arg
  agenda : List Move
  outbox : List Msg
  deriving DecidableEq, Repr

/-! ### How a step can stop -/

/-- Why the machine stops: never. With nothing to do a cycle passes (R292). -/
inductive Fault where
  deriving DecidableEq, Repr

/-- Why an instruction is refused. -/
inductive Refusal where
  /-- Raised by `exec` for an instruction without a meaning in this model. Safe. -/
  | notModelled (mnemonic : String)
  deriving DecidableEq, Repr

/-! ### Reset -/

/-- A split with no lanes, as the issue slot holds when no gang is resident. -/
def Split.vacant : Split where
  members := 0
  pc := 0
  rstack := []
  lr0 := none
  lr1 := none
  lrLater := false
  lc0 := 0
  lc1 := 0
  away := 0
  parted := 0
  sregs := []
  sstate := []
  wins := []
  mode := 0
  exec := 0
  clock := 0
  fstat := 0
  status := 0
  cause := 0
  epc := 0
  entryEpc := 0
  frec := 0
  lastTurn := none
  lastCmd := none
  arrivals := [0, 0, 0]
  entry := none
  fresh := false
  serial := 0
  liveIn := []
  written := []
  buffer := []
  wait := .none
  yielded := 0
  since := none
  after := 0
  redo := none
  again := none

/-- A gang with no split. -/
def Gang.vacant : Gang where
  id := 0
  launch := 0
  unit := 0
  wg := 0
  num := 0
  ngang := 1
  nwg := 1
  width := 8
  part := 0
  asid := 0
  core := 0
  slice := 0
  resident := false
  ctx := 0
  area := []
  serial := 0
  vregs := []
  vstate := []
  preds := []
  splits := []
  parked := []
  cuff := []
  cuffSeq := 0
  told := []
  logCap := 1024
  faults := []
  trapped := false
  ended := true

/-- A host port after start: link up in flit mode, mailbox 0, cap 2,400 W (R319, R329; log entry 4). -/
def Port.reset : Port where
  mailbox := []
  linkUp := true
  down := false
  flit := true
  powerCap := 2400
  decoders := List.replicate 8 none

/-- A die with no resident unit runs at point 3 (R288). -/
def Die.reset : Die where
  point := 3
  target := none
  lowered := 0
  hold := false

/-- A device that has started from slot A without failure (R326, R400, R401; log entry 6). -/
def Startup.reset : Startup where
  phase := .started
  step := 4
  fusedKey := Config.fusedKey
  secret := Config.fusedSecret
  certificate := Config.identityCertificate
  slotA := some { body := Config.factoryBody, key := Config.factoryKey, signature := Config.factorySignature, version := 0 }
  slotB := none
  first := 1
  boot := 1
  digest := sha384 Config.factoryBody
  version := 0
  minVersion := 0
  count := 0
  record := [0, 0, 0, 0]
  minimalPort := 0
  signatures := 0

/-- The device right after reset: step 4 of R326, host ports up with no partition, nothing resident. -/
def State.reset : State where
  p := Split.vacant
  g := Gang.vacant
  gangs := []
  reqs := []
  remotes := []
  cmds := []
  tiles := []
  accums := []
  loaded := []
  lines := []
  l1 := []
  icache := []
  plb := []
  remoteCopies := []
  brim := []
  pubs := []
  updates := []
  mitten := []
  retry := []
  late := []
  outDirs := []
  reserved := []
  starving := []
  hpcc := []
  cxlAsked := []
  readied := []
  hostQueue := []
  noted := []
  mem := []
  roots := []
  frames := []
  badLines := []
  badEntries := []
  launches := []
  parts := []
  ports := [Port.reset, Port.reset]
  posted := []
  dies := [Die.reset, Die.reset]
  tripped := false
  filterCount := 0
  inbound := []
  probes := []
  corrected := 0
  clustersOut := 0
  hbmOut := 0
  hcOut := 0
  sliceOut := 0
  fportOut := 0
  bridgeOut := false
  division := []
  startup := Startup.reset
  cycle := 0
  taken := []
  ticks := 0
  nextId := 1
  arg := .none
  agenda := []
  outbox := []

end Sys2Proof.Machine
end

