-- ==== Sys2Proof/Machine/Map.lean ====
section
/-! DEFINITION. The plain tools of the model: sparse maps in canonical form, lists updated in place, lane masks, bit
fields, sign extension and byte order (spec/00_scope.md R5). -/

namespace Sys2Proof.Machine

/-! ### Sparse maps -/

/-- What a key reads as, `d` where the map does not list it. -/
def mapGet {β : Type} (d : β) : SMap β → Nat → β
  | [], _ => d
  | (k', v) :: r, k => if k' = k then v else mapGet d r k

/-- The map without an entry for `k`. -/
def mapErase {β : Type} : SMap β → Nat → SMap β
  | [], _ => []
  | (k', v) :: r, k => if k' = k then mapErase r k else (k', v) :: mapErase r k

/-- The map with the entry (k, v) in its place in the rising order of keys. -/
def mapInsert {β : Type} : SMap β → Nat → β → SMap β
  | [], k, v => [(k, v)]
  | (k', v') :: r, k, v =>
    if k < k' then (k, v) :: (k', v') :: r
    else if k' = k then (k, v) :: r
    else (k', v') :: mapInsert r k v

/-- Writes `v` at `k`. Writing what an unlisted key reads as removes the entry. -/
def mapSet {β : Type} [DecidableEq β] (d : β) (m : SMap β) (k : Nat) (v : β) : SMap β :=
  if v = d then mapErase m k else mapInsert m k v

/-- Writes a list of entries in order. -/
def mapSetAll {β : Type} [DecidableEq β] (d : β) : SMap β → List (Nat × β) → SMap β
  | m, [] => m
  | m, (k, v) :: r => mapSetAll d (mapSet d m k v) r

/-- The canonical form: keys strictly rising, no entry equal to what an unlisted key reads as. -/
def mapWf {β : Type} [DecidableEq β] (d : β) : SMap β → Bool
  | [] => true
  | (_, v) :: [] => decide (v ≠ d)
  | (k, v) :: (k', v') :: r => decide (v ≠ d) && decide (k < k') && mapWf d ((k', v') :: r)

/-- The entries whose key lies in [lo, hi). -/
def mapRange {β : Type} (m : SMap β) (lo hi : Nat) : SMap β :=
  m.filter fun e => decide (lo ≤ e.1 ∧ e.1 < hi)

/-! ### Lists -/

/-- The first element that satisfies `q`. -/
def findFirst {α : Type} (q : α → Bool) : List α → Option α
  | [] => none
  | a :: r => if q a then some a else findFirst q r

/-- The list with `f` applied to every element that satisfies `q`. -/
def updateWhere {α : Type} (q : α → Bool) (f : α → α) : List α → List α
  | [] => []
  | a :: r => (if q a then f a else a) :: updateWhere q f r

/-- The list without its first element that satisfies `q`. -/
def dropFirst {α : Type} (q : α → Bool) : List α → List α
  | [] => []
  | a :: r => if q a then r else a :: dropFirst q r

/-- The list with the element at index i replaced. -/
def setAt {α : Type} : List α → Nat → α → List α
  | [], _, _ => []
  | _ :: r, 0, v => v :: r
  | a :: r, i + 1, v => a :: setAt r i v

/-- The element at index i, or `d`. -/
def getAt {α : Type} (d : α) : List α → Nat → α
  | [], _ => d
  | a :: _, 0 => a
  | _ :: r, i + 1 => getAt d r i

/-- The element that comes first under `lt`, or none of an empty list. -/
def leastBy {α : Type} (lt : α → α → Bool) : List α → Option α
  | [] => none
  | a :: r =>
    match leastBy lt r with
    | none => some a
    | some b => if lt b a then some b else some a

/-- Inserts `a` before the first element that does not come before it. -/
def insertBy {α : Type} (lt : α → α → Bool) (a : α) : List α → List α
  | [] => [a]
  | b :: r => if lt b a then b :: insertBy lt a r else a :: b :: r

/-- The list in rising order under `lt`; equal elements keep their order. -/
def sortBy {α : Type} (lt : α → α → Bool) : List α → List α
  | [] => []
  | a :: r => insertBy lt a (sortBy lt r)

/-- The numbers of a list, rising and without repeats. -/
def sortNub : List Nat → List Nat
  | [] => []
  | a :: r => ins a (sortNub r)
where
  ins (a : Nat) : List Nat → List Nat
    | [] => [a]
    | b :: r => if a < b then a :: b :: r else if a = b then b :: r else b :: ins a r

/-- a, a + 1, …, n numbers. -/
def countFrom (a : Nat) : Nat → List Nat
  | 0 => []
  | n + 1 => a :: countFrom (a + 1) n

/-- The sum of a list. -/
def total (l : List Nat) : Nat := l.foldl (· + ·) 0

/-! ### Bits -/

/-- ⌊n / 2^lo⌋ mod 2^len: the field [lo + len − 1 : lo] of n. -/
def bits (n lo len : Nat) : Nat := n / 2 ^ lo % 2 ^ len

/-- The low n bits of x read as two's complement. -/
def sextInt (x n : Nat) : Int :=
  let m := x % 2 ^ n
  if m < 2 ^ (n - 1) then (m : Int) else (m : Int) - (2 ^ n : Nat)

/-- An integer modulo 2^n. -/
def wrapNat (x : Int) (n : Nat) : Nat := (x % ((2 ^ n : Nat) : Int)).toNat

/-- sext(x, n) as a 64-bit word. -/
def sext64 {n : Nat} (x : BitVec n) : Word := x.signExtend 64

/-- Bit i of a lane mask. -/
def lane (m : BitVec 64) (i : Nat) : Bool := m.getLsbD i

/-- The mask with the bit of lane i alone. -/
def laneBit (i : Nat) : BitVec 64 := BitVec.ofNat 64 (2 ^ i)

/-- The lanes 0 to n − 1. -/
def lowMask (n : Nat) : BitVec 64 := BitVec.ofNat 64 (2 ^ n - 1)

/-- The lanes of a mask, rising. -/
def lanesOf (m : BitVec 64) : List Nat := (countFrom 0 64).filter fun i => lane m i

/-- The lowest lane of a mask; 64 for an empty mask. -/
def lowest (m : BitVec 64) : Nat :=
  match lanesOf m with
  | [] => 64
  | i :: _ => i

/-- The number of lanes of a mask. -/
def popcount (m : BitVec 64) : Nat := (lanesOf m).length

/-- The mask of a list of lanes. -/
def maskOf : List Nat → BitVec 64
  | [] => 0
  | i :: r => laneBit i ||| maskOf r

/-- The lanes 8j to 8j + 7 of slice j. -/
def sliceMask (j : Nat) : BitVec 64 := BitVec.ofNat 64 (0xFF * 2 ^ (8 * j))

/-- A Boolean as a one-bit field. -/
def bit (b : Bool) : Nat := if b then 1 else 0

/-! ### Byte order (R5) -/

/-- The n bytes of a number, least significant first. -/
def leBytes : Nat → Nat → List Byte
  | 0, _ => []
  | n + 1, x => BitVec.ofNat 8 x :: leBytes n (x / 256)

/-- The number of a list of bytes, least significant first. -/
def leNat : List Byte → Nat
  | [] => 0
  | b :: r => b.toNat + 256 * leNat r

/-- Exactly n bytes of a list, padded with zeros. -/
def takePad (n : Nat) (l : List Byte) : List Byte :=
  (countFrom 0 n).map fun i => getAt 0 l i

/-! ### Line addresses -/

/-- The 128-B line of an address: its offset [52:7] times 128 (R113). -/
def lineOf (va : Word) : Nat := va.toNat % 2 ^ 53 / 128 * 128

/-- Offset [52:0] of an address (R115). -/
def offsetOf (va : Word) : Nat := va.toNat % 2 ^ 53

/-- Node [62:53] of an address (R115). -/
def nodeOf (va : Word) : Nat := bits va.toNat 53 10

/-- Bit [63] of an address (R115). -/
def isControl (va : Word) : Bool := va.getLsbD 63

/-- Region code: offset [52:51] (R115). -/
def regionOf (off : Nat) : Nat := bits off 51 2

/-- Node and offset as a user address. -/
def userVA (node off : Nat) : Word := BitVec.ofNat 64 (node * 2 ^ 53 + off % 2 ^ 53)

end Sys2Proof.Machine
end

