-- ==== Sys2Proof/Machine/Float.lean ====
section
/-! DEFINITION. Number formats and rounding (spec/07_number_formats.md R151 to R171): element types, decoding and
encoding, one rounding of an exact value, the arithmetic of the vector float pipe and of the L2 ALUs. -/

namespace Sys2Proof.Machine

/-! ### Element types (R151) -/

/-- What a type code of MODE.T means: its kind and width. -/
inductive ElemKind where
  | int
  | nat
  | float
  deriving DecidableEq, Repr

/-- An element type. -/
structure Ty where
  kind : ElemKind
  width : Nat
  /-- fraction bits of a float type -/
  frac : Nat
  deriving DecidableEq, Repr

def Ty.i (w : Nat) : Ty := { kind := .int, width := w, frac := 0 }
def Ty.n (w : Nat) : Ty := { kind := .nat, width := w, frac := 0 }
def Ty.f16 : Ty := { kind := .float, width := 16, frac := 10 }
def Ty.bf16 : Ty := { kind := .float, width := 16, frac := 7 }
def Ty.f32 : Ty := { kind := .float, width := 32, frac := 23 }
def Ty.f64 : Ty := { kind := .float, width := 64, frac := 52 }

/-- The type of a code; none for the reserved codes 0xC to 0xF. -/
def tyOfCode (c : Nat) : Option Ty :=
  match c with
  | 0 => some (Ty.i 32)
  | 1 => some (Ty.n 32)
  | 2 => some Ty.f32
  | 3 => some (Ty.i 64)
  | 4 => some (Ty.n 64)
  | 5 => some Ty.f64
  | 6 => some (Ty.i 16)
  | 7 => some (Ty.n 16)
  | 8 => some Ty.f16
  | 9 => some Ty.bf16
  | 10 => some (Ty.i 8)
  | 11 => some (Ty.n 8)
  | _ => none

def Ty.isFloat (t : Ty) : Bool := decide (t.kind = .float)
def Ty.isInt (t : Ty) : Bool := !t.isFloat
def Ty.wide (t : Ty) : Bool := t.width == 64
/-- Registers of an operand of the type (R152). -/
def Ty.regs (t : Ty) : Nat := if t.wide then 2 else 1
/-- Exponent bits. -/
def Ty.ebits (t : Ty) : Nat := t.width - 1 - t.frac
/-- Exponent bias (R153). -/
def Ty.bias (t : Ty) : Nat := 2 ^ (t.ebits - 1) - 1
/-- The canonical NaN (R153). -/
def Ty.nan (t : Ty) : Nat := (2 ^ t.ebits - 1) * 2 ^ t.frac + 2 ^ (t.frac - 1)
/-- +∞. -/
def Ty.inf (t : Ty) : Nat := (2 ^ t.ebits - 1) * 2 ^ t.frac
/-- The largest finite value. -/
def Ty.maxFinite (t : Ty) : Nat := t.inf - 1

/-- The value of an integer code: two's complement for i types, unsigned for n types. -/
def Ty.intVal (t : Ty) (x : Nat) : Int :=
  match t.kind with
  | .int => sextInt x t.width
  | _ => ((x % 2 ^ t.width : Nat) : Int)

/-- How a lane holds a result of the type: sign-extended for i types below 32 bits, else zero-extended (R152). -/
def Ty.extend (t : Ty) (x : Nat) : Nat :=
  match t.kind with
  | .int => if t.width < 32 then wrapNat (sextInt x t.width) 32 else x % 2 ^ t.width
  | _ => x % 2 ^ t.width

/-! ### FSTAT flags (R157) -/

def flagNV : BitVec 64 := 1
def flagDZ : BitVec 64 := 2
def flagOF : BitVec 64 := 4
def flagUF : BitVec 64 := 8
def flagNX : BitVec 64 := 16
def flagCL : BitVec 64 := 32

/-- A result and the flags it raises. -/
structure Res where
  val : Nat
  flags : BitVec 64
  deriving DecidableEq, Repr

/-! ### Numbers -/

/-- A decoded number: NaN with its sign, 52-bit payload (quiet bit at 51) and whether it signals; an infinity; or the
exact value (−1)^neg · m · 2^e. -/
inductive Num where
  | nan (neg : Bool) (payload : Nat) (signalling : Bool)
  | inf (neg : Bool)
  | fin (neg : Bool) (m : Nat) (e : Int)
  deriving DecidableEq, Repr

/-- Decodes a code of an IEEE float type (R153). The payload of a NaN is left-justified in 52 bits, so that a wider result has zeros below
it (log entry 117). -/
def decodeFloat (t : Ty) (x : Nat) : Num :=
  let neg := x.testBit (t.width - 1)
  let ex := bits x t.frac t.ebits
  let f := x % 2 ^ t.frac
  if ex = 2 ^ t.ebits - 1 then
    if f = 0 then .inf neg
    else .nan neg (f * 2 ^ (52 - t.frac)) (!f.testBit (t.frac - 1))
  else if ex = 0 then .fin neg f (1 - (t.bias : Int) - (t.frac : Int))
  else .fin neg (f + 2 ^ t.frac) ((ex : Int) - (t.bias : Int) - (t.frac : Int))

/-- A subnormal number of the type. -/
def isSubnormal (t : Ty) (x : Nat) : Bool := bits x t.frac t.ebits == 0 && x % 2 ^ t.frac != 0

/-- Reads an operand: with FZ, a subnormal is a zero of its own sign (R155). -/
def readFloat (t : Ty) (fz : Bool) (x : Nat) : Num :=
  if fz && isSubnormal t x then .fin (x.testBit (t.width - 1)) 0 0 else decodeFloat t x

/-- The sign bit of a type. -/
def signBit (t : Ty) (neg : Bool) : Nat := bit neg * 2 ^ (t.width - 1)

/-- A NaN in a type, quiet, with the high bits of its payload (R156). -/
def encodeNan (t : Ty) (neg : Bool) (payload : Nat) : Nat :=
  let f := payload / 2 ^ (52 - t.frac) % 2 ^ t.frac
  signBit t neg + t.inf + (if f.testBit (t.frac - 1) then f else f + 2 ^ (t.frac - 1))

/-! ### Rounding -/

/-- A rounding: those of MODE.RM (R154) and those of MODE.CV (R168), the stochastic one with its draw (R170). -/
inductive Rounding where
  | nearest
  | zero
  | up
  | down
  | away
  | stochastic (r : Nat)
  deriving DecidableEq, Repr

/-- The rounding of a code of MODE.RM. -/
def rmOf (c : BitVec 2) : Rounding :=
  match c.toNat with
  | 0 => .nearest
  | 1 => .zero
  | 2 => .up
  | _ => .down

/-- Whether the magnitude lo + rem / 2^s, with 0 < rem < 2^s, rounds to lo + 1 (R154, R169). -/
def roundsUp (r : Rounding) (neg : Bool) (lo rem s : Nat) : Bool :=
  match r with
  | .nearest => decide (2 ^ s < 2 * rem) || (decide (2 ^ s = 2 * rem) && lo % 2 == 1)
  | .zero => false
  | .up => !neg
  | .down => neg
  | .away => true
  | .stochastic d =>
    if neg then !decide (d < 2 ^ 16 * (2 ^ s - rem) / 2 ^ s) else decide (d < 2 ^ 16 * rem / 2 ^ s)

/-- m · 2^e in whole multiples of 2^q, rounded, and whether that was inexact. -/
def roundAt (r : Rounding) (neg : Bool) (m : Nat) (e q : Int) : Nat × Bool :=
  if q ≤ e then (m * 2 ^ (e - q).toNat, false)
  else
    let s := (q - e).toNat
    let lo := m / 2 ^ s
    let rem := m % 2 ^ s
    if rem = 0 then (lo, false) else (if roundsUp r neg lo rem s then lo + 1 else lo, true)

/-- Bits of a number; 0 for 0. -/
def bitLength (n : Nat) : Nat := if n = 0 then 0 else Nat.log2 n + 1

/-- An exact non-zero magnitude m · 2^e at p bits of precision with least exponent qmin of the last bit: the multiple n,
the exponent q of its last bit, and whether it was inexact. -/
def roundMag (r : Rounding) (p : Nat) (qmin : Int) (neg : Bool) (m : Nat) (e : Int) : Nat × Int × Bool :=
  let q := max (e + (bitLength m : Int) - (p : Int)) qmin
  let (n, inexact) := roundAt r neg m e q
  if n = 2 ^ p then (2 ^ (p - 1), q + 1, inexact) else (n, q, inexact)

/-- Rounds the exact value (−1)^neg · m · 2^e once to an IEEE type (R154, R155): result and the flags OF, UF, NX. A zero
keeps its sign. -/
def roundFloat (t : Ty) (r : Rounding) (fz : Bool) (neg : Bool) (m : Nat) (e : Int) : Res :=
  if m = 0 then { val := signBit t neg, flags := 0 } else
  let p := t.frac + 1
  let qmin : Int := 1 - (t.bias : Int) - (t.frac : Int)
  let (n, q, inexact) := roundMag r p qmin neg m e
  if (t.bias : Int) < q + (t.frac : Int) ∧ 2 ^ t.frac ≤ n then
    let toInf := match r with
      | .zero => false
      | .up => !neg
      | .down => neg
      | _ => true
    { val := signBit t neg + (if toInf then t.inf else t.maxFinite), flags := flagOF ||| flagNX }
  else
    let (n1, q1, _) := roundMag r p (e - (p : Int) - 1) neg m e
    let tiny := decide ((bitLength n1 : Int) + q1 ≤ 1 - (t.bias : Int))
    if n < 2 ^ t.frac then
      if fz && n != 0 then { val := signBit t neg, flags := flagUF ||| flagNX }
      else { val := signBit t neg + n, flags := if inexact then (if tiny then flagUF ||| flagNX else flagNX) else 0 }
    else
      { val := signBit t neg + (q + (t.frac : Int) + (t.bias : Int)).toNat * 2 ^ t.frac + (n - 2 ^ t.frac)
        flags := if inexact then (if tiny then flagUF ||| flagNX else flagNX) else 0 }

/-! ### Arithmetic (R154 to R156) -/

/-- The first NaN of a list of operands, quiet; with whether any of them signals (R156). -/
def nanOf (t : Ty) : List Num → Option Nat
  | [] => none
  | .nan neg pl _ :: _ => some (encodeNan t neg pl)
  | _ :: r => nanOf t r

/-- Some operand is a signalling NaN. -/
def signals : List Num → Bool
  | [] => false
  | .nan _ _ s :: r => s || signals r
  | _ :: r => signals r

/-- The result of operands with a NaN, if there is one. -/
def propagate (t : Ty) (l : List Num) : Option Res :=
  match nanOf t l with
  | none => none
  | some v => some { val := v, flags := if signals l then flagNV else 0 }

/-- The canonical NaN of an invalid operation. -/
def invalid (t : Ty) : Res := { val := t.nan, flags := flagNV }

/-- An infinity. -/
def infRes (t : Ty) (neg : Bool) : Res := { val := signBit t neg + t.inf, flags := 0 }

/-- A zero. -/
def zeroRes (t : Ty) (neg : Bool) : Res := { val := signBit t neg, flags := 0 }

/-- A finite number as a signed integer times 2^e. -/
def signed (neg : Bool) (m : Nat) : Int := if neg then -(m : Int) else (m : Int)

/-- The exact sum of two finite numbers, rounded once. An exact zero sum of unlike operands is −0 toward −∞ and +0
otherwise. -/
def addFin (t : Ty) (r : Rounding) (fz : Bool) (n1 : Bool) (m1 : Nat) (e1 : Int) (n2 : Bool) (m2 : Nat) (e2 : Int) : Res :=
  let e := min e1 e2
  let x := signed n1 m1 * (2 ^ (e1 - e).toNat : Nat) + signed n2 m2 * (2 ^ (e2 - e).toNat : Nat)
  if x = 0 then
    zeroRes t (if m1 = 0 ∧ m2 = 0 ∧ n1 = n2 then n1 else decide (r = .down))
  else roundFloat t r fz (decide (x < 0)) x.natAbs e

/-- a + b. -/
def addNum (t : Ty) (r : Rounding) (fz : Bool) (a b : Num) : Res :=
  match propagate t [a, b] with
  | some x => x
  | none =>
    match a, b with
    | .inf s, .inf s' => if s = s' then infRes t s else invalid t
    | .inf s, _ => infRes t s
    | _, .inf s => infRes t s
    | .fin n1 m1 e1, .fin n2 m2 e2 => addFin t r fz n1 m1 e1 n2 m2 e2
    | _, _ => invalid t

/-- −x. -/
def negNum : Num → Num
  | .nan s pl g => .nan s pl g
  | .inf s => .inf (!s)
  | .fin s m e => .fin (!s) m e

/-- a − b. NaN operands propagate as they are. -/
def subNum (t : Ty) (r : Rounding) (fz : Bool) (a b : Num) : Res := addNum t r fz a (negNum b)

/-- a × b. -/
def mulNum (t : Ty) (r : Rounding) (fz : Bool) (a b : Num) : Res :=
  match propagate t [a, b] with
  | some x => x
  | none =>
    match a, b with
    | .inf s, .inf s' => infRes t (s != s')
    | .inf s, .fin s' m _ => if m = 0 then invalid t else infRes t (s != s')
    | .fin s m _, .inf s' => if m = 0 then invalid t else infRes t (s != s')
    | .fin s m e, .fin s' m' e' => roundFloat t r fz (s != s') (m * m') (e + e')
    | _, _ => invalid t

/-- The sign of a number. -/
def Num.neg : Num → Bool
  | .nan g _ _ => g
  | .inf g => g
  | .fin g _ _ => g

/-- 0 × ∞ or ∞ × 0. -/
def zeroTimesInf (a b : Num) : Bool :=
  match a, b with
  | .fin _ 0 _, .inf _ => true
  | .inf _, .fin _ 0 _ => true
  | _, _ => false

/-- a × b + c, rounded once (R154). A product 0 × ∞ sets NV whatever c holds; the NaN order is a, b, c (R219). -/
def fmaNum (t : Ty) (r : Rounding) (fz : Bool) (a b c : Num) : Res :=
  match propagate t [a, b, c] with
  | some x => if zeroTimesInf a b then { x with flags := x.flags ||| flagNV } else x
  | none =>
    if zeroTimesInf a b then invalid t else
    match a, b with
    | .fin s m e, .fin s' m' e' =>
      match c with
      | .inf g => infRes t g
      | .fin g mc ec => addFin t r fz (s != s') (m * m') (e + e') g mc ec
      | .nan _ _ _ => invalid t
    | _, _ =>
      match c with
      | .inf g => if g = (a.neg != b.neg) then infRes t g else invalid t
      | _ => infRes t (a.neg != b.neg)

/-- The exact comparison of two numbers that are not NaN, −1, 0 or 1; the zeros are equal. -/
def cmpNum (a b : Num) : Int :=
  match a, b with
  | .inf s, .inf s' => if s = s' then 0 else if s then -1 else 1
  | .inf s, _ => if s then -1 else 1
  | _, .inf s => if s then 1 else -1
  | .fin n1 m1 e1, .fin n2 m2 e2 =>
    let e := min e1 e2
    let x := signed n1 m1 * (2 ^ (e1 - e).toNat : Nat)
    let y := signed n2 m2 * (2 ^ (e2 - e).toNat : Nat)
    if x < y then -1 else if x = y then 0 else 1
  | _, _ => 0

def Num.isNan : Num → Bool
  | .nan _ _ _ => true
  | _ => false

/-- A code read under FZ and written back unchanged in value. -/
def requiet (t : Ty) (fz : Bool) (x : Nat) : Nat :=
  match readFloat t fz x with
  | .nan s pl _ => encodeNan t s pl
  | .inf s => signBit t s + t.inf
  | .fin s m _ => if m = 0 then signBit t s else x % 2 ^ t.width

/-- minimumNumber or maximumNumber (R156): a number wins over a NaN, −0 lies below +0. -/
def minmaxFloat (t : Ty) (fz : Bool) (wantMax : Bool) (x y : Nat) : Res :=
  let a := readFloat t fz x
  let b := readFloat t fz y
  let fl := if signals [a, b] then flagNV else 0
  let sx := x.testBit (t.width - 1)
  match a.isNan, b.isNan with
  | true, true => { val := requiet t fz x, flags := fl }
  | true, false => { val := requiet t fz y, flags := fl }
  | false, true => { val := requiet t fz x, flags := fl }
  | false, false =>
    let c := cmpNum a b
    let first := if c = 0 then (sx != wantMax) else decide (c < 0) != wantMax
    { val := requiet t fz (if first then x else y), flags := fl }

/-! ### The total order (R158) -/

/-- ord(x) of a float code. -/
def ordKey (t : Ty) (x : Nat) : Nat :=
  let x := x % 2 ^ t.width
  if (decodeFloat t x).isNan then 2 ^ t.width - 1
  else if x.testBit (t.width - 1) then 2 ^ t.width - 1 - x
  else x + 2 ^ (t.width - 1)

/-- An order key of any type as an integer: ord for floats, the value for integers. -/
def orderOf (t : Ty) (x : Nat) : Int := if t.isFloat then (ordKey t x : Int) else t.intVal x

/-- A NaN with its quiet bit set; any other code unchanged (R158). -/
def quiet (t : Ty) (x : Nat) : Nat :=
  match decodeFloat t x with
  | .nan s pl _ => encodeNan t s pl
  | _ => x % 2 ^ t.width

/-! ### Narrow float formats (R159 to R161) -/

/-- A finite-only float of e exponent and m fraction bits. -/
structure Narrow where
  ebits : Nat
  frac : Nat
  deriving DecidableEq, Repr

def Narrow.e4m3 : Narrow := { ebits := 4, frac := 3 }
def Narrow.e5m2 : Narrow := { ebits := 5, frac := 2 }
def Narrow.e3m2 : Narrow := { ebits := 3, frac := 2 }
def Narrow.e2m3 : Narrow := { ebits := 2, frac := 3 }
def Narrow.e2m1 : Narrow := { ebits := 2, frac := 1 }

def Narrow.width (t : Narrow) : Nat := 1 + t.ebits + t.frac
def Narrow.bias (t : Narrow) : Nat := 2 ^ (t.ebits - 1) - 1

/-- The value of a code (R160). -/
def decodeNarrow (t : Narrow) (x : Nat) : Num :=
  let neg := x.testBit (t.width - 1)
  let ex := bits x t.frac t.ebits
  let f := x % 2 ^ t.frac
  if ex = 0 then .fin neg f (1 - (t.bias : Int) - (t.frac : Int))
  else .fin neg (f + 2 ^ t.frac) ((ex : Int) - (t.bias : Int) - (t.frac : Int))

/-! ### Narrowing under MODE.CV (R168 to R171) -/

/-- srbits (R170). -/
def srbits (c g l j : Nat) : Nat :=
  let z : BitVec 64 := BitVec.ofNat 64 c * 0x9E3779B97F4A7C15#64 + BitVec.ofNat 64 g * 0xBF58476D1CE4E5B9#64
    + BitVec.ofNat 64 l * 0x94D049BB133111EB#64 + BitVec.ofNat 64 j
  let z := (z ^^^ (z >>> 30)) * 0xBF58476D1CE4E5B9#64
  let z := (z ^^^ (z >>> 27)) * 0x94D049BB133111EB#64
  let z := z ^^^ (z >>> 31)
  z.toNat / 2 ^ 48

/-- The rounding of a code of MODE.CV with the draw r. -/
def rndOf (c r : Nat) : Rounding :=
  match c % 4 with
  | 0 => .nearest
  | 1 => .zero
  | 2 => .stochastic r
  | _ => .away

/-- A destination class of R168. -/
inductive Class where
  | float (t : Ty)
  | narrow (t : Narrow)
  | int (t : Ty)
  deriving DecidableEq, Repr

/-- Narrows an exact number to f32, f16 or bf16 (R171). -/
def narrowFloat (t : Ty) (r : Rounding) (sat fz : Bool) (x : Num) : Res :=
  match x with
  | .nan s pl g => { val := encodeNan t s pl, flags := if g then flagNV else 0 }
  | .inf s => { val := signBit t s + (if sat then t.maxFinite else t.inf), flags := 0 }
  | .fin s m e =>
    let y := roundFloat t r fz s m e
    if y.flags &&& flagOF != 0 then
      if sat then { val := signBit t s + t.maxFinite, flags := flagNX } else y
    else y

/-- Narrows an exact number to a finite-only format (R171). A magnitude below half the smallest subnormal is a zero of its own sign,
whatever RND (log entry 84). -/
def narrowFinite (t : Narrow) (r : Rounding) (sat : Bool) (x : Num) : Res :=
  let top := 2 ^ (t.ebits + t.frac) - 1
  let sign (s : Bool) := bit s * 2 ^ (t.width - 1)
  match x with
  | .nan _ _ _ => { val := 0, flags := flagNV }
  | .inf s => { val := sign s + top, flags := if sat then 0 else flagCL }
  | .fin s m e =>
    if m = 0 then { val := sign s, flags := 0 } else
    let qmin : Int := 1 - (t.bias : Int) - (t.frac : Int)
    let small := decide (e + (bitLength m : Int) ≤ qmin - 1)
    let (n, q, inexact) := roundMag (if small then .zero else r) (t.frac + 1) qmin s m e
    let emax : Int := (2 ^ t.ebits : Nat) - 1 - (t.bias : Int)
    if emax < q + (t.frac : Int) ∧ 2 ^ t.frac ≤ n then
      { val := sign s + top, flags := if sat then 0 else flagCL }
    else
      let (n1, q1, _) := roundMag r (t.frac + 1) (e - (t.frac : Int) - 2) s m e
      let tiny := decide ((bitLength n1 : Int) + q1 ≤ 1 - (t.bias : Int))
      let fl := if inexact then (if tiny then flagUF ||| flagNX else flagNX) else 0
      if n < 2 ^ t.frac then { val := sign s + n, flags := fl }
      else { val := sign s + (q + (t.frac : Int) + (t.bias : Int)).toNat * 2 ^ t.frac + (n - 2 ^ t.frac), flags := fl }

/-- The bounds of an integer type. -/
def Ty.least (t : Ty) : Int := if t.kind = .int then -((2 ^ (t.width - 1) : Nat) : Int) else 0
def Ty.greatest (t : Ty) : Int :=
  if t.kind = .int then ((2 ^ (t.width - 1) : Nat) : Int) - 1 else ((2 ^ t.width : Nat) : Int) - 1

/-- An exact integer into an integer type: wrapped with OF, or clamped (R171). -/
def narrowInt (t : Ty) (sat : Bool) (x : Int) : Res :=
  if t.least ≤ x ∧ x ≤ t.greatest then { val := wrapNat x t.width, flags := 0 }
  else if sat then { val := wrapNat (if x < t.least then t.least else t.greatest) t.width, flags := 0 }
  else { val := wrapNat x t.width, flags := flagOF }

/-- A float into an integer type (R169, R171). -/
def narrowToInt (t : Ty) (r : Rounding) (sat : Bool) (x : Num) : Res :=
  match x with
  | .nan _ _ _ => { val := 0, flags := flagNV }
  | .inf s =>
    if sat then { val := wrapNat (if s then t.least else t.greatest) t.width, flags := 0 }
    else { val := 0, flags := flagNV }
  | .fin s m e =>
    let (n, inexact) := roundAt r s m e 0
    let y := narrowInt t sat (signed s n)
    if inexact then { y with flags := y.flags ||| flagNX } else y

/-- narrow(x, c) of R184 for a number that is no integer code: `cv` is the 3-bit control, `d` the draw. FZ applies where
the destination is an IEEE type (R155). -/
def narrowNum (c : Class) (cv d : Nat) (fz : Bool) (x : Num) : Res :=
  let r := rndOf cv d
  let sat := decide (4 ≤ cv % 8)
  match c with
  | .float t => narrowFloat t r sat fz x
  | .narrow t => narrowFinite t r sat x
  | .int t => narrowToInt t r sat x

end Sys2Proof.Machine
end

