-- ==== Sys2Proof/Machine/Time.lean ====
section
/-! DEFINITION. Logical time (spec/03_logical_time.md R53 to R63, R409): keys, views, bounds and floors, and the lookups
of launches, partitions and gangs they need. -/

namespace Sys2Proof.Machine

/-! ### Keys (R53) -/

/-- The order of keys: clock, then gang index, then lane. -/
def keyLt (a b : Key) : Bool :=
  decide (a.clock < b.clock) ||
    (decide (a.clock = b.clock) &&
      (decide (a.gang < b.gang) || (decide (a.gang = b.gang) && decide (a.lane < b.lane))))

/-- a ≤ b. -/
def keyLe (a b : Key) : Bool := !keyLt b a

/-- The greater of two keys. -/
def keyMax (a b : Key) : Key := if keyLt a b then b else a

/-- The lesser of two keys. -/
def keyMin (a b : Key) : Key := if keyLt b a then b else a

/-- key3(c, g, l). -/
def key3 (c g l : Nat) : Key := { clock := c, gang := g, lane := l }

/-- A bound above every key: the split presents none. -/
def keyInf : Key := key3 (2 ^ 64 + 1) 0 0

/-- What a split reports that waits at its arrival j at a barrier across the members of a domain-scope launch: above every key,
until that barrier completes (log entry 10). -/
def keyHold (j : Nat) : Key := key3 (2 ^ 64) j 0

/-- A key that stands only until a barrier across members completes. -/
def isHold (k : Key) : Bool := k.clock == 2 ^ 64

/-- The least key. -/
def keyZero : Key := key3 0 0 0

/-- next(k); next(none) is key3(0, 0, 0). -/
def nextKey : Option Key → Key
  | none => keyZero
  | some k =>
    if k.lane < 255 then { k with lane := k.lane + 1 }
    else if k.gang < 2 ^ 56 - 1 then key3 k.clock (k.gang + 1) 0
    else key3 (k.clock + 1) 0 0

/-- The greater of two last-turn keys; none stands below every key. -/
def optKeyMax : Option Key → Option Key → Option Key
  | none, b => b
  | a, none => a
  | some a, some b => some (keyMax a b)

/-- The greater of a key and a last-turn key. -/
def keyMaxOpt (a : Key) : Option Key → Key
  | none => a
  | some b => keyMax a b

/-! ### Lookups -/

/-- A launch that the device does not know, as the neutral element of the lookups. -/
def Launch.vacant : Launch where
  id := 0
  part := 0
  asid := 0
  tcb := 0
  phase := .retired
  nsucc := 0
  succp := 0
  entryVA := 0
  wpc := 1
  cg := false
  nunit := 1
  obs := false
  oph := 0
  lag := 1
  qexp := 12
  dscope := 0
  conc := 1
  ngang := 1
  width := 8
  tiles := []
  scratch := 0
  argp := 0
  ctxLog := 1024
  prio := 0
  comp := 0
  dgrp := 0
  gid := 0
  desc := []
  members := []
  mrank := 0
  mcount := 1
  early := false
  fu := false
  fline := 0
  floor := keyZero
  memberFloors := []
  sentFloor := keyZero
  crossed := 0
  units := []
  pool := []
  period := 0
  periodDue := false
  resper := 0
  ended := none
  stallNoted := none
  discards := []

/-- A partition with the reset values of its registers (R322, R345), its trap block and its maps cleared. -/
def Partition.vacant : Partition where
  id := 0
  port := 0
  clmask := 0
  memmap := 0
  rsec := 1
  l2p := false
  node := 0
  domain := 0xFFFF
  drank := 0
  members := []
  ctxmb := 0
  spillmb := 0
  hdmgb := 0
  record := []
  mesh := false
  trunks := []
  noDdom := []
  resper := 0x3E8
  stepb := 0x400
  rtime := 0x32
  starve := 8
  esel := []
  evc := []
  evcFrom := []
  tvec := 0
  fqbase := 0
  fqlog := 0
  fqhead := 0
  fqtail := 0
  fqlost := 0
  dead := []
  aperture := []
  intake := []

/-- The launch numbered n. -/
def launchOf (s : State) (n : Nat) : Launch :=
  (findFirst (fun l => l.id == n) s.launches).getD Launch.vacant

/-- The partition numbered n. -/
def partOf (s : State) (n : Nat) : Partition :=
  (findFirst (fun q => q.id == n) s.parts).getD Partition.vacant

/-- Whether partition n exists. -/
def hasPart (s : State) (n : Nat) : Bool := s.parts.any fun q => q.id == n

/-- Updates the launch numbered n. -/
def mapLaunch (n : Nat) (f : Launch → Launch) (s : State) : State :=
  { s with launches := updateWhere (fun l => l.id == n) f s.launches }

/-- Updates the partition numbered n. -/
def mapPart (n : Nat) (f : Partition → Partition) (s : State) : State :=
  { s with parts := updateWhere (fun q => q.id == n) f s.parts }

/-- The launch of the split at issue. -/
def curLaunch (s : State) : Launch := launchOf s s.g.launch

/-- The partition of the split at issue. -/
def curPart (s : State) : Partition := partOf s s.g.part

/-- A deterministic launch (R55). -/
def Launch.det (l : Launch) : Bool := l.dscope != 0

/-- The quantum Q (R55). -/
def Launch.quantum (l : Launch) : Nat := 2 ^ l.qexp

/-- The split at issue runs its handler (R333). -/
def isPriv (s : State) : Bool := s.p.status.getLsbD 0

/-- Accesses of the split at issue follow the deterministic rules: a deterministic launch outside a handler (R337). -/
def detNow (s : State) : Bool := (curLaunch s).det && !isPriv s

/-- GANGID (R27). -/
def gangidOf (g : Gang) : Nat := g.wg * g.ngang + g.num

/-- The logical gang index (R54). -/
def gangIndex (l : Launch) (g : Gang) : Nat :=
  if l.dscope = 2 then l.mrank * g.nwg * g.ngang + gangidOf g else gangidOf g

/-- The key of a split of a gang (R53). -/
def keyOf (l : Launch) (g : Gang) (p : Split) : Key := key3 p.clock.toNat (gangIndex l g) (lowest p.members)

/-- The key of the split at issue. -/
def curKey (s : State) : Key := keyOf (curLaunch s) s.g s.p

/-- QIDX: ⌊clock / Q⌋ (R79). -/
def quantumIndex (l : Launch) (clock : Nat) : Nat := clock / l.quantum

/-- The view of a split (R62). -/
def viewOf (l : Launch) (p : Split) : Key :=
  keyMaxOpt (key3 ((quantumIndex l p.clock.toNat - l.lag) * l.quantum) 0 0) p.lastTurn

/-- The view of the split at issue. -/
def curView (s : State) : Key := viewOf (curLaunch s) s.p

/-! ### Lineage (R65) -/

/-- Two lane masks share a lane. -/
def meets (a b : BitVec 64) : Bool := a &&& b != 0

/-- Entries of a Cuff buffer that belong to the lineage of a split with the given members. -/
def lineage (members : BitVec 64) (c : List CuffEntry) : List CuffEntry := c.filter fun e => meets e.lanes members

/-! ### Splits of a gang -/

/-- Every split of a gang other than the one at issue: those that run and the parked paths. -/
def Gang.allSplits (g : Gang) : List Split := g.splits ++ (g.parked.map fun e => e.2).flatten

/-- Every live gang with all its splits, the one at issue first. -/
def allGangs (s : State) : List (Gang × List Split) :=
  (s.g, (if s.p.members = 0 then [] else [s.p]) ++ s.g.allSplits) :: s.gangs.map fun g => (g, g.allSplits)

/-! ### Who takes part in a barrier (R251) -/

/-- The gangs of the device that take part in a barrier. -/
def takesPart (b : BarrierRef) (g : Gang) : Bool :=
  g.launch == b.launch && decide (g.id ≠ 0) && !g.ended &&
    match b.kind with
    | .wg => g.unit == b.unit && g.wg == b.wg
    | .cluster => g.unit == b.unit
    | .launch => true

/-- Every live split that takes part, with its gang. -/
def participants (s : State) (b : BarrierRef) : List (Gang × Split) :=
  ((allGangs s).filter fun e => takesPart b e.1).flatMap fun e => (e.2.filter fun q => decide (q.members ≠ 0)).map fun q => (e.1, q)

/-- The number of the arrival at which a split waits at a barrier of a kind. -/
def arrivedAt (k : BarrierKind) (q : Split) : Option Nat :=
  match q.wait with
  | .barrier k' j => if k' = k then some j else none
  | _ => none

/-- The barrier that a split waits at. -/
def barrierOf (g : Gang) (k : BarrierKind) : BarrierRef := { launch := g.launch, unit := g.unit, wg := g.wg, kind := k }

/-- Gangs of other members take part in a barrier of this kind of a launch (R251). -/
def acrossMembers (l : Launch) (k : BarrierKind) : Bool := decide (k = .launch ∧ l.dscope = 2 ∧ 1 < l.mcount)

/-- What a split that waits at a barrier reports while another participant has still to arrive: at a barrier of the device, no
bound; at one across members, none until it completes (log entry 10). -/
def barrierKey (s : State) (g : Gang) (p : Split) : Option Key :=
  match p.wait with
  | .barrier k j =>
    if acrossMembers (launchOf s g.launch) k then some (keyHold j)
    else if (participants s (barrierOf g k)).any fun e => decide (arrivedAt k e.2 ≠ some j) then some keyInf
    else none
  | _ => none

/-! ### Bounds and floors (R57 to R59, R409) -/

/-- bound(s) (R57). A split without members has halted. -/
def boundOf (l : Launch) (p : Split) : Key :=
  if p.members = 0 then keyInf else
  match p.wait with
  | .turn k _ => k
  | .gated k _ _ => k
  | .tile (some k) _ _ _ => k
  | _ => keyMax (key3 (quantumIndex l p.clock.toNat * l.quantum) 0 0) (keyMax (nextKey p.lastTurn) (nextKey p.lastCmd))

/-- The bound that a split of a gang reports. While a participant has still to arrive at its barrier, it leaves that barrier
after an arrival that the participant's own bound covers, and reports none (R51, R252; log entry 10). -/
def boundIn (s : State) (l : Launch) (g : Gang) (p : Split) : Key := (barrierKey s g p).getD (boundOf l p)

/-- The least of a list of keys; +∞ of none. -/
def leastKey : List Key → Key
  | [] => keyInf
  | k :: r => keyMin k (leastKey r)

/-- A command holds its issue key while it waits in a table, and its write key until its writes are in Brim (R58, R409). -/
def cmdKeys (c : Cmd) : List Key :=
  match c.phase with
  | .table => [c.issueKey]
  | .matrix => [c.issueKey, c.writeKey]
  | .queued => [c.writeKey]
  | .finished => []

/-- The key of a turn whose access has not performed, a refused one included (R366). -/
def reqKeys (s : State) (l : Launch) (q : Gang → Bool) : List Key :=
  ((s.reqs.filter fun r => r.launch == l.id && r.view.isNone && !(match r.phase with
      | .done _ => true
      | _ => false)
      && (allGangs s).any fun e => e.1.id == r.gang && q e.1).filterMap fun r => r.key)
    ++ ((s.remotes.filter fun r => r.launch == l.id
      && (allGangs s).any fun e => e.1.id == r.gang && q e.1).filterMap fun r => r.key)

/-- The keys held in a launch's group under R57 and R58 by the gangs that `q` selects: bounds of splits, keys of engine
operations, of publications and of updates on their way or in the retry queue. -/
def keysHeld (s : State) (l : Launch) (q : Gang → Bool) (u : Cmd → Bool) : List Key :=
  ((allGangs s).filter fun e => e.1.launch == l.id && q e.1).flatMap (fun e => e.2.map (boundIn s l e.1))
    ++ (s.cmds.filter fun c => c.launch == l.id && u c).flatMap cmdKeys
    ++ reqKeys s l q
    ++ (s.pubs.filter fun b => b.launch == l.id && (allGangs s).any fun e => e.1.id == b.gang && q e.1).map (fun b => b.key)
    ++ (s.updates.filter fun b => b.launch == l.id && (allGangs s).any fun e => e.1.id == b.gang && q e.1).map (fun b => b.key)
    ++ (s.retry.filter fun b => b.launch == l.id && (allGangs s).any fun e => e.1.id == b.gang && q e.1).map (fun b => b.key)

/-- No split of a unit is left. -/
def unitHalted (s : State) (l : Launch) (u : UnitState) : Bool :=
  !((allGangs s).any fun e => e.1.launch == l.id && e.1.unit == u.idx && e.2.any fun q => decide (q.members ≠ 0))

/-- A live unit that has no gang on the device yet bounds the floor by its starting clock; a unit whose splits have all halted
covers the unit that begins with its final clock when it retires (R37, R57). -/
def unitKeys (s : State) (l : Launch) : List Key :=
  l.units.flatMap fun u =>
    if u.phase = .live then [key3 (quantumIndex l u.clock.toNat * l.quantum) 0 0]
    else if u.idx + l.conc < l.nunit ∧ unitHalted s l u then [key3 (quantumIndex l u.final.toNat * l.quantum) 0 0]
    else []

/-- Keys of a launch that stand for no gang: publications and updates whose gang has left. -/
def orphanKeys (s : State) (l : Launch) : List Key :=
  (s.pubs.filter fun b => b.launch == l.id).map (fun b => b.key)
    ++ (s.updates.filter fun b => b.launch == l.id).map (fun b => b.key)
    ++ (s.retry.filter fun b => b.launch == l.id).map (fun b => b.key)

/-- The least of the keys that the device itself holds in a group: the floor that its root sends to the other members (R59,
R137). -/
def ownFloor (s : State) (l : Launch) : Key :=
  leastKey (keysHeld s l (fun _ => true) (fun _ => true) ++ unitKeys s l ++ orphanKeys s l)

/-- The floor F of a determinism group as its bounds and the members' floors stand (R59). -/
def floorNow (s : State) (l : Launch) : Key :=
  leastKey (ownFloor s l :: if l.dscope = 2 then
      ((countFrom 0 l.mcount).filter fun m => m != l.mrank).map fun m => mapGet keyZero l.memberFloors m
    else [])

/-- The floor after its next update: it never decreases, and a key that stands only until a barrier completes does not raise it
(R59, log entry 10). -/
def floorNext (s : State) (l : Launch) : Key :=
  let k := floorNow s l
  if isHold k then l.floor else keyMax l.floor k

/-- The floor of a workgroup (R61, R110, R409). -/
def wgFloor (s : State) (l : Launch) (wg : Nat) : Key :=
  leastKey (keysHeld s l (fun g => g.wg == wg) (fun c => c.wg == wg))

/-- What a split bounds the tile transitions of its workgroup by. One that waits for a tile that has not changed since does not: it
waits for the next of them in key order, whatever key that has (R110; log entry 88). -/
def tileBound (s : State) (l : Launch) (g : Gang) (p : Split) : Key :=
  match p.wait with
  | .tile (some _) _ _ false => keyInf
  | _ => boundIn s l g p

/-- The least bound of the splits of a workgroup, against which its tile transitions are admitted (R61), and the keys of its turns whose
accesses have not performed (R366). -/
def splitFloor (s : State) (l : Launch) (wg : Nat) : Key :=
  leastKey ((((allGangs s).filter fun e => e.1.launch == l.id && e.1.wg == wg).flatMap fun e => e.2.map (tileBound s l e.1))
    ++ reqKeys s l fun g => g.wg == wg)

/-- The floor of a cluster group: the gangs and commands of one unit (R409). -/
def unitFloor (s : State) (l : Launch) (unit : Nat) : Key :=
  leastKey (keysHeld s l (fun g => g.unit == unit) (fun c => c.unit == unit))

/-- The merge boundary VF (R69). -/
def mergeBoundary (l : Launch) : Key :=
  key3 ((quantumIndex l l.floor.clock - l.lag) * l.quantum) 0 0

/-! ### Finding splits -/

/-- Updates the gang with a given number, which may be the one at issue. -/
def mapGang (n : Nat) (f : Gang → Gang) (s : State) : State :=
  if s.g.id = n then { s with g := f s.g } else { s with gangs := updateWhere (fun g => g.id == n) f s.gangs }

/-- The gang with a given number. -/
def gangOf (s : State) (n : Nat) : Option Gang :=
  if s.g.id = n then some s.g else findFirst (fun g => g.id == n) s.gangs

/-- Puts the split at issue back among the splits of its gang and its gang among the gangs: nothing is at issue. -/
def unload (s : State) : State :=
  let g := if s.p.members = 0 then s.g else { s.g with splits := s.g.splits ++ [s.p] }
  { s with
    p := Split.vacant
    g := Gang.vacant
    gangs := if s.g.id = 0 then s.gangs else s.gangs ++ [g] }

/-- Takes the split with lowest lane `l` of gang `n` to the issue slot; the device is unchanged if there is none. -/
def load (n l : Nat) (s : State) : State :=
  match findFirst (fun g => g.id == n) s.gangs with
  | none => s
  | some g =>
    match findFirst (fun p => lowest p.members == l) g.splits with
    | none => s
    | some p =>
      { s with
        p := p
        g := { g with splits := dropFirst (fun q => lowest q.members == l) g.splits }
        gangs := dropFirst (fun h => h.id == n) s.gangs }

/-- Runs `f` with the split (n, l) at issue, and then puts back what was at issue before. -/
def withSplit (n l : Nat) (f : State → State) (s : State) : State :=
  if s.g.id = n ∧ lowest s.p.members = l then f s
  else
    let n0 := s.g.id
    let l0 := lowest s.p.members
    let s1 := unload s
    let s2 := load n l s1
    if s2.g.id = n then load n0 l0 (unload (f s2)) else s

end Sys2Proof.Machine
end

