-- ==== Sys2Proof/Machine/Memory.lean ====
section
/-! DEFINITION. Device memory, home selection and translation at the home controller (spec/05_memory_hierarchy.md R115 to
R121; spec/19_faults_execution_memory.md R364): the bytes of HBM by physical address, the walk, the checks of an HC. -/

namespace Sys2Proof.Machine

/-! ### Bytes of HBM (R118) -/

/-- The byte at a physical address: 0 where nothing has been written (log entry 3). -/
def memByte (m : List Host.Cell) (pa : Nat) : Byte := mapGet 0 m pa

/-- The n bytes from a physical address. -/
def memBytes (m : List Host.Cell) (pa n : Nat) : List Byte := (countFrom pa n).map (memByte m)

/-- Writes bytes from a physical address. -/
def memWrite (m : List Host.Cell) (pa : Nat) : List Byte → List Host.Cell
  | [] => m
  | b :: r => memWrite (mapSet 0 m pa b) (pa + 1) r

/-- The memory without any byte in [lo, hi): those bytes read 0. -/
def memZero (m : List Host.Cell) (lo hi : Nat) : List Host.Cell :=
  m.filter fun e => decide (e.1 < lo ∨ hi ≤ e.1)

/-- The 64-bit little-endian word at a physical address. -/
def memWord (m : List Host.Cell) (pa : Nat) : Nat := leNat (memBytes m pa 8)

/-- The canonical form of memory. -/
def Memory.wf (m : List Host.Cell) : Bool := mapWf (0 : Byte) m

/-! ### Home selection (R117, R118) -/

/-- hc(x): VA offset bits [52:16] folded into five bits. -/
def homeHc (off : Nat) : Nat :=
  (BitVec.ofNat 5 (bits off 16 5) ^^^ BitVec.ofNat 5 (bits off 21 5) ^^^ BitVec.ofNat 5 (bits off 26 5)
    ^^^ BitVec.ofNat 5 (bits off 31 5) ^^^ BitVec.ofNat 5 (bits off 36 5) ^^^ BitVec.ofNat 5 (bits off 41 5)
    ^^^ BitVec.ofNat 5 (bits off 46 5) ^^^ BitVec.ofNat 5 (bits off 51 2)).toNat

/-- The HC whose share holds a physical address. -/
def shareOf (pa : Nat) : Nat := bits pa 34 5

/-- An HC in service: not taken out with its stack, its die or by itself (R22; log entry 50). -/
def hcServes (s : State) (h : Nat) : Bool :=
  !s.hcOut.getLsbD h && !s.hbmOut.getLsbD (h / 4) && !(s.bridgeOut && decide (16 ≤ h))

/-- A slice of the L2 in service (R22). -/
def sliceServes (s : State) (n : Nat) : Bool :=
  !s.sliceOut.getLsbD n && !(s.bridgeOut && decide (192 ≤ n))

/-- A physical address whose share offset is populated. -/
def populated (pa : Nat) : Bool := decide (pa % 2 ^ 34 < Config.shareBytes)

/-! ### Entries (R120) -/

def Pte.v (e : Nat) : Bool := e.testBit 63
def Pte.leaf (e : Nat) : Bool := e.testBit 62
def Pte.coh (e : Nat) : BitVec 2 := BitVec.ofNat 2 (bits e 60 2)
def Pte.pin (e : Nat) : Bool := e.testBit 59
def Pte.task (e : Nat) : Bool := e.testBit 58
def Pte.held (e : Nat) : Bool := e.testBit 57
def Pte.lock (e : Nat) : Bool := e.testBit 56
def Pte.dead (e : Nat) : Bool := e.testBit 55
def Pte.rd (e : Nat) : Bool := e.testBit 54
def Pte.wr (e : Nat) : Bool := e.testBit 53
def Pte.exe (e : Nat) : Bool := e.testBit 52
def Pte.cow (e : Nat) : Bool := e.testBit 51
/-- PA of the table or frame. -/
def Pte.addr (e : Nat) : Nat := bits e 8 31 * 256
/-- Every reserved field is 0. -/
def Pte.reservedClear (e : Nat) : Bool := bits e 39 12 == 0 && bits e 0 8 == 0

/-- An entry with bit n given a value. -/
def Pte.setBit (e n : Nat) (b : Bool) : Nat := e - bit (e.testBit n) * 2 ^ n + bit b * 2 ^ n

/-- A frame record that names no partition. -/
def noFrame : Nat × Nat × Nat := (8, 0, 0)

/-- The value of a root register that points to no table. -/
def noRoot : Nat := 2 ^ 39

/-! ### The walk (R119) -/

/-- A valid leaf: where the entry lies, its value, the size of its page in bits, and the PA of the address walked. -/
structure Leaf where
  entryPa : Nat
  entry : Nat
  pageBits : Nat
  pa : Nat
  deriving DecidableEq, Repr

/-- The leaf that entry `e` at `pa` makes for offset `off` in a page of 2^n bytes, if it is valid (R120); a frame address that is no
multiple of the page size makes none (log entry 82). -/
def leafOf (pa e n off : Nat) : Option Leaf :=
  let frame := Pte.addr e + off % 2 ^ n
  if (Pte.wr e && Pte.exe e) || !Pte.reservedClear e || Pte.addr e % 2 ^ n != 0 || !populated frame then none
  else some { entryPa := pa, entry := e, pageBits := n, pa := frame }

/-- A table pointer of HC `hc` that is valid (R120). -/
def pointerOk (hc e : Nat) : Bool := !Pte.leaf e && Pte.reservedClear e && shareOf (Pte.addr e) == hc

/-- The levels below the first: bits [38:30], [29:21] and [20:16] of the offset. -/
def walkFrom (m : List Host.Cell) (hc off : Nat) : List (Nat × Nat) → Nat → Option Leaf
  | [], _ => none
  | (lo, len) :: r, table =>
    let pa := table + 8 * bits off lo len
    let e := memWord m pa
    if !Pte.v e then none
    else if Pte.leaf e then leafOf pa e lo off
    else if r.isEmpty then none
    else if pointerOk hc e then walkFrom m hc off r (Pte.addr e)
    else none

/-- The address-space number under which an offset is translated and its lines are tagged (R113, R119). -/
def tagAsid (asid off : Nat) : Nat := if regionOf off = 2 then 4095 else asid

/-! ### The pool that CREATE maps and pins (R321, R374, R398; log entry 8) -/

/-- Bytes of the context pool and the spill area of a partition. -/
def poolBytes (q : Partition) : Nat := 2 ^ 20 * (q.ctxmb + q.spillmb)

/-- The first offset of the pool: 64 KiB aligned, in the global region. -/
def poolBase (part : Nat) : Nat := 2 ^ 52 + (Config.poolVA part).toNat % 2 ^ 50 / 65536 * 65536

/-- The position in the pool of an offset that lies in it. -/
def poolIndex (s : State) (part off : Nat) : Option Nat :=
  let n := poolBytes (partOf s part)
  if n = 0 ∨ regionOf off ≠ 2 then none
  else if poolBase part ≤ off ∧ off < poolBase part + n then some (off - poolBase part)
  else none

/-- The 1 GiB units of a partition, rising: unit u of HC h is number 12 × h + u. -/
def unitsOf (q : Partition) : List Nat := (countFrom 0 384).filter fun n => q.memmap.getLsbD n

/-- The physical address of a 1 GiB unit. -/
def unitBase (n : Nat) : Nat := n / 12 * 2 ^ 34 + n % 12 * 2 ^ 30

/-- The physical address at a position of the pool, which fills the units with the lowest numbers. -/
def poolPa (q : Partition) (b : Nat) : Nat := unitBase (getAt 0 (unitsOf q) (b / 2 ^ 30)) + b % 2 ^ 30

/-- The frame of a physical address carries an uncorrectable error. -/
def frameBad (s : State) (pa : Nat) : Bool := s.badLines.any fun b => b * 128 / 65536 == pa / 65536

/-- The leaf of a pool granule: valid, pinned, readable and writable; a memory error holds it. It lies in no table. -/
def poolLeaf (s : State) (part b : Nat) : Leaf :=
  let pa := poolPa (partOf s part) b
  { entryPa := 2 ^ 39
    entry := 2 ^ 63 + 2 ^ 62 + 2 ^ 59 + bit (frameBad s pa) * 2 ^ 57 + 2 ^ 54 + 2 ^ 53 + pa / 65536 * 65536
    pageBits := 16, pa := pa }

/-- A frame of the pool of a partition. -/
def inPool (q : Partition) (pa : Nat) : Bool :=
  (countFrom 0 ((poolBytes q + 2 ^ 30 - 1) / 2 ^ 30)).any fun i =>
    let u := unitBase (getAt 0 (unitsOf q) i)
    decide (i < (unitsOf q).length ∧ u ≤ pa ∧ pa < u + 2 ^ 30 ∧ i * 2 ^ 30 + (pa - u) < poolBytes q)

/-- The walk of a table at the home HC of an offset (R119, R120). -/
def tableWalk (s : State) (part asid off : Nat) : Option Leaf :=
  let hc := homeHc off
  let root := mapGet noRoot s.roots (hc * 8 + part)
  if root = noRoot then none else
  let e0 := memWord s.mem (root + 8 * tagAsid asid off)
  if !Pte.v e0 || !pointerOk hc e0 then none else
  let e1 := memWord s.mem (Pte.addr e0 + 8 * bits off 39 13)
  if !Pte.v e1 || !pointerOk hc e1 then none else
  walkFrom s.mem hc off [(30, 9), (21, 9), (16, 5)] (Pte.addr e1)

/-- The walk of partition `part` at the home HC of an offset; none is the translation cause. The pool that CREATE mapped and
pinned is always mapped. An HC out of service translates nothing and its share holds no memory (R22; log entry 50). -/
def walk (s : State) (part asid off : Nat) : Option Leaf :=
  match (match poolIndex s part off with
    | some b => some (poolLeaf s part b)
    | none => tableWalk s part asid off) with
  | none => none
  | some l => if hcServes s (homeHc off) && hcServes s (shareOf l.pa) then some l else none

/-- The physical addresses of the entries that the levels below the first read. -/
def pathFrom (m : List Host.Cell) (off : Nat) : List (Nat × Nat) → Nat → List Nat
  | [], _ => []
  | (lo, len) :: r, table =>
    let pa := table + 8 * bits off lo len
    let e := memWord m pa
    pa :: if Pte.v e && !Pte.leaf e then pathFrom m off r (Pte.addr e) else []

/-- The physical addresses of the entries that a walk reads. -/
def tablePath (s : State) (part asid off : Nat) : List Nat :=
  let root := mapGet noRoot s.roots (homeHc off * 8 + part)
  if root = noRoot ∨ (poolIndex s part off).isSome then [] else
  let p0 := root + 8 * tagAsid asid off
  let p1 := Pte.addr (memWord s.mem p0) + 8 * bits off 39 13
  p0 :: p1 :: pathFrom s.mem off [(30, 9), (21, 9), (16, 5)] (Pte.addr (memWord s.mem p1))

/-- The walk reads an entry with an uncorrectable error (R382). -/
def walkBad (s : State) (part asid off : Nat) : Bool :=
  !s.badEntries.isEmpty && (tablePath s part asid off).any fun pa => s.badEntries.contains pa

/-! ### What an HC refuses (R364) -/

/-- The outcome of the checks of an HC. -/
inductive HcAnswer where
  | ok (l : Leaf)
  | refuse (cause : BitVec 8)
  deriving DecidableEq, Repr

/-- The frame record of the frame that holds a physical address matches (R121). -/
def frameMatches (s : State) (part asid off pa : Nat) : Bool :=
  (poolIndex s part off).isSome || mapGet noFrame s.frames (pa / 65536) == (part, tagAsid asid off, off / 65536)

/-- The table of R364 for an access that reads (`r`), writes (`w`) or does both; `dis` is a discard. -/
def hcAnswer (s : State) (part asid off : Nat) (r w dis : Bool) : HcAnswer :=
  if walkBad s part asid off && !dis then .refuse 0x73 else
  match walk s part asid off with
  | none => .refuse 0x70
  | some l =>
    if Pte.held l.entry && !dis then .refuse 0x73
    else if !frameMatches s part asid off l.pa then .refuse 0x71
    else if (w && !Pte.wr l.entry) || (r && !Pte.rd l.entry) then .refuse 0x70
    else if w && Pte.cow l.entry then .refuse 0x72
    else .ok l

/-- The table for a write or a read alone. -/
def hcCheck (s : State) (part asid off : Nat) (w dis : Bool) : HcAnswer := hcAnswer s part asid off (!w) w dis

/-! ### Held granules (R368) -/

/-- The address space under which a queue keeps an entry: the host aperture has one map for the whole partition (R150). -/
def lateTag (asid off : Nat) : Nat := if regionOf off = 3 then 0 else tagAsid asid off

/-- The late-fault entries of one granule, in queue order. -/
def lateOf (s : State) (part asid off : Nat) : List LateEntry :=
  s.late.filter fun e => e.part == part && lateTag e.asid (offsetOf e.va) == lateTag asid off
    && offsetOf e.va / 65536 == off / 65536

/-- The granule of an offset is held. -/
def granuleHeld (s : State) (part asid off : Nat) : Bool := !(lateOf s part asid off).isEmpty

/-- The granule holds bytes of [off, off + n). -/
def heldBytes (s : State) (part asid off n : Nat) : Bool :=
  (lateOf s part asid off).any fun e => decide (offsetOf e.va < off + n ∧ off < offsetOf e.va + e.size)

/-! ### Lines of the L2 (R113, R128) -/

/-- The tag of the line of an offset. -/
def lineRef (part asid off : Nat) : LineRef :=
  { part := part, asid := tagAsid asid off, va := off / 128 * 128 }

/-- The bytes of a store inside the line that starts at `line`. -/
def bytesInLine (off line : Nat) (data : List Byte) : SMap Byte :=
  ((countFrom 0 data.length).filter fun i => (off + i) / 128 * 128 == line).map fun i => (off + i - line, getAt 0 data i)

/-- Lines that an access touches. -/
def linesOf (off n : Nat) : List Nat :=
  (countFrom (off / 128) ((off + (if n = 0 then 0 else n - 1)) / 128 - off / 128 + 1)).map fun l => l * 128

/-- The line of a tag at its home slice; none in state I. -/
def findLine (s : State) (r : LineRef) : Option Line := findFirst (fun l => l.ref == r) s.lines

/-- Updates the line of a tag. -/
def mapLine (r : LineRef) (f : Line → Line) (s : State) : State :=
  { s with lines := updateWhere (fun l => l.ref == r) f s.lines }

/-- Drops the line of a tag. -/
def dropLine (r : LineRef) (s : State) : State := { s with lines := s.lines.filter fun l => l.ref != r }

/-- The outside directory entry of a line (R130); no copy where there is none. -/
def outDirOf (s : State) (r : LineRef) : OutDir :=
  (findFirst (fun d => d.ref == r) s.outDirs).getD { ref := r, dev := 0, host := [0, 0] }

/-- Writes the outside directory entry of a line; an entry that shows no copy is dropped. -/
def setOutDir (d : OutDir) (s : State) : State :=
  let rest := s.outDirs.filter fun e => e.ref != d.ref
  { s with outDirs := if d.dev = 0 ∧ d.host = [0, 0] then rest else d :: rest }

/-- Drops the L1 copies that `q` selects; the presence vector of a directory-tracked line follows (R128). -/
def l1Drop (q : L1Line → Bool) (s : State) : State :=
  let gone := s.l1.filter fun c => q c && c.coh == 1
  { s with
    l1 := s.l1.filter fun c => !q c
    lines := s.lines.map fun l =>
      { l with presence := gone.foldl (fun v c =>
          if c.ref = l.ref then v &&& ~~~ BitVec.ofNat 256 (2 ^ c.core) else v) l.presence } }

/-- Drops the directory-tracked L1 copies of a line on every core but one. -/
def dropL1 (r : LineRef) (except : Nat) (s : State) : State :=
  l1Drop (fun c => c.ref == r && c.core != except && c.coh == 1) s

/-! ### The slices of the L2 (R14, R68, R113, R114, R128) -/

/-- The slices that may be homes of a partition's lines: all of them, or in private mode six for each of its clusters
(R114). A private partition none of whose own slices serves takes every slice of the device (log entry 116). -/
def slicesFor (s : State) (q : Partition) : List Nat :=
  let own := (((countFrom 0 64).filter fun c => q.clmask.getLsbD c).flatMap fun c =>
    countFrom (Config.clusterSlices * c) Config.clusterSlices).filter (sliceServes s)
  if q.l2p ∧ own ≠ [] then own else (countFrom 0 Config.deviceSlices).filter (sliceServes s)

/-- The home slice of a line of a partition. -/
def homeOf (s : State) (part va : Nat) : Nat :=
  let l := slicesFor s (partOf s part)
  getAt 0 l (Config.homeSlice part va % l.length)

/-- Brim entries that lie in a slice itself. -/
def residentBrim (s : State) (slice : Nat) : Nat :=
  (s.brim.filter fun e => homeOf s e.ref.part e.ref.va == slice && !e.spilled).length

/-- Lines of a slice, the newest first. -/
def sliceHeld (s : State) (slice : Nat) : List Line := s.lines.filter fun l => homeOf s l.ref.part l.ref.va == slice

/-- Lines that a slice gives to the remote section of the partition whose cluster it belongs to: 0, 512 or 1,024 (R129). -/
def remoteLines (s : State) (slice : Nat) : Nat :=
  match findFirst (fun q => q.clmask.getLsbD (slice / Config.clusterSlices)) s.parts with
  | some q => q.rsec * 512
  | none => 0

/-- Lines that a slice takes up: those it holds, its Brim entries and its remote section (R14, R20, R129). -/
def sliceFill (s : State) (slice : Nat) : Nat := (sliceHeld s slice).length + residentBrim s slice + remoteLines s slice

/-- A line leaves its slice: its L1 copies are invalidated, and a dirty one is written back (R128; log entry 15). -/
def evictOne (s : State) (r : LineRef) : State := dropLine r (dropL1 r 256 s)

/-- A slice without room for n more lines evicts its oldest lines that are not in P until it has room (R128, R129; log entry 14). -/
def makeRoom (n slice : Nat) (s : State) : State :=
  let oldest := ((sliceHeld s slice).filter fun l => decide (l.state ≠ .p)).reverse.map fun l => l.ref
  oldest.foldl (fun s r => if sliceFill s slice + n ≤ Config.sliceLines then s else evictOne s r) s

/-- A slice makes room for one more line. -/
def evictLine (slice : Nat) (s : State) : State := makeRoom 1 slice s

/-- A line is held at its home slice, or the slice has room for it or holds a line that it may evict: the eviction of a line in P is
deferred (R128). A slice that holds no line has room. -/
def lineRoom (s : State) (r : LineRef) : Bool :=
  (findLine s r).isSome ||
    let slice := homeOf s r.part r.va
    let held := sliceHeld s slice
    held.isEmpty || held.any (fun l => decide (l.state ≠ .p)) || decide (sliceFill s slice < Config.sliceLines)

/-- Fills a line from its HC: state C, with its write grant (R128, R364). A dead granule reads 0 (R125). -/
def fillLine (r : LineRef) (l : Leaf) (s : State) : State :=
  let pa := l.pa / 128 * 128
  let od := outDirOf s r
  let line : Line := {
    ref := r, pa := pa, state := .c
    grant := Pte.wr l.entry && !Pte.cow l.entry && !Pte.held l.entry
    coh := Pte.coh l.entry, presence := 0
    out := !decide (od.dev = 0 ∧ od.host = [0, 0]), acks := [], hostAcks := [], resume := .none, share := false, laid := [] }
  let s := evictLine (homeOf s r.part r.va) s
  { s with
    lines := line :: s.lines.filter fun x => x.ref != r
    mem := if Pte.dead l.entry then memZero s.mem pa (pa + 128) else s.mem }

/-- Writes a page-table entry, which a memory error no longer mars; that of a pool granule lies in no table. -/
def writePte (pa e : Nat) (s : State) : State :=
  if pa < 2 ^ 39 then { s with mem := memWrite s.mem pa (leBytes 8 e), badEntries := s.badEntries.filter fun x => x != pa } else s

/-- The first store to a dead granule clears DEAD; its other bytes then read 0 (R125). -/
def reviveGranule (part asid off : Nat) (s : State) : State :=
  match walk s part asid off with
  | none => s
  | some l =>
    if Pte.dead l.entry then
      let base := l.pa / 65536 * 65536
      writePte l.entryPa (Pte.setBit l.entry 55 false) { s with mem := memZero s.mem base (base + 65536) }
    else s

/-- The base bytes of [off, off + n) inside one line: those of the line if it is held in the L2, else of the leaf's
frame, which reads 0 where the granule is dead (R125). -/
def baseBytes (s : State) (part asid off n : Nat) : List Byte :=
  match findLine s (lineRef part asid off) with
  | some l => memBytes s.mem (l.pa + off % 128) n
  | none =>
    match walk s part asid off with
    | none => List.replicate n 0
    | some l =>
      if Pte.dead l.entry then List.replicate n 0 else memBytes s.mem l.pa n

end Sys2Proof.Machine
end

