-- ==== Sys2Proof/Machine/Operands.lean ====
section
/-! DEFINITION. Registers and operand forms (spec/05_memory_hierarchy.md R102, R103; spec/07_number_formats.md R152;
spec/08_encoding_assembly.md R174, R175, R183): every read and write of a register of the split at issue. -/

namespace Sys2Proof.Machine

/-! ### The registers that regions track (R40), one number each -/

/-- s n. -/
def codeS (n : Nat) : Nat := n
/-- w n. -/
def codeW (n : Nat) : Nat := 64 + n
/-- lc n. -/
def codeLc (n : Nat) : Nat := 72 + n
/-- EXEC. -/
def codeExec : Nat := 74
/-- MODE. -/
def codeMode : Nat := 75
/-- Lane l of p n. -/
def codeP (n l : Nat) : Nat := 1024 + n * 64 + l
/-- Lane l of v n. -/
def codeV (n l : Nat) : Nat := 4096 + n * 64 + l

/-! ### Scalar registers -/

def getS (s : State) (n : Nat) : Word := mapGet 0 s.p.sregs n

/-- Writes a scalar register full (R189). -/
def setS (n : Nat) (v : Word) (s : State) : State :=
  { s with p := { s.p with sregs := mapSet 0 s.p.sregs n v, sstate := mapSet .full s.p.sstate n .full } }

/-- Writes a scalar register if it is one of the destinations given; used where a field may name none. -/
def setSAll (l : List (Nat × Word)) (s : State) : State := l.foldl (fun s e => setS e.1 e.2 s) s

/-- Marks a scalar register empty, awaiting request `id` (R102). -/
def setSEmpty (n id : Nat) (s : State) : State :=
  { s with p := { s.p with sstate := mapSet .full s.p.sstate n (.empty id) } }

/-! ### Vector and predicate registers -/

def getV (s : State) (n l : Nat) : BitVec 32 := mapGet 0 s.g.vregs (n * 64 + l)

/-- Writes one lane of a vector register full. -/
def setV (n l : Nat) (v : BitVec 32) (s : State) : State :=
  { s with g := { s.g with vregs := mapSet 0 s.g.vregs (n * 64 + l) v,
                           vstate := mapSet .full s.g.vstate (n * 64 + l) .full } }

/-- Marks one lane of a vector register empty, awaiting request `id`. -/
def setVEmpty (n l id : Nat) (s : State) : State :=
  { s with g := { s.g with vstate := mapSet .full s.g.vstate (n * 64 + l) (.empty id) } }

def getP (s : State) (n l : Nat) : Bool := mapGet false s.g.preds (n * 64 + l)

def setP (n l : Nat) (b : Bool) (s : State) : State :=
  { s with g := { s.g with preds := mapSet false s.g.preds (n * 64 + l) b } }

/-- Writes a list of lane values of vector registers, each (register, lane, value). -/
def setVAll : List (Nat × Nat × BitVec 32) → State → State
  | [], s => s
  | (n, l, v) :: r, s => setVAll r (setV n l v s)

/-- Writes a list of predicate bits, each (register, lane, bit). -/
def setPAll : List (Nat × Nat × Bool) → State → State
  | [], s => s
  | (n, l, b) :: r, s => setPAll r (setP n l b s)

/-! ### States of registers (R102, R103) -/

/-- The state of a tracked register; predicates, windows, counters and special registers are always full. -/
def regState (s : State) (code : Nat) : RegState :=
  if code < 64 then mapGet .full s.p.sstate code
  else if 4096 ≤ code then mapGet .full s.g.vstate (code - 4096)
  else .full

/-- What reading a list of sources meets first (R103): an empty source with trap bit 1, empty sources to wait for, or a
faulted one. -/
inductive Scan where
  | ok
  | trap
  | wait (codes : List Nat)
  | park (id : Nat)
  deriving DecidableEq, Repr

/-- A register is empty. -/
def isEmptyReg (s : State) (c : Nat) : Bool :=
  match regState s c with
  | .empty _ => true
  | _ => false

/-- Reads the sources in order, each with its trap bit. At an empty source with trap bit 0 the split waits for it and for the other
empty sources with trap bit 0; those with trap bit 1 are read once it goes on. -/
def scanSources (s : State) : List (Nat × Bool) → Scan
  | [] => .ok
  | (c, t) :: r =>
    match regState s c with
    | .full => scanSources s r
    | .faulted id => .park id
    | .empty _ =>
      if t then .trap else .wait (c :: (r.filter fun e => !e.2 && isEmptyReg s e.1).map fun e => e.1)

/-! ### MODE (R183) -/

def modeT (s : State) : Nat := bits s.p.mode.toNat 0 4
def modeRm (s : State) : BitVec 2 := BitVec.ofNat 2 (bits s.p.mode.toNat 10 2)
def modeFz (s : State) : Bool := s.p.mode.getLsbD 12
/-- The control of conversion class k, 0 to 11. -/
def modeCv (s : State) (k : Nat) : Nat := bits s.p.mode.toNat (13 + 3 * k) 3

/-- The element type of MODE.T, if its code is assigned. -/
def elemTy (s : State) : Option Ty := tyOfCode (modeT s)

/-- The guard of a MODE for a lane: G.EN = 0, or the guard predicate differs from G.INV (R184). -/
def guardOk (s : State) (i : Nat) : Bool :=
  !s.p.mode.getLsbD 9 || (getP s (bits s.p.mode.toNat 4 4) i != s.p.mode.getLsbD 8)

/-- The lanes of A: active(i) holds (R184). -/
def activeLanes (s : State) : List Nat := (lanesOf (s.p.exec &&& s.p.members)).filter (guardOk s)

/-- A as a mask. -/
def activeMask (s : State) : BitVec 64 := maskOf (activeLanes s)

/-! ### Operand fields (R174) -/

/-- A scalar field of 7 bits names a register. -/
def sOk (f : BitVec 7) : Bool := decide (f.toNat < 64)
/-- A vector source: any value, even where an operand of 64 bits lies in vector registers. -/
def vSrcOk (wide : Bool) (f : BitVec 7) : Bool := decide (96 ≤ f.toNat) || !wide || f.toNat % 2 == 0
/-- A vector destination. -/
def vDstOk (wide : Bool) (f : BitVec 7) : Bool := decide (f.toNat < 96) && (!wide || f.toNat % 2 == 0)
/-- A predicate field. -/
def pOk (f : BitVec 7) : Bool := decide (f.toNat < 16)

/-- The sources that a scalar field reads. -/
def srcS (f : BitVec 7) (t : Bool) : List (Nat × Bool) := [(codeS f.toNat, t)]

/-- The sources that a vector field of r registers reads over some lanes. -/
def srcV (f : Nat) (r : Nat) (t : Bool) (ls : List Nat) : List (Nat × Bool) :=
  if 96 ≤ f then (if ls.isEmpty then [] else [(codeS (f - 96), t)])
  else ls.flatMap fun i => (countFrom f r).map fun n => (codeV n i, t)

/-- The lanes of r vector registers from d. -/
def dstV (d r : Nat) (ls : List Nat) : List Nat :=
  ls.flatMap fun i => (countFrom d r).map fun n => codeV n i

/-- The bits that a vector field holds for lane i: 32, or 64 of a pair; a scalar register gives the same to every lane
(R152). -/
def fieldBits (s : State) (f : Nat) (wide : Bool) (i : Nat) : Nat :=
  if 96 ≤ f then (if wide then (getS s (f - 96)).toNat else (getS s (f - 96)).toNat % 2 ^ 32)
  else if wide then (getV s f i).toNat + 2 ^ 32 * (getV s (f + 1) i).toNat
  else (getV s f i).toNat

/-- elem(x, T) of a field for lane i: the low w bits. -/
def elemOf (s : State) (t : Ty) (f i : Nat) : Nat := fieldBits s f t.wide i % 2 ^ t.width

/-- The lane values that put(d, i, y, T) writes (R152). -/
def putElem (t : Ty) (d i y : Nat) : List (Nat × Nat × BitVec 32) :=
  let x := t.extend y
  if t.wide then [(d, i, BitVec.ofNat 32 x), (d + 1, i, BitVec.ofNat 32 (x / 2 ^ 32))]
  else [(d, i, BitVec.ofNat 32 x)]

/-- The bytes of r registers from d in lane i, lowest first. -/
def regBytes (s : State) (d r i : Nat) : List Byte :=
  (countFrom d r).flatMap fun n => leBytes 4 (getV s n i).toNat

/-! ### Windows (R122) -/

/-- A window after gang start: closed, every field 0. -/
def Window.closed : Window where
  base := 0
  valid := false
  stale := false
  coh := 0
  perm := 0
  limit := 0

def getW (s : State) (n : Nat) : Window := mapGet Window.closed s.p.wins n

def setW (n : Nat) (w : Window) (s : State) : State :=
  { s with p := { s.p with wins := mapSet Window.closed s.p.wins n w } }

end Sys2Proof.Machine
end

