-- ==== Sys2Proof/Machine/Flags.lean ====
section
/-! DEFINITION. FSTAT, the sticky flags of a split (spec/07_number_formats.md R157): how an instruction sets them, how a
write clears them, how a re-gang joins them. The flag that each operation raises is computed with its result, in
Sys2Proof/Machine/Float.lean (`Res.flags`). -/

namespace Sys2Proof.Machine

/-- The six flags. -/
def fstatMask : BitVec 64 := 0x3F

/-- Sets the flags that some active lane raised. -/
def raiseFlags (f : BitVec 64) (s : State) : State :=
  { s with p := { s.p with fstat := s.p.fstat ||| (f &&& fstatMask) } }

/-- The flags of a list of results together. -/
def flagsOf : List Res → BitVec 64
  | [] => 0
  | r :: l => r.flags ||| flagsOf l

/-- Writing 1 to a flag clears it (W1C). -/
def clearFlags (v : BitVec 64) (s : State) : State :=
  { s with p := { s.p with fstat := s.p.fstat &&& ~~~v } }

/-- FSTAT of a merged split. -/
def joinFlags (a b : BitVec 64) : BitVec 64 := a ||| b

end Sys2Proof.Machine
end

