-- ==== Sys2Proof/Machine/Home.lean ====
section
/-! DEFINITION. Performing at a home (spec/03_logical_time.md R63, R68 to R74, R82; spec/04_consistency.md R85;
spec/06_coherence_fabric.md R128; spec/11_isa_memory_sync.md R244 to R247): what an access does to device memory, the
versions a deterministic launch reads, the late-fault store queue, and the accesses the device makes for itself. -/

namespace Sys2Proof.Machine

/-! ### Event counters (R331) -/

/-- Selector ESELk counts event `code` of a launch: LONLY restricts it to free and observed launches. -/
def selects (sel : Word) (code : Nat) (l : Launch) : Bool :=
  bits sel.toNat 0 12 == code && (!sel.getLsbD 15 || l.obs || !l.det)

/-- It counts one that is of no launch. -/
def selectsDevice (sel : Word) (code : Nat) : Bool := bits sel.toNat 0 12 == code && !sel.getLsbD 15

/-- Adds n to every counter of a partition whose selector counts the event. -/
def bumpEvents (counts : Word → Bool) (n : Nat) (q : Partition) : Partition :=
  { q with
    evc := (countFrom 0 16).foldl (fun m k =>
      if counts (mapGet 0 q.esel k) then mapSet 0 m k (mapGet 0 m k + BitVec.ofNat 64 n) else m) q.evc }

/-- Counts an event of a launch in its partition. -/
def countEvent (launch code n : Nat) (s : State) : State :=
  let l := launchOf s launch
  mapPart l.part (bumpEvents (fun sel => selects sel code l) n) s

/-- Counts an event that no launch of a partition made. -/
def countDevice (part code : Nat) (s : State) : State := mapPart part (bumpEvents (fun sel => selectsDevice sel code) 1) s

/-! ### Atomic operations (R244, R245, R247) -/

/-- op(m, v) on n-byte codes: sub-code n of type t; min and max by minimumNumber and maximumNumber for floats. -/
def atomicOp (n : Nat) (t : Ty) (rm : BitVec 2) (fz : Bool) (m v : Nat) : Nat :=
  let w := t.width
  match n with
  | 0 =>
    if t.isFloat then (addNum t (rmOf rm) fz (readFloat t fz m) (readFloat t fz v)).val
    else wrapNat (t.intVal m + t.intVal v) w
  | 1 => if t.isFloat then (minmaxFloat t fz false m v).val else if t.intVal m ≤ t.intVal v then m else v
  | 2 => if t.isFloat then (minmaxFloat t fz true m v).val else if t.intVal m < t.intVal v then v else m
  | 3 => Nat.land m v
  | 4 => Nat.lor m v
  | 5 => Nat.xor m v
  | 6 => v
  | 9 => if m < v then v else m
  | _ => m

/-- The bytes that an access leaves at its address, given those it finds there (R246): compare-and-swap acts on the bits,
code 0x08 with comparand `w`, code 0x0A likewise for 16 B. -/
def opBytes (op : AccessOp) (old : List Byte) : List Byte :=
  match op with
  | .load => old
  | .store d => d
  | .rmw n ty rm fz v w =>
    if n = 8 ∨ n = 10 then (if old = w then v else old)
    else if n = 9 then leBytes old.length (if leNat old < leNat v then leNat v else leNat old)
    else leBytes old.length (atomicOp n ((tyOfCode ty).getD (Ty.n 32)) rm fz (leNat old) (leNat v))
  | .reduce n ty rm fz v =>
    leBytes old.length (atomicOp n ((tyOfCode ty).getD (Ty.n 32)) rm fz (leNat old) (leNat v))
  | .discard => old.map fun _ => 0
  | .count add n =>
    leBytes 4 (countTo add n (leNat (old.take 4))) ++ old.drop 4
where
  /-- PRED after n is added or taken away; unchanged where it would leave its range (R278) -/
  countTo (add : Bool) (n p : Nat) : Nat :=
    if add then (if p + n < 2 ^ 32 then p + n else p) else (if n ≤ p then p - n else p)

/-- The access writes its location. -/
def opWrites : AccessOp → Bool
  | .load => false
  | _ => true

/-! ### Versions (R63, R68) -/

/-- The Brim entries of a line that a launch holds, in key order and, within a key, in the order they were made. -/
def brimOf (s : State) (launch : Nat) (r : LineRef) : List BrimEntry :=
  sortBy (fun a b => keyLt a.key b.key || (decide (a.key = b.key) && decide (a.order < b.order)))
    (s.brim.filter fun e => e.launch == launch && e.ref == r)

/-- Bytes from `at0` of a line with one entry laid over them. -/
def overlay (at0 : Nat) (data : SMap Byte) (l : List Byte) : List Byte :=
  (countFrom 0 l.length).map fun i =>
    match findFirst (fun e => e.1 == at0 + i) data with
    | some e => e.2
    | none => getAt 0 l i

/-- The n bytes at an offset as step 2 of R63 gives them, with every Brim entry that `q` includes. -/
def versionBytes (s : State) (launch part asid off n : Nat) (q : Key → Bool) : List Byte :=
  ((brimOf s launch (lineRef part asid off)).filter fun e => q e.key).foldl
    (fun l e => overlay (off % 128) e.data l) (baseBytes s part asid off n)

/-- The entries a load with view v and last turn key t includes. -/
def inView (v : Key) (t : Option Key) (k : Key) : Bool := keyLt k v || decide (t = some k)

/-- The entries a turn with key k reads: those keyed below it and its own (R63, R66). -/
def atKey (k : Key) (e : Key) : Bool := keyLe e k

/-- A full slice moves a lowest-key entry to its partition's spill area, one of the publishing partition if it holds any (R70). -/
def spillOne (part slice : Nat) (s : State) : State :=
  if residentBrim s slice < Config.brimEntries then s
  else
    let here := s.brim.filter fun e => homeOf s e.ref.part e.ref.va == slice && !e.spilled
    let own := here.filter fun e => e.ref.part == part
    match leastBy (fun a b => keyLt a.key b.key || (decide (a.key = b.key) && decide (a.order < b.order)))
        (if own = [] then here else own) with
    | none => s
    | some e => { s with brim := updateWhere (fun x => x.id == e.id) (fun x => { x with spilled := true }) s.brim }

/-- Where the bytes of a line lie now: in its held line's frame, or in the frame its translation gives. -/
def framePa (s : State) (r : LineRef) : Nat :=
  match findLine s r with
  | some l => l.pa
  | none => (walk s r.part r.asid r.va).elim 0 fun l => l.pa / 128 * 128

/-- Enters bytes of one line as a Brim entry keyed k (R66, R68), the bytes of `held` refused at the HC (R371). A full slice stalls it while
it spills: event 0x014. -/
def brimEnter (launch : Nat) (r : LineRef) (k : Key) (order : Nat) (data : SMap Byte) (held : List Nat) (s : State) : State :=
  let slice := homeOf s r.part r.va
  let s := if residentBrim s slice < Config.brimEntries then s else countEvent launch 0x014 1 s
  let s := evictLine slice (spillOne r.part slice s)
  { s with
    brim := s.brim ++ [{ id := s.nextId, launch := launch, ref := r, key := k, order := order, data := data, held := held
                         spilled := false, pa := framePa s r }]
    nextId := s.nextId + 1 }

/-! ### Foreign updates (R82) -/

/-- The deterministic launches other than `launch` that hold entries or updates on a line. -/
def holders (s : State) (launch : Nat) (r : LineRef) : List Nat :=
  (((s.brim.filter fun e => e.ref == r).map fun e => e.launch)
    ++ ((s.mitten.filter fun u => lineRef u.part u.asid (offsetOf u.va) == r).map fun u => u.launch)).filter
    fun l => l != launch

/-- A write by `launch` (0 for none) reaches a line: launches that hold it get their foreign-update bit and their first
foreign line. -/
def foreignUpdate (launch : Nat) (r : LineRef) (s : State) : State :=
  let hs := holders s launch r
  { s with
    launches := updateWhere (fun l => hs.contains l.id && !l.fu)
      (fun l => { l with fu := true, fline := userVA (partOf s r.part).node r.va }) s.launches }

/-! ### Writing the base line (R85, R125, R128) -/

/-- The outside directory of a partition runs in precise mode: every node of its domain is below 25 (R130). -/
def preciseDir (s : State) (part : Nat) : Bool := (partOf s part).members.all fun n => decide (n < 25)

/-- The DEV bit that stands for a node. -/
def devBit (s : State) (part n : Nat) : Nat := if preciseDir s part then n else n / 32

/-- The domain members other than the device itself that set DEV bits cover. -/
def outsideNodes (s : State) (part : Nat) (dev : BitVec 32) : List Nat :=
  (partOf s part).members.filter fun n => n != (partOf s part).node && dev.getLsbD (devBit s part n)

/-- Bytes of a line have been written: copies outside the device are recalled, those of hosts only where `hosts` says so, and the
line is in P until they have answered, so that no access finds the bytes before (R128, R130, R149). The bytes lie over what a
host then gives back (log entry 24). -/
def recallCopies (hosts : Bool) (r : LineRef) (data : SMap Byte) (s : State) : State :=
  let d := outDirOf s r
  let pending := (findLine s r).any fun l => decide (l.state = .p)
  if pending then mapLine r (fun l => { l with share := false, laid := mapSetBytes l.laid data }) s
  else
    let nodes := outsideNodes s r.part d.dev
    let ports := (countFrom 0 2).filter fun i => hosts && getAt 0 d.host i != 0
    if nodes = [] ∧ ports = [] then s
    else
      { s with
        lines := updateWhere (fun l => l.ref == r)
          (fun l => { l with state := .p, acks := nodes.map CopyHolder.node, hostAcks := ports, resume := .none, share := false
                             laid := data }) s.lines
        outbox := s.outbox ++ nodes.map (fun n => Msg.invalidate n r) ++ ports.map (fun i => Msg.backInvalidate i r false) }
where
  /-- later bytes over earlier ones -/
  mapSetBytes (m : SMap Byte) : SMap Byte → SMap Byte
    | [] => m
    | (k, v) :: r => mapSetBytes (mapInsert m k v) r

/-- The device's own agents have written bytes of a line: every copy outside the device is recalled. -/
def recallOutside (r : LineRef) (data : SMap Byte) (s : State) : State := recallCopies true r data s

/-! ### The pending state of a line (R128, R130, R149) -/

/-- Host ports with a state that a test picks. -/
def hostPorts (d : OutDir) (q : Nat → Bool) : List Nat := (countFrom 0 2).filter fun i => q (getAt 0 d.host i)

/-- Puts a line into P: invalidations and back-invalidations leave, and the access named is repeated when all have been
answered. Where the device reads the line (`data`), a host gives its data and keeps the line shared (R149). -/
def beginPending (r : LineRef) (acks : List CopyHolder) (hosts : List Nat) (data : Bool) (resume : Arg) (s : State) :
    State :=
  let nodes := acks.filterMap fun a => match a with
    | .node n => some (Msg.invalidate n r)
    | .core _ => none
  { mapLine r (fun l => { l with state := .p, acks := acks, hostAcks := hosts, resume := resume, share := data }) s with
    outbox := s.outbox ++ nodes ++ hosts.map fun i => Msg.backInvalidate i r data }

/-- Ports whose host may have modified a line. -/
def dirtyHosts (s : State) (r : LineRef) : List Nat := hostPorts (outDirOf s r) (fun h => h == 2)

/-- The leaf of an offset has LOCK set: its page is being migrated, and writes wait (R124). -/
def pageLocked (s : State) (part asid off : Nat) : Bool := (walk s part asid off).any fun l => Pte.lock l.entry

/-- A line of the partition holds bytes that its device has written and that have not performed (R97, R128). -/
def unsettledLine (s : State) (part : Nat) : Bool :=
  s.lines.any fun l => l.ref.part == part && decide (l.state = .p) && !l.laid.isEmpty

/-- Makes sure a line is held at its home slice (R128): filled from its HC if it is in state I. -/
def ensureLine (part asid off : Nat) (s : State) : State :=
  match findLine s (lineRef part asid off) with
  | some _ => s
  | none =>
    match walk s part asid off with
    | some l => fillLine (lineRef part asid off) l s
    | none => s

/-- A launch, or with 0 another party, misses the L2 at a line, which is filled from HBM: event 0x011. -/
def countMiss (launch : Nat) (r : LineRef) (s : State) : State :=
  if (findLine s r).isNone ∧ (walk s r.part r.asid r.va).isSome then
    if launch = 0 then countDevice r.part 0x011 s else countEvent launch 0x011 1 s
  else s

/-- Bytes inside one line change at its home: a dead granule is revived (R125), the line becomes dirty (R128). -/
def writeLine (part asid off : Nat) (data : List Byte) (s : State) : State :=
  let s := ensureLine part asid off (reviveGranule part asid off s)
  let r := lineRef part asid off
  match findLine s r with
  | none => s
  | some l =>
    mapLine r (fun l => { l with state := if l.state = .p then .p else .d }) { s with mem := memWrite s.mem (l.pa + off % 128) data }

/-- Performs a write of bytes inside one line at its home, an update for every other launch that holds the line (R82). -/
def writeBase (launch part asid off : Nat) (data : List Byte) (s : State) : State :=
  foreignUpdate launch (lineRef part asid off) (writeLine part asid off data (countMiss launch (lineRef part asid off) s))

/-! ### Discard of a granule (R125) -/

/-- Drops the L2 and L1 lines of a granule. -/
def dropGranuleLines (part asid off : Nat) (s : State) : State :=
  let inG (r : LineRef) : Bool := r.part == part && r.asid == tagAsid asid off && r.va / 65536 == off / 65536
  let s := l1Drop (fun c => inG c.ref) s
  { s with lines := s.lines.filter fun l => !inG l.ref }

/-! ### The late-fault store queue (R367 to R369) -/

/-- Two parts of one write of one instruction to one line: one entry of the queue (R367, R340). -/
def sameEntry (a b : LateEntry) : Bool :=
  a.gang.isSome && a.reqId.isSome && b.reqId.isSome && a.gang == b.gang && a.serial == b.serial && a.pc == b.pc
    && a.hc == b.hc && a.part == b.part && a.asid == b.asid && a.va.toNat / 128 == b.va.toNat / 128

/-- Entries that the parts take up. -/
def entryCount : List LateEntry → Nat
  | [] => 0
  | e :: r => entryCount r + if r.any (sameEntry e) then 0 else 1

/-- The entry holds bytes of [off, off + n). -/
def holdsBytes (e : LateEntry) (off n : Nat) : Bool :=
  decide (offsetOf e.va < off + n ∧ off < offsetOf e.va + e.size)
    && (e.data.isEmpty || e.data.any fun d => decide (off ≤ offsetOf e.va / 128 * 128 + d.1 ∧ offsetOf e.va / 128 * 128 + d.1 < off + n))

/-- The cause of the first entry of a granule. -/
def firstCause (s : State) (part asid off : Nat) : BitVec 8 :=
  match (lateOf s part asid off).filterMap fun e => e.cause with
  | c :: _ => c
  | [] => 0x70

/-- Whether an HC may take n more entries of a partition (R369); a host port's queue holds 64 (R150). -/
def lateRoomFor (s : State) (hc part n : Nat) : Bool :=
  let here := s.late.filter fun e => e.hc == hc
  if 32 ≤ hc then decide (entryCount here + n ≤ Config.portLateEntries)
  else decide (entryCount here + n ≤ Config.lateEntries)
    && decide (entryCount (here.filter fun e => e.part == part) + n ≤ Config.lateShare)

/-- One more. -/
def lateRoom (s : State) (hc part : Nat) : Bool := lateRoomFor s hc part 1

/-- A write belongs to an entry that the queue holds. -/
def joinsEntry (s : State) (e : LateEntry) : Bool := s.late.any (sameEntry e)

/-- CLOCK of a KIND 2 record: the clock of the store key; 0 where the store has none (R344, R405). -/
def Req.storeClock (q : Req) : Word :=
  match q.key with
  | some k => BitVec.ofNat 64 k.clock
  | none => 0

/-- An entry for a write of a request refused with a cause, or a follower (no cause). -/
def lateOfReq (s : State) (q : Req) (cause : Option (BitVec 8)) : LateEntry where
  id := s.nextId
  hc := if regionOf (offsetOf q.va) = 3 then 32 + (partOf s q.part).port else homeHc (offsetOf q.va)
  part := q.part
  asid := q.asid
  va := q.va
  size := q.size
  op := q.op
  data := []
  gang := if q.gang = 0 then none else some q.gang
  gangid := q.gangid
  wg := q.wg
  serial := q.serial
  pc := q.pc
  lanes := if q.lane < 64 then laneBit q.lane else 0
  clock := q.storeClock
  cause := cause
  reqId := some q.id
  brim := none
  key := q.key
  node := none
  recorded := decide (q.gang = 0)
  delivered := decide (q.gang = 0)
  filed := false

/-- Appends an entry to its queue. -/
def enqueueLate (e : LateEntry) (s : State) : State :=
  { s with late := s.late ++ [{ e with id := s.nextId }], nextId := s.nextId + 1 }

/-! ### Accesses of the device itself -/

/-- Whether the home slice or its HC admits an access inside one line: a line held with a write grant admits without its
HC (R364). -/
def admits (s : State) (part asid off : Nat) (w : Bool) : Option (BitVec 8) :=
  match findLine s (lineRef part asid off) with
  | some l =>
    if !w || l.grant then none else
    match hcCheck s part asid off w false with
    | .ok _ => none
    | .refuse c => some c
  | none =>
    match hcCheck s part asid off w false with
    | .ok _ => none
    | .refuse c => some c

/-- Likewise for an access that both reads and writes: an atomic or a reduction (R236, R364). -/
def admitsBoth (s : State) (part asid off : Nat) : Option (BitVec 8) :=
  if (findLine s (lineRef part asid off)).any fun l => l.grant then none else
  match hcAnswer s part asid off true true false with
  | .ok _ => none
  | .refuse c => some c

/-- The pieces of [off, off + n) inside single lines: their offset and length. -/
def pieces (off n : Nat) : List (Nat × Nat) :=
  if n = 0 then [] else
  (linesOf off n).map fun l =>
    let lo := max off l
    let hi := min (off + n) (l + 128)
    (lo, hi - lo)

/-- The first refusal of an access over its lines. -/
def admitsAll (s : State) (part asid : Nat) (w : Bool) : List (Nat × Nat) → Option (BitVec 8)
  | [] => none
  | (o, _) :: r =>
    match admits s part asid o w with
    | some c => some c
    | none => admitsAll s part asid w r

/-- Reads bytes of device memory at their homes, or the cause of a refusal. -/
def devRead (s : State) (part asid off n : Nat) : Except (BitVec 8) (List Byte) :=
  match admitsAll s part asid false (pieces off n) with
  | some c => .error c
  | none => .ok ((pieces off n).flatMap fun e => baseBytes s part asid e.1 e.2)

/-- An access of the device's own, which no gang makes: it goes to its home as a core's does. -/
def devReq (launch part asid : Nat) (va : Word) (size : Nat) (op : AccessOp) : Req where
  id := 0
  gang := 0
  launch := launch
  part := part
  asid := asid
  core := 256
  lanes := 0
  lane := 64
  cls := 0
  va := va
  size := size
  op := op
  dest := .none
  gangid := 0
  wg := 0
  fwd := []
  acquire := false
  drops := false
  priv := false
  pc := 0
  word := 0
  serial := 0
  clock := 0
  key := none
  view := none
  after := 0
  sx := false
  nt := false
  spill := false
  phase := .sent

/-- Sends it. -/
def sendDev (q : Req) (s : State) : State :=
  { s with reqs := s.reqs ++ [{ q with id := s.nextId }], nextId := s.nextId + 1 }

/-- The line of a tag lies among those of [off, off + n). -/
def refIn (part asid off n : Nat) (r : LineRef) : Bool :=
  r.part == part && r.asid == tagAsid asid off && decide (off / 128 * 128 ≤ r.va ∧ r.va < off + n)

/-- A write of the device's own that has not performed. -/
def devWriting (q : Req) : Bool :=
  q.gang == 0 && opWrites q.op && (match q.phase with
    | .done _ => false
    | .refused _ => false
    | _ => true)

/-- No line of [off, off + n) is in P, and no write of the device's own still waits for one (R128). -/
def linesQuiet (s : State) (part asid off n : Nat) : Bool :=
  !(s.lines.any fun l => decide (l.state = .p) && refIn part asid off n l.ref)
    && !(s.reqs.any fun q => devWriting q && refIn part asid off n (lineRef q.part q.asid (offsetOf q.va)))

/-- A write of the device's own at a line has to wait in the order of arrival: the line is in P, the page is being migrated, or one that
came before it still waits, or its slice has no room for the line (R124, R128). -/
def devQueued (s : State) (part asid off : Nat) : Bool :=
  pageLocked s part asid off || !linesQuiet s part asid off 1 || !lineRoom s (lineRef part asid off)

/-- A host may have modified a line of [off, off + n) that the device can read (R149). -/
def hostsHold (s : State) (part asid off n : Nat) : Bool :=
  (pieces off n).any fun e => decide (dirtyHosts s (lineRef part asid e.1) ≠ []) && (admits s part asid e.1 false).isNone

/-- The device cannot read [off, off + n) yet: a line is in P, a host may have modified it, or a write of the device's own still waits
for it (R128, R149). -/
def unreadable (s : State) (part asid off n : Nat) : Bool := !linesQuiet s part asid off n || hostsHold s part asid off n

/-- A host that may have modified a line of [off, off + n) is asked for it (R149). -/
def askHosts (part asid off n : Nat) (s : State) : State :=
  (pieces off n).foldl (fun s e =>
    let r := lineRef part asid e.1
    if dirtyHosts s r = [] ∨ (admits s part asid e.1 false).isSome then s
    else
      let s := ensureLine part asid e.1 s
      if (findLine s r).any fun l => decide (l.state = .p) then s
      else beginPending r [] (dirtyHosts s r) true .none s) s

/-- Bytes inside one line are written at its home: every copy goes, those of hosts where `hosts` says so. -/
def writeAs (hosts : Bool) (launch part asid o : Nat) (d : List Byte) (s : State) : State :=
  recallCopies hosts (lineRef part asid o) (bytesInLine o (o / 128 * 128) d)
    (dropL1 (lineRef part asid o) 256 (writeBase launch part asid o d s))

/-- A write of the device: every copy goes. -/
def writeNow (launch part asid o : Nat) (d : List Byte) (s : State) : State := writeAs true launch part asid o d s

/-- Bytes inside one line are written at its home: at once, or in their turn. -/
def writePiece (launch part asid o : Nat) (d : List Byte) (s : State) : State :=
  if devQueued s part asid o then
    sendDev (devReq launch part asid (userVA (partOf s part).node o) d.length (.store d)) s
  else writeNow launch part asid o d s

/-- Writes bytes that a list of lines admits. -/
def writePieces (launch part asid off : Nat) (data : List Byte) : List (Nat × Nat) → State → State
  | [], s => s
  | (o, n) :: r, s => writePieces launch part asid off data r (writePiece launch part asid o ((data.drop (o - off)).take n) s)

/-- Writes bytes of device memory at their homes, or the cause of a refusal. -/
def devWrite (launch part asid off : Nat) (data : List Byte) (s : State) : Except (BitVec 8) State :=
  match admitsAll s part asid true (pieces off data.length) with
  | some c => .error c
  | none => .ok (writePieces launch part asid off data (pieces off data.length) s)

/-- A write of the device that no gang makes: refused, or meeting a held granule, it waits in the late-fault store queue
attributed to no gang (R276, R368); without room there, it waits at its home (R369). -/
def devStore (part asid : Nat) (va : Word) (op : AccessOp) (data : List Byte) (s : State) : State :=
  let off := offsetOf va
  let entry (c : Option (BitVec 8)) : LateEntry := {
    id := 0, hc := homeHc off, part := part, asid := asid, va := va, size := data.length, op := op, data := []
    gang := none, gangid := 0, wg := 0, serial := 0, pc := 0, lanes := 0, clock := 0, cause := c, reqId := none
    brim := none, key := none, node := none, recorded := true, delivered := true, filed := false }
  let held (c : Option (BitVec 8)) : State :=
    if lateRoom s (homeHc off) part then enqueueLate (entry c) s else sendDev (devReq 0 part asid va data.length op) s
  if granuleHeld s part asid off then held none
  else
    match devWrite 0 part asid off data s with
    | .ok s' => s'
    | .error c => held (some c)

end Sys2Proof.Machine
end

