-- ==== Sys2Proof/Machine/Record.lean ====
section
/-! DEFINITION. Fault records and the fault queue of a partition (spec/17_fault_architecture.md R344 to R346). -/

namespace Sys2Proof.Machine

/-! ### Fault records (R344) -/

/-- What a fault record says, apart from the gang it belongs to. -/
structure TrapInfo where
  kind : Nat
  cause : BitVec 8
  sub : BitVec 8
  pc : Word
  va : Word
  lanes : BitVec 64
  serial : BitVec 32
  clock : Word
  pnode : Nat
  n : Nat
  word : BitVec 32
  deriving DecidableEq, Repr

/-- The party a record names. -/
structure Party where
  gangid : Nat
  wg : Nat
  asid : Nat
  part : Nat
  deriving DecidableEq, Repr

def partyOf (g : Gang) : Party := { gangid := gangidOf g, wg := g.wg, asid := g.asid, part := g.part }

/-- Bytes 0 to 63 of a record. -/
def recordHead (t : TrapInfo) (w : Party) : List Byte :=
  leBytes 8 (t.cause.toNat + t.sub.toNat * 2 ^ 8 + t.kind % 8 * 2 ^ 16 + bit (2 ≤ t.kind) * 2 ^ 19 + t.pnode % 1024 * 2 ^ 32)
    ++ leBytes 8 t.pc.toNat ++ leBytes 8 t.va.toNat ++ leBytes 8 t.lanes.toNat
    ++ leBytes 8 (t.serial.toNat + w.gangid % 2 ^ 32 * 2 ^ 32) ++ leBytes 8 t.clock.toNat
    ++ leBytes 8 (w.part % 8 + w.asid % 4096 * 2 ^ 16 + w.wg % 2 ^ 32 * 2 ^ 32)
    ++ leBytes 8 ((if t.kind ≤ 1 then t.word.toNat else 0) + t.n % 512 * 2 ^ 32)

/-- Bytes 64 to 127 of a record: MODE, EXEC and s58 to s63 of the trapping split. -/
def recordTail (s : State) : List Byte :=
  leBytes 8 s.p.mode.toNat ++ leBytes 8 s.p.exec.toNat
    ++ (countFrom 58 6).flatMap fun n => leBytes 8 (getS s n).toNat

/-! ### The fault queue (R345, R346) -/

/-- A queue is configured: FQLOG of 4 to 16, FQBASE 128-B aligned in the global region of NODE. -/
def queueOk (q : Partition) : Bool :=
  decide (4 ≤ q.fqlog ∧ q.fqlog ≤ 16) && q.fqbase.toNat % 128 == 0 && !isControl q.fqbase
    && nodeOf q.fqbase == q.node && regionOf (offsetOf q.fqbase) == 2

/-- Counts a record lost. -/
def loseRecord (part : Nat) (s : State) : State := mapPart part (fun q => { q with fqlost := q.fqlost + 1 }) s

/-- Writes the first 64 bytes of a record and 64 zeros into a partition's fault queue. -/
def faultQueue (part : Nat) (head : List Byte) (s : State) : State :=
  let q := partOf s part
  if !queueOk q || !decide ((q.fqtail - q.fqhead).toNat < 2 ^ q.fqlog) then loseRecord part s
  else
    let off := (offsetOf q.fqbase + 128 * (q.fqtail.toNat % 2 ^ q.fqlog)) % 2 ^ 53
    if granuleHeld s part 4095 off then loseRecord part s
    else
      match devWrite 0 part 4095 off (head ++ List.replicate 64 0) s with
      | .error _ => loseRecord part s
      | .ok s' => mapPart part (fun q => { q with fqtail := q.fqtail + 1 }) s'

end Sys2Proof.Machine
end

