-- ==== Sys2Proof/Machine/Context.lean ====
section
/-! DEFINITION. The context area of a gang (spec/08_encoding_assembly.md R181; spec/02_work_hierarchy.md R32;
spec/03_logical_time.md R67; spec/13_scheduling.md R301; spec/19_faults_execution_memory.md R375): what the device writes
there and reads back. The layout of an area is the device's own: the places and the bytes are free values (log entry 51). -/

namespace Sys2Proof.Machine

/-- Bytes of a gang's context area: 32 KiB and 192 for each entry of its store log (R181). -/
def contextSize (g : Gang) : Nat := Config.contextBytes + Config.logEntryBytes * g.logCap

/-- The pieces that bytes o to o + n − 1 of a row of extents take: offset and length of each. -/
def cutFrom : List (Nat × Nat) → Nat → Nat → List (Nat × Nat)
  | [], _, _ => []
  | (a, m) :: r, o, n =>
    if n = 0 then []
    else if m ≤ o then cutFrom r (o - m) n
    else (a + o, min n (m - o)) :: cutFrom r 0 (n - min n (m - o))

/-- Pieces cut at lines: an access is one of a line (R367). -/
def cutLines (ps : List (Nat × Nat)) : List (Nat × Nat) := ps.flatMap fun e => pieces e.1 e.2

/-- Where n bytes of a gang's context area lie. -/
def contextPlaces (g : Gang) (o n : Nat) : List (Nat × Nat) := cutLines (cutFrom g.area o n)

/-- Bytes of a gang's context area, and of all that a unit reserves: a context area for every gang, its scratchpad need and 512 KiB for
its accumulator tiles (R181, R287). -/
def gangBytes (l : Launch) : Nat := Config.contextBytes + Config.logEntryBytes * l.ctxLog
def unitBytes (l : Launch) : Nat := l.wpc * l.ngang * gangBytes l + l.wpc * l.scratch + Config.accumBytes

/-- Where n bytes of the areas of a unit lie. -/
def unitPlaces (l : Launch) (u : UnitState) (o n : Nat) : List (Nat × Nat) :=
  (cutFrom l.pool (u.slot * unitBytes l + o) n).map fun e => (poolBase l.part + e.1, e.2)

/-- The context area of gang g of workgroup j of a unit, the unit's scratchpad save areas and its accumulator save area. -/
def gangArea (l : Launch) (u : UnitState) (j g : Nat) : List (Nat × Nat) :=
  unitPlaces l u ((j * l.ngang + g) * gangBytes l) (gangBytes l)
def scratchArea (l : Launch) (u : UnitState) : List (Nat × Nat) :=
  unitPlaces l u (l.wpc * l.ngang * gangBytes l) (l.wpc * l.scratch)
def accumArea (l : Launch) (u : UnitState) : List (Nat × Nat) :=
  unitPlaces l u (l.wpc * l.ngang * gangBytes l + l.wpc * l.scratch) Config.accumBytes

/-- The n bytes of one save, which the device chooses. -/
def savedImage (id n : Nat) : List Byte := (countFrom 0 n).map (Config.contextByte id)

/-- A write of the gang at issue to its own context area, inside one line. -/
def contextReq (s : State) (off : Nat) (data : List Byte) : Req :=
  { devReq s.g.launch s.g.part s.g.asid (userVA (partOf s s.g.part).node off) data.length (.store data) with
    gang := s.g.id, gangid := gangidOf s.g, wg := s.g.wg, pc := s.p.pc, serial := s.p.serial, spill := true }

/-- It joins the queue of its granule, with a cause of its own or as a follower; without room it waits at its home (R367 to R369). -/
def contextLate (off : Nat) (data : List Byte) (cause : Option (BitVec 8)) (s : State) : State :=
  if lateRoom s (homeHc off) s.g.part then enqueueLate { lateOfReq s (contextReq s off data) cause with reqId := none } s
  else sendDev (contextReq s off data) s

/-- Spills n bytes of the gang at issue to a place inside one line of its context area: where the HC refuses them they are held with
cause 0x74, where others are held there they follow them (R368, R375). -/
def spillAt (off n : Nat) (s : State) : State :=
  let data := savedImage s.nextId n
  let s := { s with nextId := s.nextId + 1 }
  if (admits s s.g.part s.g.asid off true).isSome then contextLate off data (some 0x74) s
  else if granuleHeld s s.g.part s.g.asid off then contextLate off data none s
  else writePiece 0 s.g.part s.g.asid off data s

/-- Spills bytes o to o + n − 1 of the context area of the gang at issue. -/
def spillWrite (o n : Nat) (s : State) : State := (contextPlaces s.g o n).foldl (fun s e => spillAt e.1 e.2 s) s

/-- A write to a context area at [off, off + n) that has not performed waits at its home. -/
def contextWaits (s : State) (part asid off n : Nat) : Bool :=
  s.reqs.any fun q => (q.spill || q.gang == 0) && opWrites q.op && (match q.phase with
      | .done _ => false
      | .refused _ => false
      | _ => true)
    && q.part == part && tagAsid q.asid (offsetOf q.va) == tagAsid asid off
    && decide (offsetOf q.va < off + n ∧ off < offsetOf q.va + q.size)

/-- Bytes at some places are still held at their HC. -/
def placesHeld (s : State) (part asid : Nat) (ps : List (Nat × Nat)) : Bool :=
  ps.any fun e => heldBytes s part asid e.1 e.2 || contextWaits s part asid e.1 e.2

/-- Bytes of the context area that a spill wrote are still held at their HC. -/
def spillHeld (s : State) (g : Gang) (o n : Nat) : Bool := placesHeld s g.part g.asid (contextPlaces g o n)

/-- The home controllers refuse a read or a write of bytes at some places, granule by granule. -/
def placesRefused (s : State) (part asid : Nat) (w : Bool) (ps : List (Nat × Nat)) : Bool :=
  ps.any fun e => (countFrom (e.1 / 65536) ((e.1 + e.2 - 1) / 65536 - e.1 / 65536 + 1)).any fun i =>
    (admits s part asid (max e.1 (i * 65536)) w).isSome

/-- A refill from the context area is refused. -/
def refillRefused (s : State) (g : Gang) (o n : Nat) : Bool := placesRefused s g.part g.asid false (contextPlaces g o n)

/-! ### Pre-emption saves (R296, R301) -/

/-- Saves bytes that the device chooses at some places, line by line; those of a held granule follow the entries there and stand for no
gang (R368). -/
def saveTo (part asid : Nat) (ps : List (Nat × Nat)) (s : State) : State :=
  (cutLines ps).foldl (fun s e =>
    let data := savedImage s.nextId e.2
    devStore part asid (userVA (partOf s part).node e.1) (.store data) data { s with nextId := s.nextId + 1 }) s

/-- The unit of a launch with an index. -/
def unitOf (l : Launch) (i : Nat) : Option UnitState := findFirst (fun u => u.idx == i) l.units

/-- The accumulator tiles of a unit are written to its accumulator save area. -/
def saveAccum (launch i : Nat) (s : State) : State :=
  let l := launchOf s launch
  match unitOf l i with
  | some u => saveTo l.part l.asid (accumArea l u) s
  | none => s

/-! ### The return stack (R32) -/

/-- Where entry i of a return stack, counted from the oldest, spills: past the record slot, 8 B aligned. -/
def returnSlot (i : Nat) (entry : Word) : Nat := 128 + Config.returnPlace i entry % ((Config.contextBytes - 128) / 8) * 8

/-- A call pushes its return address; the oldest of the entries on chip leaves a full return stack for the context area. -/
def pushReturn (ra : Word) (s : State) : State :=
  let d := s.p.rstack.length
  let s' := if d < Config.returnOnChip then s
    else spillWrite (returnSlot (d - Config.returnOnChip) (getAt 0 s.p.rstack (Config.returnOnChip - 1))) 8 s
  { s' with p := { s'.p with rstack := ra :: s'.p.rstack } }

/-- The place of the entry that comes back on chip as one is popped, if one does. -/
def refillSlot (q : Split) : Option Nat :=
  if q.rstack.length ≤ Config.returnOnChip then none
  else some (returnSlot (q.rstack.length - 1 - Config.returnOnChip) (getAt 0 q.rstack Config.returnOnChip))

/-- The entry that the split at issue needs back is still held. -/
def refillHeld (s : State) : Bool := (refillSlot s.p).any fun o => spillHeld s s.g o 8

/-- The entry that the split at issue needs back is refused: it is lost. -/
def refillLost (s : State) : Bool := (refillSlot s.p).any fun o => refillRefused s s.g o 8

/-! ### The store log (R67) -/

/-- Where slot j of the store log lies. -/
def logSlot (j : Nat) : Nat := Config.contextBytes + Config.logEntryBytes * j

/-- Entries of a Cuff buffer that are on chip. -/
def onChip (c : List CuffEntry) : List CuffEntry := c.filter fun e => e.log.isNone

/-- The lowest slot of the store log that no entry takes. -/
def freeLogSlot (g : Gang) : Nat :=
  (findFirst (fun j => !g.cuff.any fun e => decide (e.log = some j)) (countFrom 0 g.logCap)).getD 0

/-- A Cuff buffer that holds more than 64 entries on chip spills the one with the lowest store key to the log. -/
def spillLog (s : State) : State :=
  if (onChip s.g.cuff).length ≤ Config.cuffEntries then s
  else
    match leastBy (fun a b => keyLt a.key b.key || (decide (a.key = b.key) && decide (a.order < b.order))) (onChip s.g.cuff) with
    | none => s
    | some e =>
      let j := freeLogSlot s.g
      spillWrite (logSlot j) Config.logEntryBytes { s with
        g := { s.g with cuff := updateWhere (fun x => x.order == e.order) (fun x => { x with log := some j }) s.g.cuff } }

/-- Spills until 64 entries are on chip. -/
def spillOver (s : State) : State :=
  (List.range ((onChip s.g.cuff).length - Config.cuffEntries)).foldl (fun s _ => spillLog s) s

/-- Entries of the store log that a gang needs back and that are still held, or are lost. -/
def logHeld (s : State) (g : Gang) (c : List CuffEntry) : Bool :=
  c.any fun e => e.log.any fun j => spillHeld s g (logSlot j) Config.logEntryBytes
def logLost (s : State) (g : Gang) (c : List CuffEntry) : Bool :=
  c.any fun e => e.log.any fun j => refillRefused s g (logSlot j) Config.logEntryBytes

end Sys2Proof.Machine
end

