-- ==== Sys2Proof/Machine/Region.lean ====
section
/-! DEFINITION. Regions, splits and loops (spec/02_work_hierarchy.md R28 to R43; spec/09_isa_scalar_control.md R202 to R206):
opening, committing and discarding a region, what happens to its stores, dividing a split, rotating slices, joining
splits, and the back edges of loops. -/

namespace Sys2Proof.Machine

/-! ### Accesses in flight -/

/-- A request of the split at issue, numbered by nextId, its attribution as the split stands. -/
def mkReq (s : State) (lane : Nat) (va : Word) (size : Nat) (op : AccessOp) (dest : Dest) (word : BitVec 32) : Req where
  id := s.nextId
  gang := s.g.id
  launch := s.g.launch
  part := s.g.part
  asid := s.g.asid
  core := s.g.core
  lanes := s.p.members
  lane := lane
  cls := 0
  va := va
  size := size
  op := op
  dest := dest
  gangid := gangidOf s.g
  wg := s.g.wg
  fwd := []
  acquire := false
  drops := false
  priv := isPriv s
  pc := s.p.pc
  word := word
  serial := s.p.serial
  clock := s.p.clock
  key := none
  view := none
  after := s.p.after
  sx := false
  nt := false
  spill := false
  phase := .sent

/-- Sends a request. -/
def sendReq (q : Req) (s : State) : State :=
  { s with reqs := s.reqs ++ [{ q with id := s.nextId }], nextId := s.nextId + 1 }

/-- Sends a write: the bytes that a store writes are pending in its own core's L1 copy until the acknowledgement (R111). -/
def sendWrite (q : Req) (s : State) : State :=
  let r := lineRef q.part q.asid (offsetOf q.va)
  sendReq q { s with
    l1 := match q.op with
      | .store d => updateWhere (fun c => c.core == q.core && c.ref == r)
          (fun c => { c with pending := sortNub (countFrom (offsetOf q.va % 128) d.length ++ c.pending) }) s.l1
      | _ => s.l1 }

/-- Updates the request with a number. -/
def mapReq (id : Nat) (f : Req → Req) (s : State) : State :=
  { s with reqs := updateWhere (fun q => q.id == id) f s.reqs }

/-- Removes the request with a number. -/
def dropReq (id : Nat) (s : State) : State := { s with reqs := s.reqs.filter fun q => q.id != id }

/-! ### The Cuff buffer (R64) -/

/-- The most recently made entry of a line. -/
def lastOfLine (line : Nat) (c : List CuffEntry) : Option CuffEntry :=
  leastBy (fun a b => decide (b.order < a.order)) (c.filter fun e => e.line == line)

/-- Adds a store to a Cuff buffer: merged into the latest entry of its line made before it where the writer mask is the same
and no entry of another mask has been made in between, else an entry of its own. `between` numbers the stores of other masks
to the line that open regions hold. An entry that takes in a store is on chip. -/
def cuffAdd (between : List Nat) (e : CuffEntry) (c : List CuffEntry) : List CuffEntry :=
  match lastOfLine e.line (c.filter fun x => decide (x.order < e.order)) with
  | some o =>
    if decide (o.lanes = e.lanes) && !between.any fun k => decide (o.order < k ∧ k < e.order) then
      updateWhere (fun x => x.order == o.order)
        (fun x => { x with data := mapInsertAll x.data e.data, key := e.key, pc := e.pc, serial := e.serial, log := none }) c
    else c ++ [e]
  | none => c ++ [e]
where
  mapInsertAll (m : SMap Byte) : SMap Byte → SMap Byte
    | [] => m
    | (k, v) :: r => mapInsertAll (mapInsert m k v) r

/-- The Cuff entry a buffered store of the split at issue makes: its key is that of the split when the store retired. -/
def cuffEntryOf (s : State) (b : BufStore) (data : List Byte) (line : Nat) : CuffEntry where
  line := line
  data := bytesInLine (offsetOf b.va) line data
  key := key3 b.clock.toNat (gangIndex (curLaunch s) s.g) (lowest s.p.members)
  lanes := s.p.members
  pc := b.pc
  serial := b.serial
  order := b.order
  log := none

/-- A buffered store to a line of device memory. -/
def storesLine (line : Nat) (b : BufStore) : Bool :=
  match b.tile, b.op with
  | none, .store _ => (linesOf (offsetOf b.va) b.size).contains line
  | _, _ => false

/-- The stores to a line that the open regions of splits with other lanes hold. -/
def othersOn (s : State) (line : Nat) : List Nat :=
  (s.g.splits.filter fun q => decide (q.members ≠ s.p.members)).flatMap fun q =>
    (q.buffer.filter (storesLine line)).map fun b => b.order

/-! ### Stores leave with their region (R41) -/

/-- Writes bytes into a tile of the split's workgroup. -/
def writeTile (launch wg h off : Nat) (data : List Byte) (s : State) : State :=
  { s with
    tiles := updateWhere (fun t => t.launch == launch && t.wg == wg && t.h == h)
      (fun t => { t with data := memWrite t.data off data }) s.tiles }

/-- PEER and CLS of a copy to or from a peer (R268). -/
def peerOf (d : List Word) : Nat := (getAt 0 d 5).toNat % 1024
def classOf (d : List Word) : Nat := bits (getAt 0 d 5).toNat 18 2

/-- DIR of a copy to or from a peer: its source is there (R268). -/
def pulls (d : List Word) : Bool := (getAt 0 d 5).toNat.testBit 17

/-- The remote access that a copy to or from a peer counts as has ended: every write of a push is acknowledged, every read of a pull has
returned its value (R268). -/
def copyEnded (c : Cmd) : Bool :=
  let w := (getAt 0 c.desc 2).toNat
  let runs := (bits w 32 16 + 1) * (bits w 16 16 + 1)
  decide (c.phase = .finished) || (pulls c.desc && decide (runs ≤ c.progress + bit c.data.isSome))

/-- A copy of class O of a gang to or from a node that was issued before number `upto` and has not ended: it is a remote access of
its class (R83, R92, R268). -/
def copyPending (s : State) (gang node upto : Nat) : Bool :=
  s.cmds.any fun c => decide (c.op = .cpx) && c.gang == gang && peerOf c.desc == node && classOf c.desc == 1
    && decide (c.id < upto) && !copyEnded c

/-- An unanswered class O request, behind which the later ones of its gang to its node wait: they leave one by one, so that they
perform in the order of issue whatever is refused (R92, R133; log entry 64). -/
def holdsBack (gang node : Nat) (r : RemoteReq) : Bool :=
  r.gang == gang && r.node == node && r.cls == 1 && r.cmd.isNone && decide (r.rest ≠ 0)

/-- The fabric ports in service (R19, R22). -/
def portsUp (s : State) : List Nat := (countFrom 0 Config.fabricPorts).filter fun p =>
  !s.fportOut.getLsbD p && !(s.bridgeOut && decide (Config.fabricPorts / 2 ≤ p))

/-- The ports toward a member: those of its trunk in a direct mesh, every port where the domain is switched; of those, the ones in
service. -/
def portsTo (s : State) (q : Partition) (node : Nat) : List Nat :=
  if q.mesh then (mapGet [] q.trunks node).filter fun p => (portsUp s).contains p else portsUp s

/-- The members of a domain that may forward a request: neither its source nor its destination. -/
def between (q : Partition) (node : Nat) : List Nat := q.members.filter fun m => m != q.node && m != node

/-- One port toward a device. -/
def portTo (s : State) (q : Partition) (node pick : Nat) : Nat := getAt 0 (portsTo s q node) (pick % (portsTo s q node).length)

/-- The path of request n (R139): class O by a fixed port toward its node; class A by any port of the trunk or over any other
device, or by any plane; class V over a member drawn at random, in a domain of two devices as class A. -/
def pathFor (s : State) (q : Partition) (n node : Nat) (cls : BitVec 2) : FabricPath :=
  let others := between q node
  let direct : FabricPath := { port := portTo s q node (Config.hopPort n), via := none }
  let hop (i : Nat) : FabricPath :=
    let m := getAt 0 others i
    { port := portTo s q m (Config.hopPort n), via := some m }
  if cls = 1 then { port := portTo s q node (Config.orderedPort node), via := none }
  else if cls = 3 ∧ others ≠ [] then hop (Config.route n % others.length)
  else if q.mesh ∧ Config.route n % (others.length + 1) ≠ 0 then hop (Config.route n % (others.length + 1) - 1)
  else direct

/-- The message of a remote request: its domain, source node and domain rank, and its path (R138, R139). -/
def remoteMsg (s : State) (q : RemoteReq) : Msg :=
  let p := partOf s q.part
  .fabricRequest q.id q.node q.cls (pathFor s p q.id q.node q.cls) { domain := p.domain, node := p.node, rank := p.drank } q.refusals
    q.ops

/-- Bytes that an operation carries to its target. -/
def opPayload : FabricOp → Nat
  | .store d => d.length
  | .atomic _ _ _ _ v w => v.length + w.length
  | .reduce _ _ _ _ v => v.length
  | .publication _ d => d.length
  | .atomicAt _ _ _ _ _ v w => v.length + w.length
  | .input _ d => d.length
  | _ => 0

/-- Bytes that a remote request carries. -/
def sentBytes (q : RemoteReq) : Nat := q.ops.foldl (fun n e => n + opPayload e.2.2) 0

/-- A remote request leaves; what it carries is counted by event 0x031 (R331; log entry 110). -/
def depart (q : RemoteReq) (s : State) : State :=
  let t := { s with outbox := s.outbox ++ [remoteMsg s q] }
  if sentBytes q = 0 then t else countEvent q.launch 0x031 (sentBytes q) t

/-- A remote request of the split at issue (R143). -/
def mkRemote (s : State) (node : Nat) (cls : BitVec 2) (word : BitVec 32) : RemoteReq where
  id := s.nextId
  gang := s.g.id
  launch := s.g.launch
  part := s.g.part
  core := s.g.core
  node := node
  cls := cls
  lanes := s.p.members
  rest := 0
  pc := s.p.pc
  word := word
  serial := s.p.serial
  clock := s.p.clock
  va := 0
  size := 0
  ops := []
  dest := []
  group := s.nextId
  dropped := []
  cmd := none
  refusals := 0
  waiting := false
  heldBack := false
  saved := false
  key := none
  view := none
  sx := false
  fault := none
  failed := 0
  answer := none
  got := 0

/-- Sends a remote request, unless an earlier one holds it back or it waits for its view. -/
def sendRemote (q : RemoteReq) (s : State) : State :=
  let back := q.cls == 1 && q.cmd.isNone
    && (s.remotes.any (holdsBack q.gang q.node) || copyPending s q.gang q.node s.nextId)
  let q := { q with id := s.nextId, heldBack := back }
  let t := { s with remotes := s.remotes ++ [q], nextId := s.nextId + 1 }
  if back || q.view.isSome then t else depart q t

/-- The part of a replay that goes to one line. -/
def lineRequest (q : RemoteReq) (line : Nat) : RemoteReq :=
  let ops := q.ops.filter fun e => lineOf e.2.1 == line
  let m := maskOf (ops.map fun e => e.1)
  { q with
    ops := ops, rest := m, dest := q.dest.filter fun e => lane m e.1
    va := (ops.head?.map fun e => e.2.1).getD q.va }

/-- Sends the replay of an instruction for one node: a request for each line, whose answers are its own (R144). `mark` marks
the destinations of a request as it leaves. -/
def sendReplay (mark : RemoteReq → State → State) (q : RemoteReq) (s : State) : State :=
  let g := s.nextId
  (sortNub (q.ops.map fun e => lineOf e.2.1)).foldl (fun s line =>
    let r := { lineRequest q line with group := g, id := s.nextId }
    sendRemote r (mark r s)) s

/-- One buffered store of a committed region leaves: a scratchpad store performs; in a deterministic launch a store to
device memory enters the Cuff buffer, a reduction becomes a keyed update (R72) and a discard waits for the launch to
retire (R243); every other store is sent to its home (R98, R240). -/
def releaseStore (b : BufStore) (s : State) : State :=
  match b.tile with
  | some h =>
    match b.op with
    | .store d => writeTile s.g.launch s.g.wg h b.va.toNat d s
    | _ => s
  | none =>
    let req (s : State) : Req :=
      { mkReq s b.lane b.va b.size b.op .none b.word with pc := b.pc, clock := b.clock, serial := b.serial, cls := b.cls }
    let send (s : State) : State := sendWrite (req s) s
    if detNow s && decide (regionOf (offsetOf b.va) ≠ 3) && !isControl b.va then
      match b.op with
      | .store d =>
        (linesOf (offsetOf b.va) b.size).foldl (fun s line =>
          { s with g := { s.g with cuff := cuffAdd (othersOn s line) (cuffEntryOf s b d line) s.g.cuff } }) s
      | .reduce n ty rm fz v =>
        { s with
          updates := s.updates ++ [{
            id := s.nextId, launch := s.g.launch, part := s.g.part, asid := s.g.asid, gang := s.g.id, core := s.g.core
            key := key3 b.clock.toNat (gangIndex (curLaunch s) s.g) (lowest s.p.members)
            lane := b.lane, va := b.va, n := n, ty := ty, rm := rm, fz := fz, v := v
            pc := b.pc, serial := b.serial, lanes := s.p.members, refused := false, stalled := false }]
          nextId := s.nextId + 1 }
      | .discard => mapLaunch s.g.launch (fun l => { l with discards := l.discards ++ [req s] }) s
      | _ => send s
    else send s

/-- A store to a peer (R255). -/
def isFar (own : Nat) (b : BufStore) : Bool := b.tile.isNone && b.cls != 0 && nodeOf b.va != own

/-- Two stores that one instruction makes at one node. -/
def sameReplay (a b : BufStore) : Bool :=
  a.pc == b.pc && a.clock == b.clock && a.serial == b.serial && a.cls == b.cls && nodeOf a.va == nodeOf b.va

/-- Puts the stores that one instruction makes at one peer together, in order: its replay for that node (R143). -/
def groupFar (own : Nat) : List BufStore → List (List BufStore)
  | [] => []
  | b :: r =>
    match groupFar own r with
    | (c :: g) :: gs => if isFar own b && isFar own c && sameReplay b c then (b :: c :: g) :: gs else [b] :: (c :: g) :: gs
    | gs => [b] :: gs

/-- The request that carries an instruction's stores to a peer. -/
def releaseFar (b : BufStore) (l : List BufStore) (s : State) : State :=
  let op (x : BufStore) : FabricOp := match x.op with
    | .store d => .store d
    | _ => .store []
  sendReplay (fun _ s => s) { mkRemote s (nodeOf b.va) b.cls b.word with
    pc := b.pc, clock := b.clock, serial := b.serial, va := b.va, size := b.size
    ops := l.map fun x => (x.lane, x.va, op x) } s

/-- Releases a store, or the stores of one replay. -/
def releaseGroup (l : List BufStore) (s : State) : State :=
  match l with
  | [] => s
  | b :: _ => if isFar (partOf s s.g.part).node b then releaseFar b l s else releaseStore b s

/-- Releases the stores of a buffer in order. -/
def releaseAll (l : List BufStore) (s : State) : State :=
  (groupFar (partOf s s.g.part).node l).foldl (fun s g => releaseGroup g s) s

/-- The stores of the open region of the split at issue leave; no region is open. -/
def releaseRegion (s : State) : State :=
  releaseAll s.p.buffer
    { s with p := { s.p with buffer := [], entry := none, fresh := false, liveIn := [], written := [] } }

/-- Commits the open region of the split at issue (R39); Cuff entries for which there is no room on chip spill to the store log
(R67). -/
def commitRegion (s : State) : State := spillOver (releaseRegion s)

/-- What a region records at its entry. -/
def entryOf (g : Gang) (q : Split) (pc : Word) (nextId : Nat) : Entry where
  pc := pc
  firstReq := nextId
  rstack := q.rstack
  lr0 := q.lr0
  lr1 := q.lr1
  lrLater := q.lrLater
  lc0 := q.lc0
  lc1 := q.lc1
  sregs := q.sregs
  sstate := q.sstate
  wins := q.wins
  mode := q.mode
  exec := q.exec
  clock := q.clock
  fstat := q.fstat
  lastTurn := q.lastTurn
  vregs := g.vregs
  vstate := g.vstate
  preds := g.preds

/-- Opens a region of a split of a gang at its pc: the serial advances by 1 (R39). A split in its handler has no regions
(R337), one without members no more. -/
def openOn (nextId : Nat) (g : Gang) (q : Split) : Gang × Split :=
  if q.status.getLsbD 0 || q.members == 0 then (g, q)
  else
    let ser := g.serial + 1
    ({ g with serial := ser },
     { q with entry := some (entryOf g q q.pc nextId), fresh := true, serial := ser, liveIn := [], written := [] })

/-- The split has arrived at a barrier and waits for it: it holds no open region (R251). -/
def atBarrier (q : Split) : Bool :=
  match q.wait with
  | .barrier _ _ => true
  | _ => false

/-- The opening that a rotation makes of the path that becomes running and of the split that is left (R33, R39). At a barrier
only the serial advances: its region opens when the barrier completes (R251). -/
def reopenOn (nextId : Nat) (g : Gang) (q : Split) : Gang × Split :=
  if atBarrier q && !(q.status.getLsbD 0 || q.members == 0) then
    ({ g with serial := g.serial + 1 }, { q with serial := g.serial + 1 })
  else openOn nextId g q

/-- Opens the region of a path that a rotation had parked, where it comes to run in another way (R33). -/
def reopenIdle (nextId : Nat) (g : Gang) (q : Split) : Gang × Split :=
  if q.entry.isNone then reopenOn nextId g q else (g, q)

/-- Opens a region of the split at issue at its pc, committing the one before. -/
def openRegion (s : State) : State :=
  let s := commitRegion s
  let (g, q) := openOn s.nextId s.g s.p
  { s with g := g, p := q }

/-! ### Live-in and written bits (R40) -/

/-- Numbers of `l` that are not in `m`, without repeats. -/
def addNew (l m : List Nat) : List Nat := (sortNub l).filter (fun c => !m.contains c) ++ m

/-- Records the reads and then the writes of an instruction. -/
def track (rd wr : List Nat) (s : State) : State :=
  if s.p.entry.isNone then s
  else
    let li := addNew (rd.filter fun c => !s.p.written.contains c) s.p.liveIn
    { s with p := { s.p with liveIn := li, written := addNew wr s.p.written } }

/-- The instruction would write a register whose live-in bit is set. -/
def writesLiveIn (wr : List Nat) (s : State) : Bool := wr.any fun c => s.p.liveIn.contains c

/-! ### Discard (R43, R104) -/

/-- Entries of a lane table whose lane is in a mask, taken from another table. -/
def restoreLanes {β : Type} [DecidableEq β] (d : β) (m : BitVec 64) (old now : SMap β) : SMap β :=
  mapSetAll d (now.filter fun e => !lane m (e.1 % 64)) (old.filter fun e => lane m (e.1 % 64))

/-- Discards the open region of the split at issue: everything it records returns to its value at entry, its stores vanish
and its pending results are cancelled. -/
def discardRegion (s : State) : State :=
  match s.p.entry with
  | none => s
  | some e =>
    { s with
      p := { s.p with
        pc := e.pc, rstack := e.rstack, lr0 := e.lr0, lr1 := e.lr1, lrLater := e.lrLater, lc0 := e.lc0, lc1 := e.lc1
        sregs := e.sregs, sstate := e.sstate, wins := e.wins, mode := e.mode, exec := e.exec, clock := e.clock
        fstat := e.fstat, lastTurn := e.lastTurn, fresh := true, liveIn := [], written := [], buffer := [], wait := .none }
      g := { s.g with
        vregs := restoreLanes 0 s.p.members e.vregs s.g.vregs
        vstate := restoreLanes .full s.p.members e.vstate s.g.vstate
        preds := restoreLanes false s.p.members e.preds s.g.preds }
      reqs := s.reqs.filter fun q => !(q.gang == s.g.id && q.lanes == s.p.members && decide (e.firstReq ≤ q.id)
        && decide (q.dest ≠ Dest.none))
      remotes := s.remotes.filter fun q => !(q.gang == s.g.id && q.lanes == s.p.members && decide (e.firstReq ≤ q.id)
        && decide (q.dest ≠ [])) }

/-! ### Loops (R202 to R206) -/

/-- A record has its back edge at the instruction of a split that would fall through to `next`. -/
def atBackEdge (q : Split) (next : Word) : Option LoopRec → Bool
  | none => false
  | some r => decide (r.stop = next) && decide (r.depth = q.rstack.length)

/-- A taken transfer makes idle the active records at the current depth whose body excludes the target; an inner record
goes with an outer one only where its own body excludes the target (R206). -/
def leaveLoops (target : Word) (q : Split) : Split :=
  let out (r : LoopRec) : Bool :=
    decide (r.depth = q.rstack.length) && !(decide (r.start.toNat ≤ target.toNat) && decide (target.toNat < r.stop.toNat))
  let drop : Option LoopRec → Option LoopRec
    | none => none
    | some r => if out r then none else some r
  { q with lr0 := drop q.lr0, lr1 := drop q.lr1 }

/-- The outcome of the back edges of one instruction: the split, how many were evaluated and on which counters, whether one
repeats, and whether a back edge wrote a live-in counter, so that a region ends with it. -/
structure BackEdges where
  split : Split
  count : Nat
  codes : List Nat
  repeats : Bool
  boundary : Bool
  deriving DecidableEq, Repr

/-- Evaluates the back edge of counter 0 or 1 of a split. One that repeats is a taken transfer to the start of its body, and leaves
a record whose body excludes that (R205, R206). -/
def backEdge (one : Bool) (b : BackEdges) : BackEdges :=
  let q := b.split
  let code := codeLc (bit one)
  let lc := if one then q.lc1 else q.lc0
  let rec' := if one then q.lr1 else q.lr0
  let exit := decide (lc.toNat ≤ 1)
  let lc' : BitVec 32 := if exit then 0 else lc - 1
  let lr' := if exit then none else rec'
  let q := if one then { q with lc1 := lc', lr1 := lr' } else { q with lc0 := lc', lr0 := lr' }
  let start := match rec' with
    | some r => r.start
    | none => q.pc
  { split := if exit then q else { leaveLoops start q with pc := start }
    count := b.count + 1
    codes := code :: b.codes
    repeats := !exit
    boundary := b.boundary || b.split.liveIn.contains code }

/-- Evaluates the back edges of the instruction before `next`, the inner record first; the outer one only where the inner
exits. The split's pc is `next` where none repeats. -/
def backEdges (q : Split) (next : Word) : BackEdges :=
  let b0 : BackEdges := { split := { q with pc := next }, count := 0, codes := [], repeats := false, boundary := false }
  let e0 := atBackEdge q next q.lr0
  let e1 := atBackEdge q next q.lr1
  match e0, e1 with
  | false, false => b0
  | true, false => backEdge false b0
  | false, true => backEdge true b0
  | true, true =>
    let b := backEdge q.lrLater b0
    if b.repeats then b else backEdge (!q.lrLater) b

/-- A return to a depth below that of a record makes it idle (R206). -/
def returnLoops (q : Split) : Split :=
  let drop : Option LoopRec → Option LoopRec
    | none => none
    | some r => if q.rstack.length < r.depth then none else some r
  { q with lr0 := drop q.lr0, lr1 := drop q.lr1 }

/-! ### Parts of a split -/

/-- The part of a split with some of its lanes (R28): a copy of everything, EXEC narrowed to the lanes (R29). -/
def partSplit (q : Split) (m : BitVec 64) : Split := { q with members := m, exec := q.exec &&& m }

/-- The slices of a gang that a mask touches. -/
def slicesOf (m : BitVec 64) : List Nat := (countFrom 0 8).filter fun j => m &&& sliceMask j != 0

/-- The stack of parked paths of a slice, top first. -/
def stackOf (g : Gang) (j : Nat) : List Split := mapGet [] g.parked j

def setStack (j : Nat) (l : List Split) (g : Gang) : Gang := { g with parked := mapSet [] g.parked j l }

/-- The lanes of a split on slices that it has. -/
def Split.held (q : Split) : BitVec 64 := q.members &&& ~~~ q.away

/-- The split has presented a turn that has not retired: it waits for its admission, or for the answers of a peer. -/
def midTurn (q : Split) : Bool :=
  match q.wait with
  | .turn _ _ => true
  | .remote _ => true
  | _ => false

/-- The mark that keeps the place of some lanes of a split in the stack of their slice: it has no lanes itself. -/
def markOf (m : BitVec 64) : Split := { Split.vacant with exec := m }

/-- An entry of a stack is a mark of a split with the given lanes. -/
def marks (e : Split) (m : BitVec 64) : Bool := e.members == 0 && e.exec &&& m != 0

/-- The marks of some lanes leave the stack of slice j. -/
def dropMark (m : BitVec 64) (j : Nat) (g : Gang) : Gang := setStack j ((stackOf g j).filter fun e => !marks e m) g

/-- A turn is admitted against the bounds of its workgroup alone (R61). -/
def tileTurn : Instr → Bool
  | .tileOwn _ => true
  | .tileSeal _ => true
  | .tileFree _ => true
  | _ => false

/-- A path has to run before a turn with key k is admitted: its bound lies below. -/
def holdsTurn (s : State) (k : Key) (i : Instr) (q : Split) : Bool :=
  q.members != 0 && keyLt (if tileTurn i then tileBound s (curLaunch s) s.g q else boundIn s (curLaunch s) s.g q) k

/-- A mark is passed over while its split waits for a turn before which another path of its stack has to run: this path runs, and the
mark goes to the bottom (log entry 9). -/
def passedOver (s : State) (l : List Split) (e : Split) : Bool :=
  e.members == 0 && s.g.splits.any fun q => marks e q.members && (match q.wait with
    | .turn k i => l.any (holdsTurn s k i)
    | _ => false)

/-- The entry of a stack that comes to run, and the stack without it. -/
def nextPath (s : State) (l : List Split) : Option (Split × List Split) := go l []
where
  go : List Split → List Split → Option (Split × List Split)
    | [], _ => none
    | e :: r, past => if passedOver s l e then go r (past ++ [e]) else some (e, r ++ past)

/-- The lanes that run on the slices of a gang, those of `p` included. -/
def runningMask (p : Split) : List Split → BitVec 64
  | [] => p.held
  | q :: r => q.held ||| runningMask p r

/-- A split whose mark comes to run has its lanes of slice j again. -/
def giveBack (e : Split) (j : Nat) (s : State) : State :=
  let back (x : Split) : Split := if marks e x.members then { x with away := x.away &&& ~~~ sliceMask j } else x
  { s with p := back s.p, g := { s.g with splits := s.g.splits.map back } }

/-- The next path of slice j runs (R31): where it is no mark, its region opens as `reopen` says. -/
def wakeWith (reopen : Nat → Gang → Split → Gang × Split) (j : Nat) (s : State) : State :=
  match nextPath s (stackOf s.g j) with
  | none => s
  | some (e, rest) =>
    let s := { s with g := setStack j rest s.g }
    if e.members = 0 then giveBack e j s
    else
      let (g, q) := reopen s.nextId s.g e
      { s with g := { g with splits := g.splits ++ [q] } }

/-- Each slice on which nothing runs takes the next path of its stack; one that was parked by a rotation opens its region (R31, R33). -/
def refill : List Nat → State → State
  | [], s => s
  | j :: r, s => refill r (if runningMask s.p s.g.splits &&& sliceMask j = 0 then wakeWith reopenIdle j s else s)

/-- All eight slices. -/
def allSlices : List Nat := countFrom 0 8

/-! ### Rotation (R33) -/

/-- The slices of the split at issue for which another path waits. -/
def rotatable (s : State) : List Nat := (slicesOf s.p.held).filter fun j => !(stackOf s.g j).isEmpty

/-- The part of a split on some lanes as a rotation places it: its committed state, no region (R33). -/
def restingPart (q : Split) (m : BitVec 64) : Split :=
  { partSplit q m with entry := none, fresh := false, liveIn := [], written := [], away := 0, parted := 0 }

/-- Parks the split's lanes of slice j at the bottom of its stack. -/
def parkSlice (j : Nat) (s : State) : State :=
  let q := restingPart s.p (s.p.members &&& sliceMask j)
  { s with
    p := partSplit s.p (s.p.members &&& ~~~ sliceMask j)
    g := setStack j (stackOf s.g j ++ [q]) s.g }

/-- The next path of slice j runs and opens its region (R33). -/
def wakeSlice (j : Nat) (s : State) : State := wakeWith reopenOn j s

/-- Rotates slices of the split at issue on which a path is parked: the split left on its other slices opens a region, and so does
each path that becomes running (R33). -/
def rotateOn (js : List Nat) (s : State) : State :=
  let s := commitRegion s
  let s := { s with p := { s.p with after := s.nextId } }
  let s := js.foldl (fun s j => parkSlice j s) s
  let (g, q) := reopenOn s.nextId s.g s.p
  js.foldl (fun s j => wakeSlice j s) { s with g := g, p := q }

/-- Rotates every slice of the split at issue. With no path parked nothing happens; in a handler the other paths are
stopped and no slice rotates (R335; log entry 20). The parts open their regions in the order of log entry 73. -/
def rotate (s : State) : State :=
  let js := rotatable s
  if js.isEmpty || isPriv s then s else rotateOn js s

/-! ### A turn that waits (R33, R35, R42; log entry 9) -/

/-- Lanes of some slices. -/
def lanesOn (js : List Nat) (m : BitVec 64) : BitVec 64 := m &&& js.foldl (fun k j => k ||| sliceMask j) 0

/-- The turn of the split at issue rotates its slices as it is presented: a mark at the bottom of each stack keeps the place of its
lanes, and the next path runs. The split stays one until its turn has retired, because it presents one turn and performs it once,
and because its parts have the clock after it (R35, R42). -/
def lendSlices (s : State) : State :=
  let js := rotatable s
  if js.isEmpty || isPriv s then s
  else
    let m := lanesOn js s.p.members
    let s := { s with p := { s.p with away := s.p.away ||| m, parted := s.p.parted ||| m } }
    let put (s : State) (j : Nat) : State :=
      { s with g := setStack j (stackOf s.g j ++ [markOf (s.p.members &&& sliceMask j)]) s.g }
    js.foldl (fun s j => wakeSlice j s) (js.foldl put s)

/-- Slice j is taken from the split that runs there: its mark lies on top of the stack. -/
def takeSlice (j : Nat) (g : Gang) : Gang :=
  match findFirst (fun q => q.held &&& sliceMask j != 0) g.splits with
  | none => g
  | some q =>
    let lose (x : Split) : Split := { x with away := x.away ||| (x.members &&& sliceMask j) }
    setStack j (markOf (q.members &&& sliceMask j) :: stackOf g j)
      { g with splits := updateWhere (fun x => lowest x.members == lowest q.members) lose g.splits }

/-- A split with the given lanes has the slices of `js` again, whoever runs there. -/
def reclaimSlices (m : BitVec 64) (js : List Nat) (g : Gang) : Gang := js.foldl (fun g j => takeSlice j (dropMark m j g)) g

/-- The split at issue has every slice of its lanes again: it enters its handler, in which the other splits of its gang stand still (R335;
log entry 96). -/
def reclaim (s : State) : State :=
  { s with
    p := { s.p with away := 0, parted := 0 }
    g := reclaimSlices s.p.members (slicesOf (s.p.members &&& s.p.away)) s.g }

/-- The lanes of slice j leave the split at issue: to the place of their mark, or to run on where the slice has come back to them (R33). -/
def partSlice (j : Nat) (s : State) : State :=
  let m := s.p.members &&& sliceMask j
  let part := restingPart s.p m
  let p := partSplit s.p (s.p.members &&& ~~~ sliceMask j)
  if s.p.away &&& sliceMask j = 0 then
    let (g, q) := reopenOn s.nextId s.g part
    { s with p := p, g := { g with splits := g.splits ++ [q] } }
  else { s with p := p, g := setStack j ((stackOf s.g j).map fun e => if marks e m then part else e) s.g }

/-- The turn of the split at issue has retired: the lanes of the slices that rotated at its issue leave it, with the clock after it (R33,
R35). -/
def comeBack (s : State) : State :=
  let js := slicesOf (s.p.members &&& s.p.parted)
  if js.isEmpty then s
  else
    let s := commitRegion s
    let s := js.foldl (fun s j => partSlice j s) { s with p := { s.p with after := s.nextId } }
    let (g, q) := reopenOn s.nextId s.g { s.p with parted := 0, away := s.p.away &&& s.p.members }
    { s with g := g, p := q }

/-! ### Division (R30, R31, R35) -/

/-- The paths of one slice: its lanes by next pc, lowest pc first. -/
def pathsOf (choice : List (Nat × Word)) (j : Nat) : List (Word × BitVec 64) :=
  let here := choice.filter fun e => e.1 / 8 == j
  (sortNub (here.map fun e => e.2.toNat)).map fun t =>
    (BitVec.ofNat 64 t, maskOf ((here.filter fun e => e.2.toNat == t).map fun e => e.1))

/-- A child that goes to `target` of an instruction that divides by `vbr` or `ret va`. A child of a `vbr` that goes to PC + 4 evaluates
its back edges, although the rule that orders the paths takes it to go to PC + 4 (R31, R205; log entry 74); a return leaves the
loop records as they are, and has no back edge at any depth but its own (R206). -/
def childOf (s : State) (branch : Bool) (m : BitVec 64) (target : Word) : Split :=
  let q := { partSplit s.p m with entry := none, fresh := false, liveIn := [], written := [] }
  let next := s.p.pc + 4
  if !branch then { q with pc := target }
  else if target = next then
    let b := backEdges q next
    { b.split with clock := if isPriv s then b.split.clock else b.split.clock + BitVec.ofNat 64 b.count }
  else { leaveLoops target q with pc := target }

/-- Adds a child to the gang, running or parked on slice j behind the children already placed, with its region open. -/
def addRunning (q : Split) (s : State) : State :=
  let (g, q) := openOn s.nextId s.g q
  { s with g := { g with splits := g.splits ++ [q] } }

/-- Parks the children of one slice, lowest pc on top. -/
def parkChildren (j : Nat) : List Split → State → State
  | [], s => s
  | q :: r, s =>
    let s := parkChildren j r s
    let (g, q) := openOn s.nextId s.g q
    { s with g := setStack j (q :: stackOf g j) g }

/-- A slice whose lanes all take one backward target, by a branch or by a back edge that repeats, rotates where a path is parked
on it (R195, R33). -/
def turnsSlice (s : State) (child : BitVec 64 → Word → Split) (choice : List (Nat × Word)) (j : Nat) : Bool :=
  !isPriv s && !(stackOf s.g j).isEmpty &&
    match pathsOf choice j with
    | [(t, m)] => decide ((child m t).pc.toNat ≤ s.p.pc.toNat)
    | _ => false

/-- The running child that goes to a pc: it rotates the slices that go backward whole. -/
def placeChild (q : Split) (back : List Nat) (s : State) : State :=
  if back.isEmpty then addRunning q s
  else
    let (g, q) := openOn s.nextId s.g q
    let s := rotateOn back { s with g := g, p := q }
    { s with
      p := Split.vacant
      g := if s.p.members = 0 then s.g else { s.g with splits := s.g.splits ++ [s.p] } }

/-- Divides the split at issue by the next pc of each member lane; its weight has been added. `child` makes the split of
some lanes that goes to a pc. On each slice the path with the lowest pc runs and the others are parked; running paths that
share a pc form one split; a slice that goes backward whole rotates. Every child is ordered after the accesses of its parent,
the stores of its region among them (R87). The rules do not say in which order the children take their region serials: running ones
by rising pc, then the parked ones of each slice from the deepest up (log entry 73). -/
def divide (child : BitVec 64 → Word → Split) (choice : List (Nat × Word)) (s : State) : State :=
  let s := commitRegion s
  let child (m : BitVec 64) (t : Word) : Split := { child m t with after := s.nextId, buffer := [] }
  let js := slicesOf s.p.members
  let back := js.filter (turnsSlice s child choice)
  let run := js.flatMap fun j => (pathsOf choice j).take 1
  let targets := sortNub (run.map fun e => e.1.toNat)
  let s := { s with p := Split.vacant }
  let s := targets.foldl (fun s t =>
    let m := (run.filter fun e => e.1.toNat == t).foldl (fun m e => m ||| e.2) 0
    placeChild (child m (BitVec.ofNat 64 t)) (back.filter fun j => m &&& sliceMask j != 0) s) s
  js.foldl (fun s j => parkChildren j (((pathsOf choice j).drop 1).map fun e => child e.2 e.1) s) s

/-- The next pc of every member lane (R30), from the outcome of the active lanes. -/
def laneChoices (s : State) (act : List (Nat × Word)) : List (Nat × Word) :=
  match act with
  | [] => []
  | (_, first) :: _ =>
    (lanesOf s.p.members).map fun i =>
      match findFirst (fun e => e.1 == i) act with
      | some e => e
      | none =>
        match findFirst (fun e => e.1 / 8 == i / 8) act with
        | some e => (i, e.2)
        | none => (i, first)

/-! ### Joining (R34) -/

/-- The conditions of R34 other than the state of each split's own accesses. -/
def sameState (a b : Split) : Bool :=
  decide (a.pc = b.pc) && decide (a.rstack = b.rstack) && decide (a.lr0 = b.lr0) && decide (a.lr1 = b.lr1)
    && (a.lr0.isNone || decide (a.lc0 = b.lc0)) && (a.lr1.isNone || decide (a.lc1 = b.lc1))

/-- The greater of two last-command keys and the rest of R34, R62 and R157: `a` is the senior split. The yield and the age are the model's
choice (log entry 95). -/
def mergeSplits (a b : Split) : Split :=
  { a with
    members := a.members ||| b.members
    exec := a.exec ||| b.exec
    clock := if a.clock.toNat < b.clock.toNat then b.clock else a.clock
    fstat := joinFlags a.fstat b.fstat
    lastTurn := optKeyMax a.lastTurn b.lastTurn
    lastCmd := optKeyMax a.lastCmd b.lastCmd
    after := max a.after b.after
    yielded := min a.yielded b.yielded
    since := match a.since, b.since with
      | some x, some y => some (max x y)
      | _, _ => none
    wait := .none }

end Sys2Proof.Machine
end

