-- ==== Sys2Proof/Machine/Ops.lean ====
section
/-! DEFINITION. The shared operations of every instruction (spec/17_fault_architecture.md; spec/08_encoding_assembly.md
R177; spec/18_instruction_exceptions.md R350, R363): taking a trap and returning from one,
ending a launch, the checks before issue, stalls, and retirement. -/

namespace Sys2Proof.Machine

/-! ### The end of a launch (R276, R324 step 2, R339, R349) -/

/-- COMP (R276). -/
def compWord (l : Launch) (status : Nat) (cause : BitVec 8) : Nat :=
  status + cause.toNat * 2 ^ 8 + bit l.fu * 2 ^ 16 + bit l.obs * 2 ^ 17 + bit l.early * 2 ^ 18

/-- Writes COMP and FLINE of a launch at its task control block. -/
def writeComp (l : Launch) (status : Nat) (cause : BitVec 8) (s : State) : State :=
  devStore l.part l.asid (l.tcb + 64) (.store (leBytes 8 (compWord l status cause) ++ leBytes 8 l.fline.toNat))
    (leBytes 8 (compWord l status cause) ++ leBytes 8 l.fline.toNat) s

/-- Removes every unit, gang, command and access of a launch: nothing of it is saved. -/
def stopLaunch (n : Nat) (s : State) : State :=
  let mine := ((allGangs s).filter fun e => e.1.launch == n).map fun e => e.1.id
  let s := if s.g.launch = n ∧ s.g.id ≠ 0 then { s with p := Split.vacant, g := Gang.vacant } else s
  { s with
    gangs := s.gangs.filter fun g => g.launch != n
    reqs := s.reqs.filter fun q => q.launch != n || q.gang == 0
    remotes := s.remotes.filter fun q => q.launch != n
    cmds := s.cmds.filter fun c => c.launch != n
    tiles := s.tiles.filter fun t => t.launch != n
    accums := s.accums.filter fun a => a.launch != n
    loaded := s.loaded.filter fun e => e.2.1 != n
    pubs := s.pubs.filter fun b => b.launch != n
    updates := s.updates.filter fun u => u.launch != n
    mitten := s.mitten.filter fun u => u.launch != n
    retry := s.retry.filter fun u => u.launch != n
    late := updateWhere (fun e => match e.gang with
        | some g => mine.contains g
        | none => false)
      (fun e => { e with gang := none }) s.late
    l1 := s.l1.filter fun c => !(c.coh == 3 && c.launch == n)
    remoteCopies := s.remoteCopies.filter fun c => !(c.coh == 3 && c.launch == n) }

/-- Writes bytes of the device's own to a base line: copies that cores keep coherent go, and those outside the device are recalled. -/
def baseLine (launch : Nat) (r : LineRef) (data : SMap Byte) (s : State) : State :=
  let s := data.foldl (fun s b => writeLine r.part r.asid (r.va + b.1) [b.2] s) (countMiss launch r s)
  recallOutside r data (dropL1 r 256 s)

/-- The bytes of a Brim entry merge into the base line (R69): a write of the device, and no foreign update (R394). Where the line is not held and its translation
has become invalid, they go to the frame in which the line lay when they were published. -/
def mergeBytes (e : BrimEntry) (s : State) : State :=
  let s := match findLine s e.ref, walk s e.ref.part e.ref.asid e.ref.va with
    | none, none => fillLine e.ref { entryPa := 2 ^ 39, entry := 0, pageBits := 16, pa := e.pa } s
    | _, _ => s
  baseLine e.launch e.ref e.data s

/-- Bytes that a launch publishes in one line at key k reach the home (R66, R68, R72). They enter Brim, or, where another determinism
group holds entries or updates on the line, they go to the base line at once and that group gets its foreign update (R82; log entry 118). -/
def publishBytes (launch : Nat) (r : LineRef) (k : Key) (order : Nat) (data : SMap Byte) (s : State) : State :=
  if (holders s launch r).isEmpty then brimEnter launch r k order data [] s
  else foreignUpdate launch r (baseLine launch r data s)

/-- Publishes bytes that lie inside one line. -/
def publishAt (launch part asid off : Nat) (k : Key) (data : List Byte) (s : State) : State :=
  publishBytes launch (lineRef part asid off) k s.nextId (bytesInLine off (off / 128 * 128) data) s

/-- An entry may merge: no byte of it or of an earlier entry of its line is held (R371), and its line is not in P. -/
def unheldEntry (s : State) (e : BrimEntry) : Bool :=
  !((brimOf s e.launch e.ref).any fun x => !keyLt e.key x.key && !x.held.isEmpty)
    && !(findLine s e.ref).any fun l => decide (l.state = .p)

/-- Entries merge in key order. -/
def mergeList (es : List BrimEntry) (s : State) : State :=
  (sortBy (fun a b => keyLt a.key b.key || (decide (a.key = b.key) && decide (a.order < b.order))) es).foldl
    (fun s e => mergeBytes e { s with brim := s.brim.filter fun x => x.id != e.id }) s

/-- The Brim entries of a launch that has ended merge (R69): no view of it is left. -/
def mergeAll (n : Nat) (s : State) : State := mergeList (s.brim.filter fun e => e.launch == n && unheldEntry s e) s

/-! ### Operating points (R288, R329, R330) -/

/-- The die of a core (R15). -/
def dieOf (core : Nat) : Nat := core / 128

/-- The point that a die's residents and limits select; 3 is the lowest. -/
def wantedPoint (s : State) (die : Nat) (d : Die) : Nat :=
  if d.hold then 3
  else
    let hints := (s.launches.filter fun l =>
      l.units.any fun u => decide (u.phase = .resident) && u.cores.any fun c => dieOf c == die).map fun l => l.oph
    min 3 ((leastBy (fun a b => decide (a < b)) hints).getD 3 + d.lowered)

/-- Each die goes to the point that is now selected; one that moves already changes where it goes. -/
def settleDies (s : State) : State :=
  { s with
    dies := (countFrom 0 s.dies.length).map fun i =>
      let d := getAt Die.reset s.dies i
      let w := wantedPoint s i d
      if d.target.isSome then { d with target := some w } else { d with point := w } }

/-- Ends a launch with a COMP status and cause; no successor is decremented. -/
def endLaunch (n status : Nat) (cause : BitVec 8) (s : State) : State :=
  let s := mergeAll n (stopLaunch n s)
  let l := launchOf s n
  settleDies (mapLaunch n (fun l => { l with phase := .retired, ended := some (cause, status), units := [], discards := [] })
    (writeComp l status cause s))

/-! ### Taking a trap (R336, R339, R347) -/

/-- A double trap (R339): a record with CAUSE 0xE1 and the cause that was met goes to the fault queue, and the launch
ends. -/
def doubleTrap (t : TrapInfo) (s : State) : State :=
  endLaunch s.g.launch 3 0xE1
    (faultQueue s.g.part (recordHead { t with cause := 0xE1, sub := t.cause } (partyOf s.g)) s)

/-- TVEC as it is taken: 0 where its bits [1:0] are not 0 (R345). -/
def handlerOf (q : Partition) : Word := if q.tvec.toNat % 4 = 0 then q.tvec else 0

/-- The record goes to the record slot, the first line of the gang's context area; in a held granule it follows the entries there (R336,
R368), and one that the HC refuses goes nowhere. -/
def recordSlot (t : TrapInfo) (s : State) : Except (BitVec 8) State :=
  let off := offsetOf s.g.ctx
  let data := recordHead t (partyOf s.g) ++ recordTail s
  match admits s s.g.part s.g.asid off true with
  | some c => .error c
  | none =>
    .ok (if granuleHeld s s.g.part s.g.asid off then contextLate off data none s else writePiece 0 s.g.part s.g.asid off data s)

/-- Trap entry with EPC: the one way into a handler. In a handler it is a double trap; without a handler its record goes to
the fault queue and the launch ends. A record slot that its HC refuses is a double trap with SUB 0x74 (R375). -/
def enterTrap (t : TrapInfo) (epc : Word) (s : State) : State :=
  if isPriv s then doubleTrap t s
  else
    let tvec := handlerOf (curPart s)
    if tvec = 0 then endLaunch s.g.launch 3 t.cause (faultQueue s.g.part (recordHead t (partyOf s.g)) s)
    else
      let s := commitRegion s
      match recordSlot t s with
      | .error _ => doubleTrap { t with cause := 0x74 } s
      | .ok s =>
        let s := reclaim s
        { s with
          g := { s.g with trapped := true }
          p := { s.p with
            cause := BitVec.ofNat 64 (t.cause.toNat + t.sub.toNat * 256)
            epc := epc
            entryEpc := epc
            frec := BitVec.ofNat 64 (s.g.ctx.toNat / 128 * 128)
            status := BitVec.ofNat 64 (1 + t.kind % 8 * 2 ^ 9)
            mode := 0
            exec := s.p.members
            pc := tvec
            again := s.p.redo
            redo := none
            wait := .none } }

/-- A failed check: its cause with the address, lanes and node of R344. -/
structure Fail where
  cause : BitVec 8
  va : Word
  lanes : BitVec 64
  pnode : Nat
  deriving DecidableEq, Repr

/-- A cause alone. -/
def failOf (c : BitVec 8) : Fail := { cause := c, va := 0, lanes := 0, pnode := 0 }

/-- A precise trap at the instruction at the pc (KIND 0, R334, R350). -/
def preciseTrap (f : Fail) (word : BitVec 32) (s : State) : State :=
  enterTrap { kind := 0, cause := f.cause, sub := 0, pc := s.p.pc, va := f.va, lanes := f.lanes, serial := s.p.serial
              clock := s.p.clock, pnode := f.pnode, n := 0, word := word } s.p.pc s

/-- The fault that a faulted register stands for: the cause with which the access `id` was refused, at the home, at a peer
(R365, R385) or by its timeout. -/
structure LoadFault where
  kind : Nat
  cause : BitVec 8
  pc : Word
  va : Word
  lanes : BitVec 64
  serial : BitVec 32
  clock : Word
  word : BitVec 32
  pnode : Nat
  deriving DecidableEq, Repr

/-- Lanes of the accesses of one instruction that were refused: those that share its pc, serial and lanes of issue. -/
def faultOf (s : State) (id : Nat) : LoadFault :=
  match findFirst (fun q => q.id == id) s.reqs with
  | none => { kind := 1, cause := 0x70, pc := 0, va := 0, lanes := 0, serial := 0, clock := 0, word := 0, pnode := 0 }
  | some q =>
    let mates := s.reqs.filter fun r => r.gang == q.gang && r.pc == q.pc && r.serial == q.serial && r.clock == q.clock
      && r.lanes == q.lanes && (match r.phase with
        | .refused _ => true
        | _ => false)
    let lo := (leastBy (fun a b => decide (a.lane < b.lane)) mates).getD q
    let cause := match lo.phase with
      | .refused c => c
      | _ => 0x70
    { kind := 1, cause := cause, pc := q.pc, va := lo.va
      lanes := maskOf ((mates.map fun r => r.lane).filter fun l => decide (l < 64))
      serial := q.serial, clock := q.clock, word := q.word, pnode := 0 }

/-- The failed requests of the replay that a request belongs to. -/
def failedMates (s : State) (r : RemoteReq) : List RemoteReq :=
  s.remotes.filter fun x => x.gang == r.gang && x.group == r.group && x.fault.isSome

/-- The fault of a remote access that failed at its node: the failed lanes of its replay, the cause and address of the lowest
(R385). -/
def remoteFaultOf (s : State) (r : RemoteReq) : LoadFault :=
  let mates := failedMates s r
  let failed := mates.foldl (fun m x => m ||| x.failed) r.failed
  let lo := (leastBy (fun a b => decide (lowest a.failed < lowest b.failed)) mates).getD r
  { kind := 4, cause := lo.fault.getD 0x91, pc := r.pc
    va := match findFirst (fun e => e.1 == lowest lo.failed) lo.ops with
      | some e => e.2.1
      | none => lo.va
    lanes := failed, serial := r.serial, clock := r.clock, word := r.word, pnode := r.node }

/-- The gang parks at a faulted register (R103, KIND 1, or KIND 4 for a remote load): EPC names the reader. -/
def parkTrap (id : Nat) (s : State) : State :=
  let f := match findFirst (fun r => r.id == id) s.remotes with
    | some r => remoteFaultOf s r
    | none => faultOf s id
  enterTrap { kind := f.kind, cause := f.cause, sub := 0, pc := f.pc, va := f.va, lanes := f.lanes, serial := f.serial
              clock := f.clock, pnode := f.pnode, n := 0, word := f.word } s.p.pc s

/-! ### Deferred delivery (R340, R376, R385) -/

/-- Where a held fault may be taken: a region opening, a turn or another irrevocable instruction, `halt`, a named engine counter, a
wait on the engine count. -/
inductive Point where
  | opening
  | turn
  | irrevocable
  | halt
  | counter (k : Nat)
  | engines
  deriving DecidableEq, Repr

/-- A fault of a spill to the context area: it is taken at the next region boundary in any launch (R375). -/
def HeldFault.spill (f : HeldFault) : Bool := f.kind == 2 && f.cause == 0x74

/-- A held fault is taken at a point: in a free launch at every opening and irrevocable issue; in a deterministic one a
store fault at a turn of its lineage with a greater key (R340), an engine fault at a turn or `halt` of its lineage (R376); an engine
fault also at its counter and at wait.cnt 3; a spill's fault at every region boundary. -/
def takes (det : Bool) (key : Key) (members : BitVec 64) (pt : Point) (f : HeldFault) : Bool :=
  let mine := meets f.lineage members
  match pt with
  | .opening => !det || f.spill
  | .irrevocable => !det || f.spill
  | .halt => !det || f.spill || (mine && f.counter.isSome)
  | .turn =>
    if det then f.spill || (mine && (match f.key with
      | some k => keyLt k key
      | none => true))
    else true
  | .counter k => decide (f.counter = some k)
  | .engines => f.counter.isSome

/-- Every entry of the instruction of a fault with a key has been answered and recorded, so that its lanes are all of them (R340). -/
def faultWhole (s : State) (f : HeldFault) : Bool :=
  f.key.isNone || !((s.pubs.any fun b => b.gang == s.g.id && b.serial == f.serial && b.pc == f.pc)
    || (s.updates.any fun u => u.gang == s.g.id && u.serial == f.serial && u.pc == f.pc)
    || s.late.any fun e => decide (e.gang = some s.g.id) && e.serial == f.serial && e.pc == f.pc && !e.recorded)

/-- The first held fault of the gang at issue that a point takes, once it is whole. -/
def deliverable (s : State) (pt : Point) : Option HeldFault :=
  if isPriv s then none
  else (findFirst (takes (curLaunch s).det (curKey s) s.p.members pt) s.g.faults).filter fun f => f.kind != 2 || faultWhole s f

/-- The held fault of a store of the gang at issue some of whose held bytes `q` selects: what a stall on those bytes delivers (R370,
R375, R404). -/
def heldFaultOf (s : State) (q : LateEntry → Bool) : Option HeldFault :=
  if isPriv s then none
  else findFirst (fun f => f.kind == 2 && s.late.any fun e =>
    decide (e.gang = some s.g.id) && e.serial == f.serial && e.pc == f.pc && q e) s.g.faults

/-- Takes a held fault: EPC is the instruction at the point. -/
def deliver (f : HeldFault) (s : State) : State :=
  let s := { s with
    g := { s.g with
      faults := dropFirst (fun h => decide (h = f)) s.g.faults
      told := if f.kind = 2 then (f.serial, f.pc) :: s.g.told else s.g.told }
    cmds := updateWhere (fun c => decide (f.cmd = some c.id)) reported s.cmds
    late := updateWhere (fun e => decide (e.gang = some s.g.id) && e.serial == f.serial && e.pc == f.pc && f.kind == 2)
      (fun e => { e with delivered := true }) s.late }
  enterTrap { kind := f.kind, cause := f.cause, sub := f.sub, pc := f.pc, va := f.va, lanes := f.lanes, serial := f.serial
              clock := f.clock, pnode := f.pnode, n := 0, word := 0 } s.p.pc s
where
  /-- the command's report is delivered; one that does not resume retires with it -/
  reported (c : Cmd) : Cmd := if c.abandoned then { c with phase := .finished } else { c with delivered := true }

/-! ### Suspended engine commands (R376) -/

/-- The command with an identifier. -/
def cmdOf (s : State) (id : Nat) : Option Cmd := findFirst (fun c => c.id == id) s.cmds

/-- Suspends an engine command and holds its fault for its gang. A gang that has ended can take no trap: the record goes to
the fault queue, the command ends, and its launch with it takes the cause (log entry 33). -/
def suspendCmd (id : Nat) (cause sub : BitVec 8) (va : Word) (pnode : Nat) (abandoned : Bool) (s : State) : State :=
  match findFirst (fun c => c.id == id) s.cmds with
  | none => s
  | some c =>
    let fault : HeldFault := {
      kind := 3, cause := cause, sub := sub, pc := c.pc, va := va, lanes := 0, serial := c.serial, clock := c.clock
      pnode := pnode, lineage := c.lineage, key := none, counter := some c.counter, cmd := some id }
    let live := match gangOf s c.gang with
      | some g => !g.ended
      | none => false
    if live then
      mapGang c.gang (fun g => { g with faults := g.faults ++ [fault] })
        { s with cmds := updateWhere (fun x => x.id == id) (hold abandoned) s.cmds }
    else
      mapLaunch c.launch (fun l => { l with ended := some (cause, 3) })
        (faultQueue c.part (recordHead { kind := 3, cause := cause, sub := sub, pc := c.pc, va := va, lanes := 0
                                         serial := c.serial, clock := c.clock, pnode := pnode, n := 0, word := 0 }
          { gangid := c.lgang % ((launchOf s c.launch).nunit * (launchOf s c.launch).wpc * (launchOf s c.launch).ngang)
            wg := c.wg, asid := c.asid, part := c.part })
          { s with cmds := updateWhere (fun x => x.id == id) (fun x => { x with phase := .finished }) s.cmds })
where
  hold (abandoned : Bool) (x : Cmd) : Cmd := { x with suspended := true, delivered := false, abandoned := abandoned }

/-! ### Retirement (R50, R52, R195, R205) -/

/-- Adds to the clock of the split; a handler's instructions add nothing (R337). -/
def addClock (n : Nat) (s : State) : State :=
  if isPriv s then s else { s with p := { s.p with clock := s.p.clock + BitVec.ofNat 64 n } }

/-- The weight would carry the clock past 2^64 − 1. -/
def overflows (w : Nat) (s : State) : Bool := !isPriv s && decide (2 ^ 64 ≤ s.p.clock.toNat + w)

/-- The instruction has retired: its region is no longer newly open, the split waits for nothing, event 0x002 is counted. -/
def retired (s : State) : State :=
  countEvent s.g.launch 2 1 { s with p := { s.p with fresh := false, wait := .none } }

/-- Falls through to pc + 4, evaluating back edges (R205): a live-in counter ends the region at the next pc; a repeating
back edge rotates the slices. -/
def fallThrough (s : State) : State :=
  let next := s.p.pc + 4
  let b := backEdges s.p next
  if b.count = 0 then { s with p := { s.p with pc := next } }
  else
    let s := addClock b.count { s with p := b.split }
    let s := if b.boundary && s.p.entry.isSome then openRegion s else track b.codes b.codes s
    if b.repeats then rotate s else s

/-- Retires an instruction of weight w that falls through. -/
def finish (w : Nat) (s : State) : State := fallThrough (retired (addClock w s))

/-- Retires a transfer: taken where the target differs from pc + 4; a backward one rotates (R195). -/
def jump (w : Nat) (target : Word) (s : State) : State :=
  if target = s.p.pc + 4 then finish w s
  else
    let back := decide (target.toNat ≤ s.p.pc.toNat)
    let s := retired (addClock w s)
    let s := { s with p := { leaveLoops target s.p with pc := target } }
    if back then rotate s else s

/-- Opens a region where none is open (R39). -/
def openClosed (s : State) : State := if s.p.entry.isSome then s else openRegion s

/-- Retires an irrevocable instruction: a fresh region opens after it (R42). -/
def finishAlone (w : Nat) (s : State) : State := openClosed (finish w s)

/-- Retires a turn operation: in a free launch its issue rotates the slices (R33, R60); in a deterministic launch other paths have run
on its slices since the turn was presented, and its lanes come back to them. Where its back edge repeats as well the slices rotate
once (log entry 75). -/
def finishTurn (w : Nat) (s : State) : State :=
  let looped := (backEdges s.p (s.p.pc + 4)).repeats
  let t := finish w s
  openClosed (if detNow s then comeBack t else if looped then t else rotate t)

/-! ### Issue (R177, R103, R40, R42) -/

/-- What the checks of an instruction's own description answer. -/
inductive Verdict where
  | ok
  | fail (f : Fail)
  | wait (w : Wait)
  deriving DecidableEq, Repr

/-- What the shared issue needs to know of an instruction: its word; whether it is privileged (order 3) and whether a
handler may not run it (R353); the cause of a failed check of its fields and of T (orders 4 to 6 that read no register);
the sources its checks read and those read for their value, with trap bits; other tracked registers it reads; those it
writes; its weight and the number of back edges that its retirement evaluates (R52); and how it stands to regions and turns. -/
structure Form where
  word : BitVec 32
  privileged : Bool
  barred : Bool
  bad : Option (BitVec 8)
  addrs : List (Nat × Bool)
  srcs : List (Nat × Bool)
  reads : List Nat
  dsts : List Nat
  weight : Nat
  back : State → Nat
  irrevocable : Bool
  turn : Bool
  /-- besides the live-in rule, what makes an implicit region open at it: a 33rd line (R41), a load behind its own reduction -/
  opens : State → Bool

/-- The back edges of an instruction that falls through. -/
def edgesBehind (s : State) : Nat := (backEdges s.p (s.p.pc + 4)).count

/-- The back edges of a transfer to a target: none where it is taken (R205). -/
def edgesUnless (taken : Bool) (s : State) : Nat := if taken then 0 else edgesBehind s

/-- The weight of an instruction with those of its back edges (R52). -/
def Form.full (f : Form) (s : State) : Nat := f.weight + f.back s

/-- A form without operands, privileges or effects of its own. -/
def Form.plain (word : BitVec 32) (w : Nat) : Form where
  word := word
  privileged := false
  barred := false
  bad := none
  addrs := []
  srcs := []
  reads := []
  dsts := []
  weight := w
  back := edgesBehind
  irrevocable := false
  turn := false
  opens := fun _ => false

/-- The split waits; nothing else changes. -/
def stall (w : Wait) (s : State) : State := { s with p := { s.p with wait := w } }

/-- An implicit region opens at an instruction: it would write a live-in register (R40), or its own kind asks for one (R41). -/
def opensHere (f : Form) (s : State) : Bool := !f.irrevocable && (writesLiveIn f.dsts s || f.opens s)

/-- An implicit region opens at an instruction that asks for one; an irrevocable instruction commits the region before it instead
(R42). -/
def enterRegion (f : Form) (s : State) : State :=
  if f.irrevocable then commitRegion s
  else if opensHere f s then openRegion s
  else s

/-- Enters the region of an instruction and goes on with it. An implicit opening is a delivery point: a fault that is held is taken
before the instruction executes, and before it raises a cause of its own (R340, R341). -/
def atOpening (f : Form) (go : State → State) (s : State) : State :=
  match (if opensHere f s then deliverable s .opening else none) with
  | some h => deliver h (openRegion s)
  | none => go (enterRegion f s)

/-- Raises the cause of a failed check: the region that a live-in register asks for opens first (R363). -/
def failCheck (f : Form) (x : Fail) (s : State) : State := atOpening { f with opens := fun _ => false } (preciseTrap x f.word) s

/-- The fault that a stall on a register delivers: its access waits at its home for bytes that are held for a store of its own gang, or, of
a child split, behind such a store of its parent (R87, R370; log entry 29). -/
def stallFaultOf (s : State) (code : Nat) : Option HeldFault :=
  match regState s code with
  | .empty id =>
    match findFirst (fun q => q.id == id) s.reqs with
    | none => none
    | some q =>
      if q.phase = .sent then
        heldFaultOf s fun e => s.reqs.any fun r => decide (e.reqId = some r.id ∧ r.phase = .held ∧ r.id < q.after) && r.gang == q.gang
          && meets r.lanes q.lanes
      else if q.phase ≠ .held then none
      else heldFaultOf s fun e => decide (e.reqId ≠ some q.id) && e.part == q.part
        && lateTag e.asid (offsetOf e.va) == lateTag q.asid (offsetOf q.va) && holdsBytes e (offsetOf q.va) q.size
  | _ => none

/-- Stalls on empty registers; a stall on an access that waits for bytes held for the gang's own store is a delivery point
(R370). -/
def stallRegs (codes : List Nat) (s : State) : State :=
  match codes.findSome? (stallFaultOf s) with
  | some f => deliver f s
  | none => stall (.regs codes []) s

/-- Asks for what a check waits for: hosts give back lines that they may have modified (R149). -/
def askFor (w : Wait) (s : State) : State :=
  match w with
  | .lines part asid off n => askHosts part asid off n s
  | _ => s

/-- The common path of every instruction: privilege, fields, its own checks, its sources, its destinations, the clock, the
region; then its effect, with its reads and writes recorded. -/
def issue (f : Form) (check : State → Verdict) (effect : State → State) (s : State) : State :=
  match (if f.turn then deliverable s .turn else if f.irrevocable then deliverable s .irrevocable else none) with
  | some h => deliver h s
  | none =>
  if f.privileged && !isPriv s then preciseTrap (failOf 0x02) f.word s
  else if f.barred && isPriv s then preciseTrap (failOf 0x03) f.word s
  else
  match f.bad with
  | some c => failCheck f (failOf c) s
  | none =>
  match scanSources s f.addrs with
  | .trap => failCheck f (failOf 0x04) s
  | .park id => parkTrap id s
  | .wait cs => stallRegs cs s
  | .ok =>
  match check s with
  | .fail x => failCheck f x s
  | .wait w => stall w (askFor w s)
  | .ok =>
  match scanSources s f.srcs with
  | .trap => failCheck f (failOf 0x04) s
  | .park id => parkTrap id s
  | .wait cs => stallRegs cs s
  | .ok =>
  if overflows (f.full s) s then failCheck f (failOf 0xB0) s
  else
  match scanSources s (f.dsts.map fun c => (c, false)) with
  | .trap => s
  | .park id => parkTrap id s
  | .wait cs => stallRegs cs s
  | .ok =>
    atOpening f (fun s => effect (track (f.addrs.map (·.1) ++ f.srcs.map (·.1) ++ f.reads) f.dsts s)) s

/-- The word of an instruction that is issued as itself. -/
def wordOf (o : Option (BitVec 32)) : BitVec 32 := o.getD 0

/-- No check of its own. -/
def noCheck (_ : State) : Verdict := .ok

/-! ### The return from a trap (R338) -/

/-- A read of the device's own by the split at issue waits for its lines, where it could not be made now (R128, R149). -/
def readable (s : State) (off n : Nat) : Verdict :=
  if unreadable s s.g.part s.g.asid off n then .wait (.lines s.g.part s.g.asid off n) else .ok

/-- A store of the gang at issue to the record at FREC has not performed, or bytes of it are held: the return waits for it (R86, R338, R375;
log entry 114). -/
def recordPending (s : State) : Bool :=
  let off := offsetOf s.p.frec
  (s.reqs.any fun q => q.gang == s.g.id && opWrites q.op && q.part == s.g.part && decide (offsetOf q.va < off + 128 ∧ off < offsetOf q.va + q.size)
      && (match q.phase with
        | .done _ => false
        | .refused _ => false
        | _ => true))
    || heldBytes s s.g.part s.g.asid off 128

/-- The words of the record at FREC that a return restores: MODE, EXEC, s58 to s63; or the cause of a refusal. -/
def savedWords (s : State) : Except (BitVec 8) (List Word) :=
  match devRead s s.g.part s.g.asid (offsetOf (s.p.frec + 64)) 64 with
  | .ok l => .ok ((countFrom 0 8).map fun i => BitVec.ofNat 64 (leNat ((l.drop (8 * i)).take 8)))
  | .error c => .error c

/-- State kept in the context area is lost (R375): the launch ends with cause 0x74 and a record goes to the fault queue. -/
def contextLost (launch part : Nat) (w : Party) (s : State) : State :=
  endLaunch launch 3 0x74
    (faultQueue part (recordHead { kind := 0, cause := 0x74, sub := 0, pc := 0, va := 0, lanes := 0, serial := 0, clock := 0
                                   pnode := 0, n := 0, word := 0 } w) s)

/-- Resumes the commands whose fault was delivered (R377, R378) and the splits of the gang. -/
def resumeGang (s : State) : State :=
  { s with
    g := { s.g with trapped := false }
    cmds := updateWhere (fun c => c.gang == s.g.id && c.suspended && c.delivered)
      (fun c => { c with suspended := false, delivered := false }) s.cmds }

/-- The access is reissued: its destination is empty again and it goes to its home as sent (R338 step 4). -/
def reissue (id : Nat) (s : State) : State := mapReq id (fun q => { q with phase := .sent }) s

/-- Registers that wait for the reissued accesses are empty again. -/
def unfault (ids : List Nat) (m : SMap RegState) : SMap RegState :=
  m.map fun e => match e.2 with
    | .faulted id => if ids.contains id then (e.1, .empty id) else e
    | _ => e

/-- Those of a split, and those it would return to. -/
def unfaultSplit (ids : List Nat) (q : Split) : Split :=
  { q with
    sstate := unfault ids q.sstate
    entry := q.entry.map fun e => { e with sstate := unfault ids e.sstate, vstate := unfault ids e.vstate } }

/-- Reissues the refused accesses of the load that a kind-1 record names, by its pc, serial and clock, for the lanes in LANES. -/
def reissueLoad (s : State) : State :=
  match devRead s s.g.part s.g.asid (offsetOf s.p.frec) 64 with
  | .error _ => s
  | .ok l =>
    let pc := BitVec.ofNat 64 (leNat ((l.drop 8).take 8))
    let lanes := BitVec.ofNat 64 (leNat ((l.drop 24).take 8))
    let serial := BitVec.ofNat 32 (leNat ((l.drop 32).take 4))
    let clock := BitVec.ofNat 64 (leNat ((l.drop 40).take 8))
    let refused := s.reqs.filter fun q => q.gang == s.g.id && q.pc == pc && q.serial == serial && q.clock == clock
      && (decide (64 ≤ q.lane) || lane lanes q.lane) && (match q.phase with
        | .refused _ => true
        | _ => false)
    let ids := refused.map fun q => q.id
    let s := ids.foldl (fun s id => reissue id s) s
    { s with
      g := { s.g with
        vstate := unfault ids s.g.vstate
        splits := s.g.splits.map (unfaultSplit ids)
        parked := s.g.parked.map fun e => (e.1, e.2.map (unfaultSplit ids)) }
      p := unfaultSplit ids s.p }

/-- After a kind-4 trap whose EPC is unchanged (R385): the failed lanes of a remote load named by LANES are requested again
where the node's dead-peer bit is clear, and become full with value 0 where it is set; a remote atomic or reduction that trapped
at the pc is performed again for those lanes. -/
def reissueRemote (s : State) : State :=
  match devRead s s.g.part s.g.asid (offsetOf s.p.frec) 64 with
  | .error _ => s
  | .ok l =>
    let pc := BitVec.ofNat 64 (leNat ((l.drop 8).take 8))
    let lanes := BitVec.ofNat 64 (leNat ((l.drop 24).take 8))
    if pc = s.p.pc ∧ s.p.again.isSome then { s with p := { s.p with again := some lanes } }
    else
      (s.remotes.filter fun r => r.gang == s.g.id && r.pc == pc && r.fault.isSome && decide (r.dest ≠ [])
          && meets r.failed lanes).foldl
        (fun t r => again s.nextId r (r.failed &&& lanes) t) s
where
  /-- one request: to be sent again as part of replay g as soon as there is room for it (R142), or answered 0 -/
  again (g : Nat) (r : RemoteReq) (m : BitVec 64) (s : State) : State :=
    let s := { s with remotes := s.remotes.filter fun x => x.id != r.id }
    let dead := (mapGet 0 (partOf s r.part).dead (r.node / 64)).getLsbD (r.node % 64)
    let regs := (r.dest.filter fun e => lane m e.1).flatMap fun e => match e.2 with
      | .vector d n i => (countFrom d n).map fun k => k * 64 + i
      | _ => []
    if dead then
      { s with g := { s.g with vregs := mapSetAll 0 s.g.vregs (regs.map fun k => (k, 0))
                               vstate := mapSetAll .full s.g.vstate (regs.map fun k => (k, .full)) } }
    else
      { s with
        remotes := s.remotes ++ [{ r with
          id := s.nextId, rest := m, failed := 0, fault := none, answer := none, got := 0, refusals := 0, waiting := false
          heldBack := false, saved := true, group := g
          ops := r.ops.filter fun e => lane m e.1, dest := r.dest.filter fun e => lane m e.1 }]
        nextId := s.nextId + 1
        g := { s.g with vstate := mapSetAll .full s.g.vstate (regs.map fun k => (k, .empty s.nextId)) } }

/-- A saved scalar register has its value again. A result that it awaits from before the trap still comes (R335); one of the handler's own
comes no more (R103; log entry 115). -/
def restoreS (n : Nat) (v : Word) (s : State) : State :=
  let st := match mapGet .full s.p.sstate n with
    | .empty id => if (s.reqs.any fun q => q.id == id && q.priv) then .full else .empty id
    | x => x
  { s with p := { s.p with sregs := mapSet 0 s.p.sregs n v, sstate := mapSet .full s.p.sstate n st } }

/-- rte: restores MODE, EXEC and s58 to s63, leaves the handler, resumes the gang and opens a region at EPC. Loop records stay as they are
(log entry 97). A record that its HC refuses to read is a lost context: the launch ends with cause 0x74 (R375; log entry 114). -/
def returnFromTrap (s : State) : State :=
  match savedWords s with
  | .error _ => contextLost s.g.launch s.g.part (partyOf s.g) s
  | .ok w =>
    let kind := bits s.p.status.toNat 9 3
    let s := if kind = 1 ∧ s.p.epc = s.p.entryEpc then reissueLoad s else s
    let s := if kind = 4 ∧ s.p.epc = s.p.entryEpc then reissueRemote { s with p := { s.p with pc := s.p.epc } } else s
    let s := (countFrom 0 6).foldl (fun s i => restoreS (58 + i) (getAt 0 w (2 + i)) s) s
    let s := { s with
      p := { s.p with
        mode := getAt 0 w 0 &&& 0x1FFFFFFFFFFFF#64
        exec := getAt 0 w 1 &&& s.p.members
        status := 0
        pc := s.p.epc
        redo := if s.p.epc = s.p.entryEpc then s.p.again else none
        again := none
        wait := .none } }
    openRegion (resumeGang s)

end Sys2Proof.Machine
end

