-- ==== Sys2Proof/Machine/Access.lean ====
section
/-! DEFINITION. What the core checks before an access or a fetch leaves it (spec/05_memory_hierarchy.md R115, R116, R122,
R123, R126; spec/11_isa_memory_sync.md R235 to R237): pages as a core sees them, windows, the PLB, effective addresses,
the instruction cache and the fetch of an instruction word. -/

namespace Sys2Proof.Machine

/-! ### Pages as the core fetches them (R122, R123, R150, R237) -/

/-- What a window or PLB fetch returns: RD, WR, EXE, the attribute, and the bytes to the end of the page. -/
structure PageInfo where
  perm : BitVec 3
  coh : BitVec 2
  limit : Nat
  /-- a leaf or map entry stands behind it -/
  present : Bool
  deriving DecidableEq, Repr

/-- The answer for an absent granule (R237); also that for the privileged control space (log entry 21). -/
def absentPage (off : Nat) : PageInfo :=
  { perm := 6, coh := 2, limit := 65536 - off % 65536, present := false }

/-- Aperture map entry k of a partition (R150): its two words. -/
def apertureLo (q : Partition) (k : Nat) : Nat := (mapGet 0 q.aperture (2 * k)).toNat
def apertureHi (q : Partition) (k : Nat) : Nat := (mapGet 0 q.aperture (2 * k + 1)).toNat

/-- Entry k covers an aperture offset. -/
def apertureCovers (q : Partition) (off k : Nat) : Bool :=
  let lo := apertureLo q k
  lo.testBit 0 && decide (bits lo 21 30 ≤ bits off 21 30 ∧ bits off 21 30 ≤ bits lo 21 30 + bits lo 1 20)

/-- The entry with the lowest number that covers an aperture offset. -/
def apertureEntry (q : Partition) (off : Nat) : Option Nat := findFirst (apertureCovers q off) (countFrom 0 64)

/-- The host address of an aperture offset under entry k. -/
def hostAddress (q : Partition) (off k : Nat) : Nat :=
  (bits (apertureHi q k) 21 43 + bits off 21 30 - bits (apertureLo q k) 21 30) * 2 ^ 21 % 2 ^ 64 + off % 2 ^ 21

/-- The page at an address as it stands now at its home HC, or in the gateway's map. -/
def pageInfo (s : State) (part asid : Nat) (va : Word) : PageInfo :=
  let off := offsetOf va
  if isControl va then absentPage off
  else if regionOf off = 3 then
    let q := partOf s part
    match apertureEntry q off with
    | none => absentPage off
    | some k =>
      let hi := apertureHi q k
      { perm := BitVec.ofNat 3 (bit (hi.testBit 4) * 4 + bit (hi.testBit 3) * 2)
        coh := BitVec.ofNat 2 (bits hi 5 2), limit := 2 ^ 21 - off % 2 ^ 21, present := true }
  else
    match walk s part asid off with
    | none => absentPage off
    | some l =>
      { perm := BitVec.ofNat 3 (bit (Pte.rd l.entry) * 4 + bit (Pte.wr l.entry) * 2 + bit (Pte.exe l.entry))
        coh := Pte.coh l.entry, limit := 2 ^ l.pageBits - off % 2 ^ l.pageBits, present := true }

/-- A window opened at a base now (R237). -/
def openWindow (s : State) (base : Word) : Window :=
  let i := pageInfo s s.g.part s.g.asid base
  { base := base, valid := true, stale := false, coh := i.coh, perm := i.perm, limit := BitVec.ofNat 31 i.limit }

/-- The window as the next access uses it: one that a reduction reached refetches its fields (R122). -/
def usableWindow (s : State) (w : Window) : Window := if w.stale then openWindow s w.base else w

/-! ### Permission at the core (R123, R236) -/

/-- What an access needs. -/
structure Need where
  rd : Bool
  wr : Bool
  deriving DecidableEq, Repr

/-- A permission field allows it. -/
def allows (p : BitVec 3) (n : Need) : Bool := (!n.rd || p.getLsbD 2) && (!n.wr || p.getLsbD 1)

/-- The outcome of a permission check: allowed, refused after the one refetch, or a PLB entry must be fetched. -/
inductive CoreCheck where
  | ok
  | fail
  | miss (va : Word)
  deriving DecidableEq, Repr

/-- The PLB entry of a granule on a core. -/
def plbEntry (s : State) (core part asid : Nat) (va : Word) : Option PlbEntry :=
  findFirst (fun e => e.core == core && e.part == part && e.asid == tagAsid asid (offsetOf va)
    && e.granule == offsetOf va / 65536) s.plb

/-- The entry that the split at issue waited for has arrived: the instruction is checked against its pages as they were
fetched together with it (log entry 28). -/
def plbArrived (s : State) : Bool :=
  match s.p.wait with
  | .plb _ b => b
  | _ => false

/-- Checks an access through a window at unsigned offset o of size n. -/
def corePermission (s : State) (w : Window) (o n : Nat) (need : Need) : CoreCheck :=
  let w := usableWindow s w
  let va := w.base + BitVec.ofNat 64 o
  if o + n ≤ w.limit.toNat then
    if allows w.perm need || allows (openWindow s w.base).perm need then .ok else .fail
  else
    match plbEntry s s.g.core s.g.part s.g.asid va with
    | none =>
      if !plbArrived s then .miss va
      else if allows (pageInfo s s.g.part s.g.asid va).perm need then .ok else .fail
    | some e => if allows e.perm need || allows (pageInfo s s.g.part s.g.asid va).perm need then .ok else .fail

/-! ### Effective addresses (R235, R236) -/

/-- One lane's address, formed and checked: the causes in the order window, address, misaligned address, permission. -/
inductive Ea where
  | ok (va : Word)
  | fail (order : Nat) (cause : BitVec 8) (va : Word)
  | miss (va : Word)
  deriving DecidableEq, Repr

/-- The address that a window gives at offset o. -/
def windowAddress (w : Window) (o : Nat) : Word :=
  BitVec.ofNat 64 (w.base.toNat / 2 ^ 53 * 2 ^ 53 + (w.base.toNat + o) % 2 ^ 53)

/-- The host port of the split's partition carries CXL (R319, R396). -/
def apertureOn (s : State) (part : Nat) : Bool :=
  match (s.ports)[(partOf s part).port]? with
  | some p => p.flit && !p.down
  | none => false

/-- An offset in the host aperture of a partition whose port does not carry CXL: device accesses raise the address cause (R319). -/
def apertureShut (s : State) (off : Nat) : Bool :=
  decide (regionOf off = 3) && !((s.ports[(curPart s).port]?).elim false fun p => p.flit)

/-- ea(w, o, n) and the check of R236. An aperture access on a port without CXL raises the address cause (R319); unprivileged code that uses a window on the
control space raises the privileged-address cause beside the address cause (R115; log entry 76). -/
def effective (s : State) (w : Window) (o n : Nat) (need : Need) : Ea :=
  if !w.valid then .fail 0 0x40 0
  else if 2 ^ 53 < w.base.toNat % 2 ^ 53 + o + n then .fail 1 0x41 (w.base + BitVec.ofNat 64 o)
  else
    let a := windowAddress w o
    if isControl a && !isPriv s then .fail 1 0x42 0
    else if !isControl a && apertureShut s (offsetOf a) then .fail 1 0x41 a
    else if a.toNat % n ≠ 0 then .fail 2 0x43 a
    else
      match corePermission s w o n need with
      | .ok => .ok a
      | .fail => .fail 3 0x44 a
      | .miss va => .miss va

/-- The lane with the first failing check, lowest lane first within a check. -/
def firstFail : List (Nat × Ea) → Option (Nat × Nat × BitVec 8 × Word)
  | [] => none
  | (i, e) :: r =>
    match e, firstFail r with
    | .fail o c va, some (i', o', c', va') => if o ≤ o' then some (i, o, c, va) else some (i', o', c', va')
    | .fail o c va, none => some (i, o, c, va)
    | _, x => x

/-- The first lane whose check waits for a PLB entry. -/
def firstMiss : List (Nat × Ea) → Option Word
  | [] => none
  | (_, .miss va) :: _ => some va
  | _ :: r => firstMiss r

/-- The verdict over the lanes of a vector access. A lane below the failing one whose permission is still to be fetched is waited
for: the trap names the lowest lane that fails. -/
def laneVerdict (l : List (Nat × Ea)) : Verdict :=
  match firstFail l with
  | some (i, o, c, va) =>
    match firstMiss (l.filter fun e => decide (o = 3 ∧ e.1 < i)) with
    | some m => .wait (.plb m false)
    | none => .fail { cause := c, va := va, lanes := laneBit i, pnode := 0 }
  | none =>
    match firstMiss l with
    | some va => .wait (.plb va false)
    | none => .ok

/-- The verdict of an instruction that executes once per split: LANES is 0, and VA only names an address. -/
def splitVerdict (e : Ea) : Verdict :=
  match e with
  | .ok _ => .ok
  | .fail _ c va => .fail { cause := c, va := va, lanes := 0, pnode := 0 }
  | .miss va => .wait (.plb va false)

/-- The addresses that passed. -/
def okAddrs : List (Nat × Ea) → List (Nat × Word)
  | [] => []
  | (i, .ok va) :: r => (i, va) :: okAddrs r
  | _ :: r => okAddrs r

/-- A window that a reduction reached carries the refetched fields after its next access (R122). -/
def refreshWindow (n : Nat) (s : State) : State :=
  if (getW s n).valid && (getW s n).stale then setW n (openWindow s (getW s n).base) s else s

/-! ### Fetch (R126) -/

/-- The instruction cache line of an address on a core. -/
def icLine (s : State) (core : Nat) (r : LineRef) : Option ICLine :=
  findFirst (fun l => l.core == core && l.ref == r) s.icache

/-- What a fetch gives: a word, or the cause of its failure. -/
inductive Fetch where
  | word (w : BitVec 32)
  | fault (cause : BitVec 8)
  deriving DecidableEq, Repr

/-- The instruction word at a pc as a split of the gang at issue fetches it: the page must be mapped with EXE; a line in
the instruction cache serves it, else the line's home. -/
def fetchAt (s : State) (pc : Word) : Fetch :=
  let off := offsetOf pc
  if isControl pc then .fault 0x0A
  else if nodeOf pc ≠ (curPart s).node ∨ regionOf off = 3 then .fault 0x70
  else
    match walk s s.g.part s.g.asid off with
    | none => .fault (if walkBad s s.g.part s.g.asid off then 0x73 else 0x70)
    | some l =>
      let r := lineRef s.g.part s.g.asid off
      match icLine s s.g.core r with
      | some c =>
        if !Pte.exe l.entry then .fault 0x0A
        else .word (BitVec.ofNat 32 (leNat ((c.data.drop (off % 128)).take 4)))
      | none =>
        if Pte.held l.entry || walkBad s s.g.part s.g.asid off then .fault 0x73
        else if !frameMatches s s.g.part s.g.asid off l.pa then .fault 0x71
        else if !Pte.exe l.entry then .fault 0x0A
        else .word (BitVec.ofNat 32 (leNat (baseBytes s s.g.part s.g.asid off 4)))

/-- The line of the pc enters the instruction cache of the core; the oldest line leaves a full one. -/
def fillICache (s : State) : State :=
  let off := offsetOf s.p.pc
  let r := lineRef s.g.part s.g.asid off
  match icLine s s.g.core r with
  | some _ => s
  | none =>
    let line : ICLine := { core := s.g.core, ref := r, data := baseBytes s s.g.part s.g.asid r.va 128 }
    let mine := s.icache.filter fun l => l.core == s.g.core
    let rest := if mine.length < Config.icacheLines then s.icache
      else dropFirst (fun l => l.core == s.g.core) s.icache
    { s with icache := rest ++ [line] }

end Sys2Proof.Machine
end

