-- ==== Sys2Proof/Machine/Turn.lean ====
section
/-! DEFINITION. Turn operations and publication (spec/03_logical_time.md R60 to R67, R70, R409; spec/02_work_hierarchy.md
R33): presenting a turn, publishing the Cuff entries of a lineage, waiting for a floor. -/

namespace Sys2Proof.Machine

/-! ### Registers that a lane-wise instruction reads besides its operands -/

/-- EXEC, MODE and, where the guard is enabled, the guard predicate of the split's lanes (R184). -/
def maskReads (s : State) : List Nat :=
  codeExec :: codeMode ::
    (if s.p.mode.getLsbD 9 then (lanesOf (s.p.exec &&& s.p.members)).map fun i => codeP (bits s.p.mode.toNat 4 4) i else [])

/-! ### Publication (R66, R67) -/

/-- Orders Cuff entries by store key, then as they were made. -/
def cuffSorted (c : List CuffEntry) : List CuffEntry :=
  sortBy (fun a b => keyLt a.key b.key || (decide (a.key = b.key) && decide (a.order < b.order))) c

/-- Sends one Cuff entry as a publication keyed k. -/
def sendPublication (k : Key) (e : CuffEntry) (s : State) : State :=
  { s with
    pubs := s.pubs ++ [{
      id := s.nextId, launch := s.g.launch, gang := s.g.id, core := s.g.core, part := s.g.part, asid := s.g.asid
      ref := lineRef s.g.part s.g.asid e.line, key := k, order := s.nextId, data := e.data, lanes := e.lanes
      pc := e.pc, serial := e.serial, clock := BitVec.ofNat 64 e.key.clock, cmd := none, answered := false, stalled := false }]
    nextId := s.nextId + 1 }

/-- Publishes the Cuff entries that `q` selects, keyed k. -/
def publishWhere (q : CuffEntry → Bool) (k : Key) (s : State) : State :=
  (cuffSorted (s.g.cuff.filter q)).foldl (fun s e => sendPublication k e s)
    { s with g := { s.g with cuff := s.g.cuff.filter fun e => !q e } }

/-- The lineage of the split at issue holds unpublished entries. -/
def hasUnpublished (s : State) : Bool := !(lineage s.p.members s.g.cuff).isEmpty

/-! ### The overlay and the spill area (R68, R70) -/

/-- Entries that the spill area of a partition holds: 128 B each (R68). -/
def spillCapacity (s : State) (part : Nat) : Nat := (partOf s part).spillmb * 2 ^ 20 / 128

/-- Entries of a partition in its spill area. -/
def spilledBrim (s : State) (part : Nat) : Nat := (s.brim.filter fun e => e.ref.part == part && e.spilled).length

/-- Brim entries that the slices of a partition would have to spill to take one entry for each of the given lines, after the
publications that are on their way to them (R70). -/
def spillNeed (s : State) (part : Nat) (ls : List Nat) : Nat :=
  let coming := ((s.pubs.filter fun b => !b.answered).map fun b => homeOf s b.ref.part b.ref.va) ++ ls.map (homeOf s part)
  let mine := ((s.pubs.filter fun b => !b.answered && b.ref.part == part).map fun b => homeOf s part b.ref.va)
    ++ ls.map (homeOf s part)
  (sortNub mine).foldl (fun n c =>
    n + (residentBrim s c + (coming.filter fun x => x == c).length - Config.brimEntries)) 0

/-- Entries for the given lines find their slices full and the spill area exhausted. -/
def spillExhausted (s : State) (part : Nat) (ls : List Nat) : Bool :=
  let n := spillNeed s part ls
  decide (0 < n) && decide (spillCapacity s part < spilledBrim s part + n)

/-- The entries of a publishing turn find no room: those of the Cuff buffer that `q` selects and of the lines `own`. -/
def publishFull (q : CuffEntry → Bool) (own : List Nat) (s : State) : Bool :=
  spillExhausted s s.g.part ((s.g.cuff.filter q).map (fun e => e.line) ++ own)

/-- Publishes the Cuff entries that `q` selects, keyed at the turn, and goes on with what the turn does itself, which enters the lines
`own`. Entries that the store log has lost end the launch (R375); a spill area without room raises cause 0xB1 (R70, R358). -/
def publishing (word : BitVec 32) (q : CuffEntry → Bool) (own : List Nat) (f : State → State) (s : State) : State :=
  if logLost s s.g (s.g.cuff.filter q) then contextLost s.g.launch s.g.part (partyOf s.g) s
  else if publishFull q own s then
    preciseTrap (failOf 0xB1) word { s with p := { s.p with wait := .none } }
  else f (publishWhere q (curKey s) s)

/-- The Cuff entries of the lineage of the split at issue. -/
def inLineage (s : State) (e : CuffEntry) : Bool := meets e.lanes s.p.members

/-! ### Presenting and performing a turn (R61) -/

/-- Presents a turn at the key of the split at issue: while it waits, other paths run on its slices (R33; log entry 9). -/
def presentTurn (i : Instr) (s : State) : State :=
  lendSlices { s with p := { s.p with wait := .turn (curKey s) i } }

/-- A turn operation: in a deterministic launch it is presented and performs when it is admitted; otherwise it performs at
once. -/
def takeTurn (i : Instr) (perform : State → State) (s : State) : State :=
  if detNow s then presentTurn i s else perform s

/-- A turn that publishes the Cuff entries that `q` selects and enters the lines `own` is not presented where the spill area is
exhausted (R358). -/
def takePublishing (i : Instr) (q : State → CuffEntry → Bool) (own : State → List Nat) (perform : State → State) (s : State) :
    State :=
  if detNow s && publishFull (q s) (own s) s then preciseTrap (failOf 0xB1) (wordOf (encode i)) s else takeTurn i perform s

/-- Sets the last turn key, in a deterministic launch (R61). -/
def setTurn (s : State) : State :=
  if detNow s then { s with p := { s.p with lastTurn := some (curKey s) } } else s

/-- Lines of device memory that a turn writes at the given addresses, one for each Brim entry that it makes. -/
def turnLines (vas : List Word) : List Nat :=
  (vas.filter fun v => decide (regionOf (offsetOf v) ≠ 3) && !isControl v).map fun v => lineOf v

/-- A publishing turn: its publications, its last turn key, then what it does itself, which writes the lines `ls`. -/
def publishingTurn (word : BitVec 32) (ls : State → List Nat) (own : State → State) (s : State) : State :=
  if detNow s then publishing word (inLineage s) (ls s) (fun t => own (setTurn t)) s else own s

/-! ### Waiting for a floor (R409) -/

/-- The key at which the split at issue waits has been granted. -/
def gateOpen (s : State) : Bool :=
  match s.p.wait with
  | .gated k _ true => decide (k = curKey s)
  | _ => false

/-- In a deterministic launch an action waits until the workgroup's floor has reached the split's key. -/
def gateWg (s : State) : Verdict :=
  if detNow s && !gateOpen s && keyLt (wgFloor s (curLaunch s) s.g.wg) (curKey s) then
    .wait (.gated (curKey s) false false)
  else .ok

/-- Likewise for the floor of the determinism group. -/
def gateGroup (s : State) : Verdict :=
  if detNow s && !gateOpen s && keyLt (curLaunch s).floor (curKey s) then .wait (.gated (curKey s) true false)
  else .ok

/-- The first of two verdicts that is not ok. -/
def Verdict.andThen (a : Verdict) (b : Verdict) : Verdict :=
  match a with
  | .ok => b
  | v => v

/-- A check of a condition that raises a cause. -/
def failIf (b : Bool) (c : BitVec 8) : Verdict := if b then .fail (failOf c) else .ok

end Sys2Proof.Machine
end

