-- ==== Sys2Proof/Machine/Request.lean ====
section
/-! DEFINITION. Accesses on their way (spec/04_consistency.md R83 to R87; spec/05_memory_hierarchy.md R102, R105, R111,
R112; spec/03_logical_time.md R63, R65, R71): the order within a split, L1 copies, what a split forwards to itself, the
issue of a load and of a store, and the delivery of a result. -/

namespace Sys2Proof.Machine

/-! ### Parts of a request -/

def Req.off (q : Req) : Nat := offsetOf q.va
def Req.ref (q : Req) : LineRef := lineRef q.part q.asid q.off
/-- The access performs at a host-port gateway (R97). -/
def Req.aperture (q : Req) : Bool := decide (regionOf q.off = 3) && !isControl q.va

/-- The access has performed, or was refused: nothing waits for it any more (log entry 25). -/
def Req.settled (q : Req) : Bool :=
  match q.phase with
  | .done _ => true
  | .refused _ => true
  | _ => false

/-- Two accesses touch a common byte. -/
def overlaps (a b : Req) : Bool :=
  decide (a.va.toNat % 2 ^ 63 < b.va.toNat % 2 ^ 63 + b.size ∧ b.va.toNat % 2 ^ 63 < a.va.toNat % 2 ^ 63 + a.size)

/-- The store of a `rel` (R248). -/
def Req.release (q : Req) : Bool := bits q.word.toNat 23 9 == 0x125

/-- `r` is ordered before `q` by R86(a), R86(c), R87 or, for class O within one gang, by R92, or is an earlier lane of the same
instruction at the same place (R83). In a deterministic launch acquire and release order accesses of the host aperture only
(R98). -/
def before (r q : Req) : Bool :=
  r.gang == q.gang && decide (r.id < q.id) &&
    ((r.cls == 1 && q.cls == 1)
      || (meets r.lanes q.lanes &&
        ((r.acquire && (r.key.isNone || q.aperture)) || (q.release && (q.key.isNone || r.aperture)) || decide (r.id < q.after)
          || (overlaps r q && ((r.cls == 0 && q.cls == 0) || (r.pc == q.pc && r.serial == q.serial && r.clock == q.clock))))))

/-- A remote request of a parent split that has not been answered comes before the accesses of its children (R87). -/
def farBefore (r : RemoteReq) (q : Req) : Bool :=
  r.gang == q.gang && meets r.lanes q.lanes && decide (r.id < q.after) && decide (r.rest ≠ 0) && r.cmd.isNone

/-- The access has an entry in a late-fault store queue. -/
def queued (s : State) (q : Req) : Bool := s.late.any fun e => decide (e.reqId = some q.id)

/-- An access held at an HC does not keep `q` from it: a handler's access passes held writes, and any other joins the queue
behind them or waits there for the bytes it reads, so that the queue keeps their order (R368, R370). -/
def passesHeld (s : State) (r q : Req) : Bool :=
  decide (r.phase = .held) && (q.priv || (queued s r && !r.acquire && !decide (r.id < q.after)))

/-- What the release of a `.r` command of a free launch comes after is still to perform: every earlier access of its split, of every
class, its copies to and from peers among them (R95; R263, step 3). A handler's access passes held writes (`priv`). -/
def releaseWaits (s : State) (priv : Bool) (c : Cmd) : Bool :=
  c.rel && !(launchOf s c.launch).det &&
    ((s.reqs.any fun q => q.gang == c.gang && meets q.lanes c.lineage && decide (q.id < c.upto) && !q.settled
        && !(priv && decide (q.phase = .held)))
      || (s.remotes.any fun r => r.gang == c.gang && meets r.lanes c.lineage && decide (r.id < c.upto) && r.cmd.isNone
        && decide (r.rest ≠ 0))
      || s.cmds.any fun x => decide (x.op = .cpx) && x.gang == c.gang && meets x.lineage c.lineage && decide (x.id < c.id)
        && !copyEnded x)

/-- A `.r` command that a split issued before number `upto` has still to release: the split's later stores, reductions, atomics and
commands come after (R91, R95; log entry 91). -/
def releaseOwed (s : State) (priv : Bool) (gang : Nat) (lanes : BitVec 64) (upto : Nat) : Bool :=
  s.cmds.any fun c => c.gang == gang && meets c.lineage lanes && decide (c.id < upto ∧ c.phase = .table) && releaseWaits s priv c

/-- No earlier access that orders `q` is still to perform; a class O access to the own node comes after the class O copies there that its
gang issued before it (R92). -/
def eligible (s : State) (q : Req) : Bool :=
  (!s.reqs.any fun r => before r q && !r.settled && !passesHeld s r q) && (!s.remotes.any fun r => farBefore r q)
    && !(opWrites q.op && releaseOwed s q.priv q.gang q.lanes q.id)
    && !(q.cls == 1 && copyPending s q.gang (partOf s q.part).node q.id)

/-- Accesses of the split at issue that come before a remote access are still to perform: an acquire, accesses of a parent split, before
one that writes the release of a command (R86(c), R87, R95). -/
def earlierPending (s : State) (writes : Bool) : Bool :=
  (s.reqs.any fun r => r.gang == s.g.id && meets r.lanes s.p.members && !r.settled
      && ((r.acquire && r.key.isNone) || decide (r.id < s.p.after)))
    || (s.remotes.any fun r => r.gang == s.g.id && meets r.lanes s.p.members && decide (r.id < s.p.after) && decide (r.rest ≠ 0)
      && r.cmd.isNone)
    || (writes && releaseOwed s (isPriv s) s.g.id s.p.members s.nextId)

/-! ### The L1 of a core (R105, R111, R112) -/

/-- The elements of a list without repeats. -/
def nubPairs : List (Nat × Nat) → List (Nat × Nat)
  | [] => []
  | a :: r => if r.contains a then nubPairs r else a :: nubPairs r

/-- Lines that the L1 of a core holds beside its scratchpad (R105). -/
def l1Capacity (s : State) (core : Nat) : Nat := (4 - min 4 (mapGet 0 s.division core)) * 512

/-- Puts a copy into an L1; the oldest copies leave a full one. -/
def l1Insert (c : L1Line) (s : State) : State :=
  let s := l1Drop (fun x => x.core == c.core && x.ref == c.ref) s
  if l1Capacity s c.core = 0 then s
  else
    let mine := s.l1.filter fun x => x.core == c.core
    let s := if mine.length < l1Capacity s c.core then s
      else match mine with
        | [] => s
        | o :: _ => l1Drop (fun x => x.core == o.core && x.ref == o.ref) s
    { s with
      l1 := s.l1 ++ [c]
      lines := if c.coh = 1 then updateWhere (fun l => l.ref == c.ref)
          (fun l => { l with presence := l.presence ||| BitVec.ofNat 256 (2 ^ c.core) }) s.lines
        else s.lines }

/-- A copy serves a load: launch-read-only copies only their own launch (R112); in a free launch any copy without keys; in
a deterministic one a copy of its launch with S < V ≤ E and t ≠ E (R71). Pending bytes are not served (R111). -/
def copyServes (q : Req) (c : L1Line) : Bool :=
  c.core == q.core && c.ref == q.ref
    && (c.coh != 3 || c.launch == q.launch)
    && (match q.view with
        | none => c.startKey.isNone
        | some v => c.launch == q.launch && c.startKey.isSome
            && (c.coh == 3 || (keyLt (c.startKey.getD keyInf) v && keyLe v (c.expiry.getD keyZero) && decide (q.key ≠ c.expiry))))
    && !(c.pending.any fun i => decide (q.off % 128 ≤ i ∧ i < q.off % 128 + q.size))

/-- The bytes an L1 copy gives a load. -/
def l1Bytes (s : State) (q : Req) : Option (List Byte) :=
  (findFirst (copyServes q) s.l1).map fun c => (c.data.drop (q.off % 128)).take q.size

/-- The copy that a load leaves in its core's L1, unless its page is uncached or a store of the core to the line has performed
and is not yet acknowledged, or held bytes lie in it (R368); bytes of stores of the core that are still to perform are
pending. -/
def l1Fill (q : Req) (coh : BitVec 2) (data : List Byte) (keys : Option (Key × Key)) (s : State) : State :=
  let flying := s.reqs.filter fun r => r.core == q.core && r.ref == q.ref && (match r.op with
    | .store _ => true
    | _ => false)
  let held := (lateOf s q.part q.asid q.off).any fun e => offsetOf e.va / 128 == q.off / 128
  if coh = 2 ∨ q.nt ∨ q.priv || flying.any Req.settled || held then s
  else
    l1Insert { core := q.core, ref := q.ref, coh := coh, data := data
               pending := sortNub (flying.flatMap fun r => countFrom (r.off % 128) r.size)
               launch := q.launch, startKey := keys.map (·.1), expiry := keys.map (·.2) } s

/-! ### Forwarding within a split (R41, R63, R65) -/

/-- Bytes of [off, off + n), by position, that one store of [o, o + data.length) gives. -/
def coverBytes (off n o : Nat) (data : List Byte) (m : SMap Byte) : SMap Byte :=
  (countFrom 0 data.length).foldl (fun m i =>
    if off ≤ o + i ∧ o + i < off + n then mapInsert m (o + i - off) (getAt 0 data i) else m) m

/-- Bytes that the split's own stores give a load: those of the open region and, in a deterministic launch, the Cuff
entries of its lineage below them, the greatest store key last. In a free launch a store of another class than local is not ordered
with the load and gives it nothing (R86(a), R90). -/
def forwarded (s : State) (det : Bool) (va : Word) (n : Nat) : SMap Byte :=
  let off := offsetOf va
  let m := if det then
      ((cuffSorted (lineage s.p.members s.g.cuff)).filter fun e => e.line == off / 128 * 128).foldl
        (fun m e => e.data.foldl (fun m b => coverBytes off n (e.line + b.1) [b.2] m) m) []
    else []
  s.p.buffer.foldl (fun m b =>
    match b.tile, b.op with
    | none, .store d => if isControl b.va = isControl va ∧ nodeOf b.va = nodeOf va ∧ (det ∨ b.cls = 0) then coverBytes off n (offsetOf b.va) d m else m
    | _, _ => m) m

/-- Bytes with forwarded ones laid over them. -/
def layOver (fwd : SMap Byte) (l : List Byte) : List Byte := overlay 0 fwd l

/-- The store of class local of the open region that last wrote a byte: its place in the buffer, if there is one. -/
def lastWriter (node off : Nat) (i : Nat) : List BufStore → Option Nat → Option Nat
  | [], o => o
  | b :: r, o =>
    lastWriter node off (i + 1) r (match b.tile, b.op with
      | none, .store d =>
        if offsetOf b.va ≤ off ∧ off < offsetOf b.va + d.length ∧ nodeOf b.va = node ∧ !isControl b.va ∧ b.cls = 0 then some i else o
      | _, _ => o)

/-- The bytes of a load would come from more than one write that has not performed, or from such a write and from the home: another
party's write could come between them (R84). -/
def mixedWrites (s : State) (va : Word) (n : Nat) : Bool :=
  let ws := (countFrom (offsetOf va) n).map fun o => lastWriter (nodeOf va) o 0 s.p.buffer none
  ws.any fun w => decide (w ≠ getAt none ws 0)

/-- A buffered reduction or discard of the open region touches the bytes of a load, or buffered stores give only part of them: the
load performs after them, so the region commits first (R84, R86(a); log entry 26). -/
def bufferBlocks (s : State) (va : Word) (n : Nat) : Bool :=
  mixedWrites s va n || s.p.buffer.any fun b =>
    match b.tile, b.op with
    | none, .reduce _ _ _ _ _ => hit b
    | none, .discard => hit b
    | _, _ => false
where
  hit (b : BufStore) : Bool :=
    decide (b.cls = 0 ∧ nodeOf b.va = nodeOf va ∧ offsetOf b.va < offsetOf va + n ∧ offsetOf va < offsetOf b.va + b.size)

/-- A load of a deterministic launch from device memory reads at its view (R63). -/
def viewed (s : State) (va : Word) : Bool := detNow s && decide (regionOf (offsetOf va) ≠ 3)

/-- A load that reads no view touches bytes of a reduction or discard of its own open region, or would mix its buffered stores with other
bytes: an implicit region opens at it (R84, R86(a), R98; log entry 26). -/
def blockedLoad (n : Nat) (l : List (Nat × Word)) (s : State) : Bool := l.any fun e => !viewed s e.2 && bufferBlocks s e.2 n

/-! ### Delivering a result (R102, R152, R238) -/

/-- The value of loaded bytes in a 32-bit or 64-bit register. -/
def loadedValue (sx : Bool) (width : Nat) (data : List Byte) : Nat :=
  let x := leNat data
  if sx && decide (data.length * 8 < width) then wrapNat (sextInt x (data.length * 8)) width else x % 2 ^ width

/-- The 32-bit registers of a loaded value. -/
def loadedRegs (sx : Bool) (data : List Byte) : List (BitVec 32) :=
  if data.length ≤ 4 then [BitVec.ofNat 32 (loadedValue sx 32 data)]
  else (countFrom 0 (data.length / 4)).map fun j => BitVec.ofNat 32 (leNat ((data.drop (4 * j)).take 4))

/-- Registers that a destination names. -/
def destCodes : Dest → List Nat
  | .none => []
  | .scalar r => [codeS r]
  | .vector d n l => (countFrom d n).map fun r => codeV r l

/-- Marks a destination empty, awaiting request `id`. -/
def markEmpty (d : Dest) (id : Nat) (s : State) : State :=
  match d with
  | .none => s
  | .scalar r => setSEmpty r id s
  | .vector d n l => (countFrom d n).foldl (fun s r => setVEmpty r l id s) s

/-- Scalar results reach every split and every region entry that still awaits them. -/
def deliverScalar (r id : Nat) (v : Word) (st : RegState) (write : Bool) (q : Split) : Split :=
  let awaits (m : SMap RegState) : Bool := decide (mapGet .full m r = .empty id)
  let q := if awaits q.sstate then
      { q with sstate := mapSet .full q.sstate r st, sregs := if write then mapSet 0 q.sregs r v else q.sregs }
    else q
  { q with
    entry := q.entry.map fun e =>
      if awaits e.sstate then
        { e with sstate := mapSet .full e.sstate r st, sregs := if write then mapSet 0 e.sregs r v else e.sregs }
      else e }

/-- Vector results reach the register file and every region entry that still awaits them. -/
def deliverLane (k id : Nat) (v : BitVec 32) (st : RegState) (write : Bool) (vs : SMap (BitVec 32)) (ss : SMap RegState) :
    SMap (BitVec 32) × SMap RegState :=
  if mapGet .full ss k = .empty id then (if write then mapSet 0 vs k v else vs, mapSet .full ss k st) else (vs, ss)

/-- Applies a change to every split of every gang with a number. -/
def mapSplits (gang : Nat) (f : Split → Split) (s : State) : State :=
  let s := if s.g.id = gang then { s with p := f s.p } else s
  mapGang gang (fun g => { g with
    splits := g.splits.map f
    parked := g.parked.map fun e => (e.1, e.2.map f) }) s

/-- Writes a result to a destination that awaits request `id`: full with the loaded value, or, where `ok` is false, left with
its old value in the state given. -/
def deliverTo (gang id : Nat) (dest : Dest) (sx : Bool) (data : List Byte) (st : RegState) (ok : Bool) (s : State) : State :=
  match dest with
  | .none => s
  | .scalar r => mapSplits gang (deliverScalar r id (BitVec.ofNat 64 (loadedValue sx 64 data)) st ok) s
  | .vector d n l =>
    let vals := loadedRegs sx data
    (countFrom 0 n).foldl (fun s j =>
      let k := (d + j) * 64 + l
      let v := getAt 0 vals j
      let inEntry (p : Split) : Split := { p with
        entry := p.entry.map fun e =>
          let (vs, ss) := deliverLane k id v st ok e.vregs e.vstate
          { e with vregs := vs, vstate := ss } }
      mapGang gang (fun g =>
        let (vs, ss) := deliverLane k id v st ok g.vregs g.vstate
        { g with vregs := vs, vstate := ss }) (mapSplits gang inEntry s)) s

/-- Writes a result to the destination of a request, or marks it faulted where `ok` is false. -/
def deliverResult (q : Req) (data : List Byte) (ok : Bool) (s : State) : State :=
  deliverTo q.gang q.id q.dest q.sx data (if ok then .full else .faulted q.id) ok s

/-- The destination of a request still awaits it. -/
def awaited (s : State) (q : Req) : Bool :=
  match q.dest with
  | .none => false
  | .scalar r => (allGangs s).any fun e => e.1.id == q.gang && e.2.any fun p =>
      decide (mapGet .full p.sstate r = .empty q.id)
        || p.entry.any fun x => decide (mapGet .full x.sstate r = .empty q.id)
  | .vector d n l => (allGangs s).any fun e => e.1.id == q.gang &&
      ((countFrom d n).any fun r => decide (mapGet .full e.1.vstate (r * 64 + l) = .empty q.id)
        || e.2.any fun p => p.entry.any fun x => decide (mapGet .full x.vstate (r * 64 + l) = .empty q.id))

/-! ### Issuing a load -/

/-- A load as it leaves the split: with its forwarded bytes and, where the split's own stores or an L1 copy give every byte,
already performed. An access of class O, A or V of a free launch performs at its home (R143). -/
def loadReq (q : Req) (s : State) : Req :=
  let det := viewed s q.va
  let q := { q with
    id := s.nextId
    fwd := if !det && q.cls != 0 then [] else forwarded s det q.va q.size
    view := if det then some (curView s) else none
    key := if det then s.p.lastTurn else none }
  if q.fwd.length = q.size then { q with phase := .done (layOver q.fwd (List.replicate q.size 0)) }
  else
    match (if !det && q.cls != 0 then none else l1Bytes s q) with
    | some l => if det || eligible s q then { q with phase := .done (layOver q.fwd l) } else q
    | none => q

/-- Issues a load: its destination is empty until the value arrives. Event 0x010 counts loads that no L1 copy gives. -/
def issueLoad (q : Req) (s : State) : State :=
  let q := loadReq q s
  let s := match q.phase with
    | .sent => countEvent s.g.launch 0x010 1 s
    | _ => s
  sendReq q (markEmpty q.dest s.nextId s)

/-! ### Issuing a store (R41, R64, R67) -/

/-- A store as the split holds it. -/
def mkStore (s : State) (lane : Nat) (va : Word) (size : Nat) (op : AccessOp) (word : BitVec 32) : BufStore where
  va := va
  size := size
  op := op
  lane := lane
  pc := s.p.pc
  word := word
  clock := s.p.clock
  tile := none
  cls := 0
  serial := s.p.serial
  order := s.g.cuffSeq

/-- Lines of device memory that the open region's buffer covers. -/
def bufferLines (l : List BufStore) : List Nat :=
  sortNub ((l.filter fun b => decide (b.op ≠ .discard)).map fun b => lineKey b)
where
  /-- one number per line or tile line -/
  lineKey (b : BufStore) : Nat :=
    match b.tile with
    | some h => 2 ^ 60 + h * 2 ^ 20 + b.va.toNat / 128
    | none => b.va.toNat / 128

/-- The open region would hold more than 32 lines with these stores: an implicit region opens at them (R41). -/
def overfills (bs : List BufStore) (s : State) : Bool :=
  s.p.entry.isSome && !s.p.buffer.isEmpty && decide (Config.regionLines < (bufferLines (s.p.buffer ++ bs)).length)

/-- Holds stores in the region, or sends them where none is open: in a handler (R337). -/
def bufferStores (bs : List BufStore) (s : State) : State :=
  let bs := numberFrom s.g.cuffSeq bs
  let s := { s with g := { s.g with cuffSeq := s.g.cuffSeq + bs.length } }
  if s.p.entry.isNone then releaseAll bs s
  else { s with p := { s.p with buffer := s.p.buffer ++ bs } }
where
  /-- numbers the stores in the order in which they are made (R64) -/
  numberFrom (n : Nat) : List BufStore → List BufStore
    | [] => []
    | b :: r => { b with order := n } :: numberFrom (n + 1) r

/-- A store of an open region to device memory: a region-tagged entry of the Cuff buffer (R41). -/
def cuffStore (b : BufStore) : Bool :=
  match b.tile, b.op with
  | none, .store _ => decide (regionOf (offsetOf b.va) ≠ 3) && !isControl b.va
  | _, _ => false

/-- Cuff entries that a gang would hold with the stores of every open region of its splits and more (R41, R64). -/
def cuffAfter (s : State) (bs : List BufStore) : Nat :=
  let more := bufferStores.numberFrom s.g.cuffSeq bs
  let all := ({ s.p with buffer := s.p.buffer ++ more } :: s.g.splits).flatMap fun q =>
    (q.buffer.filter cuffStore).map fun b => (q.members, b)
  ((sortBy (fun a b => decide (a.2.order < b.2.order)) all).foldl (fun c e =>
    (linesOf (offsetOf e.2.va) e.2.size).foldl (fun c line =>
      cuffAdd [] { cuffEntryOf s e.2 [] line with lanes := e.1 } c) c) s.g.cuff).length

/-- Entries that the log in the context area holds beside the 64 on chip (R67). -/
def cuffRoom (s : State) : Nat := Config.cuffEntries + s.g.logCap

/-- The stores would overflow the unpublished store log (R67). -/
def logOverflows (s : State) (bs : List BufStore) : Bool := detNow s && decide (cuffRoom s < cuffAfter s bs)

end Sys2Proof.Machine
end

