-- ==== Sys2Proof/Machine/TaskIntake.lean ====
section
/-! DEFINITION. Task control blocks and intake (spec/12_isa_engines_system.md R275 to R277; spec/13_scheduling.md R286;
spec/02_work_hierarchy.md R25, R37; spec/15_programs_fabric_host.md R313): reading and checking a control block, group
descriptors, and the readying of a task by an update of its PRED. -/

namespace Sys2Proof.Machine

/-! ### Group descriptors (R277) -/

/-- Node of rank r in a list of descriptor entries. -/
def descNode (e : BitVec 64) : Nat := e.toNat % 1024

/-- No element of a list occurs twice. -/
def noRepeats : List Nat → Bool
  | [] => true
  | a :: r => !r.contains a && noRepeats r

/-- A descriptor as read: its GID and its node entries. -/
structure GroupDesc where
  gid : BitVec 32
  entries : List Nat
  deriving DecidableEq, Repr

/-- What the reading of a descriptor gives: a descriptor, one that R277 calls invalid or that cannot be read, or one that breaks an
obligation of R277 for which no outcome is stated, so that what it was read for is as if not issued (R1; log entry 99). -/
inductive DescRead where
  | valid (d : GroupDesc)
  | invalid
  | void
  deriving DecidableEq, Repr

/-- The descriptor, where it is valid. -/
def DescRead.desc? : DescRead → Option GroupDesc
  | .valid d => some d
  | _ => none

/-- Reads the group descriptor at an address by a way to read memory, for a partition. -/
def readDescBy (rd : Nat → Nat → Except (BitVec 8) (List Byte)) (q : Partition) (va : Word) : DescRead :=
  let off := offsetOf va
  if isControl va ∨ nodeOf va ≠ q.node ∨ off % 64 ≠ 0 then .void
  else
    match rd off 16 with
    | .error _ => .invalid
    | .ok h =>
      let w0 := leNat (h.take 8)
      let g := bits w0 0 11
      if g = 0 ∨ 1024 < g ∨ bits w0 11 21 ≠ 0 ∨ leNat (h.drop 8) ≠ 0 then .void
      else
        match rd (off + 16) (2 * g) with
        | .error _ => .invalid
        | .ok l =>
          let es := (countFrom 0 g).map fun r => leNat ((l.drop (2 * r)).take 2)
          let nodes := es.map fun e => e % 1024
          if es.any (fun e => decide (1024 ≤ e)) then .void
          else if !noRepeats nodes || !nodes.all (fun n => q.members.contains n) || !nodes.contains q.node then .invalid
          else .valid { gid := BitVec.ofNat 32 (w0 / 2 ^ 32), entries := nodes }

/-- Reads a group descriptor at its home. -/
def readDesc (s : State) (part asid : Nat) (va : Word) : DescRead := readDescBy (devRead s part asid) (partOf s part) va

/-- Position of a number in a list. -/
def rankOf (n : Nat) : List Nat → Nat
  | [] => 0
  | a :: r => if a = n then 0 else 1 + rankOf n r

/-! ### The control block (R275) -/

/-- Word j of a control block's bytes. -/
def tcbWord (b : List Byte) (j : Nat) : Nat := leNat ((b.drop (8 * j)).take 8)

/-- The 128 bytes of a control block as its home holds them. -/
def tcbBytes (s : State) (part asid off : Nat) : List Byte := baseBytes s part asid (off / 128 * 128) 128

/-- The launch that a control block describes; QEXP and LAG read their defaults in a free launch (R55). -/
def launchOfTcb (s : State) (part asid off : Nat) (b : List Byte) (sizes : List Nat) (desc : Option GroupDesc) : Launch :=
  let w (j : Nat) : Nat := tcbWord b j
  let det := bits (w 4) 32 3 != 0
  { Launch.vacant with
    id := s.nextId
    part := part
    asid := asid
    tcb := userVA (partOf s part).node (off / 128 * 128)
    phase := .intake
    nsucc := bits (w 0) 32 16
    succp := BitVec.ofNat 64 (w 1)
    entryVA := BitVec.ofNat 64 (w 2)
    wpc := bits (w 3) 33 2 + 1
    cg := (w 3).testBit 32
    nunit := bits (w 3) 0 32
    obs := (w 4).testBit 45
    oph := bits (w 4) 42 3
    lag := if det then bits (w 4) 40 2 else 1
    qexp := if det then bits (w 4) 35 5 else 12
    dscope := bits (w 4) 32 3
    conc := min (bits (w 4) 16 16) (bits (w 3) 0 32)
    ngang := bits (w 4) 8 5
    width := bits (w 4) 0 8
    tiles := sizes
    scratch := bits (w 5) 0 10 * 512
    argp := BitVec.ofNat 64 (w 6)
    ctxLog := (bits (w 7) 16 10 + 1) * 64
    prio := bits (w 7) 8 4
    dgrp := BitVec.ofNat 64 (w 10)
    gid := (desc.map fun d => d.gid).getD 0
    desc := (desc.map fun d => d.entries.map (BitVec.ofNat 64)).getD []
    members := (desc.map fun d => d.entries).getD []
    mrank := (desc.map fun d => rankOf (partOf s part).node d.entries).getD 0
    mcount := (desc.map fun d => d.entries.length).getD 1 }

/-- Every field lies in its range, the reserved fields are 0, and the fields agree with one another. -/
def tcbFieldsOk (s : State) (part : Nat) (b : List Byte) : Bool :=
  let w (j : Nat) : Nat := tcbWord b j
  let node := (partOf s part).node
  let dsc := bits (w 4) 32 3
  let ngang := bits (w 4) 8 5
  let here (a : Nat) : Bool := !isControl (BitVec.ofNat 64 a) && nodeOf (BitVec.ofNat 64 a) == node
  bits (w 0) 48 16 == 0
    && (bits (w 0) 32 16 == 0 || (w 1 % 8 == 0 && here (w 1)))
    && w 2 % 4 == 0
    && bits (w 3) 35 29 == 0 && bits (w 3) 0 32 != 0 && ((w 3).testBit 32 || bits (w 3) 33 2 == 0)
    && bits (w 4) 46 18 == 0 && bits (w 4) 13 3 == 0 && decide (bits (w 4) 42 3 < 4) && decide (dsc < 3)
    && (dsc == 0 || decide (8 ≤ bits (w 4) 35 5 ∧ bits (w 4) 35 5 ≤ 20))
    && bits (w 4) 16 16 != 0
    && decide (1 ≤ ngang ∧ ngang ≤ 16)
    && [8, 16, 32, 64].contains (bits (w 4) 0 8)
    && decide (bits (w 5) 10 7 ≤ 64) && decide (bits (w 5) 0 10 ≤ 512)
    && bits (w 7) 26 38 == 0 && bits (w 7) 12 4 == 0 && bits (w 7) 3 5 == 0 && bits (w 7) 0 3 == part
    && (w 10 == 0) == (dsc != 2)

/-- The tile sizes that TLIST names, in bytes; none where the list cannot be read. -/
def readTiles (s : State) (part asid : Nat) (b : List Byte) : Option (List Nat) :=
  let w5 := tcbWord b 5
  let n := bits w5 10 7
  if n = 0 then some []
  else
    match devRead s part asid (bits w5 17 47 * 64) n with
    | .error _ => none
    | .ok l => if l.all fun x => decide (x.toNat < 128) then some (l.map fun x => (x.toNat + 1) * 512) else none

/-- The outcome of the checks of intake: the launch, its refusal, or a submission that is as if not made (R1; log entry 99). -/
inductive IntakeAnswer where
  | admitted (l : Launch)
  | refused
  | void
  deriving DecidableEq, Repr

/-- The checks of intake (R275, R277). -/
def checkTcb (s : State) (part asid off : Nat) (b : List Byte) : IntakeAnswer :=
  if !tcbFieldsOk s part b then .refused
  else
    match readTiles s part asid b with
    | none => .refused
    | some sizes =>
      if bits (tcbWord b 5) 0 10 * 512 < total sizes then .refused
      else if bits (tcbWord b 4) 32 3 = 2 then
        match readDesc s part asid (BitVec.ofNat 64 (tcbWord b 10)) with
        | .invalid => .refused
        | .void => .void
        | .valid d =>
          if d.entries.any fun n => (partOf s part).noDdom.contains n then .refused
          else .admitted (launchOfTcb s part asid off b sizes (some d))
      else .admitted (launchOfTcb s part asid off b sizes none)

/-! ### A partition in reset, a port that is down (R320, R324, R396, R399) -/

/-- A host port. -/
def portOf (s : State) (port : Nat) : Port := getAt Port.reset s.ports port

/-- n bytes of a mailbox. -/
def mailBytes (s : State) (port off n : Nat) : List Byte := (countFrom off n).map fun i => mapGet 0 (portOf s port).mailbox i

/-- A word of a mailbox. -/
def mailWord (s : State) (port off : Nat) : Nat := leNat (mailBytes s port off 8)

/-- The partition is being reset: the system controller is busy with its RESET or DESTROY (R320, R324). -/
def beingReset (s : State) (part : Nat) : Bool :=
  s.posted.head?.any fun port =>
    let w := mailWord s port 0
    bits w 16 16 == 2 && (bits w 0 8 == 2 || bits w 0 8 == 3) && bits w 8 8 == part && (partOf s part).port == port

/-- The intake of a partition takes nothing in: it is being reset, or its host link is lost (R324, R396). -/
def intakeShut (s : State) (part : Nat) : Bool := beingReset s part || (portOf s (partOf s part).port).down

/-! ### Entering intake (R286, R313) -/

/-- The address space of a task: that of its control block's frame record; one whose control block lies in the global region
takes a free value (log entry 8). -/
def taskAsid (s : State) (asid off : Nat) : Nat := if regionOf off = 2 then Config.taskAsid s.nextId % 4095 else asid

/-- The control block belongs to a task in intake or running. One in the global region is the same in every address space. -/
def taskKnown (s : State) (part : Nat) (asid off : Nat) : Bool :=
  (s.launches.any fun l => l.part == part && decide (l.phase ≠ .retired) && offsetOf l.tcb == off / 128 * 128
      && (regionOf off == 2 || l.asid == asid))
    || s.readied.any fun e => e.1 == part && e.2.2 / 128 == off / 128 && (regionOf off == 2 || e.2.1 == asid)

/-- The intake list of a partition runs through bytes 88 to 127 of the control blocks on it, in a layout of the device's own: as the
list changes the task unit writes them (R286; log entry 79). -/
def relink (part : Nat) (s : State) : State :=
  (partOf s part).intake.foldl (fun s id =>
    let l := launchOf s id
    let data := (countFrom 0 40).map (Config.linkByte s.nextId)
    devStore l.part l.asid (l.tcb + 88) (.store data) data { s with nextId := s.nextId + 1 }) s

/-- A checked task joins its partition's intake list. -/
def joinIntake (part : Nat) (l : Launch) (s : State) : State :=
  relink part (mapPart part (fun q => { q with intake := q.intake ++ [l.id] })
    { s with launches := s.launches ++ [l], nextId := s.nextId + 1 })

/-- The refusal of a task is written to its control block. -/
def refuseIntake (part asid off : Nat) (obs : Bool) (s : State) : State :=
  writeComp { Launch.vacant with part := part, asid := asid, tcb := userVA (partOf s part).node (off / 128 * 128), obs := obs }
    2 0xD0 s

/-- What the checks of intake lead to: admission, refusal, or nothing. -/
def settleIntake (part asid off : Nat) (obs : Bool) (r : IntakeAnswer) (s : State) : State :=
  match r with
  | .admitted l => joinIntake part l s
  | .refused => refuseIntake part asid off obs s
  | .void => s

/-- The bytes that the task unit reads as it takes in a task: control block, tile list, descriptor (R275, R277). -/
def intakeReads (s : State) (part a off : Nat) (b : List Byte) : List (Nat × Nat) :=
  let d := BitVec.ofNat 64 (tcbWord b 10)
  let n := bits (tcbWord b 5) 10 7
  [(off / 128 * 128, 128)]
    ++ (if n = 0 then [] else [(bits (tcbWord b 5) 17 47 * 64, n)])
    ++ (if bits (tcbWord b 4) 32 3 ≠ 2 ∨ isControl d then []
        else [(offsetOf d, 16), (offsetOf d + 16, 2 * bits (leNat (baseBytes s part a (offsetOf d) 8)) 0 11)])

/-- A line of a read is in P, or a host may have modified it. -/
def taskUnreadable (s : State) (part asid off n : Nat) : Bool :=
  (s.lines.any fun l => decide (l.state = .p) && refIn part asid off n l.ref) || hostsHold s part asid off n

/-- TASK_ENTER_INTAKE: a readied task is checked; it joins its partition's intake list, or its refusal is written (R276). What a
host may have modified of it is asked for first (R149); while the intake takes nothing in, the task waits (R396). -/
def enterIntake (part asid off : Nat) (s : State) : State :=
  if intakeShut s part then { s with readied := s.readied ++ [(part, asid, off)] } else
  let b := tcbBytes s part asid off
  let a := taskAsid s asid off
  match findFirst (fun e => taskUnreadable s part a e.1 e.2) (intakeReads s part a off b) with
  | some e => askHosts part a e.1 e.2 { s with readied := s.readied ++ [(part, asid, off)] }
  | none => settleIntake part a off ((tcbWord b 4).testBit 45) (checkTcb s part a off b) s

/-- The task unit looks again at the tasks that it could not read. -/
def retryIntake (s : State) : State :=
  s.readied.foldl (fun s e => if taskKnown s e.1 e.2.1 e.2.2 then s else enterIntake e.1 e.2.1 e.2.2 s) { s with readied := [] }

/-- The page of an offset holds task control blocks. -/
def onTaskPage (s : State) (part asid off : Nat) : Bool :=
  match walk s part asid off with
  | some l => Pte.task l.entry
  | none => false

/-- An operation on [off, off + n) took PRED of the control block there from `before` to `after`: at 0 the task becomes ready
and enters intake. -/
def readyTask (part asid off : Nat) (before after : Nat) (s : State) : State :=
  if before ≠ 0 ∧ after = 0 ∧ onTaskPage s part asid off ∧ !taskKnown s part asid off then enterIntake part asid off s
  else s

/-- Runs an atomic or a reduction on [off, off + n) of a line whose bytes `read` gives, and readies the task whose PRED it
brought to 0. -/
def withReady (part asid off : Nat) (read : State → Nat → Nat → List Byte) (f : State → State) (s : State) : State :=
  if off % 128 < 4 then
    let base := off / 128 * 128
    let before := leNat (read s base 4)
    let s := f s
    readyTask part asid off before (leNat (read s base 4)) s
  else f s

end Sys2Proof.Machine
end

