-- ==== Sys2Proof/Machine/HomeSteps.lean ====
section
/-! DEFINITION. What happens to an access at its home (spec/06_coherence_fabric.md R128, R130, R148 to R150;
spec/19_faults_execution_memory.md R364 to R371; spec/03_logical_time.md R63, R66 to R74): serving a load, performing a write,
the home controller's answer, the pending state of a line, and the answers that return to the core. -/

namespace Sys2Proof.Machine

/-! ### Operands of steps -/

/-- Runs a step on the number it names; without one nothing happens. -/
def onNum (f : Nat → State → State) (s : State) : State :=
  match s.arg with
  | .num a => f a s
  | _ => s

/-- Runs a step on the two numbers it names. -/
def onNum2 (f : Nat → Nat → State → State) (s : State) : State :=
  match s.arg with
  | .num2 a b => f a b s
  | _ => s

/-- The request with a number. -/
def reqOf (s : State) (id : Nat) : Option Req := findFirst (fun q => q.id == id) s.reqs

/-- Runs a step on the request it names. -/
def onReq (f : Req → State → State) (s : State) : State :=
  onNum (fun id s => match reqOf s id with
    | some q => f q s
    | none => s) s

def setPhase (id : Nat) (p : Phase) (s : State) : State := mapReq id (fun q => { q with phase := p }) s

/-! ### Deferred store faults (R340) -/

/-- A deferred fault takes in one more entry: LANES is the union, VA that of the lowest lane. -/
def widen (e : LateEntry) (f : HeldFault) : HeldFault :=
  { f with
    lanes := f.lanes ||| e.lanes
    lineage := f.lineage ||| e.lanes
    va := if lowest e.lanes < lowest f.lanes then e.va else f.va }

/-- An entry joins the deferred fault of its instruction. -/
def joinFault (e : LateEntry) (c : BitVec 8) (fs : List HeldFault) : List HeldFault :=
  let mine (f : HeldFault) : Bool := f.kind == 2 && f.serial == e.serial && f.pc == e.pc
  if fs.any mine then
    updateWhere mine (widen e) fs
  else
    fs ++ [{ kind := 2, cause := c, sub := 0, pc := e.pc, va := e.va, lanes := e.lanes, serial := e.serial, clock := e.clock
             pnode := 0, lineage := e.lanes, key := e.key, counter := none, cmd := none }]

/-- The record of an entry reaches the gang it is attributed to; a gang that has ended leaves it to the fault queue. -/
def recordLate (e : LateEntry) (s : State) : State :=
  let told := e.cause.isSome && (e.gang.bind fun n => gangOf s n).any fun g => g.told.contains (e.serial, e.pc)
  let s := { s with
    late := updateWhere (fun x => x.id == e.id) (recordEntry told) s.late }
  match e.cause, e.gang with
  | some c, some n =>
    if told then s
    else
      match gangOf s n with
      | some g =>
        if g.ended then toQueue e c s else mapGang n (fun g => { g with faults := joinFault e c g.faults }) s
      | none => toQueue e c s
  | _, _ => s
where
  /-- the entry's record has gone; nothing of it is delivered where its instruction has already trapped, or it follows -/
  recordEntry (told : Bool) (x : LateEntry) : LateEntry :=
    { x with recorded := true, delivered := told || x.delivered || x.cause.isNone }
  /-- KIND 2 to the fault queue -/
  toQueue (e : LateEntry) (c : BitVec 8) (s : State) : State :=
    faultQueue e.part (recordHead { kind := 2, cause := c, sub := 0, pc := e.pc, va := e.va, lanes := e.lanes,
                                    serial := e.serial, clock := e.clock, pnode := 0, n := 0, word := 0 }
      { gangid := e.gangid, wg := e.wg, asid := e.asid, part := e.part })
      { s with
        late := updateWhere (fun x => x.id == e.id) (fun x => { x with delivered := true, filed := true }) s.late }

/-- The records of one HC come in the order of its entries: those before an entry come first. -/
def recordUpTo (e : LateEntry) (s : State) : State :=
  (s.late.filter fun x => x.hc == e.hc && !x.recorded && decide (x.id ≤ e.id)).foldl (fun s x => recordLate x s) s

/-- DEFERRED_FAULT_RECORD (R340): a record reaches the gang it is attributed to. -/
def execDeferredFaultRecord (s : State) : Host.Outcome State Fault Refusal :=
  .next (onNum (fun id s =>
    match findFirst (fun e => e.id == id && !e.recorded) s.late with
    | none => s
    | some e => recordUpTo e s) s)

/-! ### Entries that are freed, and discards (R125, R368, R371, R372) -/

/-- Takes an entry out of its queue. A fault of it that has not been recorded yet is, so that it is still delivered (R373). -/
def freeLate (e : LateEntry) (s : State) : State :=
  let s := if e.recorded then s else recordUpTo e s
  { s with late := s.late.filter fun x => x.id != e.id }

/-- The bytes of a Brim entry that were held are gone. -/
def dropHeldBytes (b : Nat) (s : State) : State :=
  { s with
    brim := (updateWhere (fun x => x.id == b)
      (fun x => { x with data := x.data.filter fun d => !x.held.contains d.1, held := [] }) s.brim).filter
      fun x => !(x.id == b && x.data.isEmpty) }

/-- The launch of the access that an entry stands for. -/
def lateLaunch (s : State) (e : LateEntry) : Option Nat :=
  match e.gang.bind fun n => gangOf s n with
  | some g => some g.launch
  | none => (e.reqId.bind fun id => reqOf s id).map fun q => q.launch

/-- A dropped store whose record went to the fault queue because its gang had ended: its launch `l` retires with the cause of the
record (R340). -/
def endsLaunch (e : LateEntry) (l : Option Nat) (s : State) : State :=
  match e.cause, l with
  | some c, some n => if e.filed then mapLaunch n (fun l => { l with ended := some (c, 3) }) s else s
  | _, _ => s

/-- One entry is freed without performing: an atomic is answered as a refusal, a copy that showed the stored bytes goes. -/
def dropFreed (first : BitVec 8) (e : LateEntry) (s : State) : State :=
  let s := freeLate e s
  match e.brim with
  | some b => dropHeldBytes b s
  | none =>
    match e.reqId.bind fun id => reqOf s id with
    | some q =>
      (match q.op with
        | .rmw _ _ _ _ _ _ => setPhase q.id (.refused first) s
        | .count _ _ => if q.gang = 0 then dropReq q.id s else setPhase q.id (.refused first) s
        | _ => dropReq q.id (l1Drop (fun c => c.core == q.core && c.ref == q.ref) s))
    | none =>
      match e.op, e.node with
      | .rmw _ _ _ _ _ _, some port => { s with outbox := s.outbox ++ [.hostAbort port] }
      | .store _, some port => { s with outbox := s.outbox ++ [.hostComplete port] }
      | _, _ => s

/-- An entry is dropped: its fault is recorded first, and where that record went to the fault queue its launch ends with it (R340,
R373). -/
def dropEntry (first : BitVec 8) (e : LateEntry) (s : State) : State :=
  let s := if e.recorded then s else recordUpTo e s
  let e := (findFirst (fun x => x.id == e.id) s.late).getD e
  endsLaunch e (lateLaunch s e) (dropFreed first e s)

/-- Every held entry of a granule is freed as DROP frees it. -/
def dropGranuleEntries (part asid off : Nat) (s : State) : State :=
  let first := firstCause s part asid off
  (lateOf s part asid off).foldl (fun s e => dropEntry first e s) s

/-- Discards one granule at its HC: its lines go without write-back, DEAD is set, the frame's contents are released; where HELD was
set it is cleared and the granule's entries are freed (R125). -/
def discardGranule (part asid off : Nat) (s : State) : State :=
  match walk s part asid off with
  | none => s
  | some l =>
    let base := l.pa / 65536 * 65536
    let s := if Pte.held l.entry then dropGranuleEntries part asid off s else s
    let s := dropGranuleLines part asid off s
    let s := { s with mem := memZero s.mem base (base + 65536),
                      badLines := s.badLines.filter fun b => b * 128 / 65536 != base / 65536 }
    writePte l.entryPa (Pte.setBit (Pte.setBit l.entry 57 false) 55 (l.pageBits == 16 || Pte.dead l.entry)) s

/-- The lines of a granule on which a deterministic launch holds entries or updates. -/
def granuleRefs (s : State) (part asid off : Nat) : List LineRef :=
  ((s.brim.map fun e => e.ref) ++ s.mitten.map fun u => lineRef u.part u.asid (offsetOf u.va)).filter fun r =>
    r.part == part && r.asid == tagAsid asid off && r.va / 65536 == off / 65536

/-- A discard performs: of a whole granule, or of the lines that have not joined the entries of a held granule. It is an update of each
line (R394). -/
def performDiscard (q : Req) (s : State) : State :=
  if q.size = 65536 then
    (granuleRefs s q.part q.asid q.off).foldl (fun s r => foreignUpdate q.launch r s) (discardGranule q.part q.asid q.off s)
  else writePieces 0 q.part q.asid q.off (List.replicate q.size 0) (pieces q.off q.size) s

/-! ### Which way an access performs -/

/-- An access of a deterministic launch to device memory: at its view, or at the key of its turn. -/
def Req.keyed (q : Req) : Bool := (q.view.isSome || q.key.isSome) && !q.aperture

/-- Bytes of a line that an access of the launch reads at its home (R63, R66); a free launch reads the base line. -/
def homeBytes (s : State) (q : Req) (off n : Nat) : List Byte :=
  if !q.keyed then baseBytes s q.part q.asid off n
  else
    match q.view with
    | some v => versionBytes s q.launch q.part q.asid off n (inView v q.key)
    | none => versionBytes s q.launch q.part q.asid off n (atKey (q.key.getD keyZero))

/-- The keys of a copy filled by a deterministic load at view v (R71). -/
def copyKeys (s : State) (q : Req) (v : Key) : Key × Key :=
  let es := brimOf s q.launch q.ref
  let l := launchOf s q.launch
  let start := match (es.filter fun e => inView v q.key e.key).map fun e => e.key with
    | [] => mergeBoundary l
    | k :: r => r.foldl keyMax k
  (start, keyMin (leastKey ((es.filter fun e => !inView v q.key e.key).map fun e => e.key)) l.floor)

/-- An acquire of cluster scope or wider drops the self-invalidating copies of its core (R89, R111, R248). -/
def acquireDrop (q : Req) (s : State) : State :=
  if q.drops then l1Drop (fun c => c.core == q.core && c.coh == 0 && c.startKey.isNone) s else s

/-- A load performs at its home: its value is fixed, its core's L1 takes a copy, unless it is an acquire. -/
def performLoad (q : Req) (coh : BitVec 2) (s : State) : State :=
  let data := layOver q.fwd (homeBytes s q q.off q.size)
  let s := setPhase q.id (.done data) s
  let s := acquireDrop q s
  if q.acquire || q.priv || (q.key.isSome && q.view.isNone) then s
  else l1Fill q coh (homeBytes s q q.ref.va 128) (q.view.map fun v => copyKeys s q v) s

/-- An operation that can bring a predecessor count to 0 (R313): an atomic or a reduction, not a plain store. -/
def counts : AccessOp → Bool
  | .rmw _ _ _ _ _ _ => true
  | .reduce _ _ _ _ _ => true
  | .count _ _ => true
  | _ => false

/-- A write performs at its home (R85, R246): a turn of a deterministic launch enters Brim at its key (R66), a discard
drops its granule (R125), every other write changes the base line. -/
def performWriteOnly (q : Req) (s : State) : State :=
  match q.op with
  | .discard => setPhase q.id (.done []) (performDiscard q s)
  | _ =>
    let old := homeBytes s q q.off q.size
    let new := opBytes q.op old
    let s := match q.op with
      | .store _ => s
      | _ => l1Drop (fun c => c.core == q.core && c.ref == q.ref) s
    let s := if q.keyed then
        publishAt q.launch q.part q.asid q.off (q.key.getD keyZero) new s
      else writeBase q.launch q.part q.asid q.off new s
    setPhase q.id (.done old) s

/-- A write performs, and readies the task whose predecessor count it brought to 0 (R313). -/
def performWrite (q : Req) (s : State) : State :=
  if counts q.op then withReady q.part q.asid q.off (fun s o n => homeBytes s q o n) (performWriteOnly q) s
  else performWriteOnly q s

/-! ### The pending state of a line (R128, R130, R149) -/

/-- The step that repeats the access for which a line left P. -/
def resumeMove (s : State) (a : Arg) : List Move :=
  match a with
  | .num id => match reqOf s id with
    | some q => [.agent (if opWrites q.op then .homeLocalStore else if q.view.isSome then .detLoadPerform else .homeLocalLoad) a]
    | none => []
  | .fabric _ => [.agent .fabricRequestArrive a]
  | .hostRead _ _ _ _ => [.agent .hostMemrd a]
  | .hostWrite _ _ _ _ _ => [.agent .hostMemwr a]
  | .hostAtomic _ _ _ _ _ _ => [.agent .hostAtomic a]
  | _ => []

/-- A line with every answer in leaves P: its access, which came before those that wait for the line, is the next step, and the
bytes of the device's own writes have performed. -/
def leavePending (r : LineRef) (s : State) : State :=
  match findLine s r with
  | none => s
  | some l =>
    if l.state = .p ∧ l.acks = [] ∧ l.hostAcks = [] then
      let s := retryIntake (mapLine r (fun l => { l with state := .d, resume := .none, share := false, laid := [] }) s)
      { s with
        hostQueue := (if l.resume = .none then [] else [(r, l.resume)]) ++ s.hostQueue
        agenda := resumeMove s l.resume ++ s.agenda }
    else s

/-- Copies that a write by a core (256 for none) must invalidate first: other cores in the presence vector, nodes outside,
hosts. -/
def copyHolders (s : State) (l : Line) (core : Nat) : List CopyHolder × List Nat :=
  let d := outDirOf s l.ref
  ((((countFrom 0 256).filter fun n => n != core && l.presence.getLsbD n).map CopyHolder.core)
      ++ (if l.out then (outsideNodes s l.ref.part d.dev).map CopyHolder.node else []),
    if l.out then hostPorts d (fun h => h != 0) else [])

/-- A write at a line that admits it: performed at once where no copy must go first, else the line goes to P. Entries of
Brim are no writes of the base line, but one that reads it asks a host for it first (R149). -/
def serveWrite (q : Req) (l : Line) (s : State) : State :=
  if q.keyed then
    let plain := match q.op with
      | .store _ => true
      | _ => false
    if plain || dirtyHosts s l.ref == [] then performWrite q s
    else setPhase q.id .pending (beginPending l.ref [] (dirtyHosts s l.ref) true (.num q.id) s)
  else
    let (acks, hosts) := copyHolders s l q.core
    if acks = [] ∧ hosts = [] then performWrite q s
    else setPhase q.id .pending (beginPending l.ref acks hosts false (.num q.id) s)

/-- A load at a line held in the L2: a host that may have modified the line is asked for it first (R149). -/
def serveLoad (q : Req) (l : Line) (s : State) : State :=
  if dirtyHosts s l.ref = [] then performLoad q l.coh s
  else beginPending l.ref [] (dirtyHosts s l.ref) true (.num q.id) s

/-! ### What an access follows -/

/-- Updates of the launch that a read at key k must follow are still to be applied (R72). -/
def updatesBelow (s : State) (launch : Nat) (r : LineRef) (k : Key) : Bool :=
  (s.updates ++ s.mitten ++ s.retry).any fun u => u.launch == launch && lineRef u.part u.asid (offsetOf u.va) == r && keyLt u.key k

/-- A turn's access follows the publications of its own gang (R66) and the updates below its key. -/
def turnReady (s : State) (q : Req) : Bool :=
  match q.key, q.view with
  | some k, none => !(s.pubs.any fun b => b.gang == q.gang && !b.answered && keyLe b.key k)
      && !updatesBelow s q.launch q.ref k
  | _, _ => true

/-- A load of a pre-empted gang is reissued when the gang resumes (R104). -/
def onCore (s : State) (q : Req) : Bool := opWrites q.op || (gangOf s q.gang).elim true fun g => g.resident

/-- The access may reach its home now. -/
def mayArrive (s : State) (q : Req) : Bool :=
  q.view.isNone && eligible s q && turnReady s q && (decide (q.phase = .sent) || decide (q.phase = .pending)) && onCore s q

/-- The floor has reached the view, and what the view includes has been applied. -/
def viewReady (s : State) (q : Req) : Bool :=
  match q.view with
  | none => false
  | some v => decide (q.phase = .sent) && keyLe v (launchOf s q.launch).floor && !updatesBelow s q.launch q.ref v
    && !ownOnTheWay s q.launch q.ref v q.key && onCore s q
where
  /-- publications and turns that the view includes are still on their way to the line: those of the last turn itself -/
  ownOnTheWay (s : State) (launch : Nat) (r : LineRef) (v : Key) (t : Option Key) : Bool :=
    (s.pubs.any fun b => b.launch == launch && b.ref == r && !b.answered && inView v t b.key)
      || (s.reqs.any fun q => q.launch == launch && q.view.isNone && opWrites q.op && q.ref == r && !q.settled
        && (match q.key with
          | some k => inView v t k
          | none => false))

/-! ### Requests that wait at a home (R128, R131) -/

/-- A request that waits at a home could be served, but for the line. -/
def waits (s : State) (e : LineRef × Arg) : Bool :=
  match e.2 with
  | .num id => (reqOf s id).any (fun q => mayArrive s q || viewReady s q || (decide (q.phase = .held) && !queued s q))
    || s.pubs.any (fun b => b.id == id && b.stalled) || s.updates.any (fun u => u.id == id && u.stalled)
    || s.cmds.any fun c => c.id == id && !c.suspended && decide (c.phase ≠ .finished)
  | _ => true

/-- The request is the first of those that wait for a line, or the first to come. -/
def firstHere (s : State) (r : LineRef) (a : Arg) : Bool :=
  match findFirst (fun e => e.1 == r && (waits s e || decide (e.2 = a))) s.hostQueue with
  | none => true
  | some e => decide (e.2 = a)

/-- The request is the first of those that wait for a line, or the first to come, and the line is not in P: requests of cores,
hosts and other devices are served in arrival order (R128). -/
def mayServe (s : State) (r : LineRef) (a : Arg) : Bool :=
  !((findLine s r).any fun l => decide (l.state = .p)) && firstHere s r a

/-- A request joins those that wait, unless it waits already. -/
def park (r : LineRef) (a : Arg) (s : State) : State :=
  if s.hostQueue.contains (r, a) then s else { s with hostQueue := s.hostQueue ++ [(r, a)] }

/-- A request that is served waits no longer. -/
def unpark (r : LineRef) (a : Arg) (s : State) : State :=
  { s with
    hostQueue := s.hostQueue.filter fun e => decide (e ≠ (r, a))
    noted := s.noted.filter fun e => decide (e ≠ (r, a)) }

/-- A request of a host or of another device stalls at its home for want of room in the late-fault store queue: one record, with the cause
of the granule's first held entry where it has none of its own (R369). -/
def stallNoted (r : LineRef) (a : Arg) (va : Word) (c : Option (BitVec 8)) (s : State) : State :=
  if s.noted.contains (r, a) then park r a s
  else
    park r a (faultQueue r.part (recordHead { kind := 2, cause := c.getD (firstCause s r.part r.asid r.va), sub := 0, pc := 0, va := va
                                              lanes := 0, serial := 0, clock := 0, pnode := 0, n := 0, word := 0 }
      { gangid := 0, wg := 0, asid := r.asid, part := r.part }) { s with noted := (r, a) :: s.noted })

/-! ### Held granules (R368 to R371) -/

/-- The entry stands for a publication of a launch, whose views decide whether its bytes are awaited (R371). -/
def ownHeld (s : State) (launch : Nat) (e : LateEntry) : Bool :=
  e.brim.any fun b => s.brim.any fun x => x.id == b && x.launch == launch

/-- A load waits on held bytes: an unprivileged load that late-fault entries overlap, those of its own launch's publications
only where its view includes them (R371). -/
def readHeld (s : State) (q : Req) : Bool :=
  !q.priv &&
    ((lateOf s q.part q.asid q.off).any fun e => !ownHeld s q.launch e && holdsBytes e q.off q.size)
      || (q.keyed && (brimOf s q.launch q.ref).any fun e =>
          (match q.view with
            | some v => inView v q.key e.key
            | none => atKey (q.key.getD keyZero) e.key)
          && e.held.any fun i => decide (q.off % 128 ≤ i ∧ i < q.off % 128 + q.size))

/-- The queue of an access takes no further entry: a record with the write's cause and attribution goes to the fault queue, and
whatever comes to its line waits behind it (R369). -/
def stallRecord (q : Req) (c : BitVec 8) (s : State) : State :=
  park q.ref (.num q.id)
    (faultQueue q.part (recordHead { kind := 2, cause := c, sub := 0, pc := q.pc, va := q.va
                                     lanes := if q.lane < 64 then laneBit q.lane else 0, serial := q.serial, clock := q.storeClock
                                     pnode := 0, n := 0, word := 0 }
      { gangid := q.gangid, wg := q.wg, asid := q.asid, part := q.part }) s)

/-- The next line of a discard joins the queue as a write of 0 to every byte, if there is room (R125). -/
def appendLine (cause : Option (BitVec 8)) (id : Nat) (s : State) : State :=
  match reqOf s id with
  | none => s
  | some q =>
    let e := { lateOfReq s q cause with size := 128, op := .store (List.replicate 128 0) }
    if decide (0 < q.size) && lateRoom s e.hc q.part then
      mapReq id (fun q => { q with va := q.va + 128, size := q.size - 128 }) (enqueueLate e s)
    else s

/-- A discard joins the queue line by line; what finds no room waits at its home (R125, R367, R369). -/
def appendLines (q : Req) (cause : Option (BitVec 8)) (s : State) : State :=
  let t := (countFrom 0 (q.size / 128)).foldl (fun s _ => appendLine cause q.id s) (setPhase q.id .held s)
  if q.phase = .held || (reqOf t q.id).all fun r => decide (r.size = 0) then t
  else stallRecord q (cause.getD (firstCause s q.part q.asid q.off)) t

/-- A write joins the late-fault store queue, or waits at its home for room there; a refused spill has cause 0x74 (R375). -/
def appendLate (q : Req) (cause : Option (BitVec 8)) (s : State) : State :=
  let cause := if q.spill then cause.map fun _ => 0x74 else cause
  let e := lateOfReq s q cause
  if q.op = .discard then appendLines q cause s
  else if (lateRoom s e.hc q.part || joinsEntry s e) && firstHere s q.ref (.num q.id) then
    enqueueLate e (unpark q.ref (.num q.id) (setPhase q.id .held s))
  else if q.phase = .held then s
  else stallRecord q (cause.getD (firstCause s q.part q.asid q.off)) (setPhase q.id .held s)

/-- What the HC says of a write: a read-modify-write, a reduction too, needs both permissions (R236, R364). -/
def hcWrite (s : State) (q : Req) : HcAnswer := hcAnswer s q.part q.asid q.off (counts q.op) true (decide (q.op = .discard))

/-- The record of a decrement of the task unit that its HC refuses goes to the fault queue at once, with KIND 2 and the address of PRED
(R276). -/
def countRecord (q : Req) (c : BitVec 8) (s : State) : State :=
  if q.phase = .held then s
  else
    faultQueue q.part (recordHead { kind := 2, cause := c, sub := 0, pc := 0, va := q.va, lanes := 0, serial := 0, clock := 0
                                    pnode := 0, n := 0, word := 0 } { gangid := 0, wg := 0, asid := q.asid, part := q.part }) s

/-- A write that an HC refuses: an atomic of a gang is refused (R365), every other write is held (R367), a decrement of the task unit
too (R276). -/
def refuseWrite (q : Req) (c : BitVec 8) (s : State) : State :=
  match q.op with
  | .rmw _ _ _ _ _ _ => setPhase q.id (.refused c) s
  | .count _ _ => if q.gang = 0 then appendLate q (some c) (if lateRoom s (homeHc q.off) q.part then countRecord q c s else s) else setPhase q.id (.refused c) s
  | _ => appendLate q (some c) s

/-- A write reaches a held granule: it follows the held entries, or is refused as R368 gives. -/
def followHeld (q : Req) (answer : HcAnswer) (s : State) : State :=
  match answer with
  | .refuse c => refuseWrite q c s
  | .ok _ => appendLate q none s

/-- The leaf of an access has LOCK set: writes wait, and reads of their lines behind them, in arrival order (R124). -/
def locked (s : State) (q : Req) : Bool := pageLocked s q.part q.asid q.off

/-! ### The host aperture (R97, R148, R150) -/

/-- The HPCC line of a host address. -/
def hpccOf (s : State) (port addr : Nat) : Option HpccLine :=
  findFirst (fun l => l.port == port && l.addr == addr) s.hpcc

def setHpcc (l : HpccLine) (s : State) : State :=
  { s with hpcc := (s.hpcc.filter fun x => !(x.port == l.port && x.addr == l.addr)) ++ (if l.state = .i then [] else [l]) }

/-- The gateway asks the host for a line, unless a request for it is outstanding: for what the grant does not allow it asks again
(R148). -/
def cxlAsk (port line : Nat) (own : Bool) (s : State) : State :=
  if s.cxlAsked.contains (port, line) then s
  else { s with cxlAsked := (port, line) :: s.cxlAsked, outbox := s.outbox ++ [.cxlRead port line own] }

/-- What the gateway's map says of an access: its host address, or a refusal. -/
def gatewayMap (s : State) (q : Req) : Option Nat :=
  let part := partOf s q.part
  match apertureEntry part q.off with
  | none => none
  | some k =>
    let hi := apertureHi part k
    let rd := match q.op with
      | .load => true
      | .rmw _ _ _ _ _ _ => true
      | .reduce _ _ _ _ _ => true
      | _ => false
    if (rd && !hi.testBit 4) || (opWrites q.op && !hi.testBit 3) || !apertureOn s q.part then none
    else some (hostAddress part q.off k)

/-- A directory-tracked L1 copy of the host aperture that shows a host line, under whatever address space and address it was made
(R150). -/
def showsHostLine (s : State) (port line : Nat) (c : L1Line) : Bool :=
  let q := partOf s c.ref.part
  decide (regionOf c.ref.va = 3) && q.port == port && c.coh == 1 && (match apertureEntry q c.ref.va with
    | some k => hostAddress q c.ref.va k / 128 * 128 == line
    | none => false)

/-- An access performs on an HPCC line. -/
def performHost (q : Req) (l : HpccLine) (addr : Nat) (s : State) : State :=
  let old := (l.data.drop (addr % 128)).take q.size
  if opWrites q.op then
    let new := opBytes q.op old
    let plain := match q.op with
      | .store _ => true
      | _ => false
    let own (c : L1Line) : Bool := c.ref == q.ref && c.core == q.core
    let s := l1Drop (fun c => if own c then !plain else showsHostLine s l.port l.addr c) s
    setPhase q.id (.done old)
      (setHpcc { l with state := .m, data := overlay 0 (bytesInLine addr (addr / 128 * 128) new) l.data } s)
  else
    let coh := (pageInfo s q.part q.asid q.va).coh
    let s := acquireDrop q (setPhase q.id (.done (layOver q.fwd old)) s)
    if q.acquire || (q.key.isSome && q.view.isNone) then s else l1Fill q coh l.data none s

/-- An access at the gateway: refused by its map, held behind late-fault entries, performed on a line the HPCC holds, or
waiting for the host's grant. -/
def serveGateway (q : Req) (s : State) : State :=
  match gatewayMap s q with
  | none => if opWrites q.op then refuseWrite q 0x70 s else setPhase q.id (.refused 0x70) s
  | some addr =>
    if opWrites q.op && granuleHeld s q.part q.asid q.off then appendLate q none s
    else if !opWrites q.op && readHeld s q then setPhase q.id .held s
    else
      let port := (partOf s q.part).port
      let line := addr / 128 * 128
      match hpccOf s port line with
      | some l =>
        if !opWrites q.op || l.state = .m || l.state = .e then performHost q l addr s
        else cxlAsk port line true (setPhase q.id .pending s)
      | none => cxlAsk port line (opWrites q.op) (setPhase q.id .pending s)

/-! ### A load at its home (R128) -/

/-- Serves a request of a core in its turn. -/
def inTurn (q : Req) (serve : State → State) (s : State) : State :=
  if mayServe s q.ref (.num q.id) then serve (unpark q.ref (.num q.id) s) else park q.ref (.num q.id) s

/-- A load reaches its home: held bytes keep it, a missing line sends it to the HC. -/
def loadAtHome (q : Req) (s : State) : State :=
  if readHeld s q then setPhase q.id .held s
  else inTurn q (fun s =>
    match findLine s q.ref with
    | none => setPhase q.id .atHc s
    | some l => serveLoad q l s) s

/-- HOME_LOCAL_LOAD (R128): serves a load miss of a core. -/
def execHomeLocalLoad (s : State) : Host.Outcome State Fault Refusal :=
  .next (onReq (fun q s =>
    if opWrites q.op || !mayArrive s q then s
    else if q.aperture then serveGateway q s
    else loadAtHome q s) s)

/-! ### A write at its home (R128) -/

/-- A write reaches its home: a held granule takes it, a line without a write grant asks the HC. -/
def writeAtHome (q : Req) (s : State) : State :=
  if decide (q.op = .discard) then setPhase q.id .atHc s
  else if granuleHeld s q.part q.asid q.off then followHeld q (hcWrite s q) s
  else inTurn q (fun s =>
    match findLine s q.ref with
    | none => setPhase q.id .atHc s
    | some l => if !l.grant then setPhase q.id .atHc s else serveWrite q l s) s

/-- HOME_LOCAL_STORE (R128): a store, reduction, discard or atomic at its home slice. -/
def execHomeLocalStore (s : State) : Host.Outcome State Fault Refusal :=
  .next (onReq (fun q s =>
    if !opWrites q.op || !mayArrive s q then s
    else if q.aperture then serveGateway q s
    else writeAtHome q s) s)

/-! ### The home controller (R364) -/

/-- The line of an access is filled where it is absent: event 0x011. -/
def fillMissing (q : Req) (l : Leaf) (s : State) : State :=
  match findLine s q.ref with
  | some _ => s
  | none => countEvent q.launch 0x011 1 (fillLine q.ref l s)

/-- A load at its HC; behind a write of its line that is held there, or while its slice has no room for the line, it waits (R124, R128). -/
def loadAtHc (q : Req) (s : State) : State :=
  match hcCheck s q.part q.asid q.off false false with
  | .refuse c => setPhase q.id (.refused c) s
  | .ok l =>
    if readHeld s q then setPhase q.id .held s
    else if !(mayServe s q.ref (.num q.id) && lineRoom s q.ref) then park q.ref (.num q.id) (setPhase q.id .held s)
    else
      let s := unpark q.ref (.num q.id) (fillMissing q l s)
      match findLine s q.ref with
      | some x => serveLoad q x (setPhase q.id .sent s)
      | none => s

/-- The lines of a granule in P, or of which a copy lies outside the device. -/
def granuleCopies (s : State) (part asid off : Nat) : List LineRef :=
  let inG (r : LineRef) : Bool := r.part == part && r.asid == tagAsid asid off && r.va / 65536 == off / 65536
  ((s.lines.filter fun l => inG l.ref && decide (l.state = .p)).map fun l => l.ref)
    ++ ((s.outDirs.filter fun d => inG d.ref).map fun d => d.ref)

/-- A discard is a write to every line of its granule: copies outside the device are invalidated first, and it performs once the last has
been answered (R85, R125, R128, R149). -/
def discardAtHc (q : Req) (s : State) : State :=
  let rs := granuleCopies s q.part q.asid q.off
  if rs.isEmpty then performWrite q s
  else
    rs.foldl (fun s r =>
      if (findLine s r).any (fun l => decide (l.state = .p)) || !lineRoom s r then s
      else
        let s := ensureLine r.part r.asid r.va (countMiss q.launch r s)
        let d := outDirOf s r
        beginPending r ((outsideNodes s r.part d.dev).map CopyHolder.node) (hostPorts d (fun h => h != 0)) false .none s)
      (setPhase q.id .held s)

/-- A write at its HC. -/
def writeAtHc (q : Req) (s : State) : State :=
  let answer := hcWrite s q
  if granuleHeld s q.part q.asid q.off && !(decide (q.op = .discard) && match answer with
      | .ok l => Pte.held l.entry
      | .refuse _ => false) then followHeld q answer s
  else
    match answer with
    | .refuse c => refuseWrite q c s
    | .ok l =>
      if locked s q || !(mayServe s q.ref (.num q.id) && (decide (q.op = .discard) || lineRoom s q.ref)) then park q.ref (.num q.id) (setPhase q.id .held s)
      else if decide (q.op = .discard) then discardAtHc q (unpark q.ref (.num q.id) s)
      else
        let s := mapLine q.ref (fun x => { x with grant := true }) (fillMissing q l (unpark q.ref (.num q.id) s))
        match findLine s q.ref with
        | some x => serveWrite q x (setPhase q.id .sent s)
        | none => s

/-- The access waits at its HC: for its first check, or behind held bytes, a full queue or a lock. -/
def atHc (s : State) (q : Req) : Bool :=
  decide (q.phase = .atHc) || (decide (q.phase = .held) && (!queued s q || (decide (q.op = .discard) && decide (0 < q.size))))

/-- HC_ACCESS (R364): translates and checks an access, then performs, refuses or holds it. -/
def execHcAccess (s : State) : Host.Outcome State Fault Refusal :=
  .next (onReq (fun q s =>
    if !atHc s q then s
    else if q.aperture then serveGateway q s
    else if opWrites q.op then writeAtHc q s
    else loadAtHc q s) s)

/-! ### Invalidations of copies (R128, R130) -/

/-- A holder has answered: a core's copy is gone; with the last device the DEV bits are cleared. -/
def holderAnswers (r : LineRef) (h : CopyHolder) (s : State) : State :=
  match findLine s r with
  | none => s
  | some l =>
    if l.state ≠ .p ∨ !l.acks.contains h then s
    else
      let acks := l.acks.filter fun a => a != h
      let s := match h with
        | .core n => l1Drop (fun c => c.core == n && c.ref == r) s
        | .node _ =>
          if acks.any fun a => match a with
            | .node _ => true
            | _ => false
          then s else setOutDir { outDirOf s r with dev := 0 } s
      let d := outDirOf s r
      leavePending r (mapLine r (fun l => { l with
        acks := acks
        presence := match h with
          | .core n => l.presence &&& ~~~ BitVec.ofNat 256 (2 ^ n)
          | .node _ => l.presence
        out := !decide (d.dev = 0 ∧ d.host = [0, 0]) }) s)

/-- INVALIDATION_ACK (R128): counts an answer; with the last one the write performs. -/
def execInvalidationAck (s : State) : Host.Outcome State Fault Refusal :=
  .next (match s.arg with
    | .lineHolder r h => holderAnswers r h s
    | _ => s)

/-- BISNP_RESPONSE (R149): a host answers a back-invalidation, with the line's data where it had modified it; it keeps the line shared
where the device reads it. -/
def execBisnpResponse (s : State) : Host.Outcome State Fault Refusal :=
  .next (match s.arg with
    | .bisnp r port data =>
      match findLine s r with
      | none => s
      | some l =>
        if l.state ≠ .p ∨ !l.hostAcks.contains port then s
        else
          let s := match data with
            | some d => { s with mem := memWrite s.mem l.pa (overlay 0 l.laid (takePad 128 d)) }
            | none => s
          let d := outDirOf s r
          let s := setOutDir { d with host := setAt d.host port (if l.share then 1 else 0) } s
          let d := outDirOf s r
          leavePending r (mapLine r (fun l => { l with
            hostAcks := l.hostAcks.filter fun p => p != port
            out := !decide (d.dev = 0 ∧ d.host = [0, 0]) }) s)
    | _ => s)

/-! ### Answers at the core (R102, R111, R365) -/

/-- LOAD_RESULT_ARRIVE (R102): a result reaches its registers, which are full. -/
def execLoadResultArrive (s : State) : Host.Outcome State Fault Refusal :=
  .next (onReq (fun q s =>
    match q.phase with
    | .done data => if q.dest = .none then s else dropReq q.id (deliverResult q data true s)
    | _ => s) s)

/-- LOAD_FAULT_RESPONSE (R365): the destination of a refused access is faulted. -/
def execLoadFaultResponse (s : State) : Host.Outcome State Fault Refusal :=
  .next (onReq (fun q s =>
    match q.phase with
    | .refused _ => deliverResult q [] false s
    | _ => s) s)

/-- The core's copy takes the bytes of an acknowledged store. A copy that is not directory-tracked goes instead: another party's write
may lie between it and the store (R84); so does one where another store of the core to the same bytes is still on its way. -/
def ackCopy (q : Req) (d : List Byte) (s : State) : State :=
  let clash := s.reqs.any fun r => r.id != q.id && r.core == q.core && overlaps r q && (match r.op with
    | .store _ => true
    | _ => false)
  let mine (c : L1Line) : Bool := c.core == q.core && c.ref == q.ref
  let s := l1Drop (fun c => mine c && (clash || c.coh != 1)) s
  if clash then s
  else
    { s with
      l1 := updateWhere mine (takeBytes q d) s.l1 }
where
  /-- the stored bytes, no longer pending -/
  takeBytes (q : Req) (d : List Byte) (c : L1Line) : L1Line :=
    { c with
      data := overlay 0 (bytesInLine q.off q.ref.va d) c.data
      pending := c.pending.filter fun i => !decide (q.off % 128 ≤ i ∧ i < q.off % 128 + q.size) }

/-- STORE_ACK (R111): the acknowledgement of a performed write returns. -/
def execStoreAck (s : State) : Host.Outcome State Fault Refusal :=
  .next (onReq (fun q s =>
    match q.phase, q.op, q.dest with
    | .done _, .store d, .none => dropReq q.id (ackCopy q d s)
    | .done _, .reduce _ _ _ _ _, .none => dropReq q.id s
    | .done _, .discard, .none => dropReq q.id s
    | .done _, .count _ _, .none => if q.gang = 0 then dropReq q.id s else s
    | _, _, _ => s) s)

/-! ### Publications and keyed reductions (R66 to R74) -/

/-- The late-fault entry of a write of a deterministic launch that carries no request; its clock is that of the store key
(R344, R367). -/
def lateOfKeyed (s : State) (gang : Nat) (part asid : Nat) (va : Word) (size : Nat) (op : AccessOp) (data : SMap Byte)
    (key : Key) (clock : Word) (lanes : BitVec 64) (pc : Word) (serial : BitVec 32) (cause : Option (BitVec 8))
    (brim : Option Nat) :
    LateEntry where
  id := s.nextId
  hc := homeHc (offsetOf va)
  part := part
  asid := asid
  va := va
  size := size
  op := op
  data := data
  gang := some gang
  gangid := (gangOf s gang).elim 0 gangidOf
  wg := (gangOf s gang).elim 0 fun g => g.wg
  serial := serial
  pc := pc
  lanes := lanes
  clock := clock
  cause := cause
  reqId := none
  brim := brim
  key := some key
  node := none
  recorded := false
  delivered := false
  filed := false

/-- The first and one past the last offset of a line's bytes. -/
def spanOf (d : SMap Byte) : Nat × Nat :=
  match d with
  | [] => (0, 0)
  | (k, _) :: r => (k, r.foldl (fun m e => max m (e.1 + 1)) (k + 1))

/-- The entry of a publication. -/
def pubLate (s : State) (b : Publication) (cause : Option (BitVec 8)) (brim : Option Nat) : LateEntry :=
  let (lo, hi) := spanOf b.data
  lateOfKeyed s b.gang b.part b.asid (userVA (partOf s b.part).node (b.ref.va + lo)) (hi - lo) (.store []) b.data b.key b.clock b.lanes
    b.pc b.serial cause brim

/-- A publication that its HC refuses, or that meets a held granule, enters Brim with its bytes held (R371). -/
def publicationHeld (b : Publication) (cause : Option (BitVec 8)) (s : State) : State :=
  let id := s.nextId
  let s := brimEnter b.launch b.ref b.key b.order b.data (b.data.map fun e => e.1) s
  enqueueLate (pubLate s b cause (some id)) s

/-- The cause with which the HC refuses a publication, if it does (R364): a line with a write grant asks no HC. -/
def keyedRefusal (s : State) (part asid off : Nat) : Option (BitVec 8) := admits s part asid off true

/-- A publication or an update finds no room in the late-fault store queue: a record goes to the fault queue once, and what comes to its
line waits behind it (R369). -/
def keyedStall (id : Nat) (r : LineRef) (e : LateEntry) (c : BitVec 8) (s : State) : State :=
  park r (.num id)
    (faultQueue e.part (recordHead { kind := 2, cause := c, sub := 0, pc := e.pc, va := e.va, lanes := e.lanes, serial := e.serial
                                     clock := e.clock, pnode := 0, n := 0, word := 0 }
      { gangid := e.gangid, wg := e.wg, asid := e.asid, part := e.part })
      { s with
        pubs := updateWhere (fun b => b.id == id) (fun b => { b with stalled := true }) s.pubs
        updates := updateWhere (fun u => u.id == id) (fun u => { u with stalled := true }) s.updates })

/-- PUBLICATION_ARRIVE (R68, R340): a publication enters Brim and is answered. -/
def execPublicationArrive (s : State) : Host.Outcome State Fault Refusal :=
  .next (onNum (fun id s =>
    match findFirst (fun b => b.id == id && !b.answered) s.pubs with
    | none => s
    | some b =>
      let refused := keyedRefusal s b.part b.asid b.ref.va
      let held := granuleHeld s b.part b.asid b.ref.va
      if (refused.isSome || held) && !(lateRoom s (homeHc b.ref.va) b.part && firstHere s b.ref (.num id)) then
        if b.stalled then s
        else keyedStall id b.ref (pubLate s b refused none) (refused.getD (firstCause s b.part b.asid b.ref.va)) s
      else
        let s := unpark b.ref (.num id) s
        let s := { s with pubs := updateWhere (fun x => x.id == id) (fun x => { x with answered := true }) s.pubs }
        if refused.isSome || held then publicationHeld b refused s
        else publishBytes b.launch b.ref b.key b.order b.data s) s)

/-- The record of a fault that a publication met has not reached its core: the answer that ends the hold of its key carries it (R340). -/
def answerOnWay (s : State) (b : Publication) : Bool :=
  s.late.any fun e => decide (e.gang = some b.gang) && e.serial == b.serial && e.pc == b.pc && !e.recorded

/-- PUBLICATION_ACK (R58, R340): the key of an answered publication is no longer held. -/
def execPublicationAck (s : State) : Host.Outcome State Fault Refusal :=
  .next (onNum (fun id s => { s with pubs := s.pubs.filter fun b => !(b.id == id && b.answered && !answerOnWay s b) }) s)

/-- The order of updates (R72): key, then lane, then arrival within an instruction. -/
def updateLt (a b : Update) : Bool :=
  keyLt a.key b.key || (decide (a.key = b.key) && (decide (a.lane < b.lane) || (decide (a.lane = b.lane) && decide (a.id < b.id))))

/-- The line and the slice of an update. -/
def Update.ref (u : Update) : LineRef := lineRef u.part u.asid (offsetOf u.va)
def updateSlice (s : State) (u : Update) : Nat := homeOf s u.part (offsetOf u.va / 128 * 128)

/-- The late-fault entry of an update. -/
def updateLate (s : State) (u : Update) (cause : Option (BitVec 8)) : LateEntry :=
  lateOfKeyed s u.gang u.part u.asid u.va u.v.length (.reduce u.n u.ty u.rm u.fz u.v) [] u.key (BitVec.ofNat 64 u.key.clock)
    (laneBit u.lane) u.pc u.serial cause none

/-- RED_REFUSAL_RETURN (R73): a refused update enters its core's retry queue. -/
def execRedRefusalReturn (s : State) : Host.Outcome State Fault Refusal :=
  .next (onNum (fun id s =>
    match findFirst (fun u => u.id == id && u.refused) s.updates with
    | none => s
    | some u =>
      if (s.retry.filter fun x => x.core == u.core).length < Config.retryEntries then
        { s with
          updates := s.updates.filter fun x => x.id != id
          retry := s.retry ++ [{ u with refused := false }] }
      else s) s)

/-- Applies one update at its key: read, operate, enter Brim (R72); it may ready a task (R313). -/
def applyUpdate (u : Update) (s : State) : State :=
  let off := offsetOf u.va
  let read (s : State) (o n : Nat) : List Byte := versionBytes s u.launch u.part u.asid o n (atKey u.key)
  let s := { s with
    mitten := s.mitten.filter fun x => x.id != u.id
    retry := s.retry.filter fun x => x.id != u.id
    updates := s.updates.filter fun x => x.id != u.id }
  withReady u.part u.asid off read (fun s =>
    let new := opBytes (.reduce u.n u.ty u.rm u.fz u.v) (read s off u.v.length)
    publishAt u.launch u.part u.asid off u.key new s) s

/-- The updates of a launch that a floor F applies: every buffered or refused one with a key below F; at F itself the refused ones,
and the buffered ones below them, once none below them is still on its way to its slice (R72, R73). -/
def dueUpdates (s : State) (launch : Nat) (f : Key) : List Update :=
  let back := (s.retry ++ s.updates.filter fun u => u.refused).filter fun u => u.launch == launch
  let coming := s.updates.filter fun u => u.launch == launch && !u.refused
  let top := back.filter fun u => decide (u.key = f) && !coming.any fun c => updateLt c u
  let now (u : Update) : Bool := keyLt u.key f || top.any fun t => t.id == u.id || updateLt u t
  sortBy updateLt (((s.mitten.filter fun u => u.launch == launch) ++ back).filter now)

/-- The line of an update is not in P. -/
def updateFree (s : State) (u : Update) : Bool := !((findLine s u.ref).any fun l => decide (l.state = .p))

/-- Applies updates in (key, lane) order; one whose line a host may have modified asks for the line first (R149), and those of its
line wait. -/
def applyUpdates : List Update → State → State
  | [], s => s
  | u :: r, s =>
    let s :=
      if !updateFree s u then s
      else if dirtyHosts s u.ref = [] then applyUpdate u s
      else beginPending u.ref [] (dirtyHosts s u.ref) true .none (ensureLine u.part u.asid (offsetOf u.va) (countMiss u.launch u.ref s))
    applyUpdates r s

/-- MITTEN_UPDATE_ARRIVE (R73, R82): an update enters its slice's buffer; a full one returns the greatest. One that reaches a line on which
another determinism group holds entries or updates is applied at once. -/
def execMittenUpdateArrive (s : State) : Host.Outcome State Fault Refusal :=
  .next (onNum (fun id s =>
    match findFirst (fun u => u.id == id && !u.refused) s.updates with
    | none => s
    | some u =>
      let off := offsetOf u.va
      let refused := admitsBoth s u.part u.asid off
      let held := granuleHeld s u.part u.asid off
      let r := lineRef u.part u.asid off
      if refused.isSome || held then
        if lateRoom s (homeHc off) u.part && firstHere s r (.num id) then
          enqueueLate (updateLate s u refused) (unpark r (.num id) { s with updates := s.updates.filter fun x => x.id != id })
        else if u.stalled then s
        else keyedStall id r (updateLate s u refused) (refused.getD (firstCause s u.part u.asid off)) s
      else
        let s := unpark r (.num id) s
        if !(holders s u.launch r).isEmpty then applyUpdates [u] s else
        let rest := { s with updates := s.updates.filter fun x => x.id != id }
        let here := s.mitten.filter fun x => updateSlice s x == updateSlice s u
        if here.length < Config.mittenEntries then { rest with mitten := s.mitten ++ [u] }
        else
          let s := countEvent u.launch 0x013 1 s
          match leastBy (fun a b => updateLt b a) (u :: here) with
          | none => s
          | some w =>
            if w.id = id then
              { s with updates := updateWhere (fun x => x.id == id) (fun x => { x with refused := true }) s.updates }
            else
              { s with
                mitten := (s.mitten.filter fun x => x.id != w.id) ++ [u]
                updates := (s.updates.filter fun x => x.id != id) ++ [{ w with refused := true }] }) s)

/-- The launch still takes part in the floor of its determinism group: it runs, or it is a member that has retired in good order while
others may go on (R59, R69). -/
def inGroup (l : Launch) : Bool := decide (l.phase = .running) || (decide (l.phase = .retired ∧ l.dscope = 2) && l.ended.isNone)

/-- An entry may merge: its key lies below the merge boundary, or its launch has ended, and nothing keeps it (R69, R371). -/
def mergeable (s : State) (l : Launch) (e : BrimEntry) : Bool :=
  (keyLt e.key (mergeBoundary l) || !inGroup l && decide (l.phase = .retired)) && unheldEntry s e

/-- Merges what the boundary allows, in key order. -/
def mergeBrim (launch : Nat) (s : State) : State :=
  mergeList (s.brim.filter fun e => e.launch == launch && mergeable s (launchOf s launch) e) s

/-- CROWN_FLOOR_UPDATE (R59, R69, R72, R73): the floor rises; updates below it and retried updates at it are applied, entries
below the merge boundary merge, and in domain scope a changed floor of the device's own goes to the other members. -/
def execCrownFloorUpdate (s : State) : Host.Outcome State Fault Refusal :=
  .next (onNum (fun n s =>
    match findFirst (fun l => l.id == n && l.det) s.launches with
    | none => s
    | some l =>
      if !inGroup l then mergeBrim n s else
      let f := floorNext s l
      let own := keyMax l.sentFloor (ownFloor s l)
      let s := mapLaunch n (fun l => { l with floor := f, sentFloor := own }) s
      let s := mergeBrim n (applyUpdates (dueUpdates s n f) s)
      if l.dscope = 2 ∧ keyLt l.sentFloor own then
        { s with outbox := s.outbox ++ (portsUp s).map fun p => Msg.floorFlit p n own }
      else s) s)

/-! ### The PLB (R123) -/

/-- PLB_FETCH_RESPONSE (R123): an entry arrives at a core, whose oldest entry leaves a full PLB, and the waiting accesses go
on. -/
def execPlbFetchResponse (s : State) : Host.Outcome State Fault Refusal :=
  .next (match s.arg with
    | .plb core part asid va =>
      let off := offsetOf va
      let i := pageInfo s part asid va
      let e : PlbEntry := { core := core, part := part, asid := tagAsid asid off, granule := off / 65536
                            perm := i.perm, coh := i.coh }
      let rest := s.plb.filter fun x => !(x.core == core && x.part == part && x.asid == e.asid && x.granule == e.granule)
      let rest := if (rest.filter fun x => x.core == core).length < Config.plbEntries then rest
        else dropFirst (fun x => x.core == core) rest
      let wake (g : Gang) (p : Split) : Split :=
        match p.wait with
        | .plb a _ =>
          if g.core = core ∧ g.part = part ∧ tagAsid g.asid (offsetOf a) = e.asid ∧ offsetOf a / 65536 = e.granule then
            { p with wait := .plb a true }
          else p
        | _ => p
      let one (g : Gang) : Gang :=
        { g with splits := g.splits.map (wake g), parked := g.parked.map fun x => (x.1, x.2.map (wake g)) }
      { s with plb := rest ++ [e], p := wake s.g s.p, g := one s.g, gangs := s.gangs.map one }
    | _ => s)

end Sys2Proof.Machine
end

