-- ==== Sys2Proof/Machine/ControlSpace.lean ====
section
/-! DEFINITION. The privileged control space of a partition (spec/05_memory_hierarchy.md R115; spec/17_fault_architecture.md
R345; spec/20_faults_fabric_host_start.md R387; spec/06_coherence_fabric.md R150) and permission reductions (R123). -/

namespace Sys2Proof.Machine

/-! ### Permission reductions (R123) -/

/-- A window that a reduction over an address test reaches. -/
def staleWindow (hit : Word → Bool) (w : Window) : Window := if w.valid && hit w.base then { w with stale := true } else w

/-- Windows of a split, those of its region entry among them. -/
def staleSplit (hit : Word → Bool) (p : Split) : Split :=
  let all (m : SMap Window) : SMap Window := m.map fun e => (e.1, staleWindow hit e.2)
  { p with wins := all p.wins, entry := p.entry.map fun e => { e with wins := all e.wins } }

/-- Marks STALE the windows of the gangs that `q` selects whose base `hit` picks. -/
def staleWindows (q : Gang → Bool) (hit : Word → Bool) (s : State) : State :=
  let one (g : Gang) : Gang :=
    if q g then
      { g with splits := g.splits.map (staleSplit hit), parked := g.parked.map fun e => (e.1, e.2.map (staleSplit hit)) }
    else g
  { s with
    p := if q s.g then staleSplit hit s.p else s.p
    g := one s.g
    gangs := s.gangs.map one }

/-- A permission of the pages in [lo, hi) of an address space is reduced: PLB entries go on every core of the partition and
windows based there become STALE. -/
def reducePages (part asid lo hi : Nat) (s : State) : State :=
  staleWindows (fun g => g.part == part && tagAsid g.asid lo == tagAsid asid lo)
    (fun b => !isControl b && decide (lo ≤ offsetOf b ∧ offsetOf b < hi))
    { s with
      plb := s.plb.filter fun e => !(e.part == part && e.asid == tagAsid asid lo
        && decide (lo < (e.granule + 1) * 65536 ∧ e.granule * 65536 < hi)) }

/-! ### The aperture map (R150) -/

/-- Writable bits of the two words of an entry. -/
def apertureMask (hi : Bool) : Word := if hi then 0xFFFFFFFFFFE00078#64 else 0x0007FFFFFFFFFFFF#64

/-- An aperture offset loses RD or WR in a change of the map: the entry with the lowest number that covers it decides. -/
def apertureReduced (old new : Partition) (off : Nat) : Bool :=
  let has (q : Partition) (i : Nat) : Bool := (apertureEntry q off).any fun k => (apertureHi q k).testBit i
  (has old 4 && !has new 4) || (has old 3 && !has new 3)

/-- Writes one word of the map; where that reduces a permission, windows based there become STALE and PLB entries go (R123). -/
def writeAperture (part k : Nat) (hi : Bool) (v : Word) (s : State) : State :=
  let old := partOf s part
  let s := mapPart part (fun q => { q with aperture := mapSet 0 q.aperture (2 * k + bit hi) (v &&& apertureMask hi) }) s
  let less (off : Nat) : Bool := decide (regionOf off = 3) && apertureReduced old (partOf s part) off
  staleWindows (fun g => g.part == part) (fun b => !isControl b && less (offsetOf b))
    { s with plb := s.plb.filter fun e => !(e.part == part && less (e.granule * 65536)) }

/-! ### Words of control space -/

/-- The word at a multiple of 8 of a partition's control space; what is not listed reads 0. -/
def controlWord (q : Partition) (a : Nat) : Word :=
  if a = 0x30000 then q.tvec
  else if a = 0x30008 then q.fqbase
  else if a = 0x30010 then BitVec.ofNat 64 q.fqlog
  else if a = 0x30018 then q.fqhead.setWidth 64
  else if a = 0x30020 then q.fqtail.setWidth 64
  else if a = 0x30028 then q.fqlost.setWidth 64
  else if 0x30100 ≤ a ∧ a < 0x30180 then mapGet 0 q.dead ((a - 0x30100) / 8)
  else if 0x40000 ≤ a ∧ a < 0x40400 then mapGet 0 q.aperture ((a - 0x40000) / 8)
  else 0

/-- FQBASE or FQLOG changes: FQHEAD and FQTAIL become 0 (R345). -/
def setQueue (base : Word) (log : Nat) (q : Partition) : Partition :=
  if base = q.fqbase ∧ log = q.fqlog then q
  else { q with fqbase := base, fqlog := log, fqhead := 0, fqtail := 0 }

/-- Writes FQLOG: a non-zero value outside 4 to 16 is ignored. -/
def writeFqlog (v : Nat) (q : Partition) : Partition :=
  let n := v % 32
  if n = 0 ∨ (4 ≤ n ∧ n ≤ 16) then setQueue q.fqbase n q else q

/-- Writes a word of control space: `v` is the whole word as a plain register would hold it, `m` the written bits, so that
W1C registers clear only those written with 1. -/
def writeControl (part a : Nat) (v m : Word) (s : State) : State :=
  if a = 0x30000 then mapPart part (fun q => { q with tvec := v }) s
  else if a = 0x30008 then mapPart part (fun q => setQueue v q.fqlog q) s
  else if a = 0x30010 then mapPart part (writeFqlog v.toNat) s
  else if a = 0x30018 then mapPart part (fun q => { q with fqhead := v.setWidth 32 }) s
  else if a = 0x30028 then mapPart part (fun q => { q with fqlost := q.fqlost &&& ~~~((v &&& m).setWidth 32) }) s
  else if 0x30100 ≤ a ∧ a < 0x30180 then
    mapPart part (fun q => { q with dead := mapSet 0 q.dead ((a - 0x30100) / 8) (mapGet 0 q.dead ((a - 0x30100) / 8) &&& ~~~(v &&& m)) }) s
  else if 0x40000 ≤ a ∧ a < 0x40400 then writeAperture part ((a - 0x40000) / 16) ((a - 0x40000) / 8 % 2 == 1) v s
  else s

/-- Bits of n bytes from byte b of a word. -/
def byteMask (b n : Nat) : Word := BitVec.ofNat 64 ((2 ^ (8 * n) - 1) * 2 ^ (8 * b))

/-- A load of control space by the split at issue. -/
def controlRead (s : State) (va : Word) (n : Nat) : List Byte :=
  let a := offsetOf va / 8 * 8
  let l := leBytes 8 (controlWord (curPart s) a).toNat ++ leBytes 8 (controlWord (curPart s) (a + 8)).toNat
  (l.drop (va.toNat % 8)).take n

/-- A store of at most 8 bytes inside one word. -/
def controlWriteIn (va : Word) (d : List Byte) (s : State) : State :=
  let a := offsetOf va / 8 * 8
  let b := va.toNat % 8
  let m := byteMask b d.length
  let v := (controlWord (curPart s) a &&& ~~~m) ||| (BitVec.ofNat 64 (leNat d * 2 ^ (8 * b)) &&& m)
  writeControl s.g.part a v m s

/-- A store to control space by the split at issue: word by word. -/
def controlWrite (va : Word) (d : List Byte) (s : State) : State :=
  if d.length ≤ 8 then controlWriteIn va d s
  else controlWriteIn (va + 8) (d.drop 8) (controlWriteIn va (d.take 8) s)

end Sys2Proof.Machine
end

