-- ==== Sys2Proof/Machine/LoadStore.lean ====
section
/-! DEFINITION. Windows, loads, stores, scratchpad, prefetch and discard (spec/11_isa_memory_sync.md R235 to R243;
spec/05_memory_hierarchy.md R108, R110, R122, R125, R240). -/

namespace Sys2Proof.Machine

/-! ### Sizes (R238) -/

/-- Bytes of an access by size code SZ; code 0 takes the width of MODE.T and has none where T is reserved. -/
def accessSize (s : State) (sz : Nat) : Option Nat :=
  if sz = 0 then (elemTy s).map fun t => t.width / 8 else some (2 ^ (sz - 1))

/-- Registers of an access of n bytes. -/
def regsOf (n : Nat) : Nat := if n ≤ 4 then 1 else n / 4

/-- The loaded value is sign-extended: SX, or SZ = 0 with a narrow signed T (R152, R238). -/
def signExtends (s : State) (sx : Bool) (sz : Nat) : Bool :=
  if sz = 0 then (match elemTy s with
    | some t => decide (t.kind = .int)
    | none => false)
  else sx

/-- A 64-bit T asks for an even register (R152). -/
def sizeDstOk (s : State) (sz : Nat) (d : BitVec 7) : Bool :=
  decide (d.toNat < 96) && (decide (sz ≠ 0) || match elemTy s with
    | some t => vDstOk t.wide d
    | none => false)

/-! ### Addresses of a vector access (R235, R236) -/

/-- The offset that a vector field gives a lane. -/
def laneOffset (s : State) (a : BitVec 7) (i : Nat) : Nat := fieldBits s a.toNat false i

/-- Each active lane's address, formed and checked. -/
def laneAddrs (s : State) (w : BitVec 3) (a : BitVec 7) (n : Nat) (need : Need) : List (Nat × Ea) :=
  (activeLanes s).map fun i => (i, effective s (getW s w.toNat) (laneOffset s a i) n need)

/-- The address of an access that executes once per split. -/
def splitAddr (s : State) (w : BitVec 3) (a : BitVec 7) (n : Nat) (need : Need) : Ea :=
  effective s (getW s w.toNat) ((getS s a.toNat).toNat % 2 ^ 32) n need

/-- The addresses of the active lanes, once they have passed their checks. -/
def laneTargets (s : State) (w : BitVec 3) (a : BitVec 7) : List (Nat × Word) :=
  (activeLanes s).map fun i => (i, windowAddress (getW s w.toNat) (laneOffset s a i))

/-- The address of an access that executes once per split; lane 64 stands for the split. -/
def splitTarget (s : State) (w : BitVec 3) (a : BitVec 7) : List (Nat × Word) :=
  [(64, windowAddress (getW s w.toNat) ((getS s a.toNat).toNat % 2 ^ 32))]

/-- A vector instruction that addresses memory through window w with offsets a. -/
def memForm (word : BitVec 32) (weight : Nat) (ok : Bool) (ta : Bool) (w : BitVec 3) (a : BitVec 7) (s : State) : Form :=
  { Form.plain word weight with
    bad := if ok then none else some 0x03
    addrs := srcV a.toNat 1 ta (activeLanes s)
    reads := codeW w.toNat :: maskReads s }

/-! ### Windows (R237) -/

/-- The address causes of win.open. -/
def winOpenCheck (s : State) (a : Word) : Verdict :=
  if isControl a then (if isPriv s then .ok else .fail (failOf 0x42))
  else if nodeOf a ≠ (curPart s).node then .fail { cause := 0x41, va := a, lanes := 0, pnode := 0 }
  else .ok

/-- R237: opens a window on a base. -/
def execWinOpen (o : OpWa) (s : State) : Host.Outcome State Fault Refusal :=
  .next (issue { Form.plain (wordOf (encode (.winOpen o))) 4 with
      bad := if sOk o.a then none else some 0x03
      addrs := [(codeS o.a.toNat, false)]
      dsts := [codeW o.w.toNat] }
    (fun s => winOpenCheck s (getS s o.a.toNat))
    (fun s => finish 4 (setW o.w.toNat (openWindow s (getS s o.a.toNat)) s)) s)

/-- R237: VALID := 0. -/
def execWinClose (o : OpW) (s : State) : Host.Outcome State Fault Refusal :=
  .next (issue { Form.plain (wordOf (encode (.winClose o))) 4 with dsts := [codeW o.w.toNat] } noCheck
    (fun s => finish 4 (setW o.w.toNat { getW s o.w.toNat with valid := false } s)) s)

/-! ### Global loads and stores (R239, R240) -/

/-- What a load needs. -/
def readNeed : Need := { rd := true, wr := false }
def writeNeed : Need := { rd := false, wr := true }
def bothNeed : Need := { rd := true, wr := true }

/-- Issues the loads of one instruction, lane by lane. -/
def loadAll (word : BitVec 32) (n : Nat) (sx nt : Bool) (dest : Nat → Dest) (l : List (Nat × Word)) (s : State) : State :=
  l.foldl (fun s e =>
    if isControl e.2 then
      deliverResult { mkReq s e.1 e.2 n .load (dest e.1) word with sx := sx } (controlRead s e.2 n) true
        (markEmpty (dest e.1) s.nextId s)
    else issueLoad { mkReq s e.1 e.2 n .load (dest e.1) word with sx := sx, nt := nt } s) s

/-- R239: loads the active lanes. -/
def execLdG (o : OpM) (s : State) : Host.Outcome State Fault Refusal :=
  let word := wordOf (encode (.ldG o))
  .next (
    match accessSize s o.sz.toNat with
    | none => issue { memForm word 4 false o.ta o.w o.a s with addrs := [] } noCheck (finish 4) s
    | some n =>
      let f := memForm word 4 (wellFormed (.ldG o) && sizeDstOk s o.sz.toNat o.d) o.ta o.w o.a s
      issue { f with
          dsts := dstV o.d.toNat (regsOf n) (activeLanes s)
          opens := fun s => blockedLoad n (laneTargets s o.w o.a) s }
        (fun s => laneVerdict (laneAddrs s o.w o.a n readNeed))
        (fun s => finish 4 (refreshWindow o.w.toNat
          (loadAll word n (signExtends s o.sx o.sz.toNat) o.nt (fun i => .vector o.d.toNat (regsOf n) i)
            (laneTargets s o.w o.a) s))) s)

/-- R240: one load for the split. -/
def execLdU (o : OpM) (s : State) : Host.Outcome State Fault Refusal :=
  let word := wordOf (encode (.ldU o))
  let n := if o.sz.toNat = 0 then 8 else 2 ^ (o.sz.toNat - 1)
  .next (issue { Form.plain word 4 with
      bad := if wellFormed (.ldU o) then none else some 0x03
      addrs := srcS o.a o.ta
      reads := [codeW o.w.toNat]
      dsts := [codeS o.d.toNat]
      opens := fun s => blockedLoad n (splitTarget s o.w o.a) s }
    (fun s => splitVerdict (splitAddr s o.w o.a n readNeed))
    (fun s => finish 4 (refreshWindow o.w.toNat
      (loadAll word n o.sx o.nt (fun _ => .scalar o.d.toNat) (splitTarget s o.w o.a) s))) s)

/-- The stores of one instruction, in ascending lane order. -/
def storesOf (s : State) (word : BitVec 32) (n : Nat) (data : Nat → List Byte) (l : List (Nat × Word)) : List BufStore :=
  l.map fun e => mkStore s e.1 e.2 n (.store (data e.1)) word

/-- Takes the stores of one instruction; those to control space perform on the spot. -/
def storeAll (bs : List BufStore) (s : State) : State :=
  let ctl := bs.filter fun b => isControl b.va
  let s := ctl.foldl (fun s b => match b.op with
    | .store d => controlWrite b.va d s
    | _ => s) s
  bufferStores (bs.filter fun b => !isControl b.va) s

/-- The check of a store: its addresses, then room in the unpublished store log (R67). -/
def storeVerdict (v : Verdict) (bs : List BufStore) (s : State) : Verdict :=
  v.andThen (failIf (logOverflows s bs) 0xB1)

/-- R239: stores the active lanes. -/
def execStG (o : OpMst) (s : State) : Host.Outcome State Fault Refusal :=
  let word := wordOf (encode (.stG o))
  .next (
    match accessSize s o.sz.toNat with
    | none => issue { memForm word 4 false o.ta o.w o.a s with addrs := [] } noCheck (finish 4) s
    | some n =>
      let f := memForm word 4 (wellFormed (.stG o) && sizeDstOk s o.sz.toNat o.d) o.ta o.w o.a s
      let data (s : State) (i : Nat) : List Byte := (regBytes s o.d.toNat (regsOf n) i).take n
      let all (s : State) : List BufStore := storesOf s word n (data s) (laneTargets s o.w o.a)
      issue { f with srcs := srcV o.d.toNat (regsOf n) false (activeLanes s), opens := fun s => overfills (all s) s }
        (fun s => storeVerdict (laneVerdict (laneAddrs s o.w o.a n writeNeed)) (all s) s)
        (fun s => finish 4 (refreshWindow o.w.toNat (storeAll (all s) s))) s)

/-- R240: one store for the split. -/
def execStU (o : OpMst) (s : State) : Host.Outcome State Fault Refusal :=
  let word := wordOf (encode (.stU o))
  let n := if o.sz.toNat = 0 then 8 else 2 ^ (o.sz.toNat - 1)
  let all (s : State) : List BufStore :=
    storesOf s word n (fun _ => leBytes n (getS s o.d.toNat).toNat) (splitTarget s o.w o.a)
  .next (issue { Form.plain word 4 with
      bad := if wellFormed (.stU o) then none else some 0x03
      addrs := srcS o.a o.ta
      srcs := [(codeS o.d.toNat, false)]
      reads := [codeW o.w.toNat]
      opens := fun s => overfills (all s) s }
    (fun s => storeVerdict (splitVerdict (splitAddr s o.w o.a n writeNeed)) (all s) s)
    (fun s => finish 4 (refreshWindow o.w.toNat (storeAll (all s) s))) s)

/-! ### Scratchpad (R108, R110, R241) -/

/-- The tile of the split's workgroup with a handle. -/
def tileOf (s : State) (h : Nat) : Option Tile :=
  findFirst (fun t => t.launch == s.g.launch && t.wg == s.g.wg && t.h == h) s.tiles

/-- The parts of a tile address: high bits, handle, offset. -/
def tileAddr (x : Nat) : Nat × Nat × Nat := (x / 2 ^ 22, bits x 16 6, x % 2 ^ 16)

/-- One lane's access lies in its tile. -/
def tileInRange (s : State) (n x : Nat) : Bool :=
  let (hi, h, o) := tileAddr x
  decide (hi = 0) && decide (h < (curLaunch s).tiles.length) && match tileOf s h with
    | some t => decide (o + n ≤ t.size)
    | none => false

/-- What a row of R108 says of an access. -/
inductive TileRow where
  | perform
  | wait
  | trap
  deriving DecidableEq, Repr

/-- The rows of `ld.s` and `st.s` for gang number g. -/
def accessRow (store : Bool) (g : Nat) : TileState → TileRow
  | .empty => .trap
  | .priv h => if h = g then .perform else .wait
  | .filling _ => .wait
  | .ready => if store then .trap else .perform
  | .draining _ => .wait

/-- The state of the tile that a lane names. -/
def laneTile (s : State) (x : Nat) : TileState :=
  match tileOf s (tileAddr x).2.1 with
  | some t => t.state
  | none => .empty

/-- The first lane that a condition picks. -/
def firstLane (q : Nat → Bool) (l : List (Nat × Nat)) : Option Nat := (findFirst (fun e => q e.2) l).map fun e => e.1

/-- When the split at issue came to wait for a tile: it keeps its place while it waits (R110). -/
def tileSince (s : State) (h : Nat) : Nat :=
  match s.p.wait with
  | .tile _ k n _ => if k = h then n else s.nextId
  | _ => s.nextId

/-- The wait of the split at issue for a tile. -/
def tileWait (s : State) (h : Nat) (woken : Bool) : Wait :=
  .tile (if detNow s then some (curKey s) else none) h (tileSince s h) woken

/-- In a free launch another split of the workgroup has waited longer for the tile and is to be served first (R110). -/
def blockedAt (s : State) (h : Nat) : Bool :=
  !detNow s && (allGangs s).any fun e => e.1.launch == s.g.launch && e.1.wg == s.g.wg && e.1.resident && e.2.any fun q =>
    match q.wait with
    | .tile none k n true => k == h && decide (n < tileSince s h)
    | _ => false

/-- The splits of a workgroup that wait for a tile look it up again. -/
def wakeTile (launch wg h : Nat) (s : State) : State :=
  let wake (q : Split) : Split :=
    match q.wait with
    | .tile k x n _ => if x = h then { q with wait := .tile k x n true } else q
    | _ => q
  let one (g : Gang) : Gang :=
    if g.launch = launch ∧ g.wg = wg then
      { g with splits := g.splits.map wake, parked := g.parked.map fun x => (x.1, x.2.map wake) }
    else g
  { s with
    p := if s.g.launch = launch ∧ s.g.wg = wg then wake s.p else s.p
    g := one s.g
    gangs := s.gangs.map one }

/-- Updates a tile and wakes the splits that wait for it. -/
def mapTile (launch wg h : Nat) (f : Tile → Tile) (s : State) : State :=
  wakeTile launch wg h
    { s with tiles := updateWhere (fun t => t.launch == launch && t.wg == wg && t.h == h) f s.tiles }

/-- A tile of a gang leaves PRIVATE: a region that still holds stores to it commits first, and a new one opens there, so that the
transition finds the stores in the tile and no region that has made them is discarded (R41, R94; log entry 80). -/
def landTile (gang h : Nat) (s : State) : State :=
  let holds (q : Split) : Bool := q.buffer.any fun b => b.tile == some h
  match gangOf s gang with
  | none => s
  | some g =>
    (((if s.g.id = gang then [s.p] else []) ++ g.splits).filter holds).foldl
      (fun s q => withSplit gang (lowest q.members) openRegion s) s

/-! ### Discard (R243) -/

/-- The first granule of a range whose write check fails, or one whose PLB entry is missing. -/
def granuleChecks (s : State) (w : Window) (o : Nat) : List Nat → Option Ea
  | [] => none
  | k :: r =>
    match corePermission s w (o + 65536 * k) 65536 writeNeed with
    | .ok => granuleChecks s w o r
    | .fail => some (.fail 3 0x44 (windowAddress w (o + 65536 * k)))
    | .miss va => some (.miss va)

/-- The checks of R243 in their order, for the whole range. -/
def disVerdict (s : State) (w : Window) (o d : Nat) : Verdict :=
  let fail (c : BitVec 8) (va : Word) : Verdict := .fail { cause := c, va := va, lanes := 0, pnode := 0 }
  let lo := w.base.toNat % 2 ^ 53 + o
  let va := windowAddress w o
  let gs := countFrom 0 (d / 65536)
  if !w.valid then fail 0x40 0
  else if isControl w.base && !isPriv s then fail 0x42 0
  else if 2 ^ 53 < lo + max d 1 || (!isControl w.base && decide (0 < d) && decide (3 * 2 ^ 51 < lo + d)) then fail 0x41 (w.base + BitVec.ofNat 64 o)
  else if lo % 65536 ≠ 0 || d % 65536 ≠ 0 then fail 0x43 va
  else
    match granuleChecks s w o gs with
    | some (.fail _ c va) => fail c va
    | some (.miss va) => .wait (.plb va false)
    | _ => .ok

/-- The granules of a discard, one buffered write each. -/
def discards (s : State) (word : BitVec 32) (w : Window) (o d : Nat) : List BufStore :=
  (countFrom 0 (d / 65536)).map fun k => mkStore s 64 (windowAddress w (o + 65536 * k)) 65536 .discard word

/-- Buffers discards, which take no line of the region buffer (R41 counts stores). -/
def bufferDiscards (bs : List BufStore) (s : State) : State :=
  if s.p.entry.isNone then releaseAll bs s else { s with p := { s.p with buffer := s.p.buffer ++ bs } }

/-- R243: discards a range of granules when its region commits. -/
def execDis (o : OpDis) (s : State) : Host.Outcome State Fault Refusal :=
  let word := wordOf (encode (.dis o))
  let off (s : State) : Nat := (getS s o.a.toNat).toNat % 2 ^ 32
  .next (issue { Form.plain word 4 with
      bad := if wellFormed (.dis o) then none else some 0x03
      addrs := [(codeS o.a.toNat, false), (codeS o.d.toNat, false)]
      reads := [codeW o.w.toNat] }
    (fun s => disVerdict s (usableWindow s (getW s o.w.toNat)) (off s) (getS s o.d.toNat).toNat)
    (fun s => finish 4 (refreshWindow o.w.toNat
      (bufferDiscards ((discards s word (getW s o.w.toNat) (off s) (getS s o.d.toNat).toNat).filter
        fun b => !isControl b.va) s))) s)

end Sys2Proof.Machine
end

