-- ==== Sys2Proof/Machine/Atomic.lean ====
section
/-! DEFINITION. Atomics, reductions, acquire and release (spec/11_isa_memory_sync.md R244 to R248;
spec/03_logical_time.md R66, R72 to R74; spec/04_consistency.md R86, R89). -/

namespace Sys2Proof.Machine

/-! ### Types (R245, R247) -/

/-- The types of codes 0x00 to 0x06: 32-bit and 64-bit integers and every float; the logical operations take no float. -/
def atomicTy (n : Nat) (t : Ty) : Bool :=
  if t.isFloat then decide (n < 3 ∨ n = 6 ∨ n = 8) else decide (32 ≤ t.width)

/-- The types of the maximum with index. -/
def maxiTy (t : Ty) : Bool := t.width == 16 || decide (t = Ty.n 64)

/-- The word P that atom.maxi builds from a 16-bit element and an index. -/
def maxiWord (t : Ty) (e x : Nat) : Nat :=
  let k := if t.isFloat then ordKey t e else if t.kind = .int then Nat.xor e 0x8000 else e
  let raw := if t.isFloat then quiet t e else e
  k % 2 ^ 16 * 2 ^ 48 + (2 ^ 32 - 1 - x % 2 ^ 32) * 2 ^ 16 + raw % 2 ^ 16

/-- The bytes of P for a lane. -/
def maxiBytes (s : State) (t : Ty) (d i : Nat) : List Byte :=
  if t.width = 64 then regBytes s d 2 i
  else leBytes 8 (maxiWord t ((getV s d i).toNat % 2 ^ 16) (getV s (d + 1) i).toNat)

/-- The value a lane gives an operation of type t: the low bytes of its registers. -/
def elemBytes (s : State) (t : Ty) (d i : Nat) : List Byte := (regBytes s d t.regs i).take (t.width / 8)

/-! ### The operations of one instruction -/

/-- What one lane's atomic does at its home, with its size and the registers the old value takes. -/
structure AtomOp where
  size : Nat
  regs : Nat
  /-- registers read, from d -/
  uses : Nat
  op : State → Nat → AccessOp

/-- The element operations of a type. -/
def typedAtom (t : Ty) (d n : Nat) : AtomOp where
  size := t.width / 8
  regs := t.regs
  uses := t.regs
  op := fun s i => .rmw n (modeT s) (modeRm s) (modeFz s) (elemBytes s t d i) []

/-- Compare-and-swap of an element. -/
def typedCas (t : Ty) (d : Nat) : AtomOp where
  size := t.width / 8
  regs := t.regs
  uses := 2 * t.regs
  op := fun s i => .rmw 8 (modeT s) (modeRm s) (modeFz s) (elemBytes s t (d + t.regs) i) (elemBytes s t d i)

/-- Compare-and-swap of 16 bytes. -/
def wideCas (d : Nat) : AtomOp where
  size := 16
  regs := 4
  uses := 8
  op := fun s i => .rmw 10 (modeT s) (modeRm s) (modeFz s) (regBytes s (d + 4) 4 i) (regBytes s d 4 i)

/-- Maximum with index. -/
def maxiAtom (t : Ty) (d : Nat) : AtomOp where
  size := 8
  regs := 2
  uses := 2
  op := fun s i => .rmw 9 (modeT s) (modeRm s) (modeFz s) (maxiBytes s t d i) []

/-- An element group of r registers from d is even where T has 64 bits. -/
def groupFits (t : Ty) (d : BitVec 7) (r : Nat) : Bool := vDstOk t.wide d && decide (d.toNat + r ≤ 96)

/-- The atomic of each instruction under the T of MODE; none where fields or T are reserved. -/
def atomOf (s : State) : Instr → Option AtomOp
  | .atom o => do
    let t ← elemTy s
    if wellFormed (.atom o) && atomicTy o.n.toNat t && vDstOk t.wide o.d then some (typedAtom t o.d.toNat o.n.toNat)
    else none
  | .atomCas o => do
    let t ← elemTy s
    if atomicTy 8 t && groupFits t o.d (2 * t.regs) then some (typedCas t o.d.toNat) else none
  | .atomCas16 o => if wellFormed (.atomCas16 o) then some (wideCas o.d.toNat) else none
  | .atomMaxi o => do
    let t ← elemTy s
    if wellFormed (.atomMaxi o) && maxiTy t then some (maxiAtom t o.d.toNat) else none
  | _ => none

/-! ### Sending a turn's accesses -/

/-- Sends an access of a turn, keyed at the split's key in a deterministic launch. Control space has no home that could
perform it: it is refused (log entry 21). -/
def sendTurn (q : Req) (s : State) : State :=
  let q := { q with
    key := if detNow s then some (curKey s) else none
    phase := if isControl q.va then .refused 0x70 else .sent }
  if opWrites q.op then sendWrite q s else sendReq q s

/-- Sends the accesses of an atomic, one per active lane; each destination is empty until the old value arrives. -/
def atomSend (word : BitVec 32) (w : BitVec 3) (a : BitVec 7) (d : Nat) (op : AtomOp) (s : State) : State :=
  let ops := (laneTargets s w a).map fun e => (e, op.op s e.1)
  ops.foldl (fun s e =>
    sendTurn (mkReq s e.1.1 e.1.2 op.size e.2 (.vector d op.regs e.1.1) word)
      (markEmpty (.vector d op.regs e.1.1) s.nextId s)) s

/-- Lines that an atomic writes. -/
def atomLines (w : BitVec 3) (a : BitVec 7) (s : State) : List Nat := turnLines ((laneTargets s w a).map fun e => e.2)

/-- What an atomic does once it is admitted: in a deterministic launch it publishes first (R66). -/
def atomPerform (i : Instr) (w : BitVec 3) (a : BitVec 7) (d : Nat) (s : State) : State :=
  match atomOf s i with
  | none => s
  | some op =>
    let word := wordOf (encode i)
    publishingTurn word (atomLines w a)
      (fun s => finishTurn 8 (refreshWindow w.toNat (atomSend word w a d op s))) s

/-- The cause of an unassigned sub-operation code (R244, order 2 of R177), else a reserved operand. -/
def atomBad (i : Instr) : BitVec 8 :=
  match i with
  | .atom o => if o.n.toNat < 7 then 0x03 else 0x01
  | .red o => if o.n.toNat < 6 then 0x03 else 0x01
  | _ => 0x03

/-- A local atomic: irrevocable and, in a deterministic launch, a publishing turn. -/
def atomIssue (i : Instr) (ta : Bool) (d : BitVec 7) (w : BitVec 3) (a : BitVec 7) (s : State) : State :=
  let f := { memForm (wordOf (encode i)) 8 true ta w a s with irrevocable := true, turn := true }
  match atomOf s i with
  | none => issue { f with bad := some (atomBad i), addrs := [] } noCheck (finish 8) s
  | some op =>
    issue { f with
        srcs := srcV d.toNat op.uses false (activeLanes s)
        dsts := dstV d.toNat op.regs (activeLanes s) }
      (fun s => laneVerdict (laneAddrs s w a op.size bothNeed))
      (fun s => takePublishing i inLineage (atomLines w a) (atomPerform i w a d.toNat) s) s

/-- R246: old m to d; m := op(m, v). -/
def execAtom (o : OpAtom) (s : State) : Host.Outcome State Fault Refusal :=
  .next (atomIssue (.atom o) o.ta o.d o.w o.a s)

/-- R246: compare-and-swap of an element. -/
def execAtomCas (o : OpMw) (s : State) : Host.Outcome State Fault Refusal :=
  .next (atomIssue (.atomCas o) o.ta o.d o.w o.a s)

/-- R246: compare-and-swap of 16 bytes. -/
def execAtomCas16 (o : OpMw) (s : State) : Host.Outcome State Fault Refusal :=
  .next (atomIssue (.atomCas16 o) o.ta o.d o.w o.a s)

/-- R247: maximum with index. -/
def execAtomMaxi (o : OpMw) (s : State) : Host.Outcome State Fault Refusal :=
  .next (atomIssue (.atomMaxi o) o.ta o.d o.w o.a s)

/-! ### Reductions (R246, R72 to R74) -/

/-- The reductions of a `red`, one per active lane. -/
def redsOf (s : State) (word : BitVec 32) (t : Ty) (o : OpAtom) : List BufStore :=
  (laneTargets s o.w o.a).map fun e =>
    mkStore s e.1 e.2 (t.width / 8)
      (.reduce o.n.toNat (modeT s) (modeRm s) (modeFz s) (elemBytes s t o.d.toNat e.1)) word

/-- The core's retry queue is full: in a deterministic launch a `red` is then a turn (R74), unless it is to the host aperture alone,
where it enters no Mitten buffer (R98). -/
def redIsTurn (w : BitVec 3) (a : BitVec 7) (s : State) : Bool :=
  detNow s && decide (Config.retryEntries ≤ (s.retry.filter fun u => u.core == s.g.core).length)
    && ((activeLanes s).isEmpty || (laneTargets s w a).any fun e => decide (regionOf (offsetOf e.2) ≠ 3))

/-- A `red` in turn form: its updates go to their homes at its key. -/
def redPerform (o : OpAtom) (s : State) : State :=
  match elemTy s with
  | none => s
  | some t =>
    let word := wordOf (encode (.red o))
    let s := setTurn s
    finishTurn 8 ((redsOf s word t o).foldl (fun s b =>
      sendTurn (mkReq s b.lane b.va b.size b.op .none word) s) s)

/-- R246: m := op(m, v), nothing returned; one to the control space is dropped (log entry 21). -/
def execRed (o : OpAtom) (s : State) : Host.Outcome State Fault Refusal :=
  let word := wordOf (encode (.red o))
  let f := memForm word 8 true o.ta o.w o.a s
  .next (
    match elemTy s with
    | none => issue { f with bad := some (atomBad (.red o)), addrs := [] } noCheck (finish 8) s
    | some t =>
      let src := srcV o.d.toNat t.regs false (activeLanes s)
      issue { f with
          bad := if wellFormed (.red o) && atomicTy o.n.toNat t && vDstOk t.wide o.d then none
            else some (atomBad (.red o))
          srcs := src
          irrevocable := redIsTurn o.w o.a s
          turn := redIsTurn o.w o.a s
          opens := fun s => overfills (redsOf s word t o) s }
        (fun s => laneVerdict (laneAddrs s o.w o.a (t.width / 8) bothNeed))
        (fun s =>
          if redIsTurn o.w o.a s then takeTurn (.red o) (redPerform o) s
          else finish 8 (refreshWindow o.w.toNat (bufferStores ((redsOf s word t o).filter fun b => !isControl b.va) s))) s)

/-! ### Waiting for earlier accesses (R86, R91) -/

/-- The access kinds that an acquire fence waits for. -/
def returnsValue (q : Req) : Bool :=
  match q.op with
  | .load => true
  | .rmw _ _ _ _ _ _ => true
  | _ => false

/-- The copies to and from peers of the split that have not ended: each counts as one remote access (R268). -/
def farCmds (s : State) : List Cmd :=
  s.cmds.filter fun c => decide (c.op = .cpx) && c.gang == s.g.id && meets c.lineage s.p.members && !copyEnded c

/-- CLS of such a copy. -/
def farClass (c : Cmd) : Nat := classOf c.desc

/-- Remote requests of the split in a class of the mask that are not yet acknowledged. -/
def remotePending (s : State) (mask : BitVec 4) (loads : Bool) : Bool :=
  (s.remotes.any fun r => r.gang == s.g.id && meets r.lanes s.p.members && mask.getLsbD r.cls.toNat && r.cmd.isNone
      && decide (r.rest ≠ 0) && (!loads || decide (r.dest ≠ [])))
    || (!loads && (farCmds s).any fun c => mask.getLsbD (farClass c))

/-- Earlier accesses of the split in a class of the mask that have not performed; with `loads`, those that return a value
only. A store of a deterministic launch has performed once it is in the Cuff buffer (R249). -/
def accessPending (s : State) (mask : BitVec 4) (loads : Bool) : Bool :=
  (s.reqs.any fun q => q.gang == s.g.id && meets q.lanes s.p.members && !q.settled && mask.getLsbD q.cls.toNat
      && (!loads || returnsValue q))
    || remotePending s mask loads

/-- The split waits for its earlier accesses; the wait is a delivery point (R340, R372; log entry 29). -/
def awaitAccesses (mask : BitVec 4) (s : State) : State :=
  match (if (curLaunch s).det then none else deliverable s .irrevocable) with
  | some h => deliver h s
  | none => stall (.order mask s.nextId) s

/-! ### Acquire and release (R248) -/

/-- R248: what an acquire does: its loads are sent as acquires, at its key in a deterministic launch. -/
def acqPerform (o : OpAcq) (s : State) : State :=
  match elemTy s with
  | none => s
  | some t =>
    let word := wordOf (encode (.acq o))
    let n := t.width / 8
    let s := setTurn s
    finishTurn 8 (refreshWindow o.w.toNat ((laneTargets s o.w o.a).foldl (fun s e =>
      let dest : Dest := .vector o.d.toNat t.regs e.1
      let q := { mkReq s e.1 e.2 n .load dest word with sx := signExtends s false 0 }
      if isControl e.2 then
        deliverResult { q with id := s.nextId } (controlRead s e.2 n) true (markEmpty dest s.nextId s)
      else sendTurn { q with acquire := true, drops := decide (2 ≤ o.scope.toNat) } (markEmpty dest s.nextId s)) s))

/-- R248: an acquire load. -/
def execAcq (o : OpAcq) (s : State) : Host.Outcome State Fault Refusal :=
  let f := { memForm (wordOf (encode (.acq o))) 8 true o.ta o.w o.a s with irrevocable := true, turn := true }
  .next (
    match elemTy s with
    | none => issue { f with bad := some 0x03, addrs := [] } noCheck (finish 8) s
    | some t =>
      issue { f with
          bad := if wellFormed (.acq o) && vDstOk t.wide o.d then none else some 0x03
          dsts := dstV o.d.toNat t.regs (activeLanes s) }
        (fun s => laneVerdict (laneAddrs s o.w o.a (t.width / 8) readNeed))
        (fun s => takeTurn (.acq o) (acqPerform o) s) s)

/-- One lane's release store in a deterministic launch: a publication keyed at the turn, after those of the lineage (R66). -/
def publishStore (s : State) (lane : Nat) (va : Word) (data : List Byte) : CuffEntry where
  line := lineOf va
  data := bytesInLine (offsetOf va) (lineOf va) data
  key := curKey s
  lanes := laneBit lane
  pc := s.p.pc
  serial := s.p.serial
  order := 0
  log := none

/-- The stores of a release, lane by lane: to control space on the spot, in a deterministic launch published, else sent. -/
def relSend (o : OpAcq) (t : Ty) (s : State) : State :=
  let word := wordOf (encode (.rel o))
  (laneTargets s o.w o.a).foldl (fun s e =>
    let d := elemBytes s t o.d.toNat e.1
    if isControl e.2 then controlWrite e.2 d s
    else if detNow s && decide (regionOf (offsetOf e.2) ≠ 3) then
      sendPublication (curKey s) (publishStore s e.1 e.2 d) s
    else sendTurn (mkReq s e.1 e.2 d.length (.store d) .none word) s) s

/-- R248: what a release does once it is admitted. In a free launch it waits until every earlier access of the split has
performed. -/
def relPerform (o : OpAcq) (s : State) : State :=
  match elemTy s with
  | none => s
  | some t =>
    if !detNow s && accessPending s 15 false then awaitAccesses 15 s
    else publishingTurn (wordOf (encode (.rel o))) (atomLines o.w o.a)
      (fun s => finishTurn 8 (refreshWindow o.w.toNat (relSend o t s))) s

/-- R248: a release store. -/
def execRel (o : OpAcq) (s : State) : Host.Outcome State Fault Refusal :=
  let f := { memForm (wordOf (encode (.rel o))) 8 true o.ta o.w o.a s with irrevocable := true, turn := true }
  .next (
    match elemTy s with
    | none => issue { f with bad := some 0x03, addrs := [] } noCheck (finish 8) s
    | some t =>
      issue { f with
          bad := if wellFormed (.rel o) && vDstOk t.wide o.d then none else some 0x03
          srcs := srcV o.d.toNat t.regs false (activeLanes s) }
        (fun s => laneVerdict (laneAddrs s o.w o.a (t.width / 8) writeNeed))
        (fun s => takePublishing (.rel o) inLineage (atomLines o.w o.a) (relPerform o) s) s)

end Sys2Proof.Machine
end

