-- ==== Sys2Proof/Machine/Remote.lean ====
section
/-! DEFINITION. The remote instructions (spec/11_isa_memory_sync.md R254 to R256; spec/06_coherence_fabric.md R129, R142 to
R146; spec/03_logical_time.md R75; spec/20_faults_fabric_host_start.md R385). -/

namespace Sys2Proof.Machine

/-! ### Lanes, nodes and addresses (R143, R254) -/

/-- One lane's access: lane, node, address 0 ‖ node ‖ offset. -/
structure Far where
  lane : Nat
  node : Nat
  va : Word
  deriving DecidableEq, Repr

/-- The node a lane names. -/
def laneNode (s : State) (peer : BitVec 5) (i : Nat) : Nat := (getV s peer.toNat i).toNat % 1024

/-- The accesses of the active lanes. -/
def farLanes (s : State) (peer : BitVec 5) (a : BitVec 7) : List Far :=
  (activeLanes s).map fun i =>
    { lane := i, node := laneNode s peer i, va := userVA (laneNode s peer i) (fieldBits s a.toNat true i) }

/-- The distinct nodes, ascending. -/
def nodesOf (l : List Far) : List Nat := sortNub (l.map fun e => e.node)

/-- The device's own node. -/
def ownNode (s : State) : Nat := (curPart s).node

/-- A node that is dead, or not a member of the partition's domain. -/
def unreachable (s : State) (n : Nat) : Bool :=
  !(curPart s).members.contains n || (mapGet 0 (curPart s).dead (n / 64)).getLsbD (n % 64)

/-- Replays that the stores of a split's open region make at peers. -/
def bufferedFar (s : State) (part : Nat) (q : Split) : Nat :=
  ((groupFar (partOf s part).node q.buffer).filter fun l => match l with
    | b :: _ => isFar (partOf s part).node b
    | [] => false).length

/-- Remote requests of a core: each replay of an instruction at a device counts once, and so do those that open regions hold (R142,
R143). -/
def outstanding (s : State) (core : Nat) : Nat :=
  (sortNub ((s.remotes.filter fun r => r.core == core && r.cmd.isNone && !r.saved && decide (r.rest ≠ 0)).map fun r => r.group)).length
    + ((allGangs s).filter fun e => e.1.core == core).foldl (fun n e =>
        e.2.foldl (fun n q => n + bufferedFar s e.1.part q) n) 0

/-- Room for n more requests of a core (R142). -/
def remoteRoom (s : State) (core n : Nat) : Bool := decide (outstanding s core + n ≤ Config.remoteOutstanding)

/-- The checks of R359 in their order, then room for the requests (R142). -/
def farVerdict (s : State) (writes : Bool) (cls : BitVec 2) (n : Nat) (l : List Far) : Verdict :=
  let me := ownNode s
  match findFirst (fun e => decide (e.va.toNat % n ≠ 0)) l with
  | some e => .fail { cause := 0x43, va := e.va, lanes := laneBit e.lane, pnode := 0 }
  | none =>
  match findFirst (fun e => decide (e.node = me) && apertureShut s (offsetOf e.va)) l with
  | some e => .fail { cause := 0x41, va := e.va, lanes := laneBit e.lane, pnode := 0 }
  | none =>
    let away := (nodesOf l).filter fun m => m != me
    if cls = 0 ∧ away ≠ [] then .fail (failOf 0x03)
    else
      match findFirst (unreachable s) away with
      | some m => .fail { cause := 0x90, va := 0, lanes := 0, pnode := m }
      | none =>
        if earlierPending s writes then .wait (.earlier writes)
        else if !remoteRoom s s.g.core away.length then .wait (.remoteRoom away.length)
        else .ok

/-- A remote form: its peer, address and data registers. -/
def farForm (word : BitVec 32) (ok : Bool) (ta : Bool) (peer : BitVec 5) (a : BitVec 7) (s : State) : Form :=
  { Form.plain word 8 with
    bad := if ok then none else some 0x03
    addrs := (srcV peer.toNat 1 false (activeLanes s)) ++ srcV a.toNat 2 ta (activeLanes s)
    reads := maskReads s }

/-- The lanes of a list that go to one node. -/
def atNode (n : Nat) (l : List Far) : List Far := l.filter fun e => e.node == n

def lanesMask (l : List Far) : BitVec 64 := maskOf (l.map fun e => e.lane)

/-! ### ld.x (R255, R129) -/

/-- The remote-section copy that serves a load of a free launch. -/
def remoteCopy (s : State) (e : Far) : Option RemoteCopy :=
  if (curLaunch s).det then none
  else findFirst (fun c => c.part == s.g.part && c.node == e.node && c.va == offsetOf e.va / 128 * 128
    && (c.coh != 3 || c.launch == s.g.launch)) s.remoteCopies

/-- The copy that serves a load of a class: one of class O waits for the earlier class O requests of its gang to the node (R86(a), R92). -/
def servedCopy (s : State) (cls : BitVec 2) (e : Far) : Option RemoteCopy :=
  if cls == 1 && (s.remotes.any (holdsBack s.g.id e.node) || copyPending s s.g.id e.node s.nextId) then none else remoteCopy s e

/-- The destinations of a request are empty until its answer arrives. -/
def markDests (r : RemoteReq) (s : State) : State := r.dest.foldl (fun s e => markEmpty e.2 r.id s) s

/-- Loads the lanes of one node: its own memory as an ordinary load of the class, another device's through the remote
section or by one request; in domain scope the request waits until the floor has reached the view (R75). -/
def loadNode (word : BitVec 32) (cls : BitVec 2) (n : Nat) (sx : Bool) (dest : Nat → Dest) (node : Nat) (l : List Far)
    (s : State) : State :=
  if node = ownNode s then
    l.foldl (fun s e => issueLoad { mkReq s e.lane e.va n .load (dest e.lane) word with cls := cls, sx := sx } s) s
  else
    let hits := l.filterMap fun e => (servedCopy s cls e).map fun c => (e, c)
    let s := hits.foldl (fun s h =>
      sendReq { mkReq s h.1.lane h.1.va n .load (dest h.1.lane) word with
          cls := cls, sx := sx
          phase := .done ((h.2.data.drop (offsetOf h.1.va % 128)).take n) }
        (markEmpty (dest h.1.lane) s.nextId s)) s
    let miss := l.filter fun e => (servedCopy s cls e).isNone
    if miss.isEmpty then s
    else
      let domain := detNow s && (curLaunch s).dscope == 2
      let op : FabricOp := if domain then .loadAt (curView s) s.p.lastTurn else .load (!(curLaunch s).det)
      sendReplay markDests { mkRemote s node cls word with
        size := n, sx := sx
        ops := miss.map fun e => (e.lane, e.va, op)
        dest := miss.map fun e => (e.lane, dest e.lane)
        view := if domain then some (curView s) else none } s

/-- The open region holds class O stores to a node from which a class O load is to be issued: they go first, so the region commits
(R92; log entry 64). -/
def oStoresHeld (cls : BitVec 2) (l : List Far) (s : State) : Bool :=
  cls == 1 && s.p.buffer.any fun b => b.cls == 1 && l.any fun e => e.node == nodeOf b.va

/-- A region opens at a load that must follow stores of its own open region: of class O at its node, or, of class local, those that an
ordinary load follows (R86(a), R92, R143). -/
def farOpens (cls : BitVec 2) (n : Nat) (l : List Far) (s : State) : Bool :=
  oStoresHeld cls l s || cls == 0 && blockedLoad n ((atNode (ownNode s) l).map fun e => (e.lane, e.va)) s

/-- R255: loads from peers, node by node. -/
def execLdX (o : OpX) (s : State) : Host.Outcome State Fault Refusal :=
  let word := wordOf (encode (.ldX o))
  .next (
    match elemTy s with
    | none =>
      issue { farForm word false o.ta o.peer o.a s with addrs := [], dsts := dstV o.d.toNat 1 (activeLanes s) } noCheck (finish 8) s
    | some t =>
      let n := t.width / 8
      issue { farForm word (wellFormed (.ldX o) && vDstOk t.wide o.d) o.ta o.peer o.a s with
          dsts := dstV o.d.toNat t.regs (activeLanes s)
          opens := fun s => farOpens o.cls n (farLanes s o.peer o.a) s }
        (fun s => farVerdict s false o.cls n (farLanes s o.peer o.a))
        (fun s =>
          let l := farLanes s o.peer o.a
          finish 8 ((nodesOf l).foldl (fun s m =>
            loadNode word o.cls n (signExtends s false 0) (fun i => .vector o.d.toNat t.regs i) m (atNode m l) s) s)) s)

/-! ### st.x (R255) -/

/-- The stores of the lanes as a free launch buffers them: with their class, at their peers in ascending order (R143). -/
def farStores (s : State) (word : BitVec 32) (t : Ty) (o : OpX) : List BufStore :=
  let l := farLanes s o.peer o.a
  (nodesOf l).flatMap fun m => (atNode m l).map fun e =>
    { mkStore s e.lane e.va (t.width / 8) (.store (elemBytes s t o.d.toNat e.lane)) word with cls := o.cls }

/-- The stores of one node at a turn of a deterministic launch: to its own memory as publications keyed at the turn, to a
peer as its replay. -/
def storeNode (word : BitVec 32) (t : Ty) (o : OpX) (node : Nat) (l : List Far) (s : State) : State :=
  let n := t.width / 8
  if node = ownNode s then
    l.foldl (fun s e =>
      let d := elemBytes s t o.d.toNat e.lane
      if regionOf (offsetOf e.va) = 3 then sendTurn { mkReq s e.lane e.va n (.store d) .none word with cls := o.cls } s
      else sendPublication (curKey s) (publishStore s e.lane e.va d) s) s
  else
    let op (i : Nat) : FabricOp :=
      if (curLaunch s).dscope = 2 then .publication (curKey s) (elemBytes s t o.d.toNat i)
      else .store (elemBytes s t o.d.toNat i)
    sendReplay (fun _ s => s) { mkRemote s node o.cls word with
      size := n
      ops := l.map fun e => (e.lane, e.va, op e.lane)
      key := some (curKey s) } s

/-- Lines of the device's own memory that an st.x or atom.x writes. -/
def ownLines (peer : BitVec 5) (a : BitVec 7) (s : State) : List Nat :=
  turnLines ((atNode (ownNode s) (farLanes s peer a)).map fun e => e.va)

/-- What an st.x does once it is admitted. Its stores to the device's own memory are Brim entries, for which there must be room (R70,
R75). -/
def stXPerform (o : OpX) (s : State) : State :=
  match elemTy s with
  | none => s
  | some t =>
    let word := wordOf (encode (.stX o))
    let l := farLanes s o.peer o.a
    if detNow s && publishFull (fun _ => false) (ownLines o.peer o.a s) s then
      preciseTrap (failOf 0xB1) word { s with p := { s.p with wait := .none } }
    else finishTurn 8 ((nodesOf l).foldl (fun s m => storeNode word t o m (atNode m l) s) (setTurn s))

/-- R255: stores at peers; in a free launch they leave when the region commits, in a deterministic one it is a turn. -/
def execStX (o : OpX) (s : State) : Host.Outcome State Fault Refusal :=
  let word := wordOf (encode (.stX o))
  .next (
    match elemTy s with
    | none => issue { farForm word false o.ta o.peer o.a s with addrs := [] } noCheck (finish 8) s
    | some t =>
      let f := farForm word (wellFormed (.stX o) && vDstOk t.wide o.d) o.ta o.peer o.a s
      let src := srcV o.d.toNat t.regs false (activeLanes s)
      issue { f with
          srcs := src, irrevocable := detNow s, turn := detNow s
          opens := fun s => overfills (farStores s word t o) s }
        (fun s => farVerdict s true o.cls (t.width / 8) (farLanes s o.peer o.a))
        (fun s =>
          if detNow s then takePublishing (.stX o) (fun _ _ => false) (ownLines o.peer o.a) (stXPerform o) s
          else finishTurn 8 (bufferStores (farStores s word t o) s)) s)

/-! ### atom.x and red.x (R144, R255, R385) -/

/-- The atomic of a code under the T of MODE (R244, R245, R247, R255). -/
def farAtom (s : State) (o : OpXn) (ret : Bool) : Option AtomOp :=
  let n := o.n.toNat
  if n = 10 then (if ret && decide (o.d.toNat % 4 = 0 ∧ o.d.toNat ≤ 88) then some (wideCas o.d.toNat) else none)
  else
    match elemTy s with
    | none => none
    | some t =>
      if n = 9 then (if ret && maxiTy t && vDstOk true o.d then some (maxiAtom t o.d.toNat) else none)
      else if n = 8 then
        (if ret && atomicTy 8 t && groupFits t o.d (2 * t.regs) then some (typedCas t o.d.toNat) else none)
      else if n < 7 && atomicTy n t && vDstOk t.wide o.d then some (typedAtom t o.d.toNat n)
      else none

/-- An operation as the fabric carries it; in domain scope with the key of its turn. -/
def fabricOpOf (s : State) (ret : Bool) (op : AccessOp) : FabricOp :=
  match op with
  | .rmw n ty rm fz v w =>
    if detNow s && (curLaunch s).dscope == 2 then
      .atomicAt (curKey s) (BitVec.ofNat 5 n) (BitVec.ofNat 4 ty) rm fz v w
    else if ret then .atomic (BitVec.ofNat 5 n) (BitVec.ofNat 4 ty) rm fz v w
    else .reduce (BitVec.ofNat 5 n) (BitVec.ofNat 4 ty) rm fz v
  | _ => .cap

/-- Sends the operations of one node; the split then waits for their answers. -/
def atomNode (word : BitVec 32) (o : OpXn) (ret : Bool) (op : AtomOp) (node : Nat) (l : List Far) (s : State) : State :=
  let id := s.nextId
  let dest (i : Nat) : Dest := if ret then .vector o.d.toNat op.regs i else .none
  let ops := l.map fun e => (e, op.op s e.lane)
  let s :=
    if node = ownNode s then
      ops.foldl (fun s e =>
        let act : AccessOp := match ret, e.2 with
          | false, .rmw n ty rm fz v _ => .reduce n ty rm fz v
          | _, a => a
        sendTurn { mkReq s e.1.lane e.1.va op.size act (dest e.1.lane) word with cls := o.cls }
          (markEmpty (dest e.1.lane) s.nextId s)) s
    else
      sendReplay markDests { mkRemote s node o.cls word with
        size := op.size
        ops := ops.map fun e => (e.1.lane, e.1.va, fabricOpOf s ret e.2)
        dest := if ret then l.map fun e => (e.lane, dest e.lane) else []
        key := if detNow s then some (curKey s) else none } s
  { s with p := { s.p with wait := .remote id } }

/-- The lanes that are still to perform. -/
def farLeft (s : State) (o : OpXn) : List Far :=
  let l := farLanes s o.peer o.a
  match s.p.redo with
  | none => l
  | some m => l.filter fun e => lane m e.lane

/-- Performs the next node; with none left the instruction retires. -/
def farStep (word : BitVec 32) (o : OpXn) (ret : Bool) (s : State) : State :=
  match farAtom s o ret with
  | none => s
  | some op =>
    let l := farLeft s o
    match nodesOf l with
    | [] => finishTurn 8 (setTurn { s with p := { s.p with redo := none } })
    | n :: _ =>
      let s := atomNode word o ret op n (atNode n l) s
      { s with p := { s.p with redo := some (lanesMask (l.filter fun e => e.node != n)) } }

/-- The requests of the instruction at the pc from number id on that have not been answered. -/
def farPending (s : State) (id : Nat) : Bool :=
  (s.remotes.any fun r => r.gang == s.g.id && decide (id ≤ r.id) && r.pc == s.p.pc && meets r.lanes s.p.members
      && decide (r.rest ≠ 0))
    || (s.reqs.any fun q => q.gang == s.g.id && decide (id ≤ q.id) && q.pc == s.p.pc && meets q.lanes s.p.members
      && !q.settled)

/-- The answered requests of the instruction at the pc. -/
def farDone (s : State) (id : Nat) (r : RemoteReq) : Bool :=
  r.gang == s.g.id && decide (id ≤ r.id) && r.pc == s.p.pc && meets r.lanes s.p.members && decide (r.rest = 0)

/-- A node failed: the failing lanes' destinations are full with their old values, and the trap is precise (KIND 4); its lanes are those that
remain (R385). -/
def farTrap (r : RemoteReq) (id : Nat) (s : State) : State :=
  let f := remoteFaultOf s r
  let s := (failedMates s r).foldl (fun s r => (r.dest.filter fun e => lane r.failed e.1).foldl
    (fun s e => deliverTo r.gang r.id e.2 false [] .full false s) s) s
  let left := s.p.redo.getD 0
  let s := { s with
    remotes := s.remotes.filter fun x => !farDone s id x
    p := { s.p with redo := some (f.lanes ||| left) } }
  enterTrap { kind := 4, cause := f.cause, sub := 0, pc := s.p.pc, va := f.va, lanes := f.lanes ||| left
              serial := s.p.serial, clock := s.p.clock, pnode := r.node, n := 0, word := r.word } s.p.pc s

/-- The answers of a node are in: the next node performs, or its failure is taken. -/
def farContinue (word : BitVec 32) (o : OpXn) (ret : Bool) (id : Nat) (s : State) : State :=
  if farPending s id then s
  else
    match findFirst (fun r => farDone s id r && r.fault.isSome) s.remotes with
    | some r => farTrap r id s
    | none =>
      farStep word o ret { s with remotes := s.remotes.filter fun r => !farDone s id r, p := { s.p with wait := .none } }

/-- What an atom.x does once it is admitted: it publishes first (R66). -/
def atomXPerform (o : OpXn) (s : State) : State :=
  let word := wordOf (encode (.atomX o))
  let s := { s with p := { s.p with wait := .none } }
  if detNow s then
    publishing word (inLineage s) (ownLines o.peer o.a s) (farStep word o true) s
  else farStep word o true s

/-- What a red.x does once it is admitted. -/
def redXPerform (o : OpXn) (s : State) : State :=
  farStep (wordOf (encode (.redX o))) o false { s with p := { s.p with wait := .none } }

/-- The issue of atom.x and red.x, irrevocable and turns; while it waits for a node's answers it goes on there. -/
def farIssue (i : Instr) (word : BitVec 32) (o : OpXn) (ret : Bool) (perform : State → State) (s : State) : State :=
  match s.p.wait with
  | .remote id => farContinue word o ret id s
  | _ =>
    let f := { farForm word true o.ta o.peer o.a s with irrevocable := true, turn := true }
    let assigned := if ret then decide (o.n.toNat < 7 ∨ o.n.toNat = 8 ∨ o.n.toNat = 9 ∨ o.n.toNat = 10)
      else decide (o.n.toNat < 6)
    match (if assigned && (decide (96 ≤ o.a.toNat) || o.a.toNat % 2 == 0) then farAtom s o ret else none) with
    | none => issue { f with bad := some (if assigned then 0x03 else 0x01), addrs := [] } noCheck (finish 8) s
    | some op =>
      issue { f with
          srcs := srcV o.d.toNat op.uses false (activeLanes s)
          dsts := if ret then dstV o.d.toNat op.regs (activeLanes s) else [] }
        (fun s => farVerdict s true o.cls op.size (farLeft s o))
        (fun s => takePublishing i (fun s e => ret && inLineage s e) (fun s => if ret then ownLines o.peer o.a s else []) perform s) s

/-- R255: atomics at peers. -/
def execAtomX (o : OpXn) (s : State) : Host.Outcome State Fault Refusal :=
  .next (farIssue (.atomX o) (wordOf (encode (.atomX o))) o true (atomXPerform o) s)

/-- R255: reductions at peers. -/
def execRedX (o : OpXn) (s : State) : Host.Outcome State Fault Refusal :=
  .next (farIssue (.redX o) (wordOf (encode (.redX o))) o false (redXPerform o) s)

/-! ### peer.cap (R146, R256) -/

/-- The device's own capability word. -/
def ownCap (s : State) : Word := Config.capWord (preciseDir s s.g.part)

/-- Reads the capability word of one node for its lanes, whose destinations are empty until it arrives. -/
def capNode (word : BitVec 32) (d node : Nat) (l : List Far) (s : State) : State :=
  let dest (i : Nat) : Dest := .vector d 2 i
  if node = ownNode s ∨ unreachable s node then
    let w : Word := if node = ownNode s then ownCap s else 0
    l.foldl (fun s e =>
      sendReq { mkReq s e.lane 0 8 .load (dest e.lane) word with phase := .done (leBytes 8 w.toNat) }
        (markEmpty (dest e.lane) s.nextId s)) s
  else
    sendReplay markDests { mkRemote s node 1 word with
      size := 8
      ops := l.map fun e => (e.lane, 0, .cap)
      dest := l.map fun e => (e.lane, dest e.lane) } s

/-- R256: the capability words of the lanes' nodes. -/
def execPeerCap (o : OpPeer) (s : State) : Host.Outcome State Fault Refusal :=
  let word := wordOf (encode (.peerCap o))
  let far (s : State) : List Far :=
    (activeLanes s).map fun i => { lane := i, node := laneNode s o.peer i, va := 0 }
  .next (issue { Form.plain word 8 with
      bad := if wellFormed (.peerCap o) then none else some 0x03
      addrs := srcV o.peer.toNat 1 false (activeLanes s)
      reads := maskReads s
      dsts := dstV o.d.toNat 2 (activeLanes s) }
    (fun s =>
      let away := (nodesOf (far s)).filter fun m => m != ownNode s && !unreachable s m
      if earlierPending s false then .wait (.earlier false)
      else if !remoteRoom s s.g.core away.length then .wait (.remoteRoom away.length)
      else .ok)
    (fun s =>
      let l := far s
      finish 8 ((nodesOf l).foldl (fun s m => capNode word o.d.toNat m (atNode m l) s) s)) s)

end Sys2Proof.Machine
end

