-- ==== Sys2Proof/Machine/RemoteSteps.lean ====
section
/-! DEFINITION. Requests between devices (spec/06_coherence_fabric.md R129 to R145; spec/20_faults_fabric_host_start.md R383 to
R389): refusals and back-off, responses, faults and timeouts at the source; requests, invalidations and probes that arrive
over the fabric; floors between the members of a group. -/

namespace Sys2Proof.Machine

/-! ### At the source -/

def remoteOf (s : State) (id : Nat) : Option RemoteReq := findFirst (fun r => r.id == id) s.remotes

def mapRemote (id : Nat) (f : RemoteReq → RemoteReq) (s : State) : State :=
  { s with remotes := updateWhere (fun r => r.id == id) f s.remotes }

/-- Runs a step on an outstanding remote request. -/
def onRemote (f : RemoteReq → State → State) (s : State) : State :=
  onNum (fun id s => match remoteOf s id with
    | some r => f r s
    | none => s) s

/-- The request has been sent and not yet answered. -/
def inFlight (r : RemoteReq) : Bool := !r.waiting && !r.heldBack && !r.saved && r.view.isNone && decide (r.rest ≠ 0)

/-- REFUSAL_RECEIVE (R132): counts a refusal, up to 15; the request waits in back-off. -/
def execRefusalReceive (s : State) : Host.Outcome State Fault Refusal :=
  .next (onRemote (fun r s =>
    if inFlight r then
      countEvent r.launch 0x030 1 (mapRemote r.id (fun r => { r with refusals := min 15 (r.refusals + 1), waiting := true }) s)
    else s) s)

/-- The first request held back that may leave: none of its gang to the node is on its way, nor a copy that was issued before it (R92,
R133). -/
def heldNext (s : State) (gang node : Nat) : Option RemoteReq :=
  if s.remotes.any fun r => holdsBack gang node r && !r.heldBack && !r.saved then none
  else findFirst (fun r => r.gang == gang && r.node == node && r.heldBack && !copyPending s gang node r.id) s.remotes

/-- The first request held back behind an answered one leaves, once it needs no view (R133). -/
def releaseHeld (gang node : Nat) (s : State) : State :=
  match heldNext s gang node with
  | none => s
  | some r =>
    let s := mapRemote r.id (fun r => { r with heldBack := false }) s
    if r.view.isSome then s else depart r s

/-- A saved request may be sent again: its gang is on its core, there is room for it (R142), and no saved one of its order comes first. -/
def mayResend (s : State) (r : RemoteReq) : Bool :=
  r.saved && ((gangOf s r.gang).any fun g => g.resident)
    && (remoteRoom s r.core 1
      || s.remotes.any fun x => x.gang == r.gang && x.group == r.group && !x.saved && decide (x.rest ≠ 0))
    && !(r.cls == 1 && (s.remotes.takeWhile fun x => x.id != r.id).any fun x =>
      x.saved && x.gang == r.gang && x.node == r.node && x.cls == 1)

/-- It is sent, or held back. -/
def resend (r : RemoteReq) (s : State) : State :=
  let back := r.cls == 1
    && ((s.remotes.any fun x => x.id != r.id && !x.saved && holdsBack r.gang r.node x) || copyPending s r.gang r.node r.id)
  let s := mapRemote r.id (fun r => { r with saved := false, waiting := false, heldBack := back }) s
  if back || r.view.isSome then s else depart r s

/-- REFUSAL_RESEND (R132, R133): the back-off has expired; a request that was held back or saved leaves as soon as it may. -/
def execRefusalResend (s : State) : Host.Outcome State Fault Refusal :=
  .next (onRemote (fun r s =>
    if mayResend s r then resend r s
    else if r.heldBack then releaseHeld r.gang r.node s
    else if r.waiting && !r.saved then depart r (mapRemote r.id (fun r => { r with waiting := false }) s)
    else s) s)

/-- The instruction of the request waits for its answers: a remote atomic or reduction. -/
def awaitedBySplit (r : RemoteReq) : Bool :=
  match r.ops with
  | (_, _, .atomic _ _ _ _ _ _) :: _ => true
  | (_, _, .atomicAt _ _ _ _ _ _ _) :: _ => true
  | (_, _, .reduce _ _ _ _ _) :: _ => true
  | _ => false

/-- A capability read that met silence: it returns 0 without a trap (R146). -/
def capSilent (r : RemoteReq) : Bool :=
  r.fault == some 0x92 && match r.ops with
    | (_, _, .cap) :: _ => true
    | _ => false

/-- Lines of the remote section of a partition: its share of every slice of its own clusters that is in service (R22, R129). -/
def remoteCapacity (s : State) (q : Partition) : Nat :=
  q.rsec * 512 * ((countFrom 0 Config.deviceSlices).filter fun n => q.clmask.getLsbD (n / Config.clusterSlices) && sliceServes s n).length

/-- Fills the remote section; the oldest copy leaves a full one without notice. -/
def fillRemote (c : RemoteCopy) (s : State) : State :=
  let rest := s.remoteCopies.filter fun x => !(x.part == c.part && x.node == c.node && x.va == c.va)
  let cap := remoteCapacity s (partOf s c.part)
  if cap = 0 then { s with remoteCopies := rest }
  else
    let rest := if (rest.filter fun x => x.part == c.part).length < cap then rest
      else dropFirst (fun x => x.part == c.part) rest
    { s with remoteCopies := rest ++ [c] }

/-- Bytes that lane number j of an answer carries, and the line it brings: 128 bytes a lane where a copy is kept, else the
access's own bytes. -/
def answerBytes (r : RemoteReq) (copy : Bool) (a : RemoteAnswer) (j : Nat) (va : Word) : List Byte :=
  if copy then (((a.data.drop (128 * j)).take 128).drop (offsetOf va % 128)).take r.size
  else (a.data.drop (r.size * j)).take r.size

/-- The answer leaves copies: an ld.x of a free launch, on a directory-tracked or launch-read-only page. -/
def keepsCopy (r : RemoteReq) (a : RemoteAnswer) : Bool :=
  (a.coh == 1 || a.coh == 3) && match r.ops with
    | (_, _, .load c) :: _ => c
    | _ => false

/-- Delivers the lanes of an answer in order. A line that was invalidated on its way serves the load and leaves no copy (R129). -/
def deliverLanes (r : RemoteReq) (copy : Bool) (a : RemoteAnswer) : Nat → List (Nat × Word × FabricOp) → State → State
  | _, [], s => s
  | j, (i, va, _) :: l, s =>
    let s := match findFirst (fun e => e.1 == i) r.dest with
      | some d => deliverTo r.gang r.id d.2 r.sx (answerBytes r copy a j va) .full true s
      | none => s
    let s := if copy && !r.dropped.contains (offsetOf va / 128 * 128) then
        fillRemote { part := r.part, node := r.node, va := offsetOf va / 128 * 128, coh := a.coh, launch := r.launch
                     data := takePad 128 ((a.data.drop (128 * j)).take 128) } s
      else s
    deliverLanes r copy a (j + 1) l s

/-! ### The answers of a replay (R144, R385) -/

/-- The requests of the replay that a request belongs to. -/
def replayMates (s : State) (r : RemoteReq) : List RemoteReq :=
  s.remotes.filter fun x => x.gang == r.gang && x.group == r.group && x.cmd.isNone

/-- The lanes of a request. -/
def opsMask (r : RemoteReq) : BitVec 64 := maskOf (r.ops.map fun e => e.1)

/-- The lanes that were answered get their values. -/
def deliverGot (r : RemoteReq) (s : State) : State :=
  match r.answer with
  | some a => deliverLanes r (keepsCopy r a) a 0 (r.ops.filter fun e => lane r.got e.1) s
  | none => s

/-- The destinations of the lanes that failed are faulted; those of a capability read that met silence are 0 (R146). -/
def failLanes (r : RemoteReq) (s : State) : State :=
  (r.dest.filter fun e => lane r.failed e.1).foldl (fun s e =>
    if capSilent r then deliverTo r.gang r.id e.2 false (List.replicate 8 0) .full true s
    else deliverTo r.gang r.id e.2 false [] (.faulted r.id) false s) s

/-- Sets a node's bit in a partition's dead-peer bitmap (R386, R387). -/
def markDead (part node : Nat) (s : State) : State :=
  mapPart part (fun q => { q with
    dead := mapSet 0 q.dead (node / 64) (mapGet 0 q.dead (node / 64) ||| BitVec.ofNat 64 (2 ^ (node % 64))) }) s

/-- A failed remote store: held for delivery to its gang; where the gang has ended, recorded, and its launch takes the cause
(R385, R340; log entry 33). -/
def storeFails (r : RemoteReq) (c : BitVec 8) (m : BitVec 64) (s : State) : State :=
  let va := (findFirst (fun e => e.1 == lowest m) r.ops).elim r.va fun e => e.2.1
  let queue (w : Party) (s : State) : State :=
    faultQueue r.part (recordHead { kind := 4, cause := c, sub := 0, pc := r.pc, va := va, lanes := m, serial := r.serial
                                    clock := r.clock, pnode := r.node, n := 0, word := r.word } w)
      (mapLaunch r.launch (fun l => { l with ended := some (c, 3) }) s)
  match gangOf s r.gang with
  | some g =>
    if g.ended then queue (partyOf g) s
    else
      mapGang r.gang (fun g => { g with
        faults := g.faults ++ [{ kind := 4, cause := c, sub := 0, pc := r.pc, va := va, lanes := m, serial := r.serial
                                 clock := r.clock, pnode := r.node, lineage := r.lanes, key := r.key, counter := none
                                 cmd := none }] }) s
  | none => queue { gangid := 0, wg := 0, asid := 0, part := r.part } s

/-- Once every line of a replay has been answered its values arrive, and its failed lanes are reported together: those of a store to its gang;
those of an atomic or a reduction its split looks for itself (R385). -/
def closeReplay (r : RemoteReq) (s : State) : State :=
  let ms := replayMates s r
  if ms.any fun x => decide (x.rest ≠ 0) then s
  else
    let failed := ms.filter fun x => x.fault.isSome
    let s := ms.foldl (fun s x => deliverGot x s) s
    let s :=
      if awaitedBySplit r then s
      else if r.dest ≠ [] then failed.foldl (fun s x => failLanes x s) s
      else
        match leastBy (fun a b => decide (lowest a.failed < lowest b.failed)) failed with
        | some x => storeFails x (x.fault.getD 0x91) (failed.foldl (fun m y => m ||| y.failed) 0) s
        | none => s
    { s with remotes := s.remotes.filter fun x => !(ms.any fun y => y.id == x.id) || awaitedBySplit x
        || (x.fault.isSome && decide (x.dest ≠ []) && !capSilent x) }

/-- REMOTE_RESPONSE (R129): the request has performed; what its replay brought arrives with its last answer, and its node's held-back
requests leave. -/
def execRemoteResponse (s : State) : Host.Outcome State Fault Refusal :=
  .next (match s.arg with
    | .answer id a =>
      match remoteOf s id with
      | none => s
      | some r =>
        if !inFlight r then s
        else
          releaseHeld r.gang r.node
            (if r.cmd.isSome then { forCmd r a s with remotes := s.remotes.filter fun x => x.id != r.id }
            else closeReplay r (mapRemote r.id (fun r => { r with answer := some a, got := r.rest, rest := 0 }) s))
    | _ => s)
where
  /-- what arrives for a copy waits for its next step -/
  forCmd (r : RemoteReq) (a : RemoteAnswer) (s : State) : State :=
    { s with
      cmds := updateWhere (fun (c : Cmd) => decide (r.cmd = some c.id ∧ c.op ≠ .coll)) (fun c => { c with data := some a.data }) s.cmds }

/-- The lanes of a request have failed with a cause. -/
def noteFail (id : Nat) (c : BitVec 8) (m : BitVec 64) (s : State) : State :=
  mapRemote id (fun r => { r with fault := some c, failed := r.failed ||| m, got := r.got &&& ~~~m, rest := r.rest &&& ~~~m }) s

/-- The members of a collective by rank. -/
def collNodes (c : Cmd) : List Nat := (c.fmt.drop 1).map fun w => w.toNat

/-- The lowest of the other members whose dead-peer bit is set (R391). -/
def deadMember (s : State) (c : Cmd) : Option Nat :=
  leastBy (fun a b => decide (a < b)) ((collNodes c).filter fun n =>
    n != (partOf s c.part).node && (mapGet 0 (partOf s c.part).dead (n / 64)).getLsbD (n % 64))

/-- A collective stops at a member: the record names the lowest that has failed, and what it had sent is awaited no more (R391; log
entry 111). -/
def stopColl (c : Cmd) (node : Nat) (s : State) : State :=
  suspendCmd c.id 0x94 0 0 ((deadMember s c).getD node) true
    { s with remotes := s.remotes.filter fun x => !decide (x.cmd = some c.id) }

/-- The lanes of a request fail with a cause (R385); a transfer of a copy suspends its command, one of a collective stops it. -/
def failRemote (r : RemoteReq) (c : BitVec 8) (m : BitVec 64) (s : State) : State :=
  match r.cmd with
  | none => closeReplay r (noteFail r.id c m s)
  | some id =>
    let t := match cmdOf s id with
      | some k => if k.op = EngOp.coll then stopColl k r.node s else suspendCmd id c 0 r.va r.node (c == 0x92) s
      | none => s
    { t with remotes := t.remotes.filter fun x => x.id != r.id }

/-- The cause that an answer gives the instruction (R385); an exhausted spill area that of R70 (log entry 105). -/
def answerCause : FaultAnswer → BitVec 8
  | .refused => 0x91
  | .unsupported => 0x93
  | .exhausted => 0xB1

/-- REMOTE_FAULT_RESPONSE (R385): the target refused the lanes named, or lacks the operation (R145), or has no room for what they publish
(R70). -/
def execRemoteFaultResponse (s : State) : Host.Outcome State Fault Refusal :=
  .next (match s.arg with
    | .remoteFault id why lanes =>
      match remoteOf s id with
      | none => s
      | some r =>
        if !inFlight r then s
        else releaseHeld r.gang r.node (failRemote r (answerCause why) (lanes &&& r.rest) s)
    | _ => s)

/-- A request that fails with a silent one: those of its replay, answered or not, and the class O ones of its gang held back for the
node (R385, R386). -/
def failsWith (r x : RemoteReq) : Bool :=
  x.gang == r.gang && x.node == r.node
    && (decide (x.group = r.group ∧ x.cmd = r.cmd) || (x.heldBack && decide (x.rest ≠ 0)))

/-- Requests fail by the silence of their node. -/
def failSilent (ms : List RemoteReq) (s : State) : State :=
  ms.foldl (fun s x => failRemote x 0x92 (opsMask x) s)
    ((ms.filter fun x => x.cmd.isNone).foldl (fun s x => noteFail x.id 0x92 (opsMask x) s) s)

/-- REMOTE_TIMEOUT (R386): the node is dead; every lane of the replay fails, and so does every class O request of its gang held back for
that node. -/
def execRemoteTimeout (s : State) : Host.Outcome State Fault Refusal :=
  .next (onRemote (fun r s =>
    if !inFlight r then s else failSilent (s.remotes.filter (failsWith r)) (markDead r.part r.node s)) s)

/-- A load of a domain-scope launch is sent once the floor has reached its view (R75). -/
def sendViewed (r : RemoteReq) (s : State) : State :=
  match r.view with
  | some v =>
    if keyLe v (launchOf s r.launch).floor && !r.saved then
      let s := mapRemote r.id (fun r => { r with view := none }) s
      if r.heldBack then s else depart r s
    else s
  | none => s

/-- DET_LOAD_PERFORM (R63): a deterministic load performs once the floor has reached its view; one that a peer serves is
sent then. -/
def execDetLoadPerform (s : State) : Host.Outcome State Fault Refusal :=
  .next (onNum (fun id s =>
    match reqOf s id, remoteOf s id with
    | some q, _ => if viewReady s q then loadAtHome q s else s
    | none, some r => sendViewed r s
    | none, none => s) s)

/-! ### Copies of other devices' lines (R129) -/

/-- INVALIDATION_ARRIVE (R129): a copy is dropped and acknowledged, or answered absent. -/
def execInvalidationArrive (s : State) : Host.Outcome State Fault Refusal :=
  .next (match s.arg with
    | .num2v part node va =>
      let line := offsetOf va / 128 * 128
      let hit (c : RemoteCopy) : Bool := c.part == part && c.node == node && c.va == line
      { s with
        remoteCopies := s.remoteCopies.filter fun c => !hit c
        remotes := updateWhere (fun r => r.part == part && r.node == node && (inFlight r || r.answer.isSome)
          && r.ops.any fun e => offsetOf e.2.1 / 128 * 128 == line) (fun r => { r with dropped := line :: r.dropped }) s.remotes
        outbox := s.outbox ++ [.invalidationAnswer node va (s.remoteCopies.any hit)] }
    | _ => s)

/-- A record that no gang's instruction made: LATE 0 (R149, R384, R388). -/
def deviceRecord (part : Nat) (cause : BitVec 8) (kind node : Nat) (va : Word) (asid : Nat) (s : State) : State :=
  faultQueue part (setAt (recordHead { kind := 0, cause := cause, sub := 0, pc := 0, va := va, lanes := 0, serial := 0
                                       clock := 0, pnode := node, n := 0, word := 0 }
    { gangid := 0, wg := 0, asid := asid, part := part }) 2 (BitVec.ofNat 8 kind)) s

/-- The lower of two addresses. -/
def lowerVa (a : Option Word) (b : Option Word) : Option Word :=
  match a, b with
  | some x, some y => if offsetOf x ≤ offsetOf y then some x else some y
  | some x, none => some x
  | none, y => y

/-- An access of a request of another device has been answered, refused at an address or not; with the last one the request leaves its
record, at the lowest refused byte, if any was refused (R144, R383, R384; log entry 39). -/
def countAnswer (q : FabricReq) (part : Nat) (refused : Option Word) (s : State) : State :=
  let record (va : Option Word) (s : State) : State := match va with
    | some va => deviceRecord part 0x91 4 q.source va 0xFFF s
    | none => s
  if q.mates ≤ 1 then record refused s
  else
    let mine (e : Inbound) : Bool := e.source == q.source && e.tag == q.tag
    let e := (findFirst mine s.inbound).getD { source := q.source, tag := q.tag, part := part, left := q.mates, refused := none }
    let va := lowerVa e.refused refused
    let s := { s with inbound := s.inbound.filter fun e => !mine e }
    if e.left ≤ 1 then record va s else { s with inbound := s.inbound ++ [{ e with left := e.left - 1, refused := va }] }

/-- INVALIDATION_TIMEOUT (R388): a silent holder counts as absent; its node is dead. The record's ASID is 0 (log entry 112). -/
def execInvalidationTimeout (s : State) : Host.Outcome State Fault Refusal :=
  .next (match s.arg with
    | .lineNode r n =>
      match findLine s r with
      | none => s
      | some l =>
        if l.state ≠ .p ∨ !l.acks.contains (.node n) then s
        else
          let s := markDead r.part n s
          let s := if preciseDir s r.part then
              setOutDir { outDirOf s r with dev := (outDirOf s r).dev &&& ~~~ BitVec.ofNat 32 (2 ^ n) } s
            else s
          holderAnswers r (.node n) (deviceRecord r.part 0x92 4 n 0 0 s)
    | _ => s)

/-! ### Requests that arrive (R131, R134, R138, R383) -/

/-- The partition of the device that takes part in a domain. -/
def domainPart (s : State) (domain : Nat) : Option Partition :=
  if domain = 0xFFFF then none else findFirst (fun q => q.domain == domain) s.parts

/-- The member launch of the receiving partition in the requester's determinism group: one that runs or waits for its group, else the
latest that has retired, whose bytes still follow the floor of the group (R75). -/
def groupLaunch (s : State) (part : Nat) (gid : Option (BitVec 32)) : Option Launch :=
  let mine (l : Launch) : Bool := l.part == part && l.dscope == 2 && decide (gid = some l.gid)
  match findFirst (fun l => mine l && decide (l.phase = .running ∨ l.phase = .matching)) s.launches with
  | some l => some l
  | none => findFirst (fun l => mine l && decide (l.phase = .retired)) s.launches.reverse

/-- The reservation that a request wants. -/
def wantOf (q : FabricReq) (r : LineRef) : Reservation := { ref := r, source := q.source, core := q.core, tag := q.tag }

/-- Reservations of a slice. -/
def slicesReserved (s : State) (slice : Nat) : Nat :=
  (s.reserved.filter fun x => homeOf s x.ref.part x.ref.va == slice).length

/-- Requesters that qualify, in the order in which they are served (R134): the greatest count, the lower node, the lower core. -/
def inLine (l : List Qualified) : List Qualified :=
  sortBy (fun a b => decide (b.count < a.count ∨ (a.count = b.count ∧ (a.want.source < b.want.source
    ∨ (a.want.source = b.want.source ∧ a.want.core < b.want.core))))) l

/-- Free reservations go to the requesters that qualify, each for a line that is not reserved (R134). -/
def grantReservations (s : State) : State :=
  (inLine s.starving).foldl (fun s x =>
    if (s.reserved.any fun y => y.ref == x.want.ref) || decide (Config.reservations ≤ slicesReserved s (homeOf s x.want.ref.part x.want.ref.va))
    then s
    else { s with reserved := s.reserved ++ [x.want], starving := s.starving.filter fun y => y.want != x.want }) s

/-- Refuses a request; from the STARVE-th refusal on it qualifies for a reservation of its line (R134). -/
def refuseFabric (q : FabricReq) (r : LineRef) (s : State) : State :=
  let w := wantOf q r
  let s := if (partOf s r.part).starve ≤ q.refusals + 1 ∧ !s.reserved.contains w then
      grantReservations { s with starving := (s.starving.filter fun x => x.want != w) ++ [{ want := w, count := min 15 (q.refusals + 1) }] }
    else s
  { s with outbox := s.outbox ++ [.fabricRefusal q.source q.tag] }

/-- A request that performs ends its reservation, which then goes to the next that qualifies. -/
def endReservation (q : FabricReq) (r : LineRef) (s : State) : State :=
  grantReservations { s with
    reserved := s.reserved.filter fun x => x != wantOf q r
    starving := s.starving.filter fun x => x.want != wantOf q r }

def reply (m : Msg) (s : State) : State := { s with outbox := s.outbox ++ [m] }

/-- The request writes its target. -/
def fabricWrites : FabricOp → Bool
  | .load _ => false
  | .loadAt _ _ => false
  | .cap => false
  | .input _ _ => false
  | _ => true

/-- The access that an arriving operation makes, as one of the home's own operations. -/
def fabricAccess : FabricOp → AccessOp
  | .load _ => .load
  | .store d => .store d
  | .atomic n ty rm fz v w => .rmw n.toNat ty.toNat rm fz v w
  | .reduce n ty rm fz v => .reduce n.toNat ty.toNat rm fz v
  | .cap => .load
  | .publication _ d => .store d
  | .loadAt _ _ => .load
  | .atomicAt _ n ty rm fz v w => .rmw n.toNat ty.toNat rm fz v w
  | .input _ _ => .load

/-- The operation and its type are implemented (R145, R244, R245). -/
def fabricSupported (op : FabricOp) : Bool :=
  let ok (n ty : Nat) : Bool :=
    if n = 10 then true
    else match tyOfCode ty with
      | none => false
      | some t => if n = 9 then maxiTy t || t.width == 64 else (decide (n < 7 ∨ n = 8)) && atomicTy n t
  match op with
  | .atomic n ty _ _ _ _ => ok n.toNat ty.toNat
  | .atomicAt _ n ty _ _ _ _ => ok n.toNat ty.toNat
  | .reduce n ty _ _ _ => decide (n.toNat < 6) && ok n.toNat ty.toNat
  | _ => true

/-- The bytes an arriving request reads: at its view or key in its own determinism group, else the base line. -/
def fabricBytes (s : State) (l : Option Launch) (part off n : Nat) : FabricOp → List Byte
  | .loadAt v t => match l with
    | some l => versionBytes s l.id part 4095 off n (inView v t)
    | none => baseBytes s part 4095 off n
  | .atomicAt k _ _ _ _ _ _ => match l with
    | some l => versionBytes s l.id part 4095 off n (atKey k)
    | none => baseBytes s part 4095 off n
  | _ => baseBytes s part 4095 off n

/-- An arriving request performs at the home and is answered. -/
def fabricPerform (q : FabricReq) (part : Nat) (l : Option Launch) (s : State) : State :=
  let off := offsetOf q.va
  let r := lineRef part 4095 off
  let s := countAnswer q part none (endReservation q r s)
  let old := fabricBytes s l part off q.size q.op
  let coh := (findLine s r).elim 0 fun x => x.coh
  match q.op with
  | .load true =>
    let d := outDirOf s r
    let s := setOutDir { d with dev := d.dev ||| BitVec.ofNat 32 (2 ^ devBit s part q.source) } s
    reply (.fabricData q.source q.tag (baseBytes s part 4095 r.va 128) coh) (mapLine r (fun x => { x with out := true }) s)
  | .load false => reply (.fabricData q.source q.tag old coh) s
  | .loadAt _ _ => reply (.fabricData q.source q.tag old coh) s
  | .cap => s
  | .input _ _ => s
  | op =>
    let new := opBytes (fabricAccess op) old
    let write (s : State) : State :=
      match op, l with
      | .publication k _, some l => publishAt l.id part 4095 off k new s
      | .atomicAt k _ _ _ _ _ _, some l => publishAt l.id part 4095 off k new s
      | _, _ => writeBase 0 part 4095 off new s
    let s := if counts (fabricAccess op) then
        withReady part 4095 off (fun s o n => fabricBytes s l part o n op) write s
      else write s
    match op with
    | .atomic _ _ _ _ _ _ => reply (.fabricData q.source q.tag old coh) s
    | .atomicAt _ _ _ _ _ _ _ => reply (.fabricData q.source q.tag old coh) s
    | _ => reply (.fabricAck q.source q.tag) s

/-- A refused access: a fault response, and the record of its request with the last answer (R383, R384). -/
def fabricFaults (q : FabricReq) (part : Nat) (s : State) : State :=
  countAnswer q part (some q.va) (reply (.fabricFault q.source q.tag) s)

/-- A publication for which the spill area has no room: nothing is entered (R70; log entry 105). -/
def fabricExhausted (q : FabricReq) (part : Nat) (s : State) : State :=
  countAnswer q part none (reply (.fabricExhausted q.source q.tag) s)

/-- A publication of the receiving partition's own group is held where its HC refuses it (R383, R371); without room in the queue it waits
at its home (R369). -/
def fabricHeld (q : FabricReq) (part : Nat) (l : Launch) (k : Key) (d : List Byte) (c : BitVec 8) (s : State) : State :=
  let off := offsetOf q.va
  let r := lineRef part 4095 off
  if spillExhausted s part [r.va] then fabricExhausted q part s
  else if !lateRoom s (homeHc off) part then stallNoted r (.fabric { q with accepted := true }) q.va (some c) s else
  let data := bytesInLine off r.va d
  let id := s.nextId
  let s := brimEnter l.id r k id data (data.map fun e => e.1) s
  let e := lateOfKeyed s 0 part 4095 q.va q.size (.store []) data k (BitVec.ofNat 64 k.clock) 0 0 0 (some c) (some id)
  fabricFaults q part (enqueueLate { e with gang := none, node := some q.source, recorded := true, delivered := true } s)

/-- Bytes that an arriving read or atomic would find held (R383). -/
def fabricOnHeld (s : State) (q : FabricReq) (part : Nat) (l : Option Launch) : Bool :=
  let off := offsetOf q.va
  (fabricWrites q.op && granuleHeld s part 4095 off) || heldBytes s part 4095 off q.size
    || match l with
      | some l => (brimOf s l.id (lineRef part 4095 off)).any fun e =>
          e.held.any fun i => decide (off % 128 ≤ i ∧ i < off % 128 + q.size)
      | none => false

/-- Whether the HC or a line's write grant admits the request; an atomic needs both permissions. -/
def fabricAdmits (s : State) (q : FabricReq) (part : Nat) : Option (BitVec 8) :=
  let off := offsetOf q.va
  let rd := match fabricAccess q.op with
    | .store _ => false
    | _ => true
  match (if rd then admits s part 4095 off false else none) with
  | some c => some c
  | none => if fabricWrites q.op then admits s part 4095 off true else none

/-- Its line is to be read with what a key or view includes: the updates below it are applied first (R72, R313). -/
def fabricKeyReady (s : State) (q : FabricReq) (part : Nat) : Bool :=
  match groupLaunch s part q.gid, q.op with
  | some l, .atomicAt k _ _ _ _ _ _ => !updatesBelow s l.id (lineRef part 4095 (offsetOf q.va)) k
  | some l, .loadAt v _ => !updatesBelow s l.id (lineRef part 4095 (offsetOf q.va)) v
  | _, _ => true

/-- A request for device memory in the global region. -/
def fabricHome (q : FabricReq) (part : Nat) (a : Arg) (s : State) : State :=
  let off := offsetOf q.va
  let r := lineRef part 4095 off
  let l := groupLaunch s part q.gid
  if fabricOnHeld s q part l then
    match q.op, l, (firstCause s part 4095 off) with
    | .publication k d, some l, c => fabricHeld q part l k d c s
    | _, _, _ => fabricFaults q part s
  else
    match fabricAdmits s q part with
    | some c =>
      match q.op, l with
      | .publication k d, some l => fabricHeld q part l k d c s
      | _, _ => fabricFaults q part s
    | none =>
      let s := ensureLine part 4095 off s
      match findLine s r with
      | none => fabricFaults q part s
      | some x =>
        let keyed := l.isSome && match q.op with
          | .publication _ _ => true
          | .loadAt _ _ => true
          | .atomicAt _ _ _ _ _ _ _ => true
          | _ => false
        let reads := match q.op with
          | .publication _ _ => false
          | _ => true
        if keyed && fabricWrites q.op && spillExhausted s part [r.va] then fabricExhausted q part s
        else if keyed then
          if !reads || dirtyHosts s r == [] then fabricPerform q part l s else beginPending r [] (dirtyHosts s r) true a s
        else if fabricWrites q.op then
          let (acks, hosts) := copyHolders s x 256
          if acks = [] ∧ hosts = [] then fabricPerform q part none s else beginPending r acks hosts false a s
        else
          if dirtyHosts s r = [] then fabricPerform q part none s else beginPending r [] (dirtyHosts s r) true a s

/-- A request of another device as an access of the gateway. -/
def fabricReq (s : State) (q : FabricReq) (part : Nat) : Req :=
  { mkReq { s with p := Split.vacant, g := { Gang.vacant with part := part, asid := 0 } } 64 q.va q.size (fabricAccess q.op) .none 0 with
    id := 0, gang := 0, core := 256 }

/-- The host line that an access of the gateway goes to. -/
def gatewayLine (s : State) (q : Req) : Option Nat := (gatewayMap s q).map fun a => a / 128 * 128

/-- The HPCC holds a line as an access needs it. -/
def hpccServes (s : State) (port : Nat) (q : Req) : Bool :=
  match gatewayLine s q with
  | none => true
  | some line => (hpccOf s port line).any fun l => !opWrites q.op || decide (l.state = .m) || decide (l.state = .e)

/-- A request for the host aperture performs at the gateway on a line the HPCC holds; otherwise the gateway asks the host, and it
waits there (R131, R145, R148; log entry 32). -/
def fabricGateway (q : FabricReq) (part : Nat) (a : Arg) (s : State) : State :=
  let op := fabricAccess q.op
  let req := fabricReq s q part
  let r := lineRef part 4095 req.off
  let s := unpark r a s
  if (fabricWrites q.op && granuleHeld s part 0 req.off) || heldBytes s part 0 req.off q.size then fabricFaults q part s
  else
    match gatewayMap s req with
    | none => fabricFaults q part s
    | some addr =>
      let port := (partOf s part).port
      let line := addr / 128 * 128
      match hpccOf s port line with
      | some l =>
        if !opWrites op || l.state = .m || l.state = .e then
          let old := (l.data.drop (addr % 128)).take q.size
          let s := countAnswer q part none (performHost req l addr s)
          match q.op with
          | .store _ => reply (.fabricAck q.source q.tag) s
          | .publication _ _ => reply (.fabricAck q.source q.tag) s
          | .reduce _ _ _ _ _ => reply (.fabricAck q.source q.tag) s
          | _ => reply (.fabricData q.source q.tag old 2) s
        else park r a (cxlAsk port line true s)
      | none => park r a (cxlAsk port line (opWrites op) s)

/-- A request that its home has accepted may be served: in its turn at the line, what its key includes applied, the page not locked
against it (R124, R128); at a gateway, once the HPCC holds the line. -/
def fabricMayServe (s : State) (q : FabricReq) (part : Nat) (a : Arg) : Bool :=
  if regionOf (offsetOf q.va) = 3 then hpccServes s (partOf s part).port (fabricReq s q part)
  else mayServe s (lineRef part 4095 (offsetOf q.va)) a && lineRoom s (lineRef part 4095 (offsetOf q.va)) && fabricKeyReady s q part
    && !(s.noted.contains (lineRef part 4095 (offsetOf q.va), a) && !lateRoom s (homeHc (offsetOf q.va)) part)
    && !(fabricWrites q.op && (walk s part 4095 (offsetOf q.va)).any fun l => Pte.lock l.entry)

/-- A home refuses an arriving request: its line is in P or reserved for another requester, or the home cannot reserve the tracking
buffers and answer slots it needs (R131, R141; log entry 77). A request for which the line is reserved is accepted (R134). -/
def homeRefuses (s : State) (q : FabricReq) (r : LineRef) : Bool :=
  !q.accepted && !s.reserved.contains (wantOf q r)
    && (((findLine s r).any fun l => decide (l.state = .p)) || (s.reserved.any fun x => x.ref == r) || Config.noTracking s.ticks)

/-- FABRIC_REQUEST_ARRIVE (R131, R138): a request reaches its home, which faults, refuses or accepts it. A partition in reset faults it
(R324); a device that has not started does not hear it (R402). -/
def execFabricRequestArrive (s : State) : Host.Outcome State Fault Refusal :=
  .next (match s.arg with
    | .fabric q =>
      if s.startup.phase ≠ .started then s else
      match domainPart s q.domain with
      | none => countAnswer q 0 none (reply (.fabricFault q.source q.tag) s)
      | some p =>
        if beingReset s p.id then countAnswer q p.id none (reply (.fabricFault q.source q.tag) s) else
        let off := offsetOf q.va
        let r := lineRef p.id 4095 off
        match q.op with
        | .cap => reply (.fabricData q.source q.tag (leBytes 8 (Config.capWord (preciseDir s p.id)).toNat) 2) s
        | .input _ _ => reply (.fabricAck q.source q.tag) s
        | _ =>
          if regionOf off < 2 then countAnswer q p.id none (reply (.fabricFault q.source q.tag) s)
          else if !fabricSupported q.op then countAnswer q p.id none (reply (.fabricUnsupported q.source q.tag) s)
          else
            let a : Arg := .fabric { q with accepted := true }
            if regionOf off = 3 then
              if !q.accepted && Config.noTracking s.ticks then reply (.fabricRefusal q.source q.tag) s else fabricGateway q p.id a s
            else if homeRefuses s q r then refuseFabric q r s
            else if fabricMayServe s q p.id a then fabricHome q p.id a (unpark r a s)
            else park r a s
    | _ => s)

/-- The request for which a line is reserved has returned and waits at its home. -/
def hasReturned (s : State) (x : Reservation) : Bool :=
  let mine (a : Arg) : Bool := match a with
    | .fabric q => decide (wantOf q x.ref = x)
    | _ => false
  (s.hostQueue.any fun e => e.1 == x.ref && mine e.2) || ((findLine s x.ref).any fun l => mine l.resume)

/-- RESERVATION_EXPIRE (R134): a reservation ends whose request has not returned; the next that qualifies takes the entry. -/
def execReservationExpire (s : State) : Host.Outcome State Fault Refusal :=
  .next (match s.arg with
    | .line r => grantReservations { s with reserved := s.reserved.filter fun x => x.ref != r || hasReturned s x }
    | _ => s)

/-- INTERMEDIATE_FORWARD (R139): the port logic passes a two-hop request on. -/
def execIntermediateForward (s : State) : Host.Outcome State Fault Refusal :=
  .next (match s.arg with
    | .forward q dest => reply (.fabricForward dest q) s
    | _ => s)

/-! ### The boundary filter (R135) -/

/-- The partition that owns a cluster. -/
def clusterPart (s : State) (c : Nat) : Option Partition := findFirst (fun q => q.clmask.getLsbD c) s.parts

/-- BOUNDARY_FILTER_PROBE (R135): a probe for a cluster whose partition is not of its domain is stopped and counted. -/
def execBoundaryFilterProbe (s : State) : Host.Outcome State Fault Refusal :=
  .next (match s.arg with
    | .num3 cluster domain probe =>
      let mine := match clusterPart s cluster with
        | some q => q.domain == domain
        | none => false
      if mine then s else { s with filterCount := s.filterCount + 1, probes := s.probes ++ [probe] }
    | _ => s)

/-- BOUNDARY_FILTER_ANSWER (R135): the stopped probe is answered absent. -/
def execBoundaryFilterAnswer (s : State) : Host.Outcome State Fault Refusal :=
  .next (onNum (fun probe s =>
    if s.probes.contains probe then
      { s with probes := s.probes.filter fun p => p != probe, outbox := s.outbox ++ [.probeAnswer probe] }
    else s) s)

/-! ### Floors between members (R59, R137, R389) -/

/-- FLOOR_SIDEBAND (R137): a member's floor arrives; a floor never decreases. A report that stands until a barrier completes is
out of date once it has (log entry 10). -/
def execFloorSideband (s : State) : Host.Outcome State Fault Refusal :=
  .next (match s.arg with
    | .floor launch member k =>
      mapLaunch launch (fun l =>
        if l.dscope = 2 ∧ ¬ (isHold k ∧ k.gang ≤ l.crossed) then
          { l with memberFloors := mapSet keyZero l.memberFloors member (keyMax (mapGet keyZero l.memberFloors member) k) }
        else l) s
    | _ => s)

/-- FLOOR_SEND_INTERVAL (R137): the floor of every running domain-scope launch leaves on a port of the device. -/
def execFloorSendInterval (s : State) : Host.Outcome State Fault Refusal :=
  .next (onNum (fun port s =>
    if !(portsUp s).contains port then s else
    { s with
      outbox := s.outbox ++ (s.launches.filter fun l => l.dscope == 2 && decide (l.phase = .running)).map
        fun l => Msg.floorFlit port l.id (keyMax l.sentFloor (ownFloor s l)) }) s)

/-- FLOOR_SILENCE_TIMEOUT (R389): a member's silence ends the member launch; its node is dead. -/
def execFloorSilenceTimeout (s : State) : Host.Outcome State Fault Refusal :=
  .next (onNum2 (fun launch member s =>
    match findFirst (fun l => l.id == launch && l.dscope == 2 && decide (l.phase ≠ .retired)) s.launches with
    | none => s
    | some l => endLaunch launch 3 0x92 (markDead l.part (getAt 0 l.members member) s)) s)

end Sys2Proof.Machine
end

