-- ==== Sys2Proof/Machine/Mode.lean ====
section
/-! DEFINITION. The mode-setting instructions (spec/09_isa_scalar_control.md R210; spec/08_encoding_assembly.md R183). Every
one has weight 1; a new MODE applies from the next instruction on. -/

namespace Sys2Proof.Machine

/-- MODE with the field of `len` bits from `lo` given a value. -/
def modeWith (m : Word) (lo len v : Nat) : Word :=
  BitVec.ofNat 64 (m.toNat - bits m.toNat lo len * 2 ^ lo + v % 2 ^ len * 2 ^ lo)

/-- Writes MODE; bits [63:49] are reserved and stay 0. -/
def setMode (m : Word) (s : State) : State := { s with p := { s.p with mode := m &&& 0x1FFFFFFFFFFFF#64 } }

/-- A mode instruction that writes one field. -/
def modeField (word : BitVec 32) (ok : Bool) (f : Word → Word) (s : State) : State :=
  issue { Form.plain word 1 with bad := if ok then none else some 0x03, dsts := [codeMode] } noCheck
    (fun s => finish 1 (setMode (f s.p.mode) s)) s

/-- R210: T := t. -/
def execModeT (o : OpT4) (s : State) : Host.Outcome State Fault Refusal :=
  .next (modeField (wordOf (encode (.modeT o))) true (fun m => modeWith m 0 4 o.t.toNat) s)

/-- R210: G := g. -/
def execModeG (o : OpG6) (s : State) : Host.Outcome State Fault Refusal :=
  .next (modeField (wordOf (encode (.modeG o))) true (fun m => modeWith m 4 6 o.g.toNat) s)

/-- R210: RM := r, FZ := z. -/
def execModeRm (o : OpRM) (s : State) : Host.Outcome State Fault Refusal :=
  .next (modeField (wordOf (encode (.modeRm o))) true (fun m => modeWith m 10 3 (o.r.toNat + 4 * bit o.z)) s)

/-- R210: one class of CV, or all twelve. -/
def execModeCv (o : OpCV) (s : State) : Host.Outcome State Fault Refusal :=
  .next (modeField (wordOf (encode (.modeCv o))) (decide (o.k.toNat < 12 ∨ o.k.toNat = 15))
    (fun m =>
      if o.k.toNat = 15 then modeWith m 13 36 ((countFrom 0 12).foldl (fun v k => v + o.c.toNat * 2 ^ (3 * k)) 0)
      else modeWith m (13 + 3 * o.k.toNat) 3 o.c.toNat) s)

/-- R210: MODE := s. -/
def execModeLd (o : OpS6) (s : State) : Host.Outcome State Fault Refusal :=
  .next (issue { Form.plain (wordOf (encode (.modeLd o))) 1 with
      srcs := [(codeS o.s.toNat, false)], dsts := [codeMode] } noCheck
    (fun s => finish 1 (setMode (getS s o.s.toNat) s)) s)

/-- R210: s := MODE. -/
def execModeSt (o : OpS6) (s : State) : Host.Outcome State Fault Refusal :=
  .next (issue { Form.plain (wordOf (encode (.modeSt o))) 1 with reads := [codeMode], dsts := [codeS o.s.toNat] } noCheck
    (fun s => finish 1 (setS o.s.toNat s.p.mode s)) s)

end Sys2Proof.Machine
end

