-- ==== Sys2Proof/Machine/System.lean ====
section
/-! DEFINITION. The special registers and the system instructions (spec/08_encoding_assembly.md R182;
spec/09_isa_scalar_control.md R211; spec/12_isa_engines_system.md R279 to R283; spec/16_host_partitions_monitors.md R322,
R331, R332; spec/17_fault_architecture.md R338; spec/03_logical_time.md R79, R80). -/

namespace Sys2Proof.Machine

/-! ### Reading the special registers (R182, R56) -/

/-- DETCFG (R56). -/
def detcfg (l : Launch) : Word :=
  BitVec.ofNat 64 (l.dscope % 4 + l.qexp % 32 * 2 ^ 8 + l.lag % 4 * 2 ^ 16 + bit l.obs * 2 ^ 20 + l.mrank % 1024 * 2 ^ 32
    + l.mcount % 2048 * 2 ^ 42)

/-- CYCLE as the split at issue reads it (R79). -/
def readCycle (s : State) : Word :=
  if detNow s then BitVec.ofNat 64 (quantumIndex (curLaunch s) s.p.clock.toNat * (curLaunch s).quantum)
  else Config.cycleAt s.ticks

/-- PHYID: die, cluster and core of the gang (R182). -/
def phyid (core : Nat) : Word := BitVec.ofNat 64 (core / 128 % 4 * 2 ^ 16 + core / 4 % 64 * 2 ^ 10 + core % 256 * 4)

/-- STATUS (R342): DPEND shows held faults of the gang. -/
def readStatus (s : State) : Word :=
  BitVec.ofNat 64 (s.p.status.toNat % 2 + bit (!s.g.faults.isEmpty) * 2 ^ 8 + bits s.p.status.toNat 9 3 * 2 ^ 9)

/-- PINFO (R322). -/
def pinfo (q : Partition) : Word :=
  BitVec.ofNat 64 (q.id % 8 + q.port % 2 * 2 ^ 8 + popcount q.clmask * 2 ^ 16)

/-- Events that the model does not time: cycles of residency, and cycles that splits wait for turns. -/
def timedEvent (code : Nat) : Bool := decide (code = 0x001 ∨ code = 0x012)

/-- EVCk of a partition: a counter of a timed event has counted a free number at each step since it was last set to 0 (R331, R332; log
entry 19). -/
def readEvc (s : State) (q : Partition) (k : Nat) : Word :=
  let from' := mapGet 0 q.evcFrom k
  if timedEvent (bits (mapGet 0 q.esel k).toNat 0 12) then
    BitVec.ofNat 64 (total ((countFrom from' (s.ticks - from')).map (Config.eventsCounted k)))
  else mapGet 0 q.evc k

/-- EVCk becomes 0. -/
def clearEvc (now k : Nat) (q : Partition) : Partition := { q with evc := mapSet 0 q.evc k 0, evcFrom := mapSet 0 q.evcFrom k now }

/-- A register that a partition has one copy of (R322, R331). -/
def partSpecial (s : State) (q : Partition) (n : Nat) : Option Word :=
  match n with
  | 0x180 => some (pinfo q)
  | 0x181 => some (BitVec.ofNat 64 q.resper)
  | 0x182 => some (BitVec.ofNat 64 q.stepb)
  | 0x183 => some (BitVec.ofNat 64 q.rtime)
  | 0x184 => some (BitVec.ofNat 64 q.starve)
  | _ =>
    if 0x100 ≤ n ∧ n ≤ 0x10F then some (readEvc s q (n - 0x100))
    else if 0x190 ≤ n ∧ n ≤ 0x19F then some (mapGet 0 q.esel (n - 0x190))
    else none

/-- HWCFG (R21): units taken out of service are not counted (R22). With the bridge out, die 1 and its units are; with a stack out,
its HCs are (log entry 50). -/
def hwcfgOf (s : State) : Word :=
  let hbm := 8 - popcount (s.hbmOut.setWidth 64 ||| (if s.bridgeOut then 0xF0 else 0))
  let fports := 24 - popcount (s.fportOut.setWidth 64 ||| (if s.bridgeOut then 0xFFF000 else 0))
  let clusters := 64 - popcount s.clustersOut
  let hcs := ((countFrom 0 32).filter (hcServes s)).length
  let slices := ((countFrom 0 Config.deviceSlices).filter (sliceServes s)).length
  BitVec.ofNat 64 (2 ^ 56 + 48 * 2 ^ 48 + hbm * 2 ^ 40 + fports * 2 ^ 32 + hcs * 2 ^ 24
    + slices * 2 ^ 14 + clusters * 2 ^ 6 + 32 + bit (!s.bridgeOut))

/-- The value of a special register for the split at issue; none where R182 assigns no register to the number. -/
def readSpecial (s : State) (n : Nat) : Option Word :=
  match n with
  | 0x000 => some s.p.mode
  | 0x001 => some s.p.exec
  | 0x002 => some s.p.clock
  | 0x003 => some (BitVec.ofNat 64 (quantumIndex (curLaunch s) s.p.clock.toNat))
  | 0x004 => some (BitVec.ofNat 64 (s.g.width % 256))
  | 0x005 => some (BitVec.ofNat 64 (popcount s.p.exec))
  | 0x006 => some (BitVec.ofNat 64 Config.swidth)
  | 0x007 => some (BitVec.ofNat 64 (gangidOf s.g % 2 ^ 32))
  | 0x008 => some (BitVec.ofNat 64 (s.g.wg % 2 ^ 32))
  | 0x009 => some (BitVec.ofNat 64 (s.g.ngang % 256))
  | 0x00A => some (BitVec.ofNat 64 (s.g.nwg % 2 ^ 32))
  | 0x00B => some (detcfg (curLaunch s))
  | 0x00C => some (BitVec.ofNat 64 ((curPart s).node % 1024))
  | 0x00D => some s.p.fstat
  | 0x00E => some (hwcfgOf s)
  | 0x00F => some (readCycle s)
  | 0x010 => some (phyid s.g.core)
  | 0x020 => some (readStatus s)
  | 0x021 => some s.p.cause
  | 0x022 => some s.p.epc
  | 0x023 => some s.p.frec
  | _ => partSpecial s (curPart s) n

/-- A number that only privileged code reaches. -/
def privSpecial (n : Nat) : Bool := decide (0x020 ≤ n ∧ n ≤ 0x023) || decide (0x180 ≤ n)

/-- A read by the split at issue is refused: of a privileged register, of PHYID in a deterministic launch, by unprivileged code alone;
there of an event counter without the observe flag too (R79, R80; log entry 107). -/
def readRefused (s : State) (n : Nat) : Bool :=
  (!isPriv s && privSpecial n) || (detNow s && decide (n = 0x010))
    || ((curLaunch s).det && decide (0x100 ≤ n ∧ n ≤ 0x10F) && !(curLaunch s).obs)

/-! ### Writing them (R281, R322) -/

/-- What a write finds: a register that takes a value, that ignores it, or one whose bits are cleared. -/
inductive SpecialAccess where
  | rw
  | ro
  | w1c
  deriving DecidableEq, Repr

/-- The access column of R182, R322 and R343. -/
def specialAccess (n : Nat) : SpecialAccess :=
  if n = 0x00D then .w1c
  else if n = 0x000 ∨ n = 0x001 ∨ n = 0x022 ∨ (0x181 ≤ n ∧ n ≤ 0x184) ∨ (0x190 ≤ n ∧ n ≤ 0x19F) then .rw
  else .ro

/-- Event codes that R331 assigns, and 0. -/
def eventAssigned (code : Nat) : Bool :=
  [0, 0x001, 0x002, 0x003, 0x004, 0x005, 0x010, 0x011, 0x012, 0x013, 0x014, 0x020, 0x021, 0x030, 0x031].contains code

/-- Writes ESELk: EVCk becomes 0; a reserved code is ignored. -/
def writeEsel (now k : Nat) (v : Word) (q : Partition) : Partition :=
  if eventAssigned (bits v.toNat 0 12) then clearEvc now k { q with esel := mapSet 0 q.esel k (v &&& 0x8FFF#64) }
  else q

/-- Writes a partition control register; a value outside its range is ignored. -/
def writeControlReg (now n : Nat) (v : Word) (q : Partition) : Partition :=
  let x := v.toNat
  match n with
  | 0x181 => if 100 ≤ x ∧ x ≤ 100000 then { q with resper := x } else q
  | 0x182 => if x ≤ 65535 then { q with stepb := x } else q
  | 0x183 => if 1 ≤ x ∧ x ≤ 10000 then { q with rtime := x } else q
  | 0x184 => if 2 ≤ x ∧ x ≤ 15 then { q with starve := x } else q
  | _ => if 0x190 ≤ n ∧ n ≤ 0x19F then writeEsel now (n - 0x190) v q else q

/-- Writes a special register that takes values. -/
def writeSpecial (n : Nat) (v : Word) (s : State) : State :=
  match n with
  | 0x000 => setMode v s
  | 0x001 => { s with p := { s.p with exec := v &&& s.p.members } }
  | 0x022 => { s with p := { s.p with epc := v } }
  | _ => mapPart s.g.part (writeControlReg s.ticks n v) s

/-! ### csrr, csrw, csrs, csrc (R281) -/

/-- The tracked register that a number stands for. -/
def specialCode (n : Nat) : List Nat := if n = 0x000 then [codeMode] else if n = 0x001 then [codeExec] else []

/-- EXEC is read by AWIDTH too. -/
def specialReads (n : Nat) : List Nat := if n = 0x005 then [codeExec] else specialCode n

/-- A form that names a special register: a number without one is a reserved operand. -/
def specialForm (word : BitVec 32) (w : Nat) (s : State) (n : Nat) : Form :=
  { Form.plain word w with bad := if (readSpecial s n).isSome then none else some 0x03 }

/-- Reads a special register into a scalar one. -/
def specialRead (f : Form) (w : Nat) (d n : Nat) (s : State) : State :=
  issue { f with reads := specialReads n, dsts := [codeS d] } (fun s => failIf (readRefused s n) 0xE0)
    (fun s =>
      let s' := setS d ((readSpecial s n).getD 0) s
      if f.irrevocable then finishAlone w s' else finish w s') s

/-- Writes a special register from a scalar one: `f` combines its value with the operand. -/
def specialWrite (word : BitVec 32) (o : OpSN) (f : Word → Word → Word) (clears : Bool) (s : State) : State :=
  let n := o.n.toNat
  let rw := decide (specialAccess n = .rw)
  issue { specialForm word 4 s n with
      irrevocable := true
      srcs := [(codeS o.s.toNat, false)]
      reads := if rw then specialCode n else []
      dsts := if rw then specialCode n else [] }
    (fun s => failIf (!isPriv s && privSpecial n) 0xE0)
    (fun s =>
      let y := getS s o.s.toNat
      let x := (readSpecial s n).getD 0
      finishAlone 4 (match specialAccess n with
        | .rw => writeSpecial n (f x y) s
        | .w1c => if clears then clearFlags y s else s
        | .ro => s)) s

/-- R281: s := x. -/
def execCsrr (o : OpSN) (s : State) : Host.Outcome State Fault Refusal :=
  .next (specialRead { specialForm (wordOf (encode (.csrr o))) 4 s o.n.toNat with irrevocable := true } 4 o.s.toNat o.n.toNat s)

/-- R281: x := y. -/
def execCsrw (o : OpSN) (s : State) : Host.Outcome State Fault Refusal :=
  .next (specialWrite (wordOf (encode (.csrw o))) o (fun _ y => y) true s)

/-- R281: x := x OR y. -/
def execCsrs (o : OpSN) (s : State) : Host.Outcome State Fault Refusal :=
  .next (specialWrite (wordOf (encode (.csrs o))) o (fun x y => x ||| y) false s)

/-- R281: x := x AND NOT y. -/
def execCsrc (o : OpSN) (s : State) : Host.Outcome State Fault Refusal :=
  .next (specialWrite (wordOf (encode (.csrc o))) o (fun x y => x &&& ~~~y) true s)

/-- R211: reads registers 0x000 to 0x010 with weight 1. -/
def execRdsp (o : OpSN) (s : State) : Host.Outcome State Fault Refusal :=
  let n := o.n.toNat
  .next (specialRead { Form.plain (wordOf (encode (.rdsp o))) 1 with bad := if n ≤ 0x010 then none else some 0x03 } 1
    o.s.toNat n s)

/-! ### Event counters (R282) -/

/-- The counter cause of R80. -/
def evcRefused (s : State) : Bool := (curLaunch s).det && !(curLaunch s).obs

/-- Reads EVCk, and clears it where the form says so. -/
def pmc (word : BitVec 32) (clears : Bool) (o : OpSN) (s : State) : State :=
  let k := o.n.toNat
  issue { Form.plain word 4 with
      privileged := clears
      bad := if k < 16 then none else some 0x03
      irrevocable := true
      dsts := [codeS o.s.toNat] }
    (fun s => failIf (evcRefused s) 0xE0)
    (fun s =>
      let s' := setS o.s.toNat (readEvc s (curPart s) k) s
      finishAlone 4 (if clears then mapPart s.g.part (clearEvc s.ticks k) s' else s')) s

/-- R282: s := EVCk. -/
def execPmcRead (o : OpSN) (s : State) : Host.Outcome State Fault Refusal :=
  .next (pmc (wordOf (encode (.pmcRead o))) false o s)

/-- R282: s := EVCk, and EVCk := 0. -/
def execPmcReadClear (o : OpSN) (s : State) : Host.Outcome State Fault Refusal :=
  .next (pmc (wordOf (encode (.pmcReadClear o))) true o s)

/-! ### trap, brk, rte (R280) -/

/-- What a software trap or a breakpoint records. -/
def softTrap (s : State) (cause : BitVec 8) (n : Nat) (word : BitVec 32) : TrapInfo where
  kind := 0
  cause := cause
  sub := 0
  pc := s.p.pc
  va := 0
  lanes := 0
  serial := s.p.serial
  clock := s.p.clock
  pnode := 0
  n := n
  word := word

/-- R280: retires, then raises the software-trap cause with EPC = PC + 4. A trap has no back edge (R205). -/
def execTrap (o : OpN9) (s : State) : Host.Outcome State Fault Refusal :=
  let word := wordOf (encode (.trap o))
  .next (issue { Form.plain word 4 with irrevocable := true, back := fun _ => 0 } noCheck
    (fun s => enterTrap (softTrap s 0x08 o.n.toNat word) (s.p.pc + 4) (retired (addClock 4 s))) s)

/-- R280: raises the breakpoint cause before retiring. -/
def execBrk (o : OpN9) (s : State) : Host.Outcome State Fault Refusal :=
  let word := wordOf (encode (.brk o))
  .next (issue { Form.plain word 0 with irrevocable := true, back := fun _ => 0 } noCheck
    (fun s => enterTrap (softTrap s 0x09 o.n.toNat word) s.p.pc s) s)

/-- R280, R338: returns from the handler to EPC. -/
def execRte (s : State) : Host.Outcome State Fault Refusal :=
  .next (issue { Form.plain (wordOf (encode .rte)) 4 with privileged := true, irrevocable := true }
    (fun s => (failIf (decide (s.p.epc.toNat % 4 ≠ 0)) 0x05).andThen (if recordPending s then .wait .record else readable s (offsetOf s.p.frec) 128))
    (fun s => returnFromTrap (retired s)) s)

/-! ### icinv and plb.inv (R283, R126) -/

/-- The granule of an offset. -/
def granuleOf (off : Nat) : Nat := off / 65536

/-- Drops n granules from an address in the instruction caches of every core of a partition. -/
def dropCode (part off n : Nat) (s : State) : State :=
  { s with
    icache := s.icache.filter fun l => !(l.ref.part == part
      && decide (granuleOf off ≤ granuleOf l.ref.va ∧ granuleOf l.ref.va < granuleOf off + n)) }

/-- R283: n + 1 granules from s leave the instruction caches of the partition. -/
def execIcinv (o : OpSN) (s : State) : Host.Outcome State Fault Refusal :=
  .next (issue { Form.plain (wordOf (encode (.icinv o))) 4 with
      privileged := true, irrevocable := true, addrs := [(codeS o.s.toNat, false)] }
    (fun s =>
      let a := getS s o.s.toNat
      if a.toNat % 65536 = 0 then .ok else .fail { cause := 0x43, va := a, lanes := 0, pnode := 0 })
    (fun s => finishAlone 4 (dropCode s.g.part (offsetOf (getS s o.s.toNat)) (o.n.toNat + 1) s)) s)

/-- The entries and windows that a plb.inv reaches: a granule of every address space, an address space, all. -/
def plbInvalidate (k : Nat) (v : Word) (s : State) : State :=
  let part := s.g.part
  let asid := v.toNat % 4096
  let granule (off : Nat) : Bool := decide (granuleOf off = granuleOf (offsetOf v))
  let entry (e : PlbEntry) : Bool :=
    if k = 0 then granule (e.granule * 65536) else if k = 1 then e.asid == asid else true
  let based (g : Gang) (b : Word) : Bool :=
    if k = 0 then granule (offsetOf b) else if k = 1 then tagAsid g.asid (offsetOf b) == asid else true
  let s := { s with plb := s.plb.filter fun e => !(e.part == part && entry e) }
  ((allGangs s).map fun e => e.1).foldl
    (fun s g => staleWindows (fun x => x.id == g.id && x.part == part) (based g) s) s

/-- R283: invalidates PLB entries and marks windows STALE. -/
def execPlbInv (o : OpPlb) (s : State) : Host.Outcome State Fault Refusal :=
  .next (issue { Form.plain (wordOf (encode (.plbInv o))) 4 with
      privileged := true, irrevocable := true
      bad := if o.k.toNat < 3 then none else some 0x03
      srcs := [(codeS o.s.toNat, false)] } noCheck
    (fun s => finishAlone 4 (plbInvalidate o.k.toNat (getS s o.s.toNat) s)) s)

/-! ### Words that are no instruction (R177, R178, R350) -/

/-- R178: a word whose opcode or sub-operation is unassigned. -/
def execIllegalInstruction (w : BitVec 32) (s : State) : Host.Outcome State Fault Refusal :=
  .next (preciseTrap (failOf 0x01) w s)

/-- The opcode of a word whose every form is privileged: rte, icinv, plb.inv, hc.op (R279). -/
def privOpcode (w : BitVec 32) : Bool := [0x151, 0x158, 0x159, 0x15A].contains (bits w.toNat 23 9)

/-- Opcodes whose destination is a scalar register at bits [19:14], at [20:15], at [14:9]; a vector register at [20:14], at [21:15];
MODE; a window. -/
def scalarAt14 : List Nat := [0x018, 0x019, 0x01A, 0x0E6, 0x0EB]
def scalarAt15 : List Nat := [0x024, 0x025, 0x026]
def scalarAt9 : List Nat := [0x056, 0x12D, 0x12E]
def vectorAt14 : List Nat := [0x088, 0x08E, 0x08F, 0x090, 0x091, 0x094, 0x0A4, 0x0A5] ++ countFrom 0x0A9 9 ++ countFrom 0x0C0 19
  ++ [0x0E4, 0x0E7, 0x0E8, 0x110]
def modeOps : List Nat := countFrom 0x050 5
def windowOps : List Nat := [0x108, 0x109]

/-- The registers that the destination field of a word names whose reserved fields are set, those of a 32-bit type (log entry 103). -/
def reservedDsts (w : BitVec 32) (s : State) : List Nat :=
  let op := bits w.toNat 23 9
  if scalarAt14.contains op then [codeS (bits w.toNat 14 6)]
  else if scalarAt15.contains op then [codeS (bits w.toNat 15 6)]
  else if scalarAt9.contains op then [codeS (bits w.toNat 9 6)]
  else if op = 0x055 then [codeS (bits w.toNat 0 6)]
  else if op = 0x133 ∨ op = 0x13E then [codeS (bits w.toNat 10 6)]
  else if modeOps.contains op then [codeMode]
  else if windowOps.contains op then [codeW (bits w.toNat 12 3)]
  else if op = 0x0E5 then (activeLanes s).map fun i => codeP (bits w.toNat 14 4) i
  else if op = 0x112 then dstV (bits w.toNat 14 7) 2 (activeLanes s)
  else if vectorAt14.contains op then dstV (bits w.toNat 14 7) 1 (activeLanes s)
  else if op = 0x102 then dstV (bits w.toNat 15 7) 1 (activeLanes s)
  else []

/-- Opcodes whose instructions are irrevocable, and those that are turns (R42, R60). -/
def irrevocableOp (s : State) (op : Nat) : Bool :=
  ([0x04D, 0x04F, 0x121, 0x122, 0x124, 0x125, 0x129, 0x12A] ++ countFrom 0x130 3 ++ countFrom 0x134 9 ++ countFrom 0x140 3
    ++ countFrom 0x150 11 ++ countFrom 0x180 64).contains op || (op == 0x111 && detNow s)
def turnOp (s : State) (op : Nat) : Bool :=
  ([0x121, 0x122, 0x124, 0x125, 0x129, 0x12A] ++ countFrom 0x130 3 ++ countFrom 0x180 64).contains op || (op == 0x111 && detNow s)

/-- The point of delivery of its own that an opcode is, besides those of its form: `halt`, a barrier of a free launch, `ewait` and `epoll`
with their counter, `wait.cnt` (R340, R376). -/
def reservedPoint (w : BitVec 32) (s : State) : Option Point :=
  let op := bits w.toNat 23 9
  if op = 0x04F then some .halt
  else if op = 0x127 ∨ op = 0x128 then (if (curLaunch s).det then none else some .irrevocable)
  else if op = 0x13D ∨ op = 0x13E then some (.counter (bits w.toNat 0 3))
  else if op = 0x12F ∧ bits w.toNat 15 2 = 3 then some .engines
  else none

/-- R177: a word with an assigned opcode and a reserved field; the check of privilege comes before that of fields. A held fault that the
instruction's point delivers comes before both (R341), and the region that its destination asks for opens first (R363). -/
def execReservedEncoding (w : BitVec 32) (s : State) : Host.Outcome State Fault Refusal :=
  let op := bits w.toNat 23 9
  .next (match (reservedPoint w s).bind (deliverable s) with
    | some h => deliver h s
    | none =>
      issue { Form.plain w 1 with
          bad := some 0x03, privileged := privOpcode w, dsts := reservedDsts w s
          irrevocable := irrevocableOp s op, turn := turnOp s op } noCheck (fun s => s) s)

end Sys2Proof.Machine
end

