-- ==== Sys2Proof/Machine/Sync.lean ====
section
/-! DEFINITION. Fences, counts, barriers and logical time (spec/11_isa_memory_sync.md R249 to R253;
spec/04_consistency.md R89, R91, R93; spec/03_logical_time.md R51, R52, R62). -/

namespace Sys2Proof.Machine

/-! ### Fences (R91, R249) -/

/-- An acquire or full fence at cluster scope or wider drops the core's self-invalidating copies (R89). -/
def dropSelf (core : Nat) (s : State) : State := l1Drop (fun c => c.core == core && c.coh == 0 && c.startKey.isNone) s

/-- The fence retires: an acquire side drops copies, and a region opens where the fence committed the one before. -/
def fenceDone (o : OpF) (s : State) : State :=
  let s := if o.kind != 2 && decide (2 ≤ o.scope.toNat) && !detNow s then dropSelf s.g.core s else s
  if s.p.entry.isSome then finish 4 s else finishAlone 4 s

/-- The open region holds stores to peers in a class of the mask. -/
def buffersFar (mask : BitVec 4) (s : State) : Bool := s.p.buffer.any fun b => b.cls != 0 && mask.getLsbD b.cls.toNat

/-- R249: a release or full fence that selects class local commits the region first, and so does one that selects the class of a
store to a peer that the region holds (R91); then the split waits until the accesses that the fence covers have performed. -/
def fenceEffect (o : OpF) (s : State) : State :=
  let s := if o.kind != 1 && (o.mask.getLsbD 0 || buffersFar o.mask s) then commitRegion s else s
  if accessPending s o.mask (o.kind == 1) then awaitAccesses o.mask s else fenceDone o s

/-- R249. -/
def execFence (o : OpF) (s : State) : Host.Outcome State Fault Refusal :=
  .next (issue { Form.plain (wordOf (encode (.fence o))) 4 with
      bad := if wellFormed (.fence o) then none else some 0x03 } noCheck (fenceEffect o) s)

/-! ### Counts (R250) -/

/-- A request of the split at issue counts as a committed store or reduction of class local, or as a remote access, that has not
performed. -/
def countedReq (s : State) (k : Nat) (q : Req) : Bool :=
  q.gang == s.g.id && meets q.lanes s.p.members && !q.settled &&
    (if k = 0 then q.cls == 0 && (match q.op with
        | .store _ => !q.release
        | .reduce _ _ _ _ _ => true
        | _ => false)
    else q.cls != 0)

/-- Committed stores and reductions not yet performed; in a deterministic launch publications sent and not yet
acknowledged. -/
def storesPending (s : State) : Nat :=
  if detNow s then (s.pubs.filter fun b => b.gang == s.g.id && meets b.lanes s.p.members && !b.answered).length
  else (s.reqs.filter (countedReq s 0)).length

/-- Earlier stores and reductions of the split still to perform, which `wait.cnt` with k = 0 and n = 0 orders whether or not it counts
them: those of `rel`, the discards of a free launch (R243), those to the host aperture in a deterministic one (R98). -/
def writesPending (s : State) : Bool :=
  s.reqs.any fun q => q.gang == s.g.id && meets q.lanes s.p.members && !q.settled && q.cls == 0 && (match q.op with
    | .store _ => true
    | .reduce _ _ _ _ _ => true
    | .discard => true
    | _ => false)

/-- Remote accesses not yet acknowledged, lane by lane. -/
def remotesPending (s : State) : Nat :=
  (s.remotes.foldl (fun n r => if r.gang = s.g.id ∧ meets r.lanes s.p.members ∧ r.cmd = none then n + popcount r.rest else n) 0)
    + (s.reqs.filter (countedReq s 1)).length
    + (farCmds s).length

/-- Instructions whose load destinations are still empty. -/
def loadsPending (s : State) : Nat :=
  let tags := (s.reqs.filter fun q => q.gang == s.g.id && meets q.lanes s.p.members && awaited s q
      && !(match q.phase with
        | .refused _ => true
        | _ => false)).map fun q => (q.pc.toNat, q.clock.toNat)
  let far := (s.remotes.filter fun r => r.gang == s.g.id && meets r.lanes s.p.members && decide (r.dest ≠ [] ∧ r.rest ≠ 0)).map
    fun r => (r.pc.toNat, r.clock.toNat)
  (nubPairs (tags ++ far)).length

/-- Engine operations of the split's lineage that have not finished. -/
def enginesPending (s : State) : Nat :=
  (s.cmds.filter fun c => c.gang == s.g.id && meets c.lineage s.p.members && decide (c.phase ≠ .finished)).length

/-- The count that k selects. -/
def countOf (s : State) (k : Nat) : Nat :=
  match k with
  | 0 => storesPending s
  | 1 => remotesPending s
  | 2 => loadsPending s
  | _ => enginesPending s

/-- The count has fallen far enough; an instance with n = 0 also orders what its count leaves out. -/
def countDone (s : State) (k n : Nat) : Bool := decide (countOf s k ≤ n) && !(k == 0 && n == 0 && writesPending s)

/-- The fault of a store held at an HC that the count of a free launch includes: `wait.cnt` with k = 0 or 1 delivers it, whatever n
is (R404). -/
def countFault (s : State) (k : Nat) : Option HeldFault :=
  if (curLaunch s).det || decide (2 ≤ k) then none
  else heldFaultOf s fun e => s.reqs.any fun q => decide (e.reqId = some q.id) && countedReq s k q

/-- R250: k = 0 or 1 commits the region first; then the split waits for its count to fall. -/
def waitCntEffect (o : OpWait) (s : State) : State :=
  let s := if o.k.toNat < 2 then commitRegion s else s
  if countDone s o.k.toNat o.n.toNat then (if s.p.entry.isSome then finish 4 s else finishAlone 4 s)
  else stall (.count o.k.toNat o.n.toNat) s

/-- R250. With k = 3 it is a delivery point for engine faults (R376), with k = 0 or 1 for those of the stores it counts (R404). -/
def execWaitCnt (o : OpWait) (s : State) : Host.Outcome State Fault Refusal :=
  .next (
    match (if o.k.toNat = 3 then deliverable s .engines else countFault s o.k.toNat) with
    | some h => deliver h s
    | none => issue (Form.plain (wordOf (encode (.waitCnt o))) 4) noCheck (waitCntEffect o) s)

/-! ### Barriers (R51, R251, R252) -/

/-- The number of a kind in the list of arrival counts. -/
def barrierIndex : BarrierKind → Nat
  | .wg => 0
  | .cluster => 1
  | .launch => 2

/-- The word of a barrier instruction. -/
def barrierWord (k : BarrierKind) : BitVec 32 :=
  wordOf (encode (match k with
    | .wg => .bar
    | .cluster => .barC
    | .launch => .barG))

/-- The split arrives: its count rises and it waits for the others, no region open. -/
def arrive (k : BarrierKind) (s : State) : State :=
  let j := getAt 0 s.p.arrivals (barrierIndex k) + 1
  { s with p := { s.p with arrivals := setAt s.p.arrivals (barrierIndex k) j, fresh := false, wait := .barrier k j } }

/-- The class-local accesses that a split made before a barrier have performed: every later access of any participant then follows them
(R93). In a deterministic launch this concerns the host aperture only (R98; log entry 30). -/
def settledBefore (s : State) (e : Gang × Split) : Bool :=
  let l := launchOf s e.1.launch
  !s.reqs.any fun q => q.gang == e.1.id && meets q.lanes e.2.members && q.cls == 0 && !q.settled && (!l.det || q.aperture)

/-- A barrier commits the region; as a full fence of class local it waits until what the split did before has performed, and then it
arrives and goes on with `go` (R93, R251; log entry 30). -/
def arriveThen (k : BarrierKind) (go : State → State) (s : State) : State :=
  let s := commitRegion s
  if settledBefore s (s.g, s.p) then go (arrive k s) else awaitAccesses 1 s

/-- A barrier commits the region and arrives (R251). -/
def barrierEffect (k : BarrierKind) (s : State) : State := arriveThen k (fun s => s) s

/-- A barrier in a free launch is a delivery point (R340). -/
def barrierIssue (f : Form) (check : State → Verdict) (effect : State → State) (s : State) : State :=
  match (if (curLaunch s).det then none else deliverable s .irrevocable) with
  | some h => deliver h s
  | none => issue f check effect s

/-- R251: the gangs of the workgroup. -/
def execBar (s : State) : Host.Outcome State Fault Refusal :=
  .next (barrierIssue { Form.plain (wordOf (encode .bar)) 0 with barred := true, back := fun _ => 0 } noCheck (barrierEffect .wg) s)

/-- R251: the gangs of the cluster group; the barrier cause in a launch whose unit is the workgroup. -/
def execBarC (s : State) : Host.Outcome State Fault Refusal :=
  .next (barrierIssue { Form.plain (wordOf (encode .barC)) 0 with barred := true, back := fun _ => 0 }
    (fun s => failIf (!(curLaunch s).cg) 0x0B) (barrierEffect .cluster) s)

/-- What a bar.g does once it is admitted: its gang's whole Cuff buffer is published, then it arrives (R252). -/
def barGPerform (s : State) : State :=
  if detNow s then publishing (wordOf (encode .barG)) (fun _ => true) [] (fun t => comeBack (arrive .launch (setTurn t))) s
  else arriveThen .launch rotate s

/-- R251: every gang of the launch; the barrier cause where fewer units are live at once than the launch has. -/
def execBarG (s : State) : Host.Outcome State Fault Refusal :=
  .next (barrierIssue { Form.plain (wordOf (encode .barG)) 0 with
      barred := true, irrevocable := true, turn := true, back := fun _ => 0 }
    (fun s => failIf (decide ((curLaunch s).conc < (curLaunch s).nunit)) 0x0B)
    (fun s =>
      if detNow s && !settledBefore s (s.g, s.p) then awaitAccesses 1 s
      else takePublishing .barG (fun _ _ => true) (fun _ => []) barGPerform s) s)

/-! ### Logical time (R253) -/

/-- What a turn does once it is admitted. -/
def turnPerform (s : State) : State := finishTurn 8 (setTurn s)

/-- R253: a turn that publishes nothing; in a free launch nothing. -/
def execTurn (s : State) : Host.Outcome State Fault Refusal :=
  .next (issue { Form.plain (wordOf (encode .turn)) 8 with irrevocable := true, turn := true } noCheck
    (fun s => takeTurn .turn turnPerform s) s)

/-- R253: weight n. -/
def execCjmpImm (o : OpN9) (s : State) : Host.Outcome State Fault Refusal :=
  .next (issue (Form.plain (wordOf (encode (.cjmpImm o))) o.n.toNat) noCheck (finish o.n.toNat) s)

/-- R253: weight s. -/
def execCjmpReg (o : OpS6) (s : State) : Host.Outcome State Fault Refusal :=
  let w := (getS s o.s.toNat).toNat
  .next (issue { Form.plain (wordOf (encode (.cjmpReg o))) w with srcs := [(codeS o.s.toNat, false)] } noCheck (finish w) s)

/-- The weight that carries a clock to max(clock + 1, x). -/
def jumpWeight (clock x : Word) : Nat := max (clock.toNat + 1) x.toNat - clock.toNat

/-- R253: the clock moves to max(clock + 1, s). -/
def execCjmpto (o : OpS6) (s : State) : Host.Outcome State Fault Refusal :=
  let w := jumpWeight s.p.clock (getS s o.s.toNat)
  .next (issue { Form.plain (wordOf (encode (.cjmpto o))) w with srcs := [(codeS o.s.toNat, false)] } noCheck (finish w) s)

/-- R253: s := the clock before this instruction's weight. -/
def execRdclk (o : OpS6) (s : State) : Host.Outcome State Fault Refusal :=
  .next (issue { Form.plain (wordOf (encode (.rdclk o))) 1 with dsts := [codeS o.s.toNat] } noCheck
    (fun s => finish 1 (setS o.s.toNat s.p.clock s)) s)

/-- R253: s := ⌊clock / Q⌋; Q = 4,096 in a free launch. -/
def execRdq (o : OpS6) (s : State) : Host.Outcome State Fault Refusal :=
  .next (issue { Form.plain (wordOf (encode (.rdq o))) 1 with dsts := [codeS o.s.toNat] } noCheck
    (fun s => finish 1 (setS o.s.toNat (BitVec.ofNat 64 (quantumIndex (curLaunch s) s.p.clock.toNat)) s)) s)

end Sys2Proof.Machine
end

