-- ==== Sys2Proof/Machine/Task.lean ====
section
/-! DEFINITION. The task instructions (spec/12_isa_engines_system.md R276, R278; spec/18_instruction_exceptions.md R361;
spec/19_faults_execution_memory.md R368): signals to a task's predecessor count and the release of successors. -/

namespace Sys2Proof.Machine

/-! ### Decrements by the task unit (R276) -/

/-- The late-fault entry of a decrement, attributed to no gang. -/
def lateDecrement (part asid : Nat) (va : Word) (cause : Option (BitVec 8)) : LateEntry where
  id := 0
  hc := homeHc (offsetOf va)
  part := part
  asid := asid
  va := va
  size := 4
  op := .count false 1
  data := []
  gang := none
  gangid := 0
  wg := 0
  serial := 0
  pc := 0
  lanes := 0
  clock := 0
  cause := cause
  reqId := none
  brim := none
  key := none
  node := none
  recorded := true
  delivered := true
  filed := false

/-- The decrement performs at the control block's home, and readies a task whose PRED it brings to 0. -/
def performDecrement (launch part asid off : Nat) (s : State) : State :=
  withReady part asid off (fun s o n => baseBytes s part asid o n)
    (fun s => writePieces launch part asid off (opBytes (.count false 1) (baseBytes s part asid off 4)) (pieces off 4) s) s

/-- A list entry names no control block of this node: it is not aligned, has bit 63 set, names another node or the host aperture, or
lies on a page without TASK. No outcome is stated for it, so that its decrement is as if not issued (R1, R275; log entry 85). -/
def namesNoTask (s : State) (part asid : Nat) (va : Word) : Bool :=
  decide (va.toNat % 128 ≠ 0) || isControl va || decide (nodeOf va ≠ (partOf s part).node) || decide (regionOf (offsetOf va) = 3)
    || (walk s part asid (offsetOf va)).any fun l => !Pte.task l.entry

/-- Decrements the PRED of the control block at an address by 1 for a launch (R276). A held granule
takes it as a follower; a refusal holds it and goes to the fault queue at once, with KIND 2 and the address of PRED. What it cannot do
at once it does in its turn, as an access of the device's own (R128, R149, R369). -/
def decrement (launch part asid : Nat) (va : Word) (s : State) : State :=
  let off := offsetOf va
  if namesNoTask s part asid va then s
  else if devQueued s part asid off || hostsHold s part asid off 4 || !lateRoom s (homeHc off) part then
    sendDev (devReq launch part asid va 4 (.count false 1)) s
  else
  match admitsBoth s part asid off with
  | some c =>
    faultQueue part (recordHead { kind := 2, cause := c, sub := 0, pc := 0, va := va, lanes := 0, serial := 0, clock := 0
                                  pnode := 0, n := 0, word := 0 } { gangid := 0, wg := 0, asid := asid, part := part })
      (enqueueLate (lateDecrement part asid va (some c)) s)
  | none =>
    if granuleHeld s part asid off then enqueueLate (lateDecrement part asid va none) s
    else performDecrement launch part asid off s

/-- The addresses in the successor list of a launch; a list that cannot be read names none (log entry 35). -/
def successorsOf (s : State) (l : Launch) : List Word :=
  match devRead s l.part l.asid (offsetOf l.succp) (8 * l.nsucc) with
  | .error _ => []
  | .ok b => (countFrom 0 l.nsucc).map fun i => BitVec.ofNat 64 (leNat ((b.drop (8 * i)).take 8))

/-- Decrements the PRED of each listed successor, in list order. -/
def releaseSuccessors (l : Launch) (s : State) : State :=
  (successorsOf s l).foldl (fun s va => decrement l.id l.part l.asid va s) s

/-! ### task.sig and task.post -/

/-- The address a signal names lies on this node, 128-B aligned, in a page with TASK (R361). -/
def taskAddressOk (s : State) (va : Word) : Bool :=
  decide (va.toNat % 128 = 0) && !isControl va && decide (nodeOf va = (curPart s).node)
    && decide (regionOf (offsetOf va) ≠ 3) && onTaskPage s s.g.part s.g.asid (offsetOf va)

/-- The earlier accesses of a free launch that the release waits for. -/
def releasePending (s : State) : Bool := !detNow s && accessPending s 15 false

/-- PRED met a bound: the operation left it unchanged (R278). -/
def countFails (add : Bool) (n p : Nat) : Bool := if add then decide (2 ^ 32 ≤ p + n) else decide (p < n)

/-- A signal goes to its home as an access of its own, and the split waits for the answer. -/
def taskSend (add : Bool) (word : BitVec 32) (o : OpSN) (s : State) : State :=
  if releasePending s then awaitAccesses 15 s
  else stall (.answer s.nextId) (sendReq (mkReq s 64 (getS s o.s.toNat) 4 (.count add o.n.toNat) .none word) s)

/-- Issues a signal: a release in a free launch; in a deterministic one it waits until the group's floor has reached its
key. -/
def taskIssue (add : Bool) (word : BitVec 32) (o : OpSN) (s : State) : State :=
  issue { Form.plain word 8 with
      bad := if o.n = 0 then some 0x03 else none
      addrs := [(codeS o.s.toNat, false)]
      irrevocable := true }
    (fun s => (failIf (!taskAddressOk s (getS s o.s.toNat)) 0xD1).andThen (gateGroup s))
    (taskSend add word o) s

/-- The answer of the home: the count cause where PRED would have left its range, the task cause of a refusal. -/
def taskAnswer (add : Bool) (word : BitVec 32) (o : OpSN) (id : Nat) (s : State) : State :=
  match reqOf s id with
  | none => stall .none s
  | some q =>
    match q.phase with
    | .done old =>
      let s := dropReq id s
      if countFails add o.n.toNat (leNat old) then preciseTrap (failOf 0xD2) word (stall .none s)
      else finishAlone 8 s
    | .refused _ => preciseTrap (failOf 0xD1) word (stall .none (dropReq id s))
    | _ => s

/-- A signal: sent, or looking at its answer. -/
def taskSignal (add : Bool) (word : BitVec 32) (o : OpSN) (s : State) : State :=
  match s.p.wait with
  | .answer id => taskAnswer add word o id s
  | _ => taskIssue add word o s

/-- R278: PRED := PRED − n. -/
def execTaskSig (o : OpSN) (s : State) : Host.Outcome State Fault Refusal :=
  .next (taskSignal false (wordOf (encode (.taskSig o))) o s)

/-- R278: PRED := PRED + n. -/
def execTaskPost (o : OpSN) (s : State) : Host.Outcome State Fault Refusal :=
  .next (taskSignal true (wordOf (encode (.taskPost o))) o s)

/-! ### task.done -/

/-- The first task.done of a launch releases its successors and sets EARLY. -/
def releaseEarly (s : State) : State :=
  let l := curLaunch s
  if l.early then s else releaseSuccessors l (mapLaunch l.id (fun l => { l with early := true }) s)

/-- The successor list can be read (R149), or is not read. -/
def listReadable (s : State) : Verdict :=
  let l := curLaunch s
  if l.early then .ok else readable s (offsetOf l.succp) (8 * l.nsucc)

/-- R278: releases the successors of the launch. -/
def execTaskDone (s : State) : Host.Outcome State Fault Refusal :=
  .next (issue { Form.plain (wordOf (encode .taskDone)) 8 with barred := true, irrevocable := true }
    (fun s => (listReadable s).andThen (gateGroup s))
    (fun s => if releasePending s then awaitAccesses 15 s else finishAlone 8 (releaseEarly s)) s)

end Sys2Proof.Machine
end

