-- ==== Sys2Proof/Machine/HcOp.lean ====
section
/-! DEFINITION. The operations of `hc.op` (spec/12_isa_engines_system.md R284; spec/05_memory_hierarchy.md R119 to R124;
spec/19_faults_execution_memory.md R368, R371 to R374): page-table entries, roots, frame records, migration, and what
system software does with held granules. -/

namespace Sys2Proof.Machine

/-! ### The instruction -/

/-- The operands s(s) to s(s + 2). -/
structure HcArgs where
  x : Word
  y : Word
  z : Word
  deriving DecidableEq, Repr

def HcArgs.asid (a : HcArgs) : Nat := a.y.toNat % 4096
def HcArgs.level (a : HcArgs) : Nat := bits a.y.toNat 16 3
def HcArgs.off (a : HcArgs) : Nat := offsetOf a.x

/-- What an operation answers: its status, the entry of a READ, whether it is still at work, the state after it. -/
structure HcResult where
  status : Nat
  entry : Option Nat
  /-- what the instruction waits for before it goes on -/
  waits : Option Wait := none
  after : State

/-- A status that changed nothing. -/
def refusedWith (n : Nat) (s : State) : HcResult := { status := n, entry := none, after := s }

/-- Done. -/
def doneWith (s : State) : HcResult := { status := 0, entry := none, after := s }

/-- The registers of the operand group. -/
def hcGroup (o : OpS6) : List Nat := [codeS o.s.toNat, codeS (o.s.toNat + 1), codeS (o.s.toNat + 2)]

/-- The operands as they stand. -/
def hcArgs (s : State) (o : OpS6) : HcArgs :=
  { x := getS s o.s.toNat, y := getS s (o.s.toNat + 1), z := getS s (o.s.toNat + 2) }

/-- Issues an `hc.op`: `resX` and `resY` are the reserved bits of its first two operands. -/
def hcIssue (word : BitVec 32) (o : OpS6) (resX resY : Word) (act : Nat → HcArgs → State → HcResult) (s : State) : State :=
  issue { Form.plain word 4 with
      privileged := true
      irrevocable := true
      bad := if o.s.toNat + 2 < 64 then none else some 0x03
      addrs := (hcGroup o).map fun c => (c, false)
      dsts := [codeS o.s.toNat] }
    (fun s => failIf (decide (getS s o.s.toNat &&& resX ≠ 0 ∨ getS s (o.s.toNat + 1) &&& resY ≠ 0)) 0x03)
    (fun s =>
      let r := act s.g.part (hcArgs s o) s
      match r.waits with
      | some w => stall w r.after
      | none =>
        let t := setS o.s.toNat (BitVec.ofNat 64 r.status) r.after
        finishAlone 4 (match r.entry with
          | some e => setS (o.s.toNat + 2) (BitVec.ofNat 64 e) t
          | none => t)) s

/-- The reserved bits of an operand that holds an address-space id. -/
def resAsid : Word := 0xFFFFFFFFFFFFF000#64
/-- The reserved bits of an operand that holds an address-space id and a level. -/
def resLevel : Word := 0xFFFFFFFFFFF8F000#64

/-! ### Tables (R119) -/

/-- The tables that a walk passes, from level 0: where the entry of each level lies, as far as there is a table. -/
def entriesFrom (m : List Host.Cell) (hc off : Nat) : List (Nat × Nat) → Nat → List Nat
  | [], _ => []
  | (lo, len) :: r, table =>
    let pa := table + 8 * bits off lo len
    let e := memWord m pa
    pa :: (if Pte.v e && pointerOk hc e then entriesFrom m hc off r (Pte.addr e) else [])

/-- The physical address of the entry of an offset at a level, if there is a table there. -/
def entryAt (s : State) (part asid off level : Nat) : Option Nat :=
  let hc := homeHc off
  let root := mapGet noRoot s.roots (hc * 8 + part)
  if root = noRoot then none
  else
    let pa0 := root + 8 * tagAsid asid off
    let e0 := memWord s.mem pa0
    (pa0 :: (if Pte.v e0 && pointerOk hc e0 then
        entriesFrom s.mem hc off [(39, 13), (30, 9), (21, 9), (16, 5)] (Pte.addr e0) else []))[level]?

/-- Bits of an address below the reach of an entry of a level: 64 KiB, 2 MiB, 1 GiB, 512 GiB, an address space. -/
def levelBits (level : Nat) : Nat := [52, 39, 30, 21, 16].getD level 16

/-- A valid entry that a level admits (R120). -/
def entryValid (hc level e : Nat) : Bool :=
  if Pte.leaf e then decide (2 ≤ level) && (leafOf 0 e (levelBits level) 0).isSome
  else decide (level < 4) && pointerOk hc e

/-- A physical address whose 1 GiB unit belongs to the partition (R321). -/
def ownFrame (q : Partition) (pa : Nat) : Bool :=
  decide (pa < 2 ^ 39) && populated pa && q.memmap.getLsbD (shareOf pa * 12 + pa % 2 ^ 34 / 2 ^ 30)

/-- The granules of a leaf that an HC homes: their offsets from the page's first. -/
def homedGranules (hc base n : Nat) : List Nat :=
  ((countFrom 0 (2 ^ n / 65536)).map fun k => k * 65536).filter fun k => homeHc (base + k) == hc

/-- The frame records of a leaf's granules name the partition, the address space and the granule. -/
def recordsMatch (s : State) (part asid base n frame hc : Nat) : Bool :=
  (homedGranules hc base n).all fun k =>
    mapGet noFrame s.frames ((frame + k) / 65536) == (part, tagAsid asid base, (base + k) / 65536)

/-- The new entry takes a permission that the old one gave, or what a pointer led to (R123). -/
def entryReduces (old new : Nat) : Bool :=
  Pte.v old &&
    (!Pte.v new || !Pte.leaf old || !Pte.leaf new
      || (Pte.rd old && !Pte.rd new) || (Pte.wr old && !Pte.wr new) || (Pte.exe old && !Pte.exe new)
      || decide (Pte.addr old ≠ Pte.addr new))

/-- The granule of an offset, or a frame, lies in the pinned pool of the partition (R374). -/
def namesPool (s : State) (part off pa : Nat) : Bool := (poolIndex s part off).isSome || inPool (partOf s part) pa

/-- The line of a tag lies in a page of n bytes at `base`, in a granule that the HC homes. -/
def pageRef (part asid base n hc : Nat) (r : LineRef) : Bool := refIn part asid base n r && homeHc r.va == hc

/-- The lines of a page leave the L2 as by an eviction, so that every later access asks the HC (R123, R128, R284). -/
def dropPage (part asid base n hc : Nat) (s : State) : State :=
  let s := l1Drop (fun c => pageRef part asid base n hc c.ref && c.coh == 1) s
  { s with lines := s.lines.filter fun l => !pageRef part asid base n hc l.ref }

/-- ENTRY: a granule of the pool is refused before any table is looked at (R374). An entry that takes anything away waits for lines in P,
whose writes perform in the old frame. The ADDR of a table pointer is not checked (log entry 100). -/
def hcEntry (part : Nat) (a : HcArgs) (s : State) : HcResult :=
  let hc := homeHc a.off
  let e := a.z.toNat
  let leaf := Pte.v e && Pte.leaf e
  if (poolIndex s part a.off).isSome || (leaf && inPool (partOf s part) (Pte.addr e)) then refusedWith 2 s else
  match entryAt s part a.asid a.off a.level with
  | none => refusedWith 1 s
  | some pa =>
    let n := levelBits a.level
    let base := a.off / 2 ^ n * 2 ^ n
    let old := memWord s.mem pa
    if decide (2 ≤ a.level) && Pte.v old && Pte.leaf old && Pte.lock old then refusedWith 3 s
    else if Pte.v e && !entryValid hc a.level e then refusedWith 4 s
    else if leaf && !(ownFrame (partOf s part) (Pte.addr e) && recordsMatch s part a.asid base n (Pte.addr e) hc) then
      refusedWith 2 s
    else if !entryReduces old e then doneWith (writePte pa e s)
    else if s.lines.any fun l => decide (l.state = .p) && pageRef part a.asid base (2 ^ n) hc l.ref then
      { status := 0, entry := none, waits := some (.lines part a.asid base (2 ^ n)), after := s }
    else
      doneWith (reducePages part (tagAsid a.asid base) base (base + 2 ^ n) (dropPage part a.asid base (2 ^ n) hc (writePte pa e s)))

/-- READ: a granule of the pool has its entry at level 4. -/
def hcRead (part : Nat) (a : HcArgs) (s : State) : HcResult :=
  match poolIndex s part a.off, entryAt s part a.asid a.off a.level with
  | some b, none => if a.level = 4 then { status := 0, entry := some (poolLeaf s part b).entry, after := s } else refusedWith 1 s
  | some b, some pa =>
    { status := 0, entry := some (if a.level = 4 then (poolLeaf s part b).entry else memWord s.mem pa), after := s }
  | none, some pa => { status := 0, entry := some (memWord s.mem pa), after := s }
  | none, none => refusedWith 1 s

/-- The HC has memory of the partition. -/
def ownHc (q : Partition) (hc : Nat) : Bool := (countFrom 0 12).any fun u => q.memmap.getLsbD (hc * 12 + u)

/-- ROOT: the table lies in the HC's share and in the partition (log entry 36). -/
def hcRoot (part : Nat) (a : HcArgs) (s : State) : HcResult :=
  let hc := a.x.toNat
  let pa := a.z.toNat
  if !ownHc (partOf s part) hc || !ownFrame (partOf s part) pa || shareOf pa != hc then refusedWith 2 s
  else doneWith { s with roots := mapSet noRoot s.roots (hc * 8 + part) pa }

/-- FRAME. -/
def hcFrame (part : Nat) (a : HcArgs) (s : State) : HcResult :=
  let pa := a.x.toNat
  let off := offsetOf a.z
  if pa % 65536 ≠ 0 ∨ !ownFrame (partOf s part) pa || namesPool s part off pa then refusedWith 2 s
  else doneWith { s with frames := mapSet noFrame s.frames (pa / 65536) (part, tagAsid a.asid off, off / 65536) }

/-! ### Migration (R124) -/

/-- The frame that a migration of a page moves a granule from and to. -/
def moveGranule (old new : Nat) (s : State) : State :=
  let data := s.mem.filter fun c => decide (old ≤ c.1 ∧ c.1 < old + 65536)
  let s := { s with mem := memZero s.mem new (new + 65536) }
  let inOld (pa : Nat) : Bool := decide (old ≤ pa ∧ pa < old + 65536)
  let moved (l : Line) : Line := if inOld l.pa then { l with pa := l.pa - old + new } else l
  { s with
    mem := data.foldl (fun m c => mapSet 0 m (c.1 - old + new) c.2) s.mem
    lines := s.lines.map moved
    badLines := s.badLines ++ (s.badLines.filter fun b => inOld (b * 128)).map fun b => (b * 128 - old + new) / 128 }

/-- The HC has copied the page: it writes the new ADDR and clears LOCK as one step, and the held accesses go on. -/
def migrated (hc off new : Nat) (l : Leaf) (s : State) : State :=
  let n := l.pageBits
  let base := off / 2 ^ n * 2 ^ n
  let old := Pte.addr l.entry
  let s := (homedGranules hc base n).foldl (fun s k => moveGranule (old + k) (new + k) s) s
  writePte l.entryPa (Pte.setBit (l.entry - old + new) 56 false) s

/-- MIGRATE: the home HC sets LOCK on the page, and once it has copied the granules that it homes (`copied`) writes the new ADDR.
Pinned pages are refused (log entry 37). -/
def hcMigrate (copied : Bool) (part : Nat) (a : HcArgs) (s : State) : HcResult :=
  let hc := homeHc a.off
  let new := a.z.toNat
  if (poolIndex s part a.off).isSome then refusedWith 2 s
  else
    match tableWalk s part a.asid a.off with
    | none => refusedWith 1 s
    | some l =>
      let n := l.pageBits
      let base := a.off / 2 ^ n * 2 ^ n
      let old := Pte.addr l.entry
      if copied then doneWith (migrated hc a.off new l s)
      else if Pte.lock l.entry then refusedWith 3 s
      else if Pte.pin l.entry || inPool (partOf s part) new || inPool (partOf s part) old then refusedWith 2 s
      else if new % 2 ^ n ≠ 0 ∨ !populated new then refusedWith 4 s
      else if !ownFrame (partOf s part) new || !recordsMatch s part a.asid base n new hc then refusedWith 2 s
      else { status := 0, entry := none, waits := some .migration, after := writePte l.entryPa (Pte.setBit l.entry 56 true) s }

/-! ### Held granules (R371, R372) -/

/-- The entries of a granule of the queue that an offset's home keeps. -/
def granuleLate (s : State) (part asid off : Nat) : List LateEntry := lateOf s part asid off

/-- An entry would still be refused: by its HC, or by the aperture map. -/
def stillRefused (s : State) (e : LateEntry) : Option Nat :=
  let off := offsetOf e.va
  if regionOf off = 3 then
    let part := partOf s e.part
    match apertureEntry part off with
    | none => some 1
    | some k =>
      let hi := apertureHi part k
      if (counts e.op && !hi.testBit 4) || !hi.testBit 3 || !apertureOn s e.part then some 4 else none
  else if (walk s e.part e.asid off).isNone then some 1
  else
    match hcAnswer s e.part e.asid off (counts e.op) true (decide (e.op = .discard)) with
    | .refuse _ => some 4
    | .ok _ => none

/-- The first refusal among entries. -/
def firstRefusal (s : State) : List LateEntry → Option Nat
  | [] => none
  | e :: r => match stillRefused s e with
    | some n => some n
    | none => firstRefusal s r

/-- An update that was held goes back to the Mitten buffer of its slice, to be applied at its key (R72). -/
def requeueUpdate (e : LateEntry) (launch : Nat) (s : State) : State :=
  match e.op, e.key with
  | .reduce n ty rm fz v, some k =>
    { s with
      mitten := s.mitten ++ [{
        id := s.nextId, launch := launch, part := e.part, asid := e.asid, gang := e.gang.getD 0
        core := (gangOf s (e.gang.getD 0)).elim 0 fun g => g.core
        key := k, lane := lowest e.lanes, va := e.va, n := n, ty := ty, rm := rm, fz := fz, v := v
        pc := e.pc, serial := e.serial, lanes := e.lanes, refused := false, stalled := false }]
      nextId := s.nextId + 1 }
  | _, _ => s

/-- The determinism group's launch that an entry with a key belongs to. -/
def launchOfLate (s : State) (e : LateEntry) : Option Nat :=
  match e.key, e.gang with
  | some _, some n => (gangOf s n).map fun g => g.launch
  | _, _ => none

/-- The entry is a MemWr of a host, which leaves the HOST state of its line unchanged (R149). -/
def hostWrite (e : LateEntry) : Bool :=
  e.node.isSome && match e.op with
    | .store _ => true
    | _ => false

/-- An entry without a waiting access performs at its home (R85); a host that waits for its atomic is answered. -/
def performEntry (e : LateEntry) (s : State) : State :=
  let off := offsetOf e.va
  let old := baseBytes s e.part e.asid off e.size
  let new := opBytes e.op old
  let run (s : State) : State :=
    (pieces off new.length).foldl (fun s p => writeAs (!hostWrite e) 0 e.part e.asid p.1 ((new.drop (p.1 - off)).take p.2) s) s
  let s := if counts e.op then withReady e.part e.asid off (fun s o n => baseBytes s e.part e.asid o n) run s
    else run s
  match e.op, e.node with
  | .rmw _ _ _ _ _ _, some port => { s with outbox := s.outbox ++ [.hostAtomicData port (BitVec.ofNat 64 (leNat old))] }
  | .store _, some port => { s with outbox := s.outbox ++ [.hostComplete port] }
  | _, _ => s

/-- The host line of an aperture entry. -/
def lateHostAddr (s : State) (e : LateEntry) : Option Nat :=
  let part := partOf s e.part
  (apertureEntry part (offsetOf e.va)).map fun k => hostAddress part (offsetOf e.va) k

/-- An aperture entry performs on the host line that the HPCC owns; one of a command or of another agent writes its bytes there. -/
def performHostEntry (e : LateEntry) (s : State) : State :=
  let port := (partOf s e.part).port
  match lateHostAddr s e with
  | none => s
  | some addr =>
    match hpccOf s port (addr / 128 * 128), e.reqId.bind fun id => reqOf s id, e.op with
    | some l, some q, _ => performHost q l addr s
    | some l, none, .store d =>
      setHpcc { l with state := .m, data := overlay 0 (bytesInLine addr (addr / 128 * 128) d) l.data }
        (l1Drop (showsHostLine s l.port l.addr) s)
    | _, _, _ => s

/-- A line of a discard is replayed: a write of 0; with the last line of the granule it is discarded as a whole (R125). -/
def replayLine (e : LateEntry) (q : Req) (s : State) : State :=
  let s := performEntry e s
  if q.size = 0 && !queued s q then setPhase q.id (.done []) (discardGranule e.part e.asid (offsetOf e.va) s) else s

/-- A held write of a request performs at its home; of a base line, every other copy goes (R85, R128). -/
def replayWrite (q : Req) (s : State) : State :=
  let t := performWrite q s
  if q.keyed then t
  else recallOutside q.ref (bytesInLine q.off q.ref.va (homeBytes t q q.off q.size)) (dropL1 q.ref q.core t)

/-- The bytes of a held publication are held no longer: it reaches the line as an update of every other launch there (R371, R394). -/
def replayPublication (b : Nat) (s : State) : State :=
  let s := { s with brim := updateWhere (fun x => x.id == b) (fun x => { x with held := [] }) s.brim }
  match findFirst (fun x => x.id == b) s.brim with
  | some x => foreignUpdate x.launch x.ref s
  | none => s

/-- One entry is replayed. -/
def replayEntry (e : LateEntry) (s : State) : State :=
  let s := freeLate e s
  match e.brim with
  | some b => replayPublication b s
  | none =>
    if regionOf (offsetOf e.va) = 3 then performHostEntry e s else
    match e.reqId.bind fun id => reqOf s id with
    | some q => if q.op = .discard then replayLine e q s else replayWrite q s
    | none =>
      match launchOfLate s e with
      | some l => requeueUpdate e l s
      | none => performEntry e s

/-- What an entry has to wait for before it can perform, and the state that asks for it: a line in P or one that a host may have
modified; a line of the host aperture that the HPCC does not own. -/
def replayWait (s : State) (e : LateEntry) : Option (Wait × State) :=
  let off := offsetOf e.va
  if regionOf off = 3 then
    let port := (partOf s e.part).port
    match lateHostAddr s e with
    | none => none
    | some addr =>
      if (hpccOf s port (addr / 128 * 128)).any fun l => decide (l.state = .m ∨ l.state = .e) then none
      else some (.hostLine port (addr / 128 * 128), cxlAsk port (addr / 128 * 128) true s)
  else if e.brim.isNone && (if hostWrite e then !linesQuiet s e.part e.asid off e.size else unreadable s e.part e.asid off e.size) then
    some (.lines e.part e.asid off e.size, askHosts e.part e.asid off e.size s)
  else none

/-- REPLAY. -/
def hcReplay (part : Nat) (a : HcArgs) (s : State) : HcResult :=
  let es := granuleLate s part a.asid a.off
  match firstRefusal s es with
  | some n => refusedWith n s
  | none =>
    if es.any fun e => (walk s part a.asid (offsetOf e.va)).any fun l => Pte.lock l.entry then refusedWith 3 s
    else
      match es.findSome? (replayWait s) with
      | some (w, t) => { status := 0, entry := none, waits := some w, after := t }
      | none => doneWith (es.foldl (fun s e => replayEntry e s) s)

/-- DROP: pinned pools are refused. -/
def hcDrop (part : Nat) (a : HcArgs) (s : State) : HcResult :=
  if (poolIndex s part a.off).isSome then refusedWith 2 s
  else
    doneWith (dropGranuleEntries part a.asid a.off s)

/-- The uncorrectable lines of the page of a leaf in the granules that its HC homes. -/
def pageBad (s : State) (off : Nat) (l : Leaf) : List Nat :=
  let n := 2 ^ l.pageBits
  let frame := l.pa - off % n
  s.badLines.filter fun b => decide (frame ≤ b * 128 ∧ b * 128 < frame + n)
    && homeHc (off / n * n + (b * 128 - frame)) == homeHc off

/-- UNHOLD: HELD is cleared, and the lines of the page with uncorrectable errors read 0. -/
def hcUnhold (part : Nat) (a : HcArgs) (s : State) : HcResult :=
  match walk s part a.asid a.off with
  | none => refusedWith 1 s
  | some l =>
    if Pte.lock l.entry then refusedWith 3 s
    else
      let bad := pageBad s a.off l
      let s := { s with
        mem := bad.foldl (fun m b => memZero m (b * 128) (b * 128 + 128)) s.mem
        badLines := s.badLines.filter fun b => !bad.contains b }
      doneWith (writePte l.entryPa (Pte.setBit l.entry 57 false) s)

/-! ### The instructions -/

/-- R284: writes the entry of an address at a level. -/
def execHcOpEntry (o : OpS6) (s : State) : Host.Outcome State Fault Refusal :=
  .next (hcIssue (wordOf (encode (.hcOpEntry o))) o 0 resLevel hcEntry s)

/-- R284: sets an HC's root register. -/
def execHcOpRoot (o : OpS6) (s : State) : Host.Outcome State Fault Refusal :=
  .next (hcIssue (wordOf (encode (.hcOpRoot o))) o 0xFFFFFFFFFFFFFFE0#64 0 hcRoot s)

/-- R284: writes a frame record. -/
def execHcOpFrame (o : OpS6) (s : State) : Host.Outcome State Fault Refusal :=
  .next (hcIssue (wordOf (encode (.hcOpFrame o))) o 0 resAsid hcFrame s)

/-- R284, R124: migrates a page; while the HC copies it other agents go on, and the instruction waits. -/
def execHcOpMigrate (o : OpS6) (s : State) : Host.Outcome State Fault Refusal :=
  .next (hcIssue (wordOf (encode (.hcOpMigrate o))) o 0 resAsid (hcMigrate (decide (s.p.wait = .migration))) s)

/-- R284, R372: performs the held entries of a granule. -/
def execHcOpReplay (o : OpS6) (s : State) : Host.Outcome State Fault Refusal :=
  .next (hcIssue (wordOf (encode (.hcOpReplay o))) o 0 resAsid hcReplay s)

/-- R284, R372: frees the held entries of a granule. -/
def execHcOpDrop (o : OpS6) (s : State) : Host.Outcome State Fault Refusal :=
  .next (hcIssue (wordOf (encode (.hcOpDrop o))) o 0 resAsid hcDrop s)

/-- R284, R372: clears HELD. -/
def execHcOpUnhold (o : OpS6) (s : State) : Host.Outcome State Fault Refusal :=
  .next (hcIssue (wordOf (encode (.hcOpUnhold o))) o 0 resAsid hcUnhold s)

/-- R284: reads the entry of an address at a level. -/
def execHcOpRead (o : OpS6) (s : State) : Host.Outcome State Fault Refusal :=
  .next (hcIssue (wordOf (encode (.hcOpRead o))) o 0 resLevel hcRead s)

end Sys2Proof.Machine
end

