-- ==== Sys2Proof/Machine/Control.lean ====
section
/-! DEFINITION. Control transfer, hardware loops, region, yield, nop and halt (spec/09_isa_scalar_control.md R195 to
R209). Every one has weight 1. -/

namespace Sys2Proof.Machine

/-- PC + 4 × off. -/
def wordTarget {n : Nat} (pc : Word) (off : BitVec n) : Word := pc + 4 * sext64 off

/-! ### Jumps and calls (R196, R197) -/

/-- The back edges of a transfer to a target, which is taken where it is not PC + 4 (R195). -/
def edgesTo (target : Word) (s : State) : Nat := edgesUnless (decide (target ≠ s.p.pc + 4)) s

/-- R196: PC + 4 × off. -/
def execJmp (o : OpB) (s : State) : Host.Outcome State Fault Refusal :=
  .next (issue { Form.plain (wordOf (encode (.jmp o))) 1 with back := edgesTo (wordTarget s.p.pc o.off) } noCheck (fun s => jump 1 (wordTarget s.p.pc o.off) s) s)

/-- R196: s63 := PC + 4, then PC + 4 × off. -/
def execJal (o : OpB) (s : State) : Host.Outcome State Fault Refusal :=
  .next (issue { Form.plain (wordOf (encode (.jal o))) 1 with
      back := edgesTo (wordTarget s.p.pc o.off), dsts := [codeS 63] } noCheck
    (fun s => jump 1 (wordTarget s.p.pc o.off) (setS 63 (s.p.pc + 4) s)) s)

/-- The target of jr. -/
def jrTarget (s : State) (o : Op2I) : Word := wordTarget (getS s o.a.toNat) o.imm

/-- R196: the target is computed and checked before the link is written. -/
def execJr (o : Op2I) (s : State) : Host.Outcome State Fault Refusal :=
  .next (issue { Form.plain (wordOf (encode (.jr o))) 1 with
      bad := if sOk o.d && sOk o.a then none else some 0x03
      addrs := srcS o.a o.ta
      back := fun s => edgesTo (jrTarget s o) s
      dsts := if sOk o.d then [codeS o.d.toNat] else [] }
    (fun s => failIf (decide ((jrTarget s o).toNat % 4 ≠ 0)) 0x05)
    (fun s => jump 1 (jrTarget s o) (setS o.d.toNat (s.p.pc + 4) s)) s)

/-- A taken transfer that leaves the loop records as they are. -/
def transfer (target : Word) (s : State) : State :=
  let back := decide (target.toNat ≤ s.p.pc.toNat)
  let s := retired (addClock 1 s)
  let s := { s with p := { s.p with pc := target } }
  if back then rotate s else s

/-- R197: pushes PC + 4 and jumps; at depth 256 the call-depth cause. -/
def execCall (o : OpB) (s : State) : Host.Outcome State Fault Refusal :=
  .next (issue { Form.plain (wordOf (encode (.call o))) 1 with back := fun _ => 0 }
    (fun s => failIf (decide (Config.maxDepth ≤ s.p.rstack.length)) 0x06)
    (fun s => transfer (wordTarget s.p.pc o.off) (pushReturn (s.p.pc + 4) s)) s)

/-- A return waits for the entry that comes back on chip while it is held (R375). -/
def refillVerdict (s : State) : Verdict := if refillHeld s then .wait .refill else .ok

/-- What a return does, unless the entry that comes back on chip is lost: then the launch ends (R375). -/
def refillReturn (f : State → State) (s : State) : State :=
  if refillLost s then contextLost s.g.launch s.g.part (partyOf s.g) s else f s

/-- The split after a return: its stack popped, records above the new depth idle (R206). -/
def popReturn (q : Split) : Split := returnLoops { q with rstack := q.rstack.drop 1 }

/-- The top of the return stack. -/
def topReturn (q : Split) : Word := getAt 0 q.rstack 0

/-- R197: pops the return address. A return does not rotate (R195). -/
def execRet (s : State) : Host.Outcome State Fault Refusal :=
  .next (issue { Form.plain (wordOf (encode .ret)) 1 with back := fun _ => 0 }
    (fun s => (failIf (decide (s.p.rstack = [])) 0x06).andThen (refillVerdict s))
    (refillReturn fun s => retired (addClock 1 { s with p := { popReturn s.p with pc := topReturn s.p } })) s)

/-! ### Division of the lanes (R30, R198, R201) -/

/-- A slice-wide transfer of the whole split to a target other than PC + 4. -/
def goWhole (branch : Bool) (t : Word) (s : State) : State :=
  let s' := retired (addClock 1 s)
  let s' := { s' with p := { (if branch then leaveLoops t s'.p else s'.p) with pc := t } }
  if t.toNat ≤ s.p.pc.toNat then rotate s' else s'

/-- Retires an instruction after which each active lane goes its own way: with no active lane it falls through; where all
lanes agree the split goes whole; else it divides. `branch` is `vbr`: a return leaves the loop records as the pop has left them,
and has no back edge (R206). -/
def goLanes (branch : Bool) (act : List (Nat × Word)) (s : State) : State :=
  let choice := laneChoices s act
  match choice with
  | [] => finish 1 s
  | (_, t) :: _ =>
    if choice.all fun e => decide (e.2 = t) then
      if branch && decide (t = s.p.pc + 4) then finish 1 s else goWhole branch t s
    else
      let s := retired (addClock 1 s)
      divide (childOf s branch) choice s

/-- R198: a return with a continuation per lane. -/
def execRetVa (o : OpV) (s : State) : Host.Outcome State Fault Refusal :=
  .next (issue { Form.plain (wordOf (encode (.retVa o))) 1 with
      srcs := if s.p.rstack = [] then [] else srcV o.a.toNat 1 false (activeLanes s)
      reads := maskReads s
      back := edgesUnless (!(activeLanes s).isEmpty) }
    (fun s => (failIf (decide (s.p.rstack = [])) 0x06).andThen
      (if (activeLanes s).isEmpty then .ok else refillVerdict s))
    (fun s =>
      let act := (activeLanes s).map fun i =>
        (i, topReturn s.p + 4 * sext64 (BitVec.ofNat 32 (elemOf s (Ty.i 32) o.a.toNat i)))
      if act.isEmpty then finish 1 s
      else refillReturn (fun s => goLanes false act { s with p := popReturn s.p }) s) s)

/-- A branch of the whole split on a condition over the state. -/
def branchWhole (f : Form) (off : BitVec 17) (taken : State → Bool) (s : State) : State :=
  issue { f with back := fun s => edgesUnless (taken s && decide (wordTarget s.p.pc off ≠ s.p.pc + 4)) s } noCheck
    (fun s => if taken s then jump 1 (wordTarget s.p.pc off) s else finish 1 s) s

/-- R199: taken when s = 0. -/
def execBz (o : OpBC) (s : State) : Host.Outcome State Fault Refusal :=
  .next (branchWhole { Form.plain (wordOf (encode (.bz o))) 1 with srcs := [(codeS o.s.toNat, false)] } o.off
    (fun s => decide (getS s o.s.toNat = 0)) s)

/-- R199: taken when s ≠ 0. -/
def execBnz (o : OpBC) (s : State) : Host.Outcome State Fault Refusal :=
  .next (branchWhole { Form.plain (wordOf (encode (.bnz o))) 1 with srcs := [(codeS o.s.toNat, false)] } o.off
    (fun s => decide (getS s o.s.toNat ≠ 0)) s)

/-- A form that reads a predicate over the active lanes. -/
def predForm (word : BitVec 32) (o : OpBC) (s : State) : Form :=
  { Form.plain word 1 with
    bad := if o.s.toNat < 16 then none else some 0x03
    reads := maskReads s ++ (activeLanes s).map fun i => codeP o.s.toNat i }

/-- R200: taken when the bit is set in some lane of A. -/
def execBany (o : OpBC) (s : State) : Host.Outcome State Fault Refusal :=
  .next (branchWhole (predForm (wordOf (encode (.bany o))) o s) o.off
    (fun s => (activeLanes s).any fun i => getP s o.s.toNat i) s)

/-- R200: taken when the bit is set in every lane of A. -/
def execBall (o : OpBC) (s : State) : Host.Outcome State Fault Refusal :=
  .next (branchWhole (predForm (wordOf (encode (.ball o))) o s) o.off
    (fun s => (activeLanes s).all fun i => getP s o.s.toNat i) s)

/-- R201: the lanes whose bit is set choose the target, the others PC + 4. -/
def execVbr (o : OpBC) (s : State) : Host.Outcome State Fault Refusal :=
  .next (issue { predForm (wordOf (encode (.vbr o))) o s with
      back := edgesUnless (!(activeLanes s).isEmpty && (activeLanes s).all fun i =>
        getP s o.s.toNat i && decide (wordTarget s.p.pc o.off ≠ s.p.pc + 4)) } noCheck
    (fun s => goLanes true
      ((activeLanes s).map fun i => (i, if getP s o.s.toNat i then wordTarget s.p.pc o.off else s.p.pc + 4)) s) s)

/-! ### Hardware loops (R203, R204) -/

/-- Counter 0 or 1 of the split at issue. -/
def getLc (s : State) (one : Bool) : BitVec 32 := if one then s.p.lc1 else s.p.lc0

def setLc (one : Bool) (v : BitVec 32) (s : State) : State :=
  { s with p := if one then { s.p with lc1 := v } else { s.p with lc0 := v } }

/-- The record of counter 0 or 1. -/
def loopRec (s : State) (one : Bool) : Option LoopRec := if one then s.p.lr1 else s.p.lr0

/-- Activates a record, later than the other. -/
def setLoop (one : Bool) (r : LoopRec) (s : State) : State :=
  { s with
    p := if one then { s.p with lr1 := some r, lrLater := true } else { s.p with lr0 := some r, lrLater := false } }

/-- The check of R204: the record is idle and lies inside the other one. -/
def loopNested (one : Bool) (stop : Word) (s : State) : Verdict :=
  failIf ((loopRec s one).isSome || match loopRec s (!one) with
    | none => false
    | some m => decide (m.stop.toNat < stop.toNat) || decide (m.depth ≠ s.p.rstack.length)) 0x07

/-- R204: starts a loop, or skips its body where the count is 0. -/
def loopStart (one : Bool) (word : BitVec 32) (o : OpBC) (s : State) : State :=
  issue { Form.plain word 1 with
      bad := if 2 ≤ o.off.toInt then none else some 0x03
      srcs := [(codeS o.s.toNat, false)]
      dsts := [codeLc (bit one)]
      back := edgesUnless (decide ((getS s o.s.toNat).setWidth 32 = (0 : BitVec 32))) }
    (fun s => loopNested one (wordTarget s.p.pc o.off) s)
    (fun s =>
      let stop := wordTarget s.p.pc o.off
      let c : BitVec 32 := (getS s o.s.toNat).setWidth 32
      if c = 0 then jump 1 stop (setLc one 0 s)
      else finish 1 (setLoop one { start := s.p.pc + 4, stop := stop, depth := s.p.rstack.length } (setLc one c s))) s

/-- R204, on lc0. -/
def execLoopLc0 (o : OpBC) (s : State) : Host.Outcome State Fault Refusal :=
  .next (loopStart false (wordOf (encode (.loopLc0 o))) o s)

/-- R204, on lc1. -/
def execLoopLc1 (o : OpBC) (s : State) : Host.Outcome State Fault Refusal :=
  .next (loopStart true (wordOf (encode (.loopLc1 o))) o s)

/-- R203: lcN := s[31:0]. -/
def loopSet (one : Bool) (word : BitVec 32) (o : OpS6) (s : State) : State :=
  issue { Form.plain word 1 with
      srcs := [(codeS o.s.toNat, false)]
      dsts := [codeLc (bit one)]
      back := fun s => edgesBehind (setLc one ((getS s o.s.toNat).setWidth 32) s) } noCheck
    (fun s => finish 1 (setLc one ((getS s o.s.toNat).setWidth 32) s)) s

/-- R203: s := zext(lcN, 32). -/
def loopGet (one : Bool) (word : BitVec 32) (o : OpS6) (s : State) : State :=
  issue { Form.plain word 1 with reads := [codeLc (bit one)], dsts := [codeS o.s.toNat] } noCheck
    (fun s => finish 1 (setS o.s.toNat ((getLc s one).setWidth 64) s)) s

/-- R203, on lc0. -/
def execLoopSetLc0 (o : OpS6) (s : State) : Host.Outcome State Fault Refusal :=
  .next (loopSet false (wordOf (encode (.loopSetLc0 o))) o s)

/-- R203, on lc1. -/
def execLoopSetLc1 (o : OpS6) (s : State) : Host.Outcome State Fault Refusal :=
  .next (loopSet true (wordOf (encode (.loopSetLc1 o))) o s)

/-- R203, on lc0. -/
def execLoopGetLc0 (o : OpS6) (s : State) : Host.Outcome State Fault Refusal :=
  .next (loopGet false (wordOf (encode (.loopGetLc0 o))) o s)

/-- R203, on lc1. -/
def execLoopGetLc1 (o : OpS6) (s : State) : Host.Outcome State Fault Refusal :=
  .next (loopGet true (wordOf (encode (.loopGetLc1 o))) o s)

/-! ### region, yield, nop, halt (R207 to R209) -/

/-- R207: commits the region and opens one at the next instruction; a back edge there opens no second one (log entry 94). -/
def execRegion (s : State) : Host.Outcome State Fault Refusal :=
  .next (issue (Form.plain (wordOf (encode .region)) 1) noCheck
    (fun s =>
      let s := finish 1 s
      if s.p.fresh then s else openRegion s) s)

/-- R208: commits the region; the split is not selected for 64 cycles while another split of its core is ready. -/
def execYield (s : State) : Host.Outcome State Fault Refusal :=
  .next (issue { Form.plain (wordOf (encode .yield)) 1 with barred := true, irrevocable := true } noCheck
    (fun s => finishAlone 1 { s with p := { s.p with yielded := s.cycle + Config.yieldCycles } }) s)

/-- R207: nothing. -/
def execNop (s : State) : Host.Outcome State Fault Refusal :=
  .next (issue (Form.plain (wordOf (encode .nop)) 1) noCheck (finish 1) s)

/-- A unit's final clock takes in the clock of a split that halts (R37). -/
def noteFinal (s : State) : State :=
  mapLaunch s.g.launch (fun l => { l with
    units := updateWhere (fun u => u.idx == s.g.unit)
      (fun u => { u with final := if u.final.toNat < s.p.clock.toNat then s.p.clock else u.final }) l.units }) s

/-- The split at issue has halted: it leaves its gang; the gang ends with its last split (R209). -/
def endSplit (s : State) : State :=
  let s := noteFinal s
  let s := { s with p := Split.vacant }
  { s with g := { s.g with ended := s.g.allSplits.isEmpty } }

/-- The active lanes halt (R209): they leave the membership mask; the others go on at PC + 4, and `back` rotates the slices of a turn. -/
def haltLanes (back : State → State) (s : State) : State :=
  let m := s.p.members &&& ~~~ activeMask s
  if m = 0 then refill allSlices (endSplit (retired (addClock 1 s)))
  else
    let s := { s with p := { s.p with members := m, exec := s.p.exec &&& m } }
    refill allSlices (back (finishAlone 1 s))

/-- The marks of active lanes go with them. -/
def haltMarks (s : State) : State :=
  let m := s.p.members &&& ~~~ activeMask s
  { s with g := (slicesOf s.p.away).foldl (fun g j => if m &&& sliceMask j = 0 then dropMark s.p.members j g else g) s.g }

/-- What a halt with active lanes does once it is admitted. -/
def haltPerform (s : State) : State :=
  publishingTurn (wordOf (encode .halt)) (fun _ => []) (fun s => haltLanes comeBack (haltMarks s)) s

/-- A halt of the split at issue is a turn: it halts lanes, and stores of its lineage are unpublished, those of the open
region among them (R67). -/
def haltIsTurn (s : State) : Bool :=
  detNow s && !(activeLanes s).isEmpty && (hasUnpublished s || s.p.buffer.any fun b => match b.tile, b.op with
    | none, .store _ => decide (regionOf (offsetOf b.va) ≠ 3)
    | _, _ => false)

/-- R209: ends the active lanes; with none it is a nop, neither irrevocable nor a delivery point (log entry 89). One that is no turn is a
delivery point too (R340, R376). -/
def execHalt (s : State) : Host.Outcome State Fault Refusal :=
  .next (
    if (activeLanes s).isEmpty then
      issue { Form.plain (wordOf (encode .halt)) 1 with barred := true, reads := maskReads s } noCheck (finish 1) s
    else
      match (if haltIsTurn s then none else deliverable s .halt) with
      | some h => deliver h s
      | none =>
        issue { Form.plain (wordOf (encode .halt)) 1 with
            barred := true, irrevocable := true, turn := haltIsTurn s, reads := maskReads s
            back := edgesUnless (decide (s.p.members &&& ~~~ activeMask s = 0)) } noCheck
          (fun s => if hasUnpublished s then takePublishing .halt inLineage (fun _ => []) haltPerform s else haltLanes (fun s => s) s) s)

end Sys2Proof.Machine
end

