-- ==== Sys2Proof/Machine/Vector.lean ====
section
/-! DEFINITION. What every vector instruction shares (spec/10_isa_vector.md R213, R214): the active lanes, the element type,
the checks of the fields, and the writing of results and flags. -/

namespace Sys2Proof.Machine

/-- Issues a vector instruction over the active lanes: `ok` says whether fields and type are permitted, `srcs` and `dsts` name
the lanes read and written, `effect` writes the results. A reserved T is a reserved operand; the registers that the region check takes
for written are then those of a 32-bit type (log entry 103). -/
def vecIssue (word : BitVec 32) (weight : Nat) (ok : Ty → Bool) (srcs : Ty → List Nat → List (Nat × Bool))
    (extra : List Nat → List Nat) (dsts : Ty → List Nat → List Nat) (effect : Ty → List Nat → State → State)
    (s : State) : State :=
  let ls := activeLanes s
  match elemTy s with
  | none =>
    issue { Form.plain word weight with bad := some 0x03, reads := maskReads s, dsts := dsts (Ty.n 32) ls } noCheck (finish weight) s
  | some t =>
    issue { Form.plain word weight with
        bad := if ok t then none else some 0x03
        srcs := srcs t ls
        reads := maskReads s ++ extra ls
        dsts := dsts t ls } noCheck
      (fun s => finish weight (effect t ls s)) s

/-- Issues an instruction whose effect does not depend on T. -/
def laneIssue (word : BitVec 32) (weight : Nat) (ok : Bool) (srcs : List Nat → List (Nat × Bool))
    (extra : List Nat → List Nat) (dsts : List Nat → List Nat) (effect : List Nat → State → State) (s : State) : State :=
  let ls := activeLanes s
  issue { Form.plain word weight with
      bad := if ok then none else some 0x03
      srcs := srcs ls
      reads := maskReads s ++ extra ls
      dsts := dsts ls } noCheck
    (fun s => finish weight (effect ls s)) s

/-- Writes one result per lane of type `t` to register d, with the flags of all. -/
def putResults (t : Ty) (d : Nat) (rs : List (Nat × Res)) (s : State) : State :=
  raiseFlags (flagsOf (rs.map fun e => e.2)) (setVAll (rs.flatMap fun e => putElem t d e.1 e.2.val) s)

/-- The group of four predicates that a comparison writes. -/
def putGroup (d : Nat) (rs : List (Nat × Bool × Bool × Bool × Bool)) (s : State) : State :=
  setPAll (rs.flatMap fun e => [(d, e.1, e.2.1), (d + 1, e.1, e.2.2.1), (d + 2, e.1, e.2.2.2.1), (d + 3, e.1, e.2.2.2.2)]) s

/-- The lanes of four predicates. -/
def groupLanes (d : Nat) (ls : List Nat) : List Nat :=
  ls.flatMap fun i => [codeP d i, codeP (d + 1) i, codeP (d + 2) i, codeP (d + 3) i]

/-- d names a predicate group. -/
def groupOk (f : BitVec 7) : Bool := decide (f.toNat < 16) && f.toNat % 4 == 0

/-- A result without flags. -/
def plainRes (x : Nat) : Res := { val := x, flags := 0 }

/-- An integer result modulo 2^w. -/
def intRes (t : Ty) (x : Int) : Res := plainRes (wrapNat x t.width)

/-- A two-source instruction: each active lane's result is f of the elements of a, b and, where `old` says so, the old d. -/
def vec3 (word : BitVec 32) (weight : Nat) (o : Op3R) (accept : Ty → Bool) (old : Bool)
    (f : State → Ty → Nat → Nat → Nat → Res) (s : State) : State :=
  vecIssue word weight
    (fun t => vDstOk t.wide o.d && vSrcOk t.wide o.a && vSrcOk t.wide o.b && accept t)
    (fun t ls => srcV o.a.toNat t.regs o.ta ls ++ srcV o.b.toNat t.regs o.tb ls
      ++ (if old then srcV o.d.toNat t.regs false ls else []))
    (fun _ => [])
    (fun t ls => dstV o.d.toNat t.regs ls)
    (fun t ls s => putResults t o.d.toNat
      (ls.map fun i => (i, f s t (elemOf s t o.a.toNat i) (elemOf s t o.b.toNat i) (elemOf s t o.d.toNat i))) s) s

/-- A one-source instruction. -/
def vec2 (word : BitVec 32) (weight : Nat) (o : Op3A) (accept : Ty → Bool) (f : State → Ty → Nat → Res) (s : State) :
    State :=
  vecIssue word weight
    (fun t => vDstOk t.wide o.d && vSrcOk t.wide o.a && accept t)
    (fun t ls => srcV o.a.toNat t.regs o.ta ls)
    (fun _ => [])
    (fun t ls => dstV o.d.toNat t.regs ls)
    (fun t ls s => putResults t o.d.toNat (ls.map fun i => (i, f s t (elemOf s t o.a.toNat i))) s) s

/-- A comparison: four bits per active lane, and flags. -/
def vecCmp (word : BitVec 32) (o : Op3R) (accept : Ty → Bool)
    (f : State → Ty → Nat → Nat → (Bool × Bool × Bool × Bool) × BitVec 64) (s : State) : State :=
  vecIssue word 1
    (fun t => groupOk o.d && vSrcOk t.wide o.a && vSrcOk t.wide o.b && accept t)
    (fun t ls => srcV o.a.toNat t.regs o.ta ls ++ srcV o.b.toNat t.regs o.tb ls)
    (fun _ => [])
    (fun _ ls => groupLanes o.d.toNat ls)
    (fun t ls s =>
      let rs := ls.map fun i => (i, f s t (elemOf s t o.a.toNat i) (elemOf s t o.b.toNat i))
      raiseFlags (rs.foldl (fun m e => m ||| e.2.2) 0) (putGroup o.d.toNat (rs.map fun e => (e.1, e.2.1)) s)) s

end Sys2Proof.Machine
end

