-- ==== Sys2Proof/Machine/Convert.lean ====
section
/-! DEFINITION. Conversions, packing and unpacking (spec/10_isa_vector.md R223 to R225; spec/07_number_formats.md R168 to
R171). Every one has weight 2. -/

namespace Sys2Proof.Machine

/-- What a conversion is given: the rounding of MODE.RM, MODE.FZ, the control of the class and the stochastic draw. -/
structure ConvEnv where
  rm : Rounding
  fz : Bool
  cv : Nat
  draw : Nat
  deriving DecidableEq, Repr

/-- The class number of `mode.cv` that governs a destination (R168, R210). -/
def cvClass : Class → Nat
  | .float t => if t = Ty.f32 then 0 else if t = Ty.f16 then 1 else 2
  | .narrow t =>
    if t = Narrow.e4m3 then 3 else if t = Narrow.e5m2 then 4 else if t = Narrow.e3m2 then 5
    else if t = Narrow.e2m3 then 6 else 7
  | .int t => if t.width = 16 then 8 else if t.width = 8 then 9 else if t.width = 4 then 10 else 11

/-- An integer code as an exact number. -/
def numOfInt (x : Int) : Num := .fin (decide (x < 0)) x.natAbs 0

/-- An exact number to a destination class (R223): f64 rounds under MODE.RM, every other class narrows under its control. -/
def convertNum (v : ConvEnv) (c : Class) (x : Num) : Res :=
  if c = .float Ty.f64 then
    match x with
    | .nan g pl sig => { val := encodeNan Ty.f64 g pl, flags := if sig then flagNV else 0 }
    | .inf g => infRes Ty.f64 g
    | .fin g m e => roundFloat Ty.f64 v.rm v.fz g m e
  else narrowNum c v.cv v.draw v.fz x

/-- A code of type t to a destination class. A destination equal to T copies an infinity; integers convert among themselves
by SAT alone. -/
def convertElem (v : ConvEnv) (t : Ty) (x : Nat) (c : Class) : Res :=
  if t.isFloat then
    match readFloat t v.fz x with
    | .inf g => if c = .float t then infRes t g else convertNum v c (.inf g)
    | n => convertNum v c n
  else
    match c with
    | .int u => narrowInt u (decide (4 ≤ v.cv % 8)) (t.intVal x)
    | _ => convertNum v c (numOfInt (t.intVal x))

/-- The environment of element j of lane i of the split at issue (R170). -/
def convEnv (s : State) (c : Class) (i j : Nat) : ConvEnv where
  rm := rmOf (modeRm s)
  fz := modeFz s
  cv := modeCv s (cvClass c)
  draw := srbits s.p.clock.toNat (gangIndex (curLaunch s) s.g) i j

/-- Registers of a destination class. -/
def classWide (c : Class) : Bool := decide (c = .float Ty.f64)

/-- The lane value of a code of a class (R152, R223). -/
def classExtend (c : Class) (x : Nat) : Nat :=
  match c with
  | .float t => t.extend x
  | .narrow _ => x
  | .int t => t.extend x

/-- The lane values that a result of a class writes. -/
def putClass (c : Class) (d i x : Nat) : List (Nat × Nat × BitVec 32) :=
  if classWide c then putElem Ty.f64 d i x else [(d, i, BitVec.ofNat 32 (classExtend c x))]

/-- vcvt to a class. -/
def vecCvt (word : BitVec 32) (o : Op3A) (c : Class) (s : State) : State :=
  vecIssue word 2
    (fun t => vDstOk (classWide c) o.d && vSrcOk t.wide o.a)
    (fun t ls => srcV o.a.toNat t.regs o.ta ls)
    (fun _ => [])
    (fun _ ls => dstV o.d.toNat (if classWide c then 2 else 1) ls)
    (fun t ls s =>
      let rs := ls.map fun i => (i, convertElem (convEnv s c i 0) t (elemOf s t o.a.toNat i) c)
      raiseFlags (flagsOf (rs.map fun e => e.2)) (setVAll (rs.flatMap fun e => putClass c o.d.toNat e.1 e.2.val) s)) s

/-- R223: to f64. -/
def execVcvtF64 (o : Op3A) (s : State) : Host.Outcome State Fault Refusal :=
  .next (vecCvt (wordOf (encode (.vcvtF64 o))) o (.float Ty.f64) s)

/-- R223: to f32. -/
def execVcvtF32 (o : Op3A) (s : State) : Host.Outcome State Fault Refusal :=
  .next (vecCvt (wordOf (encode (.vcvtF32 o))) o (.float Ty.f32) s)

/-- R223: to f16. -/
def execVcvtF16 (o : Op3A) (s : State) : Host.Outcome State Fault Refusal :=
  .next (vecCvt (wordOf (encode (.vcvtF16 o))) o (.float Ty.f16) s)

/-- R223: to bf16. -/
def execVcvtBf16 (o : Op3A) (s : State) : Host.Outcome State Fault Refusal :=
  .next (vecCvt (wordOf (encode (.vcvtBf16 o))) o (.float Ty.bf16) s)

/-- R223: to e4m3. -/
def execVcvtE4m3 (o : Op3A) (s : State) : Host.Outcome State Fault Refusal :=
  .next (vecCvt (wordOf (encode (.vcvtE4m3 o))) o (.narrow Narrow.e4m3) s)

/-- R223: to e5m2. -/
def execVcvtE5m2 (o : Op3A) (s : State) : Host.Outcome State Fault Refusal :=
  .next (vecCvt (wordOf (encode (.vcvtE5m2 o))) o (.narrow Narrow.e5m2) s)

/-- R223: to e3m2. -/
def execVcvtE3m2 (o : Op3A) (s : State) : Host.Outcome State Fault Refusal :=
  .next (vecCvt (wordOf (encode (.vcvtE3m2 o))) o (.narrow Narrow.e3m2) s)

/-- R223: to e2m3. -/
def execVcvtE2m3 (o : Op3A) (s : State) : Host.Outcome State Fault Refusal :=
  .next (vecCvt (wordOf (encode (.vcvtE2m3 o))) o (.narrow Narrow.e2m3) s)

/-- R223: to e2m1. -/
def execVcvtE2m1 (o : Op3A) (s : State) : Host.Outcome State Fault Refusal :=
  .next (vecCvt (wordOf (encode (.vcvtE2m1 o))) o (.narrow Narrow.e2m1) s)

/-- R223: to i32. -/
def execVcvtI32 (o : Op3A) (s : State) : Host.Outcome State Fault Refusal :=
  .next (vecCvt (wordOf (encode (.vcvtI32 o))) o (.int (Ty.i 32)) s)

/-- R223: to n32. -/
def execVcvtN32 (o : Op3A) (s : State) : Host.Outcome State Fault Refusal :=
  .next (vecCvt (wordOf (encode (.vcvtN32 o))) o (.int (Ty.n 32)) s)

/-- R223: to i16. -/
def execVcvtI16 (o : Op3A) (s : State) : Host.Outcome State Fault Refusal :=
  .next (vecCvt (wordOf (encode (.vcvtI16 o))) o (.int (Ty.i 16)) s)

/-- R223: to n16. -/
def execVcvtN16 (o : Op3A) (s : State) : Host.Outcome State Fault Refusal :=
  .next (vecCvt (wordOf (encode (.vcvtN16 o))) o (.int (Ty.n 16)) s)

/-- R223: to i8. -/
def execVcvtI8 (o : Op3A) (s : State) : Host.Outcome State Fault Refusal :=
  .next (vecCvt (wordOf (encode (.vcvtI8 o))) o (.int (Ty.i 8)) s)

/-- R223: to n8. -/
def execVcvtN8 (o : Op3A) (s : State) : Host.Outcome State Fault Refusal :=
  .next (vecCvt (wordOf (encode (.vcvtN8 o))) o (.int (Ty.n 8)) s)

/-- R223: to i4. -/
def execVcvtI4 (o : Op3A) (s : State) : Host.Outcome State Fault Refusal :=
  .next (vecCvt (wordOf (encode (.vcvtI4 o))) o (.int (Ty.i 4)) s)

/-- R223: to n4. -/
def execVcvtN4 (o : Op3A) (s : State) : Host.Outcome State Fault Refusal :=
  .next (vecCvt (wordOf (encode (.vcvtN4 o))) o (.int (Ty.n 4)) s)

/-! ### Packing (R224, R225) -/

/-- The class, element bits and elements per lane of a packing code; none where it is reserved. -/
def packClass (c : Nat) : Option (Class × Nat × Nat) :=
  match c with
  | 1 => some (.float Ty.f16, 16, 2)
  | 2 => some (.float Ty.bf16, 16, 2)
  | 3 => some (.narrow Narrow.e4m3, 8, 4)
  | 4 => some (.narrow Narrow.e5m2, 8, 4)
  | 5 => some (.narrow Narrow.e3m2, 6, 4)
  | 6 => some (.narrow Narrow.e2m3, 6, 4)
  | 7 => some (.narrow Narrow.e2m1, 4, 8)
  | 8 => some (.int (Ty.i 16), 16, 2)
  | 9 => some (.int (Ty.i 8), 8, 4)
  | 10 => some (.int (Ty.i 4), 4, 8)
  | 24 => some (.int (Ty.n 16), 16, 2)
  | 25 => some (.int (Ty.n 8), 8, 4)
  | 26 => some (.int (Ty.n 4), 4, 8)
  | _ => none

/-- The registers f, f + r, …, n of them. -/
def regGroup (f r n : Nat) : List Nat := (countFrom 0 n).map fun j => f + r * j

/-- A group of n operands of r registers from field f lies within v0 to v95. -/
def packGroupOk (f r n : Nat) : Bool := decide (f + r * n ≤ 96) && (r == 1 || f % 2 == 0)

/-- The code of an element inside its e bits. -/
def codeBits (e x : Nat) : Nat := x % 2 ^ e

/-- R224: converts n registers and packs the codes into one lane. -/
def execVpack (o : Op3K) (s : State) : Host.Outcome State Fault Refusal :=
  .next (
    match packClass o.k.toNat with
    | none => vecIssue (wordOf (encode (.vpack o))) 2 (fun _ => false) (fun _ _ => []) (fun _ => []) (fun _ ls => dstV o.d.toNat 1 ls)
        (fun _ _ s => s) s
    | some (c, e, n) =>
      vecIssue (wordOf (encode (.vpack o))) 2
        (fun t => vDstOk false o.d && packGroupOk o.a.toNat t.regs n)
        (fun t ls => srcV o.a.toNat (t.regs * n) o.ta ls)
        (fun _ => [])
        (fun _ ls => dstV o.d.toNat 1 ls)
        (fun t ls s =>
          let lane (i : Nat) : List (Nat × Res) := (countFrom 0 n).map fun j =>
            (j, convertElem (convEnv s c i j) t (elemOf s t (o.a.toNat + t.regs * j) i) c)
          raiseFlags (flagsOf (ls.flatMap fun i => (lane i).map fun e => e.2))
            (setVAll (ls.map fun i => (o.d.toNat, i,
              BitVec.ofNat 32 ((lane i).foldl (fun w r => w + codeBits e r.2.val * 2 ^ (e * r.1)) 0))) s)) s)

/-- The value of an element of a packed lane (R160, R153). -/
def decodePacked (c : Class) (x : Nat) : Num :=
  match c with
  | .float t => decodeFloat t x
  | .narrow t => decodeNarrow t x
  | .int t => numOfInt (t.intVal x)

/-- The class of T as a destination of vunpk (R225). -/
def classOfTy (t : Ty) : Class := if t.isFloat then .float t else .int t

/-- An element of a packed lane converted to T: an IEEE source is read through FZ, a source of T itself keeps ±∞, and so does one
converted to f32 or f64, which uses no field of MODE. -/
def unpackElem (v : ConvEnv) (c : Class) (x : Nat) (t : Ty) : Res :=
  match c with
  | .float u =>
    match readFloat u v.fz x with
    | .inf g => if t = Ty.f32 ∨ t = Ty.f64 then infRes t g else convertElem v u x (classOfTy t)
    | _ => convertElem v u x (classOfTy t)
  | .int u => convertElem v u x (classOfTy t)
  | .narrow u => convertNum v (classOfTy t) (decodeNarrow u x)

/-- R225: unpacks a lane into n registers of type T. -/
def execVunpk (o : Op3K) (s : State) : Host.Outcome State Fault Refusal :=
  .next (
    match packClass o.k.toNat with
    | none => vecIssue (wordOf (encode (.vunpk o))) 2 (fun _ => false) (fun _ _ => []) (fun _ => []) (fun t ls => dstV o.d.toNat t.regs ls)
        (fun _ _ s => s) s
    | some (c, e, n) =>
      vecIssue (wordOf (encode (.vunpk o))) 2
        (fun t => packGroupOk o.d.toNat t.regs n && decide (o.a.toNat < 96))
        (fun _ ls => srcV o.a.toNat 1 o.ta ls)
        (fun _ => [])
        (fun t ls => dstV o.d.toNat (t.regs * n) ls)
        (fun t ls s =>
          let rs := ls.flatMap fun i => (countFrom 0 n).map fun j =>
            (i, j, unpackElem (convEnv s (classOfTy t) i j) c (bits (fieldBits s o.a.toNat false i) (e * j) e) t)
          raiseFlags (flagsOf (rs.map fun r => r.2.2))
            (setVAll (rs.flatMap fun r => putElem t (o.d.toNat + t.regs * r.2.1) r.1 r.2.2.val) s)) s)

end Sys2Proof.Machine
end

