-- ==== Sys2Proof/Machine/Tile.lean ====
section
/-! DEFINITION. The tile instructions (spec/12_isa_engines_system.md R261; spec/05_memory_hierarchy.md R107, R108, R110). -/

namespace Sys2Proof.Machine

/-! ### Rows of R108 -/

/-- The rows of `tile.own` for gang number g. -/
def ownRow (g : Nat) : TileState → TileRow
  | .empty => .perform
  | .priv h => if h = g then .perform else .wait
  | .filling _ => .wait
  | .ready => .perform
  | .draining _ => .wait

/-- The rows of `tile.seal`. -/
def sealRow (g : Nat) : TileState → TileRow
  | .priv h => if h = g then .perform else .trap
  | _ => .trap

/-- The rows of `tile.free`. -/
def freeRow (g : Nat) : TileState → TileRow
  | .empty => .trap
  | .priv h => if h = g then .perform else .trap
  | .filling _ => .wait
  | .ready => .perform
  | .draining _ => .wait

/-- `tile.own` on a tile: one that was EMPTY reads 0. -/
def ownTile (g : Nat) (t : Tile) : Tile :=
  { t with state := .priv g, data := if t.state = .empty then [] else t.data, fill := none, reads := [] }

def sealTile (t : Tile) : Tile := { t with state := .ready, fill := none, reads := [] }

/-- `tile.free` on a tile: its contents are gone. -/
def freeTile (t : Tile) : Tile := { t with state := .empty, data := [], fill := none, reads := [] }

/-- Engine operations that read a tile up to a write key at or above k. -/
def Tile.readers (t : Tile) (k : Key) : Nat := (t.reads.filter fun e => keyLe k e.1).length

/-- A tile as the transitions with keys below k leave it: one that an engine operation of a higher write key has filled is still
FILLING (R110), and one that operations of higher write keys read is still DRAINING (log entry 88). In a free launch it is as it
stands. -/
def Tile.stateAt (t : Tile) (k : Key) : TileState :=
  let now : TileState :=
    if 0 < t.readers k then
      match t.state with
      | .ready => .draining (t.readers k)
      | .draining _ => .draining (t.readers k)
      | x => x
    else t.state
  match t.fill with
  | some (w, tag) => if keyLe k w then .filling tag else now
  | none => now

/-- Some engine operation with a write key below k has not ended its use of the tile: what the transitions below k leave is not known
yet (R110). -/
def Tile.unsettled (t : Tile) (k : Key) : Bool :=
  (t.reads.any fun e => keyLt e.1 k && !e.2) || match t.state, t.fill with
    | .filling _, some (w, _) => keyLt w k
    | _, _ => false

/-- The state of the tile of the split's workgroup with a handle. -/
def handleState (s : State) (h : Nat) : TileState :=
  match tileOf s h with
  | some t => t.state
  | none => .empty

/-- The same by the order of keys, for what only looks at it (R110). -/
def handleStateAt (s : State) (h : Nat) : TileState :=
  match tileOf s h with
  | some t => t.stateAt (curKey s)
  | none => .empty

/-! ### The transitions (R261) -/

/-- A tile transition: its row, its change of the tile. -/
structure TileOp where
  instr : Instr
  row : Nat → TileState → TileRow
  change : Nat → Tile → Tile

/-- The transition is admitted: its row decides. A turn that waits keeps presenting its key. -/
def tilePerform (o : TileOp) (h : Nat) (s : State) : State :=
  match o.row s.g.num (handleState s h) with
  | .trap => preciseTrap (failOf 0x46) (wordOf (encode o.instr)) { s with p := { s.p with wait := .none } }
  | .wait => { s with p := { s.p with wait := .turn (curKey s) o.instr } }
  | .perform =>
    let moves := (tileOf s h).any fun t => decide ((o.change s.g.num t).state ≠ t.state)
    finishTurn 8 (setTurn (mapTile s.g.launch s.g.wg h (o.change s.g.num) (if moves then landTile s.g.id h s else s)))

/-- The check of a transition: the handle, and in a free launch the row. -/
def tileCheck (o : TileOp) (h : Nat) (s : State) : Verdict :=
  (failIf (decide ((curLaunch s).tiles.length ≤ h)) 0x45).andThen (
    if detNow s then .ok
    else if decide (handleState s h ≠ .priv s.g.num) && blockedAt s h then .wait (tileWait s h true)
    else
      match o.row s.g.num (handleState s h) with
      | .trap => .fail (failOf 0x46)
      | .wait => .wait (tileWait s h false)
      | .perform => .ok)

/-- Issues a tile transition: irrevocable, and in a deterministic launch a turn against the workgroup's bounds. -/
def tileIssue (o : TileOp) (h : BitVec 7) (s : State) : State :=
  issue { Form.plain (wordOf (encode o.instr)) 8 with
      barred := true
      irrevocable := true
      turn := true
      bad := if wellFormed o.instr then none else some 0x03 }
    (tileCheck o h.toNat)
    (takeTurn o.instr (tilePerform o h.toNat)) s

def tileOwnOp (o : OpH) : TileOp := { instr := .tileOwn o, row := ownRow, change := ownTile }
def tileSealOp (o : OpH) : TileOp := { instr := .tileSeal o, row := sealRow, change := fun _ t => sealTile t }
def tileFreeOp (o : OpH) : TileOp := { instr := .tileFree o, row := freeRow, change := fun _ t => freeTile t }

/-- R261: row `tile.own` of R108. -/
def execTileOwn (o : OpH) (s : State) : Host.Outcome State Fault Refusal := .next (tileIssue (tileOwnOp o) o.h s)

/-- R261: row `tile.seal` of R108. -/
def execTileSeal (o : OpH) (s : State) : Host.Outcome State Fault Refusal := .next (tileIssue (tileSealOp o) o.h s)

/-- R261: row `tile.free` of R108. -/
def execTileFree (o : OpH) (s : State) : Host.Outcome State Fault Refusal := .next (tileIssue (tileFreeOp o) o.h s)

/-! ### tile.q (R107, R261) -/

/-- The STATE and OWNER fields of a tile's entry. -/
def tileFields : TileState → Nat × Nat
  | .empty => (0, 0)
  | .priv g => (1, g % 16)
  | .filling tag => (2, tag % 256)
  | .ready => (3, 0)
  | .draining n => (4, n % 256)

/-- The table entry of a tile in a state (R107, R110). -/
def tileEntry (now : TileState) (t : Tile) : Word :=
  let (st, owner) := tileFields now
  BitVec.ofNat 64 (owner * 2 ^ 48 + t.slot % 128 * 2 ^ 40 + st * 2 ^ 32 + (t.size / 512 - 1) % 256 * 2 ^ 24
    + t.base % 2 ^ 18)

/-- R261: s(sd) := the entry. In a deterministic launch it waits until the workgroup floor has reached the split's key, and shows the
state that the transitions below it leave; in a handler, the entry as the table holds it (R337). -/
def execTileQ (o : OpHD) (s : State) : Host.Outcome State Fault Refusal :=
  .next (issue { Form.plain (wordOf (encode (.tileQ o))) 4 with
      barred := false
      bad := if wellFormed (.tileQ o) then none else some 0x03
      dsts := [codeS o.d.toNat] }
    (fun s => (failIf (decide ((curLaunch s).tiles.length ≤ o.h.toNat)) 0x45).andThen (gateWg s))
    (fun s => finish 4 (setS o.d.toNat ((tileOf s o.h.toNat).elim 0 fun t => tileEntry (if detNow s then t.stateAt (curKey s) else t.state) t) s)) s)

end Sys2Proof.Machine
end

