-- ==== Sys2Proof/Machine/EngineMem.lean ====
section
/-! DEFINITION. What an engine does to memory (spec/12_isa_engines_system.md R264; spec/03_logical_time.md R70, R76, R77;
spec/19_faults_execution_memory.md R368, R371, R376): the checks of an engine's reads and writes at their homes, their
values, and the bytes of tiles. -/

namespace Sys2Proof.Machine

/-- Why an engine cannot go on now: its home refuses an access; it waits for held bytes, a pending line or a peer; it needs a
line of the host; a host must first give back a line it may have modified. -/
inductive EngStop where
  | fault (cause sub : BitVec 8) (va : Word)
  | wait
  | ask (line : Nat) (own : Bool)
  | recall (r : LineRef)
  /-- the late-fault store queue has no room for a write to a line of a held granule (R369) -/
  | noRoom (r : LineRef) (va : Word)
  deriving DecidableEq, Repr

/-! ### Tiles -/

/-- The tile of a command's workgroup with a handle. -/
def cmdTile (s : State) (c : Cmd) (h : Nat) : Option Tile :=
  findFirst (fun t => t.launch == c.launch && t.wg == c.wg && t.h == h) s.tiles

/-- Bytes of a tile. -/
def tileRaw (s : State) (c : Cmd) (h off n : Nat) : List Byte :=
  match cmdTile s c h with
  | some t => (countFrom off n).map fun i => mapGet 0 t.data i
  | none => List.replicate n 0

/-- The handle and offset of a tile address. -/
def tileHandle (a : Word) : Nat := bits a.toNat 16 6
def tileOffset (a : Word) : Nat := a.toNat % 2 ^ 16

/-! ### The host aperture (R97, R150) -/

/-- The host address of an engine's access, or none where the gateway's map refuses it. -/
def engHostAddr (s : State) (c : Cmd) (off : Nat) (w : Bool) : Option Nat :=
  let part := partOf s c.part
  match apertureEntry part off with
  | none => none
  | some k =>
    if !(apertureHi part k).testBit (if w then 3 else 4) || !apertureOn s c.part then none else some (hostAddress part off k)

/-- The check of an engine's access inside one line of the host aperture: a read waits only for bytes that entries hold, a write to a held
granule follows its entries (R368). -/
def engHostCheck (s : State) (c : Cmd) (cause : BitVec 8) (off n : Nat) (w : Bool) : Option EngStop :=
  match engHostAddr s c off w with
  | none => some (.fault cause 0x70 (userVA (partOf s c.part).node off))
  | some addr =>
    if w && granuleHeld s c.part c.asid off then none
    else if (lateOf s c.part c.asid off).any fun e => holdsBytes e off n then some .wait
    else
      match hpccOf s (partOf s c.part).port (addr / 128 * 128) with
      | some l => if !w || decide (l.state = .m) || decide (l.state = .e) then none else some (.ask (addr / 128 * 128) true)
      | none => some (.ask (addr / 128 * 128) w)

/-- The HPCC line that an engine's access finds. -/
def engHostLine (s : State) (c : Cmd) (off : Nat) (w : Bool) : Option (Nat × HpccLine) :=
  match engHostAddr s c off w with
  | none => none
  | some addr => (hpccOf s (partOf s c.part).port (addr / 128 * 128)).map fun l => (addr, l)

/-! ### Lines that a host or a pending write holds (R128, R149) -/

/-- A line in P, or one that a host may have modified. -/
def lineBusy (s : State) (r : LineRef) : Option EngStop :=
  match findLine s r with
  | some l => if l.state = .p then some .wait
    else if hostPorts (outDirOf s r) (fun h => h == 2) ≠ [] then some (.recall r) else none
  | none => if hostPorts (outDirOf s r) (fun h => h == 2) ≠ [] then some (.recall r) else none

/-! ### Reads -/

/-- The engine reads at a view (R76). -/
def Cmd.inView (c : Cmd) (k : Key) : Bool :=
  match c.view with
  | some v => Sys2Proof.Machine.inView v c.turn k
  | none => false

/-- The check of a read inside one line. -/
def engReadPiece (s : State) (c : Cmd) (cause : BitVec 8) (off n : Nat) : Option EngStop :=
  if regionOf off = 3 then engHostCheck s c cause off n false
  else
    match admits s c.part c.asid off false with
    | some sub => some (.fault cause sub (userVA (partOf s c.part).node off))
    | none =>
      let r := lineRef c.part c.asid off
      let held := (lateOf s c.part c.asid off).any fun e => !ownHeld s c.launch e && holdsBytes e off n
      let brimHeld := (brimOf s c.launch r).any fun e => c.inView e.key && e.held.any fun i =>
        decide (off % 128 ≤ i ∧ i < off % 128 + n)
      if held || brimHeld then some .wait else lineBusy s r

/-- The first stop of a list of checks. -/
def firstStop {α : Type} (f : α → Option EngStop) : List α → Option EngStop
  | [] => none
  | a :: r =>
    match f a with
    | some x => some x
    | none => firstStop f r

/-- The check of a read of any length. -/
def engReadCheck (s : State) (c : Cmd) (cause : BitVec 8) (va : Word) (n : Nat) : Option EngStop :=
  firstStop (fun e => engReadPiece s c cause e.1 e.2) (pieces (offsetOf va) n)

/-- The bytes of a read inside one line: of the host's line, at the view, or of the base line. -/
def engPieceBytes (s : State) (c : Cmd) (off n : Nat) : List Byte :=
  if regionOf off = 3 then
    match engHostLine s c off false with
    | some (addr, l) => (l.data.drop (addr % 128)).take n
    | none => List.replicate n 0
  else
    match c.view with
    | some v => versionBytes s c.launch c.part c.asid off n (Sys2Proof.Machine.inView v c.turn)
    | none => baseBytes s c.part c.asid off n

/-- The bytes of a read of any length. -/
def engBytes (s : State) (c : Cmd) (va : Word) (n : Nat) : List Byte :=
  (pieces (offsetOf va) n).flatMap fun e => engPieceBytes s c e.1 e.2

/-! ### Writes -/

/-- The engine's writes are publications (R77). -/
def keyedCmd (s : State) (c : Cmd) : Bool := (launchOf s c.launch).det

/-- The check of a write of n bytes inside one line. -/
def engWritePiece (s : State) (c : Cmd) (off n : Nat) : Option EngStop :=
  let va := userVA (partOf s c.part).node off
  if regionOf off = 3 then engHostCheck s c 0xC0 off n true
  else
    match admits s c.part c.asid off true with
    | some sub => some (.fault 0xC0 sub va)
    | none =>
      if granuleHeld s c.part c.asid off then none
      else if keyedCmd s c then none
      else if pageLocked s c.part c.asid off then some .wait
      else lineBusy s (lineRef c.part c.asid off)

/-- The lines that a publication of some writes enters. -/
def engLines (l : List (Word × Nat)) : List Nat :=
  sortNub (l.flatMap fun e => ((pieces (offsetOf e.1) e.2).filter fun p => decide (regionOf p.1 ≠ 3)).map fun p => p.1 / 128 * 128)

/-- The queue to which a write to a held granule goes. -/
def engQueue (s : State) (c : Cmd) (off : Nat) : Nat := if regionOf off = 3 then 32 + (partOf s c.part).port else homeHc off

/-- The pieces of some writes that fall into held granules. -/
def engHeld (s : State) (c : Cmd) (l : List (Word × Nat)) : List (Nat × Nat) :=
  (l.flatMap fun e => pieces (offsetOf e.1) e.2).filter fun p => granuleHeld s c.part c.asid p.1

/-- A piece that finds no room, the others of the unit in the same queue counted with it, or that comes after a write that waits there
(R369). -/
def engNoRoom (s : State) (c : Cmd) (l : List (Word × Nat)) : Option EngStop :=
  let ps := engHeld s c l
  (findFirst (fun p =>
      !lateRoomFor s (engQueue s c p.1) c.part (ps.filter fun x => engQueue s c x.1 == engQueue s c p.1).length
        || !firstHere s (lineRef c.part c.asid p.1) (.num c.id)) ps).map
    fun p => .noRoom (lineRef c.part c.asid p.1) (userVA (partOf s c.part).node p.1)

/-- The check of the writes of one unit: of each piece, then room in the late-fault store queues and in Brim for all its lines together
(R70, R264, R369). -/
def engWritesCheck (s : State) (c : Cmd) (l : List (Word × Nat)) : Option EngStop :=
  match firstStop (fun e => firstStop (fun p => engWritePiece s c p.1 p.2) (pieces (offsetOf e.1) e.2)) l with
  | some x => some x
  | none =>
    match engNoRoom s c l with
    | some x => some x
    | none =>
    if keyedCmd s c && spillExhausted s c.part (engLines l) then
      some (.fault 0xB1 0 (userVA (partOf s c.part).node ((engLines l).headD 0)))
    else none

/-- The late-fault entry of an engine's write to a held granule: it follows the entries there, and the command has not
finished before it is replayed (R368). -/
def engLate (s : State) (c : Cmd) (off : Nat) (data : List Byte) : LateEntry :=
  { lateOfKeyed s c.gang c.part c.asid (userVA (partOf s c.part).node off) data.length (.store data) [] c.writeKey
      c.clock 0 c.pc c.serial none none with
    key := none, reqId := some c.id, recorded := true, delivered := true }

/-- A publication of an engine's write inside one line: its order within its key is that of its command, so that a turn of
the same key comes after it (R77). -/
def engPublish (s : State) (c : Cmd) (off : Nat) (data : List Byte) : State :=
  let r := lineRef c.part c.asid off
  let d := bytesInLine off r.va data
  if granuleHeld s c.part c.asid off then
    publicationHeld { id := c.id, launch := c.launch, gang := c.gang, core := c.core, part := c.part, asid := c.asid, ref := r
                      key := c.writeKey, order := c.id, data := d, lanes := c.lineage, pc := c.pc, serial := c.serial
                      clock := c.clock, cmd := some c.id, answered := true, stalled := false } none s
  else publishBytes c.launch r c.writeKey c.id d s

/-- A write inside one line that passed its check; it waits for room no more. -/
def engWriteAt (c : Cmd) (off : Nat) (data : List Byte) (s : State) : State :=
  let s := unpark (lineRef c.part c.asid off) (.num c.id) s
  if regionOf off = 3 then
    if granuleHeld s c.part c.asid off then enqueueLate { engLate s c off data with hc := 32 + (partOf s c.part).port } s else
    match engHostLine s c off true with
    | some (addr, l) =>
      setHpcc { l with state := .m, data := overlay 0 (bytesInLine addr (addr / 128 * 128) data) l.data }
        (l1Drop (showsHostLine s l.port l.addr) s)
    | none => s
  else if keyedCmd s c then engPublish s c off data
  else if granuleHeld s c.part c.asid off then enqueueLate (engLate s c off data) s
  else writePieces c.launch c.part c.asid off data [(off, data.length)] s

/-- Writes bytes at their homes, line by line. -/
def engStore (c : Cmd) (va : Word) (data : List Byte) (s : State) : State :=
  let off := offsetOf va
  (pieces off data.length).foldl (fun s e => engWriteAt c e.1 ((data.drop (e.1 - off)).take e.2) s) s

/-- The lines of device memory that an engine reads are filled where they are missing (R128, R331). -/
def fillRead (c : Cmd) (e : Word × Nat) (s : State) : State :=
  ((pieces (offsetOf e.1) e.2).filter fun p => decide (regionOf p.1 ≠ 3)).foldl (fun s p =>
    ensureLine c.part c.asid p.1 (countMiss c.launch (lineRef c.part c.asid p.1) s)) s

/-! ### Units of work (R377) -/

/-- One unit of a command: the global bytes it reads and writes, and what it then does. -/
structure UnitWork where
  reads : List (Word × Nat)
  writes : List (Word × Nat)
  run : State → State

/-- Performs a unit whose accesses are all admitted. -/
def runUnit (c : Cmd) (cause : BitVec 8) (w : UnitWork) (s : State) : Except EngStop State :=
  match firstStop (fun e => engReadCheck s c cause e.1 e.2) w.reads with
  | some x => .error x
  | none =>
    match engWritesCheck s c w.writes with
    | some x => .error x
    | none => .ok (w.run (w.reads.foldl (fun s e => fillRead c e s) s))

/-- Updates the command with an identifier. -/
def mapCmd (id : Nat) (f : Cmd → Cmd) (s : State) : State :=
  { s with cmds := updateWhere (fun c => c.id == id) f s.cmds }

/-- The next unit of the command is done. -/
def advance (id : Nat) (s : State) : State :=
  mapCmd id (fun c => { c with progress := c.progress + 1, data := none }) s

/-- The view of a deterministic command has been reached and what it includes has been applied (R76): it stalls as a load
would. -/
def engViewReady (s : State) (c : Cmd) : Bool :=
  match c.view with
  | none => true
  | some v =>
    keyLe v (launchOf s c.launch).floor
      && !((s.updates ++ s.mitten ++ s.retry).any fun u => u.launch == c.launch && keyLt u.key v)
      && !(s.pubs.any fun b => b.launch == c.launch && !b.answered && c.inView b.key)
      && !(s.reqs.any fun q => q.launch == c.launch && q.view.isNone && opWrites q.op && !q.settled && (match q.key with
          | some k => c.inView k
          | none => false))

/-! ### Patterns (R267) -/

/-- A pattern of byte runs: n2 times n1 runs of len bytes, at signed strides. -/
structure Pattern where
  base : Word
  tile : Bool
  /-- a tile of the pattern is an output -/
  out : Bool
  n2 : Nat
  s2 : Int
  n1 : Nat
  s1 : Int
  len : Nat
  deriving DecidableEq, Repr

/-- The displacement of run (i2, i1). -/
def Pattern.at (p : Pattern) (i2 i1 : Nat) : Int := (i2 : Int) * p.s2 + (i1 : Int) * p.s1

/-- The least displacement of a pattern and one past the greatest. -/
def Pattern.least (p : Pattern) : Int := min 0 (((p.n2 - 1 : Nat) : Int) * p.s2) + min 0 (((p.n1 - 1 : Nat) : Int) * p.s1)
def Pattern.past (p : Pattern) : Int :=
  max 0 (((p.n2 - 1 : Nat) : Int) * p.s2) + max 0 (((p.n1 - 1 : Nat) : Int) * p.s1) + (p.len : Int)

/-- An offset plus a displacement lies in [0, 2^53]. -/
def inOffsets (x : Int) : Bool := decide (0 ≤ x ∧ x ≤ ((2 ^ 53 : Nat) : Int))

/-- The pattern stays within the offset field. -/
def Pattern.fits (p : Pattern) : Bool :=
  inOffsets ((offsetOf p.base : Int) + p.least) && inOffsets ((offsetOf p.base : Int) + p.past)

/-- A range of displacements leaves the offset field. -/
def leaves (o lo hi : Int) : Bool := !(inOffsets (o + lo) && inOffsets (o + hi))

/-- The first address of a pattern, in iteration order, whose offset leaves the field (R344). -/
def Pattern.firstOut (p : Pattern) : Word :=
  let o : Int := (offsetOf p.base : Int)
  let row (i2 : Nat) : Int := (i2 : Int) * p.s2
  let i2 := (findFirst (fun i => leaves o (row i + min 0 (((p.n1 - 1 : Nat) : Int) * p.s1))
    (row i + max 0 (((p.n1 - 1 : Nat) : Int) * p.s1) + (p.len : Int))) (countFrom 0 p.n2)).getD 0
  let i1 := (findFirst (fun i => leaves o (p.at i2 i) (p.at i2 i + (p.len : Int))) (countFrom 0 p.n1)).getD 0
  let d := p.at i2 i1
  let x := o + d
  let first : Int := if x < 0 then d else ((2 ^ 53 : Nat) : Int) - o
  p.base + BitVec.ofInt 64 first

/-- The address of a run. -/
def Pattern.addr (p : Pattern) (i2 i1 : Nat) : Word := p.base + BitVec.ofInt 64 (p.at i2 i1)

end Sys2Proof.Machine
end

