-- ==== Sys2Proof/Machine/Matrix.lean ====
section
/-! DEFINITION. Matrix operands and sums (spec/07_number_formats.md R159 to R167; spec/12_isa_engines_system.md R271 to
R274): element formats, scales, the block loop, and the passes of the matrix engine over the accumulator tiles. -/

namespace Sys2Proof.Machine

/-! ### Element formats (R159, R164, R165) -/

/-- Bits of an element of a format code; 0 for a reserved code. -/
def fmtBits (f : Nat) : Nat :=
  match f with
  | 0 => 32
  | 1 => 16
  | 2 => 16
  | 3 => 8
  | 4 => 8
  | 5 => 6
  | 6 => 6
  | 7 => 4
  | 8 => 8
  | 9 => 4
  | 10 => 8
  | 11 => 4
  | _ => 0

/-- Formats with an x8 block scale, and those with an f16 group scale and a zero point. -/
def fmtScaled (f : Nat) : Bool := decide (3 ≤ f ∧ f ≤ 9)
def fmtGrouped (f : Nat) : Bool := decide (f = 10 ∨ f = 11)

/-- Elements of a block or group by length code; none for a reserved code, 0 for no block. -/
def fmtLen (f code : Nat) : Option Nat :=
  if fmtScaled f then (if code = 0 then some 16 else if code = 1 then some 32 else none)
  else if fmtGrouped f then
    (if code = 0 then some 32 else if code = 1 then some 64 else if code = 2 then some 128 else none)
  else if code = 0 ∧ f < 3 then some 0 else none

/-- The pairs of R165, with their exact block: elements along K. -/
def pairBlock (fa fb la lb : Nat) : Option Nat :=
  if fa = 0 ∧ fb = 0 then some 4
  else if (fa = 1 ∧ fb = 1) ∨ (fa = 2 ∧ fb = 2) then some 16
  else if ((fa = 1 ∨ fa = 2) ∧ fmtGrouped fb) ∨ (fmtGrouped fa ∧ (fb = 1 ∨ fb = 2)) then some 16
  else if fmtScaled fa ∧ fmtScaled fb ∧ la = lb ∧ (fa = fb ∨ (fa = 3 ∧ fb = 4) ∨ (fa = 4 ∧ fb = 3)) then some la
  else if (fa = 10 ∧ fb = 10) ∨ (fa = 11 ∧ fb = 11) then some 32
  else none

/-- KB: the K length of a step, by the narrower operand (R271). -/
def stepLength (fa fb : Nat) : Nat :=
  let w := min (fmtBits fa) (fmtBits fb)
  if w ≤ 8 then 128 else if w = 16 then 64 else 32

/-! ### The operation as issued (R271, R272) -/

/-- One operand: format, block length, base, increment, leading dimension, tile flag, scales and zero points. -/
structure MatOperand where
  fmt : Nat
  len : Nat
  base : Word
  inc : Int
  ld : Nat
  tile : Bool
  scale : Nat
  zero : Nat
  deriving DecidableEq, Repr

/-- An mloop: block shape, accumulator range, steps, lengths along K, operands. -/
structure MatOp where
  m : Nat
  n : Nat
  acc : Nat
  use : Nat
  steps : Nat
  kb : Nat
  kt : Nat
  block : Nat
  zeroed : Bool
  a : MatOperand
  b : MatOperand
  deriving DecidableEq, Repr

/-- M, N and the number of tiles of a shape code. -/
def shapeOf (c : Nat) : Option (Nat × Nat × Nat) :=
  match c with
  | 0 => some (128, 128, 1)
  | 1 => some (128, 256, 2)
  | 2 => some (256, 128, 2)
  | 3 => some (256, 256, 4)
  | 4 => some (256, 512, 8)
  | 5 => some (512, 256, 8)
  | _ => none

/-- Word j of a group as a number. -/
def wordNat (l : List Word) (j : Nat) : Nat := (getAt 0 l j).toNat

/-- Length along K of K steps with tail t. -/
def totalK (k kb t : Nat) : Nat := (k - 1) * kb + (if t = 0 then kb else t)

/-- The mloop that a descriptor and a format block give; fields that are out of range give what they give. -/
def matOp (d f : List Word) : MatOp :=
  let w := wordNat d
  let g := wordNat f
  let fa := bits (g 0) 60 4
  let fb := bits (g 2) 60 4
  let la := (fmtLen fa (bits (g 0) 58 2)).getD 0
  let lb := (fmtLen fb (bits (g 2) 58 2)).getD 0
  let sh := (shapeOf (bits (w 5) 0 4)).getD (0, 0, 0)
  let kb := stepLength fa fb
  let k := bits (w 4) 0 16
  { m := sh.1, n := sh.2.1, use := sh.2.2
    acc := bits (w 6) 0 3
    steps := k
    kb := kb
    kt := totalK k kb (bits (w 4) 16 16)
    block := (pairBlock fa fb la lb).getD 1
    zeroed := (w 7).testBit 2
    a := { fmt := fa, len := la, base := getAt 0 d 0, inc := sextInt (w 2) 64, ld := bits (w 5) 8 24, tile := (w 7).testBit 0
           scale := bits (g 0) 0 53, zero := bits (g 1) 0 53 }
    b := { fmt := fb, len := lb, base := getAt 0 d 1, inc := sextInt (w 3) 64, ld := bits (w 5) 32 24, tile := (w 7).testBit 1
           scale := bits (g 2) 0 53, zero := bits (g 3) 0 53 } }

/-- Blocks or groups of an operand along K. -/
def MatOperand.blocks (o : MatOperand) (kt : Nat) : Nat := if o.len = 0 then 0 else (kt + o.len - 1) / o.len

/-- Bytes that n packed elements take. -/
def packedBytes (f n : Nat) : Nat := (n * fmtBits f + 7) / 8

/-! ### Exact sums (R166, R167) -/

/-- The exact product under IEEE 754. -/
def mulExact (a b : Num) : Num :=
  match a, b with
  | .nan s p g, _ => .nan s p g
  | _, .nan s p g => .nan s p g
  | .inf s, .inf t => .inf (s != t)
  | .inf s, .fin t m _ => if m = 0 then .nan false 0 false else .inf (s != t)
  | .fin s m _, .inf t => if m = 0 then .nan false 0 false else .inf (s != t)
  | .fin s m e, .fin t n f => .fin (s != t) (m * n) (e + f)

/-- The exact sum of two numbers; a sum of zero is +0 (R166). -/
def addExact (a b : Num) : Num :=
  match a, b with
  | .nan s p g, _ => .nan s p g
  | _, .nan s p g => .nan s p g
  | .inf s, .inf t => if s = t then .inf s else .nan false 0 false
  | .inf s, .fin _ _ _ => .inf s
  | .fin _ _ _, .inf t => .inf t
  | .fin s m e, .fin t n f =>
    let q := min e f
    let x : Int := signed s (m * 2 ^ (e - q).toNat) + signed t (n * 2 ^ (f - q).toNat)
    .fin (decide (x < 0)) x.natAbs q

/-- The exact sum of a list. -/
def sumExact (l : List Num) : Num := l.foldl addExact (.fin false 0 0)

/-- The NaN that a matrix sum leaves (R167). -/
def matNan : BitVec 32 := 0x7FC00000

/-- acc := round(acc + sA · sB · S). -/
def addTerm (acc : BitVec 32) (term : Num) : BitVec 32 :=
  match decodeFloat Ty.f32 acc.toNat, term with
  | .nan _ _ _, _ => matNan
  | _, .nan _ _ _ => matNan
  | a, t =>
    let y := (addNum Ty.f32 .nearest false a t).val
    match decodeFloat Ty.f32 y with
    | .nan _ _ _ => matNan
    | _ => BitVec.ofNat 32 y

/-- An element code as a number (R160, R161, R163): `z` is its zero point. -/
def elemNum (f code z : Nat) : Num :=
  match f with
  | 0 => decodeFloat Ty.f32 code
  | 1 => decodeFloat Ty.bf16 code
  | 2 => decodeFloat Ty.f16 code
  | 3 => decodeNarrow Narrow.e4m3 code
  | 4 => decodeNarrow Narrow.e5m2 code
  | 5 => decodeNarrow Narrow.e3m2 code
  | 6 => decodeNarrow Narrow.e2m3 code
  | 7 => decodeNarrow Narrow.e2m1 code
  | 8 => numOfInt (sextInt code 8)
  | 9 => numOfInt (sextInt code 4)
  | _ => numOfInt ((code : Int) - (z : Int))

/-- The value of an x8 scale (R162): 2^(c − 127), NaN for 0xFF. -/
def x8Scale (c : Nat) : Num := if c = 255 then .nan false 0 false else .fin false 1 ((c : Int) - 127)

/-! ### Reading operands (R272) -/

/-- A number of packed elements from packed bytes: element j. -/
def packedElem (f : Nat) (x j : Nat) : Nat := bits x (j * fmtBits f) (fmtBits f)

/-- The address of row r of an operand at step i. -/
def MatOperand.rowAddr (o : MatOperand) (i r : Nat) : Word :=
  o.base + BitVec.ofInt 64 ((i : Int) * o.inc + (r : Int) * (o.ld : Int))

/-- Elements of step i. -/
def MatOp.stepElems (x : MatOp) (i : Nat) : Nat := if i + 1 = x.steps then x.kt - (x.steps - 1) * x.kb else x.kb

/-- Addresses of the scale and zero point of row r, block j. -/
def scaleAddr (o : MatOperand) (nb r j : Nat) : Nat := o.scale + (if fmtGrouped o.fmt then 2 else 1) * (r * nb + j)
def zeroBit (o : MatOperand) (nb r j : Nat) : Nat := (r * nb + j) * fmtBits o.fmt

/-- The user address of an offset of the command's device. -/
def homeVA (s : State) (c : Cmd) (off : Nat) : Word := userVA (partOf s c.part).node off

/-- Global bytes that steps [i, j) of one operand with `rows` rows read. -/
def operandReads (s : State) (c : Cmd) (x : MatOp) (o : MatOperand) (rows i j : Nat) : List (Word × Nat) :=
  let nb := o.blocks x.kt
  let lo := i * x.kb
  let hi := lo + ((countFrom i (j - i)).map x.stepElems).foldl (· + ·) 0
  let data := if o.tile then []
    else (countFrom i (j - i)).flatMap fun t => (countFrom 0 rows).map fun r =>
      (o.rowAddr t r, packedBytes o.fmt (x.stepElems t))
  if o.len = 0 then data
  else
    let b0 := lo / o.len
    let b1 := (hi + o.len - 1) / o.len
    let size := if fmtGrouped o.fmt then 2 else 1
    data ++ (countFrom 0 rows).map (fun r => (homeVA s c (scaleAddr o nb r b0), size * (b1 - b0)))
      ++ (if fmtGrouped o.fmt then
          (countFrom 0 rows).map fun r =>
            let from' := zeroBit o nb r b0
            let to' := zeroBit o nb r b1
            (homeVA s c (o.zero + from' / 8), (to' + 7) / 8 - from' / 8)
        else [])

/-- The bytes of row r at step i. -/
def rowBytes (s : State) (c : Cmd) (x : MatOp) (o : MatOperand) (i r : Nat) : List Byte :=
  let n := packedBytes o.fmt (x.stepElems i)
  let a := o.rowAddr i r
  if o.tile then tileRaw s c (tileHandle a) (tileOffset a) n else engBytes s c a n

/-- The zero point of row r, group j. -/
def zeroPoint (s : State) (c : Cmd) (o : MatOperand) (nb r j : Nat) : Nat :=
  if fmtGrouped o.fmt then
    let at' := zeroBit o nb r j
    bits (leNat (engBytes s c (homeVA s c (o.zero + at' / 8)) 1)) (at' % 8) (fmtBits o.fmt)
  else 0

/-- The elements of row r of steps [i, j) as numbers, in K order. -/
def rowNums (s : State) (c : Cmd) (x : MatOp) (o : MatOperand) (i j r : Nat) : List Num :=
  let nb := o.blocks x.kt
  (countFrom i (j - i)).flatMap fun t =>
    let raw := leNat (rowBytes s c x o t r)
    (countFrom 0 (x.stepElems t)).map fun e =>
      let k := t * x.kb + e
      elemNum o.fmt (packedElem o.fmt raw e) (if o.len = 0 then 0 else zeroPoint s c o nb r (k / o.len))

/-- The scale of row r that applies to the exact block that starts at K index k. -/
def scaleAt (s : State) (c : Cmd) (x : MatOp) (o : MatOperand) (r k : Nat) : Num :=
  if o.len = 0 then .fin false 1 0
  else
    let a := scaleAddr o (o.blocks x.kt) r (k / o.len)
    if fmtGrouped o.fmt then decodeFloat Ty.f16 (leNat (engBytes s c (homeVA s c a) 2))
    else x8Scale (leNat (engBytes s c (homeVA s c a) 1))

/-- A list cut into blocks of n, with the index at which each starts. -/
def blocksOf {α : Type} (n : Nat) : Nat → Nat → List α → List (Nat × List α)
  | 0, _, _ => []
  | fuel + 1, k, l => if l.isEmpty then [] else (k, l.take n) :: blocksOf n fuel (k + n) (l.drop n)

/-- The exact blocks of row r over steps [i, j), each with its scale. -/
def rowBlocks (s : State) (c : Cmd) (x : MatOp) (o : MatOperand) (i j r : Nat) : List (Num × List Num) :=
  let l := rowNums s c x o i j r
  (blocksOf x.block l.length (i * x.kb) l).map fun e => (scaleAt s c x o r e.1, e.2)

/-- The block loop of R166 for one output over the blocks of its row and its column. -/
def blockLoop (acc : BitVec 32) : List (Num × List Num) → List (Num × List Num) → BitVec 32
  | (sa, xs) :: ra, (sb, ys) :: rb =>
    blockLoop (addTerm acc (mulExact (mulExact sa sb) (sumExact ((xs.zip ys).map fun e => mulExact e.1 e.2)))) ra rb
  | _, _ => acc

/-! ### Accumulator tiles (R179, R273, R296) -/

/-- The accumulator tiles of a unit; +0.0 before its first command. -/
def accumOf (s : State) (launch unit : Nat) : SMap (BitVec 32) :=
  match findFirst (fun a => a.launch == launch && a.unit == unit) s.accums with
  | some a => a.data
  | none => []

/-- Replaces the accumulator tiles of a unit. -/
def setAccum (launch unit : Nat) (d : SMap (BitVec 32)) (s : State) : State :=
  { s with accums := { launch := launch, unit := unit, data := d }
      :: s.accums.filter fun a => !(a.launch == launch && a.unit == unit) }

/-- The elements of tiles b to b + n − 1. -/
def tilesRange (b n : Nat) (d : SMap (BitVec 32)) : SMap (BitVec 32) :=
  mapRange d (b * Config.tileElems) ((b + n) * Config.tileElems)

/-- The tiles b to b + n − 1 replaced by others. -/
def putTiles (b n : Nat) (new d : SMap (BitVec 32)) : SMap (BitVec 32) :=
  mapSetAll 0 (d.filter fun e => !(decide (b * Config.tileElems ≤ e.1 ∧ e.1 < (b + n) * Config.tileElems))) new

/-- K-step i of an mloop: every output of its block. -/
def matStep (s : State) (c : Cmd) (x : MatOp) (i : Nat) (d : SMap (BitVec 32)) : SMap (BitVec 32) :=
  let cols := (countFrom 0 x.n).map fun n => (n, rowBlocks s c x x.b i (i + 1) n)
  (countFrom 0 x.m).foldl (fun d m =>
    let row := rowBlocks s c x x.a i (i + 1) m
    cols.foldl (fun d e =>
      let k := x.acc * Config.tileElems + m * x.n + e.1
      mapSet 0 d k (blockLoop (mapGet 0 d k) row e.2)) d) d

/-- K-step `progress` of an mloop. At step 0 the shadow is taken and ZERO applied (R273, R295). -/
def mloopStep (c : Cmd) (s : State) : Except EngStop State :=
  let x := matOp c.desc c.fmt
  let i := c.progress
  match firstStop (fun e => engReadCheck s c 0xC1 e.1 e.2)
      (operandReads s c x x.a x.m i (i + 1) ++ operandReads s c x x.b x.n i (i + 1)) with
  | some y => .error y
  | none =>
    let d := accumOf s c.launch c.unit
    let shadow := if i = 0 then some (tilesRange x.acc x.use d) else c.shadow
    let d := if i = 0 ∧ x.zeroed then putTiles x.acc x.use [] d else d
    .ok (mapCmd c.id (fun c => { c with progress := i + 1, shadow := shadow })
      (setAccum c.launch c.unit (matStep s c x i d) s))

/-! ### The accumulator commands (R274) -/

/-- Columns per row, bytes of an element, rows, and bytes between rows of `macc.ld` and `macc.st`. -/
structure AccShape where
  cols : Nat
  size : Nat
  rows : Nat
  ld : Nat
  fmt : Nat
  tile : Bool
  addr : Word
  deriving DecidableEq, Repr

/-- The type of a memory format code. -/
def accTy (f : Nat) : Ty := if f = 1 then Ty.bf16 else if f = 2 then Ty.f16 else Ty.f32

def accShape (d : List Word) (n : Nat) : AccShape :=
  let w := wordNat d 1
  let cols := bits w 16 16 + 1
  { cols := cols, size := (accTy (bits w 0 4)).width / 8, rows := Config.tileElems * n / cols, ld := bits w 32 24
    fmt := bits w 0 4, tile := w.testBit 4, addr := getAt 0 d 0 }

/-- The address of a row. -/
def AccShape.row (x : AccShape) (r : Nat) : Word := x.addr + BitVec.ofNat 64 (r * x.ld)

/-- An element widened exactly to f32. -/
def widenElem (f code : Nat) : BitVec 32 :=
  if f = 0 then BitVec.ofNat 32 code
  else BitVec.ofNat 32 (narrowNum (.float Ty.f32) 0 0 false (decodeFloat (accTy f) code)).val

/-- An element narrowed to a memory format under the control of its class as the split held it at issue; `j` is its index in
the range. -/
def narrowElem (c : Cmd) (f j : Nat) (x : BitVec 32) : Nat :=
  if f = 0 then x.toNat
  else
    let cv := bits c.mode.toNat (13 + 3 * cvClass (.float (accTy f))) 3
    (narrowNum (.float (accTy f)) cv (srbits c.clock.toNat c.lgang 0 j) false (decodeFloat Ty.f32 x.toNat)).val

/-- Row r of a `macc.ld`. -/
def accLoadRow (c : Cmd) (x : AccShape) (r : Nat) : UnitWork where
  reads := if x.tile then [] else [(x.row r, x.cols * x.size)]
  writes := []
  run := fun s =>
    let n := x.cols * x.size
    let l := if x.tile then tileRaw s c (tileHandle (x.row r)) (tileOffset (x.row r)) n else engBytes s c (x.row r) n
    let base := c.b * Config.tileElems + r * x.cols
    setAccum c.launch c.unit ((countFrom 0 x.cols).foldl (fun d i =>
      mapSet 0 d (base + i) (widenElem x.fmt (leNat ((l.drop (i * x.size)).take x.size)))) (accumOf s c.launch c.unit)) s

/-- Row r of a `macc.st`. -/
def accStoreRow (c : Cmd) (x : AccShape) (r : Nat) : UnitWork where
  reads := []
  writes := if x.tile then [] else [(x.row r, x.cols * x.size)]
  run := fun s =>
    let d := accumOf s c.launch c.unit
    let base := c.b * Config.tileElems + r * x.cols
    let data := (countFrom 0 x.cols).flatMap fun i =>
      leBytes x.size (narrowElem c x.fmt (r * x.cols + i) (mapGet 0 d (base + i)))
    if x.tile then writeTile c.launch c.wg (tileHandle (x.row r)) (tileOffset (x.row r)) data s
    else engStore c (x.row r) data s

end Sys2Proof.Machine
end

