-- ==== Sys2Proof/Machine/Engine.lean ====
section
/-! DEFINITION. Issue of engine commands (spec/12_isa_engines_system.md R262 to R274; spec/18_instruction_exceptions.md R360;
spec/03_logical_time.md R76, R77): descriptors and their checks, entry in the dependency table, `ewait` and `epoll`. -/

namespace Sys2Proof.Machine

/-! ### Descriptors (R267 to R274) -/

/-- What the checks of an engine command need: the cause of a failed field check, a misaligned address, its address patterns in
iteration order, its index tile with the bytes it must hold, the check of its peers, and the side that lies on a peer, true for the
output. -/
structure Plan where
  fields : Option (BitVec 8)
  aligned : Option Word
  pats : List Pattern
  index : Option (Nat × Nat)
  peers : Verdict
  away : Option Bool := none

/-- The first cause whose condition holds. -/
def firstCauseOf : List (Bool × BitVec 8) → Option (BitVec 8)
  | [] => none
  | (b, c) :: r => if b then some c else firstCauseOf r

/-- One run of bytes at a global address. -/
def globalRun (base : Word) (len : Nat) (out : Bool) : Pattern :=
  { base := base, tile := false, out := out, n2 := 1, s2 := 0, n1 := 1, s1 := 0, len := len }

/-- The source and destination of a copy (R267). -/
def copyPatterns (d : List Word) : Pattern × Pattern :=
  let c := wordNat d 2
  let n2 := bits c 32 16 + 1
  let n1 := bits c 16 16 + 1
  let len := c % 2 ^ 16 + 1
  ({ base := getAt 0 d 0, tile := c.testBit 63, out := false, n2 := n2, s2 := sextInt (wordNat d 3 / 2 ^ 32) 32
     n1 := n1, s1 := sextInt (wordNat d 3) 32, len := len },
   { base := getAt 0 d 1, tile := c.testBit 62, out := true, n2 := n2, s2 := sextInt (wordNat d 4 / 2 ^ 32) 32
     n1 := n1, s1 := sextInt (wordNat d 4) 32, len := len })

def cpPlan (d : List Word) : Plan where
  fields := firstCauseOf [(decide (bits (wordNat d 2) 48 14 ≠ 0), 0x03)]
  aligned := none
  pats := [(copyPatterns d).1, (copyPatterns d).2]
  index := none
  peers := .ok

/-- The remote side of a copy stands for its offset on the peer. -/
def remoteSide (s : State) (p : Pattern) : Pattern := { p with base := userVA (ownNode s) (offsetOf p.base) }

def cpxPlan (s : State) (d : List Word) : Plan :=
  let (src, dst) := copyPatterns d
  let w := wordNat d 5
  let peer := peerOf d
  { fields := firstCauseOf [
      (decide (bits (wordNat d 2) 48 14 ≠ 0 ∨ bits w 20 44 ≠ 0 ∨ bits w 10 7 ≠ 0), 0x03),
      (if pulls d then src.tile else dst.tile, 0x03),
      (decide (classOf d = 0 ∧ peer ≠ ownNode s), 0x03)]
    aligned := none
    pats := if pulls d then [remoteSide s src, dst] else [src, remoteSide s dst]
    index := none
    peers := if decide (peer ≠ ownNode s) && unreachable s peer then
        .fail { cause := 0x90, va := 0, lanes := 0, pnode := peer } else .ok
    away := if peer = ownNode s then none else some (!pulls d) }

/-- Rows and row bytes of a gather or scatter (R269). -/
def rowCount (d : List Word) : Nat := wordNat d 2 % 2 ^ 16 + 1
def rowLength (d : List Word) : Nat := bits (wordNat d 2) 32 16 + 1

def rowPlan (gather : Bool) (h : Nat) (d : List Word) : Plan where
  fields := firstCauseOf [(decide (bits (wordNat d 2) 48 16 ≠ 0 ∨ bits (wordNat d 2) 16 16 ≠ 0), 0x03)]
  aligned := none
  pats := [globalRun (getAt 0 d 0) 0 (!gather),
    { base := getAt 0 d 1, tile := true, out := gather, n2 := 1, s2 := 0, n1 := 1, s1 := 0
      len := rowCount d * rowLength d }]
  index := some (h, 4 * rowCount d)
  peers := .ok

/-- Fields of a collective's descriptor (R270). -/
def collCount (d : List Word) : Nat := wordNat d 3 / 2 ^ 32
def collRoot (d : List Word) : Nat := bits (wordNat d 3) 22 10
def collType (d : List Word) : Nat := bits (wordNat d 3) 16 4
def collOp (d : List Word) : Nat := bits (wordNat d 3) 10 3
def collKind (d : List Word) : Nat := bits (wordNat d 3) 8 2
def collTag (d : List Word) : Nat := wordNat d 4 % 2 ^ 16

/-- The element types of a collective. -/
def collTy (t : Nat) : Option Ty :=
  match tyOfCode t with
  | none => none
  | some t => if t = Ty.f64 ∨ (t.isInt ∧ t.width < 32) then none else some t

/-- Elements of a member's input and of its output, for G members. -/
def collIn (d : List Word) (g : Nat) : Nat := if collKind d = 2 then g * collCount d else collCount d
def collOut (d : List Word) (g : Nat) : Nat := if collKind d = 1 then g * collCount d else collCount d

/-- Bytes of global memory as the split at issue reads them for a command: at its view in a deterministic launch, what its gang has
published on the way included (R76). -/
def viewRead (s : State) (off n : Nat) : Except (BitVec 8) (List Byte) :=
  if detNow s then
    match admitsAll s s.g.part s.g.asid false (pieces off n) with
    | some c => .error c
    | none => .ok ((pieces off n).flatMap fun e =>
        let r := lineRef s.g.part s.g.asid e.1
        (s.pubs.filter fun b => b.gang == s.g.id && b.ref == r && !b.answered && inView (curView s) s.p.lastTurn b.key).foldl
          (fun l b => overlay (e.1 % 128) b.data l)
          (versionBytes s s.g.launch s.g.part s.g.asid e.1 e.2 (inView (curView s) s.p.lastTurn)))
  else devRead s s.g.part s.g.asid off n

/-- What the reading of a collective's group descriptor gives. -/
def collRead (s : State) (d : List Word) : DescRead := readDescBy (viewRead s) (partOf s s.g.part) (getAt 0 d 0)

/-- The group descriptor of a collective. -/
def collDesc (s : State) (d : List Word) : Option GroupDesc := (collRead s d).desc?

/-- What a collective needs of its fields. N of 0, which R270 does not name as reserved, is one too; a ROOT that is no rank is
none: no member has what such a broadcast waits for (log entry 78). -/
def collPlan (s : State) (d : List Word) : Plan :=
  let desc := collDesc s d
  let g := desc.elim 1 fun x => x.entries.length
  let size := (collTy (collType d)).elim 1 fun t => t.width / 8
  { fields := firstCauseOf [
      (decide (bits (wordNat d 3) 13 3 ≠ 0 ∨ wordNat d 3 % 256 ≠ 0 ∨ bits (wordNat d 4) 16 48 ≠ 0), 0x03),
      (decide (bits (wordNat d 3) 20 2 = 0) || (collTy (collType d)).isNone || decide (3 ≤ collOp d)
        || decide (collCount d = 0), 0x03)]
    aligned := none
    pats := [globalRun (getAt 0 d 0) 16 false, globalRun (getAt 0 d 1) (collIn d g * size) false,
      globalRun (getAt 0 d 2) (collOut d g * size) true]
    index := none
    peers := match collRead s d with
      | .invalid => .fail (failOf 0x90)
      | .void => .ok
      | .valid x =>
        match findFirst (fun n => decide (n ≠ ownNode s) && unreachable s n) x.entries with
        | some n => .fail { cause := 0x90, va := 0, lanes := 0, pnode := n }
        | none => .ok }

/-- The patterns of one operand of an mloop: its full steps and its last step. -/
def operandPatterns (x : MatOp) (o : MatOperand) (rows : Nat) : List Pattern :=
  let one (n2 : Nat) (s2 : Int) (elems : Nat) : Pattern :=
    { base := o.base, tile := o.tile, out := false, n2 := n2, s2 := s2, n1 := rows, s1 := (o.ld : Int)
      len := packedBytes o.fmt elems }
  if x.steps ≤ 1 then [one 1 0 x.kt]
  else [one (x.steps - 1) o.inc x.kb, one 2 (((x.steps - 1 : Nat) : Int) * o.inc) (x.stepElems (x.steps - 1))]

/-- The patterns of an operand's scales and zero points. -/
def scalePatterns (s : State) (x : MatOp) (o : MatOperand) (rows : Nat) : List Pattern :=
  let n := rows * o.blocks x.kt
  if o.len = 0 then []
  else if fmtGrouped o.fmt then
    [globalRun (userVA (ownNode s) o.scale) (2 * n) false, globalRun (userVA (ownNode s) o.zero) (packedBytes o.fmt n) false]
  else [globalRun (userVA (ownNode s) o.scale) n false]

/-- The format block has reserved bits, reserved codes, a pair or lengths outside R165, or fields that its operand does not
use (R272). -/
def formatsBad (f : List Word) : Bool :=
  let g := wordNat f
  let fa := bits (g 0) 60 4
  let fb := bits (g 2) 60 4
  let unused (fm sc zp : Nat) : Bool := (!fmtScaled fm && !fmtGrouped fm && sc != 0) || (!fmtGrouped fm && zp != 0)
  decide (bits (g 0) 53 5 ≠ 0 ∨ bits (g 1) 53 11 ≠ 0 ∨ bits (g 2) 53 5 ≠ 0 ∨ bits (g 3) 53 11 ≠ 0)
    || (match fmtLen fa (bits (g 0) 58 2), fmtLen fb (bits (g 2) 58 2) with
      | some la, some lb => (pairBlock fa fb la lb).isNone
      | _, _ => true)
    || unused fa (bits (g 0) 0 53) (bits (g 1) 0 53) || unused fb (bits (g 2) 0 53) (bits (g 3) 0 53)

/-- The first misaligned address of an mloop in iteration order. -/
def matMisaligned (d : List Word) (x : MatOp) : Option Word :=
  let ld (o : MatOperand) : Word := o.base + BitVec.ofNat 64 o.ld
  let inc (o : MatOperand) (j : Nat) : Word := o.base + getAt 0 d j
  findFirst (fun a => decide (a.toNat % 16 ≠ 0)) [x.a.base, ld x.a, x.b.base, ld x.b, inc x.a 2, inc x.b 3]

def mloopPlan (s : State) (d f : List Word) : Plan :=
  let w := wordNat d
  let x := matOp d f
  { fields := firstCauseOf [
      (decide (bits (w 4) 32 32 ≠ 0 ∨ bits (w 5) 56 8 ≠ 0 ∨ bits (w 5) 4 4 ≠ 0 ∨ bits (w 6) 3 61 ≠ 0 ∨ bits (w 7) 3 61 ≠ 0),
        0x03),
      (decide (x.steps = 0 ∨ 6 ≤ bits (w 5) 0 4 ∨ 8 < x.acc + x.use), 0x03),
      (formatsBad f, 0x20),
      (decide (x.kb < bits (w 4) 16 16), 0x03)]
    aligned := matMisaligned d x
    pats := operandPatterns x x.a x.m ++ operandPatterns x x.b x.n ++ scalePatterns s x x.a x.m ++ scalePatterns s x x.b x.n
    index := none
    peers := .ok }

def maccPlan (store : Bool) (d : List Word) (n : Nat) : Plan :=
  let x := accShape d n
  let w := wordNat d 1
  { fields := firstCauseOf [
      (decide (bits w 56 8 ≠ 0 ∨ bits w 5 11 ≠ 0), 0x03),
      (decide (3 ≤ x.fmt ∨ Config.tileElems * n % x.cols ≠ 0), 0x03)]
    aligned := if x.addr.toNat % x.size ≠ 0 then some x.addr
      else if 1 < x.rows ∧ x.ld % x.size ≠ 0 then some (x.row 1) else none
    pats := [{ base := x.addr, tile := x.tile, out := store, n2 := 1, s2 := 0, n1 := x.rows, s1 := (x.ld : Int)
               len := x.cols * x.size }]
    index := none
    peers := .ok }

def emptyPlan : Plan where
  fields := none
  aligned := none
  pats := []
  index := none
  peers := .ok

/-- An engine command as its issue gives it: operation, `.r`, counter, index tile, accumulator range, descriptor and format
block. -/
structure Order where
  op : EngOp
  rel : Bool
  counter : Nat
  h : Nat
  b : Nat
  n : Nat
  desc : List Word
  fmt : List Word
  deriving DecidableEq, Repr

/-- The plan of a command. -/
def planOf (s : State) (o : Order) : Plan :=
  match o.op with
  | .cp => cpPlan o.desc
  | .cpx => cpxPlan s o.desc
  | .gat => rowPlan true o.h o.desc
  | .scat => rowPlan false o.h o.desc
  | .coll => collPlan s o.desc
  | .mloop => mloopPlan s o.desc o.fmt
  | .maccZ => emptyPlan
  | .maccLd => maccPlan false o.desc o.n
  | .maccSt => maccPlan true o.desc o.n

/-! ### Tiles that a command names (R108, R263) -/

/-- Handles of input and output tiles. -/
def tileNames (p : Plan) (out : Bool) : List Nat :=
  sortNub (((p.pats.filter fun x => x.tile && x.out == out).map fun x => tileHandle x.base)
    ++ (if out then [] else (p.index.elim [] fun i => [i.1])))

/-- Rows of R108 for an engine command's tiles. -/
def outRow (g : Nat) : TileState → TileRow
  | .empty => .perform
  | .priv h => if h = g then .perform else .wait
  | .filling _ => .wait
  | .ready => .trap
  | .draining _ => .wait

def inRow : TileState → TileRow
  | .ready => .perform
  | .draining _ => .perform
  | _ => .wait

/-! ### The checks of R263, step 1 (R360) -/

/-- A global pattern: control space, node, offsets; the host aperture of the device itself has to be open, unless the side lies on a peer
(`away`). -/
def globalCheck (s : State) (away : Bool) (p : Pattern) : Verdict :=
  let at' (c : BitVec 8) (va : Word) : Verdict := .fail { cause := c, va := va, lanes := 0, pnode := 0 }
  if isControl p.base then at' 0x42 0
  else if nodeOf p.base ≠ ownNode s then at' 0x41 p.base
  else if !away && apertureShut s (offsetOf p.base) then at' 0x41 p.base
  else if p.fits then .ok else at' 0x41 p.firstOut

/-- A tile pattern: its address, handle and extent. -/
def extentCheck (s : State) (p : Pattern) : Verdict :=
  let h := tileHandle p.base
  let o : Int := (tileOffset p.base : Int)
  let ok := decide (p.base.toNat < 2 ^ 22) && decide (h < (curLaunch s).tiles.length) && (match tileOf s h with
    | some t => decide (0 ≤ o + p.least ∧ o + p.past ≤ (t.size : Int))
    | none => false)
  failIf (!ok) 0x45

/-- The first verdict of a list that is not ok. -/
def firstVerdict : List Verdict → Verdict
  | [] => .ok
  | v :: r => v.andThen (firstVerdict r)

/-- The index tile: its handle first, its size with the extents. -/
def indexCheck (s : State) (p : Plan) : Verdict :=
  match p.index with
  | none => .ok
  | some (h, n) => failIf (match tileOf s h with
      | some t => decide (t.size < n)
      | none => true) 0x45

/-- The rows of the named tiles: in a deterministic launch once the workgroup floor has reached the key, and as the transitions below
the key leave them (R110). -/
def rowsCheck (s : State) (p : Plan) : Verdict :=
  let ins := tileNames p false
  let outs := tileNames p true
  if ins.isEmpty && outs.isEmpty then .ok
  else (failIf (outs.any fun h => ins.contains h) 0x46).andThen ((gateWg s).andThen
    (failIf (outs.any fun h => decide (outRow s.g.num (handleStateAt s h) = .trap)) 0x46))

/-- The value of a counter of a gang (R265): commands issued on it that have not retired. -/
def counterOf (s : State) (gang k : Nat) : Nat :=
  (unretired ((s.cmds.filter fun c => c.gang == gang && c.counter == k))).length
where
  /-- from the first unfinished command on -/
  unretired : List Cmd → List Cmd
    | [] => []
    | c :: r => if c.phase = .finished then unretired r else c :: r

/-- Commands in a core's dependency table. -/
def tableCount (s : State) (core : Nat) : Nat := (s.cmds.filter fun c => c.core == core && decide (c.phase = .table)).length

/-- The table of a gang's core has an entry free and the gang's counter can count the command. -/
def roomFor (s : State) (g : Gang) (k : Nat) : Bool :=
  decide (counterOf s g.id k < 65535) && decide (tableCount s g.core < Config.dependencyEntries)

def engineRoom (s : State) (k : Nat) : Bool := roomFor s s.g k

/-- A collective of a deterministic launch waits, as a load would, until the floor has reached the view at which its descriptor is
read (R76). -/
def viewGate (o : Order) (s : State) : Verdict :=
  if decide (o.op = .coll) && detNow s && !keyLe (curView s) (curLaunch s).floor then .wait (.view (curView s) none) else .ok

/-- A collective's descriptor can be read: its header, then its entries (R277). -/
def descReadable (o : Order) (s : State) : Verdict :=
  let va := getAt 0 o.desc 0
  let off := offsetOf va
  if o.op ≠ .coll ∨ isControl va ∨ nodeOf va ≠ (curPart s).node ∨ off % 64 ≠ 0 then .ok
  else
    (readable s off 16).andThen (match viewRead s off 16 with
      | .ok h => readable s (off + 16) (2 * bits (leNat (h.take 8)) 0 11)
      | .error _ => .ok)

/-- Every check of a command in the order of R360, then room for it. -/
def orderCheck (o : Order) (s : State) : Verdict :=
  let p := planOf s o
  firstVerdict [
    viewGate o s,
    descReadable o s,
    failIf (p.index.any fun i => decide ((curLaunch s).tiles.length ≤ i.1)) 0x45,
    match p.fields with
      | some c => .fail (failOf c)
      | none => .ok,
    match p.aligned with
      | some va => .fail { cause := 0x43, va := va, lanes := 0, pnode := 0 }
      | none => .ok,
    firstVerdict ((p.pats.filter fun x => !x.tile).map fun x => globalCheck s (decide (p.away = some x.out)) x),
    firstVerdict ((p.pats.filter fun x => x.tile).map (extentCheck s)),
    indexCheck s p,
    rowsCheck s p,
    p.peers,
    if engineRoom s o.counter then .ok else .wait (.engine o.counter)]

/-! ### Issue (R263, steps 1 to 3) -/

/-- The weight of a command (R50): its K-step count added for `mloop`. -/
def orderWeight (o : Order) : Nat := if o.op = .mloop then 8 + wordNat o.desc 4 % 2 ^ 16 else 8

/-- What a collective keeps of its group: GID and the nodes by rank. -/
def groupWords (s : State) (o : Order) : List Word :=
  match (if o.op = .coll then collDesc s o.desc else none) with
  | some x => BitVec.ofNat 64 x.gid.toNat :: x.entries.map (BitVec.ofNat 64)
  | none => o.fmt

/-- The command as it enters the dependency table. -/
def cmdOfOrder (o : Order) (s : State) : Cmd where
  id := s.nextId
  op := o.op
  rel := o.rel
  started := false
  sent := false
  gang := s.g.id
  launch := s.g.launch
  unit := s.g.unit
  wg := s.g.wg
  part := s.g.part
  asid := s.g.asid
  core := s.g.core
  counter := o.counter
  h := o.h
  b := o.b
  n := o.n
  desc := o.desc
  fmt := groupWords s o
  mode := s.p.mode
  pc := s.p.pc
  serial := s.p.serial
  clock := s.p.clock
  lgang := gangIndex (curLaunch s) s.g
  lane := lowest s.p.members
  lineage := s.p.members
  issueKey := curKey s
  writeKey := key3 (s.p.clock.toNat + orderWeight o) (gangIndex (curLaunch s) s.g) (lowest s.p.members)
  view := if detNow s then some (curView s) else none
  turn := if detNow s then s.p.lastTurn else none
  upto := s.nextId
  phase := .table
  progress := 0
  suspended := false
  delivered := false
  abandoned := false
  data := none
  drained := false
  shadow := none
  recorded := false
  prio := (curLaunch s).prio
  entered := 0
  order := 0

/-- The command enters the dependency table and its counter counts it; the split never again presents a key at or below its
own (R57). -/
def enterCmd (o : Order) (s : State) : State :=
  { s with
    cmds := s.cmds ++ [cmdOfOrder o s]
    nextId := s.nextId + 1
    p := { s.p with lastCmd := if detNow s then some (curKey s) else s.p.lastCmd } }

/-- A collective names a descriptor for which no outcome is stated (R1; log entry 99). -/
def orderVoid (o : Order) (s : State) : Bool := decide (o.op = .coll) && decide (collRead s o.desc = .void)

/-- The command is issued; one that is as if not issued leaves no trace (R1). -/
def issueCmd (o : Order) (s : State) : State := if orderVoid o s then s else enterCmd o s

/-- What a `.r` variant does once it is admitted: in a deterministic launch it publishes; it enters the table. In a free launch the split
runs on, and the command performs its release before it leaves the table (R263). -/
def releasePerform (word : BitVec 32) (o : Order) (s : State) : State :=
  publishingTurn word (fun _ => []) (fun s => finishTurn (orderWeight o) (issueCmd o s)) s

/-- Issues an engine command with its scalar groups `srcs`. -/
def engineIssue (i : Instr) (srcs : List Nat) (order : State → Order) (s : State) : State :=
  let o := order s
  issue { Form.plain (wordOf (encode i)) (orderWeight o) with
      barred := true
      bad := if wellFormed i then none else some 0x03
      srcs := []
      addrs := srcs.map fun n => (codeS n, false)
      irrevocable := true
      turn := o.rel }
    (orderCheck o)
    (fun s =>
      if o.rel then takePublishing i inLineage (fun _ => []) (releasePerform (wordOf (encode i)) o) s
      else finishAlone (orderWeight o) (issueCmd o s)) s

/-- Scalar registers n to n + m − 1. -/
def groupRegs (n : BitVec 6) (m : Nat) : List Nat := countFrom n.toNat m
def groupVals (s : State) (n : BitVec 6) (m : Nat) : List Word := (groupRegs n m).map (getS s)

/-- The command of each form, from the registers of the split at issue. -/
def engineOrder (s : State) : Instr → Option Order
  | .cp o => some { op := .cp, rel := false, counter := o.k.toNat, h := 0, b := 0, n := 0, desc := groupVals s o.d 5, fmt := [] }
  | .cpR o => some { op := .cp, rel := true, counter := o.k.toNat, h := 0, b := 0, n := 0, desc := groupVals s o.d 5, fmt := [] }
  | .cpX o => some { op := .cpx, rel := false, counter := o.k.toNat, h := 0, b := 0, n := 0, desc := groupVals s o.d 6, fmt := [] }
  | .cpXR o => some { op := .cpx, rel := true, counter := o.k.toNat, h := 0, b := 0, n := 0, desc := groupVals s o.d 6, fmt := [] }
  | .gat o => some { op := .gat, rel := false, counter := o.k.toNat, h := o.h.toNat, b := 0, n := 0, desc := groupVals s o.d 4
                     fmt := [] }
  | .gatR o => some { op := .gat, rel := true, counter := o.k.toNat, h := o.h.toNat, b := 0, n := 0, desc := groupVals s o.d 4
                      fmt := [] }
  | .scat o => some { op := .scat, rel := false, counter := o.k.toNat, h := o.h.toNat, b := 0, n := 0, desc := groupVals s o.d 4
                      fmt := [] }
  | .scatR o => some { op := .scat, rel := true, counter := o.k.toNat, h := o.h.toNat, b := 0, n := 0, desc := groupVals s o.d 4
                       fmt := [] }
  | .coll o => some { op := .coll, rel := false, counter := o.k.toNat, h := 0, b := 0, n := 0, desc := groupVals s o.d 5, fmt := [] }
  | .collR o => some { op := .coll, rel := true, counter := o.k.toNat, h := 0, b := 0, n := 0, desc := groupVals s o.d 5, fmt := [] }
  | .mloop o => some { op := .mloop, rel := false, counter := o.k.toNat, h := 0
                       b := wordNat (groupVals s o.d 8) 6 % 8
                       n := (shapeOf (bits (wordNat (groupVals s o.d 8) 5) 0 4)).elim 0 fun x => x.2.2
                       desc := groupVals s o.d 8, fmt := groupVals s o.f 4 }
  | .maccZ o => some { op := .maccZ, rel := false, counter := o.k.toNat, h := 0, b := o.b.toNat, n := o.n1.toNat + 1, desc := []
                       fmt := [] }
  | .maccZR o => some { op := .maccZ, rel := true, counter := o.k.toNat, h := 0, b := o.b.toNat, n := o.n1.toNat + 1, desc := []
                        fmt := [] }
  | .maccLd o => some { op := .maccLd, rel := false, counter := o.k.toNat, h := 0, b := o.b.toNat, n := o.n1.toNat + 1
                        desc := groupVals s o.d 2, fmt := [] }
  | .maccLdR o => some { op := .maccLd, rel := true, counter := o.k.toNat, h := 0, b := o.b.toNat, n := o.n1.toNat + 1
                         desc := groupVals s o.d 2, fmt := [] }
  | .maccSt o => some { op := .maccSt, rel := false, counter := o.k.toNat, h := 0, b := o.b.toNat, n := o.n1.toNat + 1
                        desc := groupVals s o.d 2, fmt := [] }
  | .maccStR o => some { op := .maccSt, rel := true, counter := o.k.toNat, h := 0, b := o.b.toNat, n := o.n1.toNat + 1
                         desc := groupVals s o.d 2, fmt := [] }
  | _ => none

/-- A command without operands, for forms that issue none. -/
def noOrder : Order where
  op := .cp
  rel := false
  counter := 0
  h := 0
  b := 0
  n := 0
  desc := []
  fmt := []

/-- Issues the command of an instruction. -/
def engineOf (i : Instr) (srcs : List Nat) (s : State) : State :=
  engineIssue i srcs (fun s => (engineOrder s i).getD noOrder) s

/-- What a `.r` variant that has waited for its turn does when it is admitted. -/
def relAdmitted (i : Instr) (s : State) : State :=
  match engineOrder s i with
  | some o => releasePerform (wordOf (encode i)) o s
  | none => s

/-! ### The commands -/

/-- R267: a strided copy. -/
def execCp (o : OpE) (s : State) : Host.Outcome State Fault Refusal := .next (engineOf (.cp o) (groupRegs o.d 5) s)

/-- R263, R267: a copy after a release, or after a publishing turn. -/
def execCpR (o : OpE) (s : State) : Host.Outcome State Fault Refusal := .next (engineOf (.cpR o) (groupRegs o.d 5) s)

/-- R268: a copy to or from a peer. -/
def execCpX (o : OpE) (s : State) : Host.Outcome State Fault Refusal := .next (engineOf (.cpX o) (groupRegs o.d 6) s)

/-- R263, R268: a peer copy after a release, or after a publishing turn. -/
def execCpXR (o : OpE) (s : State) : Host.Outcome State Fault Refusal := .next (engineOf (.cpXR o) (groupRegs o.d 6) s)

/-- R269: gathers rows by an index tile. -/
def execGat (o : OpHE) (s : State) : Host.Outcome State Fault Refusal := .next (engineOf (.gat o) (groupRegs o.d 4) s)

/-- R263, R269: a gather after a release, or after a publishing turn. -/
def execGatR (o : OpHE) (s : State) : Host.Outcome State Fault Refusal := .next (engineOf (.gatR o) (groupRegs o.d 4) s)

/-- R269: scatters rows by an index tile. -/
def execScat (o : OpHE) (s : State) : Host.Outcome State Fault Refusal := .next (engineOf (.scat o) (groupRegs o.d 4) s)

/-- R263, R269: a scatter after a release, or after a publishing turn. -/
def execScatR (o : OpHE) (s : State) : Host.Outcome State Fault Refusal := .next (engineOf (.scatR o) (groupRegs o.d 4) s)

/-- R270: a collective. -/
def execColl (o : OpE) (s : State) : Host.Outcome State Fault Refusal := .next (engineOf (.coll o) (groupRegs o.d 5) s)

/-- R263, R270: a collective after a release, or after a publishing turn. -/
def execCollR (o : OpE) (s : State) : Host.Outcome State Fault Refusal := .next (engineOf (.collR o) (groupRegs o.d 5) s)

/-- R271 to R273: K steps of a block product. -/
def execMloop (o : OpMloop) (s : State) : Host.Outcome State Fault Refusal :=
  .next (engineOf (.mloop o) (groupRegs o.d 8 ++ groupRegs o.f 4) s)

/-- R274: accumulator tiles to +0.0. -/
def execMaccZ (o : OpAcc) (s : State) : Host.Outcome State Fault Refusal := .next (engineOf (.maccZ o) [] s)

/-- R263, R274: the same after a release, or after a publishing turn. -/
def execMaccZR (o : OpAcc) (s : State) : Host.Outcome State Fault Refusal := .next (engineOf (.maccZR o) [] s)

/-- R274: loads accumulator tiles. -/
def execMaccLd (o : OpAccD) (s : State) : Host.Outcome State Fault Refusal := .next (engineOf (.maccLd o) (groupRegs o.d 2) s)

/-- R263, R274: the same after a release, or after a publishing turn. -/
def execMaccLdR (o : OpAccD) (s : State) : Host.Outcome State Fault Refusal :=
  .next (engineOf (.maccLdR o) (groupRegs o.d 2) s)

/-- R274: stores accumulator tiles. -/
def execMaccSt (o : OpAccD) (s : State) : Host.Outcome State Fault Refusal := .next (engineOf (.maccSt o) (groupRegs o.d 2) s)

/-- R263, R274: the same after a release, or after a publishing turn. -/
def execMaccStR (o : OpAccD) (s : State) : Host.Outcome State Fault Refusal :=
  .next (engineOf (.maccStR o) (groupRegs o.d 2) s)

/-! ### Joining (R265, R266, R78) -/

/-- Commands on a counter of the gang at issue that an `ewait` with bound n joins: those issued before it but the n latest. -/
def joined (s : State) (k n upto : Nat) : List Cmd :=
  let l := s.cmds.filter fun c => c.gang == s.g.id && c.counter == k && decide (c.id < upto)
  l.take (l.length - n)

/-- The greatest write key of commands. -/
def latestKey (l : List Cmd) : Option Key := l.foldl (fun m c => optKeyMax m (some c.writeKey)) none

/-- An `ewait` whose counter has fallen completes: in a deterministic launch its last turn key takes in the joined write keys
(R78); in a free one later accesses see the joined writes, so the core's self-invalidating copies go (R95; log entry 34). -/
def ewaitDone (k n upto : Nat) (s : State) : State :=
  let s :=
    if detNow s then { s with p := { s.p with lastTurn := optKeyMax s.p.lastTurn (latestKey (joined s k n upto)) } }
    else dropSelf s.g.core s
  finish 4 s

/-- When the waiting `ewait` began to wait. -/
def ewaitSince (s : State) : Nat :=
  match s.p.wait with
  | .ewait _ _ u => u
  | _ => s.nextId

/-- R266: waits for a counter to fall to n and joins. An engine fault of the counter is taken here (R376). -/
def execEwait (o : OpEw) (s : State) : Host.Outcome State Fault Refusal :=
  .next (
    match deliverable s (.counter o.k.toNat) with
    | some h => deliver h s
    | none => issue { Form.plain (wordOf (encode (.ewait o))) 4 with barred := true }
        (fun s => if counterOf s s.g.id o.k.toNat ≤ o.n.toNat then .ok
          else .wait (.ewait o.k.toNat o.n.toNat (ewaitSince s)))
        (fun s => ewaitDone o.k.toNat o.n.toNat (ewaitSince s) s) s)

/-- The count that `epoll` returns: in a deterministic launch of the commands whose write key is not below the view. -/
def pollCount (s : State) (k : Nat) : Nat :=
  if detNow s then
    (s.cmds.filter fun c => c.gang == s.g.id && c.counter == k && keyLe (curView s) c.writeKey).length
  else counterOf s s.g.id k

/-- R266: reads a counter; in a deterministic launch once the floor has reached the view. -/
def execEpoll (o : OpE) (s : State) : Host.Outcome State Fault Refusal :=
  .next (
    match deliverable s (.counter o.k.toNat) with
    | some h => deliver h s
    | none => issue { Form.plain (wordOf (encode (.epoll o))) 1 with dsts := [codeS o.d.toNat] }
        (fun s => if detNow s && !keyLe (curView s) (curLaunch s).floor then .wait (.view (curView s) (some o.k.toNat)) else .ok)
        (fun s => finish 1 (setS o.d.toNat (BitVec.ofNat 64 (pollCount s o.k.toNat)) s)) s)

end Sys2Proof.Machine
end

