-- ==== Sys2Proof/Machine/EngineSteps.lean ====
section
/-! DEFINITION. What the engines do with their commands (spec/12_isa_engines_system.md R263 to R274; spec/13_scheduling.md R293
to R297; spec/05_memory_hierarchy.md R108, R109; spec/19_faults_execution_memory.md R376 to R378; R391): dispatch, units of
work, passes of the matrix engine, finishing, suspension. -/

namespace Sys2Proof.Machine

/-! ### Places -/

def clusterOf (core : Nat) : Nat := core / 4

def isMatrix (o : EngOp) : Bool :=
  match o with
  | .mloop => true
  | .maccZ => true
  | .maccLd => true
  | .maccSt => true
  | _ => false

/-- Two commands share an engine queue (R297): the copy and the gather engine of a cluster, the collective engine of a die. -/
def sameQueue (a b : Cmd) : Bool :=
  match a.op, b.op with
  | .coll, .coll => dieOf a.core == dieOf b.core
  | .gat, .gat => clusterOf a.core == clusterOf b.core
  | .gat, .scat => clusterOf a.core == clusterOf b.core
  | .scat, .gat => clusterOf a.core == clusterOf b.core
  | .scat, .scat => clusterOf a.core == clusterOf b.core
  | .cp, .cp => clusterOf a.core == clusterOf b.core
  | .cp, .cpx => clusterOf a.core == clusterOf b.core
  | .cpx, .cp => clusterOf a.core == clusterOf b.core
  | .cpx, .cpx => clusterOf a.core == clusterOf b.core
  | _, _ => false

/-- The tiles of an issued command. -/
def Cmd.tileNames (c : Cmd) (out : Bool) : List Nat :=
  let (src, dst) := copyPatterns c.desc
  let x := matOp c.desc c.fmt
  let at' (b : Bool) (a : Word) : List Nat := if b then [tileHandle a] else []
  sortNub (match c.op with
    | .cp => if out then at' dst.tile dst.base else at' src.tile src.base
    | .cpx => if out then at' dst.tile dst.base else at' src.tile src.base
    | .gat => if out then [tileHandle (getAt 0 c.desc 1)] else [c.h]
    | .scat => if out then [] else [tileHandle (getAt 0 c.desc 1), c.h]
    | .mloop => if out then [] else at' x.a.tile x.a.base ++ at' x.b.tile x.b.base
    | .maccLd => if out then [] else at' (accShape c.desc c.n).tile (accShape c.desc c.n).addr
    | .maccSt => if out then at' (accShape c.desc c.n).tile (accShape c.desc c.n).addr else []
    | _ => [])

/-! ### Dispatch (R108, R109, R263, R293, R297) -/

/-- The number of the gang that issued a command, within its workgroup. -/
def issuerNum (s : State) (c : Cmd) : Nat := (gangOf s c.gang).elim 16 fun g => g.num

/-- The state of a tile that a command names. -/
def namedState (s : State) (c : Cmd) (h : Nat) : TileState := (cmdTile s c h).elim .empty fun t => t.state

/-- Every tile of the command admits it. -/
def tilesAdmit (s : State) (c : Cmd) : Bool :=
  ((c.tileNames true).all fun h => decide (outRow (issuerNum s c) (namedState s c h) = .perform))
    && ((c.tileNames false).all fun h => decide (inRow (namedState s c h) = .perform))

/-- In a free launch what the engine's accesses come after has performed: the acquires of the issuing split, what its own release comes
after, and the releases of earlier commands (R86, R95; R263, step 3; log entry 91). -/
def forkReady (s : State) (c : Cmd) : Bool :=
  (launchOf s c.launch).det
    || !((s.reqs.any fun q => q.gang == c.gang && meets q.lanes c.lineage && decide (q.id < c.upto) && !q.settled && q.acquire)
      || releaseWaits s false c || releaseOwed s false c.gang c.lineage c.id)

/-- Entries of a cluster's matrix reservation table. -/
def matrixHeld (s : State) (cluster : Nat) : Nat :=
  (s.cmds.filter fun x => decide (x.phase = .matrix) && !x.recorded && clusterOf x.core == cluster).length

/-- An operation recorded for reissue waits for an entry of a cluster's table: it comes before every other command of its cluster
group (R293, R304). -/
def recordedAt (s : State) (cluster : Nat) : Option Cmd :=
  findFirst (fun x => x.recorded && clusterOf x.core == cluster && (gangOf s x.gang).elim false fun g => g.resident) s.cmds

/-- The engine has room for the command: a started one counts until it has finished (R297; log entry 101). -/
def queueRoom (s : State) (c : Cmd) : Bool :=
  if isMatrix c.op then
    decide (matrixHeld s (clusterOf c.core) < Config.matrixEntries)
      && !((recordedAt s (clusterOf c.core)).any fun x => x.launch == c.launch && x.unit == c.unit)
  else
    decide ((s.cmds.filter fun x => decide (x.phase = .queued) && sameQueue x c).length < Config.queueEntries)

/-- A command in the dependency table that may leave it. -/
def admitted (s : State) (c : Cmd) : Bool :=
  let l := launchOf s c.launch
  decide (c.phase = .table) && tilesAdmit s c && forkReady s c && queueRoom s c
    && (!l.det || keyLe c.issueKey (wgFloor s l c.wg))
    && ((gangOf s c.gang).elim true fun g => g.resident)

/-- The command is the first of its core's admitted ones: the older, or in a deterministic launch that of the lower issue
key. -/
def leavesFirst (s : State) (c : Cmd) : Bool :=
  !(s.cmds.any fun x => x.core == c.core && x.id != c.id && admitted s x
    && (if (launchOf s c.launch).det && x.launch == c.launch then keyLt x.issueKey c.issueKey else decide (x.id < c.id)))

/-- The tile transitions of a command that leaves the table. -/
def takeTiles (c : Cmd) (tag : Nat) (s : State) : State :=
  let det := (launchOf s c.launch).det
  let s := (c.tileNames true).foldl (fun s h =>
    mapTile c.launch c.wg h
    (fun t => { t with state := .filling tag, fill := if det then some (c.writeKey, tag) else none, reads := [] })
    (landTile c.gang h s)) s
  (c.tileNames false).foldl (fun s h => mapTile c.launch c.wg h (drainOne det c) s) s
where
  /-- one more operation reads the tile; operations of keys below its issue key are read no more by any lookup (R409) -/
  drainOne (det : Bool) (c : Cmd) (t : Tile) : Tile :=
    { t with
      state := match t.state with
        | .draining n => .draining (n + 1)
        | _ => .draining 1
      reads := if det then (c.writeKey, false) :: t.reads.filter (fun e => keyLe c.issueKey e.1 || !e.2) else [] }

/-- An operation recorded for reissue finds room in the table of its cluster (R293, R304). -/
def reenters (s : State) (c : Cmd) : Bool :=
  c.recorded && decide (matrixHeld s (clusterOf c.core) < Config.matrixEntries)
    && (gangOf s c.gang).elim false fun g => g.resident

/-- A recorded operation re-enters the reservation table ahead of every other command of its cluster group (R304). -/
def reenterLoop (c : Cmd) (s : State) : State :=
  let others := (s.cmds.filter fun x => x.launch == c.launch && x.unit == c.unit && decide (x.phase = .matrix) && !x.recorded).map
    fun x => x.entered
  mapCmd c.id (fun c => { c with recorded := false, order := 0, entered := others.foldl min s.cycle }) s

/-- ENGINE_DISPATCH (R109, R263): a command leaves the dependency table for its queue, or for the matrix reservation table. A
FILLING tile's tag is a free value (R263). -/
def execEngineDispatch (s : State) : Host.Outcome State Fault Refusal :=
  .next (onNum (fun id s =>
    match cmdOf s id with
    | none => s
    | some c =>
      if reenters s c then reenterLoop c s
      else if admitted s c && leavesFirst s c then
        { mapCmd id (fun c => { c with
            phase := if isMatrix c.op then .matrix else .queued
            entered := s.cycle
            order := s.nextId })
            (takeTiles c (Config.freeByte s.nextId).toNat s) with nextId := s.nextId + 1 }
      else s) s)

/-! ### Units of work (R377) -/

/-- Units of a command: runs, rows, chunks; K-steps for an mloop. -/
def unitCount (c : Cmd) : Nat :=
  match c.op with
  | .cp => (copyPatterns c.desc).1.n2 * (copyPatterns c.desc).1.n1
  | .cpx => (copyPatterns c.desc).1.n2 * (copyPatterns c.desc).1.n1
  | .gat => rowCount c.desc
  | .scat => rowCount c.desc
  | .coll => if collKind c.desc = 1 then c.fmt.length - 1 else 1
  | .mloop => (matOp c.desc c.fmt).steps
  | .maccZ => 1
  | .maccLd => (accShape c.desc c.n).rows
  | .maccSt => (accShape c.desc c.n).rows

/-- The command has done all its units. -/
def workDone (c : Cmd) : Bool := decide (unitCount c ≤ c.progress)

/-- Run u of a pattern. -/
def Pattern.run (p : Pattern) (u : Nat) : Word := p.addr (u / p.n1) (u % p.n1)

/-- Bytes of one side of a copy. -/
def sideBytes (s : State) (c : Cmd) (p : Pattern) (u : Nat) : List Byte :=
  let a := p.run u
  if p.tile then tileRaw s c (tileHandle p.base) (tileOffset a) p.len else engBytes s c a p.len

def sideStore (c : Cmd) (p : Pattern) (u : Nat) (data : List Byte) (s : State) : State :=
  let a := p.run u
  if p.tile then writeTile c.launch c.wg (tileHandle p.base) (tileOffset a) data s else engStore c a data s

def sideAccess (p : Pattern) (u : Nat) : List (Word × Nat) := if p.tile then [] else [(p.run u, p.len)]

/-- Run u of a copy (R267). -/
def copyUnit (c : Cmd) (u : Nat) : UnitWork where
  reads := sideAccess (copyPatterns c.desc).1 u
  writes := sideAccess (copyPatterns c.desc).2 u
  run := fun s => sideStore c (copyPatterns c.desc).2 u (sideBytes s c (copyPatterns c.desc).1 u) s

/-- Row j of a gather or scatter: the offset of its global row, from its index (R269). -/
def rowOffset (s : State) (c : Cmd) (j : Nat) : Nat :=
  let x := leNat (tileRaw s c c.h (4 * j) 4)
  offsetOf (getAt 0 c.desc 0) + x * wordNat c.desc 3

/-- Row j of a gather or scatter. -/
def rowUnit (s : State) (c : Cmd) (j : Nat) : Except EngStop UnitWork :=
  let n := rowLength c.desc
  let o := rowOffset s c j
  let buf := getAt 0 c.desc 1
  let at' := tileOffset buf + j * n
  if 2 ^ 53 < o + n then .error (.fault 0x41 0 (getAt 0 c.desc 0 + BitVec.ofNat 64 (o - offsetOf (getAt 0 c.desc 0))))
  else
    let va := homeVA s c o
    .ok (if c.op = .gat then
        { reads := [(va, n)], writes := []
          run := fun s => writeTile c.launch c.wg (tileHandle buf) at' (engBytes s c va n) s }
      else
        { reads := [], writes := [(va, n)]
          run := fun s => engStore c va (tileRaw s c (tileHandle buf) at' n) s })

/-! ### Collectives (R270) -/

/-- The rank of this device in a collective. -/
def collRank (s : State) (c : Cmd) : Nat := rankOf (partOf s c.part).node (collNodes c)

/-- Bytes of an element. -/
def collSize (c : Cmd) : Nat := (collTy (collType c.desc)).elim 1 fun t => t.width / 8

/-- Bytes that a member puts in. -/
def collInBytes (c : Cmd) : Nat := collIn c.desc (collNodes c).length * collSize c

/-- The collective needs what other members put in. -/
def needsOthers (s : State) (c : Cmd) : Bool :=
  decide (1 < (collNodes c).length) && !(collKind c.desc == 3 && collRoot c.desc == collRank s c)

/-- The input of member q: this device's own from memory, another's from what has arrived, in rising rank; of a broadcast
only the root's arrives. -/
def memberInput (s : State) (c : Cmd) (q : Nat) : List Byte :=
  let r := collRank s c
  let n := collInBytes c
  if q = r then engBytes s c (getAt 0 c.desc 1) n
  else
    let i := if collKind c.desc = 3 then 0 else if q < r then q else q - 1
    takePad n ((c.data.getD []).drop (i * n))

/-- Element j of an input. -/
def inputElem (c : Cmd) (l : List Byte) (j : Nat) : Nat := leNat ((l.drop (j * collSize c)).take (collSize c))

/-- The fold of element j over the members in rising rank; floats round to nearest even with subnormals kept. -/
def foldElem (c : Cmd) (ins : List (List Byte)) (j : Nat) : Nat :=
  let t := (collTy (collType c.desc)).getD (Ty.n 32)
  match ins with
  | [] => 0
  | l :: r => r.foldl (fun x y => atomicOp (collOp c.desc) t 0 false x (inputElem c y j)) (inputElem c l j)

/-- The output bytes of chunk u. -/
def collChunk (s : State) (c : Cmd) (u : Nat) : List Byte :=
  let g := (collNodes c).length
  let n := collCount c.desc
  let fold (base : Nat) : List Byte :=
    let ins := (countFrom 0 g).map (memberInput s c)
    (countFrom base n).flatMap fun j => leBytes (collSize c) (foldElem c ins j)
  match collKind c.desc with
  | 0 => fold 0
  | 1 => memberInput s c u
  | 2 => fold (collRank s c * n)
  | _ => memberInput s c (collRoot c.desc)

/-- Chunk u of a collective takes this member's own input: of a broadcast only the root's is read. -/
def readsOwn (s : State) (c : Cmd) (u : Nat) : Bool :=
  match collKind c.desc with
  | 1 => u == collRank s c
  | 3 => collRoot c.desc == collRank s c
  | _ => true

/-- Chunk u of a collective. -/
def collUnit (s : State) (c : Cmd) (u : Nat) : UnitWork :=
  let n := collCount c.desc * collSize c
  let dst := getAt 0 c.desc 2 + BitVec.ofNat 64 (u * n)
  { reads := if readsOwn s c u then [(getAt 0 c.desc 1, collInBytes c)] else []
    writes := [(dst, n)]
    run := fun s => engStore c dst (collChunk s c u) s }

/-- This member puts something in: every one, of a broadcast the root alone. -/
def putsIn (s : State) (c : Cmd) : Bool := collKind c.desc != 3 || collRoot c.desc == collRank s c

/-- The other members whose input this one needs. -/
def contributors (s : State) (c : Cmd) : List Nat :=
  (if collKind c.desc = 3 then [getAt 0 (collNodes c) (collRoot c.desc)] else collNodes c).filter fun n => n != (partOf s c.part).node

/-- A request of a command to a member. -/
def cmdRequest (s : State) (c : Cmd) (node cls : Nat) (va : Word) (n : Nat) (ops : List (Nat × Word × FabricOp)) : RemoteReq :=
  { mkRemote s node (BitVec.ofNat 2 cls) 0 with
    gang := c.gang, launch := c.launch, part := c.part, core := c.core, lanes := c.lineage, rest := 1, pc := c.pc
    serial := c.serial, clock := c.clock, va := va, size := n, ops := ops, cmd := some c.id }

/-- This member's input leaves for the other members, once. -/
def sendInput (c : Cmd) (s : State) : State :=
  let d := engBytes s c (getAt 0 c.desc 1) (collInBytes c)
  let tag := BitVec.ofNat 64 ((getAt 0 c.fmt 0).toNat * 2 ^ 16 + collTag c.desc)
  let others := if putsIn s c then (collNodes c).filter fun n => n != (partOf s c.part).node else []
  others.foldl (fun s n =>
      sendRemote (cmdRequest s c n (bits (wordNat c.desc 3) 20 2) 0 d.length [(0, userVA n 0, .input tag d)]) s)
    (mapCmd c.id (fun c => { c with sent := true }) (fillRead c (getAt 0 c.desc 1, d.length) s))

/-- A step of a collective: its input goes out first; a chunk is written once the others' inputs have arrived. -/
def collStep (c : Cmd) (s : State) : Except EngStop State :=
  if !c.sent && decide (1 < (collNodes c).length) then
    match (if putsIn s c then engReadCheck s c 0xC0 (getAt 0 c.desc 1) (collInBytes c) else none) with
    | some x => .error x
    | none => .ok (sendInput c s)
  else if needsOthers s c && c.data.isNone then .error .wait
  else
    match runUnit c 0xC0 (collUnit s c c.progress) s with
    | .error x => .error x
    | .ok s => .ok (mapCmd c.id (fun c => { c with progress := c.progress + 1 }) s)

/-! ### Copies to and from peers (R268) -/

/-- A request to the peer for run u. -/
def farRequest (s : State) (c : Cmd) (va : Word) (n : Nat) (ops : List (Nat × Word × FabricOp)) : RemoteReq :=
  cmdRequest s c (peerOf c.desc) (classOf c.desc) va n ops

/-- The accesses of n bytes at a peer's offset, cut at lines: pushed bytes as stores, as publications in domain scope; pulled
bytes as loads, at the view in domain scope. -/
def farOps (s : State) (c : Cmd) (va : Word) (n : Nat) (data : List Byte) : List (Nat × Word × FabricOp) :=
  let domain := decide ((launchOf s c.launch).dscope = 2)
  let off := offsetOf va
  (pieces off n).map fun e =>
    let a := userVA (peerOf c.desc) e.1
    if pulls c.desc then
      (0, a, match domain, c.view with
        | true, some v => .loadAt v c.turn
        | _, _ => .load false)
    else
      let d := (data.drop (e.1 - off)).take e.2
      (0, a, if domain then .publication c.writeKey d else .store d)

/-- The copy stays on this device: its peer is this node. -/
def nearCopy (s : State) (c : Cmd) : Bool := peerOf c.desc == (partOf s c.part).node

/-- A copy of class O comes after the class O accesses to its peer, which may be its own node, that its gang issued before it (R92,
R268). -/
def inOrder (s : State) (c : Cmd) : Bool :=
  classOf c.desc == 1
    && ((s.remotes.any fun r => holdsBack c.gang (peerOf c.desc) r && decide (r.id < c.id))
      || (nearCopy s c && s.reqs.any fun q => q.gang == c.gang && q.cls == 1 && decide (q.id < c.id) && !q.settled)
      || copyPending s c.gang (peerOf c.desc) c.id)

/-- A step of a copy to or from a peer: one run at a time. -/
def peerStep (c : Cmd) (s : State) : Except EngStop State :=
  let u := c.progress
  let (src, dst) := copyPatterns c.desc
  if inOrder s c then .error .wait
  else if nearCopy s c then
    let home (p : Pattern) : Pattern := if p.tile then p else { p with base := homeVA s c (offsetOf p.base) }
    match runUnit c 0xC0 { reads := sideAccess (home src) u, writes := sideAccess (home dst) u
                           run := fun s => sideStore c (home dst) u (sideBytes s c (home src) u) s } s with
    | .error x => .error x
    | .ok s => .ok (advance c.id s)
  else if s.remotes.any fun r => decide (r.cmd = some c.id) then .error .wait
  else
    match c.data with
    | some d =>
      if pulls c.desc then
        match runUnit c 0xC0 { reads := [], writes := sideAccess dst u
                               run := fun s => sideStore c dst u (takePad dst.len d) s } s with
        | .error x => .error x
        | .ok s => .ok (advance c.id s)
      else .ok (advance c.id s)
    | none =>
      if pulls c.desc then
        .ok (sendRemote (farRequest s c (src.run u) src.len (farOps s c (src.run u) src.len [])) s)
      else
        match firstStop (fun e => engReadCheck s c 0xC0 e.1 e.2) (sideAccess src u) with
        | some x => .error x
        | none =>
          .ok (sendRemote (farRequest s c (dst.run u) dst.len (farOps s c (dst.run u) dst.len (sideBytes s c src u)))
            ((sideAccess src u).foldl (fun s e => fillRead c e s) s))

/-! ### One unit of any command -/

/-- The next unit of a command. -/
def engTry (c : Cmd) (s : State) : Except EngStop State :=
  let one (w : UnitWork) : Except EngStop State :=
    match runUnit c 0xC0 w s with
    | .error x => .error x
    | .ok s => .ok (advance c.id s)
  match c.op with
  | .cp => one (copyUnit c c.progress)
  | .cpx => peerStep c s
  | .gat => (match rowUnit s c c.progress with
    | .error x => .error x
    | .ok w => one w)
  | .scat => (match rowUnit s c c.progress with
    | .error x => .error x
    | .ok w => one w)
  | .coll => collStep c s
  | .mloop => mloopStep c s
  | .maccZ => .ok (advance c.id (setAccum c.launch c.unit (putTiles c.b c.n [] (accumOf s c.launch c.unit)) s))
  | .maccLd => one (accLoadRow c (accShape c.desc c.n) c.progress)
  | .maccSt => one (accStoreRow c (accShape c.desc c.n) c.progress)

/-- What a stop makes the engine do: ask the host for a line, ask a host to give one back; a fault is left to the step that
suspends the command. -/
def engWaits (c : Cmd) (x : EngStop) (s : State) : State :=
  match x with
  | .ask line own => cxlAsk (partOf s c.part).port line own s
  | .recall r =>
    let s := ensureLine r.part r.asid r.va (countMiss c.launch r s)
    beginPending r [] (hostPorts (outDirOf s r) (fun h => h == 2)) true .none s
  | .noRoom r va => engStalls c r va s
  | _ => s
where
  /-- the write waits at its home, with one record of the granule's first cause (R369) -/
  engStalls (c : Cmd) (r : LineRef) (va : Word) (s : State) : State :=
    if s.noted.contains (r, .num c.id) then park r (.num c.id) s
    else
      let l := launchOf s c.launch
      park r (.num c.id) (faultQueue c.part (recordHead { kind := 2, cause := firstCause s c.part c.asid r.va, sub := 0, pc := c.pc, va := va
                                                          lanes := 0, serial := c.serial, clock := c.clock, pnode := 0, n := 0, word := 0 }
        { gangid := c.lgang % (l.nunit * l.wpc * l.ngang), wg := c.wg, asid := c.asid, part := c.part })
        { s with noted := (r, .num c.id) :: s.noted })

/-- The next unit of a command, where it is admitted. -/
def runOne (id : Nat) (s : State) : State :=
  match cmdOf s id with
  | none => s
  | some c =>
    if workDone c then s
    else
      match engTry c s with
      | .error x => engWaits c x s
      | .ok s => s

/-! ### Finishing (R108, R263, R265) -/

/-- An operation has finished its reads of the tiles it drains; by the order of keys at its write key (log entry 88). -/
def releaseInputs (c : Cmd) (s : State) : State :=
  if c.drained then s
  else
    (c.tileNames false).foldl (fun s h => mapTile c.launch c.wg h (undrain c.writeKey) s)
      (mapCmd c.id (fun c => { c with drained := true }) s)
where
  undrain (w : Key) (t : Tile) : Tile :=
    { t with
      state := match t.state with
        | .draining n => if n ≤ 1 then .ready else .draining (n - 1)
        | x => x
      reads := t.reads.map fun e => if e.1 = w then (w, true) else e }

/-- The command's output tiles become READY; by the order of keys of a deterministic launch at its write key (R110). -/
def fillOutputs (c : Cmd) (s : State) : State :=
  (c.tileNames true).foldl (fun s h => mapTile c.launch c.wg h (fun t => { sealTile t with fill := t.fill }) s) s

/-- The command has its writes performed: none waits in a late-fault queue, nor a transfer for its response (R386), nor, in a free launch, a
write at a line whose copies have not answered (R97). -/
def writesDone (s : State) (c : Cmd) : Bool :=
  !(s.late.any fun e => decide (e.reqId = some c.id)) && !(s.remotes.any fun r => decide (r.cmd = some c.id)) && (keyedCmd s c || !unsettledLine s c.part)

/-- Every command before it in its queue has begun (R297). -/
def mayStart (s : State) (c : Cmd) : Bool :=
  c.started || isMatrix c.op
    || !(s.cmds.any fun x => decide (x.phase = .queued) && !x.started && sameQueue x c && decide (x.order < c.order))

/-- A command that has begun can go on. -/
def running (c : Cmd) : Bool := (decide (c.phase = .queued) || decide (c.phase = .matrix)) && !c.suspended && !c.recorded

/-- An operation on the accumulator tiles of the unit is in progress: they stay where they are until it finishes (R301, R303). One that
is suspended keeps no tiles of a unit that is away (log entry 106). -/
def loopRuns (s : State) (launch i : Nat) : Bool :=
  s.cmds.any fun c => c.launch == launch && c.unit == i && decide (c.phase = .matrix)
    && decide (0 < c.progress) && !workDone c && !c.suspended

/-- Who loses what a unit kept (R375): the first of its gangs, for the record. -/
def unitParty (s : State) (l : Launch) (i : Nat) : Party :=
  match findFirst (fun e => e.1.launch == l.id && e.1.unit == i) (allGangs s) with
  | some e => partyOf e.1
  | none => { gangid := 0, wg := 0, asid := l.asid, part := l.part }

/-- The home controllers refuse the accumulator save area of a unit. -/
def accumRefused (s : State) (launch i : Nat) (w : Bool) : Bool :=
  let l := launchOf s launch
  (unitOf l i).any fun u => placesRefused s l.part l.asid w (accumArea l u)

/-- The accumulator tiles of a unit go to its save area; where that is refused they are lost, and the launch ends (R375). -/
def keepAccum (launch i : Nat) (s : State) : State :=
  if accumRefused s launch i true then contextLost launch (launchOf s launch).part (unitParty s (launchOf s launch) i) s
  else saveAccum launch i s

/-- A unit that is away gives up the accumulator SRAM that it holds: its tiles are saved (R301 step 5, R303). -/
def leaveAccum (launch i : Nat) (s : State) : State :=
  let away := (unitOf (launchOf s launch) i).any fun u => decide (u.phase = .swapped)
  if away && !loopRuns s launch i && (s.loaded.any fun e => e.2 == (launch, i)) then
    { keepAccum launch i s with loaded := s.loaded.filter fun e => e.2 != (launch, i) }
  else s

/-- The command finishes: its tiles move, and its counter retires what it can (R265). -/
def finishCmd (c : Cmd) (s : State) : State :=
  leaveAccum c.launch c.unit (mapCmd c.id (fun c => { c with phase := .finished, shadow := none }) (fillOutputs c (releaseInputs c s)))

/-- A running collective that a member keeps from its end (R391). -/
def collStops (s : State) (c : Cmd) : Bool :=
  decide (c.op = .coll) && running c && !(workDone c && writesDone s c) && (deadMember s c).isSome

/-- ENGINE_FINISH (R263, R297): the engine begins the command in its turn and does its next unit, and the command finishes once
all its writes have performed. What the other members of a collective put in arrives with the step. -/
def execEngineFinish (s : State) : Host.Outcome State Fault Refusal :=
  .next (match s.arg with
    | .num id => go id s
    | .answer id r => go id (mapCmd id (fun c => if c.op = .coll then { c with data := some r.data } else c) s)
    | _ => s)
where
  go (id : Nat) (s : State) : State :=
    match cmdOf s id with
    | none => s
    | some c =>
      if !running c || !mayStart s c then s
      else
        let s := mapCmd id (fun c => { c with started := true }) s
        if collStops s c then stopColl c 0 s else
        if !engViewReady s c then s else
        let s := if isMatrix c.op then s else runOne id s
        match cmdOf s id with
        | none => s
        | some c => if workDone c && writesDone s c then finishCmd c s else s

/-- ENGINE_READS_DONE (R108): a command that has read all it reads lets go of the tiles it drains. -/
def execEngineReadsDone (s : State) : Host.Outcome State Fault Refusal :=
  .next (onNum (fun id s =>
    match cmdOf s id with
    | none => s
    | some c => if running c && workDone c then releaseInputs c s else s) s)

/-- EWAIT_COMPLETE (R266): a waiting `ewait` whose counter has fallen completes; one whose weight would overflow the clock is issued
again, and traps (R52). -/
def execEwaitComplete (s : State) : Host.Outcome State Fault Refusal :=
  .next (onNum2 (fun g l s => withSplit g l (fun s =>
    match s.p.wait with
    | .ewait k n u => if counterOf s s.g.id k ≤ n ∧ !overflows (4 + edgesBehind s) s then ewaitDone k n u s else s
    | _ => s) s) s)

/-! ### Suspension (R376, R378, R391) -/

/-- The next unit of a running command is refused. -/
def nextFault (s : State) (c : Cmd) : Option (BitVec 8 × BitVec 8 × Word) :=
  if running c && engViewReady s c && !workDone c then
    match engTry c s with
    | .error (.fault cause sub va) => some (cause, sub, va)
    | _ => none
  else none

/-- ENGINE_ACCESS_FAULT (R376): a command whose access its home refuses, or whose publication finds no room, is suspended. -/
def execEngineAccessFault (s : State) : Host.Outcome State Fault Refusal :=
  .next (onNum (fun id s =>
    match cmdOf s id with
    | none => s
    | some c =>
      if c.op = .mloop then s
      else
        match nextFault s c with
        | some (cause, sub, va) => suspendCmd id cause sub va 0 false s
        | none => s) s)

/-- An mloop goes back to its start: the shadow returns to the accumulator tiles (R295, R378). -/
def restoreShadow (c : Cmd) (s : State) : State :=
  let x := matOp c.desc c.fmt
  let s := match c.shadow with
    | some sh => setAccum c.launch c.unit (putTiles x.acc x.use sh (accumOf s c.launch c.unit)) s
    | none => s
  mapCmd c.id (fun c => { c with progress := 0, shadow := none }) s

/-- MATRIX_OPERAND_FAULT (R378): a refused operand fetch stops an mloop, which will run again from step 0. -/
def execMatrixOperandFault (s : State) : Host.Outcome State Fault Refusal :=
  .next (onNum (fun id s =>
    match cmdOf s id with
    | none => s
    | some c =>
      if c.op ≠ .mloop then s
      else
        match nextFault s c with
        | some (cause, sub, va) => suspendCmd id cause sub va 0 false (restoreShadow c s)
        | none => s) s)

/-- The collective waits for what others put in. -/
def awaitsOthers (s : State) (c : Cmd) : Bool := decide (c.op = .coll) && running c && needsOthers s c && c.data.isNone

/-- COLLECTIVE_TIMEOUT (R391): a member's input has not come within RTIME, or the dead-peer bit of some member is set: the collective
stops here, and the record names the lowest. The class O requests held back for a silent member fail (R386). -/
def execCollectiveTimeout (s : State) : Host.Outcome State Fault Refusal :=
  .next (onNum2 (fun id node s =>
    match cmdOf s id with
    | none => s
    | some c =>
      if awaitsOthers s c && (contributors s c).contains node then
        stopColl c node (failSilent
          (s.remotes.filter fun x => x.gang == c.gang && x.node == node && x.heldBack && decide (x.rest ≠ 0)) (markDead c.part node s))
      else if collStops s c then stopColl c node s
      else s) s)

/-! ### The matrix engine (R294 to R296) -/

/-- Accumulator ranges of two commands of one cluster group overlap. -/
def overlapAcc (a b : Cmd) : Bool :=
  a.launch == b.launch && a.unit == b.unit && decide (a.b < b.b + b.n ∧ b.b < a.b + a.n)

/-- `a` performs before `b` where their ranges overlap (R273). -/
def beforeAcc (s : State) (a b : Cmd) : Bool :=
  if (launchOf s a.launch).det then keyLt a.issueKey b.issueKey else decide (a.order < b.order)

/-- An entry that the arbiter may grant. -/
def eligibleEntry (s : State) (c : Cmd) : Bool :=
  let l := launchOf s c.launch
  decide (c.phase = .matrix) && !c.suspended && !c.recorded && !workDone c && engViewReady s c
    && (!l.det || keyLe c.issueKey (unitFloor s l c.unit))
    && !(s.cmds.any fun x => decide (x.phase = .matrix) && x.id != c.id && overlapAcc x c && beforeAcc s x c)

/-- A unit has left its cores. -/
def unitAway (s : State) (launch i : Nat) : Bool := (unitOf (launchOf s launch) i).any fun u => decide (u.phase = .swapped)

/-- An operation of the cluster has begun and not ended: its tiles stay loaded (R296), unless it is suspended and its unit away (log
entry 106). -/
def midOp (s : State) (cluster : Nat) : Option Cmd :=
  findFirst (fun c => decide (c.phase = .matrix) && clusterOf c.core == cluster && decide (0 < c.progress) && !workDone c
    && !(c.suspended && unitAway s c.launch c.unit)) s.cmds

/-- A pass of the command is in progress: it has done some of the 64 steps of an mloop, or some rows of a `macc` command (R294). -/
def midPass (c : Cmd) : Bool :=
  decide (0 < c.progress) && !workDone c && !c.suspended && (decide (c.op ≠ .mloop) || decide (c.progress % 64 ≠ 0))

/-- Effective priority (R294). -/
def effectivePrio (now : Nat) (c : Cmd) : Nat := min 15 (c.prio + (now - c.entered) / 4096)

/-- The unit whose tiles the cluster's accumulator SRAM holds. -/
def loadedUnit (s : State) (cluster : Nat) : Option (Nat × Nat) :=
  (findFirst (fun e => e.1 == cluster) s.loaded).map fun e => e.2

/-- The arbiter prefers `a` to `b`. -/
def prefers (s : State) (now cluster : Nat) (a b : Cmd) : Bool :=
  let pa := effectivePrio now a
  let pb := effectivePrio now b
  let la := decide (loadedUnit s cluster = some (a.launch, a.unit))
  let lb := decide (loadedUnit s cluster = some (b.launch, b.unit))
  let older := decide (a.entered < b.entered) || (decide (a.entered = b.entered) && decide (a.order < b.order))
  if pa ≠ pb then decide (pb < pa)
  else if 15 ≤ pa then older
  else if la != lb then la
  else older

/-- The entry that gets the next step of a cluster's engine: a pass in progress goes on; between two passes of an operation, and while it
is suspended, only entries of its cluster group may come. -/
def grantedEntry (s : State) (cluster : Nat) : Option Cmd :=
  let es := s.cmds.filter fun c => clusterOf c.core == cluster && eligibleEntry s c
  let es := match midOp s cluster with
    | some m => es.filter fun c => c.launch == m.launch && c.unit == m.unit
    | none => es
  match findFirst midPass es with
  | some c => some c
  | none => leastBy (prefers s s.cycle cluster) es

/-- The accumulator SRAM of a cluster takes the tiles of another cluster group: those that it holds are written to their save area
first, and those that come are read from theirs; tiles that cannot be read back are lost with their launch (R296, R375). The tiles
themselves are `accums`; a group that has none reads +0.0. -/
def switchTiles (cluster : Nat) (to' : Nat × Nat) (s : State) : State :=
  let take (s : State) : State :=
    if (s.accums.any fun a => a.launch == to'.1 && a.unit == to'.2) && accumRefused s to'.1 to'.2 false then
      contextLost to'.1 (launchOf s to'.1).part (unitParty s (launchOf s to'.1) to'.2) s
    else { s with loaded := mapInsert s.loaded cluster to' }
  match loadedUnit s cluster with
  | some u => if u = to' then s else take (keepAccum u.1 u.2 s)
  | none => take s

/-- The granted entry does its next step; the first of a pass counts as one. -/
def passStep (id : Nat) (s : State) : State :=
  match cmdOf s id with
  | none => s
  | some c => if decide (c.phase = .matrix) then runOne id (if midPass c then s else countEvent c.launch 0x020 1 s) else s

/-- MATRIX_PASS_GRANT (R294): a cluster's engine begins its next pass, or goes on with the one in progress, by one K-step of an mloop or
one row of a `macc` command; the tiles of the cluster group are loaded first (R296). -/
def execMatrixPassGrant (s : State) : Host.Outcome State Fault Refusal :=
  .next (onNum (fun cluster s =>
    match grantedEntry s cluster with
    | none => s
    | some c => passStep c.id (switchTiles cluster (c.launch, c.unit) s)) s)

end Sys2Proof.Machine
end

