-- ==== Sys2Proof/Machine/Turns.lean ====
section
/-! DEFINITION. Turns, floors, barriers and the joining of splits as the device carries them out (spec/03_logical_time.md R51,
R52, R61, R409; spec/11_isa_memory_sync.md R251, R252; spec/02_work_hierarchy.md R34; spec/19_faults_execution_memory.md
R380). -/

namespace Sys2Proof.Machine

/-! ### Parked paths (R31) -/

/-- The slice and the place in its stack of the parked path with a lowest lane. -/
def parkedAt (g : Gang) (l : Nat) : Option (Nat × Nat) :=
  let j := l / 8
  match indexOf l (stackOf g j) with
  | some i => some (j, i)
  | none => none
where
  /-- the place of the path with lowest lane l -/
  indexOf (l : Nat) : List Split → Option Nat
    | [] => none
    | q :: r => if lowest q.members = l then some 0 else (indexOf l r).map fun n => n + 1

/-- A path that was parked by a rotation keeps its committed state until it next runs: the region that opens behind its barrier is not
open yet (R33, R251). `old` is the path as it was parked, `ser` the region serial of the gang then. -/
def stayClosed (old : Split) (ser : BitVec 32) (s : State) : State :=
  if old.entry.isNone && s.p.entry.isSome && s.p.fresh then
    { s with
      g := { s.g with serial := ser }
      p := { s.p with entry := none, fresh := false, serial := old.serial, liveIn := [], written := [] } }
  else s

/-- Puts the path at issue back at its place of slice j. -/
def putBack (j i : Nat) (below : List Split) (s : State) : State :=
  let s' := { s with p := Split.vacant, g := setStack j below s.g }
  if s.p.members = 0 then s' else { s' with g := setStack j (below.take i ++ [s.p] ++ below.drop i) s.g }

/-- Runs `f` with a parked path of a gang at issue, its slice's other paths set aside. -/
def withParked (n j i : Nat) (f : State → State) (s : State) : State :=
  let n0 := s.g.id
  let l0 := lowest s.p.members
  let s1 := unload s
  match findFirst (fun g => g.id == n) s1.gangs with
  | none => s
  | some g =>
    match (stackOf g j)[i]? with
    | none => s
    | some q =>
      let below := (stackOf g j).take i ++ (stackOf g j).drop (i + 1)
      let s2 := f { s1 with p := q, g := setStack j [] g, gangs := dropFirst (fun h => h.id == n) s1.gangs }
      load n0 l0 (unload (if s2.g.id = n then putBack j i below (stayClosed q g.serial s2) else s2))

/-- Runs `f` with the split of gang n and lowest lane l at issue, whether it runs or is parked. -/
def withPath (n l : Nat) (f : State → State) (s : State) : State :=
  match gangOf s n with
  | none => s
  | some g =>
    if (s.g.id = n ∧ lowest s.p.members = l) ∨ g.splits.any fun q => lowest q.members == l then withSplit n l f s
    else
      match parkedAt g l with
      | some (j, i) => withParked n j i f s
      | none => s

/-- The split of a gang with a lowest lane, and its gang. -/
def pathOf (s : State) (n l : Nat) : Option (Gang × Split) :=
  match findFirst (fun e => e.1.id == n) (allGangs s) with
  | none => none
  | some e => (findFirst (fun q => lowest q.members == l && decide (q.members ≠ 0)) e.2).map fun q => (e.1, q)

/-! ### Admission of turns (R61) -/

/-- The floor that admits a turn: the bounds of the splits of the workgroup for a tile transition, else F. -/
def turnFloor (s : State) (g : Gang) (i : Instr) : Key :=
  let l := launchOf s g.launch
  match i with
  | .tileOwn _ => splitFloor s l g.wg
  | .tileSeal _ => splitFloor s l g.wg
  | .tileFree _ => splitFloor s l g.wg
  | _ => l.floor

/-- The row of a tile transition that a turn would find: a wait keeps it presenting its key (R110). -/
def turnRow (s : State) (g : Gang) (i : Instr) : TileRow :=
  let at' (h : BitVec 7) : TileState :=
    (findFirst (fun t => t.launch == g.launch && t.wg == g.wg && t.h == h.toNat) s.tiles).elim .empty fun t => t.state
  match i with
  | .tileOwn o => ownRow g.num (at' o.h)
  | .tileSeal o => sealRow g.num (at' o.h)
  | .tileFree o => freeRow g.num (at' o.h)
  | _ => .perform

/-- An engine command of the launch still holds the key: its writes come first (R77). -/
def keyTaken (s : State) (g : Gang) (k : Key) : Bool :=
  s.cmds.any fun c => c.launch == g.launch && decide (c.phase ≠ .finished) && decide (c.writeKey = k)

/-- The command of a `.r` variant finds no room: the split stalls with its turn (R109). -/
def turnRoom (s : State) (g : Gang) (i : Instr) : Bool := (engineOrder s i).all fun o => roomFor s g o.counter

/-- Entries of the store log that the turn publishes are still held at their HC: it waits for them (R375). -/
def turnLogHeld (s : State) (g : Gang) (q : Split) (i : Instr) : Bool :=
  match i with
  | .tileOwn _ => false
  | .tileSeal _ => false
  | .tileFree _ => false
  | .acq _ => false
  | .turn => false
  | .stX _ => false
  | .redX _ => false
  | .red _ => false
  | .barG => logHeld s g g.cuff
  | _ => logHeld s g (lineage q.members g.cuff)

/-- The handle of the tile that a turn moves. -/
def turnTile : Instr → Option Nat
  | .tileOwn o => some o.h.toNat
  | .tileSeal o => some o.h.toNat
  | .tileFree o => some o.h.toNat
  | _ => none

/-- A tile of a workgroup is not settled at a key. -/
def tileUnsettled (s : State) (launch wg h : Nat) (k : Key) : Bool :=
  s.tiles.any fun t => t.launch == launch && t.wg == wg && t.h == h && t.unsettled k

/-- A path of the workgroup waits with a key below k for a tile that has not changed since it looked. -/
def tileWaiter (s : State) (g : Gang) (k : Key) (q : Nat → Bool) : Bool :=
  (allGangs s).any fun e => e.1.launch == g.launch && e.1.wg == g.wg && e.2.any fun p =>
    match p.wait with
    | .tile (some j) h _ false => keyLt j k && q h
    | _ => false

/-- Of the commands of the workgroup in the dependency table, which leave it in the order of issue keys, the first comes before a turn
with key k: its own key is lower, no path waits below it, and no tile that is settled at k keeps it (R109, R110; log entry 88). -/
def commandAhead (s : State) (g : Gang) (k : Key) : Bool :=
  (leastBy (fun a b => keyLt a.issueKey b.issueKey)
    (s.cmds.filter fun c => c.launch == g.launch && c.wg == g.wg && decide (c.phase = .table))).any fun c =>
      keyLt c.issueKey k && !tileWaiter s g c.issueKey (fun _ => true)
        && ((c.tileNames true).all fun h => decide (outRow (issuerNum s c) (namedState s c h) = .perform)
            || tileUnsettled s g.launch g.wg h k)
        && ((c.tileNames false).all fun h => decide (inRow (namedState s c h) = .perform)
            || tileUnsettled s g.launch g.wg h k)

/-- Every tile transition of the workgroup with a key below that of a tile turn has been made (R110): of the tile itself, of those that
paths and commands with lower keys wait for. -/
def tileDue (s : State) (g : Gang) (k : Key) (i : Instr) : Bool :=
  (turnTile i).all fun h => !tileUnsettled s g.launch g.wg h k && !tileWaiter s g k (fun x => tileUnsettled s g.launch g.wg x k)
    && !commandAhead s g k

/-- The device with a split of a gang at issue, for what a condition reads of it. -/
def seenBy (s : State) (g : Gang) (q : Split) : State := { s with p := q, g := g }

/-- A split that presents a turn with key k is admitted. A turn at which a held fault is to be delivered is not (R340, R376). -/
def turnAdmitted (s : State) (g : Gang) (q : Split) : Bool :=
  match q.wait with
  | .turn k i => decide (turnFloor s g i = k) && (tileTurn i || !keyTaken s g k) && decide (turnRow s g i ≠ .wait) && tileDue s g k i
      && turnRoom s g i && !turnLogHeld s g q i && (deliverable (seenBy s g q) .turn).isNone && g.resident && !g.trapped
  | _ => false

/-- What an admitted turn does. -/
def performTurn (i : Instr) (s : State) : State :=
  match i with
  | .atom o => atomPerform i o.w o.a o.d.toNat s
  | .atomCas o => atomPerform i o.w o.a o.d.toNat s
  | .atomCas16 o => atomPerform i o.w o.a o.d.toNat s
  | .atomMaxi o => atomPerform i o.w o.a o.d.toNat s
  | .red o => redPerform o s
  | .acq o => acqPerform o s
  | .rel o => relPerform o s
  | .barG => barGPerform s
  | .turn => turnPerform s
  | .halt => haltPerform s
  | .stX o => stXPerform o s
  | .atomX o => atomXPerform o s
  | .redX o => redXPerform o s
  | .tileOwn o => tilePerform (tileOwnOp o) o.h.toNat s
  | .tileSeal o => tilePerform (tileSealOp o) o.h.toNat s
  | .tileFree o => tilePerform (tileFreeOp o) o.h.toNat s
  | _ => relAdmitted i s

/-- TURN_ADMIT (R61): the turn of a split performs alone, at its key. -/
def execTurnAdmit (s : State) : Host.Outcome State Fault Refusal :=
  .next (onNum2 (fun n l s =>
    match pathOf s n l with
    | none => s
    | some (g, q) =>
      if turnAdmitted s g q then
        withSplit n l (fun s =>
          match s.p.wait with
          | .turn _ i => performTurn i (commitRegion { s with p := { s.p with wait := .none } })
          | _ => s) s
      else s) s)

/-! ### Actions that wait for a floor (R409) -/

/-- The floor that a waiting action names has reached its key. -/
def gateReached (s : State) (g : Gang) (k : Key) (group : Bool) : Bool :=
  let l := launchOf s g.launch
  keyLe k (if group then l.floor else wgFloor s l g.wg)

/-- FLOOR_GATED_ACTION (R409): the floor has reached the key at which a split waits, and its action proceeds. -/
def execFloorGatedAction (s : State) : Host.Outcome State Fault Refusal :=
  .next (onNum2 (fun n l s =>
    match pathOf s n l with
    | none => s
    | some (g, q) =>
      match q.wait with
      | .gated k group false =>
        if gateReached s g k group then withPath n l (fun s => stall (.gated k group true) s) s else s
      | _ => s) s)

/-! ### Barriers (R51, R251) -/

/-- Units of a launch whose gangs are not on the device yet. -/
def unplaced (l : Launch) : Bool := l.units.any fun u => decide (u.phase = .live)

/-- Every live split of every participating gang has made the same arrival, and what it did before has performed. -/
def barrierReady (s : State) (b : BarrierRef) : Bool :=
  let ps := participants s b
  match ps with
  | [] => false
  | e :: _ =>
    match arrivedAt b.kind e.2 with
    | none => false
    | some j => ps.all (fun x => decide (arrivedAt b.kind x.2 = some j)) && ps.all (settledBefore s)
      && !(decide (b.kind = .launch) && unplaced (launchOf s b.launch))

/-- The greatest clock of splits. -/
def maxClock : List (Gang × Split) → Nat
  | [] => 0
  | e :: r => max e.2.clock.toNat (maxClock r)

/-- The greatest key at which splits arrived. -/
def maxArrival (l : Launch) : List (Gang × Split) → Option Key
  | [] => none
  | e :: r => optKeyMax (some (keyOf l e.1 e.2)) (maxArrival l r)

/-- A split leaves a barrier at clock m + 4; a region opens after it. -/
def leaveBarrier (b : BarrierRef) (m : Nat) (last : Option Key) (s : State) : State :=
  let det := (curLaunch s).det
  let s := { s with p := { s.p with
    clock := BitVec.ofNat 64 (m + 4)
    lastTurn := if det && decide (b.kind = .launch) then optKeyMax s.p.lastTurn last else s.p.lastTurn } }
  openClosed (fallThrough (retired s))

/-- The number of back edges that the barrier instruction of a split evaluates. -/
def edgesAt (q : Split) : Nat := (backEdges q (q.pc + 4)).count

/-- An arrival is withdrawn: the split raises the overflow cause at its barrier once no other split of its gang runs a handler
(R335). -/
def withdraw (k : BarrierKind) (s : State) : State :=
  let i := barrierIndex k
  { s with p := { s.p with arrivals := setAt s.p.arrivals i (getAt 0 s.p.arrivals i - 1), wait := .overflowed k } }

/-- The clock would pass 2^64 − 1: every arrival is withdrawn, and every split that arrived raises the overflow cause (R52). -/
def barrierOverflow (b : BarrierRef) (ps : List (Gang × Split)) (s : State) : State :=
  ps.foldl (fun s e => withPath e.1.id (lowest e.2.members) (withdraw b.kind) s) s

/-- A barrier across members has completed at `k`: what they reported for the time until then gives way to `k`, at which or above
each of their splits leaves it (R51, R59, log entry 10). -/
def crossBarrier (k : Key) (l : Launch) : Launch :=
  let drop (j : Key) : Key := if isHold j then k else j
  { l with
    crossed := l.crossed + 1
    sentFloor := drop l.sentFloor
    memberFloors := l.memberFloors.foldl (fun m e => mapSet keyZero m e.1 (drop e.2)) [] }

/-- Every participant leaves; in a free launch a barrier wider than the workgroup is an acquire, and self-invalidating copies
go (R93). `m0` and `k0` are what the other members of a domain-scope launch contribute. -/
def completeBarrier (b : BarrierRef) (m0 : Nat) (k0 : Option Key) (s : State) : State :=
  let ps := participants s b
  let m := max m0 (maxClock ps)
  let l := launchOf s b.launch
  if ps.any fun e => decide (2 ^ 64 ≤ m + 4 + edgesAt e.2) then barrierOverflow b ps s
  else
    let s := if acrossMembers l b.kind then mapLaunch b.launch (crossBarrier (key3 (quantumIndex l m * l.quantum) 0 0)) s else s
    let s := if l.det || decide (b.kind = .wg) then s
      else ps.foldl (fun s e => dropSelf e.1.core s) s
    ps.foldl (fun s e => withPath e.1.id (lowest e.2.members) (leaveBarrier b m (optKeyMax k0 (maxArrival l ps))) s) s

/-- BARRIER_COMPLETE (R51, R251). A barrier across the members of a domain-scope launch completes when the outside brings the
other members' arrivals (log entry 11). -/
def execBarrierComplete (s : State) : Host.Outcome State Fault Refusal :=
  .next (match s.arg with
    | .barrier b =>
      if barrierReady s b && !acrossMembers (launchOf s b.launch) b.kind then completeBarrier b 0 none s else s
    | .memberBarrier b m k =>
      if barrierReady s b && acrossMembers (launchOf s b.launch) b.kind then completeBarrier b m (some k) s else s
    | _ => s)

/-! ### Re-ganging (R34) -/

/-- The instruction at the pc of a split that waits has been issued. A split that waits for registers, for a tile, for room, for an
entry of the PLB or for accesses that come before has not issued its instruction. -/
def waitIssued : Wait → Bool
  | .none => false
  | .regs _ _ => false
  | .tile _ _ _ _ => false
  | .engine _ => false
  | .remoteRoom _ => false
  | .earlier _ => false
  | .refill => false
  | .plb _ _ => false
  | _ => true

/-- A split has an issued instruction that has not yet performed: an access that was refused has not, nor has a store that its open
region holds; in a deterministic launch one in the Cuff buffer has (R64, R249), and a discard goes with the launch (R243); a reduction performs when its
home has applied it (R72, R85). -/
def unperformed (s : State) (g : Gang) (q : Split) : Bool :=
  let det := (launchOf s g.launch).det
  waitIssued q.wait || q.redo.isSome || q.buffer.any (fun b => !(det && (cuffStore b || decide (b.op = .discard))))
    || (s.reqs.any fun r => r.gang == g.id && meets r.lanes q.members && !(match r.phase with
      | .done _ => true
      | _ => false))
    || (s.remotes.any fun r => r.gang == g.id && meets r.lanes q.members && (decide (r.rest ≠ 0) || r.fault.isSome))
    || ((s.updates ++ s.mitten ++ s.retry).any fun u => u.gang == g.id && meets u.lanes q.members)

/-- Two splits of a gang may become one. -/
def mayMerge (s : State) (g : Gang) (a b : Split) : Bool :=
  sameState a b && decide (a.members ≠ 0) && decide (b.members ≠ 0) && decide (a.away = 0 ∧ b.away = 0 ∧ a.parted = 0 ∧ b.parted = 0) && !unperformed s g a && !unperformed s g b
    && !a.status.getLsbD 0 && !b.status.getLsbD 0 && decide (a.arrivals = b.arrivals)

/-- The split with lowest lane l leaves its gang, running or parked. -/
def removePath (l : Nat) (g : Gang) : Gang :=
  match parkedAt g l with
  | some (j, i) => setStack j ((stackOf g j).take i ++ (stackOf g j).drop (i + 1)) g
  | none => { g with splits := dropFirst (fun q => lowest q.members == l) g.splits }

/-- Joins two splits, whose regions have committed: the one with the lower lowest lane is the senior, and a region opens. -/
def joinSplits (n la lb : Nat) (s : State) : State :=
  match pathOf s n la, pathOf s n lb with
  | some (g, a), some (_, b) =>
    let q := if la < lb then mergeSplits a b else mergeSplits b a
    let g := removePath lb (removePath la g)
    let (g, q) := openOn s.nextId g
      { q with entry := none, fresh := false, liveIn := [], written := [], buffer := [], after := s.nextId }
    mapGang n (fun _ => { g with splits := g.splits ++ [q] }) s
  | _, _ => s

/-- REGANG (R34): two splits of one gang in the same state become one; at least one of them runs, and a parked path meets a
split on its own slice. -/
def execRegang (s : State) : Host.Outcome State Fault Refusal :=
  .next (match s.arg with
    | .num3 n la lb =>
      match pathOf s n la, pathOf s n lb with
      | some (g, a), some (_, b) =>
        let pa := (parkedAt g la).isSome
        let pb := (parkedAt g lb).isSome
        let sharesSlice := (slicesOf a.members).any fun j => (slicesOf b.members).contains j
        if la ≠ lb && mayMerge s g a b && !(pa && pb) && ((!pa && !pb) || sharesSlice) then
          let n0 := s.g.id
          let l0 := lowest s.p.members
          let s := unload (withPath n lb commitRegion (withPath n la commitRegion s))
          let s := joinSplits n la lb s
          load n0 (if n0 = n ∧ (l0 = la ∨ l0 = lb) then min la lb else l0) s
        else s
      | _, _ => s
    | _ => s)

/-! ### The turn-stall watchdog (R380) -/

/-- The split whose bound is the floor; else that of the lane whose access, publication or engine operation holds it (R366, R371,
R376). -/
def floorHolder (s : State) (l : Launch) : Option (Gang × Split) :=
  let gs := (allGangs s).filter fun e => e.1.launch == l.id
  match gs.findSome? fun e =>
    (findFirst (fun q => decide (boundIn s l e.1 q = l.floor) && decide (q.members ≠ 0)) e.2).map fun q => (e.1, q) with
  | some x => some x
  | none =>
    if (floorUnit l).isSome then none
    else (gs.filter fun e => gangIndex l e.1 == l.floor.gang).findSome? fun e =>
      (findFirst (fun q => decide (q.members.getLsbD (l.floor.lane % 64) = true)) e.2).map fun q => (e.1, q)
where
  /-- a unit that has not been placed and holds the floor by its starting clock -/
  floorUnit (l : Launch) : Option UnitState :=
    findFirst (fun u => decide (u.phase = .live)
      && decide (key3 (quantumIndex l u.clock.toNat * l.quantum) 0 0 = l.floor)) l.units

/-- The record of a turn stall: what holds F. A unit that has not been placed stands for its first gang; a gang that has left is that
of F's key. -/
def stallTrap (s : State) (l : Launch) : TrapInfo × Party :=
  let none' : TrapInfo := {
    kind := 0, cause := 0xB2, sub := 0, pc := 0, va := 0, lanes := laneBit (l.floor.lane % 64), serial := 0
    clock := BitVec.ofNat 64 l.floor.clock, pnode := 0, n := 0, word := 0 }
  let gangs := l.nunit * l.wpc * l.ngang
  match floorHolder s l with
  | some (g, q) => ({ none' with pc := q.pc, lanes := laneBit (lowest q.members), serial := q.serial },
      { gangid := gangIndex l g, wg := g.wg, asid := g.asid, part := g.part })
  | none =>
    match floorHolder.floorUnit l with
    | some u =>
      let wg := u.idx * l.wpc
      (none', { gangid := (if l.dscope = 2 then l.mrank * gangs else 0) + wg * l.ngang, wg := wg, asid := l.asid, part := l.part })
    | none => (none', { gangid := l.floor.gang, wg := l.floor.gang % gangs / l.ngang, asid := l.asid, part := l.part })

/-- TURN_STALL_WATCHDOG (R380): one record for each value of F that stalls a turn. -/
def execTurnStallWatchdog (s : State) : Host.Outcome State Fault Refusal :=
  .next (onNum2 (fun n lane s =>
    match pathOf s n lane with
    | none => s
    | some (g, q) =>
      let l := launchOf s g.launch
      match q.wait with
      | .turn _ _ =>
        if l.stallNoted = some l.floor then s
        else
          let (t, w) := stallTrap s l
          faultQueue l.part (recordHead t w) (mapLaunch l.id (fun l => { l with stallNoted := some l.floor }) s)
      | _ => s) s)

end Sys2Proof.Machine
end

