-- ==== Sys2Proof/Machine/Launch.lean ====
section
/-! DEFINITION. Launches and their units (spec/13_scheduling.md R286 to R304; spec/02_work_hierarchy.md R26, R37, R38;
spec/05_memory_hierarchy.md R104 to R106; spec/08_encoding_assembly.md R180, R181; spec/12_isa_engines_system.md R276, R277):
leaving intake, placing, pre-empting and retiring units, retiring launches. -/

namespace Sys2Proof.Machine

/-! ### Cores (R26, R105, R106, R290, R291) -/

/-- The clusters a partition may use. -/
def clustersOf (s : State) (q : Partition) : List Nat :=
  (countFrom 0 64).filter fun c => q.clmask.getLsbD c && !s.clustersOut.getLsbD c

/-- The slices a gang occupies. -/
def slicesTaken (g : Gang) : List Nat := countFrom g.slice (g.width / 8)

/-- The gangs that hold contexts of a core. -/
def occupants (s : State) (core : Nat) : List Gang :=
  ((allGangs s).map fun e => e.1).filter fun g => decide (g.id ≠ 0) && g.resident && g.core == core

/-- Contexts taken on each slice of a core. -/
def occupancy (s : State) (core : Nat) : List Nat :=
  allSlices.map fun j => ((occupants s core).filter fun g => (slicesTaken g).contains j).length

/-- Free slice contexts of a core: 16 on each of its slices. -/
def freeContexts (s : State) (core : Nat) : Nat := total ((occupancy s core).map fun n => 16 - n)

/-- The fullest of the slices that a gang of width w takes at base b. -/
def fullest (occ : List Nat) (w b : Nat) : Nat := ((countFrom b (w / 8)).map (getAt 16 occ)).foldl max 0

/-- The base of a gang: the one whose fullest slice is emptiest, the lowest of several (R291). -/
def chooseBase (occ : List Nat) (w : Nat) : Option Nat :=
  leastBy (fun a b => decide (fullest occ w a < fullest occ w b))
    (((countFrom 0 (64 / w)).map fun i => i * (w / 8)).filter fun b => decide (fullest occ w b < 16))

/-- The bases of n gangs of width w, in ascending gang number. -/
def chooseBases : Nat → List Nat → Nat → Option (List Nat)
  | 0, _, _ => some []
  | n + 1, occ, w =>
    match chooseBase occ w with
    | none => none
    | some b =>
      let occ' := (countFrom 0 8).map fun j => getAt 0 occ j + bit (b ≤ j ∧ j < b + w / 8)
      (chooseBases n occ' w).map fun r => b :: r

/-- The launches of the workgroups resident on a core, one for each workgroup. -/
def residentWgs (s : State) (core : Nat) : List Launch :=
  s.launches.flatMap fun l => (l.units.filter fun u => decide (u.phase = .resident)).flatMap fun u =>
    (u.cores.filter fun c => c == core).map fun _ => l

/-- Scratchpad needs of the workgroups resident on a core. -/
def scratchOn (s : State) (core : Nat) : Nat := total ((residentWgs s core).map fun l => l.scratch)

/-- The tiles of the workgroups resident on a core. -/
def coreTiles (s : State) (core : Nat) : List Tile :=
  s.tiles.filter fun t => (launchOf s t.launch).units.any fun u =>
    u.idx == t.unit && decide (u.phase = .resident) && getAt 1024 u.cores (t.wg - t.unit * (launchOf s t.launch).wpc) == core

/-- Entries of a core's tile table in use. -/
def tilesOn (s : State) (core : Nat) : Nat := total ((residentWgs s core).map fun l => l.tiles.length)

/-- The core's division covers the need of one more workgroup, or may be changed to (R105). -/
def scratchFits (s : State) (l : Launch) (core : Nat) : Bool :=
  if scratchOn s core = 0 then decide (l.scratch ≤ 262144)
  else decide (scratchOn s core + l.scratch ≤ 65536 * mapGet 0 s.division core)

/-- The units of 64 KiB that are scratchpad on a core once a workgroup of a launch has come there (R105). -/
def divisionWith (s : State) (l : Launch) (core : Nat) : Nat :=
  if scratchOn s core = 0 then (l.scratch + 65535) / 65536 else mapGet 0 s.division core

/-- A tile of n bytes at a base lies within the scratchpad and over no tile that is there. -/
def tileClear (limit : Nat) (there : List (Nat × Nat)) (n base : Nat) : Bool :=
  decide (base + n ≤ limit) && there.all fun e => decide (base + n ≤ e.1 ∨ e.1 + e.2 ≤ base)

/-- Bases for tiles of some sizes, each the lowest that is clear; none where one does not fit. -/
def lowestBases (limit : Nat) : List (Nat × Nat) → List Nat → Option (List Nat)
  | _, [] => some []
  | there, n :: r =>
    match findFirst (tileClear limit there n) ((countFrom 0 512).map (512 * ·)) with
    | none => none
    | some b => (lowestBases limit ((b, n) :: there) r).map fun bs => b :: bs

/-- A choice of bases puts every tile within the scratchpad, clear of the others. -/
def basesClear (limit : Nat) : List (Nat × Nat) → List (Nat × Nat) → Bool
  | _, [] => true
  | there, (b, n) :: r => tileClear limit there n b && basesClear limit ((b, n) :: there) r

/-- The bases of the tiles of the n-th workgroup that comes to a core (R106): those that the launch controller chooses freely, where
they are clear of one another and of the tiles there; else the lowest (log entry 18). -/
def tileBases (s : State) (l : Launch) (core n : Nat) : Option (List Nat) :=
  let there := (coreTiles s core).map fun t => (t.base, t.size)
  let limit := 65536 * divisionWith s l core
  let free := (countFrom 0 l.tiles.length).map fun h => Config.tileBase (n + h) % 512 * 512
  if basesClear limit there (free.zip l.tiles) then some free else lowestBases limit there l.tiles

/-- The core can take one workgroup of a launch. -/
def coreTakes (s : State) (l : Launch) (core : Nat) : Bool :=
  (chooseBases l.ngang (occupancy s core) l.width).isSome && decide (tilesOn s core + l.tiles.length ≤ Config.tileEntries)
    && scratchFits s l core
    && (lowestBases (65536 * divisionWith s l core) ((coreTiles s core).map fun t => (t.base, t.size)) l.tiles).isSome

/-- The cores for the workgroups of a unit: those with the most free contexts, the lowest of several (R290). -/
def placeFor (s : State) (l : Launch) : Option (List Nat) :=
  let cs := clustersOf s (partOf s l.part)
  let most (f : Nat → Nat) : List Nat → Option Nat := leastBy fun a b => decide (f b < f a)
  if l.cg then
    (most (fun c => total ((countFrom (4 * c) 4).map (freeContexts s)))
      (cs.filter fun c => (countFrom (4 * c) l.wpc).all (coreTakes s l))).map fun c => countFrom (4 * c) l.wpc
  else
    (most (freeContexts s) ((cs.flatMap fun c => countFrom (4 * c) 4).filter (coreTakes s l))).map fun c => [c]

/-- Sets the division of a core for a workgroup that comes; a change drops the core's L1 lines (R105). -/
def divideCore (l : Launch) (core : Nat) (s : State) : State :=
  let d := divisionWith s l core
  if d = mapGet 0 s.division core then s
  else { l1Drop (fun c => c.core == core) s with division := mapSet 0 s.division core d }

/-! ### Operating points (R289) -/

/-- Requests the points that a placement selects; true where the die of the placement moves. -/
def requestPoints (die : Nat) (s : State) : State × Bool :=
  let d := getAt Die.reset s.dies die
  let w := wantedPoint s die d
  if w = d.point ∧ d.target = none then (s, false)
  else ({ s with dies := setAt s.dies die { d with target := some w } }, true)

/-! ### Gangs of a unit (R27, R180, R181) -/

/-- The address of the context area of gang g of workgroup j of a unit. -/
def contextOf (s : State) (l : Launch) (u : UnitState) (j g : Nat) : Word :=
  userVA (partOf s l.part).node ((gangArea l u j g).head?.elim 0 fun e => e.1)

/-- The split with which a gang starts: s0 the argument pointer, everything else 0, all declared lanes. -/
def startSplit (l : Launch) (u : UnitState) : Split :=
  { Split.vacant with
    members := lowMask l.width, exec := lowMask l.width, pc := l.entryVA, clock := u.clock
    sregs := mapSet 0 [] 0 l.argp }

/-- Gang g of workgroup j of a unit on its slices. Its serial stands before 0, which its first region carries (R405). -/
def startGang (s : State) (l : Launch) (u : UnitState) (j g core slice : Nat) : Gang :=
  { Gang.vacant with
    id := s.nextId, launch := l.id, unit := u.idx, wg := u.idx * l.wpc + j, num := g, ngang := l.ngang
    nwg := l.nunit * l.wpc, width := l.width, part := l.part, asid := l.asid, core := core, slice := slice
    resident := true, ctx := contextOf s l u j g, area := gangArea l u j g, logCap := l.ctxLog, ended := false, serial := 0 - 1 }

/-- A gang starts, its region open. -/
def addGang (l : Launch) (u : UnitState) (j g core slice : Nat) (s : State) : State :=
  let (gang, q) := openOn s.nextId (startGang s l u j g core slice) (startSplit l u)
  { s with gangs := s.gangs ++ [{ gang with splits := [q] }], nextId := s.nextId + 1 }

/-- The remote loads that a gang has saved are to be sent again from a core, in their order and as there is room for them (R104, R142,
R302). -/
def resendSaved (ids : List Nat) (core : Nat) (s : State) : State :=
  { s with
    remotes := updateWhere (fun r => ids.contains r.gang && r.saved) (fun r => { r with core := core, waiting := false, heldBack := false })
      s.remotes }

/-- A gang of a pre-empted unit comes to a core: its saved commands re-enter the table there, ahead of any new one, and its
loads are reissued from there (R302). -/
def resumeOn (l : Launch) (wg g core slice : Nat) (s : State) : State :=
  let mine (x : Gang) : Bool := x.launch == l.id && x.wg == wg && x.num == g
  let ids := (s.gangs.filter mine).map fun x => x.id
  resendSaved ids core { s with
    gangs := updateWhere mine (fun x => { x with core := core, slice := slice, resident := true }) s.gangs
    cmds := updateWhere (fun c => ids.contains c.gang && (decide (c.phase = .table) || c.recorded))
      (fun c => { c with core := core }) s.cmds
    reqs := updateWhere (fun q => ids.contains q.gang && decide (q.op = .load)) (fun q => { q with core := core }) s.reqs }

/-- The slot of a workgroup that comes to a core (R107): one that no workgroup there has, as the launch controller chooses it. -/
def wgSlot (s : State) (core n : Nat) : Nat :=
  let used := (coreTiles s core).map fun t => t.slot
  (findFirst (fun k => !used.contains k) ((countFrom 0 128).map fun k => (Config.wgSlot n + k) % 128)).getD 0

/-- The tiles of a workgroup get entries and bases on its core: EMPTY in a new one, as saved in one that resumes. -/
def placeTiles (l : Launch) (u : UnitState) (j core : Nat) (s : State) : State :=
  let wg := u.idx * l.wpc + j
  let n := s.nextId
  let slot := wgSlot s core n
  let bases := (tileBases s l core n).getD []
  let base (h : Nat) : Nat := getAt 0 bases h
  { s with
    nextId := n + l.tiles.length + 1
    tiles :=
      if u.phase = .swapped then
        updateWhere (fun t => t.launch == l.id && t.wg == wg) (fun t => { t with slot := slot, base := base t.h }) s.tiles
      else
        s.tiles ++ (countFrom 0 l.tiles.length).map fun h =>
          { launch := l.id, unit := u.idx, wg := wg, h := h, slot := slot, state := .empty, size := getAt 0 l.tiles h
            base := base h, data := [], fill := none, reads := [] } }

/-- Workgroup j of a unit comes to a core: its gangs take their slices in ascending number (R291). The core's self-invalidating
copies go: what the task was started after, or what the unit had acquired before it moved, is not hidden by them (R96, R89). -/
def placeWg (l : Launch) (u : UnitState) (j core : Nat) (s : State) : State :=
  let wg := u.idx * l.wpc + j
  let bases := (chooseBases l.ngang (occupancy s core) l.width).getD []
  let s := dropSelf core (divideCore l core s)
  let s := (countFrom 0 l.ngang).foldl (fun s g =>
    if u.phase = .swapped then resumeOn l wg g core (getAt 0 bases g) s
    else addGang l u j g core (getAt 0 bases g) s) s
  placeTiles l u j core s

/-! ### Placing a unit (R290, R302) -/

/-- Updates unit i of a launch. -/
def mapUnit (launch i : Nat) (f : UnitState → UnitState) (s : State) : State :=
  mapLaunch launch (fun l => { l with units := updateWhere (fun u => u.idx == i) f l.units }) s

/-- The gangs of a unit. -/
def gangsOf (s : State) (launch i : Nat) : List (Gang × List Split) :=
  (allGangs s).filter fun e => decide (e.1.id ≠ 0) && e.1.launch == launch && e.1.unit == i

/-- The home controllers refuse a gang's context area (R375). -/
def contextRefused (s : State) (g : Gang) (w : Bool) : Bool := placesRefused s g.part g.asid w g.area

/-- The save areas of a unit beside its contexts. -/
def saveAreas (l : Launch) (u : UnitState) : List (Nat × Nat) := scratchArea l u ++ accumArea l u

/-- The home controllers refuse an area of a unit: the gang to which the record goes (R375). -/
def unitRefused (s : State) (l : Launch) (u : UnitState) (w : Bool) : Option Gang :=
  let gs := gangsOf s l.id u.idx
  (findFirst (fun e => contextRefused s e.1 w || placesRefused s l.part l.asid w (saveAreas l u)) gs).map fun e => e.1

/-- Bytes that a unit saved are still held at their home controllers (R375): it cannot come back yet. -/
def unitHeld (s : State) (l : Launch) (u : UnitState) : Bool :=
  (gangsOf s l.id u.idx).any fun e => placesHeld s l.part l.asid (e.1.area ++ saveAreas l u)

/-- Places a unit on the cores chosen for it. A unit whose context cannot be read back is lost, and its launch ends. -/
def placeOn (l : Launch) (u : UnitState) (cores : List Nat) (s : State) : State :=
  match (if u.phase = .swapped then unitRefused s l u false else none) with
  | some g => contextLost l.id l.part (partyOf g) s
  | none =>
    let s := (countFrom 0 l.wpc).foldl (fun s j => placeWg l u j (getAt 0 cores j) s) s
    let s := mapUnit l.id u.idx (fun u => { u with phase := .resident, cores := cores, since := s.ticks, displaced := false }) s
    let (s, moves) := requestPoints (dieOf (getAt 0 cores 0)) s
    mapUnit l.id u.idx (fun u => { u with awaitsOp := moves }) s

/-- Units of a launch that wait for a place. -/
def waitingUnits (l : Launch) : List UnitState := l.units.filter fun u => decide (u.phase ≠ .resident)

/-- Units of a launch on their cores. -/
def residentUnits (l : Launch) : List UnitState := l.units.filter fun u => decide (u.phase = .resident)

/-- A unit has waited, or been resident, longer than another; the lower index of several. -/
def unitOlder (a b : UnitState) : Bool := decide (a.since < b.since) || (decide (a.since = b.since) && decide (a.idx < b.idx))

/-- The unit of a launch that may be placed and has waited longest. One that was rotated out may come back before its `mloop` has finished:
its tiles are then saved no more (R303; log entry 106). -/
def nextUnit (s : State) (l : Launch) (may : UnitState → Bool) : Option UnitState :=
  leastBy unitOlder ((waitingUnits l).filter fun u => may u && !(decide (u.phase = .swapped) && unitHeld s l u))

/-- A launch of the same partition with a higher PRIO has units that wait. -/
def outranked (s : State) (l : Launch) : Bool :=
  s.launches.any fun x => x.part == l.part && decide (x.phase = .running) && decide (l.prio < x.prio)
    && !(waitingUnits x).isEmpty

/-- The unit of a launch among those that may come which is placed now, and its cores. -/
def placeAmong (may : UnitState → Bool) (s : State) (l : Launch) : Option (UnitState × List Nat) :=
  if l.phase ≠ .running then none
  else
    match nextUnit s l may with
    | none => none
    | some u => (placeFor s l).map fun cs => (u, cs)

/-- The unit of a launch that may be placed now, and its cores: one that has been displaced waits while a unit of higher PRIO
does (R299). -/
def placeable (s : State) (l : Launch) : Option (UnitState × List Nat) :=
  placeAmong (fun u => !(u.displaced && outranked s l)) s l

/-- Places a unit where one was found to fit. -/
def placeFound (n : Nat) (r : Option (UnitState × List Nat)) (s : State) : State :=
  match r with
  | some (u, cs) => placeOn (launchOf s n) u cs s
  | none => s

/-- Places the next unit of a launch where it fits. -/
def placeNext (n : Nat) (s : State) : State := placeFound n (placeable s (launchOf s n)) s

/-- Gives a place that a rotation has freed to the unit that has waited longest (R298). -/
def placeFreed (n : Nat) (s : State) : State := placeFound n (placeAmong (fun _ => true) s (launchOf s n)) s

/-- UNIT_PLACE (R290). -/
def execUnitPlace (s : State) : Host.Outcome State Fault Refusal := .next (onNum placeNext s)

/-- OP_POINT_STABLE (R289): the die runs at its new point, and the units that wait for it start. -/
def execOpPointStable (s : State) : Host.Outcome State Fault Refusal :=
  .next (onNum (fun d s =>
    match (getAt Die.reset s.dies d).target with
    | none => s
    | some p =>
      { s with
        dies := updateDie d p s.dies
        launches := s.launches.map (startUnits d) }) s)
where
  updateDie (d p : Nat) (l : List Die) : List Die := setAt l d { getAt Die.reset l d with point := p, target := none }
  startUnit (u : UnitState) : UnitState := { u with awaitsOp := false }
  startUnits (d : Nat) (l : Launch) : Launch :=
    { l with units := updateWhere (fun u => u.awaitsOp && u.cores.any fun c => dieOf c == d) startUnit l.units }

/-! ### Pre-emption (R301, R303, R304) -/

/-- A gang of the unit runs a handler: its pre-emption waits until `rte` (R337). -/
def inHandler (s : State) (launch i : Nat) : Bool := (gangsOf s launch i).any fun e => e.1.trapped

/-- The open region of the split at issue is discarded. -/
def dropRegion (s : State) : State :=
  if s.p.entry.isSome then countEvent s.g.launch 0x005 1 (discardRegion s) else s

/-- A result that has come goes to its register; a load that has not performed will be reissued (R104). -/
def settleLoad (q : Req) (s : State) : State :=
  match q.phase with
  | .done data => dropReq q.id (deliverResult q data true s)
  | .refused _ => deliverResult q [] false s
  | _ => setPhase q.id .sent s

/-- Where an mloop in progress has more steps left at the end of its current pass than the step bound, it stops and is recorded
(R304). -/
def abortLoop (stepb : Nat) (c : Cmd) (s : State) : State :=
  if decide (c.op = .mloop) && decide (c.phase = .matrix) && decide (0 < c.progress) && !workDone c
      && decide (stepb < unitCount c - (c.progress + 63) / 64 * 64) then
    countEvent c.launch 0x021 1 (mapCmd c.id (fun c => { c with recorded := true }) (restoreShadow c s))
  else s

/-- A remote load or capability read of a committed region that has not been answered is kept as a replay descriptor (R104). -/
def saveRemotes (ids : List Nat) (s : State) : State :=
  { s with
    remotes := updateWhere (fun r => ids.contains r.gang && decide (r.rest ≠ 0) && decide (r.dest ≠ []) && !awaitedBySplit r) keep s.remotes }
where
  keep (r : RemoteReq) : RemoteReq := { r with saved := true }

/-- What a unit keeps while it is away is written to its areas, in layouts of the device's own: the contexts behind their record slots,
and the scratchpad (R301, steps 3 and 5; log entry 51). The copy engine does this ahead of its queue (R297). -/
def saveUnit (l : Launch) (u : UnitState) (s : State) : State :=
  saveTo l.part l.asid (scratchArea l u)
    ((gangsOf s l.id u.idx).foldl (fun s e => saveTo l.part l.asid (contextPlaces e.1 128 (Config.contextBytes - 128)) s) s)

/-- PREEMPT (R301): a unit leaves its cores. A pre-emption by priority or for a turn (`urgent`) may abort its mloop; one by
rotation lets it run on. A save that is refused loses the unit, and its launch ends (R375). -/
def preempt (urgent : Bool) (launch i : Nat) (s : State) : State :=
  if inHandler s launch i then s
  else
    let s := if s.g.id ≠ 0 ∧ s.g.launch = launch ∧ s.g.unit = i then unload s else s
    let l := launchOf s launch
    match unitOf l i with
    | none => s
    | some u =>
      match unitRefused s l u true with
      | some g => contextLost launch g.part (partyOf g) s
      | none =>
        let gs := gangsOf s launch i
        let ids := gs.map fun e => e.1.id
        let s := gs.foldl (fun s e => e.2.foldl (fun s q => withPath e.1.id (lowest q.members) dropRegion s) s) s
        let s := (s.reqs.filter fun q => ids.contains q.gang && decide (q.op = .load)).foldl (fun s q => settleLoad q s) s
        let s := saveRemotes ids s
        let s := if urgent then
            (s.cmds.filter fun c => c.launch == launch && c.unit == i).foldl
              (fun s c => abortLoop (partOf s c.part).stepb c s) s
          else s
        let s := saveUnit l u s
        let s := { s with gangs := updateWhere (fun g => ids.contains g.id) (fun g => { g with resident := false }) s.gangs }
        settleDies (leaveAccum launch i (mapUnit launch i (fun u => { u with
          phase := .swapped, cores := [], since := s.ticks, awaitsOp := false, hold := none, leaving := false }) s))

/-! ### Leaving intake (R286, R287, R299) -/

/-- Launches of a partition that run or wait for their group. -/
def runningOf (s : State) (part : Nat) : List Launch :=
  s.launches.filter fun l => l.part == part && decide (l.phase = .running ∨ l.phase = .matching)

/-- Bytes of the context pool of a partition. -/
def contextPool (q : Partition) : Nat := q.ctxmb * 2 ^ 20

/-- The extents that lie free between those in use, in rising order, up to the end of the pool. -/
def freeExtents (size : Nat) : Nat → List (Nat × Nat) → List (Nat × Nat)
  | at', [] => if at' < size then [(at', size - at')] else []
  | at', (a, n) :: r => (if at' < a then [(at', a - at')] else []) ++ freeExtents size (max at' (a + n)) r

/-- The free space of the context pool of a partition. -/
def poolFree (s : State) (part : Nat) : List (Nat × Nat) :=
  freeExtents (contextPool (partOf s part)) 0
    (sortBy (fun a b => decide (a.1 < b.1)) ((runningOf s part).flatMap fun l => l.pool))

/-- The space for a reservation of n bytes of the pool, where that much is free. -/
def poolFor (s : State) (part n : Nat) : Option (List (Nat × Nat)) :=
  if n ≤ total ((poolFree s part).map fun e => e.2) then some (cutFrom (poolFree s part) 0 n) else none

/-- The launch that leaves intake next: the highest PRIO, then the first to enter. -/
def intakeHead (s : State) (part : Nat) : Option Launch :=
  leastBy (fun a b => decide (b.prio < a.prio)) ((partOf s part).intake.map (launchOf s))

/-- A task leaves the intake list of its partition. -/
def leaveList (l : Launch) (s : State) : State :=
  relink l.part (mapPart l.part (fun q => { q with intake := q.intake.filter fun n => n != l.id }) s)

/-- The launch-parameter cause refuses a launch (R276). -/
def refuseLaunch (l : Launch) (s : State) : State :=
  mapLaunch l.id (fun l => { l with phase := .retired, units := [], pool := [] }) (writeComp l 2 0xD0 s)

/-- Units of lower PRIO that hold cores of a partition, lowest PRIO first, longest resident first. -/
def displaceable (s : State) (l : Launch) : List (Launch × UnitState) :=
  sortBy (fun a b => decide (a.1.prio < b.1.prio) || (decide (a.1.prio = b.1.prio) && decide (a.2.since < b.2.since)))
    ((s.launches.filter fun x => x.part == l.part && decide (x.prio < l.prio)).flatMap fun x =>
      ((residentUnits x).filter fun u => !inHandler s x.id u.idx).map fun u => (x, u))

/-- Pre-empts units one after another until a unit of a launch fits. -/
def displaceFor (n : Nat) : List (Launch × UnitState) → State → State
  | [], s => s
  | (x, u) :: r, s =>
    if (placeFor s (launchOf s n)).isSome then s
    else displaceFor n r (preempt true x.id u.idx (mapUnit x.id u.idx (fun u => { u with displaced := true }) s))

/-- Places units of a launch one after another while units of lower PRIO hold cores; where one does not fit, they make room for it
if they can. -/
def displaceEach (n : Nat) : Nat → State → State
  | 0, s => s
  | k + 1, s =>
    let l := launchOf s n
    if (displaceable s l).isEmpty then s else
    let t := displaceFor n (displaceable s l) s
    match placeable t (launchOf t n) with
    | some r => displaceEach n k (placeFound n (some r) t)
    | none => s

/-- The same device with no gang in a handler. -/
def noHandlers (s : State) : State :=
  { s with g := { s.g with trapped := false }, gangs := s.gangs.map fun g => { g with trapped := false } }

/-- The units that would be pre-empted besides, did they not run a handler: they leave after it (R337). -/
def markLeaving (before after : State) : State :=
  { before with launches := before.launches.map fun l => { l with units := l.units.map fun u =>
      let goes := decide (u.phase = .resident) && ((launchOf after l.id).units.any fun x => x.idx == u.idx && x.displaced && decide (x.phase = .swapped))
      if goes then { u with leaving := true, displaced := true } else u } }

/-- PRIORITY_DISPLACE (R299): where a launch cannot place its units and units of lower PRIO can make room, they are pre-empted, those
that run a handler after it (R337). -/
def displaceLower (n : Nat) (s : State) : State :=
  let each (s : State) : State := displaceEach n (waitingUnits (launchOf s n)).length s
  let t := each s
  if (displaceable (noHandlers t) (launchOf t n)).isEmpty then t else markLeaving t (each (noHandlers t))

/-- The units that begin with the launch: C of them, with clock 0 (R37). -/
def firstUnits (l : Launch) (now : Nat) : List UnitState :=
  (countFrom 0 l.conc).map fun i =>
    { idx := i, phase := .live, clock := 0, final := 0, since := now, awaitsOp := false, hold := none, cores := []
      slot := i, displaced := false, leaving := false }

/-- A launch starts to run, or waits for the descriptors of its group, which get its own (R277). -/
def startLaunch (l : Launch) (pool : List (Nat × Nat)) (s : State) : State :=
  let s := mapLaunch l.id (fun l => { l with
    phase := if l.dscope = 2 then .matching else .running
    pool := pool, units := firstUnits l s.ticks, resper := (partOf s l.part).resper }) s
  if l.dscope = 2 then { s with outbox := s.outbox ++ [.descriptor l.id l.gid l.desc] }
  else displaceLower l.id s

/-- TASK_LEAVE_INTAKE (R287). -/
def leaveIntake (part : Nat) (s : State) : State :=
  match intakeHead s part with
  | none => s
  | some l =>
    if Config.runningLaunches ≤ (runningOf s part).length then s
    else if contextPool (partOf s part) < l.conc * unitBytes l then refuseLaunch l (leaveList l s)
    else
      match poolFor s part (l.conc * unitBytes l) with
      | none => s
      | some p => startLaunch l p (leaveList l s)

def execTaskLeaveIntake (s : State) : Host.Outcome State Fault Refusal := .next (onNum leaveIntake s)

/-- A descriptor received from a member agrees with the launch's own: GID and the entries at offsets 16 to 47, those of
the first sixteen ranks (R277; log entry 86). -/
def descAgrees (l : Launch) (d : BitVec 32 × List (BitVec 64)) : Bool :=
  decide (d.1 = l.gid) && decide (d.2.take 16 = l.desc.take 16)

/-- A descriptor has come from every other member. -/
def allSent (s : State) (l : Launch) (ds : List MemberDesc) : Bool :=
  l.members.all fun n => n == (partOf s l.part).node || ds.any fun d => d.node == n

/-- DOMAIN_DESCRIPTOR_MATCH (R277): descriptors have come from members; units start once every member's has, and only where all
agree. -/
def execDomainDescriptorMatch (s : State) : Host.Outcome State Fault Refusal :=
  .next (match s.arg with
    | .descs n ds =>
      let l := launchOf s n
      if l.phase ≠ .matching then s
      else if !(ds.all fun d => descAgrees l (d.gid, d.entries)) then refuseLaunch l s
      else if allSent s l ds then displaceLower n (mapLaunch n (fun l => { l with phase := .running, resper := (partOf s l.part).resper }) s)
      else s
    | _ => s)

/-! ### Rotation (R298) and turn-driven swap-in (R300) -/

/-- A unit may be rotated out: F has passed the bound it was brought in for (R300). -/
def mayRotate (l : Launch) (u : UnitState) : Bool :=
  match u.hold with
  | some k => keyLt k l.floor
  | none => true

/-- Runs a step n times. -/
def times (f : State → State) : Nat → State → State
  | 0, s => s
  | n + 1, s => times f n (f s)

/-- The units that a rotation pre-empts: as many as wait, of those that have been resident longest (R298). -/
def rotatedOut (l : Launch) : List UnitState :=
  (sortBy unitOlder ((residentUnits l).filter (mayRotate l))).take (min (waitingUnits l).length (residentUnits l).length)

/-- Units that a rotation has chosen and that run no handler: those that do leave after it (R337). -/
def leavingNow (s : State) (l : Launch) : List UnitState :=
  (residentUnits l).filter fun u => u.leaving && !inHandler s l.id u.idx

/-- The units that leave by rotation give their places to those that have waited longest (R298); the places of those that a launch of
higher PRIO displaces are for its units (R299). -/
def giveWay (n : Nat) (s : State) : State :=
  let out := leavingNow s (launchOf s n)
  times (placeFreed n) (out.filter fun u => !u.displaced).length (out.foldl (fun s u => preempt u.displaced n u.idx s) s)

/-- RESIDENCY_PERIOD_END (R298): the units that have been resident longest give their places to those that wait. -/
def rotateUnits (n : Nat) (s : State) : State :=
  let out := (rotatedOut (launchOf s n)).map fun u => u.idx
  giveWay n (mapLaunch n (fun l => { l with
    periodDue := false
    units := updateWhere (fun u => out.contains u.idx) (fun u => { u with leaving := true }) l.units }) s)

/-- A unit that has left its handlers is pre-empted as the rotation had chosen; else the period ends. -/
def execResidencyPeriodEnd (s : State) : Host.Outcome State Fault Refusal :=
  .next (onNum (fun n s =>
    let l := launchOf s n
    if (leavingNow s l).isEmpty then rotateUnits n s else giveWay n s) s)

/-- The least bound of a unit's splits; a unit not yet placed has that of its starting clock. -/
def unitBound (s : State) (l : Launch) (u : UnitState) : Key :=
  if u.phase = .live then key3 (quantumIndex l u.clock.toNat * l.quantum) 0 0
  else leastKey ((gangsOf s l.id u.idx).flatMap fun e => e.2.map (boundIn s l e.1))

/-- A split of the launch waits because of F: at a turn, a load, a tile operation, a dispatch or an accumulator command.
Those of other members are not seen here (log entry 104). -/
def waitsOnFloor (s : State) (l : Launch) : Bool :=
  let above (k : Key) : Bool := keyLt l.floor k
  ((allGangs s).any fun e => e.1.launch == l.id && e.2.any fun q =>
      match q.wait with
      | .turn k _ => above k
      | .gated k _ false => above k
      | .view k _ => above k
      | .tile (some k) _ _ _ => above k
      | _ => false)
    || (s.reqs.any fun q => q.launch == l.id && decide (q.phase = .sent) && q.view.any above)
    || (s.remotes.any fun r => r.launch == l.id && r.view.any above)
    || (s.cmds.any fun c => c.launch == l.id && (match c.phase with
        | .table => above c.issueKey
        | .matrix => above c.issueKey || c.view.any above
        | .queued => c.view.any above
        | .finished => false))

/-- The units that hold F while they are not resident, by rising index. -/
def floorUnits (s : State) (l : Launch) : List UnitState :=
  if l.det && decide (l.phase = .running) then
    sortBy (fun a b => decide (a.idx < b.idx))
      ((waitingUnits l).filter fun u => decide (unitBound s l u = l.floor) && !(decide (u.phase = .swapped) && unitHeld s l u))
  else []

/-- They are to be swapped in. -/
def dueUnits (s : State) (l : Launch) : List UnitState := if waitsOnFloor s l then floorUnits s l else []

/-- The unit that makes room: of the same launch the one whose least bound is greatest, the higher index of several, never a
holder of F; else of a launch of lower or equal PRIO. One that runs a handler leaves after it (R337). -/
def swapVictim (s : State) (l : Launch) : Option (Nat × Nat) :=
  let mine := (residentUnits l).filter fun u => decide (unitBound s l u ≠ l.floor)
  let better (a b : UnitState) : Bool :=
    keyLt (unitBound s l b) (unitBound s l a) || (decide (unitBound s l a = unitBound s l b) && decide (b.idx < a.idx))
  match leastBy better mine with
  | some u => some (l.id, u.idx)
  | none =>
    if (residentUnits l).isEmpty then
      ((displaceable (noHandlers s) { l with prio := l.prio + 1 }).filter fun e => e.1.id != l.id).head?.map fun e =>
        (e.1.id, e.2.idx)
    else none

/-- A unit runs a handler and leaves after it. -/
def leavesLater (s : State) (n i : Nat) : Bool :=
  inHandler s n i && (launchOf s n).units.any fun u => u.idx == i && u.leaving

/-- Brings a unit in, pre-empting others until it fits. -/
def swapIn (n i : Nat) : Nat → State → State
  | 0, s => s
  | fuel + 1, s =>
    let l := launchOf s n
    match findFirst (fun u => u.idx == i && decide (u.phase ≠ .resident)) l.units with
    | none => s
    | some u =>
      match placeFor s l with
      | some cs =>
        let k := unitBound s l u
        mapUnit n i (fun u => { u with hold := some k }) (placeOn l u cs s)
      | none =>
        match swapVictim s l with
        | none => s
        | some (m, j) =>
          if inHandler s m j then mapUnit m j (fun u => { u with leaving := true, displaced := true }) s
          else swapIn n i fuel (preempt true m j (if m = n then s else mapUnit m j (fun u => { u with displaced := true }) s))

/-- Units resident in the partition of a launch. -/
def residents (s : State) (part : Nat) : Nat :=
  total ((s.launches.filter fun l => l.part == part).map fun l => (residentUnits l).length)

/-- Brings in the units of a launch that hold F. -/
def swapUnits (n : Nat) (us : List UnitState) (s : State) : State :=
  us.foldl (fun s u => swapIn n u.idx (residents s (launchOf s n).part + 1) s) s

/-- TURN_DRIVEN_SWAP_IN (R300). In domain scope the step may bring that a split of another member waits because of F (log entry 104). -/
def execTurnDrivenSwapIn (s : State) : Host.Outcome State Fault Refusal :=
  .next (match s.arg with
    | .num n => swapUnits n (dueUnits s (launchOf s n)) s
    | .num2 n _ => swapUnits n (if (launchOf s n).dscope = 2 then floorUnits s (launchOf s n) else dueUnits s (launchOf s n)) s
    | _ => s)

/-! ### The end of a unit (R37, R298, R340) -/

/-- Every gang of a unit has ended. -/
def unitEnded (s : State) (launch i : Nat) : Bool :=
  let gs := gangsOf s launch i
  !gs.isEmpty && gs.all fun e => e.1.ended

/-- A fault still held for a gang that has ended goes to the fault queue; that of an engine command or of a remote store ends
the launch with its cause (log entry 33). -/
def flushFault (g : Gang) (f : HeldFault) (s : State) : State :=
  let s := faultQueue g.part (recordHead { kind := f.kind, cause := f.cause, sub := f.sub, pc := f.pc, va := f.va, lanes := f.lanes
                                           serial := f.serial, clock := f.clock, pnode := f.pnode, n := 0, word := 0 }
    (partyOf g)) s
  let s := { s with
    cmds := updateWhere (fun c => decide (f.cmd = some c.id)) (fun c => { c with phase := .finished }) s.cmds
    late := updateWhere (fun e => decide (e.gang = some g.id) && e.serial == f.serial && e.pc == f.pc && f.kind == 2)
      (fun e => { e with delivered := true, filed := true }) s.late }
  if f.kind = 2 then s else mapLaunch g.launch (fun l => { l with ended := some (f.cause, 3) }) s

/-- The faults of the gangs of a unit that have ended go to the fault queue. -/
def flushFaults (launch i : Nat) (s : State) : State :=
  (gangsOf s launch i).foldl (fun s e =>
    mapGang e.1.id (fun g => { g with faults := [] }) (e.1.faults.foldl (fun s f => flushFault e.1 f s) s)) s

/-- Something of a unit's gangs is still on its way: an access that has not performed, a publication, an update, a remote request, a
command, a held store (R37, R96). -/
def unitBusy (s : State) (launch i : Nat) : Bool :=
  let ids := (gangsOf s launch i).map fun e => e.1.id
  (s.reqs.any fun q => ids.contains q.gang && (match q.phase with
      | .done _ => opWrites q.op && decide (q.dest = .none)
      | .refused _ => false
      | _ => true))
    || (s.remotes.any fun r => ids.contains r.gang && decide (r.rest ≠ 0))
    || (s.pubs.any fun b => ids.contains b.gang)
    || ((s.updates ++ s.retry).any fun b => ids.contains b.gang)
    || (s.cmds.any fun c => c.launch == launch && c.unit == i && decide (c.phase ≠ .finished))
    || (s.late.any fun e => match e.gang with
      | some g => ids.contains g
      | none => false)

/-- A unit may retire. -/
def unitDone (s : State) (launch i : Nat) : Bool :=
  unitEnded s launch i && ((gangsOf s launch i).any fun e => !e.1.faults.isEmpty) || (unitEnded s launch i && !unitBusy s launch i)

/-- The unit that begins when unit u retires, with its final clock and its reserved areas (R37, R287). -/
def successorUnit (l : Launch) (u : UnitState) (now : Nat) : List UnitState :=
  if u.idx + l.conc < l.nunit then
    [{ idx := u.idx + l.conc, phase := .live, clock := u.final, final := 0, since := now, awaitsOp := false, hold := none
       cores := [], slot := u.slot, displaced := false, leaving := false }]
  else []

/-- A unit leaves the device. -/
def removeUnit (launch i : Nat) (s : State) : State :=
  let s := if s.g.id ≠ 0 ∧ s.g.launch = launch ∧ s.g.unit = i then unload s else s
  let ids := (gangsOf s launch i).map fun e => e.1.id
  settleDies (mapLaunch launch (fun l => { l with
      units := (l.units.filter fun u => u.idx != i)
        ++ (l.units.filter fun u => u.idx == i).flatMap fun u => successorUnit l u s.ticks })
    { s with
      gangs := s.gangs.filter fun g => !ids.contains g.id
      reqs := s.reqs.filter fun q => !ids.contains q.gang
      remotes := s.remotes.filter fun r => !ids.contains r.gang
      cmds := s.cmds.filter fun c => !(c.launch == launch && c.unit == i)
      tiles := s.tiles.filter fun t => !(t.launch == launch && t.unit == i)
      accums := s.accums.filter fun a => !(a.launch == launch && a.unit == i)
      loaded := s.loaded.filter fun e => e.2 != (launch, i) })

/-- UNIT_RETIRE (R37). -/
def execUnitRetire (s : State) : Host.Outcome State Fault Refusal :=
  .next (onNum2 (fun n i s =>
    if unitEnded s n i then
      let s := flushFaults n i s
      if unitBusy s n i then s else removeUnit n i s
    else s) s)

/-! ### The end of a launch (R276, R287, R243, R112) -/

/-- Brim entries of a launch that its retirement merges. Those of a domain-scope launch merge as the floor of its group passes them, while
views of other members may still lie below (R69). -/
def unmerged (s : State) (l : Launch) : Bool := s.brim.any fun e => e.launch == l.id

/-- Every unit has retired and nothing of the launch is left to apply; what it wrote is visible to a host and a peer (R96): entries that
are left to merge, then lines whose copies have still to answer. -/
def launchDone (s : State) (l : Launch) : Bool :=
  decide (l.phase = .running) && l.units.isEmpty
    && (if unmerged s l then decide (l.dscope ≠ 2) else !unsettledLine s l.part)
    && !((s.mitten ++ s.updates ++ s.retry).any fun u => u.launch == l.id)
    && !(s.reqs.any fun q => q.launch == l.id)
    && (l.ended.isSome || l.early || linesQuiet s l.part l.asid (offsetOf l.succp) (8 * l.nsucc))
    && !(s.brim.any fun e => e.launch == l.id && !e.held.isEmpty)

/-- The discards of a deterministic launch are sent once all else of it is done (R125, R243). -/
def sendDiscards (l : Launch) (s : State) : State :=
  l.discards.foldl (fun s q => sendReq q s) (mapLaunch l.id (fun l => { l with discards := [] }) s)

/-- LAUNCH_RETIRE (R276): what the launch published becomes the base, its discards perform, and once no copy shows what they have
overwritten (R96) its copies go, COMP and FLINE are written, and after STATUS 1 its successors are released unless `task.done`
released them. -/
def retireLaunch (n : Nat) (s : State) : State :=
  let l := launchOf s n
  if !launchDone s l then s
  else
    if unmerged s l then mergeAll n s
    else if l.discards ≠ [] then sendDiscards l s else
    if l.ended.isNone && !l.early && hostsHold s l.part l.asid (offsetOf l.succp) (8 * l.nsucc) then
      askHosts l.part l.asid (offsetOf l.succp) (8 * l.nsucc) s
    else
    let s := l1Drop (fun c => c.coh == 3 && c.launch == n) s
    let s := { s with remoteCopies := s.remoteCopies.filter fun c => !(c.coh == 3 && c.launch == n) }
    let s := mapLaunch n (fun l => { l with phase := .retired, pool := [], discards := [] }) s
    match l.ended with
    | some (c, st) => writeComp l st c s
    | none => (if l.early then id else releaseSuccessors l) (writeComp l 1 0 s)

def execLaunchRetire (s : State) : Host.Outcome State Fault Refusal := .next (onNum retireLaunch s)

end Sys2Proof.Machine
end

