-- ==== Sys2Proof/Machine/Host.lean ====
section
/-! DEFINITION. The hosts (spec/06_coherence_fabric.md R147 to R150; spec/15_programs_fabric_host.md R313;
spec/16_host_partitions_monitors.md R324; spec/20_faults_fabric_host_start.md R396, R397, R399): accesses to device memory,
snoops and grants of host lines, the loss of a link, and the reset of a partition. -/

namespace Sys2Proof.Machine

/-! ### HDM windows (R149) -/

/-- A host port of a die that is out of service: port 1 lies on die 1 (R15, R401). -/
def portLost (s : State) (port : Nat) : Bool := s.bridgeOut && port == 1

/-- CXL runs on a port: in flit mode, on an active link. -/
def cxlOn (s : State) (port : Nat) : Bool :=
  match (s.ports)[port]? with
  | some p => p.flit && p.linkUp && !p.down
  | none => false

/-- The base of HDM decoder k of a port, where it is enabled: decoder p serves partition p, which is bound to the port. -/
def decoderBase (s : State) (port k : Nat) : Option Nat :=
  if cxlOn s port && hasPart s k && (partOf s k).port == port then
    match s.ports[port]? with
    | none => none
    | some p => (getAt none p.decoders k).map fun b => b.toNat
  else none

/-- The partition and the VA offset of a host address that an enabled decoder covers (R149). -/
def hdmOffset (s : State) (port : Nat) (addr : BitVec 64) : Option (Nat × Nat) :=
  (countFrom 0 8).findSome? fun k =>
    match decoderBase s port k with
    | none => none
    | some b =>
      if b ≤ addr.toNat ∧ addr.toNat - b < (partOf s k).hdmgb * 2 ^ 30 then some (k, 2 ^ 52 + (addr.toNat - b)) else none

/-- The record of a refused host access: KIND 4, the HC's cause, the address. -/
def hostRecord (part off : Nat) (cause : BitVec 8) (s : State) : State :=
  deviceRecord part cause 4 0 (userVA (partOf s part).node off) 0xFFF s

/-- A posted write of a port that keeps its order (R97). -/
def postedBy (port : Nat) : Arg → Bool
  | .hostWrite p _ _ _ relaxed => p == port && !relaxed
  | _ => false

/-- A held entry that answers a posted write of a port. -/
def heldPosted (port : Nat) (e : LateEntry) : Bool :=
  decide (e.node = some port) && e.brim.isNone && e.key.isNone && e.gang.isNone && match e.op with
    | .store _ => true
    | _ => false

/-- A posted write follows those of its port that came before it and have not performed, unless it is relaxed (R97). -/
def postedWaits (s : State) (a : Arg) : Bool :=
  match a with
  | .hostWrite port _ _ _ false =>
    (s.hostQueue.takeWhile fun e => decide (e.2 ≠ a)).any (fun e => postedBy port e.2)
      || (s.lines.any fun l => decide (l.state = .p) && postedBy port l.resume && decide (l.resume ≠ a))
      || s.late.any (heldPosted port)
  | _ => false

/-- A host request may be served at its home: in its turn at the line (R128), not while its page is locked (R124), and in the order
of posted writes (R97). -/
def hostMayServe (s : State) (part off : Nat) (w : Bool) (a : Arg) : Bool :=
  mayServe s (lineRef part 4095 off) a && lineRoom s (lineRef part 4095 off) && !postedWaits s a
    && !(w && granuleHeld s part 4095 off && !lateRoom s (homeHc off) part && s.noted.contains (lineRef part 4095 off, a))
    && !(w && (walk s part 4095 off).any fun l => Pte.lock l.entry)

/-- A request of a host that is not posted: a reset completes it as Completion Abort (R324). -/
def awaitsHost : Arg → Bool
  | .hostRead _ _ _ _ => true
  | .hostAtomic _ _ _ _ _ _ => true
  | _ => false

/-- Serves a host request in its turn; one of a partition in reset completes as Completion Abort, a posted one is lost (R324); until then it waits at its home, and is never refused (R131). -/
def hostInTurn (part off : Nat) (w : Bool) (serve : State → State) (s : State) : State :=
  let r := lineRef part 4095 off
  if beingReset s part then (if awaitsHost s.arg then reply (.hostAbort (partOf s part).port) s else s) else
  if !hostMayServe s part off w s.arg then park r s.arg s
  else if w && granuleHeld s part 4095 off && !lateRoom s (homeHc off) part then
    stallNoted r s.arg (userVA (partOf s part).node off) none s
  else serve (unpark r s.arg s)

/-- The HOST state of a line after a MemRd: A where the host asks for it, S at least. -/
def noteHost (r : LineRef) (port : Nat) (own : Bool) (s : State) : State :=
  let d := outDirOf s r
  let st := if own then 2 else max 1 (getAt 0 d.host port)
  mapLine r (fun l => { l with out := true }) (setOutDir { d with host := setAt d.host port st } s)

/-- HOST_MEMRD (R149): a read performs at the home slice; a refused one returns poisoned data and a record. -/
def hostMemrd (port : Nat) (addr : BitVec 64) (own : Bool) (s : State) : State :=
  match hdmOffset s port addr with
  | none => reply (.hostUnsupported port) s
  | some (part, o) =>
    let off := o / 64 * 64
    hostInTurn part off false (fun s =>
      match admits s part 4095 off false with
      | some c => reply (.hostData port (List.replicate 64 0) true) (hostRecord part off c s)
      | none =>
        let s := noteHost (lineRef part 4095 off) port own (ensureLine part 4095 off s)
        reply (.hostData port (baseBytes s part 4095 off 64) false) s) s

def execHostMemrd (s : State) : Host.Outcome State Fault Refusal :=
  .next (match s.arg with
    | .hostRead port _ addr own => hostMemrd port addr own s
    | _ => s)

/-- The late-fault entry of a host's write or atomic that follows held entries (R368): it answers the port. -/
def hostFollower (port part off : Nat) (op : AccessOp) (n : Nat) (s : State) : LateEntry where
  id := 0
  hc := homeHc off
  part := part
  asid := 4095
  va := userVA (partOf s part).node off
  size := n
  op := op
  data := []
  gang := none
  gangid := 0
  wg := 0
  serial := 0
  pc := 0
  lanes := 0
  clock := 0
  cause := none
  reqId := none
  brim := none
  key := none
  node := some port
  recorded := true
  delivered := true
  filed := false

/-- Copies go before a host's write performs, those of hosts where it is no MemWr; the line is in P until they have answered (R130,
R149). -/
def hostWriteThen (hosts : Bool) (part off : Nat) (perform : State → State) (s : State) : State :=
  let s := ensureLine part 4095 off s
  match findLine s (lineRef part 4095 off) with
  | none => s
  | some l =>
    let (acks, ports) := copyHolders s l 256
    let ports := if hosts then ports else []
    if acks = [] ∧ ports = [] then perform s else beginPending l.ref acks ports false s.arg s

/-- HOST_MEMWR (R149): a write performs at the home slice; a refused one is discarded and recorded. -/
def hostMemwr (port : Nat) (addr : BitVec 64) (data : BitVec 512) (s : State) : State :=
  match hdmOffset s port addr with
  | none => reply (.hostUnsupported port) s
  | some (part, o) =>
    let off := o / 64 * 64
    let d := leBytes 64 data.toNat
    hostInTurn part off true (fun s =>
      match admits s part 4095 off true with
      | some c => reply (.hostComplete port) (hostRecord part off c s)
      | none =>
        if granuleHeld s part 4095 off then enqueueLate (hostFollower port part off (.store d) 64 s) s
        else hostWriteThen false part off (fun s => reply (.hostComplete port) (writeBase 0 part 4095 off d s)) s) s

def execHostMemwr (s : State) : Host.Outcome State Fault Refusal :=
  .next (match s.arg with
    | .hostWrite port _ addr data _ => hostMemwr port addr data s
    | _ => s)

/-! ### PCIe atomics to task pages (R147, R313) -/

/-- The operation of a PCIe atomic of 4 or 8 bytes. -/
def hostAtomicAccess (op : HostAtomicOp) (n : Nat) (v : Word) : AccessOp :=
  let ty := if n = 8 then 4 else 1
  match op with
  | .fetchAdd => .rmw 0 ty 0 false (leBytes n v.toNat) []
  | .swap => .rmw 6 ty 0 false (leBytes n v.toNat) []
  | .cas c => .rmw 8 ty 0 false (leBytes n v.toNat) (leBytes n c.toNat)

/-- The atomic performs at the home, readies a task whose PRED it brings to 0, and returns what it found. -/
def performHostAtomic (port part off : Nat) (op : AccessOp) (n : Nat) (s : State) : State :=
  let old := baseBytes s part 4095 off n
  reply (.hostAtomicData port (BitVec.ofNat 64 (leNat old)))
    (withReady part 4095 off (fun s o n => baseBytes s part 4095 o n)
      (writeBase 0 part 4095 off (opBytes op old)) s)

/-- HOST_ATOMIC (R313): an atomic to a task page. One that no decoder covers, of another size or not to a task page is
unsupported; one that the HC refuses completes as Completer Abort. -/
def hostAtomicStep (port : Nat) (addr : BitVec 64) (op : HostAtomicOp) (n : Nat) (v : Word) (s : State) : State :=
  match hdmOffset s port addr with
  | none => reply (.hostUnsupported port) s
  | some (part, off) =>
    let a := hostAtomicAccess op n v
    if (n ≠ 4 ∧ n ≠ 8) ∨ off % n ≠ 0 then reply (.hostUnsupported port) s
    else hostInTurn part off true (fun s =>
      match admitsBoth s part 4095 off with
      | some c => reply (.hostAbort port) (hostRecord part off c s)
      | none =>
        if !onTaskPage s part 4095 off then reply (.hostUnsupported port) s
        else if granuleHeld s part 4095 off then enqueueLate (hostFollower port part off a n s) s
        else hostWriteThen true part off (performHostAtomic port part off a n) s) s

def execHostAtomic (s : State) : Host.Outcome State Fault Refusal :=
  .next (match s.arg with
    | .hostAtomic port _ addr op n v => hostAtomicStep port addr op n v s
    | _ => s)

/-! ### Host lines (R148) -/

/-- The line leaves the HPCC, and the directory-tracked L1 copies of it with it. -/
def dropHostLine (l : HpccLine) (s : State) : State := l1Drop (showsHostLine s l.port l.addr) (setHpcc { l with state := .i } s)

/-- The answer to a snoop: its name, the data it forwards, and the state that the line keeps. -/
def snoopRow (inv cur : Bool) : Mesi → String × Bool × Mesi
  | .i => ("RspIHitI", false, .i)
  | .s => if inv then ("RspIHitSE", false, .i) else ("RspSHitSE", false, .s)
  | .e => if inv then ("RspIHitSE", false, .i) else ("RspSHitSE", false, if cur then .e else .s)
  | .m => if inv then ("RspIFwdM", true, .i) else if cur then ("RspVFwdV", true, .m) else ("RspSFwdM", true, .s)

/-- A snoop of a host line is answered from its present state. -/
def snoop (inv cur : Bool) (port addr : Nat) (s : State) : State :=
  let line := addr / 128 * 128
  match hpccOf s port line with
  | none => reply (.snpAnswer port line (snoopRow inv cur .i).1 []) s
  | some l =>
    let (name, fwd, st) := snoopRow inv cur l.state
    let s := reply (.snpAnswer port line name (if fwd then l.data else [])) s
    if st = .i then dropHostLine l s else setHpcc { l with state := st } s

/-- HOST_SNPDATA (R148). -/
def execHostSnpdata (s : State) : Host.Outcome State Fault Refusal := .next (onNum2 (snoop false false) s)

/-- HOST_SNPINV (R148). -/
def execHostSnpinv (s : State) : Host.Outcome State Fault Refusal := .next (onNum2 (snoop true false) s)

/-- HOST_SNPCUR (R148). -/
def execHostSnpcur (s : State) : Host.Outcome State Fault Refusal := .next (onNum2 (snoop false true) s)

/-- Lines that the HPCC of a port holds: 4 MiB (R147). -/
def hpccLines : Nat := 32768

/-- A full HPCC evicts its oldest line: a modified one is written to the host, an exclusive one is announced, a shared one goes in
silence. -/
def hpccRoom (port line : Nat) (s : State) : State :=
  let here := s.hpcc.filter fun l => l.port == port && l.addr != line
  if here.length < hpccLines then s
  else
    match here with
    | [] => s
    | l :: _ =>
      dropHostLine l (match l.state with
        | .m => reply (.hostWrite port (BitVec.ofNat 64 l.addr) l.data) s
        | .e => reply (.cleanEvict port l.addr) s
        | _ => s)

/-- The accesses that wait at the gateway for a line. -/
def waitsForLine (s : State) (port line : Nat) (q : Req) : Bool :=
  q.aperture && decide (q.phase = .pending) && (partOf s q.part).port == port && (match gatewayMap s q with
    | some a => a / 128 * 128 == line
    | none => true)

/-- CXL_CACHE_GRANT (R148): the host grants a line that it has been asked for; the accesses that waited for it complete in order, or ask
again for what the grant does not allow. -/
def cacheGrant (port addr : Nat) (st : Mesi) (data : List Byte) (s : State) : State :=
  let line := addr / 128 * 128
  if decide (st = .i) || !s.cxlAsked.contains (port, line) then s
  else
    let s := setHpcc { port := port, addr := line, state := st, data := takePad 128 data } (hpccRoom port line
      { s with cxlAsked := s.cxlAsked.filter fun e => e != (port, line) })
    let s := (s.reqs.filter (waitsForLine s port line)).foldl (fun s q => serveGateway q s) s
    { s with agenda := ((s.hostQueue.filter (fabricForLine s port line)).flatMap fun e => resumeMove s e.2) ++ s.agenda }
where
  /-- a request of another device that waits at the gateway for the line -/
  fabricForLine (s : State) (port line : Nat) (e : LineRef × Arg) : Bool :=
    match e.2 with
    | .fabric q => decide (regionOf e.1.va = 3) && (partOf s e.1.part).port == port
        && decide (gatewayLine s (fabricReq s q e.1.part) = some line)
    | _ => false

def execCxlCacheGrant (s : State) : Host.Outcome State Fault Refusal :=
  .next (match s.arg with
    | .grant port addr st data => cacheGrant port addr st data s
    | _ => s)

/-! ### The reset of a partition (R324, R325, R399) -/

/-- The registers, counters, trap block, bitmap, map and intake list of a partition after its reset. -/
def resetRegisters (q : Partition) : Partition :=
  { Partition.vacant with
    id := q.id, port := q.port, clmask := q.clmask, memmap := q.memmap, rsec := q.rsec, l2p := q.l2p, node := q.node
    domain := q.domain, drank := q.drank, members := q.members, ctxmb := q.ctxmb, spillmb := q.spillmb, hdmgb := q.hdmgb
    record := q.record, mesh := q.mesh, trunks := q.trunks, noDdom := q.noDdom }

/-- A request of a host. -/
def fromHost : Arg → Bool
  | .hostRead _ _ _ _ => true
  | .hostWrite _ _ _ _ _ => true
  | .hostAtomic _ _ _ _ _ _ => true
  | _ => false

/-- The requests of others that wait in a partition: at a home, at a line in P, behind a held entry. -/
def waitingArgs (part : Nat) (s : State) : List Arg :=
  ((s.hostQueue.filter fun e => e.1.part == part).map fun e => e.2)
    ++ (s.lines.filter fun l => l.ref.part == part && decide (l.state = .p)).map fun l => l.resume

/-- A late-fault entry that is a host's atomic: its host waits for an answer. -/
def hostAtomicLate (e : LateEntry) : Bool :=
  e.gang.isNone && e.brim.isNone && e.node.isSome && match e.op with
    | .store _ => false
    | _ => true

/-- What a reset answers to them: Completion Abort to hosts, a fault response to peers (R324, R399). -/
def resetAnswers (part : Nat) (s : State) : List Msg :=
  ((waitingArgs part s).filterMap fun a =>
    if awaitsHost a then some (Msg.hostAbort (partOf s part).port)
    else match a with
      | .fabric q => some (Msg.fabricFault q.source q.tag)
      | _ => none)
    ++ (s.late.filter fun e => e.part == part && hostAtomicLate e).map fun _ => Msg.hostAbort (partOf s part).port

/-- Step 3: lines, entries and queues of the partition go; what was dirty lies in memory. A request that is partly answered leaves no
record of what was refused before. -/
def dropPartition (part : Nat) (s : State) : State :=
  (waitingArgs part s).foldl (fun t a => match a with
    | .fabric q => countAnswer q part none t
    | _ => t)
  { s with
    inbound := s.inbound.map fun e => if e.part = part then { e with refused := none } else e
    lines := s.lines.filter fun l => l.ref.part != part
    l1 := s.l1.filter fun c => c.ref.part != part
    remoteCopies := s.remoteCopies.filter fun c => c.part != part
    brim := s.brim.filter fun e => e.ref.part != part
    pubs := s.pubs.filter fun b => b.part != part
    updates := s.updates.filter fun u => u.part != part
    mitten := s.mitten.filter fun u => u.part != part
    retry := s.retry.filter fun u => u.part != part
    late := s.late.filter fun e => e.part != part
    remotes := s.remotes.filter fun r => r.part != part
    reqs := s.reqs.filter fun q => q.part != part
    cmds := s.cmds.filter fun c => c.part != part
    starving := s.starving.filter fun x => x.want.ref.part != part
    reserved := s.reserved.filter fun x => x.ref.part != part
    hostQueue := s.hostQueue.filter fun e => e.1.part != part
    noted := s.noted.filter fun e => e.1.part != part
    readied := s.readied.filter fun e => e.1 != part
    outbox := s.outbox ++ resetAnswers part s }

/-- Step 4: COMP of a launch or a task in intake; a launch ended by reset records no foreign update (R394). -/
def resetComp (cause : BitVec 8) (l : Launch) (s : State) : State :=
  mapLaunch l.id (fun l => { l with phase := .retired, units := [], pool := [], discards := [] })
    (writeComp { l with fu := false, fline := 0 } 4 cause s)

/-- The reset of a partition with a COMP cause. -/
def resetPartition (cause : BitVec 8) (part : Nat) (s : State) : State :=
  let ls := s.launches.filter fun l => l.part == part && decide (l.phase ≠ .retired)
  let s := ls.foldl (fun s l => stopLaunch l.id s) s
  let s := dropPartition part s
  let s := ls.foldl (fun s l => resetComp cause l s) s
  settleDies (mapPart part resetRegisters s)

/-- Resets partitions one after another. -/
def resetParts (cause : BitVec 8) (ps : List Partition) (s : State) : State :=
  ps.foldl (fun s q => resetPartition cause q.id s) s

/-! ### Host links (R319, R396, R397) -/

/-- Updates a host port. -/
def mapPort (port : Nat) (f : Port → Port) (s : State) : State :=
  { s with ports := setAt s.ports port (f (getAt Port.reset s.ports port)) }

/-- The coherent state of a lost port: its host lines go, and no host of it holds a line of the device (R397). -/
def settlePort (port : Nat) (s : State) : State :=
  let ds := s.outDirs.map fun d => { d with host := setAt d.host port 0 }
  let s := s.hpcc.foldl (fun s l => if l.port = port then dropHostLine l s else s) s
  let s := { s with
    cxlAsked := s.cxlAsked.filter fun e => e.1 != port
    outDirs := ds.filter fun d => !decide (d.dev = 0 ∧ d.host = [0, 0])
    hostQueue := s.hostQueue.filter fun e => !(fromHost e.2 && (partOf s e.1.part).port == port) }
  (s.lines.filter fun l => l.hostAcks.contains port).foldl
    (fun s l => leavePending l.ref (mapLine l.ref (fun x => { x with hostAcks := x.hostAcks.filter fun p => p != port }) s)) s

/-- HOST_LINK_DOWN (R396): the link leaves the active state; it has 100 ms to retrain. -/
def execHostLinkDown (s : State) : Host.Outcome State Fault Refusal :=
  .next (onNum (fun port s => mapPort port (fun p => { p with linkUp := false }) s) s)

/-- HOST_LINK_LOSS (R396): the partitions bound to the port are reset, and the port accepts nothing until it retrains; a command of its
mailbox runs on (R320). -/
def execHostLinkLoss (s : State) : Host.Outcome State Fault Refusal :=
  .next (onNum (fun port s =>
    settlePort port (resetParts 0xF1 (s.parts.filter fun q => q.port == port)
      (mapPort port (fun p => { p with linkUp := false, down := true }) s))) s)

/-- HOST_LINK_RETRAIN (R396): the port serves again, and tasks that waited for it enter intake; without flit mode it has no CXL (R319).
The port of a die out of service does not (R15). -/
def execHostLinkRetrain (s : State) : Host.Outcome State Fault Refusal :=
  .next (match s.arg with
    | .numBool port flit => if portLost s port then s else retryIntake (mapPort port (fun p => { p with linkUp := true, down := false, flit := flit }) s)
    | _ => s)

end Sys2Proof.Machine
end

