-- ==== Sys2Proof/Machine/Admin.lean ====
section
/-! DEFINITION. The system controller (spec/16_host_partitions_monitors.md R319 to R332; spec/17_fault_architecture.md R345;
spec/19_faults_execution_memory.md R381, R382; spec/20_faults_fabric_host_start.md R398 to R402): mailbox commands,
attestation, registers written by hosts, power and heat, memory errors, the start of the device. -/

namespace Sys2Proof.Machine

/-! ### Mailboxes (R320) -/

/-- Writes bytes into a mailbox. -/
def writeMail (port off : Nat) (data : List Byte) (s : State) : State :=
  mapPort port (fun p => { p with mailbox := memWrite p.mailbox off data }) s

/-- STATUS of the command word. -/
def mailStatus (s : State) (port : Nat) : Nat := bits (mailWord s port 0) 16 16

/-- Writes STATUS. -/
def setStatus (port st : Nat) (s : State) : State := writeMail port 2 (leBytes 2 st) s

/-- The port takes accesses: the device has started, or runs in minimal mode from this port. -/
def portServes (s : State) (port : Nat) : Bool :=
  (portOf s port).linkUp && !(portOf s port).down && decide (port < 2)
    && (decide (s.startup.phase = .started) && !portLost s port || (decide (s.startup.phase = .minimal) && s.startup.minimalPort == port))

/-- OPs that the mailbox knows; in minimal mode ATTEST, STAGE, STARTREC and RESTART only (R402). -/
def knownOp (op : Nat) : Bool := decide (1 ≤ op ∧ op ≤ 9)
def minimalOp (op : Nat) : Bool := decide (op = 5 ∨ op = 7 ∨ op = 8 ∨ op = 9)

/-- The system controller serves a command with an OP: it is the first of those that have reached it (R320). -/
def served (s : State) (op port : Nat) : Bool := s.posted.head? == some port && mailWord s port 0 % 256 == op

/-- A posted command in its turn: STATUS becomes busy; a busy one runs on its PART, and its final STATUS is written. -/
def command (op port : Nat) (f : Nat → State → Nat × State) (s : State) : State :=
  if !served s op port then s
  else if mailStatus s port = 1 then setStatus port 2 s
  else
    let (st, s) := f (bits (mailWord s port 0) 8 8) s
    setStatus port st { s with posted := s.posted.tail }

/-- The OP of the command at the head, which the system controller does not run: not known, or not in minimal mode (R320, R402). -/
def notRun (s : State) (port : Nat) : Bool :=
  let op := mailWord s port 0 % 256
  if s.startup.phase = .minimal then !minimalOp op else !knownOp op

/-- Such a command runs to its final STATUS in its turn. -/
def refuseCommand (port : Nat) (s : State) : State :=
  command (mailWord s port 0 % 256) port (fun _ s => (if s.startup.phase = .minimal then 0x12 else 0x10, s)) s

/-- A command in its turn, or the end of one that is not run. -/
def runCommand (op port : Nat) (f : Nat → State → Nat × State) (s : State) : State :=
  if notRun s port then refuseCommand port s else command op port f s

/-- The partition is bound to the port. -/
def boundTo (s : State) (port part : Nat) : Bool := hasPart s part && (partOf s part).port == port

/-! ### CREATE, DESTROY, RESET, QUERY (R321, R324) -/

/-- Word j of a partition record. -/
def recWord (r : List Byte) (j : Nat) : Nat := leNat ((r.drop (8 * j)).take 8)

/-- MEMMAP. -/
def recUnits (r : List Byte) : BitVec 384 := BitVec.ofNat 384 (leNat ((r.drop 8).take 48))

/-- The reserved fields and codes of a record are 0. -/
def recReserved (r : List Byte) : Bool :=
  bits (recWord r 7) 3 13 == 0 && bits (recWord r 7) 26 6 == 0 && bits (recWord r 7) 58 6 == 0
    && bits (recWord r 7) 0 2 != 3 && bits (recWord r 9) 32 32 == 0 && leNat (r.drop 80) == 0

/-- The resources that a record names are free and within the limits. -/
def recFits (s : State) (port : Nat) (r : List Byte) : Bool :=
  let clmask := BitVec.ofNat 64 (recWord r 0)
  let units := recUnits r
  let ctx := bits (recWord r 8) 0 32
  let spill := bits (recWord r 8) 32 32
  let hdm := bits (recWord r 9) 0 32
  let domain := bits (recWord r 7) 32 16
  clmask != 0 && clmask &&& s.clustersOut == 0
    && s.parts.all (fun q => q.clmask &&& clmask == 0 && q.memmap &&& units == 0 && q.l2p == (recWord r 7).testBit 2
      && (domain == 0xFFFF || q.domain != domain))
    && (countFrom 0 384).all (fun i => !units.getLsbD i || hcServes s (i / 12))
    && decide (s.parts.length < 8)
    && decide (64 ≤ ctx ∧ ctx ≤ 65536 ∧ spill ≤ 4096 ∧ hdm ≤ 384)
    && (hdm == 0 || cxlOn s port)
    && decide (ctx + spill ≤ 1024 * ((countFrom 0 384).filter fun i => units.getLsbD i).length)

/-- Which of the n other members a port of a device of a direct mesh links to: each of them has one port at least (R136; log entry
77). -/
def trunkPeer (domain n p : Nat) : Nat :=
  if (countFrom 0 n).all fun j => (countFrom 0 Config.fabricPorts).any fun p => Config.domainPeer domain p % n == j then
    Config.domainPeer domain p % n
  else p % n

/-- The trunks to the other members: a port links to one of them. -/
def trunksOf (domain : Nat) (others : List Nat) : SMap (List Nat) :=
  (countFrom 0 others.length).map fun j =>
    (getAt 0 others j, (countFrom 0 Config.fabricPorts).filter fun p => trunkPeer domain others.length p == j)

/-- The partition that a record describes, bound to a port. -/
def partOfRecord (part port : Nat) (members : List Nat) (r : List Byte) : Partition :=
  { Partition.vacant with
    id := part
    port := port
    clmask := BitVec.ofNat 64 (recWord r 0)
    memmap := recUnits r
    rsec := bits (recWord r 7) 0 2
    l2p := (recWord r 7).testBit 2
    node := bits (recWord r 7) 16 10
    domain := bits (recWord r 7) 32 16
    drank := bits (recWord r 7) 48 10
    members := if bits (recWord r 7) 32 16 = 0xFFFF then [] else members
    ctxmb := bits (recWord r 8) 0 32
    spillmb := bits (recWord r 8) 32 32
    hdmgb := bits (recWord r 9) 0 32
    mesh := Config.domainMesh (bits (recWord r 7) 32 16) && decide (members.length ≤ Config.meshDevices)
    trunks := trunksOf (bits (recWord r 7) 32 16) (members.filter fun m => m != bits (recWord r 7) 16 10)
    noDdom := members.filter fun m => m != bits (recWord r 7) 16 10 && !Config.peerDdom m
    record := r }

/-- A partition configuration with no partition on the device may change the mode of the L2: dirty lines are written back, and no
line, Brim entry or Mitten entry stays (R114). -/
def changeMode (s : State) : State :=
  if s.parts = [] then { s with lines := [], l1 := [], brim := [], mitten := [], outDirs := [], remoteCopies := [] } else s

/-- The slices of a partition's own clusters make room for its remote section (R129). -/
def roomForRemote (part : Nat) (s : State) : State :=
  let own := (countFrom 0 Config.deviceSlices).filter fun n => (partOf s part).clmask.getLsbD (n / Config.clusterSlices)
  if s.lines.isEmpty ∨ (partOf s part).rsec = 0 then s else own.foldl (fun s n => makeRoom 0 n s) s

/-- CREATE: whole or not at all. A device has one partition in a domain at most (R138). -/
def createPart (port : Nat) (members : List Nat) (part : Nat) (s : State) : Nat × State :=
  let r := mailBytes s port 8 128
  if !recReserved r then (0x10, s)
  else if hasPart s part then (0x11, s)
  else if 8 ≤ part ∨ s.tripped ∨ !recFits s port r then (0x12, s)
  else (0, roomForRemote part { changeMode s with parts := s.parts ++ [partOfRecord part port members r] })

def execCreate (s : State) : Host.Outcome State Fault Refusal :=
  .next (match s.arg with
    | .create port members => runCommand 1 port (createPart port members) s
    | _ => s)

/-- DESTROY: resets the partition, then frees what it holds. -/
def destroyPart (port part : Nat) (s : State) : Nat × State :=
  if boundTo s port part then
    let s := resetPartition 0xF0 part s
    (0, { s with
      parts := s.parts.filter fun q => q.id != part
      launches := s.launches.filter fun l => l.part != part
      ports := s.ports.map fun p => { p with decoders := setAt p.decoders part none }
      outDirs := s.outDirs.filter fun d => d.ref.part != part })
  else (0x11, s)

def execDestroy (s : State) : Host.Outcome State Fault Refusal :=
  .next (onNum (fun port s => runCommand 2 port (destroyPart port) s) s)

/-- RESET. -/
def execReset (s : State) : Host.Outcome State Fault Refusal :=
  .next (onNum (fun port s => runCommand 3 port (fun part s =>
    if boundTo s port part then (0, resetPartition 0xF0 part s) else (0x11, s)) s) s)

/-- QUERY. -/
def execQuery (s : State) : Host.Outcome State Fault Refusal :=
  .next (onNum (fun port s => runCommand 4 port (fun part s =>
    if boundTo s port part then (0, writeMail port 8 (partOf s part).record s) else (0x11, s)) s) s)

/-! ### Attestation (R328) -/

/-- The digest of the started firmware; 0 in minimal mode (R402). -/
def firmwareDigest (s : State) : BitVec 384 := if s.startup.phase = .minimal then 0 else s.startup.digest

/-- Bytes 0 to 255 of the response to a nonce. In minimal mode HWCFG counts what the last start found (log entry 44). -/
def attestBody (s : State) (part : Nat) (nonce : List Byte) : List Byte :=
  nonce ++ octets 48 (sha384 Config.romImage).toNat ++ octets 48 (firmwareDigest s).toNat
    ++ octets 48 (sha384 (partOf s part).record).toNat
    ++ leBytes 8 (if s.startup.phase = .minimal then 0 else s.startup.version.toNat) ++ leBytes 8 (hwcfgOf s).toNat
    ++ List.replicate 48 0

/-- The ECDSA signature of the alias key over bytes, hashed with SHA-384; each takes a secret number of its own. -/
def signature (s : State) (data : List Byte) : List Byte :=
  octets 96 (ecdsaSign (Config.aliasKey s.startup.secret (firmwareDigest s)) (Config.signNumber s.startup.signatures) (sha384 data)).toNat

/-- The certificates of the identity key and of the alias key. -/
def certificates (s : State) : List Byte :=
  s.startup.certificate ++ Config.aliasCertificate s.startup.secret (firmwareDigest s)

/-- One more signature has been made. -/
def countSignature (s : State) : State := { s with startup := { s.startup with signatures := s.startup.signatures + 1 } }

/-- ATTEST: the response goes to host memory. -/
def attestPart (port part : Nat) (s : State) : Nat × State :=
  let to' := mailWord s port 56
  if s.startup.phase ≠ .minimal ∧ !boundTo s port part then (0x11, s)
  else if to' % 128 ≠ 0 then (0x10, s)
  else
    let body := attestBody s part (mailBytes s port 8 48)
    (0, countSignature (reply (.hostWrite port (BitVec.ofNat 64 to') (body ++ signature s body)) s))

def execAttest (s : State) : Host.Outcome State Fault Refusal :=
  .next (onNum (fun port s => command 5 port (attestPart port) s) s)

/-- GET_CERTIFICATE (R328): the certificate chain of the keys. -/
def execSpdmGetCertificate (s : State) : Host.Outcome State Fault Refusal :=
  .next (onNum (fun port s =>
    if portServes s port then reply (.spdm port (certificates s)) s else s) s)

/-- CHALLENGE and GET_MEASUREMENTS (R328): a body signed together with the nonce. -/
def spdmSigned (body : State → List Byte) (s : State) : State :=
  match s.arg with
  | .spdm port nonce =>
    if portServes s port then
      let b := octets 32 nonce.toNat ++ body s
      countSignature (reply (.spdm port (b ++ signature s b)) s)
    else s
  | _ => s

/-- CHALLENGE (R328). -/
def execSpdmChallenge (s : State) : Host.Outcome State Fault Refusal :=
  .next (spdmSigned (fun s => octets 48 (sha384 (certificates s)).toNat) s)

/-- GET_MEASUREMENTS (R328): the ROM and the started firmware. -/
def execSpdmGetMeasurements (s : State) : Host.Outcome State Fault Refusal :=
  .next (spdmSigned (fun s => Config.spdmMeasurements (sha384 Config.romImage) (firmwareDigest s)) s)

/-! ### Power and heat (R329, R330) -/

/-- POWERCAP: 600 to 2,400 W. -/
def execPowercap (s : State) : Host.Outcome State Fault Refusal :=
  .next (onNum (fun port s => runCommand 6 port (fun _ s =>
    let w := mailWord s port 8
    if 600 ≤ w ∧ w ≤ 2400 then (0, mapPort port (fun p => { p with powerCap := w }) s) else (0x12, s)) s) s)

/-- Changes every die, and the points that follow. -/
def mapDies (f : Die → Die) (s : State) : State := settleDies { s with dies := s.dies.map f }

/-- The cap of the device in W: the lesser of the two ports' (R329). -/
def deviceCap (s : State) : Nat := min (portOf s 0).powerCap (portOf s 1).powerCap

/-- POWER_CAP_EXCEED (R329): at a draw above the cap each die goes one point further below what its launches select. -/
def execPowerCapExceed (s : State) : Host.Outcome State Fault Refusal :=
  .next (onNum (fun w s =>
    if deviceCap s < w then mapDies (fun d => { d with lowered := min 3 (d.lowered + 1) }) s else s) s)

/-- POWER_CAP_RELEASE (R329): after 10 ms below 95 % of the cap each die comes one point back. -/
def execPowerCapRelease (s : State) : Host.Outcome State Fault Refusal :=
  .next (onNum (fun w s =>
    if 100 * w < 95 * deviceCap s then mapDies (fun d => { d with lowered := d.lowered - 1 }) s else s) s)

/-- A die's thermal hold is set or released. -/
def holdDie (h : Bool) (die : Nat) (s : State) : State :=
  settleDies { s with dies := setAt s.dies die { getAt Die.reset s.dies die with hold := h } }

/-- THERMAL_HOLD (R330). -/
def execThermalHold (s : State) : Host.Outcome State Fault Refusal := .next (onNum (holdDie true) s)

/-- THERMAL_HOLD_RELEASE (R330). -/
def execThermalHoldRelease (s : State) : Host.Outcome State Fault Refusal := .next (onNum (holdDie false) s)

/-- THERMAL_TRIP (R330): every partition is reset, and CREATE is refused (log entry 102). -/
def execThermalTrip (s : State) : Host.Outcome State Fault Refusal :=
  .next (resetParts 0xF2 s.parts { s with tripped := true })

/-- THERMAL_TRIP_CLEAR (R330). -/
def execThermalTripClear (s : State) : Host.Outcome State Fault Refusal := .next { s with tripped := false }

/-! ### Memory errors (R381, R382, R398) -/

/-- A memory error is recorded: cause 0x73. -/
def eccRecord (part asid : Nat) (va : Word) (s : State) : State := deviceRecord part 0x73 0 0 va asid s

/-- The home HC sets HELD in its leaf of the page, and the lines of the page homed there leave the L2: every access then asks the HC
(R382). -/
def holdPage (part asid off : Nat) (s : State) : State :=
  match walk s part asid off with
  | some l =>
    dropPage part asid (off / 2 ^ l.pageBits * 2 ^ l.pageBits) (2 ^ l.pageBits) (homeHc off)
      (writePte l.entryPa (Pte.setBit l.entry 57 true) s)
  | none => s

/-- The line of a physical address carries an error. -/
def markBad (pa : Nat) (s : State) : State :=
  if s.badLines.contains (pa / 128) then s else { s with badLines := s.badLines ++ [pa / 128] }

/-- The partition and offset of a frame of a pool. -/
def poolOwner (s : State) (pa : Nat) : Option (Nat × Nat) :=
  s.parts.findSome? fun q =>
    (findFirst (fun i => decide (i < (unitsOf q).length) && (let u := unitBase (getAt 0 (unitsOf q) i)
        decide (u ≤ pa ∧ pa < u + 2 ^ 30 ∧ i * 2 ^ 30 + (pa - u) < poolBytes q)))
      (countFrom 0 ((poolBytes q + 2 ^ 30 - 1) / 2 ^ 30))).map fun i =>
        (q.id, poolBase q.id + i * 2 ^ 30 + (pa - unitBase (getAt 0 (unitsOf q) i)))

/-- An error in HBM data: the page is held, with a record of the line; of a pool, whose granules are in no table, the lines of the granule
leave the L2, so that its HC is asked (R382). -/
def hbmError (pa : Nat) (s : State) : State :=
  let s := markBad pa s
  let (part, asid, g) := mapGet noFrame s.frames (pa / 65536)
  match poolOwner s pa with
  | some (part, off) =>
    eccRecord part 4095 (userVA (partOf s part).node (off / 128 * 128))
      (dropPage part 4095 (off / 65536 * 65536) 65536 (homeHc off) s)
  | none =>
    if hasPart s part then
      let off := g * 65536 + pa % 65536
      let s := if (walk s part asid off).any fun l => l.pa == pa then holdPage part asid off s else s
      eccRecord part asid (userVA (partOf s part).node (off / 128 * 128)) s
    else s

/-- An error in a dirty line: its granule is held and the line is gone. -/
def dirtyError (r : LineRef) (s : State) : State :=
  match findLine s r with
  | none => s
  | some l =>
    eccRecord r.part r.asid (userVA (partOf s r.part).node r.va)
      (dropLine r (l1Drop (fun c => c.ref == r && c.coh == 1) (holdPage r.part r.asid r.va (markBad l.pa s))))

/-- An error in a Brim entry: its granule is held, the entry is gone, and its launch ends. -/
def brimError (id : Nat) (s : State) : State :=
  match findFirst (fun e => e.id == id) s.brim with
  | none => s
  | some e =>
    endLaunch e.launch 3 0x73 (eccRecord e.ref.part e.ref.asid (userVA (partOf s e.ref.part).node e.ref.va)
      (holdPage e.ref.part e.ref.asid e.ref.va { s with brim := s.brim.filter fun x => x.id != id }))

/-- An error in a Cuff entry that has left its gang's core: likewise. -/
def cuffError (gang order : Nat) (s : State) : State :=
  match gangOf s gang with
  | none => s
  | some g =>
    match findFirst (fun e => e.order == order && e.log.isSome) g.cuff with
    | none => s
    | some e =>
      endLaunch g.launch 3 0x73 (eccRecord g.part g.asid (userVA (partOf s g.part).node e.line)
        (holdPage g.part g.asid e.line (mapGang gang (fun g => { g with cuff := g.cuff.filter fun x => x.order != order }) s)))

/-- An error in what only a launch keeps: it ends, with a record. -/
def launchError (n : Nat) (s : State) : State :=
  let l := launchOf s n
  if l.phase = .running then endLaunch n 3 0x73 (eccRecord l.part l.asid 0 s) else s

/-- The launch whose tile holds entry i of a core's tile table, its workgroups in the order of their launches. -/
def tileOwner (i : Nat) : List Launch → Option Nat
  | [] => none
  | l :: r => if i < l.tiles.length then some l.id else tileOwner (i - l.tiles.length) r

/-- An error in an entry that a walk reads, at a physical address: every access whose walk reads it is refused as on a held page until it
is written again (R382); in the tables of a pool the partition is reset (R398). -/
def walkError (part asid pa : Nat) (va : Word) (s : State) : State :=
  let s := eccRecord part asid va s
  if (poolIndex s part (offsetOf va)).isSome then resetPartition 0xF0 part s
  else if s.badEntries.contains pa then s else { s with badEntries := s.badEntries ++ [pa] }

/-- An error in a late-fault entry: it is gone, with a record, and its gang hears no more of it; the fault of its instruction keeps what
other entries of it gave. -/
def lateError (id : Nat) (s : State) : State :=
  match findFirst (fun e => e.id == id) s.late with
  | none => s
  | some e =>
    let s := eccRecord e.part e.asid e.va (dropEntry 0x73 e s)
    match e.gang with
    | some n => mapGang n (forget e (others e s)) s
    | none => s
where
  /-- the deferred fault of the entry's instruction is that of its other entries, or goes with the last -/
  forget (e : LateEntry) (xs : List LateEntry) (g : Gang) : Gang :=
    let mine (f : HeldFault) : Bool := f.kind == 2 && f.serial == e.serial && f.pc == e.pc
    let left (f : HeldFault) : BitVec 64 := xs.foldl (fun m y => m ||| y.lanes) (f.lanes &&& ~~~e.lanes)
    let first := leastBy (fun a b => decide (lowest a.lanes < lowest b.lanes)) xs
    { g with faults := (g.faults.filter fun f => !(mine f && xs.isEmpty && left f == 0)).map fun f =>
        if mine f then { f with lanes := left f, va := if f.va = e.va then first.elim f.va fun x => x.va else f.va } else f }
  /-- the other entries of the instruction that have been recorded -/
  others (e : LateEntry) (s : State) : List LateEntry :=
    s.late.filter fun x => x.id != e.id && x.gang == e.gang && x.serial == e.serial && x.pc == e.pc && x.recorded && x.cause.isSome

/-- ECC_UNCORRECTABLE (R382), by where the error lies. -/
def eccError (loc : EccLoc) (s : State) : State :=
  match loc with
  | .hbm pa => hbmError pa s
  | .dirtyLine r => dirtyError r s
  | .brim id => brimError id s
  | .cuff gang order => cuffError gang order s
  | .cleanLine r =>
    { dropLine r (l1Drop (fun c => c.ref == r && c.coh == 1) s) with corrected := s.corrected + 1 }
  | .l1 core r => { l1Drop (fun c => c.core == core && c.ref == r) s with corrected := s.corrected + 1 }
  | .hpcc port addr =>
    (match hpccOf s port addr with
      | some l => { dropHostLine l s with corrected := s.corrected + 1 }
      | none => s)
  | .icache core va =>
    { s with
      icache := s.icache.filter fun l => !(l.core == core && l.ref.va == va / 128 * 128)
      corrected := s.corrected + 1 }
  | .registerFile gang => (match gangOf s gang with
    | some g => launchError g.launch s
    | none => s)
  | .scratchpad core i => (match tileOwner i (residentWgs s core) with
    | some n => launchError n s
    | none => s)
  | .accumulator launch _ => launchError launch s
  | .mitten id => (match findFirst (fun u => u.id == id) s.mitten with
    | some u => launchError u.launch s
    | none => s)
  | .pageTable part _ pa va asid => walkError part asid pa va s
  | .lateQueue id => lateError id s
  | .trapBlock part => resetPartition 0xF0 part (eccRecord part 4095 0 s)

def execEccUncorrectable (s : State) : Host.Outcome State Fault Refusal :=
  .next (match s.arg with
    | .ecc loc => eccError loc s
    | _ => s)

/-- ECC_CORRECTED (R381): the word is written back and counted; no value changes. -/
def execEccCorrected (s : State) : Host.Outcome State Fault Refusal := .next { s with corrected := s.corrected + 1 }

/-- HBM_SCRUB (R381): an HC reads through its share; the words it writes back are what they were. -/
def execHbmScrub (s : State) : Host.Outcome State Fault Refusal := .next s

/-! ### Firmware and the start of the device (R326, R327, R400 to R402) -/

/-- The key of an image is the fused one, and signs the SHA-384 digest of its octets (R326), among which its version is not (log entry
109). -/
def verified (u : Startup) (i : FwImage) : Bool := decide (sha384 i.key = u.fusedKey) && ecdsaVerify i.key (sha384 i.body) i.signature

/-- STAGE: a verified image goes to the slot that did not start the device, which the next start reads first (R327; log entry 93). -/
def stageImage (image : FwImage) (s : State) : Nat × State :=
  let u := s.startup
  if !verified u image || decide (image.version.toNat < u.minVersion.toNat) then (0x13, s)
  else (0, { s with startup :=
    if u.boot = 1 then { u with slotB := some image, first := 2 } else { u with slotA := some image, first := 1 } })

/-- A STAGE in its turn becomes busy and asks its host for the image at the address in offset 8 (R320). Over a lost link no image
comes: it ends as one whose image is rejected (log entry 109). -/
def askImage (port : Nat) (s : State) : State :=
  if (portOf s port).down then command 7 port (fun _ s => (0x13, s)) s
  else if served s 7 port && mailStatus s port == 1 then
    reply (.imageRead port (BitVec.ofNat 64 (mailWord s port 8))) (setStatus port 2 s)
  else s

def execStage (s : State) : Host.Outcome State Fault Refusal :=
  .next (match s.arg with
    | .num port => askImage port s
    | .stage port image => if mailStatus s port = 2 then command 7 port (fun _ s => stageImage image s) s else s
    | _ => s)

/-- STARTREC: the start-failure record. -/
def execStartrec (s : State) : Host.Outcome State Fault Refusal :=
  .next (onNum (fun port s => command 8 port (fun _ s =>
    (0, writeMail port 8 (s.startup.record.flatMap fun w => leBytes 8 w.toNat) s)) s) s)

/-- A start begins: nothing but flash, HBM and the sensors keeps its state, and the mailboxes, of which one whose command has not
ended is empty (log entry 42). -/
def beginStart (s : State) : State :=
  { State.reset with
    mem := s.mem, badLines := s.badLines, tripped := s.tripped, dies := s.dies.map fun d => { Die.reset with hold := d.hold }
    ports := (countFrom 0 s.ports.length).map fun i =>
      let p := portOf s i
      { Port.reset with mailbox := if s.posted.contains i then [] else p.mailbox, linkUp := false, flit := p.flit }
    startup := { s.startup with phase := .running, step := 1 }
    cycle := s.cycle, ticks := s.ticks, nextId := s.nextId, arg := s.arg, agenda := s.agenda, outbox := s.outbox }

/-- RESTART: bit 0 at offset 8 clears COUNT; every partition is reset, then the device starts. -/
def execRestart (s : State) : Host.Outcome State Fault Refusal :=
  .next (onNum (fun port s =>
    let go := served s 9 port && mailStatus s port == 2
    let clear := (mailWord s port 8).testBit 0
    let s := command 9 port (fun _ s => (0, s)) s
    if go then
      let s := if clear then { s with startup := { s.startup with count := 0 } } else s
      let s := if s.startup.phase = .minimal then s else resetParts 0xF0 s.parts s
      beginStart s
    else s) s)

/-- What step 2 finds of a slot: 1 verified, 2 rejected, 3 below the fused minimum (R401). A slot without an image counts as rejected
(log entry 108). -/
def slotResult (u : Startup) : Option FwImage → Nat
  | none => 2
  | some i => if !verified u i then 2 else if i.version.toNat < u.minVersion.toNat then 3 else 1

/-- What step 2 finds once `tried` slots have been verified: SLOTA and SLOTB, the slot that starts (0 for none), its image, and the
version of the last image tried. The other slot is tried only where the first fails (R326). -/
structure BootScan where
  slotA : Nat
  slotB : Nat
  boot : Nat
  image : Option FwImage
  version : Nat
  deriving DecidableEq, Repr

def slotOf (u : Startup) (n : Nat) : Option FwImage := if n = 2 then u.slotB else u.slotA

def bootScan (u : Startup) (tried : Nat) : BootScan :=
  let f := if u.first = 2 then 2 else 1
  let g := 3 - f
  let rf := if tried = 0 then 0 else slotResult u (slotOf u f)
  let rg := if rf ≤ 1 ∨ tried < 2 then 0 else slotResult u (slotOf u g)
  let boot := if rf = 1 then f else if rg = 1 then g else 0
  let last := if 1 < rf ∧ 2 ≤ tried ∧ (slotOf u g).isSome then g else f
  { slotA := if f = 1 then rf else rg
    slotB := if f = 1 then rg else rf
    boot := boot
    image := if boot = 0 then none else slotOf u boot
    version := (slotOf u last).elim 0 fun x => x.version.toNat }

/-- Clusters out of service: those that failed, those of a die without an HBM stack, and die 1's without the bridge. -/
def clustersLost (e : StartReport) : BitVec 64 :=
  e.clustersOut ||| (if e.hbmOut &&& 0x0F = 0x0F then 0x00000000FFFFFFFF#64 else 0)
    ||| (if e.hbmOut &&& 0xF0 = 0xF0 ∨ e.bridgeOut then 0xFFFFFFFF00000000#64 else 0)

/-- The words of the start-failure record (R401). BOOT is the slot of the last start that completed (log entry 108). -/
def startRecord (u : Startup) (e : StartReport) (step reason count slotA slotB fwver : Nat) (minimal : Bool) : List Word :=
  [BitVec.ofNat 64 (reason + step * 2 ^ 8 + count % 256 * 2 ^ 16 + bit minimal * 2 ^ 24 + slotA * 2 ^ 26 + slotB * 2 ^ 28
      + u.boot * 2 ^ 30),
    BitVec.ofNat 64 (e.hbmOut.toNat + e.fportOut.toNat * 2 ^ 8 + e.hportOut.toNat * 2 ^ 32 + bit e.bridgeOut * 2 ^ 34),
    clustersLost e,
    BitVec.ofNat 64 (fwver + u.minVersion.toNat * 2 ^ 32)]

/-- The units that a start takes out of service. -/
def outOfService (e : StartReport) (s : State) : State :=
  { s with
    clustersOut := clustersLost e
    hbmOut := e.hbmOut
    hcOut := e.hcOut
    sliceOut := e.sliceOut
    fportOut := e.fportOut
    bridgeOut := e.bridgeOut }

/-- A start fails at a step: it is counted and recorded. -/
def failStart (e : StartReport) (step reason slotA slotB fwver : Nat) (s : State) : State :=
  let u := s.startup
  let n := min 255 (u.count + 1)
  { outOfService e s with
    startup := { u with phase := .failed, step := step, count := n
                        record := startRecord u e step reason n slotA slotB fwver false } }

/-- A start that completes step 4: the image runs, the fused minimum rises to its version, the ports come up
(port 1 lies on die 1, R15). -/
def completeStart (e : StartReport) (boot : Nat) (image : FwImage) (s : State) : State :=
  let u := s.startup
  { outOfService e s with
    ports := (countFrom 0 2).map fun i =>
      let p := portOf s i
      { p with linkUp := !e.hportOut.getLsbD i && !(e.bridgeOut && i == 1) }
    startup := { u with
      phase := .started, step := 4, boot := boot, digest := sha384 image.body, version := image.version
      minVersion := if u.minVersion.toNat < image.version.toNat then image.version else u.minVersion, count := 0 } }

/-- DEVICE_START (R326). -/
def deviceStart (e : StartReport) (s : State) : State :=
  if s.startup.phase ≠ .running then s
  else
    let x := bootScan s.startup 2
    if !e.romOk then failStart e 1 1 0 0 0 s
    else
      match x.image with
      | none => failStart e 2 2 x.slotA x.slotB x.version s
      | some i =>
        if clustersLost e = BitVec.ofNat 64 (2 ^ 64 - 1) then failStart e 3 3 x.slotA x.slotB x.version s
        else completeStart e x.boot i s

def execDeviceStart (s : State) : Host.Outcome State Fault Refusal :=
  .next (match s.arg with
    | .start e => deviceStart e s
    | _ => s)

/-- START_STEP_TIMEOUT (R400): a step has exceeded its bound; the record says what had been found until then (R401). -/
def execStartStepTimeout (s : State) : Host.Outcome State Fault Refusal :=
  .next (match s.arg with
    | .startTimeout step tried e =>
      if s.startup.phase = .running then
        let x := bootScan s.startup (if step ≤ 1 then 0 else if step = 2 then tried else 2)
        failStart e step 4 x.slotA x.slotB (if step ≤ 1 then 0 else x.version) s
      else s
    | _ => s)

/-- Bit 24 of the first word of the record: minimal mode was entered. -/
def markMinimal : List Word → List Word
  | [] => []
  | w :: r => (w ||| 0x01000000#64) :: r

/-- START_RETRY (R400): another start, or minimal mode after the third failure (R402). -/
def execStartRetry (s : State) : Host.Outcome State Fault Refusal :=
  .next (
    if s.startup.phase ≠ .failed then s
    else if s.startup.count < 3 then beginStart s
    else
      { s with
        ports := s.ports.map fun p => { p with linkUp := true, flit := false }
        startup := { s.startup with phase := .minimal, minimalPort := 0, record := markMinimal s.startup.record } })

/-- MINIMAL_PORT_FALLBACK (R402): port 1 serves instead of port 0. -/
def execMinimalPortFallback (s : State) : Host.Outcome State Fault Refusal :=
  .next (if s.startup.phase = .minimal then { s with startup := { s.startup with minimalPort := 1 } } else s)

/-- CONFIGURATION_REQUEST (R326): answered with Retry Status until step 4; it may ask for a device reset, which starts the
device anew. -/
def execConfigurationRequest (s : State) : Host.Outcome State Fault Refusal :=
  .next (match s.arg with
    | .numBool port reset =>
      let s := if portServes s port then reply (.configDone port) s else reply (.configRetry port) s
      if reset then beginStart s else s
    | _ => s)

/-! ### BAR 0 and BAR 2 (R319, R320, R322, R329, R345, R387) -/

/-- A port's command leaves the line of those that wait for the system controller. -/
def unpost (port : Nat) (s : State) : State := { s with posted := s.posted.filter fun p => p != port }

/-- A write of a mailbox word: one of the command word is dropped while a command is busy, and posts a command where it sets
STATUS to 1. -/
def writeMailbox (port off : Nat) (v : Word) (s : State) : State :=
  if off ≠ 0 then writeMail port off (leBytes 8 v.toNat) s
  else if mailStatus s port = 2 then s
  else
    let s := writeMail port 0 (leBytes 8 v.toNat) s
    if mailStatus s port ≠ 1 then unpost port s
    else if s.posted.contains port then s
    else { s with posted := s.posted ++ [port] }

/-- What lies at an offset of BAR 0. -/
inductive BarTarget where
  | mailbox (off : Nat)
  /-- the operating point of a die (R329; log entry 81) -/
  | power (die : Nat)
  /-- a register of the partition control registers, by its number -/
  | control (part n : Nat)
  /-- a word of the trap block, the dead-peer bitmap or the aperture map -/
  | space (part a : Nat)
  deriving DecidableEq, Repr

/-- Registers that the window of a partition shows: those of R322 and its event counters (R332). -/
def windowControl (n : Nat) : Bool := decide ((0x100 ≤ n ∧ n ≤ 0x10F) ∨ (0x180 ≤ n ∧ n ≤ 0x184) ∨ (0x190 ≤ n ∧ n ≤ 0x19F))

/-- Words that the window of a partition shows. -/
def windowSpace (a : Nat) : Bool :=
  decide ((0x30000 ≤ a ∧ a < 0x30030) ∨ (0x30100 ≤ a ∧ a < 0x30180) ∨ (0x40000 ≤ a ∧ a < 0x40400))

/-- The word of BAR 0 at an offset, where a table assigns one. -/
def barTarget (off : Nat) : Option BarTarget :=
  let part := off / 0x100000 - 1
  let a := off % 0x100000
  if off % 8 ≠ 0 then none
  else if off < 256 then some (.mailbox off)
  else if off = 0x20000 ∨ off = 0x20008 then some (.power ((off - 0x20000) / 8))
  else if off < 0x100000 ∨ 0x900000 ≤ off then none
  else if 0x10000 ≤ a ∧ a < 0x11000 ∧ windowControl ((a - 0x10000) / 8) then some (.control part ((a - 0x10000) / 8))
  else if windowSpace a then some (.space part a)
  else none

/-- A port reaches its mailbox, the power registers of a started device, and the windows of the partitions bound to it. -/
def barReaches (s : State) (port : Nat) : BarTarget → Bool
  | .mailbox _ => portServes s port
  | .power _ => portServes s port && decide (s.startup.phase = .started)
  | .control part _ => portServes s port && boundTo s port part
  | .space part _ => portServes s port && boundTo s port part

/-- A read of BAR 0. -/
def barRead (s : State) (port : Nat) : BarTarget → Word
  | .mailbox off => BitVec.ofNat 64 (mailWord s port off)
  | .power die => BitVec.ofNat 64 (getAt Die.reset s.dies die).point
  | .control part n => (partSpecial s (partOf s part) n).getD 0
  | .space part a => controlWord (partOf s part) a

/-- Every bit of a word is written. -/
def allBits : Word := BitVec.ofNat 64 (2 ^ 64 - 1)

/-- A write of BAR 0; a register that cannot be written keeps its value. -/
def barWrite (port : Nat) (v : Word) (s : State) : BarTarget → State
  | .mailbox off => writeMailbox port off v s
  | .power _ => s
  | .control part n => mapPart part (writeControlReg s.ticks n v) s
  | .space part a => writeControl part a v allBits s

/-- The step that performs a host's write. -/
def barStep : BarTarget → Instr
  | .control _ n => if 0x190 ≤ n ∧ n ≤ 0x19F then .eselWrite else .registerWrite
  | .space _ a =>
    if 0x40000 ≤ a then .apertureMapWrite else if a = 0x30008 ∨ a = 0x30010 then .fqConfigWrite else .registerWrite
  | _ => .registerWrite

/-- The word of BAR 0 that a port reaches at an offset; no other access is supported. -/
def barAt (s : State) (port off : Nat) : Option BarTarget :=
  match barTarget off with
  | some t => if barReaches s port t then some t else none
  | none => none

/-- A host's write of BAR 0 as the step of a kind of register performs it. -/
def hostStore (i : Instr) (s : State) : State :=
  match s.arg with
  | .bar port off (some v) =>
    match barAt s port off with
    | some t => if barStep t = i then barWrite port v s t else s
    | none => if i = .registerWrite then reply (.hostUnsupported port) s else s
  | _ => s

/-- A host's read of BAR 0. -/
def hostLoad (port off : Nat) (s : State) : State :=
  match barAt s port off with
  | some t => reply (.barData port off (barRead s port t)) s
  | none => reply (.hostUnsupported port) s

/-- A host sets an HDM decoder; one whose partition is not bound to the port stays disabled, and without CXL there is none. -/
def setDecoder (port k : Nat) (base : Word) (on : Bool) (s : State) : State :=
  if cxlOn s port ∧ k < 8 then
    mapPort port (fun p => { p with decoders := setAt p.decoders k (if on ∧ boundTo s port k then some base else none) }) s
  else reply (.hostUnsupported port) s

/-- A host reads an HDM decoder: its base where it is committed. -/
def readDecoder (port k : Nat) (s : State) : State :=
  match (s.ports)[port]? with
  | some p => if cxlOn s port ∧ k < 8 then reply (.decoderData port k (getAt none p.decoders k)) s else reply (.hostUnsupported port) s
  | none => s

/-- REGISTER_WRITE (R319, R322): also the read of any register, and the HDM decoders. -/
def execRegisterWrite (s : State) : Host.Outcome State Fault Refusal :=
  .next (match s.arg with
    | .bar port off none => hostLoad port off s
    | .decoder port k base on => setDecoder port k base on s
    | .num2 port k => readDecoder port k s
    | _ => hostStore .registerWrite s)

/-- APERTURE_MAP_WRITE (R150). -/
def execApertureMapWrite (s : State) : Host.Outcome State Fault Refusal := .next (hostStore .apertureMapWrite s)

/-- FQ_CONFIG_WRITE (R345). -/
def execFqConfigWrite (s : State) : Host.Outcome State Fault Refusal := .next (hostStore .fqConfigWrite s)

/-- ESEL_WRITE (R331). -/
def execEselWrite (s : State) : Host.Outcome State Fault Refusal := .next (hostStore .eselWrite s)

end Sys2Proof.Machine
end

