-- ==== Sys2Proof/Machine/Scalar.lean ====
section
/-! DEFINITION. Scalar ALU instructions (spec/09_isa_scalar_control.md R189 to R194). Every one executes once per split,
reads its sources with its trap bits, writes one scalar register full and has weight 1. -/

namespace Sys2Proof.Machine

/-- The destination of a scalar field, if it names a register. -/
def dstS (f : BitVec 7) : List Nat := if sOk f then [codeS f.toNat] else []

/-- A two-source instruction (R190): d := f(a, b). -/
def scalar3 (word : BitVec 32) (o : Op3R) (f : Word → Word → Word) (s : State) : State :=
  issue { Form.plain word 1 with
      bad := if sOk o.d && sOk o.a && sOk o.b then none else some 0x03
      srcs := srcS o.a o.ta ++ srcS o.b o.tb
      dsts := dstS o.d } noCheck
    (fun s => finish 1 (setS o.d.toNat (f (getS s o.a.toNat) (getS s o.b.toNat)) s)) s

/-- A one-source instruction (R192): d := f(a). -/
def scalar2 (word : BitVec 32) (o : Op3A) (f : Word → Word) (s : State) : State :=
  issue { Form.plain word 1 with
      bad := if sOk o.d && sOk o.a then none else some 0x03
      srcs := srcS o.a o.ta
      dsts := dstS o.d } noCheck
    (fun s => finish 1 (setS o.d.toNat (f (getS s o.a.toNat)) s)) s

/-- An immediate instruction (R193): d := f(a). -/
def scalarImm (word : BitVec 32) (ta : Bool) (d a : BitVec 7) (f : Word → Word) (s : State) : State :=
  scalar2 word { ta := ta, d := d, a := a } f s

/-- A constant instruction (R194): d := f(old d), reading d only where `rd` says so. -/
def scalarConst (word : BitVec 32) (d : BitVec 7) (rd : Bool) (f : Word → Word) (s : State) : State :=
  issue { Form.plain word 1 with
      bad := if sOk d then none else some 0x03
      srcs := if rd then srcS d false else []
      dsts := dstS d } noCheck
    (fun s => finish 1 (setS d.toNat (f (getS s d.toNat)) s)) s

/-! ### The results of R190 to R192 -/

/-- The signed quotient truncated toward zero, with the fixed results of R191. -/
def sdivWord (x y : Word) : Word :=
  if y = 0 then BitVec.ofInt 64 (-1)
  else BitVec.ofInt 64 (Int.tdiv x.toInt y.toInt)

/-- The unsigned quotient (R191). -/
def udivWord (x y : Word) : Word := if y = 0 then BitVec.ofInt 64 (-1) else BitVec.ofNat 64 (x.toNat / y.toNat)

/-- The signed remainder, of the sign of the dividend (R191). -/
def sremWord (x y : Word) : Word := if y = 0 then x else BitVec.ofInt 64 (Int.tmod x.toInt y.toInt)

/-- The unsigned remainder (R191). -/
def uremWord (x y : Word) : Word := if y = 0 then x else BitVec.ofNat 64 (x.toNat % y.toNat)

/-- The amount of a shift: bits [5:0] of b. -/
def shiftOf (y : Word) : Nat := y.toNat % 64

def shlWord (x y : Word) : Word := x <<< shiftOf y
def shrWord (x y : Word) : Word := x >>> shiftOf y
def sraWord (x y : Word) : Word := x.sshiftRight (shiftOf y)

/-- x[63:53] ‖ ((x[52:0] + y) mod 2^53). -/
def leaWord (x y : Word) : Word :=
  BitVec.ofNat 64 (x.toNat / 2 ^ 53 * 2 ^ 53 + (x.toNat % 2 ^ 53 + y.toNat) % 2 ^ 53)

/-- A truth value as a scalar. -/
def boolWord (b : Bool) : Word := if b then 1 else 0

/-- 0 bits above the highest 1 bit of w bits; w for 0. -/
def clzNat (w x : Nat) : Nat := w - bitLength x

/-- 0 bits below the lowest 1 bit; w for 0. -/
def ctzNat : Nat → Nat → Nat
  | 0, _ => 0
  | w + 1, x => if x % 2 = 1 then 0 else ctzNat w (x / 2) + 1

/-- 1 bits among the low w bits. -/
def popNat : Nat → Nat → Nat
  | 0, _ => 0
  | w + 1, x => x % 2 + popNat w (x / 2)

/-! ### The meanings -/

/-- R190: x + y modulo 2^64. -/
def execAdd (o : Op3R) (s : State) : Host.Outcome State Fault Refusal :=
  .next (scalar3 (wordOf (encode (.add o))) o (fun x y => x + y) s)

/-- R190: x − y modulo 2^64. -/
def execSub (o : Op3R) (s : State) : Host.Outcome State Fault Refusal :=
  .next (scalar3 (wordOf (encode (.sub o))) o (fun x y => x - y) s)

/-- R190: the low 64 bits of x × y. -/
def execMul (o : Op3R) (s : State) : Host.Outcome State Fault Refusal :=
  .next (scalar3 (wordOf (encode (.mul o))) o (fun x y => x * y) s)

/-- R190: the high 64 bits of the signed product. -/
def execMulh (o : Op3R) (s : State) : Host.Outcome State Fault Refusal :=
  .next (scalar3 (wordOf (encode (.mulh o))) o (fun x y => BitVec.ofInt 64 (x.toInt * y.toInt / 2 ^ 64)) s)

/-- R190: the high 64 bits of the unsigned product. -/
def execMulhn (o : Op3R) (s : State) : Host.Outcome State Fault Refusal :=
  .next (scalar3 (wordOf (encode (.mulhn o))) o (fun x y => BitVec.ofNat 64 (x.toNat * y.toNat / 2 ^ 64)) s)

/-- R190: the signed quotient truncated toward zero (R191). -/
def execDiv (o : Op3R) (s : State) : Host.Outcome State Fault Refusal :=
  .next (scalar3 (wordOf (encode (.div o))) o (fun x y => sdivWord x y) s)

/-- R190: the unsigned quotient (R191). -/
def execDivn (o : Op3R) (s : State) : Host.Outcome State Fault Refusal :=
  .next (scalar3 (wordOf (encode (.divn o))) o (fun x y => udivWord x y) s)

/-- R190: the signed remainder (R191). -/
def execRem (o : Op3R) (s : State) : Host.Outcome State Fault Refusal :=
  .next (scalar3 (wordOf (encode (.rem o))) o (fun x y => sremWord x y) s)

/-- R190: the unsigned remainder (R191). -/
def execRemn (o : Op3R) (s : State) : Host.Outcome State Fault Refusal :=
  .next (scalar3 (wordOf (encode (.remn o))) o (fun x y => uremWord x y) s)

/-- R190: x AND y. -/
def execAndS (o : Op3R) (s : State) : Host.Outcome State Fault Refusal :=
  .next (scalar3 (wordOf (encode (.andS o))) o (fun x y => x &&& y) s)

/-- R190: x OR y. -/
def execOrS (o : Op3R) (s : State) : Host.Outcome State Fault Refusal :=
  .next (scalar3 (wordOf (encode (.orS o))) o (fun x y => x ||| y) s)

/-- R190: x XOR y. -/
def execXorS (o : Op3R) (s : State) : Host.Outcome State Fault Refusal :=
  .next (scalar3 (wordOf (encode (.xorS o))) o (fun x y => x ^^^ y) s)

/-- R190: x shifted left by y[5:0]. -/
def execShl (o : Op3R) (s : State) : Host.Outcome State Fault Refusal :=
  .next (scalar3 (wordOf (encode (.shl o))) o (fun x y => shlWord x y) s)

/-- R190: x shifted right by y[5:0]. -/
def execShr (o : Op3R) (s : State) : Host.Outcome State Fault Refusal :=
  .next (scalar3 (wordOf (encode (.shr o))) o (fun x y => shrWord x y) s)

/-- R190: x shifted right arithmetically by y[5:0]. -/
def execSra (o : Op3R) (s : State) : Host.Outcome State Fault Refusal :=
  .next (scalar3 (wordOf (encode (.sra o))) o (fun x y => sraWord x y) s)

/-- R190: the lesser of the signed values. -/
def execMinS (o : Op3R) (s : State) : Host.Outcome State Fault Refusal :=
  .next (scalar3 (wordOf (encode (.minS o))) o (fun x y => if x.toInt ≤ y.toInt then x else y) s)

/-- R190: the greater of the signed values. -/
def execMaxS (o : Op3R) (s : State) : Host.Outcome State Fault Refusal :=
  .next (scalar3 (wordOf (encode (.maxS o))) o (fun x y => if x.toInt ≤ y.toInt then y else x) s)

/-- R190: the lesser of the unsigned values. -/
def execMinn (o : Op3R) (s : State) : Host.Outcome State Fault Refusal :=
  .next (scalar3 (wordOf (encode (.minn o))) o (fun x y => if x.toNat ≤ y.toNat then x else y) s)

/-- R190: the greater of the unsigned values. -/
def execMaxn (o : Op3R) (s : State) : Host.Outcome State Fault Refusal :=
  .next (scalar3 (wordOf (encode (.maxn o))) o (fun x y => if x.toNat ≤ y.toNat then y else x) s)

/-- R190: 1 if x < y as signed values. -/
def execSlt (o : Op3R) (s : State) : Host.Outcome State Fault Refusal :=
  .next (scalar3 (wordOf (encode (.slt o))) o (fun x y => boolWord (decide (x.toInt < y.toInt))) s)

/-- R190: 1 if x < y as unsigned values. -/
def execSltn (o : Op3R) (s : State) : Host.Outcome State Fault Refusal :=
  .next (scalar3 (wordOf (encode (.sltn o))) o (fun x y => boolWord (decide (x.toNat < y.toNat))) s)

/-- R190: 1 if x = y. -/
def execSeq (o : Op3R) (s : State) : Host.Outcome State Fault Refusal :=
  .next (scalar3 (wordOf (encode (.seq o))) o (fun x y => boolWord (decide (x = y))) s)

/-- R190: y added within the offset field of x. -/
def execLea (o : Op3R) (s : State) : Host.Outcome State Fault Refusal :=
  .next (scalar3 (wordOf (encode (.lea o))) o (fun x y => leaWord x y) s)

/-- R190: a if the old d is not 0, else b; d is read with trap bit 0. -/
def execSel (o : Op3R) (s : State) : Host.Outcome State Fault Refusal :=
  .next (issue { Form.plain (wordOf (encode (.sel o))) 1 with
      bad := if sOk o.d && sOk o.a && sOk o.b then none else some 0x03
      srcs := srcS o.a o.ta ++ srcS o.b o.tb ++ srcS o.d false
      dsts := dstS o.d } noCheck
    (fun s => finish 1 (setS o.d.toNat (if getS s o.d.toNat ≠ 0 then getS s o.a.toNat else getS s o.b.toNat) s)) s)

/-- R192: leading zero bits of a. -/
def execClz (o : Op3A) (s : State) : Host.Outcome State Fault Refusal :=
  .next (scalar2 (wordOf (encode (.clz o))) o (fun x => BitVec.ofNat 64 (clzNat 64 x.toNat)) s)

/-- R192: trailing zero bits of a. -/
def execCtz (o : Op3A) (s : State) : Host.Outcome State Fault Refusal :=
  .next (scalar2 (wordOf (encode (.ctz o))) o (fun x => BitVec.ofNat 64 (ctzNat 64 x.toNat)) s)

/-- R192: one bits of a. -/
def execPop (o : Op3A) (s : State) : Host.Outcome State Fault Refusal :=
  .next (scalar2 (wordOf (encode (.pop o))) o (fun x => BitVec.ofNat 64 (popNat 64 x.toNat)) s)

/-- R193: a plus the sign-extended immediate. -/
def execAddi (o : Op2I) (s : State) : Host.Outcome State Fault Refusal :=
  .next (scalarImm (wordOf (encode (.addi o))) o.ta o.d o.a (fun x => x + sext64 o.imm) s)

/-- R193: a AND the zero-extended immediate. -/
def execAndi (o : Op2I) (s : State) : Host.Outcome State Fault Refusal :=
  .next (scalarImm (wordOf (encode (.andi o))) o.ta o.d o.a (fun x => x &&& o.imm.setWidth 64) s)

/-- R193: a OR the zero-extended immediate. -/
def execOri (o : Op2I) (s : State) : Host.Outcome State Fault Refusal :=
  .next (scalarImm (wordOf (encode (.ori o))) o.ta o.d o.a (fun x => x ||| o.imm.setWidth 64) s)

/-- R193: a XOR the zero-extended immediate. -/
def execXori (o : Op2I) (s : State) : Host.Outcome State Fault Refusal :=
  .next (scalarImm (wordOf (encode (.xori o))) o.ta o.d o.a (fun x => x ^^^ o.imm.setWidth 64) s)

/-- R193: a shifted left by 0 to 63. -/
def execShli (o : Op2S) (s : State) : Host.Outcome State Fault Refusal :=
  .next (scalarImm (wordOf (encode (.shli o))) o.ta o.d o.a (fun x => shlWord x (o.imm.setWidth 64)) s)

/-- R193: a shifted right by 0 to 63. -/
def execShri (o : Op2S) (s : State) : Host.Outcome State Fault Refusal :=
  .next (scalarImm (wordOf (encode (.shri o))) o.ta o.d o.a (fun x => shrWord x (o.imm.setWidth 64)) s)

/-- R193: a shifted right arithmetically by 0 to 63. -/
def execSrai (o : Op2S) (s : State) : Host.Outcome State Fault Refusal :=
  .next (scalarImm (wordOf (encode (.srai o))) o.ta o.d o.a (fun x => sraWord x (o.imm.setWidth 64)) s)

/-- R194: the sign-extended immediate. -/
def execMovi (o : OpRI) (s : State) : Host.Outcome State Fault Refusal :=
  .next (scalarConst (wordOf (encode (.movi o))) o.d false (fun _ => sext64 o.imm) s)

/-- R194: the old d shifted left by 16 bits, the immediate in its low bits. -/
def execMovh (o : OpRI) (s : State) : Host.Outcome State Fault Refusal :=
  .next (scalarConst (wordOf (encode (.movh o))) o.d true (fun x => x <<< 16 ||| o.imm.setWidth 64) s)

end Sys2Proof.Machine
end

