-- ==== Sys2Proof/Machine/CrossLane.lean ====
section
/-! DEFINITION. Cross-lane instructions (spec/10_isa_vector.md R226 to R233): shuffles, position queries, votes, reductions,
scans, and selection under the total order. Only member lanes are read. -/

namespace Sys2Proof.Machine

/-! ### Shuffles (R227) -/

/-- The segment width: b[10:8] selects it, at most W. -/
def segmentWidth (w y : Nat) : Nat :=
  let k := bits y 8 3
  min (if k = 0 ∨ k = 7 then w else 2 ^ k) w

/-- The kinds of shuffle. -/
inductive Shuffle where
  | index
  | xor
  | up
  | down
  deriving DecidableEq, Repr

/-- The source lane of lane i under b[i] = y. -/
def shuffleLane (k : Shuffle) (w i y : Nat) : Nat :=
  let seg := segmentWidth w y
  let base := i - i % seg
  let m := y % 256
  match k with
  | .index => base + m % seg
  | .xor => base + Nat.xor (i - base) (m % seg)
  | .up => if base + m ≤ i then i - m else i
  | .down => if i + m < base + seg then i + m else i

/-- The lane that lane i reads: its own where the computed one is no member. -/
def shuffleFrom (s : State) (k : Shuffle) (b : Nat) (i : Nat) : Nat :=
  let j := shuffleLane k s.g.width i (fieldBits s b false i)
  if lane s.p.members j then j else i

/-- A shuffle: a lane moves 32 bits, or a register pair where T is a 64-bit type; b is one register for every T (log entry 113). -/
def vecShuffle (word : BitVec 32) (o : Op3R) (k : Shuffle) (s : State) : State :=
  let ls := activeLanes s
  let t := (elemTy s).getD (Ty.n 32)
  issue { Form.plain word 1 with
      bad := if (elemTy s).isSome && vDstOk t.wide o.d && vSrcOk t.wide o.a && vSrcOk false o.b then none else some 0x03
      addrs := srcV o.b.toNat 1 o.tb ls
      srcs := srcV o.a.toNat t.regs o.ta (sortNub (ls.map (shuffleFrom s k o.b.toNat)))
      reads := maskReads s
      dsts := dstV o.d.toNat t.regs ls } noCheck
    (fun s =>
      finish 1 (setVAll (ls.flatMap fun i =>
        let x := fieldBits s o.a.toNat t.wide (shuffleFrom s k o.b.toNat i)
        if t.wide then [(o.d.toNat, i, BitVec.ofNat 32 x), (o.d.toNat + 1, i, BitVec.ofNat 32 (x / 2 ^ 32))]
        else [(o.d.toNat, i, BitVec.ofNat 32 x)]) s)) s

/-- R227: by index within a segment. -/
def execVshf (o : Op3R) (s : State) : Host.Outcome State Fault Refusal :=
  .next (vecShuffle (wordOf (encode (.vshf o))) o .index s)

/-- R227: by XOR within a segment. -/
def execVshfx (o : Op3R) (s : State) : Host.Outcome State Fault Refusal :=
  .next (vecShuffle (wordOf (encode (.vshfx o))) o .xor s)

/-- R227: upward by a distance. -/
def execVshfu (o : Op3R) (s : State) : Host.Outcome State Fault Refusal :=
  .next (vecShuffle (wordOf (encode (.vshfu o))) o .up s)

/-- R227: downward by a distance. -/
def execVshfd (o : Op3R) (s : State) : Host.Outcome State Fault Refusal :=
  .next (vecShuffle (wordOf (encode (.vshfd o))) o .down s)

/-! ### Positions, votes (R228, R229) -/

/-- What vlane writes to lane i. -/
def vlaneValue (s : State) (k i : Nat) : Nat :=
  match k with
  | 0 => i
  | 1 => ((activeLanes s).filter fun j => decide (j < i)).length
  | 2 => popcount s.p.exec
  | _ => s.g.width

/-- R228: lane number, dense rank, AWIDTH or W. -/
def execVlane (o : OpDK) (s : State) : Host.Outcome State Fault Refusal :=
  .next (laneIssue (wordOf (encode (.vlane o))) 1 (vDstOk false o.d && decide (o.k.toNat < 4))
    (fun _ => []) (fun _ => []) (fun ls => dstV o.d.toNat 1 ls)
    (fun ls s => setVAll (ls.map fun i => (o.d.toNat, i, BitVec.ofNat 32 (vlaneValue s o.k.toNat i))) s) s)

/-- What rdw writes. -/
def rdwValue (s : State) (k : Nat) : Word :=
  match k with
  | 0 => BitVec.ofNat 64 (popcount (activeMask s))
  | 1 => activeMask s
  | 2 => BitVec.ofNat 64 (lowest (activeMask s))
  | _ => s.p.members

/-- R228: count, mask or lowest lane of A, or M, to a scalar register, even where A is empty. -/
def execRdw (o : OpDK) (s : State) : Host.Outcome State Fault Refusal :=
  .next (laneIssue (wordOf (encode (.rdw o))) 1 (sOk o.d && decide (o.k.toNat < 4))
    (fun _ => []) (fun _ => []) (fun _ => dstS o.d)
    (fun _ s => setS o.d.toNat (rdwValue s o.k.toNat) s) s)

/-- The outcome of a vote over A. -/
def voteValue (s : State) (k a : Nat) : Bool :=
  let ls := activeLanes s
  match k with
  | 0 => ls.any (getP s a)
  | 1 => ls.all (getP s a)
  | _ => ls.all (getP s a) || ls.all fun i => !getP s a i

/-- R229: any, all or uniform, written in every lane of A. -/
def execVvote (o : Op3K) (s : State) : Host.Outcome State Fault Refusal :=
  .next (laneIssue (wordOf (encode (.vvote o))) 1 (pOk o.d && pOk o.a && decide (o.k.toNat < 3))
    (fun _ => []) (fun ls => ls.map fun i => codeP o.a.toNat i) (fun ls => ls.map fun i => codeP o.d.toNat i)
    (fun ls s => setPAll (ls.map fun i => (o.d.toNat, i, voteValue s o.k.toNat o.a.toNat)) s) s)

/-- R229: the mask of active lanes whose bit is set, even where A is empty. -/
def execVballot (o : Op3A) (s : State) : Host.Outcome State Fault Refusal :=
  .next (laneIssue (wordOf (encode (.vballot o))) 1 (sOk o.d && pOk o.a)
    (fun _ => []) (fun ls => ls.map fun i => codeP o.a.toNat i) (fun _ => dstS o.d)
    (fun ls s => setS o.d.toNat (maskOf (ls.filter (getP s o.a.toNat))) s) s)

/-! ### Reductions and scans (R230, R231) -/

/-- An operation of R230 is permitted for a type. -/
def reduceOk (t : Ty) (op : Nat) : Bool := decide (op < (if t.isFloat then 3 else 6))

/-- The identity of an operation on floats: −0, +∞, −∞. -/
def floatIdentity (t : Ty) (op : Nat) : Nat :=
  match op with
  | 0 => signBit t true
  | 1 => t.inf
  | _ => signBit t true + t.inf

/-- The identity of an operation on integers. -/
def intIdentity (t : Ty) (op : Nat) : Nat :=
  match op with
  | 1 => wrapNat t.greatest t.width
  | 2 => wrapNat t.least t.width
  | 3 => 2 ^ t.width - 1
  | _ => 0

/-- The identity of an operation. -/
def reduceIdentity (t : Ty) (op : Nat) : Nat := if t.isFloat then floatIdentity t op else intIdentity t op

/-- One node on floats: `x` from the lower lane. -/
def floatNode (s : State) (t : Ty) (op x y : Nat) : Res :=
  match op with
  | 0 => addNum t (rmOf (modeRm s)) (modeFz s) (readFloat t (modeFz s) x) (readFloat t (modeFz s) y)
  | 1 => minmaxFloat t (modeFz s) false x y
  | _ => minmaxFloat t (modeFz s) true x y

/-- One node on integers. -/
def intNode (t : Ty) (op x y : Nat) : Nat :=
  match op with
  | 0 => (x + y) % 2 ^ t.width
  | 1 => if t.intVal x ≤ t.intVal y then x else y
  | 2 => if t.intVal x ≤ t.intVal y then y else x
  | 3 => Nat.land x y
  | 4 => Nat.lor x y
  | _ => Nat.xor x y

/-- One node: `x` from the lower lane. -/
def reduceNode (s : State) (t : Ty) (op x y : Nat) : Res :=
  if t.isFloat then floatNode s t op x y else { val := intNode t op x y, flags := 0 }

/-- The values of W positions: the element where the lane is in A, else the identity. -/
def laneValues (s : State) (t : Ty) (a op : Nat) : List Res :=
  let ls := activeLanes s
  (countFrom 0 s.g.width).map fun i =>
    { val := if ls.contains i then elemOf s t a i else reduceIdentity t op, flags := 0 }

/-- One level of a combination: pairs of two lists of equal length. -/
def combine (f : Nat → Nat → Res) : List Res → List Res → List Res
  | x :: l, y :: r =>
    let z := f x.val y.val
    { val := z.val, flags := z.flags ||| x.flags ||| y.flags } :: combine f l r
  | _, _ => []

/-- The binary tree of R230, by levels. -/
def reduceTree (f : Nat → Nat → Res) : Nat → List Res → List Res
  | 0, l => l
  | n + 1, l =>
    let h := l.length / 2
    if h = 0 then l else reduceTree f n (combine f (l.take h) (l.drop h))

/-- R230: reduces the active lanes by the tree; the result goes to every active lane. -/
def execVred (o : Op3K) (s : State) : Host.Outcome State Fault Refusal :=
  .next (vecIssue (wordOf (encode (.vred o))) 2
    (fun t => vDstOk t.wide o.d && vSrcOk t.wide o.a && reduceOk t o.k.toNat)
    (fun t ls => srcV o.a.toNat t.regs o.ta ls)
    (fun _ => [])
    (fun t ls => dstV o.d.toNat t.regs ls)
    (fun t ls s =>
      if ls.isEmpty then s
      else
        let r := (reduceTree (reduceNode s t o.k.toNat) 6 (laneValues s t o.a.toNat o.k.toNat)).headD
          { val := 0, flags := 0 }
        raiseFlags r.flags (setVAll (ls.flatMap fun i => putElem t o.d.toNat i r.val) s)) s)

/-- The steps of a scan at distances d, 2d, …: position i ≥ d takes op(t[i − d], t[i]). Flags of all nodes are kept. -/
def scanTree (f : Nat → Nat → Res) : Nat → Nat → List Res → List Res
  | 0, _, l => l
  | n + 1, d, l => if l.length ≤ d then l else scanTree f n (2 * d) (l.take d ++ combine f l (l.drop d))

/-- R231: prefix results over lane positions; op[3] makes them exclusive. A flag raised at any node is set. -/
def execVscan (o : Op3K) (s : State) : Host.Outcome State Fault Refusal :=
  .next (vecIssue (wordOf (encode (.vscan o))) 2
    (fun t => vDstOk t.wide o.d && vSrcOk t.wide o.a && decide (o.k.toNat < 16) && reduceOk t (o.k.toNat % 8))
    (fun t ls => srcV o.a.toNat t.regs o.ta ls)
    (fun _ => [])
    (fun t ls => dstV o.d.toNat t.regs ls)
    (fun t ls s =>
      if ls.isEmpty then s
      else
        let op := o.k.toNat % 8
        let l := scanTree (reduceNode s t op) 6 1 (laneValues s t o.a.toNat op)
        let e : Res := { val := reduceIdentity t op, flags := 0 }
        let at' (i : Nat) : Nat :=
          if o.k.toNat < 8 then (getAt e l i).val else if i = 0 then e.val else (getAt e l (i - 1)).val
        raiseFlags (flagsOf l) (setVAll (ls.flatMap fun i => putElem t o.d.toNat i (at' i)) s)) s)

/-! ### Selection under the total order (R232, R233) -/

/-- A value with its index. -/
structure Ranked where
  v : Nat
  x : Nat
  deriving DecidableEq, Repr

/-- p comes strictly before q: a greater key, or an equal key and a lower index. -/
def better (t : Ty) (p q : Ranked) : Bool :=
  decide (orderOf t q.v < orderOf t p.v) || (decide (orderOf t p.v = orderOf t q.v) && decide (p.x < q.x))

/-- The W pairs: those of A, and the identity elsewhere. -/
def rankedPairs (s : State) (t : Ty) (a b : Nat) : List Ranked :=
  let ls := activeLanes s
  (countFrom 0 s.g.width).map fun i =>
    if ls.contains i then { v := elemOf s t a i, x := fieldBits s b false i }
    else { v := if t.isFloat then signBit t true + t.inf else wrapNat t.least t.width, x := 2 ^ 32 - 1 }

/-- The winner of W pairs in the tree of R230: lane i meets lane i + W/2, the lower lane first. -/
def bestOf (t : Ty) : Nat → List Ranked → Ranked
  | 0, l => getAt { v := 0, x := 0 } l 0
  | n + 1, l =>
    let h := l.length / 2
    if h = 0 then getAt { v := 0, x := 0 } l 0
    else bestOf t n ((l.take h).zip (l.drop h) |>.map fun e => if better t e.2 e.1 then e.2 else e.1)

/-- A value as it is written: a NaN keeps its payload and is quiet (R158). -/
def rankValue (t : Ty) (v : Nat) : Nat := if t.isFloat then quiet t v else v

/-- What lane i of the two destinations receives. -/
def putRanked (t : Ty) (d i : Nat) (p : Ranked) : List (Nat × Nat × BitVec 32) :=
  putElem t d i (rankValue t p.v) ++ [(d + t.regs, i, BitVec.ofNat 32 p.x)]

/-- vmaxi and vtopk: each active lane takes the pair that `choose` gives it of the W pairs. -/
def vecRank (word : BitVec 32) (weight : Nat) (o : Op3R) (choose : Ty → List Ranked → Nat → Ranked) (s : State) : State :=
  vecIssue word weight
    (fun t => vDstOk t.wide o.d && vSrcOk t.wide o.a && vSrcOk false o.b && decide (o.d.toNat + t.regs < 96))
    (fun t ls => srcV o.a.toNat t.regs o.ta ls ++ srcV o.b.toNat 1 o.tb ls)
    (fun _ => [])
    (fun t ls => dstV o.d.toNat t.regs ls ++ dstV (o.d.toNat + t.regs) 1 ls)
    (fun t ls s =>
      let l := rankedPairs s t o.a.toNat o.b.toNat
      setVAll (ls.flatMap fun i => putRanked t o.d.toNat i (choose t l i)) s) s

/-- R232: the greatest value and its index, in every lane of A. -/
def execVmaxi (o : Op3R) (s : State) : Host.Outcome State Fault Refusal :=
  .next (vecRank (wordOf (encode (.vmaxi o))) 2 o (fun t l _ => bestOf t 6 l) s)

/-- R233: the pair of rank i in lane i of A. -/
def execVtopk (o : Op3R) (s : State) : Host.Outcome State Fault Refusal :=
  .next (vecRank (wordOf (encode (.vtopk o))) 4 o (fun t l i => getAt { v := 0, x := 0 } (sortBy (better t) l) i) s)

end Sys2Proof.Machine
end

