-- ==== Sys2Proof/Machine/Prefetch.lean ====
section
/-! DEFINITION. Prefetch (spec/11_isa_memory_sync.md R242). -/

namespace Sys2Proof.Machine

/-- The L1 of the core takes a line, unless only the L2 is meant. -/
def prefetchFill (l2 : Bool) (va : Word) (coh : BitVec 2) (data : List Byte) (s : State) : State :=
  if l2 then s else l1Fill { mkReq s 64 va 1 .load .none 0 with view := none } coh data none s

/-- The fill of one line of device memory from its home. One that the home would refuse, or that is not idle there, does nothing (log
entry 27). -/
def prefetchHome (l2 : Bool) (va : Word) (s : State) : State :=
  let off := offsetOf va
  let r := lineRef s.g.part s.g.asid off
  if (admits s s.g.part s.g.asid off false).isSome || granuleHeld s s.g.part s.g.asid off then s
  else
    let s := ensureLine s.g.part s.g.asid off (countMiss s.g.launch r s)
    match findLine s r with
    | none => s
    | some l =>
      if decide (l.state = .p) || dirtyHosts s r != [] then s
      else prefetchFill l2 va l.coh (baseBytes s s.g.part s.g.asid r.va 128) s

/-- The fill of one line of the host aperture from its gateway, which asks the host for a line that it does not hold (R148). -/
def prefetchHost (l2 : Bool) (va : Word) (s : State) : State :=
  let q : Req := mkReq s 64 va 1 .load .none 0
  match gatewayMap s q with
  | none => s
  | some addr =>
    let port := (partOf s q.part).port
    match hpccOf s port (addr / 128 * 128) with
    | some l => if granuleHeld s q.part q.asid q.off then s else prefetchFill l2 va (pageInfo s q.part q.asid va).coh l.data s
    | none => cxlAsk port (addr / 128 * 128) false s

/-- A prefetch of one line that passed its check. -/
def prefetchLine (l2 : Bool) (va : Word) (s : State) : State :=
  if isControl va then s else if regionOf (offsetOf va) = 3 then prefetchHost l2 va s else prefetchHome l2 va s

/-- The lanes whose checks do not fail; an entry that the PLB lacks is looked up without a wait. -/
def prefetchLanes (o : OpPf) (s : State) : List (Nat × Word) :=
  okAddrs (laneAddrs { s with p := { s.p with wait := .plb 0 true } } o.w o.a 1 readNeed)

/-- R242: starts fills; it changes no value and never traps on memory. In a deterministic launch it is dropped. -/
def execPf (o : OpPf) (s : State) : Host.Outcome State Fault Refusal :=
  .next (issue (memForm (wordOf (encode (.pf o))) 4 true o.ta o.w o.a s) noCheck
    (fun s => finish 4 (if detNow s then s else (prefetchLanes o s).foldl (fun s e => prefetchLine o.l2 e.2 s) s)) s)

end Sys2Proof.Machine
end

