-- ==== Sys2Proof/Machine/Scratch.lean ====
section
/-! DEFINITION. Scratchpad accesses (spec/11_isa_memory_sync.md R241; spec/05_memory_hierarchy.md R108, R110). -/

namespace Sys2Proof.Machine

/-- In a deterministic launch a command that the gang issued below the split's key may still take its PRIVATE tile as an output: its tiles
admit it, or transitions that may make them do so have lower keys (R110; log entry 88). The access comes after it. -/
def commandFirst (s : State) (h : Nat) : Bool :=
  detNow s && s.cmds.any fun c => c.gang == s.g.id && decide (c.phase = .table) && (c.tileNames true).contains h
    && keyLt c.issueKey (curKey s)
    && (tilesAdmit s c || (c.tileNames true ++ c.tileNames false).any (fun x => (cmdTile s c x).any fun t => t.unsettled (curKey s))
      || keyLt (splitFloor s (curLaunch s) s.g.wg) (curKey s))

/-- The checks of R241 in their order. In a deterministic launch a tile that is not PRIVATE(self) is looked up once the
workgroup floor has passed the split's key (R110), and one that is, once no command of the gang may take it first. -/
def tileVerdict (store : Bool) (n : Nat) (l : List (Nat × Nat)) (s : State) : Verdict :=
  let fail (c : BitVec 8) (i : Nat) : Verdict := .fail { cause := c, va := 0, lanes := laneBit i, pnode := 0 }
  match firstLane (fun x => !tileInRange s n x) l with
  | some i => fail 0x45 i
  | none =>
  match firstLane (fun x => decide (x % 2 ^ 16 % n ≠ 0)) l with
  | some i => fail 0x43 i
  | none =>
  let foreign := l.filter fun e => decide (laneTile s e.2 ≠ .priv s.g.num)
  (if foreign.isEmpty then .ok else gateWg s).andThen (
    match (findFirst (fun e => blockedAt s (tileAddr e.2).2.1) foreign).or (findFirst (fun e => commandFirst s (tileAddr e.2).2.1) l) with
    | some e => .wait (tileWait s (tileAddr e.2).2.1 true)
    | none =>
    match firstLane (fun x => decide (accessRow store s.g.num (laneTile s x) = .trap)) l with
    | some i => fail 0x46 i
    | none =>
      match findFirst (fun e => decide (accessRow store s.g.num (laneTile s e.2) = .wait)) l with
      | some e => .wait (tileWait s (tileAddr e.2).2.1 false)
      | none => .ok)

/-- Each active lane's tile address. -/
def tileLanes (s : State) (a : BitVec 7) : List (Nat × Nat) := (activeLanes s).map fun i => (i, laneOffset s a i)

/-- Bytes of a tile as the split reads them: its own buffered stores over the tile's contents. -/
def tileBytes (s : State) (h o n : Nat) : List Byte :=
  let base := (countFrom o n).map fun i => match tileOf s h with
    | some t => mapGet 0 t.data i
    | none => 0
  layOver (s.p.buffer.foldl (fun m b =>
    match b.tile, b.op with
    | some k, .store d => if k = h then coverBytes o n b.va.toNat d m else m
    | _, _ => m) []) base

/-- R241: loads from tiles. The value has arrived when its request is issued; it reaches the registers as every load's
does. -/
def execLdS (o : OpMs) (s : State) : Host.Outcome State Fault Refusal :=
  let word := wordOf (encode (.ldS o))
  .next (
    match accessSize s o.sz.toNat with
    | none => issue { memForm word 2 false o.ta 0 o.a s with addrs := [], reads := maskReads s } noCheck (finish 2) s
    | some n =>
      issue { memForm word 2 (wellFormed (.ldS o) && sizeDstOk s o.sz.toNat o.d) o.ta 0 o.a s with
          reads := maskReads s
          dsts := dstV o.d.toNat (regsOf n) (activeLanes s) }
        (fun s => tileVerdict false n (tileLanes s o.a) s)
        (fun s => finish 2 ((tileLanes s o.a).foldl (fun s e =>
          let (_, h, off) := tileAddr e.2
          let dest : Dest := .vector o.d.toNat (regsOf n) e.1
          sendReq { mkReq s e.1 0 n .load dest word with
              sx := signExtends s o.sx o.sz.toNat
              phase := .done (tileBytes s h off n) } (markEmpty dest s.nextId s)) s)) s)

/-- R241: stores to tiles. -/
def execStS (o : OpMsst) (s : State) : Host.Outcome State Fault Refusal :=
  let word := wordOf (encode (.stS o))
  .next (
    match accessSize s o.sz.toNat with
    | none => issue { memForm word 2 false o.ta 0 o.a s with addrs := [], reads := maskReads s } noCheck (finish 2) s
    | some n =>
      let all (s : State) : List BufStore := (tileLanes s o.a).map fun e =>
        let (_, h, off) := tileAddr e.2
        { mkStore s e.1 (BitVec.ofNat 64 off) n (.store ((regBytes s o.d.toNat (regsOf n) e.1).take n)) word with
          tile := some h }
      issue { memForm word 2 (wellFormed (.stS o) && sizeDstOk s o.sz.toNat o.d) o.ta 0 o.a s with
          reads := maskReads s
          srcs := srcV o.d.toNat (regsOf n) false (activeLanes s)
          opens := fun s => overfills (all s) s }
        (fun s => tileVerdict true n (tileLanes s o.a) s)
        (fun s => finish 2 (bufferStores (all s) s)) s)

end Sys2Proof.Machine
end

