-- ==== Sys2Proof/Machine/Func.lean ====
section
/-! DEFINITION. The special functions (spec/10_isa_vector.md R221): the exact value rounded once. Quotients and square roots
are formed exactly with a sticky bit; the transcendental functions are enclosed by fixed-point integers at growing
precision until both ends of the enclosure round alike. -/

namespace Sys2Proof.Machine

/-! ### Quotients and roots -/

/-- ⌊√n⌋ by binary digits from 2^k down. -/
def isqrtFrom (n : Nat) : Nat → Nat → Nat
  | 0, r => r
  | k + 1, r =>
    let c := r + 2 ^ k
    isqrtFrom n k (if c * c ≤ n then c else r)

/-- ⌊√n⌋. -/
def isqrt (n : Nat) : Nat := isqrtFrom n (bitLength n / 2 + 1) 0

/-- Rounds a value that lies in [q, q + 1) · 2^e and equals q · 2^e only where `exact` holds. -/
def roundSticky (t : Ty) (r : Rounding) (fz neg : Bool) (q : Nat) (e : Int) (exact : Bool) : Res :=
  if exact then roundFloat t r fz neg q e else roundFloat t r fz neg (2 * q + 1) (e - 1)

/-- 1 / (m · 2^e) for m ≠ 0. -/
def recipFin (t : Ty) (r : Rounding) (fz neg : Bool) (m : Nat) (e : Int) : Res :=
  let k := t.width + 4 + bitLength m
  roundSticky t r fz neg (2 ^ k / m) (-(k : Int) - e) (2 ^ k % m == 0)

/-- √(m · 2^e) for m ≠ 0. -/
def sqrtFin (t : Ty) (r : Rounding) (fz : Bool) (m : Nat) (e : Int) : Res :=
  let (m, e) := if e % 2 = 0 then (m, e) else (2 * m, e - 1)
  let k := t.width + 4
  let n := m * 2 ^ (2 * k)
  let q := isqrt n
  roundSticky t r fz false q (e / 2 - (k : Int)) (q * q == n)

/-- 1 / √(m · 2^e) for m ≠ 0. -/
def rsqrtFin (t : Ty) (r : Rounding) (fz : Bool) (m : Nat) (e : Int) : Res :=
  let (m, e) := if e % 2 = 0 then (m, e) else (2 * m, e - 1)
  let k := t.width + 4 + bitLength m
  let n := 2 ^ (2 * k)
  let q := isqrt (n / m)
  roundSticky t r fz false q (-(k : Int) - e / 2) (q * q * m == n)

/-! ### Series at W fractional bits -/

/-- Σ (±1)^j · p · u^(2j) / (first + 2j), the series of atan (alternating) and atanh. -/
def oddSeries (w u2 : Nat) (alt : Bool) : Nat → Nat → Nat → Bool → Int → Int
  | 0, _, _, _, acc => acc
  | f + 1, p, k, minus, acc =>
    if p = 0 then acc else
    oddSeries w u2 alt f (p * u2 / 2 ^ w) (k + 2) (alt && !minus)
      (if minus then acc - ((p / k : Nat) : Int) else acc + ((p / k : Nat) : Int))

/-- atan(u) or atanh(u) of u / 2^w. -/
def oddFix (w u : Nat) (alt : Bool) : Nat := (oddSeries w (u * u / 2 ^ w) alt w u 1 false 0).toNat

/-- ln 2 = 2 · atanh(1/3). -/
def ln2Fix (w : Nat) : Nat := 2 * oddFix w (2 ^ w / 3) false

/-- π = 16 · atan(1/5) − 4 · atan(1/239). -/
def piFix (w : Nat) : Nat := 16 * oddFix w (2 ^ w / 5) true - 4 * oddFix w (2 ^ w / 239) true

/-- Σ p · y^j / (j!) from term k on. -/
def expSeries (w y : Nat) : Nat → Nat → Nat → Nat → Nat
  | 0, _, _, acc => acc
  | f + 1, p, k, acc => if p = 0 then acc else expSeries w y f (p * y / 2 ^ w / k) (k + 1) (acc + p)

/-- e^(y / 2^w) for 0 ≤ y < 2^w. -/
def expFix (w y : Nat) : Nat := expSeries w y w (2 ^ w) 1 0

/-- The alternating series with factor y² / (k (k + 1)): sin from p = y, k = 2; cos from p = 1, k = 1. -/
def trigSeries (w y2 : Nat) : Nat → Nat → Nat → Bool → Int → Int
  | 0, _, _, _, acc => acc
  | f + 1, p, k, minus, acc =>
    if p = 0 then acc else
    trigSeries w y2 f (p * y2 / 2 ^ w / (k * (k + 1))) (k + 2) (!minus) (if minus then acc - (p : Int) else acc + (p : Int))

def sinFix (w y : Nat) : Int := trigSeries w (y * y / 2 ^ w) w y 2 false 0
def cosFix (w y : Nat) : Int := trigSeries w (y * y / 2 ^ w) w (2 ^ w) 1 false 0

/-- ⌊m · 2^e · 2^w⌋. -/
def toFix (w m : Nat) (e : Int) : Nat :=
  if 0 ≤ e + (w : Int) then m * 2 ^ (e + (w : Int)).toNat else m / 2 ^ (-(e + (w : Int))).toNat

/-! ### Enclosures -/

/-- Units of 2^−w that bound the error of every fixed-point value below: each has far fewer than 2^30 operations, each
wrong by at most one unit, scaled by at most 2^10. -/
def slack : Int := 2 ^ 40

/-- Rounds a value that lies strictly within `slack` units of v at w fractional bits and is never representable nor a tie:
none if the ends of the enclosure round apart. -/
def settle (t : Ty) (r : Rounding) (fz : Bool) (w : Nat) (v : Int) : Option Res :=
  let lo := v - slack
  let hi := v + slack
  if lo ≤ 0 ∧ 0 ≤ hi then none
  else
    let go (x : Int) : Res := roundFloat t r fz (decide (x < 0)) (2 * x + 1).natAbs (-(w : Int) - 1)
    if go lo = go hi then some (go lo) else none

/-- The first precision of a list that settles; the last one's middle otherwise. -/
def firstSettled (t : Ty) (r : Rounding) (fz : Bool) (f : Nat → Int) : List Nat → Res
  | [] => { val := t.nan, flags := flagNX }
  | [w] => (settle t r fz w (f w)).getD
      (roundFloat t r fz (decide (f w < 0)) (2 * f w + 1).natAbs (-(w : Int) - 1))
  | w :: l =>
    match settle t r fz w (f w) with
    | some x => x
    | none => firstSettled t r fz f l

/-- The precisions tried. -/
def precisions : List Nat := [256, 512, 1024, 2048]

/-- A value just below m · 2^e in magnitude. -/
def justBelow (t : Ty) (r : Rounding) (fz neg : Bool) (m : Nat) (e : Int) : Res :=
  let k := t.width + 8
  roundFloat t r fz neg (m * 2 ^ k - 1) (e - (k : Int))

/-- A value just above 1. -/
def justAboveOne (t : Ty) (r : Rounding) (fz : Bool) : Res :=
  let k := t.width + 8
  roundFloat t r fz false (2 ^ k + 1) (-(k : Int))

/-- The exponent n with 2^(n − 1) ≤ m · 2^e < 2^n, for m ≠ 0. -/
def topExp (m : Nat) (e : Int) : Int := e + (bitLength m : Int)

/-! ### The functions of a finite non-zero argument -/

/-- 2^x. -/
def exp2Fin (t : Ty) (r : Rounding) (fz neg : Bool) (m : Nat) (e : Int) : Res :=
  if topExp m e ≤ -((t.width : Int) + 4) then
    if neg then justBelow t r fz false 1 0 else justAboveOne t r fz
  else if (t.ebits : Int) + 2 ≤ topExp m e then
    if neg then roundFloat t r fz false 1 (-(4 * (t.bias : Int))) else roundFloat t r fz false 1 (2 * (t.bias : Int))
  else
    let n := if 0 ≤ e then m * 2 ^ e.toNat else m / 2 ^ (-e).toNat
    let whole := decide (0 ≤ e) || m % 2 ^ (-e).toNat == 0
    if whole then roundFloat t r fz false 1 (if neg then -(n : Int) else (n : Int))
    else
      firstSettledAt (if neg then -(n : Int) - 1 else (n : Int)) (fun w =>
        let x := toFix w m e % 2 ^ w
        let f := if neg then 2 ^ w - x else x
        ((expFix w (f * ln2Fix w / 2 ^ w) : Nat) : Int))
where
  /-- 2^n times a value that `f` gives: the enclosure is settled at the scale of the result -/
  firstSettledAt (n : Int) (f : Nat → Int) : Res :=
    let rec go : List Nat → Res
      | [] => { val := t.nan, flags := flagNX }
      | w :: l =>
        let v := f w
        let at' (x : Int) : Res := roundFloat t r fz false (2 * x + 1).natAbs (n - (w : Int) - 1)
        if at' (v - slack) = at' (v + slack) ∨ l = [] then at' (v - slack) else go l
    go precisions

/-- log2 of a positive argument. -/
def log2Fin (t : Ty) (r : Rounding) (fz : Bool) (m : Nat) (e : Int) : Res :=
  let b := bitLength m
  let k := topExp m e - 1
  if m = 2 ^ (b - 1) then
    if k = 0 then zeroRes t false else roundFloat t r fz (decide (k < 0)) k.natAbs 0
  else
    firstSettled t r fz (fun w =>
      let z := toFix w m (1 - (b : Int))
      let u := (z - 2 ^ w) * 2 ^ w / (z + 2 ^ w)
      k * (2 ^ w : Nat) + ((2 * oddFix w u false * 2 ^ w / ln2Fix w : Nat) : Int)) precisions

/-- x mod π/2 and the quadrant, at w fractional bits. -/
def reduceTrig (w m : Nat) (e : Int) : Nat × Nat :=
  let big := (topExp m e).toNat
  let p := w + big + 32
  let half := piFix p / 2
  let x := toFix p m e
  (x % half / 2 ^ (p - w), x / half % 4)

/-- sin x. -/
def sinFin (t : Ty) (r : Rounding) (fz neg : Bool) (m : Nat) (e : Int) : Res :=
  if topExp m e ≤ -((t.width / 2 : Nat) : Int) - 4 then justBelow t r fz neg m e
  else
    firstSettled t r fz (fun w =>
      let (y, q) := reduceTrig w m e
      let v := if q % 2 = 0 then sinFix w y else cosFix w y
      let v := if q < 2 then v else -v
      if neg then -v else v) precisions

/-- cos x. -/
def cosFin (t : Ty) (r : Rounding) (fz : Bool) (m : Nat) (e : Int) : Res :=
  if topExp m e ≤ -((t.width / 2 : Nat) : Int) - 4 then justBelow t r fz false 1 0
  else
    firstSettled t r fz (fun w =>
      let (y, q) := reduceTrig w m e
      let v := if q % 2 = 0 then cosFix w y else sinFix w y
      if q = 1 ∨ q = 2 then -v else v) precisions

/-- tanh x, as (1 − u) / (1 + u) with u = e^(−2|x|). -/
def tanhFin (t : Ty) (r : Rounding) (fz neg : Bool) (m : Nat) (e : Int) : Res :=
  if topExp m e ≤ -((t.width / 2 : Nat) : Int) - 4 then justBelow t r fz neg m e
  else if 7 ≤ topExp m e then justBelow t r fz neg 1 0
  else
    firstSettled t r fz (fun w =>
      let y := 2 * toFix w m e
      let l2 := ln2Fix w
      let n := y / l2
      let u := 2 ^ w * 2 ^ w / expFix w (y % l2) / 2 ^ n
      let v : Int := (((2 ^ w - u) * 2 ^ w / (2 ^ w + u) : Nat) : Int)
      if neg then -v else v) precisions

/-! ### The special functions with their special cases (R221) -/

/-- The special functions. -/
inductive Func where
  | rcp
  | rsq
  | sqrt
  | exp2
  | log2
  | sin
  | cos
  | tanh
  deriving DecidableEq, Repr

/-- An infinity of a division by zero. -/
def divZero (t : Ty) (neg : Bool) : Res := { infRes t neg with flags := flagDZ }

/-- One. -/
def oneRes (t : Ty) (neg : Bool) : Res := { val := signBit t neg + t.bias * 2 ^ t.frac, flags := 0 }

/-- A special function of a number. -/
def applyFunc (f : Func) (t : Ty) (r : Rounding) (fz : Bool) (x : Num) : Res :=
  match propagate t [x] with
  | some y => y
  | none =>
    match f, x with
    | .rcp, .inf g => zeroRes t g
    | .rcp, .fin g m e => if m = 0 then divZero t g else recipFin t r fz g m e
    | .rsq, .inf g => if g then invalid t else zeroRes t false
    | .rsq, .fin g m e => if m = 0 then divZero t g else if g then invalid t else rsqrtFin t r fz m e
    | .sqrt, .inf g => if g then invalid t else infRes t false
    | .sqrt, .fin g m e => if m = 0 then zeroRes t g else if g then invalid t else sqrtFin t r fz m e
    | .exp2, .inf g => if g then zeroRes t false else infRes t false
    | .exp2, .fin g m e => if m = 0 then oneRes t false else exp2Fin t r fz g m e
    | .log2, .inf g => if g then invalid t else infRes t false
    | .log2, .fin g m e => if m = 0 then divZero t true else if g then invalid t else log2Fin t r fz m e
    | .sin, .inf _ => invalid t
    | .sin, .fin g m e => if m = 0 then zeroRes t g else sinFin t r fz g m e
    | .cos, .inf _ => invalid t
    | .cos, .fin _ m e => if m = 0 then oneRes t false else cosFin t r fz m e
    | .tanh, .inf g => oneRes t g
    | .tanh, .fin g m e => if m = 0 then zeroRes t g else tanhFin t r fz g m e
    | _, .nan _ _ _ => invalid t

end Sys2Proof.Machine
end

