-- ==== Sys2Proof/Machine/VectorFloat.lean ====
section
/-! DEFINITION. Vector float instructions and special functions (spec/10_isa_vector.md R219 to R222). -/

namespace Sys2Proof.Machine

/-- An operand as the split reads it: through MODE.FZ (R155). -/
def rdF (s : State) (t : Ty) (x : Nat) : Num := readFloat t (modeFz s) x

/-- The rounding of MODE.RM. -/
def rmNow (s : State) : Rounding := rmOf (modeRm s)

/-- A code whose sign bit `f` sets anew; a NaN is quieted with its sign unchanged, a flushed input is a zero of its sign
(R219). -/
def withSign (s : State) (t : Ty) (x : Nat) (f : Bool → Bool) : Res :=
  match rdF s t x with
  | .nan g pl sig => { val := encodeNan t g pl, flags := if sig then flagNV else 0 }
  | .inf g => infRes t (f g)
  | .fin g m _ => plainRes (if m = 0 then signBit t (f g) else x % 2 ^ (t.width - 1) + signBit t (f g))

/-- The four relations of R220 and the flag of a signalling NaN. -/
def compareFloat (s : State) (t : Ty) (x y : Nat) : (Bool × Bool × Bool × Bool) × BitVec 64 :=
  let a := rdF s t x
  let b := rdF s t y
  if a.isNan || b.isNan then ((false, false, false, true), if signals [a, b] then flagNV else 0)
  else
    let c := cmpNum a b
    ((decide (c < 0), decide (c ≤ 0), decide (c = 0), false), 0)

/-- The class bit of a float (R222). -/
def classBit (s : State) (t : Ty) (x : Nat) : Nat :=
  match rdF s t x with
  | .inf g => if g then 0 else 7
  | .nan _ _ sig => if sig then 8 else 9
  | .fin g m _ =>
    if m = 0 then (if g then 3 else 4)
    else if isSubnormal t x then (if g then 2 else 5)
    else (if g then 1 else 6)

/-- R219: round(a + b). -/
def execVfadd (o : Op3R) (s : State) : Host.Outcome State Fault Refusal :=
  .next (vec3 (wordOf (encode (.vfadd o))) 1 o Ty.isFloat false
    (fun s t x y _ => addNum t (rmNow s) (modeFz s) (rdF s t x) (rdF s t y)) s)

/-- R219: round(a − b). -/
def execVfsub (o : Op3R) (s : State) : Host.Outcome State Fault Refusal :=
  .next (vec3 (wordOf (encode (.vfsub o))) 1 o Ty.isFloat false
    (fun s t x y _ => subNum t (rmNow s) (modeFz s) (rdF s t x) (rdF s t y)) s)

/-- R219: round(a × b). -/
def execVfmul (o : Op3R) (s : State) : Host.Outcome State Fault Refusal :=
  .next (vec3 (wordOf (encode (.vfmul o))) 1 o Ty.isFloat false
    (fun s t x y _ => mulNum t (rmNow s) (modeFz s) (rdF s t x) (rdF s t y)) s)

/-- R219: round(a × b + old d), one rounding. -/
def execVffma (o : Op3R) (s : State) : Host.Outcome State Fault Refusal :=
  .next (vec3 (wordOf (encode (.vffma o))) 1 o Ty.isFloat true
    (fun s t x y z => fmaNum t (rmNow s) (modeFz s) (rdF s t x) (rdF s t y) (rdF s t z)) s)

/-- R219: the sign bit inverted. -/
def execVfneg (o : Op3A) (s : State) : Host.Outcome State Fault Refusal :=
  .next (vec2 (wordOf (encode (.vfneg o))) 1 o Ty.isFloat
    (fun s t x => withSign s t x (fun g => !g)) s)

/-- R219: the sign bit cleared. -/
def execVfabs (o : Op3A) (s : State) : Host.Outcome State Fault Refusal :=
  .next (vec2 (wordOf (encode (.vfabs o))) 1 o Ty.isFloat
    (fun s t x => withSign s t x (fun _ => false)) s)

/-- R219: minimumNumber. -/
def execVfmin (o : Op3R) (s : State) : Host.Outcome State Fault Refusal :=
  .next (vec3 (wordOf (encode (.vfmin o))) 1 o Ty.isFloat false
    (fun s t x y _ => minmaxFloat t (modeFz s) false x y) s)

/-- R219: maximumNumber. -/
def execVfmax (o : Op3R) (s : State) : Host.Outcome State Fault Refusal :=
  .next (vec3 (wordOf (encode (.vfmax o))) 1 o Ty.isFloat false
    (fun s t x y _ => minmaxFloat t (modeFz s) true x y) s)

/-- R220: a < b, a ≤ b, a = b, unordered. -/
def execVfcmp (o : Op3R) (s : State) : Host.Outcome State Fault Refusal :=
  .next (vecCmp (wordOf (encode (.vfcmp o))) o Ty.isFloat compareFloat s)

/-- R221: 1/a, correctly rounded. -/
def execVfrcp (o : Op3A) (s : State) : Host.Outcome State Fault Refusal :=
  .next (vec2 (wordOf (encode (.vfrcp o))) 2 o Ty.isFloat
    (fun s t x => applyFunc .rcp t (rmNow s) (modeFz s) (rdF s t x)) s)

/-- R221: 1/√a, correctly rounded. -/
def execVfrsq (o : Op3A) (s : State) : Host.Outcome State Fault Refusal :=
  .next (vec2 (wordOf (encode (.vfrsq o))) 2 o Ty.isFloat
    (fun s t x => applyFunc .rsq t (rmNow s) (modeFz s) (rdF s t x)) s)

/-- R221: √a, correctly rounded. -/
def execVfsqrt (o : Op3A) (s : State) : Host.Outcome State Fault Refusal :=
  .next (vec2 (wordOf (encode (.vfsqrt o))) 2 o Ty.isFloat
    (fun s t x => applyFunc .sqrt t (rmNow s) (modeFz s) (rdF s t x)) s)

/-- R221: 2^a, correctly rounded. -/
def execVfexp2 (o : Op3A) (s : State) : Host.Outcome State Fault Refusal :=
  .next (vec2 (wordOf (encode (.vfexp2 o))) 2 o Ty.isFloat
    (fun s t x => applyFunc .exp2 t (rmNow s) (modeFz s) (rdF s t x)) s)

/-- R221: log2 a, correctly rounded. -/
def execVflog2 (o : Op3A) (s : State) : Host.Outcome State Fault Refusal :=
  .next (vec2 (wordOf (encode (.vflog2 o))) 2 o Ty.isFloat
    (fun s t x => applyFunc .log2 t (rmNow s) (modeFz s) (rdF s t x)) s)

/-- R221: sin a, correctly rounded. -/
def execVfsin (o : Op3A) (s : State) : Host.Outcome State Fault Refusal :=
  .next (vec2 (wordOf (encode (.vfsin o))) 2 o Ty.isFloat
    (fun s t x => applyFunc .sin t (rmNow s) (modeFz s) (rdF s t x)) s)

/-- R221: cos a, correctly rounded. -/
def execVfcos (o : Op3A) (s : State) : Host.Outcome State Fault Refusal :=
  .next (vec2 (wordOf (encode (.vfcos o))) 2 o Ty.isFloat
    (fun s t x => applyFunc .cos t (rmNow s) (modeFz s) (rdF s t x)) s)

/-- R221: tanh a, correctly rounded. -/
def execVftanh (o : Op3A) (s : State) : Host.Outcome State Fault Refusal :=
  .next (vec2 (wordOf (encode (.vftanh o))) 2 o Ty.isFloat
    (fun s t x => applyFunc .tanh t (rmNow s) (modeFz s) (rdF s t x)) s)

/-- R222: a one-hot class mask of 32 bits; no flag. -/
def execVfclass (o : Op3A) (s : State) : Host.Outcome State Fault Refusal :=
  .next (vecIssue (wordOf (encode (.vfclass o))) 1
    (fun t => vDstOk false o.d && vSrcOk t.wide o.a && t.isFloat)
    (fun t ls => srcV o.a.toNat t.regs o.ta ls)
    (fun _ => [])
    (fun _ ls => dstV o.d.toNat 1 ls)
    (fun t ls s => setVAll (ls.map fun i =>
      (o.d.toNat, i, BitVec.ofNat 32 (2 ^ classBit s t (elemOf s t o.a.toNat i)))) s) s)

end Sys2Proof.Machine
end

