-- ==== Sys2Proof/Machine/VectorInt.lean ====
section
/-! DEFINITION. Vector integer, bitwise and moving instructions (spec/10_isa_vector.md R215 to R218). Every one has weight
1 and acts in the active lanes. -/

namespace Sys2Proof.Machine

/-- The shift amount: the low log2(w) bits of b. -/
def shiftAmount (t : Ty) (y : Nat) : Nat := y % t.width

/-- Clamped to the range of T. -/
def clampInt (t : Ty) (x : Int) : Nat :=
  wrapNat (if x < t.least then t.least else if t.greatest < x then t.greatest else x) t.width

/-- vbcs: byte j of the result by selector nibble j. -/
def selectBytes (x y sel : Nat) : Nat :=
  leNat ((countFrom 0 4).map fun j =>
    let n := bits sel (4 * j) 4
    BitVec.ofNat 8 (if n < 4 then bits x (8 * n) 8 else if n < 8 then bits y (8 * (n - 4)) 8 else 0))

/-- The field of vbfe and vbfi: position and length. -/
def fieldPos (y : Nat) : Nat := y % 32
def fieldLen (y : Nat) : Nat := min (bits y 8 6) 32

/-- vbfe. -/
def extractField (t : Ty) (x y : Nat) : Nat :=
  let f := x % 2 ^ 32 / 2 ^ fieldPos y % 2 ^ fieldLen y
  if t.kind = .int ∧ 0 < fieldLen y then wrapNat (sextInt f (fieldLen y)) 32 else f

/-- vbfi. -/
def insertField (x y old : Nat) : Nat :=
  let mask := (2 ^ fieldLen y - 1) * 2 ^ fieldPos y % 2 ^ 32
  Nat.lor (old % 2 ^ 32 - Nat.land old mask) (Nat.land (x * 2 ^ fieldPos y) mask)

/-- A 32-bit bit-field instruction: the lane bits whatever the width of T; `anyT` where T is ignored but for its width. -/
def vecBits (word : BitVec 32) (o : Op3R) (old anyT : Bool) (f : Ty → Nat → Nat → Nat → Nat) (s : State) : State :=
  let t := elemTy s
  laneIssue word 1
    (vDstOk false o.d && vSrcOk false o.a && vSrcOk false o.b && match t with
      | none => anyT
      | some t => !t.wide)
    (fun ls => srcV o.a.toNat 1 o.ta ls ++ srcV o.b.toNat 1 o.tb ls ++ (if old then srcV o.d.toNat 1 false ls else []))
    (fun _ => [])
    (fun ls => dstV o.d.toNat 1 ls)
    (fun ls s => setVAll (ls.map fun i => (o.d.toNat, i,
      BitVec.ofNat 32 (f (t.getD (Ty.n 32)) (fieldBits s o.a.toNat false i) (fieldBits s o.b.toNat false i)
        (fieldBits s o.d.toNat false i)))) s) s

/-- R215: x + y. -/
def execVadd (o : Op3R) (s : State) : Host.Outcome State Fault Refusal :=
  .next (vec3 (wordOf (encode (.vadd o))) 1 o Ty.isInt false
    (fun _ t x y _ => intRes t (t.intVal x + t.intVal y)) s)

/-- R215: x − y. -/
def execVsub (o : Op3R) (s : State) : Host.Outcome State Fault Refusal :=
  .next (vec3 (wordOf (encode (.vsub o))) 1 o Ty.isInt false
    (fun _ t x y _ => intRes t (t.intVal x - t.intVal y)) s)

/-- R215: the low w bits of x × y. -/
def execVmul (o : Op3R) (s : State) : Host.Outcome State Fault Refusal :=
  .next (vec3 (wordOf (encode (.vmul o))) 1 o Ty.isInt false
    (fun _ t x y _ => intRes t (t.intVal x * t.intVal y)) s)

/-- R215: the high w bits of the product. -/
def execVmulh (o : Op3R) (s : State) : Host.Outcome State Fault Refusal :=
  .next (vec3 (wordOf (encode (.vmulh o))) 1 o Ty.isInt false
    (fun _ t x y _ => intRes t (t.intVal x * t.intVal y / ((2 ^ t.width : Nat) : Int))) s)

/-- R215: x × y + old d. -/
def execVmad (o : Op3R) (s : State) : Host.Outcome State Fault Refusal :=
  .next (vec3 (wordOf (encode (.vmad o))) 1 o Ty.isInt true
    (fun _ t x y z => intRes t (t.intVal x * t.intVal y + t.intVal z)) s)

/-- R216: AND. -/
def execVand (o : Op3R) (s : State) : Host.Outcome State Fault Refusal :=
  .next (vec3 (wordOf (encode (.vand o))) 1 o (fun _ => true) false
    (fun _ _ x y _ => plainRes (Nat.land x y)) s)

/-- R216: OR. -/
def execVor (o : Op3R) (s : State) : Host.Outcome State Fault Refusal :=
  .next (vec3 (wordOf (encode (.vor o))) 1 o (fun _ => true) false
    (fun _ _ x y _ => plainRes (Nat.lor x y)) s)

/-- R216: XOR. -/
def execVxor (o : Op3R) (s : State) : Host.Outcome State Fault Refusal :=
  .next (vec3 (wordOf (encode (.vxor o))) 1 o (fun _ => true) false
    (fun _ _ x y _ => plainRes (Nat.xor x y)) s)

/-- R216: NOT, w bits. -/
def execVnot (o : Op3A) (s : State) : Host.Outcome State Fault Refusal :=
  .next (vec2 (wordOf (encode (.vnot o))) 1 o (fun _ => true)
    (fun _ t x => plainRes (2 ^ t.width - 1 - x)) s)

/-- R215: ux × 2^m. -/
def execVshl (o : Op3R) (s : State) : Host.Outcome State Fault Refusal :=
  .next (vec3 (wordOf (encode (.vshl o))) 1 o Ty.isInt false
    (fun _ t x y _ => plainRes (x * 2 ^ shiftAmount t y % 2 ^ t.width)) s)

/-- R215: ⌊ux / 2^m⌋. -/
def execVshr (o : Op3R) (s : State) : Host.Outcome State Fault Refusal :=
  .next (vec3 (wordOf (encode (.vshr o))) 1 o Ty.isInt false
    (fun _ t x y _ => plainRes (x / 2 ^ shiftAmount t y)) s)

/-- R215: ⌊sx / 2^m⌋, sx being two's complement whatever T. -/
def execVsra (o : Op3R) (s : State) : Host.Outcome State Fault Refusal :=
  .next (vec3 (wordOf (encode (.vsra o))) 1 o Ty.isInt false
    (fun _ t x y _ => intRes t (sextInt x t.width / ((2 ^ shiftAmount t y : Nat) : Int))) s)

/-- R215: the lesser. -/
def execVmin (o : Op3R) (s : State) : Host.Outcome State Fault Refusal :=
  .next (vec3 (wordOf (encode (.vmin o))) 1 o Ty.isInt false
    (fun _ t x y _ => plainRes (if t.intVal x ≤ t.intVal y then x else y)) s)

/-- R215: the greater. -/
def execVmax (o : Op3R) (s : State) : Host.Outcome State Fault Refusal :=
  .next (vec3 (wordOf (encode (.vmax o))) 1 o Ty.isInt false
    (fun _ t x y _ => plainRes (if t.intVal x ≤ t.intVal y then y else x)) s)

/-- R215: |x|; the least value of an i type gives itself. -/
def execVabs (o : Op3A) (s : State) : Host.Outcome State Fault Refusal :=
  .next (vec2 (wordOf (encode (.vabs o))) 1 o Ty.isInt
    (fun _ t x => intRes t ((t.intVal x).natAbs : Int)) s)

/-- R215: −x. -/
def execVneg (o : Op3A) (s : State) : Host.Outcome State Fault Refusal :=
  .next (vec2 (wordOf (encode (.vneg o))) 1 o Ty.isInt
    (fun _ t x => intRes t (-t.intVal x)) s)

/-- R215: leading zero bits of ux. -/
def execVclz (o : Op3A) (s : State) : Host.Outcome State Fault Refusal :=
  .next (vec2 (wordOf (encode (.vclz o))) 1 o Ty.isInt
    (fun _ t x => plainRes (clzNat t.width x)) s)

/-- R215: one bits of ux. -/
def execVpop (o : Op3A) (s : State) : Host.Outcome State Fault Refusal :=
  .next (vec2 (wordOf (encode (.vpop o))) 1 o Ty.isInt
    (fun _ t x => plainRes (popNat t.width x)) s)

/-- R218: x < y, x ≤ y, x = y, and never. -/
def execVcmp (o : Op3R) (s : State) : Host.Outcome State Fault Refusal :=
  .next (vecCmp (wordOf (encode (.vcmp o))) o Ty.isInt
    (fun _ t x y => ((decide (t.intVal x < t.intVal y), decide (t.intVal x ≤ t.intVal y), decide (t.intVal x = t.intVal y),
      false), 0)) s)

/-- R216: a where the bits of the old d are not all 0, else b. -/
def execVsel (o : Op3R) (s : State) : Host.Outcome State Fault Refusal :=
  .next (vec3 (wordOf (encode (.vsel o))) 1 o (fun _ => true) true
    (fun _ _ x y z => plainRes (if z ≠ 0 then x else y)) s)

/-- R216: a. -/
def execVmov (o : Op3A) (s : State) : Host.Outcome State Fault Refusal :=
  .next (vec2 (wordOf (encode (.vmov o))) 1 o (fun _ => true)
    (fun _ _ x => plainRes x) s)

/-- R217: bytes of a and b by the selector in the old d; T counts only by its width. -/
def execVbcs (o : Op3R) (s : State) : Host.Outcome State Fault Refusal :=
  .next (vecBits (wordOf (encode (.vbcs o))) o true true (fun _ x y z => selectBytes x y z) s)

/-- R217: extracts a bit field. -/
def execVbfe (o : Op3R) (s : State) : Host.Outcome State Fault Refusal :=
  .next (vecBits (wordOf (encode (.vbfe o))) o false false (fun t x y _ => extractField t x y) s)

/-- R217: inserts a bit field. -/
def execVbfi (o : Op3R) (s : State) : Host.Outcome State Fault Refusal :=
  .next (vecBits (wordOf (encode (.vbfi o))) o true false (fun _ x y z => insertField x y z) s)

/-- R215: x + y clamped to the range of T. -/
def execVadds (o : Op3R) (s : State) : Host.Outcome State Fault Refusal :=
  .next (vec3 (wordOf (encode (.vadds o))) 1 o Ty.isInt false
    (fun _ t x y _ => plainRes (clampInt t (t.intVal x + t.intVal y))) s)

end Sys2Proof.Machine
end

