-- ==== Sys2Proof/Machine/Dispatch.lean ====
section
/-! DEFINITION. The dispatch: one arm per instruction and per step of another agent, each one call of its meaning. -/

namespace Sys2Proof.Machine

def exec (i : Instr) (s : State) : Host.Outcome State Fault Refusal :=
  match i with
  | .add o => Sys2Proof.Machine.execAdd o s
  | .sub o => Sys2Proof.Machine.execSub o s
  | .mul o => Sys2Proof.Machine.execMul o s
  | .mulh o => Sys2Proof.Machine.execMulh o s
  | .mulhn o => Sys2Proof.Machine.execMulhn o s
  | .div o => Sys2Proof.Machine.execDiv o s
  | .divn o => Sys2Proof.Machine.execDivn o s
  | .rem o => Sys2Proof.Machine.execRem o s
  | .remn o => Sys2Proof.Machine.execRemn o s
  | .andS o => Sys2Proof.Machine.execAndS o s
  | .orS o => Sys2Proof.Machine.execOrS o s
  | .xorS o => Sys2Proof.Machine.execXorS o s
  | .shl o => Sys2Proof.Machine.execShl o s
  | .shr o => Sys2Proof.Machine.execShr o s
  | .sra o => Sys2Proof.Machine.execSra o s
  | .minS o => Sys2Proof.Machine.execMinS o s
  | .maxS o => Sys2Proof.Machine.execMaxS o s
  | .minn o => Sys2Proof.Machine.execMinn o s
  | .maxn o => Sys2Proof.Machine.execMaxn o s
  | .slt o => Sys2Proof.Machine.execSlt o s
  | .sltn o => Sys2Proof.Machine.execSltn o s
  | .seq o => Sys2Proof.Machine.execSeq o s
  | .sel o => Sys2Proof.Machine.execSel o s
  | .clz o => Sys2Proof.Machine.execClz o s
  | .ctz o => Sys2Proof.Machine.execCtz o s
  | .pop o => Sys2Proof.Machine.execPop o s
  | .lea o => Sys2Proof.Machine.execLea o s
  | .addi o => Sys2Proof.Machine.execAddi o s
  | .andi o => Sys2Proof.Machine.execAndi o s
  | .ori o => Sys2Proof.Machine.execOri o s
  | .xori o => Sys2Proof.Machine.execXori o s
  | .shli o => Sys2Proof.Machine.execShli o s
  | .shri o => Sys2Proof.Machine.execShri o s
  | .srai o => Sys2Proof.Machine.execSrai o s
  | .movi o => Sys2Proof.Machine.execMovi o s
  | .movh o => Sys2Proof.Machine.execMovh o s
  | .jmp o => Sys2Proof.Machine.execJmp o s
  | .jal o => Sys2Proof.Machine.execJal o s
  | .jr o => Sys2Proof.Machine.execJr o s
  | .call o => Sys2Proof.Machine.execCall o s
  | .ret => Sys2Proof.Machine.execRet s
  | .retVa o => Sys2Proof.Machine.execRetVa o s
  | .bz o => Sys2Proof.Machine.execBz o s
  | .bnz o => Sys2Proof.Machine.execBnz o s
  | .bany o => Sys2Proof.Machine.execBany o s
  | .ball o => Sys2Proof.Machine.execBall o s
  | .vbr o => Sys2Proof.Machine.execVbr o s
  | .loopLc0 o => Sys2Proof.Machine.execLoopLc0 o s
  | .loopLc1 o => Sys2Proof.Machine.execLoopLc1 o s
  | .loopSetLc0 o => Sys2Proof.Machine.execLoopSetLc0 o s
  | .loopSetLc1 o => Sys2Proof.Machine.execLoopSetLc1 o s
  | .loopGetLc0 o => Sys2Proof.Machine.execLoopGetLc0 o s
  | .loopGetLc1 o => Sys2Proof.Machine.execLoopGetLc1 o s
  | .region => Sys2Proof.Machine.execRegion s
  | .yield => Sys2Proof.Machine.execYield s
  | .nop => Sys2Proof.Machine.execNop s
  | .halt => Sys2Proof.Machine.execHalt s
  | .modeT o => Sys2Proof.Machine.execModeT o s
  | .modeG o => Sys2Proof.Machine.execModeG o s
  | .modeRm o => Sys2Proof.Machine.execModeRm o s
  | .modeCv o => Sys2Proof.Machine.execModeCv o s
  | .modeLd o => Sys2Proof.Machine.execModeLd o s
  | .modeSt o => Sys2Proof.Machine.execModeSt o s
  | .rdsp o => Sys2Proof.Machine.execRdsp o s
  | .vadd o => Sys2Proof.Machine.execVadd o s
  | .vsub o => Sys2Proof.Machine.execVsub o s
  | .vmul o => Sys2Proof.Machine.execVmul o s
  | .vmulh o => Sys2Proof.Machine.execVmulh o s
  | .vmad o => Sys2Proof.Machine.execVmad o s
  | .vand o => Sys2Proof.Machine.execVand o s
  | .vor o => Sys2Proof.Machine.execVor o s
  | .vxor o => Sys2Proof.Machine.execVxor o s
  | .vnot o => Sys2Proof.Machine.execVnot o s
  | .vshl o => Sys2Proof.Machine.execVshl o s
  | .vshr o => Sys2Proof.Machine.execVshr o s
  | .vsra o => Sys2Proof.Machine.execVsra o s
  | .vmin o => Sys2Proof.Machine.execVmin o s
  | .vmax o => Sys2Proof.Machine.execVmax o s
  | .vabs o => Sys2Proof.Machine.execVabs o s
  | .vneg o => Sys2Proof.Machine.execVneg o s
  | .vclz o => Sys2Proof.Machine.execVclz o s
  | .vpop o => Sys2Proof.Machine.execVpop o s
  | .vcmp o => Sys2Proof.Machine.execVcmp o s
  | .vsel o => Sys2Proof.Machine.execVsel o s
  | .vmov o => Sys2Proof.Machine.execVmov o s
  | .vbcs o => Sys2Proof.Machine.execVbcs o s
  | .vbfe o => Sys2Proof.Machine.execVbfe o s
  | .vbfi o => Sys2Proof.Machine.execVbfi o s
  | .vadds o => Sys2Proof.Machine.execVadds o s
  | .vfadd o => Sys2Proof.Machine.execVfadd o s
  | .vfsub o => Sys2Proof.Machine.execVfsub o s
  | .vfmul o => Sys2Proof.Machine.execVfmul o s
  | .vffma o => Sys2Proof.Machine.execVffma o s
  | .vfneg o => Sys2Proof.Machine.execVfneg o s
  | .vfabs o => Sys2Proof.Machine.execVfabs o s
  | .vfmin o => Sys2Proof.Machine.execVfmin o s
  | .vfmax o => Sys2Proof.Machine.execVfmax o s
  | .vfcmp o => Sys2Proof.Machine.execVfcmp o s
  | .vfrcp o => Sys2Proof.Machine.execVfrcp o s
  | .vfrsq o => Sys2Proof.Machine.execVfrsq o s
  | .vfsqrt o => Sys2Proof.Machine.execVfsqrt o s
  | .vfexp2 o => Sys2Proof.Machine.execVfexp2 o s
  | .vflog2 o => Sys2Proof.Machine.execVflog2 o s
  | .vfsin o => Sys2Proof.Machine.execVfsin o s
  | .vfcos o => Sys2Proof.Machine.execVfcos o s
  | .vftanh o => Sys2Proof.Machine.execVftanh o s
  | .vfclass o => Sys2Proof.Machine.execVfclass o s
  | .vcvtF64 o => Sys2Proof.Machine.execVcvtF64 o s
  | .vcvtF32 o => Sys2Proof.Machine.execVcvtF32 o s
  | .vcvtF16 o => Sys2Proof.Machine.execVcvtF16 o s
  | .vcvtBf16 o => Sys2Proof.Machine.execVcvtBf16 o s
  | .vcvtE4m3 o => Sys2Proof.Machine.execVcvtE4m3 o s
  | .vcvtE5m2 o => Sys2Proof.Machine.execVcvtE5m2 o s
  | .vcvtE3m2 o => Sys2Proof.Machine.execVcvtE3m2 o s
  | .vcvtE2m3 o => Sys2Proof.Machine.execVcvtE2m3 o s
  | .vcvtE2m1 o => Sys2Proof.Machine.execVcvtE2m1 o s
  | .vcvtI32 o => Sys2Proof.Machine.execVcvtI32 o s
  | .vcvtN32 o => Sys2Proof.Machine.execVcvtN32 o s
  | .vcvtI16 o => Sys2Proof.Machine.execVcvtI16 o s
  | .vcvtN16 o => Sys2Proof.Machine.execVcvtN16 o s
  | .vcvtI8 o => Sys2Proof.Machine.execVcvtI8 o s
  | .vcvtN8 o => Sys2Proof.Machine.execVcvtN8 o s
  | .vcvtI4 o => Sys2Proof.Machine.execVcvtI4 o s
  | .vcvtN4 o => Sys2Proof.Machine.execVcvtN4 o s
  | .vpack o => Sys2Proof.Machine.execVpack o s
  | .vunpk o => Sys2Proof.Machine.execVunpk o s
  | .vshf o => Sys2Proof.Machine.execVshf o s
  | .vshfx o => Sys2Proof.Machine.execVshfx o s
  | .vshfu o => Sys2Proof.Machine.execVshfu o s
  | .vshfd o => Sys2Proof.Machine.execVshfd o s
  | .vlane o => Sys2Proof.Machine.execVlane o s
  | .vvote o => Sys2Proof.Machine.execVvote o s
  | .vballot o => Sys2Proof.Machine.execVballot o s
  | .vred o => Sys2Proof.Machine.execVred o s
  | .vscan o => Sys2Proof.Machine.execVscan o s
  | .vmaxi o => Sys2Proof.Machine.execVmaxi o s
  | .vtopk o => Sys2Proof.Machine.execVtopk o s
  | .rdw o => Sys2Proof.Machine.execRdw o s
  | .ldG o => Sys2Proof.Machine.execLdG o s
  | .stG o => Sys2Proof.Machine.execStG o s
  | .ldS o => Sys2Proof.Machine.execLdS o s
  | .stS o => Sys2Proof.Machine.execStS o s
  | .ldU o => Sys2Proof.Machine.execLdU o s
  | .stU o => Sys2Proof.Machine.execStU o s
  | .pf o => Sys2Proof.Machine.execPf o s
  | .dis o => Sys2Proof.Machine.execDis o s
  | .winOpen o => Sys2Proof.Machine.execWinOpen o s
  | .winClose o => Sys2Proof.Machine.execWinClose o s
  | .ldX o => Sys2Proof.Machine.execLdX o s
  | .stX o => Sys2Proof.Machine.execStX o s
  | .peerCap o => Sys2Proof.Machine.execPeerCap o s
  | .atom o => Sys2Proof.Machine.execAtom o s
  | .atomCas o => Sys2Proof.Machine.execAtomCas o s
  | .atomCas16 o => Sys2Proof.Machine.execAtomCas16 o s
  | .atomMaxi o => Sys2Proof.Machine.execAtomMaxi o s
  | .red o => Sys2Proof.Machine.execRed o s
  | .acq o => Sys2Proof.Machine.execAcq o s
  | .rel o => Sys2Proof.Machine.execRel o s
  | .fence o => Sys2Proof.Machine.execFence o s
  | .bar => Sys2Proof.Machine.execBar s
  | .barC => Sys2Proof.Machine.execBarC s
  | .barG => Sys2Proof.Machine.execBarG s
  | .turn => Sys2Proof.Machine.execTurn s
  | .cjmpImm o => Sys2Proof.Machine.execCjmpImm o s
  | .cjmpReg o => Sys2Proof.Machine.execCjmpReg o s
  | .cjmpto o => Sys2Proof.Machine.execCjmpto o s
  | .rdclk o => Sys2Proof.Machine.execRdclk o s
  | .rdq o => Sys2Proof.Machine.execRdq o s
  | .waitCnt o => Sys2Proof.Machine.execWaitCnt o s
  | .tileOwn o => Sys2Proof.Machine.execTileOwn o s
  | .tileSeal o => Sys2Proof.Machine.execTileSeal o s
  | .tileFree o => Sys2Proof.Machine.execTileFree o s
  | .tileQ o => Sys2Proof.Machine.execTileQ o s
  | .cp o => Sys2Proof.Machine.execCp o s
  | .cpR o => Sys2Proof.Machine.execCpR o s
  | .cpX o => Sys2Proof.Machine.execCpX o s
  | .cpXR o => Sys2Proof.Machine.execCpXR o s
  | .gat o => Sys2Proof.Machine.execGat o s
  | .gatR o => Sys2Proof.Machine.execGatR o s
  | .scat o => Sys2Proof.Machine.execScat o s
  | .scatR o => Sys2Proof.Machine.execScatR o s
  | .coll o => Sys2Proof.Machine.execColl o s
  | .collR o => Sys2Proof.Machine.execCollR o s
  | .mloop o => Sys2Proof.Machine.execMloop o s
  | .maccZ o => Sys2Proof.Machine.execMaccZ o s
  | .maccZR o => Sys2Proof.Machine.execMaccZR o s
  | .maccLd o => Sys2Proof.Machine.execMaccLd o s
  | .maccLdR o => Sys2Proof.Machine.execMaccLdR o s
  | .maccSt o => Sys2Proof.Machine.execMaccSt o s
  | .maccStR o => Sys2Proof.Machine.execMaccStR o s
  | .ewait o => Sys2Proof.Machine.execEwait o s
  | .epoll o => Sys2Proof.Machine.execEpoll o s
  | .taskSig o => Sys2Proof.Machine.execTaskSig o s
  | .taskPost o => Sys2Proof.Machine.execTaskPost o s
  | .taskDone => Sys2Proof.Machine.execTaskDone s
  | .trap o => Sys2Proof.Machine.execTrap o s
  | .rte => Sys2Proof.Machine.execRte s
  | .csrr o => Sys2Proof.Machine.execCsrr o s
  | .csrw o => Sys2Proof.Machine.execCsrw o s
  | .csrs o => Sys2Proof.Machine.execCsrs o s
  | .csrc o => Sys2Proof.Machine.execCsrc o s
  | .brk o => Sys2Proof.Machine.execBrk o s
  | .pmcRead o => Sys2Proof.Machine.execPmcRead o s
  | .pmcReadClear o => Sys2Proof.Machine.execPmcReadClear o s
  | .icinv o => Sys2Proof.Machine.execIcinv o s
  | .plbInv o => Sys2Proof.Machine.execPlbInv o s
  | .hcOpEntry o => Sys2Proof.Machine.execHcOpEntry o s
  | .hcOpRoot o => Sys2Proof.Machine.execHcOpRoot o s
  | .hcOpFrame o => Sys2Proof.Machine.execHcOpFrame o s
  | .hcOpMigrate o => Sys2Proof.Machine.execHcOpMigrate o s
  | .hcOpReplay o => Sys2Proof.Machine.execHcOpReplay o s
  | .hcOpDrop o => Sys2Proof.Machine.execHcOpDrop o s
  | .hcOpUnhold o => Sys2Proof.Machine.execHcOpUnhold o s
  | .hcOpRead o => Sys2Proof.Machine.execHcOpRead o s
  | .atomX o => Sys2Proof.Machine.execAtomX o s
  | .redX o => Sys2Proof.Machine.execRedX o s
  | .regang => Sys2Proof.Machine.execRegang s
  | .loadResultArrive => Sys2Proof.Machine.execLoadResultArrive s
  | .loadFaultResponse => Sys2Proof.Machine.execLoadFaultResponse s
  | .storeAck => Sys2Proof.Machine.execStoreAck s
  | .turnAdmit => Sys2Proof.Machine.execTurnAdmit s
  | .detLoadPerform => Sys2Proof.Machine.execDetLoadPerform s
  | .floorGatedAction => Sys2Proof.Machine.execFloorGatedAction s
  | .crownFloorUpdate => Sys2Proof.Machine.execCrownFloorUpdate s
  | .publicationArrive => Sys2Proof.Machine.execPublicationArrive s
  | .publicationAck => Sys2Proof.Machine.execPublicationAck s
  | .mittenUpdateArrive => Sys2Proof.Machine.execMittenUpdateArrive s
  | .redRefusalReturn => Sys2Proof.Machine.execRedRefusalReturn s
  | .floorSideband => Sys2Proof.Machine.execFloorSideband s
  | .floorSendInterval => Sys2Proof.Machine.execFloorSendInterval s
  | .barrierComplete => Sys2Proof.Machine.execBarrierComplete s
  | .engineDispatch => Sys2Proof.Machine.execEngineDispatch s
  | .matrixPassGrant => Sys2Proof.Machine.execMatrixPassGrant s
  | .engineFinish => Sys2Proof.Machine.execEngineFinish s
  | .ewaitComplete => Sys2Proof.Machine.execEwaitComplete s
  | .engineAccessFault => Sys2Proof.Machine.execEngineAccessFault s
  | .matrixOperandFault => Sys2Proof.Machine.execMatrixOperandFault s
  | .collectiveTimeout => Sys2Proof.Machine.execCollectiveTimeout s
  | .deferredFaultRecord => Sys2Proof.Machine.execDeferredFaultRecord s
  | .hcAccess => Sys2Proof.Machine.execHcAccess s
  | .turnStallWatchdog => Sys2Proof.Machine.execTurnStallWatchdog s
  | .taskLeaveIntake => Sys2Proof.Machine.execTaskLeaveIntake s
  | .domainDescriptorMatch => Sys2Proof.Machine.execDomainDescriptorMatch s
  | .unitPlace => Sys2Proof.Machine.execUnitPlace s
  | .opPointStable => Sys2Proof.Machine.execOpPointStable s
  | .unitRetire => Sys2Proof.Machine.execUnitRetire s
  | .launchRetire => Sys2Proof.Machine.execLaunchRetire s
  | .residencyPeriodEnd => Sys2Proof.Machine.execResidencyPeriodEnd s
  | .turnDrivenSwapIn => Sys2Proof.Machine.execTurnDrivenSwapIn s
  | .homeLocalLoad => Sys2Proof.Machine.execHomeLocalLoad s
  | .homeLocalStore => Sys2Proof.Machine.execHomeLocalStore s
  | .invalidationAck => Sys2Proof.Machine.execInvalidationAck s
  | .invalidationArrive => Sys2Proof.Machine.execInvalidationArrive s
  | .invalidationTimeout => Sys2Proof.Machine.execInvalidationTimeout s
  | .fabricRequestArrive => Sys2Proof.Machine.execFabricRequestArrive s
  | .reservationExpire => Sys2Proof.Machine.execReservationExpire s
  | .refusalReceive => Sys2Proof.Machine.execRefusalReceive s
  | .refusalResend => Sys2Proof.Machine.execRefusalResend s
  | .intermediateForward => Sys2Proof.Machine.execIntermediateForward s
  | .remoteResponse => Sys2Proof.Machine.execRemoteResponse s
  | .remoteFaultResponse => Sys2Proof.Machine.execRemoteFaultResponse s
  | .remoteTimeout => Sys2Proof.Machine.execRemoteTimeout s
  | .floorSilenceTimeout => Sys2Proof.Machine.execFloorSilenceTimeout s
  | .boundaryFilterProbe => Sys2Proof.Machine.execBoundaryFilterProbe s
  | .boundaryFilterAnswer => Sys2Proof.Machine.execBoundaryFilterAnswer s
  | .hostMemrd => Sys2Proof.Machine.execHostMemrd s
  | .hostMemwr => Sys2Proof.Machine.execHostMemwr s
  | .bisnpResponse => Sys2Proof.Machine.execBisnpResponse s
  | .hostSnpdata => Sys2Proof.Machine.execHostSnpdata s
  | .hostSnpinv => Sys2Proof.Machine.execHostSnpinv s
  | .hostSnpcur => Sys2Proof.Machine.execHostSnpcur s
  | .cxlCacheGrant => Sys2Proof.Machine.execCxlCacheGrant s
  | .hostAtomic => Sys2Proof.Machine.execHostAtomic s
  | .hostLinkLoss => Sys2Proof.Machine.execHostLinkLoss s
  | .hostLinkRetrain => Sys2Proof.Machine.execHostLinkRetrain s
  | .create => Sys2Proof.Machine.execCreate s
  | .destroy => Sys2Proof.Machine.execDestroy s
  | .reset => Sys2Proof.Machine.execReset s
  | .query => Sys2Proof.Machine.execQuery s
  | .attest => Sys2Proof.Machine.execAttest s
  | .powercap => Sys2Proof.Machine.execPowercap s
  | .stage => Sys2Proof.Machine.execStage s
  | .startrec => Sys2Proof.Machine.execStartrec s
  | .restart => Sys2Proof.Machine.execRestart s
  | .spdmGetCertificate => Sys2Proof.Machine.execSpdmGetCertificate s
  | .spdmChallenge => Sys2Proof.Machine.execSpdmChallenge s
  | .spdmGetMeasurements => Sys2Proof.Machine.execSpdmGetMeasurements s
  | .apertureMapWrite => Sys2Proof.Machine.execApertureMapWrite s
  | .fqConfigWrite => Sys2Proof.Machine.execFqConfigWrite s
  | .eselWrite => Sys2Proof.Machine.execEselWrite s
  | .registerWrite => Sys2Proof.Machine.execRegisterWrite s
  | .deviceStart => Sys2Proof.Machine.execDeviceStart s
  | .startStepTimeout => Sys2Proof.Machine.execStartStepTimeout s
  | .startRetry => Sys2Proof.Machine.execStartRetry s
  | .powerCapExceed => Sys2Proof.Machine.execPowerCapExceed s
  | .powerCapRelease => Sys2Proof.Machine.execPowerCapRelease s
  | .thermalHold => Sys2Proof.Machine.execThermalHold s
  | .thermalHoldRelease => Sys2Proof.Machine.execThermalHoldRelease s
  | .thermalTrip => Sys2Proof.Machine.execThermalTrip s
  | .eccCorrected => Sys2Proof.Machine.execEccCorrected s
  | .eccUncorrectable => Sys2Proof.Machine.execEccUncorrectable s
  | .hbmScrub => Sys2Proof.Machine.execHbmScrub s
  | .illegalInstruction w => Sys2Proof.Machine.execIllegalInstruction w s
  | .reservedEncoding w => Sys2Proof.Machine.execReservedEncoding w s
  | .plbFetchResponse => Sys2Proof.Machine.execPlbFetchResponse s
  | .engineReadsDone => Sys2Proof.Machine.execEngineReadsDone s
  | .configurationRequest => Sys2Proof.Machine.execConfigurationRequest s
  | .hostLinkDown => Sys2Proof.Machine.execHostLinkDown s
  | .thermalTripClear => Sys2Proof.Machine.execThermalTripClear s
  | .minimalPortFallback => Sys2Proof.Machine.execMinimalPortFallback s

end Sys2Proof.Machine
end

