-- ==== Sys2Proof/Machine/Place.lean ====
section
/-! DEFINITION. The loader that stands outside the machine (log entry 7): a gang at issue whose next instruction is a given
word, with the page, frame record and tables that its fetch needs. -/

namespace Sys2Proof.Machine

/-- Where the loader puts the page: its tables and its frame in the share of HC 0. -/
def placeRoot : Nat := 0x100000
def placeFrame : Nat := 0x600000

/-- A table pointer. -/
def pointerEntry (pa : Nat) : Nat := 2 ^ 63 + pa / 256 * 256
/-- A leaf that may be read and executed. -/
def codeLeaf (pa : Nat) : Nat := 2 ^ 63 + 2 ^ 62 + 2 ^ 54 + 2 ^ 52 + pa / 256 * 256

/-- The tables that map VA offset 0 of address space 1 of partition 0 to the loader's frame. -/
def placeTables (m : List Host.Cell) : List Host.Cell :=
  let m := memWrite m (placeRoot + 8) (leBytes 8 (pointerEntry 0x200000))
  let m := memWrite m 0x200000 (leBytes 8 (pointerEntry 0x300000))
  let m := memWrite m 0x300000 (leBytes 8 (pointerEntry 0x400000))
  let m := memWrite m 0x400000 (leBytes 8 (pointerEntry 0x500000))
  memWrite m 0x500000 (leBytes 8 (codeLeaf placeFrame))

/-- A running free launch of one unit of one gang of width 8. -/
def placedLaunch : Launch :=
  { Launch.vacant with
    id := 1, asid := 1, phase := .running
    units := [{ idx := 0, phase := .resident, clock := 0, final := 0, since := 0, awaitsOp := false, hold := none
                cores := [0], slot := 0, displaced := false, leaving := false }] }

/-- Its gang (R180). -/
def placedGang : Gang :=
  { Gang.vacant with
    id := 1, launch := 1, asid := 1, resident := true, ended := false, area := [(0, Config.contextBytes + Config.logEntryBytes * 1024)] }

/-- Its split at pc 0, a region open. -/
def placedSplit : Split :=
  let q : Split := { Split.vacant with members := 0xFF, exec := 0xFF }
  { q with entry := some (entryOf placedGang q 0 1), fresh := true }

/-- A partition with the clusters of the device. -/
def placedPart : Partition := { Partition.vacant with id := 0, clmask := BitVec.ofNat 64 (2 ^ 64 - 1) }

/-- Places a gang where none is at issue. -/
def placeGang (s : State) : State :=
  if s.p.members = 0 then
    { unload s with
      p := placedSplit
      g := placedGang
      mem := placeTables s.mem
      roots := mapSet noRoot s.roots 0 placeRoot
      frames := mapSet noFrame s.frames (placeFrame / 65536) (0, 1, 0)
      lines := s.lines.filter fun l => !(l.ref == lineRef 0 1 0)
      icache := s.icache.filter fun l => !(l.ref == lineRef 0 1 0)
      launches := placedLaunch :: s.launches.filter fun l => l.id != 1
      parts := if hasPart s 0 then s.parts else placedPart :: s.parts
      nextId := max s.nextId 2 }
  else s

/-- Stores a word where the split at issue fetches and makes it the next instruction to issue. -/
def placeWord (w : BitVec 32) (s : State) : State :=
  let s := placeGang s
  let off := offsetOf s.p.pc
  let r := lineRef s.g.part s.g.asid off
  let pa := match findLine s r with
    | some l => some (l.pa + off % 128)
    | none => (walk s s.g.part s.g.asid off).map fun l => l.pa
  match pa with
  | none => s
  | some pa =>
    { s with
      mem := memWrite s.mem pa (leBytes 4 w.toNat)
      icache := s.icache.filter fun l => !(l.ref == r)
      agenda := [.select s.g.id (lowest s.p.members)]
      g := { s.g with faults := [] }
      p := { s.p with wait := .none } }

end Sys2Proof.Machine
end

