-- ==== Sys2Proof/Machine/Schedule.lean ====
section
/-! DEFINITION. What the machine does next (log entry 1): the moves of the agenda, then the steps that the device takes of itself,
in one fixed order, then an instruction of the next ready split (spec/02_work_hierarchy.md R45, R36;
spec/13_scheduling.md R292). -/

namespace Sys2Proof.Machine

/-- A step of an agent. -/
def agentMove (i : Instr) (a : Arg) : Option Move := some (.agent i a)

/-- A step that its condition allows. -/
def whenMove (b : Bool) (i : Instr) (a : Arg) : Option Move := if b then some (.agent i a) else none

/-! ### Accesses (R83, R128, R364) -/

/-- The access has its turn at its home, or has not come to it yet (R128). -/
def lineFree (s : State) (q : Req) : Bool :=
  q.aperture || !s.hostQueue.contains (q.ref, .num q.id) || mayServe s q.ref (.num q.id)

/-- What keeps an access at its HC or gateway has gone: the held bytes it reads, the lock, the full queue (R368, R369, R124). -/
def heldReady (s : State) (q : Req) : Bool :=
  if !opWrites q.op then !readHeld s q && (q.aperture || (mayServe s q.ref (.num q.id) && lineRoom s q.ref))
  else
    let e := lateOfReq s q none
    let room := (lateRoom s e.hc q.part || joinsEntry s e) && firstHere s q.ref (.num q.id)
    if q.aperture then (gatewayMap s q).isSome && !granuleHeld s q.part q.asid q.off || room
    else if granuleHeld s q.part q.asid q.off then room
    else
      match hcWrite s q with
      | .refuse _ => room
      | .ok _ => !locked s q && mayServe s q.ref (.num q.id)
        && (if q.op = .discard then !((granuleCopies s q.part q.asid q.off).any fun r =>
            (findLine s r).any (fun l => decide (l.state = .p)) || !lineRoom s r)
          else lineRoom s q.ref)

/-- The next step of an access. -/
def reqMove (s : State) (q : Req) : Option Move :=
  match q.phase with
  | .sent =>
    if !lineFree s q then none
    else if mayArrive s q then agentMove (if opWrites q.op then .homeLocalStore else .homeLocalLoad) (.num q.id)
    else whenMove (viewReady s q) .detLoadPerform (.num q.id)
  | .pending =>
    whenMove (mayArrive s q && (if q.aperture then (gatewayMap s q).isNone else mayServe s q.ref (.num q.id)))
      (if opWrites q.op then .homeLocalStore else .homeLocalLoad) (.num q.id)
  | .atHc => agentMove .hcAccess (.num q.id)
  | .held => whenMove (atHc s q && heldReady s q) .hcAccess (.num q.id)
  | .done _ =>
    if q.dest ≠ .none then agentMove .loadResultArrive (.num q.id)
    else
      match q.op with
      | .store _ => agentMove .storeAck (.num q.id)
      | .reduce _ _ _ _ _ => agentMove .storeAck (.num q.id)
      | .discard => agentMove .storeAck (.num q.id)
      | .count _ _ => whenMove (decide (q.gang = 0)) .storeAck (.num q.id)
      | _ => none
  | .refused _ => whenMove (awaited s q) .loadFaultResponse (.num q.id)

/-- The next step of a remote request: one that was refused is sent again, one that waits for its view leaves. -/
def remoteMove (s : State) (r : RemoteReq) : Option Move :=
  if r.saved then whenMove (mayResend s r) .refusalResend (.num r.id)
  else if r.heldBack then whenMove ((heldNext s r.gang r.node).any fun x => x.id == r.id) .refusalResend (.num r.id)
  else if r.waiting then agentMove .refusalResend (.num r.id)
  else whenMove (r.view.any fun v => keyLe v (launchOf s r.launch).floor) .detLoadPerform (.num r.id)

/-! ### Publications, updates, held stores (R58, R66 to R74, R340) -/

/-- A write with a key that its HC refuses, or whose granule is held, finds room, or has not left its record yet (R369). -/
def keyedRoom (s : State) (part asid off id : Nat) (refused : Option (BitVec 8)) (stalled : Bool) : Bool :=
  !(refused.isSome || granuleHeld s part asid off) || !stalled
    || (lateRoom s (homeHc off) part && firstHere s (lineRef part asid off) (.num id))

def pubMove (s : State) (b : Publication) : Option Move :=
  if b.answered then whenMove (!answerOnWay s b) .publicationAck (.num b.id)
  else whenMove (keyedRoom s b.part b.asid b.ref.va b.id (keyedRefusal s b.part b.asid b.ref.va) b.stalled) .publicationArrive (.num b.id)

def updateMove (s : State) (u : Update) : Option Move :=
  if u.refused then
    whenMove (decide ((s.retry.filter fun x => x.core == u.core).length < Config.retryEntries)) .redRefusalReturn (.num u.id)
  else whenMove ((updateFree s u || (holders s u.launch u.ref).isEmpty)
      && keyedRoom s u.part u.asid (offsetOf u.va) u.id (admitsBoth s u.part u.asid (offsetOf u.va)) u.stalled)
      .mittenUpdateArrive (.num u.id)

def lateMove (e : LateEntry) : Option Move := whenMove (!e.recorded) .deferredFaultRecord (.num e.id)

/-! ### Lines and PLBs (R123, R128) -/

/-- A core answers an invalidation. -/
def lineMove (l : Line) : Option Move :=
  if l.state = .p then
    l.acks.findSome? fun a => match a with
      | .core n => some (.agent .invalidationAck (.lineHolder l.ref (.core n)))
      | .node _ => none
  else none

/-- A request that waited at its home is served; those of cores go by their phase. -/
def hostMove (s : State) (e : LineRef × Arg) : Option Move :=
  match e.2 with
  | .hostRead _ _ _ _ => whenMove (hostMayServe s e.1.part e.1.va false e.2) .hostMemrd e.2
  | .hostWrite _ _ _ _ _ => whenMove (hostMayServe s e.1.part e.1.va true e.2) .hostMemwr e.2
  | .hostAtomic _ _ _ _ _ _ => whenMove (hostMayServe s e.1.part e.1.va true e.2) .hostAtomic e.2
  | .fabric q => whenMove (fabricMayServe s q e.1.part e.2) .fabricRequestArrive e.2
  | _ => none

/-- An entry for a PLB miss arrives. -/
def plbMove (e : Gang × List Split) : Option Move :=
  e.2.findSome? fun q => match q.wait with
    | .plb va false => some (.agent .plbFetchResponse (.plb e.1.core e.1.part e.1.asid va))
    | _ => none

/-! ### Engines (R263, R294, R376) -/

/-- Why the next unit of a command cannot be done. -/
def nextStop (s : State) (c : Cmd) : Option EngStop :=
  match engTry c s with
  | .ok _ => none
  | .error x => some x

/-- The next step of a command that an engine works on: its next units, or their refusal. -/
def unitMove (s : State) (c : Cmd) (go : Option Move) : Option Move :=
  match nextStop s c with
  | none => go
  | some (.fault _ _ _) => agentMove (if c.op = .mloop then .matrixOperandFault else .engineAccessFault) (.num c.id)
  | some (.ask line _) => if s.cxlAsked.contains ((partOf s c.part).port, line) then none else go
  | some (.recall _) => go
  | some (.noRoom r _) => if s.noted.contains (r, .num c.id) then none else go
  | some .wait => none

/-- The next step of a command. -/
def cmdMove (s : State) (c : Cmd) : Option Move :=
  match c.phase with
  | .table => whenMove (admitted s c && leavesFirst s c) .engineDispatch (.num c.id)
  | .finished => none
  | _ =>
    if c.recorded then whenMove (reenters s c) .engineDispatch (.num c.id)
    else if !running c || !mayStart s c then none
    else if !c.started && !isMatrix c.op then agentMove .engineFinish (.num c.id)
    else if collStops s c then agentMove .collectiveTimeout (.num2 c.id ((deadMember s c).getD 0))
    else if !engViewReady s c then none
    else if workDone c then
      if writesDone s c then agentMove .engineFinish (.num c.id) else whenMove (!c.drained) .engineReadsDone (.num c.id)
    else if isMatrix c.op then
      if (grantedEntry s (clusterOf c.core)).any fun x => x.id == c.id then
        unitMove s c (agentMove .matrixPassGrant (.num (clusterOf c.core)))
      else none
    else unitMove s c (agentMove .engineFinish (.num c.id))

/-! ### Splits that wait (R61, R251, R266, R409) -/

/-- What lets a split of a gang go on: its turn, its floor, its barrier, its counter. -/
def waitMove (s : State) (g : Gang) (q : Split) : Option Move :=
  match q.wait with
  | .turn _ _ => whenMove (turnAdmitted s g q) .turnAdmit (.num2 g.id (lowest q.members))
  | .gated k grp false => whenMove (gateReached s g k grp) .floorGatedAction (.num2 g.id (lowest q.members))
  | .barrier k _ => whenMove (barrierReady s (barrierOf g k) && !acrossMembers (launchOf s g.launch) k) .barrierComplete (.barrier (barrierOf g k))
  | .ewait k n _ =>
    whenMove (g.resident && !g.trapped && g.faults.isEmpty && g.splits.any (fun x => decide (x = q))
      && decide (counterOf s g.id k ≤ n) && !overflows (4 + edgesBehind (seenBy s g q)) (seenBy s g q)) .ewaitComplete (.num2 g.id (lowest q.members))
  | _ => none

/-- Two splits of a gang that may become one (R34): both run, or one runs and shares a slice with the other. -/
def regangMove (s : State) (e : Gang × List Split) : Option Move :=
  let g := e.1
  if !g.resident || g.trapped then none
  else
    let parked (q : Split) : Bool := (parkedAt g (lowest q.members)).isSome
    let meet (a b : Split) : Bool :=
      decide (lowest a.members < lowest b.members) && mayMerge s g a b && !(parked a && parked b)
        && ((!parked a && !parked b) || (slicesOf a.members).any fun j => (slicesOf b.members).contains j)
    e.2.findSome? fun a => (findFirst (meet a) e.2).map fun b =>
      .agent .regang (.num3 g.id (lowest a.members) (lowest b.members))

/-! ### Launches (R59, R286 to R300, R37, R276) -/

/-- The floor of a launch may rise, or something at or below it is to be applied or merged. -/
def crownDue (s : State) (l : Launch) : Bool :=
  l.det && (inGroup l && (keyLt l.floor (floorNext s l) || (decide (l.dscope = 2) && keyLt l.sentFloor (ownFloor s l))
    || ((dueUpdates s l.id l.floor).any (updateFree s)))
    || (s.brim.any fun e => e.launch == l.id && mergeable s l e))

/-- A unit that holds F can be brought in. -/
def swapDue (s : State) (l : Launch) : Bool :=
  !(dueUnits s l).isEmpty && ((placeFor s l).isSome || (swapVictim s l).any fun v => !leavesLater s v.1 v.2)

/-- A residency period has ended, units wait, and others may give way; or a unit chosen before has left its handlers. -/
def periodOver (s : State) (l : Launch) : Bool :=
  (l.periodDue && !(waitingUnits l).isEmpty && !(rotatedOut l).isEmpty) || !(leavingNow s l).isEmpty

/-- The floor of a launch rises; a unit that holds it comes in before any other placement or rotation of the partition (R300). -/
def floorMove (s : State) (l : Launch) : Option Move :=
  if crownDue s l then agentMove .crownFloorUpdate (.num l.id)
  else if l.phase ≠ .running then none
  else whenMove (swapDue s l) .turnDrivenSwapIn (.num l.id)

/-- The next step of a launch. -/
def launchMove (s : State) (l : Launch) : Option Move :=
  if l.phase ≠ .running then none
  else if launchDone s l then agentMove .launchRetire (.num l.id)
  else
    match findFirst (fun u => unitDone s l.id u.idx) l.units with
    | some u => agentMove .unitRetire (.num2 l.id u.idx)
    | none =>
      if !(waitingUnits l).isEmpty && (placeable s l).isSome then agentMove .unitPlace (.num l.id)
      else whenMove (periodOver s l) .residencyPeriodEnd (.num l.id)

/-- A task may leave the intake list of a partition. -/
def intakeMove (s : State) (q : Partition) : Option Move :=
  match intakeHead s q.id with
  | none => none
  | some l =>
    whenMove (decide ((runningOf s q.id).length < Config.runningLaunches)
      && (decide (contextPool q < l.conc * unitBytes l) || (poolFor s q.id (l.conc * unitBytes l)).isSome))
      .taskLeaveIntake (.num q.id)

/-- A die reports its new point stable. -/
def dieMove (s : State) (i : Nat) : Option Move := whenMove (getAt Die.reset s.dies i).target.isSome .opPointStable (.num i)

/-- The mailbox command that the system controller serves, where it needs nothing from outside (R320). -/
def mailMove (s : State) : Option Move :=
  match s.posted with
  | [] => none
  | port :: _ =>
    if notRun s port then agentMove .query (.num port) else
    match mailWord s port 0 % 256 with
    | 2 => agentMove .destroy (.num port)
    | 3 => agentMove .reset (.num port)
    | 4 => agentMove .query (.num port)
    | 5 => agentMove .attest (.num port)
    | 6 => agentMove .powercap (.num port)
    | 7 => whenMove (decide (mailStatus s port = 1) || (portOf s port).down) .stage (.num port)
    | 8 => agentMove .startrec (.num port)
    | 9 => agentMove .restart (.num port)
    | _ => none

/-! ### The next step of the device -/

/-- The first of two moves. -/
def orMove (a b : Option Move) : Option Move :=
  match a with
  | some m => some m
  | none => b

/-- The step that the device takes of itself, if any is enabled. -/
def deviceMove (s : State) : Option Move :=
  orMove (s.reqs.findSome? (reqMove s)) <|
  orMove (s.pubs.findSome? (pubMove s)) <|
  orMove (s.updates.findSome? (updateMove s)) <|
  orMove (s.late.findSome? lateMove) <|
  orMove (s.lines.findSome? lineMove) <|
  orMove (s.hostQueue.findSome? (hostMove s)) <|
  orMove ((allGangs s).findSome? plbMove) <|
  orMove (s.remotes.findSome? (remoteMove s)) <|
  orMove (s.cmds.findSome? (cmdMove s)) <|
  orMove ((countFrom 0 s.dies.length).findSome? (dieMove s)) <|
  orMove (mailMove s) <|
  orMove ((allGangs s).findSome? fun e => e.2.findSome? (waitMove s e.1)) <|
  orMove ((allGangs s).findSome? (regangMove s)) <|
  orMove (s.launches.findSome? (floorMove s)) <|
  orMove ((sortBy (fun a b => decide (b.prio < a.prio)) s.launches).findSome? (launchMove s)) <|
  s.parts.findSome? (intakeMove s)

/-! ### The next split (R292, R45, R208) -/

/-- The kind of barrier at which a split has to raise the overflow cause (R52). -/
def overflowDue : Wait → Option BarrierKind
  | .overflowed k => some k
  | _ => none

/-- The held fault that the stall of the split at issue delivers: behind earlier accesses in a free launch, as at a fence (log entry
29), and at a return stack entry that is held (R370, R375). -/
def stallFault (s : State) : Option HeldFault :=
  match s.p.wait with
  | .earlier w => if earlierPending s w && !(curLaunch s).det then deliverable s .irrevocable else none
  | .refill => if refillHeld s then heldFaultOf s (fun e => e.cause == some 0x74) else none
  | _ => none

/-- The held fault that a turn or a barrier of the split at issue takes while it waits (R340, R341, R376). -/
def turnFault (s : State) : Option HeldFault :=
  match s.p.wait with
  | .turn _ _ => deliverable s .turn
  | .overflowed _ => deliverable s .irrevocable
  | _ => none

/-- The split at issue waits for room at peers that the stores of its own open region take: the region commits, so that they leave
(R142; log entry 64). -/
def holdsFar (s : State) : Bool :=
  match s.p.wait with
  | .remoteRoom n => !remoteRoom s s.g.core n && s.p.entry.isSome && decide (0 < bufferedFar s s.g.part s.p)
  | _ => false

/-- A stalled instruction can be issued again. -/
def waitReady (s : State) (g : Gang) (q : Split) : Bool :=
  let t := seenBy s g q
  match q.wait with
  | .none => true
  | .regs ss _ =>
    (ss.all fun c => match regState t c with
      | .empty _ => false
      | _ => true)
    || (ss.findSome? (stallFaultOf t)).isSome
  | .turn _ _ => (deliverable t .turn).isSome
  | .gated _ _ granted => granted
  | .view k n => keyLe k (launchOf s g.launch).floor || n.any fun c => (deliverable t (.counter c)).isSome
  | .barrier _ _ => false
  | .overflowed _ => !(g.splits.any fun x => (overflowDue x.wait).isSome && decide (lowest x.members ≠ lowest q.members)
      && keyLt (keyOf (launchOf s g.launch) g x) (keyOf (launchOf s g.launch) g q))
  | .earlier w => !earlierPending t w || (stallFault t).isSome
  | .refill => !refillHeld t || (stallFault t).isSome
  | .tile _ h _ woken => woken && !blockedAt t h && !commandFirst t h
  | .engine k => engineRoom t k || (deliverable t .irrevocable).isSome
  | .ewait k n _ => decide (counterOf s g.id k ≤ n) || (deliverable t (.counter k)).isSome
  | .order mask _ => !accessPending t mask false || (!(launchOf s g.launch).det && (deliverable t .irrevocable).isSome)
      || !accessPending t mask true
  | .count k n => countDone t k n
      || (countFault t k).isSome
      || (k == 3 && (deliverable t .engines).isSome)
  | .remoteRoom n => remoteRoom s g.core n || holdsFar t
  | .remote id => !farPending t id
  | .answer id => (reqOf s id).all Req.settled
  | .migration => true
  | .record => !recordPending t
  | .lines part asid off n => linesQuiet s part asid off n
  | .hostLine port line => !s.cxlAsked.contains (port, line)
  | .plb _ arrived => arrived

/-- The unit of a gang waits for its die's operating point (R289). -/
def awaitsPoint (s : State) (g : Gang) : Bool :=
  (launchOf s g.launch).units.any fun u => u.idx == g.unit && u.awaitsOp

/-- The line of the pc can be fetched: the core's instruction cache holds it, or it is not in P (R126, R128). -/
def fetchQuiet (s : State) (g : Gang) (q : Split) : Bool :=
  (icLine s g.core (lineRef g.part g.asid (offsetOf q.pc))).isSome || linesQuiet s g.part g.asid (offsetOf q.pc) 4

/-- A fetch that the instruction cache does not serve asks a host first for a line that it may have modified (R149). -/
def fetchAsks (s : State) : Bool :=
  (icLine s s.g.core (lineRef s.g.part s.g.asid (offsetOf s.p.pc))).isNone && !isControl s.p.pc
    && hostsHold s s.g.part s.g.asid (offsetOf s.p.pc) 4

/-- A split may issue: it has its slices (R31) or goes on with a turn, its gang is resident, no other split of it runs a handler, and nothing keeps its instruction. -/
def mayIssue (s : State) (g : Gang) (q : Split) : Bool :=
  decide (q.members ≠ 0) && (decide (q.members &&& q.away = 0) || midTurn q) && g.resident && !(g.trapped && !q.status.getLsbD 0) && !awaitsPoint s g && waitReady s g q
    && fetchQuiet s g q

/-- Every running split. -/
def runners (s : State) : List (Gang × Split) :=
  (s.gangs.flatMap fun g => g.splits.map fun q => (g, q))
    ++ (s.g.splits.map fun q => (s.g, q)) ++ (if s.p.members = 0 then [] else [(s.g, s.p)])

/-- The slices of its core that a split takes. -/
def slicesAt (g : Gang) (q : Split) : List Nat := (slicesOf q.members).map fun j => g.slice + j

/-- The age of a split: cycles since it last issued or became ready, whichever is later. -/
def age (s : State) (q : Split) : Nat := s.cycle - q.since.getD s.cycle

/-- The split table entry of a running split: one of the sixteen of its lowest slice, by the order in which gangs came to that slice
(R36; log entry 16). -/
def splitEntry (s : State) (g : Gang) (q : Split) : Nat :=
  let j := g.slice + lowest q.members / 8
  16 * j + ((occupants s g.core).filter fun x => (slicesTaken x).contains j && decide (x.id < g.id)).length

/-- A core still issues an instruction of a split in this cycle: at most four, of disjoint sets of slices. -/
def slotFree (s : State) (g : Gang) (q : Split) : Bool :=
  let t := mapGet (0, []) s.taken g.core
  decide (t.1 < Config.issueWidth) && !(slicesAt g q).any fun j => t.2.contains j

/-- `a` is considered before `b`: the cap of 256 cycles first, then the older, then the lower entry (R292). No split of the model runs
ahead (log entry 13). -/
def goesFirst (s : State) (a b : Gang × Split) : Bool :=
  let x := age s a.2
  let y := age s b.2
  if decide (Config.ageCap ≤ x) != decide (Config.ageCap ≤ y) then decide (Config.ageCap ≤ x)
  else if x ≠ y then decide (y < x)
  else decide (splitEntry s a.1 a.2 < splitEntry s b.1 b.2)

/-- The splits that may issue; one that has yielded is not considered for its cycles unless no other split of its core is ready
(R208), others that have yielded not counted (log entry 98). -/
def readySplits (s : State) : List (Gang × Split) :=
  let rs := (runners s).filter fun e => mayIssue s e.1 e.2
  let awake (e : Gang × Split) : Bool := decide (e.2.yielded ≤ s.cycle)
  rs.filter fun e => awake e || !(rs.any fun x => x.1.core == e.1.core && awake x)

/-- The split at issue takes its slices of this cycle; its age counts from here. -/
def takeSlices (s : State) : State :=
  let t := mapGet (0, []) s.taken s.g.core
  { s with
    taken := mapSet (0, []) s.taken s.g.core (t.1 + 1, slicesAt s.g s.p ++ t.2)
    p := { s.p with since := some s.cycle } }

/-! ### The passing of a cycle (R292, R298, R299) -/

/-- A split of a gang as a cycle begins: one that is ready counts its age on. -/
def agedIn (s : State) (g : Gang) (q : Split) : Split :=
  { q with since := if mayIssue s g q then some (q.since.getD (s.cycle + 1)) else none }

/-- Cycles in a microsecond at an operating point (R288; log entry 87). -/
def cyclesAt (point : Nat) : Nat := getAt 1000 [1900, 1600, 1300, 1000] point

/-- Cycles of a residency period of a launch, at the point of the die of its first resident unit (R298, R322). -/
def periodCycles (s : State) (l : Launch) : Nat :=
  let core := ((residentUnits l).head?.elim [] fun u => u.cores).headD 0
  l.resper * cyclesAt (getAt Die.reset s.dies (dieOf core)).point

/-- A launch of higher PRIO holds cores that the displaced units of a launch could occupy: its periods do not count (R299). -/
def periodStands (s : State) (l : Launch) : Bool :=
  (l.units.any fun u => u.displaced)
    && s.launches.any fun x => x.part == l.part && decide (l.prio < x.prio) && !(residentUnits x).isEmpty

/-- The residency period of a running launch as a cycle passes. -/
def passPeriod (s : State) (l : Launch) : Launch :=
  if l.phase ≠ .running ∨ periodStands s l then l
  else if periodCycles s l ≤ l.period + 1 then { l with period := 0, periodDue := true, resper := (partOf s l.part).resper }
  else { l with period := l.period + 1, periodDue := false }

/-- No device has a step to take and no core issues: a cycle passes. -/
def passCycle (s : State) : State :=
  { s with
    cycle := s.cycle + 1
    ticks := s.ticks + 1
    taken := []
    p := if s.p.members = 0 then s.p else agedIn s s.g s.p
    g := { s.g with splits := s.g.splits.map (agedIn s s.g) }
    gangs := s.gangs.map fun g => { g with splits := g.splits.map (agedIn s g) }
    launches := s.launches.map (passPeriod s) }

/-- Brings a split to issue. -/
def select (n l : Nat) (s : State) : State := if s.g.id = n ∧ lowest s.p.members = l then s else load n l (unload s)

/-! ### Issuing an instruction (R341) -/

/-- The split at issue takes a deferred fault at a turn that waits, at a barrier that did not complete, where its region has just
opened; it raises the overflow cause of such a barrier (R52, R341); else it fetches, decodes and executes its next
instruction. -/
def issueCurrent (s : State) : Host.Outcome State Fault Refusal :=
  match turnFault s with
  | some f => .next (deliver f s)
  | none =>
  match overflowDue s.p.wait with
  | some k => .next (preciseTrap (failOf 0xB0) (barrierWord k) (openClosed s))
  | none =>
  if holdsFar s then .next (openRegion s) else
  match stallFault s with
  | some f => .next (deliver f s)
  | none =>
  match (if s.p.fresh then deliverable s .opening else none) with
  | some f => .next (deliver f s)
  | none =>
    if fetchAsks s then .next (askHosts s.g.part s.g.asid (offsetOf s.p.pc) 4 s) else
    match fetchAt s s.p.pc with
    | .fault c => .next (preciseTrap (failOf c) 0 s)
    | .word w => exec (decode w) (fillICache s)

/-- Issues an instruction of a split that may issue; a split that may not is passed over. -/
def issueSplit (n l : Nat) (s : State) : Host.Outcome State Fault Refusal :=
  let s := select n l s
  if decide (s.g.id = n) && mayIssue s s.g s.p then issueCurrent (takeSlices s) else .next s

/-- The instruction that a split would issue now makes its gang trap. -/
def trapsNow (s : State) (e : Gang × Split) : Bool :=
  match issueSplit e.1.id (lowest e.2.members) s with
  | .next t => !e.1.trapped && (gangOf t e.1.id).any fun g => g.trapped
  | _ => false

/-- Splits of the gang of `e` with a lower key that issue in the same cycle, on other slices. -/
def issuingBeside (s : State) (e : Gang × Split) (rs : List (Gang × Split)) : List (Gang × Split) :=
  if decide ((mapGet (0, []) s.taken e.1.core).1 + 1 < Config.issueWidth) then
    rs.filter fun x => x.1.id == e.1.id
      && keyLt (keyOf (launchOf s x.1.launch) x.1 x.2) (keyOf (launchOf s e.1.launch) e.1 e.2)
      && !(slicesAt x.1 x.2).any fun j => (slicesAt e.1 e.2).contains j
  else []

/-- Of splits of one gang that would trap in the same cycle, the one with the least key (R341). -/
def trapsFirst (s : State) (e : Gang × Split) (rs : List (Gang × Split)) : Gang × Split :=
  match issuingBeside s e rs with
  | [] => e
  | xs =>
    if trapsNow s e then
      (leastBy (fun a b => keyLt (keyOf (launchOf s a.1.launch) a.1 a.2) (keyOf (launchOf s b.1.launch) b.1 b.2))
        (xs.filter (trapsNow s))).getD e
    else e

/-- The next split that issues in this cycle (R292, R341). -/
def nextSplit (s : State) : Option (Nat × Nat) :=
  let rs := (readySplits s).filter fun e => slotFree s e.1 e.2
  (leastBy (goesFirst s) rs).map fun e =>
    let x := trapsFirst s e rs
    (x.1.id, lowest x.2.members)

/-- Makes a move. -/
def makeMove (m : Move) (s : State) : Host.Outcome State Fault Refusal :=
  match m with
  | .agent i a => exec i { s with arg := a }
  | .select n l => issueSplit n l s

/-- The move that comes next: that of the agenda, else one of the device, else an instruction. -/
def nextMove (s : State) : Option (Move × List Move) :=
  match s.agenda with
  | m :: r => some (m, r)
  | [] =>
    match deviceMove s with
    | some m => some (m, [])
    | none => (nextSplit s).map fun e => (.select e.1 e.2, [])

end Sys2Proof.Machine
end

