-- ==== Sys2Proof/Machine/Step.lean ====
section
/-! DEFINITION. One step of the machine, and the placing of an instruction where the next step fetches. -/

namespace Sys2Proof.Machine

/-- One step: the next move; where nothing can act any more in this cycle, the next cycle begins (R292). -/
def step (s : State) : Host.Outcome State Fault Refusal :=
  match nextMove s with
  | none => .next (passCycle s)
  | some (m, r) => makeMove m { s with ticks := s.ticks + 1, agenda := r }

/-- The state in which the next step fetches and runs the instruction with bits `w` (log entry 7). An instruction is one
32-bit word (R172). -/
def State.withFetchWord (s : State) (_nbits w : Nat) : State := placeWord (BitVec.ofNat 32 w) s

end Sys2Proof.Machine
end

