-- ==== Sys2Proof/Safety.lean ====
section
/-! DEFINITION. What claims say of the machine: safe runs, when a split is ready to complete an instruction, and what a
completed instruction leaves (spec/02_work_hierarchy.md R39 to R41; spec/03_logical_time.md R50, R52;
spec/05_memory_hierarchy.md R103; spec/09_isa_scalar_control.md R195, R205). -/

namespace Sys2Proof

/-- A run of n steps reaches a state: no step stops. -/
def Runs (n : Nat) (s t : Machine.State) : Prop := core.run n s = .next t

/-- A state from which no run of n steps stops. -/
def SafeFor (n : Nat) (s : Machine.State) : Prop := ∃ t, Runs n s t

namespace Machine

/-! ### The device besides what retiring an instruction changes -/

/-- A split without its pc, its loops, its clock, its wait and the bookkeeping of its region. -/
def Split.besides (q : Split) : Split :=
  { q with
    pc := 0, lr0 := none, lr1 := none, lc0 := 0, lc1 := 0, clock := 0, wait := .none
    entry := none, fresh := false, serial := 0, liveIn := [], written := [], buffer := [] }

/-- A partition without its event counters. -/
def Partition.besides (q : Partition) : Partition := { q with evc := [] }

/-- The device without what retiring any instruction changes: the pc, the loops, the clock, the wait, the bookkeeping of the
region and the event counters. Every register, every byte and every other part of the device is in it. -/
def State.besides (s : State) : State :=
  { s with p := s.p.besides, g := { s.g with serial := 0 }, parts := s.parts.map Partition.besides }

/-- Two states that agree besides that and hold the same stores in the open region, or would agree once the open region of the second
commits: a region may end at the instruction (R39, R40), and its stores have left with it, so that none is held (R41). -/
def Agrees (t u : State) : Prop :=
  (t.besides = u.besides ∧ t.p.buffer = u.p.buffer) ∨ (t.besides = (commitRegion u).besides ∧ t.p.buffer = [])

/-! ### Ready -/

/-- The Cuff buffer takes the stores of the open region on chip: its commit spills nothing to the store log (R64, R67). In a
free launch no store enters it. -/
def NoSpill (s : State) : Prop := (onChip (releaseRegion s).g.cuff).length ≤ Config.cuffEntries

/-- The back edges of the instruction at the pc (R205). -/
def edges (s : State) : BackEdges := backEdges s.p (s.p.pc + 4)

/-- The weight of an instruction that falls through, with those of the back edges it evaluates (R52). -/
def fullWeight (w : Nat) (s : State) : Nat := w + (edges s).count

/-- No slice of the split rotates: no path is parked on one, or the split runs a handler (R33, R335); that no slice rotates in a handler is
the model's reading (log entry 20). -/
def NoRotation (s : State) : Prop := rotatable s = [] ∨ isPriv s = true

/-- The split can complete an instruction of a weight that reads and writes the given registers: each is full (R103), the
clock does not overflow (R52), a region that ends there spills nothing, no held fault is delivered where the instruction opens a
region (R340), and the slices do not rotate at a back edge. -/
structure Ready (w : Nat) (rd wr : List Nat) (s : State) : Prop where
  sources : ∀ c ∈ rd, regState s c = .full
  dests : ∀ c ∈ wr, regState s c = .full
  clock : overflows (fullWeight w s) s = false
  room : NoSpill s
  quiet : deliverable s .opening = none
  whole : (edges s).repeats = true → NoRotation s

/-- The split can complete an irrevocable instruction of a weight (R42): besides, no held fault is delivered at it (R340). -/
structure ReadyAlone (w : Nat) (rd wr : List Nat) (s : State) : Prop extends Ready w rd wr s where
  undisturbed : deliverable s .irrevocable = none

/-- The split can complete a turn operation of a free launch (R60): no held fault is delivered and no path is parked, so that
its slices do not rotate (R33). -/
structure ReadyTurn (w : Nat) (rd wr : List Nat) (s : State) : Prop extends Ready w rd wr s where
  free : detNow s = false
  undisturbed : deliverable s .turn = none
  alone : NoRotation s

/-! ### Done -/

/-- The clock after an instruction of weight n; a handler's instructions add nothing (R50, R337). -/
def clockAfter (n : Nat) (s : State) : Word := if isPriv s then s.p.clock else s.p.clock + BitVec.ofNat 64 n

/-- An instruction of weight w has retired that falls through: the pc, the loops, the clock and the wait are as Done says. -/
structure Retired (w : Nat) (s t : State) : Prop where
  pc : t.p.pc = (edges s).split.pc
  loops : t.p.lc0 = (edges s).split.lc0 ∧ t.p.lc1 = (edges s).split.lc1 ∧ t.p.lr0 = (edges s).split.lr0
    ∧ t.p.lr1 = (edges s).split.lr1
  clock : t.p.clock = clockAfter (w + (edges s).count) s
  wait : t.p.wait = .none

/-- Every register of the split holds what it held, and every byte of memory. -/
structure Unwritten (s t : State) : Prop where
  scalars : t.p.sregs = s.p.sregs
  windows : t.p.wins = s.p.wins
  special : t.p.mode = s.p.mode ∧ t.p.exec = s.p.exec ∧ t.p.fstat = s.p.fstat ∧ t.p.status = s.p.status ∧ t.p.epc = s.p.epc
    ∧ t.p.cause = s.p.cause ∧ t.p.frec = s.p.frec
  stack : t.p.rstack = s.p.rstack
  members : t.p.members = s.p.members
  vectors : t.g.vregs = s.g.vregs
  predicates : t.g.preds = s.g.preds
  memory : ∀ a, memByte t.mem a = memByte s.mem a

/-- t is u after an instruction of weight w has retired that falls through: the pc and the loops as the back edges give them
(R195, R205), the clock higher by the weight and one per back edge (R50), the split ready for its next instruction, and
everything else, every byte of memory among it, as in u. -/
structure Done (w : Nat) (u t : State) : Prop where
  pc : t.p.pc = (edges u).split.pc
  loops : t.p.lc0 = (edges u).split.lc0 ∧ t.p.lc1 = (edges u).split.lc1 ∧ t.p.lr0 = (edges u).split.lr0
    ∧ t.p.lr1 = (edges u).split.lr1
  clock : t.p.clock = clockAfter (w + (edges u).count) u
  wait : t.p.wait = .none
  rest : Agrees t u
  memory : ∀ a, memByte t.mem a = memByte u.mem a

/-- t is u after a transfer to a target other than the next instruction: no back edge is evaluated, and the loop records
that `keep` does not hold of are idle (R195, R206). -/
structure Jumped (w : Nat) (target : Word) (keep : LoopRec → Bool) (u t : State) : Prop where
  pc : t.p.pc = target
  loops : t.p.lc0 = u.p.lc0 ∧ t.p.lc1 = u.p.lc1 ∧ t.p.lr0 = u.p.lr0.filter keep ∧ t.p.lr1 = u.p.lr1.filter keep
  clock : t.p.clock = clockAfter w u
  wait : t.p.wait = .none
  rest : Agrees t u
  memory : ∀ a, memByte t.mem a = memByte u.mem a

/-- A record of a split at a depth stays active at a transfer to a target: it is of another depth, or its body holds the
target (R206). -/
def staysIn (depth : Nat) (target : Word) (r : LoopRec) : Bool :=
  decide (r.depth ≠ depth) || (decide (r.start.toNat ≤ target.toNat) && decide (target.toNat < r.stop.toNat))

/-- t is u after a jump to a target, which the instruction falls through to where it is the next one (R195). -/
def Goes (w : Nat) (target : Word) (u t : State) : Prop :=
  if target = u.p.pc + 4 then Done w u t else Jumped w target (staysIn u.p.rstack.length target) u t

/-- A jump backward rotates no slice (R195, R33). -/
def Unrotated (target : Word) (s : State) : Prop := target.toNat ≤ s.p.pc.toNat → NoRotation s

end Machine

end Sys2Proof
end

