-- ==== Sys2Proof/Rules.lean ====
section
/-! DEFINITION. The rules as tables: what the spec gives as the result of each instruction of a shape, written from its
rules and apart from the meanings of Sys2Proof/Machine, for the statements about them
(spec/09_isa_scalar_control.md to spec/12_isa_engines_system.md). -/

namespace Sys2Proof.Rules

open Sys2Proof.Machine

/-! ### Scalar ALU (R190 to R194) -/

/-- R190, R191: the two-source rows, with d as a function of the values x of a and y of b. -/
def scalarTwo : List ((Op3R → Instr) × (Word → Word → Word)) :=
  [(.add, fun x y => x + y), (.sub, fun x y => x - y), (.mul, fun x y => x * y),
   (.mulh, fun x y => BitVec.ofInt 64 (x.toInt * y.toInt / 2 ^ 64)),
   (.mulhn, fun x y => BitVec.ofNat 64 (x.toNat * y.toNat / 2 ^ 64)),
   (.div, fun x y => if y = 0 then -1 else BitVec.ofInt 64 (Int.tdiv x.toInt y.toInt)),
   (.divn, fun x y => if y = 0 then -1 else x / y),
   (.rem, fun x y => if y = 0 then x else BitVec.ofInt 64 (x.toInt - y.toInt * Int.tdiv x.toInt y.toInt)),
   (.remn, fun x y => if y = 0 then x else x - y * (x / y)),
   (.andS, fun x y => x &&& y), (.orS, fun x y => x ||| y), (.xorS, fun x y => x ^^^ y),
   (.shl, fun x y => BitVec.ofNat 64 (x.toNat * 2 ^ (y.toNat % 64))),
   (.shr, fun x y => BitVec.ofNat 64 (x.toNat / 2 ^ (y.toNat % 64))),
   (.sra, fun x y => BitVec.ofInt 64 (x.toInt / 2 ^ (y.toNat % 64))),
   (.minS, fun x y => BitVec.ofInt 64 (min x.toInt y.toInt)), (.maxS, fun x y => BitVec.ofInt 64 (max x.toInt y.toInt)),
   (.minn, fun x y => BitVec.ofNat 64 (min x.toNat y.toNat)), (.maxn, fun x y => BitVec.ofNat 64 (max x.toNat y.toNat)),
   (.slt, fun x y => if x.toInt < y.toInt then 1 else 0), (.sltn, fun x y => if x.toNat < y.toNat then 1 else 0),
   (.seq, fun x y => if x = y then 1 else 0),
   (.lea, fun x y => x.extractLsb' 53 11 ++ (x.setWidth 53 + y.setWidth 53))]

/-- R192: the one-source rows: zero bits above the highest one bit, zero bits below the lowest, one bits. -/
def scalarOne : List ((Op3A → Instr) × (Word → Nat)) :=
  [(.clz, fun x => ((List.range 64).takeWhile fun i => !x.toNat.testBit (64 - 1 - i)).length),
   (.ctz, fun x => ((List.range 64).takeWhile fun i => !x.toNat.testBit i).length),
   (.pop, fun x => ((List.range 64).filter fun i => x.toNat.testBit i).length)]

/-- R193: the rows with an immediate of 8 bits, the first sign-extended, the others zero-extended. -/
def scalarImmediate : List ((Op2I → Instr) × (Word → BitVec 8 → Word)) :=
  [(.addi, fun x i => x + i.signExtend 64), (.andi, fun x i => x &&& i.setWidth 64),
   (.ori, fun x i => x ||| i.setWidth 64), (.xori, fun x i => x ^^^ i.setWidth 64)]

/-- R193: the rows with a shift amount of 6 bits. -/
def scalarShift : List ((Op2S → Instr) × (Word → Nat → Word)) :=
  [(.shli, fun x n => BitVec.ofNat 64 (x.toNat * 2 ^ n)), (.shri, fun x n => BitVec.ofNat 64 (x.toNat / 2 ^ n)),
   (.srai, fun x n => BitVec.ofInt 64 (x.toInt / 2 ^ n))]

/-! ### Control transfer (R195 to R206) -/

/-- A label: the pc plus 4 × a signed count of words. -/
def label {n : Nat} (s : State) (off : BitVec n) : Word := s.p.pc + 4 * off.signExtend 64

/-- R199: the branches on a scalar register, taken where its value satisfies the condition. -/
def scalarBranch : List ((OpBC → Instr) × (Word → Prop)) := [(.bz, fun x => x = 0), (.bnz, fun x => x ≠ 0)]

/-- R200: the branches on a predicate register, taken where its bits in the active lanes satisfy the condition. -/
def predicateBranch : List ((OpBC → Instr) × (State → Nat → Prop)) :=
  [(.bany, fun s n => ∃ i ∈ activeLanes s, getP s n i = true), (.ball, fun s n => ∀ i ∈ activeLanes s, getP s n i = true)]

/-- The split with its return stack popped: records above the new depth are idle (R197, R206). -/
def returned (rest : List Word) (s : State) : State :=
  let stays (l : LoopRec) : Bool := decide (l.depth ≤ rest.length)
  { s with p := { s.p with rstack := rest, lr0 := s.p.lr0.filter stays, lr1 := s.p.lr1.filter stays } }

/-- R32, R375: a return finds its entry: it is on chip, or its spilled bytes have landed. -/
def Refilled (s : State) : Prop := s.p.rstack.length ≤ 8 ∨ refillHeld s = false

/-- The counter of a loop. -/
def loopCounter (one : Bool) (v : BitVec 32) (s : State) : State :=
  { s with p := if one then { s.p with lc1 := v } else { s.p with lc0 := v } }

/-- R204: the record of a loop and its counter, the later of the two. -/
def loopBegun (one : Bool) (r : LoopRec) (c : BitVec 32) (s : State) : State :=
  { s with
    p := if one then { s.p with lc1 := c, lr1 := some r, lrLater := true }
      else { s.p with lc0 := c, lr0 := some r, lrLater := false } }

/-- R203, R204: the three forms of `loop` on each counter. -/
def loopForms : List (Bool × (OpBC → Instr) × (OpS6 → Instr) × (OpS6 → Instr)) :=
  [(false, .loopLc0, .loopSetLc0, .loopGetLc0), (true, .loopLc1, .loopSetLc1, .loopGetLc1)]

/-- R204: a loop to an end may start on a counter: its record is idle, and an active record of the other is of the same depth and
ends no earlier. -/
def mayStart (one : Bool) (stop : Word) (s : State) : Prop :=
  (if one then s.p.lr1 else s.p.lr0) = none ∧
    ∀ m, (if one then s.p.lr0 else s.p.lr1) = some m → stop.toNat ≤ m.stop.toNat ∧ m.depth = s.p.rstack.length

/-! ### MODE (R183, R210) -/

/-- A word with the field of `len` bits from `lo` given a value. -/
def putField (m : Word) (lo len v : Nat) : Word :=
  (m &&& ~~~ (BitVec.ofNat 64 (2 ^ len - 1) <<< lo)) ||| (BitVec.ofNat 64 (v % 2 ^ len) <<< lo)

/-- MODE given a value: bits [63:49] read 0 (R183). -/
def withMode (m : Word) (s : State) : State := { s with p := { s.p with mode := m &&& 0x1FFFFFFFFFFFF#64 } }

/-- R210: the mode instructions that write one field of MODE: its lowest bit, its length, its value. -/
def modeFields (t : OpT4) (g : OpG6) (r : OpRM) (v : OpCV) : List (Instr × Nat × Nat × Nat) :=
  [(.modeT t, 0, 4, t.t.toNat), (.modeG g, 4, 6, g.g.toNat), (.modeRm r, 10, 3, r.r.toNat + (if r.z then 4 else 0))]
    ++ (if v.k.toNat < 12 then [(.modeCv v, 13 + 3 * v.k.toNat, 3, v.c.toNat)]
        else if v.k.toNat = 15 then [(.modeCv v, 13, 36, v.c.toNat * 0o111111111111)] else [])

/-! ### Special registers (R182) -/

/-- R182: the unprivileged special registers with their values; CYCLE, HWCFG and the event counters have rules of their own. -/
def specialValues : List (Nat × (State → Word)) :=
  [(0x000, fun s => s.p.mode), (0x001, fun s => s.p.exec), (0x002, fun s => s.p.clock),
   (0x003, fun s => s.p.clock >>> (curLaunch s).qexp), (0x004, fun s => (BitVec.ofNat 8 s.g.width).setWidth 64),
   (0x005, fun s => BitVec.ofNat 64 ((List.range 64).filter fun i => s.p.exec.getLsbD i).length), (0x006, fun _ => 64),
   (0x007, fun s => (BitVec.ofNat 32 (s.g.wg * s.g.ngang + s.g.num)).setWidth 64),
   (0x008, fun s => (BitVec.ofNat 32 s.g.wg).setWidth 64), (0x009, fun s => (BitVec.ofNat 8 s.g.ngang).setWidth 64),
   (0x00A, fun s => (BitVec.ofNat 32 s.g.nwg).setWidth 64), (0x00B, fun s => detcfgWord (curLaunch s)),
   (0x00C, fun s => (BitVec.ofNat 10 (curPart s).node).setWidth 64), (0x00D, fun s => s.p.fstat),
   (0x010, fun s => 0#46 ++ BitVec.ofNat 2 (s.g.core / 128) ++ BitVec.ofNat 6 (s.g.core / 4) ++ BitVec.ofNat 8 s.g.core ++ 0#2)]
where
  /-- R56 -/
  detcfgWord (l : Launch) : Word :=
    0#11 ++ BitVec.ofNat 11 l.mcount ++ BitVec.ofNat 10 l.mrank ++ 0#11 ++ BitVec.ofBool l.obs ++ 0#2 ++ BitVec.ofNat 2 l.lag
      ++ 0#3 ++ BitVec.ofNat 5 l.qexp ++ 0#6 ++ BitVec.ofNat 2 l.dscope

/-- R322, R342, R343, R331: the special registers that only privileged code reads. -/
def privilegedValues : List (Nat × (State → Word)) :=
  [(0x020, fun s => 0#52 ++ s.p.status.extractLsb' 9 3 ++ BitVec.ofBool (!s.g.faults.isEmpty) ++ 0#7
      ++ s.p.status.extractLsb' 0 1),
   (0x021, fun s => s.p.cause), (0x022, fun s => s.p.epc), (0x023, fun s => s.p.frec),
   (0x181, fun s => BitVec.ofNat 64 (curPart s).resper), (0x182, fun s => BitVec.ofNat 64 (curPart s).stepb),
   (0x183, fun s => BitVec.ofNat 64 (curPart s).rtime), (0x184, fun s => BitVec.ofNat 64 (curPart s).starve),
   (0x190, fun s => mapGet 0 (curPart s).esel 0), (0x19F, fun s => mapGet 0 (curPart s).esel 15)]

/-- R281: the instructions that write, with the value they make of the register's x and the operand y. -/
def specialWriters : List ((OpSN → Instr) × (Word → Word → Word)) :=
  [(.csrw, fun _ y => y), (.csrs, fun x y => x ||| y), (.csrc, fun x y => x &&& ~~~y)]

/-- R322, R331: the partition control registers, with what a write of a value does to the partition. -/
def controlWrites : List (Nat × (Word → Partition → Partition)) :=
  [(0x181, fun v q => if 100 ≤ v.toNat ∧ v.toNat ≤ 100000 then { q with resper := v.toNat } else q),
   (0x182, fun v q => if v.toNat ≤ 65535 then { q with stepb := v.toNat } else q),
   (0x183, fun v q => if 1 ≤ v.toNat ∧ v.toNat ≤ 10000 then { q with rtime := v.toNat } else q),
   (0x184, fun v q => if 2 ≤ v.toNat ∧ v.toNat ≤ 15 then { q with starve := v.toNat } else q)]

/-- A partition changed. -/
def withPart (n : Nat) (f : Partition → Partition) (s : State) : State :=
  { s with parts := updateWhere (fun q => q.id == n) f s.parts }

/-! ### Vector instructions (R213 to R233) -/

/-- The registers, by lane, that fields of vectors of type t name over the active lanes. -/
def vecRead (t : Ty) (s : State) (fs : List (BitVec 7)) : List Nat :=
  fs.flatMap fun f => (srcV f.toNat t.regs false (activeLanes s)).map fun e => e.1

/-- The lanes of the destination of an instruction on vectors of type t. -/
def vecWritten (t : Ty) (s : State) (d : BitVec 7) : List Nat := dstV d.toNat t.regs (activeLanes s)

/-- Each active lane of register d given a value of type t (R152). -/
def putLanes (t : Ty) (d : BitVec 7) (f : Nat → Nat) (s : State) : State :=
  setVAll ((activeLanes s).flatMap fun i => putElem t d.toNat i (f i)) s

/-- The 32 bits of lane i that a field names. -/
def laneWord (s : State) (f : BitVec 7) (i : Nat) : BitVec 32 := BitVec.ofNat 32 (fieldBits s f.toNat false i)

/-- Each active lane given a 32-bit value. -/
def putWords (d : Nat) (f : Nat → Nat) (s : State) : State :=
  setVAll ((activeLanes s).map fun i => (d, i, BitVec.ofNat 32 (f i))) s

/-- Each active lane given a float result, and FSTAT the flags that some lane raised (R157). -/
def putFloats (t : Ty) (d : BitVec 7) (f : Nat → Res) (s : State) : State :=
  putResults t d.toNat ((activeLanes s).map fun i => (i, f i)) s

/-- The group of four predicates given the relations less, less or equal, equal, unordered in each active lane (R218). -/
def putRelations (d : BitVec 7) (f : Nat → Bool × Bool × Bool × Bool) (s : State) : State :=
  setPAll ((activeLanes s).flatMap fun i =>
    [(d.toNat, i, (f i).1), (d.toNat + 1, i, (f i).2.1), (d.toNat + 2, i, (f i).2.2.1), (d.toNat + 3, i, (f i).2.2.2)]) s

/-- A value clamped to an interval. -/
def clamp (lo hi x : Int) : Int := if x < lo then lo else if hi < x then hi else x

/-- R215: the integer instructions of two sources: whether the old d is read, and the exact result as a function of the type and
the w bits of a, b and the old d. -/
def vectorInteger : List ((Op3R → Instr) × Bool × (Ty → Nat → Nat → Nat → Int)) :=
  [(.vadd, false, fun t x y _ => t.intVal x + t.intVal y), (.vsub, false, fun t x y _ => t.intVal x - t.intVal y),
   (.vmul, false, fun t x y _ => t.intVal x * t.intVal y),
   (.vmulh, false, fun t x y _ => t.intVal x * t.intVal y / ((2 ^ t.width : Nat) : Int)),
   (.vmad, true, fun t x y z => t.intVal x * t.intVal y + t.intVal z),
   (.vmin, false, fun t x y _ => min (t.intVal x) (t.intVal y)), (.vmax, false, fun t x y _ => max (t.intVal x) (t.intVal y)),
   (.vshl, false, fun t x y _ => ((x * 2 ^ (y % t.width) : Nat) : Int)),
   (.vshr, false, fun t x y _ => ((x / 2 ^ (y % t.width) : Nat) : Int)),
   (.vsra, false, fun t x y _ => sextInt x t.width / ((2 ^ (y % t.width) : Nat) : Int)),
   (.vadds, false, fun t x y _ => clamp t.least t.greatest (t.intVal x + t.intVal y))]

/-- R215: the integer instructions of one source. -/
def vectorIntegerOne : List ((Op3A → Instr) × (Ty → Nat → Int)) :=
  [(.vabs, fun t x => |t.intVal x|), (.vneg, fun t x => -t.intVal x),
   (.vclz, fun t x => (((List.range t.width).takeWhile fun i => !x.testBit (t.width - 1 - i)).length : Int)),
   (.vpop, fun t x => (((List.range t.width).filter fun i => x.testBit i).length : Int))]

/-- R216: the bitwise and moving instructions of two sources, on the w bits of a, b and the old d. -/
def vectorBitwise : List ((Op3R → Instr) × Bool × (Nat → Nat → Nat → Nat)) :=
  [(.vand, false, fun x y _ => x &&& y), (.vor, false, fun x y _ => x ||| y), (.vxor, false, fun x y _ => x ^^^ y),
   (.vsel, true, fun x y z => if z = 0 then y else x)]

/-- R216: those of one source. -/
def vectorBitwiseOne : List ((Op3A → Instr) × (Ty → Nat → Nat)) :=
  [(.vnot, fun t x => 2 ^ t.width - 1 - x), (.vmov, fun _ x => x)]

/-- R217: the position and length that b gives. -/
def fieldAt (y : Nat) : Nat × Nat := (y % 32, min (y / 2 ^ 8 % 2 ^ 6) 32)

/-- R217: the instructions on 32-bit lanes: whether the old d is read; what b selects of a and the old d. -/
def vectorField : List ((Op3R → Instr) × Bool × (Ty → BitVec 32 → BitVec 32 → BitVec 32 → BitVec 32)) :=
  [(.vbcs, true, fun _ x y z => pick x y z 3 ++ pick x y z 2 ++ pick x y z 1 ++ pick x y z 0),
   (.vbfe, false, fun t x y _ =>
      let p := fieldAt y.toNat
      let f := x.toNat / 2 ^ p.1 % 2 ^ p.2
      if t.kind = .int ∧ 0 < p.2 then BitVec.ofInt 32 (sextInt f p.2) else BitVec.ofNat 32 f),
   (.vbfi, true, fun _ x y z =>
      let p := fieldAt y.toNat
      let mask := BitVec.ofNat 32 ((2 ^ p.2 - 1) * 2 ^ p.1)
      (z &&& ~~~mask) ||| (BitVec.ofNat 32 (x.toNat * 2 ^ p.1) &&& mask))]
where
  /-- byte j of vbcs -/
  pick (x y z : BitVec 32) (j : Nat) : BitVec 8 :=
    let n := z.toNat / 2 ^ (4 * j) % 16
    if n ≤ 3 then x.extractLsb' (8 * n) 8 else if n ≤ 7 then y.extractLsb' (8 * (n - 4)) 8 else 0

/-- R219: the float instructions of two sources: whether the old d is read; the result under the rounding and the flush of
MODE. -/
def vectorFloat : List ((Op3R → Instr) × Bool × (Ty → Rounding → Bool → Nat → Nat → Nat → Res)) :=
  [(.vfadd, false, fun t r z x y _ => addNum t r z (readFloat t z x) (readFloat t z y)),
   (.vfsub, false, fun t r z x y _ => addNum t r z (readFloat t z x) (negNum (readFloat t z y))),
   (.vfmul, false, fun t r z x y _ => mulNum t r z (readFloat t z x) (readFloat t z y)),
   (.vffma, true, fun t r z x y d => fmaNum t r z (readFloat t z x) (readFloat t z y) (readFloat t z d)),
   (.vfmin, false, fun t _ z x y _ => minmaxFloat t z false x y), (.vfmax, false, fun t _ z x y _ => minmaxFloat t z true x y)]

/-- R219, R221: the float instructions of one source, with their weights. -/
def vectorFloatOne : List ((Op3A → Instr) × Nat × (Ty → Rounding → Bool → Nat → Res)) :=
  [(.vfneg, 1, fun t _ z x => turned t (fun g => !g) x (readFloat t z x)),
   (.vfabs, 1, fun t _ z x => turned t (fun _ => false) x (readFloat t z x)),
   (.vfrcp, 2, fun t r z x => applyFunc .rcp t r z (readFloat t z x)),
   (.vfrsq, 2, fun t r z x => applyFunc .rsq t r z (readFloat t z x)),
   (.vfsqrt, 2, fun t r z x => applyFunc .sqrt t r z (readFloat t z x)),
   (.vfexp2, 2, fun t r z x => applyFunc .exp2 t r z (readFloat t z x)),
   (.vflog2, 2, fun t r z x => applyFunc .log2 t r z (readFloat t z x)),
   (.vfsin, 2, fun t r z x => applyFunc .sin t r z (readFloat t z x)),
   (.vfcos, 2, fun t r z x => applyFunc .cos t r z (readFloat t z x)),
   (.vftanh, 2, fun t r z x => applyFunc .tanh t r z (readFloat t z x))]
where
  /-- a float with its sign changed; a NaN quieted -/
  turned (t : Ty) (f : Bool → Bool) (x : Nat) : Machine.Num → Res
    | .nan g p q => { val := encodeNan t g p, flags := if q then flagNV else 0 }
    | .inf g => { val := signBit t (f g) + t.inf, flags := 0 }
    | .fin g m _ => { val := (if m = 0 then 0 else x % 2 ^ (t.width - 1)) + signBit t (f g), flags := 0 }

/-- R222: the class of a float: −∞, −normal, −subnormal, −0, +0, +subnormal, +normal, +∞, signalling NaN, quiet NaN. -/
def floatClass (t : Ty) (x : Nat) : Machine.Num → Nat
  | .inf g => if g then 0 else 7
  | .nan _ _ q => if q then 8 else 9
  | .fin g m _ => if m = 0 then (if g then 3 else 4) else if isSubnormal t x then (if g then 2 else 5) else (if g then 1 else 6)

/-- R223: the conversions with their destination classes. -/
def vectorConvert : List ((Op3A → Instr) × Machine.Class) :=
  [(.vcvtF64, .float Ty.f64), (.vcvtF32, .float Ty.f32), (.vcvtF16, .float Ty.f16), (.vcvtBf16, .float Ty.bf16),
   (.vcvtE4m3, .narrow Narrow.e4m3), (.vcvtE5m2, .narrow Narrow.e5m2), (.vcvtE3m2, .narrow Narrow.e3m2),
   (.vcvtE2m3, .narrow Narrow.e2m3), (.vcvtE2m1, .narrow Narrow.e2m1), (.vcvtI32, .int (Ty.i 32)), (.vcvtN32, .int (Ty.n 32)),
   (.vcvtI16, .int (Ty.i 16)), (.vcvtN16, .int (Ty.n 16)), (.vcvtI8, .int (Ty.i 8)), (.vcvtN8, .int (Ty.n 8)),
   (.vcvtI4, .int (Ty.i 4)), (.vcvtN4, .int (Ty.n 4))]

/-- R224: the packing codes: class, element bits, elements per lane. -/
def packings : List (Nat × Machine.Class × Nat × Nat) :=
  [(1, .float Ty.f16, 16, 2), (2, .float Ty.bf16, 16, 2), (3, .narrow Narrow.e4m3, 8, 4), (4, .narrow Narrow.e5m2, 8, 4),
   (5, .narrow Narrow.e3m2, 6, 4), (6, .narrow Narrow.e2m3, 6, 4), (7, .narrow Narrow.e2m1, 4, 8), (8, .int (Ty.i 16), 16, 2),
   (9, .int (Ty.i 8), 8, 4), (10, .int (Ty.i 4), 4, 8), (24, .int (Ty.n 16), 16, 2), (25, .int (Ty.n 8), 8, 4),
   (26, .int (Ty.n 4), 4, 8)]

/-- R227: the segment that b selects. -/
def segment (w y : Nat) : Nat :=
  min w ([w, 2, 4, 8, 16, 32, 64, w].getD (y / 2 ^ 8 % 8) w)

/-- R227: the shuffles with the lane that lane i reads, given its segment's base and width and m. -/
def vectorShuffle : List ((Op3R → Instr) × (Nat → Nat → Nat → Nat → Nat)) :=
  [(.vshf, fun _ base w m => base + m % w), (.vshfx, fun i base w m => base + ((i - base) ^^^ (m % w))),
   (.vshfu, fun i base _ m => if base + m ≤ i then i - m else i), (.vshfd, fun i base w m => if i + m < base + w then i + m else i)]

/-- R230: the tree over 2^n positions: the lower half takes the node of itself and the upper half, until one is left. -/
def halve {α : Type} (op : α → α → α) : Nat → (Nat → α) → Nat → α
  | 0, v, i => v i
  | n + 1, v, i => halve op n (fun j => op (v j) (v (j + 2 ^ n))) i

/-- R231: the steps of a scan at distances s, 2s, …, n of them. -/
def spread {α : Type} (op : α → α → α) : Nat → Nat → (Nat → α) → Nat → α
  | 0, _, v, i => v i
  | n + 1, s, v, i => spread op n (2 * s) (fun j => if s ≤ j then op (v (j - s)) (v j) else v j) i

/-- A node of a tree with the flags of everything below it. -/
def nodeOf (f : Nat → Nat → Res) (x y : Res) : Res :=
  { val := (f x.val y.val).val, flags := (f x.val y.val).flags ||| x.flags ||| y.flags }

/-- The position of a tree: the lane's element where it is active, else the identity. -/
def position (s : State) (t : Ty) (a op i : Nat) : Res :=
  { val := if (activeLanes s).contains i then elemOf s t a i else reduceIdentity t op, flags := 0 }

/-! ### Memory accesses (R122, R235 to R241) -/

/-- R235: the address that window w gives at offset o. -/
def address (s : State) (w : BitVec 3) (o : Nat) : Word :=
  (getW s w.toNat).base.extractLsb' 53 11 ++ ((getW s w.toNat).base.setWidth 53 + BitVec.ofNat 53 o)

/-- R235, R236, R122, R319: accesses of n bytes through an open window at some offsets pass their checks: each lies below the end
of the address space, is aligned, is not in an aperture that the port does not carry, and is permitted by the window within its
limit and by the PLB beyond it. -/
structure Reaches (n : Nat) (need : Need) (s : State) (w : BitVec 3) (os : List Nat) : Prop where
  valid : (getW s w.toNat).valid = true
  usable : (getW s w.toNat).stale = false
  node : (getW s w.toNat).base.getLsbD 63 = false
  inside : ∀ o ∈ os, (getW s w.toNat).base.toNat % 2 ^ 53 + o + n ≤ 2 ^ 53
  carried : ∀ o ∈ os, regionOf (offsetOf (address s w o)) = 3 → ∃ p, s.ports[(curPart s).port]? = some p ∧ p.flit = true
  aligned : ∀ o ∈ os, (address s w o).toNat % n = 0
  permitted : ∀ o ∈ os,
    if o + n ≤ (getW s w.toNat).limit.toNat then allows (getW s w.toNat).perm need = true
    else ∃ e, plbEntry s s.g.core s.g.part s.g.asid ((getW s w.toNat).base + BitVec.ofNat 64 o) = some e ∧ allows e.perm need = true

/-- The offsets that a vector field gives the active lanes (R235). -/
def laneOffsets (s : State) (a : BitVec 7) : List Nat := (activeLanes s).map fun i => fieldBits s a.toNat false i

/-- A load of a lane is on its way: a new request for its address, whose result its destination awaits; a load of a
deterministic launch from device memory carries the view of the split (R63). -/
def LoadSent (n : Nat) (sx : Bool) (s t : State) (lane : Nat) (va : Word) (dest : Dest) : Prop :=
  ∃ q ∈ t.reqs, s.nextId ≤ q.id ∧ q.lane = lane ∧ q.va = va ∧ q.size = n ∧ q.op = .load ∧ q.dest = dest ∧ q.sx = sx ∧
    q.gang = s.g.id ∧ q.lanes = s.p.members ∧ q.pc = s.p.pc ∧
    q.view = (if detNow s && decide (regionOf (offsetOf va) ≠ 3) then some (curView s) else none) ∧
    ∀ c ∈ destCodes dest, regState t c = .empty q.id

/-- A write, an atomic or a reduction of a lane is on its way. -/
def Sent (s t : State) (lane : Nat) (va : Word) (op : AccessOp) : Prop :=
  ∃ q ∈ t.reqs, s.nextId ≤ q.id ∧ q.lane = lane ∧ q.va = va ∧ q.op = op ∧ q.gang = s.g.id ∧ q.lanes = s.p.members ∧
    q.phase = .sent

/-- The n bytes of the registers from d in a lane, lowest first (R238). -/
def laneBytes (s : State) (d : BitVec 7) (n i : Nat) : List Byte :=
  (List.range n).map fun k => (getV s (d.toNat + k / 4) i).extractLsb' (8 * (k % 4)) 8

/-- A store as the open region holds it (R41). -/
def held (s : State) (i : Instr) (lane : Nat) (va : Word) (size : Nat) (op : AccessOp) : BufStore where
  va := va
  size := size
  op := op
  lane := lane
  pc := s.p.pc
  word := (encode i).getD 0
  clock := s.p.clock
  tile := none
  cls := 0
  serial := s.p.serial
  order := s.g.cuffSeq

/-- Stores numbered in the order in which the splits of the gang make them (R64). -/
def numbered (s : State) (bs : List BufStore) : List BufStore := bs.mapIdx fun k b => { b with order := s.g.cuffSeq + k }

/-- R41: stores join those of the open region; where they would come to more than 32 lines, a region opens first, whose serial they bear. -/
def holding (bs : List BufStore) (s : State) : State :=
  let next : State := { s with g := { s.g with cuffSeq := s.g.cuffSeq + bs.length } }
  let base := if (bufferLines (s.p.buffer ++ numbered s bs)).length ≤ 32 ∨ s.p.buffer = [] then next else openRegion next
  { base with p := { base.p with
    buffer := base.p.buffer ++ (numbered s bs).map fun b => { b with serial := base.p.serial } } }

/-! ### Atomics and synchronisation (R244 to R250) -/

/-- An access of a lane that returns a value is on its way: its destination is empty until the value arrives. -/
def Asked (n : Nat) (cls : BitVec 2) (acquire : Bool) (s t : State) (lane : Nat) (va : Word) (op : AccessOp) (dest : Dest) :
    Prop :=
  ∃ q ∈ t.reqs, s.nextId ≤ q.id ∧ q.lane = lane ∧ q.va = va ∧ q.size = n ∧ q.op = op ∧ q.dest = dest ∧ q.cls = cls ∧
    q.acquire = acquire ∧ q.gang = s.g.id ∧ q.lanes = s.p.members ∧ q.pc = s.p.pc ∧ ∀ c ∈ destCodes dest, regState t c = .empty q.id

/-- R245: the types of the codes 0 to 6 and of compare-and-swap: 32-bit and 64-bit integers and the floats; the
logical codes take no float. -/
def atomicAllows (n : Nat) (t : Ty) : Prop :=
  t ∈ [Ty.i 32, Ty.n 32, Ty.i 64, Ty.n 64] ∨ (t ∈ [Ty.f32, Ty.f64, Ty.f16, Ty.bf16] ∧ n ∉ [3, 4, 5])

/-- R247: the word P of an element and an index. -/
def packedMax (t : Ty) (e x : Nat) : Nat :=
  (if t.isFloat then ordKey t e else if t = Ty.i 16 then (e + 0x8000) % 2 ^ 16 else e) * 2 ^ 48 + (0xFFFFFFFF - x) * 2 ^ 16 +
    (if t.isFloat then quiet t e else e)

/-- R246: what a lane's compare-and-swap does at its home: comparand d, new value d + r. -/
def swapOf (s : State) (d : BitVec 7) (n r i : Nat) (wide : Bool) : AccessOp :=
  .rmw (if wide then 10 else 8) (modeT s) (modeRm s) (modeFz s) (laneBytes s (d + BitVec.ofNat 7 r) n i) (laneBytes s d n i)

/-- A tile of the workgroup of the split lets it access n bytes at an address (R241, R108): PRIVATE to the gang, with no command
of the gang that comes first (R110; log entry 88), or for a load READY, which in a deterministic launch waits for the floor. -/
def InTile (store : Bool) (n : Nat) (s : State) (x : Nat) : Prop :=
  x / 2 ^ 22 = 0 ∧ x % 2 ^ 16 % n = 0 ∧ ∃ t, tileOf s (x / 2 ^ 16) = some t ∧ x / 2 ^ 16 < (curLaunch s).tiles.length ∧
    x % 2 ^ 16 + n ≤ t.size ∧
    ((t.state = .priv s.g.num ∧ commandFirst s (x / 2 ^ 16) = false) ∨
      (store = false ∧ t.state = .ready ∧ detNow s = false ∧ blockedAt s (x / 2 ^ 16) = false))

/-! ### Peers (R254 to R256) -/

/-- The address of a lane's remote access: 0 ‖ node ‖ offset (R143). -/
def farVA (s : State) (peer : BitVec 5) (a : BitVec 7) (i : Nat) : Word :=
  BitVec.ofNat 64 ((getV s peer.toNat i).toNat % 1024 * 2 ^ 53 + fieldBits s a.toNat true i % 2 ^ 53)

/-- The registers that a remote access reads: the peers and the 64-bit addresses. -/
def farRead (s : State) (peer : BitVec 5) (a : BitVec 7) : List Nat :=
  dstV peer.toNat 1 (activeLanes s) ++ (srcV a.toNat 2 false (activeLanes s)).map fun e => e.1

/-- The lanes of a remote access pass the checks of R143: each address is aligned, none of the own node lies in an aperture that the
port does not carry (R319), class local stays on the node, every other node is reachable, and the core has room for a request to
each (R142); no acquire, no access of a parent, and for one that writes no release of a command, is still to perform before it (R86, R87,
R95). -/
structure FarReady (s : State) (writes : Bool) (cls : BitVec 2) (n : Nat) (peer : BitVec 5) (a : BitVec 7) : Prop where
  aligned : ∀ i ∈ activeLanes s, (farVA s peer a i).toNat % n = 0
  carried : ∀ i ∈ activeLanes s, (getV s peer.toNat i).toNat % 1024 = (curPart s).node →
    regionOf (offsetOf (farVA s peer a i)) = 3 → ∃ p, s.ports[(curPart s).port]? = some p ∧ p.flit = true
  near : cls = 0 → ∀ i ∈ activeLanes s, (getV s peer.toNat i).toNat % 1024 = (curPart s).node
  reachable : ∀ i ∈ activeLanes s, (getV s peer.toNat i).toNat % 1024 ≠ (curPart s).node →
    unreachable s ((getV s peer.toNat i).toNat % 1024) = false
  room : outstanding s s.g.core + (activeLanes s).length ≤ Config.remoteOutstanding
  settled : earlierPending s writes = false

/-- A lane's remote access is on its way: an access of the class to its own node's memory, else a part of the request to a line of
its node. -/
def FarSent (s t : State) (cls : BitVec 2) (peer : BitVec 5) (a : BitVec 7) (n i : Nat) (near : AccessOp) (far : FabricOp)
    (dest : Dest) : Prop :=
  if (getV s peer.toNat i).toNat % 1024 = (curPart s).node then Asked n cls false s t i (farVA s peer a i) near dest
  else ∃ r ∈ t.remotes, s.nextId ≤ r.id ∧ r.node = (getV s peer.toNat i).toNat % 1024 ∧ r.cls = cls ∧ r.gang = s.g.id ∧
    (i, farVA s peer a i, far) ∈ r.ops ∧ (i, dest) ∈ r.dest ∧ r.rest.getLsbD i = true ∧
    ∀ c ∈ destCodes dest, regState t c = .empty r.id

/-- R255: the remote read-modify-writes, and whether they return the old value. -/
def remoteAtomics : List ((OpXn → Instr) × Bool) := [(.atomX, true), (.redX, false)]

/-! ### Barriers and tiles (R251, R261) -/

/-- The place of a barrier kind among the arrival counts. -/
def barrierNumber : BarrierKind → Nat
  | .wg => 0
  | .cluster => 1
  | .launch => 2

/-- R251: the barriers, with the launches that may use them. -/
def barriers : List (Instr × BarrierKind × (Launch → Prop)) :=
  [(.bar, .wg, fun _ => True), (.barC, .cluster, fun l => l.cg = true), (.barG, .launch, fun l => l.nunit ≤ l.conc)]

/-- R108: the tile transitions, for gang number g: the states that perform, and the change. -/
def tileMoves : List ((OpH → Instr) × (Nat → TileState → Prop) × (Nat → Tile → Tile)) :=
  [(.tileOwn, fun g x => x = .empty ∨ x = .priv g ∨ x = .ready, fun g t =>
      { t with state := .priv g, data := if t.state = .empty then [] else t.data, fill := none, reads := [] }),
   (.tileSeal, fun g x => x = .priv g, fun _ t => { t with state := .ready, fill := none, reads := [] }),
   (.tileFree, fun g x => x = .priv g ∨ x = .ready, fun _ t => { t with state := .empty, data := [], fill := none, reads := [] })]

/-- R107: the entry of a tile in a state: OWNER, WGSLOT, STATE, SIZE, BASE. -/
def tileWord (t : Tile) (shown : TileState) : Word :=
  let (state, owner) : Nat × Nat := match shown with
    | .empty => (0, 0)
    | .priv g => (1, g % 16)
    | .filling tag => (2, tag)
    | .ready => (3, 0)
    | .draining n => (4, n)
  0#8 ++ BitVec.ofNat 8 owner ++ 0#1 ++ BitVec.ofNat 7 t.slot ++ 0#5 ++ BitVec.ofNat 3 state ++
    BitVec.ofNat 8 (t.size / 512 - 1) ++ 0#6 ++ BitVec.ofNat 18 t.base

/-! ### Engine commands (R260 to R274) -/

/-- R260, R267 to R274: the engine command that an instruction gives: the scalar registers it reads and what it orders. -/
def engineForm (s : State) : Instr → Option (List Nat × Order)
  | .cp o => some (command .cp false o.k o.d 5)
  | .cpR o => some (command .cp true o.k o.d 5)
  | .cpX o => some (command .cpx false o.k o.d 6)
  | .cpXR o => some (command .cpx true o.k o.d 6)
  | .gat o => some (rows .gat false o)
  | .gatR o => some (rows .gat true o)
  | .scat o => some (rows .scat false o)
  | .scatR o => some (rows .scat true o)
  | .coll o => some (command .coll false o.k o.d 5)
  | .collR o => some (command .coll true o.k o.d 5)
  | .mloop o =>
    let d := group o.d 8
    let f := group o.f 4
    some (d ++ f, {
      op := .mloop, rel := false, counter := o.k.toNat, h := 0
      b := ((getS s (o.d.toNat + 6)).extractLsb' 0 3).toNat
      n := [1, 2, 2, 4, 4, 8].getD ((getS s (o.d.toNat + 5)).extractLsb' 0 4).toNat 0
      desc := d.map (getS s), fmt := f.map (getS s) })
  | .maccZ o => some (tiles .maccZ false o.k o.b o.n1 [])
  | .maccZR o => some (tiles .maccZ true o.k o.b o.n1 [])
  | .maccLd o => some (tiles .maccLd false o.k o.b o.n1 (group o.d 2))
  | .maccLdR o => some (tiles .maccLd true o.k o.b o.n1 (group o.d 2))
  | .maccSt o => some (tiles .maccSt false o.k o.b o.n1 (group o.d 2))
  | .maccStR o => some (tiles .maccSt true o.k o.b o.n1 (group o.d 2))
  | _ => none
where
  /-- consecutive scalar registers -/
  group (d : BitVec 6) (m : Nat) : List Nat := (List.range m).map fun j => d.toNat + j
  /-- a command with a descriptor of m registers -/
  command (op : EngOp) (rel : Bool) (k : BitVec 3) (d : BitVec 6) (m : Nat) : List Nat × Order :=
    (group d m, { op := op, rel := rel, counter := k.toNat, h := 0, b := 0, n := 0, desc := (group d m).map (getS s), fmt := [] })
  /-- a gather or scatter by an index tile -/
  rows (op : EngOp) (rel : Bool) (o : OpHE) : List Nat × Order :=
    (group o.d 4, { op := op, rel := rel, counter := o.k.toNat, h := o.h.toNat, b := 0, n := 0
                    desc := (group o.d 4).map (getS s), fmt := [] })
  /-- a command on accumulator tiles b to b + n1 -/
  tiles (op : EngOp) (rel : Bool) (k b n1 : BitVec 3) (l : List Nat) : List Nat × Order :=
    (l, { op := op, rel := rel, counter := k.toNat, h := 0, b := b.toNat, n := n1.toNat + 1, desc := l.map (getS s), fmt := [] })

/-- R50: the weight of a command: 8, and K steps more for `mloop`. -/
def engineWeight (o : Order) : Nat := if o.op = .mloop then 8 + (o.desc.getD 4 0).toNat % 2 ^ 16 else 8

/-- R263: the entry that a command makes in the dependency table. -/
structure Ordered (s : State) (o : Order) (c : Cmd) : Prop where
  kind : c.op = o.op ∧ c.rel = o.rel ∧ c.counter = o.counter
  tiles : c.h = o.h ∧ c.b = o.b ∧ c.n = o.n
  words : c.desc = o.desc ∧ (o.op ≠ .coll → c.fmt = o.fmt)
  issuer : c.gang = s.g.id ∧ c.lineage = s.p.members ∧ c.mode = s.p.mode ∧ c.pc = s.p.pc ∧ c.clock = s.p.clock
  keys : c.issueKey = curKey s ∧ c.writeKey = { curKey s with clock := s.p.clock.toNat + engineWeight o }
  fresh : c.phase = .table ∧ c.progress = 0 ∧ c.suspended = false

/-! ### Traps (R336, R344) -/

/-- R344: the record of a fault at an instruction of the split at issue. -/
def faultRecord (kind : Nat) (cause sub : BitVec 8) (va : Word) (lanes : BitVec 64) (n : Nat) (word : BitVec 32) (s : State) :
    List Byte :=
  [cause.toNat + sub.toNat * 2 ^ 8 + kind % 8 * 2 ^ 16 + (if 2 ≤ kind then 2 ^ 19 else 0), s.p.pc.toNat, va.toNat, lanes.toNat,
    s.p.serial.toNat + gangidOf s.g % 2 ^ 32 * 2 ^ 32, s.p.clock.toNat,
    s.g.part % 8 + s.g.asid % 4096 * 2 ^ 16 + s.g.wg % 2 ^ 32 * 2 ^ 32, word.toNat + n % 512 * 2 ^ 32,
    s.p.mode.toNat, s.p.exec.toNat, (getS s 58).toNat, (getS s 59).toNat, (getS s 60).toNat, (getS s 61).toNat, (getS s 62).toNat,
    (getS s 63).toNat].flatMap (leBytes 8)

/-- R336: the handler is entered from a device m that holds the record, with every slice of the split's lanes (log entry 9). -/
def handlerEntered (kind : Nat) (cause sub : BitVec 8) (epc : Word) (m : State) : State :=
  { m with
    g := { reclaimSlices m.p.members (slicesOf (m.p.members &&& m.p.away)) m.g with trapped := true }
    p := { m.p with
      away := 0, parted := 0
      cause := BitVec.ofNat 64 (cause.toNat + sub.toNat * 2 ^ 8), epc := epc, entryEpc := epc
      frec := BitVec.ofNat 64 (m.g.ctx.toNat / 128 * 128), status := BitVec.ofNat 64 (1 + kind * 2 ^ 9), mode := 0
      exec := m.p.members, pc := (curPart m).tvec, wait := .none, again := m.p.redo, redo := none } }

/-- The partition of the split has a handler (R345). -/
def HasHandler (s : State) : Prop := (curPart s).tvec ≠ 0 ∧ (curPart s).tvec.toNat % 4 = 0

/-- R350, R336: the device m holds the record of a trap of an instruction that does not retire, after its region has
committed: its home admits the record, and no byte of its granule is held. -/
def Recorded (r : List Byte) (s m : State) : Prop :=
  let c := commitRegion s
  let off := offsetOf s.g.ctx
  admits c s.g.part s.g.asid off true = none ∧ granuleHeld c s.g.part s.g.asid off = false ∧
    m = writePiece 0 s.g.part s.g.asid off r c ∧ (curPart m).tvec = (curPart s).tvec

/-- R177, R279: the opcodes whose every form is privileged. -/
def privOps : List Nat := [0x151, 0x158, 0x159, 0x15A]

/-- R363, R42: the device where a word with a set reserved field raises its cause: an irrevocable instruction has committed its region, and
a region has opened for a destination that is live-in (log entry 103); in a privileged instruction the privilege comes first. -/
def reservedEntered (w : BitVec 32) (s : State) : State :=
  let op := w.toNat / 2 ^ 23
  if op ∈ privOps then s
  else if irrevocableOp s op then commitRegion s
  else if writesLiveIn (reservedDsts w s) s then openRegion s
  else s

/-- R177, R279, R280: instructions that trap whatever their operands: words that are none, `brk`, and privileged instructions
outside a handler; with their cause, n, and word. -/
def trapping (w : BitVec 32) (n : OpN9) (a : OpSN) (b : OpPlb) (c : OpS6) : List (Instr × BitVec 8 × Nat × BitVec 32) :=
  [(.illegalInstruction w, 0x01, 0, w), (.brk n, 0x09, n.n.toNat, (encode (.brk n)).getD 0)] ++
  ([.rte, .icinv a, .plbInv b, .hcOpEntry c, .hcOpRoot c, .hcOpFrame c, .hcOpMigrate c, .hcOpReplay c, .hcOpDrop c, .hcOpUnhold c,
    .hcOpRead c].map fun i => (i, 0x02, 0, (encode i).getD 0))

/-! ### Steps of other agents -/

/-- No register of any split and no byte of memory differs. -/
structure Quiet (s t : State) : Prop where
  issue : t.p = s.p
  gang : t.g = s.g
  gangs : t.gangs = s.gangs
  memory : t.mem = s.mem

/-- A result of as many bytes has room in a destination (R102, R152, R238). -/
def fits (n : Nat) : Dest → Prop
  | .none => False
  | .scalar r => r < 64 ∧ n ∈ [1, 2, 4, 8]
  | .vector _ m l => l < 64 ∧ n ∈ [1, 2, 4, 8, 16] ∧ m = (n + 3) / 4

/-- R238, R152: the w bits of register j that the bytes of a result give, the last of them extended by sign or by zero. -/
def answerWord (w : Nat) (sx : Bool) (data : List Byte) (j : Nat) : BitVec w :=
  let b := (data.drop (w / 8 * j)).take (w / 8)
  if sx then BitVec.ofInt w (sextInt (leNat b) (8 * b.length)) else BitVec.ofNat w (leNat b)

/-- R102: registers of the split at issue and its gang are in a state, every other one in the state and with the value it had;
nothing else of them differs but what a discard of the region restores, and no byte of memory. -/
structure Answered (st : RegState) (cs : List Nat) (s t : State) : Prop where
  states : ∀ c, regState t c = if c ∈ cs then st else regState s c
  scalars : ∀ n < 64, codeS n ∉ cs → getS t n = getS s n
  vectors : ∀ n l, l < 64 → codeV n l ∉ cs → getV t n l = getV s n l
  split : t.p = { s.p with sregs := t.p.sregs, sstate := t.p.sstate, entry := t.p.entry }
  gang : t.g = { s.g with vregs := t.g.vregs, vstate := t.g.vstate, splits := t.g.splits, parked := t.g.parked }
  memory : t.mem = s.mem

/-- R345, R346: one record more is in the fault queue of a partition, or counted as lost. -/
def RecordLeft (part : Nat) (s t : State) : Prop :=
  (partOf t part).fqtail = (partOf s part).fqtail + 1 ∨ (partOf t part).fqlost = (partOf s part).fqlost + 1

/-- The requests to a node that an answer gives a value (R129, R255), and whether each brings a line for a copy. -/
def answersValue (copy : Bool) : FabricOp → Prop
  | .load c => c = copy
  | .loadAt _ _ => copy = false
  | .atomic _ _ _ _ _ _ => copy = false
  | .atomicAt _ _ _ _ _ _ _ => copy = false
  | _ => False

/-- R385, R145, R70: the causes that the answers of a node give: refused, unsupported, and, of a publication that finds no room, exhausted
(log entry 105). -/
def faultAnswers : List (FaultAnswer × BitVec 8) := [(.refused, 0x91), (.unsupported, 0x93), (.exhausted, 0xB1)]

/-- R132, R133, R144: the request is that of the one line of a replay; it has been sent and no lane of it answered. -/
structure OnTheWay (s : State) (r : RemoteReq) : Prop where
  one : (s.remotes.filter fun x => x.id == r.id) = [r]
  alone : ∀ x ∈ s.remotes, x.gang = r.gang → x.group = r.group → x.cmd = none → x = r
  unheard : r.answer = none ∧ r.got = 0 ∧ r.failed = 0 ∧ ∀ i, r.rest.getLsbD i = true ↔ i < 64 ∧ ∃ e ∈ r.ops, e.1 = i
  sent : r.waiting = false ∧ r.heldBack = false ∧ r.saved = false ∧ r.view = none ∧ r.rest ≠ 0
  plain : r.cmd = none ∧ r.fault = none
  gang : r.gang = s.g.id

/-- R128: an access of device memory that can be served at its home now: not of a deterministic launch, no earlier access
orders it, none waits for its line, and no byte it reads is held. -/
structure AtHome (s : State) (q : Req) : Prop where
  named : s.arg = .num q.id ∧ reqOf s q.id = some q
  free : q.view = none ∧ q.key = none ∧ q.aperture = false
  next : eligible s q = true ∧ onCore s q = true
  alone : (∀ e ∈ s.hostQueue, e.1 ≠ q.ref) ∧ ∀ e ∈ s.noted, e.1 ≠ q.ref
  unheld : readHeld s q = false ∧ granuleHeld s q.part q.asid q.off = false

/-- The granule of an access is not dead (R125). -/
def Alive (s : State) (part asid off : Nat) : Prop := ∀ l, walk s part asid off = some l → Pte.dead l.entry = false

/-- R148: the answer to a snoop of a host line in a state (for SnpData, SnpInv, SnpCur): its name, whether it forwards the
line, and the state the line keeps. -/
def snoopRows : List (Instr × List (Mesi × String × Bool × Mesi)) :=
  [(.hostSnpdata, [(.s, "RspSHitSE", false, .s), (.e, "RspSHitSE", false, .s), (.m, "RspSFwdM", true, .s)]),
   (.hostSnpinv, [(.s, "RspIHitSE", false, .i), (.e, "RspIHitSE", false, .i), (.m, "RspIFwdM", true, .i)]),
   (.hostSnpcur, [(.s, "RspSHitSE", false, .s), (.e, "RspSHitSE", false, .e), (.m, "RspVFwdV", true, .m)])]

/-- R320: a command with an OP and a PART is in the mailbox of a port of a started device with a STATUS, the first of the commands
that have reached the system controller. -/
structure Posted (st : Nat) (s : State) (op port part : Nat) : Prop where
  started : s.startup.phase = .started
  serves : portServes s port = true
  first : s.posted.head? = some port
  status : mailStatus s port = st
  op : mailWord s port 0 % 256 = op
  part : bits (mailWord s port 0) 8 8 = part

/-- R320: a command has ended with a STATUS; the next one is first. -/
def ended (port st : Nat) (s : State) : State := setStatus port st { s with posted := s.posted.tail }

/-- R321: the record in a mailbox describes a partition that can be created now. -/
structure CanCreate (s : State) (port part : Nat) : Prop where
  fields : recReserved (mailBytes s port 8 128) = true
  new : hasPart s part = false ∧ part < 8 ∧ s.tripped = false
  fits : recFits s port (mailBytes s port 8 128) = true

/-- The line of COMP of a launch is in its home slice with a write grant; nothing is held there, and no write has to wait in turn. -/
structure CompLine (s : State) (l : Launch) (x : Line) : Prop where
  line : findLine s (lineRef l.part l.asid (offsetOf (l.tcb + 64))) = some x
  grant : x.grant = true
  place : offsetOf (l.tcb + 64) % 128 = 64
  unheld : granuleHeld s l.part l.asid (offsetOf (l.tcb + 64)) = false
  alive : Alive s l.part l.asid (offsetOf (l.tcb + 64))
  free : devQueued s l.part l.asid (offsetOf (l.tcb + 64)) = false

/-- R276: memory with COMP (STATUS, CAUSE, FU, OBS, EARLY) and FLINE of a launch written. -/
def compWritten (s : State) (l : Launch) (x : Line) (status : Nat) (cause : BitVec 8) : List Host.Cell :=
  memWrite s.mem (x.pa + 64) (leBytes 8 (status + cause.toNat * 2 ^ 8 + (if l.fu then 2 ^ 16 else 0) + (if l.obs then 2 ^ 17 else 0)
    + (if l.early then 2 ^ 18 else 0)) ++ leBytes 8 l.fline.toNat)

/-- R149, R319: HDM decoder k of a port is enabled at a base: CXL runs on the link, and partition k is bound to the port. -/
def Decodes (s : State) (port k : Nat) (base : Word) : Prop :=
  k < 8 ∧ hasPart s k = true ∧ (partOf s k).port = port ∧
    ∃ p, s.ports[port]? = some p ∧ p.flit = true ∧ p.linkUp = true ∧ p.down = false ∧ p.decoders[k]? = some (some base)

/-- R149: the window of decoder k covers a host address. -/
def Covers (s : State) (port k : Nat) (base : Word) (addr : BitVec 64) : Prop :=
  Decodes s port k base ∧ base.toNat ≤ addr.toNat ∧ addr.toNat < base.toNat + (partOf s k).hdmgb * 2 ^ 30

/-- R149: one decoder of a port covers a host address, at an offset of the global region of its partition. -/
structure Decoded (s : State) (port part : Nat) (addr : BitVec 64) (off : Nat) : Prop where
  one : ∃ base, Covers s port part base addr ∧ off = 2 ^ 52 + (addr.toNat - base.toNat)
  alone : ∀ k base, Covers s port k base addr → k = part

/-- R149: no decoder of a port covers a host address. -/
def Undecoded (s : State) (port : Nat) (addr : BitVec 64) : Prop := ∀ k base, ¬ Covers s port k base addr

/-- R128, R97: nothing waits at a home, so that a request of a host is served when it comes. -/
def NoneWaits (s : State) : Prop :=
  s.hostQueue = [] ∧ s.noted = [] ∧ (∀ l ∈ s.lines, l.state = .p → ∀ port, postedBy port l.resume = false) ∧ ∀ e ∈ s.late, e.node = none

/-- R322, R332: the offset of control register n in the window of a partition in BAR 0. -/
def windowAt (part a : Nat) : Nat := 0x100000 * (part + 1) + a

/-- The line of an offset of the global region of a partition is in its home slice and not in P. -/
def HomeLine (s : State) (part off : Nat) (l : Line) : Prop := findLine s (lineRef part 4095 off) = some l ∧ l.state ≠ .p

/-- A write of a partition's global region performs at once: the line has a write grant and no copies elsewhere, its page is
neither locked nor held nor dead (R124, R125, R128, R368). -/
structure Writable (s : State) (part off : Nat) (l : Line) : Prop where
  line : HomeLine s part off l
  grant : l.grant = true
  alone : copyHolders s l 256 = ([], [])
  unheld : granuleHeld s part 4095 off = false
  unlocked : ∀ x, walk s part 4095 off = some x → Pte.lock x.entry = false ∧ Pte.dead x.entry = false

/-- R147: what a PCIe atomic of n bytes leaves of an old value. -/
def hostAtomicValue (op : HostAtomicOp) (n v old : Nat) : Nat :=
  match op with
  | .fetchAdd => (old + v) % 2 ^ (8 * n)
  | .swap => v % 2 ^ (8 * n)
  | .cas c => if old = c.toNat % 2 ^ (8 * n) then v % 2 ^ (8 * n) else old

/-- R321: bits of word j of the record in a mailbox. -/
def recordBits (s : State) (port j lo n : Nat) : Nat := mailWord s port (8 + 8 * j) / 2 ^ lo % 2 ^ n

/-- R328: the octets of a digest, the most significant first. -/
def digestBytes (d : BitVec 384) : List Byte := (List.range 48).map fun i => d.extractLsb' (8 * (47 - i)) 8

/-- A launch of a partition has ended, by a reset. -/
def PartReset (part : Nat) (t : State) : Prop :=
  (∀ x ∈ t.launches, x.part = part → x.phase = .retired) ∧ (∀ c ∈ t.l1, c.ref.part ≠ part) ∧ (∀ q ∈ t.reqs, q.part = part → q.gang = 0) ∧
  (∀ c ∈ t.cmds, c.part ≠ part) ∧ (∀ e ∈ t.brim, e.ref.part ≠ part) ∧
  (∀ r ∈ t.parts, r.id = part → r.tvec = 0 ∧ r.fqlog = 0 ∧ r.esel = [] ∧ r.evc = [] ∧ r.dead = [] ∧ r.aperture = [] ∧ r.intake = [])

/-- A start of the device is under way at step 1 (R326): nothing is resident and no partition exists. -/
structure Starting (s t : State) : Prop where
  phase : t.startup = { s.startup with phase := .running, step := 1 }
  vacant : t.p = Split.vacant ∧ t.g = Gang.vacant ∧ t.gangs = []
  nothing : t.parts = [] ∧ t.launches = [] ∧ t.lines = [] ∧ t.late = []
  memory : t.mem = s.mem

/-- R400, R401: a start has failed at a step for a reason: it is counted, and the record names it. -/
structure StartFailed (step reason : Nat) (s t : State) : Prop where
  phase : t.startup.phase = .failed
  count : t.startup.count = min 255 (s.startup.count + 1)
  first : ∃ w, t.startup.record[0]? = some w ∧ w.toNat % 2 ^ 8 = reason ∧ w.toNat / 2 ^ 8 % 2 ^ 8 = step ∧
    w.toNat / 2 ^ 16 % 2 ^ 8 = t.startup.count
  rest : t = { s with
    startup := t.startup, clustersOut := t.clustersOut, hbmOut := t.hbmOut, hcOut := t.hcOut, sliceOut := t.sliceOut
    fportOut := t.fportOut, bridgeOut := t.bridgeOut }

/-- The device without its operating points. -/
def SameButDies (s t : State) : Prop := t = { s with dies := t.dies }

/-- R288, R329, R330: every die that does not move runs at the point that its residents and limits select. -/
def Settled (t : State) : Prop := ∀ i < t.dies.length, (getAt Die.reset t.dies i).target = none →
  (getAt Die.reset t.dies i).point = wantedPoint t i (getAt Die.reset t.dies i)

end Sys2Proof.Rules
end

