-- ==== Sys2Proof/Certificates/Slice0/Obligations.lean ====
section
/-! DEFINITION. The statements for the provers. -/

open Sys2Proof Sys2Proof.Machine Sys2Proof.Rules

/-! ### Scalar arithmetic -/

/-- R189 to R194: in whatever mode and under whatever mask, an instruction of the scalar rows whose fields name scalar registers that
are full completes: d holds the row's value, full; nothing else but the pc, the clock and the loops changes. `sel` gives a
where the old d is not 0, else b. -/
def Obligations.ScalarArithmeticWritesItsValue : Prop :=
  (∀ e ∈ scalarTwo, ∀ (o : Op3R) (s : State), o.d.toNat < 64 → o.a.toNat < 64 → o.b.toNat < 64 →
    Ready 1 [codeS o.a.toNat, codeS o.b.toNat] [codeS o.d.toNat] s →
    ∃ t, exec (e.1 o) s = .next t ∧ Done 1 (setS o.d.toNat (e.2 (getS s o.a.toNat) (getS s o.b.toNat)) s) t) ∧
  (∀ (o : Op3R) (s : State), o.d.toNat < 64 → o.a.toNat < 64 → o.b.toNat < 64 →
    Ready 1 [codeS o.a.toNat, codeS o.b.toNat] [codeS o.d.toNat] s →
    ∃ t, exec (.sel o) s = .next t ∧
      Done 1 (setS o.d.toNat (if getS s o.d.toNat = 0 then getS s o.b.toNat else getS s o.a.toNat) s) t) ∧
  (∀ e ∈ scalarOne, ∀ (o : Op3A) (s : State), o.d.toNat < 64 → o.a.toNat < 64 →
    Ready 1 [codeS o.a.toNat] [codeS o.d.toNat] s →
    ∃ t, exec (e.1 o) s = .next t ∧ Done 1 (setS o.d.toNat (BitVec.ofNat 64 (e.2 (getS s o.a.toNat))) s) t) ∧
  (∀ e ∈ scalarImmediate, ∀ (o : Op2I) (s : State), o.d.toNat < 64 → o.a.toNat < 64 →
    Ready 1 [codeS o.a.toNat] [codeS o.d.toNat] s →
    ∃ t, exec (e.1 o) s = .next t ∧ Done 1 (setS o.d.toNat (e.2 (getS s o.a.toNat) o.imm) s) t) ∧
  (∀ e ∈ scalarShift, ∀ (o : Op2S) (s : State), o.d.toNat < 64 → o.a.toNat < 64 →
    Ready 1 [codeS o.a.toNat] [codeS o.d.toNat] s →
    ∃ t, exec (e.1 o) s = .next t ∧ Done 1 (setS o.d.toNat (e.2 (getS s o.a.toNat) o.imm.toNat) s) t) ∧
  (∀ (o : OpRI) (s : State), o.d.toNat < 64 → Ready 1 [] [codeS o.d.toNat] s →
    (∃ t, exec (.movi o) s = .next t ∧ Done 1 (setS o.d.toNat (o.imm.signExtend 64) s) t) ∧
    (∃ t, exec (.movh o) s = .next t ∧
      Done 1 (setS o.d.toNat (getS s o.d.toNat * 0x10000 + o.imm.setWidth 64) s) t))

/-! ### Control transfer -/

/-- R195, R196: `jmp`, `jal` and `jr` go to their target, `jal` and `jr` with PC + 4 in the link register; `jr` to a target
of which bits [1:0] are 0.
It rests on the model's choice of log entry 20: no slice rotates in a handler. -/
def Obligations.JumpsGoToTheirTarget : Prop :=
  (∀ (o : OpB) (s : State), Unrotated (label s o.off) s → Ready 1 [] [] s →
    ∃ t, exec (.jmp o) s = .next t ∧ Goes 1 (label s o.off) s t) ∧
  (∀ (o : OpB) (s : State), Unrotated (label s o.off) s → Ready 1 [] [codeS 63] s →
    ∃ t, exec (.jal o) s = .next t ∧ Goes 1 (label s o.off) (setS 63 (s.p.pc + 4) s) t) ∧
  (∀ (o : Op2I) (s : State), o.d.toNat < 64 → o.a.toNat < 64 →
    let target := getS s o.a.toNat + 4 * o.imm.signExtend 64
    target.toNat % 4 = 0 → Unrotated target s → Ready 1 [codeS o.a.toNat] [codeS o.d.toNat] s →
    ∃ t, exec (.jr o) s = .next t ∧ Goes 1 target (setS o.d.toNat (s.p.pc + 4) s) t)

/-- R197, R206, R32: `call` below depth 256 pushes PC + 4 and leaves the loop records; the oldest of eight entries on chip leaves
for the context area, whose bytes of that entry are the only memory that changes, and no register changes. `ret` pops its
target, and records above the new depth are idle; one whose entry is lost there ends the launch with cause 0x74 (R375).
It rests on the model's choices of log entries 20, 51, 72 and 90: where an entry lies in the context area and which bytes it is are the
device's own; `ret` is no backward branch and rotates no slice; a call completes where the late-fault queue has no room for its
entry, which then waits at its home. -/
def Obligations.CallsPushAndReturnsPop : Prop :=
  (∀ (o : OpB) (s : State), s.p.rstack.length < 256 → Unrotated (label s o.off) s → Ready 1 [] [] s →
    ∃ t, exec (.call o) s = .next t ∧ Jumped 1 (label s o.off) (fun _ => true) (pushReturn (s.p.pc + 4) s) t ∧
      t.p.rstack = (s.p.pc + 4) :: s.p.rstack ∧ t.p.clock = clockAfter 1 s ∧ t.p.lr0 = s.p.lr0 ∧ t.p.lr1 = s.p.lr1 ∧
      t.p.sregs = s.p.sregs ∧ t.g.vregs = s.g.vregs ∧ t.g.preds = s.g.preds ∧
      (s.p.rstack.length < 8 →
        Jumped 1 (label s o.off) (fun _ => true) { s with p := { s.p with rstack := (s.p.pc + 4) :: s.p.rstack } } t)) ∧
  (∀ (s : State) (r : Word) (rest : List Word), s.p.rstack = r :: rest → Refilled s → Ready 1 [] [] s →
    (rest.length < 8 ∨ refillLost s = false → ∃ t, exec .ret s = .next t ∧ Jumped 1 r (fun _ => true) (returned rest s) t) ∧
    (8 ≤ rest.length → refillLost s = true →
      ∃ t, exec .ret s = .next t ∧ ∀ l ∈ t.launches, l.id = s.g.launch → l.phase = .retired ∧ l.ended = some (0x74, 3)))

/-- R199, R200, R198, R201, R30: a branch goes to its label where its condition holds and falls through where it does not. Where the
active lanes agree, `vbr` and `ret va` take the split whole to their common target; with no active lane both fall through,
and the return stack is unchanged.
It rests on the model's choice of log entry 20: no slice rotates in a handler. -/
def Obligations.BranchesFollowTheirCondition : Prop :=
  (∀ e ∈ scalarBranch, ∀ (o : OpBC) (s : State), Ready 1 [codeS o.s.toNat] [] s →
    (e.2 (getS s o.s.toNat) → Unrotated (label s o.off) s →
      ∃ t, exec (e.1 o) s = .next t ∧ Goes 1 (label s o.off) s t) ∧
    (¬ e.2 (getS s o.s.toNat) → ∃ t, exec (e.1 o) s = .next t ∧ Done 1 s t)) ∧
  (∀ e ∈ predicateBranch, ∀ (o : OpBC) (s : State), o.s.toNat < 16 → Ready 1 [] [] s →
    (e.2 s o.s.toNat → Unrotated (label s o.off) s →
      ∃ t, exec (e.1 o) s = .next t ∧ Goes 1 (label s o.off) s t) ∧
    (¬ e.2 s o.s.toNat → ∃ t, exec (e.1 o) s = .next t ∧ Done 1 s t)) ∧
  (∀ (o : OpBC) (s : State), o.s.toNat < 16 → Ready 1 [] [] s →
    ((∀ i ∈ activeLanes s, getP s o.s.toNat i = false) → ∃ t, exec (.vbr o) s = .next t ∧ Done 1 s t) ∧
    (activeLanes s ≠ [] → (∀ i ∈ activeLanes s, getP s o.s.toNat i = true) → Unrotated (label s o.off) s →
      ∃ t, exec (.vbr o) s = .next t ∧ Goes 1 (label s o.off) s t)) ∧
  (∀ (o : OpV) (s : State) (r : Word) (rest : List Word), s.p.rstack = r :: rest →
    (activeLanes s = [] → Ready 1 [] [] s → ∃ t, exec (.retVa o) s = .next t ∧ Done 1 s t) ∧
    (∀ k : BitVec 32, activeLanes s ≠ [] → (∀ i ∈ activeLanes s, elemOf s (Ty.i 32) o.a.toNat i = k.toNat) →
      let target := r + 4 * k.signExtend 64
      Refilled s → Ready 1 ((srcV o.a.toNat 1 false (activeLanes s)).map (·.1)) [] s → Unrotated target s →
      ∃ t, exec (.retVa o) s = .next t ∧
        (rest.length < 8 ∨ refillLost s = false → Jumped 1 target (fun _ => true) (returned rest s) t)))

/-- R203, R204: `loop` starts a record at PC + 4, or skips its body where the count is 0; `loop.set` writes the counter and
`loop.get` reads it.
It rests on the model's choice of log entry 20: no slice rotates in a handler. -/
def Obligations.LoopsStartSetAndReadTheirCounter : Prop :=
  ∀ e ∈ loopForms,
    (∀ (o : OpBC) (s : State), 2 ≤ o.off.toInt → mayStart e.1 (label s o.off) s →
      Ready 1 [codeS o.s.toNat] [codeLc (if e.1 then 1 else 0)] s →
      let c : BitVec 32 := (getS s o.s.toNat).setWidth 32
      let u := loopBegun e.1 { start := s.p.pc + 4, stop := label s o.off, depth := s.p.rstack.length } c s
      (c ≠ 0 → ((edges u).repeats = true → NoRotation s) → ∃ t, exec (e.2.1 o) s = .next t ∧ Done 1 u t) ∧
      (c = 0 → Unrotated (label s o.off) s → ∃ t, exec (e.2.1 o) s = .next t ∧
        Goes 1 (label s o.off) (loopCounter e.1 0 s) t)) ∧
    (∀ (o : OpS6) (s : State), Ready 1 [codeS o.s.toNat] [codeLc (if e.1 then 1 else 0)] s →
      overflows (fullWeight 1 (loopCounter e.1 ((getS s o.s.toNat).setWidth 32) s)) s = false →
      ((edges (loopCounter e.1 ((getS s o.s.toNat).setWidth 32) s)).repeats = true → NoRotation s) →
      ∃ t, exec (e.2.2.1 o) s = .next t ∧ Done 1 (loopCounter e.1 ((getS s o.s.toNat).setWidth 32) s) t) ∧
    (∀ (o : OpS6) (s : State), Ready 1 [] [codeS o.s.toNat] s →
      ∃ t, exec (e.2.2.2 o) s = .next t ∧
        Done 1 (setS o.s.toNat ((if e.1 then s.p.lc1 else s.p.lc0).setWidth 64) s) t)

/-- R207, R208, R39: `region` commits the open region and opens one at the next instruction, `yield` commits it and puts the
split back for 64 cycles, `nop` does nothing. A handler has no regions, and `region` only advances there (R337).
It rests on the model's choices of log entries 1 and 94: a step is one cycle of issue, so the 64 cycles are counted in steps; at the end
of a loop body that repeats, the opening that `region` makes and that of the back edge are one. -/
def Obligations.RegionYieldAndNopComplete : Prop :=
  (∀ s : State, Ready 1 [] [] s → ∃ t, exec .region s = .next t ∧ Done 1 s t ∧
    (isPriv s = false → s.p.members ≠ 0 → t.besides = (commitRegion s).besides ∧ t.p.buffer = [] ∧ t.p.fresh = true ∧
      t.p.serial = s.g.serial + 1 ∧ t.g.serial = s.g.serial + 1 ∧ ∃ e, t.p.entry = some e ∧ e.pc = t.p.pc)) ∧
  (∀ s : State, isPriv s = false → ReadyAlone 1 [] [] s →
    ∃ t, exec .yield s = .next t ∧ Done 1 { s with p := { s.p with yielded := s.cycle + 64 } } t ∧ t.p.buffer = []) ∧
  (∀ s : State, Ready 1 [] [] s → ∃ t, exec .nop s = .next t ∧ Done 1 s t)

/-- R209, R37, R67: `halt` with no active lane does nothing; with some, its region commits and they leave the membership, with
every register and every byte as it was; where none is left the split ends, the unit's final clock takes in its clock, and
a gang with no parked path ends with its last split. A halt that leaves stores of a deterministic launch unpublished is a turn
instead; one at which a held fault is delivered takes it (R340, R376).
It rests on the model's choice of log entry 89: a halt with no active lane delivers no held fault of its own. -/
def Obligations.HaltRemovesTheActiveLanes : Prop :=
  (∀ s : State, isPriv s = false → activeLanes s = [] → Ready 1 [] [] s →
    ∃ t, exec .halt s = .next t ∧ Done 1 s t) ∧
  (∀ s : State, isPriv s = false → activeLanes s ≠ [] → (detNow s = true → s.p.buffer = []) →
    (∀ e ∈ s.g.cuff, e.lanes &&& s.p.members = 0) → deliverable s .halt = none → ReadyAlone 1 [] [] s →
    let m := s.p.members &&& ~~~ activeMask s
    let c := commitRegion s
    ∃ t, exec .halt s = .next t ∧ t.mem = s.mem ∧ t.g.vregs = s.g.vregs ∧ t.g.preds = s.g.preds ∧
      (m ≠ 0 → Retired 1 s t ∧ t.p.members = m ∧ t.p.exec = s.p.exec &&& m ∧ t.p.sregs = s.p.sregs ∧ t.p.wins = s.p.wins ∧
        t.p.rstack = s.p.rstack ∧ t.p.mode = s.p.mode ∧ t.p.fstat = s.p.fstat ∧ t.p.buffer = [] ∧
        ((∀ j, stackOf s.g j = []) → (∀ q ∈ s.g.splits, q.away = 0) → Done 1 { c with p := { c.p with members := m, exec := s.p.exec &&& m } } t)) ∧
      (m = 0 → t.p = Split.vacant ∧ ((∀ j, stackOf s.g j = []) → t.g.ended = s.g.allSplits.isEmpty) ∧
        (launchOf t s.g.launch).units = (launchOf s s.g.launch).units.map fun u =>
          if u.idx = s.g.unit ∧ u.final.toNat < (s.p.clock + 1).toNat then { u with final := s.p.clock + 1 } else u))

/-! ### MODE and the special registers -/

/-- R210, R183: the mode instructions write their field of MODE, `mode.ld` all of it, and `mode.st` reads it. -/
def Obligations.ModeInstructionsWriteTheirField : Prop :=
  (∀ t g r v, ∀ e ∈ modeFields t g r v, ∀ s : State, Ready 1 [] [codeMode] s →
    ∃ u, exec e.1 s = .next u ∧ Done 1 (withMode (putField s.p.mode e.2.1 e.2.2.1 e.2.2.2) s) u) ∧
  (∀ (o : OpS6) (s : State), Ready 1 [codeS o.s.toNat] [codeMode] s →
    ∃ t, exec (.modeLd o) s = .next t ∧ Done 1 (withMode (getS s o.s.toNat) s) t) ∧
  (∀ (o : OpS6) (s : State), Ready 1 [] [codeS o.s.toNat] s →
    ∃ t, exec (.modeSt o) s = .next t ∧ Done 1 (setS o.s.toNat s.p.mode s) t)

/-- R182, R211, R281: `rdsp` and `csrr` read the special registers, `csrr` the privileged ones in a handler; unprivileged code does not
read PHYID in a deterministic launch (R79). HWCFG is that of a device with every unit in service (R22); CYCLE is what a deterministic
launch reads (R79).
It rests on the model's choices of log entries 59 and 107: privileged code reads PHYID as it is. -/
def Obligations.SpecialRegistersReadTheirValue : Prop :=
  (∀ e ∈ specialValues, ∀ (o : OpSN) (s : State), o.n.toNat = e.1 → (e.1 = 0x010 → detNow s = false) →
    (Ready 1 [] [codeS o.s.toNat] s →
      ∃ t, exec (.rdsp o) s = .next t ∧ Done 1 (setS o.s.toNat (e.2 s) s) t) ∧
    (ReadyAlone 4 [] [codeS o.s.toNat] s →
      ∃ t, exec (.csrr o) s = .next t ∧ Done 4 (setS o.s.toNat (e.2 s) s) t)) ∧
  (∀ e ∈ privilegedValues, ∀ (o : OpSN) (s : State), o.n.toNat = e.1 → isPriv s = true → ReadyAlone 4 [] [codeS o.s.toNat] s →
    ∃ t, exec (.csrr o) s = .next t ∧ Done 4 (setS o.s.toNat (e.2 s) s) t) ∧
  (∀ (o : OpSN) (s : State), o.n.toNat = 0x00E → s.hbmOut = 0 → s.hcOut = 0 → s.sliceOut = 0 → s.fportOut = 0 → s.clustersOut = 0 → s.bridgeOut = false →
    Ready 1 [] [codeS o.s.toNat] s →
    ∃ t, exec (.rdsp o) s = .next t ∧ Done 1 (setS o.s.toNat 0x0130081820601021 s) t) ∧
  (∀ (o : OpSN) (s : State), o.n.toNat = 0x00F → detNow s = true → Ready 1 [] [codeS o.s.toNat] s →
    ∃ t, exec (.rdsp o) s = .next t ∧
      Done 1 (setS o.s.toNat ((s.p.clock >>> (curLaunch s).qexp) <<< (curLaunch s).qexp) s) t)

/-- R281: `csrw`, `csrs` and `csrc` of MODE, EXEC (ANDed with the membership, R29), FSTAT, a read-only register, EPC, and the
control registers of the partition, whose values outside their range are ignored. -/
def Obligations.SpecialRegisterWritesTakeEffect : Prop :=
  (∀ e ∈ specialWriters, ∀ (o : OpSN) (s : State),
    let y := getS s o.s.toNat
    (o.n.toNat = 0x000 → ReadyAlone 4 [codeS o.s.toNat] [codeMode] s →
      ∃ t, exec (e.1 o) s = .next t ∧ Done 4 (withMode (e.2 s.p.mode y) s) t) ∧
    (o.n.toNat = 0x001 → ReadyAlone 4 [codeS o.s.toNat] [codeExec] s →
      ∃ t, exec (e.1 o) s = .next t ∧ Done 4 { s with p := { s.p with exec := e.2 s.p.exec y &&& s.p.members } } t) ∧
    (o.n.toNat ∈ [0x002, 0x003, 0x004, 0x005, 0x006, 0x007, 0x008, 0x009, 0x00A, 0x00B, 0x00C, 0x00E, 0x00F, 0x010, 0x100, 0x10F] →
      ReadyAlone 4 [codeS o.s.toNat] [] s → ∃ t, exec (e.1 o) s = .next t ∧ Done 4 s t) ∧
    (isPriv s = true → o.n.toNat = 0x022 → ReadyAlone 4 [codeS o.s.toNat] [] s →
      ∃ t, exec (e.1 o) s = .next t ∧ Done 4 { s with p := { s.p with epc := e.2 s.p.epc y } } t)) ∧
  (∀ (o : OpSN) (s : State), o.n.toNat = 0x00D → ReadyAlone 4 [codeS o.s.toNat] [] s →
    let u := { s with p := { s.p with fstat := s.p.fstat &&& ~~~getS s o.s.toNat } }
    (∃ t, exec (.csrw o) s = .next t ∧ Done 4 u t) ∧ (∃ t, exec (.csrc o) s = .next t ∧ Done 4 u t) ∧
    (∃ t, exec (.csrs o) s = .next t ∧ Done 4 s t)) ∧
  (∀ e ∈ controlWrites, ∀ (o : OpSN) (s : State), isPriv s = true → o.n.toNat = e.1 → ReadyAlone 4 [codeS o.s.toNat] [] s →
    ∃ t, exec (.csrw o) s = .next t ∧
      Done 4 (withPart s.g.part (e.2 (getS s o.s.toNat)) (commitRegion s)) t)

/-- R282, R331: `pmc` reads an event counter of its partition, where the launch may (R80); its form that clears, in a handler,
leaves it 0 but for the retirement it may count itself. The region commits first, and its stores to other devices may count.
It rests on the model's choices of log entries 19 and 110. -/
def Obligations.EventCountersReadAndClear : Prop :=
  ∀ (o : OpSN) (s : State), o.n.toNat < 16 → ((curLaunch s).det = true → (curLaunch s).obs = true) →
    (∀ code ∈ [0x001, 0x012], (mapGet 0 (curPart s).esel o.n.toNat).toNat % 4096 ≠ code) → ReadyAlone 4 [] [codeS o.s.toNat] s →
    let v := mapGet 0 (curPart (commitRegion s)).evc o.n.toNat
    (∃ t, exec (.pmcRead o) s = .next t ∧ Done 4 (setS o.s.toNat v s) t) ∧
    (isPriv s = true → ∃ t, exec (.pmcReadClear o) s = .next t ∧
      Done 4 (setS o.s.toNat v
        (withPart s.g.part (fun q => { q with evcFrom := mapSet 0 q.evcFrom o.n.toNat s.ticks }) (commitRegion s))) t ∧
      ((mapGet 0 (curPart s).esel o.n.toNat).toNat % 4096 ≠ 2 →
        ∀ q ∈ t.parts, q.id = s.g.part → q.esel = (curPart s).esel → mapGet 0 q.evc o.n.toNat = 0))

/-- R283, R126: `icinv` drops n + 1 granules of 64 KiB from an aligned address from the instruction caches of every core of the
partition, and nothing else. `plb.inv` drops the entries of a granule, of an address space or of the whole partition, and
marks the windows they cover STALE, those of the split at issue among them.
It rests on the model's choices of log entry 68. -/
def Obligations.InvalidatesDropTheirEntries : Prop :=
  (∀ (o : OpSN) (s : State), isPriv s = true → (getS s o.s.toNat).toNat % 65536 = 0 → ReadyAlone 4 [codeS o.s.toNat] [] s →
    let lo := offsetOf (getS s o.s.toNat)
    let dropped (l : ICLine) : Bool :=
      decide (l.ref.part = s.g.part ∧ lo / 65536 ≤ l.ref.va / 65536 ∧ l.ref.va / 65536 < lo / 65536 + (o.n.toNat + 1))
    ∃ t, exec (.icinv o) s = .next t ∧ Done 4 { commitRegion s with icache := s.icache.filter fun l => !dropped l } t) ∧
  (∀ (o : OpPlb) (s : State), isPriv s = true → o.k.toNat < 3 → ReadyAlone 4 [codeS o.s.toNat] [] s →
    let v := getS s o.s.toNat
    let granule := offsetOf v / 65536
    let hit (e : PlbEntry) : Bool :=
      decide (e.part = s.g.part) && (if o.k.toNat = 0 then decide (e.granule = granule)
        else if o.k.toNat = 1 then decide (e.asid = v.toNat % 4096) else true)
    ∃ t, exec (.plbInv o) s = .next t ∧ t.plb = s.plb.filter (fun e => !hit e) ∧ t.mem = s.mem ∧ t.p.sregs = s.p.sregs ∧
      t.p.clock = s.p.clock ∧ t.p.pc = (edges s).split.pc ∧ t.p.wait = .none ∧
      ∀ n, (getW s n).valid = true → (o.k.toNat = 2 ∨ (o.k.toNat = 0 ∧ offsetOf (getW s n).base / 65536 = granule)) →
        getW t n = { getW s n with stale := true })

/-! ### Vector instructions -/

/-- R215, R216, R213: the integer instructions complete for every integer type, the bitwise and moving ones for every assigned
type: each active lane of d holds the exact result modulo 2^w, no flag is set, and nothing else but the pc, the clock and
the loops changes. -/
def Obligations.VectorIntegersWrapToTheirWidth : Prop :=
  (∀ e ∈ vectorInteger, ∀ (o : Op3R) (s : State) (t : Ty), elemTy s = some t → t.isInt = true →
    vDstOk t.wide o.d = true → vSrcOk t.wide o.a = true → vSrcOk t.wide o.b = true →
    Ready 1 (vecRead t s (if e.2.1 then [o.a, o.b, o.d] else [o.a, o.b])) (vecWritten t s o.d) s →
    ∃ u, exec (e.1 o) s = .next u ∧
      Done 1 (putLanes t o.d (fun i =>
        wrapNat (e.2.2 t (elemOf s t o.a.toNat i) (elemOf s t o.b.toNat i) (elemOf s t o.d.toNat i)) t.width) s) u) ∧
  (∀ e ∈ vectorIntegerOne, ∀ (o : Op3A) (s : State) (t : Ty), elemTy s = some t → t.isInt = true →
    vDstOk t.wide o.d = true → vSrcOk t.wide o.a = true → Ready 1 (vecRead t s [o.a]) (vecWritten t s o.d) s →
    ∃ u, exec (e.1 o) s = .next u ∧
      Done 1 (putLanes t o.d (fun i => wrapNat (e.2 t (elemOf s t o.a.toNat i)) t.width) s) u) ∧
  (∀ e ∈ vectorBitwise, ∀ (o : Op3R) (s : State) (t : Ty), elemTy s = some t →
    vDstOk t.wide o.d = true → vSrcOk t.wide o.a = true → vSrcOk t.wide o.b = true →
    Ready 1 (vecRead t s (if e.2.1 then [o.a, o.b, o.d] else [o.a, o.b])) (vecWritten t s o.d) s →
    ∃ u, exec (e.1 o) s = .next u ∧
      Done 1 (putLanes t o.d (fun i =>
        e.2.2 (elemOf s t o.a.toNat i) (elemOf s t o.b.toNat i) (elemOf s t o.d.toNat i)) s) u) ∧
  (∀ e ∈ vectorBitwiseOne, ∀ (o : Op3A) (s : State) (t : Ty), elemTy s = some t →
    vDstOk t.wide o.d = true → vSrcOk t.wide o.a = true → Ready 1 (vecRead t s [o.a]) (vecWritten t s o.d) s →
    ∃ u, exec (e.1 o) s = .next u ∧ Done 1 (putLanes t o.d (fun i => e.2 t (elemOf s t o.a.toNat i)) s) u)

/-- R217: `vbcs`, `vbfe` and `vbfi` act on the 32 bits of each active lane, for every assigned type of less than 64 bits, `vbcs`
for an unassigned one too. -/
def Obligations.VectorFieldsActOnThirtyTwoBits : Prop :=
  (∀ e ∈ vectorField, ∀ (o : Op3R) (s : State) (t : Ty), elemTy s = some t → t.wide = false → o.d.toNat < 96 →
    Ready 1 (vecRead t s (if e.2.1 then [o.a, o.b, o.d] else [o.a, o.b])) (vecWritten t s o.d) s →
    ∃ u, exec (e.1 o) s = .next u ∧
      Done 1 (putWords o.d.toNat (fun i => (e.2.2 t (laneWord s o.a i) (laneWord s o.b i) (laneWord s o.d i)).toNat) s) u) ∧
  (∀ (o : Op3R) (s : State), elemTy s = none → o.d.toNat < 96 →
    Ready 1 (vecRead (Ty.n 32) s [o.a, o.b, o.d]) (vecWritten (Ty.n 32) s o.d) s →
    let byte i := vectorField.pick (laneWord s o.a i) (laneWord s o.b i) (laneWord s o.d i)
    ∃ u, exec (.vbcs o) s = .next u ∧
      Done 1 (putWords o.d.toNat (fun i => (byte i 3 ++ byte i 2 ++ byte i 1 ++ byte i 0).toNat) s) u)

/-- R219, R221: the float instructions complete for every float type, with the rounding and the flush of MODE; FSTAT takes the
flags that some active lane raises. -/
def Obligations.VectorFloatsRoundAndRaiseFlags : Prop :=
  (∀ e ∈ vectorFloat, ∀ (o : Op3R) (s : State) (t : Ty), elemTy s = some t → t.isFloat = true →
    vDstOk t.wide o.d = true → vSrcOk t.wide o.a = true → vSrcOk t.wide o.b = true →
    Ready 1 (vecRead t s (if e.2.1 then [o.a, o.b, o.d] else [o.a, o.b])) (vecWritten t s o.d) s →
    ∃ u, exec (e.1 o) s = .next u ∧
      Done 1 (putFloats t o.d (fun i => e.2.2 t (rmOf (modeRm s)) (modeFz s)
        (elemOf s t o.a.toNat i) (elemOf s t o.b.toNat i) (elemOf s t o.d.toNat i)) s) u) ∧
  (∀ e ∈ vectorFloatOne, ∀ (o : Op3A) (s : State) (t : Ty), elemTy s = some t → t.isFloat = true →
    vDstOk t.wide o.d = true → vSrcOk t.wide o.a = true → Ready e.2.1 (vecRead t s [o.a]) (vecWritten t s o.d) s →
    ∃ u, exec (e.1 o) s = .next u ∧
      Done e.2.1 (putFloats t o.d (fun i => e.2.2 t (rmOf (modeRm s)) (modeFz s) (elemOf s t o.a.toNat i)) s) u)

/-- R218, R220: the comparisons write a group of four predicates: less, less or equal, equal, unordered. Integers are never
unordered; a float pair with a NaN is, and only a signalling one sets NV. `vfclass` writes
the one-hot class of a float, read through the flush of MODE, and sets no flag (R222). -/
def Obligations.ComparisonsWriteFourPredicates : Prop :=
  (∀ (o : Op3R) (s : State) (t : Ty), elemTy s = some t → o.d.toNat < 16 → o.d.toNat % 4 = 0 →
    vSrcOk t.wide o.a = true → vSrcOk t.wide o.b = true → Ready 1 (vecRead t s [o.a, o.b]) [] s →
    let a i := elemOf s t o.a.toNat i
    let b i := elemOf s t o.b.toNat i
    (t.isInt = true → ∃ u, exec (.vcmp o) s = .next u ∧ Done 1 (putRelations o.d (fun i =>
      (decide (t.intVal (a i) < t.intVal (b i)), decide (t.intVal (a i) ≤ t.intVal (b i)),
        decide (t.intVal (a i) = t.intVal (b i)), false)) s) u) ∧
    (t.isFloat = true →
      let x i := readFloat t (modeFz s) (a i)
      let y i := readFloat t (modeFz s) (b i)
      let unordered i := (x i).isNan || (y i).isNan
      let relation (f : Int → Bool) i := !unordered i && f (cmpNum (x i) (y i))
      ∃ u, exec (.vfcmp o) s = .next u ∧
        Done 1 (raiseFlags (if (activeLanes s).any (fun i => signals [x i, y i]) then flagNV else 0)
          (putRelations o.d (fun i => (relation (fun c => decide (c < 0)) i, relation (fun c => decide (c ≤ 0)) i,
            relation (fun c => decide (c = 0)) i, unordered i)) s)) u)) ∧
  (∀ (o : Op3A) (s : State) (t : Ty), elemTy s = some t → t.isFloat = true → o.d.toNat < 96 → vSrcOk t.wide o.a = true →
    Ready 1 (vecRead t s [o.a]) (dstV o.d.toNat 1 (activeLanes s)) s →
    ∃ u, exec (.vfclass o) s = .next u ∧
      Done 1 (putWords o.d.toNat (fun i =>
        2 ^ floatClass t (elemOf s t o.a.toNat i) (readFloat t (modeFz s) (elemOf s t o.a.toNat i))) s) u)

/-- R223: the conversions complete for every assigned type: each active lane is converted to the class of the opcode under the
MODE field of that class, drawing its own random bits; FSTAT takes the flags.
It rests on the model's choices of log entries 84 and 117. -/
def Obligations.ConversionsNarrowToTheirClass : Prop :=
  ∀ e ∈ vectorConvert, ∀ (o : Op3A) (s : State) (t : Ty), elemTy s = some t →
    let wide := decide (e.2 = .float Ty.f64)
    vDstOk wide o.d = true → vSrcOk t.wide o.a = true →
    Ready 2 (vecRead t s [o.a]) (dstV o.d.toNat (if wide then 2 else 1) (activeLanes s)) s →
    let r i := convertElem (convEnv s e.2 i 0) t (elemOf s t o.a.toNat i) e.2
    ∃ u, exec (e.1 o) s = .next u ∧
      Done 2 (raiseFlags (flagsOf ((activeLanes s).map r))
        (setVAll ((activeLanes s).flatMap fun i => putClass e.2 o.d.toNat i (r i).val) s)) u

/-- R224, R225: `vpack` converts n registers into one lane, element j in bits [e × j + e − 1 : e × j]; `vunpk` takes them apart
again into n registers of type T.
It rests on the model's choices of log entries 84 and 117. -/
def Obligations.PackAndUnpackConvertElements : Prop :=
  ∀ k ∈ packings, ∀ (o : Op3K) (s : State) (t : Ty), o.k.toNat = k.1 → elemTy s = some t →
    let e := k.2.2.1
    let n := k.2.2.2
    (o.d.toNat < 96 → o.a.toNat + t.regs * n ≤ 96 → (t.wide = true → o.a.toNat % 2 = 0) →
      Ready 2 (vecRead { t with width := 32 } s ((List.range (t.regs * n)).map fun j => o.a + BitVec.ofNat 7 j))
        (dstV o.d.toNat 1 (activeLanes s)) s →
      let r i j := convertElem (convEnv s k.2.1 i j) t (elemOf s t (o.a.toNat + t.regs * j) i) k.2.1
      ∃ u, exec (.vpack o) s = .next u ∧
        Done 2 (raiseFlags (flagsOf ((activeLanes s).flatMap fun i => (List.range n).map (r i)))
          (putWords o.d.toNat (fun i => ((List.range n).map fun j => (r i j).val % 2 ^ e * 2 ^ (e * j)).sum) s)) u) ∧
    (o.a.toNat < 96 → o.d.toNat + t.regs * n ≤ 96 → (t.wide = true → o.d.toNat % 2 = 0) →
      Ready 2 (vecRead { t with width := 32 } s [o.a]) (dstV o.d.toNat (t.regs * n) (activeLanes s)) s →
      let r i j := unpackElem (convEnv s (classOfTy t) i j) k.2.1 (fieldBits s o.a.toNat false i / 2 ^ (e * j) % 2 ^ e) t
      ∃ u, exec (.vunpk o) s = .next u ∧
        Done 2 (raiseFlags (flagsOf ((activeLanes s).flatMap fun i => (List.range n).map (r i)))
          (setVAll ((activeLanes s).flatMap fun i => (List.range n).flatMap fun j =>
            putElem t (o.d.toNat + t.regs * j) i (r i j).val) s)) u)

/-- R226, R227: a shuffle moves the value of the lane it computes, or of the lane itself where that one is no member.
It rests on the model's choice of log entry 113: b is one 32-bit register whatever the type. -/
def Obligations.ShufflesMoveMemberLanes : Prop :=
  ∀ e ∈ vectorShuffle, ∀ (o : Op3R) (s : State) (t : Ty), elemTy s = some t →
    vDstOk t.wide o.d = true → vSrcOk t.wide o.a = true →
    let w i := segment s.g.width (fieldBits s o.b.toNat false i)
    let j i := e.2 i (i - i % w i) (w i) (fieldBits s o.b.toNat false i % 2 ^ 8)
    let source i := if s.p.members.getLsbD (j i) then j i else i
    Ready 1 (vecRead { t with width := 32 } s [o.b] ++ (activeLanes s).flatMap fun i =>
        (srcV o.a.toNat t.regs false [source i]).map fun c => c.1) (vecWritten t s o.d) s →
    ∃ u, exec (e.1 o) s = .next u ∧
      Done 1 (setVAll ((activeLanes s).flatMap fun i =>
        putElem { kind := .nat, width := if t.wide then 64 else 32, frac := 0 } o.d.toNat i
          (fieldBits s o.a.toNat t.wide (source i))) s) u

/-- R228, R229, R184: positions, counts, votes and ballots over the active lanes A and the members M. -/
def Obligations.LaneQueriesReadActiveAndMembers : Prop :=
  (∀ (o : OpDK) (s : State) (k : Nat → Nat), o.d.toNat < 96 →
    (o.k = 0 ∧ k = (fun i => i)) ∨ (o.k = 1 ∧ k = fun i => ((activeLanes s).filter fun j => decide (j < i)).length) ∨
      (o.k = 2 ∧ k = fun _ => ((List.range 64).filter fun j => s.p.exec.getLsbD j).length) ∨ (o.k = 3 ∧ k = fun _ => s.g.width) →
    Ready 1 [] (dstV o.d.toNat 1 (activeLanes s)) s →
    ∃ u, exec (.vlane o) s = .next u ∧ Done 1 (putWords o.d.toNat k s) u) ∧
  (∀ (o : OpDK) (s : State), o.d.toNat < 64 → o.k.toNat < 4 → Ready 1 [] [codeS o.d.toNat] s →
    ∃ (u : State) (v : Word), exec (.rdw o) s = .next u ∧ Done 1 (setS o.d.toNat v s) u ∧
      (o.k = 0 → v = BitVec.ofNat 64 (activeLanes s).length) ∧ (o.k = 1 → ∀ i, v.getLsbD i = (activeLanes s).contains i) ∧
      (o.k = 2 → v = BitVec.ofNat 64 ((activeLanes s).headD 64)) ∧ (o.k = 3 → v = s.p.members)) ∧
  (∀ (o : Op3K) (s : State), o.d.toNat < 16 → o.a.toNat < 16 → o.k.toNat < 3 → Ready 1 [] [] s →
    let p i := getP s o.a.toNat i
    ∃ (u : State) (r : Bool), exec (.vvote o) s = .next u ∧
      Done 1 (setPAll ((activeLanes s).map fun i => (o.d.toNat, i, r)) s) u ∧
      (o.k = 0 → (r = true ↔ ∃ i ∈ activeLanes s, p i = true)) ∧ (o.k = 1 → (r = true ↔ ∀ i ∈ activeLanes s, p i = true)) ∧
      (o.k = 2 → (r = true ↔ ∀ i ∈ activeLanes s, ∀ j ∈ activeLanes s, p i = p j))) ∧
  (∀ (o : Op3A) (s : State), o.d.toNat < 64 → o.a.toNat < 16 → Ready 1 [] [codeS o.d.toNat] s →
    ∃ (u : State) (v : Word), exec (.vballot o) s = .next u ∧ Done 1 (setS o.d.toNat v s) u ∧
      ∀ i, v.getLsbD i = ((activeLanes s).contains i && getP s o.a.toNat i))

/-- R230, R231: `vred` reduces the positions of a gang of 2^n lanes by the tree and gives every active lane the result; `vscan`
gives each active lane its prefix, inclusive or exclusive. A flag raised at any node is set. -/
def Obligations.ReductionsAndScansFoldTheTree : Prop :=
  ∀ (o : Op3K) (s : State) (t : Ty) (n : Nat), n ≤ 6 → s.g.width = 2 ^ n → elemTy s = some t → activeLanes s ≠ [] →
    vDstOk t.wide o.d = true → vSrcOk t.wide o.a = true → Ready 2 (vecRead t s [o.a]) (vecWritten t s o.d) s →
    let node op := nodeOf (reduceNode s t op)
    let limit := if t.isFloat then 3 else 6
    (o.k.toNat < limit →
      let r := halve (node o.k.toNat) n (position s t o.a.toNat o.k.toNat) 0
      ∃ u, exec (.vred o) s = .next u ∧ Done 2 (raiseFlags r.flags (putLanes t o.d (fun _ => r.val) s)) u) ∧
    (o.k.toNat < 16 → o.k.toNat % 8 < limit →
      let op := o.k.toNat % 8
      let l i := spread (node op) n 1 (position s t o.a.toNat op) i
      let v i := if o.k.toNat < 8 then (l i).val else if i = 0 then reduceIdentity t op else (l (i - 1)).val
      ∃ u, exec (.vscan o) s = .next u ∧
        Done 2 (raiseFlags (flagsOf ((List.range s.g.width).map l)) (putLanes t o.d v s)) u)

/-- R232, R233, R158: `vmaxi` gives every active lane the pair that no other comes before in the total order; `vtopk` gives the
active lane i the pair of rank i. A NaN is written quiet; no flag is set.
It rests on the model's choices of log entry 72. -/
def Obligations.RankedSelectionTakesTheGreatest : Prop :=
  ∀ (o : Op3R) (s : State) (t : Ty), elemTy s = some t → vDstOk t.wide o.d = true → vSrcOk t.wide o.a = true →
    o.d.toNat + t.regs < 96 → s.g.width ≠ 0 → (∀ i ∈ activeLanes s, i < s.g.width) →
    let read := vecRead t s [o.a] ++ vecRead { t with width := 32 } s [o.b]
    let pairs := rankedPairs s t o.a.toNat o.b.toNat
    let put (f : Nat → Ranked) := setVAll ((activeLanes s).flatMap fun i => putRanked t o.d.toNat i (f i)) s
    let written := vecWritten t s o.d ++ dstV (o.d.toNat + t.regs) 1 (activeLanes s)
    (Ready 2 read written s → ∃ u p, p ∈ pairs ∧ (∀ q ∈ pairs, better t q p = false) ∧
      exec (.vmaxi o) s = .next u ∧ Done 2 (put fun _ => p) u) ∧
    (Ready 4 read written s → ∃ (u : State) (l : List Ranked), l.Perm pairs ∧ l.Pairwise (fun p q => better t q p = false) ∧
      exec (.vtopk o) s = .next u ∧ Done 4 (put fun i => l.getD i { v := 0, x := 0 }) u)

/-! ### Memory -/

/-- R237, R122: `win.open` loads a window with the permission, the attribute and the extent that the home of its base gives, for a
base of this node; `win.close` clears VALID and keeps the other fields. The page of an absent granule reads PERM 0b110, COH
0b10 and a limit to the end of its 64 KiB.
It rests on the model's choices of log entry 21. -/
def Obligations.WindowsOpenAndClose : Prop :=
  (∀ (o : OpWa) (s : State), o.a.toNat < 64 → (getS s o.a.toNat).getLsbD 63 = false →
    (getS s o.a.toNat).toNat / 2 ^ 53 = (curPart s).node → Ready 4 [codeS o.a.toNat] [codeW o.w.toNat] s →
    let page := pageInfo s s.g.part s.g.asid (getS s o.a.toNat)
    let w : Window :=
      { base := getS s o.a.toNat, valid := true, stale := false, coh := page.coh, perm := page.perm
        limit := BitVec.ofNat 31 page.limit }
    ∃ t, exec (.winOpen o) s = .next t ∧ Done 4 (setW o.w.toNat w s) t) ∧
  (∀ (o : OpW) (s : State), Ready 4 [] [codeW o.w.toNat] s →
    ∃ t, exec (.winClose o) s = .next t ∧
      Done 4 (setW o.w.toNat { getW s o.w.toNat with valid := false } s) t) ∧
  (∀ (s : State) (part asid : Nat) (va : Word), isControl va = false → regionOf (offsetOf va) ≠ 3 →
    walk s part asid (offsetOf va) = none →
    pageInfo s part asid va =
      { perm := 0b110, coh := 0b10, limit := 65536 - offsetOf va % 65536, present := false })

/-- R239, R240, R63: a load whose addresses pass their checks sends one request per lane, or one for the split, and leaves its
destination empty until the value arrives; every register keeps its value, and no byte of memory changes.
It rests on the model's choices of log entry 26. -/
def Obligations.LoadsSendTheirRequests : Prop :=
  (∀ (o : OpM) (s : State) (n : Nat), wellFormed (.ldG o) = true → accessSize s o.sz.toNat = some n →
    sizeDstOk s o.sz.toNat o.d = true → Reaches n { rd := true, wr := false } s o.w (laneOffsets s o.a) →
    Ready 4 (vecRead (Ty.n 32) s [o.a]) (dstV o.d.toNat (regsOf n) (activeLanes s)) s →
    ∃ t, exec (.ldG o) s = .next t ∧ Retired 4 s t ∧ Unwritten s t ∧
      (∀ i ∈ activeLanes s, LoadSent n (signExtends s o.sx o.sz.toNat) s t i (address s o.w (fieldBits s o.a.toNat false i))
        (.vector o.d.toNat (regsOf n) i)) ∧
      (∀ c, c ∉ dstV o.d.toNat (regsOf n) (activeLanes s) → regState t c = regState s c) ∧ ∀ q ∈ s.reqs, q ∈ t.reqs) ∧
  (∀ (o : OpM) (s : State), wellFormed (.ldU o) = true →
    let n := if o.sz = 0 then 8 else 2 ^ (o.sz.toNat - 1)
    let off := (getS s o.a.toNat).toNat % 2 ^ 32
    Reaches n { rd := true, wr := false } s o.w [off] → Ready 4 [codeS o.a.toNat] [codeS o.d.toNat] s →
    ∃ t, exec (.ldU o) s = .next t ∧ Retired 4 s t ∧ Unwritten s t ∧
      LoadSent n o.sx s t 64 (address s o.w off) (.scalar o.d.toNat) ∧
      (∀ c, c ≠ codeS o.d.toNat → regState t c = regState s c) ∧ ∀ q ∈ s.reqs, q ∈ t.reqs)

/-- R239 to R241, R41: a store whose addresses pass their checks is held in the open region, in ascending lane order, with the
bytes of its registers, and changes no register and no byte of memory; in a handler, where no region is open, it is sent. In a
deterministic launch the log of unpublished stores must have room (R67).
It rests on the model's choices of log entry 55. -/
def Obligations.StoresAreHeldOrSent : Prop :=
  (∀ (o : OpMst) (s : State) (n : Nat), wellFormed (.stG o) = true → accessSize s o.sz.toNat = some n →
    sizeDstOk s o.sz.toNat o.d = true → Reaches n { rd := false, wr := true } s o.w (laneOffsets s o.a) →
    Ready 4 (vecRead (Ty.n 32) s [o.a] ++ dstV o.d.toNat (regsOf n) (activeLanes s)) [] s →
    let va i := address s o.w (fieldBits s o.a.toNat false i)
    let bs := (activeLanes s).map fun i => held s (.stG o) i (va i) n (.store (laneBytes s o.d n i))
    logOverflows s bs = false → NoSpill (holding bs s) →
    ∃ t, exec (.stG o) s = .next t ∧ Retired 4 s t ∧ Unwritten s t ∧
      (s.p.entry.isSome = true → Done 4 (holding bs s) t ∧ ((edges s).count = 0 → t.p.buffer = (holding bs s).p.buffer)) ∧
      (s.p.entry = none → isPriv s = true → ∀ i ∈ activeLanes s, Sent s t i (va i) (.store (laneBytes s o.d n i)))) ∧
  (∀ (o : OpMst) (s : State), wellFormed (.stU o) = true →
    let n := if o.sz = 0 then 8 else 2 ^ (o.sz.toNat - 1)
    let off := (getS s o.a.toNat).toNat % 2 ^ 32
    let data : List Byte := (List.range n).map fun k => (getS s o.d.toNat).extractLsb' (8 * k) 8
    let bs := [held s (.stU o) 64 (address s o.w off) n (.store data)]
    Reaches n { rd := false, wr := true } s o.w [off] → Ready 4 [codeS o.a.toNat, codeS o.d.toNat] [] s →
    logOverflows s bs = false → NoSpill (holding bs s) →
    ∃ t, exec (.stU o) s = .next t ∧ Retired 4 s t ∧ Unwritten s t ∧
      (s.p.entry.isSome = true → Done 4 (holding bs s) t ∧ ((edges s).count = 0 → t.p.buffer = (holding bs s).p.buffer)) ∧
      (s.p.entry = none → isPriv s = true → Sent s t 64 (address s o.w off) (.store data)))

/-- R241, R108, R41: where every active lane's tile admits it, `ld.s` gives each lane the bytes of its tile when they arrive, and
`st.s` is held in the open region; in a handler it is written at once.
It rests on the model's choices of log entries 55 and 88. -/
def Obligations.ScratchpadAccessesReachTheirTile : Prop :=
  (∀ (o : OpMs) (s : State) (n : Nat), wellFormed (.ldS o) = true → accessSize s o.sz.toNat = some n →
    sizeDstOk s o.sz.toNat o.d = true → (∀ i ∈ activeLanes s, InTile false n s (fieldBits s o.a.toNat false i)) →
    Ready 2 (vecRead (Ty.n 32) s [o.a]) (dstV o.d.toNat (regsOf n) (activeLanes s)) s →
    ∃ t, exec (.ldS o) s = .next t ∧ Retired 2 s t ∧ Unwritten s t ∧
      (∀ i ∈ activeLanes s, ∃ q ∈ t.reqs, s.nextId ≤ q.id ∧ q.lane = i ∧ q.gang = s.g.id ∧
        q.dest = .vector o.d.toNat (regsOf n) i ∧ q.sx = signExtends s o.sx o.sz.toNat ∧
        (∀ c ∈ destCodes q.dest, regState t c = .empty q.id) ∧
        ∀ tile, tileOf s (fieldBits s o.a.toNat false i / 2 ^ 16) = some tile → (∀ b ∈ s.p.buffer, b.tile = none) →
          q.phase = .done ((List.range n).map fun k => mapGet 0 tile.data (fieldBits s o.a.toNat false i % 2 ^ 16 + k))) ∧
      ∀ c, c ∉ dstV o.d.toNat (regsOf n) (activeLanes s) → regState t c = regState s c) ∧
  (∀ (o : OpMsst) (s : State) (n : Nat), wellFormed (.stS o) = true → accessSize s o.sz.toNat = some n →
    sizeDstOk s o.sz.toNat o.d = true → (∀ i ∈ activeLanes s, InTile true n s (fieldBits s o.a.toNat false i)) →
    Ready 2 (vecRead (Ty.n 32) s [o.a] ++ dstV o.d.toNat (regsOf n) (activeLanes s)) [] s →
    let x i := fieldBits s o.a.toNat false i
    let bs := (activeLanes s).map fun i => { held s (.stS o) i (BitVec.ofNat 64 (x i % 2 ^ 16)) n (.store (laneBytes s o.d n i)) with
      tile := some (x i / 2 ^ 16) }
    NoSpill (holding bs s) →
    ∃ t, exec (.stS o) s = .next t ∧ Retired 2 s t ∧ Unwritten s t ∧
      (s.p.entry.isSome = true → Done 2 (holding bs s) t ∧ ((edges s).count = 0 → t.p.buffer = (holding bs s).p.buffer)) ∧
      (s.p.entry = none → t.tiles = ((activeLanes s).foldl (fun u i => writeTile s.g.launch s.g.wg (x i / 2 ^ 16) (x i % 2 ^ 16)
        (laneBytes s o.d n i) u) s).tiles))

/-- R242, R243: `pf` changes no register and, where no line it names lies in a dead granule (whose bytes are 0 when they are
filled, R125), no byte; in a deterministic launch nothing at all. `dis` of a writable range of granules through an open
window is held in the region, one entry a granule, and changes no register and no byte; in a handler it is sent.
It rests on the model's choices of log entries 27 and 62: a prefetch fills a line at its issue or does nothing, and nothing in
a deterministic launch; a discard is sent as one access a granule. -/
def Obligations.PrefetchAndDiscardComplete : Prop :=
  (∀ (o : OpPf) (s : State), Ready 4 (vecRead (Ty.n 32) s [o.a]) [] s →
    ∃ t, exec (.pf o) s = .next t ∧ Retired 4 s t ∧ Unwritten { s with mem := t.mem } t ∧ (∀ c, regState t c = regState s c) ∧
      ((∀ i ∈ activeLanes s, ∀ l, walk s s.g.part s.g.asid (offsetOf (address s o.w (fieldBits s o.a.toNat false i))) = some l →
        Pte.dead l.entry = false) → ∀ a, memByte t.mem a = memByte s.mem a) ∧
      (detNow s = true → Done 4 s t)) ∧
  (∀ (o : OpDis) (s : State), wellFormed (.dis o) = true →
    let w := getW s o.w.toNat
    let off := (getS s o.a.toNat).toNat % 2 ^ 32
    let len := (getS s o.d.toNat).toNat
    let start := w.base.toNat % 2 ^ 53 + off
    let count := len / 65536
    w.valid = true → w.stale = false → w.base.getLsbD 63 = false → start < 2 ^ 53 → (len ≠ 0 → start + len ≤ 3 * 2 ^ 51) →
    start % 65536 = 0 → len % 65536 = 0 →
    (∀ k < count, if off + 65536 * k + 65536 ≤ w.limit.toNat then w.perm.getLsbD 1 = true
      else ∃ e, plbEntry s s.g.core s.g.part s.g.asid (w.base + BitVec.ofNat 64 (off + 65536 * k)) = some e ∧
        e.perm.getLsbD 1 = true) →
    Ready 4 [codeS o.a.toNat, codeS o.d.toNat] [] s →
    let va k := address s o.w (off + 65536 * k)
    let bs := (List.range count).map fun k => held s (.dis o) 64 (va k) 65536 .discard
    ∃ t, exec (.dis o) s = .next t ∧ Retired 4 s t ∧ Unwritten s t ∧
      (s.p.entry.isSome = true → Done 4 { s with p := { s.p with buffer := s.p.buffer ++ bs } } t ∧
        ((edges s).count = 0 → t.p.buffer = s.p.buffer ++ bs)) ∧
      (s.p.entry = none → isPriv s = true → ∀ k < count, Sent s t 64 (va k) .discard))

/-- R245 to R247, R42: in a free launch the local atomics send one operation per active lane to its home; the destinations are
empty until the old values arrive, and nothing else of the split changes. -/
def Obligations.AtomicsAskTheirHome : Prop :=
  ∀ (s : State),
    let both : Need := { rd := true, wr := true }
    let sent (n r : Nat) (i : Instr) (w : BitVec 3) (a d : BitVec 7) (op : Nat → AccessOp) (uses : Nat) : Prop :=
      Reaches n both s w (laneOffsets s a) →
      ReadyTurn 8 (vecRead (Ty.n 32) s [a] ++ dstV d.toNat uses (activeLanes s)) (dstV d.toNat r (activeLanes s)) s →
      ∃ u, exec i s = .next u ∧ Retired 8 s u ∧ Unwritten s u ∧
        (∀ l ∈ activeLanes s,
          Asked n 0 false s u l (address s w (fieldBits s a.toNat false l)) (op l) (.vector d.toNat r l)) ∧
        ∀ c, c ∉ dstV d.toNat r (activeLanes s) → regState u c = regState s c
    (∀ (o : OpAtom) (t : Ty), elemTy s = some t → wellFormed (.atom o) = true → atomicAllows o.n.toNat t → vDstOk t.wide o.d = true →
      sent (t.width / 8) t.regs (.atom o) o.w o.a o.d
        (fun l => .rmw o.n.toNat (modeT s) (modeRm s) (modeFz s) (laneBytes s o.d (t.width / 8) l) []) t.regs) ∧
    (∀ (o : OpMw) (t : Ty), elemTy s = some t → atomicAllows 8 t → o.d.toNat + 2 * t.regs ≤ 96 → vDstOk t.wide o.d = true →
      sent (t.width / 8) t.regs (.atomCas o) o.w o.a o.d (fun l => swapOf s o.d (t.width / 8) t.regs l false) (2 * t.regs)) ∧
    (∀ (o : OpMw), o.d.toNat % 4 = 0 → o.d.toNat ≤ 88 →
      sent 16 4 (.atomCas16 o) o.w o.a o.d (fun l => swapOf s o.d 16 4 l true) 8) ∧
    (∀ (o : OpMw) (t : Ty), elemTy s = some t → t ∈ [Ty.f16, Ty.bf16, Ty.i 16, Ty.n 16, Ty.n 64] → o.d.toNat < 96 →
      o.d.toNat % 2 = 0 →
      sent 8 2 (.atomMaxi o) o.w o.a o.d (fun l => .rmw 9 (modeT s) (modeRm s) (modeFz s)
        (if t = Ty.n 64 then laneBytes s o.d 8 l
          else leBytes 8 (packedMax t ((getV s o.d.toNat l).toNat % 2 ^ 16) (getV s (o.d.toNat + 1) l).toNat)) []) 2)

/-- R246, R41: `red` is held in the open region like a store, one reduction per active lane; a deterministic launch holds it too
while its core's retry queue has room (R74). In a handler it is sent.
It rests on the model's choices of log entry 55. -/
def Obligations.ReductionsAreHeldOrSent : Prop :=
  ∀ (o : OpAtom) (s : State) (t : Ty), elemTy s = some t → wellFormed (.red o) = true → atomicAllows o.n.toNat t →
    vDstOk t.wide o.d = true → Reaches (t.width / 8) { rd := true, wr := true } s o.w (laneOffsets s o.a) →
    (detNow s = true → (s.retry.filter fun u => u.core == s.g.core).length < Config.retryEntries) →
    Ready 8 (vecRead (Ty.n 32) s [o.a] ++ dstV o.d.toNat t.regs (activeLanes s)) [] s →
    let va i := address s o.w (fieldBits s o.a.toNat false i)
    let op i : AccessOp := .reduce o.n.toNat (modeT s) (modeRm s) (modeFz s) (laneBytes s o.d (t.width / 8) i)
    let bs := (activeLanes s).map fun i => held s (.red o) i (va i) (t.width / 8) (op i)
    NoSpill (holding bs s) →
    ∃ u, exec (.red o) s = .next u ∧ Retired 8 s u ∧ Unwritten s u ∧
      (s.p.entry.isSome = true → Done 8 (holding bs s) u ∧ ((edges s).count = 0 → u.p.buffer = (holding bs s).p.buffer)) ∧
      (s.p.entry = none → isPriv s = true → ∀ i ∈ activeLanes s, Sent s u i (va i) (op i))

/-- R248: in a free launch `acq` sends one acquire load per active lane; `rel`, once every earlier access of the split has
performed, one store.
It rests on the model's choices of log entry 31. -/
def Obligations.AcquireAndReleaseAskTheirHome : Prop :=
  ∀ (o : OpAcq) (s : State) (t : Ty), elemTy s = some t → o.d.toNat < 96 → o.scope.toNat < 7 → vDstOk t.wide o.d = true →
    let n := t.width / 8
    let va i := address s o.w (fieldBits s o.a.toNat false i)
    (Reaches n { rd := true, wr := false } s o.w (laneOffsets s o.a) →
      ReadyTurn 8 (vecRead (Ty.n 32) s [o.a]) (dstV o.d.toNat t.regs (activeLanes s)) s →
      ∃ u, exec (.acq o) s = .next u ∧ Retired 8 s u ∧ Unwritten s u ∧
        (∀ i ∈ activeLanes s, Asked n 0 true s u i (va i) .load (.vector o.d.toNat t.regs i)) ∧
        ∀ c, c ∉ dstV o.d.toNat t.regs (activeLanes s) → regState u c = regState s c) ∧
    (Reaches n { rd := false, wr := true } s o.w (laneOffsets s o.a) → accessPending (commitRegion s) 15 false = false →
      ReadyTurn 8 (vecRead (Ty.n 32) s [o.a] ++ dstV o.d.toNat t.regs (activeLanes s)) [] s →
      ∃ u, exec (.rel o) s = .next u ∧ Retired 8 s u ∧ Unwritten s u ∧
        ∀ i ∈ activeLanes s, Sent s u i (va i) (.store (laneBytes s o.d n i)))

/-! ### Peers (R254 to R256) -/

/-- R254 to R256, R143, R129: in whatever launch, a load of a class from peers that are reachable: the node's own memory by an
access of the class, a line of which the node keeps a copy from the copy, any other line by a request that names its
lanes. In a free launch a store to them is held in the open region, and sent in a handler. `peer.cap` asks every other
reachable node of its lanes; the node's own word, and 0 for a node that is dead or no member, come without a request.
No register but the destinations, which are empty until the answer, and no byte of memory changes. A class O load of a line
whose node has yet to answer an earlier class O access of the gang is asked for in order, past any copy (R92).
It rests on the model's choices of log entries 20, 55, 63, 64 and 70: every node is asked at once, one request a line; a class O load
commits the class O stores of its region to the node first; a replay counts once, so that room for one a lane is enough. -/
def Obligations.RemoteAccessesAskTheirPeer : Prop :=
  (∀ (o : OpX) (s : State) (t : Ty), elemTy s = some t → wellFormed (.ldX o) = true → vDstOk t.wide o.d = true →
    FarReady s false o.cls (t.width / 8) o.peer o.a →
    Ready 8 (farRead s o.peer o.a) (dstV o.d.toNat t.regs (activeLanes s)) s →
    ∃ u, exec (.ldX o) s = .next u ∧ Retired 8 s u ∧ Unwritten s u ∧
      (∀ i ∈ activeLanes s,
        let dest : Dest := .vector o.d.toNat t.regs i
        let node := (getV s o.peer.toNat i).toNat % 1024
        let va := farVA s o.peer o.a i
        let c := if o.cls = 1 ∧ ∃ b ∈ s.p.buffer, b.cls = 1 ∧ ∃ j ∈ activeLanes s, laneNode s o.peer j = nodeOf b.va
          then commitRegion s else s
        (node = (curPart s).node ∨ servedCopy c o.cls { lane := i, node := node, va := va } = none →
          FarSent s u o.cls o.peer o.a (t.width / 8) i .load
            (if detNow s && (curLaunch s).dscope == 2 then .loadAt (curView s) s.p.lastTurn else .load (!(curLaunch s).det)) dest) ∧
        ∀ x, node ≠ (curPart s).node → servedCopy c o.cls { lane := i, node := node, va := va } = some x →
          ∃ q ∈ u.reqs, s.nextId ≤ q.id ∧ q.lane = i ∧ q.va = va ∧ q.dest = dest ∧ q.gang = s.g.id ∧
            q.phase = .done ((x.data.drop (offsetOf va % 128)).take (t.width / 8)) ∧ ∀ c ∈ destCodes dest, regState u c = .empty q.id) ∧
      ∀ c, c ∉ dstV o.d.toNat t.regs (activeLanes s) → regState u c = regState s c) ∧
  (∀ (o : OpX) (s : State) (t : Ty), elemTy s = some t → wellFormed (.stX o) = true → vDstOk t.wide o.d = true →
    FarReady s true o.cls (t.width / 8) o.peer o.a → detNow s = false → NoRotation s →
    Ready 8 (farRead s o.peer o.a ++ dstV o.d.toNat t.regs (activeLanes s)) [] s →
    ∃ u, exec (.stX o) s = .next u ∧ Retired 8 s u ∧ Unwritten s u ∧
      (s.p.entry.isSome = true → ∃ bs, Done 8 (holding bs s) u ∧ ((edges s).count = 0 → u.p.buffer = (holding bs s).p.buffer) ∧ bs.length = (activeLanes s).length ∧
        ∀ i ∈ activeLanes s,
          { held s (.stX o) i (farVA s o.peer o.a i) (t.width / 8) (.store (laneBytes s o.d (t.width / 8) i)) with cls := o.cls } ∈ bs) ∧
      (s.p.entry = none → ∀ i ∈ activeLanes s,
        let node := (getV s o.peer.toNat i).toNat % 1024
        let data := laneBytes s o.d (t.width / 8) i
        if node = (curPart s).node ∨ o.cls = 0 then Sent s u i (farVA s o.peer o.a i) (.store data)
        else ∃ r ∈ u.remotes, s.nextId ≤ r.id ∧ r.node = node ∧ r.cls = o.cls ∧ r.gang = s.g.id ∧
          (i, farVA s o.peer o.a i, .store data) ∈ r.ops ∧ r.rest.getLsbD i = true)) ∧
  (∀ (o : OpPeer) (s : State), wellFormed (.peerCap o) = true → earlierPending s false = false →
    outstanding s s.g.core + (activeLanes s).length ≤ Config.remoteOutstanding →
    Ready 8 (dstV o.peer.toNat 1 (activeLanes s)) (dstV o.d.toNat 2 (activeLanes s)) s →
    ∃ u, exec (.peerCap o) s = .next u ∧ Retired 8 s u ∧ Unwritten s u ∧
      (∀ i ∈ activeLanes s,
        let dest : Dest := .vector o.d.toNat 2 i
        let node := (getV s o.peer.toNat i).toNat % 1024
        let word : Word := if node = (curPart s).node then Config.capWord (preciseDir s s.g.part) else 0
        if node = (curPart s).node ∨ unreachable s node = true then
          ∃ q ∈ u.reqs, s.nextId ≤ q.id ∧ q.lane = i ∧ q.dest = dest ∧ q.gang = s.g.id ∧ q.phase = .done (leBytes 8 word.toNat) ∧
            ∀ c ∈ destCodes dest, regState u c = .empty q.id
        else ∃ r ∈ u.remotes, s.nextId ≤ r.id ∧ r.node = node ∧ r.gang = s.g.id ∧ (i, 0, FabricOp.cap) ∈ r.ops ∧ (i, dest) ∈ r.dest ∧
          r.rest.getLsbD i = true ∧ ∀ c ∈ destCodes dest, regState u c = .empty r.id) ∧
      ∀ c, c ∉ dstV o.d.toNat 2 (activeLanes s) → regState u c = regState s c)

/-- R144, R255: in a free launch `atom.x` and `red.x` begin with the lanes of their lowest node and wait for its answers; with no
failure and no node left they complete.
It rests on the model's choices of log entries 20 and 63. -/
def Obligations.RemoteAtomicsAskTheLowestNode : Prop :=
  ∀ e ∈ remoteAtomics, ∀ (o : OpXn) (s : State) (op : AtomOp),
    wellFormed (e.1 o) = true → farAtom s o e.2 = some op →
    ((∀ id, s.p.wait ≠ .remote id) → s.p.redo = none → activeLanes s ≠ [] → FarReady s true o.cls op.size o.peer o.a →
      ReadyTurn 8 (farRead s o.peer o.a ++ dstV o.d.toNat op.uses (activeLanes s))
        (if e.2 then dstV o.d.toNat op.regs (activeLanes s) else []) s →
      ∃ u id, exec (e.1 o) s = .next u ∧ u.p.wait = .remote id ∧ s.nextId ≤ id ∧ u.p.pc = s.p.pc ∧ Unwritten s u ∧
        ∃ node, (∀ i ∈ activeLanes s, node ≤ laneNode s o.peer i) ∧ (∃ i ∈ activeLanes s, laneNode s o.peer i = node) ∧
          (∀ i ∈ activeLanes s, laneNode s o.peer i = node → if node = (curPart s).node
            then ∃ q ∈ u.reqs, id ≤ q.id ∧ q.lane = i ∧ q.va = farVA s o.peer o.a i ∧ q.cls = o.cls
            else ∃ r ∈ u.remotes, id ≤ r.id ∧ r.node = node ∧ r.cls = o.cls ∧ r.rest.getLsbD i = true)) ∧
    (∀ id, s.p.wait = .remote id → s.p.redo = some 0 → farPending s id = false →
      (∀ r ∈ s.remotes, farDone s id r = true → r.fault = none) → detNow s = false → NoRotation s → NoSpill s → s.p.buffer = [] →
      ∃ u, exec (e.1 o) s = .next u ∧ Done 8 { s with
        p := { s.p with redo := none, wait := .none }
        remotes := s.remotes.filter fun r => !farDone s id r } u)

/-! ### Waiting, barriers and logical time (R249 to R253) -/

/-- R249, R250, R91: a fence whose accesses have performed and a count that has fallen complete. A release or full fence that
selects class local, or the class of a store to a peer that the region holds, and a count of stores or remote accesses, commit
the region first; an acquire or full fence at cluster scope or wider leaves no self-invalidating copy in the L1 of its core in
a free launch (R89). A count of stores that falls to 0 orders the stores of releases, discards and aperture stores as well. A
held fault of a store that is counted is taken instead (R404).
It rests on the model's choices of log entries 25, 29, 31. -/
def Obligations.FencesAndCountsWaitThenComplete : Prop :=
  (∀ (o : OpF) (s : State), 1 ≤ o.kind.toNat → o.kind.toNat ≤ 3 → o.scope.toNat < 7 →
    let far := s.p.buffer.any fun b => decide (b.cls ≠ 0) && o.mask.getLsbD b.cls.toNat
    let commits := decide (o.kind ≠ 1) && (o.mask.getLsbD 0 || far)
    let c := if commits then commitRegion s else s
    accessPending c o.mask (decide (o.kind = 1)) = false → Ready 4 [] [] s →
    ∃ t, exec (.fence o) s = .next t ∧ Retired 4 s t ∧ Unwritten s t ∧ (∀ r, regState t r = regState s r) ∧
      (commits = true → t.p.buffer = []) ∧
      (o.kind ≠ 2 → 2 ≤ o.scope.toNat → detNow s = false →
        ∀ x ∈ t.l1, ¬ (x.core = s.g.core ∧ x.coh = 0 ∧ x.startKey = none))) ∧
  (∀ (o : OpWait) (s : State),
    let c := if o.k.toNat < 2 then commitRegion s else s
    countOf c o.k.toNat ≤ o.n.toNat → (o.k = 0 → o.n = 0 → writesPending c = false) →
    (o.k.toNat < 2 → countFault s o.k.toNat = none) → (o.k.toNat = 3 → deliverable s .engines = none) → Ready 4 [] [] s →
    ∃ t, exec (.waitCnt o) s = .next t ∧ Done 4 s t ∧
      (o.k.toNat < 2 → t.besides = (commitRegion s).besides ∧ t.p.buffer = []))

/-- R251, R51: a split whose class-local accesses have performed arrives at a barrier: its region commits, its count of the kind
rises at that moment, and it waits with no region open; nothing else of it changes. `bar.c` asks for a launch of cluster groups, `bar.g` for one whose units are all live
at once. BARRIER_COMPLETE sends the waiting splits on once what they did before has performed (R93), at the greatest clock plus 4:
here the one split of the one gang of a workgroup.
It rests on the model's choices of log entries 20, 30, 38. -/
def Obligations.BarriersArriveAndComplete : Prop :=
  (∀ e ∈ barriers, ∀ s : State, isPriv s = false → s.p.arrivals.length = 3 → NoRotation s → e.2.2 (curLaunch s) →
    (detNow s = true → e.2.1 ≠ .launch) →
    (detNow s = false → deliverable s .irrevocable = none ∧ deliverable s .turn = none) → NoSpill s →
    (∀ q ∈ (commitRegion s).reqs, q.gang = s.g.id → q.lanes &&& s.p.members ≠ 0 → q.cls = 0 →
      q.settled = true ∨ ((curLaunch s).det = true ∧ q.aperture = false)) →
    ∃ t, exec e.1 s = .next t ∧ Unwritten s t ∧ t.p.pc = s.p.pc ∧ t.p.clock = s.p.clock ∧ t.p.entry = none ∧ t.p.buffer = [] ∧
      t.p.wait = .barrier e.2.1 (t.p.arrivals.getD (barrierNumber e.2.1) 0) ∧
      t.p.arrivals.getD (barrierNumber e.2.1) 0 = s.p.arrivals.getD (barrierNumber e.2.1) 0 + 1 ∧
      ∀ k, k ≠ barrierNumber e.2.1 → t.p.arrivals.getD k 0 = s.p.arrivals.getD k 0) ∧
  (∀ (s : State) (j : Nat),
    let b : BarrierRef := { kind := .wg, launch := s.g.launch, unit := s.g.unit, wg := s.g.wg }
    isPriv s = false → s.p.wait = .barrier .wg j → s.p.buffer = [] → participants s b = [(s.g, s.p)] → s.arg = .barrier b →
    (∀ q ∈ s.reqs, q.gang = s.g.id → q.lanes &&& s.p.members ≠ 0 → q.cls = 0 →
      q.settled = true ∨ ((curLaunch s).det = true ∧ q.aperture = false)) →
    s.p.clock.toNat + 4 + (edges s).count < 2 ^ 64 → NoRotation s → NoSpill s →
    ∃ t, exec .barrierComplete s = .next t ∧ Done 4 { s with p := { s.p with wait := .none } } t)

/-- R253: `turn` in a free launch does nothing; `cjmp` and `cjmpto` add their weights; `rdclk` and `rdq` read the clock and its
quantum, with Q = 4,096 in a free launch. R61: a turn of a deterministic launch presents its key and waits, with every register and
byte as it was; TURN_ADMIT lets it perform when the floor has reached the key and no held fault is to be delivered at it, and the
last turn key becomes that key.
It rests on the model's choices of log entries 9, 13, 20 and 96: other paths run on its slices while a turn waits; here it has kept
them. -/
def Obligations.ClocksAdvanceAndTurnsWait : Prop :=
  (∀ s : State, ReadyTurn 8 [] [] s → ∃ t, exec .turn s = .next t ∧ Done 8 s t) ∧
  (∀ (o : OpN9) (s : State), Ready o.n.toNat [] [] s → ∃ t, exec (.cjmpImm o) s = .next t ∧ Done o.n.toNat s t) ∧
  (∀ (o : OpS6) (s : State), Ready (getS s o.s.toNat).toNat [codeS o.s.toNat] [] s →
    ∃ t, exec (.cjmpReg o) s = .next t ∧ Done (getS s o.s.toNat).toNat s t) ∧
  (∀ (o : OpS6) (s : State),
    let w := max (s.p.clock.toNat + 1) (getS s o.s.toNat).toNat - s.p.clock.toNat
    Ready w [codeS o.s.toNat] [] s → ∃ t, exec (.cjmpto o) s = .next t ∧ Done w s t) ∧
  (∀ (o : OpS6) (s : State), Ready 1 [] [codeS o.s.toNat] s →
    (∃ t, exec (.rdclk o) s = .next t ∧ Done 1 (setS o.s.toNat s.p.clock s) t) ∧
    ∃ t, exec (.rdq o) s = .next t ∧
      Done 1 (setS o.s.toNat (s.p.clock / BitVec.ofNat 64 (2 ^ (if (curLaunch s).det then (curLaunch s).qexp else 12))) s) t) ∧
  (∀ s : State, detNow s = true → deliverable s .turn = none → NoSpill s → overflows (fullWeight 8 s) s = false →
    ∃ t, exec .turn s = .next t ∧ t.p.wait = .turn (curKey s) .turn ∧ t.p.pc = s.p.pc ∧ t.p.clock = s.p.clock ∧ Unwritten s t) ∧
  (∀ s : State, detNow s = true → s.p.wait = .turn (curKey s) .turn → s.p.buffer = [] →
    pathOf s s.g.id (lowest s.p.members) = some (s.g, s.p) → s.arg = .num2 s.g.id (lowest s.p.members) →
    s.g.resident = true → s.g.trapped = false → (curLaunch s).floor = curKey s → deliverable s .turn = none → s.p.away = 0 → s.p.parted = 0 →
    (∀ c ∈ s.cmds, c.launch = s.g.launch → c.phase ≠ .finished → c.writeKey ≠ curKey s) → NoRotation s → NoSpill s →
    ∃ t, exec .turnAdmit s = .next t ∧ Done 8 { s with p := { s.p with lastTurn := some (curKey s), wait := .none } } t)

/-! ### Tiles (R261) -/

/-- R261, R107, R108, R110: in a free launch `tile.own`, `tile.seal` and `tile.free` make the transition of their row, stores of open
regions to the tile going before it (R94); `tile.q` reads the entry of a tile, in a deterministic launch as the keys below the
split's leave it.
It rests on the model's choices of log entries 80 and 88. -/
def Obligations.TileTransitionsTakeTheirRow : Prop :=
  (∀ e ∈ tileMoves, ∀ (o : OpH) (s : State) (x : Tile), o.h.toNat < 64 → o.h.toNat < (curLaunch s).tiles.length →
    tileOf s o.h.toNat = some x → e.2.1 s.g.num x.state → (x.state = .priv s.g.num ∨ blockedAt s o.h.toNat = false) →
    isPriv s = false → ReadyTurn 8 [] [] s →
    let c := commitRegion s
    let moves := (e.2.2 s.g.num x).state ≠ x.state
    ∃ t, exec (e.1 o) s = .next t ∧
      Done 8 (mapTile s.g.launch s.g.wg o.h.toNat (e.2.2 s.g.num) (if moves then landTile s.g.id o.h.toNat c else c)) t) ∧
  (∀ (o : OpHD) (s : State) (x : Tile), o.h.toNat < 64 → o.h.toNat < (curLaunch s).tiles.length → tileOf s o.h.toNat = some x →
    (detNow s = true → keyLe (curKey s) (wgFloor s (curLaunch s) s.g.wg) = true) → Ready 4 [] [codeS o.d.toNat] s →
    ∃ t, exec (.tileQ o) s = .next t ∧ Done 4 (setS o.d.toNat (tileWord x (if detNow s then x.stateAt (curKey s) else x.state)) s) t)

/-! ### Engines (R260 to R274) -/

/-- R263, R260: an engine command whose checks pass enters the dependency table with its operands, the MODE of its split and its
keys, counted on its counter; its weight is 8, and 8 plus its K steps for `mloop`. A `.r` variant does so in a free launch
as a turn (R60); the split goes on, and the command leaves the table once the release that it made has performed (R95, R263). No
register of the split changes.
It rests on the model's choices of log entries 58, 78 and 91. -/
def Obligations.EngineCommandsEnterTheTable : Prop :=
  ∀ (i : Instr) (s : State) (rs : List Nat) (o : Order), engineForm s i = some (rs, o) → wellFormed i = true →
    isPriv s = false → orderCheck o s = .ok → (o.op = .coll → collRead (commitRegion s) o.desc ≠ .void) →
    (if o.rel then ReadyTurn (engineWeight o) (rs.map codeS) [] s
      else ReadyAlone (engineWeight o) (rs.map codeS) [] s) →
    ∃ t c, exec i s = .next t ∧ Ordered s o c ∧ Done (engineWeight o) { commitRegion s with
      cmds := (commitRegion s).cmds ++ [c]
      nextId := (commitRegion s).nextId + 1
      p := { (commitRegion s).p with lastCmd := if detNow s then some (curKey s) else s.p.lastCmd } } t

/-- R265, R266: `ewait` completes once its counter has fallen to n: in a deterministic launch the last turn key takes in the
greatest write key of the commands it joins (R78), in a free one no self-invalidating copy is left in the L1 of the core
(R95). `epoll` reads the counter, in a deterministic launch, once the floor has reached the view, the commands whose write key
is not below it.
It rests on the model's choices of log entry 34. -/
def Obligations.EngineWaitsJoinTheirCommands : Prop :=
  (∀ (o : OpEw) (s : State), isPriv s = false → deliverable s (.counter o.k.toNat) = none → s.p.wait = .none →
    counterOf s s.g.id o.k.toNat ≤ o.n.toNat → Ready 4 [] [] s →
    ∃ t, exec (.ewait o) s = .next t ∧ Retired 4 s t ∧ Unwritten s t ∧ (∀ r, regState t r = regState s r) ∧
      (detNow s = false → t.p.lastTurn = s.p.lastTurn ∧ ∀ x ∈ t.l1, ¬ (x.core = s.g.core ∧ x.coh = 0 ∧ x.startKey = none)) ∧
      (detNow s = true → t.p.lastTurn = optKeyMax s.p.lastTurn (latestKey (joined s o.k.toNat o.n.toNat s.nextId)))) ∧
  (∀ (o : OpE) (s : State), deliverable s (.counter o.k.toNat) = none →
    (detNow s = true → keyLe (curView s) (curLaunch s).floor = true) → Ready 1 [] [codeS o.d.toNat] s →
    let n := if detNow s then (s.cmds.filter fun c =>
        decide (c.gang = s.g.id ∧ c.counter = o.k.toNat) && !keyLt c.writeKey (curView s)).length
      else counterOf s s.g.id o.k.toNat
    ∃ t, exec (.epoll o) s = .next t ∧ Done 1 (setS o.d.toNat (BitVec.ofNat 64 n) s) t)

/-! ### Tasks, traps and system instructions (R276 to R284, R334 to R350) -/

/-- R278: `task.sig` and `task.post` to a control block of this node, on a page with TASK, send their addition to its home and
wait; when it has performed within the range of PRED they complete. `task.done` completes once: it releases the successors,
whose list it can read (R149), and sets EARLY; a later one has no effect.
It rests on the model's choices of log entries 20, 35, 67, 72, 85. -/
def Obligations.TaskInstructionsSignalAndFinish : Prop :=
  (∀ e ∈ [(Instr.taskSig, false), (Instr.taskPost, true)], ∀ (o : OpSN) (s : State), o.n ≠ 0 →
    ((∀ id, s.p.wait ≠ .answer id) → taskAddressOk s (getS s o.s.toNat) = true → gateGroup s = .ok →
      releasePending (commitRegion s) = false → ReadyAlone 8 [codeS o.s.toNat] [] s →
      ∃ t, exec (e.1 o) s = .next t ∧ t.p.wait = .answer (commitRegion s).nextId ∧ t.p.pc = s.p.pc ∧ Unwritten s t ∧
        ∃ q ∈ t.reqs, q.id = (commitRegion s).nextId ∧ q.va = getS s o.s.toNat ∧ q.size = 4 ∧ q.op = .count e.2 o.n.toNat) ∧
    (∀ id q old, s.p.wait = .answer id → reqOf s id = some q → q.phase = .done old →
      (if e.2 then leNat old + o.n.toNat < 2 ^ 32 else o.n.toNat ≤ leNat old) → s.p.buffer = [] → NoRotation s → NoSpill s →
      ∃ t, exec (e.1 o) s = .next t ∧ Done 8 { s with reqs := s.reqs.filter fun x => x.id != id } t)) ∧
  (∀ s : State, isPriv s = false → gateGroup s = .ok → releasePending (commitRegion s) = false →
    ((curLaunch s).early = false →
      unreadable s s.g.part s.g.asid (offsetOf (curLaunch s).succp) (8 * (curLaunch s).nsucc) = false) → ReadyAlone 8 [] [] s →
    ((curLaunch s).early = true → ∃ t, exec .taskDone s = .next t ∧ Done 8 s t) ∧
    ((curLaunch s).early = false → successorsOf s (curLaunch s) = [] →
      ∃ t, exec .taskDone s = .next t ∧
        Done 8 (mapLaunch (curLaunch s).id (fun l => { l with early := true }) (commitRegion s)) t) ∧
    ((curLaunch s).early = false → ∃ t, exec .taskDone s = .next t ∧ Retired 8 s t ∧
      ∀ l ∈ t.launches, l.id = (curLaunch s).id → l.early = true))

/-- R336, R344, R280: a trap enters the handler: the region commits, the record is written, CAUSE, EPC, FREC and STATUS name it,
MODE is 0, EXEC the membership, the pc the handler's. `brk`, a word that is no instruction and a privileged instruction
outside a handler name themselves; `trap` retires first and names the next instruction. R347, R339: without a handler a trap ends
the launch with STATUS 3 and its cause; in a handler, whatever it is, with the double-trap cause 0xE1.
It rests on the model's choices of log entries 9, 58, 72, 96 and 103: the split has every slice of its lanes in its handler, and takes
back those that it had lent; the region of a word with a set reserved field opens for the destination of a 32-bit type. -/
def Obligations.TrapsEnterTheHandlerOrEnd : Prop :=
  (∀ (s m : State), isPriv s = false → HasHandler s → deliverable s .irrevocable = none →
    (∀ w n a b c, ∀ e ∈ trapping w n a b c, overflows (fullWeight 0 s) s = false →
      Recorded (faultRecord 0 e.2.1 0 0 0 e.2.2.1 e.2.2.2 s) s m →
      exec e.1 s = .next (handlerEntered 0 e.2.1 0 s.p.pc m)) ∧
    (∀ w, (∀ x, reservedPoint w s = some x → deliverable s x = none) → deliverable s .opening = none →
      (turnOp s (w.toNat / 2 ^ 23) = true → deliverable s .turn = none) →
      let cause : BitVec 8 := if w.toNat / 2 ^ 23 ∈ privOps then 0x02 else 0x03
      let u := reservedEntered w s
      Recorded (faultRecord 0 cause 0 0 0 0 w u) u m → exec (.reservedEncoding w) s = .next (handlerEntered 0 cause 0 s.p.pc m)) ∧
    (∀ o : OpN9, Ready 4 [] [] s →
      let u := retired (addClock 4 (commitRegion s))
      Recorded (faultRecord 0 0x08 0 0 0 o.n.toNat ((encode (.trap o)).getD 0) s) u m →
      exec (.trap o) s = .next (handlerEntered 0 0x08 0 (s.p.pc + 4) m) ∧ m.p.clock = s.p.clock + 4)) ∧
  (∀ (s : State) (w : BitVec 32) (n : OpN9), overflows (fullWeight 0 s) s = false → deliverable s .irrevocable = none →
    ∀ e ∈ [(Instr.illegalInstruction w, (0x01 : BitVec 8)), (.brk n, 0x09)],
      ((curPart s).tvec = 0 → isPriv s = false → ∃ t, exec e.1 s = .next t ∧ ∀ l ∈ t.launches, l.id = s.g.launch →
        l.phase = .retired ∧ l.ended = some (e.2, 3) ∧ l.units = []) ∧
      (isPriv s = true → ∃ t, exec e.1 s = .next t ∧ ∀ l ∈ t.launches, l.id = s.g.launch →
        l.phase = .retired ∧ l.ended = some (0xE1, 3) ∧ l.units = []))

/-- R338: `rte` restores MODE, EXEC and s58 to s63 from the record, once its home serves it (R149) and no store of the gang to it is still
on its way, leaves the handler and goes to EPC, where a region opens; here for a trap that reissues no access.
It rests on the model's choices of log entries 20, 97, 114 and 115. -/
def Obligations.ReturnFromTrapRestoresTheRecord : Prop :=
  ∀ (s : State) (bytes : List Byte), isPriv s = true → s.p.epc.toNat % 4 = 0 → s.p.buffer = [] → s.p.members ≠ 0 →
    (s.p.status.toNat / 2 ^ 9 % 8 = 0 ∨ s.p.status.toNat / 2 ^ 9 % 8 = 2 ∨ s.p.status.toNat / 2 ^ 9 % 8 = 3 ∨ s.p.epc ≠ s.p.entryEpc) →
    recordPending s = false → unreadable s s.g.part s.g.asid (offsetOf s.p.frec) 128 = false →
    devRead s s.g.part s.g.asid (offsetOf (s.p.frec + 64)) 64 = .ok bytes → Ready 4 [] [] s →
    let word j : Word := BitVec.ofNat 64 (leNat ((bytes.drop (8 * j)).take 8))
    ∃ t, exec .rte s = .next t ∧ t.p.pc = s.p.epc ∧ t.p.status = 0 ∧ t.p.mode = word 0 &&& 0x1FFFFFFFFFFFF ∧
      t.p.exec = word 1 &&& s.p.members ∧ (∀ n, getS t n = if 58 ≤ n ∧ n < 64 then word (n - 56) else getS s n) ∧
      t.p.clock = s.p.clock ∧ t.p.members = s.p.members ∧ t.p.rstack = s.p.rstack ∧ t.p.wins = s.p.wins ∧ t.p.fstat = s.p.fstat ∧
      t.g.vregs = s.g.vregs ∧ t.g.preds = s.g.preds ∧ t.g.trapped = false ∧ t.p.wait = .none ∧
      (∃ e, t.p.entry = some e ∧ e.pc = s.p.epc) ∧ ∀ a, memByte t.mem a = memByte s.mem a

/-- R284, R119 to R124, R372: the operations of `hc.op` whose conditions hold: status 0 in the first register; READ and ENTRY on
the entry that the tables give, ROOT and FRAME on their registers, MIGRATE on the granules its HC homes (it sets LOCK and waits
while the HC copies, then writes the new ADDR and clears LOCK), REPLAY and DROP on held stores that no access waits for, UNHOLD
on the leaf. An address without tables gives status 1.
It rests on the model's choices of log entries 36, 37, 54, 82 and 100: the ADDR of a table pointer is not checked. -/
def Obligations.PageTableOperationsComplete : Prop :=
  ∀ (o : OpS6) (s : State), isPriv s = true → o.s.toNat + 2 < 64 →
    ReadyAlone 4 [codeS o.s.toNat, codeS (o.s.toNat + 1), codeS (o.s.toNat + 2)] [codeS o.s.toNat] s →
    let c := commitRegion s
    let part := s.g.part
    let x := getS s o.s.toNat
    let y := getS s (o.s.toNat + 1)
    let z := getS s (o.s.toNat + 2)
    let off := offsetOf x
    let asid := y.toNat % 4096
    let level := y.toNat / 2 ^ 16 % 8
    let completes (i : Instr) (status : Nat) (u : State) : Prop :=
      ∃ t, exec i s = .next t ∧ Done 4 (setS o.s.toNat (BitVec.ofNat 64 status) u) t
    (y &&& 0xFFFFFFFFFFF8F000 = 0 → poolIndex c part off = none →
      (entryAt c part asid off level = none → completes (.hcOpRead o) 1 c ∧
        ((Pte.v z.toNat = true → Pte.leaf z.toNat = true → inPool (curPart s) (Pte.addr z.toNat) = false) →
          completes (.hcOpEntry o) 1 c)) ∧
      (∀ pa, entryAt c part asid off level = some pa →
        (∃ t, exec (.hcOpRead o) s = .next t ∧
          Done 4 (setS (o.s.toNat + 2) (BitVec.ofNat 64 (memWord s.mem pa)) (setS o.s.toNat 0 c)) t) ∧
        (pa < 2 ^ 39 → Pte.v (memWord s.mem pa) = false →
          (Pte.v z.toNat = false ∨ (Pte.leaf z.toNat = false ∧ entryValid (homeHc off) level z.toNat = true)) →
          completes (.hcOpEntry o) 0
            { c with mem := memWrite c.mem pa (leBytes 8 z.toNat), badEntries := c.badEntries.filter (· != pa) }))) ∧
    (x &&& 0xFFFFFFFFFFFFFFE0 = 0 → ownHc (curPart s) x.toNat = true → ownFrame (curPart s) z.toNat = true →
      z.toNat / 2 ^ 34 % 32 = x.toNat →
      completes (.hcOpRoot o) 0 { c with roots := mapSet noRoot c.roots (x.toNat * 8 + part) z.toNat }) ∧
    (y &&& 0xFFFFFFFFFFFFF000 = 0 →
      (x.toNat % 65536 = 0 → ownFrame (curPart s) x.toNat = true → namesPool c part (offsetOf z) x.toNat = false →
        completes (.hcOpFrame o) 0 { c with
          frames := mapSet noFrame c.frames (x.toNat / 65536) (part, tagAsid asid (offsetOf z), offsetOf z / 65536) }) ∧
      (∀ l, poolIndex c part off = none → tableWalk c part asid off = some l →
        let base := off / 2 ^ l.pageBits * 2 ^ l.pageBits
        let old := Pte.addr l.entry
        (s.p.wait ≠ .migration → Pte.lock l.entry = false → Pte.pin l.entry = false →
          inPool (curPart s) z.toNat = false → inPool (curPart s) old = false → z.toNat % 2 ^ l.pageBits = 0 →
          ownFrame (curPart s) z.toNat = true → recordsMatch c part asid base l.pageBits z.toNat (homeHc off) = true →
          ∃ t, exec (.hcOpMigrate o) s = .next t ∧ t.p.wait = .migration ∧ t.p.pc = s.p.pc ∧ t.p.sregs = s.p.sregs ∧
            t.p.clock = s.p.clock ∧ t.g.vregs = s.g.vregs ∧ t.mem = (writePte l.entryPa (Pte.setBit l.entry 56 true) c).mem) ∧
        (s.p.wait = .migration →
          completes (.hcOpMigrate o) 0 (writePte l.entryPa (Pte.setBit (l.entry - old + z.toNat) 56 false)
            ((homedGranules (homeHc off) base l.pageBits).foldl (fun u k => moveGranule (old + k) (z.toNat + k) u) c)))) ∧
      (∀ l, walk c part asid off = some l → Pte.lock l.entry = false →
        (∀ b ∈ c.badLines, b * 128 < l.pa - off % 2 ^ l.pageBits ∨ l.pa - off % 2 ^ l.pageBits + 2 ^ l.pageBits ≤ b * 128) →
        completes (.hcOpUnhold o) 0 (writePte l.entryPa (Pte.setBit l.entry 57 false) c)) ∧
      (∀ es, es = lateOf c part asid off →
        (∀ e ∈ es, e.brim = none ∧ e.reqId = none ∧ e.key = none ∧ e.node = none ∧ e.gang = none ∧ e.recorded = true ∧
          regionOf (offsetOf e.va) ≠ 3 ∧ ∃ d, e.op = .store d) →
        (firstRefusal c es = none → (∀ e ∈ es, ∀ l, walk c part asid (offsetOf e.va) = some l → Pte.lock l.entry = false) →
          (∀ e ∈ es, unreadable c e.part e.asid (offsetOf e.va) e.size = false) → completes (.hcOpReplay o) 0 (es.foldl (fun u e => performEntry e { u with late := u.late.filter fun x => x.id != e.id }) c)) ∧
        (poolIndex c part off = none → (c.late.map fun e => e.id).Nodup →
          completes (.hcOpDrop o) 0 { c with late := c.late.filter fun e => !(es.map fun x => x.id).contains e.id })))

/-! ### Accesses on their way and at their homes (R102, R111, R123, R128 to R133, R364, R365, R385, R386) -/

/-- R102, R111, R123, R365: a result fills its registers, a refusal leaves them faulted with the values they held, an
acknowledged write ends, and a PLB entry comes with what its home says of the granule. -/
def Obligations.AnswersFillTheirDestinations : Prop :=
  (∀ (s : State) (q : Req), s.arg = .num q.id → reqOf s q.id = some q → q.gang = s.g.id →
    (∀ data, q.phase = .done data → fits data.length q.dest → (∀ c ∈ destCodes q.dest, regState s c = .empty q.id) →
      ∃ t, exec .loadResultArrive s = .next t ∧ Answered .full (destCodes q.dest) s t ∧
        t.reqs = s.reqs.filter (fun x => x.id != q.id) ∧ (∀ r, q.dest = .scalar r → getS t r = answerWord 64 q.sx data 0) ∧
        ∀ d n l, q.dest = .vector d n l → ∀ j < n, getV t (d + j) l = answerWord 32 q.sx data j) ∧
    (∀ c n, q.phase = .refused c → fits n q.dest → (∀ r ∈ destCodes q.dest, regState s r = .empty q.id) →
      ∃ t, exec .loadFaultResponse s = .next t ∧ Answered (.faulted q.id) (destCodes q.dest) s t ∧ t.reqs = s.reqs ∧
        t.p.sregs = s.p.sregs ∧ t.g.vregs = s.g.vregs) ∧
    (∀ old, q.phase = .done old → q.dest = .none →
      ((∀ n ty rm fz v, q.op = .reduce n ty rm fz v → exec .storeAck s = .next { s with reqs := s.reqs.filter fun x => x.id != q.id }) ∧
       (q.op = .discard → exec .storeAck s = .next { s with reqs := s.reqs.filter fun x => x.id != q.id }) ∧
       (∀ d, q.op = .store d → ∃ t, exec .storeAck s = .next t ∧ Quiet s t ∧ t.reqs = s.reqs.filter (fun x => x.id != q.id) ∧
          ∀ c ∈ t.l1, c.core = q.core → c.ref = q.ref → ∀ i ∈ c.pending, i < q.off % 128 ∨ q.off % 128 + q.size ≤ i)))) ∧
  (∀ (s : State) (core part asid : Nat) (va : Word), s.arg = .plb core part asid va →
    (s.plb.filter fun x => x.core == core).length < 64 →
    let page := pageInfo s part asid va
    let tag := if regionOf (offsetOf va) = 2 then 4095 else asid
    ∃ t, exec .plbFetchResponse s = .next t ∧
      { core := core, part := part, asid := tag, granule := offsetOf va / 65536, perm := page.perm, coh := page.coh } ∈ t.plb ∧
      (∀ e ∈ s.plb, (e.core ≠ core ∨ e.part ≠ part ∨ e.asid ≠ tag ∨ e.granule ≠ offsetOf va / 65536) → e ∈ t.plb) ∧
      t.p = { s.p with wait := t.p.wait } ∧ t.g.vregs = s.g.vregs ∧ t.g.preds = s.g.preds ∧ t.mem = s.mem ∧
      (s.p.wait = .plb va false → s.g.core = core → s.g.part = part → s.g.asid = asid → t.p.wait = .plb va true))

/-- R129, R132, R133, R385, R386: a refused request counts its refusals up to 15 and is sent again after its back-off; an answer
fills the registers of its lanes in order, or ends a store; a fault of every lane leaves them faulted with the cause, or is
held for the gang of a store with all the lanes that failed, one of some lanes waits for the answer to the others; a silent node is
dead to its partition, and every lane fails. Here the request is of one line, so that its answer is the last of its replay.
It rests on the model's choices of log entries 33, 63, 64, 70 and 105: a publication that finds the spill area of its home exhausted fails
with the cause of R70. -/
def Obligations.RemoteAnswersCompleteOrRecord : Prop :=
  ∀ (s : State) (r : RemoteReq), OnTheWay s r →
    let lanesOfReq : List Nat := (r.dest.filter fun e => r.rest.getLsbD e.1).flatMap fun e => destCodes e.2
    let failing (i : Instr) (c : BitVec 8) (seen : State → Prop) : Prop :=
      ((∀ e ∈ r.ops, ∃ b, e.2.2 = .load b) → r.ops ≠ [] → r.dest ≠ [] → (∀ e ∈ r.dest, ∃ n, fits n e.2) →
        (∀ e ∈ r.dest, ∀ x ∈ destCodes e.2, regState s x = .empty r.id) →
        ∃ t, exec i s = .next t ∧ Answered (.faulted r.id) lanesOfReq s t ∧ t.p.sregs = s.p.sregs ∧ t.g.vregs = s.g.vregs ∧ seen t ∧
          ∃ x, remoteOf t r.id = some x ∧ x.fault = some c ∧ x.failed = r.rest ∧ x.rest = 0) ∧
      ((∀ e ∈ r.ops, ∃ d, e.2.2 = .store d) → r.ops ≠ [] → r.dest = [] → s.g.ended = false →
        ∃ t f, exec i s = .next t ∧ t.p = s.p ∧ t.g = { s.g with faults := s.g.faults ++ [f] } ∧ t.mem = s.mem ∧ seen t ∧
          f.kind = 4 ∧ f.cause = c ∧ f.lanes = r.rest ∧ f.pnode = r.node ∧ f.pc = r.pc ∧ f.serial = r.serial ∧
          remoteOf t r.id = none)
    (s.arg = .num r.id →
      (∃ t, exec .refusalReceive s = .next t ∧ Quiet s t ∧ t.outbox = s.outbox ∧
        remoteOf t r.id = some { r with refusals := min 15 (r.refusals + 1), waiting := true }) ∧
      ((∀ x ∈ s.remotes, x.gang = r.gang → x.node = r.node → x.heldBack = true → x.rest = 0) →
        failing .remoteTimeout 0x92 fun t =>
        ∀ q ∈ t.parts, q.id = r.part → (mapGet 0 q.dead (r.node / 64)).getLsbD (r.node % 64) = true)) ∧
    (∀ u w, u = { s with arg := .num r.id, remotes := [w] } → w = { r with waiting := true } →
      ∃ t, exec .refusalResend u = .next t ∧ Quiet u t ∧ t.remotes = [{ w with waiting := false }] ∧
        ∃ path, t.outbox = u.outbox ++ [.fabricRequest r.id r.node r.cls path
          { domain := (partOf s r.part).domain, node := (partOf s r.part).node, rank := (partOf s r.part).drank } r.refusals r.ops]) ∧
    (∀ (a : RemoteAnswer) (line : Bool) (d n : Nat), s.arg = .answer r.id a → (∀ e ∈ r.ops, answersValue line e.2.2) →
      (r.ops.map fun e => e.1).Nodup → (∀ e ∈ r.ops, e.1 < 64) →
      r.dest = (r.ops.map fun e => (e.1, .vector d n e.1)) → r.size ∈ [1, 2, 4, 8, 16] → n = (r.size + 3) / 4 →
      (∀ e ∈ r.dest, ∀ x ∈ destCodes e.2, regState s x = .empty r.id) →
      let brings := line && (a.coh == 1 || a.coh == 3)
      a.data.length = (if brings then 128 else r.size) * r.ops.length → (∀ e ∈ r.ops, offsetOf e.2.1 % 128 + r.size ≤ 128) →
      ∃ t, exec .remoteResponse s = .next t ∧ Answered .full (r.dest.flatMap fun e => destCodes e.2) s t ∧ r ∉ t.remotes ∧
        ∀ k i va op, r.ops[k]? = some (i, va, op) → ∀ j < n, getV t (d + j) i = answerWord 32 r.sx
          ((a.data.drop (if brings then 128 * k + offsetOf va % 128 else r.size * k)).take r.size) j) ∧
    (∀ a : RemoteAnswer, s.arg = .answer r.id a → r.dest = [] → r.ops ≠ [] → (∀ e ∈ r.ops, ∃ d, e.2.2 = .store d) →
      ∃ t, exec .remoteResponse s = .next t ∧ Quiet s t ∧ remoteOf t r.id = none) ∧
    (∀ e ∈ faultAnswers, ∀ m : BitVec 64, s.arg = .remoteFault r.id e.1 m →
      (r.rest &&& ~~~m = 0 → failing .remoteFaultResponse e.2 fun _ => True) ∧
      (r.rest &&& ~~~m ≠ 0 → ∃ t, exec .remoteFaultResponse s = .next t ∧ Quiet s t ∧
        remoteOf t r.id = some { r with fault := some e.2, failed := r.rest &&& m, rest := r.rest &&& ~~~m }))

/-- R128, R364 to R367, R63, R130, R149, R340: a load and a write at a line that its home holds perform at once, with the bytes
of the line as they are and as they become; a line in I, or one without a write grant, sends the access to its HC, which
fills the line or refuses: a load and an atomic, which needs both permissions, are refused with the cause, a store waits in the
late-fault queue. The last answer to an invalidation lets the line leave P, and its access is the first to be served.
It rests on the model's choices of log entries 15, 22, 24, 82. -/
def Obligations.HomesServeOrRefuseAccesses : Prop :=
  (∀ (s : State) (q : Req), AtHome s q → q.phase = .sent →
    (q.op = .load →
      (findLine s q.ref = none → exec .homeLocalLoad s = .next (setPhase q.id .atHc s)) ∧
      (∀ l, findLine s q.ref = some l → l.state ≠ .p → dirtyHosts s q.ref = [] → ∃ t, exec .homeLocalLoad s = .next t ∧ Quiet s t ∧
        reqOf t q.id = some { q with phase := .done (layOver q.fwd (memBytes s.mem (l.pa + q.off % 128) q.size)) })) ∧
    (opWrites q.op = true → q.op ≠ .discard →
      (findLine s q.ref = none → exec .homeLocalStore s = .next (setPhase q.id .atHc s)) ∧
      (∀ l, findLine s q.ref = some l → l.state ≠ .p → l.grant = false → exec .homeLocalStore s = .next (setPhase q.id .atHc s)) ∧
      (∀ l, findLine s q.ref = some l → l.state ≠ .p → l.grant = true → copyHolders s l q.core = ([], []) →
        Alive s q.part q.asid q.off →
        let old := memBytes s.mem (l.pa + q.off % 128) q.size
        let m := memWrite s.mem (l.pa + q.off % 128) (opBytes q.op old)
        (counts q.op = true → 4 ≤ q.off % 128 ∨ leNat (memBytes s.mem l.pa 4) = 0 ∨ leNat (memBytes m l.pa 4) ≠ 0) →
        ∃ t, exec .homeLocalStore s = .next t ∧ Quiet { s with mem := m } t ∧
          reqOf t q.id = some { q with phase := .done old } ∧ ∃ x, findLine t q.ref = some x ∧ x.state = .d ∧ x.pa = l.pa))) ∧
  (∀ (s : State) (q : Req), AtHome s q → q.phase = .atHc →
    (q.op = .load → findLine s q.ref = none →
      (∀ c, hcCheck s q.part q.asid q.off false false = .refuse c → exec .hcAccess s = .next (setPhase q.id (.refused c) s)) ∧
      (∀ l, hcCheck s q.part q.asid q.off false false = .ok l → Pte.dead l.entry = false → (∀ d ∈ s.outDirs, d.ref ≠ q.ref) →
        lineRoom s q.ref = true →
        ∃ t, exec .hcAccess s = .next t ∧ Quiet s t ∧ (findLine t q.ref).isSome = true ∧
          reqOf t q.id = some { q with
            phase := .done (layOver q.fwd (memBytes s.mem (l.pa / 128 * 128 + q.off % 128) q.size)) })) ∧
    (∀ c d, q.op = .store d → hcCheck s q.part q.asid q.off true false = .refuse c → lateRoom s (homeHc q.off) q.part = true →
      regionOf q.off ≠ 3 →
      ∃ t e, exec .hcAccess s = .next t ∧ Quiet s t ∧ t.late = s.late ++ [e] ∧ e.cause = some c ∧ e.va = q.va ∧ e.op = q.op ∧
        e.reqId = some q.id ∧ (q.gang ≠ 0 → e.gang = some q.gang) ∧ e.pc = q.pc ∧ e.serial = q.serial ∧
        reqOf t q.id = some { q with phase := .held }) ∧
    (∀ c n ty rm fz v w, q.op = .rmw n ty rm fz v w → hcAnswer s q.part q.asid q.off true true false = .refuse c →
      exec .hcAccess s = .next (setPhase q.id (.refused c) s))) ∧
  (∀ (s : State) (q : Req) (v : Key) (l : Line), s.arg = .num q.id → reqOf s q.id = some q → q.view = some v → q.aperture = false →
    q.phase = .sent → q.op = .load → viewReady s q = true → readHeld s q = false → (∀ e ∈ s.hostQueue, e.1 ≠ q.ref) →
    findLine s q.ref = some l → l.state ≠ .p → dirtyHosts s q.ref = [] → ∃ t, exec .detLoadPerform s = .next t ∧ Quiet s t ∧ reqOf t q.id = some { q with
      phase := .done (layOver q.fwd (versionBytes s q.launch q.part q.asid q.off q.size fun k => keyLt k v || decide (q.key = some k))) }) ∧
  (∀ (s : State) (l : Line) (h : CopyHolder), findLine s l.ref = some l → l.state = .p → l.acks = [h] → l.hostAcks = [] →
    s.readied = [] → s.arg = .lineHolder l.ref h → ∃ t x, exec .invalidationAck s = .next t ∧ Quiet s t ∧ findLine t l.ref = some x ∧ x.state = .d ∧
      x.acks = [] ∧ (∀ n, h = .core n → ∀ c ∈ t.l1, c.core = n → c.ref ≠ l.ref) ∧
      ∀ id q, l.resume = .num id → reqOf s id = some q → q.view = none → t.hostQueue = (l.ref, .num id) :: s.hostQueue ∧
        t.agenda = .agent (if opWrites q.op then .homeLocalStore else .homeLocalLoad) (.num id) :: s.agenda) ∧
  (∀ (s : State) (l : Line) (port : Nat) (d : List Byte), findLine s l.ref = some l → l.state = .p → l.acks = [] →
    l.hostAcks = [port] → port < 2 → d.length = 128 → s.readied = [] → s.arg = .bisnp l.ref port (some d) →
    ∃ t x, exec .bisnpResponse s = .next t ∧ Quiet { s with mem := memWrite s.mem l.pa (overlay 0 l.laid d) } t ∧
      findLine t l.ref = some x ∧ x.state = .d ∧ x.laid = []) ∧
  (∀ (s : State) (e : LateEntry) (c : BitVec 8), s.arg = .num e.id → (s.late.filter fun x => x.id == e.id) = [e] →
    e.recorded = false → e.cause = some c → e.gang = some s.g.id → s.g.ended = false → (e.serial, e.pc) ∉ s.g.told →
    (∀ x ∈ s.late, x.hc = e.hc → x.id < e.id → x.recorded = true) →
    (∀ f ∈ s.g.faults, f.kind = 2 → f.serial = e.serial → f.pc ≠ e.pc) →
    ∃ t f, exec .deferredFaultRecord s = .next t ∧ t.p = s.p ∧ t.g = { s.g with faults := s.g.faults ++ [f] } ∧ t.mem = s.mem ∧
      f.kind = 2 ∧ f.cause = c ∧ f.va = e.va ∧ f.lanes = e.lanes ∧ f.pc = e.pc ∧ f.serial = e.serial ∧ f.clock = e.clock ∧
      ∀ x ∈ t.late, x.id = e.id → x.recorded = true)

/-- R58, R66 to R73, R82, R137, R380, R409: publications and updates of a deterministic launch at their homes: in Brim and Mitten, or,
where another determinism group holds entries or updates on the line, at the base line at once, with the foreign-update bit of that
group; its floor, which never falls, and what waits for it.
It rests on the model's choices of log entries 1, 9, 10. -/
def Obligations.FloorsRiseAndReleaseWaiters : Prop :=
  (∀ (s : State) (b : Publication), s.arg = .num b.id → (s.pubs.filter fun x => x.id == b.id) = [b] →
    (b.answered = true → answerOnWay s b = false → exec .publicationAck s = .next { s with pubs := s.pubs.filter fun x => x.id != b.id }) ∧
    (b.answered = false → admits s b.part b.asid b.ref.va true = none → granuleHeld s b.part b.asid b.ref.va = false →
      (holders s b.launch b.ref = [] → ∃ t e, exec .publicationArrive s = .next t ∧ Quiet s t ∧ e ∈ t.brim ∧ e.launch = b.launch ∧
        e.ref = b.ref ∧ e.key = b.key ∧ e.data = b.data ∧ e.held = [] ∧ { b with answered := true } ∈ t.pubs) ∧
      (∀ x i v, holders s b.launch b.ref ≠ [] → b.data = [(i, v)] → i < 128 → b.ref = lineRef b.ref.part b.ref.asid b.ref.va →
        findLine s b.ref = some x → x.state ≠ .p → Alive s b.ref.part b.ref.asid (b.ref.va + i) →
        ∃ t, exec .publicationArrive s = .next t ∧ Quiet { s with mem := memWrite s.mem (x.pa + i) [v] } t ∧ t.brim = s.brim ∧
          { b with answered := true } ∈ t.pubs ∧ ∀ l ∈ t.launches, l.id ∈ holders s b.launch b.ref → l.fu = true))) ∧
  (∀ (s : State) (u : Update), s.arg = .num u.id → (s.updates.filter fun x => x.id == u.id) = [u] →
    let rest := s.updates.filter fun x => x.id != u.id
    (u.refused = false → admitsBoth s u.part u.asid (offsetOf u.va) = none → granuleHeld s u.part u.asid (offsetOf u.va) = false →
      (holders s u.launch u.ref = [] → (s.mitten.filter fun x => updateSlice s x == updateSlice s u).length < 16 →
        exec .mittenUpdateArrive s = .next { unpark u.ref (.num u.id) s with updates := rest, mitten := s.mitten ++ [u] }) ∧
      (holders s u.launch u.ref ≠ [] → updateFree s u = true → dirtyHosts s u.ref = [] → 4 ≤ offsetOf u.va % 128 →
        offsetOf u.va % 128 + u.v.length ≤ 128 →
        ∃ t, exec .mittenUpdateArrive s = .next t ∧ t.p = s.p ∧ t.g = s.g ∧ t.updates = rest ∧ (∀ x ∈ t.mitten, x ∈ s.mitten) ∧
          t.brim = s.brim ∧ ∀ l ∈ t.launches, l.id ∈ holders s u.launch u.ref → l.fu = true) ∧
      (holders s u.launch u.ref = [] → (s.mitten.filter fun x => updateSlice s x == updateSlice s u).length ≥ 16 → ((u :: s.mitten).map fun x => x.id).Nodup →
        ∃ t x, exec .mittenUpdateArrive s = .next t ∧ Quiet s t ∧
          x ∈ u :: s.mitten ∧ { x with refused := true } ∈ t.updates ∧ t.mitten.length = s.mitten.length ∧
          ∀ y ∈ u :: s.mitten, updateSlice s y = updateSlice s u → keyLt x.key y.key = false)) ∧
    (u.refused = true → (s.retry.filter fun x => x.core == u.core).length < 32 →
      exec .redRefusalReturn s = .next { s with updates := rest, retry := s.retry ++ [{ u with refused := false }] })) ∧
  (∀ (s : State) (l : Launch), s.arg = .num l.id → (s.launches.filter fun x => x.id == l.id) = [l] → l.det = true → l.phase = .running →
    (∀ u ∈ s.mitten ++ s.retry ++ s.updates, u.launch ≠ l.id) → (∀ e ∈ s.brim, e.launch ≠ l.id) →
    ∃ t, exec .crownFloorUpdate s = .next t ∧ Quiet s t ∧ keyLt (launchOf t l.id).floor l.floor = false ∧
      (isHold (floorNow s l) = false → (launchOf t l.id).floor = keyMax l.floor (floorNow s l)) ∧
      (∀ x ∈ s.launches, x.id ≠ l.id → x ∈ t.launches) ∧
      t.outbox = s.outbox ++ (if l.dscope = 2 ∧ keyLt l.sentFloor (ownFloor s l) = true then
        (portsUp s).map fun p => .floorFlit p l.id (ownFloor s l) else [])) ∧
  (∀ (s : State) (l : Launch), s.arg = .num l.id → s.launches = [l] → l.det = true → l.phase = .running → l.dscope ≠ 2 →
    let f := floorNext s l
    let boundary := mergeBoundary { l with floor := f }
    (∀ (e : BrimEntry) (x : Line) (i : Nat) (b : Byte), s.mitten = [] → s.retry = [] → s.updates = [] → s.brim = [e] → e.launch = l.id → e.held = [] →
      e.data = [(i, b)] → i < 128 → e.ref = lineRef e.ref.part e.ref.asid e.ref.va → findLine s e.ref = some x → x.state ≠ .p →
      Alive s e.ref.part e.ref.asid (e.ref.va + i) → ∃ t, exec .crownFloorUpdate s = .next t ∧
        if keyLt e.key boundary = true then t.brim = [] ∧ Quiet { s with mem := memWrite s.mem (x.pa + i) [b] } t
        else t.brim = [e] ∧ Quiet s t) ∧
    (∀ (u : Update), s.mitten = [u] → s.retry = [] → s.updates = [] → s.brim = [] → u.launch = l.id → keyLt u.key boundary = false →
      4 ≤ offsetOf u.va % 128 → updateFree s u = true → dirtyHosts s u.ref = [] → ∃ t, exec .crownFloorUpdate s = .next t ∧ Quiet s t ∧
        if keyLt u.key f = true then t.mitten = [] ∧ ∃ e, t.brim = [e] ∧ e.key = u.key ∧ e.launch = l.id ∧
          e.ref = lineRef u.part u.asid (offsetOf u.va) ∧ e.data = bytesInLine (offsetOf u.va) (offsetOf u.va / 128 * 128)
            (opBytes (.reduce u.n u.ty u.rm u.fz u.v) (baseBytes s u.part u.asid (offsetOf u.va) u.v.length))
        else t.mitten = [u] ∧ t.brim = [])) ∧
  (∀ (s : State) (n m : Nat) (k : Key), s.arg = .floor n m k → exec .floorSideband s = .next { s with
    launches := s.launches.map fun l => if l.id = n ∧ l.dscope = 2 ∧ ¬ (isHold k = true ∧ k.gang ≤ l.crossed) then
      { l with memberFloors := mapSet keyZero l.memberFloors m (keyMax (mapGet keyZero l.memberFloors m) k) } else l }) ∧
  (∀ (s : State) (port : Nat), s.arg = .num port → port ∈ portsUp s → exec .floorSendInterval s = .next { s with
    outbox := s.outbox ++ (s.launches.filter fun l => l.dscope == 2 && decide (l.phase = .running)).map
      fun l => .floorFlit port l.id (keyMax l.sentFloor (ownFloor s l)) }) ∧
  (∀ (s : State) (k : Key) (group : Bool), s.arg = .num2 s.g.id (lowest s.p.members) → s.p.wait = .gated k group false →
    pathOf s s.g.id (lowest s.p.members) = some (s.g, s.p) →
    keyLe k (if group then (curLaunch s).floor else wgFloor s (curLaunch s) s.g.wg) = true →
    exec .floorGatedAction s = .next { s with p := { s.p with wait := .gated k group true } }) ∧
  (∀ (s : State) (k : Key) (i : Instr), s.arg = .num2 s.g.id (lowest s.p.members) → s.p.wait = .turn k i →
    pathOf s s.g.id (lowest s.p.members) = some (s.g, s.p) → (s.launches.filter fun x => x.id == s.g.launch) = [curLaunch s] →
    hasPart s (curLaunch s).part = true → (curLaunch s).stallNoted ≠ some (curLaunch s).floor →
    ∃ t, exec .turnStallWatchdog s = .next t ∧ t.p = s.p ∧ t.g = s.g ∧ t.gangs = s.gangs ∧ RecordLeft (curLaunch s).part s t ∧
      (curLaunch t).stallNoted = some (curLaunch s).floor)

/-! ### Splits and engines at work (R34, R266, R293 to R296, R376 to R378, R391) -/

/-- R34: two splits of a gang in the same state become one of both their lanes, with the later clock, the registers of the one
with the lowest lane, and a new region. R263, R293: a command leaves the dependency table, its output tiles FILLING and its
inputs DRAINING. R296, R273: a pass of `macc.z` clears its accumulator tiles. R263, R267: a finished command's tiles move
on, and a copy of one run leaves the bytes of its source at its destination. R376, R378, R391: a refused unit, a refused
operand of `mloop` (which goes back to its start) and the silence of a member suspend the command; the record of the last names
the lowest member that is silent or dead, also where nothing of that member is awaited. R266: a waiting `ewait` completes; in a free launch
no self-invalidating copy is then left in the L1 of its core.
It rests on the model's choices of log entries 17, 34, 57, 80 and 111. -/
def Obligations.SplitsMergeAndEnginesRun : Prop :=
  (∀ (s : State) (b : Split), s.g.id ≠ 0 → s.gangs = [] → s.g.splits = [b] → s.g.parked = [] → s.p.buffer = [] → b.buffer = [] →
    (onChip s.g.cuff).length ≤ 64 →
    s.p.wait = .none → b.wait = .none → mayMerge s s.g s.p b = true → lowest s.p.members ≠ lowest b.members →
    s.arg = .num3 s.g.id (lowest s.p.members) (lowest b.members) →
    let senior := if lowest s.p.members < lowest b.members then s.p else b
    ∃ t e, exec .regang s = .next t ∧ t.g.splits = [] ∧ t.p.members = s.p.members ||| b.members ∧ t.p.exec = s.p.exec ||| b.exec ∧
      t.p.pc = s.p.pc ∧ t.p.clock.toNat = max s.p.clock.toNat b.clock.toNat ∧ t.p.sregs = senior.sregs ∧ t.p.rstack = s.p.rstack ∧
      t.p.mode = senior.mode ∧ t.p.wins = senior.wins ∧ t.p.entry = some e ∧ e.pc = s.p.pc ∧ t.g.vregs = s.g.vregs ∧ t.g.preds = s.g.preds ∧
      t.mem = s.mem) ∧
  (∀ (s : State) (c : Cmd), s.arg = .num c.id → (s.cmds.filter fun x => x.id == c.id) = [c] →
    (c.recorded = false → admitted s c = true → leavesFirst s c = true →
      ((launchOf s c.launch).det = true → ∀ e ∈ allGangs s, e.1.id = c.gang → ∀ q ∈ e.2, ∀ b ∈ q.buffer,
        ∀ h ∈ c.tileNames true, b.tile ≠ some h) → ∃ t, exec .engineDispatch s = .next t ∧
      t.p.besides = s.p.besides ∧ t.p.pc = s.p.pc ∧ t.p.clock = s.p.clock ∧
      (s.g.id = c.gang → ∀ b ∈ t.p.buffer, ∀ h ∈ c.tileNames true, b.tile ≠ some h) ∧ t.g.vregs = s.g.vregs ∧ t.mem = s.mem ∧
      (∃ x, cmdOf t c.id = some x ∧ x.phase = (if isMatrix c.op then .matrix else .queued) ∧ x.desc = c.desc ∧ x.progress = c.progress) ∧
      (∀ h ∈ c.tileNames true, ∀ x, cmdTile t c h = some x → ∃ tag, x.state = .filling tag) ∧
      (∀ h ∈ c.tileNames false, ∀ y, cmdTile s c h = some y → ∃ x, cmdTile t c h = some x ∧
        (y.state = .ready → x.state = .draining 1) ∧ ∀ n, y.state = .draining n → x.state = .draining (n + 1))) ∧
    (c.suspended = false → c.recorded = false → (c.phase = .queued ∨ c.phase = .matrix) → engViewReady s c = true →
      (unitCount c ≤ c.progress → c.drained = false → ∃ t, exec .engineReadsDone s = .next t ∧ t.p = { s.p with wait := t.p.wait } ∧
        t.g.vregs = s.g.vregs ∧ t.mem = s.mem ∧ cmdOf t c.id = some { c with drained := true } ∧
        ∀ h ∈ c.tileNames false, ∀ y n, cmdTile s c h = some y → y.state = .draining n →
          ∃ x, cmdTile t c h = some x ∧ x.state = (if n ≤ 1 then .ready else .draining (n - 1))) ∧
      (unitCount c ≤ c.progress → (∀ e ∈ s.late, e.reqId ≠ some c.id) → (∀ r ∈ s.remotes, r.cmd ≠ some c.id) →
        Machine.mayStart s c = true → (keyedCmd s c = false → unsettledLine s c.part = false) →
        (∀ u ∈ (launchOf s c.launch).units, u.idx = c.unit → u.phase ≠ .swapped) → ∃ t x, exec .engineFinish s = .next t ∧
        t.p = { s.p with wait := t.p.wait } ∧ t.g.vregs = s.g.vregs ∧ t.mem = s.mem ∧ cmdOf t c.id = some x ∧ x.phase = .finished ∧
        ∀ h ∈ c.tileNames true, ∀ y, cmdTile s c h = some y → ∃ x, cmdTile t c h = some x ∧ x.state = .ready) ∧
      (∀ (n : Nat) (a b : Line), c.op = .cp → c.phase = .queued → c.progress = 0 → (launchOf s c.launch).det = false → c.view = none →
        let src := c.desc.getD 0 0
        let dst := c.desc.getD 1 0
        1 ≤ n → n ≤ 128 → c.desc.getD 2 0 = BitVec.ofNat 64 (n - 1) → offsetOf src % 128 + n ≤ 128 → offsetOf dst % 128 + n ≤ 128 →
        regionOf (offsetOf src) ≠ 3 → regionOf (offsetOf dst) ≠ 3 → (∀ e ∈ s.late, e.reqId ≠ some c.id) →
        (∀ r ∈ s.remotes, r.cmd ≠ some c.id) →
        findLine s (lineRef c.part c.asid (offsetOf src)) = some a → findLine s (lineRef c.part c.asid (offsetOf dst)) = some b →
        engReadCheck s c 0xC0 src n = none → engWritesCheck s c [(dst, n)] = none → granuleHeld s c.part c.asid (offsetOf dst) = false →
        Alive s c.part c.asid (offsetOf dst) → Machine.mayStart s c = true → unsettledLine s c.part = false → b.state ≠ .p →
        devQueued s c.part c.asid (offsetOf dst) = false →
        (∀ d ∈ s.outDirs, d.ref ≠ lineRef c.part c.asid (offsetOf dst)) →
        (∀ u ∈ (launchOf s c.launch).units, u.idx = c.unit → u.phase ≠ .swapped) →
        ∃ t x, exec .engineFinish s = .next t ∧ cmdOf t c.id = some x ∧ x.phase = .finished ∧
          Quiet { s with mem := memWrite s.mem (b.pa + offsetOf dst % 128) (memBytes s.mem (a.pa + offsetOf src % 128) n) } t)) ∧
    (c.gang = s.g.id → s.g.ended = false →
      (∀ cause sub va, nextFault s c = some (cause, sub, va) →
        let suspends (i : Instr) (x : Cmd) : Prop := ∃ t f, exec i s = .next t ∧ t.p = s.p ∧
          t.g = { s.g with faults := s.g.faults ++ [f] } ∧ t.mem = s.mem ∧ f.kind = 3 ∧ f.cause = cause ∧ f.sub = sub ∧ f.va = va ∧
          f.pc = c.pc ∧ f.counter = some c.counter ∧
          cmdOf t c.id = some { x with suspended := true, delivered := false, abandoned := false }
        (c.op ≠ .mloop → suspends .engineAccessFault c) ∧
        (c.op = .mloop → suspends .matrixOperandFault { c with progress := 0, shadow := none })) ∧
      (∀ node, c.op = .coll → c.suspended = false → c.recorded = false → c.phase = .queued → needsOthers s c = true → c.data = none →
        node ∈ contributors s c → node ∈ collNodes c →
        (∀ x ∈ s.remotes, x.gang = c.gang → x.node = node → x.heldBack = true → x.rest = 0) →
        let failing (n : Nat) : Prop := n = node ∨ (mapGet 0 (partOf s c.part).dead (n / 64)).getLsbD (n % 64) = true
        let others : List Nat := (collNodes c).filter fun n => n != (partOf s c.part).node
        ∃ t f, exec .collectiveTimeout { s with arg := .num2 c.id node } = .next t ∧ t.p = s.p ∧
          t.g = { s.g with faults := s.g.faults ++ [f] } ∧ t.mem = s.mem ∧ f.kind = 3 ∧ f.cause = 0x94 ∧ f.pnode ∈ others ∧ failing f.pnode ∧
          (∀ n ∈ others, failing n → f.pnode ≤ n) ∧
          cmdOf t c.id = some { c with suspended := true, delivered := false, abandoned := true } ∧
          ∀ q ∈ t.parts, q.id = c.part → (mapGet 0 q.dead (node / 64)).getLsbD (node % 64) = true) ∧
      (∀ node m, c.op = .coll → c.suspended = false → c.recorded = false → c.phase = .queued → c.progress < unitCount c →
        node ∉ contributors s c → deadMember s c = some m →
        ∃ t f, exec .collectiveTimeout { s with arg := .num2 c.id node } = .next t ∧ t.p = s.p ∧
          t.g = { s.g with faults := s.g.faults ++ [f] } ∧ t.mem = s.mem ∧ f.kind = 3 ∧ f.cause = 0x94 ∧ f.pnode = m ∧
          cmdOf t c.id = some { c with suspended := true, delivered := false, abandoned := true }))) ∧
  (∀ (s : State) (c : Cmd) (cluster : Nat), s.arg = .num cluster → (s.cmds.filter fun x => x.id == c.id) = [c] →
    grantedEntry s cluster = some c → c.op = .maccZ →
    (loadedUnit s cluster = some (c.launch, c.unit) ∨ (loadedUnit s cluster = none ∧ accumRefused s c.launch c.unit false = false)) →
    ∃ t x, exec .matrixPassGrant s = .next t ∧ Quiet s t ∧ cmdOf t c.id = some x ∧
      x.progress = 1 ∧ ∀ k, mapGet 0 (accumOf t c.launch c.unit) k =
        if c.b * 16384 ≤ k ∧ k < (c.b + c.n) * 16384 then 0 else mapGet 0 (accumOf s c.launch c.unit) k) ∧
  (∀ (s : State) (k n u : Nat), s.arg = .num2 s.g.id (lowest s.p.members) → s.p.wait = .ewait k n u → counterOf s s.g.id k ≤ n →
    isPriv s = false → Ready 4 [] [] s → ∃ t, exec .ewaitComplete s = .next t ∧ Retired 4 s t ∧ Unwritten s t ∧
      (detNow s = false → t.p.lastTurn = s.p.lastTurn ∧ ∀ x ∈ t.l1, x.core = s.g.core → x.coh = 0 → x.startKey ≠ none) ∧
      (detNow s = true → t.p.lastTurn = optKeyMax s.p.lastTurn (latestKey (joined s k n u))))

/-! ### Launches (R276, R277, R286 to R290, R298 to R301, R37, R389) -/

/-- R180, R276, R277, R286 to R290, R298, R300, R37, R389: a task leaves intake where its partition has room, and is refused where
its pool never has; a domain-scope launch runs once every other member's descriptor has come and all agree; a unit is placed with gangs that begin at the
entry of the launch; a die reports its point; units retire and are succeeded; a launch that is done writes COMP and FLINE;
residents give way to waiting units; a unit that holds the floor back is swapped in where a split of the group waits, in domain scope also
one of another member; a silent member ends its launch.
It rests on the model's choices of log entries 8, 18, 51, 52, 54, 79, 86, 87, 104: which bytes a unit saves are the device's own. -/
def Obligations.LaunchesPlaceAndRetireUnits : Prop :=
  ∀ (s : State) (l : Launch), (s.launches.filter fun x => x.id == l.id) = [l] →
    let alone : Prop := ∀ n ∈ (partOf s l.part).intake, n = l.id
    let lowerFree : Prop := ∀ x ∈ s.launches, x.prio < l.prio → residentUnits x = []
    (∀ part a, s.arg = .num part → l.part = part → hasPart s part = true → intakeHead s part = some l → (runningOf s part).length < 16 →
      poolFor s part (l.conc * unitBytes l) = some a → l.conc * unitBytes l ≤ (partOf s part).ctxmb * 2 ^ 20 → lowerFree →
      ∃ t, exec .taskLeaveIntake s = .next t ∧ t.p = s.p ∧ t.g = s.g ∧ t.gangs = s.gangs ∧ (alone → t.mem = s.mem) ∧
        (partOf t part).intake = (partOf s part).intake.filter (fun n => n != l.id) ∧
        (launchOf t l.id).phase = (if l.dscope = 2 then .matching else .running) ∧ (launchOf t l.id).pool = a ∧
        ((launchOf t l.id).units.map fun u => (u.idx, u.phase, u.clock)) = (List.range l.conc).map (fun i => (i, .live, 0)) ∧
        (l.dscope = 2 → .descriptor l.id l.gid l.desc ∈ t.outbox)) ∧
    (∀ part x, s.arg = .num part → l.part = part → hasPart s part = true → intakeHead s part = some l → (runningOf s part).length < 16 →
      (partOf s part).ctxmb * 2 ^ 20 < l.conc * unitBytes l → alone → CompLine s l x →
      ∃ t, exec .taskLeaveIntake s = .next t ∧ Quiet { s with mem := compWritten s l x 2 0xD0 } t ∧
        (partOf t part).intake = (partOf s part).intake.filter (fun n => n != l.id) ∧ (launchOf t l.id).phase = .retired) ∧
    (∀ ds, s.arg = .descs l.id ds → l.phase = .matching →
      ((∀ d ∈ ds, d.gid = l.gid ∧ d.entries.take 16 = l.desc.take 16) →
        ((∀ n ∈ l.members, n = (partOf s l.part).node ∨ ∃ d ∈ ds, d.node = n) → lowerFree → ∃ t, exec .domainDescriptorMatch s = .next t ∧
          Quiet s t ∧ launchOf t l.id = { l with phase := .running, resper := (partOf s l.part).resper }) ∧
        (∀ n ∈ l.members, n ≠ (partOf s l.part).node → (∀ d ∈ ds, d.node ≠ n) → exec .domainDescriptorMatch s = .next s)) ∧
      (∀ d x, d ∈ ds → (d.gid ≠ l.gid ∨ d.entries.take 16 ≠ l.desc.take 16) → CompLine s l x →
        ∃ t, exec .domainDescriptorMatch s = .next t ∧ Quiet { s with mem := compWritten s l x 2 0xD0 } t ∧
          (launchOf t l.id).phase = .retired ∧ (launchOf t l.id).units = [])) ∧
    (∀ u cs, s.arg = .num l.id → placeable s l = some (u, cs) → u.phase = .live →
      ∃ t, exec .unitPlace s = .next t ∧ t.p = s.p ∧ t.g = s.g ∧ t.mem = s.mem ∧ (∀ g ∈ s.gangs, g ∈ t.gangs) ∧
        (∀ x ∈ (launchOf t l.id).units, x.idx = u.idx → x.phase = .resident ∧ x.cores = cs) ∧
        (∀ j < l.wpc, ∀ k < l.ngang, ∃ g ∈ t.gangs, g.launch = l.id ∧ g.unit = u.idx ∧ g.wg = u.idx * l.wpc + j ∧ g.num = k ∧
          g.core = cs.getD j 0 ∧ g.width = l.width ∧ g.resident = true ∧ g.vregs = [] ∧ g.preds = [] ∧
          ∃ q, g.splits = [q] ∧ q.members = lowMask l.width ∧ q.exec = lowMask l.width ∧ q.pc = l.entryVA ∧ q.clock = u.clock ∧
            q.sregs = mapSet 0 [] 0 l.argp ∧ q.mode = 0 ∧ q.rstack = [] ∧ q.wins = []) ∧
        ∀ j < l.wpc, ∀ h < l.tiles.length, ∃ x ∈ t.tiles, x.launch = l.id ∧ x.wg = u.idx * l.wpc + j ∧ x.h = h ∧ x.state = .empty ∧
          x.size = l.tiles.getD h 0) ∧
    (∀ d p, s.arg = .num d → d < s.dies.length → (getAt Die.reset s.dies d).target = some p → ∃ t, exec .opPointStable s = .next t ∧
      Quiet s t ∧ (∀ k, getAt Die.reset t.dies k =
        if k = d then { getAt Die.reset s.dies d with point := p, target := none } else getAt Die.reset s.dies k) ∧
      ∀ u ∈ (launchOf t l.id).units, (∃ c ∈ u.cores, c / 128 = d) → u.awaitsOp = false) ∧
    (∀ i u, s.arg = .num2 l.id i → (l.units.filter fun x => x.idx == i) = [u] → unitEnded s l.id i = true → unitBusy s l.id i = false →
      (∀ e ∈ gangsOf s l.id i, e.1.faults = [] ∧ e.1.id ≠ s.g.id) → (s.g.launch ≠ l.id ∨ s.g.unit ≠ i) →
      ∃ t, exec .unitRetire s = .next t ∧ t.p = s.p ∧ t.g = s.g ∧ t.mem = s.mem ∧ gangsOf t l.id i = [] ∧
        (∀ g ∈ s.gangs, (∀ e ∈ gangsOf s l.id i, e.1.id ≠ g.id) → g ∈ t.gangs) ∧
        ∃ next, (launchOf t l.id).units = l.units.filter (fun x => x.idx != i) ++ next ∧
          if i + l.conc < l.nunit then ∃ v, next = [v] ∧ v.idx = i + l.conc ∧ v.phase = .live ∧ v.clock = u.final ∧ v.slot = u.slot
          else next = []) ∧
    (∀ x, s.arg = .num l.id → launchDone s l = true → (∀ e ∈ s.brim, e.launch ≠ l.id) → l.discards = [] → CompLine s l x →
      (l.ended = none → (l.early = true ∨ l.nsucc = 0) → ∃ t, exec .launchRetire s = .next t ∧
        Quiet { s with mem := compWritten s l x 1 0 } t ∧ (launchOf t l.id).phase = .retired) ∧
      (∀ c st, l.ended = some (c, st) → ∃ t, exec .launchRetire s = .next t ∧
        Quiet { s with mem := compWritten s l x st c } t ∧ (launchOf t l.id).phase = .retired)) ∧
    (∀ u w, s.arg = .num l.id → l.phase = .running → residentUnits l = [u] → waitingUnits l = [w] → u.idx ≠ w.idx → w.phase = .live →
      w.since < s.ticks → mayRotate l u = true → u.leaving = false → inHandler s l.id u.idx = false → unitRefused s l u true = none →
      (s.g.launch ≠ l.id ∨ s.g.unit ≠ u.idx) → (∀ e ∈ s.loaded, e.2 ≠ (l.id, u.idx)) →
      ∃ t, exec .residencyPeriodEnd s = .next t ∧ t.mem = (saveUnit l u s).mem ∧
        (∀ x ∈ (launchOf t l.id).units, x.idx = u.idx → x.phase = .swapped ∧ x.cores = []) ∧
        ∀ g, (g ∈ t.gangs ∨ g = t.g) → g.id ≠ 0 → g.launch = l.id → g.unit = u.idx → g.resident = false) ∧
    (∀ u cs, (s.arg = .num l.id ∧ dueUnits s l = [u] ∨ ∃ m, s.arg = .num2 l.id m ∧ l.dscope = 2 ∧ floorUnits s l = [u]) → (l.units.filter fun x => x.idx == u.idx) = [u] → u.phase = .live →
      placeFor s l = some cs → ∃ t, exec .turnDrivenSwapIn s = .next t ∧ t.p = s.p ∧ t.g = s.g ∧ t.mem = s.mem ∧
        ∀ x ∈ (launchOf t l.id).units, x.idx = u.idx → x.phase = .resident ∧ x.cores = cs ∧ x.hold = some (unitBound s l u)) ∧
    (∀ m, s.arg = .num2 l.id m → l.dscope = 2 → l.phase ≠ .retired → ∃ t, exec .floorSilenceTimeout s = .next t ∧
      (launchOf t l.id).phase = .retired ∧ (launchOf t l.id).ended = some (0x92, 3) ∧ (launchOf t l.id).units = [] ∧
      (∀ g ∈ t.gangs, g.launch ≠ l.id) ∧
      ∀ q ∈ t.parts, q.id = l.part → (mapGet 0 q.dead (l.members.getD m 0 / 64)).getLsbD (l.members.getD m 0 % 64) = true)

/-- R180: when UNIT_PLACE starts a unit that is live for the first time, every register of each of its gangs is full and holds
its value at gang start: s0 the argument pointer, every other scalar, vector and predicate register, lc0, lc1, e0 to e7,
FSTAT and MODE 0 (so that the element type is i32), every window VALID = 0, EXEC a 1 for each lane of the width. -/
def Obligations.GangStartRegistersAreFull : Prop :=
  ∀ (s : State) (l : Launch) (u : UnitState) (cs : List Nat), (s.launches.filter fun x => x.id == l.id) = [l] → s.arg = .num l.id →
    placeable s l = some (u, cs) → u.phase = .live → (∀ c ∈ s.cmds, c.gang < s.nextId) →
    ∃ t, exec .unitPlace s = .next t ∧ ∀ j < l.wpc, ∀ k < l.ngang, ∃ g ∈ t.gangs, ∃ q, g.launch = l.id ∧ g.unit = u.idx ∧
      g.wg = u.idx * l.wpc + j ∧ g.num = k ∧ g.splits = [q] ∧
      let v : State := { t with g := g, p := q }
      (∀ c, regState v c = .full) ∧ (∀ n, getS v n = if n = 0 then l.argp else 0) ∧ (∀ n i, getV v n i = 0) ∧
        (∀ n i, getP v n i = false) ∧ q.lc0 = 0 ∧ q.lc1 = 0 ∧ (∀ e, counterOf v g.id e = 0) ∧ q.fstat = 0 ∧
        (∀ w, (getW v w).valid = false) ∧ q.mode = 0 ∧ elemTy v = some (Ty.i 32) ∧
        ∀ i < 64, q.exec.getLsbD i = decide (i < l.width)

/-! ### Other devices and hosts (R129 to R149, R313, R383, R384, R388, R396) -/

/-- R129, R131, R134, R135, R138, R139, R145, R146, R324, R383, R384, R388, R402: a device that has not started hears no request of
another; one is faulted where no partition of its domain takes part, that is being reset, or its address is private, answered with the capabilities, refused where the line is in P or its home has
no room to track it, faulted where the HC refuses it, and recorded with the last answer to the accesses of its request, at the lowest
refused address, else performed and answered; the input of a collective is acknowledged; a reservation ends and the next that qualifies takes its place; a
two-hop request goes on; copies of other devices' lines are dropped on demand, and none is made of a line on its way; a silent
holder counts as absent; probes from outside a domain are stopped.
It rests on the model's choices of log entries 39, 48, 77 and 112. -/
def Obligations.FabricRequestsAreAnswered : Prop :=
  (∀ (s : State) (q : FabricReq), s.arg = .fabric q →
    let answer (m : Msg) : State := { s with outbox := s.outbox ++ [m] }
    let off := offsetOf q.va
    let device : Prop := q.op ≠ .cap ∧ ∀ t d, q.op ≠ .input t d
    q.mates = 1 → (s.startup.phase ≠ .started → exec .fabricRequestArrive s = .next s) ∧ (s.startup.phase = .started →
    (domainPart s q.domain = none → exec .fabricRequestArrive s = .next (answer (.fabricFault q.source q.tag))) ∧
    ∀ p, domainPart s q.domain = some p →
      (beingReset s p.id = true → exec .fabricRequestArrive s = .next (answer (.fabricFault q.source q.tag))) ∧ (beingReset s p.id = false →
      (q.op = .cap → exec .fabricRequestArrive s = .next (answer (.fabricData q.source q.tag (leBytes 8
        (0x0100000000000000 + 0x77F * 2 ^ 16 + 0x7F * 2 ^ 8 + 4 + (if preciseDir s p.id then 2 else 0) + 1)) 2))) ∧
      (∀ t d, q.op = .input t d → exec .fabricRequestArrive s = .next (answer (.fabricAck q.source q.tag))) ∧
      (device → regionOf off < 2 → exec .fabricRequestArrive s = .next (answer (.fabricFault q.source q.tag))) ∧
      (device → regionOf off = 2 → fabricSupported q.op = false →
        exec .fabricRequestArrive s = .next (answer (.fabricUnsupported q.source q.tag))) ∧
      (∀ l, device → regionOf off = 2 → fabricSupported q.op = true → findLine s (lineRef p.id 4095 off) = some l → l.state = .p →
        q.accepted = false → wantOf q (lineRef p.id 4095 off) ∉ s.reserved →
        ∃ t, exec .fabricRequestArrive s = .next t ∧ Quiet s t ∧ t.outbox = s.outbox ++ [.fabricRefusal q.source q.tag]) ∧
      ((∀ x ∈ s.reserved, x.ref ≠ lineRef p.id 4095 off) → (∀ e ∈ s.hostQueue, e.1 ≠ lineRef p.id 4095 off) →
        (∀ e ∈ s.noted, e.1 ≠ lineRef p.id 4095 off) → lineRoom s (lineRef p.id 4095 off) = true → regionOf off = 2 → q.gid = none → granuleHeld s p.id 4095 off = false →
        let tracked (c : Prop) : Prop := if q.accepted = false ∧ Config.noTracking s.ticks = true
          then ∃ t, exec .fabricRequestArrive s = .next t ∧ Quiet s t ∧ t.outbox = s.outbox ++ [.fabricRefusal q.source q.tag] else c
        (∀ l, q.op = .load false → HomeLine s p.id off l → dirtyHosts s (lineRef p.id 4095 off) = [] →
          tracked (∃ t, exec .fabricRequestArrive s = .next t ∧ Quiet s t ∧
            t.outbox = s.outbox ++ [.fabricData q.source q.tag (memBytes s.mem (l.pa + off % 128) q.size) l.coh])) ∧
        (∀ l d, q.op = .store d → Writable s p.id off l → tracked (∃ t, exec .fabricRequestArrive s = .next t ∧
          Quiet { s with mem := memWrite s.mem (l.pa + off % 128) d } t ∧ t.outbox = s.outbox ++ [.fabricAck q.source q.tag])) ∧
        (∀ c, hasPart s p.id = true → (q.op = .load false ∧ hcCheck s p.id 4095 off false false = .refuse c ∨
            (∃ d, q.op = .store d) ∧ hcCheck s p.id 4095 off true false = .refuse c ∧
              ∀ x, walk s p.id 4095 off = some x → Pte.lock x.entry = false) → findLine s (lineRef p.id 4095 off) = none →
          tracked (∃ t, exec .fabricRequestArrive s = .next t ∧ t.p = s.p ∧ t.g = s.g ∧ t.gangs = s.gangs ∧ RecordLeft p.id s t ∧
            .fabricFault q.source q.tag ∈ t.outbox)))))) ∧
  (∀ (s : State) (q : FabricReq) (p : Partition) (e : Inbound) (c : BitVec 8), s.arg = .fabric q → s.startup.phase = .started →
    domainPart s q.domain = some p → beingReset s p.id = false → hasPart s p.id = true → q.accepted = true → q.gid = none → 2 ≤ q.mates →
    (s.inbound.filter fun x => x.source == q.source && x.tag == q.tag) = [e] →
    let off := offsetOf q.va
    let r := lineRef p.id 4095 off
    q.op = .load false → regionOf off = 2 → hcCheck s p.id 4095 off false false = .refuse c → findLine s r = none → lineRoom s r = true →
    (∀ x ∈ s.hostQueue, x.1 ≠ r) → (∀ x ∈ s.noted, x.1 ≠ r) → granuleHeld s p.id 4095 off = false →
    (2 ≤ e.left → ∃ t, exec .fabricRequestArrive s = .next t ∧ Quiet s t ∧ t.outbox = s.outbox ++ [.fabricFault q.source q.tag] ∧
      t.parts = s.parts ∧ ∃ va, (va = q.va ∨ e.refused = some va) ∧ offsetOf va ≤ off ∧ (∀ x, e.refused = some x → offsetOf va ≤ offsetOf x) ∧
        { e with left := e.left - 1, refused := some va } ∈ t.inbound) ∧
    (e.left ≤ 1 → ∃ t, exec .fabricRequestArrive s = .next t ∧ t.p = s.p ∧ t.g = s.g ∧ t.gangs = s.gangs ∧ RecordLeft p.id s t ∧
      .fabricFault q.source q.tag ∈ t.outbox ∧ ∀ x ∈ t.inbound, x.source = q.source → x.tag ≠ q.tag)) ∧
  (∀ (s : State) (r : LineRef), s.arg = .line r → (∀ x ∈ s.reserved, x.ref = r → hasReturned s x = false) →
    (s.starving = [] → exec .reservationExpire s = .next { s with reserved := s.reserved.filter fun x => x.ref != r }) ∧
    (∀ x, s.starving = [x] → (∀ y ∈ s.reserved, y.ref = r) →
      exec .reservationExpire s = .next { s with reserved := [x.want], starving := [] })) ∧
  (∀ (s : State) (q : FabricReq) (dest : Nat), s.arg = .forward q dest →
    exec .intermediateForward s = .next { s with outbox := s.outbox ++ [.fabricForward dest q] }) ∧
  (∀ (s : State) (part node : Nat) (va : Word), s.arg = .num2v part node va →
    let hit (c : RemoteCopy) : Bool := decide (c.part = part ∧ c.node = node ∧ c.va = offsetOf va / 128 * 128)
    ∃ t, exec .invalidationArrive s = .next t ∧ Quiet s t ∧ t.remoteCopies = s.remoteCopies.filter (fun c => !hit c) ∧
      t.outbox = s.outbox ++ [.invalidationAnswer node va (s.remoteCopies.any hit)] ∧
      ∀ r ∈ s.remotes, r.part = part → r.node = node → inFlight r = true → (∃ e ∈ r.ops, offsetOf e.2.1 / 128 = offsetOf va / 128) →
        { r with dropped := offsetOf va / 128 * 128 :: r.dropped } ∈ t.remotes) ∧
  (∀ (s : State) (l : Line) (n : Nat), findLine s l.ref = some l → l.state = .p → l.acks = [.node n] → l.hostAcks = [] →
    hasPart s l.ref.part = true → s.readied = [] → s.arg = .lineNode l.ref n →
    ∃ t x, exec .invalidationTimeout s = .next t ∧ t.p = s.p ∧ t.g = s.g ∧ t.gangs = s.gangs ∧ findLine t l.ref = some x ∧
      x.state = .d ∧ RecordLeft l.ref.part s t ∧
      ∀ q ∈ t.parts, q.id = l.ref.part → (mapGet 0 q.dead (n / 64)).getLsbD (n % 64) = true) ∧
  (∀ (s : State) (cluster domain probe : Nat), s.arg = .num3 cluster domain probe →
    ((∃ q, clusterPart s cluster = some q ∧ q.domain = domain) → exec .boundaryFilterProbe s = .next s) ∧
    ((∀ q, clusterPart s cluster = some q → q.domain ≠ domain) → exec .boundaryFilterProbe s =
      .next { s with filterCount := s.filterCount + 1, probes := s.probes ++ [probe] })) ∧
  (∀ (s : State) (probe : Nat), s.arg = .num probe → probe ∈ s.probes → exec .boundaryFilterAnswer s =
    .next { s with probes := s.probes.filter fun p => p != probe, outbox := s.outbox ++ [.probeAnswer probe] })

/-- R147 to R149, R313, R324, R396, R397: accesses of a host to device memory perform at the home slice, or are refused with a record;
those to a partition being reset are aborted or lost; an
atomic of another size or to a page without TASK is unsupported. Snoops are answered from the state of the line, which
changes as the table gives it; a grant brings a line that was asked for. A link that is lost resets the partitions bound to its port, whose
command runs on (R320); that of port 1 does not retrain while die 1 is out of service (R15).
It rests on the model's choices of log entries 45, 46 and 50. -/
def Obligations.HostAccessesAreAnswered : Prop :=
  (∀ (s : State) (port part tag off0 : Nat) (addr : BitVec 64), NoneWaits s →
    let answer (m : Msg) : State := { s with outbox := s.outbox ++ [m] }
    let off := off0 / 64 * 64
    let refused (i : Instr) (m : Msg) : Prop := ∃ t, exec i s = .next t ∧ t.p = s.p ∧ t.g = s.g ∧ t.gangs = s.gangs ∧
      RecordLeft part s t ∧ m ∈ t.outbox
    (beingReset s part = true → Decoded s port part addr off0 →
      (∀ own, s.arg = .hostRead port tag addr own → exec .hostMemrd s = .next (answer (.hostAbort port))) ∧
      (∀ data relaxed, s.arg = .hostWrite port tag addr data relaxed → exec .hostMemwr s = .next s) ∧
      (∀ op n v, s.arg = .hostAtomic port tag addr op n v → n = 4 ∨ n = 8 → off0 % n = 0 → exec .hostAtomic s = .next (answer (.hostAbort port)))) ∧
    (beingReset s part = false →
    (∀ own, s.arg = .hostRead port tag addr own →
      (Undecoded s port addr → exec .hostMemrd s = .next (answer (.hostUnsupported port))) ∧
      (∀ l, Decoded s port part addr off0 → port < 2 → HomeLine s part off l → ∃ t, exec .hostMemrd s = .next t ∧ Quiet s t ∧
        t.outbox = s.outbox ++ [.hostData port (memBytes s.mem (l.pa + off % 128) 64) false] ∧
        ((outDirOf s (lineRef part 4095 off)).host.length = 2 → (if own then 2 else 1) ≤ (outDirOf t (lineRef part 4095 off)).host.getD port 0)) ∧
      (∀ c, Decoded s port part addr off0 → findLine s (lineRef part 4095 off) = none → lineRoom s (lineRef part 4095 off) = true →
        hcCheck s part 4095 off false false = .refuse c → refused .hostMemrd (.hostData port (List.replicate 64 0) true))) ∧
    (∀ data relaxed, s.arg = .hostWrite port tag addr data relaxed →
      (Undecoded s port addr → exec .hostMemwr s = .next (answer (.hostUnsupported port))) ∧
      (∀ l, Decoded s port part addr off0 → Writable s part off l → ∃ t, exec .hostMemwr s = .next t ∧
        Quiet { s with mem := memWrite s.mem (l.pa + off % 128) (leBytes 64 data.toNat) } t ∧ t.outbox = s.outbox ++ [.hostComplete port]) ∧
      (∀ c, Decoded s port part addr off0 → findLine s (lineRef part 4095 off) = none → lineRoom s (lineRef part 4095 off) = true →
        hcCheck s part 4095 off true false = .refuse c → (∀ x, walk s part 4095 off = some x → Pte.lock x.entry = false) →
        granuleHeld s part 4095 off = false ∨ lateRoom s (homeHc off) part = true → refused .hostMemwr (.hostComplete port))) ∧
    (∀ op n v, s.arg = .hostAtomic port tag addr op n v →
      (Undecoded s port addr → exec .hostAtomic s = .next (answer (.hostUnsupported port))) ∧
      (Decoded s port part addr off0 → (n ≠ 4 ∧ n ≠ 8) ∨ off0 % n ≠ 0 → exec .hostAtomic s = .next (answer (.hostUnsupported port))) ∧
      (∀ l, Decoded s port part addr off0 → n = 4 ∨ n = 8 → off0 % n = 0 → Writable s part off0 l →
        (onTaskPage s part 4095 off0 = false → exec .hostAtomic s = .next (answer (.hostUnsupported port))) ∧
        (onTaskPage s part 4095 off0 = true → 4 ≤ off0 % 128 →
          let old := leNat (memBytes s.mem (l.pa + off0 % 128) n)
          ∃ t, exec .hostAtomic s = .next t ∧
            Quiet { s with mem := memWrite s.mem (l.pa + off0 % 128) (leBytes n (hostAtomicValue op n v.toNat old)) } t ∧
            t.outbox = s.outbox ++ [.hostAtomicData port (BitVec.ofNat 64 old)]))))) ∧
  (∀ e ∈ snoopRows, ∀ (s : State) (port addr : Nat), s.arg = .num2 port addr →
    let line := addr / 128 * 128
    (hpccOf s port line = none → exec e.1 s = .next { s with outbox := s.outbox ++ [.snpAnswer port line "RspIHitI" []] }) ∧
    ∀ row ∈ e.2, ∀ l, hpccOf s port line = some l → l.state = row.1 →
      ∃ t, exec e.1 s = .next t ∧ Quiet s t ∧
        t.outbox = s.outbox ++ [.snpAnswer port line row.2.1 (if row.2.2.1 then l.data else [])] ∧
        hpccOf t port line = (if row.2.2.2 = .i then none else some { l with state := row.2.2.2 })) ∧
  (∀ (s : State) (port addr : Nat) (st : Mesi) (d : List Byte), s.arg = .grant port addr st d → st ≠ .i → d.length = 128 →
    ((port, addr / 128 * 128) ∉ s.cxlAsked → exec .cxlCacheGrant s = .next s) ∧
    ((port, addr / 128 * 128) ∈ s.cxlAsked → s.hpcc.length < 32768 → (∀ q ∈ s.reqs, q.phase ≠ .pending) → ∃ t, exec .cxlCacheGrant s = .next t ∧ Quiet s t ∧
      hpccOf t port (addr / 128 * 128) = some { port := port, addr := addr / 128 * 128, state := st, data := d })) ∧
  (∀ (s : State) (port : Nat) (p : Port), s.ports[port]? = some p →
    (s.arg = .num port → exec .hostLinkDown s = .next { s with ports := s.ports.set port { p with linkUp := false } }) ∧
    (∀ flit, s.arg = .numBool port flit →
      (portLost s port = false → s.readied = [] → exec .hostLinkRetrain s =
        .next { s with ports := s.ports.set port { p with linkUp := true, down := false, flit := flit } }) ∧
      (portLost s port = true → exec .hostLinkRetrain s = .next s)) ∧
    (s.arg = .num port → ∃ t, exec .hostLinkLoss s = .next t ∧ t.posted = s.posted ∧ t.ports = s.ports.set port { p with linkUp := false, down := true } ∧
      (∀ q ∈ s.parts, q.port = port → (∀ x ∈ t.launches, x.part = q.id → x.phase = .retired) ∧
        ∀ r ∈ t.parts, r.id = q.id → r.tvec = 0 ∧ r.esel = [] ∧ r.evc = [] ∧ r.dead = [] ∧ r.aperture = [] ∧ r.intake = []) ∧
      ∀ l ∈ t.hpcc, l.port ≠ port))

/-! ### The system controller (R319 to R331, R345, R381, R382, R398 to R402) -/

/-- R319 to R324, R326 to R329, R331, R345, R150, R387, R400: a command waits until it is the first of both ports, is busy, and ends
with its effect and its final STATUS, also one that names no operation, and one that minimal mode does not run (R402); the attestation
messages, and the registers that a host reads and writes.
It rests on the model's choices of log entries 19, 23, 42, 43, 44, 81, 93 and 109: memory keeps its bytes over a start; a STAGE whose link is
lost ends as one whose image is rejected. -/
def Obligations.HostCommandsAndRegistersTakeEffect : Prop :=
  (∀ (s : State) (port st : Nat), port < s.ports.length → st < 2 ^ 16 → mailStatus (setStatus port st s) port = st) ∧
  (∀ (s : State) (port part op : Nat) (i : Instr) (members : List Nat) (image : FwImage),
    ((op, i) ∈ [(2, Instr.destroy), (3, .reset), (4, .query), (5, .attest), (6, .powercap), (7, .stage), (8, .startrec), (9, .restart)] ∧
        s.arg = .num port ∨ (op, i) = (1, .create) ∧ s.arg = .create port members ∨ (op, i) = (7, .stage) ∧ s.arg = .stage port image) →
      (s.posted.head? ≠ some port → exec i s = .next s) ∧
      (Posted 1 s op port part → exec i s = .next (
        if i ≠ .stage then setStatus port 2 s
        else if s.arg = .num port then
          let u := setStatus port 2 s
          { u with outbox := u.outbox ++ [.imageRead port (BitVec.ofNat 64 (mailWord s port 8))] }
        else s))) ∧
  (∀ (s : State) (port part op : Nat), s.arg = .num port →
    (op ∉ [1, 2, 3, 4, 5, 6, 7, 8, 9] → (Posted 1 s op port part → exec .query s = .next (setStatus port 2 s)) ∧
      (Posted 2 s op port part → exec .query s = .next (ended port 0x10 s))) ∧
    (s.startup.phase = .minimal → s.posted.head? = some port → mailStatus s port = 2 → mailWord s port 0 % 256 = op →
      op ∉ [5, 7, 8, 9] → ∀ i ∈ [Instr.destroy, .reset, .query, .powercap], exec i s = .next (ended port 0x12 s)) ∧
    (mailWord s port 0 % 256 = 7 → s.posted.head? = some port → mailStatus s port = 2 → (portOf s port).down = true →
      exec .stage s = .next (ended port 0x13 s))) ∧
  (∀ (s : State) (port op : Nat) (members : List Nat), s.arg = .create port members → s.startup.phase = .minimal →
    s.posted.head? = some port → mailStatus s port = 2 → mailWord s port 0 % 256 = op → op ∉ [5, 7, 8, 9] →
    exec .create s = .next (ended port 0x12 s)) ∧
  (∀ (s : State) (port part : Nat),
    (∀ members, Posted 2 s 1 port part → s.arg = .create port members →
      (CanCreate s port part → ∃ u q, exec .create s = .next (ended port 0 u) ∧
        u = roomForRemote part { changeMode s with parts := s.parts ++ [q] } ∧ u.mem = s.mem ∧
        (s.parts ≠ [] → changeMode s = s) ∧ q.l2p = (mailWord s port 64).testBit 2 ∧ q.memmap.toNat = leNat (mailBytes s port 16 48) ∧
        q.id = part ∧ q.port = port ∧ q.record = mailBytes s port 8 128 ∧ q.clmask.toNat = mailWord s port 8 ∧
        q.rsec = recordBits s port 7 0 2 ∧ q.node = recordBits s port 7 16 10 ∧ q.domain = recordBits s port 7 32 16 ∧
        q.drank = recordBits s port 7 48 10 ∧ q.ctxmb = recordBits s port 8 0 32 ∧ q.spillmb = recordBits s port 8 32 32 ∧
        q.hdmgb = recordBits s port 9 0 32 ∧ q.intake = [] ∧ q.dead = [] ∧ q.tvec = 0 ∧ q.resper = 1000 ∧
        q.stepb = 1024 ∧ q.rtime = 50 ∧ q.starve = 8) ∧
      (recReserved (mailBytes s port 8 128) = false → exec .create s = .next (ended port 0x10 s)) ∧
      (recReserved (mailBytes s port 8 128) = true → hasPart s part = true → exec .create s = .next (ended port 0x11 s)) ∧
      (recReserved (mailBytes s port 8 128) = true → hasPart s part = false →
        8 ≤ part ∨ s.tripped = true ∨ recFits s port (mailBytes s port 8 128) = false →
        exec .create s = .next (ended port 0x12 s))) ∧
    (s.arg = .num port → hasPart s part = true → (partOf s part).port = port →
      (Posted 2 s 2 port part → ∃ t, exec .destroy s = .next t ∧ mailStatus t port = 0 ∧ hasPart t part = false ∧ PartReset part t ∧
        ∀ l ∈ t.launches, l.part ≠ part) ∧
      (Posted 2 s 3 port part → ∃ t, exec .reset s = .next t ∧ mailStatus t port = 0 ∧ hasPart t part = true ∧ PartReset part t) ∧
      (Posted 2 s 4 port part → exec .query s = .next (ended port 0 (writeMail port 8 (partOf s part).record s))) ∧
      (Posted 2 s 5 port part → mailWord s port 56 % 128 = 0 → ∃ t data, exec .attest s = .next t ∧ Quiet s t ∧ mailStatus t port = 0 ∧
        t.outbox = s.outbox ++ [.hostWrite port (BitVec.ofNat 64 (mailWord s port 56)) data] ∧ data.length = 352 ∧
        data.take 192 = mailBytes s port 8 48 ++ digestBytes (sha384 Config.romImage) ++ digestBytes s.startup.digest ++
          digestBytes (sha384 (partOf s part).record))) ∧
    (s.arg = .num port → hasPart s part = false →
      (Posted 2 s 2 port part → exec .destroy s = .next (ended port 0x11 s)) ∧
      (Posted 2 s 3 port part → exec .reset s = .next (ended port 0x11 s)) ∧
      (Posted 2 s 4 port part → exec .query s = .next (ended port 0x11 s)) ∧
      (Posted 2 s 5 port part → exec .attest s = .next (ended port 0x11 s))) ∧
    (s.arg = .num port → Posted 2 s 6 port part →
      let w := mailWord s port 8
      ∀ p, s.ports[port]? = some p → exec .powercap s = .next (if 600 ≤ w ∧ w ≤ 2400
        then ended port 0 { s with ports := s.ports.set port { p with powerCap := w } } else ended port 0x12 s)) ∧
    (∀ image, s.arg = .stage port image → Posted 2 s 7 port part → exec .stage s = .next (
      if verified s.startup image = true ∧ s.startup.minVersion.toNat ≤ image.version.toNat then ended port 0 { s with
        startup := if s.startup.boot = 1 then { s.startup with slotB := some image, first := 2 }
          else { s.startup with slotA := some image, first := 1 } }
      else ended port 0x13 s)) ∧
    (s.arg = .num port → Posted 2 s 8 port part → exec .startrec s = .next (ended port 0
      (writeMail port 8 (s.startup.record.flatMap fun w => leBytes 8 w.toNat) s))) ∧
    (s.arg = .num port → Posted 2 s 9 port part → s.parts = [] → ∃ t, exec .restart s = .next t ∧ t.startup.phase = .running ∧
      t.startup.step = 1 ∧ t.startup.count = (if (mailWord s port 8).testBit 0 then 0 else s.startup.count) ∧
      t.startup.slotA = s.startup.slotA ∧ t.startup.slotB = s.startup.slotB ∧ t.launches = [] ∧ t.gangs = [] ∧ t.p = Split.vacant ∧
      t.mem = s.mem)) ∧
  (∀ (s : State) (port : Nat), portServes s port = true →
    let chain : List Byte := s.startup.certificate ++ Config.aliasCertificate s.startup.secret s.startup.digest
    (s.arg = .num port → s.startup.phase = .started → exec .spdmGetCertificate s =
      .next { s with outbox := s.outbox ++ [.spdm port chain] }) ∧
    (∀ nonce, s.arg = .spdm port nonce → s.startup.phase = .started →
      ∀ e ∈ [(Instr.spdmChallenge, digestBytes (sha384 chain)),
          (.spdmGetMeasurements, Config.spdmMeasurements (sha384 Config.romImage) s.startup.digest)],
        ∃ t sig, exec e.1 s = .next t ∧ Quiet s t ∧ sig.length = 96 ∧ t.outbox = s.outbox ++ [.spdm port
          (((List.range 32).map fun i => nonce.extractLsb' (8 * (31 - i)) 8) ++ e.2 ++ sig)] ∧
          t.startup = { s.startup with signatures := s.startup.signatures + 1 }) ∧
    (∀ off v, s.arg = .bar port off (some v) → off % 8 = 0 → 0 < off → off < 256 →
      exec .registerWrite s = .next (writeMail port off (leBytes 8 v.toNat) s)) ∧
    (∀ v, s.arg = .bar port 0 (some v) →
      (mailStatus s port = 2 → exec .registerWrite s = .next s) ∧
      (mailStatus s port ≠ 2 → v.toNat / 2 ^ 16 % 2 ^ 16 ≠ 1 → port < s.ports.length → exec .registerWrite s =
        .next { writeMail port 0 (leBytes 8 v.toNat) s with posted := s.posted.filter fun p => p != port }) ∧
      (mailStatus s port ≠ 2 → port < s.ports.length → port ∉ s.posted → v.toNat / 2 ^ 16 % 2 ^ 16 = 1 →
        exec .registerWrite s = .next { writeMail port 0 (leBytes 8 v.toNat) s with posted := s.posted ++ [port] })) ∧
    (∀ off, s.arg = .bar port off none → off % 8 = 0 → off < 256 →
      exec .registerWrite s = .next { s with outbox := s.outbox ++ [.barData port off (BitVec.ofNat 64 (mailWord s port off))] }) ∧
    (∀ part, part < 8 → hasPart s part = true → (partOf s part).port = port →
      (∀ v, (∀ e ∈ controlWrites, s.arg = .bar port (windowAt part (0x10000 + 8 * e.1)) (some v) →
          exec .registerWrite s = .next (withPart part (e.2 v) s)) ∧
        (s.arg = .bar port (windowAt part 0x30000) (some v) →
          exec .registerWrite s = .next (withPart part (fun q => { q with tvec := v }) s)) ∧
        (s.arg = .bar port (windowAt part 0x30018) (some v) →
          exec .registerWrite s = .next (withPart part (fun q => { q with fqhead := v.setWidth 32 }) s)) ∧
        (s.arg = .bar port (windowAt part 0x30028) (some v) →
          exec .registerWrite s = .next (withPart part (fun q => { q with fqlost := q.fqlost &&& ~~~ v.setWidth 32 }) s)) ∧
        (∀ j < 16, s.arg = .bar port (windowAt part (0x30100 + 8 * j)) (some v) → exec .registerWrite s =
          .next (withPart part (fun q => { q with dead := mapSet 0 q.dead j (mapGet 0 q.dead j &&& ~~~v) }) s))) ∧
      (∀ e ∈ [(0x10000 + 8 * 0x181, fun q : Partition => BitVec.ofNat 64 q.resper), (0x10000 + 8 * 0x190, fun q => mapGet 0 q.esel 0),
          (0x30000, fun q => q.tvec), (0x30008, fun q => q.fqbase), (0x30020, fun q => q.fqtail.setWidth 64),
          (0x30100, fun q => mapGet 0 q.dead 0), (0x40000, fun q => mapGet 0 q.aperture 0)],
        s.arg = .bar port (windowAt part e.1) none → exec .registerWrite s =
          .next { s with outbox := s.outbox ++ [.barData port (windowAt part e.1) (e.2 (partOf s part))] })) ∧
    (∀ part v, part < 8 → (hasPart s part = false ∨ (partOf s part).port ≠ port) → s.arg = .bar port (windowAt part 0x30000) v →
      exec .registerWrite s = .next { s with outbox := s.outbox ++ [.hostUnsupported port] }) ∧
    (∀ k base p, k < 8 → s.ports[port]? = some p → p.flit = true → hasPart s k = true → (partOf s k).port = port →
      s.arg = .decoder port k base true →
      exec .registerWrite s = .next { s with ports := s.ports.set port { p with decoders := p.decoders.set k (some base) } }) ∧
    (∀ k p, k < 8 → s.ports[port]? = some p → s.arg = .num2 port k → exec .registerWrite s = .next { s with outbox := s.outbox ++ [
      if p.flit then .decoderData port k (p.decoders.getD k none) else .hostUnsupported port] })) ∧
  (∀ (s : State) (port part : Nat) (v : Word), portServes s port = true → part < 8 → hasPart s part = true →
    (partOf s part).port = port →
    let written (a : Nat) : Prop := s.arg = .bar port (windowAt part a) (some v)
    (∀ (k : Nat) (hi : Bool), k < 64 → written (0x40000 + 16 * k + if hi then 8 else 0) → ∃ t, exec .apertureMapWrite s = .next t ∧ t.mem = s.mem ∧
      t.p = { s.p with wins := t.p.wins, entry := t.p.entry } ∧ t.g.vregs = s.g.vregs ∧ (∀ i, mapGet 0 (partOf t part).aperture i =
        if i = 2 * k + (if hi then 1 else 0) then (if hi then v &&& 0xFFFFFFFFFFE00078 else v &&& 0x0007FFFFFFFFFFFF)
        else mapGet 0 (partOf s part).aperture i)) ∧
    (written 0x30008 → exec .fqConfigWrite s = .next (withPart part (fun q =>
      if v = q.fqbase then q else { q with fqbase := v, fqhead := 0, fqtail := 0 }) s)) ∧
    (written 0x30010 → exec .fqConfigWrite s = .next (withPart part (fun q =>
      if v.toNat % 32 = q.fqlog ∨ v.toNat % 32 ∈ [1, 2, 3] ∨ 16 < v.toNat % 32 then q
      else { q with fqlog := v.toNat % 32, fqhead := 0, fqtail := 0 }) s)) ∧
    (∀ k, k < 16 → written (0x10000 + 8 * (0x190 + k)) → exec .eselWrite s = .next (withPart part (fun q =>
      if v.toNat % 2 ^ 12 ∈ [0, 1, 2, 3, 4, 5, 0x10, 0x11, 0x12, 0x13, 0x14, 0x20, 0x21, 0x30, 0x31] then
        { q with esel := mapSet 0 q.esel k (v &&& 0x8FFF), evc := mapSet 0 q.evc k 0, evcFrom := mapSet 0 q.evcFrom k s.ticks } else q) s)))

/-- R326, R327, R400 to R402: a start verifies its ROM and a slot, keeps the units that work, and fails otherwise; after the third
failure the device runs in minimal mode; a staged slot is tried first. R329, R330: power and heat lower and raise the operating points; a trip resets every
partition. R381, R382, R398: memory errors, by where they lie.
It rests on the model's choices of log entries 6, 42, 47, 93 and 109. -/
def Obligations.StartPowerAndMemoryErrors : Prop :=
  (∀ (s : State) (e : StartReport), s.arg = .start e → s.startup.phase = .running →
    let first : Nat := if s.startup.first = 2 then 2 else 1
    let slot (n : Nat) : Option FwImage := if n = 2 then s.startup.slotB else s.startup.slotA
    let good (i : Option FwImage) : Prop := ∃ x, i = some x ∧ verified s.startup x = true ∧ s.startup.minVersion.toNat ≤ x.version.toNat
    let lost : BitVec 64 := e.clustersOut ||| (if e.hbmOut.extractLsb' 0 4 = 0xF then 0x00000000FFFFFFFF else 0) |||
      (if e.hbmOut.extractLsb' 4 4 = 0xF ∨ e.bridgeOut = true then 0xFFFFFFFF00000000 else 0)
    (e.romOk = false → ∃ t, exec .deviceStart s = .next t ∧ StartFailed 1 1 s t) ∧
    (e.romOk = true → ¬ good s.startup.slotA → ¬ good s.startup.slotB → ∃ t, exec .deviceStart s = .next t ∧ StartFailed 2 2 s t) ∧
    (e.romOk = true → (good s.startup.slotA ∨ good s.startup.slotB) → lost = BitVec.allOnes 64 →
      ∃ t, exec .deviceStart s = .next t ∧ StartFailed 3 3 s t) ∧
    (∀ b x, e.romOk = true → lost ≠ BitVec.allOnes 64 →
      (b = first ∨ b = 3 - first ∧ ¬ good (slot first)) → good (slot b) → slot b = some x →
      ∃ t, exec .deviceStart s = .next t ∧ Quiet s t ∧ t.clustersOut = lost ∧ t.hbmOut = e.hbmOut ∧ t.hcOut = e.hcOut ∧ t.sliceOut = e.sliceOut ∧ t.fportOut = e.fportOut ∧
        t.bridgeOut = e.bridgeOut ∧ t.startup.phase = .started ∧ t.startup.boot = b ∧ t.startup.digest = sha384 x.body ∧
        t.startup.version = x.version ∧ t.startup.count = 0 ∧
        t.startup.minVersion.toNat = max s.startup.minVersion.toNat x.version.toNat)) ∧
  (∀ (s : State) (step tried : Nat) (e : StartReport), s.arg = .startTimeout step tried e → step < 2 ^ 8 → s.startup.phase = .running →
    ∃ t, exec .startStepTimeout s = .next t ∧ StartFailed step 4 s t) ∧
  (∀ s : State, s.startup.phase = .failed →
    (s.startup.count < 3 → ∃ t, exec .startRetry s = .next t ∧ Starting s t) ∧
    (3 ≤ s.startup.count → ∃ t, exec .startRetry s = .next t ∧ Quiet s t ∧ t.startup.phase = .minimal ∧ t.startup.minimalPort = 0 ∧
      (∀ p ∈ t.ports, p.linkUp = true ∧ p.flit = false) ∧
      ∀ w r, s.startup.record = w :: r → t.startup.record = (w ||| 0x01000000) :: r)) ∧
  (∀ s : State, s.startup.phase = .minimal →
    exec .minimalPortFallback s = .next { s with startup := { s.startup with minimalPort := 1 } }) ∧
  (∀ (s : State) (port : Nat) (b : Bool), s.arg = .numBool port b →
    let u := { s with outbox := s.outbox ++ [if portServes s port then .configDone port else .configRetry port] }
    (b = false → exec .configurationRequest s = .next u) ∧
    (b = true → ∃ t, exec .configurationRequest s = .next t ∧ t.outbox = u.outbox ∧ Starting s t)) ∧
  (∀ s : State,
    (∀ watts, s.arg = .num watts →
      let cap := min (portOf s 0).powerCap (portOf s 1).powerCap
      (cap < watts → ∃ t, exec .powerCapExceed s = .next t ∧ SameButDies s t ∧ Settled t ∧
        t.dies.map (fun d => d.lowered) = s.dies.map fun d => min 3 (d.lowered + 1)) ∧
      (watts ≤ cap → exec .powerCapExceed s = .next s) ∧
      (100 * watts < 95 * cap → ∃ t, exec .powerCapRelease s = .next t ∧ SameButDies s t ∧ Settled t ∧
        t.dies.map (fun d => d.lowered) = s.dies.map fun d => d.lowered - 1) ∧
      (95 * cap ≤ 100 * watts → exec .powerCapRelease s = .next s)) ∧
    (∀ die, s.arg = .num die → die < s.dies.length → ∀ e ∈ [(Instr.thermalHold, true), (.thermalHoldRelease, false)],
      ∃ t, exec e.1 s = .next t ∧ SameButDies s t ∧ Settled t ∧ t.dies.map (fun d => d.hold) = (s.dies.map fun d => d.hold).set die e.2) ∧
    (∃ t, exec .thermalTrip s = .next t ∧ t.tripped = true ∧ ∀ q ∈ s.parts, PartReset q.id t) ∧
    exec .thermalTripClear s = .next { s with tripped := false } ∧
    exec .eccCorrected s = .next { s with corrected := s.corrected + 1 } ∧ exec .hbmScrub s = .next s) ∧
  (∀ (s : State) (loc : EccLoc), s.arg = .ecc loc →
    (∀ core r, loc = .l1 core r → ∃ t, exec .eccUncorrectable s = .next t ∧ Quiet s t ∧ t.corrected = s.corrected + 1 ∧
      t.l1 = s.l1.filter fun c => !(c.core == core && c.ref == r)) ∧
    (∀ r, loc = .cleanLine r → ∃ t, exec .eccUncorrectable s = .next t ∧ Quiet s t ∧ t.corrected = s.corrected + 1 ∧
      findLine t r = none) ∧
    (∀ n g l, loc = .registerFile n → gangOf s n = some g → g.launch = l.id → (s.launches.filter fun x => x.id == l.id) = [l] →
      l.phase = .running → ∃ t, exec .eccUncorrectable s = .next t ∧ (launchOf t l.id).phase = .retired ∧
        (launchOf t l.id).ended = some (0x73, 3)) ∧
    (∀ n o g c l, loc = .cuff n o → gangOf s n = some g → (g.cuff.filter fun x => x.order == o && x.log.isSome) = [c] → g.launch = l.id →
      (s.launches.filter fun x => x.id == l.id) = [l] → ∃ t, exec .eccUncorrectable s = .next t ∧ (launchOf t l.id).phase = .retired ∧
        (launchOf t l.id).ended = some (0x73, 3)) ∧
    (∀ n u l, loc = .accumulator n u → n = l.id → (s.launches.filter fun x => x.id == l.id) = [l] →
      l.phase = .running → ∃ t, exec .eccUncorrectable s = .next t ∧ (launchOf t l.id).phase = .retired ∧
        (launchOf t l.id).ended = some (0x73, 3)) ∧
    (∀ part, loc = .trapBlock part → ∃ t, exec .eccUncorrectable s = .next t ∧ PartReset part t) ∧
    (∀ pa, loc = .hbm pa → ∃ t, exec .eccUncorrectable s = .next t ∧ t.p = s.p ∧ t.g = s.g ∧ pa / 128 ∈ t.badLines))

/-! ### Values of atomics, reset, encoding, steps, memory -/

/-- R244 to R247, R278: what a read-modify-write leaves at its location: integers wrap modulo 2^w, least and greatest are signed for i
types and unsigned for n types, the logical codes act on the bits, floats add under the rounding and the flush of the access and take
minimumNumber and maximumNumber; compare-and-swap acts on the bits; the maximum with index is that of n64; a count stays in its
range. -/
def Obligations.AtomicsLeaveTheirValue : Prop :=
  (∀ (code : Nat) (t : Ty) (rm : BitVec 2) (fz : Bool) (x y : Nat), tyOfCode code = some t → x < 2 ^ t.width → y < 2 ^ t.width →
    let n := t.width / 8
    let leaves (k v : Nat) : Prop := ∀ op ∈ [AccessOp.rmw k code rm fz (leBytes n y) [], .reduce k code rm fz (leBytes n y)],
      opBytes op (leBytes n x) = leBytes n v
    let p : BitVec t.width := BitVec.ofNat t.width x
    let q : BitVec t.width := BitVec.ofNat t.width y
    (t ∈ [Ty.i 32, Ty.n 32, Ty.i 64, Ty.n 64] →
      leaves 0 (p + q).toNat ∧ leaves 3 (p &&& q).toNat ∧ leaves 4 (p ||| q).toNat ∧ leaves 5 (p ^^^ q).toNat ∧ leaves 6 y ∧
      leaves 1 (if (if t.kind = .int then p.toInt ≤ q.toInt else x ≤ y) then x else y) ∧
      leaves 2 (if (if t.kind = .int then p.toInt ≤ q.toInt else x ≤ y) then y else x)) ∧
    (t ∈ [Ty.f32, Ty.f64, Ty.f16, Ty.bf16] →
      leaves 0 (addNum t (rmOf rm) fz (readFloat t fz x) (readFloat t fz y)).val ∧
      leaves 1 (minmaxFloat t fz false x y).val ∧ leaves 2 (minmaxFloat t fz true x y).val ∧ leaves 6 y)) ∧
  (∀ (code : Nat) (rm : BitVec 2) (fz : Bool) (old cmp new : List Byte), ∀ k ∈ [8, 10],
    opBytes (.rmw k code rm fz new cmp) old = if old = cmp then new else old) ∧
  (∀ (code : Nat) (rm : BitVec 2) (fz : Bool) (x y : Nat), x < 2 ^ 64 → y < 2 ^ 64 →
    opBytes (.rmw 9 code rm fz (leBytes 8 y) []) (leBytes 8 x) = leBytes 8 (max x y)) ∧
  (∀ p n : Nat, p < 2 ^ 32 → opBytes (.count true n) (leBytes 4 p) = leBytes 4 (if p + n < 2 ^ 32 then p + n else p) ∧
    opBytes (.count false n) (leBytes 4 p) = leBytes 4 (if n ≤ p then p - n else p))

/-- R326, R322, R345, R21: after a start the host ports are up with no partition, no launch, no gang and nothing in flight; the
registers of a partition that is made have their reset values; HWCFG reads its full value; nothing is left to do but to let cycles pass. Memory holds
nothing (log entry 3), in its canonical form.
It rests on the model's choices of log entries 1, 2, 3, 4, 6: a step without a move is one cycle, and `ticks` counts the model's steps. -/
def Obligations.ResetLeavesNothingRunning : Prop :=
  let s := State.reset
  s.parts = [] ∧ s.launches = [] ∧ s.gangs = [] ∧ s.p.members = 0 ∧ s.reqs = [] ∧ s.remotes = [] ∧ s.cmds = [] ∧ s.lines = [] ∧
    s.l1 = [] ∧ s.icache = [] ∧ s.plb = [] ∧ s.late = [] ∧ s.hpcc = [] ∧ s.outDirs = [] ∧ s.mem = [] ∧ Memory.wf s.mem = true ∧
    s.startup.phase = .started ∧ s.tripped = false ∧ s.ports.length = 2 ∧ (∀ p ∈ s.ports, p.linkUp = true) ∧
    (∀ port < 2, mailStatus s port = 0) ∧ hwcfgOf s = 0x0130081820601021 ∧ step s = .next { s with cycle := 1, ticks := 1 } ∧
    Partition.vacant.resper = 1000 ∧ Partition.vacant.stepb = 1024 ∧ Partition.vacant.rtime = 50 ∧ Partition.vacant.starve = 8 ∧
    Partition.vacant.tvec = 0 ∧ Partition.vacant.fqlog = 0 ∧ Partition.vacant.fqlost = 0

/-- R173, R178: words written from their formats, one of each at least, and the instructions they are. -/
def Obligations.SpecWordsDecode : Prop :=
  decode 0x40204103 = .vadd { ta := false, tb := true, d := 1, a := 2, b := 3 } ∧
  decode 0x518102E7 = .vffma { ta := false, tb := false, d := 4, a := 5, b := 103 } ∧
  decode 0x27000000 = .nop ∧
  decode (0x020#9 ++ 0#1 ++ 5#7 ++ 6#7 ++ 0x80#8) = .addi { ta := false, d := 5, a := 6, imm := 0x80 } ∧
  decode (0x028#9 ++ 9#7 ++ 0x8001#16) = .movi { d := 9, imm := 0x8001 } ∧
  decode (0x040#9 ++ 0x7FFFFF#23) = .jmp { off := 0x7FFFFF } ∧
  decode (0x045#9 ++ 7#6 ++ 0x10001#17) = .bz { s := 7, off := 0x10001 } ∧
  decode (0x100#9 ++ 1#1 ++ 3#7 ++ 5#3 ++ 9#7 ++ 0b01011#5) =
    .ldG { ta := true, d := 3, w := 5, a := 9, nt := false, sx := true, sz := 3 } ∧
  decode (0x110#9 ++ 2#2 ++ 4#7 ++ 17#5 ++ 8#7 ++ 1#1 ++ 0#1) = .ldX { cls := 2, d := 4, peer := 17, a := 8, ta := true } ∧
  decode (0x182#9 ++ 1#2 ++ 4#7 ++ 17#5 ++ 8#7 ++ 0#1 ++ 0#1) = .atomX { n := 2, cls := 1, d := 4, peer := 17, a := 8, ta := false } ∧
  decode (0x126#9 ++ 1#3 ++ 3#3 ++ 5#4 ++ 0#13) = .fence { kind := 1, scope := 3, mask := 5 } ∧
  decode (0x053#9 ++ 3#4 ++ 4#19) = .modeCv { k := 3, c := 4 } ∧
  decode (0x13E#9 ++ 0#7 ++ 9#6 ++ 0#6 ++ 3#4) = .epoll { k := 3, d := 9 } ∧
  decode (0x152#9 ++ 0#8 ++ 9#6 ++ 0x020#9) = .csrr { s := 9, n := 0x020 } ∧
  decode 0 = .illegalInstruction 0 ∧ decode 0xFFFFFFFF = .illegalInstruction 0xFFFFFFFF ∧
  decode 0x27000001 = .reservedEncoding 0x27000001

/-- R172 to R178: decoding the word of a well-formed instruction gives it back, with every operand at every value that its encoding
admits. -/
def Obligations.DecodingAnEncodingGivesItBack : Prop :=
  ∀ i : Instr, wellFormed i = true → ∀ w, encode i = some w → decode w = i

/-- R172 to R178: every word is that of what it decodes to, so that no two words mean one instruction; a word of no opcode and one
with a reserved field are instructions of their own, which trap. -/
def Obligations.EncodingADecodingGivesTheWord : Prop := ∀ w : BitVec 32, encode (decode w) = some w

/-- R172, R126, R45: a step makes the move at the head of the agenda, else one that the device has to make, else issues the next
ready split: it fetches the word at the pc and executes what the word decodes to, with its line in the instruction cache; a
fetch that fails traps, and one of a line that a host may have modified asks for it first (R149). With nothing to do a cycle passes, which changes no register, no byte and no instruction to come.
It rests on the model's choices of log entries 1, 16, 61. -/
def Obligations.StepRunsTheDecodedInstruction : Prop :=
  ∀ s : State,
    let at0 (r : List Move) : State := { s with ticks := s.ticks + 1, agenda := r }
    let issues (u : State) : Prop :=
      let v := takeSlices u
      mayIssue u u.g u.p = true →
        v = { u with taken := v.taken, p := { u.p with since := some u.cycle } } ∧
        (∀ f, turnFault v = some f → step s = .next (deliver f v)) ∧
        (turnFault v = none → overflowDue v.p.wait = none → holdsFar v = false → stallFault v = none →
          (v.p.fresh = true → deliverable v .opening = none) →
          (fetchAsks v = true → step s = .next (askHosts v.g.part v.g.asid (offsetOf v.p.pc) 4 v)) ∧
          (fetchAsks v = false →
            (∀ w, fetchAt v v.p.pc = .word w → step s = exec (decode w) (fillICache v)) ∧
            ∀ c, fetchAt v v.p.pc = .fault c → step s = .next (preciseTrap (failOf c) 0 v)))
    (∀ i a r, s.agenda = .agent i a :: r → step s = exec i { at0 r with arg := a }) ∧
    (∀ r, s.agenda = .select s.g.id (lowest s.p.members) :: r → issues (at0 r)) ∧
    (s.agenda = [] →
      (∀ i a, deviceMove s = some (.agent i a) → step s = exec i { at0 [] with arg := a }) ∧
      (deviceMove s = none → nextSplit s = some (s.g.id, lowest s.p.members) → issues (at0 [])) ∧
      (deviceMove s = none → nextSplit s = none → ∃ t, step s = .next t ∧ t.cycle = s.cycle + 1 ∧ t.taken = [] ∧ t.mem = s.mem ∧
        t.p = { s.p with since := t.p.since } ∧ t.g = { s.g with splits := t.g.splits } ∧ t.agenda = [])) ∧
    (∀ l : Leaf, isControl s.p.pc = false → nodeOf s.p.pc = (curPart s).node → regionOf (offsetOf s.p.pc) ≠ 3 →
      walk s s.g.part s.g.asid (offsetOf s.p.pc) = some l → Pte.exe l.entry = true → Pte.held l.entry = false →
      walkBad s s.g.part s.g.asid (offsetOf s.p.pc) = false → frameMatches s s.g.part s.g.asid (offsetOf s.p.pc) l.pa = true →
      icLine s s.g.core (lineRef s.g.part s.g.asid (offsetOf s.p.pc)) = none →
      findLine s (lineRef s.g.part s.g.asid (offsetOf s.p.pc)) = none → Pte.dead l.entry = false →
      fetchAt s s.p.pc = .word (BitVec.ofNat 32 (leNat (memBytes s.mem l.pa 4)))) ∧
    fillICache s = { s with icache := (fillICache s).icache }

/-- Memory keeps its canonical form: from every state in which the listed addresses rise and no listed byte is 0, every step leads
to such a state, whatever moves it.
It rests on the model's choices of log entry 3. -/
def Obligations.EveryStepKeepsMemoryForm : Prop :=
  ∀ s t : State, Memory.wf s.mem = true → step s = .next t → Memory.wf t.mem = true
end

