-- ==== Sys2Proof/Laws/Map.lean ====
section
/-! SUPPORT. Laws of the plain tools: sparse maps, lists updated in place, lane masks. -/

namespace Sys2Proof.Machine

/-! ### Sparse maps -/

theorem mapGet_mapInsert {β : Type} (d : β) (m : SMap β) (k j : Nat) (v : β) :
    mapGet d (mapInsert m k v) j = if j = k then v else mapGet d m j := by
  induction m with
  | nil =>
    simp only [mapInsert, mapGet, eq_comm]
  | cons e r ih =>
    obtain ⟨a, b⟩ := e
    unfold mapInsert
    by_cases h : j = k
    · subst h
      split <;> [skip; split] <;> simp_all [mapGet]
    · split <;> [skip; split] <;> simp_all [mapGet, eq_comm]

theorem mapGet_mapErase {β : Type} (d : β) (m : SMap β) (k j : Nat) :
    mapGet d (mapErase m k) j = if j = k then d else mapGet d m j := by
  induction m with
  | nil => simp [mapErase, mapGet]
  | cons e r ih =>
    obtain ⟨a, b⟩ := e
    by_cases h : j = k
    · subst h
      by_cases ha : a = j <;> simp_all [mapErase, mapGet]
    · by_cases ha : a = k
      · subst ha
        simp_all [mapErase, mapGet, eq_comm]
      · by_cases hj : a = j <;> simp_all [mapErase, mapGet]

/-- Reading after a write: the value at the key, the old entry elsewhere. -/
@[simp] theorem mapGet_mapSet {β : Type} [DecidableEq β] (d : β) (m : SMap β) (k j : Nat) (v : β) :
    mapGet d (mapSet d m k v) j = if j = k then v else mapGet d m j := by
  unfold mapSet
  split
  · rename_i hv
    rw [mapGet_mapErase, hv]
  · rw [mapGet_mapInsert]

/-! ### The canonical form -/

/-- Keys rising from a bound on, and no entry equal to the default. -/
def mapAbove {β : Type} [DecidableEq β] (d : β) : Nat → SMap β → Prop
  | _, [] => True
  | lo, (k, v) :: r => v ≠ d ∧ lo ≤ k ∧ mapAbove d (k + 1) r

theorem mapAbove_mono {β : Type} [DecidableEq β] (d : β) {a b : Nat} (h : a ≤ b) :
    ∀ m : SMap β, mapAbove d b m → mapAbove d a m
  | [], _ => trivial
  | (_, _) :: _, ⟨hv, hk, hr⟩ => ⟨hv, Nat.le_trans h hk, hr⟩

theorem mapWf_iff {β : Type} [DecidableEq β] (d : β) : ∀ m : SMap β, mapWf d m = true ↔ mapAbove d 0 m
  | [] => by simp [mapWf, mapAbove]
  | [(k, v)] => by simp [mapWf, mapAbove]
  | (k, v) :: (k', v') :: r => by
    have ih := mapWf_iff d ((k', v') :: r)
    simp only [mapWf, Bool.and_eq_true, decide_eq_true_eq, ih, mapAbove]
    constructor
    · rintro ⟨⟨h1, h2⟩, h3, -, h4⟩
      exact ⟨h1, Nat.zero_le _, h3, h2, h4⟩
    · rintro ⟨h1, -, h3, h2, h4⟩
      exact ⟨⟨h1, h2⟩, h3, Nat.zero_le _, h4⟩

theorem mapInsert_above {β : Type} [DecidableEq β] (d : β) (k : Nat) (v : β) (hv : v ≠ d) :
    ∀ (m : SMap β) (lo : Nat), lo ≤ k → mapAbove d lo m → mapAbove d lo (mapInsert m k v)
  | [], lo, h, _ => ⟨hv, h, trivial⟩
  | (a, b) :: r, lo, h, ⟨hb, ha, hr⟩ => by
    unfold mapInsert
    split
    · rename_i hk
      exact ⟨hv, h, hb, hk, hr⟩
    · split
      · rename_i he
        subst he
        exact ⟨hv, ha, hr⟩
      · exact ⟨hb, ha, mapInsert_above d k v hv r (a + 1) (by omega) hr⟩

theorem mapErase_above {β : Type} [DecidableEq β] (d : β) (k : Nat) :
    ∀ (m : SMap β) (lo : Nat), mapAbove d lo m → mapAbove d lo (mapErase m k)
  | [], _, _ => trivial
  | (a, b) :: r, lo, ⟨hb, ha, hr⟩ => by
    unfold mapErase
    split
    · exact mapAbove_mono d (by omega) _ (mapErase_above d k r (a + 1) hr)
    · exact ⟨hb, ha, mapErase_above d k r (a + 1) hr⟩

/-- A write keeps the canonical form. -/
theorem mapSet_wf {β : Type} [DecidableEq β] (d : β) (m : SMap β) (k : Nat) (v : β) (h : mapWf d m = true) :
    mapWf d (mapSet d m k v) = true := by
  rw [mapWf_iff] at *
  unfold mapSet
  split
  · exact mapErase_above d k m 0 h
  · rename_i hv
    exact mapInsert_above d k v hv m 0 (Nat.zero_le _) h

/-- Leaving entries out keeps the canonical form. -/
theorem filter_above {β : Type} [DecidableEq β] (d : β) (q : Nat × β → Bool) :
    ∀ (m : SMap β) (lo : Nat), mapAbove d lo m → mapAbove d lo (m.filter q)
  | [], _, _ => trivial
  | (a, b) :: r, lo, ⟨hb, ha, hr⟩ => by
    rw [List.filter_cons]
    split
    · exact ⟨hb, ha, filter_above d q r (a + 1) hr⟩
    · exact mapAbove_mono d (by omega) _ (filter_above d q r (a + 1) hr)

theorem filter_wf {β : Type} [DecidableEq β] (d : β) (q : Nat × β → Bool) (m : SMap β) (h : mapWf d m = true) :
    mapWf d (m.filter q) = true := by
  rw [mapWf_iff] at *
  exact filter_above d q m 0 h

/-! ### Lists -/

@[simp] theorem updateWhere_length {α : Type} (q : α → Bool) (f : α → α) (l : List α) :
    (updateWhere q f l).length = l.length := by
  induction l with
  | nil => rfl
  | cons a r ih => simp [updateWhere, ih]

theorem mem_countFrom {a n x : Nat} : x ∈ countFrom a n ↔ a ≤ x ∧ x < a + n := by
  induction n generalizing a with
  | zero => simp [countFrom]
  | succ n ih =>
    simp only [countFrom, List.mem_cons, ih]
    omega

/-- The lanes of a mask are its set bits. -/
theorem mem_lanesOf {m : BitVec 64} {i : Nat} : i ∈ lanesOf m ↔ i < 64 ∧ lane m i = true := by
  simp [lanesOf, mem_countFrom]

end Sys2Proof.Machine
end

