-- ==== Sys2Proof/Laws/Region.lean ====
section
/-! SUPPORT. Laws of regions: what the commit of a region depends on and what it leaves (spec/02_work_hierarchy.md R39 to
R41). -/

namespace Sys2Proof.Machine

/-! ### What the commit of a region does not read -/

/-- The state with another split at issue, other registers of its gang, another serial, other partitions. -/
def tweak (P : Split) (a : SMap (BitVec 32)) (b : SMap RegState) (c : SMap Bool) (n : BitVec 32) (Q : List Partition)
    (x : State) : State :=
  { x with p := P, g := { x.g with vregs := a, vstate := b, preds := c, serial := n }, parts := Q }

theorem besides_nodes {Q R : List Partition} (h : Q.map Partition.besides = R.map Partition.besides) (n : Nat) :
    ((findFirst (fun q => q.id == n) Q).getD Partition.vacant).besides
      = ((findFirst (fun q => q.id == n) R).getD Partition.vacant).besides := by
  induction Q generalizing R with
  | nil => cases R with
    | nil => rfl
    | cons r t => simp at h
  | cons q s ih =>
    cases R with
    | nil => simp at h
    | cons r t =>
      simp only [List.map_cons, List.cons.injEq] at h
      obtain ⟨h1, h2⟩ := h
      have hid : q.id = r.id := by
        have e := congrArg Partition.id h1
        exact e
      simp only [findFirst, hid]
      split
      · exact h1
      · exact ih h2

/-- A change that the release of a store does not see. -/
structure Unseen (P : Split) (Q : List Partition) (x : State) : Prop where
  members : P.members = x.p.members
  status : P.status = x.p.status
  after : P.after = x.p.after
  nodes : ∀ n, (partOf { x with parts := Q } n).besides = (partOf x n).besides

variable {P : Split} {a : SMap (BitVec 32)} {b : SMap RegState} {c : SMap Bool} {n : BitVec 32} {Q : List Partition}
  {x : State}

/-- One line of a store enters the Cuff buffer. -/
def cuffLine (e : BufStore) (d : List Byte) (s : State) (line : Nat) : State :=
  { s with
    g := { s.g with cuff := cuffAdd (othersOn s line) (cuffEntryOf s e d line) s.g.cuff } }

theorem foldl_cuff_frame (e : BufStore) (d : List Byte) (l : List Nat) (x : State) :
    (l.foldl (cuffLine e d) x).p = x.p ∧ (l.foldl (cuffLine e d) x).parts = x.parts
      ∧ (l.foldl (cuffLine e d) x).mem = x.mem
      ∧ (∃ k q, (l.foldl (cuffLine e d) x).g = { x.g with cuff := k, cuffSeq := q }) := by
  induction l generalizing x with
  | nil => exact ⟨rfl, rfl, rfl, _, _, rfl⟩
  | cons h t ih =>
    rw [List.foldl_cons]
    obtain ⟨h1, h2, h3, k, q, h4⟩ := ih (cuffLine e d x h)
    exact ⟨h1, h2, h3, k, q, h4⟩

/-- Other partitions that differ in their event counters alone show the same nodes. -/
theorem Unseen.mono {y : State} {R : List Partition} (h : Unseen P Q x) (hp : y.p = x.p)
    (hr : R.map Partition.besides = Q.map Partition.besides) (hq : y.parts.map Partition.besides = x.parts.map Partition.besides) :
    Unseen P R y :=
  ⟨by rw [hp, h.members], by rw [hp, h.status], by rw [hp, h.after],
    fun n => (besides_nodes hr n).trans ((h.nodes n).trans (besides_nodes hq n).symm)⟩

/-- What a release of stores does: it leaves the split, memory, the gang but for its Cuff buffer and the partitions but for their event
counters, and sees none of what a tweak changes. -/
structure Releases (f : State → State) (x : State) : Prop where
  split : (f x).p = x.p
  mem : (f x).mem = x.mem
  gang : ∃ k q, (f x).g = { x.g with cuff := k, cuffSeq := q }
  blind : ∃ F : List Partition → List Partition, (∀ Q, (F Q).map Partition.besides = Q.map Partition.besides) ∧
    (f x).parts = F x.parts ∧ ∀ P a b c n Q, Unseen P Q x → f (tweak P a b c n Q x) = tweak P a b c n (F Q) (f x)

theorem Releases.parts {f : State → State} (h : Releases f x) :
    (f x).parts.map Partition.besides = x.parts.map Partition.besides := by
  obtain ⟨F, hF, hp, -⟩ := h.blind
  rw [hp, hF]

theorem Releases.id : Releases id x := ⟨rfl, rfl, ⟨_, _, rfl⟩, fun Q => Q, fun _ => rfl, rfl, fun _ _ _ _ _ _ _ => rfl⟩

theorem Releases.comp {f g : State → State} (hf : Releases f x) (hg : Releases g (f x)) : Releases (fun s => g (f s)) x := by
  obtain ⟨k, q, h1⟩ := hf.gang
  obtain ⟨k', q', h2⟩ := hg.gang
  obtain ⟨F, hF, hp, ht⟩ := hf.blind
  obtain ⟨G, hG, hq, hu⟩ := hg.blind
  exact ⟨hg.split.trans hf.split, hg.mem.trans hf.mem, ⟨k', q', by rw [h2, h1]⟩, fun Q => G (F Q), fun Q => (hG _).trans (hF Q),
    by rw [hq, hp], fun P a b c n Q h => by
      rw [ht P a b c n Q h]
      exact hu P a b c n (F Q) (h.mono hf.split (hF Q) hf.parts)⟩

theorem Releases.foldl {α : Type} {f : α → State → State} (h : ∀ a x, Releases (f a) x) (l : List α) (x : State) :
    Releases (fun s => l.foldl (fun s a => f a s) s) x := by
  induction l generalizing x with
  | nil => exact .id
  | cons a r ih => exact (h a x).comp (ih (f a x))

theorem foldl_cuff_tweak (e : BufStore) (d : List Byte) (l : List Nat) (h : Unseen P Q x) :
    l.foldl (cuffLine e d) (tweak P a b c n Q x) = tweak P a b c n Q (l.foldl (cuffLine e d) x) := by
  induction l generalizing x with
  | nil => rfl
  | cons i t ih =>
    rw [List.foldl_cons, List.foldl_cons, ← ih (h.mono (y := cuffLine e d x i) rfl rfl rfl)]
    congr 1
    obtain ⟨m⟩ := P
    have hm : m = x.p.members := h.members
    subst hm
    rfl

theorem releaseStore_releases (e : BufStore) (x : State) : Releases (releaseStore e) x := by
  have whole : ∀ P a b c n Q, Unseen P Q x → releaseStore e (tweak P a b c n Q x) = tweak P a b c n Q (releaseStore e x) := by
    intro P a b c n Q h
    have hd : detNow (tweak P a b c n Q x) = detNow x := by
      show (_ && !P.status.getLsbD 0) = (_ && !x.p.status.getLsbD 0)
      rw [h.status]
      rfl
    unfold releaseStore
    split
    · split <;> rfl
    · dsimp only
      rw [hd]
      have send : ∀ o : AccessOp, ∀ y : Req, y = { mkReq x e.lane e.va e.size o .none e.word with
            pc := e.pc, clock := e.clock, serial := e.serial, cls := e.cls } →
          { mkReq (tweak P a b c n Q x) e.lane e.va e.size o .none e.word with
            pc := e.pc, clock := e.clock, serial := e.serial, cls := e.cls } = y := by
        intro o y hy
        subst hy
        simp only [mkReq, isPriv, tweak, h.members, h.status, h.after]
        rfl
      split
      · split
        · exact foldl_cuff_tweak _ _ _ h
        · obtain ⟨m⟩ := P
          have hm : m = x.p.members := h.members
          subst hm
          rfl
        · rw [send _ _ rfl]
          rfl
        · rw [send _ _ rfl]
          rfl
      · rw [send _ _ rfl]
        rfl
  have frame : (releaseStore e x).p = x.p ∧ (releaseStore e x).parts = x.parts ∧ (releaseStore e x).mem = x.mem
      ∧ (∃ k q, (releaseStore e x).g = { x.g with cuff := k, cuffSeq := q }) := by
    unfold releaseStore
    split
    · split
      · exact ⟨rfl, rfl, rfl, _, _, rfl⟩
      · exact ⟨rfl, rfl, rfl, _, _, rfl⟩
    · dsimp only
      split
      · split
        · exact foldl_cuff_frame _ _ _ _
        · exact ⟨rfl, rfl, rfl, _, _, rfl⟩
        · exact ⟨rfl, rfl, rfl, _, _, rfl⟩
        · exact ⟨rfl, rfl, rfl, _, _, rfl⟩
      · exact ⟨rfl, rfl, rfl, _, _, rfl⟩
  exact ⟨frame.1, frame.2.2.1, frame.2.2.2, fun Q => Q, fun _ => rfl, frame.2.1, whole⟩

theorem updateWhere_besides (c : Partition → Bool) (f : Partition → Partition) (hf : ∀ q, (f q).besides = q.besides)
    (l : List Partition) : (updateWhere c f l).map Partition.besides = l.map Partition.besides := by
  induction l with
  | nil => rfl
  | cons q r ih =>
    rw [updateWhere, List.map_cons, List.map_cons, ih]
    split
    · rw [hf]
    · rfl

/-- Counting an event changes event counters alone. -/
theorem countEvent_parts (launch code n : Nat) (s : State) :
    ∃ Q, countEvent launch code n s = { s with parts := Q } ∧ Q.map Partition.besides = s.parts.map Partition.besides :=
  ⟨_, rfl, updateWhere_besides _ (bumpEvents _ _) (fun _ => rfl) _⟩

theorem countEvent_releases (launch code n : Nat) (x : State) : Releases (countEvent launch code n) x :=
  ⟨rfl, rfl, ⟨_, _, rfl⟩, fun Q => updateWhere _ _ Q, fun Q => updateWhere_besides _ (bumpEvents _ _) (fun _ => rfl) Q, rfl,
    fun _ _ _ _ _ _ _ => rfl⟩

theorem partOf_besides (h : Unseen P Q x) (k : Nat) :
    (partOf (tweak P a b c n Q x) k).besides = (partOf x k).besides := h.nodes k

theorem partOf_node (h : Unseen P Q x) (k : Nat) : (partOf (tweak P a b c n Q x) k).node = (partOf x k).node := by
  have e := congrArg Partition.node (h.nodes k)
  exact e

theorem remoteMsg_tweak (q : RemoteReq) (h : Unseen P Q x) : remoteMsg (tweak P a b c n Q x) q = remoteMsg x q := by
  have e := partOf_besides (a := a) (b := b) (c := c) (n := n) h q.part
  have f := congrArg (fun p : Partition => Msg.fabricRequest q.id q.node q.cls (pathFor x p q.id q.node q.cls)
    { domain := p.domain, node := p.node, rank := p.drank } q.refusals q.ops) e
  exact f

/-- The message of a request leaves. -/
def post (q : RemoteReq) (s : State) : State := { s with outbox := s.outbox ++ [remoteMsg s q] }

theorem post_releases (q : RemoteReq) (x : State) : Releases (post q) x :=
  ⟨rfl, rfl, ⟨_, _, rfl⟩, fun Q => Q, fun _ => rfl, rfl, fun P a b c n Q h => by
    unfold post
    rw [remoteMsg_tweak q h]
    rfl⟩

theorem depart_releases (q : RemoteReq) (x : State) : Releases (depart q) x := by
  by_cases h : sentBytes q = 0
  · have e : depart q = post q := funext fun s => if_pos h
    rw [e]
    exact post_releases q x
  · have e : depart q = fun s => countEvent q.launch 0x031 (sentBytes q) (post q s) := funext fun s => if_neg h
    rw [e]
    exact (post_releases q x).comp (countEvent_releases _ _ _ _)

/-- A request is entered; it leaves with `sendRemote` unless it is held back. -/
theorem sendRemote_releases (q : RemoteReq) (x : State) : Releases (sendRemote q) x := by
  let enter (q : RemoteReq) (s : State) : State := { s with remotes := s.remotes ++ [q], nextId := s.nextId + 1 }
  let back := q.cls == 1 && q.cmd.isNone && (x.remotes.any (holdsBack q.gang q.node) || copyPending x q.gang q.node x.nextId)
  let r := { q with id := x.nextId, heldBack := back }
  have he : Releases (enter r) x := ⟨rfl, rfl, ⟨_, _, rfl⟩, fun Q => Q, fun _ => rfl, rfl, fun _ _ _ _ _ _ _ => rfl⟩
  by_cases h : (back || q.view.isSome) = true
  · have e : ∀ P a b c n Q, sendRemote q (tweak P a b c n Q x) = enter r (tweak P a b c n Q x) := fun _ _ _ _ _ _ => if_pos h
    have e0 : sendRemote q x = enter r x := if_pos h
    obtain ⟨F, hF, hp, ht⟩ := he.blind
    exact ⟨e0 ▸ he.split, e0 ▸ he.mem, e0 ▸ he.gang, F, hF, e0 ▸ hp, fun P a b c n Q u => by rw [e, e0]; exact ht P a b c n Q u⟩
  · have hd := he.comp (depart_releases r (enter r x))
    have e : ∀ P a b c n Q, sendRemote q (tweak P a b c n Q x) = depart r (enter r (tweak P a b c n Q x)) :=
      fun _ _ _ _ _ _ => if_neg h
    have e0 : sendRemote q x = depart r (enter r x) := if_neg h
    obtain ⟨F, hF, hp, ht⟩ := hd.blind
    exact ⟨e0 ▸ hd.split, e0 ▸ hd.mem, e0 ▸ hd.gang, F, hF, e0 ▸ hp, fun P a b c n Q u => by rw [e, e0]; exact ht P a b c n Q u⟩

theorem depart_launches (q : RemoteReq) (x : State) : (depart q x).launches = x.launches := by
  unfold depart
  split <;> rfl

theorem sendRemote_launches (q : RemoteReq) (x : State) : (sendRemote q x).launches = x.launches := by
  unfold sendRemote
  dsimp only
  split
  · rfl
  · exact depart_launches _ _

/-- The part of a replay for one line leaves. -/
def sendLine (i : Nat) (q : RemoteReq) (line : Nat) (s : State) : State :=
  sendRemote { lineRequest q line with group := i, id := s.nextId } s

theorem sendLine_releases (i : Nat) (q : RemoteReq) (line : Nat) (x : State) : Releases (sendLine i q line) x := by
  obtain ⟨h1, h2, h3, F, hF, hp, ht⟩ := sendRemote_releases { lineRequest q line with group := i, id := x.nextId } x
  exact ⟨h1, h2, h3, F, hF, hp, ht⟩

theorem sendReplay_releases (q : RemoteReq) (x : State) : Releases (sendReplay (fun _ s => s) q) x := by
  obtain ⟨h1, h2, h3, F, hF, hp, ht⟩ := Releases.foldl (sendLine_releases x.nextId q) (sortNub (q.ops.map fun e => lineOf e.2.1)) x
  exact ⟨h1, h2, h3, F, hF, hp, ht⟩

/-- A replay leaves the launches. -/
theorem sendReplay_launches (q : RemoteReq) (x : State) : (sendReplay (fun _ s => s) q x).launches = x.launches := by
  unfold sendReplay
  dsimp only
  generalize sortNub _ = l
  generalize x.nextId = i
  induction l generalizing x with
  | nil => rfl
  | cons a t ih => exact (ih _).trans (sendRemote_launches _ x)

theorem releaseFar_releases (e : BufStore) (l : List BufStore) (x : State) : Releases (releaseFar e l) x := by
  have h := sendReplay_releases
  refine ⟨(h _ _).split, (h _ _).mem, (h _ _).gang, ?_⟩
  obtain ⟨F, hF, hp, ht⟩ := (h { mkRemote x (nodeOf e.va) e.cls e.word with
    pc := e.pc, clock := e.clock, serial := e.serial, va := e.va, size := e.size
    ops := l.map fun y => (y.lane, y.va, match y.op with
      | .store d => FabricOp.store d
      | _ => .store []) } x).blind
  refine ⟨F, hF, hp, fun P a b c n Q u => ?_⟩
  obtain ⟨m⟩ := P
  have hm : m = x.p.members := u.members
  subst hm
  exact ht _ a b c n Q u

theorem releaseGroup_releases (l : List BufStore) (x : State) : Releases (releaseGroup l) x := by
  match l with
  | [] => exact .id
  | b :: r =>
    by_cases h : isFar (partOf x x.g.part).node b = true
    · obtain ⟨h1, h2, h3, F, hF, hp, ht⟩ := releaseFar_releases b (b :: r) x
      have e0 : releaseGroup (b :: r) x = releaseFar b (b :: r) x := if_pos h
      refine ⟨e0 ▸ h1, e0 ▸ h2, e0 ▸ h3, F, hF, e0 ▸ hp, fun P a b' c n Q u => ?_⟩
      have e1 : releaseGroup (b :: r) (tweak P a b' c n Q x) = releaseFar b (b :: r) (tweak P a b' c n Q x) := by
        refine if_pos ?_
        rw [show (partOf (tweak P a b' c n Q x) (tweak P a b' c n Q x).g.part).node = _ from partOf_node u x.g.part]
        exact h
      rw [e0, e1]
      exact ht P a b' c n Q u
    · obtain ⟨h1, h2, h3, F, hF, hp, ht⟩ := releaseStore_releases b x
      have e0 : releaseGroup (b :: r) x = releaseStore b x := if_neg h
      refine ⟨e0 ▸ h1, e0 ▸ h2, e0 ▸ h3, F, hF, e0 ▸ hp, fun P a b' c n Q u => ?_⟩
      have e1 : releaseGroup (b :: r) (tweak P a b' c n Q x) = releaseStore b (tweak P a b' c n Q x) := by
        refine if_neg ?_
        rw [show (partOf (tweak P a b' c n Q x) (tweak P a b' c n Q x).g.part).node = _ from partOf_node u x.g.part]
        exact h
      rw [e0, e1]
      exact ht P a b' c n Q u

/-- What the release of a buffer does. -/
theorem releaseAll_releases (l : List BufStore) (x : State) : Releases (releaseAll l) x := by
  obtain ⟨h1, h2, h3, F, hF, hp, ht⟩ := Releases.foldl releaseGroup_releases (groupFar (partOf x x.g.part).node l) x
  refine ⟨h1, h2, h3, F, hF, hp, fun P a b c n Q u => ?_⟩
  unfold releaseAll
  rw [show (partOf (tweak P a b c n Q x) (tweak P a b c n Q x).g.part).node = _ from partOf_node u x.g.part]
  exact ht P a b c n Q u

/-- The release of no stores. -/
@[simp] theorem releaseAll_nil (x : State) : releaseAll [] x = x := rfl

/-! ### Committing and opening -/

/-- What the release of a region leaves of the split: everything but the bookkeeping of its region. -/
theorem releaseRegion_p (x : State) :
    (releaseRegion x).p = { x.p with buffer := [], entry := none, fresh := false, liveIn := [], written := [] } :=
  (releaseAll_releases _ _).split

/-- A region that has been released has nothing left to release. -/
theorem releaseRegion_released {y : State} {q : Split}
    (h : y.p = { q with buffer := [], entry := none, fresh := false, liveIn := [], written := [] }) : releaseRegion y = y := by
  obtain ⟨p⟩ := y
  dsimp only at h
  subst h
  rfl

/-- With room on chip nothing spills. -/
theorem spillOver_none {x : State} (h : (onChip x.g.cuff).length ≤ Config.cuffEntries) : spillOver x = x := by
  unfold spillOver
  rw [Nat.sub_eq_zero_of_le h]
  rfl

/-- A commit that finds room in the Cuff buffer is the release of its stores. -/
theorem commitRegion_eq {x : State} (h : NoSpill x) : commitRegion x = releaseRegion x := spillOver_none h

theorem commitRegion_p {x : State} (h : NoSpill x) :
    (commitRegion x).p = { x.p with buffer := [], entry := none, fresh := false, liveIn := [], written := [] } := by
  rw [commitRegion_eq h, releaseRegion_p]

theorem commitRegion_parts {x : State} (h : NoSpill x) :
    (commitRegion x).parts.map Partition.besides = x.parts.map Partition.besides := by
  rw [commitRegion_eq h]
  exact (releaseAll_releases _ _).parts

/-- Such a commit writes no byte of memory: stores leave for their homes. -/
theorem commitRegion_mem {x : State} (h : NoSpill x) : (commitRegion x).mem = x.mem := by
  rw [commitRegion_eq h]
  exact (releaseAll_releases _ _).mem

theorem commitRegion_g {x : State} (h : NoSpill x) : ∃ k q, (commitRegion x).g = { x.g with cuff := k, cuffSeq := q } := by
  rw [commitRegion_eq h]
  exact (releaseAll_releases _ _).gang

/-- After a commit there is nothing left to spill. -/
theorem NoSpill.commit {x : State} (h : NoSpill x) : NoSpill (commitRegion x) := by
  rw [commitRegion_eq h]
  unfold NoSpill at *
  rw [releaseRegion_released (releaseRegion_p x)]
  exact h

theorem Split.besides_members {p q : Split} (h : p.besides = q.besides) : p.members = q.members := by
  have e := congrArg Split.members h
  exact e

theorem Split.besides_held {p q : Split} (h : p.besides = q.besides) : p.held = q.held := by
  have m := congrArg Split.held h
  exact m

theorem Split.besides_status {p q : Split} (h : p.besides = q.besides) : p.status = q.status := by
  have e := congrArg Split.status h
  exact e

theorem Split.besides_after {p q : Split} (h : p.besides = q.besides) : p.after = q.after := by
  have e := congrArg Split.after h
  exact e

/-- A tweak that changes nothing besides. -/
theorem tweak_besides {z : State} (hP : P.besides = z.p.besides) (ha : a = z.g.vregs) (hb : b = z.g.vstate)
    (hc : c = z.g.preds) (hQ : Q.map Partition.besides = z.parts.map Partition.besides) :
    (tweak P a b c n Q z).besides = z.besides := by
  subst ha hb hc
  unfold State.besides tweak
  dsimp only
  rw [hP, hQ]

/-- A state is a tweak of one that it agrees with besides. -/
theorem eq_tweak {x y : State} (h : x.besides = y.besides) :
    x = tweak x.p x.g.vregs x.g.vstate x.g.preds x.g.serial x.parts y := by
  have e := congrArg (fun s => tweak x.p x.g.vregs x.g.vstate x.g.preds x.g.serial x.parts s) h
  exact e

/-- Two states that agree besides and hold the same buffer release the same. -/
theorem releaseRegion_tweak {x y : State} (h : x.besides = y.besides) (hb : x.p.buffer = y.p.buffer) :
    ∃ R, R.map Partition.besides = x.parts.map Partition.besides ∧ releaseRegion x =
      tweak { x.p with buffer := [], entry := none, fresh := false, liveIn := [], written := [] }
        x.g.vregs x.g.vstate x.g.preds x.g.serial R (releaseRegion y) := by
  have hp : x.p.besides = y.p.besides := congrArg State.p h
  have hq : x.parts.map Partition.besides = y.parts.map Partition.besides := congrArg State.parts h
  have v : Unseen { x.p with buffer := [], entry := none, fresh := false, liveIn := [], written := [] } x.parts
      { y with p := { y.p with buffer := [], entry := none, fresh := false, liveIn := [], written := [] } } :=
    ⟨Split.besides_members hp, Split.besides_status hp, Split.besides_after hp, besides_nodes hq⟩
  obtain ⟨F, hF, -, ht⟩ := (releaseAll_releases y.p.buffer
    { y with p := { y.p with buffer := [], entry := none, fresh := false, liveIn := [], written := [] } }).blind
  refine ⟨F x.parts, hF _, ?_⟩
  unfold releaseRegion
  rw [hb, ← ht _ _ _ _ _ _ v]
  have e := congrArg (fun s => releaseAll y.p.buffer
    { s with p := { s.p with buffer := [], entry := none, fresh := false, liveIn := [], written := [] } }) (eq_tweak h)
  exact e

/-- Room in the Cuff buffer is seen without what retiring changes. -/
theorem NoSpill.congr {x y : State} (h : x.besides = y.besides) (hb : x.p.buffer = y.p.buffer) (hs : NoSpill y) : NoSpill x := by
  obtain ⟨R, -, e⟩ := releaseRegion_tweak h hb
  unfold NoSpill at *
  rw [e]
  exact hs

/-- Two states that agree besides and hold the same buffer agree besides after their commits. -/
theorem commitRegion_besides {x y : State} (h : x.besides = y.besides) (hb : x.p.buffer = y.p.buffer) (hs : NoSpill y) :
    (commitRegion x).besides = (commitRegion y).besides := by
  have hp : x.p.besides = y.p.besides := congrArg State.p h
  have hg := congrArg State.g h
  have hq : x.parts.map Partition.besides = y.parts.map Partition.besides := congrArg State.parts h
  obtain ⟨R, hR, e⟩ := releaseRegion_tweak h hb
  rw [commitRegion_eq (hs.congr h hb), e, ← commitRegion_eq hs]
  obtain ⟨k, q, hk⟩ := commitRegion_g hs
  have hv := congrArg Gang.vregs hg
  have hw := congrArg Gang.vstate hg
  have hx := congrArg Gang.preds hg
  refine tweak_besides ?_ ?_ ?_ ?_ ?_
  · rw [commitRegion_p hs]
    exact hp
  · rw [hk]
    exact hv
  · rw [hk]
    exact hw
  · rw [hk]
    exact hx
  · exact hR.trans (hq.trans (commitRegion_parts hs).symm)

/-- A commit with nothing buffered changes nothing besides. -/
theorem commitRegion_empty {x : State} (h : x.p.buffer = []) (hs : NoSpill x) : (commitRegion x).besides = x.besides := by
  rw [commitRegion_eq hs]
  unfold releaseRegion
  rw [h]
  rfl

/-- Opening a region commits the one before and changes nothing else besides. -/
theorem openRegion_besides (x : State) : (openRegion x).besides = (commitRegion x).besides := by
  unfold openRegion openOn
  dsimp only
  split <;> rfl

theorem openRegion_mem {x : State} (hs : NoSpill x) : (openRegion x).mem = x.mem := commitRegion_mem hs

theorem openRegion_buffer {x : State} (hs : NoSpill x) : (openRegion x).p.buffer = [] := by
  have h : (commitRegion x).p.buffer = [] := by rw [commitRegion_p hs]
  unfold openRegion openOn
  dsimp only
  split
  · exact h
  · exact h

/-- Opening a region leaves room in the Cuff buffer. -/
theorem NoSpill.opened {x : State} (hs : NoSpill x) : NoSpill (openRegion x) :=
  NoSpill.congr (y := commitRegion x) (openRegion_besides x) (by rw [openRegion_buffer hs, commitRegion_p hs]) hs.commit

end Sys2Proof.Machine
end

