-- ==== Sys2Proof/Laws/Issue.lean ====
section
/-! SUPPORT. Laws of the shared issue and of retirement: when an instruction passes its checks, what the entry of a region
leaves, and what the retirement of an instruction that falls through or jumps leaves (spec/08_encoding_assembly.md R177;
spec/03_logical_time.md R50; spec/09_isa_scalar_control.md R195, R205). -/

namespace Sys2Proof.Machine

/-! ### Passing the checks -/

/-- Sources that are all full are read. -/
theorem scanSources_full {s : State} {l : List (Nat × Bool)} (h : ∀ e ∈ l, regState s e.1 = .full) :
    scanSources s l = .ok := by
  induction l with
  | nil => rfl
  | cons e r ih =>
    obtain ⟨c, t⟩ := e
    have hc : regState s c = .full := h (c, t) (by simp)
    simp only [scanSources, hc]
    exact ih fun x hx => h x (by simp [hx])

/-- The state in which an instruction takes effect: its region entered, its reads and writes recorded. -/
def entered (f : Form) (s : State) : State :=
  track (f.addrs.map (·.1) ++ f.srcs.map (·.1) ++ f.reads) f.dsts (enterRegion f s)

/-- Where no held fault is delivered at an opening, an instruction enters its region and goes on. -/
theorem atOpening_quiet {f : Form} {go : State → State} {s : State} (h : deliverable s .opening = none) :
    atOpening f go s = go (enterRegion f s) := by
  unfold atOpening
  rw [h, ite_self]

/-- An instruction that passes every check takes its effect. -/
theorem issue_ok {f : Form} {check : State → Verdict} {effect : State → State} {s : State}
    (hd : (if f.turn then deliverable s .turn else if f.irrevocable then deliverable s .irrevocable else none) = none)
    (hq : deliverable s .opening = none) (hp : f.privileged = true → isPriv s = true) (hb : f.barred = true → isPriv s = false) (hf : f.bad = none)
    (ha : ∀ e ∈ f.addrs, regState s e.1 = .full) (hk : check s = .ok) (hs : ∀ e ∈ f.srcs, regState s e.1 = .full)
    (ho : overflows (f.full s) s = false) (hw : ∀ c ∈ f.dsts, regState s c = .full) :
    issue f check effect s = effect (entered f s) := by
  have h1 : (f.privileged && !isPriv s) = false := by
    cases h : f.privileged
    · rfl
    · simp [hp h]
  have h2 : (f.barred && isPriv s) = false := by
    cases h : f.barred
    · rfl
    · simp [hb h]
  have h3 : scanSources s (f.dsts.map fun c => (c, false)) = .ok := by
    apply scanSources_full
    intro e he
    obtain ⟨c, hc, rfl⟩ := List.mem_map.mp he
    exact hw c hc
  unfold issue
  rw [hd]
  simp only [h1, h2, hf, scanSources_full ha, hk, scanSources_full hs, ho, h3]
  rw [if_neg Bool.false_ne_true, if_neg Bool.false_ne_true, if_neg Bool.false_ne_true, atOpening_quiet hq]
  rfl

/-! ### What entering leaves -/

theorem track_eq (rd wr : List Nat) (s : State) :
    ∃ li w, track rd wr s = { s with p := { s.p with liveIn := li, written := w } } := by
  unfold track
  split
  · exact ⟨_, _, rfl⟩
  · exact ⟨_, _, rfl⟩

/-- Entering the region leaves everything besides, or commits the region before. -/
theorem entered_besides (f : Form) {s : State} (hr : NoSpill s) :
    ((entered f s).besides = s.besides ∧ (entered f s).p.buffer = s.p.buffer) ∨
      ((entered f s).besides = (commitRegion s).besides ∧ (entered f s).p.buffer = []) := by
  unfold entered enterRegion
  obtain ⟨li, w, h⟩ := track_eq (f.addrs.map (·.1) ++ f.srcs.map (·.1) ++ f.reads) f.dsts
    (if f.irrevocable = true then commitRegion s else if opensHere f s = true then openRegion s else s)
  rw [h]
  split
  · right
    exact ⟨rfl, by rw [commitRegion_p hr]⟩
  · split
    · right
      exact ⟨openRegion_besides s, openRegion_buffer hr⟩
    · left
      exact ⟨rfl, rfl⟩

/-- Entering the region leaves room in the Cuff buffer. -/
theorem NoSpill.entered {s : State} (hr : NoSpill s) (f : Form) : NoSpill (entered f s) := by
  rcases entered_besides f hr with ⟨h, hb⟩ | ⟨h, hb⟩
  · exact hr.congr h hb
  · exact hr.commit.congr h (by rw [hb, commitRegion_p hr])

/-- What entering the region leaves of the split. -/
structure SameSplit (x y : Split) : Prop where
  members : x.members = y.members
  pc : x.pc = y.pc
  rstack : x.rstack = y.rstack
  lr0 : x.lr0 = y.lr0
  lr1 : x.lr1 = y.lr1
  lrLater : x.lrLater = y.lrLater
  lc0 : x.lc0 = y.lc0
  lc1 : x.lc1 = y.lc1
  away : x.away = y.away
  sregs : x.sregs = y.sregs
  sstate : x.sstate = y.sstate
  wins : x.wins = y.wins
  mode : x.mode = y.mode
  exec : x.exec = y.exec
  clock : x.clock = y.clock
  fstat : x.fstat = y.fstat
  status : x.status = y.status
  cause : x.cause = y.cause
  epc : x.epc = y.epc
  entryEpc : x.entryEpc = y.entryEpc
  frec : x.frec = y.frec
  lastTurn : x.lastTurn = y.lastTurn
  lastCmd : x.lastCmd = y.lastCmd
  arrivals : x.arrivals = y.arrivals
  wait : x.wait = y.wait
  yielded : x.yielded = y.yielded
  since : x.since = y.since
  after : x.after = y.after
  redo : x.redo = y.redo
  again : x.again = y.again

theorem SameSplit.refl (x : Split) : SameSplit x x := by constructor <;> rfl

theorem SameSplit.trans {x y z : Split} (h : SameSplit x y) (k : SameSplit y z) : SameSplit x z := by
  constructor
  · exact h.members.trans k.members
  · exact h.pc.trans k.pc
  · exact h.rstack.trans k.rstack
  · exact h.lr0.trans k.lr0
  · exact h.lr1.trans k.lr1
  · exact h.lrLater.trans k.lrLater
  · exact h.lc0.trans k.lc0
  · exact h.lc1.trans k.lc1
  · exact h.away.trans k.away
  · exact h.sregs.trans k.sregs
  · exact h.sstate.trans k.sstate
  · exact h.wins.trans k.wins
  · exact h.mode.trans k.mode
  · exact h.exec.trans k.exec
  · exact h.clock.trans k.clock
  · exact h.fstat.trans k.fstat
  · exact h.status.trans k.status
  · exact h.cause.trans k.cause
  · exact h.epc.trans k.epc
  · exact h.entryEpc.trans k.entryEpc
  · exact h.frec.trans k.frec
  · exact h.lastTurn.trans k.lastTurn
  · exact h.lastCmd.trans k.lastCmd
  · exact h.arrivals.trans k.arrivals
  · exact h.wait.trans k.wait
  · exact h.yielded.trans k.yielded
  · exact h.since.trans k.since
  · exact h.after.trans k.after
  · exact h.redo.trans k.redo
  · exact h.again.trans k.again

/-- The lanes that a split holds on their slices. -/
theorem SameSplit.held {x y : Split} (h : SameSplit x y) : x.held = y.held := by
  rw [Split.held, Split.held, h.members, h.away]

theorem commitRegion_split {s : State} (hr : NoSpill s) : SameSplit (commitRegion s).p s.p := by
  rw [commitRegion_p hr]
  constructor <;> rfl

theorem openOn_split (n : Nat) (g : Gang) (q : Split) : SameSplit (openOn n g q).2 q := by
  unfold openOn
  split <;> constructor <;> rfl

theorem openRegion_split {s : State} (hr : NoSpill s) : SameSplit (openRegion s).p s.p :=
  (openOn_split _ _ _).trans (commitRegion_split hr)

theorem openOn_gang (n : Nat) (g : Gang) (q : Split) : ∃ k, (openOn n g q).1 = { g with serial := k } := by
  unfold openOn
  split
  · exact ⟨_, rfl⟩
  · exact ⟨_, rfl⟩

/-- The gang after a region has opened: its serial and its Cuff buffer may differ. -/
theorem openRegion_gang {s : State} (hr : NoSpill s) :
    ∃ k c q, (openRegion s).g = { s.g with serial := k, cuff := c, cuffSeq := q } := by
  obtain ⟨c, q, h⟩ := commitRegion_g hr
  obtain ⟨k, hk⟩ := openOn_gang (commitRegion s).nextId (commitRegion s).g (commitRegion s).p
  exact ⟨k, c, q, by show (openOn _ _ _).1 = _; rw [hk, h]⟩

theorem track_split (rd wr : List Nat) (s : State) : SameSplit (track rd wr s).p s.p := by
  obtain ⟨li, w, h⟩ := track_eq rd wr s
  rw [h]
  constructor <;> rfl

theorem enterRegion_split (f : Form) {s : State} (hr : NoSpill s) : SameSplit (enterRegion f s).p s.p := by
  unfold enterRegion
  split
  · exact commitRegion_split hr
  · split
    · exact openRegion_split hr
    · exact .refl _

/-- Entering the region leaves the split's registers, its pc and its clock. -/
theorem entered_split (f : Form) {s : State} (hr : NoSpill s) : SameSplit (entered f s).p s.p :=
  (track_split _ _ _).trans (enterRegion_split f hr)

/-- Entering the region leaves the gang but for its serial and its Cuff buffer. -/
theorem entered_gang (f : Form) {s : State} (hr : NoSpill s) :
    ∃ k c q, (entered f s).g = { s.g with serial := k, cuff := c, cuffSeq := q } := by
  unfold entered
  obtain ⟨li, w, h⟩ := track_eq (f.addrs.map (·.1) ++ f.srcs.map (·.1) ++ f.reads) f.dsts (enterRegion f s)
  rw [h]
  unfold enterRegion
  dsimp only
  split
  · obtain ⟨c, q, h⟩ := commitRegion_g hr
    exact ⟨_, c, q, h⟩
  · split
    · exact openRegion_gang hr
    · exact ⟨_, _, _, rfl⟩

theorem entered_parts (f : Form) {s : State} (hr : NoSpill s) :
    (entered f s).parts.map Partition.besides = s.parts.map Partition.besides := by
  unfold entered
  obtain ⟨li, w, h⟩ := track_eq (f.addrs.map (·.1) ++ f.srcs.map (·.1) ++ f.reads) f.dsts (enterRegion f s)
  rw [h]
  unfold enterRegion
  dsimp only
  split
  · exact commitRegion_parts hr
  · split
    · exact commitRegion_parts hr
    · rfl

/-! ### Back edges -/

/-- What back edges depend on. -/
structure SameLoops (x y : Split) : Prop where
  pc : x.pc = y.pc
  rstack : x.rstack = y.rstack
  lr0 : x.lr0 = y.lr0
  lr1 : x.lr1 = y.lr1
  lrLater : x.lrLater = y.lrLater
  lc0 : x.lc0 = y.lc0
  lc1 : x.lc1 = y.lc1

theorem SameSplit.loops {x y : Split} (h : SameSplit x y) : SameLoops x y :=
  ⟨h.pc, h.rstack, h.lr0, h.lr1, h.lrLater, h.lc0, h.lc1⟩

/-- The outcomes of back edges agree. -/
structure SameEdges (x y : BackEdges) : Prop where
  count : x.count = y.count
  repeats : x.repeats = y.repeats
  loops : SameLoops x.split y.split

theorem backEdge_congr {x y : BackEdges} (one : Bool) (h : SameEdges x y) :
    SameEdges (backEdge one x) (backEdge one y) := by
  obtain ⟨⟨q, pc, rs, l0, l1, ll, c0, c1⟩, n, cs, r, b⟩ := x
  obtain ⟨⟨q', pc', rs', l0', l1', ll', c0', c1'⟩, n', cs', r', b'⟩ := y
  obtain ⟨h1, h2, ⟨h3, h4, h5, h6, h7, h8, h9⟩⟩ := h
  dsimp only at *
  subst h1 h2 h3 h4 h5 h6 h7 h8 h9
  refine ⟨rfl, by cases one <;> rfl, ?_⟩
  unfold backEdge
  cases one
  · by_cases h : c0.toNat ≤ 1 <;> simp only [h, decide_true, decide_false, if_true, if_false, Bool.false_eq_true] <;> constructor <;> rfl
  · by_cases h : c1.toNat ≤ 1 <;> simp only [h, decide_true, decide_false, if_true, if_false, Bool.false_eq_true] <;> constructor <;> rfl

theorem atBackEdge_congr {x y : Split} (n : Word) (h : SameLoops x y) (r : Option LoopRec) :
    atBackEdge x n r = atBackEdge y n r := by
  cases r <;> simp [atBackEdge, h.rstack]

theorem backEdges_congr {x y : Split} (n : Word) (h : SameLoops x y) : SameEdges (backEdges x n) (backEdges y n) := by
  have h0 : SameEdges { split := { x with pc := n }, count := 0, codes := [], repeats := false, boundary := false }
      { split := { y with pc := n }, count := 0, codes := [], repeats := false, boundary := false } :=
    ⟨rfl, rfl, ⟨rfl, h.rstack, h.lr0, h.lr1, h.lrLater, h.lc0, h.lc1⟩⟩
  have e0 : atBackEdge x n x.lr0 = atBackEdge y n y.lr0 := by rw [atBackEdge_congr n h, h.lr0]
  have e1 : atBackEdge x n x.lr1 = atBackEdge y n y.lr1 := by rw [atBackEdge_congr n h, h.lr1]
  have el := h.lrLater
  unfold backEdges
  dsimp only
  generalize ({ split := { x with pc := n }, count := 0, codes := [], repeats := false, boundary := false } : BackEdges) = bx at *
  generalize ({ split := { y with pc := n }, count := 0, codes := [], repeats := false, boundary := false } : BackEdges) = b at *
  rw [e0, e1, el]
  split
  · exact h0
  · exact backEdge_congr _ h0
  · exact backEdge_congr _ h0
  · have h1 := backEdge_congr y.lrLater h0
    rw [h1.repeats]
    split
    · exact h1
    · exact backEdge_congr _ h1

/-- A back edge changes the pc, the counters and the records of the split, and nothing else. -/
theorem backEdge_split (one : Bool) (b : BackEdges) :
    ∃ n i j k l, (backEdge one b).split = { b.split with pc := n, lr0 := i, lr1 := j, lc0 := k, lc1 := l } := by
  unfold backEdge
  cases one
  · by_cases h : b.split.lc0.toNat ≤ 1 <;>
      simp only [h, decide_true, decide_false, if_true, if_false, Bool.false_eq_true] <;> exact ⟨_, _, _, _, _, rfl⟩
  · by_cases h : b.split.lc1.toNat ≤ 1 <;>
      simp only [h, decide_true, decide_false, if_true, if_false, Bool.false_eq_true] <;> exact ⟨_, _, _, _, _, rfl⟩

theorem backEdges_split (q : Split) (n : Word) :
    ∃ m i j k l, (backEdges q n).split = { q with pc := m, lr0 := i, lr1 := j, lc0 := k, lc1 := l } := by
  have two : ∀ (a b : Bool) (x : BackEdges), (∃ m i j k l, x.split = { q with pc := m, lr0 := i, lr1 := j, lc0 := k, lc1 := l }) →
      ∃ m i j k l, (backEdge a x).split = { q with pc := m, lr0 := i, lr1 := j, lc0 := k, lc1 := l } := by
    rintro a b x ⟨m, i, j, k, l, h⟩
    obtain ⟨m', i', j', k', l', h'⟩ := backEdge_split a x
    rw [h] at h'
    exact ⟨m', i', j', k', l', h'⟩
  unfold backEdges
  dsimp only
  split
  · exact ⟨_, _, _, _, _, rfl⟩
  · exact two _ true _ ⟨_, _, _, _, _, rfl⟩
  · exact two _ true _ ⟨_, _, _, _, _, rfl⟩
  · split
    · exact two _ true _ ⟨_, _, _, _, _, rfl⟩
    · exact two _ true _ (two _ true _ ⟨_, _, _, _, _, rfl⟩)

theorem backEdge_count (one : Bool) (b : BackEdges) : (backEdge one b).count = b.count + 1 := rfl

/-- With no back edge the split goes on at the next instruction. -/
theorem backEdges_none {q : Split} {n : Word} (h : (backEdges q n).count = 0) : (backEdges q n).split = { q with pc := n } := by
  unfold backEdges at *
  dsimp only at *
  split at h
  · rfl
  · rw [backEdge_count] at h
    omega
  · rw [backEdge_count] at h
    omega
  · split at h <;> rw [backEdge_count] at h <;> omega

/-! ### Retirement -/

theorem addClock_eq (n : Nat) (s : State) : addClock n s = { s with p := { s.p with clock := clockAfter n s } } := by
  unfold addClock clockAfter
  split <;> rfl

/-- Retirement counts an event and clears the wait of the split. -/
theorem retired_eq (s : State) :
    ∃ Q, retired s = { s with p := { s.p with fresh := false, wait := .none }, parts := Q }
      ∧ Q.map Partition.besides = s.parts.map Partition.besides := by
  obtain ⟨Q, h, hq⟩ := countEvent_parts s.g.launch 2 1 { s with p := { s.p with fresh := false, wait := .none } }
  exact ⟨Q, h, hq⟩

theorem rotate_none {s : State} (h : NoRotation s) : rotate s = s := by
  unfold rotate
  dsimp only
  rcases h with h | h
  · rw [h]
    rfl
  · rw [h, Bool.or_true]
    rfl

theorem Agrees.refl (s : State) : Agrees s s := .inl ⟨rfl, rfl⟩

/-- An instruction that falls through and whose slices do not rotate is done. -/
theorem finish_done (w : Nat) {x : State} (room : NoSpill x) (h : (edges x).repeats = true → NoRotation x) : Done w x (finish w x) := by
  obtain ⟨Q, hy, hQ⟩ := retired_eq (addClock w x)
  rw [addClock_eq] at hy hQ
  set y := retired (addClock w x) with hyd
  have hy' : y = { x with p := { x.p with clock := clockAfter w x, fresh := false, wait := .none }, parts := Q } := by
    rw [hyd, addClock_eq, hy]
  have hb : y.besides = x.besides := by
    rw [hy']
    unfold State.besides
    dsimp only
    rw [hQ]
    rfl
  have hbuf : y.p.buffer = x.p.buffer := by rw [hy']
  have hl : SameLoops y.p x.p := by
    rw [hy']
    constructor <;> rfl
  have he := backEdges_congr (x.p.pc + 4) hl
  have hpc : y.p.pc = x.p.pc := hl.pc
  have hclk : y.p.clock = clockAfter w x := by rw [hy']
  have hpriv : isPriv y = isPriv x := by rw [hy']; rfl
  have hwait : y.p.wait = .none := by rw [hy']
  have hmem : y.mem = x.mem := by rw [hy']
  have hrot : NoRotation x → NoRotation y := by
    intro hn
    rcases hn with hn | hn
    · left
      rw [hy']
      exact hn
    · right
      rw [hpriv, hn]
  show Done w x (fallThrough y)
  unfold fallThrough
  dsimp only
  rw [hpc]
  set b := backEdges y.p (x.p.pc + 4) with hbd
  have hcount : b.count = (edges x).count := he.count
  obtain ⟨m, i, j, k, l, hs⟩ := backEdges_split y.p (x.p.pc + 4)
  rw [← hbd] at hs
  split
  · rename_i h0
    have hn : b.split = { y.p with pc := x.p.pc + 4 } := backEdges_none h0
    have e : ({ y with p := { y.p with pc := x.p.pc + 4 } } : State) = { y with p := b.split } := by rw [hn]
    rw [e]
    refine ⟨he.loops.pc, ⟨he.loops.lc0, he.loops.lc1, he.loops.lr0, he.loops.lr1⟩, ?_, ?_, .inl ⟨?_, ?_⟩, ?_⟩
    · rw [hn, ← hcount, h0]
      exact hclk
    · rw [hn]
      exact hwait
    · rw [← hb, hn]
      rfl
    · rw [hn]
      exact hbuf
    · intro a
      rw [hmem]
  · have hz : Done w x (addClock b.count { y with p := b.split }) ∧ isPriv (addClock b.count { y with p := b.split }) = isPriv x
        ∧ (addClock b.count { y with p := b.split }).p.buffer = x.p.buffer
        ∧ (addClock b.count { y with p := b.split }).besides = x.besides
        ∧ rotatable (addClock b.count { y with p := b.split }) = rotatable x := by
      rw [addClock_eq]
      have hp' : isPriv ({ y with p := b.split } : State) = isPriv x := by
        rw [← hpriv]
        show b.split.status.getLsbD 0 = y.p.status.getLsbD 0
        rw [hs]
      refine ⟨⟨he.loops.pc, ⟨he.loops.lc0, he.loops.lc1, he.loops.lr0, he.loops.lr1⟩, ?_, ?_, .inl ⟨?_, ?_⟩, ?_⟩, hp', ?_, ?_, ?_⟩
      · show clockAfter b.count { y with p := b.split } = _
        have hc : b.split.clock = clockAfter w x := by
          rw [hs]
          exact hclk
        unfold clockAfter at *
        rw [hp', hc, hcount]
        cases isPriv x
        · simp only [Bool.false_eq_true, if_false, BitVec.ofNat_add, BitVec.add_assoc]
        · rfl
      · show b.split.wait = _
        rw [hs]
        exact hwait
      · rw [← hb, hs]
        rfl
      · show b.split.buffer = _
        rw [hs]
        exact hbuf
      · intro a
        rw [hmem]
      · show b.split.buffer = _
        rw [hs]
        exact hbuf
      · rw [← hb, hs]
        rfl
      · rw [hs, hy']
        rfl
    obtain ⟨hd, hp, hbf, hbs, hr⟩ := hz
    set z := addClock b.count { y with p := b.split } with hzd
    have hopen : ∀ v : State, SameSplit v.p z.p → Agrees v x → v.mem = z.mem → Done w x v := by
      intro v hv ha hm
      refine ⟨hv.pc.trans hd.pc, ⟨hv.lc0.trans hd.loops.1, hv.lc1.trans hd.loops.2.1, hv.lr0.trans hd.loops.2.2.1,
        hv.lr1.trans hd.loops.2.2.2⟩, hv.clock.trans hd.clock, hv.wait.trans hd.wait, ha, fun a => ?_⟩
      rw [hm]
      exact hd.memory a
    have final : ∀ v : State, SameSplit v.p z.p → Agrees v x → v.mem = z.mem → rotatable v = rotatable z →
        Done w x (if b.repeats = true then rotate v else v) := by
      intro v hv ha hm hro
      split
      · rename_i hrep
        have hn : NoRotation v := by
          rcases h (he.repeats.symm.trans hrep) with hn | hn
          · left
            rw [hro, hr, hn]
          · right
            show v.p.status.getLsbD 0 = true
            rw [hv.status]
            exact hp.trans hn
        rw [rotate_none hn]
        exact hopen v hv ha hm
      · exact hopen v hv ha hm
    suffices hv : ∀ v, v = (if (b.boundary && z.p.entry.isSome) = true then openRegion z else
        track b.codes b.codes z) →
        SameSplit v.p z.p ∧ Agrees v x ∧ v.mem = z.mem ∧ rotatable v = rotatable z by
      obtain ⟨h1, h2, h3, h4⟩ := hv _ rfl
      exact final _ h1 h2 h3 h4
    rintro v rfl
    split
    · have hz : NoSpill z := room.congr hbs hbf
      refine ⟨openRegion_split hz, .inr ⟨?_, openRegion_buffer hz⟩, openRegion_mem hz, ?_⟩
      · rw [openRegion_besides]
        exact commitRegion_besides hbs hbf room
      · unfold rotatable slicesOf stackOf
        rw [(openRegion_split hz).held]
        obtain ⟨k, c, q, hk⟩ := openRegion_gang hz
        rw [hk]
    · obtain ⟨li, wr, ht⟩ := track_eq b.codes b.codes z
      rw [ht]
      exact ⟨by constructor <;> rfl, .inl ⟨hbs, hbf⟩, rfl, rfl⟩

end Sys2Proof.Machine
end

