-- ==== Sys2Proof/Laws/Regs.lean ====
section
/-! SUPPORT. Instructions whose effect is on registers alone: the registers of a split in one record, and what such an
instruction leaves (spec/08_encoding_assembly.md R176; spec/02_work_hierarchy.md R39 to R41). -/

namespace Sys2Proof.Machine

/-- The registers of the split at issue. -/
structure Regs where
  sregs : SMap Word
  sstate : SMap RegState
  wins : SMap Window
  mode : Word
  exec : BitVec 64
  fstat : Word
  lc0 : BitVec 32
  lc1 : BitVec 32
  lr0 : Option LoopRec
  lr1 : Option LoopRec
  lrLater : Bool
  rstack : List Word
  epc : Word
  yielded : Nat
  since : Option Nat
  vregs : SMap (BitVec 32)
  vstate : SMap RegState
  preds : SMap Bool

/-- The registers of a state. -/
def regsOfState (s : State) : Regs where
  sregs := s.p.sregs
  sstate := s.p.sstate
  wins := s.p.wins
  mode := s.p.mode
  exec := s.p.exec
  fstat := s.p.fstat
  lc0 := s.p.lc0
  lc1 := s.p.lc1
  lr0 := s.p.lr0
  lr1 := s.p.lr1
  lrLater := s.p.lrLater
  rstack := s.p.rstack
  epc := s.p.epc
  yielded := s.p.yielded
  since := s.p.since
  vregs := s.g.vregs
  vstate := s.g.vstate
  preds := s.g.preds

/-- The split with given registers. -/
def putSplit (r : Regs) (q : Split) : Split :=
  { q with
    sregs := r.sregs, sstate := r.sstate, wins := r.wins, mode := r.mode, exec := r.exec, fstat := r.fstat
    lc0 := r.lc0, lc1 := r.lc1, lr0 := r.lr0, lr1 := r.lr1, lrLater := r.lrLater, rstack := r.rstack, epc := r.epc
    yielded := r.yielded, since := r.since }

/-- The state with given registers. -/
def putRegs (r : Regs) (s : State) : State :=
  { s with p := putSplit r s.p, g := { s.g with vregs := r.vregs, vstate := r.vstate, preds := r.preds } }

theorem putRegs_besides {r : Regs} {x y : State} (h : x.besides = y.besides) :
    (putRegs r x).besides = (putRegs r y).besides := by
  have e := congrArg (fun s => { putRegs r s with p := (putSplit r s.p).besides, g := { (putRegs r s).g with serial := 0 } }) h
  exact e

/-- The release of a region does not see the registers. -/
theorem releaseRegion_putRegs (r : Regs) (s : State) : releaseRegion (putRegs r s) = putRegs r (releaseRegion s) := by
  have v : Unseen (putSplit r { s.p with buffer := [], entry := none, fresh := false, liveIn := [], written := [] })
      s.parts { s with p := { s.p with buffer := [], entry := none, fresh := false, liveIn := [], written := [] } } :=
    ⟨rfl, rfl, rfl, fun _ => rfl⟩
  obtain ⟨hp, -, ⟨k, q, hk⟩, F, -, hq, ht⟩ := releaseAll_releases s.p.buffer
    { s with p := { s.p with buffer := [], entry := none, fresh := false, liveIn := [], written := [] } }
  have h1 : releaseRegion (putRegs r s) = tweak (putSplit r { s.p with
      buffer := [], entry := none, fresh := false, liveIn := [], written := [] }) r.vregs r.vstate r.preds s.g.serial
      (F s.parts) (releaseRegion s) := ht _ r.vregs r.vstate r.preds s.g.serial _ v
  rw [h1]
  change (releaseRegion s).p = _ at hp
  change (releaseRegion s).parts = _ at hq
  change (releaseRegion s).g = _ at hk
  unfold tweak putRegs
  rw [hp, hq, hk]

/-- Room in the Cuff buffer does not depend on the registers. -/
theorem NoSpill.putRegs {s : State} (hr : NoSpill s) (r : Regs) : NoSpill (Sys2Proof.Machine.putRegs r s) := by
  unfold NoSpill at *
  rw [releaseRegion_putRegs]
  exact hr

theorem commitRegion_putRegs (r : Regs) {s : State} (hr : NoSpill s) :
    commitRegion (Sys2Proof.Machine.putRegs r s) = Sys2Proof.Machine.putRegs r (commitRegion s) := by
  rw [commitRegion_eq (hr.putRegs r), releaseRegion_putRegs, commitRegion_eq hr]

theorem entered_mem (f : Form) {s : State} (hr : NoSpill s) : (entered f s).mem = s.mem := by
  unfold entered
  obtain ⟨li, w, h⟩ := track_eq (f.addrs.map (·.1) ++ f.srcs.map (·.1) ++ f.reads) f.dsts (enterRegion f s)
  rw [h]
  unfold enterRegion
  dsimp only
  split
  · exact commitRegion_mem hr
  · split
    · exact openRegion_mem hr
    · rfl

theorem putRegs_loops (r : Regs) {x y : State} (h : SameSplit x.p y.p) :
    SameLoops (putRegs r x).p (putRegs r y).p := by
  refine ⟨h.pc, rfl, rfl, rfl, rfl, rfl, rfl⟩

/-- What an instruction on registers alone leaves is said over the state before its region was entered. -/
theorem Agrees.of_entered {r : Regs} {f : Form} {s t : State} (hr : NoSpill s) (h : Agrees t (putRegs r (entered f s))) :
    Agrees t (putRegs r s) := by
  rcases entered_besides f hr with ⟨hb, hf⟩ | ⟨hb, hf⟩
  · have e : (putRegs r (entered f s)).besides = (putRegs r s).besides := putRegs_besides hb
    rcases h with ⟨h, hb⟩ | ⟨h, hb⟩
    · exact .inl ⟨h.trans e, hb.trans hf⟩
    · exact .inr ⟨h.trans (commitRegion_besides e hf (hr.putRegs r)), hb⟩
  · have e : (putRegs r (entered f s)).besides = (commitRegion (putRegs r s)).besides := by
      rw [commitRegion_putRegs r hr]
      exact putRegs_besides hb
    rcases h with ⟨h, hb⟩ | ⟨h, hb⟩
    · exact .inr ⟨h.trans e, hb.trans hf⟩
    · exact .inr ⟨h.trans ((commitRegion_empty (x := putRegs r (entered f s)) hf ((hr.entered f).putRegs r)).trans e), hb⟩

theorem clockAfter_congr {x y : State} (n : Nat) (h : SameSplit x.p y.p) (r : Regs) :
    clockAfter n (putRegs r x) = clockAfter n (putRegs r y) := by
  unfold clockAfter isPriv putRegs putSplit
  dsimp only
  rw [h.status, h.clock]

theorem Done.of_entered {r : Regs} {f : Form} {s t : State} {w : Nat} (hr : NoSpill s) (h : Done w (putRegs r (entered f s)) t) :
    Done w (putRegs r s) t := by
  have hs := entered_split f hr
  have hl := putRegs_loops r hs
  have hpc : (putRegs r (entered f s)).p.pc = (putRegs r s).p.pc := hl.pc
  have he : SameEdges (edges (putRegs r (entered f s))) (edges (putRegs r s)) := by
    unfold edges
    rw [hpc]
    exact backEdges_congr _ hl
  refine ⟨h.pc.trans he.loops.pc, ⟨h.loops.1.trans he.loops.lc0, h.loops.2.1.trans he.loops.lc1,
    h.loops.2.2.1.trans he.loops.lr0, h.loops.2.2.2.trans he.loops.lr1⟩, ?_, h.wait, h.rest.of_entered hr, ?_⟩
  · rw [h.clock, he.count, clockAfter_congr _ hs]
  · intro a
    rw [h.memory]
    show memByte (entered f s).mem a = _
    rw [entered_mem f hr]
    rfl

theorem rotatable_entered (f : Form) {s : State} (hr : NoSpill s) : rotatable (entered f s) = rotatable s := by
  unfold rotatable slicesOf stackOf
  rw [(entered_split f hr).held]
  obtain ⟨k, c, q, h⟩ := entered_gang f hr
  rw [h]

theorem isPriv_entered (f : Form) {s : State} (hr : NoSpill s) : isPriv (entered f s) = isPriv s := by
  unfold isPriv
  rw [(entered_split f hr).status]

theorem edges_congr {x y : State} (h : SameLoops x.p y.p) : SameEdges (edges x) (edges y) := by
  unfold edges
  rw [h.pc]
  exact backEdges_congr _ h

/-- Entering a region leaves every register. -/
theorem regs_entered (f : Form) {s : State} (hr : NoSpill s) : regsOfState (entered f s) = regsOfState s := by
  have h := entered_split f hr
  obtain ⟨k, c, q, hg⟩ := entered_gang f hr
  unfold regsOfState
  rw [hg, h.sregs, h.sstate, h.wins, h.mode, h.exec, h.fstat, h.lc0, h.lc1, h.lr0, h.lr1, h.lrLater, h.rstack, h.epc, h.yielded, h.since]

/-- Two states with the same registers and the same lanes read the same. -/
theorem getS_regs {x y : State} (h : regsOfState x = regsOfState y) (n : Nat) : getS x n = getS y n := by
  unfold getS
  have e := congrArg Regs.sregs h
  exact congrArg (fun m => mapGet 0 m n) e

@[simp] theorem getS_entered (f : Form) {s : State} (hr : NoSpill s) (n : Nat) : getS (entered f s) n = getS s n :=
  getS_regs (regs_entered f hr) n

@[simp] theorem getV_entered (f : Form) {s : State} (hr : NoSpill s) (n l : Nat) : getV (entered f s) n l = getV s n l := by
  have e := congrArg Regs.vregs (regs_entered f hr)
  exact congrArg (fun m => mapGet 0 m (n * 64 + l)) e

@[simp] theorem getP_entered (f : Form) {s : State} (hr : NoSpill s) (n l : Nat) : getP (entered f s) n l = getP s n l := by
  have e := congrArg Regs.preds (regs_entered f hr)
  exact congrArg (fun m => mapGet false m (n * 64 + l)) e

@[simp] theorem getW_entered (f : Form) {s : State} (hr : NoSpill s) (n : Nat) : getW (entered f s) n = getW s n := by
  have e := congrArg Regs.wins (regs_entered f hr)
  exact congrArg (fun m => mapGet Window.closed m n) e

@[simp] theorem mode_entered (f : Form) {s : State} (hr : NoSpill s) : (entered f s).p.mode = s.p.mode := (entered_split f hr).mode

@[simp] theorem exec_entered (f : Form) {s : State} (hr : NoSpill s) : (entered f s).p.exec = s.p.exec := (entered_split f hr).exec

@[simp] theorem members_entered (f : Form) {s : State} (hr : NoSpill s) : (entered f s).p.members = s.p.members :=
  (entered_split f hr).members

@[simp] theorem pc_entered (f : Form) {s : State} (hr : NoSpill s) : (entered f s).p.pc = s.p.pc := (entered_split f hr).pc

@[simp] theorem width_entered (f : Form) {s : State} (hr : NoSpill s) : (entered f s).g.width = s.g.width := by
  obtain ⟨k, c, q, hg⟩ := entered_gang f hr
  rw [hg]

/-! ### What an instruction reads is the same before and after its region is entered -/

@[simp] theorem regState_entered (f : Form) {s : State} (hr : NoSpill s) (c : Nat) : regState (entered f s) c = regState s c := by
  have e1 := congrArg Regs.sstate (regs_entered f hr)
  have e2 := congrArg Regs.vstate (regs_entered f hr)
  change (entered f s).p.sstate = s.p.sstate at e1
  change (entered f s).g.vstate = s.g.vstate at e2
  unfold regState
  rw [e1, e2]

@[simp] theorem fieldBits_entered (f : Form) {s : State} (hr : NoSpill s) (x : Nat) (w : Bool) (i : Nat) :
    fieldBits (entered f s) x w i = fieldBits s x w i := by
  simp only [fieldBits, getS_entered f hr, getV_entered f hr]

@[simp] theorem elemOf_entered (f : Form) {s : State} (hr : NoSpill s) (t : Ty) (x i : Nat) :
    elemOf (entered f s) t x i = elemOf s t x i := by
  simp only [elemOf, fieldBits_entered f hr]

@[simp] theorem regBytes_entered (f : Form) {s : State} (hr : NoSpill s) (d r i : Nat) :
    regBytes (entered f s) d r i = regBytes s d r i := by
  simp only [regBytes, getV_entered f hr]

@[simp] theorem elemTy_entered (f : Form) {s : State} (hr : NoSpill s) : elemTy (entered f s) = elemTy s := by
  simp only [elemTy, modeT, mode_entered f hr]

@[simp] theorem modeRm_entered (f : Form) {s : State} (hr : NoSpill s) : modeRm (entered f s) = modeRm s := by
  simp only [modeRm, mode_entered f hr]

@[simp] theorem modeFz_entered (f : Form) {s : State} (hr : NoSpill s) : modeFz (entered f s) = modeFz s := by
  simp only [modeFz, mode_entered f hr]

@[simp] theorem modeCv_entered (f : Form) {s : State} (hr : NoSpill s) (k : Nat) : modeCv (entered f s) k = modeCv s k := by
  simp only [modeCv, mode_entered f hr]

@[simp] theorem activeLanes_entered (f : Form) {s : State} (hr : NoSpill s) : activeLanes (entered f s) = activeLanes s := by
  have h : guardOk (entered f s) = guardOk s := by
    funext i
    simp only [guardOk, mode_entered f hr, getP_entered f hr]
  simp only [activeLanes, exec_entered f hr, members_entered f hr, h]

@[simp] theorem activeMask_entered (f : Form) {s : State} (hr : NoSpill s) : activeMask (entered f s) = activeMask s := by
  simp only [activeMask, activeLanes_entered f hr]

@[simp] theorem clock_entered (f : Form) {s : State} (hr : NoSpill s) : (entered f s).p.clock = s.p.clock := (entered_split f hr).clock

@[simp] theorem status_entered (f : Form) {s : State} (hr : NoSpill s) : (entered f s).p.status = s.p.status := (entered_split f hr).status

@[simp] theorem fstat_entered (f : Form) {s : State} (hr : NoSpill s) : (entered f s).p.fstat = s.p.fstat := (entered_split f hr).fstat

@[simp] theorem rstack_entered (f : Form) {s : State} (hr : NoSpill s) : (entered f s).p.rstack = s.p.rstack := (entered_split f hr).rstack

@[simp] theorem wait_entered (f : Form) {s : State} (hr : NoSpill s) : (entered f s).p.wait = s.p.wait := (entered_split f hr).wait

/-! ### Launches: a discard of an open region is noted in its launch, and nothing else of it changes -/

/-- A launch without the discards it has noted. -/
def Launch.plain (l : Launch) : Launch := { l with discards := [] }

theorem find_plain {l m : List Launch} (h : l.map Launch.plain = m.map Launch.plain) (n : Nat) :
    ((findFirst (fun x => x.id == n) l).getD Launch.vacant).plain
      = ((findFirst (fun x => x.id == n) m).getD Launch.vacant).plain := by
  induction l generalizing m with
  | nil => cases m with
    | nil => rfl
    | cons r t => simp at h
  | cons q s ih =>
    cases m with
    | nil => simp at h
    | cons r t =>
      simp only [List.map_cons, List.cons.injEq] at h
      obtain ⟨h1, h2⟩ := h
      have hid : q.id = r.id := by
        have e := congrArg Launch.id h1
        exact e
      simp only [findFirst, hid]
      split
      · exact h1
      · exact ih h2

theorem mapLaunch_plain (n : Nat) (f : Launch → Launch) (hf : ∀ l, (f l).plain = l.plain) (s : State) :
    (mapLaunch n f s).launches.map Launch.plain = s.launches.map Launch.plain := by
  unfold mapLaunch
  dsimp only
  generalize s.launches = l
  induction l with
  | nil => rfl
  | cons a r ih =>
    rw [updateWhere, List.map_cons, List.map_cons, ih]
    congr 1
    split
    · exact hf a
    · rfl

theorem foldl_cuff_launches (e : BufStore) (d : List Byte) (l : List Nat) (x : State) :
    (l.foldl (cuffLine e d) x).launches = x.launches := by
  induction l generalizing x with
  | nil => rfl
  | cons h t ih => exact ih (cuffLine e d x h)

theorem releaseGroup_launches (l : List BufStore) (x : State) :
    (releaseGroup l x).launches.map Launch.plain = x.launches.map Launch.plain := by
  unfold releaseGroup
  split
  · rfl
  · rename_i e r
    split
    · exact congrArg _ (sendReplay_launches _ x)
    · unfold releaseStore
      split
      · split <;> rfl
      · dsimp only
        split
        · split
          · exact congrArg _ (foldl_cuff_launches e _ _ x)
          · rfl
          · exact mapLaunch_plain x.g.launch (fun l => { l with discards := l.discards ++ [_] }) (fun _ => rfl) x
          · rfl
        · rfl

theorem commitRegion_launches {x : State} (hr : NoSpill x) :
    (commitRegion x).launches.map Launch.plain = x.launches.map Launch.plain := by
  rw [commitRegion_eq hr]
  have h : ∀ (l : List (List BufStore)) (x : State),
      (l.foldl (fun s g => releaseGroup g s) x).launches.map Launch.plain = x.launches.map Launch.plain := by
    intro l
    induction l with
    | nil => intro x; rfl
    | cons a r ih => intro x; exact (ih _).trans (releaseGroup_launches a x)
  exact h _ _

theorem entered_launches (f : Form) {s : State} (hr : NoSpill s) :
    (entered f s).launches.map Launch.plain = s.launches.map Launch.plain := by
  unfold entered
  obtain ⟨li, w, h⟩ := track_eq (f.addrs.map (·.1) ++ f.srcs.map (·.1) ++ f.reads) f.dsts (enterRegion f s)
  rw [h]
  unfold enterRegion
  dsimp only
  split
  · exact commitRegion_launches hr
  · split
    · exact commitRegion_launches hr
    · rfl

/-- The launch of the split at issue, but for its discards. -/
theorem curLaunch_entered (f : Form) {s : State} (hr : NoSpill s) : (curLaunch (entered f s)).plain = (curLaunch s).plain := by
  obtain ⟨k, c, q, hg⟩ := entered_gang f hr
  unfold curLaunch launchOf
  rw [hg]
  exact find_plain (entered_launches f hr) _

/-- The partition of the split at issue, but for its event counters. -/
@[simp] theorem curPart_entered (f : Form) {s : State} (hr : NoSpill s) : (curPart (entered f s)).besides = (curPart s).besides := by
  obtain ⟨k, c, q, hg⟩ := entered_gang f hr
  unfold curPart partOf
  rw [hg]
  exact besides_nodes (entered_parts f hr) _

@[simp] theorem det_entered (f : Form) {s : State} (hr : NoSpill s) : (curLaunch (entered f s)).det = (curLaunch s).det := by
  have e := congrArg Launch.det (curLaunch_entered f hr)
  exact e

@[simp] theorem detNow_entered (f : Form) {s : State} (hr : NoSpill s) : detNow (entered f s) = detNow s := by
  simp only [detNow, det_entered f hr, isPriv_entered f hr]

@[simp] theorem gangIndex_entered (f : Form) {s : State} (hr : NoSpill s) :
    gangIndex (curLaunch (entered f s)) (entered f s).g = gangIndex (curLaunch s) s.g := by
  obtain ⟨k, c, q, hg⟩ := entered_gang f hr
  have e1 := congrArg Launch.dscope (curLaunch_entered f hr)
  have e2 := congrArg Launch.mrank (curLaunch_entered f hr)
  change (curLaunch (entered f s)).dscope = (curLaunch s).dscope at e1
  change (curLaunch (entered f s)).mrank = (curLaunch s).mrank at e2
  unfold gangIndex
  rw [e1, e2, hg]
  rfl

/-! ### The writes of registers as records of registers -/

/-- s n := v among the registers. -/
def Regs.setS (r : Regs) (n : Nat) (v : Word) : Regs :=
  { r with sregs := mapSet 0 r.sregs n v, sstate := mapSet .full r.sstate n .full }

/-- Lane l of v n := v among the registers. -/
def Regs.setV (r : Regs) (n l : Nat) (v : BitVec 32) : Regs :=
  { r with vregs := mapSet 0 r.vregs (n * 64 + l) v, vstate := mapSet .full r.vstate (n * 64 + l) .full }

/-- Lane l of p n := b among the registers. -/
def Regs.setP (r : Regs) (n l : Nat) (b : Bool) : Regs := { r with preds := mapSet false r.preds (n * 64 + l) b }

def Regs.setVAll (r : Regs) (l : List (Nat × Nat × BitVec 32)) : Regs := l.foldl (fun r e => r.setV e.1 e.2.1 e.2.2) r

def Regs.setPAll (r : Regs) (l : List (Nat × Nat × Bool)) : Regs := l.foldl (fun r e => r.setP e.1 e.2.1 e.2.2) r

theorem putRegs_self (x : State) : putRegs (regsOfState x) x = x := rfl

theorem regs_putRegs (r : Regs) (x : State) : regsOfState (putRegs r x) = r := rfl

theorem setS_putRegs (n : Nat) (v : Word) (r : Regs) (x : State) : setS n v (putRegs r x) = putRegs (r.setS n v) x := rfl

theorem setV_putRegs (n l : Nat) (v : BitVec 32) (r : Regs) (x : State) :
    setV n l v (putRegs r x) = putRegs (r.setV n l v) x := rfl

theorem setP_putRegs (n l : Nat) (b : Bool) (r : Regs) (x : State) :
    setP n l b (putRegs r x) = putRegs (r.setP n l b) x := rfl

theorem setVAll_putRegs (l : List (Nat × Nat × BitVec 32)) (r : Regs) (x : State) :
    setVAll l (putRegs r x) = putRegs (r.setVAll l) x := by
  induction l generalizing r with
  | nil => rfl
  | cons e t ih => exact ih (r.setV e.1 e.2.1 e.2.2)

theorem setPAll_putRegs (l : List (Nat × Nat × Bool)) (r : Regs) (x : State) :
    setPAll l (putRegs r x) = putRegs (r.setPAll l) x := by
  induction l generalizing r with
  | nil => rfl
  | cons e t ih => exact ih (r.setP e.1 e.2.1 e.2.2)

theorem raiseFlags_putRegs (m : BitVec 64) (r : Regs) (x : State) :
    raiseFlags m (putRegs r x) = putRegs { r with fstat := r.fstat ||| (m &&& fstatMask) } x := rfl

theorem setMode_putRegs (m : Word) (r : Regs) (x : State) :
    setMode m (putRegs r x) = putRegs { r with mode := m &&& 0x1FFFFFFFFFFFF#64 } x := rfl

theorem setW_putRegs (n : Nat) (w : Window) (r : Regs) (x : State) :
    setW n w (putRegs r x) = putRegs { r with wins := mapSet Window.closed r.wins n w } x := rfl

/-- The entry of a region, with the registers as they were. -/
theorem entered_eq (f : Form) {s : State} (hr : NoSpill s) : entered f s = putRegs (regsOfState s) (entered f s) := by
  rw [← regs_entered f hr]
  rfl

/-- Two effects of registers alone: what is written does not depend on the entry of the region. -/
theorem effect_entered {E : State → State} {r : Regs} {f : Form} {s : State}
    (h : E (putRegs (regsOfState (entered f s)) (entered f s)) = putRegs r (entered f s)) :
    E (entered f s) = putRegs r (entered f s) := h

/-- An instruction on registers alone is done, whatever it makes of the loops. -/
theorem issue_loops_done {f : Form} {check : State → Verdict} {effect : State → State} {s : State} {r : Regs} {w : Nat}
    (hr : NoSpill s) (hi : issue f check effect s = effect (entered f s)) (he : effect (entered f s) = finish w (putRegs r (entered f s)))
    (hw : (edges (putRegs r s)).repeats = true → NoRotation s) :
    Done w (putRegs r s) (issue f check effect s) := by
  rw [hi, he]
  apply Done.of_entered hr
  apply finish_done _ ((hr.entered f).putRegs r)
  intro hrep
  have hE := edges_congr (putRegs_loops r (entered_split f hr))
  rcases hw (hE.repeats.symm.trans hrep) with hn | hn
  · left
    exact (rotatable_entered f hr).trans hn
  · right
    exact (isPriv_entered f hr).trans hn

/-- An instruction on registers alone is done: it has passed its checks, and its effect writes the registers r, whether or
not its region was entered anew. -/
theorem issue_regs_done {f : Form} {check : State → Verdict} {effect : State → State} {s : State} {r : Regs} {w : Nat}
    (hr : NoSpill s) (hi : issue f check effect s = effect (entered f s)) (he : effect (entered f s) = finish w (putRegs r (entered f s)))
    (hl : SameLoops (putRegs r s).p s.p) (hw : (edges s).repeats = true → NoRotation s) :
    Done w (putRegs r s) (issue f check effect s) := by
  rw [hi, he]
  apply Done.of_entered hr
  apply finish_done _ ((hr.entered f).putRegs r)
  intro hrep
  have hE := edges_congr (putRegs_loops r (entered_split f hr))
  have hF := edges_congr hl
  rcases hw (hF.repeats.symm.trans (hE.repeats.symm.trans hrep)) with hn | hn
  · left
    exact (rotatable_entered f hr).trans hn
  · right
    exact (isPriv_entered f hr).trans hn

end Sys2Proof.Machine
end

