-- ==== Sys2Proof/Laws/Jump.lean ====
section
/-! SUPPORT. Laws of transfers: what a jump leaves (spec/09_isa_scalar_control.md R195, R206). -/

namespace Sys2Proof.Machine

theorem leaveLoops_lr0 (target : Word) (q : Split) :
    (leaveLoops target q).lr0 = q.lr0.filter (staysIn q.rstack.length target) := by
  unfold leaveLoops staysIn
  cases q.lr0 with
  | none => rfl
  | some r =>
    dsimp only [Option.filter]
    by_cases h : r.depth = q.rstack.length <;> simp [h] <;> split
      <;> simp_all
      <;> omega

theorem leaveLoops_lr1 (target : Word) (q : Split) :
    (leaveLoops target q).lr1 = q.lr1.filter (staysIn q.rstack.length target) := by
  unfold leaveLoops staysIn
  cases q.lr1 with
  | none => rfl
  | some r =>
    dsimp only [Option.filter]
    by_cases h : r.depth = q.rstack.length <;> simp [h] <;> split
      <;> simp_all
      <;> omega

theorem drop_filter (n : Nat) (x : Option LoopRec) :
    (match x with
      | none => none
      | some r => if n < r.depth then none else some r) = x.filter fun l => decide (l.depth ≤ n) := by
  cases x with
  | none => rfl
  | some r =>
    dsimp only [Option.filter]
    by_cases h : n < r.depth
    · simp [h]
    · simp [h]

theorem popReturn_eq (q : Split) : popReturn q = { q with
    rstack := q.rstack.drop 1
    lr0 := q.lr0.filter fun l => decide (l.depth ≤ (q.rstack.drop 1).length)
    lr1 := q.lr1.filter fun l => decide (l.depth ≤ (q.rstack.drop 1).length) } := by
  rw [← drop_filter, ← drop_filter]
  rfl

/-- A retired instruction that has set its pc and its loop records. -/
theorem jumped_of {w : Nat} {target : Word} {keep : LoopRec → Bool} {x : State} {a b : Option LoopRec}
    (ha : a = x.p.lr0.filter keep) (hb : b = x.p.lr1.filter keep) :
    Jumped w target keep x
      { retired (addClock w x) with p := { (retired (addClock w x)).p with pc := target, lr0 := a, lr1 := b } } := by
  obtain ⟨Q, hy, hQ⟩ := retired_eq (addClock w x)
  rw [hy]
  rw [addClock_eq] at hQ ⊢
  refine ⟨rfl, ⟨rfl, rfl, ha, hb⟩, rfl, rfl, .inl ⟨?_, rfl⟩, fun _ => rfl⟩
  unfold State.besides
  dsimp only at hQ ⊢
  rw [hQ]
  rfl

theorem retired_rotates (w : Nat) (x : State) (h : NoRotation x) (f : Split → Split)
    (hm : ∀ q, (f q).held = q.held ∧ (f q).status = q.status) :
    NoRotation { retired (addClock w x) with p := f (retired (addClock w x)).p } := by
  obtain ⟨Q, hy, hQ⟩ := retired_eq (addClock w x)
  rw [hy, addClock_eq]
  rcases h with h | h
  · left
    rw [← h]
    unfold rotatable slicesOf stackOf
    dsimp only
    rw [(hm _).1]
    rfl
  · right
    rw [← h]
    unfold isPriv
    dsimp only
    rw [(hm _).2]

/-- A jump goes to its target. -/
theorem jump_goes {w : Nat} {target : Word} {x : State} (room : NoSpill x) (h : target = x.p.pc + 4 → (edges x).repeats = true → NoRotation x)
    (hr : Unrotated target x) : Goes w target x (jump w target x) := by
  unfold Goes jump
  split
  · rename_i ht
    exact finish_done w room (h ht)
  · have hj : Jumped w target (staysIn x.p.rstack.length target) x
        { retired (addClock w x) with p := { leaveLoops target (retired (addClock w x)).p with pc := target } } := by
      refine jumped_of (a := (leaveLoops target (retired (addClock w x)).p).lr0)
        (b := (leaveLoops target (retired (addClock w x)).p).lr1) ?_ ?_
      · rw [leaveLoops_lr0]
        obtain ⟨Q, hy, hQ⟩ := retired_eq (addClock w x)
        rw [hy, addClock_eq]
      · rw [leaveLoops_lr1]
        obtain ⟨Q, hy, hQ⟩ := retired_eq (addClock w x)
        rw [hy, addClock_eq]
    dsimp only
    split
    · rename_i hb
      rw [rotate_none]
      · exact hj
      · exact retired_rotates w x (hr (of_decide_eq_true hb)) (fun q => { leaveLoops target q with pc := target })
          fun q => ⟨rfl, rfl⟩
    · exact hj

/-- A call goes to its target and leaves the loop records. -/
theorem transfer_jumped {target : Word} {x : State} (hr : Unrotated target x) :
    Jumped 1 target (fun _ => true) x (transfer target x) := by
  unfold transfer
  have hj := jumped_of (w := 1) (target := target) (keep := fun _ => true) (x := x) (a := x.p.lr0) (b := x.p.lr1)
    (by cases x.p.lr0 <;> rfl) (by cases x.p.lr1 <;> rfl)
  have e : ({ retired (addClock 1 x) with p := { (retired (addClock 1 x)).p with pc := target, lr0 := x.p.lr0, lr1 := x.p.lr1 } } : State)
      = { retired (addClock 1 x) with p := { (retired (addClock 1 x)).p with pc := target } } := by
    obtain ⟨Q, hy, hQ⟩ := retired_eq (addClock 1 x)
    rw [hy, addClock_eq]
  rw [e] at hj
  dsimp only
  split
  · rename_i hb
    rw [rotate_none]
    · exact hj
    · exact retired_rotates 1 x (hr (of_decide_eq_true hb)) (fun q => { q with pc := target }) fun q => ⟨rfl, rfl⟩
  · exact hj

theorem Jumped.of_entered {r : Regs} {f : Form} {s t : State} {w : Nat} {target : Word} {keep : LoopRec → Bool}
    (hr : NoSpill s) (h : Jumped w target keep (putRegs r (entered f s)) t) : Jumped w target keep (putRegs r s) t := by
  have hs := entered_split f hr
  refine ⟨h.pc, h.loops, ?_, h.wait, h.rest.of_entered hr, ?_⟩
  · rw [h.clock, clockAfter_congr _ hs]
  · intro a
    rw [h.memory]
    show memByte (entered f s).mem a = _
    rw [entered_mem f hr]
    rfl

theorem NoRotation.of_entered {f : Form} {s : State} (r : Regs) (hr : NoSpill s) (h : NoRotation s) : NoRotation (putRegs r (entered f s)) := by
  rcases h with h | h
  · left
    exact (rotatable_entered f hr).trans h
  · right
    exact (isPriv_entered f hr).trans h

theorem Unrotated.of_entered {f : Form} {s : State} {target : Word} (r : Regs) (hr : NoSpill s) (h : Unrotated target s) :
    Unrotated target (putRegs r (entered f s)) := fun hb => by
  have e : (putRegs r (entered f s)).p.pc = s.p.pc := (entered_split f hr).pc
  rw [e] at hb
  exact (h hb).of_entered r hr

theorem whole_of_entered {f : Form} {s : State} {r : Regs} (hr : NoSpill s) (hl : SameLoops (putRegs r s).p s.p)
    (hw : (edges s).repeats = true → NoRotation s) :
    (edges (putRegs r (entered f s))).repeats = true → NoRotation (putRegs r (entered f s)) := by
  intro hrep
  have hE := edges_congr (putRegs_loops r (entered_split f hr))
  have hF := edges_congr hl
  exact (hw (hF.repeats.symm.trans (hE.repeats.symm.trans hrep))).of_entered r hr

theorem Goes.of_entered {r : Regs} {f : Form} {s t : State} {w : Nat} {target : Word}
    (hr : NoSpill s) (h : Goes w target (putRegs r (entered f s)) t) : Goes w target (putRegs r s) t := by
  have e : (putRegs r (entered f s)).p.pc = (putRegs r s).p.pc := (entered_split f hr).pc
  unfold Goes at *
  rw [e] at h
  split
  · rename_i ht
    rw [if_pos ht] at h
    exact h.of_entered hr
  · rename_i ht
    rw [if_neg ht] at h
    exact Jumped.of_entered hr h

/-- A jump of an instruction that has passed its checks and writes registers alone. -/
theorem issue_jump_goes {f : Form} {check : State → Verdict} {effect : State → State} {s : State} {r : Regs} {w : Nat}
    {target : Word} (room : NoSpill s) (hi : issue f check effect s = effect (entered f s))
    (he : effect (entered f s) = jump w target (putRegs r (entered f s)))
    (hw : target = s.p.pc + 4 → (edges (putRegs r s)).repeats = true → NoRotation s) (hu : Unrotated target s) :
    Goes w target (putRegs r s) (issue f check effect s) := by
  rw [hi, he]
  apply Goes.of_entered (f := f) room
  refine jump_goes ((room.entered f).putRegs r) (fun ht hrep => ?_) (hu.of_entered r room)
  have e : (putRegs r (entered f s)).p.pc = s.p.pc := (entered_split f room).pc
  rw [e] at ht
  exact (hw ht ((edges_congr (putRegs_loops r (entered_split f room))).repeats.symm.trans hrep)).of_entered r room

/-! ### Branches by lane (R30) -/

theorem laneChoices_const {s : State} {act : List Nat} {g : Nat → Word} {t : Word} (ha : act ≠ []) (hg : ∀ i ∈ act, g i = t)
    {e : Nat × Word} (he : e ∈ laneChoices s (act.map fun i => (i, g i))) : e.2 = t := by
  cases act with
  | nil => exact absurd rfl ha
  | cons a r =>
    have hall : ∀ x ∈ ((a :: r).map fun i => (i, g i)), x.2 = t := by
      intro x hx
      obtain ⟨i, hi, rfl⟩ := List.mem_map.mp hx
      exact hg i hi
    have hf : ∀ (p : Nat × Word → Bool) (x : Nat × Word), findFirst p ((a :: r).map fun i => (i, g i)) = some x → x.2 = t := by
      intro p x hx
      apply hall
      revert hx
      generalize ((a :: r).map fun i => (i, g i)) = l
      induction l with
      | nil => intro h; simp [findFirst] at h
      | cons y z ih =>
        intro h
        simp only [findFirst] at h
        split at h
        · cases h; simp
        · exact List.mem_cons_of_mem _ (ih h)
    unfold laneChoices at he
    simp only [List.map_cons] at he hf
    obtain ⟨i, hi, rfl⟩ := List.mem_map.mp he
    split
    · exact hf _ _ (by assumption)
    · split
      · rename_i x hx
        exact hf _ x hx
      · exact hg a (by simp)

theorem goLanes_nil (branch : Bool) (s : State) : goLanes branch [] s = finish 1 s := rfl

theorem mem_members_of_active {s : State} {i : Nat} (h : i ∈ activeLanes s) : i ∈ lanesOf s.p.members := by
  unfold activeLanes at h
  have h := (List.mem_filter.mp h).1
  rw [mem_lanesOf] at h ⊢
  obtain ⟨h1, h2⟩ := h
  refine ⟨h1, ?_⟩
  unfold lane at *
  simp only [BitVec.getLsbD_and, Bool.and_eq_true] at h2
  exact h2.2

/-- Lanes that all go to one target take the split there whole. -/
theorem goLanes_whole {branch : Bool} {s : State} {act : List Nat} {g : Nat → Word} {t : Word} (ha : act ≠ [])
    (hs : ∀ i ∈ act, i ∈ lanesOf s.p.members) (hg : ∀ i ∈ act, g i = t) :
    goLanes branch (act.map fun i => (i, g i)) s =
      if branch && decide (t = s.p.pc + 4) then finish 1 s else goWhole branch t s := by
  unfold goLanes
  have hc : ∀ e ∈ laneChoices s (act.map fun i => (i, g i)), e.2 = t := fun e he => laneChoices_const ha hg he
  have hn : laneChoices s (act.map fun i => (i, g i)) ≠ [] := by
    cases act with
    | nil => exact absurd rfl ha
    | cons a r =>
      unfold laneChoices
      simp only [List.map_cons, ne_eq, List.map_eq_nil_iff]
      intro h
      have := hs a (by simp)
      rw [h] at this
      simp at this
  generalize laneChoices s (act.map fun i => (i, g i)) = l at hc hn
  cases l with
  | nil => exact absurd rfl hn
  | cons e r =>
    obtain ⟨i, t'⟩ := e
    have h1 : t' = t := hc (i, t') (by simp)
    subst h1
    dsimp only
    rw [if_pos]
    rw [List.all_eq_true]
    intro x hx
    exact decide_eq_true (hc x hx)

end Sys2Proof.Machine
end

