-- ==== Sys2Proof/Laws/Alone.lean ====
section
/-! SUPPORT. Laws of instructions that stand alone between regions: the irrevocable ones and the turn operations of a free
launch (spec/02_work_hierarchy.md R33, R42; spec/03_logical_time.md R60). -/

namespace Sys2Proof.Machine

/-- An irrevocable instruction takes effect once the open region has committed. -/
theorem entered_alone {f : Form} {s : State} (room : NoSpill s) (h : f.irrevocable = true) : entered f s = commitRegion s := by
  have e : (commitRegion s).p.entry = none := by rw [commitRegion_p room]
  unfold entered enterRegion track
  rw [if_pos h, if_pos (by rw [e]; rfl)]

theorem commitRegion_buffer {s : State} (room : NoSpill s) : (commitRegion s).p.buffer = [] := by rw [commitRegion_p room]

/-- Whether slices rotate is seen without what retiring changes. -/
theorem noRotation_besides {x y : State} (h : x.besides = y.besides) (hx : NoRotation x) : NoRotation y := by
  have hp : x.p.besides = y.p.besides := congrArg State.p h
  have hg : x.g.parked = y.g.parked := congrArg (fun s => s.g.parked) h
  rcases hx with hx | hx
  · left
    unfold rotatable slicesOf stackOf at *
    rw [← Split.besides_held hp, ← hg]
    exact hx
  · right
    unfold isPriv at *
    rw [← Split.besides_status hp]
    exact hx

theorem noRotation_commit {x : State} (room : NoSpill x) (hx : NoRotation x) : NoRotation (commitRegion x) := by
  obtain ⟨k, q, hg⟩ := commitRegion_g room
  rcases hx with hx | hx
  · left
    unfold rotatable slicesOf stackOf at *
    rw [(commitRegion_split room).held, hg]
    exact hx
  · right
    unfold isPriv at *
    rw [(commitRegion_split room).status]
    exact hx

theorem noRotation_agrees {t u : State} (room : NoSpill u) (h : Agrees t u) (hu : NoRotation u) : NoRotation t := by
  rcases h with ⟨h, -⟩ | ⟨h, -⟩
  · exact noRotation_besides h.symm hu
  · exact noRotation_besides h.symm (noRotation_commit room hu)

theorem finish_buffer {w : Nat} {x : State} (room : NoSpill x) (hx : x.p.buffer = []) (h : (edges x).repeats = true → NoRotation x) :
    (finish w x).p.buffer = [] := by
  obtain ⟨Q, hy, hQ⟩ := retired_eq (addClock w x)
  unfold finish
  set y := retired (addClock w x) with hyd
  have hyb : y.p.buffer = [] := by
    rw [hy, addClock_eq]
    exact hx
  have hybs : y.besides = x.besides := by
    rw [hy, addClock_eq]
    rw [addClock_eq] at hQ
    unfold State.besides
    dsimp only at hQ ⊢
    rw [hQ]
    rfl
  have hl : SameLoops y.p x.p := by
    rw [hy, addClock_eq]
    constructor <;> rfl
  have he : SameEdges (edges y) (edges x) := edges_congr hl
  unfold fallThrough
  dsimp only
  change SameEdges (backEdges y.p (y.p.pc + 4)) _ at he
  set b := backEdges y.p (y.p.pc + 4) with hbd
  obtain ⟨m, i, j, k, l, hs⟩ := backEdges_split y.p (y.p.pc + 4)
  rw [← hbd] at hs
  split
  · exact hyb
  · have hz : (addClock b.count { y with p := b.split }).p.buffer = []
        ∧ (addClock b.count { y with p := b.split }).besides = y.besides := by
      rw [addClock_eq]
      refine ⟨?_, ?_⟩
      · show b.split.buffer = []
        rw [hs]
        exact hyb
      · rw [hs]
        rfl
    obtain ⟨hzb, hzn⟩ := hz
    set z := addClock b.count { y with p := b.split } with hzd
    suffices hv : ∀ v, v = (if (b.boundary && z.p.entry.isSome) = true then openRegion z else
        track b.codes b.codes z) →
        v.p.buffer = [] ∧ (NoRotation x → NoRotation v) by
      obtain ⟨h1, h2⟩ := hv _ rfl
      split
      · rename_i hrep
        rw [rotate_none (h2 (h (he.repeats.symm.trans hrep)))]
        exact h1
      · exact h1
    rintro v rfl
    have hxz : z.besides = x.besides := hzn.trans hybs
    split
    · have hz : NoSpill z := room.congr hxz (by rw [hzb, hx])
      exact ⟨openRegion_buffer hz, fun hn =>
        noRotation_besides (openRegion_besides z).symm (noRotation_commit hz (noRotation_besides hxz.symm hn))⟩
    · obtain ⟨li, wr, ht⟩ := track_eq b.codes b.codes z
      rw [ht]
      exact ⟨hzb, fun hn => noRotation_besides hxz.symm hn⟩

theorem Done.same {w : Nat} {u t v : State} (h : Done w u t) (hs : SameSplit v.p t.p) (hb : v.besides = t.besides)
    (hf : v.p.buffer = t.p.buffer) (hm : v.mem = t.mem) : Done w u v := by
  refine ⟨hs.pc.trans h.pc, ⟨hs.lc0.trans h.loops.1, hs.lc1.trans h.loops.2.1, hs.lr0.trans h.loops.2.2.1,
    hs.lr1.trans h.loops.2.2.2⟩, hs.clock.trans h.clock, hs.wait.trans h.wait, ?_, fun a => by rw [hm]; exact h.memory a⟩
  rcases h.rest with ⟨hr, hs⟩ | ⟨hr, hs⟩
  · exact .inl ⟨hb.trans hr, hf.trans hs⟩
  · exact .inr ⟨hb.trans hr, hf.trans hs⟩

theorem openClosed_done {w : Nat} {u t : State} (room : NoSpill t) (h : Done w u t) (hb : t.p.buffer = []) : Done w u (openClosed t) := by
  unfold openClosed
  split
  · exact h
  · exact h.same (openRegion_split room) ((openRegion_besides t).trans (commitRegion_empty hb room))
      ((openRegion_buffer room).trans hb.symm) (openRegion_mem room)

/-- What is done leaves room in the Cuff buffer, once the region before has committed. -/
theorem Done.room {w : Nat} {u t : State} (h : Done w u t) (room : NoSpill u) (hu : u.p.buffer = []) (ht : t.p.buffer = []) :
    NoSpill t := by
  rcases h.rest with ⟨h, -⟩ | ⟨h, -⟩
  · exact room.congr h (by rw [hu, ht])
  · exact room.commit.congr h (by rw [ht, commitRegion_buffer room])

/-- An irrevocable instruction is done. -/
theorem finishAlone_done {w : Nat} {x : State} (room : NoSpill x) (hx : x.p.buffer = [])
    (h : (edges x).repeats = true → NoRotation x) : Done w x (finishAlone w x) :=
  have d := finish_done w room h
  have b := finish_buffer room hx h
  openClosed_done (d.room room hx b) d b

/-- A turn operation of a free launch on whose slices no path is parked is done. -/
theorem finishTurn_done {w : Nat} {x : State} (free : detNow x = false) (room : NoSpill x) (hx : x.p.buffer = []) (h : NoRotation x) :
    Done w x (finishTurn w x) := by
  have hd := finish_done w room fun _ => h
  have hb := finish_buffer (w := w) room hx fun _ => h
  have hn := noRotation_agrees room hd.rest h
  unfold finishTurn
  dsimp only
  rw [free, if_neg Bool.false_ne_true, rotate_none hn, ite_self]
  exact openClosed_done (hd.room room hx hb) hd hb

/-- An irrevocable instruction on registers alone. -/
theorem issue_alone_done {f : Form} {check : State → Verdict} {effect : State → State} {s : State} {r : Regs} {w : Nat}
    (room : NoSpill s) (hi : issue f check effect s = effect (entered f s)) (hf : f.irrevocable = true)
    (he : effect (entered f s) = finishAlone w (putRegs r (entered f s))) (hl : SameLoops (putRegs r s).p s.p)
    (hn : (edges s).repeats = true → NoRotation s) :
    Done w (putRegs r s) (issue f check effect s) := by
  rw [hi, he]
  apply Done.of_entered (f := f) room
  refine finishAlone_done ((room.entered f).putRegs r) ?_ (whole_of_entered room hl hn)
  show (entered f s).p.buffer = []
  rw [entered_alone room hf]
  exact commitRegion_buffer room

end Sys2Proof.Machine
end

