-- ==== Sys2Proof/Laws/State.lean ====
section
/-! SUPPORT. What each update of the state leaves in each field, and what reading a register gives after a write
(spec/05_memory_hierarchy.md R102; spec/08_encoding_assembly.md R179, R180). -/

namespace Sys2Proof.Machine

variable (s : State)

/-! ### setS -/

@[simp] theorem setS_g (n : Nat) (v : Word) : (setS n v s).g = s.g := rfl
@[simp] theorem setS_gangs (n : Nat) (v : Word) : (setS n v s).gangs = s.gangs := rfl
@[simp] theorem setS_reqs (n : Nat) (v : Word) : (setS n v s).reqs = s.reqs := rfl
@[simp] theorem setS_remotes (n : Nat) (v : Word) : (setS n v s).remotes = s.remotes := rfl
@[simp] theorem setS_cmds (n : Nat) (v : Word) : (setS n v s).cmds = s.cmds := rfl
@[simp] theorem setS_tiles (n : Nat) (v : Word) : (setS n v s).tiles = s.tiles := rfl
@[simp] theorem setS_lines (n : Nat) (v : Word) : (setS n v s).lines = s.lines := rfl
@[simp] theorem setS_mem (n : Nat) (v : Word) : (setS n v s).mem = s.mem := rfl
@[simp] theorem setS_launches (n : Nat) (v : Word) : (setS n v s).launches = s.launches := rfl
@[simp] theorem setS_parts (n : Nat) (v : Word) : (setS n v s).parts = s.parts := rfl
@[simp] theorem setS_nextId (n : Nat) (v : Word) : (setS n v s).nextId = s.nextId := rfl
@[simp] theorem setS_wins (n : Nat) (v : Word) : (setS n v s).p.wins = s.p.wins := rfl
@[simp] theorem setS_mode (n : Nat) (v : Word) : (setS n v s).p.mode = s.p.mode := rfl
@[simp] theorem setS_exec (n : Nat) (v : Word) : (setS n v s).p.exec = s.p.exec := rfl
@[simp] theorem setS_members (n : Nat) (v : Word) : (setS n v s).p.members = s.p.members := rfl
@[simp] theorem setS_fstat (n : Nat) (v : Word) : (setS n v s).p.fstat = s.p.fstat := rfl
@[simp] theorem setS_rstack (n : Nat) (v : Word) : (setS n v s).p.rstack = s.p.rstack := rfl
@[simp] theorem setS_clock (n : Nat) (v : Word) : (setS n v s).p.clock = s.p.clock := rfl
@[simp] theorem setS_pc (n : Nat) (v : Word) : (setS n v s).p.pc = s.p.pc := rfl
@[simp] theorem setS_accums (n : Nat) (v : Word) : (setS n v s).accums = s.accums := rfl
@[simp] theorem setS_loaded (n : Nat) (v : Word) : (setS n v s).loaded = s.loaded := rfl
@[simp] theorem setS_l1 (n : Nat) (v : Word) : (setS n v s).l1 = s.l1 := rfl
@[simp] theorem setS_icache (n : Nat) (v : Word) : (setS n v s).icache = s.icache := rfl
@[simp] theorem setS_plb (n : Nat) (v : Word) : (setS n v s).plb = s.plb := rfl
@[simp] theorem setS_remoteCopies (n : Nat) (v : Word) : (setS n v s).remoteCopies = s.remoteCopies := rfl
@[simp] theorem setS_brim (n : Nat) (v : Word) : (setS n v s).brim = s.brim := rfl
@[simp] theorem setS_pubs (n : Nat) (v : Word) : (setS n v s).pubs = s.pubs := rfl
@[simp] theorem setS_updates (n : Nat) (v : Word) : (setS n v s).updates = s.updates := rfl
@[simp] theorem setS_mitten (n : Nat) (v : Word) : (setS n v s).mitten = s.mitten := rfl
@[simp] theorem setS_retry (n : Nat) (v : Word) : (setS n v s).retry = s.retry := rfl
@[simp] theorem setS_late (n : Nat) (v : Word) : (setS n v s).late = s.late := rfl
@[simp] theorem setS_outDirs (n : Nat) (v : Word) : (setS n v s).outDirs = s.outDirs := rfl
@[simp] theorem setS_reserved (n : Nat) (v : Word) : (setS n v s).reserved = s.reserved := rfl
@[simp] theorem setS_starving (n : Nat) (v : Word) : (setS n v s).starving = s.starving := rfl
@[simp] theorem setS_hpcc (n : Nat) (v : Word) : (setS n v s).hpcc = s.hpcc := rfl
@[simp] theorem setS_hostQueue (n : Nat) (v : Word) : (setS n v s).hostQueue = s.hostQueue := rfl
@[simp] theorem setS_roots (n : Nat) (v : Word) : (setS n v s).roots = s.roots := rfl
@[simp] theorem setS_frames (n : Nat) (v : Word) : (setS n v s).frames = s.frames := rfl
@[simp] theorem setS_badLines (n : Nat) (v : Word) : (setS n v s).badLines = s.badLines := rfl
@[simp] theorem setS_ports (n : Nat) (v : Word) : (setS n v s).ports = s.ports := rfl
@[simp] theorem setS_posted (n : Nat) (v : Word) : (setS n v s).posted = s.posted := rfl
@[simp] theorem setS_dies (n : Nat) (v : Word) : (setS n v s).dies = s.dies := rfl
@[simp] theorem setS_tripped (n : Nat) (v : Word) : (setS n v s).tripped = s.tripped := rfl
@[simp] theorem setS_filterCount (n : Nat) (v : Word) : (setS n v s).filterCount = s.filterCount := rfl
@[simp] theorem setS_probes (n : Nat) (v : Word) : (setS n v s).probes = s.probes := rfl
@[simp] theorem setS_corrected (n : Nat) (v : Word) : (setS n v s).corrected = s.corrected := rfl
@[simp] theorem setS_clustersOut (n : Nat) (v : Word) : (setS n v s).clustersOut = s.clustersOut := rfl
@[simp] theorem setS_hbmOut (n : Nat) (v : Word) : (setS n v s).hbmOut = s.hbmOut := rfl
@[simp] theorem setS_hcOut (n : Nat) (v : Word) : (setS n v s).hcOut = s.hcOut := rfl
@[simp] theorem setS_sliceOut (n : Nat) (v : Word) : (setS n v s).sliceOut = s.sliceOut := rfl
@[simp] theorem setS_fportOut (n : Nat) (v : Word) : (setS n v s).fportOut = s.fportOut := rfl
@[simp] theorem setS_bridgeOut (n : Nat) (v : Word) : (setS n v s).bridgeOut = s.bridgeOut := rfl
@[simp] theorem setS_division (n : Nat) (v : Word) : (setS n v s).division = s.division := rfl
@[simp] theorem setS_startup (n : Nat) (v : Word) : (setS n v s).startup = s.startup := rfl
@[simp] theorem setS_cycle (n : Nat) (v : Word) : (setS n v s).cycle = s.cycle := rfl
@[simp] theorem setS_taken (n : Nat) (v : Word) : (setS n v s).taken = s.taken := rfl
@[simp] theorem setS_ticks (n : Nat) (v : Word) : (setS n v s).ticks = s.ticks := rfl
@[simp] theorem setS_arg (n : Nat) (v : Word) : (setS n v s).arg = s.arg := rfl
@[simp] theorem setS_agenda (n : Nat) (v : Word) : (setS n v s).agenda = s.agenda := rfl
@[simp] theorem setS_outbox (n : Nat) (v : Word) : (setS n v s).outbox = s.outbox := rfl
@[simp] theorem setS_cxlAsked (n : Nat) (v : Word) : (setS n v s).cxlAsked = s.cxlAsked := rfl
@[simp] theorem setS_readied (n : Nat) (v : Word) : (setS n v s).readied = s.readied := rfl
@[simp] theorem setS_noted (n : Nat) (v : Word) : (setS n v s).noted = s.noted := rfl
@[simp] theorem setS_badEntries (n : Nat) (v : Word) : (setS n v s).badEntries = s.badEntries := rfl
@[simp] theorem setS_inbound (n : Nat) (v : Word) : (setS n v s).inbound = s.inbound := rfl

/-! ### setSEmpty -/

@[simp] theorem setSEmpty_g (n id : Nat) : (setSEmpty n id s).g = s.g := rfl
@[simp] theorem setSEmpty_gangs (n id : Nat) : (setSEmpty n id s).gangs = s.gangs := rfl
@[simp] theorem setSEmpty_reqs (n id : Nat) : (setSEmpty n id s).reqs = s.reqs := rfl
@[simp] theorem setSEmpty_remotes (n id : Nat) : (setSEmpty n id s).remotes = s.remotes := rfl
@[simp] theorem setSEmpty_cmds (n id : Nat) : (setSEmpty n id s).cmds = s.cmds := rfl
@[simp] theorem setSEmpty_tiles (n id : Nat) : (setSEmpty n id s).tiles = s.tiles := rfl
@[simp] theorem setSEmpty_lines (n id : Nat) : (setSEmpty n id s).lines = s.lines := rfl
@[simp] theorem setSEmpty_mem (n id : Nat) : (setSEmpty n id s).mem = s.mem := rfl
@[simp] theorem setSEmpty_launches (n id : Nat) : (setSEmpty n id s).launches = s.launches := rfl
@[simp] theorem setSEmpty_parts (n id : Nat) : (setSEmpty n id s).parts = s.parts := rfl
@[simp] theorem setSEmpty_nextId (n id : Nat) : (setSEmpty n id s).nextId = s.nextId := rfl
@[simp] theorem setSEmpty_sregs (n id : Nat) : (setSEmpty n id s).p.sregs = s.p.sregs := rfl
@[simp] theorem setSEmpty_wins (n id : Nat) : (setSEmpty n id s).p.wins = s.p.wins := rfl
@[simp] theorem setSEmpty_mode (n id : Nat) : (setSEmpty n id s).p.mode = s.p.mode := rfl
@[simp] theorem setSEmpty_exec (n id : Nat) : (setSEmpty n id s).p.exec = s.p.exec := rfl
@[simp] theorem setSEmpty_members (n id : Nat) : (setSEmpty n id s).p.members = s.p.members := rfl
@[simp] theorem setSEmpty_fstat (n id : Nat) : (setSEmpty n id s).p.fstat = s.p.fstat := rfl
@[simp] theorem setSEmpty_rstack (n id : Nat) : (setSEmpty n id s).p.rstack = s.p.rstack := rfl
@[simp] theorem setSEmpty_clock (n id : Nat) : (setSEmpty n id s).p.clock = s.p.clock := rfl
@[simp] theorem setSEmpty_pc (n id : Nat) : (setSEmpty n id s).p.pc = s.p.pc := rfl
@[simp] theorem setSEmpty_accums (n id : Nat) : (setSEmpty n id s).accums = s.accums := rfl
@[simp] theorem setSEmpty_loaded (n id : Nat) : (setSEmpty n id s).loaded = s.loaded := rfl
@[simp] theorem setSEmpty_l1 (n id : Nat) : (setSEmpty n id s).l1 = s.l1 := rfl
@[simp] theorem setSEmpty_icache (n id : Nat) : (setSEmpty n id s).icache = s.icache := rfl
@[simp] theorem setSEmpty_plb (n id : Nat) : (setSEmpty n id s).plb = s.plb := rfl
@[simp] theorem setSEmpty_remoteCopies (n id : Nat) : (setSEmpty n id s).remoteCopies = s.remoteCopies := rfl
@[simp] theorem setSEmpty_brim (n id : Nat) : (setSEmpty n id s).brim = s.brim := rfl
@[simp] theorem setSEmpty_pubs (n id : Nat) : (setSEmpty n id s).pubs = s.pubs := rfl
@[simp] theorem setSEmpty_updates (n id : Nat) : (setSEmpty n id s).updates = s.updates := rfl
@[simp] theorem setSEmpty_mitten (n id : Nat) : (setSEmpty n id s).mitten = s.mitten := rfl
@[simp] theorem setSEmpty_retry (n id : Nat) : (setSEmpty n id s).retry = s.retry := rfl
@[simp] theorem setSEmpty_late (n id : Nat) : (setSEmpty n id s).late = s.late := rfl
@[simp] theorem setSEmpty_outDirs (n id : Nat) : (setSEmpty n id s).outDirs = s.outDirs := rfl
@[simp] theorem setSEmpty_reserved (n id : Nat) : (setSEmpty n id s).reserved = s.reserved := rfl
@[simp] theorem setSEmpty_starving (n id : Nat) : (setSEmpty n id s).starving = s.starving := rfl
@[simp] theorem setSEmpty_hpcc (n id : Nat) : (setSEmpty n id s).hpcc = s.hpcc := rfl
@[simp] theorem setSEmpty_hostQueue (n id : Nat) : (setSEmpty n id s).hostQueue = s.hostQueue := rfl
@[simp] theorem setSEmpty_roots (n id : Nat) : (setSEmpty n id s).roots = s.roots := rfl
@[simp] theorem setSEmpty_frames (n id : Nat) : (setSEmpty n id s).frames = s.frames := rfl
@[simp] theorem setSEmpty_badLines (n id : Nat) : (setSEmpty n id s).badLines = s.badLines := rfl
@[simp] theorem setSEmpty_ports (n id : Nat) : (setSEmpty n id s).ports = s.ports := rfl
@[simp] theorem setSEmpty_posted (n id : Nat) : (setSEmpty n id s).posted = s.posted := rfl
@[simp] theorem setSEmpty_dies (n id : Nat) : (setSEmpty n id s).dies = s.dies := rfl
@[simp] theorem setSEmpty_tripped (n id : Nat) : (setSEmpty n id s).tripped = s.tripped := rfl
@[simp] theorem setSEmpty_filterCount (n id : Nat) : (setSEmpty n id s).filterCount = s.filterCount := rfl
@[simp] theorem setSEmpty_probes (n id : Nat) : (setSEmpty n id s).probes = s.probes := rfl
@[simp] theorem setSEmpty_corrected (n id : Nat) : (setSEmpty n id s).corrected = s.corrected := rfl
@[simp] theorem setSEmpty_clustersOut (n id : Nat) : (setSEmpty n id s).clustersOut = s.clustersOut := rfl
@[simp] theorem setSEmpty_hbmOut (n id : Nat) : (setSEmpty n id s).hbmOut = s.hbmOut := rfl
@[simp] theorem setSEmpty_hcOut (n id : Nat) : (setSEmpty n id s).hcOut = s.hcOut := rfl
@[simp] theorem setSEmpty_sliceOut (n id : Nat) : (setSEmpty n id s).sliceOut = s.sliceOut := rfl
@[simp] theorem setSEmpty_fportOut (n id : Nat) : (setSEmpty n id s).fportOut = s.fportOut := rfl
@[simp] theorem setSEmpty_bridgeOut (n id : Nat) : (setSEmpty n id s).bridgeOut = s.bridgeOut := rfl
@[simp] theorem setSEmpty_division (n id : Nat) : (setSEmpty n id s).division = s.division := rfl
@[simp] theorem setSEmpty_startup (n id : Nat) : (setSEmpty n id s).startup = s.startup := rfl
@[simp] theorem setSEmpty_cycle (n id : Nat) : (setSEmpty n id s).cycle = s.cycle := rfl
@[simp] theorem setSEmpty_taken (n id : Nat) : (setSEmpty n id s).taken = s.taken := rfl
@[simp] theorem setSEmpty_ticks (n id : Nat) : (setSEmpty n id s).ticks = s.ticks := rfl
@[simp] theorem setSEmpty_arg (n id : Nat) : (setSEmpty n id s).arg = s.arg := rfl
@[simp] theorem setSEmpty_agenda (n id : Nat) : (setSEmpty n id s).agenda = s.agenda := rfl
@[simp] theorem setSEmpty_outbox (n id : Nat) : (setSEmpty n id s).outbox = s.outbox := rfl
@[simp] theorem setSEmpty_cxlAsked (n id : Nat) : (setSEmpty n id s).cxlAsked = s.cxlAsked := rfl
@[simp] theorem setSEmpty_readied (n id : Nat) : (setSEmpty n id s).readied = s.readied := rfl
@[simp] theorem setSEmpty_noted (n id : Nat) : (setSEmpty n id s).noted = s.noted := rfl
@[simp] theorem setSEmpty_badEntries (n id : Nat) : (setSEmpty n id s).badEntries = s.badEntries := rfl
@[simp] theorem setSEmpty_inbound (n id : Nat) : (setSEmpty n id s).inbound = s.inbound := rfl

/-! ### setV -/

@[simp] theorem setV_p (n l : Nat) (v : BitVec 32) : (setV n l v s).p = s.p := rfl
@[simp] theorem setV_gangs (n l : Nat) (v : BitVec 32) : (setV n l v s).gangs = s.gangs := rfl
@[simp] theorem setV_reqs (n l : Nat) (v : BitVec 32) : (setV n l v s).reqs = s.reqs := rfl
@[simp] theorem setV_remotes (n l : Nat) (v : BitVec 32) : (setV n l v s).remotes = s.remotes := rfl
@[simp] theorem setV_cmds (n l : Nat) (v : BitVec 32) : (setV n l v s).cmds = s.cmds := rfl
@[simp] theorem setV_tiles (n l : Nat) (v : BitVec 32) : (setV n l v s).tiles = s.tiles := rfl
@[simp] theorem setV_lines (n l : Nat) (v : BitVec 32) : (setV n l v s).lines = s.lines := rfl
@[simp] theorem setV_mem (n l : Nat) (v : BitVec 32) : (setV n l v s).mem = s.mem := rfl
@[simp] theorem setV_launches (n l : Nat) (v : BitVec 32) : (setV n l v s).launches = s.launches := rfl
@[simp] theorem setV_parts (n l : Nat) (v : BitVec 32) : (setV n l v s).parts = s.parts := rfl
@[simp] theorem setV_nextId (n l : Nat) (v : BitVec 32) : (setV n l v s).nextId = s.nextId := rfl
@[simp] theorem setV_preds (n l : Nat) (v : BitVec 32) : (setV n l v s).g.preds = s.g.preds := rfl
@[simp] theorem setV_width (n l : Nat) (v : BitVec 32) : (setV n l v s).g.width = s.g.width := rfl
@[simp] theorem setV_accums (n l : Nat) (v : BitVec 32) : (setV n l v s).accums = s.accums := rfl
@[simp] theorem setV_loaded (n l : Nat) (v : BitVec 32) : (setV n l v s).loaded = s.loaded := rfl
@[simp] theorem setV_l1 (n l : Nat) (v : BitVec 32) : (setV n l v s).l1 = s.l1 := rfl
@[simp] theorem setV_icache (n l : Nat) (v : BitVec 32) : (setV n l v s).icache = s.icache := rfl
@[simp] theorem setV_plb (n l : Nat) (v : BitVec 32) : (setV n l v s).plb = s.plb := rfl
@[simp] theorem setV_remoteCopies (n l : Nat) (v : BitVec 32) : (setV n l v s).remoteCopies = s.remoteCopies := rfl
@[simp] theorem setV_brim (n l : Nat) (v : BitVec 32) : (setV n l v s).brim = s.brim := rfl
@[simp] theorem setV_pubs (n l : Nat) (v : BitVec 32) : (setV n l v s).pubs = s.pubs := rfl
@[simp] theorem setV_updates (n l : Nat) (v : BitVec 32) : (setV n l v s).updates = s.updates := rfl
@[simp] theorem setV_mitten (n l : Nat) (v : BitVec 32) : (setV n l v s).mitten = s.mitten := rfl
@[simp] theorem setV_retry (n l : Nat) (v : BitVec 32) : (setV n l v s).retry = s.retry := rfl
@[simp] theorem setV_late (n l : Nat) (v : BitVec 32) : (setV n l v s).late = s.late := rfl
@[simp] theorem setV_outDirs (n l : Nat) (v : BitVec 32) : (setV n l v s).outDirs = s.outDirs := rfl
@[simp] theorem setV_reserved (n l : Nat) (v : BitVec 32) : (setV n l v s).reserved = s.reserved := rfl
@[simp] theorem setV_starving (n l : Nat) (v : BitVec 32) : (setV n l v s).starving = s.starving := rfl
@[simp] theorem setV_hpcc (n l : Nat) (v : BitVec 32) : (setV n l v s).hpcc = s.hpcc := rfl
@[simp] theorem setV_hostQueue (n l : Nat) (v : BitVec 32) : (setV n l v s).hostQueue = s.hostQueue := rfl
@[simp] theorem setV_roots (n l : Nat) (v : BitVec 32) : (setV n l v s).roots = s.roots := rfl
@[simp] theorem setV_frames (n l : Nat) (v : BitVec 32) : (setV n l v s).frames = s.frames := rfl
@[simp] theorem setV_badLines (n l : Nat) (v : BitVec 32) : (setV n l v s).badLines = s.badLines := rfl
@[simp] theorem setV_ports (n l : Nat) (v : BitVec 32) : (setV n l v s).ports = s.ports := rfl
@[simp] theorem setV_posted (n l : Nat) (v : BitVec 32) : (setV n l v s).posted = s.posted := rfl
@[simp] theorem setV_dies (n l : Nat) (v : BitVec 32) : (setV n l v s).dies = s.dies := rfl
@[simp] theorem setV_tripped (n l : Nat) (v : BitVec 32) : (setV n l v s).tripped = s.tripped := rfl
@[simp] theorem setV_filterCount (n l : Nat) (v : BitVec 32) : (setV n l v s).filterCount = s.filterCount := rfl
@[simp] theorem setV_probes (n l : Nat) (v : BitVec 32) : (setV n l v s).probes = s.probes := rfl
@[simp] theorem setV_corrected (n l : Nat) (v : BitVec 32) : (setV n l v s).corrected = s.corrected := rfl
@[simp] theorem setV_clustersOut (n l : Nat) (v : BitVec 32) : (setV n l v s).clustersOut = s.clustersOut := rfl
@[simp] theorem setV_hbmOut (n l : Nat) (v : BitVec 32) : (setV n l v s).hbmOut = s.hbmOut := rfl
@[simp] theorem setV_hcOut (n l : Nat) (v : BitVec 32) : (setV n l v s).hcOut = s.hcOut := rfl
@[simp] theorem setV_sliceOut (n l : Nat) (v : BitVec 32) : (setV n l v s).sliceOut = s.sliceOut := rfl
@[simp] theorem setV_fportOut (n l : Nat) (v : BitVec 32) : (setV n l v s).fportOut = s.fportOut := rfl
@[simp] theorem setV_bridgeOut (n l : Nat) (v : BitVec 32) : (setV n l v s).bridgeOut = s.bridgeOut := rfl
@[simp] theorem setV_division (n l : Nat) (v : BitVec 32) : (setV n l v s).division = s.division := rfl
@[simp] theorem setV_startup (n l : Nat) (v : BitVec 32) : (setV n l v s).startup = s.startup := rfl
@[simp] theorem setV_cycle (n l : Nat) (v : BitVec 32) : (setV n l v s).cycle = s.cycle := rfl
@[simp] theorem setV_taken (n l : Nat) (v : BitVec 32) : (setV n l v s).taken = s.taken := rfl
@[simp] theorem setV_ticks (n l : Nat) (v : BitVec 32) : (setV n l v s).ticks = s.ticks := rfl
@[simp] theorem setV_arg (n l : Nat) (v : BitVec 32) : (setV n l v s).arg = s.arg := rfl
@[simp] theorem setV_agenda (n l : Nat) (v : BitVec 32) : (setV n l v s).agenda = s.agenda := rfl
@[simp] theorem setV_outbox (n l : Nat) (v : BitVec 32) : (setV n l v s).outbox = s.outbox := rfl
@[simp] theorem setV_cxlAsked (n l : Nat) (v : BitVec 32) : (setV n l v s).cxlAsked = s.cxlAsked := rfl
@[simp] theorem setV_readied (n l : Nat) (v : BitVec 32) : (setV n l v s).readied = s.readied := rfl
@[simp] theorem setV_noted (n l : Nat) (v : BitVec 32) : (setV n l v s).noted = s.noted := rfl
@[simp] theorem setV_badEntries (n l : Nat) (v : BitVec 32) : (setV n l v s).badEntries = s.badEntries := rfl
@[simp] theorem setV_inbound (n l : Nat) (v : BitVec 32) : (setV n l v s).inbound = s.inbound := rfl

/-! ### setVEmpty -/

@[simp] theorem setVEmpty_p (n l id : Nat) : (setVEmpty n l id s).p = s.p := rfl
@[simp] theorem setVEmpty_gangs (n l id : Nat) : (setVEmpty n l id s).gangs = s.gangs := rfl
@[simp] theorem setVEmpty_reqs (n l id : Nat) : (setVEmpty n l id s).reqs = s.reqs := rfl
@[simp] theorem setVEmpty_remotes (n l id : Nat) : (setVEmpty n l id s).remotes = s.remotes := rfl
@[simp] theorem setVEmpty_cmds (n l id : Nat) : (setVEmpty n l id s).cmds = s.cmds := rfl
@[simp] theorem setVEmpty_tiles (n l id : Nat) : (setVEmpty n l id s).tiles = s.tiles := rfl
@[simp] theorem setVEmpty_lines (n l id : Nat) : (setVEmpty n l id s).lines = s.lines := rfl
@[simp] theorem setVEmpty_mem (n l id : Nat) : (setVEmpty n l id s).mem = s.mem := rfl
@[simp] theorem setVEmpty_launches (n l id : Nat) : (setVEmpty n l id s).launches = s.launches := rfl
@[simp] theorem setVEmpty_parts (n l id : Nat) : (setVEmpty n l id s).parts = s.parts := rfl
@[simp] theorem setVEmpty_nextId (n l id : Nat) : (setVEmpty n l id s).nextId = s.nextId := rfl
@[simp] theorem setVEmpty_vregs (n l id : Nat) : (setVEmpty n l id s).g.vregs = s.g.vregs := rfl
@[simp] theorem setVEmpty_preds (n l id : Nat) : (setVEmpty n l id s).g.preds = s.g.preds := rfl
@[simp] theorem setVEmpty_width (n l id : Nat) : (setVEmpty n l id s).g.width = s.g.width := rfl
@[simp] theorem setVEmpty_accums (n l id : Nat) : (setVEmpty n l id s).accums = s.accums := rfl
@[simp] theorem setVEmpty_loaded (n l id : Nat) : (setVEmpty n l id s).loaded = s.loaded := rfl
@[simp] theorem setVEmpty_l1 (n l id : Nat) : (setVEmpty n l id s).l1 = s.l1 := rfl
@[simp] theorem setVEmpty_icache (n l id : Nat) : (setVEmpty n l id s).icache = s.icache := rfl
@[simp] theorem setVEmpty_plb (n l id : Nat) : (setVEmpty n l id s).plb = s.plb := rfl
@[simp] theorem setVEmpty_remoteCopies (n l id : Nat) : (setVEmpty n l id s).remoteCopies = s.remoteCopies := rfl
@[simp] theorem setVEmpty_brim (n l id : Nat) : (setVEmpty n l id s).brim = s.brim := rfl
@[simp] theorem setVEmpty_pubs (n l id : Nat) : (setVEmpty n l id s).pubs = s.pubs := rfl
@[simp] theorem setVEmpty_updates (n l id : Nat) : (setVEmpty n l id s).updates = s.updates := rfl
@[simp] theorem setVEmpty_mitten (n l id : Nat) : (setVEmpty n l id s).mitten = s.mitten := rfl
@[simp] theorem setVEmpty_retry (n l id : Nat) : (setVEmpty n l id s).retry = s.retry := rfl
@[simp] theorem setVEmpty_late (n l id : Nat) : (setVEmpty n l id s).late = s.late := rfl
@[simp] theorem setVEmpty_outDirs (n l id : Nat) : (setVEmpty n l id s).outDirs = s.outDirs := rfl
@[simp] theorem setVEmpty_reserved (n l id : Nat) : (setVEmpty n l id s).reserved = s.reserved := rfl
@[simp] theorem setVEmpty_starving (n l id : Nat) : (setVEmpty n l id s).starving = s.starving := rfl
@[simp] theorem setVEmpty_hpcc (n l id : Nat) : (setVEmpty n l id s).hpcc = s.hpcc := rfl
@[simp] theorem setVEmpty_hostQueue (n l id : Nat) : (setVEmpty n l id s).hostQueue = s.hostQueue := rfl
@[simp] theorem setVEmpty_roots (n l id : Nat) : (setVEmpty n l id s).roots = s.roots := rfl
@[simp] theorem setVEmpty_frames (n l id : Nat) : (setVEmpty n l id s).frames = s.frames := rfl
@[simp] theorem setVEmpty_badLines (n l id : Nat) : (setVEmpty n l id s).badLines = s.badLines := rfl
@[simp] theorem setVEmpty_ports (n l id : Nat) : (setVEmpty n l id s).ports = s.ports := rfl
@[simp] theorem setVEmpty_posted (n l id : Nat) : (setVEmpty n l id s).posted = s.posted := rfl
@[simp] theorem setVEmpty_dies (n l id : Nat) : (setVEmpty n l id s).dies = s.dies := rfl
@[simp] theorem setVEmpty_tripped (n l id : Nat) : (setVEmpty n l id s).tripped = s.tripped := rfl
@[simp] theorem setVEmpty_filterCount (n l id : Nat) : (setVEmpty n l id s).filterCount = s.filterCount := rfl
@[simp] theorem setVEmpty_probes (n l id : Nat) : (setVEmpty n l id s).probes = s.probes := rfl
@[simp] theorem setVEmpty_corrected (n l id : Nat) : (setVEmpty n l id s).corrected = s.corrected := rfl
@[simp] theorem setVEmpty_clustersOut (n l id : Nat) : (setVEmpty n l id s).clustersOut = s.clustersOut := rfl
@[simp] theorem setVEmpty_hbmOut (n l id : Nat) : (setVEmpty n l id s).hbmOut = s.hbmOut := rfl
@[simp] theorem setVEmpty_hcOut (n l id : Nat) : (setVEmpty n l id s).hcOut = s.hcOut := rfl
@[simp] theorem setVEmpty_sliceOut (n l id : Nat) : (setVEmpty n l id s).sliceOut = s.sliceOut := rfl
@[simp] theorem setVEmpty_fportOut (n l id : Nat) : (setVEmpty n l id s).fportOut = s.fportOut := rfl
@[simp] theorem setVEmpty_bridgeOut (n l id : Nat) : (setVEmpty n l id s).bridgeOut = s.bridgeOut := rfl
@[simp] theorem setVEmpty_division (n l id : Nat) : (setVEmpty n l id s).division = s.division := rfl
@[simp] theorem setVEmpty_startup (n l id : Nat) : (setVEmpty n l id s).startup = s.startup := rfl
@[simp] theorem setVEmpty_cycle (n l id : Nat) : (setVEmpty n l id s).cycle = s.cycle := rfl
@[simp] theorem setVEmpty_taken (n l id : Nat) : (setVEmpty n l id s).taken = s.taken := rfl
@[simp] theorem setVEmpty_ticks (n l id : Nat) : (setVEmpty n l id s).ticks = s.ticks := rfl
@[simp] theorem setVEmpty_arg (n l id : Nat) : (setVEmpty n l id s).arg = s.arg := rfl
@[simp] theorem setVEmpty_agenda (n l id : Nat) : (setVEmpty n l id s).agenda = s.agenda := rfl
@[simp] theorem setVEmpty_outbox (n l id : Nat) : (setVEmpty n l id s).outbox = s.outbox := rfl
@[simp] theorem setVEmpty_cxlAsked (n l id : Nat) : (setVEmpty n l id s).cxlAsked = s.cxlAsked := rfl
@[simp] theorem setVEmpty_readied (n l id : Nat) : (setVEmpty n l id s).readied = s.readied := rfl
@[simp] theorem setVEmpty_noted (n l id : Nat) : (setVEmpty n l id s).noted = s.noted := rfl
@[simp] theorem setVEmpty_badEntries (n l id : Nat) : (setVEmpty n l id s).badEntries = s.badEntries := rfl
@[simp] theorem setVEmpty_inbound (n l id : Nat) : (setVEmpty n l id s).inbound = s.inbound := rfl

/-! ### setP -/

@[simp] theorem setP_p (n l : Nat) (b : Bool) : (setP n l b s).p = s.p := rfl
@[simp] theorem setP_gangs (n l : Nat) (b : Bool) : (setP n l b s).gangs = s.gangs := rfl
@[simp] theorem setP_reqs (n l : Nat) (b : Bool) : (setP n l b s).reqs = s.reqs := rfl
@[simp] theorem setP_remotes (n l : Nat) (b : Bool) : (setP n l b s).remotes = s.remotes := rfl
@[simp] theorem setP_cmds (n l : Nat) (b : Bool) : (setP n l b s).cmds = s.cmds := rfl
@[simp] theorem setP_tiles (n l : Nat) (b : Bool) : (setP n l b s).tiles = s.tiles := rfl
@[simp] theorem setP_lines (n l : Nat) (b : Bool) : (setP n l b s).lines = s.lines := rfl
@[simp] theorem setP_mem (n l : Nat) (b : Bool) : (setP n l b s).mem = s.mem := rfl
@[simp] theorem setP_launches (n l : Nat) (b : Bool) : (setP n l b s).launches = s.launches := rfl
@[simp] theorem setP_parts (n l : Nat) (b : Bool) : (setP n l b s).parts = s.parts := rfl
@[simp] theorem setP_nextId (n l : Nat) (b : Bool) : (setP n l b s).nextId = s.nextId := rfl
@[simp] theorem setP_vregs (n l : Nat) (b : Bool) : (setP n l b s).g.vregs = s.g.vregs := rfl
@[simp] theorem setP_vstate (n l : Nat) (b : Bool) : (setP n l b s).g.vstate = s.g.vstate := rfl
@[simp] theorem setP_width (n l : Nat) (b : Bool) : (setP n l b s).g.width = s.g.width := rfl
@[simp] theorem setP_accums (n l : Nat) (b : Bool) : (setP n l b s).accums = s.accums := rfl
@[simp] theorem setP_loaded (n l : Nat) (b : Bool) : (setP n l b s).loaded = s.loaded := rfl
@[simp] theorem setP_l1 (n l : Nat) (b : Bool) : (setP n l b s).l1 = s.l1 := rfl
@[simp] theorem setP_icache (n l : Nat) (b : Bool) : (setP n l b s).icache = s.icache := rfl
@[simp] theorem setP_plb (n l : Nat) (b : Bool) : (setP n l b s).plb = s.plb := rfl
@[simp] theorem setP_remoteCopies (n l : Nat) (b : Bool) : (setP n l b s).remoteCopies = s.remoteCopies := rfl
@[simp] theorem setP_brim (n l : Nat) (b : Bool) : (setP n l b s).brim = s.brim := rfl
@[simp] theorem setP_pubs (n l : Nat) (b : Bool) : (setP n l b s).pubs = s.pubs := rfl
@[simp] theorem setP_updates (n l : Nat) (b : Bool) : (setP n l b s).updates = s.updates := rfl
@[simp] theorem setP_mitten (n l : Nat) (b : Bool) : (setP n l b s).mitten = s.mitten := rfl
@[simp] theorem setP_retry (n l : Nat) (b : Bool) : (setP n l b s).retry = s.retry := rfl
@[simp] theorem setP_late (n l : Nat) (b : Bool) : (setP n l b s).late = s.late := rfl
@[simp] theorem setP_outDirs (n l : Nat) (b : Bool) : (setP n l b s).outDirs = s.outDirs := rfl
@[simp] theorem setP_reserved (n l : Nat) (b : Bool) : (setP n l b s).reserved = s.reserved := rfl
@[simp] theorem setP_starving (n l : Nat) (b : Bool) : (setP n l b s).starving = s.starving := rfl
@[simp] theorem setP_hpcc (n l : Nat) (b : Bool) : (setP n l b s).hpcc = s.hpcc := rfl
@[simp] theorem setP_hostQueue (n l : Nat) (b : Bool) : (setP n l b s).hostQueue = s.hostQueue := rfl
@[simp] theorem setP_roots (n l : Nat) (b : Bool) : (setP n l b s).roots = s.roots := rfl
@[simp] theorem setP_frames (n l : Nat) (b : Bool) : (setP n l b s).frames = s.frames := rfl
@[simp] theorem setP_badLines (n l : Nat) (b : Bool) : (setP n l b s).badLines = s.badLines := rfl
@[simp] theorem setP_ports (n l : Nat) (b : Bool) : (setP n l b s).ports = s.ports := rfl
@[simp] theorem setP_posted (n l : Nat) (b : Bool) : (setP n l b s).posted = s.posted := rfl
@[simp] theorem setP_dies (n l : Nat) (b : Bool) : (setP n l b s).dies = s.dies := rfl
@[simp] theorem setP_tripped (n l : Nat) (b : Bool) : (setP n l b s).tripped = s.tripped := rfl
@[simp] theorem setP_filterCount (n l : Nat) (b : Bool) : (setP n l b s).filterCount = s.filterCount := rfl
@[simp] theorem setP_probes (n l : Nat) (b : Bool) : (setP n l b s).probes = s.probes := rfl
@[simp] theorem setP_corrected (n l : Nat) (b : Bool) : (setP n l b s).corrected = s.corrected := rfl
@[simp] theorem setP_clustersOut (n l : Nat) (b : Bool) : (setP n l b s).clustersOut = s.clustersOut := rfl
@[simp] theorem setP_hbmOut (n l : Nat) (b : Bool) : (setP n l b s).hbmOut = s.hbmOut := rfl
@[simp] theorem setP_hcOut (n l : Nat) (b : Bool) : (setP n l b s).hcOut = s.hcOut := rfl
@[simp] theorem setP_sliceOut (n l : Nat) (b : Bool) : (setP n l b s).sliceOut = s.sliceOut := rfl
@[simp] theorem setP_fportOut (n l : Nat) (b : Bool) : (setP n l b s).fportOut = s.fportOut := rfl
@[simp] theorem setP_bridgeOut (n l : Nat) (b : Bool) : (setP n l b s).bridgeOut = s.bridgeOut := rfl
@[simp] theorem setP_division (n l : Nat) (b : Bool) : (setP n l b s).division = s.division := rfl
@[simp] theorem setP_startup (n l : Nat) (b : Bool) : (setP n l b s).startup = s.startup := rfl
@[simp] theorem setP_cycle (n l : Nat) (b : Bool) : (setP n l b s).cycle = s.cycle := rfl
@[simp] theorem setP_taken (n l : Nat) (b : Bool) : (setP n l b s).taken = s.taken := rfl
@[simp] theorem setP_ticks (n l : Nat) (b : Bool) : (setP n l b s).ticks = s.ticks := rfl
@[simp] theorem setP_arg (n l : Nat) (b : Bool) : (setP n l b s).arg = s.arg := rfl
@[simp] theorem setP_agenda (n l : Nat) (b : Bool) : (setP n l b s).agenda = s.agenda := rfl
@[simp] theorem setP_outbox (n l : Nat) (b : Bool) : (setP n l b s).outbox = s.outbox := rfl
@[simp] theorem setP_cxlAsked (n l : Nat) (b : Bool) : (setP n l b s).cxlAsked = s.cxlAsked := rfl
@[simp] theorem setP_readied (n l : Nat) (b : Bool) : (setP n l b s).readied = s.readied := rfl
@[simp] theorem setP_noted (n l : Nat) (b : Bool) : (setP n l b s).noted = s.noted := rfl
@[simp] theorem setP_badEntries (n l : Nat) (b : Bool) : (setP n l b s).badEntries = s.badEntries := rfl
@[simp] theorem setP_inbound (n l : Nat) (b : Bool) : (setP n l b s).inbound = s.inbound := rfl

/-! ### setW -/

@[simp] theorem setW_g (n : Nat) (w : Window) : (setW n w s).g = s.g := rfl
@[simp] theorem setW_gangs (n : Nat) (w : Window) : (setW n w s).gangs = s.gangs := rfl
@[simp] theorem setW_reqs (n : Nat) (w : Window) : (setW n w s).reqs = s.reqs := rfl
@[simp] theorem setW_remotes (n : Nat) (w : Window) : (setW n w s).remotes = s.remotes := rfl
@[simp] theorem setW_cmds (n : Nat) (w : Window) : (setW n w s).cmds = s.cmds := rfl
@[simp] theorem setW_tiles (n : Nat) (w : Window) : (setW n w s).tiles = s.tiles := rfl
@[simp] theorem setW_lines (n : Nat) (w : Window) : (setW n w s).lines = s.lines := rfl
@[simp] theorem setW_mem (n : Nat) (w : Window) : (setW n w s).mem = s.mem := rfl
@[simp] theorem setW_launches (n : Nat) (w : Window) : (setW n w s).launches = s.launches := rfl
@[simp] theorem setW_parts (n : Nat) (w : Window) : (setW n w s).parts = s.parts := rfl
@[simp] theorem setW_nextId (n : Nat) (w : Window) : (setW n w s).nextId = s.nextId := rfl
@[simp] theorem setW_sregs (n : Nat) (w : Window) : (setW n w s).p.sregs = s.p.sregs := rfl
@[simp] theorem setW_sstate (n : Nat) (w : Window) : (setW n w s).p.sstate = s.p.sstate := rfl
@[simp] theorem setW_mode (n : Nat) (w : Window) : (setW n w s).p.mode = s.p.mode := rfl
@[simp] theorem setW_exec (n : Nat) (w : Window) : (setW n w s).p.exec = s.p.exec := rfl
@[simp] theorem setW_members (n : Nat) (w : Window) : (setW n w s).p.members = s.p.members := rfl
@[simp] theorem setW_fstat (n : Nat) (w : Window) : (setW n w s).p.fstat = s.p.fstat := rfl
@[simp] theorem setW_rstack (n : Nat) (w : Window) : (setW n w s).p.rstack = s.p.rstack := rfl
@[simp] theorem setW_clock (n : Nat) (w : Window) : (setW n w s).p.clock = s.p.clock := rfl
@[simp] theorem setW_pc (n : Nat) (w : Window) : (setW n w s).p.pc = s.p.pc := rfl
@[simp] theorem setW_accums (n : Nat) (w : Window) : (setW n w s).accums = s.accums := rfl
@[simp] theorem setW_loaded (n : Nat) (w : Window) : (setW n w s).loaded = s.loaded := rfl
@[simp] theorem setW_l1 (n : Nat) (w : Window) : (setW n w s).l1 = s.l1 := rfl
@[simp] theorem setW_icache (n : Nat) (w : Window) : (setW n w s).icache = s.icache := rfl
@[simp] theorem setW_plb (n : Nat) (w : Window) : (setW n w s).plb = s.plb := rfl
@[simp] theorem setW_remoteCopies (n : Nat) (w : Window) : (setW n w s).remoteCopies = s.remoteCopies := rfl
@[simp] theorem setW_brim (n : Nat) (w : Window) : (setW n w s).brim = s.brim := rfl
@[simp] theorem setW_pubs (n : Nat) (w : Window) : (setW n w s).pubs = s.pubs := rfl
@[simp] theorem setW_updates (n : Nat) (w : Window) : (setW n w s).updates = s.updates := rfl
@[simp] theorem setW_mitten (n : Nat) (w : Window) : (setW n w s).mitten = s.mitten := rfl
@[simp] theorem setW_retry (n : Nat) (w : Window) : (setW n w s).retry = s.retry := rfl
@[simp] theorem setW_late (n : Nat) (w : Window) : (setW n w s).late = s.late := rfl
@[simp] theorem setW_outDirs (n : Nat) (w : Window) : (setW n w s).outDirs = s.outDirs := rfl
@[simp] theorem setW_reserved (n : Nat) (w : Window) : (setW n w s).reserved = s.reserved := rfl
@[simp] theorem setW_starving (n : Nat) (w : Window) : (setW n w s).starving = s.starving := rfl
@[simp] theorem setW_hpcc (n : Nat) (w : Window) : (setW n w s).hpcc = s.hpcc := rfl
@[simp] theorem setW_hostQueue (n : Nat) (w : Window) : (setW n w s).hostQueue = s.hostQueue := rfl
@[simp] theorem setW_roots (n : Nat) (w : Window) : (setW n w s).roots = s.roots := rfl
@[simp] theorem setW_frames (n : Nat) (w : Window) : (setW n w s).frames = s.frames := rfl
@[simp] theorem setW_badLines (n : Nat) (w : Window) : (setW n w s).badLines = s.badLines := rfl
@[simp] theorem setW_ports (n : Nat) (w : Window) : (setW n w s).ports = s.ports := rfl
@[simp] theorem setW_posted (n : Nat) (w : Window) : (setW n w s).posted = s.posted := rfl
@[simp] theorem setW_dies (n : Nat) (w : Window) : (setW n w s).dies = s.dies := rfl
@[simp] theorem setW_tripped (n : Nat) (w : Window) : (setW n w s).tripped = s.tripped := rfl
@[simp] theorem setW_filterCount (n : Nat) (w : Window) : (setW n w s).filterCount = s.filterCount := rfl
@[simp] theorem setW_probes (n : Nat) (w : Window) : (setW n w s).probes = s.probes := rfl
@[simp] theorem setW_corrected (n : Nat) (w : Window) : (setW n w s).corrected = s.corrected := rfl
@[simp] theorem setW_clustersOut (n : Nat) (w : Window) : (setW n w s).clustersOut = s.clustersOut := rfl
@[simp] theorem setW_hbmOut (n : Nat) (w : Window) : (setW n w s).hbmOut = s.hbmOut := rfl
@[simp] theorem setW_hcOut (n : Nat) (w : Window) : (setW n w s).hcOut = s.hcOut := rfl
@[simp] theorem setW_sliceOut (n : Nat) (w : Window) : (setW n w s).sliceOut = s.sliceOut := rfl
@[simp] theorem setW_fportOut (n : Nat) (w : Window) : (setW n w s).fportOut = s.fportOut := rfl
@[simp] theorem setW_bridgeOut (n : Nat) (w : Window) : (setW n w s).bridgeOut = s.bridgeOut := rfl
@[simp] theorem setW_division (n : Nat) (w : Window) : (setW n w s).division = s.division := rfl
@[simp] theorem setW_startup (n : Nat) (w : Window) : (setW n w s).startup = s.startup := rfl
@[simp] theorem setW_cycle (n : Nat) (w : Window) : (setW n w s).cycle = s.cycle := rfl
@[simp] theorem setW_taken (n : Nat) (w : Window) : (setW n w s).taken = s.taken := rfl
@[simp] theorem setW_ticks (n : Nat) (w : Window) : (setW n w s).ticks = s.ticks := rfl
@[simp] theorem setW_arg (n : Nat) (w : Window) : (setW n w s).arg = s.arg := rfl
@[simp] theorem setW_agenda (n : Nat) (w : Window) : (setW n w s).agenda = s.agenda := rfl
@[simp] theorem setW_outbox (n : Nat) (w : Window) : (setW n w s).outbox = s.outbox := rfl
@[simp] theorem setW_cxlAsked (n : Nat) (w : Window) : (setW n w s).cxlAsked = s.cxlAsked := rfl
@[simp] theorem setW_readied (n : Nat) (w : Window) : (setW n w s).readied = s.readied := rfl
@[simp] theorem setW_noted (n : Nat) (w : Window) : (setW n w s).noted = s.noted := rfl
@[simp] theorem setW_badEntries (n : Nat) (w : Window) : (setW n w s).badEntries = s.badEntries := rfl
@[simp] theorem setW_inbound (n : Nat) (w : Window) : (setW n w s).inbound = s.inbound := rfl

/-! ### setMode -/

@[simp] theorem setMode_g (m : Word) : (setMode m s).g = s.g := rfl
@[simp] theorem setMode_gangs (m : Word) : (setMode m s).gangs = s.gangs := rfl
@[simp] theorem setMode_reqs (m : Word) : (setMode m s).reqs = s.reqs := rfl
@[simp] theorem setMode_remotes (m : Word) : (setMode m s).remotes = s.remotes := rfl
@[simp] theorem setMode_cmds (m : Word) : (setMode m s).cmds = s.cmds := rfl
@[simp] theorem setMode_tiles (m : Word) : (setMode m s).tiles = s.tiles := rfl
@[simp] theorem setMode_lines (m : Word) : (setMode m s).lines = s.lines := rfl
@[simp] theorem setMode_mem (m : Word) : (setMode m s).mem = s.mem := rfl
@[simp] theorem setMode_launches (m : Word) : (setMode m s).launches = s.launches := rfl
@[simp] theorem setMode_parts (m : Word) : (setMode m s).parts = s.parts := rfl
@[simp] theorem setMode_nextId (m : Word) : (setMode m s).nextId = s.nextId := rfl
@[simp] theorem setMode_sregs (m : Word) : (setMode m s).p.sregs = s.p.sregs := rfl
@[simp] theorem setMode_sstate (m : Word) : (setMode m s).p.sstate = s.p.sstate := rfl
@[simp] theorem setMode_wins (m : Word) : (setMode m s).p.wins = s.p.wins := rfl
@[simp] theorem setMode_exec (m : Word) : (setMode m s).p.exec = s.p.exec := rfl
@[simp] theorem setMode_members (m : Word) : (setMode m s).p.members = s.p.members := rfl
@[simp] theorem setMode_fstat (m : Word) : (setMode m s).p.fstat = s.p.fstat := rfl
@[simp] theorem setMode_rstack (m : Word) : (setMode m s).p.rstack = s.p.rstack := rfl
@[simp] theorem setMode_clock (m : Word) : (setMode m s).p.clock = s.p.clock := rfl
@[simp] theorem setMode_pc (m : Word) : (setMode m s).p.pc = s.p.pc := rfl
@[simp] theorem setMode_accums (m : Word) : (setMode m s).accums = s.accums := rfl
@[simp] theorem setMode_loaded (m : Word) : (setMode m s).loaded = s.loaded := rfl
@[simp] theorem setMode_l1 (m : Word) : (setMode m s).l1 = s.l1 := rfl
@[simp] theorem setMode_icache (m : Word) : (setMode m s).icache = s.icache := rfl
@[simp] theorem setMode_plb (m : Word) : (setMode m s).plb = s.plb := rfl
@[simp] theorem setMode_remoteCopies (m : Word) : (setMode m s).remoteCopies = s.remoteCopies := rfl
@[simp] theorem setMode_brim (m : Word) : (setMode m s).brim = s.brim := rfl
@[simp] theorem setMode_pubs (m : Word) : (setMode m s).pubs = s.pubs := rfl
@[simp] theorem setMode_updates (m : Word) : (setMode m s).updates = s.updates := rfl
@[simp] theorem setMode_mitten (m : Word) : (setMode m s).mitten = s.mitten := rfl
@[simp] theorem setMode_retry (m : Word) : (setMode m s).retry = s.retry := rfl
@[simp] theorem setMode_late (m : Word) : (setMode m s).late = s.late := rfl
@[simp] theorem setMode_outDirs (m : Word) : (setMode m s).outDirs = s.outDirs := rfl
@[simp] theorem setMode_reserved (m : Word) : (setMode m s).reserved = s.reserved := rfl
@[simp] theorem setMode_starving (m : Word) : (setMode m s).starving = s.starving := rfl
@[simp] theorem setMode_hpcc (m : Word) : (setMode m s).hpcc = s.hpcc := rfl
@[simp] theorem setMode_hostQueue (m : Word) : (setMode m s).hostQueue = s.hostQueue := rfl
@[simp] theorem setMode_roots (m : Word) : (setMode m s).roots = s.roots := rfl
@[simp] theorem setMode_frames (m : Word) : (setMode m s).frames = s.frames := rfl
@[simp] theorem setMode_badLines (m : Word) : (setMode m s).badLines = s.badLines := rfl
@[simp] theorem setMode_ports (m : Word) : (setMode m s).ports = s.ports := rfl
@[simp] theorem setMode_posted (m : Word) : (setMode m s).posted = s.posted := rfl
@[simp] theorem setMode_dies (m : Word) : (setMode m s).dies = s.dies := rfl
@[simp] theorem setMode_tripped (m : Word) : (setMode m s).tripped = s.tripped := rfl
@[simp] theorem setMode_filterCount (m : Word) : (setMode m s).filterCount = s.filterCount := rfl
@[simp] theorem setMode_probes (m : Word) : (setMode m s).probes = s.probes := rfl
@[simp] theorem setMode_corrected (m : Word) : (setMode m s).corrected = s.corrected := rfl
@[simp] theorem setMode_clustersOut (m : Word) : (setMode m s).clustersOut = s.clustersOut := rfl
@[simp] theorem setMode_hbmOut (m : Word) : (setMode m s).hbmOut = s.hbmOut := rfl
@[simp] theorem setMode_hcOut (m : Word) : (setMode m s).hcOut = s.hcOut := rfl
@[simp] theorem setMode_sliceOut (m : Word) : (setMode m s).sliceOut = s.sliceOut := rfl
@[simp] theorem setMode_fportOut (m : Word) : (setMode m s).fportOut = s.fportOut := rfl
@[simp] theorem setMode_bridgeOut (m : Word) : (setMode m s).bridgeOut = s.bridgeOut := rfl
@[simp] theorem setMode_division (m : Word) : (setMode m s).division = s.division := rfl
@[simp] theorem setMode_startup (m : Word) : (setMode m s).startup = s.startup := rfl
@[simp] theorem setMode_cycle (m : Word) : (setMode m s).cycle = s.cycle := rfl
@[simp] theorem setMode_taken (m : Word) : (setMode m s).taken = s.taken := rfl
@[simp] theorem setMode_ticks (m : Word) : (setMode m s).ticks = s.ticks := rfl
@[simp] theorem setMode_arg (m : Word) : (setMode m s).arg = s.arg := rfl
@[simp] theorem setMode_agenda (m : Word) : (setMode m s).agenda = s.agenda := rfl
@[simp] theorem setMode_outbox (m : Word) : (setMode m s).outbox = s.outbox := rfl
@[simp] theorem setMode_cxlAsked (m : Word) : (setMode m s).cxlAsked = s.cxlAsked := rfl
@[simp] theorem setMode_readied (m : Word) : (setMode m s).readied = s.readied := rfl
@[simp] theorem setMode_noted (m : Word) : (setMode m s).noted = s.noted := rfl
@[simp] theorem setMode_badEntries (m : Word) : (setMode m s).badEntries = s.badEntries := rfl
@[simp] theorem setMode_inbound (m : Word) : (setMode m s).inbound = s.inbound := rfl

/-! ### raiseFlags -/

@[simp] theorem raiseFlags_g (f : BitVec 64) : (raiseFlags f s).g = s.g := rfl
@[simp] theorem raiseFlags_gangs (f : BitVec 64) : (raiseFlags f s).gangs = s.gangs := rfl
@[simp] theorem raiseFlags_reqs (f : BitVec 64) : (raiseFlags f s).reqs = s.reqs := rfl
@[simp] theorem raiseFlags_remotes (f : BitVec 64) : (raiseFlags f s).remotes = s.remotes := rfl
@[simp] theorem raiseFlags_cmds (f : BitVec 64) : (raiseFlags f s).cmds = s.cmds := rfl
@[simp] theorem raiseFlags_tiles (f : BitVec 64) : (raiseFlags f s).tiles = s.tiles := rfl
@[simp] theorem raiseFlags_lines (f : BitVec 64) : (raiseFlags f s).lines = s.lines := rfl
@[simp] theorem raiseFlags_mem (f : BitVec 64) : (raiseFlags f s).mem = s.mem := rfl
@[simp] theorem raiseFlags_launches (f : BitVec 64) : (raiseFlags f s).launches = s.launches := rfl
@[simp] theorem raiseFlags_parts (f : BitVec 64) : (raiseFlags f s).parts = s.parts := rfl
@[simp] theorem raiseFlags_nextId (f : BitVec 64) : (raiseFlags f s).nextId = s.nextId := rfl
@[simp] theorem raiseFlags_sregs (f : BitVec 64) : (raiseFlags f s).p.sregs = s.p.sregs := rfl
@[simp] theorem raiseFlags_sstate (f : BitVec 64) : (raiseFlags f s).p.sstate = s.p.sstate := rfl
@[simp] theorem raiseFlags_wins (f : BitVec 64) : (raiseFlags f s).p.wins = s.p.wins := rfl
@[simp] theorem raiseFlags_mode (f : BitVec 64) : (raiseFlags f s).p.mode = s.p.mode := rfl
@[simp] theorem raiseFlags_exec (f : BitVec 64) : (raiseFlags f s).p.exec = s.p.exec := rfl
@[simp] theorem raiseFlags_members (f : BitVec 64) : (raiseFlags f s).p.members = s.p.members := rfl
@[simp] theorem raiseFlags_rstack (f : BitVec 64) : (raiseFlags f s).p.rstack = s.p.rstack := rfl
@[simp] theorem raiseFlags_clock (f : BitVec 64) : (raiseFlags f s).p.clock = s.p.clock := rfl
@[simp] theorem raiseFlags_pc (f : BitVec 64) : (raiseFlags f s).p.pc = s.p.pc := rfl
@[simp] theorem raiseFlags_accums (f : BitVec 64) : (raiseFlags f s).accums = s.accums := rfl
@[simp] theorem raiseFlags_loaded (f : BitVec 64) : (raiseFlags f s).loaded = s.loaded := rfl
@[simp] theorem raiseFlags_l1 (f : BitVec 64) : (raiseFlags f s).l1 = s.l1 := rfl
@[simp] theorem raiseFlags_icache (f : BitVec 64) : (raiseFlags f s).icache = s.icache := rfl
@[simp] theorem raiseFlags_plb (f : BitVec 64) : (raiseFlags f s).plb = s.plb := rfl
@[simp] theorem raiseFlags_remoteCopies (f : BitVec 64) : (raiseFlags f s).remoteCopies = s.remoteCopies := rfl
@[simp] theorem raiseFlags_brim (f : BitVec 64) : (raiseFlags f s).brim = s.brim := rfl
@[simp] theorem raiseFlags_pubs (f : BitVec 64) : (raiseFlags f s).pubs = s.pubs := rfl
@[simp] theorem raiseFlags_updates (f : BitVec 64) : (raiseFlags f s).updates = s.updates := rfl
@[simp] theorem raiseFlags_mitten (f : BitVec 64) : (raiseFlags f s).mitten = s.mitten := rfl
@[simp] theorem raiseFlags_retry (f : BitVec 64) : (raiseFlags f s).retry = s.retry := rfl
@[simp] theorem raiseFlags_late (f : BitVec 64) : (raiseFlags f s).late = s.late := rfl
@[simp] theorem raiseFlags_outDirs (f : BitVec 64) : (raiseFlags f s).outDirs = s.outDirs := rfl
@[simp] theorem raiseFlags_reserved (f : BitVec 64) : (raiseFlags f s).reserved = s.reserved := rfl
@[simp] theorem raiseFlags_starving (f : BitVec 64) : (raiseFlags f s).starving = s.starving := rfl
@[simp] theorem raiseFlags_hpcc (f : BitVec 64) : (raiseFlags f s).hpcc = s.hpcc := rfl
@[simp] theorem raiseFlags_hostQueue (f : BitVec 64) : (raiseFlags f s).hostQueue = s.hostQueue := rfl
@[simp] theorem raiseFlags_roots (f : BitVec 64) : (raiseFlags f s).roots = s.roots := rfl
@[simp] theorem raiseFlags_frames (f : BitVec 64) : (raiseFlags f s).frames = s.frames := rfl
@[simp] theorem raiseFlags_badLines (f : BitVec 64) : (raiseFlags f s).badLines = s.badLines := rfl
@[simp] theorem raiseFlags_ports (f : BitVec 64) : (raiseFlags f s).ports = s.ports := rfl
@[simp] theorem raiseFlags_posted (f : BitVec 64) : (raiseFlags f s).posted = s.posted := rfl
@[simp] theorem raiseFlags_dies (f : BitVec 64) : (raiseFlags f s).dies = s.dies := rfl
@[simp] theorem raiseFlags_tripped (f : BitVec 64) : (raiseFlags f s).tripped = s.tripped := rfl
@[simp] theorem raiseFlags_filterCount (f : BitVec 64) : (raiseFlags f s).filterCount = s.filterCount := rfl
@[simp] theorem raiseFlags_probes (f : BitVec 64) : (raiseFlags f s).probes = s.probes := rfl
@[simp] theorem raiseFlags_corrected (f : BitVec 64) : (raiseFlags f s).corrected = s.corrected := rfl
@[simp] theorem raiseFlags_clustersOut (f : BitVec 64) : (raiseFlags f s).clustersOut = s.clustersOut := rfl
@[simp] theorem raiseFlags_hbmOut (f : BitVec 64) : (raiseFlags f s).hbmOut = s.hbmOut := rfl
@[simp] theorem raiseFlags_hcOut (f : BitVec 64) : (raiseFlags f s).hcOut = s.hcOut := rfl
@[simp] theorem raiseFlags_sliceOut (f : BitVec 64) : (raiseFlags f s).sliceOut = s.sliceOut := rfl
@[simp] theorem raiseFlags_fportOut (f : BitVec 64) : (raiseFlags f s).fportOut = s.fportOut := rfl
@[simp] theorem raiseFlags_bridgeOut (f : BitVec 64) : (raiseFlags f s).bridgeOut = s.bridgeOut := rfl
@[simp] theorem raiseFlags_division (f : BitVec 64) : (raiseFlags f s).division = s.division := rfl
@[simp] theorem raiseFlags_startup (f : BitVec 64) : (raiseFlags f s).startup = s.startup := rfl
@[simp] theorem raiseFlags_cycle (f : BitVec 64) : (raiseFlags f s).cycle = s.cycle := rfl
@[simp] theorem raiseFlags_taken (f : BitVec 64) : (raiseFlags f s).taken = s.taken := rfl
@[simp] theorem raiseFlags_ticks (f : BitVec 64) : (raiseFlags f s).ticks = s.ticks := rfl
@[simp] theorem raiseFlags_arg (f : BitVec 64) : (raiseFlags f s).arg = s.arg := rfl
@[simp] theorem raiseFlags_agenda (f : BitVec 64) : (raiseFlags f s).agenda = s.agenda := rfl
@[simp] theorem raiseFlags_outbox (f : BitVec 64) : (raiseFlags f s).outbox = s.outbox := rfl
@[simp] theorem raiseFlags_cxlAsked (f : BitVec 64) : (raiseFlags f s).cxlAsked = s.cxlAsked := rfl
@[simp] theorem raiseFlags_readied (f : BitVec 64) : (raiseFlags f s).readied = s.readied := rfl
@[simp] theorem raiseFlags_noted (f : BitVec 64) : (raiseFlags f s).noted = s.noted := rfl
@[simp] theorem raiseFlags_badEntries (f : BitVec 64) : (raiseFlags f s).badEntries = s.badEntries := rfl
@[simp] theorem raiseFlags_inbound (f : BitVec 64) : (raiseFlags f s).inbound = s.inbound := rfl

/-! ### mapLaunch -/

@[simp] theorem mapLaunch_p (n : Nat) (f : Launch → Launch) : (mapLaunch n f s).p = s.p := rfl
@[simp] theorem mapLaunch_g (n : Nat) (f : Launch → Launch) : (mapLaunch n f s).g = s.g := rfl
@[simp] theorem mapLaunch_gangs (n : Nat) (f : Launch → Launch) : (mapLaunch n f s).gangs = s.gangs := rfl
@[simp] theorem mapLaunch_reqs (n : Nat) (f : Launch → Launch) : (mapLaunch n f s).reqs = s.reqs := rfl
@[simp] theorem mapLaunch_remotes (n : Nat) (f : Launch → Launch) : (mapLaunch n f s).remotes = s.remotes := rfl
@[simp] theorem mapLaunch_cmds (n : Nat) (f : Launch → Launch) : (mapLaunch n f s).cmds = s.cmds := rfl
@[simp] theorem mapLaunch_tiles (n : Nat) (f : Launch → Launch) : (mapLaunch n f s).tiles = s.tiles := rfl
@[simp] theorem mapLaunch_lines (n : Nat) (f : Launch → Launch) : (mapLaunch n f s).lines = s.lines := rfl
@[simp] theorem mapLaunch_mem (n : Nat) (f : Launch → Launch) : (mapLaunch n f s).mem = s.mem := rfl
@[simp] theorem mapLaunch_parts (n : Nat) (f : Launch → Launch) : (mapLaunch n f s).parts = s.parts := rfl
@[simp] theorem mapLaunch_nextId (n : Nat) (f : Launch → Launch) : (mapLaunch n f s).nextId = s.nextId := rfl
@[simp] theorem mapLaunch_accums (n : Nat) (f : Launch → Launch) : (mapLaunch n f s).accums = s.accums := rfl
@[simp] theorem mapLaunch_loaded (n : Nat) (f : Launch → Launch) : (mapLaunch n f s).loaded = s.loaded := rfl
@[simp] theorem mapLaunch_l1 (n : Nat) (f : Launch → Launch) : (mapLaunch n f s).l1 = s.l1 := rfl
@[simp] theorem mapLaunch_icache (n : Nat) (f : Launch → Launch) : (mapLaunch n f s).icache = s.icache := rfl
@[simp] theorem mapLaunch_plb (n : Nat) (f : Launch → Launch) : (mapLaunch n f s).plb = s.plb := rfl
@[simp] theorem mapLaunch_remoteCopies (n : Nat) (f : Launch → Launch) : (mapLaunch n f s).remoteCopies = s.remoteCopies := rfl
@[simp] theorem mapLaunch_brim (n : Nat) (f : Launch → Launch) : (mapLaunch n f s).brim = s.brim := rfl
@[simp] theorem mapLaunch_pubs (n : Nat) (f : Launch → Launch) : (mapLaunch n f s).pubs = s.pubs := rfl
@[simp] theorem mapLaunch_updates (n : Nat) (f : Launch → Launch) : (mapLaunch n f s).updates = s.updates := rfl
@[simp] theorem mapLaunch_mitten (n : Nat) (f : Launch → Launch) : (mapLaunch n f s).mitten = s.mitten := rfl
@[simp] theorem mapLaunch_retry (n : Nat) (f : Launch → Launch) : (mapLaunch n f s).retry = s.retry := rfl
@[simp] theorem mapLaunch_late (n : Nat) (f : Launch → Launch) : (mapLaunch n f s).late = s.late := rfl
@[simp] theorem mapLaunch_outDirs (n : Nat) (f : Launch → Launch) : (mapLaunch n f s).outDirs = s.outDirs := rfl
@[simp] theorem mapLaunch_reserved (n : Nat) (f : Launch → Launch) : (mapLaunch n f s).reserved = s.reserved := rfl
@[simp] theorem mapLaunch_starving (n : Nat) (f : Launch → Launch) : (mapLaunch n f s).starving = s.starving := rfl
@[simp] theorem mapLaunch_hpcc (n : Nat) (f : Launch → Launch) : (mapLaunch n f s).hpcc = s.hpcc := rfl
@[simp] theorem mapLaunch_hostQueue (n : Nat) (f : Launch → Launch) : (mapLaunch n f s).hostQueue = s.hostQueue := rfl
@[simp] theorem mapLaunch_roots (n : Nat) (f : Launch → Launch) : (mapLaunch n f s).roots = s.roots := rfl
@[simp] theorem mapLaunch_frames (n : Nat) (f : Launch → Launch) : (mapLaunch n f s).frames = s.frames := rfl
@[simp] theorem mapLaunch_badLines (n : Nat) (f : Launch → Launch) : (mapLaunch n f s).badLines = s.badLines := rfl
@[simp] theorem mapLaunch_ports (n : Nat) (f : Launch → Launch) : (mapLaunch n f s).ports = s.ports := rfl
@[simp] theorem mapLaunch_posted (n : Nat) (f : Launch → Launch) : (mapLaunch n f s).posted = s.posted := rfl
@[simp] theorem mapLaunch_dies (n : Nat) (f : Launch → Launch) : (mapLaunch n f s).dies = s.dies := rfl
@[simp] theorem mapLaunch_tripped (n : Nat) (f : Launch → Launch) : (mapLaunch n f s).tripped = s.tripped := rfl
@[simp] theorem mapLaunch_filterCount (n : Nat) (f : Launch → Launch) : (mapLaunch n f s).filterCount = s.filterCount := rfl
@[simp] theorem mapLaunch_probes (n : Nat) (f : Launch → Launch) : (mapLaunch n f s).probes = s.probes := rfl
@[simp] theorem mapLaunch_corrected (n : Nat) (f : Launch → Launch) : (mapLaunch n f s).corrected = s.corrected := rfl
@[simp] theorem mapLaunch_clustersOut (n : Nat) (f : Launch → Launch) : (mapLaunch n f s).clustersOut = s.clustersOut := rfl
@[simp] theorem mapLaunch_hbmOut (n : Nat) (f : Launch → Launch) : (mapLaunch n f s).hbmOut = s.hbmOut := rfl
@[simp] theorem mapLaunch_hcOut (n : Nat) (f : Launch → Launch) : (mapLaunch n f s).hcOut = s.hcOut := rfl
@[simp] theorem mapLaunch_sliceOut (n : Nat) (f : Launch → Launch) : (mapLaunch n f s).sliceOut = s.sliceOut := rfl
@[simp] theorem mapLaunch_fportOut (n : Nat) (f : Launch → Launch) : (mapLaunch n f s).fportOut = s.fportOut := rfl
@[simp] theorem mapLaunch_bridgeOut (n : Nat) (f : Launch → Launch) : (mapLaunch n f s).bridgeOut = s.bridgeOut := rfl
@[simp] theorem mapLaunch_division (n : Nat) (f : Launch → Launch) : (mapLaunch n f s).division = s.division := rfl
@[simp] theorem mapLaunch_startup (n : Nat) (f : Launch → Launch) : (mapLaunch n f s).startup = s.startup := rfl
@[simp] theorem mapLaunch_cycle (n : Nat) (f : Launch → Launch) : (mapLaunch n f s).cycle = s.cycle := rfl
@[simp] theorem mapLaunch_taken (n : Nat) (f : Launch → Launch) : (mapLaunch n f s).taken = s.taken := rfl
@[simp] theorem mapLaunch_ticks (n : Nat) (f : Launch → Launch) : (mapLaunch n f s).ticks = s.ticks := rfl
@[simp] theorem mapLaunch_arg (n : Nat) (f : Launch → Launch) : (mapLaunch n f s).arg = s.arg := rfl
@[simp] theorem mapLaunch_agenda (n : Nat) (f : Launch → Launch) : (mapLaunch n f s).agenda = s.agenda := rfl
@[simp] theorem mapLaunch_outbox (n : Nat) (f : Launch → Launch) : (mapLaunch n f s).outbox = s.outbox := rfl
@[simp] theorem mapLaunch_cxlAsked (n : Nat) (f : Launch → Launch) : (mapLaunch n f s).cxlAsked = s.cxlAsked := rfl
@[simp] theorem mapLaunch_readied (n : Nat) (f : Launch → Launch) : (mapLaunch n f s).readied = s.readied := rfl
@[simp] theorem mapLaunch_noted (n : Nat) (f : Launch → Launch) : (mapLaunch n f s).noted = s.noted := rfl
@[simp] theorem mapLaunch_badEntries (n : Nat) (f : Launch → Launch) : (mapLaunch n f s).badEntries = s.badEntries := rfl
@[simp] theorem mapLaunch_inbound (n : Nat) (f : Launch → Launch) : (mapLaunch n f s).inbound = s.inbound := rfl

/-! ### mapPart -/

@[simp] theorem mapPart_p (n : Nat) (f : Partition → Partition) : (mapPart n f s).p = s.p := rfl
@[simp] theorem mapPart_g (n : Nat) (f : Partition → Partition) : (mapPart n f s).g = s.g := rfl
@[simp] theorem mapPart_gangs (n : Nat) (f : Partition → Partition) : (mapPart n f s).gangs = s.gangs := rfl
@[simp] theorem mapPart_reqs (n : Nat) (f : Partition → Partition) : (mapPart n f s).reqs = s.reqs := rfl
@[simp] theorem mapPart_remotes (n : Nat) (f : Partition → Partition) : (mapPart n f s).remotes = s.remotes := rfl
@[simp] theorem mapPart_cmds (n : Nat) (f : Partition → Partition) : (mapPart n f s).cmds = s.cmds := rfl
@[simp] theorem mapPart_tiles (n : Nat) (f : Partition → Partition) : (mapPart n f s).tiles = s.tiles := rfl
@[simp] theorem mapPart_lines (n : Nat) (f : Partition → Partition) : (mapPart n f s).lines = s.lines := rfl
@[simp] theorem mapPart_mem (n : Nat) (f : Partition → Partition) : (mapPart n f s).mem = s.mem := rfl
@[simp] theorem mapPart_launches (n : Nat) (f : Partition → Partition) : (mapPart n f s).launches = s.launches := rfl
@[simp] theorem mapPart_nextId (n : Nat) (f : Partition → Partition) : (mapPart n f s).nextId = s.nextId := rfl
@[simp] theorem mapPart_accums (n : Nat) (f : Partition → Partition) : (mapPart n f s).accums = s.accums := rfl
@[simp] theorem mapPart_loaded (n : Nat) (f : Partition → Partition) : (mapPart n f s).loaded = s.loaded := rfl
@[simp] theorem mapPart_l1 (n : Nat) (f : Partition → Partition) : (mapPart n f s).l1 = s.l1 := rfl
@[simp] theorem mapPart_icache (n : Nat) (f : Partition → Partition) : (mapPart n f s).icache = s.icache := rfl
@[simp] theorem mapPart_plb (n : Nat) (f : Partition → Partition) : (mapPart n f s).plb = s.plb := rfl
@[simp] theorem mapPart_remoteCopies (n : Nat) (f : Partition → Partition) : (mapPart n f s).remoteCopies = s.remoteCopies := rfl
@[simp] theorem mapPart_brim (n : Nat) (f : Partition → Partition) : (mapPart n f s).brim = s.brim := rfl
@[simp] theorem mapPart_pubs (n : Nat) (f : Partition → Partition) : (mapPart n f s).pubs = s.pubs := rfl
@[simp] theorem mapPart_updates (n : Nat) (f : Partition → Partition) : (mapPart n f s).updates = s.updates := rfl
@[simp] theorem mapPart_mitten (n : Nat) (f : Partition → Partition) : (mapPart n f s).mitten = s.mitten := rfl
@[simp] theorem mapPart_retry (n : Nat) (f : Partition → Partition) : (mapPart n f s).retry = s.retry := rfl
@[simp] theorem mapPart_late (n : Nat) (f : Partition → Partition) : (mapPart n f s).late = s.late := rfl
@[simp] theorem mapPart_outDirs (n : Nat) (f : Partition → Partition) : (mapPart n f s).outDirs = s.outDirs := rfl
@[simp] theorem mapPart_reserved (n : Nat) (f : Partition → Partition) : (mapPart n f s).reserved = s.reserved := rfl
@[simp] theorem mapPart_starving (n : Nat) (f : Partition → Partition) : (mapPart n f s).starving = s.starving := rfl
@[simp] theorem mapPart_hpcc (n : Nat) (f : Partition → Partition) : (mapPart n f s).hpcc = s.hpcc := rfl
@[simp] theorem mapPart_hostQueue (n : Nat) (f : Partition → Partition) : (mapPart n f s).hostQueue = s.hostQueue := rfl
@[simp] theorem mapPart_roots (n : Nat) (f : Partition → Partition) : (mapPart n f s).roots = s.roots := rfl
@[simp] theorem mapPart_frames (n : Nat) (f : Partition → Partition) : (mapPart n f s).frames = s.frames := rfl
@[simp] theorem mapPart_badLines (n : Nat) (f : Partition → Partition) : (mapPart n f s).badLines = s.badLines := rfl
@[simp] theorem mapPart_ports (n : Nat) (f : Partition → Partition) : (mapPart n f s).ports = s.ports := rfl
@[simp] theorem mapPart_posted (n : Nat) (f : Partition → Partition) : (mapPart n f s).posted = s.posted := rfl
@[simp] theorem mapPart_dies (n : Nat) (f : Partition → Partition) : (mapPart n f s).dies = s.dies := rfl
@[simp] theorem mapPart_tripped (n : Nat) (f : Partition → Partition) : (mapPart n f s).tripped = s.tripped := rfl
@[simp] theorem mapPart_filterCount (n : Nat) (f : Partition → Partition) : (mapPart n f s).filterCount = s.filterCount := rfl
@[simp] theorem mapPart_probes (n : Nat) (f : Partition → Partition) : (mapPart n f s).probes = s.probes := rfl
@[simp] theorem mapPart_corrected (n : Nat) (f : Partition → Partition) : (mapPart n f s).corrected = s.corrected := rfl
@[simp] theorem mapPart_clustersOut (n : Nat) (f : Partition → Partition) : (mapPart n f s).clustersOut = s.clustersOut := rfl
@[simp] theorem mapPart_hbmOut (n : Nat) (f : Partition → Partition) : (mapPart n f s).hbmOut = s.hbmOut := rfl
@[simp] theorem mapPart_hcOut (n : Nat) (f : Partition → Partition) : (mapPart n f s).hcOut = s.hcOut := rfl
@[simp] theorem mapPart_sliceOut (n : Nat) (f : Partition → Partition) : (mapPart n f s).sliceOut = s.sliceOut := rfl
@[simp] theorem mapPart_fportOut (n : Nat) (f : Partition → Partition) : (mapPart n f s).fportOut = s.fportOut := rfl
@[simp] theorem mapPart_bridgeOut (n : Nat) (f : Partition → Partition) : (mapPart n f s).bridgeOut = s.bridgeOut := rfl
@[simp] theorem mapPart_division (n : Nat) (f : Partition → Partition) : (mapPart n f s).division = s.division := rfl
@[simp] theorem mapPart_startup (n : Nat) (f : Partition → Partition) : (mapPart n f s).startup = s.startup := rfl
@[simp] theorem mapPart_cycle (n : Nat) (f : Partition → Partition) : (mapPart n f s).cycle = s.cycle := rfl
@[simp] theorem mapPart_taken (n : Nat) (f : Partition → Partition) : (mapPart n f s).taken = s.taken := rfl
@[simp] theorem mapPart_ticks (n : Nat) (f : Partition → Partition) : (mapPart n f s).ticks = s.ticks := rfl
@[simp] theorem mapPart_arg (n : Nat) (f : Partition → Partition) : (mapPart n f s).arg = s.arg := rfl
@[simp] theorem mapPart_agenda (n : Nat) (f : Partition → Partition) : (mapPart n f s).agenda = s.agenda := rfl
@[simp] theorem mapPart_outbox (n : Nat) (f : Partition → Partition) : (mapPart n f s).outbox = s.outbox := rfl
@[simp] theorem mapPart_cxlAsked (n : Nat) (f : Partition → Partition) : (mapPart n f s).cxlAsked = s.cxlAsked := rfl
@[simp] theorem mapPart_readied (n : Nat) (f : Partition → Partition) : (mapPart n f s).readied = s.readied := rfl
@[simp] theorem mapPart_noted (n : Nat) (f : Partition → Partition) : (mapPart n f s).noted = s.noted := rfl
@[simp] theorem mapPart_badEntries (n : Nat) (f : Partition → Partition) : (mapPart n f s).badEntries = s.badEntries := rfl
@[simp] theorem mapPart_inbound (n : Nat) (f : Partition → Partition) : (mapPart n f s).inbound = s.inbound := rfl

/-! ### mapReq -/

@[simp] theorem mapReq_p (n : Nat) (f : Req → Req) : (mapReq n f s).p = s.p := rfl
@[simp] theorem mapReq_g (n : Nat) (f : Req → Req) : (mapReq n f s).g = s.g := rfl
@[simp] theorem mapReq_gangs (n : Nat) (f : Req → Req) : (mapReq n f s).gangs = s.gangs := rfl
@[simp] theorem mapReq_remotes (n : Nat) (f : Req → Req) : (mapReq n f s).remotes = s.remotes := rfl
@[simp] theorem mapReq_cmds (n : Nat) (f : Req → Req) : (mapReq n f s).cmds = s.cmds := rfl
@[simp] theorem mapReq_tiles (n : Nat) (f : Req → Req) : (mapReq n f s).tiles = s.tiles := rfl
@[simp] theorem mapReq_lines (n : Nat) (f : Req → Req) : (mapReq n f s).lines = s.lines := rfl
@[simp] theorem mapReq_mem (n : Nat) (f : Req → Req) : (mapReq n f s).mem = s.mem := rfl
@[simp] theorem mapReq_launches (n : Nat) (f : Req → Req) : (mapReq n f s).launches = s.launches := rfl
@[simp] theorem mapReq_parts (n : Nat) (f : Req → Req) : (mapReq n f s).parts = s.parts := rfl
@[simp] theorem mapReq_nextId (n : Nat) (f : Req → Req) : (mapReq n f s).nextId = s.nextId := rfl
@[simp] theorem mapReq_accums (n : Nat) (f : Req → Req) : (mapReq n f s).accums = s.accums := rfl
@[simp] theorem mapReq_loaded (n : Nat) (f : Req → Req) : (mapReq n f s).loaded = s.loaded := rfl
@[simp] theorem mapReq_l1 (n : Nat) (f : Req → Req) : (mapReq n f s).l1 = s.l1 := rfl
@[simp] theorem mapReq_icache (n : Nat) (f : Req → Req) : (mapReq n f s).icache = s.icache := rfl
@[simp] theorem mapReq_plb (n : Nat) (f : Req → Req) : (mapReq n f s).plb = s.plb := rfl
@[simp] theorem mapReq_remoteCopies (n : Nat) (f : Req → Req) : (mapReq n f s).remoteCopies = s.remoteCopies := rfl
@[simp] theorem mapReq_brim (n : Nat) (f : Req → Req) : (mapReq n f s).brim = s.brim := rfl
@[simp] theorem mapReq_pubs (n : Nat) (f : Req → Req) : (mapReq n f s).pubs = s.pubs := rfl
@[simp] theorem mapReq_updates (n : Nat) (f : Req → Req) : (mapReq n f s).updates = s.updates := rfl
@[simp] theorem mapReq_mitten (n : Nat) (f : Req → Req) : (mapReq n f s).mitten = s.mitten := rfl
@[simp] theorem mapReq_retry (n : Nat) (f : Req → Req) : (mapReq n f s).retry = s.retry := rfl
@[simp] theorem mapReq_late (n : Nat) (f : Req → Req) : (mapReq n f s).late = s.late := rfl
@[simp] theorem mapReq_outDirs (n : Nat) (f : Req → Req) : (mapReq n f s).outDirs = s.outDirs := rfl
@[simp] theorem mapReq_reserved (n : Nat) (f : Req → Req) : (mapReq n f s).reserved = s.reserved := rfl
@[simp] theorem mapReq_starving (n : Nat) (f : Req → Req) : (mapReq n f s).starving = s.starving := rfl
@[simp] theorem mapReq_hpcc (n : Nat) (f : Req → Req) : (mapReq n f s).hpcc = s.hpcc := rfl
@[simp] theorem mapReq_hostQueue (n : Nat) (f : Req → Req) : (mapReq n f s).hostQueue = s.hostQueue := rfl
@[simp] theorem mapReq_roots (n : Nat) (f : Req → Req) : (mapReq n f s).roots = s.roots := rfl
@[simp] theorem mapReq_frames (n : Nat) (f : Req → Req) : (mapReq n f s).frames = s.frames := rfl
@[simp] theorem mapReq_badLines (n : Nat) (f : Req → Req) : (mapReq n f s).badLines = s.badLines := rfl
@[simp] theorem mapReq_ports (n : Nat) (f : Req → Req) : (mapReq n f s).ports = s.ports := rfl
@[simp] theorem mapReq_posted (n : Nat) (f : Req → Req) : (mapReq n f s).posted = s.posted := rfl
@[simp] theorem mapReq_dies (n : Nat) (f : Req → Req) : (mapReq n f s).dies = s.dies := rfl
@[simp] theorem mapReq_tripped (n : Nat) (f : Req → Req) : (mapReq n f s).tripped = s.tripped := rfl
@[simp] theorem mapReq_filterCount (n : Nat) (f : Req → Req) : (mapReq n f s).filterCount = s.filterCount := rfl
@[simp] theorem mapReq_probes (n : Nat) (f : Req → Req) : (mapReq n f s).probes = s.probes := rfl
@[simp] theorem mapReq_corrected (n : Nat) (f : Req → Req) : (mapReq n f s).corrected = s.corrected := rfl
@[simp] theorem mapReq_clustersOut (n : Nat) (f : Req → Req) : (mapReq n f s).clustersOut = s.clustersOut := rfl
@[simp] theorem mapReq_hbmOut (n : Nat) (f : Req → Req) : (mapReq n f s).hbmOut = s.hbmOut := rfl
@[simp] theorem mapReq_hcOut (n : Nat) (f : Req → Req) : (mapReq n f s).hcOut = s.hcOut := rfl
@[simp] theorem mapReq_sliceOut (n : Nat) (f : Req → Req) : (mapReq n f s).sliceOut = s.sliceOut := rfl
@[simp] theorem mapReq_fportOut (n : Nat) (f : Req → Req) : (mapReq n f s).fportOut = s.fportOut := rfl
@[simp] theorem mapReq_bridgeOut (n : Nat) (f : Req → Req) : (mapReq n f s).bridgeOut = s.bridgeOut := rfl
@[simp] theorem mapReq_division (n : Nat) (f : Req → Req) : (mapReq n f s).division = s.division := rfl
@[simp] theorem mapReq_startup (n : Nat) (f : Req → Req) : (mapReq n f s).startup = s.startup := rfl
@[simp] theorem mapReq_cycle (n : Nat) (f : Req → Req) : (mapReq n f s).cycle = s.cycle := rfl
@[simp] theorem mapReq_taken (n : Nat) (f : Req → Req) : (mapReq n f s).taken = s.taken := rfl
@[simp] theorem mapReq_ticks (n : Nat) (f : Req → Req) : (mapReq n f s).ticks = s.ticks := rfl
@[simp] theorem mapReq_arg (n : Nat) (f : Req → Req) : (mapReq n f s).arg = s.arg := rfl
@[simp] theorem mapReq_agenda (n : Nat) (f : Req → Req) : (mapReq n f s).agenda = s.agenda := rfl
@[simp] theorem mapReq_outbox (n : Nat) (f : Req → Req) : (mapReq n f s).outbox = s.outbox := rfl
@[simp] theorem mapReq_cxlAsked (n : Nat) (f : Req → Req) : (mapReq n f s).cxlAsked = s.cxlAsked := rfl
@[simp] theorem mapReq_readied (n : Nat) (f : Req → Req) : (mapReq n f s).readied = s.readied := rfl
@[simp] theorem mapReq_noted (n : Nat) (f : Req → Req) : (mapReq n f s).noted = s.noted := rfl
@[simp] theorem mapReq_badEntries (n : Nat) (f : Req → Req) : (mapReq n f s).badEntries = s.badEntries := rfl
@[simp] theorem mapReq_inbound (n : Nat) (f : Req → Req) : (mapReq n f s).inbound = s.inbound := rfl

/-! ### mapLine -/

@[simp] theorem mapLine_p (r : LineRef) (f : Line → Line) : (mapLine r f s).p = s.p := rfl
@[simp] theorem mapLine_g (r : LineRef) (f : Line → Line) : (mapLine r f s).g = s.g := rfl
@[simp] theorem mapLine_gangs (r : LineRef) (f : Line → Line) : (mapLine r f s).gangs = s.gangs := rfl
@[simp] theorem mapLine_reqs (r : LineRef) (f : Line → Line) : (mapLine r f s).reqs = s.reqs := rfl
@[simp] theorem mapLine_remotes (r : LineRef) (f : Line → Line) : (mapLine r f s).remotes = s.remotes := rfl
@[simp] theorem mapLine_cmds (r : LineRef) (f : Line → Line) : (mapLine r f s).cmds = s.cmds := rfl
@[simp] theorem mapLine_tiles (r : LineRef) (f : Line → Line) : (mapLine r f s).tiles = s.tiles := rfl
@[simp] theorem mapLine_mem (r : LineRef) (f : Line → Line) : (mapLine r f s).mem = s.mem := rfl
@[simp] theorem mapLine_launches (r : LineRef) (f : Line → Line) : (mapLine r f s).launches = s.launches := rfl
@[simp] theorem mapLine_parts (r : LineRef) (f : Line → Line) : (mapLine r f s).parts = s.parts := rfl
@[simp] theorem mapLine_nextId (r : LineRef) (f : Line → Line) : (mapLine r f s).nextId = s.nextId := rfl
@[simp] theorem mapLine_accums (r : LineRef) (f : Line → Line) : (mapLine r f s).accums = s.accums := rfl
@[simp] theorem mapLine_loaded (r : LineRef) (f : Line → Line) : (mapLine r f s).loaded = s.loaded := rfl
@[simp] theorem mapLine_l1 (r : LineRef) (f : Line → Line) : (mapLine r f s).l1 = s.l1 := rfl
@[simp] theorem mapLine_icache (r : LineRef) (f : Line → Line) : (mapLine r f s).icache = s.icache := rfl
@[simp] theorem mapLine_plb (r : LineRef) (f : Line → Line) : (mapLine r f s).plb = s.plb := rfl
@[simp] theorem mapLine_remoteCopies (r : LineRef) (f : Line → Line) : (mapLine r f s).remoteCopies = s.remoteCopies := rfl
@[simp] theorem mapLine_brim (r : LineRef) (f : Line → Line) : (mapLine r f s).brim = s.brim := rfl
@[simp] theorem mapLine_pubs (r : LineRef) (f : Line → Line) : (mapLine r f s).pubs = s.pubs := rfl
@[simp] theorem mapLine_updates (r : LineRef) (f : Line → Line) : (mapLine r f s).updates = s.updates := rfl
@[simp] theorem mapLine_mitten (r : LineRef) (f : Line → Line) : (mapLine r f s).mitten = s.mitten := rfl
@[simp] theorem mapLine_retry (r : LineRef) (f : Line → Line) : (mapLine r f s).retry = s.retry := rfl
@[simp] theorem mapLine_late (r : LineRef) (f : Line → Line) : (mapLine r f s).late = s.late := rfl
@[simp] theorem mapLine_outDirs (r : LineRef) (f : Line → Line) : (mapLine r f s).outDirs = s.outDirs := rfl
@[simp] theorem mapLine_reserved (r : LineRef) (f : Line → Line) : (mapLine r f s).reserved = s.reserved := rfl
@[simp] theorem mapLine_starving (r : LineRef) (f : Line → Line) : (mapLine r f s).starving = s.starving := rfl
@[simp] theorem mapLine_hpcc (r : LineRef) (f : Line → Line) : (mapLine r f s).hpcc = s.hpcc := rfl
@[simp] theorem mapLine_hostQueue (r : LineRef) (f : Line → Line) : (mapLine r f s).hostQueue = s.hostQueue := rfl
@[simp] theorem mapLine_roots (r : LineRef) (f : Line → Line) : (mapLine r f s).roots = s.roots := rfl
@[simp] theorem mapLine_frames (r : LineRef) (f : Line → Line) : (mapLine r f s).frames = s.frames := rfl
@[simp] theorem mapLine_badLines (r : LineRef) (f : Line → Line) : (mapLine r f s).badLines = s.badLines := rfl
@[simp] theorem mapLine_ports (r : LineRef) (f : Line → Line) : (mapLine r f s).ports = s.ports := rfl
@[simp] theorem mapLine_posted (r : LineRef) (f : Line → Line) : (mapLine r f s).posted = s.posted := rfl
@[simp] theorem mapLine_dies (r : LineRef) (f : Line → Line) : (mapLine r f s).dies = s.dies := rfl
@[simp] theorem mapLine_tripped (r : LineRef) (f : Line → Line) : (mapLine r f s).tripped = s.tripped := rfl
@[simp] theorem mapLine_filterCount (r : LineRef) (f : Line → Line) : (mapLine r f s).filterCount = s.filterCount := rfl
@[simp] theorem mapLine_probes (r : LineRef) (f : Line → Line) : (mapLine r f s).probes = s.probes := rfl
@[simp] theorem mapLine_corrected (r : LineRef) (f : Line → Line) : (mapLine r f s).corrected = s.corrected := rfl
@[simp] theorem mapLine_clustersOut (r : LineRef) (f : Line → Line) : (mapLine r f s).clustersOut = s.clustersOut := rfl
@[simp] theorem mapLine_hbmOut (r : LineRef) (f : Line → Line) : (mapLine r f s).hbmOut = s.hbmOut := rfl
@[simp] theorem mapLine_hcOut (r : LineRef) (f : Line → Line) : (mapLine r f s).hcOut = s.hcOut := rfl
@[simp] theorem mapLine_sliceOut (r : LineRef) (f : Line → Line) : (mapLine r f s).sliceOut = s.sliceOut := rfl
@[simp] theorem mapLine_fportOut (r : LineRef) (f : Line → Line) : (mapLine r f s).fportOut = s.fportOut := rfl
@[simp] theorem mapLine_bridgeOut (r : LineRef) (f : Line → Line) : (mapLine r f s).bridgeOut = s.bridgeOut := rfl
@[simp] theorem mapLine_division (r : LineRef) (f : Line → Line) : (mapLine r f s).division = s.division := rfl
@[simp] theorem mapLine_startup (r : LineRef) (f : Line → Line) : (mapLine r f s).startup = s.startup := rfl
@[simp] theorem mapLine_cycle (r : LineRef) (f : Line → Line) : (mapLine r f s).cycle = s.cycle := rfl
@[simp] theorem mapLine_taken (r : LineRef) (f : Line → Line) : (mapLine r f s).taken = s.taken := rfl
@[simp] theorem mapLine_ticks (r : LineRef) (f : Line → Line) : (mapLine r f s).ticks = s.ticks := rfl
@[simp] theorem mapLine_arg (r : LineRef) (f : Line → Line) : (mapLine r f s).arg = s.arg := rfl
@[simp] theorem mapLine_agenda (r : LineRef) (f : Line → Line) : (mapLine r f s).agenda = s.agenda := rfl
@[simp] theorem mapLine_outbox (r : LineRef) (f : Line → Line) : (mapLine r f s).outbox = s.outbox := rfl
@[simp] theorem mapLine_cxlAsked (r : LineRef) (f : Line → Line) : (mapLine r f s).cxlAsked = s.cxlAsked := rfl
@[simp] theorem mapLine_readied (r : LineRef) (f : Line → Line) : (mapLine r f s).readied = s.readied := rfl
@[simp] theorem mapLine_noted (r : LineRef) (f : Line → Line) : (mapLine r f s).noted = s.noted := rfl
@[simp] theorem mapLine_badEntries (r : LineRef) (f : Line → Line) : (mapLine r f s).badEntries = s.badEntries := rfl
@[simp] theorem mapLine_inbound (r : LineRef) (f : Line → Line) : (mapLine r f s).inbound = s.inbound := rfl

/-! ### mapCmd -/

@[simp] theorem mapCmd_p (n : Nat) (f : Cmd → Cmd) : (mapCmd n f s).p = s.p := rfl
@[simp] theorem mapCmd_g (n : Nat) (f : Cmd → Cmd) : (mapCmd n f s).g = s.g := rfl
@[simp] theorem mapCmd_gangs (n : Nat) (f : Cmd → Cmd) : (mapCmd n f s).gangs = s.gangs := rfl
@[simp] theorem mapCmd_reqs (n : Nat) (f : Cmd → Cmd) : (mapCmd n f s).reqs = s.reqs := rfl
@[simp] theorem mapCmd_remotes (n : Nat) (f : Cmd → Cmd) : (mapCmd n f s).remotes = s.remotes := rfl
@[simp] theorem mapCmd_tiles (n : Nat) (f : Cmd → Cmd) : (mapCmd n f s).tiles = s.tiles := rfl
@[simp] theorem mapCmd_lines (n : Nat) (f : Cmd → Cmd) : (mapCmd n f s).lines = s.lines := rfl
@[simp] theorem mapCmd_mem (n : Nat) (f : Cmd → Cmd) : (mapCmd n f s).mem = s.mem := rfl
@[simp] theorem mapCmd_launches (n : Nat) (f : Cmd → Cmd) : (mapCmd n f s).launches = s.launches := rfl
@[simp] theorem mapCmd_parts (n : Nat) (f : Cmd → Cmd) : (mapCmd n f s).parts = s.parts := rfl
@[simp] theorem mapCmd_nextId (n : Nat) (f : Cmd → Cmd) : (mapCmd n f s).nextId = s.nextId := rfl
@[simp] theorem mapCmd_accums (n : Nat) (f : Cmd → Cmd) : (mapCmd n f s).accums = s.accums := rfl
@[simp] theorem mapCmd_loaded (n : Nat) (f : Cmd → Cmd) : (mapCmd n f s).loaded = s.loaded := rfl
@[simp] theorem mapCmd_l1 (n : Nat) (f : Cmd → Cmd) : (mapCmd n f s).l1 = s.l1 := rfl
@[simp] theorem mapCmd_icache (n : Nat) (f : Cmd → Cmd) : (mapCmd n f s).icache = s.icache := rfl
@[simp] theorem mapCmd_plb (n : Nat) (f : Cmd → Cmd) : (mapCmd n f s).plb = s.plb := rfl
@[simp] theorem mapCmd_remoteCopies (n : Nat) (f : Cmd → Cmd) : (mapCmd n f s).remoteCopies = s.remoteCopies := rfl
@[simp] theorem mapCmd_brim (n : Nat) (f : Cmd → Cmd) : (mapCmd n f s).brim = s.brim := rfl
@[simp] theorem mapCmd_pubs (n : Nat) (f : Cmd → Cmd) : (mapCmd n f s).pubs = s.pubs := rfl
@[simp] theorem mapCmd_updates (n : Nat) (f : Cmd → Cmd) : (mapCmd n f s).updates = s.updates := rfl
@[simp] theorem mapCmd_mitten (n : Nat) (f : Cmd → Cmd) : (mapCmd n f s).mitten = s.mitten := rfl
@[simp] theorem mapCmd_retry (n : Nat) (f : Cmd → Cmd) : (mapCmd n f s).retry = s.retry := rfl
@[simp] theorem mapCmd_late (n : Nat) (f : Cmd → Cmd) : (mapCmd n f s).late = s.late := rfl
@[simp] theorem mapCmd_outDirs (n : Nat) (f : Cmd → Cmd) : (mapCmd n f s).outDirs = s.outDirs := rfl
@[simp] theorem mapCmd_reserved (n : Nat) (f : Cmd → Cmd) : (mapCmd n f s).reserved = s.reserved := rfl
@[simp] theorem mapCmd_starving (n : Nat) (f : Cmd → Cmd) : (mapCmd n f s).starving = s.starving := rfl
@[simp] theorem mapCmd_hpcc (n : Nat) (f : Cmd → Cmd) : (mapCmd n f s).hpcc = s.hpcc := rfl
@[simp] theorem mapCmd_hostQueue (n : Nat) (f : Cmd → Cmd) : (mapCmd n f s).hostQueue = s.hostQueue := rfl
@[simp] theorem mapCmd_roots (n : Nat) (f : Cmd → Cmd) : (mapCmd n f s).roots = s.roots := rfl
@[simp] theorem mapCmd_frames (n : Nat) (f : Cmd → Cmd) : (mapCmd n f s).frames = s.frames := rfl
@[simp] theorem mapCmd_badLines (n : Nat) (f : Cmd → Cmd) : (mapCmd n f s).badLines = s.badLines := rfl
@[simp] theorem mapCmd_ports (n : Nat) (f : Cmd → Cmd) : (mapCmd n f s).ports = s.ports := rfl
@[simp] theorem mapCmd_posted (n : Nat) (f : Cmd → Cmd) : (mapCmd n f s).posted = s.posted := rfl
@[simp] theorem mapCmd_dies (n : Nat) (f : Cmd → Cmd) : (mapCmd n f s).dies = s.dies := rfl
@[simp] theorem mapCmd_tripped (n : Nat) (f : Cmd → Cmd) : (mapCmd n f s).tripped = s.tripped := rfl
@[simp] theorem mapCmd_filterCount (n : Nat) (f : Cmd → Cmd) : (mapCmd n f s).filterCount = s.filterCount := rfl
@[simp] theorem mapCmd_probes (n : Nat) (f : Cmd → Cmd) : (mapCmd n f s).probes = s.probes := rfl
@[simp] theorem mapCmd_corrected (n : Nat) (f : Cmd → Cmd) : (mapCmd n f s).corrected = s.corrected := rfl
@[simp] theorem mapCmd_clustersOut (n : Nat) (f : Cmd → Cmd) : (mapCmd n f s).clustersOut = s.clustersOut := rfl
@[simp] theorem mapCmd_hbmOut (n : Nat) (f : Cmd → Cmd) : (mapCmd n f s).hbmOut = s.hbmOut := rfl
@[simp] theorem mapCmd_hcOut (n : Nat) (f : Cmd → Cmd) : (mapCmd n f s).hcOut = s.hcOut := rfl
@[simp] theorem mapCmd_sliceOut (n : Nat) (f : Cmd → Cmd) : (mapCmd n f s).sliceOut = s.sliceOut := rfl
@[simp] theorem mapCmd_fportOut (n : Nat) (f : Cmd → Cmd) : (mapCmd n f s).fportOut = s.fportOut := rfl
@[simp] theorem mapCmd_bridgeOut (n : Nat) (f : Cmd → Cmd) : (mapCmd n f s).bridgeOut = s.bridgeOut := rfl
@[simp] theorem mapCmd_division (n : Nat) (f : Cmd → Cmd) : (mapCmd n f s).division = s.division := rfl
@[simp] theorem mapCmd_startup (n : Nat) (f : Cmd → Cmd) : (mapCmd n f s).startup = s.startup := rfl
@[simp] theorem mapCmd_cycle (n : Nat) (f : Cmd → Cmd) : (mapCmd n f s).cycle = s.cycle := rfl
@[simp] theorem mapCmd_taken (n : Nat) (f : Cmd → Cmd) : (mapCmd n f s).taken = s.taken := rfl
@[simp] theorem mapCmd_ticks (n : Nat) (f : Cmd → Cmd) : (mapCmd n f s).ticks = s.ticks := rfl
@[simp] theorem mapCmd_arg (n : Nat) (f : Cmd → Cmd) : (mapCmd n f s).arg = s.arg := rfl
@[simp] theorem mapCmd_agenda (n : Nat) (f : Cmd → Cmd) : (mapCmd n f s).agenda = s.agenda := rfl
@[simp] theorem mapCmd_outbox (n : Nat) (f : Cmd → Cmd) : (mapCmd n f s).outbox = s.outbox := rfl
@[simp] theorem mapCmd_cxlAsked (n : Nat) (f : Cmd → Cmd) : (mapCmd n f s).cxlAsked = s.cxlAsked := rfl
@[simp] theorem mapCmd_readied (n : Nat) (f : Cmd → Cmd) : (mapCmd n f s).readied = s.readied := rfl
@[simp] theorem mapCmd_noted (n : Nat) (f : Cmd → Cmd) : (mapCmd n f s).noted = s.noted := rfl
@[simp] theorem mapCmd_badEntries (n : Nat) (f : Cmd → Cmd) : (mapCmd n f s).badEntries = s.badEntries := rfl
@[simp] theorem mapCmd_inbound (n : Nat) (f : Cmd → Cmd) : (mapCmd n f s).inbound = s.inbound := rfl

/-! ### mapRemote -/

@[simp] theorem mapRemote_p (n : Nat) (f : RemoteReq → RemoteReq) : (mapRemote n f s).p = s.p := rfl
@[simp] theorem mapRemote_g (n : Nat) (f : RemoteReq → RemoteReq) : (mapRemote n f s).g = s.g := rfl
@[simp] theorem mapRemote_gangs (n : Nat) (f : RemoteReq → RemoteReq) : (mapRemote n f s).gangs = s.gangs := rfl
@[simp] theorem mapRemote_reqs (n : Nat) (f : RemoteReq → RemoteReq) : (mapRemote n f s).reqs = s.reqs := rfl
@[simp] theorem mapRemote_cmds (n : Nat) (f : RemoteReq → RemoteReq) : (mapRemote n f s).cmds = s.cmds := rfl
@[simp] theorem mapRemote_tiles (n : Nat) (f : RemoteReq → RemoteReq) : (mapRemote n f s).tiles = s.tiles := rfl
@[simp] theorem mapRemote_lines (n : Nat) (f : RemoteReq → RemoteReq) : (mapRemote n f s).lines = s.lines := rfl
@[simp] theorem mapRemote_mem (n : Nat) (f : RemoteReq → RemoteReq) : (mapRemote n f s).mem = s.mem := rfl
@[simp] theorem mapRemote_launches (n : Nat) (f : RemoteReq → RemoteReq) : (mapRemote n f s).launches = s.launches := rfl
@[simp] theorem mapRemote_parts (n : Nat) (f : RemoteReq → RemoteReq) : (mapRemote n f s).parts = s.parts := rfl
@[simp] theorem mapRemote_nextId (n : Nat) (f : RemoteReq → RemoteReq) : (mapRemote n f s).nextId = s.nextId := rfl
@[simp] theorem mapRemote_accums (n : Nat) (f : RemoteReq → RemoteReq) : (mapRemote n f s).accums = s.accums := rfl
@[simp] theorem mapRemote_loaded (n : Nat) (f : RemoteReq → RemoteReq) : (mapRemote n f s).loaded = s.loaded := rfl
@[simp] theorem mapRemote_l1 (n : Nat) (f : RemoteReq → RemoteReq) : (mapRemote n f s).l1 = s.l1 := rfl
@[simp] theorem mapRemote_icache (n : Nat) (f : RemoteReq → RemoteReq) : (mapRemote n f s).icache = s.icache := rfl
@[simp] theorem mapRemote_plb (n : Nat) (f : RemoteReq → RemoteReq) : (mapRemote n f s).plb = s.plb := rfl
@[simp] theorem mapRemote_remoteCopies (n : Nat) (f : RemoteReq → RemoteReq) : (mapRemote n f s).remoteCopies = s.remoteCopies := rfl
@[simp] theorem mapRemote_brim (n : Nat) (f : RemoteReq → RemoteReq) : (mapRemote n f s).brim = s.brim := rfl
@[simp] theorem mapRemote_pubs (n : Nat) (f : RemoteReq → RemoteReq) : (mapRemote n f s).pubs = s.pubs := rfl
@[simp] theorem mapRemote_updates (n : Nat) (f : RemoteReq → RemoteReq) : (mapRemote n f s).updates = s.updates := rfl
@[simp] theorem mapRemote_mitten (n : Nat) (f : RemoteReq → RemoteReq) : (mapRemote n f s).mitten = s.mitten := rfl
@[simp] theorem mapRemote_retry (n : Nat) (f : RemoteReq → RemoteReq) : (mapRemote n f s).retry = s.retry := rfl
@[simp] theorem mapRemote_late (n : Nat) (f : RemoteReq → RemoteReq) : (mapRemote n f s).late = s.late := rfl
@[simp] theorem mapRemote_outDirs (n : Nat) (f : RemoteReq → RemoteReq) : (mapRemote n f s).outDirs = s.outDirs := rfl
@[simp] theorem mapRemote_reserved (n : Nat) (f : RemoteReq → RemoteReq) : (mapRemote n f s).reserved = s.reserved := rfl
@[simp] theorem mapRemote_starving (n : Nat) (f : RemoteReq → RemoteReq) : (mapRemote n f s).starving = s.starving := rfl
@[simp] theorem mapRemote_hpcc (n : Nat) (f : RemoteReq → RemoteReq) : (mapRemote n f s).hpcc = s.hpcc := rfl
@[simp] theorem mapRemote_hostQueue (n : Nat) (f : RemoteReq → RemoteReq) : (mapRemote n f s).hostQueue = s.hostQueue := rfl
@[simp] theorem mapRemote_roots (n : Nat) (f : RemoteReq → RemoteReq) : (mapRemote n f s).roots = s.roots := rfl
@[simp] theorem mapRemote_frames (n : Nat) (f : RemoteReq → RemoteReq) : (mapRemote n f s).frames = s.frames := rfl
@[simp] theorem mapRemote_badLines (n : Nat) (f : RemoteReq → RemoteReq) : (mapRemote n f s).badLines = s.badLines := rfl
@[simp] theorem mapRemote_ports (n : Nat) (f : RemoteReq → RemoteReq) : (mapRemote n f s).ports = s.ports := rfl
@[simp] theorem mapRemote_posted (n : Nat) (f : RemoteReq → RemoteReq) : (mapRemote n f s).posted = s.posted := rfl
@[simp] theorem mapRemote_dies (n : Nat) (f : RemoteReq → RemoteReq) : (mapRemote n f s).dies = s.dies := rfl
@[simp] theorem mapRemote_tripped (n : Nat) (f : RemoteReq → RemoteReq) : (mapRemote n f s).tripped = s.tripped := rfl
@[simp] theorem mapRemote_filterCount (n : Nat) (f : RemoteReq → RemoteReq) : (mapRemote n f s).filterCount = s.filterCount := rfl
@[simp] theorem mapRemote_probes (n : Nat) (f : RemoteReq → RemoteReq) : (mapRemote n f s).probes = s.probes := rfl
@[simp] theorem mapRemote_corrected (n : Nat) (f : RemoteReq → RemoteReq) : (mapRemote n f s).corrected = s.corrected := rfl
@[simp] theorem mapRemote_clustersOut (n : Nat) (f : RemoteReq → RemoteReq) : (mapRemote n f s).clustersOut = s.clustersOut := rfl
@[simp] theorem mapRemote_hbmOut (n : Nat) (f : RemoteReq → RemoteReq) : (mapRemote n f s).hbmOut = s.hbmOut := rfl
@[simp] theorem mapRemote_hcOut (n : Nat) (f : RemoteReq → RemoteReq) : (mapRemote n f s).hcOut = s.hcOut := rfl
@[simp] theorem mapRemote_sliceOut (n : Nat) (f : RemoteReq → RemoteReq) : (mapRemote n f s).sliceOut = s.sliceOut := rfl
@[simp] theorem mapRemote_fportOut (n : Nat) (f : RemoteReq → RemoteReq) : (mapRemote n f s).fportOut = s.fportOut := rfl
@[simp] theorem mapRemote_bridgeOut (n : Nat) (f : RemoteReq → RemoteReq) : (mapRemote n f s).bridgeOut = s.bridgeOut := rfl
@[simp] theorem mapRemote_division (n : Nat) (f : RemoteReq → RemoteReq) : (mapRemote n f s).division = s.division := rfl
@[simp] theorem mapRemote_startup (n : Nat) (f : RemoteReq → RemoteReq) : (mapRemote n f s).startup = s.startup := rfl
@[simp] theorem mapRemote_cycle (n : Nat) (f : RemoteReq → RemoteReq) : (mapRemote n f s).cycle = s.cycle := rfl
@[simp] theorem mapRemote_taken (n : Nat) (f : RemoteReq → RemoteReq) : (mapRemote n f s).taken = s.taken := rfl
@[simp] theorem mapRemote_ticks (n : Nat) (f : RemoteReq → RemoteReq) : (mapRemote n f s).ticks = s.ticks := rfl
@[simp] theorem mapRemote_arg (n : Nat) (f : RemoteReq → RemoteReq) : (mapRemote n f s).arg = s.arg := rfl
@[simp] theorem mapRemote_agenda (n : Nat) (f : RemoteReq → RemoteReq) : (mapRemote n f s).agenda = s.agenda := rfl
@[simp] theorem mapRemote_outbox (n : Nat) (f : RemoteReq → RemoteReq) : (mapRemote n f s).outbox = s.outbox := rfl
@[simp] theorem mapRemote_cxlAsked (n : Nat) (f : RemoteReq → RemoteReq) : (mapRemote n f s).cxlAsked = s.cxlAsked := rfl
@[simp] theorem mapRemote_readied (n : Nat) (f : RemoteReq → RemoteReq) : (mapRemote n f s).readied = s.readied := rfl
@[simp] theorem mapRemote_noted (n : Nat) (f : RemoteReq → RemoteReq) : (mapRemote n f s).noted = s.noted := rfl
@[simp] theorem mapRemote_badEntries (n : Nat) (f : RemoteReq → RemoteReq) : (mapRemote n f s).badEntries = s.badEntries := rfl
@[simp] theorem mapRemote_inbound (n : Nat) (f : RemoteReq → RemoteReq) : (mapRemote n f s).inbound = s.inbound := rfl

/-! ### l1Drop -/

@[simp] theorem l1Drop_p (q : L1Line → Bool) : (l1Drop q s).p = s.p := rfl
@[simp] theorem l1Drop_g (q : L1Line → Bool) : (l1Drop q s).g = s.g := rfl
@[simp] theorem l1Drop_gangs (q : L1Line → Bool) : (l1Drop q s).gangs = s.gangs := rfl
@[simp] theorem l1Drop_reqs (q : L1Line → Bool) : (l1Drop q s).reqs = s.reqs := rfl
@[simp] theorem l1Drop_remotes (q : L1Line → Bool) : (l1Drop q s).remotes = s.remotes := rfl
@[simp] theorem l1Drop_cmds (q : L1Line → Bool) : (l1Drop q s).cmds = s.cmds := rfl
@[simp] theorem l1Drop_tiles (q : L1Line → Bool) : (l1Drop q s).tiles = s.tiles := rfl
@[simp] theorem l1Drop_mem (q : L1Line → Bool) : (l1Drop q s).mem = s.mem := rfl
@[simp] theorem l1Drop_launches (q : L1Line → Bool) : (l1Drop q s).launches = s.launches := rfl
@[simp] theorem l1Drop_parts (q : L1Line → Bool) : (l1Drop q s).parts = s.parts := rfl
@[simp] theorem l1Drop_nextId (q : L1Line → Bool) : (l1Drop q s).nextId = s.nextId := rfl
@[simp] theorem l1Drop_accums (q : L1Line → Bool) : (l1Drop q s).accums = s.accums := rfl
@[simp] theorem l1Drop_loaded (q : L1Line → Bool) : (l1Drop q s).loaded = s.loaded := rfl
@[simp] theorem l1Drop_icache (q : L1Line → Bool) : (l1Drop q s).icache = s.icache := rfl
@[simp] theorem l1Drop_plb (q : L1Line → Bool) : (l1Drop q s).plb = s.plb := rfl
@[simp] theorem l1Drop_remoteCopies (q : L1Line → Bool) : (l1Drop q s).remoteCopies = s.remoteCopies := rfl
@[simp] theorem l1Drop_brim (q : L1Line → Bool) : (l1Drop q s).brim = s.brim := rfl
@[simp] theorem l1Drop_pubs (q : L1Line → Bool) : (l1Drop q s).pubs = s.pubs := rfl
@[simp] theorem l1Drop_updates (q : L1Line → Bool) : (l1Drop q s).updates = s.updates := rfl
@[simp] theorem l1Drop_mitten (q : L1Line → Bool) : (l1Drop q s).mitten = s.mitten := rfl
@[simp] theorem l1Drop_retry (q : L1Line → Bool) : (l1Drop q s).retry = s.retry := rfl
@[simp] theorem l1Drop_late (q : L1Line → Bool) : (l1Drop q s).late = s.late := rfl
@[simp] theorem l1Drop_outDirs (q : L1Line → Bool) : (l1Drop q s).outDirs = s.outDirs := rfl
@[simp] theorem l1Drop_reserved (q : L1Line → Bool) : (l1Drop q s).reserved = s.reserved := rfl
@[simp] theorem l1Drop_starving (q : L1Line → Bool) : (l1Drop q s).starving = s.starving := rfl
@[simp] theorem l1Drop_hpcc (q : L1Line → Bool) : (l1Drop q s).hpcc = s.hpcc := rfl
@[simp] theorem l1Drop_hostQueue (q : L1Line → Bool) : (l1Drop q s).hostQueue = s.hostQueue := rfl
@[simp] theorem l1Drop_roots (q : L1Line → Bool) : (l1Drop q s).roots = s.roots := rfl
@[simp] theorem l1Drop_frames (q : L1Line → Bool) : (l1Drop q s).frames = s.frames := rfl
@[simp] theorem l1Drop_badLines (q : L1Line → Bool) : (l1Drop q s).badLines = s.badLines := rfl
@[simp] theorem l1Drop_ports (q : L1Line → Bool) : (l1Drop q s).ports = s.ports := rfl
@[simp] theorem l1Drop_posted (q : L1Line → Bool) : (l1Drop q s).posted = s.posted := rfl
@[simp] theorem l1Drop_dies (q : L1Line → Bool) : (l1Drop q s).dies = s.dies := rfl
@[simp] theorem l1Drop_tripped (q : L1Line → Bool) : (l1Drop q s).tripped = s.tripped := rfl
@[simp] theorem l1Drop_filterCount (q : L1Line → Bool) : (l1Drop q s).filterCount = s.filterCount := rfl
@[simp] theorem l1Drop_probes (q : L1Line → Bool) : (l1Drop q s).probes = s.probes := rfl
@[simp] theorem l1Drop_corrected (q : L1Line → Bool) : (l1Drop q s).corrected = s.corrected := rfl
@[simp] theorem l1Drop_clustersOut (q : L1Line → Bool) : (l1Drop q s).clustersOut = s.clustersOut := rfl
@[simp] theorem l1Drop_hbmOut (q : L1Line → Bool) : (l1Drop q s).hbmOut = s.hbmOut := rfl
@[simp] theorem l1Drop_hcOut (q : L1Line → Bool) : (l1Drop q s).hcOut = s.hcOut := rfl
@[simp] theorem l1Drop_sliceOut (q : L1Line → Bool) : (l1Drop q s).sliceOut = s.sliceOut := rfl
@[simp] theorem l1Drop_fportOut (q : L1Line → Bool) : (l1Drop q s).fportOut = s.fportOut := rfl
@[simp] theorem l1Drop_bridgeOut (q : L1Line → Bool) : (l1Drop q s).bridgeOut = s.bridgeOut := rfl
@[simp] theorem l1Drop_division (q : L1Line → Bool) : (l1Drop q s).division = s.division := rfl
@[simp] theorem l1Drop_startup (q : L1Line → Bool) : (l1Drop q s).startup = s.startup := rfl
@[simp] theorem l1Drop_cycle (q : L1Line → Bool) : (l1Drop q s).cycle = s.cycle := rfl
@[simp] theorem l1Drop_taken (q : L1Line → Bool) : (l1Drop q s).taken = s.taken := rfl
@[simp] theorem l1Drop_ticks (q : L1Line → Bool) : (l1Drop q s).ticks = s.ticks := rfl
@[simp] theorem l1Drop_arg (q : L1Line → Bool) : (l1Drop q s).arg = s.arg := rfl
@[simp] theorem l1Drop_agenda (q : L1Line → Bool) : (l1Drop q s).agenda = s.agenda := rfl
@[simp] theorem l1Drop_outbox (q : L1Line → Bool) : (l1Drop q s).outbox = s.outbox := rfl
@[simp] theorem l1Drop_cxlAsked (q : L1Line → Bool) : (l1Drop q s).cxlAsked = s.cxlAsked := rfl
@[simp] theorem l1Drop_readied (q : L1Line → Bool) : (l1Drop q s).readied = s.readied := rfl
@[simp] theorem l1Drop_noted (q : L1Line → Bool) : (l1Drop q s).noted = s.noted := rfl
@[simp] theorem l1Drop_badEntries (q : L1Line → Bool) : (l1Drop q s).badEntries = s.badEntries := rfl
@[simp] theorem l1Drop_inbound (q : L1Line → Bool) : (l1Drop q s).inbound = s.inbound := rfl

/-! ### Reading after a write -/

@[simp] theorem getS_setS (n j : Nat) (v : Word) : getS (setS n v s) j = if j = n then v else getS s j := by
  simp [getS, setS]

@[simp] theorem getW_setW (n j : Nat) (w : Window) : getW (setW n w s) j = if j = n then w else getW s j := by
  simp [getW, setW]

@[simp] theorem getV_setV (n l j k : Nat) (v : BitVec 32) :
    getV (setV n l v s) j k = if j * 64 + k = n * 64 + l then v else getV s j k := by
  simp [getV, setV]

@[simp] theorem getP_setP (n l j k : Nat) (b : Bool) :
    getP (setP n l b s) j k = if j * 64 + k = n * 64 + l then b else getP s j k := by
  simp [getP, setP]

end Sys2Proof.Machine
end

