-- ==== Sys2Proof/Laws/Memory.lean ====
section
/-! SUPPORT. Laws of memory: reading after a write, and that every operation on memory keeps its canonical form
(spec/06_coherence_fabric.md R118, R124, R125, R128). -/

namespace Sys2Proof.Machine

/-! ### Reading after a write -/

theorem memByte_memWrite (d : List Byte) : ∀ (m : List Host.Cell) (pa x : Nat),
    memByte (memWrite m pa d) x = if pa ≤ x ∧ x < pa + d.length then d.getD (x - pa) 0 else memByte m x := by
  induction d with
  | nil =>
    intro m pa x
    simp only [memWrite, List.length_nil]
    rw [if_neg (by omega)]
  | cons b r ih =>
    intro m pa x
    simp only [memWrite, ih, List.length_cons]
    by_cases h : x = pa
    · subst h
      rw [if_neg (by omega), if_pos (by omega)]
      simp [memByte]
    · by_cases h2 : pa + 1 ≤ x ∧ x < pa + 1 + r.length
      · rw [if_pos h2, if_pos (by omega), show x - pa = (x - (pa + 1)) + 1 by omega]
        simp
      · rw [if_neg h2, if_neg (by omega)]
        simp [memByte, h]

theorem mapGet_filter_key {β : Type} (d : β) (q : Nat → Bool) : ∀ (m : SMap β) (k : Nat),
    mapGet d (m.filter fun e => q e.1) k = if q k = true then mapGet d m k else d := by
  intro m
  induction m with
  | nil => intro k; simp [mapGet]
  | cons e r ih =>
    intro k
    obtain ⟨x, v⟩ := e
    by_cases hx : q x = true
    · rw [List.filter_cons_of_pos (by simpa using hx)]
      simp only [mapGet]
      by_cases hk : x = k
      · subst hk; simp [hx]
      · simp [hk, ih]
    · rw [List.filter_cons_of_neg (by simpa using hx), ih]
      simp only [mapGet]
      by_cases hk : x = k
      · subst hk; simp [hx]
      · simp [hk]

theorem memByte_memZero (m : List Host.Cell) (lo hi x : Nat) :
    memByte (memZero m lo hi) x = if lo ≤ x ∧ x < hi then 0 else memByte m x := by
  have h := mapGet_filter_key (0 : Byte) (fun k => decide (k < lo ∨ hi ≤ k)) m x
  simp only [memByte, memZero]
  rw [h]
  by_cases hx : lo ≤ x ∧ x < hi
  · rw [if_pos hx, if_neg (by simp; omega)]
  · rw [if_neg hx, if_pos (by simp; omega)]

/-! ### The canonical form -/

theorem memWrite_wf (d : List Byte) : ∀ (m : List Host.Cell) (pa : Nat), Memory.wf m = true → Memory.wf (memWrite m pa d) = true := by
  induction d with
  | nil => intro m pa h; exact h
  | cons b r ih => intro m pa h; exact ih _ _ (mapSet_wf (0 : Byte) m pa b h)

theorem memZero_wf (m : List Host.Cell) (lo hi : Nat) (h : Memory.wf m = true) : Memory.wf (memZero m lo hi) = true :=
  filter_wf (0 : Byte) _ m h

theorem foldl_memSet_wf {α : Type} (f : α → Nat) (g : α → Byte) (l : List α) : ∀ (m : List Host.Cell), Memory.wf m = true →
    Memory.wf (l.foldl (fun m c => mapSet 0 m (f c) (g c)) m) = true := by
  induction l with
  | nil => intro m h; exact h
  | cons c r ih => intro m h; exact ih _ (mapSet_wf (0 : Byte) m _ _ h)

theorem reset_wf : Memory.wf State.reset.mem = true := rfl

/-- A change of the device keeps the form of its memory. -/
def KeepsForm (f : State → State) : Prop := ∀ s, Memory.wf s.mem = true → Memory.wf (f s).mem = true

theorem KeepsForm.comp {f g : State → State} (hf : KeepsForm f) (hg : KeepsForm g) : KeepsForm fun s => f (g s) :=
  fun s h => hf _ (hg s h)

theorem KeepsForm.of_mem {f : State → State} (h : ∀ s, (f s).mem = s.mem) : KeepsForm f := fun s hs => by rw [h s]; exact hs

/-- A fold of changes that keep the form keeps it. -/
theorem KeepsForm.foldl {α : Type} {f : State → α → State} (hf : ∀ a, KeepsForm fun s => f s a) (l : List α) :
    KeepsForm fun s => l.foldl f s := by
  induction l with
  | nil => exact fun s h => h
  | cons a r ih => exact fun s h => ih _ (hf a s h)

/-- Evictions write no byte: what a line holds lies in memory. -/
@[simp] theorem makeRoom_mem (n slice : Nat) (s : State) : (makeRoom n slice s).mem = s.mem := by
  unfold makeRoom
  generalize ((sliceHeld s slice).filter fun l => decide (l.state ≠ .p)).reverse.map (fun l => l.ref) = l
  induction l generalizing s with
  | nil => rfl
  | cons r l ih =>
    rw [List.foldl_cons, ih]
    split <;> rfl

@[simp] theorem evictLine_mem (slice : Nat) (s : State) : (evictLine slice s).mem = s.mem := makeRoom_mem 1 slice s

theorem fillLine_wf (r : LineRef) (l : Leaf) : KeepsForm (fillLine r l) := by
  intro s h
  unfold fillLine
  dsimp only
  split
  · exact memZero_wf _ _ _ (by rw [evictLine_mem]; exact h)
  · rw [evictLine_mem]; exact h

theorem writePte_mem (pa e : Nat) (s : State) :
    (writePte pa e s).mem = if pa < 2 ^ 39 then memWrite s.mem pa (leBytes 8 e) else s.mem := by
  rw [writePte, apply_ite State.mem]

theorem writePte_wf (pa e : Nat) : KeepsForm (writePte pa e) := by
  intro s h
  rw [writePte_mem]
  by_cases hp : pa < 2 ^ 39
  · rw [if_pos hp]; exact memWrite_wf _ _ _ h
  · rw [if_neg hp]; exact h

theorem zeroed_wf (lo hi : Nat) : KeepsForm fun s => { s with mem := memZero s.mem lo hi } :=
  fun s h => memZero_wf s.mem lo hi h

theorem reviveGranule_wf (part asid off : Nat) : KeepsForm (reviveGranule part asid off) := by
  intro s h
  rw [reviveGranule]
  cases walk s part asid off with
  | none => exact h
  | some l =>
    dsimp only
    by_cases hd : Pte.dead l.entry = true
    · rw [if_pos hd]; exact writePte_wf _ _ _ (zeroed_wf _ _ s h)
    · rw [if_neg hd]; exact h

theorem ensureLine_wf (part asid off : Nat) : KeepsForm (ensureLine part asid off) := by
  intro s h
  rw [ensureLine]
  cases findLine s (lineRef part asid off) with
  | some _ => exact h
  | none =>
    cases walk s part asid off with
    | none => exact h
    | some l => exact fillLine_wf _ _ s h

theorem written_wf (pa : Nat) (d : List Byte) : KeepsForm fun s => { s with mem := memWrite s.mem pa d } :=
  fun s h => memWrite_wf d s.mem pa h

theorem writeLine_wf (part asid off : Nat) (d : List Byte) : KeepsForm (writeLine part asid off d) := by
  intro s h
  have h1 := ensureLine_wf part asid off _ (reviveGranule_wf part asid off s h)
  rw [writeLine]
  cases findLine (ensureLine part asid off (reviveGranule part asid off s)) (lineRef part asid off) with
  | none => exact h1
  | some l => exact written_wf (l.pa + off % 128) d _ h1

@[simp] theorem countMiss_mem (launch : Nat) (r : LineRef) (s : State) : (countMiss launch r s).mem = s.mem := by
  unfold countMiss
  split
  · split <;> rfl
  · rfl

@[simp] theorem foreignUpdate_mem (launch : Nat) (r : LineRef) (s : State) : (foreignUpdate launch r s).mem = s.mem := rfl

theorem writeBase_wf (launch part asid off : Nat) (d : List Byte) : KeepsForm (writeBase launch part asid off d) := by
  intro s h
  rw [writeBase, foreignUpdate_mem]
  exact writeLine_wf part asid off d _ (by rw [countMiss_mem]; exact h)

theorem moveGranule_wf (old new : Nat) : KeepsForm (moveGranule old new) := by
  intro s h
  rw [moveGranule]
  exact foldl_memSet_wf _ _ _ _ (memZero_wf _ _ _ h)

theorem recallCopies_mem (b : Bool) (r : LineRef) (d : SMap Byte) (s : State) : (recallCopies b r d s).mem = s.mem := by
  unfold recallCopies
  dsimp only
  split
  · rfl
  · split <;> rfl

/-- Bytes that a device writes are written at once, or wait with memory as it was. -/
theorem writePiece_wf (launch part asid o : Nat) (d : List Byte) : KeepsForm (writePiece launch part asid o d) := by
  intro s h
  rw [writePiece]
  by_cases hq : devQueued s part asid o = true
  · rw [if_pos hq]; exact h
  · rw [if_neg hq, writeNow, writeAs, recallCopies_mem]; exact writeBase_wf launch part asid o d s h

theorem writePieces_wf (launch part asid off : Nat) (d : List Byte) (l : List (Nat × Nat)) :
    KeepsForm (writePieces launch part asid off d l) := by
  induction l with
  | nil => exact fun s h => h
  | cons e r ih =>
    obtain ⟨o, n⟩ := e
    intro s h
    exact ih _ (writePiece_wf launch part asid o _ s h)

/-- A write by the device, where its home controllers admit it, keeps the form. -/
theorem devWrite_wf {launch part asid off : Nat} {d : List Byte} {s t : State} (h : devWrite launch part asid off d s = .ok t)
    (hs : Memory.wf s.mem = true) : Memory.wf t.mem = true := by
  unfold devWrite at h
  split at h
  · cases h
  · cases h
    exact writePieces_wf _ _ _ _ _ _ s hs

theorem faultQueue_wf (part : Nat) (head : List Byte) : KeepsForm (faultQueue part head) := by
  intro s h
  unfold faultQueue
  dsimp only
  split
  · exact h
  · split
    · exact h
    · split
      · exact h
      · rename_i s' he
        have k := devWrite_wf he h
        exact k

theorem recordLate_wf (e : LateEntry) : KeepsForm (recordLate e) := by
  intro s h
  have q : ∀ (c : BitVec 8) (s : State), Memory.wf s.mem = true → Memory.wf (recordLate.toQueue e c s).mem = true :=
    fun c s h => faultQueue_wf _ _ _ h
  unfold recordLate
  dsimp only
  split
  · split
    · exact h
    · split
      · split
        · exact q _ _ h
        · unfold mapGang
          split <;> exact h
      · exact q _ _ h
  · exact h

theorem recordUpTo_wf (e : LateEntry) : KeepsForm (recordUpTo e) := by
  intro s h
  exact KeepsForm.foldl (f := fun t x => recordLate x t) (fun x => recordLate_wf x) _ s h

theorem freeLate_wf (e : LateEntry) : KeepsForm (freeLate e) := by
  intro s h
  unfold freeLate
  dsimp only
  split
  · exact h
  · exact recordUpTo_wf e s h

@[simp] theorem endsLaunch_mem (e : LateEntry) (l : Option Nat) (s : State) : (endsLaunch e l s).mem = s.mem := by
  unfold endsLaunch
  split
  · split <;> rfl
  · rfl

theorem dropFreed_wf (c : BitVec 8) (e : LateEntry) : KeepsForm (dropFreed c e) := by
  intro s h
  have h' := freeLate_wf e s h
  unfold dropFreed
  dsimp only
  split
  · exact h'
  · split
    · split
      · exact h'
      · split <;> exact h'
      · exact h'
    · split <;> exact h'

theorem dropEntry_wf (c : BitVec 8) (e : LateEntry) : KeepsForm (dropEntry c e) := by
  intro s h
  rw [dropEntry]
  simp only [endsLaunch_mem]
  refine dropFreed_wf c _ _ ?_
  split
  · exact h
  · exact recordUpTo_wf e s h

theorem dropGranuleEntries_wf (part asid off : Nat) : KeepsForm (dropGranuleEntries part asid off) := by
  intro s h
  rw [dropGranuleEntries]
  exact KeepsForm.foldl (f := fun t e => dropEntry (firstCause s part asid off) e t)
    (fun e => dropEntry_wf _ e) _ s h

theorem discardGranule_wf (part asid off : Nat) : KeepsForm (discardGranule part asid off) := by
  intro s h
  rw [discardGranule]
  cases walk s part asid off with
  | none => exact h
  | some l =>
    refine writePte_wf _ _ _ (memZero_wf _ _ _ ?_)
    show Memory.wf (if Pte.held l.entry = true then dropGranuleEntries part asid off s else s).mem = true
    split
    · exact dropGranuleEntries_wf part asid off s h
    · exact h

end Sys2Proof.Machine
end

