-- ==== Sys2Proof/Laws/PerInstr.lean ====
section
/-! SUPPORT. The family RoundTrip of statements about instructions as syntax: decoding an encoded well-formed instruction
gives it back (spec/08_encoding_assembly.md R172 to R178), one lemma per constructor. -/

namespace Sys2Proof.Laws

-- One proof after the other: each proof in progress holds a stack of its own, and all of them at once do not fit in memory.
set_option Elab.async false

/-- Decoding the word of a well-formed instruction gives the instruction. -/
def RoundTrip.Statement (i : Instr) : Prop := wellFormed i = true → ∀ w, encode i = some w → decode w = i

/-- An instruction without a word meets the statement. -/
theorem RoundTrip.no_word {i : Instr} (h : encode i = none) : RoundTrip.Statement i := by
  intro _ w hw
  rw [h] at hw
  cases hw

/-- An instruction that is not well-formed meets the statement. -/
theorem RoundTrip.no_wf {i : Instr} (h : wellFormed i = false) : RoundTrip.Statement i := by
  intro hw
  rw [h] at hw
  cases hw

/-- A flag read back from its bit. -/
theorem flag_of_bit (b : Bool) (n : Nat) (h : n % 2 = b.toNat) : decide (n % 2 = 1) = b := by
  cases b <;> simp_all

/-- A field read back from its bits. -/
theorem field_of_bits {k : Nat} (x : BitVec k) (n : Nat) (h : n % 2 ^ k = x.toNat) : BitVec.ofNat k n = x := by
  apply BitVec.eq_of_toNat_eq
  rw [BitVec.toNat_ofNat, h]

/-- The number of a word of 32 bits. -/
theorem word_toNat {n : Nat} (h : n < 4294967296) : (BitVec.ofNat 32 n).toNat = n := by
  rw [BitVec.toNat_ofNat]
  exact Nat.mod_eq_of_lt h

/-- The fields of a word of this layout are read back. -/
theorem rd3R_enc (b : Nat) (hb : b % 8388608 = 0) (o : Op3R) :
    rd3R (b + o.ta.toNat * 4194304 + o.tb.toNat * 2097152 + o.d.toNat * 16384 + o.a.toNat * 128 + o.b.toNat) = o := by
  have bta := Bool.toNat_le o.ta
  have btb := Bool.toNat_le o.tb
  have bd := o.d.isLt
  have ba := o.a.isLt
  have bb := o.b.isLt
  obtain ⟨ta, tb, d, a, b⟩ := o
  simp only [rd3R, Op3R.mk.injEq] at *
  exact ⟨flag_of_bit _ _ (by omega), flag_of_bit _ _ (by omega), field_of_bits _ _ (by omega), field_of_bits _ _ (by omega), field_of_bits _ _ (by omega)⟩

/-- The fields of a word of this layout are read back. -/
theorem rd3A_enc (b : Nat) (hb : b % 8388608 = 0) (o : Op3A) :
    rd3A (b + o.ta.toNat * 4194304 + o.d.toNat * 16384 + o.a.toNat * 128) = o := by
  have bta := Bool.toNat_le o.ta
  have bd := o.d.isLt
  have ba := o.a.isLt
  obtain ⟨ta, d, a⟩ := o
  simp only [rd3A, Op3A.mk.injEq] at *
  exact ⟨flag_of_bit _ _ (by omega), field_of_bits _ _ (by omega), field_of_bits _ _ (by omega)⟩

/-- The fields of a word of this layout are read back. -/
theorem rd2I_enc (b : Nat) (hb : b % 8388608 = 0) (o : Op2I) :
    rd2I (b + o.ta.toNat * 4194304 + o.d.toNat * 32768 + o.a.toNat * 256 + o.imm.toNat) = o := by
  have bta := Bool.toNat_le o.ta
  have bd := o.d.isLt
  have ba := o.a.isLt
  have bimm := o.imm.isLt
  obtain ⟨ta, d, a, imm⟩ := o
  simp only [rd2I, Op2I.mk.injEq] at *
  exact ⟨flag_of_bit _ _ (by omega), field_of_bits _ _ (by omega), field_of_bits _ _ (by omega), field_of_bits _ _ (by omega)⟩

/-- The fields of a word of this layout are read back. -/
theorem rd2S_enc (b : Nat) (hb : b % 8388608 = 0) (o : Op2S) :
    rd2S (b + o.ta.toNat * 4194304 + o.d.toNat * 32768 + o.a.toNat * 256 + o.imm.toNat) = o := by
  have bta := Bool.toNat_le o.ta
  have bd := o.d.isLt
  have ba := o.a.isLt
  have bimm := o.imm.isLt
  obtain ⟨ta, d, a, imm⟩ := o
  simp only [rd2S, Op2S.mk.injEq] at *
  exact ⟨flag_of_bit _ _ (by omega), field_of_bits _ _ (by omega), field_of_bits _ _ (by omega), field_of_bits _ _ (by omega)⟩

/-- The fields of a word of this layout are read back. -/
theorem rdRI_enc (b : Nat) (hb : b % 8388608 = 0) (o : OpRI) :
    rdRI (b + o.d.toNat * 65536 + o.imm.toNat) = o := by
  have bd := o.d.isLt
  have bimm := o.imm.isLt
  obtain ⟨d, imm⟩ := o
  simp only [rdRI, OpRI.mk.injEq] at *
  exact ⟨field_of_bits _ _ (by omega), field_of_bits _ _ (by omega)⟩

/-- The fields of a word of this layout are read back. -/
theorem rdB_enc (b : Nat) (hb : b % 8388608 = 0) (o : OpB) :
    rdB (b + o.off.toNat) = o := by
  have boff := o.off.isLt
  obtain ⟨off⟩ := o
  simp only [rdB, OpB.mk.injEq] at *
  exact field_of_bits _ _ (by omega)

/-- The fields of a word of this layout are read back. -/
theorem rdV_enc (b : Nat) (hb : b % 8388608 = 0) (o : OpV) :
    rdV (b + o.a.toNat) = o := by
  have ba := o.a.isLt
  obtain ⟨a⟩ := o
  simp only [rdV, OpV.mk.injEq] at *
  exact field_of_bits _ _ (by omega)

/-- The fields of a word of this layout are read back. -/
theorem rdBC_enc (b : Nat) (hb : b % 8388608 = 0) (o : OpBC) :
    rdBC (b + o.s.toNat * 131072 + o.off.toNat) = o := by
  have bs := o.s.isLt
  have boff := o.off.isLt
  obtain ⟨s, off⟩ := o
  simp only [rdBC, OpBC.mk.injEq] at *
  exact ⟨field_of_bits _ _ (by omega), field_of_bits _ _ (by omega)⟩

/-- The fields of a word of this layout are read back. -/
theorem rdS6_enc (b : Nat) (hb : b % 8388608 = 0) (o : OpS6) :
    rdS6 (b + o.s.toNat * 131072) = o := by
  have bs := o.s.isLt
  obtain ⟨s⟩ := o
  simp only [rdS6, OpS6.mk.injEq] at *
  exact field_of_bits _ _ (by omega)

/-- The fields of a word of this layout are read back. -/
theorem rdT4_enc (b : Nat) (hb : b % 8388608 = 0) (o : OpT4) :
    rdT4 (b + o.t.toNat) = o := by
  have bt := o.t.isLt
  obtain ⟨t⟩ := o
  simp only [rdT4, OpT4.mk.injEq] at *
  exact field_of_bits _ _ (by omega)

/-- The fields of a word of this layout are read back. -/
theorem rdG6_enc (b : Nat) (hb : b % 8388608 = 0) (o : OpG6) :
    rdG6 (b + o.g.toNat) = o := by
  have bg := o.g.isLt
  obtain ⟨g⟩ := o
  simp only [rdG6, OpG6.mk.injEq] at *
  exact field_of_bits _ _ (by omega)

/-- The fields of a word of this layout are read back. -/
theorem rdRM_enc (b : Nat) (hb : b % 8388608 = 0) (o : OpRM) :
    rdRM (b + o.z.toNat * 4 + o.r.toNat) = o := by
  have bz := Bool.toNat_le o.z
  have br := o.r.isLt
  obtain ⟨z, r⟩ := o
  simp only [rdRM, OpRM.mk.injEq] at *
  exact ⟨flag_of_bit _ _ (by omega), field_of_bits _ _ (by omega)⟩

/-- The fields of a word of this layout are read back. -/
theorem rdCV_enc (b : Nat) (hb : b % 8388608 = 0) (o : OpCV) :
    rdCV (b + o.k.toNat * 524288 + o.c.toNat) = o := by
  have bk := o.k.isLt
  have bc := o.c.isLt
  obtain ⟨k, c⟩ := o
  simp only [rdCV, OpCV.mk.injEq] at *
  exact ⟨field_of_bits _ _ (by omega), field_of_bits _ _ (by omega)⟩

/-- The fields of a word of this layout are read back. -/
theorem rdS6_2_enc (b : Nat) (hb : b % 8388608 = 0) (o : OpS6) :
    rdS6_2 (b + o.s.toNat) = o := by
  have bs := o.s.isLt
  obtain ⟨s⟩ := o
  simp only [rdS6_2, OpS6.mk.injEq] at *
  exact field_of_bits _ _ (by omega)

/-- The fields of a word of this layout are read back. -/
theorem rdSN_enc (b : Nat) (hb : b % 8388608 = 0) (o : OpSN) :
    rdSN (b + o.s.toNat * 512 + o.n.toNat) = o := by
  have bs := o.s.isLt
  have bn := o.n.isLt
  obtain ⟨s, n⟩ := o
  simp only [rdSN, OpSN.mk.injEq] at *
  exact ⟨field_of_bits _ _ (by omega), field_of_bits _ _ (by omega)⟩

/-- The fields of a word of this layout are read back. -/
theorem rd3K_enc (b : Nat) (hb : b % 8388608 = 0) (o : Op3K) :
    rd3K (b + o.ta.toNat * 4194304 + o.d.toNat * 16384 + o.a.toNat * 128 + o.k.toNat) = o := by
  have bta := Bool.toNat_le o.ta
  have bd := o.d.isLt
  have ba := o.a.isLt
  have bk := o.k.isLt
  obtain ⟨ta, d, a, k⟩ := o
  simp only [rd3K, Op3K.mk.injEq] at *
  exact ⟨flag_of_bit _ _ (by omega), field_of_bits _ _ (by omega), field_of_bits _ _ (by omega), field_of_bits _ _ (by omega)⟩

/-- The fields of a word of this layout are read back. -/
theorem rdDK_enc (b : Nat) (hb : b % 8388608 = 0) (o : OpDK) :
    rdDK (b + o.d.toNat * 16384 + o.k.toNat * 128) = o := by
  have bd := o.d.isLt
  have bk := o.k.isLt
  obtain ⟨d, k⟩ := o
  simp only [rdDK, OpDK.mk.injEq] at *
  exact ⟨field_of_bits _ _ (by omega), field_of_bits _ _ (by omega)⟩

/-- The fields of a word of this layout are read back. -/
theorem rdM_enc (b : Nat) (hb : b % 8388608 = 0) (o : OpM) :
    rdM (b + o.ta.toNat * 4194304 + o.d.toNat * 32768 + o.w.toNat * 4096 + o.a.toNat * 32 + o.nt.toNat * 16 + o.sx.toNat * 8 + o.sz.toNat) = o := by
  have bta := Bool.toNat_le o.ta
  have bd := o.d.isLt
  have bw := o.w.isLt
  have ba := o.a.isLt
  have bnt := Bool.toNat_le o.nt
  have bsx := Bool.toNat_le o.sx
  have bsz := o.sz.isLt
  obtain ⟨ta, d, w, a, nt, sx, sz⟩ := o
  simp only [rdM, OpM.mk.injEq] at *
  exact ⟨flag_of_bit _ _ (by omega), field_of_bits _ _ (by omega), field_of_bits _ _ (by omega), field_of_bits _ _ (by omega), flag_of_bit _ _ (by omega), flag_of_bit _ _ (by omega), field_of_bits _ _ (by omega)⟩

/-- The fields of a word of this layout are read back. -/
theorem rdMst_enc (b : Nat) (hb : b % 8388608 = 0) (o : OpMst) :
    rdMst (b + o.ta.toNat * 4194304 + o.d.toNat * 32768 + o.w.toNat * 4096 + o.a.toNat * 32 + o.nt.toNat * 16 + o.sz.toNat) = o := by
  have bta := Bool.toNat_le o.ta
  have bd := o.d.isLt
  have bw := o.w.isLt
  have ba := o.a.isLt
  have bnt := Bool.toNat_le o.nt
  have bsz := o.sz.isLt
  obtain ⟨ta, d, w, a, nt, sz⟩ := o
  simp only [rdMst, OpMst.mk.injEq] at *
  exact ⟨flag_of_bit _ _ (by omega), field_of_bits _ _ (by omega), field_of_bits _ _ (by omega), field_of_bits _ _ (by omega), flag_of_bit _ _ (by omega), field_of_bits _ _ (by omega)⟩

/-- The fields of a word of this layout are read back. -/
theorem rdMs_enc (b : Nat) (hb : b % 8388608 = 0) (o : OpMs) :
    rdMs (b + o.ta.toNat * 4194304 + o.d.toNat * 32768 + o.a.toNat * 32 + o.sx.toNat * 8 + o.sz.toNat) = o := by
  have bta := Bool.toNat_le o.ta
  have bd := o.d.isLt
  have ba := o.a.isLt
  have bsx := Bool.toNat_le o.sx
  have bsz := o.sz.isLt
  obtain ⟨ta, d, a, sx, sz⟩ := o
  simp only [rdMs, OpMs.mk.injEq] at *
  exact ⟨flag_of_bit _ _ (by omega), field_of_bits _ _ (by omega), field_of_bits _ _ (by omega), flag_of_bit _ _ (by omega), field_of_bits _ _ (by omega)⟩

/-- The fields of a word of this layout are read back. -/
theorem rdMsst_enc (b : Nat) (hb : b % 8388608 = 0) (o : OpMsst) :
    rdMsst (b + o.ta.toNat * 4194304 + o.d.toNat * 32768 + o.a.toNat * 32 + o.sz.toNat) = o := by
  have bta := Bool.toNat_le o.ta
  have bd := o.d.isLt
  have ba := o.a.isLt
  have bsz := o.sz.isLt
  obtain ⟨ta, d, a, sz⟩ := o
  simp only [rdMsst, OpMsst.mk.injEq] at *
  exact ⟨flag_of_bit _ _ (by omega), field_of_bits _ _ (by omega), field_of_bits _ _ (by omega), field_of_bits _ _ (by omega)⟩

/-- The fields of a word of this layout are read back. -/
theorem rdPf_enc (b : Nat) (hb : b % 8388608 = 0) (o : OpPf) :
    rdPf (b + o.ta.toNat * 4194304 + o.w.toNat * 4096 + o.a.toNat * 32 + o.l2.toNat) = o := by
  have bta := Bool.toNat_le o.ta
  have bw := o.w.isLt
  have ba := o.a.isLt
  have bl2 := Bool.toNat_le o.l2
  obtain ⟨ta, w, a, l2⟩ := o
  simp only [rdPf, OpPf.mk.injEq] at *
  exact ⟨flag_of_bit _ _ (by omega), field_of_bits _ _ (by omega), field_of_bits _ _ (by omega), flag_of_bit _ _ (by omega)⟩

/-- The fields of a word of this layout are read back. -/
theorem rdDis_enc (b : Nat) (hb : b % 8388608 = 0) (o : OpDis) :
    rdDis (b + o.d.toNat * 32768 + o.w.toNat * 4096 + o.a.toNat * 32) = o := by
  have bd := o.d.isLt
  have bw := o.w.isLt
  have ba := o.a.isLt
  obtain ⟨d, w, a⟩ := o
  simp only [rdDis, OpDis.mk.injEq] at *
  exact ⟨field_of_bits _ _ (by omega), field_of_bits _ _ (by omega), field_of_bits _ _ (by omega)⟩

/-- The fields of a word of this layout are read back. -/
theorem rdWa_enc (b : Nat) (hb : b % 8388608 = 0) (o : OpWa) :
    rdWa (b + o.w.toNat * 4096 + o.a.toNat * 32) = o := by
  have bw := o.w.isLt
  have ba := o.a.isLt
  obtain ⟨w, a⟩ := o
  simp only [rdWa, OpWa.mk.injEq] at *
  exact ⟨field_of_bits _ _ (by omega), field_of_bits _ _ (by omega)⟩

/-- The fields of a word of this layout are read back. -/
theorem rdW_enc (b : Nat) (hb : b % 8388608 = 0) (o : OpW) :
    rdW (b + o.w.toNat * 4096) = o := by
  have bw := o.w.isLt
  obtain ⟨w⟩ := o
  simp only [rdW, OpW.mk.injEq] at *
  exact field_of_bits _ _ (by omega)

/-- The fields of a word of this layout are read back. -/
theorem rdX_enc (b : Nat) (hb : b % 8388608 = 0) (o : OpX) :
    rdX (b + o.cls.toNat * 2097152 + o.d.toNat * 16384 + o.peer.toNat * 512 + o.a.toNat * 4 + o.ta.toNat * 2) = o := by
  have bcls := o.cls.isLt
  have bd := o.d.isLt
  have bpeer := o.peer.isLt
  have ba := o.a.isLt
  have bta := Bool.toNat_le o.ta
  obtain ⟨cls, d, peer, a, ta⟩ := o
  simp only [rdX, OpX.mk.injEq] at *
  exact ⟨field_of_bits _ _ (by omega), field_of_bits _ _ (by omega), field_of_bits _ _ (by omega), field_of_bits _ _ (by omega), flag_of_bit _ _ (by omega)⟩

/-- The fields of a word of this layout are read back. -/
theorem rdPeer_enc (b : Nat) (hb : b % 8388608 = 0) (o : OpPeer) :
    rdPeer (b + o.d.toNat * 16384 + o.peer.toNat * 512) = o := by
  have bd := o.d.isLt
  have bpeer := o.peer.isLt
  obtain ⟨d, peer⟩ := o
  simp only [rdPeer, OpPeer.mk.injEq] at *
  exact ⟨field_of_bits _ _ (by omega), field_of_bits _ _ (by omega)⟩

/-- The fields of a word of this layout are read back. -/
theorem rdAtom_enc (b : Nat) (hb : b % 8388608 = 0) (o : OpAtom) :
    rdAtom (b + o.ta.toNat * 4194304 + o.d.toNat * 32768 + o.w.toNat * 4096 + o.a.toNat * 32 + o.n.toNat) = o := by
  have bta := Bool.toNat_le o.ta
  have bd := o.d.isLt
  have bw := o.w.isLt
  have ba := o.a.isLt
  have bn := o.n.isLt
  obtain ⟨ta, d, w, a, n⟩ := o
  simp only [rdAtom, OpAtom.mk.injEq] at *
  exact ⟨flag_of_bit _ _ (by omega), field_of_bits _ _ (by omega), field_of_bits _ _ (by omega), field_of_bits _ _ (by omega), field_of_bits _ _ (by omega)⟩

/-- The fields of a word of this layout are read back. -/
theorem rdMw_enc (b : Nat) (hb : b % 8388608 = 0) (o : OpMw) :
    rdMw (b + o.ta.toNat * 4194304 + o.d.toNat * 32768 + o.w.toNat * 4096 + o.a.toNat * 32) = o := by
  have bta := Bool.toNat_le o.ta
  have bd := o.d.isLt
  have bw := o.w.isLt
  have ba := o.a.isLt
  obtain ⟨ta, d, w, a⟩ := o
  simp only [rdMw, OpMw.mk.injEq] at *
  exact ⟨flag_of_bit _ _ (by omega), field_of_bits _ _ (by omega), field_of_bits _ _ (by omega), field_of_bits _ _ (by omega)⟩

/-- The fields of a word of this layout are read back. -/
theorem rdAcq_enc (b : Nat) (hb : b % 8388608 = 0) (o : OpAcq) :
    rdAcq (b + o.ta.toNat * 4194304 + o.d.toNat * 32768 + o.w.toNat * 4096 + o.a.toNat * 32 + o.scope.toNat) = o := by
  have bta := Bool.toNat_le o.ta
  have bd := o.d.isLt
  have bw := o.w.isLt
  have ba := o.a.isLt
  have bscope := o.scope.isLt
  obtain ⟨ta, d, w, a, scope⟩ := o
  simp only [rdAcq, OpAcq.mk.injEq] at *
  exact ⟨flag_of_bit _ _ (by omega), field_of_bits _ _ (by omega), field_of_bits _ _ (by omega), field_of_bits _ _ (by omega), field_of_bits _ _ (by omega)⟩

/-- The fields of a word of this layout are read back. -/
theorem rdF_enc (b : Nat) (hb : b % 8388608 = 0) (o : OpF) :
    rdF (b + o.kind.toNat * 1048576 + o.scope.toNat * 131072 + o.mask.toNat * 8192) = o := by
  have bkind := o.kind.isLt
  have bscope := o.scope.isLt
  have bmask := o.mask.isLt
  obtain ⟨kind, scope, mask⟩ := o
  simp only [rdF, OpF.mk.injEq] at *
  exact ⟨field_of_bits _ _ (by omega), field_of_bits _ _ (by omega), field_of_bits _ _ (by omega)⟩

/-- The fields of a word of this layout are read back. -/
theorem rdN9_enc (b : Nat) (hb : b % 8388608 = 0) (o : OpN9) :
    rdN9 (b + o.n.toNat) = o := by
  have bn := o.n.isLt
  obtain ⟨n⟩ := o
  simp only [rdN9, OpN9.mk.injEq] at *
  exact field_of_bits _ _ (by omega)

/-- The fields of a word of this layout are read back. -/
theorem rdS6_3_enc (b : Nat) (hb : b % 8388608 = 0) (o : OpS6) :
    rdS6_3 (b + o.s.toNat * 512) = o := by
  have bs := o.s.isLt
  obtain ⟨s⟩ := o
  simp only [rdS6_3, OpS6.mk.injEq] at *
  exact field_of_bits _ _ (by omega)

/-- The fields of a word of this layout are read back. -/
theorem rdWait_enc (b : Nat) (hb : b % 8388608 = 0) (o : OpWait) :
    rdWait (b + o.k.toNat * 32768 + o.n.toNat) = o := by
  have bk := o.k.isLt
  have bn := o.n.isLt
  obtain ⟨k, n⟩ := o
  simp only [rdWait, OpWait.mk.injEq] at *
  exact ⟨field_of_bits _ _ (by omega), field_of_bits _ _ (by omega)⟩

/-- The fields of a word of this layout are read back. -/
theorem rdH_enc (b : Nat) (hb : b % 8388608 = 0) (o : OpH) :
    rdH (b + o.h.toNat * 65536) = o := by
  have bh := o.h.isLt
  obtain ⟨h⟩ := o
  simp only [rdH, OpH.mk.injEq] at *
  exact field_of_bits _ _ (by omega)

/-- The fields of a word of this layout are read back. -/
theorem rdHD_enc (b : Nat) (hb : b % 8388608 = 0) (o : OpHD) :
    rdHD (b + o.h.toNat * 65536 + o.d.toNat * 1024) = o := by
  have bh := o.h.isLt
  have bd := o.d.isLt
  obtain ⟨h, d⟩ := o
  simp only [rdHD, OpHD.mk.injEq] at *
  exact ⟨field_of_bits _ _ (by omega), field_of_bits _ _ (by omega)⟩

/-- The fields of a word of this layout are read back. -/
theorem rdE_enc (b : Nat) (hb : b % 8388608 = 0) (o : OpE) :
    rdE (b + o.d.toNat * 1024 + o.k.toNat) = o := by
  have bd := o.d.isLt
  have bk := o.k.isLt
  obtain ⟨d, k⟩ := o
  simp only [rdE, OpE.mk.injEq] at *
  exact ⟨field_of_bits _ _ (by omega), field_of_bits _ _ (by omega)⟩

/-- The fields of a word of this layout are read back. -/
theorem rdHE_enc (b : Nat) (hb : b % 8388608 = 0) (o : OpHE) :
    rdHE (b + o.h.toNat * 65536 + o.d.toNat * 1024 + o.k.toNat) = o := by
  have bh := o.h.isLt
  have bd := o.d.isLt
  have bk := o.k.isLt
  obtain ⟨h, d, k⟩ := o
  simp only [rdHE, OpHE.mk.injEq] at *
  exact ⟨field_of_bits _ _ (by omega), field_of_bits _ _ (by omega), field_of_bits _ _ (by omega)⟩

/-- The fields of a word of this layout are read back. -/
theorem rdMloop_enc (b : Nat) (hb : b % 8388608 = 0) (o : OpMloop) :
    rdMloop (b + o.d.toNat * 1024 + o.f.toNat * 16 + o.k.toNat) = o := by
  have bd := o.d.isLt
  have bf := o.f.isLt
  have bk := o.k.isLt
  obtain ⟨d, f, k⟩ := o
  simp only [rdMloop, OpMloop.mk.injEq] at *
  exact ⟨field_of_bits _ _ (by omega), field_of_bits _ _ (by omega), field_of_bits _ _ (by omega)⟩

/-- The fields of a word of this layout are read back. -/
theorem rdAcc_enc (b : Nat) (hb : b % 8388608 = 0) (o : OpAcc) :
    rdAcc (b + o.n1.toNat * 524288 + o.b.toNat * 65536 + o.k.toNat) = o := by
  have bn1 := o.n1.isLt
  have bb := o.b.isLt
  have bk := o.k.isLt
  obtain ⟨n1, b, k⟩ := o
  simp only [rdAcc, OpAcc.mk.injEq] at *
  exact ⟨field_of_bits _ _ (by omega), field_of_bits _ _ (by omega), field_of_bits _ _ (by omega)⟩

/-- The fields of a word of this layout are read back. -/
theorem rdAccD_enc (b : Nat) (hb : b % 8388608 = 0) (o : OpAccD) :
    rdAccD (b + o.n1.toNat * 524288 + o.b.toNat * 65536 + o.d.toNat * 1024 + o.k.toNat) = o := by
  have bn1 := o.n1.isLt
  have bb := o.b.isLt
  have bd := o.d.isLt
  have bk := o.k.isLt
  obtain ⟨n1, b, d, k⟩ := o
  simp only [rdAccD, OpAccD.mk.injEq] at *
  exact ⟨field_of_bits _ _ (by omega), field_of_bits _ _ (by omega), field_of_bits _ _ (by omega), field_of_bits _ _ (by omega)⟩

/-- The fields of a word of this layout are read back. -/
theorem rdEw_enc (b : Nat) (hb : b % 8388608 = 0) (o : OpEw) :
    rdEw (b + o.n.toNat * 65536 + o.k.toNat) = o := by
  have bn := o.n.isLt
  have bk := o.k.isLt
  obtain ⟨n, k⟩ := o
  simp only [rdEw, OpEw.mk.injEq] at *
  exact ⟨field_of_bits _ _ (by omega), field_of_bits _ _ (by omega)⟩

/-- The fields of a word of this layout are read back. -/
theorem rdPlb_enc (b : Nat) (hb : b % 8388608 = 0) (o : OpPlb) :
    rdPlb (b + o.k.toNat * 32768 + o.s.toNat * 512) = o := by
  have bk := o.k.isLt
  have bs := o.s.isLt
  obtain ⟨k, s⟩ := o
  simp only [rdPlb, OpPlb.mk.injEq] at *
  exact ⟨field_of_bits _ _ (by omega), field_of_bits _ _ (by omega)⟩

/-- The fields of a word of this layout are read back. -/
theorem rdXn_enc (b : Nat) (hb : b % 268435456 = 0) (o : OpXn) :
    rdXn (b + o.n.toNat * 8388608 + o.cls.toNat * 2097152 + o.d.toNat * 16384 + o.peer.toNat * 512 + o.a.toNat * 4 + o.ta.toNat * 2) = o := by
  have bn := o.n.isLt
  have bcls := o.cls.isLt
  have bd := o.d.isLt
  have bpeer := o.peer.isLt
  have ba := o.a.isLt
  have bta := Bool.toNat_le o.ta
  obtain ⟨n, cls, d, peer, a, ta⟩ := o
  simp only [rdXn, OpXn.mk.injEq] at *
  exact ⟨field_of_bits _ _ (by omega), field_of_bits _ _ (by omega), field_of_bits _ _ (by omega), field_of_bits _ _ (by omega), field_of_bits _ _ (by omega), flag_of_bit _ _ (by omega)⟩

/-- The number of a word of this layout, and its opcode. -/
theorem rd3R_enc_op (b : Nat) (hb : b % 8388608 = 0) (hc : b < 4294967296) (o : Op3R) :
    (BitVec.ofNat 32 (b + o.ta.toNat * 4194304 + o.tb.toNat * 2097152 + o.d.toNat * 16384 + o.a.toNat * 128 + o.b.toNat)).toNat = (b + o.ta.toNat * 4194304 + o.tb.toNat * 2097152 + o.d.toNat * 16384 + o.a.toNat * 128 + o.b.toNat) ∧ (b + o.ta.toNat * 4194304 + o.tb.toNat * 2097152 + o.d.toNat * 16384 + o.a.toNat * 128 + o.b.toNat) / 8388608 % 512 = b / 8388608 := by
  have bta := Bool.toNat_le o.ta
  have btb := Bool.toNat_le o.tb
  have bd := o.d.isLt
  have ba := o.a.isLt
  have bb := o.b.isLt
  exact ⟨word_toNat (by omega), by omega⟩

/-- The number of a word of this layout, and its opcode. -/
theorem rd3A_enc_op (b : Nat) (hb : b % 8388608 = 0) (hc : b < 4294967296) (o : Op3A) :
    (BitVec.ofNat 32 (b + o.ta.toNat * 4194304 + o.d.toNat * 16384 + o.a.toNat * 128)).toNat = (b + o.ta.toNat * 4194304 + o.d.toNat * 16384 + o.a.toNat * 128) ∧ (b + o.ta.toNat * 4194304 + o.d.toNat * 16384 + o.a.toNat * 128) / 8388608 % 512 = b / 8388608 := by
  have bta := Bool.toNat_le o.ta
  have bd := o.d.isLt
  have ba := o.a.isLt
  exact ⟨word_toNat (by omega), by omega⟩

/-- The number of a word of this layout, and its opcode. -/
theorem rd2I_enc_op (b : Nat) (hb : b % 8388608 = 0) (hc : b < 4294967296) (o : Op2I) :
    (BitVec.ofNat 32 (b + o.ta.toNat * 4194304 + o.d.toNat * 32768 + o.a.toNat * 256 + o.imm.toNat)).toNat = (b + o.ta.toNat * 4194304 + o.d.toNat * 32768 + o.a.toNat * 256 + o.imm.toNat) ∧ (b + o.ta.toNat * 4194304 + o.d.toNat * 32768 + o.a.toNat * 256 + o.imm.toNat) / 8388608 % 512 = b / 8388608 := by
  have bta := Bool.toNat_le o.ta
  have bd := o.d.isLt
  have ba := o.a.isLt
  have bimm := o.imm.isLt
  exact ⟨word_toNat (by omega), by omega⟩

/-- The number of a word of this layout, and its opcode. -/
theorem rd2S_enc_op (b : Nat) (hb : b % 8388608 = 0) (hc : b < 4294967296) (o : Op2S) :
    (BitVec.ofNat 32 (b + o.ta.toNat * 4194304 + o.d.toNat * 32768 + o.a.toNat * 256 + o.imm.toNat)).toNat = (b + o.ta.toNat * 4194304 + o.d.toNat * 32768 + o.a.toNat * 256 + o.imm.toNat) ∧ (b + o.ta.toNat * 4194304 + o.d.toNat * 32768 + o.a.toNat * 256 + o.imm.toNat) / 8388608 % 512 = b / 8388608 := by
  have bta := Bool.toNat_le o.ta
  have bd := o.d.isLt
  have ba := o.a.isLt
  have bimm := o.imm.isLt
  exact ⟨word_toNat (by omega), by omega⟩

/-- The number of a word of this layout, and its opcode. -/
theorem rdRI_enc_op (b : Nat) (hb : b % 8388608 = 0) (hc : b < 4294967296) (o : OpRI) :
    (BitVec.ofNat 32 (b + o.d.toNat * 65536 + o.imm.toNat)).toNat = (b + o.d.toNat * 65536 + o.imm.toNat) ∧ (b + o.d.toNat * 65536 + o.imm.toNat) / 8388608 % 512 = b / 8388608 := by
  have bd := o.d.isLt
  have bimm := o.imm.isLt
  exact ⟨word_toNat (by omega), by omega⟩

/-- The number of a word of this layout, and its opcode. -/
theorem rdB_enc_op (b : Nat) (hb : b % 8388608 = 0) (hc : b < 4294967296) (o : OpB) :
    (BitVec.ofNat 32 (b + o.off.toNat)).toNat = (b + o.off.toNat) ∧ (b + o.off.toNat) / 8388608 % 512 = b / 8388608 := by
  have boff := o.off.isLt
  exact ⟨word_toNat (by omega), by omega⟩

/-- The number of a word of this layout, and its opcode. -/
theorem rdV_enc_op (b : Nat) (hb : b % 8388608 = 0) (hc : b < 4294967296) (o : OpV) :
    (BitVec.ofNat 32 (b + o.a.toNat)).toNat = (b + o.a.toNat) ∧ (b + o.a.toNat) / 8388608 % 512 = b / 8388608 := by
  have ba := o.a.isLt
  exact ⟨word_toNat (by omega), by omega⟩

/-- The number of a word of this layout, and its opcode. -/
theorem rdBC_enc_op (b : Nat) (hb : b % 8388608 = 0) (hc : b < 4294967296) (o : OpBC) :
    (BitVec.ofNat 32 (b + o.s.toNat * 131072 + o.off.toNat)).toNat = (b + o.s.toNat * 131072 + o.off.toNat) ∧ (b + o.s.toNat * 131072 + o.off.toNat) / 8388608 % 512 = b / 8388608 := by
  have bs := o.s.isLt
  have boff := o.off.isLt
  exact ⟨word_toNat (by omega), by omega⟩

/-- The number of a word of this layout, and its opcode. -/
theorem rdS6_enc_op (b : Nat) (hb : b % 8388608 = 0) (hc : b < 4294967296) (o : OpS6) :
    (BitVec.ofNat 32 (b + o.s.toNat * 131072)).toNat = (b + o.s.toNat * 131072) ∧ (b + o.s.toNat * 131072) / 8388608 % 512 = b / 8388608 := by
  have bs := o.s.isLt
  exact ⟨word_toNat (by omega), by omega⟩

/-- The number of a word of this layout, and its opcode. -/
theorem rdT4_enc_op (b : Nat) (hb : b % 8388608 = 0) (hc : b < 4294967296) (o : OpT4) :
    (BitVec.ofNat 32 (b + o.t.toNat)).toNat = (b + o.t.toNat) ∧ (b + o.t.toNat) / 8388608 % 512 = b / 8388608 := by
  have bt := o.t.isLt
  exact ⟨word_toNat (by omega), by omega⟩

/-- The number of a word of this layout, and its opcode. -/
theorem rdG6_enc_op (b : Nat) (hb : b % 8388608 = 0) (hc : b < 4294967296) (o : OpG6) :
    (BitVec.ofNat 32 (b + o.g.toNat)).toNat = (b + o.g.toNat) ∧ (b + o.g.toNat) / 8388608 % 512 = b / 8388608 := by
  have bg := o.g.isLt
  exact ⟨word_toNat (by omega), by omega⟩

/-- The number of a word of this layout, and its opcode. -/
theorem rdRM_enc_op (b : Nat) (hb : b % 8388608 = 0) (hc : b < 4294967296) (o : OpRM) :
    (BitVec.ofNat 32 (b + o.z.toNat * 4 + o.r.toNat)).toNat = (b + o.z.toNat * 4 + o.r.toNat) ∧ (b + o.z.toNat * 4 + o.r.toNat) / 8388608 % 512 = b / 8388608 := by
  have bz := Bool.toNat_le o.z
  have br := o.r.isLt
  exact ⟨word_toNat (by omega), by omega⟩

/-- The number of a word of this layout, and its opcode. -/
theorem rdCV_enc_op (b : Nat) (hb : b % 8388608 = 0) (hc : b < 4294967296) (o : OpCV) :
    (BitVec.ofNat 32 (b + o.k.toNat * 524288 + o.c.toNat)).toNat = (b + o.k.toNat * 524288 + o.c.toNat) ∧ (b + o.k.toNat * 524288 + o.c.toNat) / 8388608 % 512 = b / 8388608 := by
  have bk := o.k.isLt
  have bc := o.c.isLt
  exact ⟨word_toNat (by omega), by omega⟩

/-- The number of a word of this layout, and its opcode. -/
theorem rdS6_2_enc_op (b : Nat) (hb : b % 8388608 = 0) (hc : b < 4294967296) (o : OpS6) :
    (BitVec.ofNat 32 (b + o.s.toNat)).toNat = (b + o.s.toNat) ∧ (b + o.s.toNat) / 8388608 % 512 = b / 8388608 := by
  have bs := o.s.isLt
  exact ⟨word_toNat (by omega), by omega⟩

/-- The number of a word of this layout, and its opcode. -/
theorem rdSN_enc_op (b : Nat) (hb : b % 8388608 = 0) (hc : b < 4294967296) (o : OpSN) :
    (BitVec.ofNat 32 (b + o.s.toNat * 512 + o.n.toNat)).toNat = (b + o.s.toNat * 512 + o.n.toNat) ∧ (b + o.s.toNat * 512 + o.n.toNat) / 8388608 % 512 = b / 8388608 := by
  have bs := o.s.isLt
  have bn := o.n.isLt
  exact ⟨word_toNat (by omega), by omega⟩

/-- The number of a word of this layout, and its opcode. -/
theorem rd3K_enc_op (b : Nat) (hb : b % 8388608 = 0) (hc : b < 4294967296) (o : Op3K) :
    (BitVec.ofNat 32 (b + o.ta.toNat * 4194304 + o.d.toNat * 16384 + o.a.toNat * 128 + o.k.toNat)).toNat = (b + o.ta.toNat * 4194304 + o.d.toNat * 16384 + o.a.toNat * 128 + o.k.toNat) ∧ (b + o.ta.toNat * 4194304 + o.d.toNat * 16384 + o.a.toNat * 128 + o.k.toNat) / 8388608 % 512 = b / 8388608 := by
  have bta := Bool.toNat_le o.ta
  have bd := o.d.isLt
  have ba := o.a.isLt
  have bk := o.k.isLt
  exact ⟨word_toNat (by omega), by omega⟩

/-- The number of a word of this layout, and its opcode. -/
theorem rdDK_enc_op (b : Nat) (hb : b % 8388608 = 0) (hc : b < 4294967296) (o : OpDK) :
    (BitVec.ofNat 32 (b + o.d.toNat * 16384 + o.k.toNat * 128)).toNat = (b + o.d.toNat * 16384 + o.k.toNat * 128) ∧ (b + o.d.toNat * 16384 + o.k.toNat * 128) / 8388608 % 512 = b / 8388608 := by
  have bd := o.d.isLt
  have bk := o.k.isLt
  exact ⟨word_toNat (by omega), by omega⟩

/-- The number of a word of this layout, and its opcode. -/
theorem rdM_enc_op (b : Nat) (hb : b % 8388608 = 0) (hc : b < 4294967296) (o : OpM) :
    (BitVec.ofNat 32 (b + o.ta.toNat * 4194304 + o.d.toNat * 32768 + o.w.toNat * 4096 + o.a.toNat * 32 + o.nt.toNat * 16 + o.sx.toNat * 8 + o.sz.toNat)).toNat = (b + o.ta.toNat * 4194304 + o.d.toNat * 32768 + o.w.toNat * 4096 + o.a.toNat * 32 + o.nt.toNat * 16 + o.sx.toNat * 8 + o.sz.toNat) ∧ (b + o.ta.toNat * 4194304 + o.d.toNat * 32768 + o.w.toNat * 4096 + o.a.toNat * 32 + o.nt.toNat * 16 + o.sx.toNat * 8 + o.sz.toNat) / 8388608 % 512 = b / 8388608 := by
  have bta := Bool.toNat_le o.ta
  have bd := o.d.isLt
  have bw := o.w.isLt
  have ba := o.a.isLt
  have bnt := Bool.toNat_le o.nt
  have bsx := Bool.toNat_le o.sx
  have bsz := o.sz.isLt
  exact ⟨word_toNat (by omega), by omega⟩

/-- The number of a word of this layout, and its opcode. -/
theorem rdMst_enc_op (b : Nat) (hb : b % 8388608 = 0) (hc : b < 4294967296) (o : OpMst) :
    (BitVec.ofNat 32 (b + o.ta.toNat * 4194304 + o.d.toNat * 32768 + o.w.toNat * 4096 + o.a.toNat * 32 + o.nt.toNat * 16 + o.sz.toNat)).toNat = (b + o.ta.toNat * 4194304 + o.d.toNat * 32768 + o.w.toNat * 4096 + o.a.toNat * 32 + o.nt.toNat * 16 + o.sz.toNat) ∧ (b + o.ta.toNat * 4194304 + o.d.toNat * 32768 + o.w.toNat * 4096 + o.a.toNat * 32 + o.nt.toNat * 16 + o.sz.toNat) / 8388608 % 512 = b / 8388608 := by
  have bta := Bool.toNat_le o.ta
  have bd := o.d.isLt
  have bw := o.w.isLt
  have ba := o.a.isLt
  have bnt := Bool.toNat_le o.nt
  have bsz := o.sz.isLt
  exact ⟨word_toNat (by omega), by omega⟩

/-- The number of a word of this layout, and its opcode. -/
theorem rdMs_enc_op (b : Nat) (hb : b % 8388608 = 0) (hc : b < 4294967296) (o : OpMs) :
    (BitVec.ofNat 32 (b + o.ta.toNat * 4194304 + o.d.toNat * 32768 + o.a.toNat * 32 + o.sx.toNat * 8 + o.sz.toNat)).toNat = (b + o.ta.toNat * 4194304 + o.d.toNat * 32768 + o.a.toNat * 32 + o.sx.toNat * 8 + o.sz.toNat) ∧ (b + o.ta.toNat * 4194304 + o.d.toNat * 32768 + o.a.toNat * 32 + o.sx.toNat * 8 + o.sz.toNat) / 8388608 % 512 = b / 8388608 := by
  have bta := Bool.toNat_le o.ta
  have bd := o.d.isLt
  have ba := o.a.isLt
  have bsx := Bool.toNat_le o.sx
  have bsz := o.sz.isLt
  exact ⟨word_toNat (by omega), by omega⟩

/-- The number of a word of this layout, and its opcode. -/
theorem rdMsst_enc_op (b : Nat) (hb : b % 8388608 = 0) (hc : b < 4294967296) (o : OpMsst) :
    (BitVec.ofNat 32 (b + o.ta.toNat * 4194304 + o.d.toNat * 32768 + o.a.toNat * 32 + o.sz.toNat)).toNat = (b + o.ta.toNat * 4194304 + o.d.toNat * 32768 + o.a.toNat * 32 + o.sz.toNat) ∧ (b + o.ta.toNat * 4194304 + o.d.toNat * 32768 + o.a.toNat * 32 + o.sz.toNat) / 8388608 % 512 = b / 8388608 := by
  have bta := Bool.toNat_le o.ta
  have bd := o.d.isLt
  have ba := o.a.isLt
  have bsz := o.sz.isLt
  exact ⟨word_toNat (by omega), by omega⟩

/-- The number of a word of this layout, and its opcode. -/
theorem rdPf_enc_op (b : Nat) (hb : b % 8388608 = 0) (hc : b < 4294967296) (o : OpPf) :
    (BitVec.ofNat 32 (b + o.ta.toNat * 4194304 + o.w.toNat * 4096 + o.a.toNat * 32 + o.l2.toNat)).toNat = (b + o.ta.toNat * 4194304 + o.w.toNat * 4096 + o.a.toNat * 32 + o.l2.toNat) ∧ (b + o.ta.toNat * 4194304 + o.w.toNat * 4096 + o.a.toNat * 32 + o.l2.toNat) / 8388608 % 512 = b / 8388608 := by
  have bta := Bool.toNat_le o.ta
  have bw := o.w.isLt
  have ba := o.a.isLt
  have bl2 := Bool.toNat_le o.l2
  exact ⟨word_toNat (by omega), by omega⟩

/-- The number of a word of this layout, and its opcode. -/
theorem rdDis_enc_op (b : Nat) (hb : b % 8388608 = 0) (hc : b < 4294967296) (o : OpDis) :
    (BitVec.ofNat 32 (b + o.d.toNat * 32768 + o.w.toNat * 4096 + o.a.toNat * 32)).toNat = (b + o.d.toNat * 32768 + o.w.toNat * 4096 + o.a.toNat * 32) ∧ (b + o.d.toNat * 32768 + o.w.toNat * 4096 + o.a.toNat * 32) / 8388608 % 512 = b / 8388608 := by
  have bd := o.d.isLt
  have bw := o.w.isLt
  have ba := o.a.isLt
  exact ⟨word_toNat (by omega), by omega⟩

/-- The number of a word of this layout, and its opcode. -/
theorem rdWa_enc_op (b : Nat) (hb : b % 8388608 = 0) (hc : b < 4294967296) (o : OpWa) :
    (BitVec.ofNat 32 (b + o.w.toNat * 4096 + o.a.toNat * 32)).toNat = (b + o.w.toNat * 4096 + o.a.toNat * 32) ∧ (b + o.w.toNat * 4096 + o.a.toNat * 32) / 8388608 % 512 = b / 8388608 := by
  have bw := o.w.isLt
  have ba := o.a.isLt
  exact ⟨word_toNat (by omega), by omega⟩

/-- The number of a word of this layout, and its opcode. -/
theorem rdW_enc_op (b : Nat) (hb : b % 8388608 = 0) (hc : b < 4294967296) (o : OpW) :
    (BitVec.ofNat 32 (b + o.w.toNat * 4096)).toNat = (b + o.w.toNat * 4096) ∧ (b + o.w.toNat * 4096) / 8388608 % 512 = b / 8388608 := by
  have bw := o.w.isLt
  exact ⟨word_toNat (by omega), by omega⟩

/-- The number of a word of this layout, and its opcode. -/
theorem rdX_enc_op (b : Nat) (hb : b % 8388608 = 0) (hc : b < 4294967296) (o : OpX) :
    (BitVec.ofNat 32 (b + o.cls.toNat * 2097152 + o.d.toNat * 16384 + o.peer.toNat * 512 + o.a.toNat * 4 + o.ta.toNat * 2)).toNat = (b + o.cls.toNat * 2097152 + o.d.toNat * 16384 + o.peer.toNat * 512 + o.a.toNat * 4 + o.ta.toNat * 2) ∧ (b + o.cls.toNat * 2097152 + o.d.toNat * 16384 + o.peer.toNat * 512 + o.a.toNat * 4 + o.ta.toNat * 2) / 8388608 % 512 = b / 8388608 := by
  have bcls := o.cls.isLt
  have bd := o.d.isLt
  have bpeer := o.peer.isLt
  have ba := o.a.isLt
  have bta := Bool.toNat_le o.ta
  exact ⟨word_toNat (by omega), by omega⟩

/-- The number of a word of this layout, and its opcode. -/
theorem rdPeer_enc_op (b : Nat) (hb : b % 8388608 = 0) (hc : b < 4294967296) (o : OpPeer) :
    (BitVec.ofNat 32 (b + o.d.toNat * 16384 + o.peer.toNat * 512)).toNat = (b + o.d.toNat * 16384 + o.peer.toNat * 512) ∧ (b + o.d.toNat * 16384 + o.peer.toNat * 512) / 8388608 % 512 = b / 8388608 := by
  have bd := o.d.isLt
  have bpeer := o.peer.isLt
  exact ⟨word_toNat (by omega), by omega⟩

/-- The number of a word of this layout, and its opcode. -/
theorem rdAtom_enc_op (b : Nat) (hb : b % 8388608 = 0) (hc : b < 4294967296) (o : OpAtom) :
    (BitVec.ofNat 32 (b + o.ta.toNat * 4194304 + o.d.toNat * 32768 + o.w.toNat * 4096 + o.a.toNat * 32 + o.n.toNat)).toNat = (b + o.ta.toNat * 4194304 + o.d.toNat * 32768 + o.w.toNat * 4096 + o.a.toNat * 32 + o.n.toNat) ∧ (b + o.ta.toNat * 4194304 + o.d.toNat * 32768 + o.w.toNat * 4096 + o.a.toNat * 32 + o.n.toNat) / 8388608 % 512 = b / 8388608 := by
  have bta := Bool.toNat_le o.ta
  have bd := o.d.isLt
  have bw := o.w.isLt
  have ba := o.a.isLt
  have bn := o.n.isLt
  exact ⟨word_toNat (by omega), by omega⟩

/-- The number of a word of this layout, and its opcode. -/
theorem rdMw_enc_op (b : Nat) (hb : b % 8388608 = 0) (hc : b < 4294967296) (o : OpMw) :
    (BitVec.ofNat 32 (b + o.ta.toNat * 4194304 + o.d.toNat * 32768 + o.w.toNat * 4096 + o.a.toNat * 32)).toNat = (b + o.ta.toNat * 4194304 + o.d.toNat * 32768 + o.w.toNat * 4096 + o.a.toNat * 32) ∧ (b + o.ta.toNat * 4194304 + o.d.toNat * 32768 + o.w.toNat * 4096 + o.a.toNat * 32) / 8388608 % 512 = b / 8388608 := by
  have bta := Bool.toNat_le o.ta
  have bd := o.d.isLt
  have bw := o.w.isLt
  have ba := o.a.isLt
  exact ⟨word_toNat (by omega), by omega⟩

/-- The number of a word of this layout, and its opcode. -/
theorem rdAcq_enc_op (b : Nat) (hb : b % 8388608 = 0) (hc : b < 4294967296) (o : OpAcq) :
    (BitVec.ofNat 32 (b + o.ta.toNat * 4194304 + o.d.toNat * 32768 + o.w.toNat * 4096 + o.a.toNat * 32 + o.scope.toNat)).toNat = (b + o.ta.toNat * 4194304 + o.d.toNat * 32768 + o.w.toNat * 4096 + o.a.toNat * 32 + o.scope.toNat) ∧ (b + o.ta.toNat * 4194304 + o.d.toNat * 32768 + o.w.toNat * 4096 + o.a.toNat * 32 + o.scope.toNat) / 8388608 % 512 = b / 8388608 := by
  have bta := Bool.toNat_le o.ta
  have bd := o.d.isLt
  have bw := o.w.isLt
  have ba := o.a.isLt
  have bscope := o.scope.isLt
  exact ⟨word_toNat (by omega), by omega⟩

/-- The number of a word of this layout, and its opcode. -/
theorem rdF_enc_op (b : Nat) (hb : b % 8388608 = 0) (hc : b < 4294967296) (o : OpF) :
    (BitVec.ofNat 32 (b + o.kind.toNat * 1048576 + o.scope.toNat * 131072 + o.mask.toNat * 8192)).toNat = (b + o.kind.toNat * 1048576 + o.scope.toNat * 131072 + o.mask.toNat * 8192) ∧ (b + o.kind.toNat * 1048576 + o.scope.toNat * 131072 + o.mask.toNat * 8192) / 8388608 % 512 = b / 8388608 := by
  have bkind := o.kind.isLt
  have bscope := o.scope.isLt
  have bmask := o.mask.isLt
  exact ⟨word_toNat (by omega), by omega⟩

/-- The number of a word of this layout, and its opcode. -/
theorem rdN9_enc_op (b : Nat) (hb : b % 8388608 = 0) (hc : b < 4294967296) (o : OpN9) :
    (BitVec.ofNat 32 (b + o.n.toNat)).toNat = (b + o.n.toNat) ∧ (b + o.n.toNat) / 8388608 % 512 = b / 8388608 := by
  have bn := o.n.isLt
  exact ⟨word_toNat (by omega), by omega⟩

/-- The number of a word of this layout, and its opcode. -/
theorem rdS6_3_enc_op (b : Nat) (hb : b % 8388608 = 0) (hc : b < 4294967296) (o : OpS6) :
    (BitVec.ofNat 32 (b + o.s.toNat * 512)).toNat = (b + o.s.toNat * 512) ∧ (b + o.s.toNat * 512) / 8388608 % 512 = b / 8388608 := by
  have bs := o.s.isLt
  exact ⟨word_toNat (by omega), by omega⟩

/-- The number of a word of this layout, and its opcode. -/
theorem rdWait_enc_op (b : Nat) (hb : b % 8388608 = 0) (hc : b < 4294967296) (o : OpWait) :
    (BitVec.ofNat 32 (b + o.k.toNat * 32768 + o.n.toNat)).toNat = (b + o.k.toNat * 32768 + o.n.toNat) ∧ (b + o.k.toNat * 32768 + o.n.toNat) / 8388608 % 512 = b / 8388608 := by
  have bk := o.k.isLt
  have bn := o.n.isLt
  exact ⟨word_toNat (by omega), by omega⟩

/-- The number of a word of this layout, and its opcode. -/
theorem rdH_enc_op (b : Nat) (hb : b % 8388608 = 0) (hc : b < 4294967296) (o : OpH) :
    (BitVec.ofNat 32 (b + o.h.toNat * 65536)).toNat = (b + o.h.toNat * 65536) ∧ (b + o.h.toNat * 65536) / 8388608 % 512 = b / 8388608 := by
  have bh := o.h.isLt
  exact ⟨word_toNat (by omega), by omega⟩

/-- The number of a word of this layout, and its opcode. -/
theorem rdHD_enc_op (b : Nat) (hb : b % 8388608 = 0) (hc : b < 4294967296) (o : OpHD) :
    (BitVec.ofNat 32 (b + o.h.toNat * 65536 + o.d.toNat * 1024)).toNat = (b + o.h.toNat * 65536 + o.d.toNat * 1024) ∧ (b + o.h.toNat * 65536 + o.d.toNat * 1024) / 8388608 % 512 = b / 8388608 := by
  have bh := o.h.isLt
  have bd := o.d.isLt
  exact ⟨word_toNat (by omega), by omega⟩

/-- The number of a word of this layout, and its opcode. -/
theorem rdE_enc_op (b : Nat) (hb : b % 8388608 = 0) (hc : b < 4294967296) (o : OpE) :
    (BitVec.ofNat 32 (b + o.d.toNat * 1024 + o.k.toNat)).toNat = (b + o.d.toNat * 1024 + o.k.toNat) ∧ (b + o.d.toNat * 1024 + o.k.toNat) / 8388608 % 512 = b / 8388608 := by
  have bd := o.d.isLt
  have bk := o.k.isLt
  exact ⟨word_toNat (by omega), by omega⟩

/-- The number of a word of this layout, and its opcode. -/
theorem rdHE_enc_op (b : Nat) (hb : b % 8388608 = 0) (hc : b < 4294967296) (o : OpHE) :
    (BitVec.ofNat 32 (b + o.h.toNat * 65536 + o.d.toNat * 1024 + o.k.toNat)).toNat = (b + o.h.toNat * 65536 + o.d.toNat * 1024 + o.k.toNat) ∧ (b + o.h.toNat * 65536 + o.d.toNat * 1024 + o.k.toNat) / 8388608 % 512 = b / 8388608 := by
  have bh := o.h.isLt
  have bd := o.d.isLt
  have bk := o.k.isLt
  exact ⟨word_toNat (by omega), by omega⟩

/-- The number of a word of this layout, and its opcode. -/
theorem rdMloop_enc_op (b : Nat) (hb : b % 8388608 = 0) (hc : b < 4294967296) (o : OpMloop) :
    (BitVec.ofNat 32 (b + o.d.toNat * 1024 + o.f.toNat * 16 + o.k.toNat)).toNat = (b + o.d.toNat * 1024 + o.f.toNat * 16 + o.k.toNat) ∧ (b + o.d.toNat * 1024 + o.f.toNat * 16 + o.k.toNat) / 8388608 % 512 = b / 8388608 := by
  have bd := o.d.isLt
  have bf := o.f.isLt
  have bk := o.k.isLt
  exact ⟨word_toNat (by omega), by omega⟩

/-- The number of a word of this layout, and its opcode. -/
theorem rdAcc_enc_op (b : Nat) (hb : b % 8388608 = 0) (hc : b < 4294967296) (o : OpAcc) :
    (BitVec.ofNat 32 (b + o.n1.toNat * 524288 + o.b.toNat * 65536 + o.k.toNat)).toNat = (b + o.n1.toNat * 524288 + o.b.toNat * 65536 + o.k.toNat) ∧ (b + o.n1.toNat * 524288 + o.b.toNat * 65536 + o.k.toNat) / 8388608 % 512 = b / 8388608 := by
  have bn1 := o.n1.isLt
  have bb := o.b.isLt
  have bk := o.k.isLt
  exact ⟨word_toNat (by omega), by omega⟩

/-- The number of a word of this layout, and its opcode. -/
theorem rdAccD_enc_op (b : Nat) (hb : b % 8388608 = 0) (hc : b < 4294967296) (o : OpAccD) :
    (BitVec.ofNat 32 (b + o.n1.toNat * 524288 + o.b.toNat * 65536 + o.d.toNat * 1024 + o.k.toNat)).toNat = (b + o.n1.toNat * 524288 + o.b.toNat * 65536 + o.d.toNat * 1024 + o.k.toNat) ∧ (b + o.n1.toNat * 524288 + o.b.toNat * 65536 + o.d.toNat * 1024 + o.k.toNat) / 8388608 % 512 = b / 8388608 := by
  have bn1 := o.n1.isLt
  have bb := o.b.isLt
  have bd := o.d.isLt
  have bk := o.k.isLt
  exact ⟨word_toNat (by omega), by omega⟩

/-- The number of a word of this layout, and its opcode. -/
theorem rdEw_enc_op (b : Nat) (hb : b % 8388608 = 0) (hc : b < 4294967296) (o : OpEw) :
    (BitVec.ofNat 32 (b + o.n.toNat * 65536 + o.k.toNat)).toNat = (b + o.n.toNat * 65536 + o.k.toNat) ∧ (b + o.n.toNat * 65536 + o.k.toNat) / 8388608 % 512 = b / 8388608 := by
  have bn := o.n.isLt
  have bk := o.k.isLt
  exact ⟨word_toNat (by omega), by omega⟩

/-- The number of a word of this layout, and its opcode. -/
theorem rdPlb_enc_op (b : Nat) (hb : b % 8388608 = 0) (hc : b < 4294967296) (o : OpPlb) :
    (BitVec.ofNat 32 (b + o.k.toNat * 32768 + o.s.toNat * 512)).toNat = (b + o.k.toNat * 32768 + o.s.toNat * 512) ∧ (b + o.k.toNat * 32768 + o.s.toNat * 512) / 8388608 % 512 = b / 8388608 := by
  have bk := o.k.isLt
  have bs := o.s.isLt
  exact ⟨word_toNat (by omega), by omega⟩

theorem RoundTrip.add (o : Op3R) : RoundTrip.Statement (.add o) := by
  intro wf w h
  injection h with h
  subst h
  obtain ⟨e, hop⟩ := rd3R_enc_op 8388608 (by decide) (by decide) o
  unfold decode
  rw [e]
  have hr := rd3R_enc 8388608 (by decide) o
  simp [decodeNat, decodeScalar, hop, hr]

theorem RoundTrip.sub (o : Op3R) : RoundTrip.Statement (.sub o) := by
  intro wf w h
  injection h with h
  subst h
  obtain ⟨e, hop⟩ := rd3R_enc_op 16777216 (by decide) (by decide) o
  unfold decode
  rw [e]
  have hr := rd3R_enc 16777216 (by decide) o
  simp [decodeNat, decodeScalar, hop, hr]

theorem RoundTrip.mul (o : Op3R) : RoundTrip.Statement (.mul o) := by
  intro wf w h
  injection h with h
  subst h
  obtain ⟨e, hop⟩ := rd3R_enc_op 25165824 (by decide) (by decide) o
  unfold decode
  rw [e]
  have hr := rd3R_enc 25165824 (by decide) o
  simp [decodeNat, decodeScalar, hop, hr]

theorem RoundTrip.mulh (o : Op3R) : RoundTrip.Statement (.mulh o) := by
  intro wf w h
  injection h with h
  subst h
  obtain ⟨e, hop⟩ := rd3R_enc_op 33554432 (by decide) (by decide) o
  unfold decode
  rw [e]
  have hr := rd3R_enc 33554432 (by decide) o
  simp [decodeNat, decodeScalar, hop, hr]

theorem RoundTrip.mulhn (o : Op3R) : RoundTrip.Statement (.mulhn o) := by
  intro wf w h
  injection h with h
  subst h
  obtain ⟨e, hop⟩ := rd3R_enc_op 41943040 (by decide) (by decide) o
  unfold decode
  rw [e]
  have hr := rd3R_enc 41943040 (by decide) o
  simp [decodeNat, decodeScalar, hop, hr]

theorem RoundTrip.div (o : Op3R) : RoundTrip.Statement (.div o) := by
  intro wf w h
  injection h with h
  subst h
  obtain ⟨e, hop⟩ := rd3R_enc_op 50331648 (by decide) (by decide) o
  unfold decode
  rw [e]
  have hr := rd3R_enc 50331648 (by decide) o
  simp [decodeNat, decodeScalar, hop, hr]

theorem RoundTrip.divn (o : Op3R) : RoundTrip.Statement (.divn o) := by
  intro wf w h
  injection h with h
  subst h
  obtain ⟨e, hop⟩ := rd3R_enc_op 58720256 (by decide) (by decide) o
  unfold decode
  rw [e]
  have hr := rd3R_enc 58720256 (by decide) o
  simp [decodeNat, decodeScalar, hop, hr]

theorem RoundTrip.rem (o : Op3R) : RoundTrip.Statement (.rem o) := by
  intro wf w h
  injection h with h
  subst h
  obtain ⟨e, hop⟩ := rd3R_enc_op 67108864 (by decide) (by decide) o
  unfold decode
  rw [e]
  have hr := rd3R_enc 67108864 (by decide) o
  simp [decodeNat, decodeScalar, hop, hr]

theorem RoundTrip.remn (o : Op3R) : RoundTrip.Statement (.remn o) := by
  intro wf w h
  injection h with h
  subst h
  obtain ⟨e, hop⟩ := rd3R_enc_op 75497472 (by decide) (by decide) o
  unfold decode
  rw [e]
  have hr := rd3R_enc 75497472 (by decide) o
  simp [decodeNat, decodeScalar, hop, hr]

theorem RoundTrip.andS (o : Op3R) : RoundTrip.Statement (.andS o) := by
  intro wf w h
  injection h with h
  subst h
  obtain ⟨e, hop⟩ := rd3R_enc_op 83886080 (by decide) (by decide) o
  unfold decode
  rw [e]
  have hr := rd3R_enc 83886080 (by decide) o
  simp [decodeNat, decodeScalar, hop, hr]

theorem RoundTrip.orS (o : Op3R) : RoundTrip.Statement (.orS o) := by
  intro wf w h
  injection h with h
  subst h
  obtain ⟨e, hop⟩ := rd3R_enc_op 92274688 (by decide) (by decide) o
  unfold decode
  rw [e]
  have hr := rd3R_enc 92274688 (by decide) o
  simp [decodeNat, decodeScalar, hop, hr]

theorem RoundTrip.xorS (o : Op3R) : RoundTrip.Statement (.xorS o) := by
  intro wf w h
  injection h with h
  subst h
  obtain ⟨e, hop⟩ := rd3R_enc_op 100663296 (by decide) (by decide) o
  unfold decode
  rw [e]
  have hr := rd3R_enc 100663296 (by decide) o
  simp [decodeNat, decodeScalar, hop, hr]

theorem RoundTrip.shl (o : Op3R) : RoundTrip.Statement (.shl o) := by
  intro wf w h
  injection h with h
  subst h
  obtain ⟨e, hop⟩ := rd3R_enc_op 109051904 (by decide) (by decide) o
  unfold decode
  rw [e]
  have hr := rd3R_enc 109051904 (by decide) o
  simp [decodeNat, decodeScalar, hop, hr]

theorem RoundTrip.shr (o : Op3R) : RoundTrip.Statement (.shr o) := by
  intro wf w h
  injection h with h
  subst h
  obtain ⟨e, hop⟩ := rd3R_enc_op 117440512 (by decide) (by decide) o
  unfold decode
  rw [e]
  have hr := rd3R_enc 117440512 (by decide) o
  simp [decodeNat, decodeScalar, hop, hr]

theorem RoundTrip.sra (o : Op3R) : RoundTrip.Statement (.sra o) := by
  intro wf w h
  injection h with h
  subst h
  obtain ⟨e, hop⟩ := rd3R_enc_op 125829120 (by decide) (by decide) o
  unfold decode
  rw [e]
  have hr := rd3R_enc 125829120 (by decide) o
  simp [decodeNat, decodeScalar, hop, hr]

theorem RoundTrip.minS (o : Op3R) : RoundTrip.Statement (.minS o) := by
  intro wf w h
  injection h with h
  subst h
  obtain ⟨e, hop⟩ := rd3R_enc_op 134217728 (by decide) (by decide) o
  unfold decode
  rw [e]
  have hr := rd3R_enc 134217728 (by decide) o
  simp [decodeNat, decodeScalar, hop, hr]

theorem RoundTrip.maxS (o : Op3R) : RoundTrip.Statement (.maxS o) := by
  intro wf w h
  injection h with h
  subst h
  obtain ⟨e, hop⟩ := rd3R_enc_op 142606336 (by decide) (by decide) o
  unfold decode
  rw [e]
  have hr := rd3R_enc 142606336 (by decide) o
  simp [decodeNat, decodeScalar, hop, hr]

theorem RoundTrip.minn (o : Op3R) : RoundTrip.Statement (.minn o) := by
  intro wf w h
  injection h with h
  subst h
  obtain ⟨e, hop⟩ := rd3R_enc_op 150994944 (by decide) (by decide) o
  unfold decode
  rw [e]
  have hr := rd3R_enc 150994944 (by decide) o
  simp [decodeNat, decodeScalar, hop, hr]

theorem RoundTrip.maxn (o : Op3R) : RoundTrip.Statement (.maxn o) := by
  intro wf w h
  injection h with h
  subst h
  obtain ⟨e, hop⟩ := rd3R_enc_op 159383552 (by decide) (by decide) o
  unfold decode
  rw [e]
  have hr := rd3R_enc 159383552 (by decide) o
  simp [decodeNat, decodeScalar, hop, hr]

theorem RoundTrip.slt (o : Op3R) : RoundTrip.Statement (.slt o) := by
  intro wf w h
  injection h with h
  subst h
  obtain ⟨e, hop⟩ := rd3R_enc_op 167772160 (by decide) (by decide) o
  unfold decode
  rw [e]
  have hr := rd3R_enc 167772160 (by decide) o
  simp [decodeNat, decodeScalar, hop, hr]

theorem RoundTrip.sltn (o : Op3R) : RoundTrip.Statement (.sltn o) := by
  intro wf w h
  injection h with h
  subst h
  obtain ⟨e, hop⟩ := rd3R_enc_op 176160768 (by decide) (by decide) o
  unfold decode
  rw [e]
  have hr := rd3R_enc 176160768 (by decide) o
  simp [decodeNat, decodeScalar, hop, hr]

theorem RoundTrip.seq (o : Op3R) : RoundTrip.Statement (.seq o) := by
  intro wf w h
  injection h with h
  subst h
  obtain ⟨e, hop⟩ := rd3R_enc_op 184549376 (by decide) (by decide) o
  unfold decode
  rw [e]
  have hr := rd3R_enc 184549376 (by decide) o
  simp [decodeNat, decodeScalar, hop, hr]

theorem RoundTrip.sel (o : Op3R) : RoundTrip.Statement (.sel o) := by
  intro wf w h
  injection h with h
  subst h
  obtain ⟨e, hop⟩ := rd3R_enc_op 192937984 (by decide) (by decide) o
  unfold decode
  rw [e]
  have hr := rd3R_enc 192937984 (by decide) o
  simp [decodeNat, decodeScalar, hop, hr]

theorem RoundTrip.clz (o : Op3A) : RoundTrip.Statement (.clz o) := by
  intro wf w h
  injection h with h
  subst h
  have bta := Bool.toNat_le o.ta
  have bd := o.d.isLt
  have ba := o.a.isLt
  obtain ⟨e, hop⟩ := rd3A_enc_op 201326592 (by decide) (by decide) o
  unfold decode
  rw [e]
  have hr := rd3A_enc 201326592 (by decide) o
  generalize hu : (201326592 + o.ta.toNat * 4194304 + o.d.toNat * 16384 + o.a.toNat * 128) = u at *
  have c0 : u % 128 = 0 := by omega
  have c1 : u / 2097152 % 2 = 0 := by omega
  simp [decodeNat, decodeScalar, hop, c0, c1, hr]

theorem RoundTrip.ctz (o : Op3A) : RoundTrip.Statement (.ctz o) := by
  intro wf w h
  injection h with h
  subst h
  have bta := Bool.toNat_le o.ta
  have bd := o.d.isLt
  have ba := o.a.isLt
  obtain ⟨e, hop⟩ := rd3A_enc_op 209715200 (by decide) (by decide) o
  unfold decode
  rw [e]
  have hr := rd3A_enc 209715200 (by decide) o
  generalize hu : (209715200 + o.ta.toNat * 4194304 + o.d.toNat * 16384 + o.a.toNat * 128) = u at *
  have c0 : u % 128 = 0 := by omega
  have c1 : u / 2097152 % 2 = 0 := by omega
  simp [decodeNat, decodeScalar, hop, c0, c1, hr]

theorem RoundTrip.pop (o : Op3A) : RoundTrip.Statement (.pop o) := by
  intro wf w h
  injection h with h
  subst h
  have bta := Bool.toNat_le o.ta
  have bd := o.d.isLt
  have ba := o.a.isLt
  obtain ⟨e, hop⟩ := rd3A_enc_op 218103808 (by decide) (by decide) o
  unfold decode
  rw [e]
  have hr := rd3A_enc 218103808 (by decide) o
  generalize hu : (218103808 + o.ta.toNat * 4194304 + o.d.toNat * 16384 + o.a.toNat * 128) = u at *
  have c0 : u % 128 = 0 := by omega
  have c1 : u / 2097152 % 2 = 0 := by omega
  simp [decodeNat, decodeScalar, hop, c0, c1, hr]

theorem RoundTrip.lea (o : Op3R) : RoundTrip.Statement (.lea o) := by
  intro wf w h
  injection h with h
  subst h
  obtain ⟨e, hop⟩ := rd3R_enc_op 226492416 (by decide) (by decide) o
  unfold decode
  rw [e]
  have hr := rd3R_enc 226492416 (by decide) o
  simp [decodeNat, decodeScalar, hop, hr]

theorem RoundTrip.addi (o : Op2I) : RoundTrip.Statement (.addi o) := by
  intro wf w h
  injection h with h
  subst h
  obtain ⟨e, hop⟩ := rd2I_enc_op 268435456 (by decide) (by decide) o
  unfold decode
  rw [e]
  have hr := rd2I_enc 268435456 (by decide) o
  simp [decodeNat, decodeScalar, hop, hr]

theorem RoundTrip.andi (o : Op2I) : RoundTrip.Statement (.andi o) := by
  intro wf w h
  injection h with h
  subst h
  obtain ⟨e, hop⟩ := rd2I_enc_op 276824064 (by decide) (by decide) o
  unfold decode
  rw [e]
  have hr := rd2I_enc 276824064 (by decide) o
  simp [decodeNat, decodeScalar, hop, hr]

theorem RoundTrip.ori (o : Op2I) : RoundTrip.Statement (.ori o) := by
  intro wf w h
  injection h with h
  subst h
  obtain ⟨e, hop⟩ := rd2I_enc_op 285212672 (by decide) (by decide) o
  unfold decode
  rw [e]
  have hr := rd2I_enc 285212672 (by decide) o
  simp [decodeNat, decodeScalar, hop, hr]

theorem RoundTrip.xori (o : Op2I) : RoundTrip.Statement (.xori o) := by
  intro wf w h
  injection h with h
  subst h
  obtain ⟨e, hop⟩ := rd2I_enc_op 293601280 (by decide) (by decide) o
  unfold decode
  rw [e]
  have hr := rd2I_enc 293601280 (by decide) o
  simp [decodeNat, decodeScalar, hop, hr]

theorem RoundTrip.shli (o : Op2S) : RoundTrip.Statement (.shli o) := by
  intro wf w h
  injection h with h
  subst h
  have bta := Bool.toNat_le o.ta
  have bd := o.d.isLt
  have ba := o.a.isLt
  have bimm := o.imm.isLt
  obtain ⟨e, hop⟩ := rd2S_enc_op 301989888 (by decide) (by decide) o
  unfold decode
  rw [e]
  have hr := rd2S_enc 301989888 (by decide) o
  generalize hu : (301989888 + o.ta.toNat * 4194304 + o.d.toNat * 32768 + o.a.toNat * 256 + o.imm.toNat) = u at *
  have c0 : u / 64 % 4 = 0 := by omega
  simp [decodeNat, decodeScalar, hop, c0, hr]

theorem RoundTrip.shri (o : Op2S) : RoundTrip.Statement (.shri o) := by
  intro wf w h
  injection h with h
  subst h
  have bta := Bool.toNat_le o.ta
  have bd := o.d.isLt
  have ba := o.a.isLt
  have bimm := o.imm.isLt
  obtain ⟨e, hop⟩ := rd2S_enc_op 310378496 (by decide) (by decide) o
  unfold decode
  rw [e]
  have hr := rd2S_enc 310378496 (by decide) o
  generalize hu : (310378496 + o.ta.toNat * 4194304 + o.d.toNat * 32768 + o.a.toNat * 256 + o.imm.toNat) = u at *
  have c0 : u / 64 % 4 = 0 := by omega
  simp [decodeNat, decodeScalar, hop, c0, hr]

theorem RoundTrip.srai (o : Op2S) : RoundTrip.Statement (.srai o) := by
  intro wf w h
  injection h with h
  subst h
  have bta := Bool.toNat_le o.ta
  have bd := o.d.isLt
  have ba := o.a.isLt
  have bimm := o.imm.isLt
  obtain ⟨e, hop⟩ := rd2S_enc_op 318767104 (by decide) (by decide) o
  unfold decode
  rw [e]
  have hr := rd2S_enc 318767104 (by decide) o
  generalize hu : (318767104 + o.ta.toNat * 4194304 + o.d.toNat * 32768 + o.a.toNat * 256 + o.imm.toNat) = u at *
  have c0 : u / 64 % 4 = 0 := by omega
  simp [decodeNat, decodeScalar, hop, c0, hr]

theorem RoundTrip.movi (o : OpRI) : RoundTrip.Statement (.movi o) := by
  intro wf w h
  injection h with h
  subst h
  obtain ⟨e, hop⟩ := rdRI_enc_op 335544320 (by decide) (by decide) o
  unfold decode
  rw [e]
  have hr := rdRI_enc 335544320 (by decide) o
  simp [decodeNat, decodeScalar, hop, hr]

theorem RoundTrip.movh (o : OpRI) : RoundTrip.Statement (.movh o) := by
  intro wf w h
  injection h with h
  subst h
  obtain ⟨e, hop⟩ := rdRI_enc_op 343932928 (by decide) (by decide) o
  unfold decode
  rw [e]
  have hr := rdRI_enc 343932928 (by decide) o
  simp [decodeNat, decodeScalar, hop, hr]

theorem RoundTrip.jmp (o : OpB) : RoundTrip.Statement (.jmp o) := by
  intro wf w h
  injection h with h
  subst h
  obtain ⟨e, hop⟩ := rdB_enc_op 536870912 (by decide) (by decide) o
  unfold decode
  rw [e]
  have hr := rdB_enc 536870912 (by decide) o
  simp [decodeNat, decodeControl, hop, hr]

theorem RoundTrip.jal (o : OpB) : RoundTrip.Statement (.jal o) := by
  intro wf w h
  injection h with h
  subst h
  obtain ⟨e, hop⟩ := rdB_enc_op 545259520 (by decide) (by decide) o
  unfold decode
  rw [e]
  have hr := rdB_enc 545259520 (by decide) o
  simp [decodeNat, decodeControl, hop, hr]

theorem RoundTrip.jr (o : Op2I) : RoundTrip.Statement (.jr o) := by
  intro wf w h
  injection h with h
  subst h
  obtain ⟨e, hop⟩ := rd2I_enc_op 553648128 (by decide) (by decide) o
  unfold decode
  rw [e]
  have hr := rd2I_enc 553648128 (by decide) o
  simp [decodeNat, decodeControl, hop, hr]

theorem RoundTrip.call (o : OpB) : RoundTrip.Statement (.call o) := by
  intro wf w h
  injection h with h
  subst h
  obtain ⟨e, hop⟩ := rdB_enc_op 562036736 (by decide) (by decide) o
  unfold decode
  rw [e]
  have hr := rdB_enc 562036736 (by decide) o
  simp [decodeNat, decodeControl, hop, hr]

theorem RoundTrip.ret : RoundTrip.Statement .ret := by
  intro _ w h
  injection h with h
  subst h
  decide

theorem RoundTrip.retVa (o : OpV) : RoundTrip.Statement (.retVa o) := by
  intro wf w h
  injection h with h
  subst h
  have ba := o.a.isLt
  have e : BitVec.toNat (BitVec.ofNat 32 (570458112 + o.a.toNat)) = (570458112 + o.a.toNat) := word_toNat (by omega)
  unfold decode
  rw [e]
  have hr : rdV (570458112 + o.a.toNat) = o := by
    obtain ⟨a⟩ := o
    simp only [rdV, OpV.mk.injEq]
    simp only at *
    exact field_of_bits _ _ (by omega)
  generalize hu : (570458112 + o.a.toNat) = u at *
  have hop : u / 8388608 % 512 = 68 := by omega
  have c0 : ¬ u % 8388608 = 0 := by omega
  have c1 : u / 128 % 65536 = 256 := by omega
  simp [decodeNat, decodeControl, hop, c0, c1, hr]

theorem RoundTrip.bz (o : OpBC) : RoundTrip.Statement (.bz o) := by
  intro wf w h
  injection h with h
  subst h
  obtain ⟨e, hop⟩ := rdBC_enc_op 578813952 (by decide) (by decide) o
  unfold decode
  rw [e]
  have hr := rdBC_enc 578813952 (by decide) o
  simp [decodeNat, decodeControl, hop, hr]

theorem RoundTrip.bnz (o : OpBC) : RoundTrip.Statement (.bnz o) := by
  intro wf w h
  injection h with h
  subst h
  obtain ⟨e, hop⟩ := rdBC_enc_op 587202560 (by decide) (by decide) o
  unfold decode
  rw [e]
  have hr := rdBC_enc 587202560 (by decide) o
  simp [decodeNat, decodeControl, hop, hr]

theorem RoundTrip.bany (o : OpBC) : RoundTrip.Statement (.bany o) := by
  intro wf w h
  injection h with h
  subst h
  obtain ⟨e, hop⟩ := rdBC_enc_op 595591168 (by decide) (by decide) o
  unfold decode
  rw [e]
  have hr := rdBC_enc 595591168 (by decide) o
  simp [decodeNat, decodeControl, hop, hr]

theorem RoundTrip.ball (o : OpBC) : RoundTrip.Statement (.ball o) := by
  intro wf w h
  injection h with h
  subst h
  obtain ⟨e, hop⟩ := rdBC_enc_op 603979776 (by decide) (by decide) o
  unfold decode
  rw [e]
  have hr := rdBC_enc 603979776 (by decide) o
  simp [decodeNat, decodeControl, hop, hr]

theorem RoundTrip.vbr (o : OpBC) : RoundTrip.Statement (.vbr o) := by
  intro wf w h
  injection h with h
  subst h
  obtain ⟨e, hop⟩ := rdBC_enc_op 612368384 (by decide) (by decide) o
  unfold decode
  rw [e]
  have hr := rdBC_enc 612368384 (by decide) o
  simp [decodeNat, decodeControl, hop, hr]

theorem RoundTrip.loopLc0 (o : OpBC) : RoundTrip.Statement (.loopLc0 o) := by
  intro wf w h
  injection h with h
  subst h
  have bs := o.s.isLt
  have boff := o.off.isLt
  simp [wellFormed] at wf
  obtain ⟨e, hop⟩ := rdBC_enc_op 620756992 (by decide) (by decide) o
  unfold decode
  rw [e]
  have hr := rdBC_enc 620756992 (by decide) o
  generalize hu : (620756992 + o.s.toNat * 131072 + o.off.toNat) = u at *
  have c0 : ¬ u % 131072 = 0 := by omega
  have c1 : ¬ u % 131072 = 131071 := by omega
  simp [decodeNat, decodeControl, hop, c0, c1, hr]

theorem RoundTrip.loopLc1 (o : OpBC) : RoundTrip.Statement (.loopLc1 o) := by
  intro wf w h
  injection h with h
  subst h
  have bs := o.s.isLt
  have boff := o.off.isLt
  simp [wellFormed] at wf
  obtain ⟨e, hop⟩ := rdBC_enc_op 629145600 (by decide) (by decide) o
  unfold decode
  rw [e]
  have hr := rdBC_enc 629145600 (by decide) o
  generalize hu : (629145600 + o.s.toNat * 131072 + o.off.toNat) = u at *
  have c0 : ¬ u % 131072 = 0 := by omega
  have c1 : ¬ u % 131072 = 131071 := by omega
  simp [decodeNat, decodeControl, hop, c0, c1, hr]

theorem RoundTrip.loopSetLc0 (o : OpS6) : RoundTrip.Statement (.loopSetLc0 o) := by
  intro wf w h
  injection h with h
  subst h
  have bs := o.s.isLt
  obtain ⟨e, hop⟩ := rdS6_enc_op 620756992 (by decide) (by decide) o
  unfold decode
  rw [e]
  have hr := rdS6_enc 620756992 (by decide) o
  generalize hu : (620756992 + o.s.toNat * 131072) = u at *
  have c0 : u % 131072 = 0 := by omega
  simp [decodeNat, decodeControl, hop, c0, hr]

theorem RoundTrip.loopSetLc1 (o : OpS6) : RoundTrip.Statement (.loopSetLc1 o) := by
  intro wf w h
  injection h with h
  subst h
  have bs := o.s.isLt
  obtain ⟨e, hop⟩ := rdS6_enc_op 629145600 (by decide) (by decide) o
  unfold decode
  rw [e]
  have hr := rdS6_enc 629145600 (by decide) o
  generalize hu : (629145600 + o.s.toNat * 131072) = u at *
  have c0 : u % 131072 = 0 := by omega
  simp [decodeNat, decodeControl, hop, c0, hr]

theorem RoundTrip.loopGetLc0 (o : OpS6) : RoundTrip.Statement (.loopGetLc0 o) := by
  intro wf w h
  injection h with h
  subst h
  have bs := o.s.isLt
  have e : BitVec.toNat (BitVec.ofNat 32 (620888063 + o.s.toNat * 131072)) = (620888063 + o.s.toNat * 131072) := word_toNat (by omega)
  unfold decode
  rw [e]
  have hr : rdS6 (620888063 + o.s.toNat * 131072) = o := by
    obtain ⟨s⟩ := o
    simp only [rdS6, OpS6.mk.injEq]
    simp only at *
    exact field_of_bits _ _ (by omega)
  generalize hu : (620888063 + o.s.toNat * 131072) = u at *
  have hop : u / 8388608 % 512 = 74 := by omega
  have c0 : u % 131072 = 131071 := by omega
  simp [decodeNat, decodeControl, hop, c0, hr]

theorem RoundTrip.loopGetLc1 (o : OpS6) : RoundTrip.Statement (.loopGetLc1 o) := by
  intro wf w h
  injection h with h
  subst h
  have bs := o.s.isLt
  have e : BitVec.toNat (BitVec.ofNat 32 (629276671 + o.s.toNat * 131072)) = (629276671 + o.s.toNat * 131072) := word_toNat (by omega)
  unfold decode
  rw [e]
  have hr : rdS6 (629276671 + o.s.toNat * 131072) = o := by
    obtain ⟨s⟩ := o
    simp only [rdS6, OpS6.mk.injEq]
    simp only at *
    exact field_of_bits _ _ (by omega)
  generalize hu : (629276671 + o.s.toNat * 131072) = u at *
  have hop : u / 8388608 % 512 = 75 := by omega
  have c0 : u % 131072 = 131071 := by omega
  simp [decodeNat, decodeControl, hop, c0, hr]

theorem RoundTrip.region : RoundTrip.Statement .region := by
  intro _ w h
  injection h with h
  subst h
  decide

theorem RoundTrip.yield : RoundTrip.Statement .yield := by
  intro _ w h
  injection h with h
  subst h
  decide

theorem RoundTrip.nop : RoundTrip.Statement .nop := by
  intro _ w h
  injection h with h
  subst h
  decide

theorem RoundTrip.halt : RoundTrip.Statement .halt := by
  intro _ w h
  injection h with h
  subst h
  decide

theorem RoundTrip.modeT (o : OpT4) : RoundTrip.Statement (.modeT o) := by
  intro wf w h
  injection h with h
  subst h
  have bt := o.t.isLt
  obtain ⟨e, hop⟩ := rdT4_enc_op 671088640 (by decide) (by decide) o
  unfold decode
  rw [e]
  have hr := rdT4_enc 671088640 (by decide) o
  generalize hu : (671088640 + o.t.toNat) = u at *
  have c0 : u / 16 % 524288 = 0 := by omega
  simp [decodeNat, decodeControl, hop, c0, hr]

theorem RoundTrip.modeG (o : OpG6) : RoundTrip.Statement (.modeG o) := by
  intro wf w h
  injection h with h
  subst h
  have bg := o.g.isLt
  obtain ⟨e, hop⟩ := rdG6_enc_op 679477248 (by decide) (by decide) o
  unfold decode
  rw [e]
  have hr := rdG6_enc 679477248 (by decide) o
  generalize hu : (679477248 + o.g.toNat) = u at *
  have c0 : u / 64 % 131072 = 0 := by omega
  simp [decodeNat, decodeControl, hop, c0, hr]

theorem RoundTrip.modeRm (o : OpRM) : RoundTrip.Statement (.modeRm o) := by
  intro wf w h
  injection h with h
  subst h
  have bz := Bool.toNat_le o.z
  have br := o.r.isLt
  obtain ⟨e, hop⟩ := rdRM_enc_op 687865856 (by decide) (by decide) o
  unfold decode
  rw [e]
  have hr := rdRM_enc 687865856 (by decide) o
  generalize hu : (687865856 + o.z.toNat * 4 + o.r.toNat) = u at *
  have c0 : u / 8 % 1048576 = 0 := by omega
  simp [decodeNat, decodeControl, hop, c0, hr]

theorem RoundTrip.modeCv (o : OpCV) : RoundTrip.Statement (.modeCv o) := by
  intro wf w h
  injection h with h
  subst h
  have bk := o.k.isLt
  have bc := o.c.isLt
  obtain ⟨e, hop⟩ := rdCV_enc_op 696254464 (by decide) (by decide) o
  unfold decode
  rw [e]
  have hr := rdCV_enc 696254464 (by decide) o
  generalize hu : (696254464 + o.k.toNat * 524288 + o.c.toNat) = u at *
  have c0 : u / 8 % 65536 = 0 := by omega
  simp [decodeNat, decodeControl, hop, c0, hr]

theorem RoundTrip.modeLd (o : OpS6) : RoundTrip.Statement (.modeLd o) := by
  intro wf w h
  injection h with h
  subst h
  have bs := o.s.isLt
  obtain ⟨e, hop⟩ := rdS6_2_enc_op 704643072 (by decide) (by decide) o
  unfold decode
  rw [e]
  have hr := rdS6_2_enc 704643072 (by decide) o
  generalize hu : (704643072 + o.s.toNat) = u at *
  have c0 : u / 64 % 131072 = 0 := by omega
  simp [decodeNat, decodeControl, hop, c0, hr]

theorem RoundTrip.modeSt (o : OpS6) : RoundTrip.Statement (.modeSt o) := by
  intro wf w h
  injection h with h
  subst h
  have bs := o.s.isLt
  obtain ⟨e, hop⟩ := rdS6_2_enc_op 713031680 (by decide) (by decide) o
  unfold decode
  rw [e]
  have hr := rdS6_2_enc 713031680 (by decide) o
  generalize hu : (713031680 + o.s.toNat) = u at *
  have c0 : u / 64 % 131072 = 0 := by omega
  simp [decodeNat, decodeControl, hop, c0, hr]

theorem RoundTrip.rdsp (o : OpSN) : RoundTrip.Statement (.rdsp o) := by
  intro wf w h
  injection h with h
  subst h
  have bs := o.s.isLt
  have bn := o.n.isLt
  obtain ⟨e, hop⟩ := rdSN_enc_op 721420288 (by decide) (by decide) o
  unfold decode
  rw [e]
  have hr := rdSN_enc 721420288 (by decide) o
  generalize hu : (721420288 + o.s.toNat * 512 + o.n.toNat) = u at *
  have c0 : u / 32768 % 256 = 0 := by omega
  simp [decodeNat, decodeControl, hop, c0, hr]

theorem RoundTrip.vadd (o : Op3R) : RoundTrip.Statement (.vadd o) := by
  intro wf w h
  injection h with h
  subst h
  obtain ⟨e, hop⟩ := rd3R_enc_op 1073741824 (by decide) (by decide) o
  unfold decode
  rw [e]
  have hr := rd3R_enc 1073741824 (by decide) o
  simp [decodeNat, decodeVectorInt, hop, hr]

theorem RoundTrip.vsub (o : Op3R) : RoundTrip.Statement (.vsub o) := by
  intro wf w h
  injection h with h
  subst h
  obtain ⟨e, hop⟩ := rd3R_enc_op 1082130432 (by decide) (by decide) o
  unfold decode
  rw [e]
  have hr := rd3R_enc 1082130432 (by decide) o
  simp [decodeNat, decodeVectorInt, hop, hr]

theorem RoundTrip.vmul (o : Op3R) : RoundTrip.Statement (.vmul o) := by
  intro wf w h
  injection h with h
  subst h
  obtain ⟨e, hop⟩ := rd3R_enc_op 1090519040 (by decide) (by decide) o
  unfold decode
  rw [e]
  have hr := rd3R_enc 1090519040 (by decide) o
  simp [decodeNat, decodeVectorInt, hop, hr]

theorem RoundTrip.vmulh (o : Op3R) : RoundTrip.Statement (.vmulh o) := by
  intro wf w h
  injection h with h
  subst h
  obtain ⟨e, hop⟩ := rd3R_enc_op 1098907648 (by decide) (by decide) o
  unfold decode
  rw [e]
  have hr := rd3R_enc 1098907648 (by decide) o
  simp [decodeNat, decodeVectorInt, hop, hr]

theorem RoundTrip.vmad (o : Op3R) : RoundTrip.Statement (.vmad o) := by
  intro wf w h
  injection h with h
  subst h
  obtain ⟨e, hop⟩ := rd3R_enc_op 1107296256 (by decide) (by decide) o
  unfold decode
  rw [e]
  have hr := rd3R_enc 1107296256 (by decide) o
  simp [decodeNat, decodeVectorInt, hop, hr]

theorem RoundTrip.vand (o : Op3R) : RoundTrip.Statement (.vand o) := by
  intro wf w h
  injection h with h
  subst h
  obtain ⟨e, hop⟩ := rd3R_enc_op 1115684864 (by decide) (by decide) o
  unfold decode
  rw [e]
  have hr := rd3R_enc 1115684864 (by decide) o
  simp [decodeNat, decodeVectorInt, hop, hr]

theorem RoundTrip.vor (o : Op3R) : RoundTrip.Statement (.vor o) := by
  intro wf w h
  injection h with h
  subst h
  obtain ⟨e, hop⟩ := rd3R_enc_op 1124073472 (by decide) (by decide) o
  unfold decode
  rw [e]
  have hr := rd3R_enc 1124073472 (by decide) o
  simp [decodeNat, decodeVectorInt, hop, hr]

theorem RoundTrip.vxor (o : Op3R) : RoundTrip.Statement (.vxor o) := by
  intro wf w h
  injection h with h
  subst h
  obtain ⟨e, hop⟩ := rd3R_enc_op 1132462080 (by decide) (by decide) o
  unfold decode
  rw [e]
  have hr := rd3R_enc 1132462080 (by decide) o
  simp [decodeNat, decodeVectorInt, hop, hr]

theorem RoundTrip.vnot (o : Op3A) : RoundTrip.Statement (.vnot o) := by
  intro wf w h
  injection h with h
  subst h
  have bta := Bool.toNat_le o.ta
  have bd := o.d.isLt
  have ba := o.a.isLt
  obtain ⟨e, hop⟩ := rd3A_enc_op 1140850688 (by decide) (by decide) o
  unfold decode
  rw [e]
  have hr := rd3A_enc 1140850688 (by decide) o
  generalize hu : (1140850688 + o.ta.toNat * 4194304 + o.d.toNat * 16384 + o.a.toNat * 128) = u at *
  have c0 : u % 128 = 0 := by omega
  have c1 : u / 2097152 % 2 = 0 := by omega
  simp [decodeNat, decodeVectorInt, hop, c0, c1, hr]

theorem RoundTrip.vshl (o : Op3R) : RoundTrip.Statement (.vshl o) := by
  intro wf w h
  injection h with h
  subst h
  obtain ⟨e, hop⟩ := rd3R_enc_op 1149239296 (by decide) (by decide) o
  unfold decode
  rw [e]
  have hr := rd3R_enc 1149239296 (by decide) o
  simp [decodeNat, decodeVectorInt, hop, hr]

theorem RoundTrip.vshr (o : Op3R) : RoundTrip.Statement (.vshr o) := by
  intro wf w h
  injection h with h
  subst h
  obtain ⟨e, hop⟩ := rd3R_enc_op 1157627904 (by decide) (by decide) o
  unfold decode
  rw [e]
  have hr := rd3R_enc 1157627904 (by decide) o
  simp [decodeNat, decodeVectorInt, hop, hr]

theorem RoundTrip.vsra (o : Op3R) : RoundTrip.Statement (.vsra o) := by
  intro wf w h
  injection h with h
  subst h
  obtain ⟨e, hop⟩ := rd3R_enc_op 1166016512 (by decide) (by decide) o
  unfold decode
  rw [e]
  have hr := rd3R_enc 1166016512 (by decide) o
  simp [decodeNat, decodeVectorInt, hop, hr]

theorem RoundTrip.vmin (o : Op3R) : RoundTrip.Statement (.vmin o) := by
  intro wf w h
  injection h with h
  subst h
  obtain ⟨e, hop⟩ := rd3R_enc_op 1174405120 (by decide) (by decide) o
  unfold decode
  rw [e]
  have hr := rd3R_enc 1174405120 (by decide) o
  simp [decodeNat, decodeVectorInt, hop, hr]

theorem RoundTrip.vmax (o : Op3R) : RoundTrip.Statement (.vmax o) := by
  intro wf w h
  injection h with h
  subst h
  obtain ⟨e, hop⟩ := rd3R_enc_op 1182793728 (by decide) (by decide) o
  unfold decode
  rw [e]
  have hr := rd3R_enc 1182793728 (by decide) o
  simp [decodeNat, decodeVectorInt, hop, hr]

theorem RoundTrip.vabs (o : Op3A) : RoundTrip.Statement (.vabs o) := by
  intro wf w h
  injection h with h
  subst h
  have bta := Bool.toNat_le o.ta
  have bd := o.d.isLt
  have ba := o.a.isLt
  obtain ⟨e, hop⟩ := rd3A_enc_op 1191182336 (by decide) (by decide) o
  unfold decode
  rw [e]
  have hr := rd3A_enc 1191182336 (by decide) o
  generalize hu : (1191182336 + o.ta.toNat * 4194304 + o.d.toNat * 16384 + o.a.toNat * 128) = u at *
  have c0 : u % 128 = 0 := by omega
  have c1 : u / 2097152 % 2 = 0 := by omega
  simp [decodeNat, decodeVectorInt, hop, c0, c1, hr]

theorem RoundTrip.vneg (o : Op3A) : RoundTrip.Statement (.vneg o) := by
  intro wf w h
  injection h with h
  subst h
  have bta := Bool.toNat_le o.ta
  have bd := o.d.isLt
  have ba := o.a.isLt
  obtain ⟨e, hop⟩ := rd3A_enc_op 1199570944 (by decide) (by decide) o
  unfold decode
  rw [e]
  have hr := rd3A_enc 1199570944 (by decide) o
  generalize hu : (1199570944 + o.ta.toNat * 4194304 + o.d.toNat * 16384 + o.a.toNat * 128) = u at *
  have c0 : u % 128 = 0 := by omega
  have c1 : u / 2097152 % 2 = 0 := by omega
  simp [decodeNat, decodeVectorInt, hop, c0, c1, hr]

theorem RoundTrip.vclz (o : Op3A) : RoundTrip.Statement (.vclz o) := by
  intro wf w h
  injection h with h
  subst h
  have bta := Bool.toNat_le o.ta
  have bd := o.d.isLt
  have ba := o.a.isLt
  obtain ⟨e, hop⟩ := rd3A_enc_op 1207959552 (by decide) (by decide) o
  unfold decode
  rw [e]
  have hr := rd3A_enc 1207959552 (by decide) o
  generalize hu : (1207959552 + o.ta.toNat * 4194304 + o.d.toNat * 16384 + o.a.toNat * 128) = u at *
  have c0 : u % 128 = 0 := by omega
  have c1 : u / 2097152 % 2 = 0 := by omega
  simp [decodeNat, decodeVectorInt, hop, c0, c1, hr]

theorem RoundTrip.vpop (o : Op3A) : RoundTrip.Statement (.vpop o) := by
  intro wf w h
  injection h with h
  subst h
  have bta := Bool.toNat_le o.ta
  have bd := o.d.isLt
  have ba := o.a.isLt
  obtain ⟨e, hop⟩ := rd3A_enc_op 1216348160 (by decide) (by decide) o
  unfold decode
  rw [e]
  have hr := rd3A_enc 1216348160 (by decide) o
  generalize hu : (1216348160 + o.ta.toNat * 4194304 + o.d.toNat * 16384 + o.a.toNat * 128) = u at *
  have c0 : u % 128 = 0 := by omega
  have c1 : u / 2097152 % 2 = 0 := by omega
  simp [decodeNat, decodeVectorInt, hop, c0, c1, hr]

theorem RoundTrip.vcmp (o : Op3R) : RoundTrip.Statement (.vcmp o) := by
  intro wf w h
  injection h with h
  subst h
  obtain ⟨e, hop⟩ := rd3R_enc_op 1224736768 (by decide) (by decide) o
  unfold decode
  rw [e]
  have hr := rd3R_enc 1224736768 (by decide) o
  simp [decodeNat, decodeVectorInt, hop, hr]

theorem RoundTrip.vsel (o : Op3R) : RoundTrip.Statement (.vsel o) := by
  intro wf w h
  injection h with h
  subst h
  obtain ⟨e, hop⟩ := rd3R_enc_op 1233125376 (by decide) (by decide) o
  unfold decode
  rw [e]
  have hr := rd3R_enc 1233125376 (by decide) o
  simp [decodeNat, decodeVectorInt, hop, hr]

theorem RoundTrip.vmov (o : Op3A) : RoundTrip.Statement (.vmov o) := by
  intro wf w h
  injection h with h
  subst h
  have bta := Bool.toNat_le o.ta
  have bd := o.d.isLt
  have ba := o.a.isLt
  obtain ⟨e, hop⟩ := rd3A_enc_op 1241513984 (by decide) (by decide) o
  unfold decode
  rw [e]
  have hr := rd3A_enc 1241513984 (by decide) o
  generalize hu : (1241513984 + o.ta.toNat * 4194304 + o.d.toNat * 16384 + o.a.toNat * 128) = u at *
  have c0 : u % 128 = 0 := by omega
  have c1 : u / 2097152 % 2 = 0 := by omega
  simp [decodeNat, decodeVectorInt, hop, c0, c1, hr]

theorem RoundTrip.vbcs (o : Op3R) : RoundTrip.Statement (.vbcs o) := by
  intro wf w h
  injection h with h
  subst h
  obtain ⟨e, hop⟩ := rd3R_enc_op 1249902592 (by decide) (by decide) o
  unfold decode
  rw [e]
  have hr := rd3R_enc 1249902592 (by decide) o
  simp [decodeNat, decodeVectorInt, hop, hr]

theorem RoundTrip.vbfe (o : Op3R) : RoundTrip.Statement (.vbfe o) := by
  intro wf w h
  injection h with h
  subst h
  obtain ⟨e, hop⟩ := rd3R_enc_op 1258291200 (by decide) (by decide) o
  unfold decode
  rw [e]
  have hr := rd3R_enc 1258291200 (by decide) o
  simp [decodeNat, decodeVectorInt, hop, hr]

theorem RoundTrip.vbfi (o : Op3R) : RoundTrip.Statement (.vbfi o) := by
  intro wf w h
  injection h with h
  subst h
  obtain ⟨e, hop⟩ := rd3R_enc_op 1266679808 (by decide) (by decide) o
  unfold decode
  rw [e]
  have hr := rd3R_enc 1266679808 (by decide) o
  simp [decodeNat, decodeVectorInt, hop, hr]

theorem RoundTrip.vadds (o : Op3R) : RoundTrip.Statement (.vadds o) := by
  intro wf w h
  injection h with h
  subst h
  obtain ⟨e, hop⟩ := rd3R_enc_op 1275068416 (by decide) (by decide) o
  unfold decode
  rw [e]
  have hr := rd3R_enc 1275068416 (by decide) o
  simp [decodeNat, decodeVectorInt, hop, hr]

theorem RoundTrip.vfadd (o : Op3R) : RoundTrip.Statement (.vfadd o) := by
  intro wf w h
  injection h with h
  subst h
  obtain ⟨e, hop⟩ := rd3R_enc_op 1342177280 (by decide) (by decide) o
  unfold decode
  rw [e]
  have hr := rd3R_enc 1342177280 (by decide) o
  simp [decodeNat, decodeVectorFloat, hop, hr]

theorem RoundTrip.vfsub (o : Op3R) : RoundTrip.Statement (.vfsub o) := by
  intro wf w h
  injection h with h
  subst h
  obtain ⟨e, hop⟩ := rd3R_enc_op 1350565888 (by decide) (by decide) o
  unfold decode
  rw [e]
  have hr := rd3R_enc 1350565888 (by decide) o
  simp [decodeNat, decodeVectorFloat, hop, hr]

theorem RoundTrip.vfmul (o : Op3R) : RoundTrip.Statement (.vfmul o) := by
  intro wf w h
  injection h with h
  subst h
  obtain ⟨e, hop⟩ := rd3R_enc_op 1358954496 (by decide) (by decide) o
  unfold decode
  rw [e]
  have hr := rd3R_enc 1358954496 (by decide) o
  simp [decodeNat, decodeVectorFloat, hop, hr]

theorem RoundTrip.vffma (o : Op3R) : RoundTrip.Statement (.vffma o) := by
  intro wf w h
  injection h with h
  subst h
  obtain ⟨e, hop⟩ := rd3R_enc_op 1367343104 (by decide) (by decide) o
  unfold decode
  rw [e]
  have hr := rd3R_enc 1367343104 (by decide) o
  simp [decodeNat, decodeVectorFloat, hop, hr]

theorem RoundTrip.vfneg (o : Op3A) : RoundTrip.Statement (.vfneg o) := by
  intro wf w h
  injection h with h
  subst h
  have bta := Bool.toNat_le o.ta
  have bd := o.d.isLt
  have ba := o.a.isLt
  obtain ⟨e, hop⟩ := rd3A_enc_op 1375731712 (by decide) (by decide) o
  unfold decode
  rw [e]
  have hr := rd3A_enc 1375731712 (by decide) o
  generalize hu : (1375731712 + o.ta.toNat * 4194304 + o.d.toNat * 16384 + o.a.toNat * 128) = u at *
  have c0 : u % 128 = 0 := by omega
  have c1 : u / 2097152 % 2 = 0 := by omega
  simp [decodeNat, decodeVectorFloat, hop, c0, c1, hr]

theorem RoundTrip.vfabs (o : Op3A) : RoundTrip.Statement (.vfabs o) := by
  intro wf w h
  injection h with h
  subst h
  have bta := Bool.toNat_le o.ta
  have bd := o.d.isLt
  have ba := o.a.isLt
  obtain ⟨e, hop⟩ := rd3A_enc_op 1384120320 (by decide) (by decide) o
  unfold decode
  rw [e]
  have hr := rd3A_enc 1384120320 (by decide) o
  generalize hu : (1384120320 + o.ta.toNat * 4194304 + o.d.toNat * 16384 + o.a.toNat * 128) = u at *
  have c0 : u % 128 = 0 := by omega
  have c1 : u / 2097152 % 2 = 0 := by omega
  simp [decodeNat, decodeVectorFloat, hop, c0, c1, hr]

theorem RoundTrip.vfmin (o : Op3R) : RoundTrip.Statement (.vfmin o) := by
  intro wf w h
  injection h with h
  subst h
  obtain ⟨e, hop⟩ := rd3R_enc_op 1392508928 (by decide) (by decide) o
  unfold decode
  rw [e]
  have hr := rd3R_enc 1392508928 (by decide) o
  simp [decodeNat, decodeVectorFloat, hop, hr]

theorem RoundTrip.vfmax (o : Op3R) : RoundTrip.Statement (.vfmax o) := by
  intro wf w h
  injection h with h
  subst h
  obtain ⟨e, hop⟩ := rd3R_enc_op 1400897536 (by decide) (by decide) o
  unfold decode
  rw [e]
  have hr := rd3R_enc 1400897536 (by decide) o
  simp [decodeNat, decodeVectorFloat, hop, hr]

theorem RoundTrip.vfcmp (o : Op3R) : RoundTrip.Statement (.vfcmp o) := by
  intro wf w h
  injection h with h
  subst h
  obtain ⟨e, hop⟩ := rd3R_enc_op 1409286144 (by decide) (by decide) o
  unfold decode
  rw [e]
  have hr := rd3R_enc 1409286144 (by decide) o
  simp [decodeNat, decodeVectorFloat, hop, hr]

theorem RoundTrip.vfrcp (o : Op3A) : RoundTrip.Statement (.vfrcp o) := by
  intro wf w h
  injection h with h
  subst h
  have bta := Bool.toNat_le o.ta
  have bd := o.d.isLt
  have ba := o.a.isLt
  obtain ⟨e, hop⟩ := rd3A_enc_op 1417674752 (by decide) (by decide) o
  unfold decode
  rw [e]
  have hr := rd3A_enc 1417674752 (by decide) o
  generalize hu : (1417674752 + o.ta.toNat * 4194304 + o.d.toNat * 16384 + o.a.toNat * 128) = u at *
  have c0 : u % 128 = 0 := by omega
  have c1 : u / 2097152 % 2 = 0 := by omega
  simp [decodeNat, decodeVectorFloat, hop, c0, c1, hr]

theorem RoundTrip.vfrsq (o : Op3A) : RoundTrip.Statement (.vfrsq o) := by
  intro wf w h
  injection h with h
  subst h
  have bta := Bool.toNat_le o.ta
  have bd := o.d.isLt
  have ba := o.a.isLt
  obtain ⟨e, hop⟩ := rd3A_enc_op 1426063360 (by decide) (by decide) o
  unfold decode
  rw [e]
  have hr := rd3A_enc 1426063360 (by decide) o
  generalize hu : (1426063360 + o.ta.toNat * 4194304 + o.d.toNat * 16384 + o.a.toNat * 128) = u at *
  have c0 : u % 128 = 0 := by omega
  have c1 : u / 2097152 % 2 = 0 := by omega
  simp [decodeNat, decodeVectorFloat, hop, c0, c1, hr]

theorem RoundTrip.vfsqrt (o : Op3A) : RoundTrip.Statement (.vfsqrt o) := by
  intro wf w h
  injection h with h
  subst h
  have bta := Bool.toNat_le o.ta
  have bd := o.d.isLt
  have ba := o.a.isLt
  obtain ⟨e, hop⟩ := rd3A_enc_op 1434451968 (by decide) (by decide) o
  unfold decode
  rw [e]
  have hr := rd3A_enc 1434451968 (by decide) o
  generalize hu : (1434451968 + o.ta.toNat * 4194304 + o.d.toNat * 16384 + o.a.toNat * 128) = u at *
  have c0 : u % 128 = 0 := by omega
  have c1 : u / 2097152 % 2 = 0 := by omega
  simp [decodeNat, decodeVectorFloat, hop, c0, c1, hr]

theorem RoundTrip.vfexp2 (o : Op3A) : RoundTrip.Statement (.vfexp2 o) := by
  intro wf w h
  injection h with h
  subst h
  have bta := Bool.toNat_le o.ta
  have bd := o.d.isLt
  have ba := o.a.isLt
  obtain ⟨e, hop⟩ := rd3A_enc_op 1442840576 (by decide) (by decide) o
  unfold decode
  rw [e]
  have hr := rd3A_enc 1442840576 (by decide) o
  generalize hu : (1442840576 + o.ta.toNat * 4194304 + o.d.toNat * 16384 + o.a.toNat * 128) = u at *
  have c0 : u % 128 = 0 := by omega
  have c1 : u / 2097152 % 2 = 0 := by omega
  simp [decodeNat, decodeVectorFloat, hop, c0, c1, hr]

theorem RoundTrip.vflog2 (o : Op3A) : RoundTrip.Statement (.vflog2 o) := by
  intro wf w h
  injection h with h
  subst h
  have bta := Bool.toNat_le o.ta
  have bd := o.d.isLt
  have ba := o.a.isLt
  obtain ⟨e, hop⟩ := rd3A_enc_op 1451229184 (by decide) (by decide) o
  unfold decode
  rw [e]
  have hr := rd3A_enc 1451229184 (by decide) o
  generalize hu : (1451229184 + o.ta.toNat * 4194304 + o.d.toNat * 16384 + o.a.toNat * 128) = u at *
  have c0 : u % 128 = 0 := by omega
  have c1 : u / 2097152 % 2 = 0 := by omega
  simp [decodeNat, decodeVectorFloat, hop, c0, c1, hr]

theorem RoundTrip.vfsin (o : Op3A) : RoundTrip.Statement (.vfsin o) := by
  intro wf w h
  injection h with h
  subst h
  have bta := Bool.toNat_le o.ta
  have bd := o.d.isLt
  have ba := o.a.isLt
  obtain ⟨e, hop⟩ := rd3A_enc_op 1459617792 (by decide) (by decide) o
  unfold decode
  rw [e]
  have hr := rd3A_enc 1459617792 (by decide) o
  generalize hu : (1459617792 + o.ta.toNat * 4194304 + o.d.toNat * 16384 + o.a.toNat * 128) = u at *
  have c0 : u % 128 = 0 := by omega
  have c1 : u / 2097152 % 2 = 0 := by omega
  simp [decodeNat, decodeVectorFloat, hop, c0, c1, hr]

theorem RoundTrip.vfcos (o : Op3A) : RoundTrip.Statement (.vfcos o) := by
  intro wf w h
  injection h with h
  subst h
  have bta := Bool.toNat_le o.ta
  have bd := o.d.isLt
  have ba := o.a.isLt
  obtain ⟨e, hop⟩ := rd3A_enc_op 1468006400 (by decide) (by decide) o
  unfold decode
  rw [e]
  have hr := rd3A_enc 1468006400 (by decide) o
  generalize hu : (1468006400 + o.ta.toNat * 4194304 + o.d.toNat * 16384 + o.a.toNat * 128) = u at *
  have c0 : u % 128 = 0 := by omega
  have c1 : u / 2097152 % 2 = 0 := by omega
  simp [decodeNat, decodeVectorFloat, hop, c0, c1, hr]

theorem RoundTrip.vftanh (o : Op3A) : RoundTrip.Statement (.vftanh o) := by
  intro wf w h
  injection h with h
  subst h
  have bta := Bool.toNat_le o.ta
  have bd := o.d.isLt
  have ba := o.a.isLt
  obtain ⟨e, hop⟩ := rd3A_enc_op 1476395008 (by decide) (by decide) o
  unfold decode
  rw [e]
  have hr := rd3A_enc 1476395008 (by decide) o
  generalize hu : (1476395008 + o.ta.toNat * 4194304 + o.d.toNat * 16384 + o.a.toNat * 128) = u at *
  have c0 : u % 128 = 0 := by omega
  have c1 : u / 2097152 % 2 = 0 := by omega
  simp [decodeNat, decodeVectorFloat, hop, c0, c1, hr]

theorem RoundTrip.vfclass (o : Op3A) : RoundTrip.Statement (.vfclass o) := by
  intro wf w h
  injection h with h
  subst h
  have bta := Bool.toNat_le o.ta
  have bd := o.d.isLt
  have ba := o.a.isLt
  obtain ⟨e, hop⟩ := rd3A_enc_op 1484783616 (by decide) (by decide) o
  unfold decode
  rw [e]
  have hr := rd3A_enc 1484783616 (by decide) o
  generalize hu : (1484783616 + o.ta.toNat * 4194304 + o.d.toNat * 16384 + o.a.toNat * 128) = u at *
  have c0 : u % 128 = 0 := by omega
  have c1 : u / 2097152 % 2 = 0 := by omega
  simp [decodeNat, decodeVectorFloat, hop, c0, c1, hr]

theorem RoundTrip.vcvtF64 (o : Op3A) : RoundTrip.Statement (.vcvtF64 o) := by
  intro wf w h
  injection h with h
  subst h
  have bta := Bool.toNat_le o.ta
  have bd := o.d.isLt
  have ba := o.a.isLt
  obtain ⟨e, hop⟩ := rd3A_enc_op 1610612736 (by decide) (by decide) o
  unfold decode
  rw [e]
  have hr := rd3A_enc 1610612736 (by decide) o
  generalize hu : (1610612736 + o.ta.toNat * 4194304 + o.d.toNat * 16384 + o.a.toNat * 128) = u at *
  have c0 : u % 128 = 0 := by omega
  have c1 : u / 2097152 % 2 = 0 := by omega
  simp [decodeNat, decodeConvert, hop, c0, c1, hr]

theorem RoundTrip.vcvtF32 (o : Op3A) : RoundTrip.Statement (.vcvtF32 o) := by
  intro wf w h
  injection h with h
  subst h
  have bta := Bool.toNat_le o.ta
  have bd := o.d.isLt
  have ba := o.a.isLt
  obtain ⟨e, hop⟩ := rd3A_enc_op 1619001344 (by decide) (by decide) o
  unfold decode
  rw [e]
  have hr := rd3A_enc 1619001344 (by decide) o
  generalize hu : (1619001344 + o.ta.toNat * 4194304 + o.d.toNat * 16384 + o.a.toNat * 128) = u at *
  have c0 : u % 128 = 0 := by omega
  have c1 : u / 2097152 % 2 = 0 := by omega
  simp [decodeNat, decodeConvert, hop, c0, c1, hr]

theorem RoundTrip.vcvtF16 (o : Op3A) : RoundTrip.Statement (.vcvtF16 o) := by
  intro wf w h
  injection h with h
  subst h
  have bta := Bool.toNat_le o.ta
  have bd := o.d.isLt
  have ba := o.a.isLt
  obtain ⟨e, hop⟩ := rd3A_enc_op 1627389952 (by decide) (by decide) o
  unfold decode
  rw [e]
  have hr := rd3A_enc 1627389952 (by decide) o
  generalize hu : (1627389952 + o.ta.toNat * 4194304 + o.d.toNat * 16384 + o.a.toNat * 128) = u at *
  have c0 : u % 128 = 0 := by omega
  have c1 : u / 2097152 % 2 = 0 := by omega
  simp [decodeNat, decodeConvert, hop, c0, c1, hr]

theorem RoundTrip.vcvtBf16 (o : Op3A) : RoundTrip.Statement (.vcvtBf16 o) := by
  intro wf w h
  injection h with h
  subst h
  have bta := Bool.toNat_le o.ta
  have bd := o.d.isLt
  have ba := o.a.isLt
  obtain ⟨e, hop⟩ := rd3A_enc_op 1635778560 (by decide) (by decide) o
  unfold decode
  rw [e]
  have hr := rd3A_enc 1635778560 (by decide) o
  generalize hu : (1635778560 + o.ta.toNat * 4194304 + o.d.toNat * 16384 + o.a.toNat * 128) = u at *
  have c0 : u % 128 = 0 := by omega
  have c1 : u / 2097152 % 2 = 0 := by omega
  simp [decodeNat, decodeConvert, hop, c0, c1, hr]

theorem RoundTrip.vcvtE4m3 (o : Op3A) : RoundTrip.Statement (.vcvtE4m3 o) := by
  intro wf w h
  injection h with h
  subst h
  have bta := Bool.toNat_le o.ta
  have bd := o.d.isLt
  have ba := o.a.isLt
  obtain ⟨e, hop⟩ := rd3A_enc_op 1644167168 (by decide) (by decide) o
  unfold decode
  rw [e]
  have hr := rd3A_enc 1644167168 (by decide) o
  generalize hu : (1644167168 + o.ta.toNat * 4194304 + o.d.toNat * 16384 + o.a.toNat * 128) = u at *
  have c0 : u % 128 = 0 := by omega
  have c1 : u / 2097152 % 2 = 0 := by omega
  simp [decodeNat, decodeConvert, hop, c0, c1, hr]

theorem RoundTrip.vcvtE5m2 (o : Op3A) : RoundTrip.Statement (.vcvtE5m2 o) := by
  intro wf w h
  injection h with h
  subst h
  have bta := Bool.toNat_le o.ta
  have bd := o.d.isLt
  have ba := o.a.isLt
  obtain ⟨e, hop⟩ := rd3A_enc_op 1652555776 (by decide) (by decide) o
  unfold decode
  rw [e]
  have hr := rd3A_enc 1652555776 (by decide) o
  generalize hu : (1652555776 + o.ta.toNat * 4194304 + o.d.toNat * 16384 + o.a.toNat * 128) = u at *
  have c0 : u % 128 = 0 := by omega
  have c1 : u / 2097152 % 2 = 0 := by omega
  simp [decodeNat, decodeConvert, hop, c0, c1, hr]

theorem RoundTrip.vcvtE3m2 (o : Op3A) : RoundTrip.Statement (.vcvtE3m2 o) := by
  intro wf w h
  injection h with h
  subst h
  have bta := Bool.toNat_le o.ta
  have bd := o.d.isLt
  have ba := o.a.isLt
  obtain ⟨e, hop⟩ := rd3A_enc_op 1660944384 (by decide) (by decide) o
  unfold decode
  rw [e]
  have hr := rd3A_enc 1660944384 (by decide) o
  generalize hu : (1660944384 + o.ta.toNat * 4194304 + o.d.toNat * 16384 + o.a.toNat * 128) = u at *
  have c0 : u % 128 = 0 := by omega
  have c1 : u / 2097152 % 2 = 0 := by omega
  simp [decodeNat, decodeConvert, hop, c0, c1, hr]

theorem RoundTrip.vcvtE2m3 (o : Op3A) : RoundTrip.Statement (.vcvtE2m3 o) := by
  intro wf w h
  injection h with h
  subst h
  have bta := Bool.toNat_le o.ta
  have bd := o.d.isLt
  have ba := o.a.isLt
  obtain ⟨e, hop⟩ := rd3A_enc_op 1669332992 (by decide) (by decide) o
  unfold decode
  rw [e]
  have hr := rd3A_enc 1669332992 (by decide) o
  generalize hu : (1669332992 + o.ta.toNat * 4194304 + o.d.toNat * 16384 + o.a.toNat * 128) = u at *
  have c0 : u % 128 = 0 := by omega
  have c1 : u / 2097152 % 2 = 0 := by omega
  simp [decodeNat, decodeConvert, hop, c0, c1, hr]

theorem RoundTrip.vcvtE2m1 (o : Op3A) : RoundTrip.Statement (.vcvtE2m1 o) := by
  intro wf w h
  injection h with h
  subst h
  have bta := Bool.toNat_le o.ta
  have bd := o.d.isLt
  have ba := o.a.isLt
  obtain ⟨e, hop⟩ := rd3A_enc_op 1677721600 (by decide) (by decide) o
  unfold decode
  rw [e]
  have hr := rd3A_enc 1677721600 (by decide) o
  generalize hu : (1677721600 + o.ta.toNat * 4194304 + o.d.toNat * 16384 + o.a.toNat * 128) = u at *
  have c0 : u % 128 = 0 := by omega
  have c1 : u / 2097152 % 2 = 0 := by omega
  simp [decodeNat, decodeConvert, hop, c0, c1, hr]

theorem RoundTrip.vcvtI32 (o : Op3A) : RoundTrip.Statement (.vcvtI32 o) := by
  intro wf w h
  injection h with h
  subst h
  have bta := Bool.toNat_le o.ta
  have bd := o.d.isLt
  have ba := o.a.isLt
  obtain ⟨e, hop⟩ := rd3A_enc_op 1686110208 (by decide) (by decide) o
  unfold decode
  rw [e]
  have hr := rd3A_enc 1686110208 (by decide) o
  generalize hu : (1686110208 + o.ta.toNat * 4194304 + o.d.toNat * 16384 + o.a.toNat * 128) = u at *
  have c0 : u % 128 = 0 := by omega
  have c1 : u / 2097152 % 2 = 0 := by omega
  simp [decodeNat, decodeConvert, hop, c0, c1, hr]

theorem RoundTrip.vcvtN32 (o : Op3A) : RoundTrip.Statement (.vcvtN32 o) := by
  intro wf w h
  injection h with h
  subst h
  have bta := Bool.toNat_le o.ta
  have bd := o.d.isLt
  have ba := o.a.isLt
  obtain ⟨e, hop⟩ := rd3A_enc_op 1694498816 (by decide) (by decide) o
  unfold decode
  rw [e]
  have hr := rd3A_enc 1694498816 (by decide) o
  generalize hu : (1694498816 + o.ta.toNat * 4194304 + o.d.toNat * 16384 + o.a.toNat * 128) = u at *
  have c0 : u % 128 = 0 := by omega
  have c1 : u / 2097152 % 2 = 0 := by omega
  simp [decodeNat, decodeConvert, hop, c0, c1, hr]

theorem RoundTrip.vcvtI16 (o : Op3A) : RoundTrip.Statement (.vcvtI16 o) := by
  intro wf w h
  injection h with h
  subst h
  have bta := Bool.toNat_le o.ta
  have bd := o.d.isLt
  have ba := o.a.isLt
  obtain ⟨e, hop⟩ := rd3A_enc_op 1702887424 (by decide) (by decide) o
  unfold decode
  rw [e]
  have hr := rd3A_enc 1702887424 (by decide) o
  generalize hu : (1702887424 + o.ta.toNat * 4194304 + o.d.toNat * 16384 + o.a.toNat * 128) = u at *
  have c0 : u % 128 = 0 := by omega
  have c1 : u / 2097152 % 2 = 0 := by omega
  simp [decodeNat, decodeConvert, hop, c0, c1, hr]

theorem RoundTrip.vcvtN16 (o : Op3A) : RoundTrip.Statement (.vcvtN16 o) := by
  intro wf w h
  injection h with h
  subst h
  have bta := Bool.toNat_le o.ta
  have bd := o.d.isLt
  have ba := o.a.isLt
  obtain ⟨e, hop⟩ := rd3A_enc_op 1711276032 (by decide) (by decide) o
  unfold decode
  rw [e]
  have hr := rd3A_enc 1711276032 (by decide) o
  generalize hu : (1711276032 + o.ta.toNat * 4194304 + o.d.toNat * 16384 + o.a.toNat * 128) = u at *
  have c0 : u % 128 = 0 := by omega
  have c1 : u / 2097152 % 2 = 0 := by omega
  simp [decodeNat, decodeConvert, hop, c0, c1, hr]

theorem RoundTrip.vcvtI8 (o : Op3A) : RoundTrip.Statement (.vcvtI8 o) := by
  intro wf w h
  injection h with h
  subst h
  have bta := Bool.toNat_le o.ta
  have bd := o.d.isLt
  have ba := o.a.isLt
  obtain ⟨e, hop⟩ := rd3A_enc_op 1719664640 (by decide) (by decide) o
  unfold decode
  rw [e]
  have hr := rd3A_enc 1719664640 (by decide) o
  generalize hu : (1719664640 + o.ta.toNat * 4194304 + o.d.toNat * 16384 + o.a.toNat * 128) = u at *
  have c0 : u % 128 = 0 := by omega
  have c1 : u / 2097152 % 2 = 0 := by omega
  simp [decodeNat, decodeConvert, hop, c0, c1, hr]

theorem RoundTrip.vcvtN8 (o : Op3A) : RoundTrip.Statement (.vcvtN8 o) := by
  intro wf w h
  injection h with h
  subst h
  have bta := Bool.toNat_le o.ta
  have bd := o.d.isLt
  have ba := o.a.isLt
  obtain ⟨e, hop⟩ := rd3A_enc_op 1728053248 (by decide) (by decide) o
  unfold decode
  rw [e]
  have hr := rd3A_enc 1728053248 (by decide) o
  generalize hu : (1728053248 + o.ta.toNat * 4194304 + o.d.toNat * 16384 + o.a.toNat * 128) = u at *
  have c0 : u % 128 = 0 := by omega
  have c1 : u / 2097152 % 2 = 0 := by omega
  simp [decodeNat, decodeConvert, hop, c0, c1, hr]

theorem RoundTrip.vcvtI4 (o : Op3A) : RoundTrip.Statement (.vcvtI4 o) := by
  intro wf w h
  injection h with h
  subst h
  have bta := Bool.toNat_le o.ta
  have bd := o.d.isLt
  have ba := o.a.isLt
  obtain ⟨e, hop⟩ := rd3A_enc_op 1736441856 (by decide) (by decide) o
  unfold decode
  rw [e]
  have hr := rd3A_enc 1736441856 (by decide) o
  generalize hu : (1736441856 + o.ta.toNat * 4194304 + o.d.toNat * 16384 + o.a.toNat * 128) = u at *
  have c0 : u % 128 = 0 := by omega
  have c1 : u / 2097152 % 2 = 0 := by omega
  simp [decodeNat, decodeConvert, hop, c0, c1, hr]

theorem RoundTrip.vcvtN4 (o : Op3A) : RoundTrip.Statement (.vcvtN4 o) := by
  intro wf w h
  injection h with h
  subst h
  have bta := Bool.toNat_le o.ta
  have bd := o.d.isLt
  have ba := o.a.isLt
  obtain ⟨e, hop⟩ := rd3A_enc_op 1744830464 (by decide) (by decide) o
  unfold decode
  rw [e]
  have hr := rd3A_enc 1744830464 (by decide) o
  generalize hu : (1744830464 + o.ta.toNat * 4194304 + o.d.toNat * 16384 + o.a.toNat * 128) = u at *
  have c0 : u % 128 = 0 := by omega
  have c1 : u / 2097152 % 2 = 0 := by omega
  simp [decodeNat, decodeConvert, hop, c0, c1, hr]

theorem RoundTrip.vpack (o : Op3K) : RoundTrip.Statement (.vpack o) := by
  intro wf w h
  injection h with h
  subst h
  have bta := Bool.toNat_le o.ta
  have bd := o.d.isLt
  have ba := o.a.isLt
  have bk := o.k.isLt
  obtain ⟨e, hop⟩ := rd3K_enc_op 1753219072 (by decide) (by decide) o
  unfold decode
  rw [e]
  have hr := rd3K_enc 1753219072 (by decide) o
  generalize hu : (1753219072 + o.ta.toNat * 4194304 + o.d.toNat * 16384 + o.a.toNat * 128 + o.k.toNat) = u at *
  have c0 : u / 2097152 % 2 = 0 := by omega
  simp [decodeNat, decodeConvert, hop, c0, hr]

theorem RoundTrip.vunpk (o : Op3K) : RoundTrip.Statement (.vunpk o) := by
  intro wf w h
  injection h with h
  subst h
  have bta := Bool.toNat_le o.ta
  have bd := o.d.isLt
  have ba := o.a.isLt
  have bk := o.k.isLt
  obtain ⟨e, hop⟩ := rd3K_enc_op 1761607680 (by decide) (by decide) o
  unfold decode
  rw [e]
  have hr := rd3K_enc 1761607680 (by decide) o
  generalize hu : (1761607680 + o.ta.toNat * 4194304 + o.d.toNat * 16384 + o.a.toNat * 128 + o.k.toNat) = u at *
  have c0 : u / 2097152 % 2 = 0 := by omega
  simp [decodeNat, decodeConvert, hop, c0, hr]

theorem RoundTrip.vshf (o : Op3R) : RoundTrip.Statement (.vshf o) := by
  intro wf w h
  injection h with h
  subst h
  obtain ⟨e, hop⟩ := rd3R_enc_op 1879048192 (by decide) (by decide) o
  unfold decode
  rw [e]
  have hr := rd3R_enc 1879048192 (by decide) o
  simp [decodeNat, decodeCrossLane, hop, hr]

theorem RoundTrip.vshfx (o : Op3R) : RoundTrip.Statement (.vshfx o) := by
  intro wf w h
  injection h with h
  subst h
  obtain ⟨e, hop⟩ := rd3R_enc_op 1887436800 (by decide) (by decide) o
  unfold decode
  rw [e]
  have hr := rd3R_enc 1887436800 (by decide) o
  simp [decodeNat, decodeCrossLane, hop, hr]

theorem RoundTrip.vshfu (o : Op3R) : RoundTrip.Statement (.vshfu o) := by
  intro wf w h
  injection h with h
  subst h
  obtain ⟨e, hop⟩ := rd3R_enc_op 1895825408 (by decide) (by decide) o
  unfold decode
  rw [e]
  have hr := rd3R_enc 1895825408 (by decide) o
  simp [decodeNat, decodeCrossLane, hop, hr]

theorem RoundTrip.vshfd (o : Op3R) : RoundTrip.Statement (.vshfd o) := by
  intro wf w h
  injection h with h
  subst h
  obtain ⟨e, hop⟩ := rd3R_enc_op 1904214016 (by decide) (by decide) o
  unfold decode
  rw [e]
  have hr := rd3R_enc 1904214016 (by decide) o
  simp [decodeNat, decodeCrossLane, hop, hr]

theorem RoundTrip.vlane (o : OpDK) : RoundTrip.Statement (.vlane o) := by
  intro wf w h
  injection h with h
  subst h
  have bd := o.d.isLt
  have bk := o.k.isLt
  obtain ⟨e, hop⟩ := rdDK_enc_op 1912602624 (by decide) (by decide) o
  unfold decode
  rw [e]
  have hr := rdDK_enc 1912602624 (by decide) o
  generalize hu : (1912602624 + o.d.toNat * 16384 + o.k.toNat * 128) = u at *
  have c0 : u % 128 = 0 := by omega
  have c1 : u / 2097152 % 4 = 0 := by omega
  simp [decodeNat, decodeCrossLane, hop, c0, c1, hr]

theorem RoundTrip.vvote (o : Op3K) : RoundTrip.Statement (.vvote o) := by
  intro wf w h
  injection h with h
  subst h
  have bta := Bool.toNat_le o.ta
  have bd := o.d.isLt
  have ba := o.a.isLt
  have bk := o.k.isLt
  obtain ⟨e, hop⟩ := rd3K_enc_op 1920991232 (by decide) (by decide) o
  unfold decode
  rw [e]
  have hr := rd3K_enc 1920991232 (by decide) o
  generalize hu : (1920991232 + o.ta.toNat * 4194304 + o.d.toNat * 16384 + o.a.toNat * 128 + o.k.toNat) = u at *
  have c0 : u / 2097152 % 2 = 0 := by omega
  simp [decodeNat, decodeCrossLane, hop, c0, hr]

theorem RoundTrip.vballot (o : Op3A) : RoundTrip.Statement (.vballot o) := by
  intro wf w h
  injection h with h
  subst h
  have bta := Bool.toNat_le o.ta
  have bd := o.d.isLt
  have ba := o.a.isLt
  obtain ⟨e, hop⟩ := rd3A_enc_op 1929379840 (by decide) (by decide) o
  unfold decode
  rw [e]
  have hr := rd3A_enc 1929379840 (by decide) o
  generalize hu : (1929379840 + o.ta.toNat * 4194304 + o.d.toNat * 16384 + o.a.toNat * 128) = u at *
  have c0 : u % 128 = 0 := by omega
  have c1 : u / 2097152 % 2 = 0 := by omega
  simp [decodeNat, decodeCrossLane, hop, c0, c1, hr]

theorem RoundTrip.vred (o : Op3K) : RoundTrip.Statement (.vred o) := by
  intro wf w h
  injection h with h
  subst h
  have bta := Bool.toNat_le o.ta
  have bd := o.d.isLt
  have ba := o.a.isLt
  have bk := o.k.isLt
  obtain ⟨e, hop⟩ := rd3K_enc_op 1937768448 (by decide) (by decide) o
  unfold decode
  rw [e]
  have hr := rd3K_enc 1937768448 (by decide) o
  generalize hu : (1937768448 + o.ta.toNat * 4194304 + o.d.toNat * 16384 + o.a.toNat * 128 + o.k.toNat) = u at *
  have c0 : u / 2097152 % 2 = 0 := by omega
  simp [decodeNat, decodeCrossLane, hop, c0, hr]

theorem RoundTrip.vscan (o : Op3K) : RoundTrip.Statement (.vscan o) := by
  intro wf w h
  injection h with h
  subst h
  have bta := Bool.toNat_le o.ta
  have bd := o.d.isLt
  have ba := o.a.isLt
  have bk := o.k.isLt
  obtain ⟨e, hop⟩ := rd3K_enc_op 1946157056 (by decide) (by decide) o
  unfold decode
  rw [e]
  have hr := rd3K_enc 1946157056 (by decide) o
  generalize hu : (1946157056 + o.ta.toNat * 4194304 + o.d.toNat * 16384 + o.a.toNat * 128 + o.k.toNat) = u at *
  have c0 : u / 2097152 % 2 = 0 := by omega
  simp [decodeNat, decodeCrossLane, hop, c0, hr]

theorem RoundTrip.vmaxi (o : Op3R) : RoundTrip.Statement (.vmaxi o) := by
  intro wf w h
  injection h with h
  subst h
  obtain ⟨e, hop⟩ := rd3R_enc_op 1954545664 (by decide) (by decide) o
  unfold decode
  rw [e]
  have hr := rd3R_enc 1954545664 (by decide) o
  simp [decodeNat, decodeCrossLane, hop, hr]

theorem RoundTrip.vtopk (o : Op3R) : RoundTrip.Statement (.vtopk o) := by
  intro wf w h
  injection h with h
  subst h
  obtain ⟨e, hop⟩ := rd3R_enc_op 1962934272 (by decide) (by decide) o
  unfold decode
  rw [e]
  have hr := rd3R_enc 1962934272 (by decide) o
  simp [decodeNat, decodeCrossLane, hop, hr]

theorem RoundTrip.rdw (o : OpDK) : RoundTrip.Statement (.rdw o) := by
  intro wf w h
  injection h with h
  subst h
  have bd := o.d.isLt
  have bk := o.k.isLt
  obtain ⟨e, hop⟩ := rdDK_enc_op 1971322880 (by decide) (by decide) o
  unfold decode
  rw [e]
  have hr := rdDK_enc 1971322880 (by decide) o
  generalize hu : (1971322880 + o.d.toNat * 16384 + o.k.toNat * 128) = u at *
  have c0 : u % 128 = 0 := by omega
  have c1 : u / 2097152 % 4 = 0 := by omega
  simp [decodeNat, decodeCrossLane, hop, c0, c1, hr]

theorem RoundTrip.ldG (o : OpM) : RoundTrip.Statement (.ldG o) := by
  intro wf w h
  injection h with h
  subst h
  obtain ⟨e, hop⟩ := rdM_enc_op 2147483648 (by decide) (by decide) o
  unfold decode
  rw [e]
  have hr := rdM_enc 2147483648 (by decide) o
  simp [decodeNat, decodeMemory, hop, hr]

theorem RoundTrip.stG (o : OpMst) : RoundTrip.Statement (.stG o) := by
  intro wf w h
  injection h with h
  subst h
  have bta := Bool.toNat_le o.ta
  have bd := o.d.isLt
  have bw := o.w.isLt
  have ba := o.a.isLt
  have bnt := Bool.toNat_le o.nt
  have bsz := o.sz.isLt
  obtain ⟨e, hop⟩ := rdMst_enc_op 2155872256 (by decide) (by decide) o
  unfold decode
  rw [e]
  have hr := rdMst_enc 2155872256 (by decide) o
  generalize hu : (2155872256 + o.ta.toNat * 4194304 + o.d.toNat * 32768 + o.w.toNat * 4096 + o.a.toNat * 32 + o.nt.toNat * 16 + o.sz.toNat) = u at *
  have c0 : u / 8 % 2 = 0 := by omega
  simp [decodeNat, decodeMemory, hop, c0, hr]

theorem RoundTrip.ldS (o : OpMs) : RoundTrip.Statement (.ldS o) := by
  intro wf w h
  injection h with h
  subst h
  have bta := Bool.toNat_le o.ta
  have bd := o.d.isLt
  have ba := o.a.isLt
  have bsx := Bool.toNat_le o.sx
  have bsz := o.sz.isLt
  obtain ⟨e, hop⟩ := rdMs_enc_op 2164260864 (by decide) (by decide) o
  unfold decode
  rw [e]
  have hr := rdMs_enc 2164260864 (by decide) o
  generalize hu : (2164260864 + o.ta.toNat * 4194304 + o.d.toNat * 32768 + o.a.toNat * 32 + o.sx.toNat * 8 + o.sz.toNat) = u at *
  have c0 : u / 16 % 2 = 0 := by omega
  have c1 : u / 4096 % 8 = 0 := by omega
  simp [decodeNat, decodeMemory, hop, c0, c1, hr]

theorem RoundTrip.stS (o : OpMsst) : RoundTrip.Statement (.stS o) := by
  intro wf w h
  injection h with h
  subst h
  have bta := Bool.toNat_le o.ta
  have bd := o.d.isLt
  have ba := o.a.isLt
  have bsz := o.sz.isLt
  obtain ⟨e, hop⟩ := rdMsst_enc_op 2172649472 (by decide) (by decide) o
  unfold decode
  rw [e]
  have hr := rdMsst_enc 2172649472 (by decide) o
  generalize hu : (2172649472 + o.ta.toNat * 4194304 + o.d.toNat * 32768 + o.a.toNat * 32 + o.sz.toNat) = u at *
  have c0 : u / 8 % 4 = 0 := by omega
  have c1 : u / 4096 % 8 = 0 := by omega
  simp [decodeNat, decodeMemory, hop, c0, c1, hr]

theorem RoundTrip.ldU (o : OpM) : RoundTrip.Statement (.ldU o) := by
  intro wf w h
  injection h with h
  subst h
  obtain ⟨e, hop⟩ := rdM_enc_op 2181038080 (by decide) (by decide) o
  unfold decode
  rw [e]
  have hr := rdM_enc 2181038080 (by decide) o
  simp [decodeNat, decodeMemory, hop, hr]

theorem RoundTrip.stU (o : OpMst) : RoundTrip.Statement (.stU o) := by
  intro wf w h
  injection h with h
  subst h
  have bta := Bool.toNat_le o.ta
  have bd := o.d.isLt
  have bw := o.w.isLt
  have ba := o.a.isLt
  have bnt := Bool.toNat_le o.nt
  have bsz := o.sz.isLt
  obtain ⟨e, hop⟩ := rdMst_enc_op 2189426688 (by decide) (by decide) o
  unfold decode
  rw [e]
  have hr := rdMst_enc 2189426688 (by decide) o
  generalize hu : (2189426688 + o.ta.toNat * 4194304 + o.d.toNat * 32768 + o.w.toNat * 4096 + o.a.toNat * 32 + o.nt.toNat * 16 + o.sz.toNat) = u at *
  have c0 : u / 8 % 2 = 0 := by omega
  simp [decodeNat, decodeMemory, hop, c0, hr]

theorem RoundTrip.pf (o : OpPf) : RoundTrip.Statement (.pf o) := by
  intro wf w h
  injection h with h
  subst h
  have bta := Bool.toNat_le o.ta
  have bw := o.w.isLt
  have ba := o.a.isLt
  have bl2 := Bool.toNat_le o.l2
  obtain ⟨e, hop⟩ := rdPf_enc_op 2197815296 (by decide) (by decide) o
  unfold decode
  rw [e]
  have hr := rdPf_enc 2197815296 (by decide) o
  generalize hu : (2197815296 + o.ta.toNat * 4194304 + o.w.toNat * 4096 + o.a.toNat * 32 + o.l2.toNat) = u at *
  have c0 : u / 2 % 16 = 0 := by omega
  have c1 : u / 32768 % 128 = 0 := by omega
  simp [decodeNat, decodeMemory, hop, c0, c1, hr]

theorem RoundTrip.dis (o : OpDis) : RoundTrip.Statement (.dis o) := by
  intro wf w h
  injection h with h
  subst h
  have bd := o.d.isLt
  have bw := o.w.isLt
  have ba := o.a.isLt
  obtain ⟨e, hop⟩ := rdDis_enc_op 2206203904 (by decide) (by decide) o
  unfold decode
  rw [e]
  have hr := rdDis_enc 2206203904 (by decide) o
  generalize hu : (2206203904 + o.d.toNat * 32768 + o.w.toNat * 4096 + o.a.toNat * 32) = u at *
  have c0 : u % 32 = 0 := by omega
  have c1 : u / 4194304 % 2 = 0 := by omega
  simp [decodeNat, decodeMemory, hop, c0, c1, hr]

theorem RoundTrip.winOpen (o : OpWa) : RoundTrip.Statement (.winOpen o) := by
  intro wf w h
  injection h with h
  subst h
  have bw := o.w.isLt
  have ba := o.a.isLt
  obtain ⟨e, hop⟩ := rdWa_enc_op 2214592512 (by decide) (by decide) o
  unfold decode
  rw [e]
  have hr := rdWa_enc 2214592512 (by decide) o
  generalize hu : (2214592512 + o.w.toNat * 4096 + o.a.toNat * 32) = u at *
  have c0 : u % 32 = 0 := by omega
  have c1 : u / 32768 % 256 = 0 := by omega
  simp [decodeNat, decodeMemory, hop, c0, c1, hr]

theorem RoundTrip.winClose (o : OpW) : RoundTrip.Statement (.winClose o) := by
  intro wf w h
  injection h with h
  subst h
  have bw := o.w.isLt
  obtain ⟨e, hop⟩ := rdW_enc_op 2222981120 (by decide) (by decide) o
  unfold decode
  rw [e]
  have hr := rdW_enc 2222981120 (by decide) o
  generalize hu : (2222981120 + o.w.toNat * 4096) = u at *
  have c0 : u % 4096 = 0 := by omega
  have c1 : u / 32768 % 256 = 0 := by omega
  simp [decodeNat, decodeMemory, hop, c0, c1, hr]

theorem RoundTrip.ldX (o : OpX) : RoundTrip.Statement (.ldX o) := by
  intro wf w h
  injection h with h
  subst h
  have bcls := o.cls.isLt
  have bd := o.d.isLt
  have bpeer := o.peer.isLt
  have ba := o.a.isLt
  have bta := Bool.toNat_le o.ta
  obtain ⟨e, hop⟩ := rdX_enc_op 2281701376 (by decide) (by decide) o
  unfold decode
  rw [e]
  have hr := rdX_enc 2281701376 (by decide) o
  generalize hu : (2281701376 + o.cls.toNat * 2097152 + o.d.toNat * 16384 + o.peer.toNat * 512 + o.a.toNat * 4 + o.ta.toNat * 2) = u at *
  have c0 : u % 2 = 0 := by omega
  simp [decodeNat, decodeMemory, hop, c0, hr]

theorem RoundTrip.stX (o : OpX) : RoundTrip.Statement (.stX o) := by
  intro wf w h
  injection h with h
  subst h
  have bcls := o.cls.isLt
  have bd := o.d.isLt
  have bpeer := o.peer.isLt
  have ba := o.a.isLt
  have bta := Bool.toNat_le o.ta
  obtain ⟨e, hop⟩ := rdX_enc_op 2290089984 (by decide) (by decide) o
  unfold decode
  rw [e]
  have hr := rdX_enc 2290089984 (by decide) o
  generalize hu : (2290089984 + o.cls.toNat * 2097152 + o.d.toNat * 16384 + o.peer.toNat * 512 + o.a.toNat * 4 + o.ta.toNat * 2) = u at *
  have c0 : u % 2 = 0 := by omega
  simp [decodeNat, decodeMemory, hop, c0, hr]

theorem RoundTrip.peerCap (o : OpPeer) : RoundTrip.Statement (.peerCap o) := by
  intro wf w h
  injection h with h
  subst h
  have bd := o.d.isLt
  have bpeer := o.peer.isLt
  obtain ⟨e, hop⟩ := rdPeer_enc_op 2298478592 (by decide) (by decide) o
  unfold decode
  rw [e]
  have hr := rdPeer_enc 2298478592 (by decide) o
  generalize hu : (2298478592 + o.d.toNat * 16384 + o.peer.toNat * 512) = u at *
  have c0 : u % 512 = 0 := by omega
  have c1 : u / 2097152 % 4 = 0 := by omega
  simp [decodeNat, decodeMemory, hop, c0, c1, hr]

theorem RoundTrip.atom (o : OpAtom) : RoundTrip.Statement (.atom o) := by
  intro wf w h
  injection h with h
  subst h
  obtain ⟨e, hop⟩ := rdAtom_enc_op 2415919104 (by decide) (by decide) o
  unfold decode
  rw [e]
  have hr := rdAtom_enc 2415919104 (by decide) o
  simp [decodeNat, decodeSync, hop, hr]

theorem RoundTrip.atomCas (o : OpMw) : RoundTrip.Statement (.atomCas o) := by
  intro wf w h
  injection h with h
  subst h
  have bta := Bool.toNat_le o.ta
  have bd := o.d.isLt
  have bw := o.w.isLt
  have ba := o.a.isLt
  obtain ⟨e, hop⟩ := rdMw_enc_op 2424307712 (by decide) (by decide) o
  unfold decode
  rw [e]
  have hr := rdMw_enc 2424307712 (by decide) o
  generalize hu : (2424307712 + o.ta.toNat * 4194304 + o.d.toNat * 32768 + o.w.toNat * 4096 + o.a.toNat * 32) = u at *
  have c0 : u % 32 = 0 := by omega
  simp [decodeNat, decodeSync, hop, c0, hr]

theorem RoundTrip.atomCas16 (o : OpMw) : RoundTrip.Statement (.atomCas16 o) := by
  intro wf w h
  injection h with h
  subst h
  have bta := Bool.toNat_le o.ta
  have bd := o.d.isLt
  have bw := o.w.isLt
  have ba := o.a.isLt
  have e : BitVec.toNat (BitVec.ofNat 32 (2424307713 + o.ta.toNat * 4194304 + o.d.toNat * 32768 + o.w.toNat * 4096 + o.a.toNat * 32)) = (2424307713 + o.ta.toNat * 4194304 + o.d.toNat * 32768 + o.w.toNat * 4096 + o.a.toNat * 32) := word_toNat (by omega)
  unfold decode
  rw [e]
  have hr : rdMw (2424307713 + o.ta.toNat * 4194304 + o.d.toNat * 32768 + o.w.toNat * 4096 + o.a.toNat * 32) = o := by
    obtain ⟨ta, d, w, a⟩ := o
    simp only [rdMw, OpMw.mk.injEq]
    simp only at *
    exact ⟨flag_of_bit _ _ (by omega), field_of_bits _ _ (by omega), field_of_bits _ _ (by omega), field_of_bits _ _ (by omega)⟩
  generalize hu : (2424307713 + o.ta.toNat * 4194304 + o.d.toNat * 32768 + o.w.toNat * 4096 + o.a.toNat * 32) = u at *
  have hop : u / 8388608 % 512 = 289 := by omega
  have c0 : u % 32 = 1 := by omega
  simp [decodeNat, decodeSync, hop, c0, hr]

theorem RoundTrip.atomMaxi (o : OpMw) : RoundTrip.Statement (.atomMaxi o) := by
  intro wf w h
  injection h with h
  subst h
  have bta := Bool.toNat_le o.ta
  have bd := o.d.isLt
  have bw := o.w.isLt
  have ba := o.a.isLt
  obtain ⟨e, hop⟩ := rdMw_enc_op 2432696320 (by decide) (by decide) o
  unfold decode
  rw [e]
  have hr := rdMw_enc 2432696320 (by decide) o
  generalize hu : (2432696320 + o.ta.toNat * 4194304 + o.d.toNat * 32768 + o.w.toNat * 4096 + o.a.toNat * 32) = u at *
  have c0 : u % 32 = 0 := by omega
  simp [decodeNat, decodeSync, hop, c0, hr]

theorem RoundTrip.red (o : OpAtom) : RoundTrip.Statement (.red o) := by
  intro wf w h
  injection h with h
  subst h
  obtain ⟨e, hop⟩ := rdAtom_enc_op 2441084928 (by decide) (by decide) o
  unfold decode
  rw [e]
  have hr := rdAtom_enc 2441084928 (by decide) o
  simp [decodeNat, decodeSync, hop, hr]

theorem RoundTrip.acq (o : OpAcq) : RoundTrip.Statement (.acq o) := by
  intro wf w h
  injection h with h
  subst h
  have bta := Bool.toNat_le o.ta
  have bd := o.d.isLt
  have bw := o.w.isLt
  have ba := o.a.isLt
  have bscope := o.scope.isLt
  obtain ⟨e, hop⟩ := rdAcq_enc_op 2449473536 (by decide) (by decide) o
  unfold decode
  rw [e]
  have hr := rdAcq_enc 2449473536 (by decide) o
  generalize hu : (2449473536 + o.ta.toNat * 4194304 + o.d.toNat * 32768 + o.w.toNat * 4096 + o.a.toNat * 32 + o.scope.toNat) = u at *
  have c0 : u / 8 % 4 = 0 := by omega
  simp [decodeNat, decodeSync, hop, c0, hr]

theorem RoundTrip.rel (o : OpAcq) : RoundTrip.Statement (.rel o) := by
  intro wf w h
  injection h with h
  subst h
  have bta := Bool.toNat_le o.ta
  have bd := o.d.isLt
  have bw := o.w.isLt
  have ba := o.a.isLt
  have bscope := o.scope.isLt
  obtain ⟨e, hop⟩ := rdAcq_enc_op 2457862144 (by decide) (by decide) o
  unfold decode
  rw [e]
  have hr := rdAcq_enc 2457862144 (by decide) o
  generalize hu : (2457862144 + o.ta.toNat * 4194304 + o.d.toNat * 32768 + o.w.toNat * 4096 + o.a.toNat * 32 + o.scope.toNat) = u at *
  have c0 : u / 8 % 4 = 0 := by omega
  simp [decodeNat, decodeSync, hop, c0, hr]

theorem RoundTrip.fence (o : OpF) : RoundTrip.Statement (.fence o) := by
  intro wf w h
  injection h with h
  subst h
  have bkind := o.kind.isLt
  have bscope := o.scope.isLt
  have bmask := o.mask.isLt
  obtain ⟨e, hop⟩ := rdF_enc_op 2466250752 (by decide) (by decide) o
  unfold decode
  rw [e]
  have hr := rdF_enc 2466250752 (by decide) o
  generalize hu : (2466250752 + o.kind.toNat * 1048576 + o.scope.toNat * 131072 + o.mask.toNat * 8192) = u at *
  have c0 : u % 8192 = 0 := by omega
  simp [decodeNat, decodeSync, hop, c0, hr]

theorem RoundTrip.bar : RoundTrip.Statement .bar := by
  intro _ w h
  injection h with h
  subst h
  decide

theorem RoundTrip.barC : RoundTrip.Statement .barC := by
  intro _ w h
  injection h with h
  subst h
  decide

theorem RoundTrip.barG : RoundTrip.Statement .barG := by
  intro _ w h
  injection h with h
  subst h
  decide

theorem RoundTrip.turn : RoundTrip.Statement .turn := by
  intro _ w h
  injection h with h
  subst h
  decide

theorem RoundTrip.cjmpImm (o : OpN9) : RoundTrip.Statement (.cjmpImm o) := by
  intro wf w h
  injection h with h
  subst h
  have bn := o.n.isLt
  obtain ⟨e, hop⟩ := rdN9_enc_op 2508193792 (by decide) (by decide) o
  unfold decode
  rw [e]
  have hr := rdN9_enc 2508193792 (by decide) o
  generalize hu : (2508193792 + o.n.toNat) = u at *
  have c0 : u / 32768 % 256 = 0 := by omega
  have c1 : u / 512 % 16384 = 0 := by omega
  simp [decodeNat, decodeSync, hop, c0, c1, hr]

theorem RoundTrip.cjmpReg (o : OpS6) : RoundTrip.Statement (.cjmpReg o) := by
  intro wf w h
  injection h with h
  subst h
  have bs := o.s.isLt
  have e : BitVec.toNat (BitVec.ofNat 32 (2508226560 + o.s.toNat * 512)) = (2508226560 + o.s.toNat * 512) := word_toNat (by omega)
  unfold decode
  rw [e]
  have hr : rdS6_3 (2508226560 + o.s.toNat * 512) = o := by
    obtain ⟨s⟩ := o
    simp only [rdS6_3, OpS6.mk.injEq]
    simp only at *
    exact field_of_bits _ _ (by omega)
  generalize hu : (2508226560 + o.s.toNat * 512) = u at *
  have hop : u / 8388608 % 512 = 299 := by omega
  have c0 : u % 512 = 0 := by omega
  have c1 : u / 32768 % 256 = 1 := by omega
  simp [decodeNat, decodeSync, hop, c0, c1, hr]

theorem RoundTrip.cjmpto (o : OpS6) : RoundTrip.Statement (.cjmpto o) := by
  intro wf w h
  injection h with h
  subst h
  have bs := o.s.isLt
  obtain ⟨e, hop⟩ := rdS6_3_enc_op 2516582400 (by decide) (by decide) o
  unfold decode
  rw [e]
  have hr := rdS6_3_enc 2516582400 (by decide) o
  generalize hu : (2516582400 + o.s.toNat * 512) = u at *
  have c0 : u % 512 = 0 := by omega
  have c1 : u / 32768 % 256 = 0 := by omega
  simp [decodeNat, decodeSync, hop, c0, c1, hr]

theorem RoundTrip.rdclk (o : OpS6) : RoundTrip.Statement (.rdclk o) := by
  intro wf w h
  injection h with h
  subst h
  have bs := o.s.isLt
  obtain ⟨e, hop⟩ := rdS6_3_enc_op 2524971008 (by decide) (by decide) o
  unfold decode
  rw [e]
  have hr := rdS6_3_enc 2524971008 (by decide) o
  generalize hu : (2524971008 + o.s.toNat * 512) = u at *
  have c0 : u % 512 = 0 := by omega
  have c1 : u / 32768 % 256 = 0 := by omega
  simp [decodeNat, decodeSync, hop, c0, c1, hr]

theorem RoundTrip.rdq (o : OpS6) : RoundTrip.Statement (.rdq o) := by
  intro wf w h
  injection h with h
  subst h
  have bs := o.s.isLt
  obtain ⟨e, hop⟩ := rdS6_3_enc_op 2533359616 (by decide) (by decide) o
  unfold decode
  rw [e]
  have hr := rdS6_3_enc 2533359616 (by decide) o
  generalize hu : (2533359616 + o.s.toNat * 512) = u at *
  have c0 : u % 512 = 0 := by omega
  have c1 : u / 32768 % 256 = 0 := by omega
  simp [decodeNat, decodeSync, hop, c0, c1, hr]

theorem RoundTrip.waitCnt (o : OpWait) : RoundTrip.Statement (.waitCnt o) := by
  intro wf w h
  injection h with h
  subst h
  have bk := o.k.isLt
  have bn := o.n.isLt
  obtain ⟨e, hop⟩ := rdWait_enc_op 2541748224 (by decide) (by decide) o
  unfold decode
  rw [e]
  have hr := rdWait_enc 2541748224 (by decide) o
  generalize hu : (2541748224 + o.k.toNat * 32768 + o.n.toNat) = u at *
  have c0 : u / 512 % 64 = 0 := by omega
  have c1 : u / 131072 % 64 = 0 := by omega
  simp [decodeNat, decodeSync, hop, c0, c1, hr]

theorem RoundTrip.tileOwn (o : OpH) : RoundTrip.Statement (.tileOwn o) := by
  intro wf w h
  injection h with h
  subst h
  have bh := o.h.isLt
  obtain ⟨e, hop⟩ := rdH_enc_op 2550136832 (by decide) (by decide) o
  unfold decode
  rw [e]
  have hr := rdH_enc 2550136832 (by decide) o
  generalize hu : (2550136832 + o.h.toNat * 65536) = u at *
  have c0 : u % 65536 = 0 := by omega
  simp [decodeNat, decodeEngine, hop, c0, hr]

theorem RoundTrip.tileSeal (o : OpH) : RoundTrip.Statement (.tileSeal o) := by
  intro wf w h
  injection h with h
  subst h
  have bh := o.h.isLt
  obtain ⟨e, hop⟩ := rdH_enc_op 2558525440 (by decide) (by decide) o
  unfold decode
  rw [e]
  have hr := rdH_enc 2558525440 (by decide) o
  generalize hu : (2558525440 + o.h.toNat * 65536) = u at *
  have c0 : u % 65536 = 0 := by omega
  simp [decodeNat, decodeEngine, hop, c0, hr]

theorem RoundTrip.tileFree (o : OpH) : RoundTrip.Statement (.tileFree o) := by
  intro wf w h
  injection h with h
  subst h
  have bh := o.h.isLt
  obtain ⟨e, hop⟩ := rdH_enc_op 2566914048 (by decide) (by decide) o
  unfold decode
  rw [e]
  have hr := rdH_enc 2566914048 (by decide) o
  generalize hu : (2566914048 + o.h.toNat * 65536) = u at *
  have c0 : u % 65536 = 0 := by omega
  simp [decodeNat, decodeEngine, hop, c0, hr]

theorem RoundTrip.tileQ (o : OpHD) : RoundTrip.Statement (.tileQ o) := by
  intro wf w h
  injection h with h
  subst h
  have bh := o.h.isLt
  have bd := o.d.isLt
  obtain ⟨e, hop⟩ := rdHD_enc_op 2575302656 (by decide) (by decide) o
  unfold decode
  rw [e]
  have hr := rdHD_enc 2575302656 (by decide) o
  generalize hu : (2575302656 + o.h.toNat * 65536 + o.d.toNat * 1024) = u at *
  have c0 : u % 1024 = 0 := by omega
  simp [decodeNat, decodeEngine, hop, c0, hr]

theorem RoundTrip.cp (o : OpE) : RoundTrip.Statement (.cp o) := by
  intro wf w h
  injection h with h
  subst h
  have bd := o.d.isLt
  have bk := o.k.isLt
  obtain ⟨e, hop⟩ := rdE_enc_op 2583691264 (by decide) (by decide) o
  unfold decode
  rw [e]
  have hr := rdE_enc 2583691264 (by decide) o
  generalize hu : (2583691264 + o.d.toNat * 1024 + o.k.toNat) = u at *
  have c0 : u / 8 % 128 = 0 := by omega
  have c1 : u / 65536 % 128 = 0 := by omega
  simp [decodeNat, decodeEngine, hop, c0, c1, hr]

theorem RoundTrip.cpR (o : OpE) : RoundTrip.Statement (.cpR o) := by
  intro wf w h
  injection h with h
  subst h
  have bd := o.d.isLt
  have bk := o.k.isLt
  have e : BitVec.toNat (BitVec.ofNat 32 (2583691272 + o.d.toNat * 1024 + o.k.toNat)) = (2583691272 + o.d.toNat * 1024 + o.k.toNat) := word_toNat (by omega)
  unfold decode
  rw [e]
  have hr : rdE (2583691272 + o.d.toNat * 1024 + o.k.toNat) = o := by
    obtain ⟨d, k⟩ := o
    simp only [rdE, OpE.mk.injEq]
    simp only at *
    exact ⟨field_of_bits _ _ (by omega), field_of_bits _ _ (by omega)⟩
  generalize hu : (2583691272 + o.d.toNat * 1024 + o.k.toNat) = u at *
  have hop : u / 8388608 % 512 = 308 := by omega
  have c0 : u / 8 % 128 = 1 := by omega
  have c1 : u / 65536 % 128 = 0 := by omega
  simp [decodeNat, decodeEngine, hop, c0, c1, hr]

theorem RoundTrip.cpX (o : OpE) : RoundTrip.Statement (.cpX o) := by
  intro wf w h
  injection h with h
  subst h
  have bd := o.d.isLt
  have bk := o.k.isLt
  obtain ⟨e, hop⟩ := rdE_enc_op 2592079872 (by decide) (by decide) o
  unfold decode
  rw [e]
  have hr := rdE_enc 2592079872 (by decide) o
  generalize hu : (2592079872 + o.d.toNat * 1024 + o.k.toNat) = u at *
  have c0 : u / 8 % 128 = 0 := by omega
  have c1 : u / 65536 % 128 = 0 := by omega
  simp [decodeNat, decodeEngine, hop, c0, c1, hr]

theorem RoundTrip.cpXR (o : OpE) : RoundTrip.Statement (.cpXR o) := by
  intro wf w h
  injection h with h
  subst h
  have bd := o.d.isLt
  have bk := o.k.isLt
  have e : BitVec.toNat (BitVec.ofNat 32 (2592079880 + o.d.toNat * 1024 + o.k.toNat)) = (2592079880 + o.d.toNat * 1024 + o.k.toNat) := word_toNat (by omega)
  unfold decode
  rw [e]
  have hr : rdE (2592079880 + o.d.toNat * 1024 + o.k.toNat) = o := by
    obtain ⟨d, k⟩ := o
    simp only [rdE, OpE.mk.injEq]
    simp only at *
    exact ⟨field_of_bits _ _ (by omega), field_of_bits _ _ (by omega)⟩
  generalize hu : (2592079880 + o.d.toNat * 1024 + o.k.toNat) = u at *
  have hop : u / 8388608 % 512 = 309 := by omega
  have c0 : u / 8 % 128 = 1 := by omega
  have c1 : u / 65536 % 128 = 0 := by omega
  simp [decodeNat, decodeEngine, hop, c0, c1, hr]

theorem RoundTrip.gat (o : OpHE) : RoundTrip.Statement (.gat o) := by
  intro wf w h
  injection h with h
  subst h
  have bh := o.h.isLt
  have bd := o.d.isLt
  have bk := o.k.isLt
  obtain ⟨e, hop⟩ := rdHE_enc_op 2600468480 (by decide) (by decide) o
  unfold decode
  rw [e]
  have hr := rdHE_enc 2600468480 (by decide) o
  generalize hu : (2600468480 + o.h.toNat * 65536 + o.d.toNat * 1024 + o.k.toNat) = u at *
  have c0 : u / 8 % 128 = 0 := by omega
  simp [decodeNat, decodeEngine, hop, c0, hr]

theorem RoundTrip.gatR (o : OpHE) : RoundTrip.Statement (.gatR o) := by
  intro wf w h
  injection h with h
  subst h
  have bh := o.h.isLt
  have bd := o.d.isLt
  have bk := o.k.isLt
  have e : BitVec.toNat (BitVec.ofNat 32 (2600468488 + o.h.toNat * 65536 + o.d.toNat * 1024 + o.k.toNat)) = (2600468488 + o.h.toNat * 65536 + o.d.toNat * 1024 + o.k.toNat) := word_toNat (by omega)
  unfold decode
  rw [e]
  have hr : rdHE (2600468488 + o.h.toNat * 65536 + o.d.toNat * 1024 + o.k.toNat) = o := by
    obtain ⟨h, d, k⟩ := o
    simp only [rdHE, OpHE.mk.injEq]
    simp only at *
    exact ⟨field_of_bits _ _ (by omega), field_of_bits _ _ (by omega), field_of_bits _ _ (by omega)⟩
  generalize hu : (2600468488 + o.h.toNat * 65536 + o.d.toNat * 1024 + o.k.toNat) = u at *
  have hop : u / 8388608 % 512 = 310 := by omega
  have c0 : u / 8 % 128 = 1 := by omega
  simp [decodeNat, decodeEngine, hop, c0, hr]

theorem RoundTrip.scat (o : OpHE) : RoundTrip.Statement (.scat o) := by
  intro wf w h
  injection h with h
  subst h
  have bh := o.h.isLt
  have bd := o.d.isLt
  have bk := o.k.isLt
  obtain ⟨e, hop⟩ := rdHE_enc_op 2608857088 (by decide) (by decide) o
  unfold decode
  rw [e]
  have hr := rdHE_enc 2608857088 (by decide) o
  generalize hu : (2608857088 + o.h.toNat * 65536 + o.d.toNat * 1024 + o.k.toNat) = u at *
  have c0 : u / 8 % 128 = 0 := by omega
  simp [decodeNat, decodeEngine, hop, c0, hr]

theorem RoundTrip.scatR (o : OpHE) : RoundTrip.Statement (.scatR o) := by
  intro wf w h
  injection h with h
  subst h
  have bh := o.h.isLt
  have bd := o.d.isLt
  have bk := o.k.isLt
  have e : BitVec.toNat (BitVec.ofNat 32 (2608857096 + o.h.toNat * 65536 + o.d.toNat * 1024 + o.k.toNat)) = (2608857096 + o.h.toNat * 65536 + o.d.toNat * 1024 + o.k.toNat) := word_toNat (by omega)
  unfold decode
  rw [e]
  have hr : rdHE (2608857096 + o.h.toNat * 65536 + o.d.toNat * 1024 + o.k.toNat) = o := by
    obtain ⟨h, d, k⟩ := o
    simp only [rdHE, OpHE.mk.injEq]
    simp only at *
    exact ⟨field_of_bits _ _ (by omega), field_of_bits _ _ (by omega), field_of_bits _ _ (by omega)⟩
  generalize hu : (2608857096 + o.h.toNat * 65536 + o.d.toNat * 1024 + o.k.toNat) = u at *
  have hop : u / 8388608 % 512 = 311 := by omega
  have c0 : u / 8 % 128 = 1 := by omega
  simp [decodeNat, decodeEngine, hop, c0, hr]

theorem RoundTrip.coll (o : OpE) : RoundTrip.Statement (.coll o) := by
  intro wf w h
  injection h with h
  subst h
  have bd := o.d.isLt
  have bk := o.k.isLt
  obtain ⟨e, hop⟩ := rdE_enc_op 2617245696 (by decide) (by decide) o
  unfold decode
  rw [e]
  have hr := rdE_enc 2617245696 (by decide) o
  generalize hu : (2617245696 + o.d.toNat * 1024 + o.k.toNat) = u at *
  have c0 : u / 8 % 128 = 0 := by omega
  have c1 : u / 65536 % 128 = 0 := by omega
  simp [decodeNat, decodeEngine, hop, c0, c1, hr]

theorem RoundTrip.collR (o : OpE) : RoundTrip.Statement (.collR o) := by
  intro wf w h
  injection h with h
  subst h
  have bd := o.d.isLt
  have bk := o.k.isLt
  have e : BitVec.toNat (BitVec.ofNat 32 (2617245704 + o.d.toNat * 1024 + o.k.toNat)) = (2617245704 + o.d.toNat * 1024 + o.k.toNat) := word_toNat (by omega)
  unfold decode
  rw [e]
  have hr : rdE (2617245704 + o.d.toNat * 1024 + o.k.toNat) = o := by
    obtain ⟨d, k⟩ := o
    simp only [rdE, OpE.mk.injEq]
    simp only at *
    exact ⟨field_of_bits _ _ (by omega), field_of_bits _ _ (by omega)⟩
  generalize hu : (2617245704 + o.d.toNat * 1024 + o.k.toNat) = u at *
  have hop : u / 8388608 % 512 = 312 := by omega
  have c0 : u / 8 % 128 = 1 := by omega
  have c1 : u / 65536 % 128 = 0 := by omega
  simp [decodeNat, decodeEngine, hop, c0, c1, hr]

theorem RoundTrip.mloop (o : OpMloop) : RoundTrip.Statement (.mloop o) := by
  intro wf w h
  injection h with h
  subst h
  have bd := o.d.isLt
  have bf := o.f.isLt
  have bk := o.k.isLt
  obtain ⟨e, hop⟩ := rdMloop_enc_op 2625634304 (by decide) (by decide) o
  unfold decode
  rw [e]
  have hr := rdMloop_enc 2625634304 (by decide) o
  generalize hu : (2625634304 + o.d.toNat * 1024 + o.f.toNat * 16 + o.k.toNat) = u at *
  have c0 : u / 8 % 2 = 0 := by omega
  have c1 : u / 65536 % 128 = 0 := by omega
  simp [decodeNat, decodeEngine, hop, c0, c1, hr]

theorem RoundTrip.maccZ (o : OpAcc) : RoundTrip.Statement (.maccZ o) := by
  intro wf w h
  injection h with h
  subst h
  have bn1 := o.n1.isLt
  have bb := o.b.isLt
  have bk := o.k.isLt
  obtain ⟨e, hop⟩ := rdAcc_enc_op 2634022912 (by decide) (by decide) o
  unfold decode
  rw [e]
  have hr := rdAcc_enc 2634022912 (by decide) o
  generalize hu : (2634022912 + o.n1.toNat * 524288 + o.b.toNat * 65536 + o.k.toNat) = u at *
  have c0 : u / 8 % 8192 = 0 := by omega
  have c1 : u / 4194304 % 2 = 0 := by omega
  simp [decodeNat, decodeEngine, hop, c0, c1, hr]

theorem RoundTrip.maccZR (o : OpAcc) : RoundTrip.Statement (.maccZR o) := by
  intro wf w h
  injection h with h
  subst h
  have bn1 := o.n1.isLt
  have bb := o.b.isLt
  have bk := o.k.isLt
  have e : BitVec.toNat (BitVec.ofNat 32 (2634022920 + o.n1.toNat * 524288 + o.b.toNat * 65536 + o.k.toNat)) = (2634022920 + o.n1.toNat * 524288 + o.b.toNat * 65536 + o.k.toNat) := word_toNat (by omega)
  unfold decode
  rw [e]
  have hr : rdAcc (2634022920 + o.n1.toNat * 524288 + o.b.toNat * 65536 + o.k.toNat) = o := by
    obtain ⟨n1, b, k⟩ := o
    simp only [rdAcc, OpAcc.mk.injEq]
    simp only at *
    exact ⟨field_of_bits _ _ (by omega), field_of_bits _ _ (by omega), field_of_bits _ _ (by omega)⟩
  generalize hu : (2634022920 + o.n1.toNat * 524288 + o.b.toNat * 65536 + o.k.toNat) = u at *
  have hop : u / 8388608 % 512 = 314 := by omega
  have c0 : u / 8 % 8192 = 1 := by omega
  have c1 : u / 4194304 % 2 = 0 := by omega
  simp [decodeNat, decodeEngine, hop, c0, c1, hr]

theorem RoundTrip.maccLd (o : OpAccD) : RoundTrip.Statement (.maccLd o) := by
  intro wf w h
  injection h with h
  subst h
  have bn1 := o.n1.isLt
  have bb := o.b.isLt
  have bd := o.d.isLt
  have bk := o.k.isLt
  obtain ⟨e, hop⟩ := rdAccD_enc_op 2642411520 (by decide) (by decide) o
  unfold decode
  rw [e]
  have hr := rdAccD_enc 2642411520 (by decide) o
  generalize hu : (2642411520 + o.n1.toNat * 524288 + o.b.toNat * 65536 + o.d.toNat * 1024 + o.k.toNat) = u at *
  have c0 : u / 8 % 128 = 0 := by omega
  have c1 : u / 4194304 % 2 = 0 := by omega
  simp [decodeNat, decodeEngine, hop, c0, c1, hr]

theorem RoundTrip.maccLdR (o : OpAccD) : RoundTrip.Statement (.maccLdR o) := by
  intro wf w h
  injection h with h
  subst h
  have bn1 := o.n1.isLt
  have bb := o.b.isLt
  have bd := o.d.isLt
  have bk := o.k.isLt
  have e : BitVec.toNat (BitVec.ofNat 32 (2642411528 + o.n1.toNat * 524288 + o.b.toNat * 65536 + o.d.toNat * 1024 + o.k.toNat)) = (2642411528 + o.n1.toNat * 524288 + o.b.toNat * 65536 + o.d.toNat * 1024 + o.k.toNat) := word_toNat (by omega)
  unfold decode
  rw [e]
  have hr : rdAccD (2642411528 + o.n1.toNat * 524288 + o.b.toNat * 65536 + o.d.toNat * 1024 + o.k.toNat) = o := by
    obtain ⟨n1, b, d, k⟩ := o
    simp only [rdAccD, OpAccD.mk.injEq]
    simp only at *
    exact ⟨field_of_bits _ _ (by omega), field_of_bits _ _ (by omega), field_of_bits _ _ (by omega), field_of_bits _ _ (by omega)⟩
  generalize hu : (2642411528 + o.n1.toNat * 524288 + o.b.toNat * 65536 + o.d.toNat * 1024 + o.k.toNat) = u at *
  have hop : u / 8388608 % 512 = 315 := by omega
  have c0 : u / 8 % 128 = 1 := by omega
  have c1 : u / 4194304 % 2 = 0 := by omega
  simp [decodeNat, decodeEngine, hop, c0, c1, hr]

theorem RoundTrip.maccSt (o : OpAccD) : RoundTrip.Statement (.maccSt o) := by
  intro wf w h
  injection h with h
  subst h
  have bn1 := o.n1.isLt
  have bb := o.b.isLt
  have bd := o.d.isLt
  have bk := o.k.isLt
  obtain ⟨e, hop⟩ := rdAccD_enc_op 2650800128 (by decide) (by decide) o
  unfold decode
  rw [e]
  have hr := rdAccD_enc 2650800128 (by decide) o
  generalize hu : (2650800128 + o.n1.toNat * 524288 + o.b.toNat * 65536 + o.d.toNat * 1024 + o.k.toNat) = u at *
  have c0 : u / 8 % 128 = 0 := by omega
  have c1 : u / 4194304 % 2 = 0 := by omega
  simp [decodeNat, decodeEngine, hop, c0, c1, hr]

theorem RoundTrip.maccStR (o : OpAccD) : RoundTrip.Statement (.maccStR o) := by
  intro wf w h
  injection h with h
  subst h
  have bn1 := o.n1.isLt
  have bb := o.b.isLt
  have bd := o.d.isLt
  have bk := o.k.isLt
  have e : BitVec.toNat (BitVec.ofNat 32 (2650800136 + o.n1.toNat * 524288 + o.b.toNat * 65536 + o.d.toNat * 1024 + o.k.toNat)) = (2650800136 + o.n1.toNat * 524288 + o.b.toNat * 65536 + o.d.toNat * 1024 + o.k.toNat) := word_toNat (by omega)
  unfold decode
  rw [e]
  have hr : rdAccD (2650800136 + o.n1.toNat * 524288 + o.b.toNat * 65536 + o.d.toNat * 1024 + o.k.toNat) = o := by
    obtain ⟨n1, b, d, k⟩ := o
    simp only [rdAccD, OpAccD.mk.injEq]
    simp only at *
    exact ⟨field_of_bits _ _ (by omega), field_of_bits _ _ (by omega), field_of_bits _ _ (by omega), field_of_bits _ _ (by omega)⟩
  generalize hu : (2650800136 + o.n1.toNat * 524288 + o.b.toNat * 65536 + o.d.toNat * 1024 + o.k.toNat) = u at *
  have hop : u / 8388608 % 512 = 316 := by omega
  have c0 : u / 8 % 128 = 1 := by omega
  have c1 : u / 4194304 % 2 = 0 := by omega
  simp [decodeNat, decodeEngine, hop, c0, c1, hr]

theorem RoundTrip.ewait (o : OpEw) : RoundTrip.Statement (.ewait o) := by
  intro wf w h
  injection h with h
  subst h
  have bn := o.n.isLt
  have bk := o.k.isLt
  obtain ⟨e, hop⟩ := rdEw_enc_op 2659188736 (by decide) (by decide) o
  unfold decode
  rw [e]
  have hr := rdEw_enc 2659188736 (by decide) o
  generalize hu : (2659188736 + o.n.toNat * 65536 + o.k.toNat) = u at *
  have c0 : u / 8 % 8192 = 0 := by omega
  simp [decodeNat, decodeEngine, hop, c0, hr]

theorem RoundTrip.epoll (o : OpE) : RoundTrip.Statement (.epoll o) := by
  intro wf w h
  injection h with h
  subst h
  have bd := o.d.isLt
  have bk := o.k.isLt
  obtain ⟨e, hop⟩ := rdE_enc_op 2667577344 (by decide) (by decide) o
  unfold decode
  rw [e]
  have hr := rdE_enc 2667577344 (by decide) o
  generalize hu : (2667577344 + o.d.toNat * 1024 + o.k.toNat) = u at *
  have c0 : u / 8 % 128 = 0 := by omega
  have c1 : u / 65536 % 128 = 0 := by omega
  simp [decodeNat, decodeEngine, hop, c0, c1, hr]

theorem RoundTrip.taskSig (o : OpSN) : RoundTrip.Statement (.taskSig o) := by
  intro wf w h
  injection h with h
  subst h
  have bs := o.s.isLt
  have bn := o.n.isLt
  obtain ⟨e, hop⟩ := rdSN_enc_op 2684354560 (by decide) (by decide) o
  unfold decode
  rw [e]
  have hr := rdSN_enc 2684354560 (by decide) o
  generalize hu : (2684354560 + o.s.toNat * 512 + o.n.toNat) = u at *
  have c0 : u / 32768 % 256 = 0 := by omega
  simp [decodeNat, decodeSystem, hop, c0, hr]

theorem RoundTrip.taskPost (o : OpSN) : RoundTrip.Statement (.taskPost o) := by
  intro wf w h
  injection h with h
  subst h
  have bs := o.s.isLt
  have bn := o.n.isLt
  obtain ⟨e, hop⟩ := rdSN_enc_op 2692743168 (by decide) (by decide) o
  unfold decode
  rw [e]
  have hr := rdSN_enc 2692743168 (by decide) o
  generalize hu : (2692743168 + o.s.toNat * 512 + o.n.toNat) = u at *
  have c0 : u / 32768 % 256 = 0 := by omega
  simp [decodeNat, decodeSystem, hop, c0, hr]

theorem RoundTrip.taskDone : RoundTrip.Statement .taskDone := by
  intro _ w h
  injection h with h
  subst h
  decide

theorem RoundTrip.trap (o : OpN9) : RoundTrip.Statement (.trap o) := by
  intro wf w h
  injection h with h
  subst h
  have bn := o.n.isLt
  obtain ⟨e, hop⟩ := rdN9_enc_op 2818572288 (by decide) (by decide) o
  unfold decode
  rw [e]
  have hr := rdN9_enc 2818572288 (by decide) o
  generalize hu : (2818572288 + o.n.toNat) = u at *
  have c0 : u / 512 % 16384 = 0 := by omega
  simp [decodeNat, decodeSystem, hop, c0, hr]

theorem RoundTrip.rte : RoundTrip.Statement .rte := by
  intro _ w h
  injection h with h
  subst h
  decide

theorem RoundTrip.csrr (o : OpSN) : RoundTrip.Statement (.csrr o) := by
  intro wf w h
  injection h with h
  subst h
  have bs := o.s.isLt
  have bn := o.n.isLt
  obtain ⟨e, hop⟩ := rdSN_enc_op 2835349504 (by decide) (by decide) o
  unfold decode
  rw [e]
  have hr := rdSN_enc 2835349504 (by decide) o
  generalize hu : (2835349504 + o.s.toNat * 512 + o.n.toNat) = u at *
  have c0 : u / 32768 % 256 = 0 := by omega
  simp [decodeNat, decodeSystem, hop, c0, hr]

theorem RoundTrip.csrw (o : OpSN) : RoundTrip.Statement (.csrw o) := by
  intro wf w h
  injection h with h
  subst h
  have bs := o.s.isLt
  have bn := o.n.isLt
  obtain ⟨e, hop⟩ := rdSN_enc_op 2843738112 (by decide) (by decide) o
  unfold decode
  rw [e]
  have hr := rdSN_enc 2843738112 (by decide) o
  generalize hu : (2843738112 + o.s.toNat * 512 + o.n.toNat) = u at *
  have c0 : u / 32768 % 256 = 0 := by omega
  simp [decodeNat, decodeSystem, hop, c0, hr]

theorem RoundTrip.csrs (o : OpSN) : RoundTrip.Statement (.csrs o) := by
  intro wf w h
  injection h with h
  subst h
  have bs := o.s.isLt
  have bn := o.n.isLt
  obtain ⟨e, hop⟩ := rdSN_enc_op 2852126720 (by decide) (by decide) o
  unfold decode
  rw [e]
  have hr := rdSN_enc 2852126720 (by decide) o
  generalize hu : (2852126720 + o.s.toNat * 512 + o.n.toNat) = u at *
  have c0 : u / 32768 % 256 = 0 := by omega
  simp [decodeNat, decodeSystem, hop, c0, hr]

theorem RoundTrip.csrc (o : OpSN) : RoundTrip.Statement (.csrc o) := by
  intro wf w h
  injection h with h
  subst h
  have bs := o.s.isLt
  have bn := o.n.isLt
  obtain ⟨e, hop⟩ := rdSN_enc_op 2860515328 (by decide) (by decide) o
  unfold decode
  rw [e]
  have hr := rdSN_enc 2860515328 (by decide) o
  generalize hu : (2860515328 + o.s.toNat * 512 + o.n.toNat) = u at *
  have c0 : u / 32768 % 256 = 0 := by omega
  simp [decodeNat, decodeSystem, hop, c0, hr]

theorem RoundTrip.brk (o : OpN9) : RoundTrip.Statement (.brk o) := by
  intro wf w h
  injection h with h
  subst h
  have bn := o.n.isLt
  obtain ⟨e, hop⟩ := rdN9_enc_op 2868903936 (by decide) (by decide) o
  unfold decode
  rw [e]
  have hr := rdN9_enc 2868903936 (by decide) o
  generalize hu : (2868903936 + o.n.toNat) = u at *
  have c0 : u / 512 % 16384 = 0 := by omega
  simp [decodeNat, decodeSystem, hop, c0, hr]

theorem RoundTrip.pmcRead (o : OpSN) : RoundTrip.Statement (.pmcRead o) := by
  intro wf w h
  injection h with h
  subst h
  have bs := o.s.isLt
  have bn := o.n.isLt
  obtain ⟨e, hop⟩ := rdSN_enc_op 2877292544 (by decide) (by decide) o
  unfold decode
  rw [e]
  have hr := rdSN_enc 2877292544 (by decide) o
  generalize hu : (2877292544 + o.s.toNat * 512 + o.n.toNat) = u at *
  have c0 : u / 32768 % 256 = 0 := by omega
  simp [decodeNat, decodeSystem, hop, c0, hr]

theorem RoundTrip.pmcReadClear (o : OpSN) : RoundTrip.Statement (.pmcReadClear o) := by
  intro wf w h
  injection h with h
  subst h
  have bs := o.s.isLt
  have bn := o.n.isLt
  have e : BitVec.toNat (BitVec.ofNat 32 (2877325312 + o.s.toNat * 512 + o.n.toNat)) = (2877325312 + o.s.toNat * 512 + o.n.toNat) := word_toNat (by omega)
  unfold decode
  rw [e]
  have hr : rdSN (2877325312 + o.s.toNat * 512 + o.n.toNat) = o := by
    obtain ⟨s, n⟩ := o
    simp only [rdSN, OpSN.mk.injEq]
    simp only at *
    exact ⟨field_of_bits _ _ (by omega), field_of_bits _ _ (by omega)⟩
  generalize hu : (2877325312 + o.s.toNat * 512 + o.n.toNat) = u at *
  have hop : u / 8388608 % 512 = 343 := by omega
  have c0 : u / 32768 % 256 = 1 := by omega
  simp [decodeNat, decodeSystem, hop, c0, hr]

theorem RoundTrip.icinv (o : OpSN) : RoundTrip.Statement (.icinv o) := by
  intro wf w h
  injection h with h
  subst h
  have bs := o.s.isLt
  have bn := o.n.isLt
  obtain ⟨e, hop⟩ := rdSN_enc_op 2885681152 (by decide) (by decide) o
  unfold decode
  rw [e]
  have hr := rdSN_enc 2885681152 (by decide) o
  generalize hu : (2885681152 + o.s.toNat * 512 + o.n.toNat) = u at *
  have c0 : u / 32768 % 256 = 0 := by omega
  simp [decodeNat, decodeSystem, hop, c0, hr]

theorem RoundTrip.plbInv (o : OpPlb) : RoundTrip.Statement (.plbInv o) := by
  intro wf w h
  injection h with h
  subst h
  have bk := o.k.isLt
  have bs := o.s.isLt
  obtain ⟨e, hop⟩ := rdPlb_enc_op 2894069760 (by decide) (by decide) o
  unfold decode
  rw [e]
  have hr := rdPlb_enc 2894069760 (by decide) o
  generalize hu : (2894069760 + o.k.toNat * 32768 + o.s.toNat * 512) = u at *
  have c0 : u % 512 = 0 := by omega
  simp [decodeNat, decodeSystem, hop, c0, hr]

theorem RoundTrip.hcOpEntry (o : OpS6) : RoundTrip.Statement (.hcOpEntry o) := by
  intro wf w h
  injection h with h
  subst h
  have bs := o.s.isLt
  obtain ⟨e, hop⟩ := rdS6_3_enc_op 2902458368 (by decide) (by decide) o
  unfold decode
  rw [e]
  have hr := rdS6_3_enc 2902458368 (by decide) o
  generalize hu : (2902458368 + o.s.toNat * 512) = u at *
  have c0 : u % 512 = 0 := by omega
  have c1 : u / 32768 % 256 = 0 := by omega
  simp [decodeNat, decodeSystem, hop, c0, c1, hr]

theorem RoundTrip.hcOpRoot (o : OpS6) : RoundTrip.Statement (.hcOpRoot o) := by
  intro wf w h
  injection h with h
  subst h
  have bs := o.s.isLt
  have e : BitVec.toNat (BitVec.ofNat 32 (2902491136 + o.s.toNat * 512)) = (2902491136 + o.s.toNat * 512) := word_toNat (by omega)
  unfold decode
  rw [e]
  have hr : rdS6_3 (2902491136 + o.s.toNat * 512) = o := by
    obtain ⟨s⟩ := o
    simp only [rdS6_3, OpS6.mk.injEq]
    simp only at *
    exact field_of_bits _ _ (by omega)
  generalize hu : (2902491136 + o.s.toNat * 512) = u at *
  have hop : u / 8388608 % 512 = 346 := by omega
  have c0 : u % 512 = 0 := by omega
  have c1 : u / 32768 % 256 = 1 := by omega
  simp [decodeNat, decodeSystem, hop, c0, c1, hr]

theorem RoundTrip.hcOpFrame (o : OpS6) : RoundTrip.Statement (.hcOpFrame o) := by
  intro wf w h
  injection h with h
  subst h
  have bs := o.s.isLt
  have e : BitVec.toNat (BitVec.ofNat 32 (2902523904 + o.s.toNat * 512)) = (2902523904 + o.s.toNat * 512) := word_toNat (by omega)
  unfold decode
  rw [e]
  have hr : rdS6_3 (2902523904 + o.s.toNat * 512) = o := by
    obtain ⟨s⟩ := o
    simp only [rdS6_3, OpS6.mk.injEq]
    simp only at *
    exact field_of_bits _ _ (by omega)
  generalize hu : (2902523904 + o.s.toNat * 512) = u at *
  have hop : u / 8388608 % 512 = 346 := by omega
  have c0 : u % 512 = 0 := by omega
  have c1 : u / 32768 % 256 = 2 := by omega
  simp [decodeNat, decodeSystem, hop, c0, c1, hr]

theorem RoundTrip.hcOpMigrate (o : OpS6) : RoundTrip.Statement (.hcOpMigrate o) := by
  intro wf w h
  injection h with h
  subst h
  have bs := o.s.isLt
  have e : BitVec.toNat (BitVec.ofNat 32 (2902556672 + o.s.toNat * 512)) = (2902556672 + o.s.toNat * 512) := word_toNat (by omega)
  unfold decode
  rw [e]
  have hr : rdS6_3 (2902556672 + o.s.toNat * 512) = o := by
    obtain ⟨s⟩ := o
    simp only [rdS6_3, OpS6.mk.injEq]
    simp only at *
    exact field_of_bits _ _ (by omega)
  generalize hu : (2902556672 + o.s.toNat * 512) = u at *
  have hop : u / 8388608 % 512 = 346 := by omega
  have c0 : u % 512 = 0 := by omega
  have c1 : u / 32768 % 256 = 3 := by omega
  simp [decodeNat, decodeSystem, hop, c0, c1, hr]

theorem RoundTrip.hcOpReplay (o : OpS6) : RoundTrip.Statement (.hcOpReplay o) := by
  intro wf w h
  injection h with h
  subst h
  have bs := o.s.isLt
  have e : BitVec.toNat (BitVec.ofNat 32 (2902589440 + o.s.toNat * 512)) = (2902589440 + o.s.toNat * 512) := word_toNat (by omega)
  unfold decode
  rw [e]
  have hr : rdS6_3 (2902589440 + o.s.toNat * 512) = o := by
    obtain ⟨s⟩ := o
    simp only [rdS6_3, OpS6.mk.injEq]
    simp only at *
    exact field_of_bits _ _ (by omega)
  generalize hu : (2902589440 + o.s.toNat * 512) = u at *
  have hop : u / 8388608 % 512 = 346 := by omega
  have c0 : u % 512 = 0 := by omega
  have c1 : u / 32768 % 256 = 4 := by omega
  simp [decodeNat, decodeSystem, hop, c0, c1, hr]

theorem RoundTrip.hcOpDrop (o : OpS6) : RoundTrip.Statement (.hcOpDrop o) := by
  intro wf w h
  injection h with h
  subst h
  have bs := o.s.isLt
  have e : BitVec.toNat (BitVec.ofNat 32 (2902622208 + o.s.toNat * 512)) = (2902622208 + o.s.toNat * 512) := word_toNat (by omega)
  unfold decode
  rw [e]
  have hr : rdS6_3 (2902622208 + o.s.toNat * 512) = o := by
    obtain ⟨s⟩ := o
    simp only [rdS6_3, OpS6.mk.injEq]
    simp only at *
    exact field_of_bits _ _ (by omega)
  generalize hu : (2902622208 + o.s.toNat * 512) = u at *
  have hop : u / 8388608 % 512 = 346 := by omega
  have c0 : u % 512 = 0 := by omega
  have c1 : u / 32768 % 256 = 5 := by omega
  simp [decodeNat, decodeSystem, hop, c0, c1, hr]

theorem RoundTrip.hcOpUnhold (o : OpS6) : RoundTrip.Statement (.hcOpUnhold o) := by
  intro wf w h
  injection h with h
  subst h
  have bs := o.s.isLt
  have e : BitVec.toNat (BitVec.ofNat 32 (2902654976 + o.s.toNat * 512)) = (2902654976 + o.s.toNat * 512) := word_toNat (by omega)
  unfold decode
  rw [e]
  have hr : rdS6_3 (2902654976 + o.s.toNat * 512) = o := by
    obtain ⟨s⟩ := o
    simp only [rdS6_3, OpS6.mk.injEq]
    simp only at *
    exact field_of_bits _ _ (by omega)
  generalize hu : (2902654976 + o.s.toNat * 512) = u at *
  have hop : u / 8388608 % 512 = 346 := by omega
  have c0 : u % 512 = 0 := by omega
  have c1 : u / 32768 % 256 = 6 := by omega
  simp [decodeNat, decodeSystem, hop, c0, c1, hr]

theorem RoundTrip.hcOpRead (o : OpS6) : RoundTrip.Statement (.hcOpRead o) := by
  intro wf w h
  injection h with h
  subst h
  have bs := o.s.isLt
  have e : BitVec.toNat (BitVec.ofNat 32 (2902687744 + o.s.toNat * 512)) = (2902687744 + o.s.toNat * 512) := word_toNat (by omega)
  unfold decode
  rw [e]
  have hr : rdS6_3 (2902687744 + o.s.toNat * 512) = o := by
    obtain ⟨s⟩ := o
    simp only [rdS6_3, OpS6.mk.injEq]
    simp only at *
    exact field_of_bits _ _ (by omega)
  generalize hu : (2902687744 + o.s.toNat * 512) = u at *
  have hop : u / 8388608 % 512 = 346 := by omega
  have c0 : u % 512 = 0 := by omega
  have c1 : u / 32768 % 256 = 7 := by omega
  simp [decodeNat, decodeSystem, hop, c0, c1, hr]

theorem RoundTrip.atomX (o : OpXn) : RoundTrip.Statement (.atomX o) := by
  intro wf w h
  injection h with h
  subst h
  have bn := o.n.isLt
  have bcls := o.cls.isLt
  have bd := o.d.isLt
  have bpeer := o.peer.isLt
  have ba := o.a.isLt
  have bta := Bool.toNat_le o.ta
  simp [wellFormed, isAtomXCode] at wf
  have e : BitVec.toNat (BitVec.ofNat 32 (3221225472 + o.n.toNat * 8388608 + o.cls.toNat * 2097152 + o.d.toNat * 16384 + o.peer.toNat * 512 + o.a.toNat * 4 + o.ta.toNat * 2)) = (3221225472 + o.n.toNat * 8388608 + o.cls.toNat * 2097152 + o.d.toNat * 16384 + o.peer.toNat * 512 + o.a.toNat * 4 + o.ta.toNat * 2) := word_toNat (by omega)
  unfold decode
  rw [e]
  have hr := rdXn_enc 3221225472 (by decide) o
  generalize hu : (3221225472 + o.n.toNat * 8388608 + o.cls.toNat * 2097152 + o.d.toNat * 16384 + o.peer.toNat * 512 + o.a.toNat * 4 + o.ta.toNat * 2) = u at *
  have hlo : 384 ≤ u / 8388608 % 512 := by omega
  have hhi : u / 8388608 % 512 < 416 := by omega
  have c0 : u % 2 = 0 := by omega
  have g : ∀ m, m ≤ 384 → ¬ u / 8388608 % 512 < m := fun m hm => by omega
  simp [decodeNat, g, hhi, c0, hr]

theorem RoundTrip.redX (o : OpXn) : RoundTrip.Statement (.redX o) := by
  intro wf w h
  injection h with h
  subst h
  have bn := o.n.isLt
  have bcls := o.cls.isLt
  have bd := o.d.isLt
  have bpeer := o.peer.isLt
  have ba := o.a.isLt
  have bta := Bool.toNat_le o.ta
  simp [wellFormed] at wf
  have e : BitVec.toNat (BitVec.ofNat 32 (3489660928 + o.n.toNat * 8388608 + o.cls.toNat * 2097152 + o.d.toNat * 16384 + o.peer.toNat * 512 + o.a.toNat * 4 + o.ta.toNat * 2)) = (3489660928 + o.n.toNat * 8388608 + o.cls.toNat * 2097152 + o.d.toNat * 16384 + o.peer.toNat * 512 + o.a.toNat * 4 + o.ta.toNat * 2) := word_toNat (by omega)
  unfold decode
  rw [e]
  have hr := rdXn_enc 3489660928 (by decide) o
  generalize hu : (3489660928 + o.n.toNat * 8388608 + o.cls.toNat * 2097152 + o.d.toNat * 16384 + o.peer.toNat * 512 + o.a.toNat * 4 + o.ta.toNat * 2) = u at *
  have hlo : 416 ≤ u / 8388608 % 512 := by omega
  have hhi : u / 8388608 % 512 < 448 := by omega
  have c0 : u % 2 = 0 := by omega
  have g : ∀ m, m ≤ 416 → ¬ u / 8388608 % 512 < m := fun m hm => by omega
  simp [decodeNat, g, hhi, c0, hr]

theorem RoundTrip.regang : RoundTrip.Statement .regang := RoundTrip.no_word rfl

theorem RoundTrip.loadResultArrive : RoundTrip.Statement .loadResultArrive := RoundTrip.no_word rfl

theorem RoundTrip.loadFaultResponse : RoundTrip.Statement .loadFaultResponse := RoundTrip.no_word rfl

theorem RoundTrip.storeAck : RoundTrip.Statement .storeAck := RoundTrip.no_word rfl

theorem RoundTrip.turnAdmit : RoundTrip.Statement .turnAdmit := RoundTrip.no_word rfl

theorem RoundTrip.detLoadPerform : RoundTrip.Statement .detLoadPerform := RoundTrip.no_word rfl

theorem RoundTrip.floorGatedAction : RoundTrip.Statement .floorGatedAction := RoundTrip.no_word rfl

theorem RoundTrip.crownFloorUpdate : RoundTrip.Statement .crownFloorUpdate := RoundTrip.no_word rfl

theorem RoundTrip.publicationArrive : RoundTrip.Statement .publicationArrive := RoundTrip.no_word rfl

theorem RoundTrip.publicationAck : RoundTrip.Statement .publicationAck := RoundTrip.no_word rfl

theorem RoundTrip.mittenUpdateArrive : RoundTrip.Statement .mittenUpdateArrive := RoundTrip.no_word rfl

theorem RoundTrip.redRefusalReturn : RoundTrip.Statement .redRefusalReturn := RoundTrip.no_word rfl

theorem RoundTrip.floorSideband : RoundTrip.Statement .floorSideband := RoundTrip.no_word rfl

theorem RoundTrip.floorSendInterval : RoundTrip.Statement .floorSendInterval := RoundTrip.no_word rfl

theorem RoundTrip.barrierComplete : RoundTrip.Statement .barrierComplete := RoundTrip.no_word rfl

theorem RoundTrip.engineDispatch : RoundTrip.Statement .engineDispatch := RoundTrip.no_word rfl

theorem RoundTrip.matrixPassGrant : RoundTrip.Statement .matrixPassGrant := RoundTrip.no_word rfl

theorem RoundTrip.engineFinish : RoundTrip.Statement .engineFinish := RoundTrip.no_word rfl

theorem RoundTrip.ewaitComplete : RoundTrip.Statement .ewaitComplete := RoundTrip.no_word rfl

theorem RoundTrip.engineAccessFault : RoundTrip.Statement .engineAccessFault := RoundTrip.no_word rfl

theorem RoundTrip.matrixOperandFault : RoundTrip.Statement .matrixOperandFault := RoundTrip.no_word rfl

theorem RoundTrip.collectiveTimeout : RoundTrip.Statement .collectiveTimeout := RoundTrip.no_word rfl

theorem RoundTrip.deferredFaultRecord : RoundTrip.Statement .deferredFaultRecord := RoundTrip.no_word rfl

theorem RoundTrip.hcAccess : RoundTrip.Statement .hcAccess := RoundTrip.no_word rfl

theorem RoundTrip.turnStallWatchdog : RoundTrip.Statement .turnStallWatchdog := RoundTrip.no_word rfl

theorem RoundTrip.taskLeaveIntake : RoundTrip.Statement .taskLeaveIntake := RoundTrip.no_word rfl

theorem RoundTrip.domainDescriptorMatch : RoundTrip.Statement .domainDescriptorMatch := RoundTrip.no_word rfl

theorem RoundTrip.unitPlace : RoundTrip.Statement .unitPlace := RoundTrip.no_word rfl

theorem RoundTrip.opPointStable : RoundTrip.Statement .opPointStable := RoundTrip.no_word rfl

theorem RoundTrip.unitRetire : RoundTrip.Statement .unitRetire := RoundTrip.no_word rfl

theorem RoundTrip.launchRetire : RoundTrip.Statement .launchRetire := RoundTrip.no_word rfl

theorem RoundTrip.residencyPeriodEnd : RoundTrip.Statement .residencyPeriodEnd := RoundTrip.no_word rfl

theorem RoundTrip.turnDrivenSwapIn : RoundTrip.Statement .turnDrivenSwapIn := RoundTrip.no_word rfl

theorem RoundTrip.homeLocalLoad : RoundTrip.Statement .homeLocalLoad := RoundTrip.no_word rfl

theorem RoundTrip.homeLocalStore : RoundTrip.Statement .homeLocalStore := RoundTrip.no_word rfl

theorem RoundTrip.invalidationAck : RoundTrip.Statement .invalidationAck := RoundTrip.no_word rfl

theorem RoundTrip.invalidationArrive : RoundTrip.Statement .invalidationArrive := RoundTrip.no_word rfl

theorem RoundTrip.invalidationTimeout : RoundTrip.Statement .invalidationTimeout := RoundTrip.no_word rfl

theorem RoundTrip.fabricRequestArrive : RoundTrip.Statement .fabricRequestArrive := RoundTrip.no_word rfl

theorem RoundTrip.reservationExpire : RoundTrip.Statement .reservationExpire := RoundTrip.no_word rfl

theorem RoundTrip.refusalReceive : RoundTrip.Statement .refusalReceive := RoundTrip.no_word rfl

theorem RoundTrip.refusalResend : RoundTrip.Statement .refusalResend := RoundTrip.no_word rfl

theorem RoundTrip.intermediateForward : RoundTrip.Statement .intermediateForward := RoundTrip.no_word rfl

theorem RoundTrip.remoteResponse : RoundTrip.Statement .remoteResponse := RoundTrip.no_word rfl

theorem RoundTrip.remoteFaultResponse : RoundTrip.Statement .remoteFaultResponse := RoundTrip.no_word rfl

theorem RoundTrip.remoteTimeout : RoundTrip.Statement .remoteTimeout := RoundTrip.no_word rfl

theorem RoundTrip.floorSilenceTimeout : RoundTrip.Statement .floorSilenceTimeout := RoundTrip.no_word rfl

theorem RoundTrip.boundaryFilterProbe : RoundTrip.Statement .boundaryFilterProbe := RoundTrip.no_word rfl

theorem RoundTrip.boundaryFilterAnswer : RoundTrip.Statement .boundaryFilterAnswer := RoundTrip.no_word rfl

theorem RoundTrip.hostMemrd : RoundTrip.Statement .hostMemrd := RoundTrip.no_word rfl

theorem RoundTrip.hostMemwr : RoundTrip.Statement .hostMemwr := RoundTrip.no_word rfl

theorem RoundTrip.bisnpResponse : RoundTrip.Statement .bisnpResponse := RoundTrip.no_word rfl

theorem RoundTrip.hostSnpdata : RoundTrip.Statement .hostSnpdata := RoundTrip.no_word rfl

theorem RoundTrip.hostSnpinv : RoundTrip.Statement .hostSnpinv := RoundTrip.no_word rfl

theorem RoundTrip.hostSnpcur : RoundTrip.Statement .hostSnpcur := RoundTrip.no_word rfl

theorem RoundTrip.cxlCacheGrant : RoundTrip.Statement .cxlCacheGrant := RoundTrip.no_word rfl

theorem RoundTrip.hostAtomic : RoundTrip.Statement .hostAtomic := RoundTrip.no_word rfl

theorem RoundTrip.hostLinkLoss : RoundTrip.Statement .hostLinkLoss := RoundTrip.no_word rfl

theorem RoundTrip.hostLinkRetrain : RoundTrip.Statement .hostLinkRetrain := RoundTrip.no_word rfl

theorem RoundTrip.create : RoundTrip.Statement .create := RoundTrip.no_word rfl

theorem RoundTrip.destroy : RoundTrip.Statement .destroy := RoundTrip.no_word rfl

theorem RoundTrip.reset : RoundTrip.Statement .reset := RoundTrip.no_word rfl

theorem RoundTrip.query : RoundTrip.Statement .query := RoundTrip.no_word rfl

theorem RoundTrip.attest : RoundTrip.Statement .attest := RoundTrip.no_word rfl

theorem RoundTrip.powercap : RoundTrip.Statement .powercap := RoundTrip.no_word rfl

theorem RoundTrip.stage : RoundTrip.Statement .stage := RoundTrip.no_word rfl

theorem RoundTrip.startrec : RoundTrip.Statement .startrec := RoundTrip.no_word rfl

theorem RoundTrip.restart : RoundTrip.Statement .restart := RoundTrip.no_word rfl

theorem RoundTrip.spdmGetCertificate : RoundTrip.Statement .spdmGetCertificate := RoundTrip.no_word rfl

theorem RoundTrip.spdmChallenge : RoundTrip.Statement .spdmChallenge := RoundTrip.no_word rfl

theorem RoundTrip.spdmGetMeasurements : RoundTrip.Statement .spdmGetMeasurements := RoundTrip.no_word rfl

theorem RoundTrip.apertureMapWrite : RoundTrip.Statement .apertureMapWrite := RoundTrip.no_word rfl

theorem RoundTrip.fqConfigWrite : RoundTrip.Statement .fqConfigWrite := RoundTrip.no_word rfl

theorem RoundTrip.eselWrite : RoundTrip.Statement .eselWrite := RoundTrip.no_word rfl

theorem RoundTrip.registerWrite : RoundTrip.Statement .registerWrite := RoundTrip.no_word rfl

theorem RoundTrip.deviceStart : RoundTrip.Statement .deviceStart := RoundTrip.no_word rfl

theorem RoundTrip.startStepTimeout : RoundTrip.Statement .startStepTimeout := RoundTrip.no_word rfl

theorem RoundTrip.startRetry : RoundTrip.Statement .startRetry := RoundTrip.no_word rfl

theorem RoundTrip.powerCapExceed : RoundTrip.Statement .powerCapExceed := RoundTrip.no_word rfl

theorem RoundTrip.powerCapRelease : RoundTrip.Statement .powerCapRelease := RoundTrip.no_word rfl

theorem RoundTrip.thermalHold : RoundTrip.Statement .thermalHold := RoundTrip.no_word rfl

theorem RoundTrip.thermalHoldRelease : RoundTrip.Statement .thermalHoldRelease := RoundTrip.no_word rfl

theorem RoundTrip.thermalTrip : RoundTrip.Statement .thermalTrip := RoundTrip.no_word rfl

theorem RoundTrip.eccCorrected : RoundTrip.Statement .eccCorrected := RoundTrip.no_word rfl

theorem RoundTrip.eccUncorrectable : RoundTrip.Statement .eccUncorrectable := RoundTrip.no_word rfl

theorem RoundTrip.hbmScrub : RoundTrip.Statement .hbmScrub := RoundTrip.no_word rfl

theorem RoundTrip.illegalInstruction (w : BitVec 32) : RoundTrip.Statement (.illegalInstruction w) := RoundTrip.no_wf rfl

theorem RoundTrip.reservedEncoding (w : BitVec 32) : RoundTrip.Statement (.reservedEncoding w) := RoundTrip.no_wf rfl

theorem RoundTrip.plbFetchResponse : RoundTrip.Statement .plbFetchResponse := RoundTrip.no_word rfl

theorem RoundTrip.engineReadsDone : RoundTrip.Statement .engineReadsDone := RoundTrip.no_word rfl

theorem RoundTrip.configurationRequest : RoundTrip.Statement .configurationRequest := RoundTrip.no_word rfl

theorem RoundTrip.hostLinkDown : RoundTrip.Statement .hostLinkDown := RoundTrip.no_word rfl

theorem RoundTrip.thermalTripClear : RoundTrip.Statement .thermalTripClear := RoundTrip.no_word rfl

theorem RoundTrip.minimalPortFallback : RoundTrip.Statement .minimalPortFallback := RoundTrip.no_word rfl

end Sys2Proof.Laws
end

