-- ==== Sys2Proof/Laws/Scalar.lean ====
section
/-! SUPPORT. The results of the scalar rules in the words of the spec and in those of the model
(spec/09_isa_scalar_control.md R190 to R192). -/

namespace Sys2Proof.Machine


theorem shl_word (x y : Word) : BitVec.ofNat 64 (x.toNat * 2 ^ (y.toNat % 64)) = shlWord x y := by
  apply BitVec.eq_of_toNat_eq
  rw [shlWord, shiftOf, BitVec.toNat_ofNat, BitVec.toNat_shiftLeft, Nat.shiftLeft_eq]

theorem shr_word (x y : Word) : BitVec.ofNat 64 (x.toNat / 2 ^ (y.toNat % 64)) = shrWord x y := by
  apply BitVec.eq_of_toNat_eq
  have hx := x.isLt
  rw [shrWord, shiftOf, BitVec.toNat_ofNat, BitVec.toNat_ushiftRight, Nat.shiftRight_eq_div_pow, Nat.mod_eq_of_lt]
  exact Nat.lt_of_le_of_lt (Nat.div_le_self _ _) hx

theorem sra_word (x y : Word) : BitVec.ofInt 64 (x.toInt / 2 ^ (y.toNat % 64)) = sraWord x y := by
  have h := BitVec.toInt_sshiftRight (x := x) (n := shiftOf y)
  rw [sraWord, ← BitVec.ofInt_toInt (x := x.sshiftRight (shiftOf y)), h, Int.shiftRight_eq_div_pow]
  rfl

theorem mins_word (x y : Word) : BitVec.ofInt 64 (min x.toInt y.toInt) = if x.toInt ≤ y.toInt then x else y := by
  rw [min_def]
  split <;> exact BitVec.ofInt_toInt

theorem maxs_word (x y : Word) : BitVec.ofInt 64 (max x.toInt y.toInt) = if x.toInt ≤ y.toInt then y else x := by
  rw [max_def]
  split <;> exact BitVec.ofInt_toInt

theorem minn_word (x y : Word) : BitVec.ofNat 64 (min x.toNat y.toNat) = if x.toNat ≤ y.toNat then x else y := by
  rw [min_def]
  split <;> simp

theorem maxn_word (x y : Word) : BitVec.ofNat 64 (max x.toNat y.toNat) = if x.toNat ≤ y.toNat then y else x := by
  rw [max_def]
  split <;> simp

theorem bool_word (c : Prop) [Decidable c] : (if c then 1 else 0 : Word) = boolWord (decide c) := by
  by_cases h : c <;> simp [boolWord, h]


theorem udiv_word (x y : Word) : (if y = 0 then -1 else x / y) = udivWord x y := by
  unfold udivWord
  split
  · rfl
  · apply BitVec.eq_of_toNat_eq
    have hx := x.isLt
    rw [BitVec.toNat_udiv, BitVec.toNat_ofNat, Nat.mod_eq_of_lt]
    exact Nat.lt_of_le_of_lt (Nat.div_le_self _ _) hx

theorem srem_word (x y : Word) :
    (if y = 0 then x else BitVec.ofInt 64 (x.toInt - y.toInt * (x.toInt.tdiv y.toInt))) = sremWord x y := by
  unfold sremWord
  split
  · rfl
  · rw [Int.tmod_def]

theorem urem_word (x y : Word) : (if y = 0 then x else x - y * (x / y)) = uremWord x y := by
  unfold uremWord
  split
  · rfl
  · apply BitVec.eq_of_toNat_eq
    have hx := x.isLt
    have hm : x.toNat = y.toNat * (x.toNat / y.toNat) + x.toNat % y.toNat := (Nat.div_add_mod _ _).symm
    have hle : x.toNat % y.toNat ≤ x.toNat := Nat.mod_le _ _
    have hq : y.toNat * (x.toNat / y.toNat) ≤ x.toNat := Nat.mul_div_le _ _
    rw [BitVec.toNat_sub, BitVec.toNat_mul, BitVec.toNat_udiv, BitVec.toNat_ofNat]
    generalize y.toNat * (x.toNat / y.toNat) = q at *
    omega

theorem lea_word (x y : Word) : (x.extractLsb' 53 11 ++ (x.setWidth 53 + y.setWidth 53) : BitVec 64) = leaWord x y := by
  unfold leaWord
  apply BitVec.eq_of_toNat_eq
  have hx := x.isLt
  have hl : (x.toNat % 2 ^ 53 + y.toNat) % 2 ^ 53 < 2 ^ 53 := Nat.mod_lt _ (by decide)
  have h : (x.setWidth 53 + y.setWidth 53).toNat = (x.toNat % 2 ^ 53 + y.toNat) % 2 ^ 53 := by
    simp [BitVec.toNat_add]
  rw [BitVec.toNat_append, h, ← Nat.shiftLeft_add_eq_or_of_lt hl, BitVec.extractLsb'_toNat, BitVec.toNat_ofNat,
    Nat.shiftLeft_eq, Nat.shiftRight_eq_div_pow]
  omega

theorem takeWhile_shift (q : Nat → Bool) (n : Nat) :
    ((List.range n).map (· + 1)).takeWhile q = ((List.range n).takeWhile fun i => q (i + 1)).map (· + 1) := by
  rw [List.takeWhile_map]
  rfl

/-- Trailing zero bits are the zero bits counted from bit 0 up to the first one bit. -/
theorem ctz_count (w x : Nat) : ((List.range w).takeWhile fun i => !x.testBit i).length = ctzNat w x := by
  induction w generalizing x with
  | zero => rfl
  | succ w ih =>
    rw [List.range_succ_eq_map, List.takeWhile_cons]
    unfold ctzNat
    by_cases h : x % 2 = 1
    · simp [h, Nat.testBit_zero]
    · have h0 : x.testBit 0 = false := by simp [Nat.testBit_zero, h]
      have e : (fun i => !x.testBit (i + 1)) = fun i => !(x / 2).testBit i := by
        funext i
        rw [Nat.testBit_succ]
      simp only [h0, Bool.not_false, if_true, h, if_false, List.length_cons]
      rw [show List.map Nat.succ (List.range w) = (List.range w).map (· + 1) from rfl, takeWhile_shift, List.length_map, e, ih]

/-- One bits counted bit by bit. -/
theorem pop_count (w x : Nat) : ((List.range w).filter fun i => x.testBit i).length = popNat w x := by
  induction w generalizing x with
  | zero => rfl
  | succ w ih =>
    have e : ((fun i => x.testBit i) ∘ Nat.succ) = fun i => (x / 2).testBit i := by
      funext i
      rw [Function.comp_apply, Nat.testBit_succ]
    unfold popNat
    rw [List.range_succ_eq_map, List.filter_cons, List.filter_map, e, ← ih, Nat.testBit_zero]
    by_cases h : x % 2 = 1
    · simp only [h, decide_true, if_true, List.length_cons, List.length_map]
      omega
    · have h0 : x % 2 = 0 := by omega
      simp [h0]

/-- The length of the run of a condition that holds below L and fails at L. -/
theorem takeWhile_range (q : Nat → Bool) (n L : Nat) (hL : L ≤ n) (h1 : ∀ i, i < L → q i = true)
    (h2 : L = n ∨ q L = false) : ((List.range n).takeWhile q).length = L := by
  obtain ⟨m, rfl⟩ := Nat.exists_eq_add_of_le hL
  rw [List.range_add, List.takeWhile_append_of_pos (by simpa using h1)]
  cases m with
  | zero => simp
  | succ m =>
    have h : q L = false := by
      rcases h2 with h2 | h2
      · omega
      · exact h2
    rw [List.range_succ_eq_map]
    simp [h]

/-- Leading zero bits are the zero bits counted from bit w − 1 down to the first one bit. -/
theorem clz_count (w x : Nat) (hx : x < 2 ^ w) :
    ((List.range w).takeWhile fun i => !x.testBit (w - 1 - i)).length = clzNat w x := by
  unfold clzNat bitLength
  by_cases h : x = 0
  · subst h
    exact takeWhile_range _ w _ (by simp) (by simp) (.inl (by simp))
  · rw [if_neg h]
    have hl : Nat.log2 x < w := (Nat.log2_lt h).mpr hx
    refine takeWhile_range _ w _ (by omega) ?_ (.inr ?_)
    · intro i hi
      rw [Bool.not_eq_true', Nat.testBit_lt_two_pow]
      exact (Nat.log2_lt h).mp (by omega)
    · have e : w - 1 - (w - (Nat.log2 x + 1)) = Nat.log2 x := by omega
      rw [e, Nat.testBit_log2 h]
      rfl

end Sys2Proof.Machine
end

