-- ==== Sys2Proof/Tests/Slice0.lean ====
section
/-! SUPPORT. Tests: terms that are not well formed, words that decode, and states that meet the hypotheses of the statements
of Certificates/Slice0/Obligations.lean. Expected results are worked out by hand from the tables of the spec. -/

open Sys2Proof Sys2Proof.Machine Sys2Proof.Rules

namespace Sys2Proof.Tests

-- One proof after the other: each proof in progress holds a stack of its own, and all of them at once do not fit in memory.
set_option Elab.async false

/-! ### Terms that are not well formed (R8, R174, R176, R197, R203, R210, R218, R224, R238, R244, R254, R260) -/

theorem test_scalar_field_64 : wellFormed (.add { ta := false, tb := false, d := 64, a := 0, b := 0 }) = false := by decide
theorem test_vector_destination_96 : wellFormed (.vadd { ta := false, tb := false, d := 96, a := 0, b := 0 }) = false := by decide
theorem test_predicate_16 : wellFormed (.bany { s := 16, off := 1 }) = false := by decide
theorem test_predicate_destination_16 : wellFormed (.vvote { ta := false, d := 16, a := 0, k := 0 }) = false := by decide
theorem test_tile_64 : wellFormed (.tileOwn { h := 64 }) = false := by decide
theorem test_group_of_four_2 : wellFormed (.vcmp { ta := false, tb := false, d := 2, a := 0, b := 0 }) = false := by decide
theorem test_pack_code_0 : wellFormed (.vpack { ta := false, d := 0, a := 0, k := 0 }) = false := by decide
theorem test_load_size_6 : wellFormed (.ldG { ta := false, d := 0, w := 0, a := 0, nt := false, sx := false, sz := 6 }) = false := by
  decide
theorem test_sign_extended_word : wellFormed (.ldG { ta := false, d := 0, w := 0, a := 0, nt := false, sx := true, sz := 3 }) = false := by
  decide
theorem test_group_of_two_1 : wellFormed (.ldG { ta := false, d := 1, w := 0, a := 0, nt := false, sx := false, sz := 4 }) = false := by
  decide
theorem test_uniform_size_4 : wellFormed (.stU { ta := false, d := 0, w := 0, a := 0, nt := false, sz := 4 }) = false := by decide
theorem test_odd_address_pair : wellFormed (.ldX { cls := 0, d := 0, peer := 0, a := 3, ta := false }) = false := by decide
theorem test_remote_code_7 : wellFormed (.atomX { n := 7, cls := 0, d := 0, peer := 0, a := 0, ta := false }) = false := by decide
theorem test_atomic_code_7 : wellFormed (.atom { ta := false, d := 0, w := 0, a := 0, n := 7 }) = false := by decide
theorem test_wide_swap_92 : wellFormed (.atomCas16 { ta := false, d := 92, w := 0, a := 0 }) = false := by decide
theorem test_scalar_group_past_63 : wellFormed (.cp { d := 60, k := 0 }) = false := by decide
theorem test_special_register_0x011 : wellFormed (.csrr { s := 0, n := 0x011 }) = false := by decide
theorem test_special_read_0x020 : wellFormed (.rdsp { s := 0, n := 0x020 }) = false := by decide
theorem test_loop_of_one_word : wellFormed (.loopLc0 { s := 0, off := 1 }) = false := by decide
theorem test_mode_field_12 : wellFormed (.modeCv { k := 12, c := 0 }) = false := by decide
theorem test_fence_kind_0 : wellFormed (.fence { kind := 0, scope := 0, mask := 1 }) = false := by decide
theorem test_scope_7 : wellFormed (.acq { ta := false, d := 0, w := 0, a := 0, scope := 7 }) = false := by decide
theorem test_reduction_code_6 : wellFormed (.vred { ta := false, d := 0, a := 0, k := 6 }) = false := by decide
theorem test_scan_code_6 : wellFormed (.vscan { ta := false, d := 0, a := 0, k := 6 }) = false := by decide
theorem test_lane_code_4 : wellFormed (.vlane { d := 0, k := 4 }) = false := by decide
theorem test_accumulators_past_7 : wellFormed (.maccZ { n1 := 7, b := 1, k := 0 }) = false := by decide
theorem test_odd_capability : wellFormed (.peerCap { d := 1, peer := 0 }) = false := by decide
theorem test_signal_of_0 : wellFormed (.taskSig { s := 0, n := 0 }) = false := by decide
theorem test_event_counter_16 : wellFormed (.pmcRead { s := 0, n := 16 }) = false := by decide
theorem test_plb_code_3 : wellFormed (.plbInv { k := 3, s := 0 }) = false := by decide
theorem test_no_instruction : wellFormed (.reservedEncoding 0x27000001) = false := by decide
theorem test_well_formed_terms :
    wellFormed (.add { ta := true, tb := true, d := 63, a := 63, b := 63 }) = true ∧
    wellFormed (.ldG { ta := false, d := 92, w := 7, a := 127, nt := true, sx := false, sz := 5 }) = true ∧
    wellFormed (.cp { d := 59, k := 7 }) = true := by decide

/-! ### Words (R173, R178): the opcode, then the fields from high to low -/

theorem test_decode_add : decode (0x001#9 ++ 1#1 ++ 0#1 ++ 63#7 ++ 1#7 ++ 2#7) = .add { ta := true, tb := false, d := 63, a := 1, b := 2 } := by
  decide
theorem test_decode_srai : decode (0x026#9 ++ 0#1 ++ 3#7 ++ 4#7 ++ 0#2 ++ 63#6) = .srai { ta := false, d := 3, a := 4, imm := 63 } := by
  decide
theorem test_decode_movh : decode (0x029#9 ++ 5#7 ++ 0xFFFF#16) = .movh { d := 5, imm := 0xFFFF } := by decide
theorem test_decode_loop : decode (0x04B#9 ++ 9#6 ++ 2#17) = .loopLc1 { s := 9, off := 2 } := by decide
theorem test_decode_vcmp : decode (0x092#9 ++ 0#1 ++ 1#1 ++ 12#7 ++ 95#7 ++ 96#7) = .vcmp { ta := false, tb := true, d := 12, a := 95, b := 96 } := by
  decide
theorem test_decode_vcvt : decode (0x0C2#9 ++ 1#1 ++ 0#1 ++ 7#7 ++ 8#7 ++ 0#7) = .vcvtF16 { ta := true, d := 7, a := 8 } := by decide
theorem test_decode_vpack : decode (0x0D1#9 ++ 0#2 ++ 7#7 ++ 8#7 ++ 24#7) = .vpack { ta := false, d := 7, a := 8, k := 24 } := by decide
theorem test_decode_vred : decode (0x0E7#9 ++ 0#2 ++ 7#7 ++ 8#7 ++ 5#7) = .vred { ta := false, d := 7, a := 8, k := 5 } := by decide
theorem test_decode_swap : decode (0x121#9 ++ 1#1 ++ 6#7 ++ 7#3 ++ 9#7 ++ 0#5) = .atomCas { ta := true, d := 6, w := 7, a := 9 } := by decide
theorem test_decode_wide_swap : decode (0x121#9 ++ 1#1 ++ 8#7 ++ 7#3 ++ 9#7 ++ 1#5) = .atomCas16 { ta := true, d := 8, w := 7, a := 9 } := by
  decide
theorem test_decode_acq : decode (0x124#9 ++ 0#1 ++ 6#7 ++ 2#3 ++ 9#7 ++ 3#5) = .acq { ta := false, d := 6, w := 2, a := 9, scope := 3 } := by
  decide
theorem test_decode_bar_c : decode (0x128#9 ++ 0#23) = .barC := by decide
theorem test_decode_wait : decode (0x12F#9 ++ 0#6 ++ 2#2 ++ 0#6 ++ 511#9) = .waitCnt { k := 2, n := 511 } := by decide
theorem test_decode_tile_q : decode (0x133#9 ++ 63#7 ++ 31#6 ++ 0#10) = .tileQ { h := 63, d := 31 } := by decide
theorem test_decode_cp_r : decode (0x134#9 ++ 0#7 ++ 40#6 ++ 0#6 ++ 1#1 ++ 5#3) = .cpR { d := 40, k := 5 } := by decide
theorem test_decode_mloop : decode (0x139#9 ++ 0#7 ++ 40#6 ++ 20#6 ++ 0#1 ++ 6#3) = .mloop { d := 40, f := 20, k := 6 } := by decide
theorem test_decode_task_sig : decode (0x140#9 ++ 0#8 ++ 17#6 ++ 300#9) = .taskSig { s := 17, n := 300 } := by decide
theorem test_decode_plb_inv : decode (0x159#9 ++ 2#8 ++ 17#6 ++ 0#9) = .plbInv { k := 2, s := 17 } := by decide
theorem test_decode_hc_drop : decode (0x15A#9 ++ 5#8 ++ 17#6 ++ 0#9) = .hcOpDrop { s := 17 } := by decide
theorem test_decode_unused_trap_bit : decode (0x0E7#9 ++ 0#1 ++ 1#1 ++ 7#7 ++ 8#7 ++ 5#7) =
    .reservedEncoding (0x0E7#9 ++ 0#1 ++ 1#1 ++ 7#7 ++ 8#7 ++ 5#7) := by decide
theorem test_encode_add : encode (.add { ta := true, tb := false, d := 63, a := 1, b := 2 }) =
    some (0x001#9 ++ 1#1 ++ 0#1 ++ 63#7 ++ 1#7 ++ 2#7) := by decide

/-! ### States that meet the hypotheses -/

/-- The gang that the loader places: a free launch, eight lanes at pc 0, a region open. -/
def base : State := placeGang State.reset

/-- A split at rest: every register full, nothing buffered, no loop, no parked path, no held fault. -/
structure Rests (s : State) : Prop where
  regs : s.p.sstate = [] ∧ s.g.vstate = []
  region : s.p.buffer = [] ∧ s.g.cuff = []
  loops : (edges s).count = 0 ∧ (edges s).repeats = false
  slices : s.g.parked = [] ∧ s.g.splits = []
  faults : s.g.faults = []

theorem Rests.full {s : State} (h : Rests s) (c : Nat) : regState s c = .full := by
  unfold regState; rw [h.regs.1, h.regs.2]; split <;> [rfl; (split <;> rfl)]

theorem Rests.noSpill {s : State} (h : Rests s) : NoSpill s := by
  unfold NoSpill releaseRegion; rw [h.region.1]; show (onChip s.g.cuff).length ≤ _; rw [h.region.2]; decide

theorem Rests.noRotation {s : State} (h : Rests s) : NoRotation s := by
  left; unfold rotatable stackOf; rw [h.slices.1]; simp [mapGet]

theorem Rests.undisturbed {s : State} (h : Rests s) (pt : Point) : deliverable s pt = none := by
  unfold deliverable; rw [h.faults]; split <;> rfl

theorem Rests.ready {s : State} (h : Rests s) {w : Nat} (hc : s.p.clock.toNat + w < 2 ^ 64) (rd wr : List Nat) : Ready w rd wr s where
  sources _ _ := h.full _
  dests _ _ := h.full _
  clock := by simp [overflows, fullWeight, h.loops.1]; intro _; omega
  room := h.noSpill
  quiet := h.undisturbed _
  whole e := by rw [h.loops.2] at e; cases e

theorem Rests.readyAlone {s : State} (h : Rests s) {w : Nat} (hc : s.p.clock.toNat + w < 2 ^ 64) (rd wr : List Nat) :
    ReadyAlone w rd wr s := { h.ready hc rd wr with undisturbed := h.undisturbed _ }

theorem Rests.readyTurn {s : State} (h : Rests s) {w : Nat} (hc : s.p.clock.toNat + w < 2 ^ 64) (rd wr : List Nat) (hd : detNow s = false) :
    ReadyTurn w rd wr s := { h.ready hc rd wr with free := hd, undisturbed := h.undisturbed _, alone := h.noRotation }

theorem base_rests : Rests base := ⟨⟨rfl, rfl⟩, ⟨rfl, rfl⟩, ⟨rfl, rfl⟩, ⟨rfl, rfl⟩, rfl⟩

/-- The split changed. -/
def withP (f : Split → Split) (s : State) : State := { s with p := f s.p }

/-- The gang in its handler, where no region is open. -/
def handler : State := withP (fun q => { q with status := 1, entry := none, fresh := false }) base

/-- The gang in a deterministic launch of its device. -/
def det : State := { base with launches := [{ placedLaunch with dscope := 1 }] }

theorem handler_rests : Rests handler := ⟨⟨rfl, rfl⟩, ⟨rfl, rfl⟩, ⟨rfl, rfl⟩, ⟨rfl, rfl⟩, rfl⟩
theorem det_rests : Rests det := ⟨⟨rfl, rfl⟩, ⟨rfl, rfl⟩, ⟨rfl, rfl⟩, ⟨rfl, rfl⟩, rfl⟩

theorem rests_with {s : State} (h : Rests s) (f : Split → Split) (hf : (f s.p).sstate = s.p.sstate ∧ (f s.p).buffer = s.p.buffer)
    (hl : (edges (withP f s)).count = 0 ∧ (edges (withP f s)).repeats = false) : Rests (withP f s) :=
  ⟨⟨hf.1.trans h.regs.1, h.regs.2⟩, ⟨hf.2.trans h.region.1, h.region.2⟩, hl, h.slices, h.faults⟩

/-! #### Scalar instructions, control transfer, MODE, special registers (R182 to R210, R281 to R283) -/

theorem meets_scalar_rows : Ready 1 [codeS 0, codeS 63] [codeS 63] base ∧ Ready 1 [codeS 63] [codeS 0] base ∧ Ready 1 [] [codeS 63] base :=
  ⟨base_rests.ready (by decide) _ _, base_rests.ready (by decide) _ _, base_rests.ready (by decide) _ _⟩

theorem meets_jumps : Unrotated (label base 0#23) base ∧ Ready 1 [] [codeS 63] base ∧
    (getS base 0 + 4 * (0x80#8).signExtend 64).toNat % 4 = 0 ∧ Unrotated (getS base 0 + 4 * (0x80#8).signExtend 64) base ∧
    Ready 1 [codeS 0] [codeS 63] base :=
  ⟨fun _ => base_rests.noRotation, base_rests.ready (by decide) _ _, by decide, fun _ => base_rests.noRotation,
    base_rests.ready (by decide) _ _⟩

/-- The split with a return stack of n entries. -/
def deep (n : Nat) : State := withP (fun q => { q with rstack := List.replicate n 0x40 }) base

theorem deep_rests (n : Nat) : Rests (deep n) := rests_with base_rests _ ⟨rfl, rfl⟩ ⟨rfl, rfl⟩

theorem meets_call : ∀ n ∈ [7, 255], (deep n).p.rstack.length < 256 ∧ Unrotated (label (deep n) 8#23) (deep n) ∧ Ready 1 [] [] (deep n) := by
  intro n hn
  refine ⟨?_, fun _ => (deep_rests n).noRotation, (deep_rests n).ready (by show (0 : Nat) + 1 < _; decide) _ _⟩
  show (List.replicate n _).length < _
  rw [List.length_replicate]; simp only [List.mem_cons, List.not_mem_nil, or_false] at hn; omega

theorem meets_ret : ∃ rest, (deep 1).p.rstack = 0x40 :: rest ∧ Refilled (deep 1) ∧ Ready 1 [] [] (deep 1) ∧ rest.length < 8 :=
  ⟨[], rfl, .inl (by decide), (deep_rests 1).ready (by decide) _ _, by decide⟩

/-- A stack of nine entries, the oldest spilled to an area that no table maps. -/
def lostEntry : State := { deep 9 with g := { placedGang with area := [(2 ^ 30, Config.contextBytes)] }, roots := [] }

theorem lostEntry_held : refillHeld lostEntry = false := by
  unfold refillHeld
  show Option.any _ (refillSlot _) = false
  cases refillSlot lostEntry.p <;>
    simp [spillHeld, placesHeld, heldBytes, lateOf, contextWaits, show lostEntry.late = [] from rfl, show lostEntry.reqs = [] from rfl]

theorem lostEntry_refuses (off : Nat) : admits lostEntry 0 1 off false = some 0x70 := by
  have hp : poolIndex lostEntry 0 off = none := by unfold poolIndex; rw [if_pos (.inl (by decide))]
  have ht : tableWalk lostEntry 0 1 off = none := by unfold tableWalk; rw [if_pos (by rfl)]
  have hw : walk lostEntry 0 1 off = none := by unfold walk; rw [hp, ht]
  have hc : hcCheck lostEntry 0 1 off false false = .refuse 0x70 := by
    unfold hcCheck hcAnswer; rw [if_neg (by rw [show walkBad lostEntry 0 1 off = false from rfl]; decide), hw]
  have hl : findLine lostEntry (lineRef 0 1 off) = none := rfl
  unfold admits; rw [hl, hc]

theorem pieces_ne (a n : Nat) : pieces a (n + 1) ≠ [] := by simp [pieces, linesOf, countFrom]

theorem lostEntry_lost : refillLost lostEntry = true := by
  have hs : refillSlot lostEntry.p = some (returnSlot 0 0x40) := rfl
  have hr : returnSlot 0 0x40 + 8 ≤ Config.contextBytes := by
    simp only [returnSlot, Config.contextBytes]; omega
  unfold refillLost; rw [hs]
  show refillRefused _ _ _ _ = true
  simp only [refillRefused, placesRefused, contextPlaces, show lostEntry.g.area = [(2 ^ 30, Config.contextBytes)] from rfl, cutFrom, cutLines,
    if_neg (by decide : (8 : Nat) ≠ 0), if_neg (by omega : ¬ Config.contextBytes ≤ returnSlot 0 0x40), List.any_cons, countFrom,
    show lostEntry.g.part = 0 from rfl, show lostEntry.g.asid = 1 from rfl, lostEntry_refuses, Option.isSome_some, Bool.true_or,
    List.flatMap_cons, List.flatMap_nil, List.append_nil, (by omega : min 8 (Config.contextBytes - returnSlot 0 0x40) = 7 + 1)]
  have hp := pieces_ne (2 ^ 30 + returnSlot 0 64) 7
  generalize pieces _ _ = ps at hp ⊢
  cases ps with
  | nil => exact absurd rfl hp
  | cons => rfl

theorem meets_ret_lost : ∃ rest, lostEntry.p.rstack = 0x40 :: rest ∧ Refilled lostEntry ∧ Ready 1 [] [] lostEntry ∧ 8 ≤ rest.length ∧
    refillLost lostEntry = true :=
  have h : Rests lostEntry := ⟨⟨rfl, rfl⟩, ⟨rfl, rfl⟩, ⟨rfl, rfl⟩, ⟨rfl, rfl⟩, rfl⟩
  ⟨List.replicate 8 0x40, rfl, .inr lostEntry_held, h.ready (by decide) _ _, by decide, lostEntry_lost⟩

/-- Predicate 15 is 1 in every lane. -/
def allTrue : State := { base with g := { placedGang with preds := (List.range 8).map fun i => (15 * 64 + i, true) } }
/-- No lane is active. -/
def noneActive : State := withP (fun q => { q with exec := 0, rstack := [0x40] }) base
theorem allTrue_rests : Rests allTrue := ⟨⟨rfl, rfl⟩, ⟨rfl, rfl⟩, ⟨rfl, rfl⟩, ⟨rfl, rfl⟩, rfl⟩
theorem noneActive_rests : Rests noneActive := rests_with base_rests _ ⟨rfl, rfl⟩ ⟨rfl, rfl⟩

theorem meets_branches :
    (Ready 1 [codeS 63] [] base ∧ getS base 63 = 0 ∧ Unrotated (label base 1#17) base) ∧
    ((∃ i ∈ activeLanes allTrue, getP allTrue 15 i = true) ∧ (∀ i ∈ activeLanes allTrue, getP allTrue 15 i = true) ∧
      activeLanes allTrue ≠ [] ∧ Ready 1 [] [] allTrue ∧ Unrotated (label allTrue 1#17) allTrue) ∧
    ((∀ i ∈ activeLanes base, getP base 0 i = false) ∧ Ready 1 [] [] base) ∧
    (activeLanes noneActive = [] ∧ noneActive.p.rstack = [0x40] ∧ Ready 1 [] [] noneActive) ∧
    ((deep 1).p.rstack = [0x40] ∧ activeLanes (deep 1) ≠ [] ∧ (∀ i ∈ activeLanes (deep 1), elemOf (deep 1) (Ty.i 32) 95 i = (0 : BitVec 32).toNat) ∧
      Refilled (deep 1) ∧ Ready 1 ((srcV 95 1 false (activeLanes (deep 1))).map (·.1)) [] (deep 1) ∧ Unrotated 0x40 (deep 1) ∧
      ([] : List Word).length < 8) :=
  ⟨⟨base_rests.ready (by decide) _ _, rfl, fun _ => base_rests.noRotation⟩,
   ⟨by decide, by decide, by decide, allTrue_rests.ready (by decide) _ _, fun _ => allTrue_rests.noRotation⟩,
   ⟨by decide, base_rests.ready (by decide) _ _⟩, ⟨by decide, rfl, noneActive_rests.ready (by decide) _ _⟩,
   ⟨rfl, by decide, by decide, .inl (by decide), (deep_rests 1).ready (by decide) _ _, fun _ => (deep_rests 1).noRotation, by decide⟩⟩

/-- s5 holds 1; the loop on the other counter, if any, ends where the one to begin ends. -/
def counted (one : Bool) (outer : Option LoopRec) : State :=
  withP (fun q => { q with sregs := [(5, 1)], lr0 := if one then outer else none, lr1 := if one then none else outer }) base
/-- A loop that ends at 8. -/
def outer : LoopRec := { start := 0, stop := 8, depth := 0 }
theorem counted_rests (one : Bool) : ∀ r ∈ [none, some outer], Rests (counted one r) := by
  intro r hr
  refine rests_with base_rests _ ⟨rfl, rfl⟩ ?_
  simp only [List.mem_cons, List.not_mem_nil, or_false] at hr
  rcases hr with rfl | rfl <;> cases one <;> decide

theorem meets_loops : ∀ one, (2 ≤ (2#17).toInt ∧ (∀ r ∈ [none, some outer], Rules.mayStart one (label (counted one r) 2#17) (counted one r) ∧
      Ready 1 [codeS 5] [codeLc (if one then 1 else 0)] (counted one r) ∧ NoRotation (counted one r) ∧
      (getS (counted one r) 5).setWidth 32 ≠ (0 : BitVec 32))) ∧
    ((getS base 5).setWidth 32 = (0 : BitVec 32) ∧ Rules.mayStart one (label base 2#17) base ∧
      Ready 1 [codeS 5] [codeLc (if one then 1 else 0)] base ∧ Unrotated (label base 2#17) base ∧
      overflows (fullWeight 1 (loopCounter one ((getS base 63).setWidth 32) base)) base = false) := by
  intro one
  refine ⟨⟨by decide, fun r hr => ⟨?_, (counted_rests one r hr).ready (by show (0 : Nat) + 1 < _; decide) _ _, (counted_rests one r hr).noRotation, ?_⟩⟩,
    rfl, ?_, base_rests.ready (by decide) _ _, fun _ => base_rests.noRotation, by cases one <;> decide⟩
  · simp only [List.mem_cons, List.not_mem_nil, or_false] at hr
    rcases hr with rfl | rfl <;> cases one <;> exact ⟨rfl, fun m h => by first | (cases h; done) | (cases h; exact ⟨by decide, rfl⟩)⟩
  · show (1 : Word).setWidth 32 ≠ 0; decide
  · cases one <;> exact ⟨rfl, fun m h => nomatch h⟩

theorem meets_region_yield_nop : Ready 1 [] [] base ∧ isPriv base = false ∧ base.p.members ≠ 0 ∧ ReadyAlone 1 [] [] base ∧ Ready 1 [] [] handler :=
  ⟨base_rests.ready (by decide) _ _, by decide, by decide, base_rests.readyAlone (by decide) _ _, handler_rests.ready (by decide) _ _⟩

/-- Lane 7 alone is active. -/
def oneActive : State := withP (fun q => { q with exec := 0x80 }) base
theorem oneActive_rests : Rests oneActive := rests_with base_rests _ ⟨rfl, rfl⟩ ⟨rfl, rfl⟩

theorem meets_halt :
    (isPriv noneActive = false ∧ activeLanes noneActive = [] ∧ Ready 1 [] [] noneActive) ∧
    (activeLanes oneActive ≠ [] ∧ deliverable oneActive .halt = none ∧ ReadyAlone 1 [] [] oneActive ∧
      oneActive.p.members &&& ~~~ activeMask oneActive ≠ 0 ∧ (∀ j, stackOf oneActive.g j = []) ∧ ∀ q ∈ oneActive.g.splits, q.away = 0) ∧
    (activeLanes det ≠ [] ∧ det.p.buffer = [] ∧ (∀ e ∈ det.g.cuff, e.lanes &&& det.p.members = 0) ∧ deliverable det .halt = none ∧ ReadyAlone 1 [] [] det ∧
      det.p.members &&& ~~~ activeMask det = 0 ∧ ∀ j, stackOf det.g j = []) :=
  ⟨⟨by decide, by decide, noneActive_rests.ready (by decide) _ _⟩,
   ⟨by decide, oneActive_rests.undisturbed _, oneActive_rests.readyAlone (by decide) _ _, by decide, fun _ => rfl, by decide⟩,
   ⟨by decide, rfl, by decide, det_rests.undisturbed _, det_rests.readyAlone (by decide) _ _, by decide, fun _ => rfl⟩⟩

theorem meets_mode : (∃ e ∈ modeFields { t := 0 } { g := 0 } { z := true, r := 0 } { k := 11, c := 7 }, e = (.modeCv { k := 11, c := 7 }, 46, 3, 7)) ∧
    Ready 1 [codeS 63] [codeMode] base ∧ Ready 1 [] [codeMode] base ∧ Ready 1 [] [codeS 63] base :=
  ⟨⟨_, List.mem_append_right _ (List.mem_singleton.2 rfl), rfl⟩, base_rests.ready (by decide) _ _, base_rests.ready (by decide) _ _,
    base_rests.ready (by decide) _ _⟩

theorem meets_special_registers :
    (Ready 1 [] [codeS 63] det ∧ ReadyAlone 4 [] [codeS 63] det ∧ (curLaunch base).det = false) ∧
    (isPriv handler = true ∧ ReadyAlone 4 [] [codeS 0] handler ∧ detNow { handler with launches := det.launches } = false) ∧
    (base.hbmOut = 0 ∧ base.hcOut = 0 ∧ base.sliceOut = 0 ∧ base.fportOut = 0 ∧ base.clustersOut = 0 ∧ base.bridgeOut = false) ∧ detNow det = true :=
  ⟨⟨det_rests.ready (by decide) _ _, det_rests.readyAlone (by decide) _ _, by decide⟩, ⟨by decide, handler_rests.readyAlone (by decide) _ _, by decide⟩,
    ⟨rfl, rfl, rfl, rfl, rfl, rfl⟩, by decide⟩

theorem meets_special_writes : ReadyAlone 4 [codeS 63] [codeMode] base ∧ ReadyAlone 4 [codeS 63] [codeExec] base ∧ ReadyAlone 4 [codeS 63] [] base ∧
    isPriv handler = true ∧ ReadyAlone 4 [codeS 63] [] handler :=
  ⟨base_rests.readyAlone (by decide) _ _, base_rests.readyAlone (by decide) _ _, base_rests.readyAlone (by decide) _ _, by decide,
    handler_rests.readyAlone (by decide) _ _⟩

theorem meets_event_counters : (15#9).toNat < 16 ∧ (curLaunch handler).det = false ∧
    (∀ code ∈ [0x001, 0x012], (mapGet 0 (curPart handler).esel 15).toNat % 4096 ≠ code) ∧ ReadyAlone 4 [] [codeS 63] handler ∧ isPriv handler = true ∧
    (mapGet 0 (curPart handler).esel 15).toNat % 4096 ≠ 2 :=
  ⟨by decide, by decide, by decide, handler_rests.readyAlone (by decide) _ _, by decide, by decide⟩

/-- Window 7 is open at a base and offset 0 of the loader's page, with a limit. -/
def windowed (perm : BitVec 3) (limit : BitVec 31) (s : State) : State :=
  withP (fun q => { q with wins := [(7, { base := 0, valid := true, stale := false, coh := 0, perm := perm, limit := limit })] }) s

theorem windowed_rests (perm : BitVec 3) (limit : BitVec 31) :
    Rests (windowed perm limit base) ∧ Rests (windowed perm limit handler) ∧ Rests (windowed perm limit det) :=
  ⟨rests_with base_rests _ ⟨rfl, rfl⟩ ⟨rfl, rfl⟩, rests_with handler_rests _ ⟨rfl, rfl⟩ ⟨rfl, rfl⟩, rests_with det_rests _ ⟨rfl, rfl⟩ ⟨rfl, rfl⟩⟩

theorem meets_invalidates : isPriv (windowed 6 128 handler) = true ∧ (getS (windowed 6 128 handler) 63).toNat % 65536 = 0 ∧
    ReadyAlone 4 [codeS 63] [] (windowed 6 128 handler) ∧ (2#8).toNat < 3 ∧ (getW (windowed 6 128 handler) 7).valid = true ∧
    offsetOf (getW (windowed 6 128 handler) 7).base / 65536 = offsetOf (getS (windowed 6 128 handler) 63) / 65536 :=
  ⟨by decide, by decide, (windowed_rests _ _).2.1.readyAlone (by decide) _ _, by decide, by decide, by decide⟩

/-! #### Vector instructions (R213 to R233) -/

/-- The element type of MODE. -/
def typed (code : Nat) : State := withP (fun q => { q with mode := BitVec.ofNat 64 code }) base
theorem typed_rests (code : Nat) : Rests (typed code) := rests_with base_rests _ ⟨rfl, rfl⟩ ⟨rfl, rfl⟩

theorem typed_ready (code w : Nat) (h : w ≤ 4) (rd wr : List Nat) : Ready w rd wr (typed code) :=
  (typed_rests code).ready (by show (0 : Nat) + w < _; omega) rd wr

theorem meets_vector_integers : ∀ e ∈ [(0, Ty.i 32), (4, Ty.n 64), (10, Ty.i 8), (11, Ty.n 8)], elemTy (typed e.1) = some e.2 ∧ e.2.isInt = true ∧
    vDstOk e.2.wide 94 = true ∧ vSrcOk e.2.wide 94 = true ∧ vSrcOk e.2.wide 127 = true := by decide

theorem meets_vector_floats : ∀ e ∈ [(2, Ty.f32), (5, Ty.f64), (8, Ty.f16), (9, Ty.bf16)], elemTy (typed e.1) = some e.2 ∧ e.2.isFloat = true ∧
    vDstOk e.2.wide 94 = true ∧ vSrcOk e.2.wide 94 = true ∧ vSrcOk e.2.wide 127 = true := by decide

theorem meets_vector_ready : ∀ code < 16, (∀ rd wr, Ready 1 rd wr (typed code)) ∧ ∀ rd wr, Ready 2 rd wr (typed code) :=
  fun code _ => ⟨typed_ready code 1 (by decide), typed_ready code 2 (by decide)⟩

theorem meets_vector_fields : elemTy (typed 10) = some (Ty.i 8) ∧ (Ty.i 8).wide = false ∧ (95#7).toNat < 96 ∧ elemTy (typed 15) = none := by decide

theorem meets_comparisons : (12#7).toNat < 16 ∧ (12#7).toNat % 4 = 0 ∧ elemTy (typed 3) = some (Ty.i 64) ∧ (Ty.i 64).isInt = true ∧
    elemTy (typed 5) = some Ty.f64 ∧ Ty.f64.isFloat = true ∧ vSrcOk true 94 = true ∧ vSrcOk true 127 = true ∧ (95#7).toNat < 96 := by decide

theorem meets_conversions : ∀ e ∈ vectorConvert, ∃ t, elemTy (typed 5) = some t ∧ vDstOk (decide (e.2 = .float Ty.f64)) 94 = true ∧ vSrcOk t.wide 94 = true :=
  fun e _ => ⟨Ty.f64, by decide, by cases decide (e.2 = Machine.Class.float Ty.f64) <;> decide, by decide⟩

theorem meets_packs : ∀ k ∈ packings, ∃ o : Op3K, o.k.toNat = k.1 ∧ elemTy (typed 5) = some Ty.f64 ∧ o.d.toNat < 96 ∧
    o.a.toNat + Ty.f64.regs * k.2.2.2 ≤ 96 ∧ o.a.toNat % 2 = 0 := by
  intro k hk
  refine ⟨{ ta := false, d := 95, a := BitVec.ofNat 7 (96 - 2 * k.2.2.2), k := BitVec.ofNat 7 k.1 }, ?_⟩
  revert k; decide

theorem meets_unpacks : ∀ k ∈ packings, ∃ o : Op3K, o.k.toNat = k.1 ∧ o.a.toNat < 96 ∧ o.d.toNat + Ty.f64.regs * k.2.2.2 ≤ 96 ∧ o.d.toNat % 2 = 0 := by
  intro k hk
  refine ⟨{ ta := false, a := 95, d := BitVec.ofNat 7 (96 - 2 * k.2.2.2), k := BitVec.ofNat 7 k.1 }, ?_⟩
  revert k; decide

theorem meets_lane_queries : (95#7).toNat < 96 ∧ (15#7).toNat < 16 ∧
    (activeMask allTrue = 0xFF ∧ ∀ i < 64, (0xFF#64).getLsbD i = (activeLanes allTrue).contains i) ∧
    (∀ i < 64, (0xFF#64).getLsbD i = ((activeLanes allTrue).contains i && getP allTrue 15 i)) ∧
    (true = true ↔ ∀ i ∈ activeLanes allTrue, getP allTrue 15 i = true) ∧ Ready 1 [] [codeS 63] allTrue :=
  ⟨by decide, by decide, by decide, by decide, by decide, allTrue_rests.ready (by decide) _ _⟩

theorem meets_reductions : ∀ e ∈ [(2, 3), (0, 6)], e.2 = (if (elemTy (typed e.1)).any Ty.isFloat then 3 else 6) ∧
    (3 ≤ 6 ∧ (typed e.1).g.width = 2 ^ 3) ∧ activeLanes (typed e.1) ≠ [] ∧ vDstOk false 95 = true ∧ vSrcOk false 127 = true := by decide

theorem meets_ranking : elemTy (typed 5) = some Ty.f64 ∧ vDstOk true 92 = true ∧ vSrcOk true 94 = true ∧ (92#7).toNat + Ty.f64.regs < 96 ∧
    (typed 5).g.width ≠ 0 ∧ (∀ i ∈ activeLanes (typed 5), i < (typed 5).g.width) ∧ ∀ rd wr, Ready 4 rd wr (typed 5) :=
  ⟨by decide, by decide, by decide, by decide, by decide, by decide, typed_ready 5 4 (by decide)⟩

/-! #### Memory, atomics, peers (R122, R235 to R248, R254 to R256) -/

theorem meets_windows : (63#7).toNat < 64 ∧ (getS base 63).getLsbD 63 = false ∧ (getS base 63).toNat / 2 ^ 53 = (curPart base).node ∧
    Ready 4 [codeS 63] [codeW 7] base ∧ isControl 0x10000 = false ∧ regionOf (offsetOf 0x10000) ≠ 3 ∧ walk base 0 1 (offsetOf 0x10000) = none :=
  ⟨by decide, by decide, by decide, base_rests.ready (by decide) _ _, by decide, by decide, by decide⟩

/-- An entry of the PLB permits the page. -/
def paged (s : State) : State := { s with plb := [{ core := 0, part := 0, asid := 1, granule := 0, perm := 7, coh := 0 }] }

/-- The window with a limit of 128 bytes, and one with none before a page that the PLB knows. -/
def reaching : List State := [windowed 7 128 base, windowed 7 128 handler, windowed 7 128 det, paged (windowed 0 0 base)]

theorem reaching_rests : ∀ s ∈ reaching, Rests s ∧ s.p.clock = 0 := by
  intro s hs
  simp only [reaching, List.mem_cons, List.not_mem_nil, or_false] at hs
  rcases hs with rfl | rfl | rfl | rfl
  · exact ⟨(windowed_rests 7 128).1, rfl⟩
  · exact ⟨(windowed_rests 7 128).2.1, rfl⟩
  · exact ⟨(windowed_rests 7 128).2.2, rfl⟩
  · have h := (windowed_rests 0 0).1
    exact ⟨⟨h.regs, h.region, h.loops, h.slices, h.faults⟩, rfl⟩

theorem reaching_ready (w : Nat) (hw : w ≤ 8) (rd wr : List Nat) : ∀ s ∈ reaching, Ready w rd wr s := fun s hs =>
  (reaching_rests s hs).1.ready (by rw [(reaching_rests s hs).2]; show (0 : Nat) + w < _; omega) rd wr

theorem reaching_lanes : ∀ s ∈ reaching, ∀ o ∈ laneOffsets s 0, o = 0 := by decide

theorem reaches_window : ∀ n ∈ [1, 2, 4, 8, 16], ∀ need ∈ [Need.mk true false, .mk false true, .mk true true], ∀ s ∈ reaching, ∀ os, (∀ o ∈ os, o = 0) →
    Reaches n need s 7 os := by
  intro n hn need hneed s hs os ho
  have key : (getW s 7).valid = true ∧ (getW s 7).stale = false ∧ (getW s 7).base.getLsbD 63 = false ∧
      (getW s 7).base.toNat % 2 ^ 53 + 0 + n ≤ 2 ^ 53 ∧ regionOf (offsetOf (address s 7 0)) ≠ 3 ∧ (address s 7 0).toNat % n = 0 ∧
      if 0 + n ≤ (getW s 7).limit.toNat then allows (getW s 7).perm need = true
      else (plbEntry s s.g.core s.g.part s.g.asid ((getW s 7).base + BitVec.ofNat 64 0)).any (fun e => allows e.perm need) = true := by
    revert n hn need hneed s hs; decide
  obtain ⟨h1, h2, h3, h4, h5, h6, h7⟩ := key
  refine ⟨h1, h2, h3, fun o h => ?_, fun o h => ?_, fun o h => ?_, fun o h => ?_⟩ <;> cases ho o h
  · exact h4
  · exact fun h => absurd h h5
  · exact h6
  · show if 0 + n ≤ (getW s 7).limit.toNat then _ else _
    split at h7
    · rw [if_pos ‹_›]; exact h7
    · rw [if_neg ‹_›]; rwa [Option.any_eq_true] at h7

/-- A load, a store and an atomic of the greatest operand fields, at the first and the last lane. -/
theorem meets_accesses : ∀ s ∈ reaching, wellFormed (.ldG { ta := false, d := 92, w := 7, a := 0, nt := false, sx := false, sz := 5 }) = true ∧
    wellFormed (.stG { ta := false, d := 92, w := 7, a := 0, nt := false, sz := 5 }) = true ∧
    wellFormed (.ldU { ta := false, d := 63, w := 7, a := 63, nt := false, sx := true, sz := 1 }) = true ∧
    wellFormed (.stU { ta := false, d := 63, w := 7, a := 63, nt := false, sz := 0 }) = true ∧
    accessSize s 5 = some 16 ∧ sizeDstOk s 5 92 = true ∧ (getS s 63).toNat % 2 ^ 32 = 0 ∧ s.p.buffer = [] ∧
    wellFormed (.pf { ta := false, w := 7, a := 0, l2 := true }) = true := by decide

/-- What a store of the vector and of the scalar form holds in the open region. -/
def storedVector (s : State) : List BufStore := (activeLanes s).map fun i => held s (.stG { ta := false, d := 92, w := 7, a := 0, nt := false, sz := 5 }) i
  (address s 7 (fieldBits s 0 false i)) 16 (.store (laneBytes s 92 16 i))
def storedScalar (s : State) : List BufStore := [held s (.stU { ta := false, d := 63, w := 7, a := 63, nt := false, sz := 0 }) 64 (address s 7 0) 8
  (.store ((List.range 8).map fun k => (getS s 63).extractLsb' (8 * k) 8))]

theorem meets_stores : ∀ s ∈ reaching, ∀ bs ∈ [storedVector s, storedScalar s], logOverflows s bs = false ∧
    (onChip (releaseRegion (holding bs s)).g.cuff).length ≤ Config.cuffEntries ∧ (s.p.entry.isSome = true ∨ s.p.entry = none ∧ isPriv s = true) := by
  decide

/-- Tile 0 of 512 bytes of the workgroup in a state, and v0 the offset of its last 16 bytes. -/
def tiled (x : TileState) : State :=
  { base with
    launches := [{ placedLaunch with tiles := [512] }]
    tiles := [{ launch := 1, unit := 0, wg := 0, h := 0, slot := 0, state := x, size := 512, base := 0, data := [], fill := none, reads := [] }]
    g := { placedGang with vregs := (List.range 8).map fun i => (i, 496) } }

theorem tiled_rests (x : TileState) : Rests (tiled x) := ⟨⟨rfl, rfl⟩, ⟨rfl, rfl⟩, ⟨rfl, rfl⟩, ⟨rfl, rfl⟩, rfl⟩

theorem tiled_lanes : ∀ x ∈ [TileState.ready, .priv 0], ∀ i ∈ activeLanes (tiled x), fieldBits (tiled x) 0 false i = 496 := by decide

theorem meets_scratchpad : (∀ i ∈ activeLanes (tiled .ready), InTile false 16 (tiled .ready) (fieldBits (tiled .ready) 0 false i)) ∧
    (∀ i ∈ activeLanes (tiled (.priv 0)), InTile true 16 (tiled (.priv 0)) (fieldBits (tiled (.priv 0)) 0 false i)) ∧
    wellFormed (.ldS { ta := false, d := 92, a := 0, sx := false, sz := 5 }) = true ∧ wellFormed (.stS { ta := false, d := 92, a := 0, sz := 5 }) = true ∧
    accessSize (tiled .ready) 5 = some 16 ∧ sizeDstOk (tiled .ready) 5 92 = true ∧
    (∀ rd wr, Ready 2 rd wr (tiled .ready)) ∧ (∀ rd wr, Ready 2 rd wr (tiled (.priv 0))) ∧
    NoSpill (holding ((activeLanes (tiled (.priv 0))).map fun i => { held (tiled (.priv 0)) (.stS { ta := false, d := 92, a := 0, sz := 5 }) i 496 16
      (.store (laneBytes (tiled (.priv 0)) 92 16 i)) with tile := some 0 }) (tiled (.priv 0))) := by
  refine ⟨fun i hi => ?_, fun i hi => ?_, by decide, by decide, by decide, by decide, (tiled_rests _).ready (by decide),
    (tiled_rests _).ready (by decide), by unfold NoSpill; decide⟩
  all_goals
    rw [tiled_lanes _ (by decide) i hi]
    refine ⟨by decide, by decide, _, rfl, by decide, by decide, ?_⟩
  · exact .inr ⟨rfl, rfl, by decide, by decide⟩
  · exact .inl ⟨rfl, by decide⟩

/-- The window over a granule that its limit covers, one that the PLB permits beside it, and s62 their length. -/
def granular (n limit : Nat) (s : State) : State :=
  { withP (fun q => { q with
      sregs := [(62, BitVec.ofNat 64 (65536 * n))]
      wins := [(7, { base := 0, valid := true, stale := false, coh := 0, perm := 2, limit := BitVec.ofNat 31 limit })] }) s with
    plb := [{ core := 0, part := 0, asid := 1, granule := 1, perm := 2, coh := 0 }] }

theorem meets_prefetch_and_discard :
    (∀ s ∈ [base, det], ∀ i ∈ activeLanes s, ∀ l, walk s s.g.part s.g.asid (offsetOf (address s 0 (fieldBits s 0 false i))) = some l →
      Pte.dead l.entry = false) ∧ detNow det = true ∧ wellFormed (.dis { d := 62, w := 7, a := 63 }) = true ∧
    ∀ s ∈ [granular 2 65536 base, granular 0 0 base, granular 1 65536 handler],
      let w := getW s 7
      w.valid = true ∧ w.stale = false ∧ w.base.getLsbD 63 = false ∧ w.base.toNat % 2 ^ 53 + (getS s 63).toNat % 2 ^ 32 < 2 ^ 53 ∧
        ((getS s 62).toNat ≠ 0 → w.base.toNat % 2 ^ 53 + (getS s 63).toNat % 2 ^ 32 + (getS s 62).toNat ≤ 3 * 2 ^ 51) ∧
        (w.base.toNat % 2 ^ 53 + (getS s 63).toNat % 2 ^ 32) % 65536 = 0 ∧ (getS s 62).toNat % 65536 = 0 ∧
        (∀ k < (getS s 62).toNat / 65536, if 65536 * k + 65536 ≤ w.limit.toNat then w.perm.getLsbD 1 = true
          else (plbEntry s s.g.core s.g.part s.g.asid (w.base + BitVec.ofNat 64 (65536 * k))).any (fun e => e.perm.getLsbD 1) = true) ∧
        Rests s ∧ (s.p.entry.isSome = true ∨ s.p.entry = none ∧ isPriv s = true) := by
  refine ⟨?_, by decide, by decide, ?_⟩
  · intro s hs i hi l hl
    have : ∀ s ∈ [base, det], ∀ i ∈ activeLanes s,
        (walk s s.g.part s.g.asid (offsetOf (address s 0 (fieldBits s 0 false i)))).all (fun l => !Pte.dead l.entry) = true := by decide
    have h := this s hs i hi
    rw [hl] at h; simpa using h
  · intro s hs
    simp only [List.mem_cons, List.not_mem_nil, or_false] at hs
    rcases hs with rfl | rfl | rfl <;>
      exact ⟨by decide, by decide, by decide, by decide, by decide, by decide, by decide, by decide, ⟨⟨rfl, rfl⟩, ⟨rfl, rfl⟩, ⟨rfl, rfl⟩, ⟨rfl, rfl⟩, rfl⟩, by decide⟩

/-! Atomics in a free launch: `windowed 7 128` with an element type. -/

/-- The window over the page in an element type. -/
def wide (code : Nat) : State := withP (fun q => { q with mode := BitVec.ofNat 64 code }) (windowed 7 128 base)
theorem wide_rests (code : Nat) : Rests (wide code) := rests_with (windowed_rests 7 128).1 _ ⟨rfl, rfl⟩ ⟨rfl, rfl⟩
theorem wide_ready (code : Nat) (rd wr : List Nat) : ReadyTurn 8 rd wr (wide code) :=
  (wide_rests code).readyTurn (by show (0 : Nat) + 8 < _; decide) rd wr rfl

theorem reaches_wide (code n : Nat) (need : Need) (os : List Nat) (h : Reaches n need (windowed 7 128 base) 7 os) : Reaches n need (wide code) 7 os :=
  ⟨h.valid, h.usable, h.node, h.inside, h.carried, h.aligned, h.permitted⟩

theorem meets_atomics :
    (∀ code ∈ [0, 4, 6], ∀ n ∈ [1, 2, 4, 8, 16], ∀ need ∈ [Need.mk true false, .mk false true, .mk true true], Reaches n need (wide code) 7 (laneOffsets (wide code) 0)) ∧
    elemTy (wide 4) = some (Ty.n 64) ∧ atomicAllows 6 (Ty.n 64) ∧ atomicAllows 2 Ty.f32 ∧ atomicAllows 8 (Ty.n 64) ∧
    wellFormed (.atom { ta := false, d := 94, w := 7, a := 0, n := 6 }) = true ∧ vDstOk true 94 = true ∧
    (92#7).toNat + 2 * (Ty.n 64).regs ≤ 96 ∧ vDstOk true 92 = true ∧ (88#7).toNat % 4 = 0 ∧ (88#7).toNat ≤ 88 ∧
    elemTy (wide 6) = some (Ty.i 16) ∧ (94#7).toNat < 96 ∧ (94#7).toNat % 2 = 0 ∧
    wellFormed (.red { ta := false, d := 94, w := 7, a := 0, n := 5 }) = true ∧
    (6#3).toNat < 7 ∧ accessPending (commitRegion (wide 4)) 15 false = false := by
  refine ⟨fun code hc n hn need hneed => reaches_wide code n need _ (reaches_window n hn need hneed _ (List.mem_cons_self ..) _
      ((by decide : ∀ code ∈ [0, 4, 6], ∀ o ∈ laneOffsets (wide code) 0, o = 0) code hc)),
    by decide, .inl (by decide), .inr (by decide), .inl (by decide), by decide, by decide, by decide, by decide, by decide, by decide, by decide, by decide,
    by decide, by decide, by decide, by decide⟩

theorem meets_reductions_held : ∀ s ∈ [windowed 7 128 base, windowed 7 128 handler, windowed 7 128 det], elemTy s = some (Ty.i 32) ∧ (detNow s = true → (s.retry.filter fun u => u.core == s.g.core).length < Config.retryEntries) ∧
    NoSpill (holding ((activeLanes s).map fun i => held s (.red { ta := false, d := 94, w := 7, a := 0, n := 5 }) i (address s 7 0) 4
      (.reduce 5 (modeT s) (modeRm s) (modeFz s) (laneBytes s 94 4 i))) s) ∧
    (s.p.entry.isSome = true ∨ s.p.entry = none ∧ isPriv s = true) := by
  unfold NoSpill; decide

/-- v2 of lanes 0 to 3 names another member of the domain, v2 of the other lanes the node itself. -/
def peered (s : State) : State :=
  { s with
    parts := [{ placedPart with members := [0, 1023] }]
    g := { s.g with vregs := (List.range 4).map fun i => (128 + i, 1023) } }

theorem peered_rests {s : State} (h : Rests s) : Rests (peered s) := ⟨h.regs, h.region, h.loops, h.slices, h.faults⟩

theorem peered_far : ∀ s ∈ [base, handler, det], ∀ cls ∈ [1, 2, 3], ∀ w, FarReady (peered s) w cls 16 2 0 := by
  intro s hs cls hc
  have h : ∀ s ∈ [base, handler, det], (∀ i ∈ activeLanes (peered s), (farVA (peered s) 2 0 i).toNat % 16 = 0) ∧
      (∀ i ∈ activeLanes (peered s), (getV (peered s) (2#5).toNat i).toNat % 1024 ≠ (curPart (peered s)).node →
        unreachable (peered s) ((getV (peered s) (2#5).toNat i).toNat % 1024) = false) ∧
      outstanding (peered s) (peered s).g.core + (activeLanes (peered s)).length ≤ Config.remoteOutstanding ∧
      earlierPending (peered s) true = false ∧ earlierPending (peered s) false = false ∧ ∀ i ∈ activeLanes (peered s), regionOf (offsetOf (farVA (peered s) 2 0 i)) ≠ 3 := by decide
  intro w
  obtain ⟨h1, h2, h3, h4, h4', h5⟩ := h s hs
  exact ⟨h1, fun i hi _ hr => absurd hr (h5 i hi), fun h => by subst h; exact absurd hc (by decide), h2, h3, by cases w <;> assumption⟩

theorem near_far : ∀ w, FarReady base w 0 8 0 0 := fun w =>
  ⟨by decide, fun i hi _ hr => absurd hr ((by decide : ∀ i ∈ activeLanes base, regionOf (offsetOf (farVA base 0 0 i)) ≠ 3) i hi),
    fun _ => by decide, by decide, by decide, by cases w <;> decide⟩

/-- A copy of the line that lane 0 names is in the remote section. -/
def copied : State := { peered base with remoteCopies := [{ part := 0, node := 1023, va := 0, coh := 1, launch := 1, data := List.replicate 128 7 }] }

theorem meets_peers :
    (elemTy base = some (Ty.i 32) ∧ vDstOk false 95 = true ∧ wellFormed (.ldX { cls := 3, d := 95, peer := 2, a := 0, ta := false }) = true ∧
      wellFormed (.stX { cls := 3, d := 95, peer := 2, a := 0, ta := false }) = true ∧ wellFormed (.peerCap { d := 94, peer := 2 }) = true) ∧
    ((getV (peered base) 2 7).toNat % 1024 = (curPart (peered base)).node ∧ servedCopy (peered base) 3 { lane := 0, node := 1023, va := farVA (peered base) 2 0 0 } = none ∧
      (servedCopy copied 3 { lane := 0, node := 1023, va := farVA copied 2 0 0 }).isSome = true ∧ FarReady copied false 3 4 2 0) ∧
    (detNow (peered base) = false ∧ NoRotation (peered base) ∧ (peered base).p.entry.isSome = true ∧ detNow (peered handler) = false ∧
      (peered handler).p.entry = none) ∧
    ((∀ i ∈ activeLanes base, unreachable base 1023 = true) ∧ outstanding base base.g.core + (activeLanes base).length ≤ Config.remoteOutstanding ∧
      earlierPending base false = false) ∧
    (∀ rd wr, Ready 8 rd wr (peered base)) ∧ (∀ rd wr, Ready 8 rd wr (peered handler)) ∧ (∀ rd wr, ReadyTurn 8 rd wr (peered base)) :=
  ⟨by decide, ⟨by decide, by decide, by decide, ⟨by decide,
      fun i hi _ hr => absurd hr ((by decide : ∀ i ∈ activeLanes copied, regionOf (offsetOf (farVA copied 2 0 i)) ≠ 3) i hi),
      fun h => absurd h (by decide), by decide, by decide, by decide⟩⟩,
    ⟨by decide, (peered_rests base_rests).noRotation, by decide, by decide, by decide⟩, ⟨by decide, by decide, by decide⟩,
    (peered_rests base_rests).ready (by decide), (peered_rests handler_rests).ready (by decide),
    fun rd wr => (peered_rests base_rests).readyTurn (by decide) rd wr (by decide)⟩

/-- The last node of a remote atomic has answered. -/
def answeredFar : State := withP (fun q => { q with wait := .remote 2, redo := some 0 }) base

theorem meets_remote_atomics :
    (∀ e ∈ remoteAtomics, wellFormed (e.1 { n := 5, cls := 3, d := 95, peer := 2, a := 0, ta := false }) = true ∧
      (farAtom (peered base) { n := 5, cls := 3, d := 95, peer := 2, a := 0, ta := false } e.2).map (fun op => (op.size, op.uses)) = some (4, 1)) ∧
    (farAtom (peered base) { n := 10, cls := 3, d := 88, peer := 2, a := 0, ta := false } true).map (fun op => (op.size, op.uses)) = some (16, 8) ∧
    (peered base).p.wait = .none ∧ (peered base).p.redo = none ∧ activeLanes (peered base) ≠ [] ∧
    answeredFar.p.wait = .remote 2 ∧ answeredFar.p.redo = some 0 ∧ farPending answeredFar 2 = false ∧ answeredFar.remotes = [] ∧
    detNow answeredFar = false ∧ NoRotation answeredFar ∧ NoSpill answeredFar ∧ answeredFar.p.buffer = [] :=
  have h : Rests answeredFar := rests_with base_rests _ ⟨rfl, rfl⟩ ⟨rfl, rfl⟩
  ⟨by decide, by decide, rfl, rfl, by decide, rfl, rfl, by decide, rfl, by decide, h.noRotation, h.noSpill, rfl⟩

/-! #### Waiting, barriers, clocks, tiles, engines (R249 to R253, R261 to R266) -/

theorem meets_fences_and_counts :
    (∀ kind ∈ [1, 2, 3], ∀ mask ∈ [0, 1, 15], ∀ c ∈ [base, commitRegion base], accessPending c (BitVec.ofNat 4 mask) (decide (kind = 1)) = false) ∧
    (∀ k ∈ [0, 1, 2, 3], ∀ c ∈ [base, commitRegion base], countOf c k ≤ 0 ∧ writesPending c = false ∧ countFault base k = none ∧ deliverable base .engines = none) ∧
    Ready 4 [] [] base ∧ detNow base = false :=
  ⟨by decide, fun k hk c hc => ⟨by revert k c; decide, by revert c; decide, by revert k; decide, base_rests.undisturbed _⟩, base_rests.ready (by decide) _ _, by decide⟩

/-- The gang in a launch of cluster groups. -/
def grouped : State := { base with launches := [{ placedLaunch with cg := true }] }
/-- The gang's one split waits at the barrier of its workgroup. -/
def arrived : State := { withP (fun q => { q with wait := .barrier .wg 1, entry := none, arrivals := [1, 0, 0] }) base with
  arg := .barrier { kind := .wg, launch := 1, unit := 0, wg := 0 } }

theorem meets_barriers :
    (∀ e ∈ barriers, e.2.2 (curLaunch grouped)) ∧ (isPriv grouped = false ∧ grouped.p.arrivals.length = 3 ∧ NoRotation grouped ∧ detNow grouped = false ∧
      deliverable grouped .irrevocable = none ∧ deliverable grouped .turn = none ∧ NoSpill grouped ∧ (commitRegion grouped).reqs = []) ∧
    (isPriv arrived = false ∧ arrived.p.wait = .barrier .wg 1 ∧ arrived.p.buffer = [] ∧
      participants arrived { kind := .wg, launch := arrived.g.launch, unit := arrived.g.unit, wg := arrived.g.wg } = [(arrived.g, arrived.p)] ∧
      arrived.arg = .barrier { kind := .wg, launch := arrived.g.launch, unit := arrived.g.unit, wg := arrived.g.wg } ∧ arrived.reqs = [] ∧
      arrived.p.clock.toNat + 4 + (edges arrived).count < 2 ^ 64 ∧ NoRotation arrived ∧ NoSpill arrived) := by
  have h : Rests grouped := ⟨⟨rfl, rfl⟩, ⟨rfl, rfl⟩, ⟨rfl, rfl⟩, ⟨rfl, rfl⟩, rfl⟩
  have h' : Rests arrived := ⟨⟨rfl, rfl⟩, ⟨rfl, rfl⟩, ⟨rfl, rfl⟩, ⟨rfl, rfl⟩, rfl⟩
  refine ⟨fun e he => ?_, ⟨by decide, rfl, h.noRotation, by decide, h.undisturbed _, h.undisturbed _, h.noSpill, by rfl⟩,
    by decide, rfl, rfl, by rfl, rfl, rfl, by decide, h'.noRotation, h'.noSpill⟩
  simp only [barriers, List.mem_cons, List.not_mem_nil, or_false] at he
  rcases he with rfl | rfl | rfl
  · trivial
  · exact (by decide : (curLaunch grouped).cg = true)
  · exact (by decide : (curLaunch grouped).nunit ≤ (curLaunch grouped).conc)

/-- The split waits for its turn, and the floor has reached its key. -/
def presented : State := { withP (fun q => { q with wait := .turn { clock := 0, gang := 0, lane := 0 } .turn }) det with
  arg := .num2 1 0
  launches := [{ placedLaunch with dscope := 1, floor := { clock := 0, gang := 0, lane := 0 } }] }

theorem meets_clocks :
    ReadyTurn 8 [] [] base ∧ Ready (511#9).toNat [] [] base ∧ Ready (getS base 63).toNat [codeS 63] [] base ∧
    Ready (max (base.p.clock.toNat + 1) (getS base 63).toNat - base.p.clock.toNat) [codeS 63] [] base ∧ Ready 1 [] [codeS 63] base ∧
    (detNow det = true ∧ deliverable det .turn = none ∧ NoRotation det ∧ NoSpill det ∧ overflows (fullWeight 8 det) det = false) ∧
    (detNow presented = true ∧ presented.p.wait = .turn (curKey presented) .turn ∧ presented.p.buffer = [] ∧
      pathOf presented presented.g.id (lowest presented.p.members) = some (presented.g, presented.p) ∧
      presented.arg = .num2 presented.g.id (lowest presented.p.members) ∧ presented.g.resident = true ∧ presented.g.trapped = false ∧
      (curLaunch presented).floor = curKey presented ∧ deliverable presented .turn = none ∧ presented.p.away = 0 ∧ presented.p.parted = 0 ∧ presented.cmds = [] ∧
      NoRotation presented ∧ NoSpill presented) :=
  have h : Rests presented := ⟨⟨rfl, rfl⟩, ⟨rfl, rfl⟩, ⟨rfl, rfl⟩, ⟨rfl, rfl⟩, rfl⟩
  ⟨base_rests.readyTurn (by decide) _ _ (by decide), base_rests.ready (by decide) _ _, base_rests.ready (by decide) _ _,
    base_rests.ready (by decide) _ _, base_rests.ready (by decide) _ _,
    ⟨by decide, det_rests.undisturbed _, det_rests.noRotation, det_rests.noSpill, by decide⟩,
    ⟨by decide, by rfl, rfl, by rfl, by rfl, rfl, rfl, by rfl, h.undisturbed _, rfl, rfl, rfl, h.noRotation, h.noSpill⟩⟩

theorem meets_tiles :
    (∀ e ∈ tileMoves, ∃ x, tileOf (tiled (.priv 0)) 0 = some x ∧ e.2.1 (tiled (.priv 0)).g.num x.state ∧ x.state = .priv (tiled (.priv 0)).g.num) ∧
    ((tileOf (tiled .ready) 0).map (fun x => x.state) = some .ready ∧ blockedAt (tiled .ready) 0 = false ∧ blockedAt (tiled .empty) 0 = false) ∧
    (0 < (curLaunch (tiled .ready)).tiles.length ∧ isPriv (tiled .ready) = false ∧ (∀ x, ReadyTurn 8 [] [] (tiled x)) ∧
      detNow (tiled .ready) = false ∧ Ready 4 [] [codeS 63] (tiled .ready)) := by
  refine ⟨fun e he => ⟨_, rfl, ?_, rfl⟩, by decide, by decide, by decide, fun x => (tiled_rests x).readyTurn (by show (0 : Nat) + 8 < _; decide) _ _ rfl, by decide,
    (tiled_rests _).ready (by decide) _ _⟩
  simp only [tileMoves, List.mem_cons, List.not_mem_nil, or_false] at he
  rcases he with rfl | rfl | rfl
  · exact .inr (.inl rfl)
  · exact rfl
  · exact .inl rfl

/-- Scalar registers, a page that the PLB knows, tile 0 READY and tile 1 EMPTY, and at offset 0 the descriptor of a group of this node
alone. -/
def engined (rs : List (Nat × Word)) (s : State) : State :=
  { paged (withP (fun q => { q with sregs := rs }) s) with
    launches := s.launches.map fun l => { l with tiles := [512, 512] }
    tiles := [{ launch := 1, unit := 0, wg := 0, h := 0, slot := 0, state := .ready, size := 512, base := 0, data := [], fill := none, reads := [] },
      { launch := 1, unit := 0, wg := 0, h := 1, slot := 0, state := .empty, size := 512, base := 512, data := [], fill := none, reads := [] }]
    parts := [{ placedPart with members := [0] }]
    mem := memWrite s.mem placeFrame [1] }

/-- The workgroup's floor has come to the key of a `tile.q` in a deterministic launch. -/
theorem meets_keyed_tile : let s : State := { engined [] det with launches := [{ placedLaunch with dscope := 1, floor := curKey det, tiles := [512, 512] }] }
    detNow s = true ∧ (tileOf s 0).isSome = true ∧ keyLe (curKey s) (wgFloor s (curLaunch s) s.g.wg) = true := by decide

/-- An engine command passes its checks. -/
def passes (i : Instr) (s : State) : Bool := wellFormed i && (engineForm s i).any fun x => decide (orderCheck x.2 s = .ok)

theorem meets_engine_commands : (∀ s ∈ [engined [] base, engined [] det],
      ∀ i ∈ [.cp { d := 10, k := 7 }, .cpR { d := 10, k := 7 }, .cpX { d := 10, k := 7 }, .cpXR { d := 10, k := 7 },
        .maccZ { n1 := 0, b := 7, k := 7 }, .maccZR { n1 := 7, b := 0, k := 7 }, .maccLd { d := 62, n1 := 0, b := 7, k := 7 },
        .maccLdR { d := 62, n1 := 0, b := 7, k := 7 }, .maccSt { d := 62, n1 := 0, b := 7, k := 7 }, .maccStR { d := 62, n1 := 0, b := 7, k := 7 }],
      passes i s = true) ∧
    (∀ i ∈ [.gat { h := 0, d := 8, k := 7 }, .gatR { h := 0, d := 8, k := 7 }], passes i (engined [(9, 0x10000)] base) = true) ∧
    (∀ i ∈ [.scat { h := 0, d := 8, k := 7 }, .scatR { h := 0, d := 8, k := 7 }], passes i (engined [] base) = true) ∧
    passes (.mloop { d := 0, f := 16, k := 7 }) (engined [(4, 1)] base) = true ∧
    (∀ i ∈ [.coll { d := 0, k := 7 }, .collR { d := 0, k := 7 }], passes i (engined [(3, 0x100100000)] base) = true ∧
      (engineForm (engined [(3, 0x100100000)] base) i).any (fun x =>
        decide (collRead (commitRegion (engined [(3, 0x100100000)] base)) x.2.desc ≠ .void)) = true) := by decide

theorem meets_engine_issue (rs : List (Nat × Word)) (w : Nat) (hw : w ≤ 8 + 65535) (rd : List Nat) :
    isPriv (engined rs base) = false ∧ ReadyTurn w rd [] (engined rs base) ∧ ReadyAlone w rd [] (engined rs base) :=
  have h : Rests (engined rs base) := ⟨⟨rfl, rfl⟩, ⟨rfl, rfl⟩, ⟨rfl, rfl⟩, ⟨rfl, rfl⟩, rfl⟩
  have hc : (engined rs base).p.clock.toNat + w < 2 ^ 64 := by show (0 : Nat) + w < _; omega
  ⟨show isPriv base = false by decide, h.readyTurn hc _ _ (show (!isPriv base && _) = _ by decide), h.readyAlone hc _ _⟩

theorem meets_engine_waits : ∀ s ∈ [base, det], isPriv s = false ∧ deliverable s (.counter 7) = none ∧ s.p.wait = .none ∧
    counterOf s s.g.id 7 ≤ 0 ∧ Ready 4 [] [] s ∧ Ready 1 [] [codeS 63] s := by
  intro s hs
  simp only [List.mem_cons, List.not_mem_nil, or_false] at hs
  rcases hs with rfl | rfl
  · exact ⟨by decide, base_rests.undisturbed _, rfl, by decide, base_rests.ready (by decide) _ _, base_rests.ready (by decide) _ _⟩
  · exact ⟨by decide, det_rests.undisturbed _, rfl, by decide, det_rests.ready (by decide) _ _, det_rests.ready (by decide) _ _⟩

theorem meets_engine_poll : keyLe (curView { det with launches := [{ placedLaunch with dscope := 1, floor := key3 1 0 0 }] }) (key3 1 0 0) = true := by
  decide

/-! #### Tasks, traps and system instructions (R276 to R284, R336 to R350, R372) -/

/-- A leaf that may be read and written, with TASK. -/
def dataLeaf (pa : Nat) : Nat := 2 ^ 63 + 2 ^ 62 + 2 ^ 58 + 2 ^ 54 + 2 ^ 53 + pa

/-- The page at offset 0 may be read and written, and holds tasks. -/
def writable (s : State) : State :=
  { s with mem := memWrite s.mem 0x500000 (leBytes 8 (dataLeaf placeFrame)), parts := [{ placedPart with tvec := 0x1000, memmap := BitVec.ofNat 384 (1 + 2 ^ 252) }] }

/-- A line of the page in its home slice. -/
def lineAt (va pa : Nat) (st : LineState) (grant : Bool) : Line where
  ref := lineRef 0 1 va
  pa := pa
  state := st
  grant := grant
  coh := 0
  presence := 0
  out := false
  acks := []
  hostAcks := []
  resume := .none
  share := false
  laid := []

/-- The line of the context area is at its home slice, with its write grant. -/
def savable (s : State) : State := { writable s with lines := [lineAt 0 placeFrame .d true] }

theorem writable_rests {s : State} (h : Rests s) : Rests (writable s) := ⟨h.regs, h.region, h.loops, h.slices, h.faults⟩

/-- The split waits for the answer of a signal that found 5 in PRED. -/
def signalled : State := { withP (fun q => { q with wait := .answer 2 }) base with
  reqs := [{ mkReq base 64 0 4 (.count true 511) .none 0 with id := 2, phase := .done [5, 0, 0, 0] }], nextId := 3 }

theorem meets_tasks :
    (taskAddressOk (writable base) (getS (writable base) 63) = true ∧ gateGroup (writable base) = .ok ∧
      releasePending (commitRegion (writable base)) = false ∧ (writable base).p.wait = .none ∧ ReadyAlone 8 [codeS 63] [] (writable base)) ∧
    (signalled.p.wait = .answer 2 ∧ (∃ q, reqOf signalled 2 = some q ∧ q.phase = .done [5, 0, 0, 0]) ∧ leNat [5, 0, 0, 0] + 511 < 2 ^ 32 ∧
      5 ≤ leNat [5, 0, 0, 0] ∧ signalled.p.buffer = [] ∧ NoRotation signalled ∧ NoSpill signalled) ∧
    ((curLaunch base).early = false ∧ successorsOf base (curLaunch base) = [] ∧
      unreadable base base.g.part base.g.asid (offsetOf (curLaunch base).succp) (8 * (curLaunch base).nsucc) = false ∧ isPriv base = false ∧ ReadyAlone 8 [] [] base ∧
      (curLaunch { base with launches := [{ placedLaunch with early := true }] }).early = true) :=
  have h : Rests signalled := ⟨⟨rfl, rfl⟩, ⟨rfl, rfl⟩, ⟨rfl, rfl⟩, ⟨rfl, rfl⟩, rfl⟩
  ⟨⟨by decide, by decide, by decide, rfl, (writable_rests base_rests).readyAlone (by decide) _ _⟩,
   ⟨rfl, ⟨_, rfl, rfl⟩, by decide, by decide, rfl, h.noRotation, h.noSpill⟩,
   ⟨by decide, by decide, by decide, by decide, base_rests.readyAlone (by decide) _ _, by decide⟩⟩

/-- The record of a trap is taken by the context area. -/
def takes (r : List Byte) (s : State) : Bool :=
  let c := commitRegion s
  let off := offsetOf s.g.ctx
  (admits c s.g.part s.g.asid off true).isNone && !granuleHeld c s.g.part s.g.asid off &&
    decide ((curPart (writePiece 0 s.g.part s.g.asid off r c)).tvec = (curPart s).tvec)

theorem recorded_of {r : List Byte} {s : State} (h : takes r s = true) : ∃ m, Recorded r s m := by
  simp only [takes, Bool.and_eq_true, Option.isNone_iff_eq_none, Bool.not_eq_true', decide_eq_true_eq] at h
  exact ⟨_, h.1.1, h.1.2, rfl, h.2⟩

theorem meets_traps :
    (isPriv (savable base) = false ∧ HasHandler (savable base) ∧ deliverable (savable base) .irrevocable = none ∧
      overflows (fullWeight 0 (savable base)) (savable base) = false ∧
      (∃ m, Recorded (faultRecord 0 0x09 0 0 0 511 ((encode (.brk { n := 511 })).getD 0) (savable base)) (savable base) m) ∧
      deliverable (savable base) .opening = none ∧ deliverable (savable base) .turn = none ∧
      (∀ w x, reservedPoint w (savable base) = some x → deliverable (savable base) x = none) ∧ Ready 4 [] [] (savable base) ∧
      ∃ m, Recorded (faultRecord 0 0x08 0 0 0 511 ((encode (.trap { n := 511 })).getD 0) (savable base))
        (retired (addClock 4 (commitRegion (savable base)))) m) ∧
    (overflows (fullWeight 0 base) base = false ∧ deliverable base .irrevocable = none ∧ (curPart base).tvec = 0 ∧ isPriv base = false) ∧
    (overflows (fullWeight 0 handler) handler = false ∧ deliverable handler .irrevocable = none ∧ isPriv handler = true) :=
  have h : Rests (savable base) := ⟨base_rests.regs, base_rests.region, base_rests.loops, base_rests.slices, base_rests.faults⟩
  ⟨⟨by decide, ⟨by decide, by decide⟩, h.undisturbed _, by decide, recorded_of (by decide +kernel), h.undisturbed _, h.undisturbed _,
    fun _ _ _ => h.undisturbed _, h.ready (by decide) _ _,
    recorded_of (by decide +kernel)⟩, ⟨by decide, base_rests.undisturbed _, by decide, by decide⟩, by decide, handler_rests.undisturbed _, by decide⟩

/-- The record of a word with a set reserved field is taken: of a `nop`, of a privileged and of an irrevocable instruction. -/
def reservedTaken (w : BitVec 32) : Bool :=
  let u := reservedEntered w (savable base)
  takes (faultRecord 0 (if w.toNat / 2 ^ 23 ∈ privOps then 0x02 else 0x03) 0 0 0 0 w u) u

theorem meets_reserved_words : reservedTaken 0x27000001 = true ∧ reservedTaken 0xA8800001 = true ∧ reservedTaken 0x97000001 = true :=
  ⟨by decide +kernel, by decide +kernel, by decide +kernel⟩

theorem meets_return : isPriv handler = true ∧ handler.p.epc.toNat % 4 = 0 ∧ handler.p.buffer = [] ∧ handler.p.members ≠ 0 ∧
    handler.p.status.toNat / 2 ^ 9 % 8 = 0 ∧ recordPending handler = false ∧ (devRead handler handler.g.part handler.g.asid (offsetOf (handler.p.frec + 64)) 64).isOk = true ∧
    unreadable handler handler.g.part handler.g.asid (offsetOf handler.p.frec) 128 = false ∧ Ready 4 [] [] handler :=
  ⟨by decide, by decide, rfl, by decide, by decide, by decide, by decide, by decide, handler_rests.ready (by decide) _ _⟩

/-- Operands of `hc.op` in s0 to s2, and the frame records of two frames for the granule at offset 0. -/
def serviced (x y z : Word) : State := { writable (withP (fun q => { q with sregs := [(0, x), (1, y), (2, z)] }) handler) with
  frames := [(placeFrame / 65536, (0, 1, 0)), (placeFrame / 65536 + 1, (0, 1, 0))] }

theorem serviced_rests (x y z : Word) : Rests (serviced x y z) := ⟨⟨rfl, rfl⟩, ⟨rfl, rfl⟩, ⟨rfl, rfl⟩, ⟨rfl, rfl⟩, rfl⟩

/-- A store held at the granule at offset 0. -/
def heldStore : LateEntry :=
  { lateOfReq base (contextReq base 0 [7]) (some 0x70) with id := 2, reqId := none, recorded := true, delivered := true, gang := none }
def holdsStore : State := { serviced 0 1 0 with late := [heldStore] }

theorem meets_table_operations :
    (∀ x y z, isPriv (serviced x y z) = isPriv handler ∧ ReadyAlone 4 [codeS 0, codeS 1, codeS 2] [codeS 0] (serviced x y z)) ∧
    (poolIndex (commitRegion (serviced (2 ^ 39) 0x40001 0)) 0 (2 ^ 39) = none ∧ entryAt (commitRegion (serviced (2 ^ 39) 0x40001 0)) 0 1 (2 ^ 39) 4 = none) ∧
    ((0x30001 : Word) &&& 0xFFFFFFFFFFF8F000 = 0 ∧ entryAt (commitRegion (serviced 0x210000 0x30001 0)) 0 1 0x210000 3 = some 0x400008 ∧
      0x400008 < 2 ^ 39 ∧ Pte.v (memWord (serviced 0x210000 0x30001 0).mem 0x400008) = false ∧ Pte.v (0 : Word).toNat = false ∧
      Pte.leaf (pointerEntry 0x200000) = false ∧ entryValid (homeHc 0x210000) 0 (pointerEntry 0x200000) = true) ∧
    ((0 : Word) &&& 0xFFFFFFFFFFFFFFE0 = 0 ∧ ownHc (curPart (serviced 21 0 0)) 21 = true ∧
      ownFrame (curPart (serviced 21 0 (21 * 2 ^ 34))) (21 * 2 ^ 34) = true ∧ 21 * 2 ^ 34 / 2 ^ 34 % 32 = 21) ∧
    ((1 : Word) &&& 0xFFFFFFFFFFFFF000 = 0 ∧ ownFrame (curPart (serviced 0x620000 1 0)) 0x620000 = true ∧
      namesPool (commitRegion (serviced 0x620000 1 0)) 0 0 0x620000 = false) ∧
    (∃ l, tableWalk (commitRegion (serviced 0 1 0x610000)) 0 1 0 = some l ∧ (serviced 0 1 0x610000).p.wait ≠ .migration ∧ Pte.lock l.entry = false ∧
      Pte.pin l.entry = false ∧ inPool (curPart (serviced 0 1 0x610000)) 0x610000 = false ∧ inPool (curPart (serviced 0 1 0x610000)) (Pte.addr l.entry) = false ∧
      0x610000 % 2 ^ l.pageBits = 0 ∧ ownFrame (curPart (serviced 0 1 0x610000)) 0x610000 = true ∧
      recordsMatch (commitRegion (serviced 0 1 0x610000)) 0 1 0 l.pageBits 0x610000 (homeHc 0) = true) ∧
    (∃ l, walk (commitRegion (serviced 0 1 0)) 0 1 0 = some l ∧ Pte.lock l.entry = false ∧ (commitRegion (serviced 0 1 0)).badLines = []) ∧
    (lateOf (commitRegion holdsStore) 0 1 0 = [heldStore] ∧ heldStore.brim = none ∧ heldStore.reqId = none ∧ heldStore.key = none ∧ heldStore.node = none ∧
      heldStore.gang = none ∧ heldStore.recorded = true ∧ regionOf (offsetOf heldStore.va) ≠ 3 ∧ heldStore.op = .store [7] ∧
      firstRefusal (commitRegion holdsStore) [heldStore] = none ∧
      (walk (commitRegion holdsStore) 0 1 (offsetOf heldStore.va)).all (fun l => !Pte.lock l.entry) = true ∧
      unreadable (commitRegion holdsStore) heldStore.part heldStore.asid (offsetOf heldStore.va) heldStore.size = false ∧
      ((commitRegion holdsStore).late.map fun e => e.id).Nodup ∧
      poolIndex (commitRegion holdsStore) 0 0 = none) := by
  refine ⟨fun x y z => ⟨rfl, (serviced_rests x y z).readyAlone (by show (0 : Nat) + 4 < _; decide) _ _⟩, by decide, by decide, by decide, by decide,
    ⟨_, rfl, ?_⟩, ⟨_, rfl, ?_⟩, by decide⟩ <;> decide

/-! #### Accesses on their way and at their homes (R102 to R133, R364 to R367) -/

/-- The access of lane 7 to the first 16 bytes of the page, which has come as far as a phase. -/
def access (op : AccessOp) (dest : Dest) (phase : Phase) : Req := { mkReq base 7 0 16 op dest 0 with phase := phase }

/-- It awaits its answer. -/
def awaiting (op : AccessOp) (dest : Dest) (phase : Phase) : State :=
  { markEmpty dest 2 base with reqs := [access op dest phase], arg := .num 2, nextId := 3 }

theorem meets_answers : ∀ op dest phase, (awaiting op dest phase).arg = .num (access op dest phase).id ∧
    reqOf (awaiting op dest phase) (access op dest phase).id = some (access op dest phase) ∧ (access op dest phase).gang = 1 :=
  fun _ _ _ => ⟨rfl, rfl, rfl⟩

theorem meets_answer_destinations : ∀ e ∈ [(16, Dest.vector 92 4 7), (1, .vector 95 1 0), (8, .scalar 63), (1, .scalar 0)],
    (∀ c ∈ destCodes e.2, regState (awaiting .load e.2 (.done (List.replicate e.1 0x80))) c = .empty 2) ∧ (awaiting .load e.2 (.refused 0x70)).g.id = 1 := by
  decide

theorem meets_answer_sizes : fits 16 (.vector 92 4 7) ∧ fits 1 (.vector 95 1 0) ∧ fits 8 (.scalar 63) ∧ fits 1 (.scalar 0) := by
  simp [fits]

theorem meets_store_acknowledged : (access (.reduce 0 0 0 false [1, 0, 0, 0]) .none (.done [])).dest = .none ∧ (access .discard .none (.done [])).op = .discard ∧
    (access (.store [1]) .none (.done [])).op = .store [1] := by decide

/-- A PLB entry has come for the page that the split waits for. -/
def fetched : State := { withP (fun q => { q with wait := .plb 0 false }) base with arg := .plb 0 0 1 0 }

theorem meets_plb_answer : fetched.arg = .plb 0 0 1 0 ∧ (fetched.plb.filter fun x => x.core == 0).length < 64 ∧ fetched.p.wait = .plb 0 false ∧
    fetched.g.core = 0 ∧ fetched.g.part = 0 ∧ fetched.g.asid = 1 := by decide

/-- A request of lane 7 to node 1023. -/
def remote (op : FabricOp) (dest : List (Nat × Dest)) : RemoteReq where
  id := 2
  gang := 1
  launch := 1
  part := 0
  core := 0
  node := 1023
  cls := 3
  lanes := 0xFF
  rest := 0x80
  pc := 0
  word := 0
  serial := 0
  clock := 0
  va := 0
  size := 16
  ops := [(7, 0, op)]
  dest := dest
  group := 2
  dropped := []
  cmd := none
  refusals := 15
  waiting := false
  heldBack := false
  saved := false
  key := none
  view := none
  sx := false
  fault := none
  failed := 0
  answer := none
  got := 0

/-- It is on its way, and an outside event has come. -/
def abroad (op : FabricOp) (dest : List (Nat × Dest)) (arg : Arg) : State :=
  { dest.foldl (fun s e => markEmpty e.2 2 s) base with remotes := [remote op dest], arg := arg, nextId := 3 }

theorem meets_remote (op : FabricOp) (dest : List (Nat × Dest)) (arg : Arg) (hg : (abroad op dest arg).g.id = 1) : OnTheWay (abroad op dest arg) (remote op dest) := by
  refine ⟨rfl, fun x hx _ _ _ => List.mem_singleton.1 hx, ⟨rfl, rfl, rfl, fun i => ?_⟩, ⟨rfl, rfl, rfl, rfl, (by decide : (0x80#64) ≠ 0)⟩, ⟨rfl, rfl⟩, hg.symm⟩
  have h : ∀ j : Fin 64, (0x80#64).getLsbD j = true ↔ 7 = (j : Nat) := by decide
  have e : (∃ e ∈ (remote op dest).ops, e.1 = i) ↔ 7 = i := by simp [remote]
  rw [e]
  by_cases hi : i < 64
  · exact (h ⟨i, hi⟩).trans (iff_and_self.2 fun _ => hi)
  · exact ⟨fun k => absurd (BitVec.lt_of_getLsbD k) hi, fun k => absurd k.1 hi⟩

theorem meets_remote_answers :
    (∀ copy, OnTheWay (abroad (.load copy) [(7, .vector 92 4 7)] (.num 2)) (remote (.load copy) [(7, .vector 92 4 7)])) ∧
    OnTheWay (abroad (.store [1]) [] (.num 2)) (remote (.store [1]) []) ∧
    (∀ e ∈ [(7, Dest.vector 92 4 7)], ∀ x ∈ destCodes e.2, regState (abroad (.load true) [(7, .vector 92 4 7)] (.num 2)) x = .empty 2) ∧
    fits 16 (.vector 92 4 7) ∧ (abroad (.store [1]) [] (.num 2)).g.ended = false ∧
    (∀ e ∈ (remote (.load true) []).ops, e.1 < 64 ∧ (0x80#64).getLsbD e.1 = true ∧ offsetOf e.2.1 % 128 + 16 ≤ 128) ∧
    answersValue true (.load true) ∧ answersValue false (.load false) :=
  ⟨fun copy => meets_remote _ _ _ (by cases copy <;> rfl), meets_remote _ _ _ rfl, by decide, by simp [fits], rfl, by decide, rfl, rfl⟩

/-- The access stands at its home, with some lines of the page. -/
def atHome (op : AccessOp) (phase : Phase) (ls : List Line) (s : State) : State :=
  { s with reqs := [access op .none phase], arg := .num 2, nextId := 3, lines := ls }

theorem meets_home : ∀ op ∈ [AccessOp.load, .store [1, 2], .rmw 0 0 0 false [1, 0, 0, 0] [], .reduce 0 0 0 false [1, 0, 0, 0]], ∀ phase ∈ [Phase.sent, .atHc],
    ∀ ls ∈ [[], [lineAt 0 placeFrame .c false], [lineAt 0 placeFrame .d true]], AtHome (atHome op phase ls base) (access op .none phase) := by
  intro op hop phase hphase ls hls
  have h : ∀ op ∈ [AccessOp.load, .store [1, 2], .rmw 0 0 0 false [1, 0, 0, 0] [], .reduce 0 0 0 false [1, 0, 0, 0]], ∀ phase ∈ [Phase.sent, .atHc],
      ∀ ls ∈ [[], [lineAt 0 placeFrame .c false], [lineAt 0 placeFrame .d true]],
      let s := atHome op phase ls base
      let q := access op .none phase
      (q.view = none ∧ q.key = none ∧ q.aperture = false) ∧ (eligible s q = true ∧ onCore s q = true) ∧ (s.hostQueue = [] ∧ s.noted = []) ∧
        (readHeld s q = false ∧ granuleHeld s q.part q.asid q.off = false) := by decide
  obtain ⟨h1, h2, h3, h4⟩ := h op hop phase hphase ls hls
  exact ⟨⟨rfl, rfl⟩, h1, h2, ⟨fun _ h => absurd (h3.1 ▸ h) (List.not_mem_nil), fun _ h => absurd (h3.2 ▸ h) (List.not_mem_nil)⟩, h4⟩

theorem meets_home_lines :
    (∀ op, findLine (atHome op .sent [] base) (lineRef 0 1 0) = none ∧
      findLine (atHome op .sent [lineAt 0 placeFrame .c false] base) (lineRef 0 1 0) = some (lineAt 0 placeFrame .c false) ∧
      findLine (atHome op .sent [lineAt 0 placeFrame .d true] base) (lineRef 0 1 0) = some (lineAt 0 placeFrame .d true)) ∧
    (copyHolders (atHome (.store [1]) .sent [lineAt 0 placeFrame .d true] base) (lineAt 0 placeFrame .d true) 0 = ([], []) ∧
      dirtyHosts (atHome .load .sent [lineAt 0 placeFrame .d true] base) (lineRef 0 1 0) = [] ∧ opWrites (.store [1]) = true ∧
      opWrites (.reduce 0 0 0 false [1, 0, 0, 0]) = true ∧
      leNat (memBytes (atHome (.store [1]) .sent [lineAt 0 placeFrame .d true] base).mem placeFrame 4) = 0) ∧
    Alive base 0 1 0 := by
  refine ⟨fun _ => ⟨rfl, rfl, rfl⟩, by decide, fun l hl => ?_⟩
  have : (walk base 0 1 0).all (fun l => !Pte.dead l.entry) = true := by decide
  rw [hl] at this; simpa using this

theorem meets_home_controller :
    hcCheck base 0 1 0x10000 false false = .refuse 0x70 ∧ (∃ l, hcCheck base 0 1 0 false false = .ok l ∧ Pte.dead l.entry = false) ∧
    base.outDirs = [] ∧ hcCheck base 0 1 0 true false = .refuse 0x70 ∧ hcAnswer base 0 1 0 true true false = .refuse 0x70 ∧ lateRoom base (homeHc 0) 0 = true ∧ lineRoom base (lineRef 0 1 0) = true ∧
    regionOf 0 ≠ 3 := by
  refine ⟨by decide, ⟨_, rfl, ?_⟩, by decide⟩; decide

/-- A load at a view that the floor has reached. -/
def keyedLoad : Req := { access .load .none .sent with view := some (key3 1 0 0), key := some (key3 1 0 0) }
def viewing : State := { det with
  launches := [{ placedLaunch with dscope := 1, floor := key3 1 0 0 }]
  reqs := [keyedLoad], arg := .num 2, lines := [lineAt 0 placeFrame .c false] }

theorem meets_keyed_load : viewing.arg = .num keyedLoad.id ∧ reqOf viewing 2 = some keyedLoad ∧ keyedLoad.view = some (key3 1 0 0) ∧
    keyedLoad.aperture = false ∧ keyedLoad.phase = .sent ∧ keyedLoad.op = .load ∧ viewReady viewing keyedLoad = true ∧ readHeld viewing keyedLoad = false ∧
    viewing.hostQueue = [] ∧ findLine viewing keyedLoad.ref = some (lineAt 0 placeFrame .c false) ∧ dirtyHosts viewing keyedLoad.ref = [] := by decide

/-- A line waits in P for one answer. -/
def pending (acks : List CopyHolder) (hosts : List Nat) (resume : Arg) : Line :=
  { lineAt 0 placeFrame .p true with acks := acks, hostAcks := hosts, resume := resume, out := true }
def inP (l : Line) (arg : Arg) : State := { atHome (.store [1]) .pending [l] base with arg := arg }

theorem meets_invalidation : ∀ h ∈ [CopyHolder.core 255, .node 1023], let l := pending [h] [] (.num 2)
    let s := inP l (.lineHolder l.ref h)
    findLine s l.ref = some l ∧ l.state = .p ∧ l.acks = [h] ∧ l.hostAcks = [] ∧ s.readied = [] ∧ s.arg = .lineHolder l.ref h ∧ l.resume = .num 2 ∧
      (reqOf s 2).map (fun q => q.view) = some none := by decide

theorem meets_back_invalidation : let l := pending [] [1] .none
    let s := inP l (.bisnp l.ref 1 (some (List.replicate 128 7)))
    findLine s l.ref = some l ∧ l.state = .p ∧ l.acks = [] ∧ l.hostAcks = [1] ∧ s.readied = [] ∧ 1 < 2 ∧ (List.replicate 128 (7 : Byte)).length = 128 ∧
      s.arg = .bisnp l.ref 1 (some (List.replicate 128 7)) := by decide +kernel

/-- A refused store whose record has not reached its core. -/
def lateStore : LateEntry := { heldStore with recorded := false, delivered := false, gang := some 1 }
theorem meets_deferred_fault : let s : State := { base with late := [lateStore], arg := .num 2 }
    s.arg = .num lateStore.id ∧ (s.late.filter fun x => x.id == lateStore.id) = [lateStore] ∧ lateStore.recorded = false ∧ lateStore.cause = some 0x70 ∧
      lateStore.gang = some s.g.id ∧ s.g.ended = false ∧ (lateStore.serial, lateStore.pc) ∉ s.g.told ∧
      (∀ x ∈ s.late, x.hc = lateStore.hc → x.id < lateStore.id → x.recorded = true) ∧ s.g.faults = [] := by decide

/-! #### Publications, updates, floors (R58 to R73, R137, R380, R409) -/

/-- A publication of one byte to the line of the page. -/
def publication (answered : Bool) : Publication where
  id := 2
  launch := 1
  gang := 1
  core := 0
  part := 0
  asid := 1
  ref := lineRef 0 1 0
  key := key3 1 0 0
  order := 0
  data := [(127, 7)]
  lanes := 0xFF
  pc := 0
  serial := 0
  clock := 1
  cmd := none
  answered := answered
  stalled := false

/-- A keyed update of the word at offset 4. -/
def update (id lane : Nat) (refused : Bool) : Update where
  id := id
  launch := 1
  part := 0
  asid := 1
  gang := 1
  core := 0
  key := key3 1 0 lane
  lane := lane
  va := 4
  n := 0
  ty := 0
  rm := 0
  fz := false
  v := [1, 0, 0, 0]
  pc := 0
  serial := 0
  lanes := 0xFF
  refused := refused
  stalled := false

/-- A deterministic launch with its floor at a key, its gang at issue, on a page that may be written, whose line is at its home. -/
def keyedLaunch (floor : Key) : Launch := { placedLaunch with dscope := 1, floor := floor }
def keyedState (floor : Key) : State :=
  { writable det with launches := [keyedLaunch floor], lines := [lineAt 0 placeFrame .d true] }

theorem meets_publications : ∀ b ∈ [publication true, publication false], let s : State := { keyedState keyZero with pubs := [b], arg := .num 2 }
    answerOnWay s b = false ∧ holders s b.launch b.ref = [] ∧
    s.arg = .num b.id ∧ (s.pubs.filter fun x => x.id == b.id) = [b] ∧ admits s b.part b.asid b.ref.va true = none ∧
      granuleHeld s b.part b.asid b.ref.va = false := by decide

theorem meets_updates : ∀ u ∈ [update 2 0 false, update 2 0 true], ∀ n ∈ [0, 15, 16],
    let s : State := { keyedState keyZero with updates := [u], mitten := (List.range n).map fun k => update (k + 3) k false, arg := .num 2 }
    s.arg = .num u.id ∧ (s.updates.filter fun x => x.id == u.id) = [u] ∧ admitsBoth s u.part u.asid (offsetOf u.va) = none ∧
      granuleHeld s u.part u.asid (offsetOf u.va) = false ∧ s.mitten.length = n ∧ ((u :: s.mitten).map fun x => x.id).Nodup ∧
      (s.retry.filter fun x => x.core == u.core).length < 32 ∧ holders s u.launch u.ref = [] := by decide

theorem meets_full_buffer : let s : State := { keyedState keyZero with mitten := (List.range 16).map fun k => update (k + 3) k false }
    (s.mitten.filter fun x => updateSlice s x == updateSlice s (update 2 0 false)).length ≥ 16 := by
  intro s
  rw [List.filter_eq_self.2]
  · simp [s]
  · intro x hx
    obtain ⟨k, -, rfl⟩ := List.mem_map.1 hx
    exact beq_self_eq_true (updateSlice s (update (k + 3) k false))

theorem meets_floor : ∀ e ∈ [(1, key3 0 0 0), (1, key3 5 0 0)], let l := keyedLaunch e.2
    let s : State := { keyedState e.2 with arg := .num 1 }
    s.arg = .num l.id ∧ (s.launches.filter fun x => x.id == l.id) = [l] ∧ s.launches = [l] ∧ l.det = true ∧ l.dscope ≠ 2 ∧
      s.mitten ++ s.retry ++ s.updates = [] ∧ s.brim = [] ∧ isHold (floorNow s l) = false := by decide

/-- A Brim entry of one byte of the line. -/
def entryOfBrim (k : Key) : BrimEntry where
  id := 2
  launch := 1
  ref := lineRef 0 1 0
  key := k
  order := 0
  data := [(127, 7)]
  held := []
  spilled := false
  pa := placeFrame

/-- Another determinism group holds an entry of the line, which a publication or an update of the first reaches. -/
def beside (s : State) : State :=
  { s with
    launches := s.launches ++ [{ placedLaunch with id := 2, dscope := 1, floor := keyZero }]
    brim := [{ entryOfBrim (key3 1 0 0) with id := 9, launch := 2 }], arg := .num 2 }

theorem meets_foreign_publication : let b := publication false
    let s : State := beside { keyedState keyZero with pubs := [b] }
    s.arg = .num b.id ∧ (s.pubs.filter fun x => x.id == b.id) = [b] ∧ admits s b.part b.asid b.ref.va true = none ∧
      granuleHeld s b.part b.asid b.ref.va = false ∧ holders s b.launch b.ref = [2] ∧ b.data = [(127, 7)] ∧
      findLine s b.ref = some (lineAt 0 placeFrame .d true) ∧ (walk s 0 1 127).all (fun x => !Pte.dead x.entry) = true := by decide

theorem meets_foreign_update : let u := update 2 0 false
    let s : State := beside { keyedState keyZero with updates := [u] }
    s.arg = .num u.id ∧ (s.updates.filter fun x => x.id == u.id) = [u] ∧ admitsBoth s u.part u.asid (offsetOf u.va) = none ∧
      granuleHeld s u.part u.asid (offsetOf u.va) = false ∧ holders s u.launch u.ref = [2] ∧ updateFree s u = true ∧ dirtyHosts s u.ref = [] ∧
      4 ≤ offsetOf u.va % 128 ∧ offsetOf u.va % 128 + u.v.length ≤ 128 := by decide

/-- It lies below the merge boundary of a floor two quanta on, and not below that of a floor at its key. -/
theorem meets_merge : ∀ e ∈ [(key3 8192 0 0, true), (key3 1 0 0, false)], let l := keyedLaunch e.1
    let s : State := { keyedState e.1 with brim := [entryOfBrim (key3 1 0 0)], arg := .num 1 }
    s.launches = [l] ∧ s.mitten = [] ∧ s.retry = [] ∧ s.updates = [] ∧ (entryOfBrim (key3 1 0 0)).launch = l.id ∧
      (entryOfBrim (key3 1 0 0)).ref = lineRef 0 1 0 ∧ findLine s (lineRef 0 1 0) = some (lineAt 0 placeFrame .d true) ∧
      keyLt (key3 1 0 0) (mergeBoundary { l with floor := floorNext s l }) = e.2 ∧
      (walk s 0 1 127).all (fun x => !Pte.dead x.entry) = true := by decide

theorem meets_update_applied : ∀ e ∈ [(key3 2 0 0, true), (key3 1 0 0, false)], let l := keyedLaunch e.1
    let u := update 2 0 false
    let s : State := { keyedState e.1 with mitten := [u], arg := .num 1 }
    s.launches = [l] ∧ s.retry = [] ∧ s.updates = [] ∧ s.brim = [] ∧ u.launch = l.id ∧ keyLt u.key (mergeBoundary { l with floor := floorNext s l }) = false ∧
      4 ≤ offsetOf u.va % 128 ∧ updateFree s u = true ∧ dirtyHosts s u.ref = [] ∧ keyLt u.key (floorNext s l) = e.2 := by decide

/-- The split waits for a floor that has come to its key. -/
theorem meets_gate : ∀ group, let s : State := { withP (fun q => { q with wait := .gated (key3 0 0 0) group false }) (keyedState keyZero) with arg := .num2 1 0 }
    s.arg = .num2 s.g.id (lowest s.p.members) ∧ s.p.wait = .gated (key3 0 0 0) group false ∧
      keyLe (key3 0 0 0) (if group then (curLaunch s).floor else wgFloor s (curLaunch s) s.g.wg) = true := by decide

theorem meets_gate_path : ∀ w ∈ [Wait.gated (key3 0 0 0) true false, .gated (key3 0 0 0) false false, .turn (key3 0 0 0) .turn],
    let s : State := { withP (fun q => { q with wait := w }) (keyedState keyZero) with arg := .num2 1 0 }
    pathOf s s.g.id (lowest s.p.members) = some (s.g, s.p) := by decide

theorem meets_watchdog : let s : State := { withP (fun q => { q with wait := .turn (key3 0 0 0) .turn }) (keyedState keyZero) with arg := .num2 1 0 }
    s.arg = .num2 s.g.id (lowest s.p.members) ∧ s.p.wait = .turn (key3 0 0 0) .turn ∧
      (s.launches.filter fun x => x.id == s.g.launch) = [curLaunch s] ∧ hasPart s (curLaunch s).part = true ∧
      (curLaunch s).stallNoted ≠ some (curLaunch s).floor := by decide

/-! #### Splits and engines at work (R34, R266, R293 to R296, R376 to R391) -/

/-- The lanes of the gang in two splits in the same state. -/
def divided : State :=
  { withP (fun q => { q with members := 0x0F, exec := 0x0F, entry := none, fresh := false }) base with
    g := { placedGang with splits := [{ placedSplit with members := 0xF0, exec := 0xF0, clock := 9, entry := none, fresh := false }] }
    arg := .num3 1 0 4 }

theorem meets_merging : divided.g.id ≠ 0 ∧ divided.gangs = [] ∧
    (∃ b, divided.g.splits = [b] ∧ divided.g.parked = [] ∧ divided.p.buffer = [] ∧ b.buffer = [] ∧ (onChip divided.g.cuff).length ≤ 64 ∧
      divided.p.wait = .none ∧ b.wait = .none ∧ mayMerge divided divided.g divided.p b = true ∧ lowest divided.p.members ≠ lowest b.members ∧
      divided.arg = .num3 divided.g.id (lowest divided.p.members) (lowest b.members)) :=
  ⟨by decide, rfl, _, rfl, rfl, rfl, rfl, by decide, rfl, rfl, by decide, by decide, by decide⟩

/-- A command of the gang as its issue gives it, in a phase. -/
def command (i : Instr) (phase : CmdPhase) (s : State) : Option Cmd :=
  (engineForm s i).map fun x => { cmdOfOrder x.2 s with phase := phase }

/-- It stands in the machine, named by an event. -/
def commanded (i : Instr) (phase : CmdPhase) (arg : Arg) (s : State) : State :=
  { s with cmds := (command i phase s).toList, nextId := 3, arg := arg }

/-- A gather: tile 0 READY is its index, tile 1 EMPTY its output. -/
def gathering : State := commanded (.gat { h := 0, d := 8, k := 7 }) .table (.num 2) (engined [(9, 0x10000)] base)

theorem meets_dispatch : ∃ c, gathering.cmds = [c] ∧ gathering.arg = .num c.id ∧ c.recorded = false ∧ admitted gathering c = true ∧ leavesFirst gathering c = true ∧
    c.tileNames true = [1] ∧ c.tileNames false = [0] ∧ (cmdTile gathering c 0).map (fun x => x.state) = some .ready := by
  refine ⟨_, rfl, ?_⟩; decide

/-- Likewise in a deterministic launch, whose floor stands at the key of its issue. -/
def keyedGathering : State := commanded (.gat { h := 0, d := 8, k := 7 }) .table (.num 2)
  { engined [(9, 0x10000)] det with launches := [{ placedLaunch with dscope := 1, floor := curKey det, tiles := [512, 512] }] }

theorem meets_keyed_dispatch : ∃ c, keyedGathering.cmds = [c] ∧ keyedGathering.arg = .num c.id ∧ c.recorded = false ∧ (launchOf keyedGathering c.launch).det = true ∧
    admitted keyedGathering c = true ∧ leavesFirst keyedGathering c = true ∧ ∀ e ∈ allGangs keyedGathering, ∀ q ∈ e.2, q.buffer = [] := by
  refine ⟨_, rfl, ?_⟩; decide

/-- A copy of one byte between two lines of a page that may be written. -/
def copying : State := { commanded (.cp { d := 8, k := 7 }) .queued (.num 2) (withP (fun q => { q with sregs := [(8, 0x7F), (9, 0x80)] }) (writable base)) with
  lines := [lineAt 0 placeFrame .c true, lineAt 128 (placeFrame + 128) .d true] }

theorem meets_copy : ∃ c, copying.cmds = [c] ∧ c.suspended = false ∧ c.recorded = false ∧ c.phase = .queued ∧ engViewReady copying c = true ∧ c.op = .cp ∧
    c.progress = 0 ∧ (launchOf copying c.launch).det = false ∧ c.view = none ∧ c.desc.getD 2 0 = BitVec.ofNat 64 (1 - 1) ∧
    offsetOf (c.desc.getD 0 0) = 127 ∧ offsetOf (c.desc.getD 1 0) = 128 ∧
    findLine copying (lineRef c.part c.asid 127) = some (lineAt 0 placeFrame .c true) ∧
    findLine copying (lineRef c.part c.asid 128) = some (lineAt 128 (placeFrame + 128) .d true) ∧
    engReadCheck copying c 0xC0 (c.desc.getD 0 0) 1 = none ∧ engWritesCheck copying c [(c.desc.getD 1 0, 1)] = none ∧
    devQueued copying c.part c.asid 128 = false ∧
    granuleHeld copying c.part c.asid 128 = false ∧ (walk copying 0 1 128).all (fun x => !Pte.dead x.entry) = true ∧
    Machine.mayStart copying c = true ∧ unsettledLine copying c.part = false ∧ copying.remotes = [] ∧ copying.outDirs = [] ∧ copying.late = [] ∧
    ∀ u ∈ (launchOf copying c.launch).units, u.idx = c.unit → u.phase ≠ .swapped := by
  refine ⟨_, rfl, ?_⟩; decide

/-- A gather that has done its rows, its output FILLING and its input DRAINING. -/
def gathered : State :=
  let s := engined [(9, 0x10000)] base
  let c := (command (.gat { h := 0, d := 8, k := 7 }) .queued s).map fun c => { c with progress := 1 }
  { s with
    cmds := c.toList, nextId := 3, arg := .num 2
    tiles := [{ launch := 1, unit := 0, wg := 0, h := 0, slot := 0, state := .draining 2, size := 512, base := 0, data := [], fill := none, reads := [] },
      { launch := 1, unit := 0, wg := 0, h := 1, slot := 0, state := .filling 9, size := 512, base := 512, data := [], fill := none, reads := [] }] }

theorem meets_finish : ∃ c, gathered.cmds = [c] ∧ c.suspended = false ∧ c.recorded = false ∧ c.phase = .queued ∧ engViewReady gathered c = true ∧
    unitCount c ≤ c.progress ∧ c.drained = false ∧ gathered.late = [] ∧ gathered.remotes = [] ∧ Machine.mayStart gathered c = true ∧ keyedCmd gathered c = false ∧
    unsettledLine gathered c.part = false ∧ (∀ u ∈ (launchOf gathered c.launch).units, u.idx = c.unit → u.phase ≠ .swapped) ∧
    (cmdTile gathered c 0).map (fun x => x.state) = some (.draining 2) := by
  refine ⟨_, rfl, ?_⟩; decide

/-- A copy to a page that may not be written, and an `mloop` with an operand outside every page. -/
def refusedCopy : State := commanded (.cp { d := 8, k := 7 }) .queued (.num 2) base
def refusedLoop : State := commanded (.mloop { d := 0, f := 16, k := 7 }) .matrix (.num 2) (withP (fun q => { q with sregs := [(0, 0x10000), (4, 1)] }) base)

theorem meets_engine_faults : (∃ c, refusedCopy.cmds = [c] ∧ c.gang = refusedCopy.g.id ∧ refusedCopy.g.ended = false ∧ c.op ≠ .mloop ∧
      (nextFault refusedCopy c).isSome = true) ∧
    ∃ c, refusedLoop.cmds = [c] ∧ c.gang = refusedLoop.g.id ∧ c.op = .mloop ∧ (nextFault refusedLoop c).isSome = true := by
  refine ⟨⟨_, rfl, ?_⟩, _, rfl, ?_⟩ <;> decide

/-- A collective of two members waits for the other's input. -/
def collecting : State :=
  let s := base
  { s with
    cmds := (command (.coll { d := 0, k := 7 }) .queued s).toList.map fun c => { c with fmt := [7, 0, 1023] }
    nextId := 3 }

theorem meets_collective_timeout : ∃ c, collecting.cmds = [c] ∧ c.op = .coll ∧ c.suspended = false ∧ c.recorded = false ∧ c.phase = .queued ∧
    needsOthers collecting c = true ∧ c.data = none ∧ 1023 ∈ contributors collecting c ∧ 1023 ∈ collNodes c ∧ collecting.remotes = [] ∧ c.gang = collecting.g.id ∧ collecting.g.ended = false := by
  refine ⟨_, rfl, ?_⟩; decide

/-- Nothing of the other member is awaited: it is the root that has its inputs, and the bit of the other is set. -/
def rooted : State :=
  let s : State := { base with parts := [{ placedPart with node := 0, members := [0, 1023], dead := [(15, 0x8000000000000000)] }] }
  { s with
    cmds := (command (.coll { d := 0, k := 7 }) .queued { s with p := { s.p with sregs := [(3, 0x100100300)] } }).toList.map
      fun c => { c with fmt := [7, 0, 1023], drained := false }
    nextId := 3 }

theorem meets_collective_dead_member : ∃ c, rooted.cmds = [c] ∧ c.op = .coll ∧ c.suspended = false ∧ c.recorded = false ∧ c.phase = .queued ∧
    c.progress < unitCount c ∧ 1023 ∉ contributors rooted c ∧ deadMember rooted c = some 1023 ∧ c.gang = rooted.g.id ∧ rooted.g.ended = false := by
  refine ⟨_, rfl, ?_⟩; decide +kernel

/-- `macc.z` of the last accumulator tile is in the table of cluster 0. -/
def clearing : State := commanded (.maccZ { n1 := 0, b := 7, k := 7 }) .matrix (.num 0) base

theorem meets_grant : ∃ c, clearing.cmds = [c] ∧ clearing.arg = .num 0 ∧ grantedEntry clearing 0 = some c ∧ c.op = .maccZ ∧ loadedUnit clearing 0 = none ∧
    accumRefused clearing c.launch c.unit false = false := by
  refine ⟨_, rfl, ?_⟩; decide

theorem meets_ewait_completes : ∀ b : Bool, let s : State := { withP (fun q => { q with wait := .ewait 7 0 2 }) (if b then det else base) with arg := .num2 1 0 }
    s.arg = .num2 s.g.id (lowest s.p.members) ∧ s.p.wait = .ewait 7 0 2 ∧ counterOf s s.g.id 7 ≤ 0 ∧ isPriv s = false := by decide

/-! #### Launches (R37, R276 to R290, R298 to R300) -/

/-- A device with one partition, of a context pool of 64 MiB, and some launches; no gang is at issue. -/
def hosting (ls : List Launch) (intake : List Nat) (arg : Arg) : State :=
  { State.reset with
    launches := ls
    parts := [{ placedPart with ctxmb := 64, members := [0, 1023], intake := intake }]
    mem := memWrite (placeTables []) 0x500000 (leBytes 8 (dataLeaf placeFrame))
    roots := [(0, placeRoot)], frames := [(placeFrame / 65536, (0, 1, 0))]
    lines := [lineAt 0 placeFrame .d true]
    nextId := 2, arg := arg }

/-- A launch of two units, one of which fits at a time. -/
def twoUnits (phase : LaunchPhase) (dscope : Nat) (us : List UnitState) : Launch :=
  { Launch.vacant with id := 1, asid := 1, phase := phase, dscope := dscope, nunit := 2, conc := 1, units := us, members := [0, 1023] }

/-- A unit of it. -/
def unit (i : Nat) (phase : UnitPhase) : UnitState :=
  { idx := i, phase := phase, clock := 0, final := 7, since := 0, awaitsOp := false, hold := none, cores := [], slot := 0, displaced := false
    leaving := false }

theorem meets_intake : ∀ dscope ∈ [0, 2], let l := twoUnits .intake dscope []
    let s := hosting [l] [1] (.num 0)
    (s.launches.filter fun x => x.id == l.id) = [l] ∧ s.arg = .num 0 ∧ l.part = 0 ∧ hasPart s 0 = true ∧ intakeHead s 0 = some l ∧
      (runningOf s 0).length < 16 ∧ (poolFor s 0 (l.conc * unitBytes l)).isSome = true ∧ l.conc * unitBytes l ≤ (partOf s 0).ctxmb * 2 ^ 20 ∧
      (∀ x ∈ s.launches, x.prio < l.prio → residentUnits x = []) ∧ ∀ n ∈ (partOf s l.part).intake, n = l.id := by decide

theorem meets_intake_refused : let l := { twoUnits .intake 0 [] with conc := 128 }
    let s := hosting [l] [1] (.num 0)
    intakeHead s 0 = some l ∧ (runningOf s 0).length < 16 ∧ (partOf s 0).ctxmb * 2 ^ 20 < l.conc * unitBytes l ∧
      findLine s (lineRef 0 1 (offsetOf (l.tcb + 64))) = some (lineAt 0 placeFrame .d true) ∧ offsetOf (l.tcb + 64) % 128 = 64 ∧
      granuleHeld s 0 1 (offsetOf (l.tcb + 64)) = false ∧ (walk s 0 1 (offsetOf (l.tcb + 64))).all (fun x => !Pte.dead x.entry) = true ∧
      devQueued s 0 1 (offsetOf (l.tcb + 64)) = false := by decide

theorem meets_descriptors : ∀ ds ∈ [[], [MemberDesc.mk 1023 0 []], [MemberDesc.mk 1023 1 []]], let l := twoUnits .matching 2 []
    let s := hosting [l] [] (.descs 1 ds)
    s.arg = .descs l.id ds ∧ l.phase = .matching ∧ (∀ x ∈ s.launches, x.prio < l.prio → residentUnits x = []) ∧
      ((∀ d ∈ ds, d.gid = l.gid ∧ d.entries.take 16 = l.desc.take 16) ∧
          ((∀ n ∈ l.members, n = (partOf s l.part).node ∨ ∃ d ∈ ds, d.node = n) ∨
            1023 ∈ l.members ∧ 1023 ≠ (partOf s l.part).node ∧ ∀ d ∈ ds, d.node ≠ 1023) ∨
        ∃ d ∈ ds, d.gid ≠ l.gid ∨ d.entries.take 16 ≠ l.desc.take 16) := by decide

theorem meets_placement : let l := twoUnits .running 0 [unit 0 .live]
    let s := hosting [l] [] (.num 1)
    s.arg = .num l.id ∧ (placeable s l).map (fun e => (e.1, e.2.length)) = some (unit 0 .live, 1) ∧ (unit 0 .live).phase = .live ∧ s.cmds = [] := by
  decide +kernel

theorem meets_operating_point : let s := { hosting [twoUnits .running 0 [unit 0 .resident]] [] (.num 1) with dies := [Die.reset, { Die.reset with target := some 0 }] }
    s.arg = .num 1 ∧ 1 < s.dies.length ∧ (getAt Die.reset s.dies 1).target = some 0 := by decide

/-- Its gang has ended. -/
def ending (i : Nat) : State :=
  { hosting [twoUnits .running 0 [unit i .resident]] [] (.num2 1 i) with gangs := [{ placedGang with unit := i, splits := [], ended := true }] }

theorem meets_unit_retires : ∀ i ∈ [0, 1], let l := twoUnits .running 0 [unit i .resident]
    (l.units.filter fun x => x.idx == i) = [unit i .resident] ∧ unitEnded (ending i) l.id i = true ∧ unitBusy (ending i) l.id i = false ∧
      (∀ e ∈ gangsOf (ending i) l.id i, e.1.faults = [] ∧ e.1.id ≠ (ending i).g.id) ∧ (ending i).g.launch ≠ l.id := by decide

theorem meets_launch_retires : ∀ e ∈ [none, some ((0x73 : BitVec 8), 3)], let l := { twoUnits .running 0 [] with ended := e }
    let s := hosting [l] [] (.num 1)
    s.arg = .num l.id ∧ launchDone s l = true ∧ s.brim = [] ∧ l.discards = [] ∧ l.nsucc = 0 ∧ l.ended = e ∧
      findLine s (lineRef 0 1 (offsetOf (l.tcb + 64))) = some (lineAt 0 placeFrame .d true) ∧ devQueued s 0 1 (offsetOf (l.tcb + 64)) = false := by decide

theorem meets_rotation : let l := twoUnits .running 0 [{ unit 0 .resident with cores := [0] }, unit 1 .live]
    let s := { hosting [l] [] (.num 1) with ticks := 1 }
    residentUnits l = [{ unit 0 .resident with cores := [0] }] ∧ waitingUnits l = [unit 1 .live] ∧ (unit 1 .live).since < s.ticks ∧
      mayRotate l (unit 0 .resident) = true ∧ inHandler s l.id 0 = false ∧ unitRefused s l { unit 0 .resident with cores := [0] } true = none ∧
      s.g.launch ≠ l.id ∧ s.loaded = [] := by decide

/-- A split of unit 0 waits for a floor that unit 1, not yet placed, holds down. -/
def swapping : Launch := { twoUnits .running 1 [unit 1 .live] with floor := key3 0 0 0 }
def swapState : State :=
  { hosting [swapping] [] (.num 1) with gangs := [{ placedGang with splits := [{ placedSplit with wait := .turn (key3 9 0 0) .turn }] }] }

theorem meets_swap_in : dueUnits swapState swapping = [unit 1 .live] ∧ (swapping.units.filter fun x => x.idx == 1) = [unit 1 .live] ∧
    (placeFor swapState swapping).isSome = true := by decide +kernel

/-- The split that waits is of another member. -/
def swappingFar : Launch := { swapping with dscope := 2 }
theorem meets_swap_in_of_a_member : let s := hosting [swappingFar] [] (.num2 1 1)
    s.arg = .num2 swappingFar.id 1 ∧ swappingFar.dscope = 2 ∧ floorUnits s swappingFar = [unit 1 .live] ∧
      (placeFor s swappingFar).isSome = true := by decide +kernel

theorem meets_silence : let l := twoUnits .running 2 []
    let s := hosting [l] [] (.num2 1 1)
    s.arg = .num2 l.id 1 ∧ l.dscope = 2 ∧ l.phase ≠ .retired ∧ l.members.getD 1 0 = 1023 := by decide

/-! #### Other devices and hosts (R128 to R150, R313, R383 to R397) -/

/-- The share of HC 2, which homes the page at the start of the global region. -/
def share2 : Nat := 2 * 2 ^ 34

/-- A partition of domain 7 on port 1, whose global page may be read and written and holds tasks, with its line at home. -/
def shared (ls : List Line) (arg : Arg) : State :=
  { State.reset with
    parts := [{ placedPart with domain := 7, port := 1, members := [0, 1023], hdmgb := 1 }]
    mem := memWrite (memWrite (memWrite (memWrite (memWrite [] (share2 + 8 * 4095) (leBytes 8 (pointerEntry (share2 + 0x100000))))
      (share2 + 0x100000 + 8 * 0) (leBytes 8 (pointerEntry (share2 + 0x200000)))) (share2 + 0x200000) (leBytes 8 (pointerEntry (share2 + 0x300000))))
      (share2 + 0x300000) (leBytes 8 (pointerEntry (share2 + 0x400000)))) (share2 + 0x400000) (leBytes 8 (dataLeaf placeFrame))
    roots := [(2 * 8, share2)], frames := [(placeFrame / 65536, (0, 4095, 2 ^ 52 / 65536))]
    lines := ls, ports := [Port.reset, { Port.reset with decoders := (some 0) :: List.replicate 7 none }], nextId := 2, arg := arg }

/-- A line of its global region. -/
def globalLine (st : LineState) : Line := { lineAt 0 placeFrame st true with ref := lineRef 0 4095 (2 ^ 52) }

/-- A request of node 1023 for bytes of the region. -/
def fabric (domain : Nat) (va : Word) (op : FabricOp) : FabricReq where
  tag := 5
  source := 1023
  core := 255
  domain := domain
  va := va
  size := 16
  op := op
  refusals := 0
  rank := 1
  gid := none
  accepted := false
  mates := 1

/-- It has come. -/
def asked (ls : List Line) (domain : Nat) (va : Word) (op : FabricOp) : State := shared ls (.fabric (fabric domain va op))

theorem meets_fabric_startup : (asked [] 7 0 .cap).startup.phase = .started ∧ ({ State.reset with startup := { State.reset.startup with phase := .minimal } }).startup.phase ≠ .started ∧
    beingReset (asked [] 7 0 .cap) 0 = false ∧ beingReset { asked [] 7 0 .cap with parts := [{ placedPart with port := 1 }], ports := [Port.reset, { Port.reset with mailbox := memWrite [] 0 (leBytes 8 (3 + 2 * 2 ^ 16)) }], posted := [1] } 0 = true := by
  decide +kernel

theorem meets_fabric_domain : domainPart (asked [] 6 0 .cap) 6 = none ∧ domainPart (asked [] 0xFFFF 0 .cap) 0xFFFF = none ∧
    (domainPart (asked [] 7 0 .cap) 7).map (fun p => p.id) = some 0 := by decide +kernel

theorem meets_fabric_address : regionOf (offsetOf 0xFFFFFFFFFFFFF) = 1 ∧ (∀ v : Word, v = 0x10000000000070 ∨ v = 0x10000000000000 → regionOf (offsetOf v) = 2) ∧
    fabricSupported (.atomic 7 4 0 false [1] []) = false ∧ fabricSupported (.load false) = true ∧ fabricSupported (.store [1]) = true := by
  refine ⟨by decide, ?_, by decide⟩
  rintro v (rfl | rfl) <;> decide

theorem meets_fabric_refusal : let l := { globalLine .p with acks := [.node 1023] }
    let s := asked [l] 7 0x10000000000000 (.load false)
    findLine s (lineRef 0 4095 (offsetOf 0x10000000000000)) = some l ∧ l.state = .p ∧ s.reserved = [] := by decide +kernel

theorem meets_fabric_performing : ∀ op ∈ [FabricOp.load false, .store (List.replicate 16 0xA5)],
    let s := asked [globalLine .d] 7 0x10000000000070 op
    let off := offsetOf 0x10000000000070
    s.reserved = [] ∧ (s.hostQueue = [] ∧ s.noted = [] ∧ lineRoom s (lineRef 0 4095 off) = true) ∧ findLine s (lineRef 0 4095 off) = some (globalLine .d) ∧ (globalLine .d).state ≠ .p ∧ (globalLine .d).grant = true ∧
      copyHolders s (globalLine .d) 256 = ([], []) ∧ dirtyHosts s (lineRef 0 4095 off) = [] ∧ granuleHeld s 0 4095 off = false ∧
      (walk s 0 4095 off).all (fun x => !Pte.lock x.entry && !Pte.dead x.entry) = true := by decide +kernel

theorem meets_fabric_fault : ∀ op ∈ [FabricOp.load false, .store [1]], let s := asked [] 7 0x10000000010000 op
    let off := offsetOf 0x10000000010000
    regionOf off = 2 ∧ hasPart s 0 = true ∧ (∀ w, hcCheck s 0 4095 off w false = .refuse 0x70) ∧ findLine s (lineRef 0 4095 off) = none ∧
      walk s 0 4095 off = none ∧ granuleHeld s 0 4095 off = false ∧ lineRoom s (lineRef 0 4095 off) = true := by decide +kernel

/-- An input of a collective has come; and the second access of a request of three, with one refused, and the last of them. -/
def inputAsked : State := asked [] 7 0x10000000000000 (.input 5 [])
def mated (left : Nat) (refused : Option Word) : State :=
  let s := asked [] 7 0x10000000010000 (.load false)
  { s with
    arg := .fabric { fabric 7 0x10000000010000 (.load false) with accepted := true, mates := 3 }
    inbound := [{ source := 1023, tag := 5, part := 0, left := left, refused := refused }] }

theorem meets_fabric_input : inputAsked.startup.phase = .started ∧ (domainPart inputAsked 7).isSome = true ∧ beingReset inputAsked 0 = false := by
  decide +kernel

theorem meets_fabric_inbound_request (left : Nat) (va : Option Word) : let s := mated left va
    s.startup.phase = .started ∧ (s.inbound.filter fun x => x.source == 1023 && x.tag == 5) =
      [{ source := 1023, tag := 5, part := 0, left := left, refused := va }] ∧ s.hostQueue = [] ∧ s.noted = [] := ⟨rfl, rfl, rfl, rfl⟩

theorem meets_fabric_inbound_home : let s := mated 2 none
    let off := offsetOf 0x10000000010000
    (domainPart s 7).map (fun p => p.id) = some 0 ∧ beingReset s 0 = false ∧ hasPart s 0 = true ∧ regionOf off = 2 ∧
      hcCheck s 0 4095 off false false = .refuse 0x70 ∧ findLine s (lineRef 0 4095 off) = none ∧
      lineRoom s (lineRef 0 4095 off) = true ∧ granuleHeld s 0 4095 off = false := by decide +kernel

/-- A reservation, and one that waits for it to end. -/
def reserved (core : Nat) : Reservation := { ref := lineRef 0 4095 (2 ^ 52), source := 1023, core := core, tag := 5 }
def expiring (q : List Qualified) : State := { shared [] (.line (reserved 0).ref) with reserved := [reserved 0], starving := q }

theorem meets_reservation_ends : ∀ q ∈ [[], [{ want := reserved 1, count := 8 }]],
    (expiring q).arg = .line (reserved 0).ref ∧ (∀ x ∈ (expiring q).reserved, x.ref = (reserved 0).ref ∧ hasReturned (expiring q) x = false) := by decide +kernel

theorem meets_forward : (shared [] (.forward (fabric 7 0 .cap) 775)).arg = .forward (fabric 7 0 .cap) 775 := rfl

/-- A copy of the line of another node, and a request for the line on its way. -/
def copiedRemote : State := { abroad (.load true) [(7, .vector 92 4 7)] (.num2v 0 1023 0) with
  remoteCopies := [{ launch := 1, part := 0, node := 1023, va := 0, data := [], coh := 0 }] }

theorem meets_invalidation_of_a_copy : copiedRemote.arg = .num2v 0 1023 0 ∧ ∃ r ∈ copiedRemote.remotes, r.part = 0 ∧ r.node = 1023 ∧ inFlight r = true ∧
    ∃ e ∈ r.ops, offsetOf e.2.1 / 128 = offsetOf 127 / 128 := by
  exact ⟨rfl, remote (.load true) [(7, .vector 92 4 7)], List.mem_cons_self, by decide⟩

theorem meets_silent_holder : let l := { globalLine .p with acks := [.node 1023] }
    let s := shared [l] (.lineNode l.ref 1023)
    findLine s l.ref = some l ∧ l.state = .p ∧ l.acks = [.node 1023] ∧ l.hostAcks = [] ∧ s.readied = [] ∧ hasPart s l.ref.part = true ∧ s.arg = .lineNode l.ref 1023 := by
  decide +kernel

theorem meets_probes : (clusterPart (shared [] (.num3 63 7 2)) 63).map (fun q => q.domain) = some 7 ∧
    clusterPart { shared [] (.num3 63 7 2) with parts := [{ placedPart with clmask := 0x7FFFFFFFFFFFFFFF }] } 63 = none ∧
    2 ∈ ({ shared [] (.num 2) with probes := [2] }).probes := by decide +kernel

/-! #### Accesses of hosts (R147 to R149, R313, R396, R397) -/

/-- The partition of the shared page, and the port it is bound to. -/
def sharedPart : Partition := { placedPart with domain := 7, port := 1, members := [0, 1023], hdmgb := 1 }
def sharedPort : Port := { Port.reset with decoders := (some 0) :: List.replicate 7 none }

theorem shared_decodes (ls : List Line) (arg : Arg) (port k : Nat) (b : Word) : Decodes (shared ls arg) port k b ↔ port = 1 ∧ k = 0 ∧ b = 0 := by
  constructor
  · rintro ⟨-, hk, hp, p, hp2, -, -, -, hd⟩
    have h0 : k = 0 := by
      have h : ((0 == k) || false) = true := hk
      rw [Bool.or_false] at h
      exact (eq_of_beq h).symm
    subst h0
    have h1 : port = 1 := hp.symm
    subst h1
    have h2 : p = sharedPort := (Option.some.inj hp2).symm
    subst h2
    exact ⟨rfl, rfl, (Option.some.inj (Option.some.inj hd)).symm⟩
  · rintro ⟨rfl, rfl, rfl⟩
    exact ⟨by decide, rfl, rfl, sharedPort, rfl, rfl, rfl, rfl, rfl⟩

theorem meets_decoded (ls : List Line) (arg : Arg) (addr : BitVec 64) (h : addr.toNat < 2 ^ 30) : Decoded (shared ls arg) 1 0 addr (2 ^ 52 + addr.toNat) := by
  refine ⟨⟨0, ⟨(shared_decodes ls arg 1 0 0).2 ⟨rfl, rfl, rfl⟩, Nat.zero_le _, ?_⟩, rfl⟩, fun k b hc => ((shared_decodes ls arg 1 k b).1 hc.1).2.1⟩
  have : (partOf (shared ls arg) 0).hdmgb = 1 := rfl
  rw [this]; simpa using h

theorem meets_undecoded (ls : List Line) (arg : Arg) (port : Nat) (addr : BitVec 64) (h : port ≠ 1 ∨ 2 ^ 30 ≤ addr.toNat) : Undecoded (shared ls arg) port addr := by
  rintro k b ⟨hd, -, ha⟩
  obtain ⟨rfl, rfl, rfl⟩ := (shared_decodes ls arg port k b).1 hd
  have : (partOf (shared ls arg) 0).hdmgb = 1 := rfl
  rw [this] at ha; simp at ha; omega

theorem meets_none_waits (arg : Arg) : ∀ ls ∈ [[], [globalLine .d]], NoneWaits (shared ls arg) := by
  intro ls hls
  refine ⟨rfl, rfl, ?_, by intro e he; cases he⟩
  intro l hl hp
  simp only [List.mem_cons, List.not_mem_nil, or_false] at hls
  rcases hls with rfl | rfl
  · cases hl
  · simp only [shared, List.mem_cons, List.not_mem_nil, or_false] at hl; subst hl; cases hp

/-- Hosts read, write and combine at the last bytes of the line; a page that is not mapped. -/
theorem meets_host_accesses : ∀ arg ∈ [Arg.hostRead 1 5 64 true, .hostWrite 1 5 64 0 true, .hostAtomic 1 5 64 .fetchAdd 8 1],
    let s := shared [globalLine .d] arg
    s.arg = arg ∧ (∀ off ∈ [2 ^ 52 + 64, 2 ^ 52 + 120], findLine s (lineRef 0 4095 off) = some (globalLine .d) ∧ onTaskPage s 0 4095 off = true ∧
      granuleHeld s 0 4095 off = false ∧ (walk s 0 4095 off).all (fun x => !Pte.lock x.entry && !Pte.dead x.entry) = true) ∧
    (globalLine .d).state ≠ .p ∧ (globalLine .d).grant = true ∧ copyHolders s (globalLine .d) 256 = ([], []) ∧
    findLine s (lineRef 0 4095 (2 ^ 52 + 65536)) = none ∧ (∀ w, hcCheck s 0 4095 (2 ^ 52 + 65536) w false = .refuse 0x70) ∧
    walk s 0 4095 (2 ^ 52 + 65536) = none ∧ 4 ≤ (2 ^ 52 + 120) % 128 ∧ (2 ^ 52 + 120) % 8 = 0 := by decide +kernel

/-- A page without TASK. -/
theorem meets_host_atomic_off_task : let s := shared [globalLine .d] (.hostAtomic 1 5 124 .fetchAdd 4 1)
    onTaskPage { s with mem := memWrite s.mem (share2 + 0x400000) (leBytes 8 (dataLeaf placeFrame - 2 ^ 58)) } 0 4095 (2 ^ 52 + 124) = false := by decide +kernel

theorem meets_snoops : ∀ st ∈ [Mesi.s, .e, .m], let l : HpccLine := { port := 1, addr := 0, state := st, data := List.replicate 128 7 }
    let s := { shared [] (.num2 1 127) with hpcc := [l] }
    hpccOf s 1 (127 / 128 * 128) = some l ∧ l.state = st ∧ hpccOf s 0 0 = none ∧ hpccOf s 1 128 = none := by decide +kernel

theorem meets_grant_of_a_host : ∀ st ∈ [Mesi.s, .e, .m], ∀ asks ∈ [[], [(1, 0)]], let s := { shared [] (.grant 1 127 st (List.replicate 128 7)) with cxlAsked := asks }
    ((1, 127 / 128 * 128) ∈ s.cxlAsked ↔ asks = [(1, 0)]) ∧ s.arg = .grant 1 127 st (List.replicate 128 7) ∧ st ≠ .i ∧ (List.replicate 128 (7 : Byte)).length = 128 ∧ s.hpcc.length < 32768 ∧ s.reqs = [] := by decide +kernel

/-- Port 1 serves, and is out of service with die 1. -/
theorem meets_lost_port : portLost (shared [] (.numBool 1 true)) 1 = false ∧ portLost { shared [] (.numBool 1 true) with bridgeOut := true } 1 = true :=
  ⟨rfl, rfl⟩

theorem meets_links : ∀ arg, (shared [] arg).ports[1]? = some { Port.reset with decoders := (some 0) :: List.replicate 7 none } ∧ (shared [] arg).readied = [] := fun _ => ⟨rfl, rfl⟩

/-! #### The system controller (R319 to R331, R381, R382, R398 to R402) -/

/-- A record of cluster 63 and unit 0 of HC 2, with the least context pool, in no domain, for a partition of port 0. -/
def recordBytes : List Byte :=
  leBytes 8 (2 ^ 63) ++ leBytes 8 (2 ^ 24) ++ List.replicate 40 0 ++ leBytes 8 (0xFFFF * 2 ^ 32) ++ leBytes 8 64 ++ List.replicate 56 0

/-- A command word with some bytes after it is in the mailbox of port 0, the first command. -/
def mailing (op part st : Nat) (body : List Byte) (arg : Arg) (s : State) : State :=
  { s with
    posted := [0], arg := arg
    ports := [{ Port.reset with mailbox := memWrite [] 0 (leBytes 8 (op + part * 2 ^ 8 + st * 2 ^ 16) ++ body) }, Port.reset] }

theorem meets_posted : ∀ op ∈ [0, 1, 2, 3, 4, 5, 6, 7, 8, 9, 10, 255], ∀ st ∈ [1, 2], ∀ part ∈ [0, 7, 255], Posted st (mailing op part st recordBytes (.num 0) State.reset) op 0 part := by
  have : ∀ op ∈ [0, 1, 2, 3, 4, 5, 6, 7, 8, 9, 10, 255], ∀ st ∈ [1, 2], ∀ part ∈ [0, 7, 255], let s := mailing op part st recordBytes (.num 0) State.reset
      (s.startup.phase = .started ∧ portServes s 0 = true ∧ s.posted.head? = some 0) ∧ mailStatus s 0 = st ∧ mailWord s 0 0 % 256 = op ∧ bits (mailWord s 0 0) 8 8 = part := by
    decide +kernel
  intro op ho st hs part hp
  obtain ⟨⟨h1, h2, h3⟩, h4, h5, h6⟩ := this op ho st hs part hp
  exact ⟨h1, h2, h3, h4, h5, h6⟩

theorem meets_minimal_command : ∀ op ∈ [0, 1, 6, 10], let s := mailing op 0 2 [] (.num 0) { State.reset with startup := { State.reset.startup with phase := .minimal } }
    s.startup.phase = .minimal ∧ s.posted.head? = some 0 ∧ mailStatus s 0 = 2 ∧ mailWord s 0 0 % 256 = op ∧ s.arg = .num 0 := by decide +kernel

theorem meets_minimal_create : let s := mailing 1 7 2 recordBytes (.create 0 []) { State.reset with startup := { State.reset.startup with phase := .minimal } }
    s.arg = .create 0 [] ∧ s.startup.phase = .minimal ∧ s.posted.head? = some 0 ∧ mailStatus s 0 = 2 ∧ mailWord s 0 0 % 256 = 1 := by decide +kernel

/-- The link of the port of a `STAGE` is lost before its image has come. -/
theorem meets_stage_lost : let s := mailing 7 0 2 [] (.num 0) State.reset
    let u : State := { s with ports := s.ports.map fun p => { p with down := true } }
    mailWord u 0 0 % 256 = 7 ∧ u.posted.head? = some 0 ∧ mailStatus u 0 = 2 ∧ (portOf u 0).down = true := by decide +kernel

theorem meets_create : let s := mailing 1 7 2 recordBytes (.create 0 [0]) State.reset
    recReserved (mailBytes s 0 8 128) = true ∧ hasPart s 7 = false ∧ 7 < 8 ∧ s.tripped = false ∧ recFits s 0 (mailBytes s 0 8 128) = true ∧
      s.arg = .create 0 [0] := by decide +kernel

/-- A reserved bit, a partition that exists, a PART of 8, a context pool below the least. -/
theorem meets_create_refused :
    recReserved (mailBytes (mailing 1 7 2 (recordBytes.set 127 1) (.create 0 []) State.reset) 0 8 128) = false ∧
    hasPart (mailing 1 0 2 recordBytes (.create 0 []) { State.reset with parts := [placedPart] }) 0 = true ∧
    hasPart (mailing 1 8 2 recordBytes (.create 0 []) State.reset) 8 = false ∧
    (∀ s, s = mailing 1 7 2 (recordBytes.set 64 63) (.create 0 []) State.reset →
      recReserved (mailBytes s 0 8 128) = true ∧ recFits s 0 (mailBytes s 0 8 128) = false) := by
  refine ⟨by decide +kernel, by decide +kernel, by decide +kernel, ?_⟩; rintro s rfl; decide +kernel

theorem meets_commands : let s := mailing 2 0 2 recordBytes (.num 0) { State.reset with parts := [placedPart] }
    s.arg = .num 0 ∧ hasPart s 0 = true ∧ (partOf s 0).port = 0 ∧ mailWord s 0 56 % 128 = 0 ∧ hasPart s 7 = false ∧ s.ports.length = 2 := by decide +kernel

/-- The bounds of a power cap; an image that a stage takes, and one that it does not. -/
theorem meets_powercap : ∀ w ∈ [599, 600, 2400, 2401], mailWord (mailing 6 0 2 (leBytes 8 w) (.num 0) State.reset) 0 8 = w := by decide +kernel
def image (ok : Bool) (version : Nat) : FwImage where
  body := [0x61, 0x62, 0x63]
  key := octets 96 0xfbf96095915eb587390f850ec95b35f618ae121c72a70808ad8f9f4c261b602b63541743e395f7c778e52bb28c18dc83016a6ff3f72c9368326ad50a3bd148a53cd2213bb480e4730ad019db87ae100995ec65df011e19811a15dc9ddfc9ab3c
  signature := if ok then
    0xf92b20ffce7d48dc74a422cb52903c2230ea2d8bdc3ce08a582b03df774c6e732bd831dc800c433c9c88f97504d4fd7bd23541793d57c538027df95d457ac9be2a5d0a69b74a19922411d984787c8baa012da5add8c6c46a12459d906b884250 else 1
  version := BitVec.ofNat _ version

/-- The digest of its key is fused. -/
def fused (s : State) : State := { s with startup := { s.startup with
  fusedKey := 0xd00eea0f947b339441327289a7879edcd12bf4e39f5998cdc30b9dd3d22026dd32eb4fa7f4f45ebf1542415338ba9cae } }

theorem meets_stage : (∀ i ∈ [image true 0, image true 1, image false 1], (mailing 7 0 2 [] (.stage 0 i) (fused State.reset)).arg = .stage 0 i) ∧
    (mailing 7 0 1 [] (.stage 0 (image true 1)) (fused State.reset)).arg = .stage 0 (image true 1) ∧
    (mailing 7 0 1 (leBytes 8 0x1000) (.num 0) State.reset).arg = .num 0 := ⟨fun _ _ => rfl, rfl, rfl⟩

theorem meets_verified : verified (fused State.reset).startup (image true 1) = true := by decide +kernel
theorem meets_unverified : verified (fused State.reset).startup (image false 1) = false := by decide +kernel

theorem meets_restart : (mailing 9 0 2 (leBytes 8 1) (.num 0) State.reset).parts = [] ∧ (mailWord (mailing 9 0 2 (leBytes 8 1) (.num 0) State.reset) 0 8).testBit 0 = true := by
  decide +kernel

/-- A port serves; words of its window, and a window of a partition of the other port. -/
theorem meets_registers : ∀ arg ∈ [Arg.num 1, .spdm 1 0, .bar 1 0x140000 (some 0x8FFF), .bar 1 0x1403F8 none, .decoder 1 0 0 true], let s := shared [] arg
    portServes s 1 = true ∧ portServes s 0 = true ∧ s.startup.phase = .started ∧ hasPart s 0 = true ∧ (partOf s 0).port = 1 ∧ 1 < s.ports.length ∧
      mailStatus s 1 = 0 ∧ (1 : Nat) ∉ s.posted ∧ (partOf s 0).port ≠ 0 ∧ hasPart s 7 = false ∧ Port.reset.flit = true := by decide +kernel

theorem meets_bar_offsets : (0 % 8 = 0 ∧ 248 % 8 = 0 ∧ 248 < 256) ∧ mailStatus (mailing 2 0 2 [] (.bar 0 0 (some 1)) State.reset) 0 = 2 ∧
    (0 : Word).toNat / 2 ^ 16 % 2 ^ 16 ≠ 1 ∧
    (∀ op ∈ [1, 9], (BitVec.ofNat 64 (op + 2 ^ 16)).toNat / 2 ^ 16 % 2 ^ 16 = 1 ∧ (BitVec.ofNat 64 (op + 2 ^ 16)).toNat % 2 ^ 8 = op) ∧
    ((setStatus 0 0xFFFF State.reset).ports.length = 2 ∧ 0xFFFF < 2 ^ 16) := by decide +kernel

/-! #### Starts, power and memory errors (R326, R327, R329, R330, R381, R382, R398, R400 to R402) -/

/-- A start is running, with an image in each slot and a least version. -/
def starting (a b : Option FwImage) (e : StartReport) : State :=
  { State.reset with arg := .start e, startup := { (fused State.reset).startup with phase := .running, slotA := a, slotB := b, minVersion := 1 } }

/-- What a start found. -/
def found (rom : Bool) (clusters : BitVec 64) : StartReport :=
  { romOk := rom, clustersOut := clusters, hbmOut := 0x0F, hportOut := 0, bridgeOut := false, hcOut := 1, sliceOut := 1, fportOut := 1 }

theorem meets_start : ∀ e ∈ [(found true 0, some (image true 1), none), (found true 0x7FFFFFFF00000000, some (image true 0), some (image true 1)),
      (found true 0xFFFFFFFF00000000, some (image true 1), none), (found false 0, none, none), (found true 0, some (image true 0), some (image false 1))],
    (starting e.2.1 e.2.2 e.1).arg = .start e.1 ∧ (starting e.2.1 e.2.2 e.1).startup.phase = .running ∧ (starting e.2.1 e.2.2 e.1).startup.minVersion.toNat = 1 := by
  decide

theorem meets_start_images : verified (starting none none (found true 0)).startup (image true 1) = true ∧
    (starting none none (found true 0)).startup.first = 1 ∧ (1 : Nat) ≤ (image true 1).version.toNat ∧ ¬ (1 : Nat) ≤ (image true 0).version.toNat ∧
    (0xFFFFFFFF00000000 ||| 0x00000000FFFFFFFF : BitVec 64) = BitVec.allOnes 64 ∧ (0x7FFFFFFF00000000 ||| 0x00000000FFFFFFFF : BitVec 64) ≠ BitVec.allOnes 64 ∧
    (found true 0).hbmOut.extractLsb' 0 4 = 0xF ∧ (found true 0).hbmOut.extractLsb' 4 4 ≠ 0xF := by
  refine ⟨meets_verified, by decide⟩

theorem meets_start_timeout : let s := { starting none none (found true 0) with arg := .startTimeout 255 0 (found true 0) }
    s.arg = .startTimeout 255 0 (found true 0) ∧ 255 < 2 ^ 8 ∧ s.startup.phase = .running := by decide

theorem meets_retry : ∀ n ∈ [2, 3], let s := { State.reset with startup := { State.reset.startup with phase := .failed, count := n, record := [1] } }
    s.startup.phase = .failed ∧ s.startup.count = n := by decide

/-- Watts above, at and below the bounds of the least cap. -/
theorem meets_power : let cap := min (portOf State.reset 0).powerCap (portOf State.reset 1).powerCap
    (∀ w : Nat, ({ State.reset with arg := .num w }).arg = .num w) ∧ cap < 2401 ∧ 100 * 2279 < 95 * cap ∧ 95 * cap ≤ 100 * 2280 := by
  refine ⟨fun _ => rfl, ?_⟩; decide

theorem meets_minimal : ({ State.reset with startup := { State.reset.startup with phase := .minimal } }).startup.phase = .minimal ∧
    (∀ b, ({ State.reset with arg := .numBool 1 b }).arg = .numBool 1 b) ∧ 1 < State.reset.dies.length := by decide

/-- Where an error may lie. -/
theorem meets_memory_error : let l := { twoUnits .running 0 [unit 0 .resident] with id := 1 }
    let s := { hosting [l] [] (.ecc (.registerFile 1)) with g := placedGang, p := placedSplit }
    (gangOf s 1).map (fun g => g.launch) = some l.id ∧ (s.launches.filter fun x => x.id == l.id) = [l] ∧ l.phase = .running ∧ s.arg = .ecc (.registerFile 1) := by
  decide

/-- A store log of a gang has an error. -/
theorem meets_cuff_error : let l := { twoUnits .running 0 [unit 0 .resident] with id := 1 }
    let c : CuffEntry := { line := 0, data := [(0, 7)], key := keyZero, lanes := 1, pc := 0, serial := 0, order := 5, log := some 0 }
    let s := { hosting [l] [] (.ecc (.cuff 1 5)) with g := { placedGang with cuff := [c] }, p := placedSplit }
    (gangOf s 1).map (fun g => g.launch) = some l.id ∧ ((gangOf s 1).map fun g => g.cuff.filter fun x => x.order == 5 && x.log.isSome) = some [c] := by
  decide

/-! #### Encodings and steps (R172 to R178) -/

theorem meets_encoding : wellFormed .nop = true ∧ encode .nop = some 0x27000000 ∧ wellFormed (.jmp { off := 0x7FFFFF }) = true ∧
    encode (.jmp { off := 0x7FFFFF }) = some 0x207FFFFF := by decide

/-- The word that the loader places is the next to issue. -/
def stepping (agenda : List Move) : State := { placeWord 0x27000000 State.reset with agenda := agenda }

theorem meets_issue : let s := stepping []
    let v := takeSlices { s with ticks := s.ticks + 1, agenda := [] }
    (deviceMove s = none ∧ nextSplit s = some (s.g.id, lowest s.p.members)) ∧ mayIssue s s.g s.p = true ∧ turnFault v = none ∧ fetchAsks v = false ∧ overflowDue v.p.wait = none ∧
      holdsFar v = false ∧ stallFault v = none ∧ deliverable v .opening = none ∧ fetchAt v v.p.pc = .word 0x27000000 := by decide +kernel

theorem meets_agenda : (stepping [.select 1 0]).agenda = .select (stepping []).g.id (lowest (stepping []).p.members) :: [] ∧
    (stepping [.agent .hbmScrub .none]).agenda = [.agent .hbmScrub .none] ∧ deviceMove State.reset = none ∧ nextSplit State.reset = none ∧
    State.reset.agenda = [] := by decide +kernel

theorem meets_device_move : (deviceMove (hosting [twoUnits .running 0 [unit 0 .live]] [] .none)).isSome = true := by decide +kernel

theorem meets_fetch : let s := stepping []
    isControl s.p.pc = false ∧ nodeOf s.p.pc = (curPart s).node ∧ regionOf (offsetOf s.p.pc) ≠ 3 ∧
      (walk s s.g.part s.g.asid (offsetOf s.p.pc)).map (fun l => (Pte.exe l.entry, Pte.held l.entry, Pte.dead l.entry, frameMatches s s.g.part s.g.asid (offsetOf s.p.pc) l.pa)) =
        some (true, false, false, true) ∧
      walkBad s s.g.part s.g.asid (offsetOf s.p.pc) = false ∧ icLine s s.g.core (lineRef s.g.part s.g.asid (offsetOf s.p.pc)) = none ∧ findLine s (lineRef s.g.part s.g.asid (offsetOf s.p.pc)) = none := by decide +kernel

theorem meets_memory_form : Memory.wf (stepping []).mem = true ∧ Memory.wf State.reset.mem = true := by decide +kernel

end Sys2Proof.Tests
end

section
/-! PROOF. The registers of a gang that UNIT_PLACE starts (spec/08_encoding_assembly.md R180; spec/13_scheduling.md R290,
R291). Placing a unit only adds gangs: `Grows` says what every step of it keeps, and `AtStart` says what a new gang holds. -/

namespace Sys2Proof.Machine

/-! ### Lists and lane masks -/

theorem findFirst_of_filter {α : Type} {q : α → Bool} {a : α} {r : List α} :
    ∀ {l : List α}, l.filter q = a :: r → findFirst q l = some a
  | [], h => by simp at h
  | b :: l, h => by
    by_cases hb : q b = true
    · rw [List.filter_cons_of_pos hb] at h
      rw [findFirst, if_pos hb, (List.cons.inj h).1]
    · rw [List.filter_cons_of_neg hb] at h
      rw [findFirst, if_neg hb, findFirst_of_filter h]

theorem launchOf_eq {s : State} {l : Launch} (h : (s.launches.filter fun x => x.id == l.id) = [l]) : launchOf s l.id = l := by
  rw [launchOf, findFirst_of_filter h, Option.getD_some]

theorem lowMask_getLsbD (n : Nat) {i : Nat} (hi : i < 64) : (lowMask n).getLsbD i = decide (i < n) := by
  rw [lowMask, BitVec.getLsbD_ofNat, Nat.testBit_two_pow_sub_one, decide_eq_true hi, Bool.true_and]

/-! ### What a gang holds at its start (R180) -/

/-- The gang at issue holds the empty register files of a new gang, and its split is the one with which gangs of `u` start. -/
structure AtStart (l : Launch) (u : UnitState) (v : State) : Prop where
  split : SameSplit v.p (startSplit l u)
  vregs : v.g.vregs = []
  vstate : v.g.vstate = []
  preds : v.g.preds = []

namespace AtStart

variable {l : Launch} {u : UnitState} {v : State}

theorem full (h : AtStart l u v) (c : Nat) : regState v c = .full := by
  have hs : v.p.sstate = [] := h.split.sstate
  simp [regState, hs, h.vstate, mapGet]

theorem scalar (h : AtStart l u v) (n : Nat) : getS v n = if n = 0 then l.argp else 0 := by
  have hs : v.p.sregs = mapSet 0 [] 0 l.argp := h.split.sregs
  simp [getS, hs, mapGet]

theorem vector (h : AtStart l u v) (n i : Nat) : getV v n i = 0 := by rw [getV, h.vregs, mapGet]

theorem predicate (h : AtStart l u v) (n i : Nat) : getP v n i = false := by rw [getP, h.preds, mapGet]

theorem window (h : AtStart l u v) (w : Nat) : (getW v w).valid = false := by
  have hw : v.p.wins = [] := h.split.wins
  rw [getW, hw, mapGet, Window.closed]

theorem elementType (h : AtStart l u v) : elemTy v = some (Ty.i 32) := by
  have hm : v.p.mode = 0 := h.split.mode
  simp [elemTy, modeT, hm, bits, tyOfCode]

theorem exec_declared (h : AtStart l u v) {i : Nat} (hi : i < 64) : v.p.exec.getLsbD i = decide (i < l.width) := by
  rw [h.split.exec]
  exact lowMask_getLsbD l.width hi

end AtStart

/-- A gang that has issued no command has every counter at 0 (R265). -/
theorem counterOf_eq_zero {s : State} {n : Nat} (h : ∀ c ∈ s.cmds, c.gang ≠ n) (k : Nat) : counterOf s n k = 0 := by
  have hnone : (s.cmds.filter fun c => c.gang == n && c.counter == k) = [] := by
    rw [List.filter_eq_nil_iff]
    intro c hc
    simp [h c hc]
  rw [counterOf, hnone]
  rfl

/-! ### What placing keeps -/

/-- Gangs are only added, their numbers only rise, and the commands stay. -/
structure Grows (s t : State) : Prop where
  gangs : s.gangs ⊆ t.gangs
  nextId : s.nextId ≤ t.nextId
  cmds : t.cmds = s.cmds

namespace Grows

variable {s t w : State}

theorem refl (s : State) : Grows s s := ⟨List.Subset.refl _, Nat.le_refl _, rfl⟩

theorem trans (h : Grows s t) (k : Grows t w) : Grows s w :=
  ⟨List.Subset.trans h.gangs k.gangs, h.nextId.trans k.nextId, k.cmds.trans h.cmds⟩

theorem foldl {f : State → Nat → State} (hf : ∀ s a, Grows s (f s a)) : ∀ (r : List Nat) (s : State), Grows s (r.foldl f s)
  | [], s => refl s
  | a :: r, s => (hf s a).trans (foldl hf r (f s a))

/-- Each element of a fold takes its turn at some state on the way. -/
theorem foldl_mem {f : State → Nat → State} (hf : ∀ s a, Grows s (f s a)) {a : Nat} :
    ∀ {r : List Nat} (s : State), a ∈ r → ∃ x, Grows s x ∧ Grows (f x a) (r.foldl f s) := by
  intro r
  induction r with
  | nil => intro s h; cases h
  | cons b r ih =>
    intro s h
    rcases List.mem_cons.mp h with rfl | h
    · exact ⟨s, refl s, foldl hf r (f s a)⟩
    · obtain ⟨x, hx, hr⟩ := ih (f s b) h
      exact ⟨x, (hf s b).trans hx, hr⟩

end Grows

/-! ### Starting the gangs of a workgroup -/

/-- The gang that starts: the opening of its region changes its serial, and in its split nothing that `SameSplit` names. -/
theorem addGang_adds (l : Launch) (u : UnitState) (j g core slice : Nat) (s : State) : ∃ k q,
    SameSplit q (startSplit l u) ∧ addGang l u j g core slice s =
      { s with gangs := s.gangs ++ [{ startGang s l u j g core slice with serial := k, splits := [q] }], nextId := s.nextId + 1 } := by
  obtain ⟨k, hk⟩ := openOn_gang s.nextId (startGang s l u j g core slice) (startSplit l u)
  refine ⟨k, (openOn s.nextId (startGang s l u j g core slice) (startSplit l u)).2, openOn_split _ _ _, ?_⟩
  simp only [addGang, hk]

theorem addGang_grows (l : Launch) (u : UnitState) (j g core slice : Nat) (s : State) : Grows s (addGang l u j g core slice s) := by
  obtain ⟨k, q, -, h⟩ := addGang_adds l u j g core slice s
  rw [h]
  exact ⟨List.subset_append_left _ _, Nat.le_succ _, rfl⟩

theorem divideCore_grows (l : Launch) (core : Nat) (s : State) : Grows s (divideCore l core s) := by
  simp only [divideCore]
  split
  · exact .refl s
  · exact ⟨List.Subset.refl _, Nat.le_refl _, rfl⟩

theorem dropSelf_grows (core : Nat) (s : State) : Grows s (dropSelf core s) := ⟨List.Subset.refl _, Nat.le_refl _, rfl⟩

theorem placeTiles_grows (l : Launch) (u : UnitState) (j core : Nat) (s : State) : Grows s (placeTiles l u j core s) :=
  ⟨List.Subset.refl _, by show s.nextId ≤ s.nextId + l.tiles.length + 1; omega, rfl⟩

/-- A workgroup of a unit that is live for the first time: its gangs start one by one, then its tiles get their places. -/
theorem placeWg_live {l : Launch} {u : UnitState} (hu : u.phase = .live) (j core : Nat) (s : State) : ∃ slice : Nat → Nat,
    placeWg l u j core s = placeTiles l u j core
      ((countFrom 0 l.ngang).foldl (fun s g => addGang l u j g core (slice g) s) (dropSelf core (divideCore l core s))) :=
  ⟨getAt 0 ((chooseBases l.ngang (occupancy s core) l.width).getD []), by simp [placeWg, hu]⟩

theorem placeWg_grows {l : Launch} {u : UnitState} (hu : u.phase = .live) (j core : Nat) (s : State) :
    Grows s (placeWg l u j core s) := by
  obtain ⟨slice, h⟩ := placeWg_live (l := l) hu j core s
  rw [h]
  exact (((divideCore_grows l core s).trans (dropSelf_grows core _)).trans
    (Grows.foldl (fun s g => addGang_grows l u j g core (slice g) s) _ _)).trans (placeTiles_grows l u j core _)

/-- Gang k of workgroup j of a unit has started since a state: it is there with a number that was free then. -/
def Started (l : Launch) (u : UnitState) (j k : Nat) (s t : State) : Prop :=
  ∃ g ∈ t.gangs, ∃ q, g.launch = l.id ∧ g.unit = u.idx ∧ g.wg = u.idx * l.wpc + j ∧ g.num = k ∧ g.splits = [q] ∧
    s.nextId ≤ g.id ∧ AtStart l u { t with g := g, p := q }

theorem Started.mono {l : Launch} {u : UnitState} {j k : Nat} {s x y t : State} (h : Started l u j k x y) (hx : Grows s x)
    (hy : Grows y t) : Started l u j k s t := by
  obtain ⟨g, hg, q, hl, hu, hw, hn, hq, hid, hv⟩ := h
  exact ⟨g, hy.gangs hg, q, hl, hu, hw, hn, hq, hx.nextId.trans hid, ⟨hv.split, hv.vregs, hv.vstate, hv.preds⟩⟩

theorem addGang_started (l : Launch) (u : UnitState) (j k core slice : Nat) (s : State) :
    Started l u j k s (addGang l u j k core slice s) := by
  obtain ⟨n, q, hq, h⟩ := addGang_adds l u j k core slice s
  rw [h]
  exact ⟨_, List.mem_append_right _ (List.mem_singleton_self _), q, rfl, rfl, rfl, rfl, rfl, Nat.le_refl _, ⟨hq, rfl, rfl, rfl⟩⟩

theorem placeWg_started {l : Launch} {u : UnitState} (hu : u.phase = .live) (j core : Nat) (s : State) {k : Nat} (hk : k < l.ngang) :
    Started l u j k s (placeWg l u j core s) := by
  obtain ⟨slice, h⟩ := placeWg_live (l := l) hu j core s
  obtain ⟨x, hx, ht⟩ := Grows.foldl_mem (fun s g => addGang_grows l u j g core (slice g) s)
    (dropSelf core (divideCore l core s)) (mem_countFrom.mpr ⟨Nat.zero_le k, by omega⟩ : k ∈ countFrom 0 l.ngang)
  rw [h]
  exact (addGang_started l u j k core (slice k) x).mono
    (((divideCore_grows l core s).trans (dropSelf_grows core _)).trans hx) (ht.trans (placeTiles_grows l u j core _))

/-! ### Placing the unit -/

theorem mapUnit_grows (n i : Nat) (f : UnitState → UnitState) (s : State) : Grows s (mapUnit n i f s) :=
  ⟨List.Subset.refl _, Nat.le_refl _, rfl⟩

theorem requestPoints_grows (die : Nat) (s : State) : Grows s (requestPoints die s).1 := by
  simp only [requestPoints]
  split <;> exact ⟨List.Subset.refl _, Nat.le_refl _, rfl⟩

/-- A unit that is live for the first time: once its workgroups have come to their cores, only the unit and its die change. -/
theorem placeOn_live {l : Launch} {u : UnitState} (hu : u.phase = .live) (cores : List Nat) (s : State) :
    Grows ((countFrom 0 l.wpc).foldl (fun s j => placeWg l u j (getAt 0 cores j) s) s) (placeOn l u cores s) := by
  simp only [placeOn, hu, reduceCtorEq, if_false]
  exact ((mapUnit_grows ..).trans (requestPoints_grows ..)).trans (mapUnit_grows ..)

theorem placeOn_grows {l : Launch} {u : UnitState} (hu : u.phase = .live) (cores : List Nat) (s : State) :
    Grows s (placeOn l u cores s) :=
  (Grows.foldl (fun s j => placeWg_grows hu j (getAt 0 cores j) s) _ s).trans (placeOn_live hu cores s)

theorem placeOn_started {l : Launch} {u : UnitState} (hu : u.phase = .live) (cores : List Nat) (s : State) {j k : Nat}
    (hj : j < l.wpc) (hk : k < l.ngang) : Started l u j k s (placeOn l u cores s) := by
  obtain ⟨x, hx, ht⟩ := Grows.foldl_mem (fun s j => placeWg_grows (l := l) hu j (getAt 0 cores j) s) s
    (mem_countFrom.mpr ⟨Nat.zero_le j, by omega⟩ : j ∈ countFrom 0 l.wpc)
  exact (placeWg_started hu j (getAt 0 cores j) x hk).mono hx (ht.trans (placeOn_live hu cores s))

/-- UNIT_PLACE of a launch that has a unit to place (R290). -/
theorem exec_unitPlace {s : State} {l : Launch} {u : UnitState} {cores : List Nat}
    (hl : (s.launches.filter fun x => x.id == l.id) = [l]) (ha : s.arg = .num l.id) (hp : placeable s l = some (u, cores)) :
    exec .unitPlace s = .next (placeOn l u cores s) := by
  show execUnitPlace s = _
  simp only [execUnitPlace, onNum, ha, placeNext, launchOf_eq hl, hp, placeFound]

/-- Settles O49: the gang was added at some state of the placement, with the start split and a number above those of all commands,
and what comes after keeps it. -/
theorem gangStartRegistersAreFull : Obligations.GangStartRegistersAreFull := by
  intro s l u cores hl ha hp hu hc
  refine ⟨placeOn l u cores s, exec_unitPlace hl ha hp, fun j hj k hk => ?_⟩
  obtain ⟨g, hg, q, hlaunch, hunit, hwg, hnum, hsplits, hid, hv⟩ := placeOn_started hu cores s hj hk
  have hunused : ∀ c ∈ (placeOn l u cores s).cmds, c.gang ≠ g.id := by
    intro c hmem
    rw [(placeOn_grows hu cores s).cmds] at hmem
    exact Nat.ne_of_lt (Nat.lt_of_lt_of_le (hc c hmem) hid)
  exact ⟨g, hg, q, hlaunch, hunit, hwg, hnum, hsplits, hv.full, hv.scalar, hv.vector, hv.predicate, hv.split.lc0, hv.split.lc1,
    counterOf_eq_zero hunused, hv.split.fstat, hv.window, hv.split.mode, hv.elementType, fun _ hi => hv.exec_declared hi⟩

end Sys2Proof.Machine
end

section
/-! PROOF. Scalar arithmetic (spec/09_isa_scalar_control.md R189 to R194). Every scalar instruction is one shared shape: it
passes its checks where it is ready, and writes one register. What remains is that each row of the tables of Rules.lean is
the function that its arm hands to that shape. -/

namespace Sys2Proof.Machine

open Sys2Proof.Rules

/-! ### The shapes of the scalar ALU complete -/

/-- Writing a scalar register after a region is entered is writing it among the registers of the state before. -/
theorem setS_entered (f : Form) {s : State} (hr : NoSpill s) (d : Nat) (v : Word) :
    setS d v (entered f s) = putRegs ((regsOfState s).setS d v) (entered f s) := by
  conv_lhs => rw [entered_eq f hr]
  exact setS_putRegs d v (regsOfState s) (entered f s)

/-- An instruction whose sources and destination are full, and whose value does not depend on the entry of its region, writes
its value to its destination. -/
theorem issue_setS_done {word : BitVec 32} {bad : Option (BitVec 8)} {srcs : List (Nat × Bool)} {dsts rd wr : List Nat} {d : Nat}
    {v : State → Word} {s : State} (h : Ready 1 rd wr s) (hbad : bad = none) (hsrcs : ∀ e ∈ srcs, regState s e.1 = .full)
    (hdsts : ∀ c ∈ dsts, c ∈ wr) (hv : ∀ f, v (entered f s) = v s) :
    Done 1 (setS d (v s) s)
      (issue { Form.plain word 1 with bad := bad, srcs := srcs, dsts := dsts } noCheck (fun s => finish 1 (setS d (v s) s)) s) := by
  have hi := issue_ok (f := { Form.plain word 1 with bad := bad, srcs := srcs, dsts := dsts }) (check := noCheck)
    (effect := fun s => finish 1 (setS d (v s) s)) rfl h.quiet nofun nofun hbad nofun rfl hsrcs h.clock
    fun c hc => h.dests c (hdsts c hc)
  exact issue_regs_done (r := (regsOfState s).setS d (v s)) h.room hi (by simp only [hv, setS_entered _ h.room])
    ⟨rfl, rfl, rfl, rfl, rfl, rfl, rfl⟩ h.whole

/-- A field below 64 names a scalar register. -/
theorem sOk_of_lt {x : BitVec 7} (h : x.toNat < 64) : sOk x = true := decide_eq_true h

/-- The destination of a scalar field is the register it names. -/
theorem dstS_of_lt {x : BitVec 7} (h : x.toNat < 64) : dstS x = [codeS x.toNat] := by rw [dstS, sOk_of_lt h, if_pos rfl]

theorem scalar3_done {word : BitVec 32} {o : Op3R} {f : Word → Word → Word} {s : State} (hd : o.d.toNat < 64) (ha : o.a.toNat < 64)
    (hb : o.b.toNat < 64) (h : Ready 1 [codeS o.a.toNat, codeS o.b.toNat] [codeS o.d.toNat] s) :
    Done 1 (setS o.d.toNat (f (getS s o.a.toNat) (getS s o.b.toNat)) s) (scalar3 word o f s) :=
  issue_setS_done (v := fun s => f (getS s o.a.toNat) (getS s o.b.toNat)) h (by simp [sOk_of_lt, hd, ha, hb])
    (by simpa [srcS] using h.sources) (by simp [dstS_of_lt hd]) fun g => by simp only [getS_entered g h.room]

theorem scalar2_done {word : BitVec 32} {o : Op3A} {f : Word → Word} {s : State} (hd : o.d.toNat < 64) (ha : o.a.toNat < 64)
    (h : Ready 1 [codeS o.a.toNat] [codeS o.d.toNat] s) :
    Done 1 (setS o.d.toNat (f (getS s o.a.toNat)) s) (scalar2 word o f s) :=
  issue_setS_done (v := fun s => f (getS s o.a.toNat)) h (by simp [sOk_of_lt, hd, ha])
    (by simpa [srcS] using h.sources) (by simp [dstS_of_lt hd]) fun g => by simp only [getS_entered g h.room]

/-- A constant instruction: a destination that is full is full as a source (R194). -/
theorem scalarConst_done {word : BitVec 32} {d : BitVec 7} {rd : Bool} {f : Word → Word} {s : State} (hd : d.toNat < 64)
    (h : Ready 1 [] [codeS d.toNat] s) : Done 1 (setS d.toNat (f (getS s d.toNat)) s) (scalarConst word d rd f s) :=
  issue_setS_done (v := fun s => f (getS s d.toNat)) h (by simp [sOk_of_lt, hd])
    (by cases rd <;> simp [srcS, h.dests]) (by simp [dstS_of_lt hd]) fun g => by simp only [getS_entered g h.room]

/-- An instruction with an immediate is one with one source (R193). -/
theorem scalarImm_done {word : BitVec 32} {ta : Bool} {d a : BitVec 7} {f : Word → Word} {s : State} (hd : d.toNat < 64)
    (ha : a.toNat < 64) (h : Ready 1 [codeS a.toNat] [codeS d.toNat] s) :
    Done 1 (setS d.toNat (f (getS s a.toNat)) s) (scalarImm word ta d a f s) :=
  scalar2_done (o := { ta := ta, d := d, a := a }) hd ha h

/-! ### The rows of the tables are the functions of the arms -/

/-- An instruction computes a function of its two sources. -/
def TwoSource (i : Op3R → Instr) (f : Word → Word → Word) : Prop :=
  ∀ o s, exec (i o) s = .next (scalar3 (wordOf (encode (i o))) o f s)

/-- An instruction computes a function of its source. -/
def OneSource (i : Op3A → Instr) (f : Word → Word) : Prop :=
  ∀ o s, exec (i o) s = .next (scalar2 (wordOf (encode (i o))) o f s)

/-- An instruction computes a function of its source and its shift amount. -/
def ShiftSource (i : Op2S → Instr) (f : Word → Nat → Word) : Prop :=
  ∀ o s, exec (i o) s = .next (scalarImm (wordOf (encode (i o))) o.ta o.d o.a (fun x => f x o.imm.toNat) s)

theorem TwoSource.congr {i : Op3R → Instr} {f g : Word → Word → Word} (h : TwoSource i g) (e : ∀ x y, f x y = g x y) :
    TwoSource i f := by
  rwa [show f = g from funext₂ e]

theorem OneSource.congr {i : Op3A → Instr} {f g : Word → Word} (h : OneSource i g) (e : ∀ x, f x = g x) : OneSource i f := by
  rwa [show f = g from funext e]

/-- A shift by an immediate is the shift by a register that holds the immediate (R193). -/
theorem ShiftSource.of_shift {i : Op2S → Instr} {f : Word → Nat → Word} {g : Word → Word → Word}
    (h : ∀ o s, exec (i o) s =
      .next (scalarImm (wordOf (encode (i o))) o.ta o.d o.a (fun x => g x (o.imm.setWidth 64)) s))
    (e : ∀ x y : Word, f x (y.toNat % 64) = g x y) : ShiftSource i f := by
  intro o s
  have hn : (o.imm.setWidth 64).toNat % 64 = o.imm.toNat := by
    have := o.imm.isLt
    rw [BitVec.toNat_setWidth]
    omega
  simp only [h, ← e, hn]

/-- R190, R191: the rows that Rules.lean and the machine write with the same operations hold as they stand; each of the others
names the law that its two ways of writing agree. -/
theorem scalarTwo_rows : ∀ e ∈ scalarTwo, TwoSource e.1 e.2 := by
  simp only [scalarTwo, List.forall_mem_cons]
  exact ⟨fun _ _ => rfl, fun _ _ => rfl, fun _ _ => rfl, fun _ _ => rfl, fun _ _ => rfl, fun _ _ => rfl,
    .congr (fun _ _ => rfl) udiv_word, .congr (fun _ _ => rfl) srem_word, .congr (fun _ _ => rfl) urem_word,
    fun _ _ => rfl, fun _ _ => rfl, fun _ _ => rfl,
    .congr (fun _ _ => rfl) shl_word, .congr (fun _ _ => rfl) shr_word, .congr (fun _ _ => rfl) sra_word,
    .congr (fun _ _ => rfl) mins_word, .congr (fun _ _ => rfl) maxs_word,
    .congr (fun _ _ => rfl) minn_word, .congr (fun _ _ => rfl) maxn_word,
    .congr (fun _ _ => rfl) fun x y => bool_word (x.toInt < y.toInt),
    .congr (fun _ _ => rfl) fun x y => bool_word (x.toNat < y.toNat),
    .congr (fun _ _ => rfl) fun x y => bool_word (x = y),
    .congr (fun _ _ => rfl) lea_word, List.forall_mem_nil _⟩

/-- R192: the bits of a word, counted one by one. -/
theorem scalarOne_rows : ∀ e ∈ scalarOne, OneSource e.1 fun x => BitVec.ofNat 64 (e.2 x) := by
  simp only [scalarOne, List.forall_mem_cons]
  exact ⟨.congr (fun _ _ => rfl) fun x => congrArg _ (clz_count 64 x.toNat x.isLt),
    .congr (fun _ _ => rfl) fun x => congrArg _ (ctz_count 64 x.toNat),
    .congr (fun _ _ => rfl) fun x => congrArg _ (pop_count 64 x.toNat), List.forall_mem_nil _⟩

/-- R193: the rows with an immediate of 8 bits. -/
theorem scalarImmediate_rows : ∀ e ∈ scalarImmediate, ∀ o s,
    exec (e.1 o) s = .next (scalarImm (wordOf (encode (e.1 o))) o.ta o.d o.a (fun x => e.2 x o.imm) s) := by
  simp only [scalarImmediate, List.forall_mem_cons]
  exact ⟨fun _ _ => rfl, fun _ _ => rfl, fun _ _ => rfl, fun _ _ => rfl, List.forall_mem_nil _⟩

/-- R193: the rows with a shift amount. -/
theorem scalarShift_rows : ∀ e ∈ scalarShift, ShiftSource e.1 e.2 := by
  simp only [scalarShift, List.forall_mem_cons]
  exact ⟨.of_shift (fun _ _ => rfl) shl_word, .of_shift (fun _ _ => rfl) shr_word, .of_shift (fun _ _ => rfl) sra_word,
    List.forall_mem_nil _⟩

/-- R194: the 16 bits of an immediate meet no bit of a word shifted left by 16. -/
theorem movh_word (x : Word) (i : BitVec 16) : (x * 0x10000 + i.setWidth 64 : Word) = x <<< 16 ||| i.setWidth 64 := by
  have hmul : (x * 0x10000 : Word) = x <<< 16 := (BitVec.shiftLeft_eq_mul_twoPow x 16).symm
  have hdisjoint : x <<< 16 &&& i.setWidth 64 = 0 := by
    ext j hj
    by_cases h : j < 16
    · simp [h]
    · simp [BitVec.getLsbD_of_ge i j (by omega)]
  rw [hmul, BitVec.add_eq_or_of_and_eq_zero _ _ hdisjoint]

/-! ### The rows outside the tables -/

/-- R190: `sel` reads the old d, which is full as every destination is. -/
theorem sel_done {o : Op3R} {s : State} (hd : o.d.toNat < 64) (ha : o.a.toNat < 64) (hb : o.b.toNat < 64)
    (h : Ready 1 [codeS o.a.toNat, codeS o.b.toNat] [codeS o.d.toNat] s) :
    ∃ t, exec (.sel o) s = .next t ∧
      Done 1 (setS o.d.toNat (if getS s o.d.toNat = 0 then getS s o.b.toNat else getS s o.a.toNat) s) t := by
  refine ⟨_, rfl, ?_⟩
  rw [← ite_not]
  exact issue_setS_done (v := fun s => if getS s o.d.toNat ≠ 0 then getS s o.a.toNat else getS s o.b.toNat) h
    (by simp [sOk_of_lt, hd, ha, hb]) (by simpa [srcS, and_assoc] using And.intro h.sources h.dests) (by simp [dstS_of_lt hd])
    fun g => by simp only [getS_entered g h.room]

theorem movi_done {o : OpRI} {s : State} (hd : o.d.toNat < 64) (h : Ready 1 [] [codeS o.d.toNat] s) :
    ∃ t, exec (.movi o) s = .next t ∧ Done 1 (setS o.d.toNat (o.imm.signExtend 64) s) t :=
  ⟨_, rfl, scalarConst_done (f := fun _ => sext64 o.imm) hd h⟩

theorem movh_done {o : OpRI} {s : State} (hd : o.d.toNat < 64) (h : Ready 1 [] [codeS o.d.toNat] s) :
    ∃ t, exec (.movh o) s = .next t ∧
      Done 1 (setS o.d.toNat (getS s o.d.toNat * 0x10000 + o.imm.setWidth 64) s) t := by
  rw [movh_word]
  exact ⟨_, rfl, scalarConst_done (f := fun x => x <<< 16 ||| o.imm.setWidth 64) hd h⟩

/-- Settles O1: each row's arm is its shape with the row's function, and the shape completes with that value. -/
theorem scalarArithmeticWritesItsValue : Obligations.ScalarArithmeticWritesItsValue := by
  refine ⟨fun e he o s hd ha hb h => ?two, fun o s hd ha hb h => sel_done hd ha hb h, fun e he o s hd ha h => ?one,
    fun e he o s hd ha h => ?immediate, fun e he o s hd ha h => ?shift, fun o s hd h => ⟨movi_done hd h, movh_done hd h⟩⟩
  case two => exact ⟨_, scalarTwo_rows e he o s, scalar3_done hd ha hb h⟩
  case one => exact ⟨_, scalarOne_rows e he o s, scalar2_done (f := fun x => BitVec.ofNat 64 (e.2 x)) hd ha h⟩
  case immediate => exact ⟨_, scalarImmediate_rows e he o s, scalarImm_done (f := fun x => e.2 x o.imm) hd ha h⟩
  case shift => exact ⟨_, scalarShift_rows e he o s, scalarImm_done (f := fun x => e.2 x o.imm.toNat) hd ha h⟩

end Sys2Proof.Machine
end

section
/-! PROOF. Decoding and encoding agree (spec/08_encoding_assembly.md R172 to R178). That a word decodes to the instruction it encodes is
the family RoundTrip of Laws/PerInstr.lean. The other way, the words of one opcode are an interval of 8,388,608; within it the fields that
a format reads, with what the conditions of the row fix, add up to the word again. -/

namespace Sys2Proof

open Laws

/-! ### Decoding an encoding -/

/-- Settles O57: the instructions with a word are the family RoundTrip, and the others have no word or are not well-formed. -/
theorem decodingAnEncodingGivesItBack : Obligations.DecodingAnEncodingGivesItBack := by
  intro i
  cases i with
  | add o => exact RoundTrip.add o
  | sub o => exact RoundTrip.sub o
  | mul o => exact RoundTrip.mul o
  | mulh o => exact RoundTrip.mulh o
  | mulhn o => exact RoundTrip.mulhn o
  | div o => exact RoundTrip.div o
  | divn o => exact RoundTrip.divn o
  | rem o => exact RoundTrip.rem o
  | remn o => exact RoundTrip.remn o
  | andS o => exact RoundTrip.andS o
  | orS o => exact RoundTrip.orS o
  | xorS o => exact RoundTrip.xorS o
  | shl o => exact RoundTrip.shl o
  | shr o => exact RoundTrip.shr o
  | sra o => exact RoundTrip.sra o
  | minS o => exact RoundTrip.minS o
  | maxS o => exact RoundTrip.maxS o
  | minn o => exact RoundTrip.minn o
  | maxn o => exact RoundTrip.maxn o
  | slt o => exact RoundTrip.slt o
  | sltn o => exact RoundTrip.sltn o
  | seq o => exact RoundTrip.seq o
  | sel o => exact RoundTrip.sel o
  | clz o => exact RoundTrip.clz o
  | ctz o => exact RoundTrip.ctz o
  | pop o => exact RoundTrip.pop o
  | lea o => exact RoundTrip.lea o
  | addi o => exact RoundTrip.addi o
  | andi o => exact RoundTrip.andi o
  | ori o => exact RoundTrip.ori o
  | xori o => exact RoundTrip.xori o
  | shli o => exact RoundTrip.shli o
  | shri o => exact RoundTrip.shri o
  | srai o => exact RoundTrip.srai o
  | movi o => exact RoundTrip.movi o
  | movh o => exact RoundTrip.movh o
  | jmp o => exact RoundTrip.jmp o
  | jal o => exact RoundTrip.jal o
  | jr o => exact RoundTrip.jr o
  | call o => exact RoundTrip.call o
  | ret => exact RoundTrip.ret
  | retVa o => exact RoundTrip.retVa o
  | bz o => exact RoundTrip.bz o
  | bnz o => exact RoundTrip.bnz o
  | bany o => exact RoundTrip.bany o
  | ball o => exact RoundTrip.ball o
  | vbr o => exact RoundTrip.vbr o
  | loopLc0 o => exact RoundTrip.loopLc0 o
  | loopLc1 o => exact RoundTrip.loopLc1 o
  | loopSetLc0 o => exact RoundTrip.loopSetLc0 o
  | loopSetLc1 o => exact RoundTrip.loopSetLc1 o
  | loopGetLc0 o => exact RoundTrip.loopGetLc0 o
  | loopGetLc1 o => exact RoundTrip.loopGetLc1 o
  | region => exact RoundTrip.region
  | yield => exact RoundTrip.yield
  | nop => exact RoundTrip.nop
  | halt => exact RoundTrip.halt
  | modeT o => exact RoundTrip.modeT o
  | modeG o => exact RoundTrip.modeG o
  | modeRm o => exact RoundTrip.modeRm o
  | modeCv o => exact RoundTrip.modeCv o
  | modeLd o => exact RoundTrip.modeLd o
  | modeSt o => exact RoundTrip.modeSt o
  | rdsp o => exact RoundTrip.rdsp o
  | vadd o => exact RoundTrip.vadd o
  | vsub o => exact RoundTrip.vsub o
  | vmul o => exact RoundTrip.vmul o
  | vmulh o => exact RoundTrip.vmulh o
  | vmad o => exact RoundTrip.vmad o
  | vand o => exact RoundTrip.vand o
  | vor o => exact RoundTrip.vor o
  | vxor o => exact RoundTrip.vxor o
  | vnot o => exact RoundTrip.vnot o
  | vshl o => exact RoundTrip.vshl o
  | vshr o => exact RoundTrip.vshr o
  | vsra o => exact RoundTrip.vsra o
  | vmin o => exact RoundTrip.vmin o
  | vmax o => exact RoundTrip.vmax o
  | vabs o => exact RoundTrip.vabs o
  | vneg o => exact RoundTrip.vneg o
  | vclz o => exact RoundTrip.vclz o
  | vpop o => exact RoundTrip.vpop o
  | vcmp o => exact RoundTrip.vcmp o
  | vsel o => exact RoundTrip.vsel o
  | vmov o => exact RoundTrip.vmov o
  | vbcs o => exact RoundTrip.vbcs o
  | vbfe o => exact RoundTrip.vbfe o
  | vbfi o => exact RoundTrip.vbfi o
  | vadds o => exact RoundTrip.vadds o
  | vfadd o => exact RoundTrip.vfadd o
  | vfsub o => exact RoundTrip.vfsub o
  | vfmul o => exact RoundTrip.vfmul o
  | vffma o => exact RoundTrip.vffma o
  | vfneg o => exact RoundTrip.vfneg o
  | vfabs o => exact RoundTrip.vfabs o
  | vfmin o => exact RoundTrip.vfmin o
  | vfmax o => exact RoundTrip.vfmax o
  | vfcmp o => exact RoundTrip.vfcmp o
  | vfrcp o => exact RoundTrip.vfrcp o
  | vfrsq o => exact RoundTrip.vfrsq o
  | vfsqrt o => exact RoundTrip.vfsqrt o
  | vfexp2 o => exact RoundTrip.vfexp2 o
  | vflog2 o => exact RoundTrip.vflog2 o
  | vfsin o => exact RoundTrip.vfsin o
  | vfcos o => exact RoundTrip.vfcos o
  | vftanh o => exact RoundTrip.vftanh o
  | vfclass o => exact RoundTrip.vfclass o
  | vcvtF64 o => exact RoundTrip.vcvtF64 o
  | vcvtF32 o => exact RoundTrip.vcvtF32 o
  | vcvtF16 o => exact RoundTrip.vcvtF16 o
  | vcvtBf16 o => exact RoundTrip.vcvtBf16 o
  | vcvtE4m3 o => exact RoundTrip.vcvtE4m3 o
  | vcvtE5m2 o => exact RoundTrip.vcvtE5m2 o
  | vcvtE3m2 o => exact RoundTrip.vcvtE3m2 o
  | vcvtE2m3 o => exact RoundTrip.vcvtE2m3 o
  | vcvtE2m1 o => exact RoundTrip.vcvtE2m1 o
  | vcvtI32 o => exact RoundTrip.vcvtI32 o
  | vcvtN32 o => exact RoundTrip.vcvtN32 o
  | vcvtI16 o => exact RoundTrip.vcvtI16 o
  | vcvtN16 o => exact RoundTrip.vcvtN16 o
  | vcvtI8 o => exact RoundTrip.vcvtI8 o
  | vcvtN8 o => exact RoundTrip.vcvtN8 o
  | vcvtI4 o => exact RoundTrip.vcvtI4 o
  | vcvtN4 o => exact RoundTrip.vcvtN4 o
  | vpack o => exact RoundTrip.vpack o
  | vunpk o => exact RoundTrip.vunpk o
  | vshf o => exact RoundTrip.vshf o
  | vshfx o => exact RoundTrip.vshfx o
  | vshfu o => exact RoundTrip.vshfu o
  | vshfd o => exact RoundTrip.vshfd o
  | vlane o => exact RoundTrip.vlane o
  | vvote o => exact RoundTrip.vvote o
  | vballot o => exact RoundTrip.vballot o
  | vred o => exact RoundTrip.vred o
  | vscan o => exact RoundTrip.vscan o
  | vmaxi o => exact RoundTrip.vmaxi o
  | vtopk o => exact RoundTrip.vtopk o
  | rdw o => exact RoundTrip.rdw o
  | ldG o => exact RoundTrip.ldG o
  | stG o => exact RoundTrip.stG o
  | ldS o => exact RoundTrip.ldS o
  | stS o => exact RoundTrip.stS o
  | ldU o => exact RoundTrip.ldU o
  | stU o => exact RoundTrip.stU o
  | pf o => exact RoundTrip.pf o
  | dis o => exact RoundTrip.dis o
  | winOpen o => exact RoundTrip.winOpen o
  | winClose o => exact RoundTrip.winClose o
  | ldX o => exact RoundTrip.ldX o
  | stX o => exact RoundTrip.stX o
  | peerCap o => exact RoundTrip.peerCap o
  | atom o => exact RoundTrip.atom o
  | atomCas o => exact RoundTrip.atomCas o
  | atomCas16 o => exact RoundTrip.atomCas16 o
  | atomMaxi o => exact RoundTrip.atomMaxi o
  | red o => exact RoundTrip.red o
  | acq o => exact RoundTrip.acq o
  | rel o => exact RoundTrip.rel o
  | fence o => exact RoundTrip.fence o
  | bar => exact RoundTrip.bar
  | barC => exact RoundTrip.barC
  | barG => exact RoundTrip.barG
  | turn => exact RoundTrip.turn
  | cjmpImm o => exact RoundTrip.cjmpImm o
  | cjmpReg o => exact RoundTrip.cjmpReg o
  | cjmpto o => exact RoundTrip.cjmpto o
  | rdclk o => exact RoundTrip.rdclk o
  | rdq o => exact RoundTrip.rdq o
  | waitCnt o => exact RoundTrip.waitCnt o
  | tileOwn o => exact RoundTrip.tileOwn o
  | tileSeal o => exact RoundTrip.tileSeal o
  | tileFree o => exact RoundTrip.tileFree o
  | tileQ o => exact RoundTrip.tileQ o
  | cp o => exact RoundTrip.cp o
  | cpR o => exact RoundTrip.cpR o
  | cpX o => exact RoundTrip.cpX o
  | cpXR o => exact RoundTrip.cpXR o
  | gat o => exact RoundTrip.gat o
  | gatR o => exact RoundTrip.gatR o
  | scat o => exact RoundTrip.scat o
  | scatR o => exact RoundTrip.scatR o
  | coll o => exact RoundTrip.coll o
  | collR o => exact RoundTrip.collR o
  | mloop o => exact RoundTrip.mloop o
  | maccZ o => exact RoundTrip.maccZ o
  | maccZR o => exact RoundTrip.maccZR o
  | maccLd o => exact RoundTrip.maccLd o
  | maccLdR o => exact RoundTrip.maccLdR o
  | maccSt o => exact RoundTrip.maccSt o
  | maccStR o => exact RoundTrip.maccStR o
  | ewait o => exact RoundTrip.ewait o
  | epoll o => exact RoundTrip.epoll o
  | taskSig o => exact RoundTrip.taskSig o
  | taskPost o => exact RoundTrip.taskPost o
  | taskDone => exact RoundTrip.taskDone
  | trap o => exact RoundTrip.trap o
  | rte => exact RoundTrip.rte
  | csrr o => exact RoundTrip.csrr o
  | csrw o => exact RoundTrip.csrw o
  | csrs o => exact RoundTrip.csrs o
  | csrc o => exact RoundTrip.csrc o
  | brk o => exact RoundTrip.brk o
  | pmcRead o => exact RoundTrip.pmcRead o
  | pmcReadClear o => exact RoundTrip.pmcReadClear o
  | icinv o => exact RoundTrip.icinv o
  | plbInv o => exact RoundTrip.plbInv o
  | hcOpEntry o => exact RoundTrip.hcOpEntry o
  | hcOpRoot o => exact RoundTrip.hcOpRoot o
  | hcOpFrame o => exact RoundTrip.hcOpFrame o
  | hcOpMigrate o => exact RoundTrip.hcOpMigrate o
  | hcOpReplay o => exact RoundTrip.hcOpReplay o
  | hcOpDrop o => exact RoundTrip.hcOpDrop o
  | hcOpUnhold o => exact RoundTrip.hcOpUnhold o
  | hcOpRead o => exact RoundTrip.hcOpRead o
  | atomX o => exact RoundTrip.atomX o
  | redX o => exact RoundTrip.redX o
  | illegalInstruction _ | reservedEncoding _ => exact RoundTrip.no_wf rfl
  | _ => exact RoundTrip.no_word rfl

/-! ### The parts of the opcode map (R178) -/

/-- The decoder of the opcodes from lo to hi is the part of the opcode map that they select. -/
def PartOfMap (lo hi : Nat) (part : Nat → Nat → Instr) : Prop :=
  ∀ op w : Nat, w / 8388608 % 512 = op → lo ≤ op → op < hi → decodeNat w = part op w

theorem decodeNat_scalar : PartOfMap 0x000 0x040 decodeScalar := by
  intro op w h hlo hhi
  simp only [decodeNat, h]
  rw [if_pos (by omega)]

theorem decodeNat_control : PartOfMap 0x040 0x080 decodeControl := by
  intro op w h hlo hhi
  simp only [decodeNat, h]
  repeat rw [if_neg (by omega)]
  rw [if_pos (by omega)]

theorem decodeNat_vectorInt : PartOfMap 0x080 0x0A0 decodeVectorInt := by
  intro op w h hlo hhi
  simp only [decodeNat, h]
  repeat rw [if_neg (by omega)]
  rw [if_pos (by omega)]

theorem decodeNat_vectorFloat : PartOfMap 0x0A0 0x0C0 decodeVectorFloat := by
  intro op w h hlo hhi
  simp only [decodeNat, h]
  repeat rw [if_neg (by omega)]
  rw [if_pos (by omega)]

theorem decodeNat_convert : PartOfMap 0x0C0 0x0E0 decodeConvert := by
  intro op w h hlo hhi
  simp only [decodeNat, h]
  repeat rw [if_neg (by omega)]
  rw [if_pos (by omega)]

theorem decodeNat_crossLane : PartOfMap 0x0E0 0x100 decodeCrossLane := by
  intro op w h hlo hhi
  simp only [decodeNat, h]
  repeat rw [if_neg (by omega)]
  rw [if_pos (by omega)]

theorem decodeNat_memory : PartOfMap 0x100 0x120 decodeMemory := by
  intro op w h hlo hhi
  simp only [decodeNat, h]
  repeat rw [if_neg (by omega)]
  rw [if_pos (by omega)]

theorem decodeNat_sync : PartOfMap 0x120 0x130 decodeSync := by
  intro op w h hlo hhi
  simp only [decodeNat, h]
  repeat rw [if_neg (by omega)]
  rw [if_pos (by omega)]

theorem decodeNat_engine : PartOfMap 0x130 0x140 decodeEngine := by
  intro op w h hlo hhi
  simp only [decodeNat, h]
  repeat rw [if_neg (by omega)]
  rw [if_pos (by omega)]

theorem decodeNat_system : PartOfMap 0x140 0x180 decodeSystem := by
  intro op w h hlo hhi
  simp only [decodeNat, h]
  repeat rw [if_neg (by omega)]
  rw [if_pos (by omega)]

/-! ### Encoding a decoding -/

theorem toNat_decide_bit (n : Nat) : (decide (n % 2 = 1)).toNat = n % 2 := by
  rcases Nat.mod_two_eq_zero_or_one n with h | h <;> simp [h]

theorem some_word_eq {n w : Nat} (h : n = w) : some (BitVec.ofNat 32 n) = some (BitVec.ofNat 32 w) := by rw [h]

theorem rd3R_sum (b w : Nat) :
    b + (rd3R w).ta.toNat * 4194304 + (rd3R w).tb.toNat * 2097152 + (rd3R w).d.toNat * 16384 + (rd3R w).a.toNat * 128
      + (rd3R w).b.toNat = b + w % 8388608 := by
  simp only [rd3R, toNat_decide_bit, BitVec.toNat_ofNat]
  omega

theorem rd3A_sum (b w : Nat) :
    b + (rd3A w).ta.toNat * 4194304 + (rd3A w).d.toNat * 16384 + (rd3A w).a.toNat * 128
      = b + w / 4194304 % 2 * 4194304 + w / 128 % 16384 * 128 := by
  simp only [rd3A, toNat_decide_bit, BitVec.toNat_ofNat]
  omega

/-- Every word of an opcode is the encoding of what a part of the opcode map gives for it: the row is that of the opcode, and the fields
of the row's format add up to the word, of which the row's conditions fix the rest. -/
def EncodesBack (part : Nat → Nat → Instr) : Prop :=
  ∀ op w : Nat, w / 8388608 = op → encode (part op w) = some (BitVec.ofNat 32 w)

theorem encode_decodeScalar : EncodesBack decodeScalar := by
  intro op w h
  unfold decodeScalar
  repeat' split
  all_goals refine some_word_eq ?_
  all_goals simp -failIfUnchanged only [rd3R_sum, rd3A_sum, rd2I, rd2S, rdRI, toNat_decide_bit, BitVec.toNat_ofNat]
  all_goals omega

theorem encode_decodeControl : EncodesBack decodeControl := by
  intro op w h
  unfold decodeControl
  repeat' split
  all_goals refine some_word_eq ?_
  all_goals simp -failIfUnchanged only [rdB, rd2I, rdV, rdBC, rdS6, rdT4, rdG6, rdRM, rdCV, rdS6_2, rdSN,
    toNat_decide_bit, BitVec.toNat_ofNat]
  all_goals omega

theorem encode_decodeVectorInt : EncodesBack decodeVectorInt := by
  intro op w h
  unfold decodeVectorInt
  repeat' split
  all_goals refine some_word_eq ?_
  all_goals simp -failIfUnchanged only [rd3R_sum, rd3A_sum]
  all_goals omega

theorem encode_decodeVectorFloat : EncodesBack decodeVectorFloat := by
  intro op w h
  unfold decodeVectorFloat
  repeat' split
  all_goals refine some_word_eq ?_
  all_goals simp -failIfUnchanged only [rd3R_sum, rd3A_sum]
  all_goals omega

theorem encode_decodeConvert : EncodesBack decodeConvert := by
  intro op w h
  unfold decodeConvert
  repeat' split
  all_goals refine some_word_eq ?_
  all_goals simp -failIfUnchanged only [rd3A_sum, rd3K, toNat_decide_bit, BitVec.toNat_ofNat]
  all_goals omega

theorem encode_decodeCrossLane : EncodesBack decodeCrossLane := by
  intro op w h
  unfold decodeCrossLane
  repeat' split
  all_goals refine some_word_eq ?_
  all_goals simp -failIfUnchanged only [rd3R_sum, rdDK, rd3K, rd3A_sum, toNat_decide_bit, BitVec.toNat_ofNat]
  all_goals omega

theorem encode_decodeMemory : EncodesBack decodeMemory := by
  intro op w h
  unfold decodeMemory
  repeat' split
  all_goals refine some_word_eq ?_
  all_goals simp -failIfUnchanged only [rdM, rdMst, rdMs, rdMsst, rdPf, rdDis, rdWa, rdW, rdX, rdPeer, toNat_decide_bit, BitVec.toNat_ofNat]
  all_goals omega

theorem encode_decodeSync : EncodesBack decodeSync := by
  intro op w h
  unfold decodeSync
  repeat' split
  all_goals refine some_word_eq ?_
  all_goals simp -failIfUnchanged only [rdAtom, rdMw, rdAcq, rdF, rdS6_3, rdN9, rdWait, toNat_decide_bit, BitVec.toNat_ofNat]
  all_goals omega

theorem encode_decodeEngine : EncodesBack decodeEngine := by
  intro op w h
  unfold decodeEngine
  repeat' split
  all_goals refine some_word_eq ?_
  all_goals simp -failIfUnchanged only [rdH, rdHD, rdE, rdHE, rdMloop, rdAcc, rdAccD, rdEw, BitVec.toNat_ofNat]
  all_goals omega

theorem encode_decodeSystem : EncodesBack decodeSystem := by
  intro op w h
  unfold decodeSystem
  repeat' split
  all_goals refine some_word_eq ?_
  all_goals simp -failIfUnchanged only [rdSN, rdN9, rdPlb, rdS6_3, BitVec.toNat_ofNat]
  all_goals omega

theorem encode_decodeNat_remote {w : Nat} (h : 0x180 ≤ w / 8388608) (hw : w < 4294967296) :
    encode (decodeNat w) = some (BitVec.ofNat 32 w) := by
  simp only [decodeNat]
  repeat rw [if_neg (by omega)]
  repeat' split
  all_goals refine some_word_eq ?_
  all_goals simp -failIfUnchanged only [rdXn, toNat_decide_bit, BitVec.toNat_ofNat]
  all_goals omega

/-- A word whose opcode lies in a part of the opcode map. -/
theorem PartOfMap.encode {lo hi : Nat} {part : Nat → Nat → Instr} (hm : PartOfMap lo hi part) (hp : EncodesBack part) {w : Nat}
    (hw : w < 4294967296) (hlo : lo ≤ w / 8388608) (hhi : w / 8388608 < hi) :
    Sys2Proof.encode (decodeNat w) = some (BitVec.ofNat 32 w) := by
  rw [hm (w / 8388608) w (by omega) hlo hhi]
  exact hp _ w rfl

theorem encode_decodeNat {w : Nat} (hw : w < 4294967296) : encode (decodeNat w) = some (BitVec.ofNat 32 w) := by
  rcases Nat.lt_or_ge (w / 8388608) 0x040 with h | h
  · exact decodeNat_scalar.encode encode_decodeScalar hw (Nat.zero_le _) h
  rcases Nat.lt_or_ge (w / 8388608) 0x080 with h' | h'
  · exact decodeNat_control.encode encode_decodeControl hw h h'
  rcases Nat.lt_or_ge (w / 8388608) 0x0A0 with h | h
  · exact decodeNat_vectorInt.encode encode_decodeVectorInt hw h' h
  rcases Nat.lt_or_ge (w / 8388608) 0x0C0 with h' | h'
  · exact decodeNat_vectorFloat.encode encode_decodeVectorFloat hw h h'
  rcases Nat.lt_or_ge (w / 8388608) 0x0E0 with h | h
  · exact decodeNat_convert.encode encode_decodeConvert hw h' h
  rcases Nat.lt_or_ge (w / 8388608) 0x100 with h' | h'
  · exact decodeNat_crossLane.encode encode_decodeCrossLane hw h h'
  rcases Nat.lt_or_ge (w / 8388608) 0x120 with h | h
  · exact decodeNat_memory.encode encode_decodeMemory hw h' h
  rcases Nat.lt_or_ge (w / 8388608) 0x130 with h' | h'
  · exact decodeNat_sync.encode encode_decodeSync hw h h'
  rcases Nat.lt_or_ge (w / 8388608) 0x140 with h | h
  · exact decodeNat_engine.encode encode_decodeEngine hw h' h
  rcases Nat.lt_or_ge (w / 8388608) 0x180 with h' | h'
  · exact decodeNat_system.encode encode_decodeSystem hw h h'
  exact encode_decodeNat_remote h' hw

/-- Settles O58: the words of each part of the opcode map are the encodings of what they decode to. -/
theorem encodingADecodingGivesTheWord : Obligations.EncodingADecodingGivesTheWord := by
  intro w
  rw [decode, encode_decodeNat w.isLt, BitVec.ofNat_toNat, BitVec.setWidth_eq]

/-! ### Words of the spec -/

/-- Settles O56: each word is closed, and its decoding computes. -/
theorem specWordsDecode : Obligations.SpecWordsDecode := by
  unfold Obligations.SpecWordsDecode
  refine ⟨?_, ?_, ?_, ?_, ?_, ?_, ?_, ?_, ?_, ?_, ?_, ?_, ?_, ?_, ?_, ?_, ?_⟩
  all_goals rfl

end Sys2Proof
end

section
/-! PROOF. What a write at its home leaves alone: splits, gangs, commands and all that the home does not keep
(spec/06_coherence_fabric.md R118, R128; spec/19_faults_execution_memory.md R367 to R369, R375). -/

namespace Sys2Proof.Machine

/-- The device without what a write of the device's own changes at its home: lines and their copies, held stores, memory, requests that
wait there, event counters, foreign-update bits, messages. -/
def State.sansHome (s : State) : State :=
  { s with
    reqs := [], lines := [], l1 := [], late := [], mem := [], badEntries := [], launches := []
    parts := s.parts.map Partition.besides, outbox := [], nextId := 0 }

/-- A change of the device keeps what a view of it shows. -/
def Keeps {β : Type} (view : State → β) (f : State → State) : Prop := ∀ s, view (f s) = view s

theorem Keeps.comp {β : Type} {view : State → β} {f g : State → State} (hf : Keeps view f) (hg : Keeps view g) :
    Keeps view fun s => f (g s) := fun s => (hf (g s)).trans (hg s)

theorem Keeps.foldl {α β : Type} {view : State → β} {f : State → α → State} (hf : ∀ a, Keeps view fun s => f s a) (l : List α) :
    Keeps view fun s => l.foldl f s := by
  induction l with
  | nil => exact fun _ => rfl
  | cons a r ih => exact fun s => (ih (f s a)).trans (hf a s)

/-- A change of the device stays at the homes. -/
abbrev AtHomes (f : State → State) : Prop := Keeps State.sansHome f

theorem AtHomes.p {f : State → State} (h : AtHomes f) (s : State) : (f s).p = s.p :=
  show (f s).sansHome.p = s.sansHome.p by rw [h s]

theorem AtHomes.g {f : State → State} (h : AtHomes f) (s : State) : (f s).g = s.g :=
  show (f s).sansHome.g = s.sansHome.g by rw [h s]

theorem makeRoom_atHomes (n slice : Nat) : AtHomes (makeRoom n slice) := fun s =>
  Keeps.foldl (f := fun s r => if sliceFill s slice + n ≤ Config.sliceLines then s else evictOne s r)
    (fun r s => by dsimp only; split <;> rfl) _ s

theorem fillLine_atHomes (r : LineRef) (l : Leaf) : AtHomes (fillLine r l) := fun s =>
  (rfl : (fillLine r l s).sansHome = (evictLine (homeOf s r.part r.va) s).sansHome).trans (makeRoom_atHomes 1 _ s)

theorem writePte_atHomes (pa e : Nat) : AtHomes (writePte pa e) := fun s => by unfold writePte; split <;> rfl

theorem reviveGranule_atHomes (part asid off : Nat) : AtHomes (reviveGranule part asid off) := by
  intro s
  unfold reviveGranule
  split
  · rfl
  · split
    · exact writePte_atHomes _ _ _
    · rfl

theorem ensureLine_atHomes (part asid off : Nat) : AtHomes (ensureLine part asid off) := by
  intro s
  unfold ensureLine
  split
  · rfl
  · split
    · exact fillLine_atHomes _ _ s
    · rfl

theorem writeLine_atHomes (part asid off : Nat) (d : List Byte) : AtHomes (writeLine part asid off d) := by
  intro s
  have h := (ensureLine_atHomes part asid off).comp (reviveGranule_atHomes part asid off) s
  rw [writeLine]
  cases findLine (ensureLine part asid off (reviveGranule part asid off s)) (lineRef part asid off) with
  | none => exact h
  | some l => exact h

theorem mapPart_atHomes (n : Nat) {f : Partition → Partition} (hf : ∀ q, (f q).besides = q.besides) : AtHomes (mapPart n f) :=
  fun s => congrArg (fun l => { s.sansHome with parts := l }) (updateWhere_besides _ f hf s.parts)

theorem countMiss_atHomes (launch : Nat) (r : LineRef) : AtHomes (countMiss launch r) := by
  intro s
  unfold countMiss
  split
  · split
    · exact mapPart_atHomes _ (f := bumpEvents _ _) (fun _ => rfl) s
    · exact mapPart_atHomes _ (f := bumpEvents _ _) (fun _ => rfl) s
  · rfl

theorem foreignUpdate_atHomes (launch : Nat) (r : LineRef) : AtHomes (foreignUpdate launch r) := fun _ => rfl

theorem writeBase_atHomes (launch part asid off : Nat) (d : List Byte) : AtHomes (writeBase launch part asid off d) := by
  intro s
  rw [writeBase]
  exact (foreignUpdate_atHomes launch _).comp ((writeLine_atHomes part asid off d).comp (countMiss_atHomes launch _)) s

theorem recallCopies_atHomes (b : Bool) (r : LineRef) (d : SMap Byte) : AtHomes (recallCopies b r d) := by
  intro s
  unfold recallCopies
  dsimp only
  split
  · rfl
  · split <;> rfl

theorem dropL1_atHomes (r : LineRef) (n : Nat) : AtHomes (dropL1 r n) := fun _ => rfl

theorem writePiece_atHomes (launch part asid o : Nat) (d : List Byte) : AtHomes (writePiece launch part asid o d) := by
  intro s
  rw [writePiece]
  cases devQueued s part asid o with
  | true => rfl
  | false => exact (recallCopies_atHomes true _ _).comp ((dropL1_atHomes _ 256).comp (writeBase_atHomes launch part asid o d)) s

theorem contextLate_atHomes (off : Nat) (d : List Byte) (c : Option (BitVec 8)) : AtHomes (contextLate off d c) := by
  intro s
  unfold contextLate
  split <;> rfl

theorem spillAt_atHomes (off n : Nat) : AtHomes (spillAt off n) := by
  intro s
  unfold spillAt
  dsimp only
  split
  · exact contextLate_atHomes _ _ _ _
  · split
    · exact contextLate_atHomes _ _ _ _
    · exact writePiece_atHomes _ _ _ _ _ _

theorem spillWrite_atHomes (o n : Nat) : AtHomes (spillWrite o n) := fun s =>
  Keeps.foldl (f := fun s (e : Nat × Nat) => spillAt e.1 e.2 s) (fun e => spillAt_atHomes e.1 e.2) (contextPlaces s.g o n) s

/-! ### What the release of stores leaves alone (R41) -/

/-- The device without what the stores of a region change as they leave: the Cuff buffer, tiles, and what is on its way or counted. -/
def State.sansRelease (s : State) : State :=
  { s with
    g := { s.g with cuff := [], cuffSeq := 0 }
    reqs := [], remotes := [], updates := [], tiles := [], l1 := [], launches := [], parts := [], outbox := [], nextId := 0 }

theorem sendWrite_release (q : Req) : Keeps State.sansRelease (sendWrite q) := fun _ => rfl

theorem depart_release (q : RemoteReq) : Keeps State.sansRelease (depart q) := by
  intro s
  unfold depart
  dsimp only
  split <;> rfl

theorem sendRemote_release (q : RemoteReq) : Keeps State.sansRelease (sendRemote q) := by
  intro s
  unfold sendRemote
  dsimp only
  split
  · rfl
  · exact depart_release _ _

theorem releaseFar_release (b : BufStore) (l : List BufStore) : Keeps State.sansRelease (releaseFar b l) := fun s => by
  rw [releaseFar, sendReplay]
  exact Keeps.foldl (fun a x => sendRemote_release _ x) _ s

theorem releaseStore_release (b : BufStore) : Keeps State.sansRelease (releaseStore b) := by
  intro s
  unfold releaseStore
  split
  · split <;> rfl
  · dsimp only
    split
    · split
      · next d _ => exact Keeps.foldl (f := cuffLine b d) (fun _ _ => rfl) _ s
      · rfl
      · rfl
      · rfl
    · rfl

theorem releaseAll_release (l : List BufStore) : Keeps State.sansRelease (releaseAll l) := fun s =>
  Keeps.foldl (f := fun s g => releaseGroup g s) (fun g x => by
    cases g with
    | nil => rfl
    | cons b r =>
      simp only [releaseGroup]
      split
      · exact releaseFar_release b _ x
      · exact releaseStore_release b x) (groupFar (partOf s s.g.part).node l) s

/-- The commit of a region that spills nothing. -/
theorem commitRegion_release {s : State} (room : NoSpill s) : (commitRegion s).sansRelease =
    { s.sansRelease with p := { s.p with buffer := [], entry := none, fresh := false, liveIn := [], written := [] } } := by
  rw [commitRegion_eq room]
  exact releaseAll_release _ _

theorem commitRegion_cycle {s : State} (room : NoSpill s) : (commitRegion s).cycle = s.cycle :=
  show (commitRegion s).sansRelease.cycle = _ by rw [commitRegion_release room]; rfl

end Sys2Proof.Machine
end

section
/-! PROOF. Control transfer and loops (spec/09_isa_scalar_control.md R195 to R206). A transfer is issued with the back edges that it
evaluates, which are at most those of falling through, so that a split that is ready for the one is ready for the other. -/

namespace Sys2Proof.Machine

open Sys2Proof.Rules

/-! ### Weights -/

theorem overflows_of_le {a b : Nat} {s : State} (hab : a ≤ b) (h : overflows b s = false) : overflows a s = false := by
  simp only [overflows, Bool.and_eq_false_iff, decide_eq_false_iff_not] at h ⊢
  exact h.imp id fun h => by omega

theorem edgesUnless_le (taken : Bool) (s : State) : edgesUnless taken s ≤ (edges s).count := by
  cases taken
  · exact Nat.le_refl _
  · exact Nat.zero_le _

/-- The weight of an instruction with the back edges of a transfer does not pass the full weight of falling through (R52). -/
theorem overflows_edgesUnless {w : Nat} {s : State} (h : overflows (fullWeight w s) s = false) (taken : Bool) :
    overflows (w + edgesUnless taken s) s = false :=
  overflows_of_le (Nat.add_le_add_left (edgesUnless_le taken s) w) h

/-- An instruction of the plain kind whose weight does not overflow the clock passes its checks. -/
theorem Ready.passes_of_clock {w : Nat} {rd wr : List Nat} {s : State} (h : Ready w rd wr s) {f : Form} {check : State → Verdict}
    {effect : State → State} (halone : f.turn = false ∧ f.irrevocable = false) (hpriv : f.privileged = false ∧ f.barred = false)
    (hbad : f.bad = none) (haddrs : ∀ e ∈ f.addrs, regState s e.1 = .full) (hcheck : check s = .ok)
    (hsrcs : ∀ e ∈ f.srcs, regState s e.1 = .full) (hdsts : ∀ c ∈ f.dsts, c ∈ wr)
    (hclock : overflows (f.full s) s = false) : issue f check effect s = effect (entered f s) := by
  refine issue_ok ?_ h.quiet ?_ ?_ hbad haddrs hcheck hsrcs hclock fun c hc => h.dests c (hdsts c hc)
  · rw [halone.1, halone.2]; rfl
  · rw [hpriv.1]; nofun
  · rw [hpriv.2]; nofun

/-- An instruction of the plain kind, of a weight with at most the back edges behind it, passes its checks. -/
theorem Ready.passes {w : Nat} {rd wr : List Nat} {s : State} (h : Ready w rd wr s) {f : Form} {check : State → Verdict}
    {effect : State → State} (halone : f.turn = false ∧ f.irrevocable = false) (hpriv : f.privileged = false ∧ f.barred = false)
    (hbad : f.bad = none) (haddrs : ∀ e ∈ f.addrs, regState s e.1 = .full) (hcheck : check s = .ok)
    (hsrcs : ∀ e ∈ f.srcs, regState s e.1 = .full) (hdsts : ∀ c ∈ f.dsts, c ∈ wr)
    (hweight : f.full s ≤ fullWeight w s) : issue f check effect s = effect (entered f s) :=
  h.passes_of_clock halone hpriv hbad haddrs hcheck hsrcs hdsts (overflows_of_le hweight h.clock)

theorem weight_edgesUnless (w : Nat) (taken : Bool) (s : State) : w + edgesUnless taken s ≤ fullWeight w s :=
  Nat.add_le_add_left (edgesUnless_le taken s) w

/-! ### Jumps (R196) -/

/-- A jump goes to its target (R195), from the registers that it leaves. -/
theorem jump_of_ready {w : Nat} {rd wr : List Nat} {s : State} (h : Ready w rd wr s) {f : Form} {check : State → Verdict}
    {effect : State → State} {r : Regs} {target : Word} (hi : issue f check effect s = effect (entered f s))
    (he : ∀ f, effect (entered f s) = jump w target (putRegs r (entered f s))) (hl : SameLoops (putRegs r s).p s.p)
    (hu : Unrotated target s) : Goes w target (putRegs r s) (issue f check effect s) :=
  issue_jump_goes h.room hi (he f) (fun _ hrep => h.whole ((edges_congr hl).repeats ▸ hrep)) hu

theorem jmp_goes {o : OpB} {s : State} (hu : Unrotated (label s o.off) s) (h : Ready 1 [] [] s) :
    ∃ t, exec (.jmp o) s = .next t ∧ Goes 1 (label s o.off) s t := by
  refine ⟨_, rfl, jump_of_ready (r := regsOfState s) h
    (h.passes ⟨rfl, rfl⟩ ⟨rfl, rfl⟩ rfl nofun rfl nofun nofun (weight_edgesUnless _ _ _)) (fun f => ?_) ⟨rfl, rfl, rfl, rfl, rfl, rfl, rfl⟩ hu⟩
  rw [← entered_eq f h.room, pc_entered f h.room]
  rfl

/-- `jal` and `jr` link before they jump. -/
theorem jal_goes {o : OpB} {s : State} (hu : Unrotated (label s o.off) s) (h : Ready 1 [] [codeS 63] s) :
    ∃ t, exec (.jal o) s = .next t ∧ Goes 1 (label s o.off) (setS 63 (s.p.pc + 4) s) t := by
  refine ⟨_, rfl, jump_of_ready (r := (regsOfState s).setS 63 (s.p.pc + 4)) h
    (h.passes ⟨rfl, rfl⟩ ⟨rfl, rfl⟩ rfl nofun rfl nofun (fun _ hc => hc) (weight_edgesUnless _ _ _)) (fun f => ?_)
    ⟨rfl, rfl, rfl, rfl, rfl, rfl, rfl⟩ hu⟩
  rw [← setS_entered f h.room, pc_entered f h.room]
  rfl

theorem jr_goes {o : Op2I} {s : State} (hd : o.d.toNat < 64) (ha : o.a.toNat < 64)
    (htarget : (getS s o.a.toNat + 4 * o.imm.signExtend 64).toNat % 4 = 0)
    (hu : Unrotated (getS s o.a.toNat + 4 * o.imm.signExtend 64) s) (h : Ready 1 [codeS o.a.toNat] [codeS o.d.toNat] s) :
    ∃ t, exec (.jr o) s = .next t ∧ Goes 1 (getS s o.a.toNat + 4 * o.imm.signExtend 64) (setS o.d.toNat (s.p.pc + 4) s) t := by
  have haligned : failIf (decide ((jrTarget s o).toNat % 4 ≠ 0)) 0x05 = .ok :=
    if_neg (by rw [decide_eq_true_eq, not_not]; exact htarget)
  refine ⟨_, rfl, jump_of_ready (r := (regsOfState s).setS o.d.toNat (s.p.pc + 4)) h
    (h.passes ⟨rfl, rfl⟩ ⟨rfl, rfl⟩ (by simp [sOk_of_lt, hd, ha]) (by simpa [srcS] using h.sources) haligned nofun
      (by simp [sOk_of_lt hd]) (weight_edgesUnless _ _ _)) (fun f => ?_) ⟨rfl, rfl, rfl, rfl, rfl, rfl, rfl⟩ hu⟩
  rw [← setS_entered f h.room, pc_entered f h.room]
  simp only [jrTarget, getS_entered f h.room]
  rfl

/-- Settles O2: the three jumps are issued as one shape, and jump from the registers that hold the link. -/
theorem jumpsGoToTheirTarget : Obligations.JumpsGoToTheirTarget :=
  ⟨fun _ _ => jmp_goes, fun _ _ => jal_goes, fun _ _ hd ha ht hu h => jr_goes hd ha ht hu h⟩

/-! ### Calls and returns (R197, R32) -/

theorem mem_updateWhere {α : Type} {q : α → Bool} {f : α → α} {l : List α} {a : α} (h : a ∈ updateWhere q f l) :
    ∃ x ∈ l, a = if q x then f x else x := by
  induction l with
  | nil => cases h
  | cons b r ih =>
    rcases List.mem_cons.mp h with rfl | hr
    · exact ⟨b, List.mem_cons_self, rfl⟩
    · obtain ⟨x, hx, he⟩ := ih hr
      exact ⟨x, List.mem_cons_of_mem _ hx, he⟩

/-- An instruction without registers, of a kind that opens no region, enters nothing. -/
theorem entered_self {f : Form} {s : State} (hf : f.irrevocable = false ∧ f.opens s = false) (hw : f.dsts = [])
    (hr : f.addrs.map (·.1) ++ f.srcs.map (·.1) ++ f.reads = []) : entered f s = s := by
  have henter : enterRegion f s = s := by
    simp [enterRegion, opensHere, hf.1, hf.2, hw, writesLiveIn]
  rw [entered, henter, hr, hw, track]
  split
  · rfl
  · rfl

/-- A call leaves everything but the return stack to the home of the entry that spills. -/
theorem pushReturn_eq (ra : Word) (s : State) :
    ∃ t : State, t.sansHome = s.sansHome ∧ (s.p.rstack.length < 8 → t = s) ∧
      pushReturn ra s = { t with p := { s.p with rstack := ra :: s.p.rstack } } := by
  unfold pushReturn
  dsimp only
  split
  · exact ⟨s, rfl, fun _ => rfl, rfl⟩
  · next h =>
    have hp := spillWrite_atHomes (returnSlot (s.p.rstack.length - Config.returnOnChip)
      (getAt 0 s.p.rstack (Config.returnOnChip - 1))) 8
    exact ⟨_, hp s, fun hlt => absurd hlt h, by rw [hp.p]⟩

theorem transfer_eq {target : Word} {x : State} (h : Unrotated target x) :
    transfer target x = { retired (addClock 1 x) with p := { (retired (addClock 1 x)).p with pc := target } } := by
  unfold transfer
  dsimp only
  split
  · next hb => exact rotate_none (retired_rotates 1 x (h (of_decide_eq_true hb)) (fun q => { q with pc := target }) fun _ => ⟨rfl, rfl⟩)
  · rfl

theorem call_goes {o : OpB} {s : State} (hdepth : s.p.rstack.length < 256) (hu : Unrotated (label s o.off) s) (h : Ready 1 [] [] s) :
    ∃ t, exec (.call o) s = .next t ∧ Jumped 1 (label s o.off) (fun _ => true) (pushReturn (s.p.pc + 4) s) t ∧
      t.p.rstack = (s.p.pc + 4) :: s.p.rstack ∧ t.p.clock = clockAfter 1 s ∧ t.p.lr0 = s.p.lr0 ∧ t.p.lr1 = s.p.lr1 ∧
      t.p.sregs = s.p.sregs ∧ t.g.vregs = s.g.vregs ∧ t.g.preds = s.g.preds ∧
      (s.p.rstack.length < 8 →
        Jumped 1 (label s o.off) (fun _ => true) { s with p := { s.p with rstack := (s.p.pc + 4) :: s.p.rstack } } t) := by
  have hroom : failIf (decide (Config.maxDepth ≤ s.p.rstack.length)) 0x06 = .ok :=
    if_neg (by rw [decide_eq_true_eq]; exact Nat.not_le.mpr hdepth)
  obtain ⟨u, hu', hshort, hpush⟩ := pushReturn_eq (s.p.pc + 4) s
  have hg : u.g = s.g := show u.sansHome.g = s.sansHome.g by rw [hu']
  have hunrot : Unrotated (label s o.off) (pushReturn (s.p.pc + 4) s) := by
    rw [hpush]
    intro hb
    refine (hu hb).imp (fun hr => ?_) id
    simpa only [rotatable, Split.held, hg] using hr
  have hissue := h.passes (f := { Form.plain (wordOf (encode (.call o))) 1 with back := fun _ => 0 })
    (check := fun s => failIf (decide (Config.maxDepth ≤ s.p.rstack.length)) 0x06)
    (effect := fun s => transfer (wordTarget s.p.pc o.off) (pushReturn (s.p.pc + 4) s))
    ⟨rfl, rfl⟩ ⟨rfl, rfl⟩ rfl nofun hroom nofun nofun (Nat.le_add_right 1 _)
  rw [entered_self ⟨rfl, rfl⟩ rfl rfl] at hissue
  refine ⟨_, congrArg Host.Outcome.next hissue, transfer_jumped hunrot, ?_⟩
  obtain ⟨Q, hretired, -⟩ := retired_eq (addClock 1 (pushReturn (s.p.pc + 4) s))
  rw [show transfer (wordTarget s.p.pc o.off) _ = _ from transfer_eq hunrot, hretired, addClock_eq, hpush]
  refine ⟨rfl, rfl, rfl, rfl, rfl, congrArg Gang.vregs hg, congrArg Gang.preds hg, fun hlt => ?_⟩
  have hjump := transfer_jumped hunrot
  rw [show transfer (label s o.off) _ = _ from transfer_eq hunrot, hretired, addClock_eq, hpush, hshort hlt] at hjump
  rw [hshort hlt]
  exact hjump

/-- The launch of a lost context has ended with its cause (R375). -/
theorem endLaunch_ended (n status : Nat) (cause : BitVec 8) (s : State) :
    ∀ l ∈ (endLaunch n status cause s).launches, l.id = n → l.phase = .retired ∧ l.ended = some (cause, status) := by
  intro l hl hid
  obtain ⟨x, -, rfl⟩ := mem_updateWhere hl
  split at hid
  · next h => rw [if_pos h]; exact ⟨rfl, rfl⟩
  · next h => exact absurd hid (by simpa using h)

/-- What a return does with its entry at hand. -/
def poppedReturn (s : State) : State := retired (addClock 1 { s with p := { popReturn s.p with pc := topReturn s.p } })

theorem poppedReturn_jumped {s : State} {r : Word} {rest : List Word} (h : s.p.rstack = r :: rest) :
    Jumped 1 r (fun _ => true) (returned rest s) (poppedReturn s) := by
  have hj := jumped_of (w := 1) (target := r) (keep := fun _ => true) (x := returned rest s) (a := (returned rest s).p.lr0)
    (b := (returned rest s).p.lr1) (by cases (returned rest s).p.lr0 <;> rfl) (by cases (returned rest s).p.lr1 <;> rfl)
  have htop : topReturn s.p = r := by rw [topReturn, h]; rfl
  rw [poppedReturn, popReturn_eq, htop, h, addClock_eq]
  rw [addClock_eq] at hj
  exact hj

theorem refillHeld_of_refilled {s : State} (h : Refilled s) : refillHeld s = false := by
  refine h.elim (fun hle => ?_) id
  simp [refillHeld, refillSlot, Config.returnOnChip, hle]

theorem refillLost_of_short {s : State} {r : Word} {rest : List Word} (hstack : s.p.rstack = r :: rest)
    (h : rest.length < 8 ∨ refillLost s = false) : refillLost s = false := by
  refine h.elim (fun hlt => ?_) id
  have : s.p.rstack.length ≤ 8 := by rw [hstack]; exact hlt
  simp [refillLost, refillSlot, Config.returnOnChip, this]

theorem ret_goes {s : State} {r : Word} {rest : List Word} (hstack : s.p.rstack = r :: rest) (hrefilled : Refilled s) (h : Ready 1 [] [] s) :
    exec .ret s = .next (refillReturn poppedReturn s) := by
  have hempty : failIf (decide (s.p.rstack = [])) 0x06 = .ok := if_neg (by rw [hstack]; simp)
  have hissue := h.passes (f := { Form.plain (wordOf (encode .ret)) 1 with back := fun _ => 0 })
    (check := fun s => (failIf (decide (s.p.rstack = [])) 0x06).andThen (refillVerdict s)) (effect := refillReturn poppedReturn)
    ⟨rfl, rfl⟩ ⟨rfl, rfl⟩ rfl nofun (by rw [hempty]; simp [Verdict.andThen, refillVerdict, refillHeld_of_refilled hrefilled]) nofun nofun
    (Nat.le_add_right 1 _)
  rw [entered_self ⟨rfl, rfl⟩ rfl rfl] at hissue
  exact congrArg Host.Outcome.next hissue

/-- Settles O3. -/
theorem callsPushAndReturnsPop : Obligations.CallsPushAndReturnsPop := by
  refine ⟨fun _ _ => call_goes, fun s r rest hstack hrefilled h => ⟨fun hkept => ?kept, fun hlong hlost => ?lost⟩⟩
  case kept =>
    refine ⟨_, ret_goes hstack hrefilled h, ?_⟩
    rw [refillReturn, refillLost_of_short hstack hkept]
    exact poppedReturn_jumped hstack
  case lost =>
    refine ⟨_, ret_goes hstack hrefilled h, ?_⟩
    rw [refillReturn, hlost]
    exact endLaunch_ended _ _ _ _

/-! ### Branches of the whole split (R199, R200) -/

/-- An instruction that leaves its registers falls through. -/
theorem Ready.falls {w : Nat} {rd wr : List Nat} {s : State} (h : Ready w rd wr s) {f : Form} {check : State → Verdict}
    {effect : State → State} (hi : issue f check effect s = effect (entered f s)) (he : ∀ f, effect (entered f s) = finish w (entered f s)) :
    Done w s (issue f check effect s) :=
  issue_regs_done (r := regsOfState s) h.room hi (by rw [he f, ← entered_eq f h.room]) ⟨rfl, rfl, rfl, rfl, rfl, rfl, rfl⟩ h.whole

/-- A jump that leaves its registers goes to its target. -/
theorem Ready.jumps {w : Nat} {rd wr : List Nat} {s : State} (h : Ready w rd wr s) {f : Form} {check : State → Verdict}
    {effect : State → State} {target : Word} (hi : issue f check effect s = effect (entered f s))
    (he : ∀ f, effect (entered f s) = jump w target (entered f s)) (hu : Unrotated target s) : Goes w target s (issue f check effect s) :=
  jump_of_ready (r := regsOfState s) h hi (fun f => by rw [he f, ← entered_eq f h.room]) ⟨rfl, rfl, rfl, rfl, rfl, rfl, rfl⟩ hu

/-- A branch of the whole split on a condition that the entry of a region leaves as it is. -/
theorem branchWhole_follows {rd wr : List Nat} {s : State} (h : Ready 1 rd wr s) {f : Form} {off : BitVec 17} {taken : State → Bool}
    (hkind : f.turn = false ∧ f.irrevocable = false) (hpriv : f.privileged = false ∧ f.barred = false) (hbad : f.bad = none)
    (hweight : f.weight = 1) (haddrs : f.addrs = []) (hsrcs : ∀ e ∈ f.srcs, regState s e.1 = .full) (hdsts : f.dsts = [])
    (hsame : ∀ f, taken (entered f s) = taken s) :
    (taken s = true → Unrotated (label s off) s → Goes 1 (label s off) s (branchWhole f off taken s)) ∧
      (taken s = false → Done 1 s (branchWhole f off taken s)) := by
  have hi := fun effect => h.passes (f := { f with back := fun s => edgesUnless (taken s && decide (wordTarget s.p.pc off ≠ s.p.pc + 4)) s })
    (check := noCheck) (effect := effect) hkind hpriv hbad (by simp [haddrs]) rfl hsrcs (by simp [hdsts])
    (by rw [Form.full, hweight]; exact weight_edgesUnless 1 _ s)
  refine ⟨fun ht hu => h.jumps (hi _) (fun f => ?_) hu, fun ht => h.falls (hi _) fun f => ?_⟩
  · rw [hsame f, ht, if_pos rfl, pc_entered f h.room]; rfl
  · rw [hsame f, ht, if_neg Bool.false_ne_true]

theorem scalarBranch_follows {mk : OpBC → Instr} {taken : Word → Bool} {o : OpBC} {s : State}
    (harm : ∀ s, exec (mk o) s = .next (branchWhole { Form.plain (wordOf (encode (mk o))) 1 with srcs := [(codeS o.s.toNat, false)] } o.off
      (fun s => taken (getS s o.s.toNat)) s)) (h : Ready 1 [codeS o.s.toNat] [] s) :
    (taken (getS s o.s.toNat) = true → Unrotated (label s o.off) s → ∃ t, exec (mk o) s = .next t ∧ Goes 1 (label s o.off) s t) ∧
      (taken (getS s o.s.toNat) = false → ∃ t, exec (mk o) s = .next t ∧ Done 1 s t) := by
  obtain ⟨hgoes, hdone⟩ := branchWhole_follows h
    (f := { Form.plain (wordOf (encode (mk o))) 1 with srcs := [(codeS o.s.toNat, false)] }) (off := o.off)
    (taken := fun s => taken (getS s o.s.toNat)) ⟨rfl, rfl⟩ ⟨rfl, rfl⟩ rfl rfl rfl (by simpa using h.sources) rfl
    fun f => by rw [getS_entered f h.room]
  exact ⟨fun ht hu => ⟨_, harm s, hgoes ht hu⟩, fun ht => ⟨_, harm s, hdone ht⟩⟩

/-- A branch on a predicate reads its bits in the active lanes, which the entry of a region leaves as they are. -/
theorem predicateBranch_follows {mk : OpBC → Instr} {taken : State → Bool} {o : OpBC} {s : State} (hp : o.s.toNat < 16)
    (harm : exec (mk o) s = .next (branchWhole (predForm (wordOf (encode (mk o))) o s) o.off taken s)) (h : Ready 1 [] [] s)
    (hsame : ∀ f, taken (entered f s) = taken s) :
    (taken s = true → Unrotated (label s o.off) s → ∃ t, exec (mk o) s = .next t ∧ Goes 1 (label s o.off) s t) ∧
      (taken s = false → ∃ t, exec (mk o) s = .next t ∧ Done 1 s t) := by
  obtain ⟨hgoes, hdone⟩ := branchWhole_follows h (f := predForm (wordOf (encode (mk o))) o s) (off := o.off) (taken := taken)
    ⟨rfl, rfl⟩ ⟨rfl, rfl⟩ (if_pos hp) rfl rfl nofun rfl hsame
  exact ⟨fun ht hu => ⟨_, harm, hgoes ht hu⟩, fun ht => ⟨_, harm, hdone ht⟩⟩

/-! ### Branches by lane (R198, R201) -/

/-- Lanes that agree on a target jump there together. -/
theorem goLanes_branch {s : State} {act : List Nat} {g : Nat → Word} {t : Word} (ha : act ≠ [])
    (hs : ∀ i ∈ act, i ∈ lanesOf s.p.members) (hg : ∀ i ∈ act, g i = t) :
    goLanes true (act.map fun i => (i, g i)) s = jump 1 t s := by
  rw [goLanes_whole ha hs hg, Bool.true_and]
  simp only [goWhole, jump, decide_eq_true_eq, if_true]

theorem vbr_follows {o : OpBC} {s : State} (hp : o.s.toNat < 16) (h : Ready 1 [] [] s) :
    ((∀ i ∈ activeLanes s, getP s o.s.toNat i = false) → ∃ t, exec (.vbr o) s = .next t ∧ Done 1 s t) ∧
    (activeLanes s ≠ [] → (∀ i ∈ activeLanes s, getP s o.s.toNat i = true) → Unrotated (label s o.off) s →
      ∃ t, exec (.vbr o) s = .next t ∧ Goes 1 (label s o.off) s t) := by
  have hi := fun effect => h.passes (f := { predForm (wordOf (encode (.vbr o))) o s with
      back := edgesUnless (!(activeLanes s).isEmpty && (activeLanes s).all fun i =>
        getP s o.s.toNat i && decide (wordTarget s.p.pc o.off ≠ s.p.pc + 4)) })
    (check := noCheck) (effect := effect) ⟨rfl, rfl⟩ ⟨rfl, rfl⟩ (if_pos hp) nofun rfl nofun nofun (weight_edgesUnless 1 _ s)
  have hmem : ∀ f, ∀ i ∈ activeLanes s, i ∈ lanesOf (entered f s).p.members := fun f i hi => by
    rw [members_entered f h.room]; exact mem_members_of_active hi
  refine ⟨fun hnone => ⟨_, rfl, h.falls (hi _) fun f => ?_⟩, fun hne hall hu => ⟨_, rfl, h.jumps (hi _) (fun f => ?_) hu⟩⟩
  · simp only [activeLanes_entered f h.room, getP_entered f h.room, pc_entered f h.room]
    rcases List.eq_nil_or_concat (activeLanes s) with hnil | ⟨l, a, hcons⟩
    · rw [hnil]; rfl
    · rw [goLanes_branch (t := s.p.pc + 4) (by simp [hcons]) (hmem f) fun i hi => if_neg (by simp [hnone i hi]), jump,
        if_pos (by rw [pc_entered f h.room])]
  · simp only [activeLanes_entered f h.room, getP_entered f h.room, pc_entered f h.room]
    exact goLanes_branch hne (hmem f) fun i hi => if_pos (hall i hi)

/-- An instruction that writes no register and opens no region leaves everything but its tracked reads. -/
theorem entered_reading {f : Form} {s : State} (hf : f.irrevocable = false ∧ f.opens s = false) (hw : f.dsts = []) :
    ∃ li w, entered f s = { s with p := { s.p with liveIn := li, written := w } } := by
  have henter : enterRegion f s = s := by simp [enterRegion, opensHere, hf.1, hf.2, hw, writesLiveIn]
  rw [entered, henter]
  exact track_eq _ _ s

/-- A return whose lanes agree on a target: its stack is popped as it goes (R198). -/
theorem goWhole_return_jumped {target : Word} {x : State} (h : Unrotated target x) :
    Jumped 1 target (fun _ => true) x (goWhole false target x) := by
  have hj := transfer_jumped h
  simp only [transfer, decide_eq_true_eq] at hj
  exact hj

/-- The split with its return stack popped, as registers. -/
def Regs.returned (rest : List Word) (r : Regs) : Regs :=
  { r with
    rstack := rest
    lr0 := r.lr0.filter fun l => decide (l.depth ≤ rest.length)
    lr1 := r.lr1.filter fun l => decide (l.depth ≤ rest.length) }

theorem returned_eq (rest : List Word) (s : State) : returned rest s = putRegs ((regsOfState s).returned rest) s := rfl

/-- How `ret va` is issued, and what it does. -/
def retVaForm (o : OpV) (s : State) : Form :=
  { Form.plain (wordOf (encode (.retVa o))) 1 with
    srcs := if s.p.rstack = [] then [] else srcV o.a.toNat 1 false (activeLanes s)
    reads := maskReads s
    back := edgesUnless (!(activeLanes s).isEmpty) }

def retVaCheck (s : State) : Verdict :=
  (failIf (decide (s.p.rstack = [])) 0x06).andThen (if (activeLanes s).isEmpty then .ok else refillVerdict s)

def retVaEffect (o : OpV) (s : State) : State :=
  let act := (activeLanes s).map fun i =>
    (i, topReturn s.p + 4 * sext64 (BitVec.ofNat 32 (elemOf s (Ty.i 32) o.a.toNat i)))
  if act.isEmpty then finish 1 s
  else refillReturn (fun s => goLanes false act { s with p := popReturn s.p }) s

theorem exec_retVa (o : OpV) (s : State) : exec (.retVa o) s = .next (issue (retVaForm o s) retVaCheck (retVaEffect o) s) := rfl

/-- `ret va` of a split with a return stack passes its checks where its sources are full and its entry has come back. -/
theorem retVa_passes {o : OpV} {s : State} {r : Word} {rest : List Word} {rd : List Nat} (hstack : s.p.rstack = r :: rest)
    (hrefill : activeLanes s ≠ [] → refillHeld s = false) (h : Ready 1 rd [] s)
    (hsrcs : ∀ e ∈ srcV o.a.toNat 1 false (activeLanes s), regState s e.1 = .full) :
    issue (retVaForm o s) retVaCheck (retVaEffect o) s = retVaEffect o (entered (retVaForm o s) s) := by
  have hcheck : retVaCheck s = .ok := by
    rw [retVaCheck, failIf, if_neg (by simp [hstack])]
    rcases List.eq_nil_or_concat (activeLanes s) with hnil | ⟨l, a, hcons⟩
    · simp [Verdict.andThen, hnil]
    · simp [Verdict.andThen, refillVerdict, hrefill (by simp [hcons])]
  refine h.passes ⟨rfl, rfl⟩ ⟨rfl, rfl⟩ rfl (List.forall_mem_nil _) hcheck (fun e he => hsrcs e ?_) (List.forall_mem_nil _)
    (weight_edgesUnless 1 _ s)
  rwa [retVaForm, if_neg (by simp [hstack])] at he

theorem retVa_falls {o : OpV} {s : State} {r : Word} {rest : List Word} (hstack : s.p.rstack = r :: rest) (hnone : activeLanes s = [])
    (h : Ready 1 [] [] s) : ∃ t, exec (.retVa o) s = .next t ∧ Done 1 s t := by
  refine ⟨_, exec_retVa o s, h.falls (retVa_passes hstack (absurd hnone) h (by simp [hnone, srcV])) fun f => ?_⟩
  rw [retVaEffect, activeLanes_entered f h.room, hnone]
  rfl

theorem retVa_goes {o : OpV} {s : State} {r : Word} {rest : List Word} {k : BitVec 32} (hstack : s.p.rstack = r :: rest)
    (hne : activeLanes s ≠ []) (hk : ∀ i ∈ activeLanes s, elemOf s (Ty.i 32) o.a.toNat i = k.toNat) (hrefilled : Refilled s)
    (h : Ready 1 ((srcV o.a.toNat 1 false (activeLanes s)).map (·.1)) [] s) (hu : Unrotated (r + 4 * k.signExtend 64) s) :
    ∃ t, exec (.retVa o) s = .next t ∧
      (rest.length < 8 ∨ refillLost s = false → Jumped 1 (r + 4 * k.signExtend 64) (fun _ => true) (returned rest s) t) := by
  refine ⟨_, exec_retVa o s, fun hkept => ?_⟩
  rw [returned_eq, retVa_passes hstack (fun _ => refillHeld_of_refilled hrefilled) h
    fun e he => h.sources _ (List.mem_map_of_mem he)]
  refine Jumped.of_entered (f := retVaForm o s) h.room ?_
  obtain ⟨li, w, hreading⟩ := entered_reading (f := retVaForm o s) (s := s) ⟨rfl, rfl⟩ rfl
  have hlost : refillLost (entered (retVaForm o s) s) = false := by
    rw [hreading]
    exact refillLost_of_short hstack hkept
  have htop : topReturn (entered (retVaForm o s) s).p = r := by rw [topReturn, rstack_entered _ h.room, hstack]; rfl
  have hpop : ({ entered (retVaForm o s) s with p := popReturn (entered (retVaForm o s) s).p } : State)
      = putRegs ((regsOfState s).returned rest) (entered (retVaForm o s) s) := by
    rw [hreading, popReturn_eq]
    simp only [hstack, List.drop_succ_cons, List.drop_zero]
    rfl
  have hmem : ∀ i ∈ activeLanes s, i ∈ lanesOf (putRegs ((regsOfState s).returned rest) (entered (retVaForm o s) s)).p.members := by
    intro i hi
    rw [show (putRegs _ (entered (retVaForm o s) s)).p.members = s.p.members from members_entered _ h.room]
    exact mem_members_of_active hi
  rw [retVaEffect, activeLanes_entered _ h.room, htop]
  simp only [elemOf_entered _ h.room]
  rw [if_neg (by simpa using hne), refillReturn, hlost, if_neg Bool.false_ne_true, hpop,
    goLanes_whole (t := r + 4 * k.signExtend 64) hne hmem fun i hi => by rw [hk i hi, BitVec.ofNat_toNat, BitVec.setWidth_eq]; rfl]
  exact goWhole_return_jumped (hu.of_entered _ h.room)

/-- Settles O4. -/
theorem branchesFollowTheirCondition : Obligations.BranchesFollowTheirCondition := by
  refine ⟨fun e he o s h => ?scalar, fun e he o s hp h => ?predicate, fun o s hp h => vbr_follows hp h,
    fun o s r rest hstack => ⟨fun hnone h => retVa_falls hstack hnone h,
      fun k hne hk hrefilled h hu => retVa_goes hstack hne hk hrefilled h hu⟩⟩
  case scalar =>
    simp only [scalarBranch, List.mem_cons, List.not_mem_nil, or_false] at he
    rcases he with rfl | rfl
    · simpa using scalarBranch_follows (mk := .bz) (taken := fun x => decide (x = 0)) (fun _ => rfl) h
    · simpa using scalarBranch_follows (mk := .bnz) (taken := fun x => decide (x ≠ 0)) (fun _ => rfl) h
  case predicate =>
    simp only [predicateBranch, List.mem_cons, List.not_mem_nil, or_false] at he
    rcases he with rfl | rfl
    · simpa using predicateBranch_follows (mk := .bany) (taken := fun s => (activeLanes s).any fun i => getP s o.s.toNat i) hp rfl h
        fun f => by simp only [activeLanes_entered f h.room, getP_entered f h.room]
    · simpa using predicateBranch_follows (mk := .ball) (taken := fun s => (activeLanes s).all fun i => getP s o.s.toNat i) hp rfl h
        fun f => by simp only [activeLanes_entered f h.room, getP_entered f h.room]

/-! ### Loops (R203, R204) -/

/-- A label two words or more ahead is not the next instruction. -/
theorem label_ne_next {s : State} {off : BitVec 17} (h : 2 ≤ off.toInt) : label s off ≠ s.p.pc + 4 := by
  intro he
  have h4 : (4 * off.signExtend 64 : Word) = 4 := add_left_cancel (a := s.p.pc) he
  have hmsb : off.msb = false := by rw [BitVec.msb_eq_toInt]; simp; omega
  rw [BitVec.signExtend_eq_setWidth_of_msb_false hmsb] at h4
  rw [BitVec.toInt_eq_toNat_of_msb hmsb] at h
  bv_omega

/-- A counter of the loops given a value, among the registers. -/
def Regs.setLc (one : Bool) (v : BitVec 32) (r : Regs) : Regs := if one then { r with lc1 := v } else { r with lc0 := v }

/-- A loop record and its counter, among the registers. -/
def Regs.setLoop (one : Bool) (x : LoopRec) (r : Regs) : Regs :=
  if one then { r with lr1 := some x, lrLater := true } else { r with lr0 := some x, lrLater := false }

theorem setLc_putRegs (one : Bool) (v : BitVec 32) (r : Regs) (x : State) : setLc one v (putRegs r x) = putRegs (r.setLc one v) x := by
  cases one <;> rfl

theorem setLoop_putRegs (one : Bool) (y : LoopRec) (r : Regs) (x : State) :
    setLoop one y (putRegs r x) = putRegs (r.setLoop one y) x := by
  cases one <;> rfl

theorem loopCounter_eq (one : Bool) (v : BitVec 32) (s : State) : loopCounter one v s = putRegs ((regsOfState s).setLc one v) s := by
  cases one <;> rfl

theorem loopBegun_eq (one : Bool) (y : LoopRec) (v : BitVec 32) (s : State) :
    loopBegun one y v s = putRegs (((regsOfState s).setLc one v).setLoop one y) s := by
  cases one <;> rfl

theorem codeLc_bit (one : Bool) : codeLc (bit one) = codeLc (if one then 1 else 0) := by cases one <;> rfl

theorem loopNested_ok {one : Bool} {stop : Word} {s : State} (h : Rules.mayStart one stop s) : loopNested one stop s = .ok := by
  obtain ⟨hidle, hinside⟩ := h
  refine if_neg ?_
  cases one
  all_goals
    simp only [loopRec, Bool.false_eq_true, if_true, if_false, Bool.not_true, Bool.not_false] at *
    rw [hidle]
    split
    · simp
    · next m hm =>
      obtain ⟨hstop, hdepth⟩ := hinside m hm
      simp [Nat.not_lt.mpr hstop, hdepth]

/-- What `loop` does once it has passed its checks. -/
def loopEffect (one : Bool) (o : OpBC) (s : State) : State :=
  let c : BitVec 32 := (getS s o.s.toNat).setWidth 32
  if c = 0 then jump 1 (wordTarget s.p.pc o.off) (setLc one 0 s)
  else finish 1 (setLoop one { start := s.p.pc + 4, stop := wordTarget s.p.pc o.off, depth := s.p.rstack.length } (setLc one c s))

/-- How `loop` is issued. -/
def loopForm (one : Bool) (word : BitVec 32) (o : OpBC) (s : State) : Form :=
  { Form.plain word 1 with
    bad := if 2 ≤ o.off.toInt then none else some 0x03
    srcs := [(codeS o.s.toNat, false)]
    dsts := [codeLc (bit one)]
    back := edgesUnless (decide ((getS s o.s.toNat).setWidth 32 = (0 : BitVec 32))) }

theorem loopStart_passes {one : Bool} {word : BitVec 32} {o : OpBC} {s : State} (ho : 2 ≤ o.off.toInt)
    (hstart : Rules.mayStart one (label s o.off) s) (h : Ready 1 [codeS o.s.toNat] [codeLc (if one then 1 else 0)] s) :
    issue (loopForm one word o s) (fun s => loopNested one (wordTarget s.p.pc o.off) s) (loopEffect one o) s =
      loopEffect one o (entered (loopForm one word o s) s) :=
  h.passes ⟨rfl, rfl⟩ ⟨rfl, rfl⟩ (if_pos ho) (List.forall_mem_nil _) (loopNested_ok hstart) (by simpa [loopForm] using h.sources)
    (by simp [loopForm, codeLc_bit]) (weight_edgesUnless 1 _ s)

/-- `loop` with a count of 0 skips its body. -/
theorem loopStart_skips {one : Bool} {word : BitVec 32} {o : OpBC} {s : State} (ho : 2 ≤ o.off.toInt) (hstart : Rules.mayStart one (label s o.off) s)
    (h : Ready 1 [codeS o.s.toNat] [codeLc (if one then 1 else 0)] s) (hc : (getS s o.s.toNat).setWidth 32 = (0 : BitVec 32))
    (hu : Unrotated (label s o.off) s) :
    Goes 1 (label s o.off) (loopCounter one 0 s) (loopStart one word o s) := by
  rw [loopCounter_eq]
  refine issue_jump_goes h.room (loopStart_passes ho hstart h) ?_ (fun he => absurd he (label_ne_next ho)) hu
  change loopEffect one o (entered (loopForm one word o s) s) = _
  rw [loopEffect, getS_entered _ h.room, pc_entered _ h.room, if_pos hc]
  exact congrArg (jump 1 _) (congrArg (setLc one 0) (entered_eq _ h.room) |>.trans (setLc_putRegs ..))

/-- `loop` with a count starts its record. -/
theorem loopStart_starts {one : Bool} {word : BitVec 32} {o : OpBC} {s : State} (ho : 2 ≤ o.off.toInt)
    (hstart : Rules.mayStart one (label s o.off) s) (h : Ready 1 [codeS o.s.toNat] [codeLc (if one then 1 else 0)] s)
    (hc : (getS s o.s.toNat).setWidth 32 ≠ (0 : BitVec 32)) {u : State}
    (hu : u = loopBegun one { start := s.p.pc + 4, stop := label s o.off, depth := s.p.rstack.length } ((getS s o.s.toNat).setWidth 32) s)
    (hw : (edges u).repeats = true → NoRotation s) : Done 1 u (loopStart one word o s) := by
  subst hu
  rw [loopBegun_eq] at hw ⊢
  refine issue_loops_done h.room (loopStart_passes ho hstart h) ?_ hw
  change loopEffect one o (entered (loopForm one word o s) s) = _
  rw [loopEffect, getS_entered _ h.room, pc_entered _ h.room, rstack_entered _ h.room, if_neg hc]
  conv_lhs => rw [entered_eq _ h.room]
  rw [setLc_putRegs, setLoop_putRegs]
  rfl

/-- `loop.set` is issued with the back edges of the counter that it writes. -/
theorem loopSet_done {one : Bool} {word : BitVec 32} {o : OpS6} {s : State}
    (h : Ready 1 [codeS o.s.toNat] [codeLc (if one then 1 else 0)] s)
    (hclock : overflows (fullWeight 1 (loopCounter one ((getS s o.s.toNat).setWidth 32) s)) s = false)
    (hw : (edges (loopCounter one ((getS s o.s.toNat).setWidth 32) s)).repeats = true → NoRotation s) :
    Done 1 (loopCounter one ((getS s o.s.toNat).setWidth 32) s) (loopSet one word o s) := by
  rw [loopCounter_eq] at hw ⊢
  refine issue_loops_done h.room (h.passes_of_clock ⟨rfl, rfl⟩ ⟨rfl, rfl⟩ rfl nofun rfl (by simpa using h.sources) (by simp [codeLc_bit])
    ?_) ?_ hw
  · cases one <;> exact hclock
  · rw [getS_entered _ h.room]
    exact congrArg (finish 1) (congrArg (setLc one _) (entered_eq _ h.room) |>.trans (setLc_putRegs ..))

theorem loopGet_done {one : Bool} {word : BitVec 32} {o : OpS6} {s : State} (h : Ready 1 [] [codeS o.s.toNat] s) :
    Done 1 (setS o.s.toNat ((if one then s.p.lc1 else s.p.lc0).setWidth 64) s) (loopGet one word o s) := by
  refine issue_regs_done (r := (regsOfState s).setS o.s.toNat ((if one then s.p.lc1 else s.p.lc0).setWidth 64)) h.room
    (h.passes ⟨rfl, rfl⟩ ⟨rfl, rfl⟩ rfl nofun rfl nofun (fun _ hc => hc) (Nat.le_refl _)) ?_ ⟨rfl, rfl, rfl, rfl, rfl, rfl, rfl⟩ h.whole
  rw [← setS_entered _ h.room, getLc, (entered_split _ h.room).lc0, (entered_split _ h.room).lc1]

/-- Settles O5. -/
theorem loopsStartSetAndReadTheirCounter : Obligations.LoopsStartSetAndReadTheirCounter := by
  intro e he
  have harms : (∀ o s, ∃ w, exec (e.2.1 o) s = .next (loopStart e.1 w o s)) ∧ (∀ o s, ∃ w, exec (e.2.2.1 o) s = .next (loopSet e.1 w o s)) ∧
      ∀ o s, ∃ w, exec (e.2.2.2 o) s = .next (loopGet e.1 w o s) := by
    simp only [loopForms, List.mem_cons, List.not_mem_nil, or_false] at he
    rcases he with rfl | rfl
    all_goals exact ⟨fun _ _ => ⟨_, rfl⟩, fun _ _ => ⟨_, rfl⟩, fun _ _ => ⟨_, rfl⟩⟩
  obtain ⟨hstart, hset, hget⟩ := harms
  refine ⟨fun o s ho hmay h => ⟨fun hc hw => ?starts, fun hc hu => ?skips⟩, fun o s h hclock hw => ?set, fun o s h => ?get⟩
  case starts =>
    obtain ⟨w, hw'⟩ := hstart o s
    exact ⟨_, hw', loopStart_starts ho hmay h hc rfl hw⟩
  case skips =>
    obtain ⟨w, hw'⟩ := hstart o s
    exact ⟨_, hw', loopStart_skips ho hmay h hc hu⟩
  case set =>
    obtain ⟨w, hw'⟩ := hset o s
    exact ⟨_, hw', loopSet_done h hclock hw⟩
  case get =>
    obtain ⟨w, hw'⟩ := hget o s
    exact ⟨_, hw', loopGet_done h⟩

/-! ### Regions, yield and nop (R207, R208) -/

theorem Agrees.room {t u : State} (h : Agrees t u) (room : NoSpill u) : NoSpill t := by
  rcases h with ⟨h, hb⟩ | ⟨h, hb⟩
  · exact room.congr h hb
  · exact room.commit.congr h (by rw [hb, commitRegion_buffer room])

theorem Agrees.commit {t u : State} (h : Agrees t u) (room : NoSpill u) : (commitRegion t).besides = (commitRegion u).besides := by
  rcases h with ⟨hb, hf⟩ | ⟨hb, hf⟩
  · exact commitRegion_besides hb hf room
  · exact (commitRegion_empty hf (Agrees.room (.inr ⟨hb, hf⟩) room)).trans hb

/-- A region that opens after an instruction leaves it done. -/
theorem openRegion_done {w : Nat} {u t : State} (room : NoSpill u) (h : Done w u t) : Done w u (openRegion t) := by
  have hroom := h.rest.room room
  have hs := openRegion_split hroom
  obtain ⟨hlc0, hlc1, hlr0, hlr1⟩ := h.loops
  exact ⟨hs.pc.trans h.pc, ⟨hs.lc0.trans hlc0, hs.lc1.trans hlc1, hs.lr0.trans hlr0, hs.lr1.trans hlr1⟩, hs.clock.trans h.clock,
    hs.wait.trans h.wait, .inr ⟨(openRegion_besides t).trans (h.rest.commit room), openRegion_buffer hroom⟩,
    fun a => by rw [openRegion_mem hroom]; exact h.memory a⟩

/-- A state is another one but for its pc, loops, clock and wait, with no region newly open. -/
structure Bare (y x : State) : Prop where
  besides : y.besides = x.besides
  buffer : y.p.buffer = x.p.buffer
  serial : y.g.serial = x.g.serial
  fresh : y.p.fresh = false

theorem retired_bare (w : Nat) (x : State) : Bare (retired (addClock w x)) x := by
  obtain ⟨Q, hy, hQ⟩ := retired_eq (addClock w x)
  rw [addClock_eq] at hQ
  rw [hy, addClock_eq]
  exact ⟨congrArg (fun R => ({ x.besides with parts := R } : State)) hQ, rfl, rfl, rfl⟩

theorem Bare.edges {y x : State} (h : Bare y x) (n : Nat) (next : Word) :
    Bare (addClock n { y with p := (backEdges y.p next).split }) x := by
  obtain ⟨m, i, j, k, l, hs⟩ := backEdges_split y.p next
  rw [hs, addClock_eq]
  exact ⟨h.besides, h.buffer, h.serial, h.fresh⟩

/-- An instruction that falls through opens a region after it, or leaves none newly open and the serial as it was; it counts one event. -/
theorem finish_cases {w : Nat} {x : State} (h : (edges x).repeats = true → NoRotation x) (room : NoSpill x) :
    ∃ y, Bare y x ∧ y.parts = (retired (addClock w x)).parts ∧ (finish w x = y ∨ finish w x = openRegion y) := by
  have hy := retired_bare w x
  have hrepeats : (backEdges (retired (addClock w x)).p ((retired (addClock w x)).p.pc + 4)).repeats = (edges x).repeats := by
    obtain ⟨Q, hr, -⟩ := retired_eq (addClock w x)
    rw [hr, addClock_eq]
    exact (edges_congr (y := x) (by constructor <;> rfl)).repeats
  rw [finish, fallThrough]
  dsimp only
  split
  · refine ⟨_, ?_, ?_, .inl rfl⟩
    rotate_left
    · rfl
    exact ⟨hy.besides, hy.buffer, hy.serial, hy.fresh⟩
  · have hz := hy.edges (backEdges (retired (addClock w x)).p ((retired (addClock w x)).p.pc + 4)).count
      ((retired (addClock w x)).p.pc + 4)
    set z := addClock (backEdges (retired (addClock w x)).p ((retired (addClock w x)).p.pc + 4)).count _ with hzdef
    have hparts : z.parts = (retired (addClock w x)).parts := by rw [hzdef, addClock_eq]
    have hunrotated : ∀ v, Agrees v x → (if (backEdges (retired (addClock w x)).p ((retired (addClock w x)).p.pc + 4)).repeats
        then rotate v else v) = v := fun v hv => by
      split
      · next hr => exact rotate_none (noRotation_agrees room hv (h (hrepeats ▸ hr)))
      · rfl
    have hzroom : NoSpill z := room.congr hz.besides hz.buffer
    by_cases hopens : ((backEdges (retired (addClock w x)).p ((retired (addClock w x)).p.pc + 4)).boundary &&
        z.p.entry.isSome) = true
    · rw [if_pos hopens]
      exact ⟨z, hz, hparts, .inr (hunrotated _ (.inr ⟨(openRegion_besides z).trans (commitRegion_besides hz.besides hz.buffer room),
        openRegion_buffer hzroom⟩))⟩
    · rw [if_neg hopens]
      obtain ⟨li, wr, ht⟩ := track_eq (backEdges (retired (addClock w x)).p ((retired (addClock w x)).p.pc + 4)).codes
        (backEdges (retired (addClock w x)).p ((retired (addClock w x)).p.pc + 4)).codes z
      rw [ht]
      have hbare : Bare { z with p := { z.p with liveIn := li, written := wr } } x := ⟨hz.besides, hz.buffer, hz.serial, hz.fresh⟩
      exact ⟨_, hbare, hparts, .inl (hunrotated _ (.inl ⟨hbare.besides, hbare.buffer⟩))⟩

/-- A region that opens outside a handler: the serial advances, and the entry is at the pc (R39). -/
theorem openRegion_opens {y : State} (room : NoSpill y) (hp : isPriv y = false) (hm : y.p.members ≠ 0) :
    (openRegion y).p.fresh = true ∧ (openRegion y).p.serial = y.g.serial + 1 ∧ (openRegion y).g.serial = y.g.serial + 1 ∧
      ∃ e, (openRegion y).p.entry = some e ∧ e.pc = (openRegion y).p.pc := by
  obtain ⟨k, q, hg⟩ := commitRegion_g room
  have hserial : (commitRegion y).g.serial = y.g.serial := by rw [hg]
  have hs := commitRegion_split room
  have hopens : ((commitRegion y).p.status.getLsbD 0 || (commitRegion y).p.members == 0) = false := by
    rw [hs.status, hs.members]
    rw [isPriv] at hp
    rw [hp, beq_eq_false_iff_ne.mpr hm, Bool.or_false]
  rw [openRegion, openOn, hopens]
  exact ⟨rfl, congrArg (· + 1) hserial, congrArg (· + 1) hserial, _, rfl, rfl⟩

theorem region_done {s : State} (h : Ready 1 [] [] s) : ∃ t, exec .region s = .next t ∧ Done 1 s t ∧
    (isPriv s = false → s.p.members ≠ 0 → t.besides = (commitRegion s).besides ∧ t.p.buffer = [] ∧ t.p.fresh = true ∧
      t.p.serial = s.g.serial + 1 ∧ t.g.serial = s.g.serial + 1 ∧ ∃ e, t.p.entry = some e ∧ e.pc = t.p.pc) := by
  have hi := h.passes (f := Form.plain (wordOf (encode .region)) 1) (check := noCheck)
    (effect := fun s => if (finish 1 s).p.fresh then finish 1 s else openRegion (finish 1 s)) ⟨rfl, rfl⟩ ⟨rfl, rfl⟩ rfl nofun rfl nofun
    nofun (Nat.le_refl _)
  rw [entered_self ⟨rfl, rfl⟩ rfl rfl] at hi
  have hdone := finish_done 1 h.room h.whole
  obtain ⟨y, hy, -, hf⟩ := finish_cases (w := 1) h.whole h.room
  have hyroom : NoSpill y := h.room.congr hy.besides hy.buffer
  have hp : y.p.besides = s.p.besides := congrArg State.p hy.besides
  refine ⟨_, congrArg Host.Outcome.next hi, ?_, fun hpriv hm => ?_⟩
  · split
    · exact hdone
    · exact openRegion_done h.room hdone
  · have hopen := openRegion_opens hyroom (by rw [isPriv, Split.besides_status hp]; exact hpriv) (by rwa [Split.besides_members hp])
    have heq : (if (finish 1 s).p.fresh then finish 1 s else openRegion (finish 1 s)) = openRegion y := by
      rcases hf with hf | hf
      · rw [hf, hy.fresh, if_neg Bool.false_ne_true]
      · rw [hf, hopen.1, if_pos rfl]
    rw [heq, ← hy.serial]
    exact ⟨(openRegion_besides y).trans (commitRegion_besides hy.besides hy.buffer h.room), openRegion_buffer hyroom, hopen⟩

theorem finishAlone_buffer {w : Nat} {x : State} (room : NoSpill x) (hx : x.p.buffer = [])
    (h : (edges x).repeats = true → NoRotation x) : (finishAlone w x).p.buffer = [] := by
  have hb := finish_buffer (w := w) room hx h
  have hroom := (finish_done w room h).room room hx hb
  rw [finishAlone, openClosed]
  split
  · exact hb
  · exact openRegion_buffer hroom

/-- The form of `yield`, whose region commits before it. -/
def yieldForm : Form := { Form.plain (wordOf (encode .yield)) 1 with barred := true, irrevocable := true }

/-- What `yield` does after its region has committed (R208). -/
def yieldEffect (s : State) : State := finishAlone 1 { s with p := { s.p with yielded := s.cycle + Config.yieldCycles } }

theorem yieldEffect_entered {s : State} (room : NoSpill s) :
    yieldEffect (entered yieldForm s) = finishAlone 1 (putRegs { regsOfState s with yielded := s.cycle + 64 } (entered yieldForm s)) := by
  have hcycle : (entered yieldForm s).cycle = s.cycle := by
    rw [entered_alone room rfl]
    exact commitRegion_cycle room
  rw [← hcycle, ← regs_entered yieldForm room]
  rfl

theorem yield_done {s : State} (hp : isPriv s = false) (h : ReadyAlone 1 [] [] s) :
    ∃ t, exec .yield s = .next t ∧ Done 1 { s with p := { s.p with yielded := s.cycle + 64 } } t ∧ t.p.buffer = [] := by
  have hi : issue yieldForm noCheck yieldEffect s = yieldEffect (entered yieldForm s) :=
    issue_ok h.undisturbed h.quiet nofun (fun _ => hp) rfl nofun rfl nofun h.clock nofun
  have he := yieldEffect_entered h.room
  have hdone : Done 1 _ (issue yieldForm noCheck yieldEffect s) :=
    issue_alone_done h.room hi rfl he ⟨rfl, rfl, rfl, rfl, rfl, rfl, rfl⟩ h.whole
  refine ⟨_, rfl, hdone, ?_⟩
  have hbuffer : (entered yieldForm s).p.buffer = [] := by
    rw [entered_alone h.room rfl]
    exact commitRegion_buffer h.room
  show (issue yieldForm noCheck yieldEffect s).p.buffer = []
  rw [hi, he]
  exact finishAlone_buffer ((h.room.entered yieldForm).putRegs _) hbuffer
    (whole_of_entered h.room ⟨rfl, rfl, rfl, rfl, rfl, rfl, rfl⟩ h.whole)

/-- Settles O6: a region opens after the instruction whether or not the end of a loop body has opened it already. -/
theorem regionYieldAndNopComplete : Obligations.RegionYieldAndNopComplete :=
  ⟨fun _ h => region_done h, fun _ hp h => yield_done hp h, fun _ h =>
    ⟨_, rfl, h.falls (h.passes ⟨rfl, rfl⟩ ⟨rfl, rfl⟩ rfl nofun rfl nofun nofun (Nat.le_refl _)) fun _ => rfl⟩⟩

end Sys2Proof.Machine
end

section
/-! PROOF. MODE and the special registers (spec/08_encoding_assembly.md R182, R183; spec/09_isa_scalar_control.md R210, R211;
spec/12_isa_engines_system.md R281 to R283). -/

namespace Sys2Proof.Machine

open Sys2Proof.Rules

/-! ### Instructions on registers -/

/-- An instruction of the plain kind whose effect writes registers, whether or not its region is entered anew, is done. -/
theorem Ready.writes {w : Nat} {rd wr : List Nat} {s : State} (h : Ready w rd wr s) {f : Form} {check : State → Verdict}
    {effect : State → State} (r : Regs) (hi : issue f check effect s = effect (entered f s))
    (he : ∀ f, effect (entered f s) = finish w (putRegs r (entered f s))) (hl : SameLoops (putRegs r s).p s.p) :
    Done w (putRegs r s) (issue f check effect s) :=
  issue_regs_done h.room hi (he f) hl h.whole

/-- An irrevocable instruction passes its checks. -/
theorem ReadyAlone.passes {w : Nat} {rd wr : List Nat} {s : State} (h : ReadyAlone w rd wr s) {f : Form} {check : State → Verdict}
    {effect : State → State} (halone : f.turn = false ∧ f.irrevocable = true) (hpriv : f.privileged = true → isPriv s = true)
    (hbarred : f.barred = false) (hbad : f.bad = none) (haddrs : ∀ e ∈ f.addrs, regState s e.1 = .full) (hcheck : check s = .ok)
    (hsrcs : ∀ e ∈ f.srcs, regState s e.1 = .full) (hdsts : ∀ c ∈ f.dsts, c ∈ wr)
    (hweight : f.full s ≤ fullWeight w s) : issue f check effect s = effect (entered f s) := by
  refine issue_ok ?_ h.quiet hpriv ?_ hbad haddrs hcheck hsrcs (overflows_of_le hweight h.clock) fun c hc => h.dests c (hdsts c hc)
  · rw [halone.1, halone.2]
    exact h.undisturbed
  · rw [hbarred]; nofun

/-- An irrevocable instruction that writes registers is done. -/
theorem ReadyAlone.writes {w : Nat} {rd wr : List Nat} {s : State} (h : ReadyAlone w rd wr s) {f : Form} {check : State → Verdict}
    {effect : State → State} (r : Regs) (hi : issue f check effect s = effect (entered f s)) (hf : f.irrevocable = true)
    (he : effect (entered f s) = finishAlone w (putRegs r (entered f s))) (hl : SameLoops (putRegs r s).p s.p) :
    Done w (putRegs r s) (issue f check effect s) :=
  issue_alone_done h.room hi hf he hl h.whole

/-! ### What the entry of a region leaves alone (R39, R41) -/

/-- A split without the bookkeeping of its region. -/
def Split.sansEntry (q : Split) : Split :=
  { q with buffer := [], entry := none, fresh := false, serial := 0, liveIn := [], written := [] }

/-- The device without what the end of a region and the opening of the next change. -/
def State.sansEntry (s : State) : State :=
  { s.sansRelease with p := s.p.sansEntry, g := { s.g with cuff := [], cuffSeq := 0, serial := 0 } }

theorem commitRegion_sansEntry {s : State} (room : NoSpill s) : (commitRegion s).sansEntry = s.sansEntry := by
  have h := commitRegion_release room
  have hsplit := congrArg (fun x : State => x.p.sansEntry) h
  have hgang := congrArg (fun x : State => { x.g with serial := 0 }) h
  exact congrArg (fun x : State => { x with p := x.p.sansEntry, g := { x.g with serial := 0 } }) h

theorem openRegion_sansEntry {s : State} (room : NoSpill s) : (openRegion s).sansEntry = s.sansEntry := by
  rw [← commitRegion_sansEntry room]
  unfold openRegion openOn
  dsimp only
  split <;> rfl

theorem entered_sansEntry (f : Form) {s : State} (room : NoSpill s) : (entered f s).sansEntry = s.sansEntry := by
  obtain ⟨li, wr, ht⟩ := track_eq (f.addrs.map (·.1) ++ f.srcs.map (·.1) ++ f.reads) f.dsts (enterRegion f s)
  have hentered : (entered f s).sansEntry = (enterRegion f s).sansEntry := by
    rw [entered, ht]
    rfl
  rw [hentered, enterRegion]
  split
  · exact commitRegion_sansEntry room
  · split
    · exact openRegion_sansEntry room
    · rfl

/-! ### Fields of MODE (R183, R210) -/

/-- A number with the field of `len` bits from `lo` replaced has the bits of the new value there, its own elsewhere. -/
theorem testBit_replace (m lo len v i : Nat) :
    (m - bits m lo len * 2 ^ lo + v % 2 ^ len * 2 ^ lo).testBit i =
      if lo ≤ i ∧ i < lo + len then v.testBit (i - lo) else m.testBit i := by
  have hm : m = 2 ^ (lo + len) * (m / 2 ^ (lo + len)) + (2 ^ lo * (m / 2 ^ lo % 2 ^ len) + m % 2 ^ lo) := by
    rw [pow_add, ← Nat.div_div_eq_div_mul, Nat.mul_assoc, ← Nat.add_assoc, ← Nat.mul_add, Nat.div_add_mod, Nat.div_add_mod]
  have hlow : m % 2 ^ lo < 2 ^ lo := Nat.mod_lt _ (Nat.two_pow_pos lo)
  have hfield : ∀ f < 2 ^ len, 2 ^ lo * f + m % 2 ^ lo < 2 ^ (lo + len) := fun f hf => by
    rw [pow_add]
    calc 2 ^ lo * f + m % 2 ^ lo < 2 ^ lo * f + 2 ^ lo := by omega
      _ = 2 ^ lo * (f + 1) := by ring
      _ ≤ 2 ^ lo * 2 ^ len := Nat.mul_le_mul_left _ hf
  have hnew : m - bits m lo len * 2 ^ lo + v % 2 ^ len * 2 ^ lo =
      2 ^ (lo + len) * (m / 2 ^ (lo + len)) + (2 ^ lo * (v % 2 ^ len) + m % 2 ^ lo) := by
    conv_lhs => lhs; lhs; rw [hm]
    rw [bits, Nat.mul_comm (m / 2 ^ lo % 2 ^ len), Nat.mul_comm (v % 2 ^ len)]
    omega
  have hlt : ∀ x : Nat, x % 2 ^ len < 2 ^ len := fun x => Nat.mod_lt _ (Nat.two_pow_pos len)
  rw [hnew, Nat.testBit_two_pow_mul_add _ (hfield _ (hlt v)), Nat.testBit_two_pow_mul_add _ hlow]
  conv_rhs => rw [hm, Nat.testBit_two_pow_mul_add _ (hfield _ (hlt _)), Nat.testBit_two_pow_mul_add _ hlow]
  rcases Nat.lt_or_ge i lo with hi | hi
  · rw [if_pos (by omega), if_pos hi, if_neg (by omega), if_pos (by omega), if_pos hi]
  · rcases Nat.lt_or_ge i (lo + len) with hi' | hi'
    · rw [if_pos hi', if_neg (by omega), if_pos ⟨hi, hi'⟩, Nat.testBit_mod_two_pow, decide_eq_true (by omega), Bool.true_and]
    · rw [if_neg (by omega), if_neg (by omega), if_neg (by omega)]

theorem modeWith_eq (m : Word) {lo len : Nat} (v : Nat) : modeWith m lo len v = putField m lo len v := by
  apply BitVec.eq_of_getLsbD_eq
  intro i hi
  have hmask : (2 ^ len - 1).testBit (i - lo) = decide (i - lo < len) := Nat.testBit_two_pow_sub_one ..
  rw [modeWith, BitVec.getLsbD_ofNat, testBit_replace, putField]
  simp only [BitVec.getLsbD_or, BitVec.getLsbD_and, BitVec.getLsbD_not, BitVec.getLsbD_shiftLeft, BitVec.getLsbD_ofNat, hmask,
    Nat.testBit_mod_two_pow]
  by_cases hlo : lo ≤ i
  · by_cases hup : i < lo + len
    · simp [hi, hlo, hup, show i - lo < len by omega, show i - lo < 64 by omega, show ¬ i < lo by omega]
    · simp [hi, hlo, hup, show ¬ i - lo < len by omega, BitVec.getLsbD]
  · simp [hi, hlo, show i < lo by omega, BitVec.getLsbD]

/-- The twelve classes of MODE.CV given one code each are the field given the code twelve times (R210). -/
theorem foldl_classes (c : Nat) : (countFrom 0 12).foldl (fun v k => v + c * 2 ^ (3 * k)) 0 = c * 0o111111111111 := by
  have hmul : ∀ (l : List Nat) (n : Nat), l.foldl (fun v k => v + c * 2 ^ (3 * k)) (c * n) = c * l.foldl (fun v k => v + 2 ^ (3 * k)) n := by
    intro l
    induction l with
    | nil => intro n; rfl
    | cons k l ih => intro n; rw [List.foldl_cons, List.foldl_cons, ← Nat.mul_add, ih]
  exact hmul (countFrom 0 12) 0

theorem withMode_eq (m : Word) (s : State) : withMode m s = putRegs { regsOfState s with mode := m &&& 0x1FFFFFFFFFFFF#64 } s := rfl

theorem setMode_entered (f : Form) {s : State} (room : NoSpill s) (m : Word) :
    setMode m (entered f s) = putRegs { regsOfState s with mode := m &&& 0x1FFFFFFFFFFFF#64 } (entered f s) := by
  conv_lhs => rw [entered_eq f room]
  exact setMode_putRegs m (regsOfState s) (entered f s)

/-- A mode instruction that writes one field is done. -/
theorem modeField_done {word : BitVec 32} {ok : Bool} {g : Word → Word} {s : State} (hok : ok = true) (h : Ready 1 [] [codeMode] s) :
    Done 1 (withMode (g s.p.mode) s) (modeField word ok g s) := by
  rw [withMode_eq]
  exact h.writes _ (h.passes ⟨rfl, rfl⟩ ⟨rfl, rfl⟩ (by rw [hok]; rfl) nofun rfl nofun (fun _ hc => hc) (Nat.le_refl _))
    (fun f => by rw [mode_entered f h.room, setMode_entered f h.room]) ⟨rfl, rfl, rfl, rfl, rfl, rfl, rfl⟩

/-- An instruction that writes one field of MODE is done as the table gives it. -/
theorem modeField_puts {word : BitVec 32} {ok : Bool} {lo len v : Nat} {s : State} (hok : ok = true) (h : Ready 1 [] [codeMode] s) :
    Done 1 (withMode (putField s.p.mode lo len v) s) (modeField word ok (fun m => modeWith m lo len v) s) := by
  rw [← modeWith_eq]
  exact modeField_done (g := fun m => modeWith m lo len v) hok h

theorem modeCv_puts {o : OpCV} {s : State} {e : Instr × Nat × Nat × Nat} (he : e ∈ (if o.k.toNat < 12 then
      [(Instr.modeCv o, 13 + 3 * o.k.toNat, 3, o.c.toNat)] else if o.k.toNat = 15 then [(.modeCv o, 13, 36, o.c.toNat * 0o111111111111)]
      else [])) (h : Ready 1 [] [codeMode] s) :
    ∃ u, exec e.1 s = .next u ∧ Done 1 (withMode (putField s.p.mode e.2.1 e.2.2.1 e.2.2.2) s) u := by
  split at he
  · next hk =>
    obtain rfl := List.mem_singleton.mp he
    refine ⟨_, rfl, ?_⟩
    simp only [if_neg (show ¬ o.k.toNat = 15 by omega)]
    exact modeField_puts (decide_eq_true (.inl hk)) h
  · split at he
    · next hk =>
      obtain rfl := List.mem_singleton.mp he
      refine ⟨_, rfl, ?_⟩
      simp only [if_pos hk, foldl_classes]
      exact modeField_puts (decide_eq_true (.inr hk)) h
    · exact absurd he List.not_mem_nil

/-- Settles O8: each writes the field that its row gives, in the bits of MODE. -/
theorem modeInstructionsWriteTheirField : Obligations.ModeInstructionsWriteTheirField := by
  refine ⟨fun t g r v e he s h => ?field, fun o s h => ?load, fun o s h => ?store⟩
  case field =>
    rcases List.mem_append.mp he with he | he
    · simp only [List.mem_cons, List.not_mem_nil, or_false] at he
      obtain rfl | rfl | rfl := he
      · exact ⟨_, rfl, modeField_puts rfl h⟩
      · exact ⟨_, rfl, modeField_puts rfl h⟩
      · refine ⟨_, rfl, ?_⟩
        have hz : (if r.z then 4 else 0) = 4 * bit r.z := by cases r.z <;> rfl
        dsimp only
        rw [hz]
        exact modeField_puts rfl h
    · exact modeCv_puts he h
  case load =>
    refine ⟨_, rfl, ?_⟩
    rw [withMode_eq]
    exact h.writes _ (h.passes ⟨rfl, rfl⟩ ⟨rfl, rfl⟩ rfl nofun rfl (by simpa using h.sources) (fun _ hc => hc) (Nat.le_refl _))
      (fun f => by rw [getS_entered f h.room, setMode_entered f h.room]) ⟨rfl, rfl, rfl, rfl, rfl, rfl, rfl⟩
  case store =>
    exact ⟨_, rfl, h.writes ((regsOfState s).setS o.s.toNat s.p.mode)
      (h.passes ⟨rfl, rfl⟩ ⟨rfl, rfl⟩ rfl nofun rfl nofun (fun _ hc => hc) (Nat.le_refl _))
      (fun f => by rw [mode_entered f h.room, setS_entered f h.room]) ⟨rfl, rfl, rfl, rfl, rfl, rfl, rfl⟩⟩

/-! ### The values of special registers (R182, R322, R342) -/

theorem toNat_append_add {n m : Nat} (x : BitVec n) (y : BitVec m) : (x ++ y).toNat = x.toNat * 2 ^ m + y.toNat := by
  rw [BitVec.toNat_append, ← Nat.shiftLeft_add_eq_or_of_lt y.isLt, Nat.shiftLeft_eq]

theorem shiftRight_quantum (l : Launch) (c : Word) : BitVec.ofNat 64 (quantumIndex l c.toNat) = c >>> l.qexp := by
  rw [quantumIndex, Launch.quantum, ← Nat.shiftRight_eq_div_pow, ← BitVec.toNat_ushiftRight, BitVec.ofNat_toNat, BitVec.setWidth_eq]

theorem ofNat_mod (k n : Nat) : BitVec.ofNat 64 (n % 2 ^ k) = (BitVec.ofNat k n).setWidth 64 := by
  rw [← BitVec.toNat_ofNat, BitVec.ofNat_toNat]

theorem popcount_eq (m : BitVec 64) : popcount m = ((List.range 64).filter fun i => m.getLsbD i).length := rfl

theorem detcfg_eq (l : Launch) : detcfg l = specialValues.detcfgWord l := by
  apply BitVec.eq_of_toNat_eq
  simp only [detcfg, specialValues.detcfgWord, toNat_append_add, BitVec.toNat_ofNat, BitVec.toNat_ofBool, bit]
  cases l.obs <;> simp <;> omega

theorem phyid_eq (core : Nat) : phyid core =
    0#46 ++ BitVec.ofNat 2 (core / 128) ++ BitVec.ofNat 6 (core / 4) ++ BitVec.ofNat 8 core ++ 0#2 := by
  apply BitVec.eq_of_toNat_eq
  simp only [phyid, toNat_append_add, BitVec.toNat_ofNat]
  omega

theorem readStatus_eq (s : State) : readStatus s =
    0#52 ++ s.p.status.extractLsb' 9 3 ++ BitVec.ofBool (!s.g.faults.isEmpty) ++ 0#7 ++ s.p.status.extractLsb' 0 1 := by
  apply BitVec.eq_of_toNat_eq
  simp only [readStatus, toNat_append_add, BitVec.toNat_ofNat, BitVec.toNat_ofBool, BitVec.extractLsb'_toNat, bit, bits,
    Nat.shiftRight_eq_div_pow]
  cases s.g.faults.isEmpty <;> simp <;> omega

/-- Every unprivileged register of the table is read as it gives it. -/
theorem readSpecial_value {e : Nat × (State → Word)} (he : e ∈ specialValues) (s : State) : readSpecial s e.1 = some (e.2 s) := by
  simp only [specialValues, List.mem_cons, List.not_mem_nil, or_false] at he
  obtain rfl | rfl | rfl | rfl | rfl | rfl | rfl | rfl | rfl | rfl | rfl | rfl | rfl | rfl | rfl := he
  case inr.inr.inr.inl => exact congrArg some (shiftRight_quantum _ _)
  case inr.inr.inr.inr.inl => exact congrArg some (ofNat_mod 8 _)
  case inr.inr.inr.inr.inr.inr.inr.inl => exact congrArg some (ofNat_mod 32 _)
  case inr.inr.inr.inr.inr.inr.inr.inr.inl => exact congrArg some (ofNat_mod 32 _)
  case inr.inr.inr.inr.inr.inr.inr.inr.inr.inl => exact congrArg some (ofNat_mod 8 _)
  case inr.inr.inr.inr.inr.inr.inr.inr.inr.inr.inl => exact congrArg some (ofNat_mod 32 _)
  case inr.inr.inr.inr.inr.inr.inr.inr.inr.inr.inr.inl => exact congrArg some (detcfg_eq _)
  case inr.inr.inr.inr.inr.inr.inr.inr.inr.inr.inr.inr.inl => exact congrArg some (ofNat_mod 10 _)
  case inr.inr.inr.inr.inr.inr.inr.inr.inr.inr.inr.inr.inr.inr => exact congrArg some (phyid_eq _)
  all_goals rfl

/-- Every privileged register of the table is read as it gives it. -/
theorem readSpecial_privileged {e : Nat × (State → Word)} (he : e ∈ privilegedValues) (s : State) : readSpecial s e.1 = some (e.2 s) := by
  simp only [privilegedValues, List.mem_cons, List.not_mem_nil, or_false] at he
  obtain rfl | rfl | rfl | rfl | rfl | rfl | rfl | rfl | rfl | rfl := he
  case inl => exact congrArg some (readStatus_eq s)
  all_goals rfl

/-- A field of the device that the entry of a region leaves. -/
theorem field_entered {α : Type} (view : State → α) (f : Form) {s : State} (room : NoSpill s) (h : ∀ x, view x.sansEntry = view x) :
    view (entered f s) = view s := by
  rw [← h (entered f s), entered_sansEntry f room, h]

theorem field_curLaunch {α : Type} (view : Launch → α) (f : Form) {s : State} (room : NoSpill s) (h : ∀ l, view l.plain = view l) :
    view (curLaunch (entered f s)) = view (curLaunch s) := by
  rw [← h, curLaunch_entered f room, h]

theorem field_curPart {α : Type} (view : Partition → α) (f : Form) {s : State} (room : NoSpill s) (h : ∀ q, view q.besides = view q) :
    view (curPart (entered f s)) = view (curPart s) := by
  rw [← h, curPart_entered f room, h]

theorem specialValue_entered {e : Nat × (State → Word)} (he : e ∈ specialValues) (f : Form) {s : State} (room : NoSpill s) :
    e.2 (entered f s) = e.2 s := by
  simp only [specialValues, List.mem_cons, List.not_mem_nil, or_false] at he
  obtain rfl | rfl | rfl | rfl | rfl | rfl | rfl | rfl | rfl | rfl | rfl | rfl | rfl | rfl | rfl := he
  case inr.inr.inr.inl =>
    dsimp only
    rw [clock_entered f room, field_curLaunch Launch.qexp f room fun _ => rfl]
  case inr.inr.inr.inr.inr.inr.inr.inr.inr.inr.inr.inl => exact field_curLaunch specialValues.detcfgWord f room fun _ => rfl
  case inr.inr.inr.inr.inr.inr.inr.inr.inr.inr.inr.inr.inl =>
    exact field_curPart (fun q => (BitVec.ofNat 10 q.node).setWidth 64) f room fun _ => rfl
  all_goals exact field_entered _ f room fun _ => rfl

theorem privilegedValue_entered {e : Nat × (State → Word)} (he : e ∈ privilegedValues) (f : Form) {s : State} (room : NoSpill s) :
    e.2 (entered f s) = e.2 s := by
  simp only [privilegedValues, List.mem_cons, List.not_mem_nil, or_false] at he
  obtain rfl | rfl | rfl | rfl | rfl | rfl | rfl | rfl | rfl | rfl := he
  case inr.inr.inr.inr.inl => exact field_curPart (fun q => BitVec.ofNat 64 q.resper) f room fun _ => rfl
  case inr.inr.inr.inr.inr.inl => exact field_curPart (fun q => BitVec.ofNat 64 q.stepb) f room fun _ => rfl
  case inr.inr.inr.inr.inr.inr.inl => exact field_curPart (fun q => BitVec.ofNat 64 q.rtime) f room fun _ => rfl
  case inr.inr.inr.inr.inr.inr.inr.inl => exact field_curPart (fun q => BitVec.ofNat 64 q.starve) f room fun _ => rfl
  case inr.inr.inr.inr.inr.inr.inr.inr.inl => exact field_curPart (fun q => mapGet 0 q.esel 0) f room fun _ => rfl
  case inr.inr.inr.inr.inr.inr.inr.inr.inr => exact field_curPart (fun q => mapGet 0 q.esel 15) f room fun _ => rfl
  all_goals exact field_entered _ f room fun _ => rfl

/-! ### rdsp and csrr (R211, R281) -/

/-- A register below the privileged ones and the counters is read, but for PHYID in a deterministic launch (R79). -/
theorem readRefused_low {s : State} {n : Nat} (hn : n ≤ 0x010) (hphyid : n = 0x010 → detNow s = false) : readRefused s n = false := by
  have hpriv : privSpecial n = false := by
    rw [privSpecial, Bool.or_eq_false_iff]
    exact ⟨decide_eq_false (by omega), decide_eq_false (by omega)⟩
  have hdet : (detNow s && decide (n = 0x010)) = false := by
    by_cases h : n = 0x010
    · rw [hphyid h, Bool.false_and]
    · rw [decide_eq_false h, Bool.and_false]
  rw [readRefused, hpriv, hdet, decide_eq_false (by omega : ¬ (0x100 ≤ n ∧ n ≤ 0x10F))]
  simp

/-- Privileged code reads every register, but for the event counters (R80). -/
theorem readRefused_privileged {s : State} {n : Nat} (hpriv : isPriv s = true) (hn : ¬ (0x100 ≤ n ∧ n ≤ 0x10F)) : readRefused s n = false := by
  rw [readRefused, detNow, hpriv, decide_eq_false hn]
  simp

/-- `rdsp` of a register that its code may read. -/
theorem rdsp_done {o : OpSN} {s : State} {v : Word} (hn : o.n.toNat ≤ 0x010) (hphyid : o.n.toNat = 0x010 → detNow s = false)
    (hread : ∀ f, readSpecial (entered f s) o.n.toNat = some v) (h : Ready 1 [] [codeS o.s.toNat] s) :
    ∃ t, exec (.rdsp o) s = .next t ∧ Done 1 (setS o.s.toNat v s) t := by
  have hcheck : failIf (readRefused s o.n.toNat) 0xE0 = .ok := by rw [readRefused_low hn hphyid]; rfl
  exact ⟨_, rfl, h.writes ((regsOfState s).setS o.s.toNat v)
    (h.passes ⟨rfl, rfl⟩ ⟨rfl, rfl⟩ (if_pos hn) nofun hcheck nofun (fun _ hc => hc) (Nat.le_refl _))
    (fun f => by
      show finish 1 _ = _
      rw [hread f, setS_entered f h.room]
      rfl) ⟨rfl, rfl, rfl, rfl, rfl, rfl, rfl⟩⟩

/-- `csrr` of a register that its code may read. -/
theorem csrr_done {o : OpSN} {s : State} {v : Word} (hallowed : readRefused s o.n.toNat = false) (hsome : readSpecial s o.n.toNat = some v)
    (hread : ∀ f, readSpecial (entered f s) o.n.toNat = some v) (h : ReadyAlone 4 [] [codeS o.s.toNat] s) :
    ∃ t, exec (.csrr o) s = .next t ∧ Done 4 (setS o.s.toNat v s) t := by
  have hcheck : failIf (readRefused s o.n.toNat) 0xE0 = .ok := by rw [hallowed]; rfl
  exact ⟨_, rfl, h.writes ((regsOfState s).setS o.s.toNat v)
    (h.passes ⟨rfl, rfl⟩ nofun rfl (by rw [specialForm, hsome]; rfl) nofun hcheck nofun (fun _ hc => hc) (Nat.le_refl _)) rfl
    (by
      show finishAlone 4 _ = _
      rw [hread, setS_entered _ h.room]
      rfl) ⟨rfl, rfl, rfl, rfl, rfl, rfl, rfl⟩⟩

theorem length_countFrom (a n : Nat) : (countFrom a n).length = n := by
  induction n generalizing a with
  | zero => rfl
  | succ n ih => rw [countFrom, List.length_cons, ih]

/-- HWCFG of a device with every unit in service (R21, R22). -/
theorem hwcfg_full {s : State} (hhbm : s.hbmOut = 0) (hhc : s.hcOut = 0) (hslice : s.sliceOut = 0) (hfport : s.fportOut = 0)
    (hcluster : s.clustersOut = 0) (hbridge : s.bridgeOut = false) : hwcfgOf s = 0x0130081820601021 := by
  have hhcs : ∀ n ∈ countFrom 0 32, hcServes s n = true := fun n _ => by simp [hcServes, hhc, hhbm, hbridge]
  have hslices : ∀ n ∈ countFrom 0 Config.deviceSlices, sliceServes s n = true := fun n _ => by simp [sliceServes, hslice, hbridge]
  rw [hwcfgOf, List.filter_eq_self.mpr hhcs, List.filter_eq_self.mpr hslices, length_countFrom, length_countFrom, hhbm, hfport,
    hcluster, hbridge]
  rfl

/-- What a deterministic launch reads as CYCLE: the first clock of its quantum (R79). -/
theorem readCycle_det {s : State} (hdet : detNow s = true) :
    readCycle s = (s.p.clock >>> (curLaunch s).qexp) <<< (curLaunch s).qexp := by
  apply BitVec.eq_of_toNat_eq
  rw [readCycle, if_pos hdet, quantumIndex, Launch.quantum, BitVec.toNat_shiftLeft, BitVec.toNat_ushiftRight, BitVec.toNat_ofNat,
    Nat.shiftLeft_eq, Nat.shiftRight_eq_div_pow]

/-- Settles O9: what the tables give is what a read finds, before and after its region is entered. -/
theorem specialRegistersReadTheirValue : Obligations.SpecialRegistersReadTheirValue := by
  refine ⟨fun e he o s hn hphyid => ?unprivileged, fun e he o s hn hpriv h => ?privileged, fun o s hn h1 h2 h3 h4 h5 h6 h => ?hwcfg,
    fun o s hn hdet h => ?cycle⟩
  case unprivileged =>
    have hlow : o.n.toNat ≤ 0x010 := hn ▸ (by decide : ∀ e ∈ specialValues, e.1 ≤ 0x010) e he
    have hread : ∀ (room : NoSpill s) f, readSpecial (entered f s) o.n.toNat = some (e.2 s) := fun room f => by
      rw [hn, readSpecial_value he, specialValue_entered he f room]
    exact ⟨fun h => rdsp_done hlow (fun hp => hphyid (hn ▸ hp)) (hread h.room) h,
      fun h => csrr_done (readRefused_low hlow fun hp => hphyid (hn ▸ hp)) (hn ▸ readSpecial_value he s) (hread h.room) h⟩
  case privileged =>
    have hhigh : ¬ (0x100 ≤ o.n.toNat ∧ o.n.toNat ≤ 0x10F) :=
      hn ▸ (by decide : ∀ e ∈ privilegedValues, ¬ (0x100 ≤ e.1 ∧ e.1 ≤ 0x10F)) e he
    exact csrr_done (readRefused_privileged hpriv hhigh) (hn ▸ readSpecial_privileged he s)
      (fun f => by rw [hn, readSpecial_privileged he, privilegedValue_entered he f h.room]) h
  case hwcfg =>
    refine rdsp_done (by omega) (by omega) (fun f => ?_) h
    rw [hn]
    refine congrArg some (hwcfg_full ?_ ?_ ?_ ?_ ?_ ?_)
    · exact (field_entered State.hbmOut f h.room fun _ => rfl).trans h1
    · exact (field_entered State.hcOut f h.room fun _ => rfl).trans h2
    · exact (field_entered State.sliceOut f h.room fun _ => rfl).trans h3
    · exact (field_entered State.fportOut f h.room fun _ => rfl).trans h4
    · exact (field_entered State.clustersOut f h.room fun _ => rfl).trans h5
    · exact (field_entered State.bridgeOut f h.room fun _ => rfl).trans h6
  case cycle =>
    refine rdsp_done (by omega) (by omega) (fun f => ?_) h
    rw [hn]
    refine congrArg some ((readCycle_det ((detNow_entered f h.room).trans hdet)).trans ?_)
    rw [clock_entered f h.room, field_curLaunch Launch.qexp f h.room fun _ => rfl]

/-! ### csrw, csrs and csrc (R281) -/

/-- Room in the Cuff buffer, with nothing held, is that of the buffer alone. -/
theorem NoSpill.of_empty {x y : State} (room : NoSpill y) (hx : x.p.buffer = []) (hy : y.p.buffer = []) (hcuff : x.g.cuff = y.g.cuff) :
    NoSpill x := by
  have hempty : ∀ z : State, z.p.buffer = [] → (releaseRegion z).g.cuff = z.g.cuff := fun z hz => by
    rw [releaseRegion, hz]
    rfl
  rw [NoSpill, hempty y hy] at room
  rw [NoSpill, hempty x hx, hcuff]
  exact room

/-- An irrevocable instruction that changes the device once its region has committed, but not what its retirement rests on, is done. -/
theorem ReadyAlone.changes {w : Nat} {rd wr : List Nat} {s x : State} (h : ReadyAlone w rd wr s) {f : Form} {check : State → Verdict}
    {effect : State → State} (hi : issue f check effect s = effect (entered f s)) (he : effect (entered f s) = finishAlone w x)
    (hloops : SameLoops x.p s.p) (hbuffer : x.p.buffer = []) (hcuff : x.g.cuff = (commitRegion s).g.cuff)
    (hturn : NoRotation s → NoRotation x) : Done w x (issue f check effect s) := by
  rw [hi, he]
  exact finishAlone_done (h.room.commit.of_empty hbuffer (commitRegion_buffer h.room) hcuff) hbuffer fun hrep =>
    hturn (h.whole ((edges_congr hloops).repeats ▸ hrep))

/-- What a write of a special register does to the state (R281, R322). -/
def specialWritten (n : Nat) (f : Word → Word → Word) (clears : Bool) (y : Word) (s : State) : State :=
  match specialAccess n with
  | .rw => writeSpecial n (f ((readSpecial s n).getD 0) y) s
  | .w1c => if clears then clearFlags y s else s
  | .ro => s

/-- The form of a write of a special register. -/
def specialWriteForm (word : BitVec 32) (o : OpSN) (s : State) : Form :=
  { specialForm word 4 s o.n.toNat with
    irrevocable := true
    srcs := [(codeS o.s.toNat, false)]
    reads := if decide (specialAccess o.n.toNat = .rw) then specialCode o.n.toNat else []
    dsts := if decide (specialAccess o.n.toNat = .rw) then specialCode o.n.toNat else [] }

/-- Its check of privilege. -/
def specialWriteCheck (o : OpSN) (s : State) : Verdict := failIf (!isPriv s && privSpecial o.n.toNat) 0xE0

/-- What it does once its region has committed. -/
def specialWriteEffect (o : OpSN) (f : Word → Word → Word) (clears : Bool) (s : State) : State :=
  finishAlone 4 (specialWritten o.n.toNat f clears (getS s o.s.toNat) s)

theorem specialWrite_eq (word : BitVec 32) (o : OpSN) (f : Word → Word → Word) (clears : Bool) (s : State) :
    specialWrite word o f clears s = issue (specialWriteForm word o s) (specialWriteCheck o) (specialWriteEffect o f clears) s := rfl

/-- A write of a special register that its code may write passes its checks. -/
theorem specialWrite_passes {word : BitVec 32} {o : OpSN} {f : Word → Word → Word} {clears : Bool} {wr : List Nat} {s : State} {n : Nat}
    (hn : o.n.toNat = n) (hallowed : privSpecial n = true → isPriv s = true) (hsome : (readSpecial s n).isSome = true)
    (hcode : specialAccess n = .rw → ∀ c ∈ specialCode n, c ∈ wr) (h : ReadyAlone 4 [codeS o.s.toNat] wr s) :
    issue (specialWriteForm word o s) (specialWriteCheck o) (specialWriteEffect o f clears) s =
      specialWriteEffect o f clears (entered (specialWriteForm word o s) s) := by
  subst hn
  refine h.passes ⟨rfl, rfl⟩ nofun rfl (if_pos hsome) nofun ?_ (by simpa [specialWriteForm] using h.sources) ?_ (Nat.le_refl _)
  · have hpriv : (!isPriv s && privSpecial o.n.toNat) = false := by
      cases hp : privSpecial o.n.toNat
      · exact Bool.and_false _
      · rw [hallowed hp]; rfl
    rw [specialWriteCheck, hpriv]
    rfl
  · intro c hc
    by_cases ha : specialAccess o.n.toNat = .rw
    · simp only [specialWriteForm, ha, decide_true, if_true] at hc
      exact hcode ha c hc
    · simp only [specialWriteForm, ha, decide_false, Bool.false_eq_true, if_false] at hc
      exact absurd hc List.not_mem_nil

/-- A write that changes registers alone. -/
theorem specialWrite_regs {word : BitVec 32} {o : OpSN} {f : Word → Word → Word} {clears : Bool} {wr : List Nat} {s : State} {n : Nat}
    (r : Regs) (hn : o.n.toNat = n) (hallowed : privSpecial n = true → isPriv s = true) (hsome : (readSpecial s n).isSome = true)
    (hcode : specialAccess n = .rw → ∀ c ∈ specialCode n, c ∈ wr) (h : ReadyAlone 4 [codeS o.s.toNat] wr s)
    (hloops : SameLoops (putRegs r s).p s.p)
    (hwritten : ∀ g, specialWritten n f clears (getS s o.s.toNat) (entered g s) = putRegs r (entered g s)) :
    Done 4 (putRegs r s) (specialWrite word o f clears s) := by
  rw [specialWrite_eq]
  refine h.writes r (specialWrite_passes hn hallowed hsome hcode h) rfl ?_ hloops
  rw [specialWriteEffect, getS_entered _ h.room, hn, hwritten]

/-- The three instructions that write, as one. -/
theorem exec_specialWriter {e : (OpSN → Instr) × (Word → Word → Word)} (he : e ∈ specialWriters) (o : OpSN) (s : State) :
    ∃ word clears, exec (e.1 o) s = .next (specialWrite word o e.2 clears s) := by
  simp only [specialWriters, List.mem_cons, List.not_mem_nil, or_false] at he
  obtain rfl | rfl | rfl := he
  · exact ⟨_, _, rfl⟩
  · exact ⟨_, _, rfl⟩
  · exact ⟨_, _, rfl⟩

/-- A write of a partition control register leaves the partition as the table gives it. -/
theorem writeControlReg_eq {e : Nat × (Word → Partition → Partition)} (he : e ∈ controlWrites) (now : Nat) (v : Word) :
    writeControlReg now e.1 v = e.2 v := by
  simp only [controlWrites, List.mem_cons, List.not_mem_nil, or_false] at he
  obtain rfl | rfl | rfl | rfl := he
  · rfl
  · rfl
  · rfl
  · rfl

theorem specialWritten_control {e : Nat × (Word → Partition → Partition)} (he : e ∈ controlWrites) (f : Word → Word → Word) (clears : Bool)
    (y : Word) (s : State) :
    specialWritten e.1 f clears y s = withPart s.g.part (e.2 (f ((readSpecial s e.1).getD 0) y)) s := by
  have hw := writeControlReg_eq he s.ticks (f ((readSpecial s e.1).getD 0) y)
  simp only [controlWrites, List.mem_cons, List.not_mem_nil, or_false] at he
  rw [← hw]
  obtain rfl | rfl | rfl | rfl := he
  · rfl
  · rfl
  · rfl
  · rfl

/-- `csrw` of a partition control register. -/
theorem csrw_control {e : Nat × (Word → Partition → Partition)} (he : e ∈ controlWrites) {o : OpSN} {s : State} (hpriv : isPriv s = true)
    (hn : o.n.toNat = e.1) (h : ReadyAlone 4 [codeS o.s.toNat] [] s) :
    ∃ t, exec (.csrw o) s = .next t ∧ Done 4 (withPart s.g.part (e.2 (getS s o.s.toNat)) (commitRegion s)) t := by
  have hsome : (readSpecial s e.1).isSome = true ∧ specialCode e.1 = [] := by
    simp only [controlWrites, List.mem_cons, List.not_mem_nil, or_false] at he
    obtain rfl | rfl | rfl | rfl := he
    · exact ⟨rfl, rfl⟩
    · exact ⟨rfl, rfl⟩
    · exact ⟨rfl, rfl⟩
    · exact ⟨rfl, rfl⟩
  have hi := specialWrite_passes (word := wordOf (encode (.csrw o))) (f := fun _ y => y) (clears := true) hn (fun _ => hpriv) hsome.1
    (fun _ c hc => absurd (hsome.2 ▸ hc) List.not_mem_nil) h
  have hs := commitRegion_split h.room
  refine ⟨_, rfl, h.changes hi ?_ hs.loops (commitRegion_buffer h.room) rfl fun hr => noRotation_commit h.room hr⟩
  have hpart : (commitRegion s).g.part = s.g.part := by
    obtain ⟨k, q, hg⟩ := commitRegion_g h.room
    rw [hg]
  rw [specialWriteEffect, getS_entered _ h.room, entered_alone h.room rfl, hn, specialWritten_control he, hpart]

/-- A read-only register that any code may name. -/
theorem readOnly_access (s : State) {n : Nat} (hn : n ∈ [0x002, 0x003, 0x004, 0x005, 0x006, 0x007, 0x008, 0x009, 0x00A, 0x00B, 0x00C,
    0x00E, 0x00F, 0x010, 0x100, 0x10F]) :
    specialAccess n = .ro ∧ privSpecial n = false ∧ (readSpecial s n).isSome = true := by
  refine ⟨(by decide : ∀ n ∈ _, specialAccess n = .ro) n hn, (by decide : ∀ n ∈ _, privSpecial n = false) n hn, ?_⟩
  simp only [List.mem_cons, List.not_mem_nil, or_false] at hn
  obtain rfl | rfl | rfl | rfl | rfl | rfl | rfl | rfl | rfl | rfl | rfl | rfl | rfl | rfl | rfl | rfl := hn
  all_goals rfl

/-- FSTAT loses the bits that the operand sets. -/
theorem specialWrite_flags {word : BitVec 32} {o : OpSN} {f : Word → Word → Word} {s : State} (hn : o.n.toNat = 0x00D)
    (h : ReadyAlone 4 [codeS o.s.toNat] [] s) :
    Done 4 { s with p := { s.p with fstat := s.p.fstat &&& ~~~getS s o.s.toNat } } (specialWrite word o f true s) := by
  refine specialWrite_regs { regsOfState s with fstat := _ } hn nofun rfl nofun h ⟨rfl, rfl, rfl, rfl, rfl, rfl, rfl⟩ fun g => ?_
  rw [← fstat_entered g h.room, ← regs_entered g h.room]
  rfl

/-- Settles O10. -/
theorem specialRegisterWritesTakeEffect : Obligations.SpecialRegisterWritesTakeEffect := by
  refine ⟨fun e he o s => ?_, fun o s hn h => ⟨?_, ?_, ?_⟩, fun e he o s hpriv hn h => csrw_control he hpriv hn h⟩
  · obtain ⟨word, clears, hexec⟩ := exec_specialWriter he o s
    simp only [hexec]
    refine ⟨fun hn h => ⟨_, rfl, ?_⟩, fun hn h => ⟨_, rfl, ?_⟩, fun hn h => ⟨_, rfl, ?_⟩, fun hpriv hn h => ⟨_, rfl, ?_⟩⟩
    · rw [withMode_eq]
      refine specialWrite_regs _ hn nofun rfl (fun _ c hc => hc) h ⟨rfl, rfl, rfl, rfl, rfl, rfl, rfl⟩ fun g => ?_
      rw [← setMode_entered g h.room, ← mode_entered g h.room]
      rfl
    · refine specialWrite_regs { regsOfState s with exec := _ } hn nofun rfl (fun _ c hc => hc) h ⟨rfl, rfl, rfl, rfl, rfl, rfl, rfl⟩ fun g => ?_
      rw [← exec_entered g h.room, ← members_entered g h.room, ← regs_entered g h.room]
      rfl
    · have hro := readOnly_access s hn
      refine specialWrite_regs (regsOfState s) rfl (fun hp => by simp [hro.2.1] at hp) hro.2.2 (fun ha => by simp [hro.1] at ha) h
        ⟨rfl, rfl, rfl, rfl, rfl, rfl, rfl⟩ fun g => ?_
      rw [← entered_eq g h.room, specialWritten, hro.1]
    · refine specialWrite_regs { regsOfState s with epc := _ } hn (fun _ => hpriv) rfl (fun _ c hc => absurd hc List.not_mem_nil) h
        ⟨rfl, rfl, rfl, rfl, rfl, rfl, rfl⟩ fun g => ?_
      rw [← (entered_split g h.room).epc, ← regs_entered g h.room]
      rfl
  · exact ⟨_, rfl, specialWrite_flags (f := fun _ y => y) hn h⟩
  · exact ⟨_, rfl, specialWrite_flags (f := fun x y => x &&& ~~~y) hn h⟩
  · exact ⟨_, rfl, specialWrite_regs (regsOfState s) hn nofun rfl nofun h ⟨rfl, rfl, rfl, rfl, rfl, rfl, rfl⟩
      fun g => (entered_eq g h.room)⟩

/-! ### Event counters (R282, R331) -/

/-- What an instruction that stands alone and finds nothing held leaves: everything besides. -/
theorem Done.besides_of_empty {w : Nat} {x t : State} (h : Done w x t) (room : NoSpill x) (hx : x.p.buffer = []) :
    t.besides = x.besides := by
  rcases h.rest with ⟨hb, -⟩ | ⟨hb, -⟩
  · exact hb
  · exact hb.trans (commitRegion_empty hx room)

/-- What is done is seen without the event counters of the state it is said of. -/
theorem Done.of_besides {w : Nat} {x u t : State} (h : Done w x t) (room : NoSpill u) (hb : x.besides = u.besides) (hp : x.p = u.p)
    (hm : x.mem = u.mem) : Done w u t := by
  have hedges : edges x = edges u := by rw [edges, edges, hp]
  have hclock : ∀ n, clockAfter n x = clockAfter n u := fun n => by rw [clockAfter, clockAfter, isPriv, isPriv, hp]
  obtain ⟨hpc, hloops, hclk, hwait, hrest, hmem⟩ := h
  rw [hedges] at hpc hloops hclk
  refine ⟨hpc, hloops, hclk.trans (hclock _), hwait, ?_, fun a => hm ▸ hmem a⟩
  rcases hrest with ⟨hr, hbuf⟩ | ⟨hr, hbuf⟩
  · exact .inl ⟨hr.trans hb, hbuf.trans (congrArg Split.buffer hp)⟩
  · exact .inr ⟨hr.trans (commitRegion_besides hb (congrArg Split.buffer hp) room), hbuf⟩

/-- A counter that selects another event is left by a count. -/
theorem bumpEvents_other {counts : Word → Bool} {n k : Nat} {q : Partition} (h : counts (mapGet 0 q.esel k) = false) :
    mapGet 0 (bumpEvents counts n q).evc k = mapGet 0 q.evc k := by
  have hfold : ∀ (l : List Nat) (m : SMap Word), mapGet 0 (l.foldl (fun m k =>
      if counts (mapGet 0 q.esel k) then mapSet 0 m k (mapGet 0 m k + BitVec.ofNat 64 n) else m) m) k = mapGet 0 m k := by
    intro l
    induction l with
    | nil => intro m; rfl
    | cons j l ih =>
      intro m
      rw [List.foldl_cons, ih]
      split
      · next hj =>
        rw [mapGet_mapSet, if_neg]
        rintro rfl
        rw [h] at hj
        exact Bool.false_ne_true hj
      · rfl
  exact hfold _ _

/-- Counter k of the copies of a partition whose selectors are `sel` is 0. -/
def Cleared (part k : Nat) (sel : SMap Word) (qs : List Partition) : Prop :=
  ∀ q ∈ qs, q.id = part → q.esel = sel → mapGet 0 q.evc k = 0

theorem Cleared.clear (part k now : Nat) (sel : SMap Word) (qs : List Partition) :
    Cleared part k sel (updateWhere (fun q => q.id == part) (clearEvc now k) qs) := by
  intro q hq hid _
  obtain ⟨y, hy, rfl⟩ := mem_updateWhere hq
  split
  · simp [clearEvc]
  · next hne =>
    rw [if_neg hne] at hid
    exact absurd (beq_iff_eq.mpr hid) hne

/-- The event of a retirement leaves a counter that selects another. -/
theorem Cleared.retired {part k : Nat} {sel : SMap Word} {s : State} (hsel : (mapGet 0 sel k).toNat % 4096 ≠ 2)
    (h : Cleared part k sel s.parts) : Cleared part k sel (retired s).parts := by
  intro q hq hid hesel
  obtain ⟨y, hy, rfl⟩ := mem_updateWhere hq
  split
  · next hy' =>
    rw [if_pos hy'] at hid hesel
    have hesel : y.esel = sel := hesel
    rw [bumpEvents_other]
    · exact h y hy hid hesel
    · have hcode : (bits (mapGet 0 y.esel k).toNat 0 12 == 2) = false := by
        rw [hesel, bits, pow_zero, Nat.div_one]
        exact beq_eq_false_iff_ne.mpr hsel
      rw [selects, hcode, Bool.false_and]
  · next hy' =>
    rw [if_neg hy'] at hid hesel
    exact h y hy hid hesel

/-- An instruction that stands alone and finds nothing held counts its retirement and no other event. -/
theorem finishAlone_parts {w : Nat} {x : State} (room : NoSpill x) (hx : x.p.buffer = []) (h : (edges x).repeats = true → NoRotation x) :
    (finishAlone w x).parts = (Machine.retired (addClock w x)).parts := by
  have hopen : ∀ y : State, NoSpill y → y.p.buffer = [] → (openRegion y).parts = y.parts := fun y hy hb => by
    have hcommit : (commitRegion y).parts = y.parts := by
      rw [commitRegion_eq hy, releaseRegion, hb]
      rfl
    rw [openRegion, ← hcommit]
  obtain ⟨y, hy, hparts, hf⟩ := finish_cases (w := w) h room
  have hyroom : NoSpill y := room.congr hy.besides hy.buffer
  have hyempty : y.p.buffer = [] := hy.buffer.trans hx
  have hfparts : (finish w x).parts = (Machine.retired (addClock w x)).parts := by
    rcases hf with hf | hf
    · rw [hf, hparts]
    · rw [hf, hopen y hyroom hyempty, hparts]
  have hfempty := finish_buffer (w := w) room hx h
  rw [finishAlone, openClosed]
  split
  · exact hfparts
  · rw [hopen _ ((finish_done w room h).room room hx hfempty) hfempty, hfparts]

/-- The form of `pmc`. -/
def pmcForm (word : BitVec 32) (clears : Bool) (o : OpSN) : Form :=
  { Form.plain word 4 with
    privileged := clears, bad := if o.n.toNat < 16 then none else some 0x03, irrevocable := true, dsts := [codeS o.s.toNat] }

/-- What `pmc` does once its region has committed. -/
def pmcEffect (clears : Bool) (o : OpSN) (s : State) : State :=
  finishAlone 4 (if clears then mapPart s.g.part (clearEvc s.ticks o.n.toNat) (setS o.s.toNat (readEvc s (curPart s) o.n.toNat) s)
    else setS o.s.toNat (readEvc s (curPart s) o.n.toNat) s)

theorem pmc_eq (word : BitVec 32) (clears : Bool) (o : OpSN) (s : State) :
    pmc word clears o s = issue (pmcForm word clears o) (fun s => failIf (evcRefused s) 0xE0) (pmcEffect clears o) s := rfl

/-- A counter of an event that is not one of time is read as it is. -/
theorem readEvc_counted {s : State} {q : Partition} {k : Nat} (h : ∀ code ∈ [0x001, 0x012], (mapGet 0 q.esel k).toNat % 4096 ≠ code) :
    readEvc s q k = mapGet 0 q.evc k := by
  rw [readEvc, if_neg]
  rw [timedEvent, bits, pow_zero, Nat.div_one, decide_eq_true_eq]
  rintro (he | he)
  · exact h _ (by decide) he
  · exact h _ (by decide) he

section

variable {o : OpSN} {s : State} (hn : o.n.toNat < 16) (hobs : (curLaunch s).det = true → (curLaunch s).obs = true)
  (hcode : ∀ code ∈ [0x001, 0x012], (mapGet 0 (curPart s).esel o.n.toNat).toNat % 4096 ≠ code) (h : ReadyAlone 4 [] [codeS o.s.toNat] s)

include hn hobs h in
theorem pmc_passes {word : BitVec 32} {clears : Bool} (hpriv : clears = true → isPriv s = true) :
    issue (pmcForm word clears o) (fun s => failIf (evcRefused s) 0xE0) (pmcEffect clears o) s =
      pmcEffect clears o (entered (pmcForm word clears o) s) := by
  have hcheck : failIf (evcRefused s) 0xE0 = .ok := by
    have hrefused : evcRefused s = false := by
      rw [evcRefused]
      cases hd : (curLaunch s).det
      · rfl
      · rw [hobs hd]; rfl
    rw [hrefused]
    rfl
  exact h.passes ⟨rfl, rfl⟩ hpriv rfl (if_pos hn) nofun hcheck nofun (fun _ hc => hc) (Nat.le_refl _)

include hcode h in
/-- The counter that `pmc` reads is that of its partition once the region has committed. -/
theorem pmc_reads : readEvc (commitRegion s) (curPart (commitRegion s)) o.n.toNat =
    mapGet 0 (curPart (commitRegion s)).evc o.n.toNat := by
  have hentered : entered (pmcForm 0 false o) s = commitRegion s := entered_alone h.room rfl
  refine readEvc_counted fun code hc => ?_
  rw [← hentered, field_curPart (fun q => mapGet 0 q.esel o.n.toNat) _ h.room fun _ => rfl]
  exact hcode code hc

include hn hobs h in
theorem pmcRead_writes {v : Word} (hv : readEvc (commitRegion s) (curPart (commitRegion s)) o.n.toNat = v) :
    ∃ t, exec (.pmcRead o) s = .next t ∧ Done 4 (setS o.s.toNat v s) t := by
  have hi := pmc_passes (word := wordOf (encode (.pmcRead o))) (clears := false) hn hobs h fun hc => Bool.noConfusion hc
  refine ⟨_, rfl, h.writes ((regsOfState s).setS o.s.toNat v) hi rfl ?_ ⟨rfl, rfl, rfl, rfl, rfl, rfl, rfl⟩⟩
  rw [← setS_entered _ h.room, entered_alone (f := pmcForm (wordOf (encode (.pmcRead o))) false o) h.room rfl, ← hv]
  rfl

/-- The state from which the clearing form retires. -/
def pmcCleared (o : OpSN) (s : State) : State :=
  mapPart s.g.part (clearEvc s.ticks o.n.toNat) (setS o.s.toNat (readEvc s (curPart s) o.n.toNat) s)

theorem pmcCleared_loops (room : NoSpill s) : SameLoops (pmcCleared o (commitRegion s)).p s.p :=
  have hs := commitRegion_split room
  ⟨hs.pc, hs.rstack, hs.lr0, hs.lr1, hs.lrLater, hs.lc0, hs.lc1⟩

theorem pmcCleared_rotates {x : State} (hx : NoRotation x) : NoRotation (pmcCleared o x) :=
  hx.imp (fun h => (show rotatable (pmcCleared o x) = rotatable x from rfl).trans h)
    fun h => (show isPriv (pmcCleared o x) = isPriv x from rfl).trans h

include hn hobs h in
theorem pmcReadClear_changes (hpriv : isPriv s = true) : exec (.pmcReadClear o) s = .next (finishAlone 4 (pmcCleared o (commitRegion s))) ∧
    Done 4 (pmcCleared o (commitRegion s)) (finishAlone 4 (pmcCleared o (commitRegion s))) := by
  have hi := pmc_passes (word := wordOf (encode (.pmcReadClear o))) (clears := true) hn hobs h fun _ => hpriv
  have he : pmcEffect true o (entered (pmcForm (wordOf (encode (.pmcReadClear o))) true o) s) =
      finishAlone 4 (pmcCleared o (commitRegion s)) := by
    rw [entered_alone h.room rfl]
    rfl
  have hdone := h.changes hi he (pmcCleared_loops h.room) (commitRegion_buffer h.room) rfl fun hr => pmcCleared_rotates (noRotation_commit h.room hr)
  rw [hi, he] at hdone
  exact ⟨congrArg Host.Outcome.next (hi.trans he), hdone⟩

end

theorem updateWhere_besides_congr (p : Partition → Bool) {f g : Partition → Partition} (h : ∀ q, (f q).besides = (g q).besides)
    (l : List Partition) : (updateWhere p f l).map Partition.besides = (updateWhere p g l).map Partition.besides := by
  induction l with
  | nil => rfl
  | cons a r ih =>
    rw [updateWhere, updateWhere, List.map_cons, List.map_cons, ih]
    split
    · rw [h]
    · rfl

theorem pmcCleared_besides (o : OpSN) (x : State) : (pmcCleared o x).besides = (setS o.s.toNat (readEvc x (curPart x) o.n.toNat)
    (withPart x.g.part (fun q => { q with evcFrom := mapSet 0 q.evcFrom o.n.toNat x.ticks }) x)).besides :=
  congrArg (fun Q => ({ (setS o.s.toNat (readEvc x (curPart x) o.n.toNat) x).besides with parts := Q } : State))
    (updateWhere_besides_congr (fun q => q.id == x.g.part) (f := clearEvc x.ticks o.n.toNat)
      (g := fun q => { q with evcFrom := mapSet 0 q.evcFrom o.n.toNat x.ticks }) (fun _ => rfl) x.parts)

/-- Settles O11: the clearing form leaves every counter but its own as it was, and its own 0, but for the event of its retirement. -/
theorem eventCountersReadAndClear : Obligations.EventCountersReadAndClear := by
  intro o s hn hobs hcode h
  refine ⟨pmcRead_writes hn hobs h (pmc_reads hcode h), fun hpriv => ?_⟩
  obtain ⟨hexec, hdone⟩ := pmcReadClear_changes hn hobs h hpriv
  obtain ⟨k, c, hg⟩ := commitRegion_g h.room
  have hpart : (commitRegion s).g.part = s.g.part := by rw [hg]
  have hticks : (commitRegion s).ticks = s.ticks :=
    show (commitRegion s).sansEntry.ticks = s.ticks by rw [commitRegion_sansEntry h.room]; rfl
  have hbuffer : (pmcCleared o (commitRegion s)).p.buffer = [] := commitRegion_buffer h.room
  have hroom : ∀ x : State, x.p.buffer = [] → x.g.cuff = (commitRegion s).g.cuff → NoSpill x := fun x hx hc =>
    h.room.commit.of_empty hx (commitRegion_buffer h.room) hc
  have hwhole : (edges (pmcCleared o (commitRegion s))).repeats = true → NoRotation (pmcCleared o (commitRegion s)) := fun hr =>
    pmcCleared_rotates (noRotation_commit h.room (h.whole ((edges_congr (pmcCleared_loops h.room)).repeats ▸ hr)))
  refine ⟨_, hexec, ?_, fun hsel q hq hid hesel => ?_⟩
  · rw [← pmc_reads hcode h, ← hpart, ← hticks]
    exact hdone.of_besides (hroom _ hbuffer rfl) (pmcCleared_besides o (commitRegion s)) rfl rfl
  · have hclear : Cleared s.g.part o.n.toNat (curPart s).esel (pmcCleared o (commitRegion s)).parts := by
      rw [← hpart]
      exact Cleared.clear _ _ _ _ _
    rw [finishAlone_parts (hroom _ hbuffer rfl) hbuffer hwhole] at hq
    refine Cleared.retired hsel ?_ q hq hid hesel
    rw [addClock_eq]
    exact hclear

/-! ### icinv and plb.inv (R126, R283) -/

/-- The commit of a region leaves a field that no release changes. -/
theorem field_commit {α : Type} (view : State → α) {s : State} (room : NoSpill s) (h : ∀ x, view x.sansEntry = view x) :
    view (commitRegion s) = view s := by
  rw [← h (commitRegion s), commitRegion_sansEntry room, h]

theorem icinv_done {o : OpSN} {s : State} (hpriv : isPriv s = true) (haligned : (getS s o.s.toNat).toNat % 65536 = 0)
    (h : ReadyAlone 4 [codeS o.s.toNat] [] s) :
    ∃ t, exec (.icinv o) s = .next t ∧
      Done 4 (dropCode s.g.part (offsetOf (getS s o.s.toNat)) (o.n.toNat + 1) (commitRegion s)) t := by
  have hs := commitRegion_split h.room
  refine ⟨_, rfl, h.changes (h.passes ⟨rfl, rfl⟩ (fun _ => hpriv) rfl rfl (by simpa using h.sources) (if_pos haligned) nofun nofun
    (Nat.le_refl _)) ?_ hs.loops (commitRegion_buffer h.room) rfl fun hr => noRotation_commit h.room hr⟩
  have hpart := field_commit (fun x => x.g.part) h.room fun _ => rfl
  show finishAlone 4 (dropCode _ (offsetOf (getS _ _)) _ _) = _
  rw [getS_entered _ h.room, entered_alone h.room rfl, hpart]

theorem mapGet_map {α : Type} {d : α} {f : α → α} (h : f d = d) (m : SMap α) (n : Nat) :
    mapGet d (m.map fun e => (e.1, f e.2)) n = f (mapGet d m n) := by
  induction m with
  | nil => exact h.symm
  | cons e r ih =>
    rw [List.map_cons, mapGet, mapGet]
    split
    · rfl
    · exact ih

theorem getW_staleSplit (hit : Word → Bool) (q : Split) (n : Nat) :
    mapGet Window.closed (staleSplit hit q).wins n = staleWindow hit (mapGet Window.closed q.wins n) :=
  mapGet_map rfl q.wins n

theorem staleWindow_twice (hit : Word → Bool) (w : Window) : staleWindow hit (staleWindow hit w) = staleWindow hit w := by
  rw [staleWindow, staleWindow]
  split
  · rfl
  · rfl

/-- What marking windows STALE leaves: the split but for its windows, the gang's number and stores, and what is no gang's. -/
structure Staled (s t : State) : Prop where
  split : { t.p with wins := [], entry := none } = { s.p with wins := [], entry := none }
  gang : t.g.id = s.g.id ∧ t.g.part = s.g.part ∧ t.g.cuff = s.g.cuff
  mem : t.mem = s.mem
  plb : t.plb = s.plb

theorem staleWindows_staled (q : Gang → Bool) (hit : Word → Bool) (s : State) : Staled s (staleWindows q hit s) := by
  refine ⟨?_, ?_, rfl, rfl⟩
  · rw [staleWindows]
    dsimp only
    split
    · exact congrArg (fun e => { s.p with wins := [], entry := none }) (rfl : s.p.entry = s.p.entry)
    · rfl
  · rw [staleWindows]
    dsimp only
    split
    · exact ⟨rfl, rfl, rfl⟩
    · exact ⟨rfl, rfl, rfl⟩

theorem Staled.trans {s t u : State} (h : Staled s t) (k : Staled t u) : Staled s u :=
  ⟨k.split.trans h.split, ⟨k.gang.1.trans h.gang.1, k.gang.2.1.trans h.gang.2.1, k.gang.2.2.trans h.gang.2.2⟩, k.mem.trans h.mem,
    k.plb.trans h.plb⟩

theorem foldl_staled (q : Gang → Gang → Bool) (hit : Gang → Word → Bool) (l : List Gang) (s : State) :
    Staled s (l.foldl (fun s g => staleWindows (q g) (hit g) s) s) := by
  induction l generalizing s with
  | nil => exact ⟨rfl, ⟨rfl, rfl, rfl⟩, rfl, rfl⟩
  | cons g r ih => exact (staleWindows_staled _ _ s).trans (ih _)

theorem getW_staleWindows (q : Gang → Bool) (hit : Word → Bool) (s : State) (n : Nat) :
    getW (staleWindows q hit s) n = if q s.g then staleWindow hit (getW s n) else getW s n := by
  show mapGet Window.closed (if q s.g then staleSplit hit s.p else s.p).wins n = _
  split
  · exact getW_staleSplit hit s.p n
  · rfl

/-- Windows that a pass has marked stay as it left them. -/
theorem foldl_marked (q : Gang → Gang → Bool) (hit : Word → Bool) (l : List Gang) {s : State} {n : Nat} {w : Window}
    (h : getW s n = staleWindow hit w) : getW (l.foldl (fun s g => staleWindows (q g) hit s) s) n = staleWindow hit w := by
  induction l generalizing s with
  | nil => exact h
  | cons g r ih =>
    refine ih ?_
    rw [getW_staleWindows, h, staleWindow_twice, ite_self]

/-- The entries that an invalidation names (R126). -/
def plbHit (k part : Nat) (v : Word) (e : PlbEntry) : Bool :=
  decide (e.part = part) && (if k = 0 then decide (e.granule = offsetOf v / 65536)
    else if k = 1 then decide (e.asid = v.toNat % 4096) else true)

theorem plbInvalidate_staled (k : Nat) (v : Word) (s : State) :
    Staled { s with plb := s.plb.filter fun e => !plbHit k s.g.part v e } (plbInvalidate k v s) := by
  have hentries : (fun e : PlbEntry => !plbHit k s.g.part v e) = fun e => !(e.part == s.g.part &&
      (if k = 0 then decide (granuleOf (e.granule * 65536) = granuleOf (offsetOf v))
        else if k = 1 then e.asid == v.toNat % 4096 else true)) := by
    funext e
    rw [plbHit, granuleOf, Nat.mul_div_cancel _ (by omega)]
    rfl
  rw [hentries]
  exact foldl_staled _ _ _ _

/-- The base addresses that the invalidation of a granule or of all reaches. -/
def plbReaches (k : Nat) (v : Word) (b : Word) : Bool := if k = 0 then decide (offsetOf b / 65536 = offsetOf v / 65536) else true

theorem plbInvalidate_getW {k : Nat} (hk : k = 0 ∨ k = 2) (v : Word) (s : State) (n : Nat) :
    getW (plbInvalidate k v s) n = staleWindow (plbReaches k v) (getW s n) := by
  have hbased : ∀ g : Gang, (fun b : Word => if k = 0 then decide (granuleOf (offsetOf b) = granuleOf (offsetOf v))
      else if k = 1 then tagAsid g.asid (offsetOf b) == v.toNat % 4096 else true) = plbReaches k v := fun g => by
    funext b
    rcases hk with rfl | rfl
    · rfl
    · rfl
  rw [plbInvalidate]
  simp only [hbased, allGangs, List.map_cons, List.foldl_cons]
  refine foldl_marked (fun g x => x.id == g.id && x.part == s.g.part) _ _ ?_
  rw [getW_staleWindows]
  simp only [beq_self_eq_true, Bool.and_self, if_true]
  rfl

theorem plbInv_done {o : OpPlb} {s : State} (hpriv : isPriv s = true) (hk : o.k.toNat < 3) (h : ReadyAlone 4 [codeS o.s.toNat] [] s) :
    ∃ t, exec (.plbInv o) s = .next t ∧ Done 4 (plbInvalidate o.k.toNat (getS s o.s.toNat) (commitRegion s)) t ∧
      t.besides = (plbInvalidate o.k.toNat (getS s o.s.toNat) (commitRegion s)).besides := by
  have hs := commitRegion_split h.room
  have hstaled := plbInvalidate_staled o.k.toNat (getS s o.s.toNat) (commitRegion s)
  set x := plbInvalidate o.k.toNat (getS s o.s.toNat) (commitRegion s) with hx
  have field : ∀ {α : Type} (view : Split → α), view { x.p with wins := [], entry := none } =
      view { (commitRegion s).p with wins := [], entry := none } := fun view => congrArg view hstaled.split
  have hloops : SameLoops x.p s.p := ⟨(field Split.pc).trans hs.pc, (field Split.rstack).trans hs.rstack, (field Split.lr0).trans hs.lr0,
    (field Split.lr1).trans hs.lr1, (field Split.lrLater).trans hs.lrLater, (field Split.lc0).trans hs.lc0, (field Split.lc1).trans hs.lc1⟩
  have hbuffer : x.p.buffer = [] := (field Split.buffer).trans (commitRegion_buffer h.room)
  have hprivx : isPriv x = true := by
    have hstatus : x.p.status = s.p.status := (field Split.status).trans hs.status
    rw [isPriv, hstatus]
    exact hpriv
  have hdone := h.changes (f := { Form.plain (wordOf (encode (.plbInv o))) 4 with
      privileged := true, irrevocable := true, bad := if o.k.toNat < 3 then none else some 0x03, srcs := [(codeS o.s.toNat, false)] })
    (check := noCheck) (effect := fun s => finishAlone 4 (plbInvalidate o.k.toNat (getS s o.s.toNat) s)) (x := x)
    (h.passes ⟨rfl, rfl⟩ (fun _ => hpriv) rfl (if_pos hk) nofun rfl (by simpa using h.sources) nofun (Nat.le_refl _))
    (by rw [getS_entered _ h.room, entered_alone h.room rfl]) hloops hbuffer hstaled.gang.2.2 fun _ => .inr hprivx
  exact ⟨_, rfl, hdone, hdone.besides_of_empty (h.room.commit.of_empty hbuffer (commitRegion_buffer h.room) hstaled.gang.2.2) hbuffer⟩

theorem dropCode_commit {s : State} (room : NoSpill s) (part off n : Nat) : dropCode part off n (commitRegion s) =
    { commitRegion s with
      icache := s.icache.filter fun l =>
        !decide (l.ref.part = part ∧ off / 65536 ≤ l.ref.va / 65536 ∧ l.ref.va / 65536 < off / 65536 + n) } := by
  have hlines : ∀ l : ICLine, (l.ref.part == part && decide (granuleOf off ≤ granuleOf l.ref.va ∧ granuleOf l.ref.va < granuleOf off + n)) =
      decide (l.ref.part = part ∧ off / 65536 ≤ l.ref.va / 65536 ∧ l.ref.va / 65536 < off / 65536 + n) := fun l => by
    rw [Bool.decide_and (l.ref.part = part)]
    rfl
  have hcode : (commitRegion s).icache = s.icache := field_commit State.icache room fun _ => rfl
  rw [dropCode, hcode]
  simp only [hlines]

/-- A window that is open and reached is STALE. -/
theorem staleWindow_reached {hit : Word → Bool} {w : Window} (hvalid : w.valid = true) (hhit : hit w.base = true) :
    staleWindow hit w = { w with stale := true } := by
  rw [staleWindow, hvalid, hhit]
  rfl

/-- Settles O12: a handler adds nothing to its clock, and a pass over the windows leaves everything else of the split. -/
theorem invalidatesDropTheirEntries : Obligations.InvalidatesDropTheirEntries := by
  refine ⟨fun o s hpriv haligned h => ?code, fun o s hpriv hk h => ?plb⟩
  case code =>
    obtain ⟨t, hexec, hdone⟩ := icinv_done hpriv haligned h
    rw [dropCode_commit h.room] at hdone
    exact ⟨t, hexec, hdone⟩
  case plb =>
    obtain ⟨t, hexec, hdone, hbesides⟩ := plbInv_done hpriv hk h
    have hs := commitRegion_split h.room
    have hstaled := plbInvalidate_staled o.k.toNat (getS s o.s.toNat) (commitRegion s)
    have hpart := field_commit (fun x => x.g.part) h.room fun _ => rfl
    have hplb := field_commit State.plb h.room fun _ => rfl
    have hwindows := field_commit (fun x => getW x) h.room fun _ => rfl
    have hmarked := fun hk => plbInvalidate_getW (k := o.k.toNat) hk (getS s o.s.toNat) (commitRegion s)
    rw [hpart, hplb] at hstaled
    generalize plbInvalidate o.k.toNat (getS s o.s.toNat) (commitRegion s) = x at *
    have device : ∀ {α : Type} (view : State → α), view t.besides = view x.besides := fun view => congrArg view hbesides
    have window : ∀ {α : Type} (view : Split → α), view { x.p with wins := [], entry := none } =
        view { (commitRegion s).p with wins := [], entry := none } := fun view => congrArg view hstaled.split
    have hloops : SameLoops x.p s.p := ⟨(window Split.pc).trans hs.pc, (window Split.rstack).trans hs.rstack, (window Split.lr0).trans hs.lr0,
      (window Split.lr1).trans hs.lr1, (window Split.lrLater).trans hs.lrLater, (window Split.lc0).trans hs.lc0, (window Split.lc1).trans hs.lc1⟩
    have hprivx : isPriv x = true := by
      have hstatus : x.p.status = s.p.status := (window Split.status).trans hs.status
      rw [isPriv, hstatus]
      exact hpriv
    refine ⟨t, hexec, (device State.plb).trans hstaled.plb, ?_, ?_, ?_, hdone.pc.trans (edges_congr hloops).loops.pc, hdone.wait,
      fun n hvalid hreach => ?_⟩
    · exact ((device State.mem).trans hstaled.mem).trans (commitRegion_mem h.room)
    · exact ((device fun y => y.p.sregs).trans (window Split.sregs)).trans hs.sregs
    · rw [hdone.clock, clockAfter, if_pos hprivx]
      exact (window Split.clock).trans hs.clock
    · have hkind : o.k.toNat = 0 ∨ o.k.toNat = 2 := hreach.elim .inr fun h => .inl h.1
      refine (device fun y => getW y n).trans ((hmarked hkind n).trans ?_)
      rw [hwindows]
      refine staleWindow_reached hvalid ?_
      rw [plbReaches]
      rcases hreach with h2 | ⟨h0, hg⟩
      · rw [h2]; rfl
      · rw [if_pos h0, hg]
        exact decide_eq_true rfl

end Sys2Proof.Machine
end

section
/-! PROOF. Halts (spec/09_isa_scalar_control.md R209; spec/02_work_hierarchy.md R31, R37). -/

namespace Sys2Proof.Machine

/-! ### What the refill of slices leaves alone (R31) -/

/-- The device without the paths of the gang at issue. -/
def State.sansPaths (s : State) : State :=
  { s with p := { s.p with away := 0 }, g := { s.g with splits := [], parked := [], serial := 0 } }

theorem reopenIdle_gang (n : Nat) (g : Gang) (q : Split) : ∃ k, (reopenIdle n g q).1 = { g with serial := k } := by
  unfold reopenIdle reopenOn
  split
  · split
    · exact ⟨_, rfl⟩
    · exact openOn_gang n g q
  · exact ⟨_, rfl⟩

theorem giveBack_paths (e : Split) (j : Nat) : Keeps State.sansPaths (giveBack e j) := by
  intro s
  unfold giveBack
  dsimp only
  split <;> rfl

theorem wakeWith_paths (j : Nat) : Keeps State.sansPaths (wakeWith reopenIdle j) := by
  intro s
  unfold wakeWith
  split
  · rfl
  · next e rest _ =>
    dsimp only
    split
    · exact giveBack_paths _ _ _
    · obtain ⟨k, hk⟩ := reopenIdle_gang s.nextId (setStack j rest s.g) e
      rw [hk]
      rfl

theorem refill_paths (js : List Nat) : Keeps State.sansPaths (refill js) := by
  induction js with
  | nil => exact fun _ => rfl
  | cons j r ih =>
    intro s
    rw [refill, ih]
    split
    · exact wakeWith_paths j s
    · rfl

/-- With no path parked nothing comes to run. -/
theorem refill_idle {s : State} (h : ∀ j, stackOf s.g j = []) (js : List Nat) : refill js s = s := by
  induction js with
  | nil => rfl
  | cons j r ih =>
    have hwake : wakeWith reopenIdle j s = s := by
      rw [wakeWith, h]
      rfl
    rw [refill, hwake, ite_self, ih]

/-- A split that has left its gang is given no slice back. -/
theorem refill_vacant (js : List Nat) {s : State} (h : s.p = Split.vacant) : (refill js s).p = Split.vacant := by
  induction js generalizing s with
  | nil => exact h
  | cons j r ih =>
    refine ih ?_
    split
    · unfold wakeWith
      split
      · exact h
      · next e rest _ =>
        dsimp only
        split
        · show (if marks e s.p.members then _ else s.p) = _
          have hmarks : marks e s.p.members = false := by
            rw [h, marks]
            simp [Split.vacant]
          rw [hmarks]
          exact h
        · exact h
    · exact h

/-! ### A release of a free launch (R41) -/

/-- The device without what a release of a free launch changes. -/
def State.sansSent (s : State) : State :=
  { s with reqs := [], remotes := [], updates := [], tiles := [], l1 := [], parts := [], outbox := [], nextId := 0 }

theorem depart_sent (q : RemoteReq) : Keeps State.sansSent (depart q) := by
  intro s
  unfold depart
  dsimp only
  split <;> rfl

theorem sendRemote_sent (q : RemoteReq) : Keeps State.sansSent (sendRemote q) := by
  intro s
  unfold sendRemote
  dsimp only
  split
  · rfl
  · exact depart_sent _ _

theorem releaseStore_sent (b : BufStore) {s : State} (hfree : detNow s = false) : (releaseStore b s).sansSent = s.sansSent := by
  unfold releaseStore
  split
  · split <;> rfl
  · simp only [hfree, Bool.false_and]
    rfl

theorem releaseGroup_sent (l : List BufStore) {s : State} (hfree : detNow s = false) : (releaseGroup l s).sansSent = s.sansSent := by
  cases l with
  | nil => rfl
  | cons b r =>
    rw [releaseGroup]
    split
    · exact Keeps.foldl (fun a x => sendRemote_sent _ x) _ s
    · exact releaseStore_sent b hfree

theorem releaseAll_sent (l : List BufStore) {s : State} (hfree : detNow s = false) : (releaseAll l s).sansSent = s.sansSent := by
  rw [releaseAll]
  generalize groupFar (partOf s s.g.part).node l = gs
  induction gs generalizing s with
  | nil => rfl
  | cons g r ih =>
    have hg := releaseGroup_sent g hfree
    have hfree' : detNow (releaseGroup g s) = false :=
      (show detNow (releaseGroup g s).sansSent = false by rw [hg]; exact hfree)
    rw [List.foldl_cons, ih hfree', hg]

/-- No store enters the Cuff buffer where the launch is free or none is held (R41, R67). -/
theorem commitRegion_cuff {s : State} (room : NoSpill s) (h : detNow s = true → s.p.buffer = []) : (commitRegion s).g.cuff = s.g.cuff := by
  rw [commitRegion_eq room, releaseRegion]
  cases hd : detNow s with
  | true => rw [h hd]; rfl
  | false =>
    have hsent := releaseAll_sent s.p.buffer (s := { s with p := { s.p with
      buffer := [], entry := none, fresh := false, liveIn := [], written := [] } }) hd
    exact (show (releaseAll s.p.buffer _).sansSent.g.cuff = _ by rw [hsent]; rfl)

/-! ### halt (R209) -/

/-- The split at issue without its active lanes. -/
def narrowed (s : State) : State :=
  let m := s.p.members &&& ~~~ activeMask s
  { s with p := { s.p with members := m, exec := s.p.exec &&& m } }

/-- The form of a halt that is no turn. -/
def haltForm (s : State) : Form :=
  { Form.plain (wordOf (encode .halt)) 1 with
    barred := true, irrevocable := true, reads := maskReads s
    back := edgesUnless (decide (s.p.members &&& ~~~ activeMask s = 0)) }

/-- What a halt with active lanes does once its region has committed. -/
def haltEffect (s : State) : State :=
  if hasUnpublished s then takePublishing .halt inLineage (fun _ => []) haltPerform s else haltLanes (fun s => s) s

/-- Nothing of the lineage is unpublished where no entry of the Cuff buffer meets the members. -/
theorem hasUnpublished_none {s : State} (h : ∀ e ∈ s.g.cuff, e.lanes &&& s.p.members = 0) : hasUnpublished s = false := by
  have hnone : lineage s.p.members s.g.cuff = [] := by
    refine List.filter_eq_nil_iff.mpr fun e he => ?_
    rw [meets, h e he]
    decide
  rw [hasUnpublished, hnone]
  rfl

section

variable {s : State} (hpriv : isPriv s = false) (hactive : activeLanes s ≠ []) (hheld : detNow s = true → s.p.buffer = [])
  (hcuff : ∀ e ∈ s.g.cuff, e.lanes &&& s.p.members = 0) (hquiet : deliverable s .halt = none) (h : ReadyAlone 1 [] [] s)

include hheld hcuff in
theorem haltIsTurn_none : haltIsTurn s = false := by
  rw [haltIsTurn, hasUnpublished_none hcuff]
  cases hd : detNow s with
  | false => rfl
  | true => rw [hheld hd]; simp

include hpriv hactive hheld hcuff hquiet h in
/-- A halt that is no turn takes its lanes out once its region has committed. -/
theorem exec_halt : exec .halt s = .next (haltLanes (fun s => s) (commitRegion s)) := by
  have hturn := haltIsTurn_none hheld hcuff
  have hsome : (activeLanes s).isEmpty = false := by
    cases ha : activeLanes s with
    | nil => exact absurd ha hactive
    | cons => rfl
  have hi : issue (haltForm s) noCheck haltEffect s = haltEffect (entered (haltForm s) s) := by
    refine issue_ok ?_ h.quiet nofun (fun _ => hpriv) rfl nofun rfl nofun ?_ nofun
    · exact h.undisturbed
    · exact overflows_edgesUnless h.clock _
  have hentered : entered (haltForm s) s = commitRegion s := entered_alone h.room rfl
  have hnone : hasUnpublished (commitRegion s) = false := by
    refine hasUnpublished_none ?_
    rw [commitRegion_cuff h.room hheld, (commitRegion_split h.room).members]
    exact hcuff
  show execHalt s = _
  rw [execHalt, hsome, hturn, if_neg Bool.false_ne_true, if_neg Bool.false_ne_true, hquiet]
  show Host.Outcome.next (issue (haltForm s) noCheck haltEffect s) = _
  rw [hi, hentered, haltEffect, hnone, if_neg Bool.false_ne_true]

include h in
/-- The lanes that halt leave no slice that a path waits for. -/
theorem narrowed_rotates (hr : NoRotation s) : NoRotation (narrowed (commitRegion s)) := by
  have hc := noRotation_commit h.room hr
  refine hc.imp (fun hidle => ?_) id
  refine List.eq_nil_iff_forall_not_mem.mpr fun j hj => ?_
  obtain ⟨hslice, hstack⟩ := List.mem_filter.mp hj
  obtain ⟨hrange, hmeets⟩ := List.mem_filter.mp hslice
  refine List.eq_nil_iff_forall_not_mem.mp hidle j (List.mem_filter.mpr ⟨List.mem_filter.mpr ⟨hrange, ?_⟩, hstack⟩)
  generalize commitRegion s = c at hmeets ⊢
  have hsubset : (narrowed c).p.held &&& sliceMask j = (c.p.held &&& sliceMask j) &&& ~~~ activeMask c := by
    show (c.p.members &&& ~~~ activeMask c) &&& ~~~ c.p.away &&& sliceMask j = (c.p.members &&& ~~~ c.p.away) &&& sliceMask j &&& ~~~ activeMask c
    ac_rfl
  rw [bne_iff_ne] at hmeets ⊢
  intro hnone
  rw [hsubset, hnone] at hmeets
  exact hmeets (BitVec.zero_and ..)

include h in
/-- What is done once the active lanes have left. -/
theorem narrowed_done : Done 1 (narrowed (commitRegion s)) (finishAlone 1 (narrowed (commitRegion s))) := by
  have hs := commitRegion_split h.room
  have hloops : SameLoops (narrowed (commitRegion s)).p s.p := ⟨hs.pc, hs.rstack, hs.lr0, hs.lr1, hs.lrLater, hs.lc0, hs.lc1⟩
  exact finishAlone_done (h.room.commit.of_empty (commitRegion_buffer h.room) (commitRegion_buffer h.room) rfl) (commitRegion_buffer h.room)
    fun hrep => narrowed_rotates h (h.whole ((edges_congr hloops).repeats ▸ hrep))

include h in
theorem activeMask_commit : activeMask (commitRegion s) = activeMask s := by
  rw [← entered_alone (f := haltForm s) h.room rfl, activeMask_entered _ h.room]

include h in
/-- Some lanes go on: those left, with their registers as they were (R209). -/
theorem halt_narrows (hm : s.p.members &&& ~~~ activeMask s ≠ 0) :
    let m := s.p.members &&& ~~~ activeMask s
    let c := commitRegion s
    let t := haltLanes (fun s => s) c
    Retired 1 s t ∧ t.p.members = m ∧ t.p.exec = s.p.exec &&& m ∧ t.p.sregs = s.p.sregs ∧ t.p.wins = s.p.wins ∧
      t.p.rstack = s.p.rstack ∧ t.p.mode = s.p.mode ∧ t.p.fstat = s.p.fstat ∧ t.p.buffer = [] ∧
      ((∀ j, stackOf s.g j = []) → Done 1 { c with p := { c.p with members := m, exec := s.p.exec &&& m } } t) ∧
      t.mem = s.mem ∧ t.g.vregs = s.g.vregs ∧ t.g.preds = s.g.preds := by
  intro m c t
  have hs : SameSplit c.p s.p := commitRegion_split h.room
  have hmc : c.p.members &&& ~~~ activeMask c = m := by rw [hs.members, activeMask_commit h]
  have ht : t = refill allSlices (finishAlone 1 (narrowed c)) := by
    show haltLanes _ c = _
    rw [haltLanes]
    dsimp only
    rw [if_neg (hmc ▸ hm)]
    rfl
  have hdone : Done 1 (narrowed c) (finishAlone 1 (narrowed c)) := narrowed_done h
  have hempty : (narrowed c).p.buffer = [] := commitRegion_buffer h.room
  have hroom : NoSpill (narrowed c) := h.room.commit.of_empty hempty hempty rfl
  have hbesides := hdone.besides_of_empty hroom hempty
  have hnarrow : narrowed c = { c with p := { c.p with members := m, exec := s.p.exec &&& m } } := by
    rw [← hmc, ← hs.exec]
    rfl
  have hexec : (narrowed c).p.exec = s.p.exec &&& m := by rw [hnarrow]
  have hloops : SameLoops (narrowed c).p s.p := ⟨hs.pc, hs.rstack, hs.lr0, hs.lr1, hs.lrLater, hs.lc0, hs.lc1⟩
  have hedges := edges_congr hloops
  have device : ∀ {α : Type} (view : State → α), view (refill allSlices (finishAlone 1 (narrowed c))).sansPaths =
      view (finishAlone 1 (narrowed c)).sansPaths := fun view => congrArg view (refill_paths allSlices _)
  have besides : ∀ {α : Type} (view : State → α), view (finishAlone 1 (narrowed c)).besides = view (narrowed c).besides :=
    fun view => congrArg view hbesides
  obtain ⟨k, q, hg⟩ := commitRegion_g h.room
  have hgang : c.g.vregs = s.g.vregs ∧ c.g.preds = s.g.preds ∧ c.g.parked = s.g.parked := by
    rw [show c.g = _ from hg]
    exact ⟨rfl, rfl, rfl⟩
  have hclock : ∀ n, clockAfter n (narrowed c) = clockAfter n s := fun n => by
    rw [clockAfter, clockAfter, isPriv, isPriv]
    show (if c.p.status.getLsbD 0 then c.p.clock else c.p.clock + _) = _
    rw [hs.status, hs.clock]
  have hbuffer : (finishAlone 1 (narrowed c)).p.buffer = [] :=
    finishAlone_buffer hroom hempty fun hrep => narrowed_rotates h (h.whole (hedges.repeats ▸ hrep))
  have hmem : c.mem = s.mem := commitRegion_mem h.room
  rw [ht]
  clear_value c
  refine ⟨⟨?_, ⟨?_, ?_, ?_, ?_⟩, ?_, ?_⟩, ?_, ?_, ?_, ?_, ?_, ?_, ?_, ?_, fun hidle => ?_, ?_, ?_, ?_⟩
  · exact (device fun x => x.p.pc).trans (hdone.pc.trans hedges.loops.pc)
  · exact (device fun x => x.p.lc0).trans (hdone.loops.1.trans hedges.loops.lc0)
  · exact (device fun x => x.p.lc1).trans (hdone.loops.2.1.trans hedges.loops.lc1)
  · exact (device fun x => x.p.lr0).trans (hdone.loops.2.2.1.trans hedges.loops.lr0)
  · exact (device fun x => x.p.lr1).trans (hdone.loops.2.2.2.trans hedges.loops.lr1)
  · exact (device fun x => x.p.clock).trans (hdone.clock.trans (by rw [hedges.count, hclock]))
  · exact (device fun x => x.p.wait).trans hdone.wait
  · exact (device fun x => x.p.members).trans ((besides fun x => x.p.members).trans hmc)
  · exact (device fun x => x.p.exec).trans ((besides fun x => x.p.exec).trans hexec)
  · exact (device fun x => x.p.sregs).trans ((besides fun x => x.p.sregs).trans hs.sregs)
  · exact (device fun x => x.p.wins).trans ((besides fun x => x.p.wins).trans hs.wins)
  · exact (device fun x => x.p.rstack).trans ((besides fun x => x.p.rstack).trans hs.rstack)
  · exact (device fun x => x.p.mode).trans ((besides fun x => x.p.mode).trans hs.mode)
  · exact (device fun x => x.p.fstat).trans ((besides fun x => x.p.fstat).trans hs.fstat)
  · exact (device fun x => x.p.buffer).trans hbuffer
  · have hparked : (finishAlone 1 (narrowed c)).g.parked = s.g.parked := (besides fun x => x.g.parked).trans hgang.2.2
    have hstacks : ∀ j, stackOf (finishAlone 1 (narrowed c)).g j = [] := fun j => by
      rw [stackOf, hparked]
      exact hidle j
    rw [refill_idle hstacks]
    rw [← hnarrow]
    exact hdone
  · exact (device State.mem).trans ((besides State.mem).trans hmem)
  · exact (device fun x => x.g.vregs).trans ((besides fun x => x.g.vregs).trans hgang.1)
  · exact (device fun x => x.g.preds).trans ((besides fun x => x.g.preds).trans hgang.2.1)

/-- The final clock of the units with an index takes in a clock (R37). -/
def finals (i : Nat) (c : Word) (us : List UnitState) : List UnitState :=
  updateWhere (fun u => u.idx == i) (fun u => { u with final := if u.final.toNat < c.toNat then c else u.final }) us

theorem finals_eq (i : Nat) (c : Word) (us : List UnitState) :
    finals i c us = us.map fun u => if u.idx = i ∧ u.final.toNat < c.toNat then { u with final := c } else u := by
  induction us with
  | nil => rfl
  | cons u r ih =>
    rw [List.map_cons, ← ih, finals, updateWhere]
    refine congrArg (· :: _) ?_
    by_cases hi : u.idx = i
    · by_cases hc : u.final.toNat < c.toNat
      · rw [if_pos (beq_iff_eq.mpr hi), if_pos hc, if_pos ⟨hi, hc⟩]
      · rw [if_pos (beq_iff_eq.mpr hi), if_neg hc, if_neg fun h => hc h.2]
    · rw [if_neg (fun h => hi (beq_iff_eq.mp h)), if_neg fun h => hi h.1]

/-- A launch that is changed in place is found changed. -/
theorem findFirst_updateWhere {l : List Launch} {n : Nat} {f : Launch → Launch} (hid : ∀ x, (f x).id = x.id) :
    findFirst (fun x => x.id == n) (updateWhere (fun x => x.id == n) f l) = (findFirst (fun x => x.id == n) l).map f := by
  induction l with
  | nil => rfl
  | cons a r ih =>
    rw [updateWhere, findFirst, findFirst]
    by_cases ha : (a.id == n) = true
    · rw [if_pos ha, if_pos (by rw [hid]; exact ha), if_pos ha]
      rfl
    · rw [if_neg ha, if_neg ha, if_neg ha, ih]

/-- The split at issue has halted whole. -/
theorem endSplit_retired (x : State) :
    (endSplit (retired (addClock 1 x))).p = Split.vacant ∧
      (endSplit (retired (addClock 1 x))).g = { x.g with ended := x.g.allSplits.isEmpty } ∧
      (endSplit (retired (addClock 1 x))).mem = x.mem ∧
      (endSplit (retired (addClock 1 x))).launches = updateWhere (fun l => l.id == x.g.launch)
        (fun l => { l with units := finals x.g.unit (clockAfter 1 x) l.units }) x.launches := by
  obtain ⟨Q, hr, -⟩ := retired_eq (addClock 1 x)
  rw [hr, addClock_eq]
  exact ⟨rfl, rfl, rfl, rfl⟩

include hpriv h in
/-- No lane is left: the split ends, and its clock reaches the final clock of its unit (R37, R209). -/
theorem halt_ends (hm : s.p.members &&& ~~~ activeMask s = 0) :
    let t := haltLanes (fun s => s) (commitRegion s)
    t.p = Split.vacant ∧ ((∀ j, stackOf s.g j = []) → t.g.ended = s.g.allSplits.isEmpty) ∧
      (launchOf t s.g.launch).units = ((launchOf s s.g.launch).units.map fun u =>
        if u.idx = s.g.unit ∧ u.final.toNat < (s.p.clock + 1).toNat then { u with final := s.p.clock + 1 } else u) ∧
      t.mem = s.mem ∧ t.g.vregs = s.g.vregs ∧ t.g.preds = s.g.preds := by
  intro t
  have hs := commitRegion_split h.room
  have hmc : (commitRegion s).p.members &&& ~~~ activeMask (commitRegion s) = 0 := by rw [hs.members, activeMask_commit h, hm]
  have ht : t = refill allSlices (endSplit (retired (addClock 1 (commitRegion s)))) := by
    show haltLanes _ (commitRegion s) = _
    rw [haltLanes]
    dsimp only
    rw [if_pos hmc]
  obtain ⟨hp, hg, hmem, hlaunches⟩ := endSplit_retired (commitRegion s)
  have device : ∀ {α : Type} (view : State → α), view (refill allSlices (endSplit (retired (addClock 1 (commitRegion s))))).sansPaths =
      view (endSplit (retired (addClock 1 (commitRegion s)))).sansPaths := fun view => congrArg view (refill_paths allSlices _)
  obtain ⟨k, q, hgang⟩ := commitRegion_g h.room
  have hclock : clockAfter 1 (commitRegion s) = s.p.clock + 1 := by
    rw [clockAfter, isPriv, hs.status, hs.clock, show s.p.status.getLsbD 0 = false from hpriv]
    rfl
  have hplain : (launchOf (commitRegion s) s.g.launch).plain = (launchOf s s.g.launch).plain :=
    find_plain (commitRegion_launches h.room) s.g.launch
  have hunits : (launchOf (commitRegion s) s.g.launch).units = (launchOf s s.g.launch).units := by
    have e := congrArg Launch.units hplain
    exact e
  rw [hgang] at hg hlaunches
  rw [hclock] at hlaunches
  rw [ht]
  refine ⟨refill_vacant _ hp, fun hidle => ?_, ?_, ?_, ?_, ?_⟩
  · rw [refill_idle (fun j => by rw [hg]; exact hidle j), hg]
    rfl
  · have hfound := (device State.launches).trans hlaunches
    change (refill _ _).launches = _ at hfound
    rw [launchOf, hfound, ← finals_eq, ← hunits, launchOf]
    dsimp only
    rw [findFirst_updateWhere (f := fun l => { l with units := finals s.g.unit (s.p.clock + 1) l.units }) fun _ => rfl]
    cases findFirst _ (commitRegion s).launches <;> rfl
  · exact (device State.mem).trans (hmem.trans (commitRegion_mem h.room))
  · have e := congrArg Gang.vregs hg
    exact (device fun x => x.g.vregs).trans e
  · have e := congrArg Gang.preds hg
    exact (device fun x => x.g.preds).trans e

end

/-- Settles O7: the paths that come to run on the slices left are no part of the split. -/
theorem haltRemovesTheActiveLanes : Obligations.HaltRemovesTheActiveLanes := by
  refine ⟨fun s hpriv hnone h => ?_, fun s hpriv hactive hheld hcuff hquiet h => ?_⟩
  · have hi : issue { Form.plain (wordOf (encode .halt)) 1 with barred := true, reads := maskReads s } noCheck (finish 1) s = _ :=
      issue_ok rfl h.quiet nofun (fun _ => hpriv) rfl nofun rfl nofun h.clock nofun
    refine ⟨_, ?_, h.falls hi fun _ => rfl⟩
    show execHalt s = _
    rw [execHalt, hnone]
    rfl
  · intro m c
    refine ⟨haltLanes (fun s => s) c, exec_halt hpriv hactive hheld hcuff hquiet h, ?_⟩
    by_cases hm : m = 0
    · obtain ⟨hp, hended, hunits, hmem, hvregs, hpreds⟩ := halt_ends hpriv h hm
      exact ⟨hmem, hvregs, hpreds, fun hne => absurd hm hne, fun _ => ⟨hp, hended, hunits⟩⟩
    · obtain ⟨hretired, hmembers, hexec, hsregs, hwins, hrstack, hmode, hfstat, hbuffer, hdone, hmem, hvregs, hpreds⟩ :=
        halt_narrows h hm
      exact ⟨hmem, hvregs, hpreds, fun _ => ⟨hretired, hmembers, hexec, hsregs, hwins, hrstack, hmode, hfstat, hbuffer,
        fun hidle _ => hdone hidle⟩, fun h0 => absurd h0 hm⟩

end Sys2Proof.Machine
end

section
/-! PROOF. One step of the machine and the state that a start leaves (spec/02_work_hierarchy.md R45; spec/05_memory_hierarchy.md R126;
spec/16_host_partitions_monitors.md R322, R326). -/

namespace Sys2Proof.Machine

/-! ### A step (R45) -/

/-- A state at its next step, with what is left of the agenda. -/
def stepAt (s : State) (r : List Move) : State := { s with ticks := s.ticks + 1, agenda := r }

theorem step_agenda {s : State} {m : Move} {r : List Move} (h : s.agenda = m :: r) : step s = makeMove m (stepAt s r) := by
  rw [step, nextMove, h]
  rfl

theorem step_device {s : State} {m : Move} (ha : s.agenda = []) (h : deviceMove s = some m) : step s = makeMove m (stepAt s []) := by
  rw [step, nextMove, ha]
  dsimp only
  rw [h]
  rfl

theorem step_split {s : State} {e : Nat × Nat} (ha : s.agenda = []) (hd : deviceMove s = none) (h : nextSplit s = some e) :
    step s = makeMove (.select e.1 e.2) (stepAt s []) := by
  rw [step, nextMove, ha]
  dsimp only
  rw [hd, h]
  rfl

theorem step_idle {s : State} (ha : s.agenda = []) (hd : deviceMove s = none) (h : nextSplit s = none) : step s = .next (passCycle s) := by
  rw [step, nextMove, ha]
  dsimp only
  rw [hd, h]
  rfl

/-- The split at issue that may issue does. -/
theorem makeMove_current {u : State} (hm : mayIssue u u.g u.p = true) :
    makeMove (.select u.g.id (lowest u.p.members)) u = issueCurrent (takeSlices u) := by
  have hs : select u.g.id (lowest u.p.members) u = u := if_pos ⟨rfl, rfl⟩
  show issueSplit _ _ u = _
  rw [issueSplit, hs, hm, decide_eq_true rfl]
  rfl

/-- A split that no fault is delivered to, that owes no overflow cause and that holds no stores for a peer fetches. -/
theorem issueCurrent_fetches {v : State} (hturn : turnFault v = none) (hover : overflowDue v.p.wait = none) (hfar : holdsFar v = false)
    (hstall : stallFault v = none) (hfresh : v.p.fresh = true → deliverable v .opening = none) :
    issueCurrent v = if fetchAsks v then .next (askHosts v.g.part v.g.asid (offsetOf v.p.pc) 4 v) else
      match fetchAt v v.p.pc with
      | .fault c => .next (preciseTrap (failOf c) 0 v)
      | .word w => exec (decode w) (fillICache v) := by
  have hopen : (if v.p.fresh then deliverable v .opening else none) = none := by
    split
    · next h => exact hfresh h
    · rfl
  rw [issueCurrent, hturn, hover, hfar, hstall, hopen]
  rfl

/-- A fetch of a line that neither the core nor its home keeps reads device memory. -/
theorem fetchAt_memory {s : State} {l : Leaf} (hcontrol : isControl s.p.pc = false) (hnode : nodeOf s.p.pc = (curPart s).node)
    (hregion : regionOf (offsetOf s.p.pc) ≠ 3) (hwalk : walk s s.g.part s.g.asid (offsetOf s.p.pc) = some l)
    (hexe : Pte.exe l.entry = true) (hheld : Pte.held l.entry = false) (hbad : walkBad s s.g.part s.g.asid (offsetOf s.p.pc) = false)
    (hframe : frameMatches s s.g.part s.g.asid (offsetOf s.p.pc) l.pa = true)
    (hcache : icLine s s.g.core (lineRef s.g.part s.g.asid (offsetOf s.p.pc)) = none)
    (hline : findLine s (lineRef s.g.part s.g.asid (offsetOf s.p.pc)) = none) (hdead : Pte.dead l.entry = false) :
    fetchAt s s.p.pc = .word (BitVec.ofNat 32 (leNat (memBytes s.mem l.pa 4))) := by
  have hbytes : baseBytes s s.g.part s.g.asid (offsetOf s.p.pc) 4 = memBytes s.mem l.pa 4 := by
    rw [baseBytes, hline, hwalk]
    dsimp only
    rw [hdead]
    rfl
  have hours : ¬ (nodeOf s.p.pc ≠ (curPart s).node ∨ regionOf (offsetOf s.p.pc) = 3) := by
    rintro (h | h)
    · exact h hnode
    · exact hregion h
  rw [fetchAt, hcontrol]
  dsimp only
  rw [if_neg Bool.false_ne_true, if_neg hours, hwalk]
  dsimp only
  rw [hcache]
  dsimp only
  rw [hheld, hbad, hframe, hexe, hbytes]
  rfl

theorem fillICache_eq (s : State) : fillICache s = { s with icache := (fillICache s).icache } := by
  unfold fillICache
  dsimp only
  split
  · rfl
  · rfl

/-- The issue of the split at issue, as a step makes it. -/
theorem step_issues {s u : State} (hstep : step s = makeMove (.select u.g.id (lowest u.p.members)) u) (hm : mayIssue u u.g u.p = true) :
    let v := takeSlices u
    v = { u with taken := v.taken, p := { u.p with since := some u.cycle } } ∧
      (∀ f, turnFault v = some f → step s = .next (deliver f v)) ∧
      (turnFault v = none → overflowDue v.p.wait = none → holdsFar v = false → stallFault v = none →
        (v.p.fresh = true → deliverable v .opening = none) →
        (fetchAsks v = true → step s = .next (askHosts v.g.part v.g.asid (offsetOf v.p.pc) 4 v)) ∧
        (fetchAsks v = false →
          (∀ w, fetchAt v v.p.pc = .word w → step s = exec (decode w) (fillICache v)) ∧
          ∀ c, fetchAt v v.p.pc = .fault c → step s = .next (preciseTrap (failOf c) 0 v))) := by
  intro v
  have hv : step s = issueCurrent v := hstep.trans (makeMove_current hm)
  refine ⟨rfl, fun f hf => ?_, fun hturn hover hfar hstall hfresh => ⟨fun hasks => ?_, fun hasks => ⟨fun w hw => ?_, fun c hc => ?_⟩⟩⟩
  · rw [hv, issueCurrent, hf]
  · rw [hv, issueCurrent_fetches hturn hover hfar hstall hfresh, if_pos hasks]
  · rw [hv, issueCurrent_fetches hturn hover hfar hstall hfresh, hasks, if_neg Bool.false_ne_true, hw]
  · rw [hv, issueCurrent_fetches hturn hover hfar hstall hfresh, hasks, if_neg Bool.false_ne_true, hc]

/-- Settles O59. -/
theorem stepRunsTheDecodedInstruction : Obligations.StepRunsTheDecodedInstruction := by
  intro s at0 issues
  refine ⟨fun i a r h => step_agenda h, fun r h hm => step_issues (step_agenda h) hm,
    fun ha => ⟨fun i a h => step_device ha h, fun hd h hm => step_issues (step_split ha hd h) hm, fun hd h => ?_⟩,
    fun l h1 h2 h3 h4 h5 h6 h7 h8 h9 h10 h11 => fetchAt_memory h1 h2 h3 h4 h5 h6 h7 h8 h9 h10 h11, fillICache_eq s⟩
  refine ⟨_, step_idle ha hd h, rfl, rfl, rfl, ?_, rfl, ha⟩
  unfold passCycle
  dsimp only
  split
  · rfl
  · rfl

/-! ### Reset (R326) -/

/-- Settles O55: nothing can act after a start, so that a step is the passing of a cycle. -/
theorem resetLeavesNothingRunning : Obligations.ResetLeavesNothingRunning := by
  have hstep : step State.reset = .next { State.reset with cycle := 1, ticks := 1 } := step_idle rfl rfl rfl
  have hup : ∀ p ∈ State.reset.ports, p.linkUp = true := by decide
  exact ⟨rfl, rfl, rfl, rfl, rfl, rfl, rfl, rfl, rfl, rfl, rfl, rfl, rfl, rfl, rfl, rfl, rfl, rfl, rfl, hup, by decide,
    hwcfg_full rfl rfl rfl rfl rfl rfl, hstep, rfl, rfl, rfl, rfl, rfl, rfl, rfl⟩

end Sys2Proof.Machine
end

section
/-! PROOF. What a read-modify-write leaves (spec/11_isa_memory_sync.md R244 to R247; spec/12_isa_engines_system.md R278). -/

namespace Sys2Proof.Machine

/-! ### Bytes and numbers -/

theorem length_leBytes (n x : Nat) : (leBytes n x).length = n := by
  induction n generalizing x with
  | zero => rfl
  | succ n ih => rw [leBytes, List.length_cons, ih]

theorem leNat_leBytes {n x : Nat} (h : x < 256 ^ n) : leNat (leBytes n x) = x := by
  induction n generalizing x with
  | zero =>
    rw [pow_zero] at h
    show 0 = x
    omega
  | succ n ih =>
    have hdiv : x / 256 < 256 ^ n := Nat.div_lt_of_lt_mul (by rwa [pow_succ, Nat.mul_comm] at h)
    rw [leBytes, leNat, ih hdiv, BitVec.toNat_ofNat]
    omega

/-! ### Integers of an element type -/

theorem intVal_nat {t : Ty} (ht : t.kind = .nat) {x : Nat} (hx : x < 2 ^ t.width) : t.intVal x = x := by
  rw [Ty.intVal, ht]
  exact congrArg Int.ofNat (Nat.mod_eq_of_lt hx)

theorem intVal_int {t : Ty} (ht : t.kind = .int) (hw : 0 < t.width) {x : Nat} (hx : x < 2 ^ t.width) :
    t.intVal x = (BitVec.ofNat t.width x).toInt := by
  have htwo : 2 ^ t.width = 2 * 2 ^ (t.width - 1) := by
    rw [← pow_succ']
    congr 1
    omega
  rw [Ty.intVal, ht, BitVec.toInt_eq_toNat_cond, BitVec.toNat_ofNat, Nat.mod_eq_of_lt hx]
  simp only [sextInt, Nat.mod_eq_of_lt hx]
  split <;> split <;> first | rfl | omega

/-- The integer of an element is its bits modulo 2^w. -/
theorem intVal_congr (t : Ty) (x : Nat) : ∃ k : Int, t.intVal x = x + ((2 ^ t.width : Nat) : Int) * k := by
  have hmod := Int.emod_add_mul_ediv (x : Int) ((2 ^ t.width : Nat) : Int)
  have hnat : ((x % 2 ^ t.width : Nat) : Int) = x + ((2 ^ t.width : Nat) : Int) * -(x / ((2 ^ t.width : Nat) : Int)) := by
    rw [Int.natCast_mod, Int.mul_neg]
    omega
  rw [Ty.intVal]
  split
  · rw [sextInt]
    split
    · exact ⟨_, hnat⟩
    · refine ⟨-(x / ((2 ^ t.width : Nat) : Int)) - 1, ?_⟩
      rw [hnat, Int.mul_sub, Int.mul_one]
      omega
  · exact ⟨_, hnat⟩

/-- Integers of a type add modulo 2^w. -/
theorem wrap_intVal_add (t : Ty) (x y : Nat) :
    wrapNat (t.intVal x + t.intVal y) t.width = (BitVec.ofNat t.width x + BitVec.ofNat t.width y).toNat := by
  obtain ⟨k, hk⟩ := intVal_congr t x
  obtain ⟨l, hl⟩ := intVal_congr t y
  have hsum : t.intVal x + t.intVal y = ((x + y : Nat) : Int) + ((2 ^ t.width : Nat) : Int) * (k + l) := by
    rw [hk, hl, Int.mul_add]
    omega
  rw [wrapNat, hsum, Int.add_mul_emod_self_left, ← BitVec.ofNat_add, BitVec.toNat_ofNat]
  exact congrArg Int.toNat (Int.natCast_mod (x + y) (2 ^ t.width)).symm

theorem kind_of_integer {t : Ty} (ht : t ∈ [Ty.i 32, Ty.n 32, Ty.i 64, Ty.n 64]) :
    t.isFloat = false ∧ 0 < t.width ∧ (t.kind = .int ∨ t.kind = .nat) := by
  simp only [List.mem_cons, List.not_mem_nil, or_false] at ht
  obtain rfl | rfl | rfl | rfl := ht
  · exact ⟨rfl, by decide, .inl rfl⟩
  · exact ⟨rfl, by decide, .inr rfl⟩
  · exact ⟨rfl, by decide, .inl rfl⟩
  · exact ⟨rfl, by decide, .inr rfl⟩

/-- The order of an integer type is signed for i types and that of the bits for n types. -/
theorem intVal_le {t : Ty} (ht : t ∈ [Ty.i 32, Ty.n 32, Ty.i 64, Ty.n 64]) {x y : Nat} (hx : x < 2 ^ t.width) (hy : y < 2 ^ t.width) :
    t.intVal x ≤ t.intVal y ↔
      (if t.kind = .int then (BitVec.ofNat t.width x).toInt ≤ (BitVec.ofNat t.width y).toInt else x ≤ y) := by
  obtain ⟨-, hw, hk | hk⟩ := kind_of_integer ht
  · rw [intVal_int hk hw hx, intVal_int hk hw hy, if_pos hk]
  · rw [intVal_nat hk hx, intVal_nat hk hy, if_neg (by rw [hk]; nofun), Int.ofNat_le]

theorem intVal_inj {t : Ty} (ht : t ∈ [Ty.i 32, Ty.n 32, Ty.i 64, Ty.n 64]) {x y : Nat} (hx : x < 2 ^ t.width) (hy : y < 2 ^ t.width)
    (h : t.intVal x = t.intVal y) : x = y := by
  obtain ⟨-, hw, hk | hk⟩ := kind_of_integer ht
  · rw [intVal_int hk hw hx, intVal_int hk hw hy, BitVec.toInt_inj] at h
    simpa [Nat.mod_eq_of_lt hx, Nat.mod_eq_of_lt hy] using congrArg BitVec.toNat h
  · rw [intVal_nat hk hx, intVal_nat hk hy] at h
    exact Int.ofNat.inj h

/-! ### Read-modify-writes -/

/-- An access of an arithmetic code leaves the value that its code makes. -/
theorem opBytes_atomic {k code : Nat} {t : Ty} {rm : BitVec 2} {fz : Bool} {x y v : Nat} (hk : k < 8)
    (ht : tyOfCode code = some t) (hx : x < 256 ^ (t.width / 8)) (hy : y < 256 ^ (t.width / 8)) (hv : atomicOp k t rm fz x y = v) :
    ∀ op ∈ [AccessOp.rmw k code rm fz (leBytes (t.width / 8) y) [], .reduce k code rm fz (leBytes (t.width / 8) y)],
      opBytes op (leBytes (t.width / 8) x) = leBytes (t.width / 8) v := by
  intro op hop
  have hvalue : leBytes (leBytes (t.width / 8) x).length (atomicOp k ((tyOfCode code).getD (Ty.n 32)) rm fz (leNat (leBytes (t.width / 8) x))
      (leNat (leBytes (t.width / 8) y))) = leBytes (t.width / 8) v := by
    rw [length_leBytes, ht, leNat_leBytes hx, leNat_leBytes hy]
    exact congrArg _ hv
  simp only [List.mem_cons, List.not_mem_nil, or_false] at hop
  obtain rfl | rfl := hop
  · rw [opBytes, if_neg (by omega), if_neg (by omega), hvalue]
  · exact hvalue

/-- The bytes of an element of a type that a code names hold its bits. -/
theorem bytes_of_width {code : Nat} {t : Ty} (ht : tyOfCode code = some t) : 256 ^ (t.width / 8) = 2 ^ t.width := by
  have hall : ∀ t ∈ [Ty.i 32, Ty.n 32, Ty.f32, Ty.i 64, Ty.n 64, Ty.f64, Ty.i 16, Ty.n 16, Ty.f16, Ty.bf16, Ty.i 8, Ty.n 8],
      t.width = 8 * (t.width / 8) := by decide
  have hmem : t ∈ [Ty.i 32, Ty.n 32, Ty.f32, Ty.i 64, Ty.n 64, Ty.f64, Ty.i 16, Ty.n 16, Ty.f16, Ty.bf16, Ty.i 8, Ty.n 8] := by
    unfold tyOfCode at ht
    split at ht <;> cases ht <;> decide
  conv_rhs => rw [hall t hmem, pow_mul]
  rfl

theorem atomicOp_least {t : Ty} (hf : t.isFloat = false) (rm : BitVec 2) (fz : Bool) (x y : Nat) :
    atomicOp 1 t rm fz x y = if t.intVal x ≤ t.intVal y then x else y := by
  rw [atomicOp, hf]
  rfl

theorem atomicOp_greatest {t : Ty} (hf : t.isFloat = false) (rm : BitVec 2) (fz : Bool) (x y : Nat) :
    atomicOp 2 t rm fz x y = if t.intVal x < t.intVal y then y else x := by
  rw [atomicOp, hf]
  rfl

/-- A count of four bytes. -/
theorem opBytes_count (add : Bool) (n : Nat) {p : Nat} (hp : p < 2 ^ 32) :
    opBytes (.count add n) (leBytes 4 p) = leBytes 4 (opBytes.countTo add n p) := by
  have hlen : (leBytes 4 p).length ≤ 4 := Nat.le_of_eq (length_leBytes 4 p)
  rw [opBytes, List.take_of_length_le hlen, List.drop_of_length_le hlen, List.append_nil, leNat_leBytes (by omega)]

/-- Settles O54. -/
theorem atomicsLeaveTheirValue : Obligations.AtomicsLeaveTheirValue := by
  refine ⟨fun code t rm fz x y ht hx hy => ?arith, fun code rm fz old cmp new k hk => ?swap, fun code rm fz x y hx hy => ?index,
    fun p n hp => ⟨?up, ?down⟩⟩
  case arith =>
    intro n leaves p q
    have hbytes := bytes_of_width ht
    have hleaves : ∀ {k v : Nat}, k < 8 → atomicOp k t rm fz x y = v → leaves k v := fun hk hv =>
      opBytes_atomic hk ht (hbytes ▸ hx) (hbytes ▸ hy) hv
    refine ⟨fun hint => ?_, fun hfloat => ?_⟩
    · obtain ⟨hf, -, -⟩ := kind_of_integer hint
      have hp : p.toNat = x := (BitVec.toNat_ofNat ..).trans (Nat.mod_eq_of_lt hx)
      have hq : q.toNat = y := (BitVec.toNat_ofNat ..).trans (Nat.mod_eq_of_lt hy)
      refine ⟨hleaves (by decide) ?_, hleaves (by decide) ?_, hleaves (by decide) ?_, hleaves (by decide) ?_, hleaves (by decide) rfl,
        hleaves (by decide) ?_, hleaves (by decide) ?_⟩
      · rw [← wrap_intVal_add, atomicOp, hf]
        rfl
      · rw [BitVec.toNat_and, hp, hq]
        rfl
      · rw [BitVec.toNat_or, hp, hq]
        rfl
      · rw [BitVec.toNat_xor, hp, hq]
        rfl
      · rw [atomicOp_least hf]
        simp only [intVal_le hint hx hy]
        rfl
      · rw [atomicOp_greatest hf]
        by_cases hlt : t.intVal x < t.intVal y
        · rw [if_pos hlt, if_pos ((intVal_le hint hx hy).mp (Int.le_of_lt hlt))]
        · rw [if_neg hlt]
          by_cases hle : (if t.kind = .int then p.toInt ≤ q.toInt else x ≤ y)
          · rw [if_pos hle]
            exact intVal_inj hint hx hy (Int.le_antisymm ((intVal_le hint hx hy).mpr hle) (Int.not_lt.mp hlt))
          · rw [if_neg hle]
    · have hf : t.isFloat = true := by
        simp only [List.mem_cons, List.not_mem_nil, or_false] at hfloat
        obtain rfl | rfl | rfl | rfl := hfloat <;> rfl
      refine ⟨hleaves (by decide) ?_, hleaves (by decide) ?_, hleaves (by decide) ?_, hleaves (by decide) rfl⟩
      · rw [atomicOp, hf]; rfl
      · rw [atomicOp, hf]; rfl
      · rw [atomicOp, hf]; rfl
  case swap =>
    have hkind : k = 8 ∨ k = 10 := by simpa using hk
    rw [opBytes, if_pos hkind]
  case index =>
    rw [opBytes, if_neg (by decide), if_pos rfl, length_leBytes, leNat_leBytes (by omega), leNat_leBytes (by omega)]
    refine congrArg _ ?_
    rw [max_def]
    split <;> split <;> omega
  case up => exact opBytes_count true n hp
  case down => exact opBytes_count false n hp

end Sys2Proof.Machine
end

section
/-! PROOF. Vector integer, bitwise, field and float instructions and comparisons (spec/10_isa_vector.md R213 to R222). Each is one shared
shape: it passes its checks where it is ready, and writes registers that do not depend on the entry of its region. -/

namespace Sys2Proof.Machine

open Sys2Proof.Rules

/-! ### The shapes complete (R213, R214) -/

/-- A vector instruction on an assigned type whose fields are permitted, and whose effect writes registers, is done. -/
theorem vecIssue_done {word : BitVec 32} {w : Nat} {ok : Ty → Bool} {srcs : Ty → List Nat → List (Nat × Bool)}
    {extra : List Nat → List Nat} {dsts : Ty → List Nat → List Nat} {effect : Ty → List Nat → State → State} {s : State} {t : Ty}
    {rd wr : List Nat} (r : Regs) (h : Ready w rd wr s) (ht : elemTy s = some t) (hok : ok t = true)
    (hsrcs : ∀ e ∈ srcs t (activeLanes s), regState s e.1 = .full) (hdsts : ∀ c ∈ dsts t (activeLanes s), c ∈ wr)
    (he : ∀ f, effect t (activeLanes s) (entered f s) = putRegs r (entered f s)) (hl : SameLoops (putRegs r s).p s.p) :
    Done w (putRegs r s) (vecIssue word w ok srcs extra dsts effect s) := by
  rw [vecIssue, ht]
  exact h.writes r (h.passes ⟨rfl, rfl⟩ ⟨rfl, rfl⟩ (by rw [hok]; rfl) nofun rfl hsrcs hdsts (Nat.le_refl _))
    (fun f => congrArg (finish w) (he f)) hl

/-- An instruction over the lanes that no type governs. -/
theorem laneIssue_done {word : BitVec 32} {w : Nat} {ok : Bool} {srcs : List Nat → List (Nat × Bool)}
    {extra : List Nat → List Nat} {dsts : List Nat → List Nat} {effect : List Nat → State → State} {s : State} {rd wr : List Nat}
    (r : Regs) (h : Ready w rd wr s) (hok : ok = true) (hsrcs : ∀ e ∈ srcs (activeLanes s), regState s e.1 = .full)
    (hdsts : ∀ c ∈ dsts (activeLanes s), c ∈ wr) (he : ∀ f, effect (activeLanes s) (entered f s) = putRegs r (entered f s))
    (hl : SameLoops (putRegs r s).p s.p) : Done w (putRegs r s) (laneIssue word w ok srcs extra dsts effect s) := by
  rw [laneIssue]
  exact h.writes r (h.passes ⟨rfl, rfl⟩ ⟨rfl, rfl⟩ (by rw [hok]; rfl) nofun rfl hsrcs hdsts (Nat.le_refl _))
    (fun f => congrArg (finish w) (he f)) hl

/-- The registers after a list of lane values. -/
theorem setVAll_entered (l : List (Nat × Nat × BitVec 32)) (f : Form) {s : State} (room : NoSpill s) :
    setVAll l (entered f s) = putRegs ((regsOfState s).setVAll l) (entered f s) := by
  conv_lhs => rw [entered_eq f room]
  exact setVAll_putRegs l (regsOfState s) (entered f s)

theorem setVAll_eq (l : List (Nat × Nat × BitVec 32)) (s : State) : setVAll l s = putRegs ((regsOfState s).setVAll l) s :=
  setVAll_putRegs l (regsOfState s) s

theorem setVAll_regs (l : List (Nat × Nat × BitVec 32)) (r : Regs) :
    r.setVAll l = { r with vregs := (r.setVAll l).vregs, vstate := (r.setVAll l).vstate } := by
  induction l generalizing r with
  | nil => rfl
  | cons e t ih => exact ih (r.setV e.1 e.2.1 e.2.2)

theorem setVAll_loops (l : List (Nat × Nat × BitVec 32)) (s : State) : SameLoops (putRegs ((regsOfState s).setVAll l) s).p s.p := by
  rw [setVAll_regs]
  exact ⟨rfl, rfl, rfl, rfl, rfl, rfl, rfl⟩

/-! ### Sources (R174) -/

/-- The registers that a field reads do not depend on its trap bit. -/
theorem srcV_codes (f r : Nat) (b : Bool) (ls : List Nat) : (srcV f r b ls).map (·.1) = (srcV f r false ls).map (·.1) := by
  unfold srcV
  split
  · split
    · rfl
    · rfl
  · simp [List.map_flatMap, Function.comp_def]

/-- What a field reads is full where the fields read are. -/
theorem srcV_full {t : Ty} {s : State} {fs : List (BitVec 7)} (h : ∀ c ∈ vecRead t s fs, regState s c = .full) {f : BitVec 7} (hf : f ∈ fs)
    (b : Bool) : ∀ e ∈ srcV f.toNat t.regs b (activeLanes s), regState s e.1 = .full := by
  intro e he
  refine h e.1 (List.mem_flatMap.mpr ⟨f, hf, ?_⟩)
  rw [← srcV_codes _ _ b]
  exact List.mem_map_of_mem he

/-! ### Results -/

theorem flagsOf_plain (l : List Nat) (v : Nat → Nat) : flagsOf ((l.map fun i => (i, plainRes (v i))).map fun e => e.2) = 0 := by
  induction l with
  | nil => rfl
  | cons i r ih =>
    rw [List.map_cons, List.map_cons, flagsOf, ih]
    exact BitVec.or_zero

theorem raiseFlags_zero (s : State) : raiseFlags 0 s = s := by
  have hfstat : s.p.fstat ||| ((0 : BitVec 64) &&& fstatMask) = s.p.fstat := by simp
  rw [raiseFlags, hfstat]

/-- Results without flags set none. -/
theorem putResults_plain (t : Ty) (d : Nat) (l : List Nat) (v : Nat → Nat) (s : State) :
    putResults t d (l.map fun i => (i, plainRes (v i))) s = setVAll (l.flatMap fun i => putElem t d i (v i)) s := by
  rw [putResults, flagsOf_plain, List.flatMap_map, raiseFlags_zero]
  rfl

/-- The registers after results and their flags. -/
def Regs.putResults (t : Ty) (d : Nat) (rs : List (Nat × Res)) (r : Regs) : Regs :=
  { r.setVAll (rs.flatMap fun e => putElem t d e.1 e.2.val) with fstat := r.fstat ||| (flagsOf (rs.map fun e => e.2) &&& fstatMask) }

theorem putResults_putRegs (t : Ty) (d : Nat) (rs : List (Nat × Res)) (r : Regs) (x : State) :
    putResults t d rs (putRegs r x) = putRegs (r.putResults t d rs) x := by
  rw [putResults, setVAll_putRegs, raiseFlags_putRegs, Regs.putResults]
  rw [setVAll_regs]

theorem putResults_loops (t : Ty) (d : Nat) (rs : List (Nat × Res)) (s : State) :
    SameLoops (putRegs ((regsOfState s).putResults t d rs) s).p s.p := by
  rw [Regs.putResults, setVAll_regs]
  exact ⟨rfl, rfl, rfl, rfl, rfl, rfl, rfl⟩

/-- A two-source instruction gives each active lane its result. -/
theorem vec3_results {word : BitVec 32} {w : Nat} {o : Op3R} {accept : Ty → Bool} {old : Bool} {f : State → Ty → Nat → Nat → Nat → Res}
    {s : State} {t : Ty} (ht : elemTy s = some t) (haccept : accept t = true) (room : NoSpill s) (hf : ∀ g, f (entered g s) t = f s t)
    (hd : vDstOk t.wide o.d = true) (ha : vSrcOk t.wide o.a = true) (hb : vSrcOk t.wide o.b = true)
    (h : Ready w (vecRead t s (if old then [o.a, o.b, o.d] else [o.a, o.b])) (vecWritten t s o.d) s) :
    Done w (putResults t o.d.toNat ((activeLanes s).map fun i =>
      (i, f s t (elemOf s t o.a.toNat i) (elemOf s t o.b.toNat i) (elemOf s t o.d.toNat i))) s) (vec3 word w o accept old f s) := by
  have hput := putResults_putRegs t o.d.toNat ((activeLanes s).map fun i =>
    (i, f s t (elemOf s t o.a.toNat i) (elemOf s t o.b.toNat i) (elemOf s t o.d.toNat i))) (regsOfState s)
  rw [show putResults _ _ _ s = _ from hput s]
  refine vecIssue_done _ h ht ?_ ?_ (fun _ hc => hc) (fun g => ?_) (putResults_loops ..)
  · rw [hd, ha, hb, haccept]
    rfl
  · intro e he
    rcases List.mem_append.mp he with he | he
    · rcases List.mem_append.mp he with he | he
      · exact srcV_full h.sources (by split <;> simp) _ e he
      · exact srcV_full h.sources (by split <;> simp) _ e he
    · cases old with
      | false => exact absurd he List.not_mem_nil
      | true => exact srcV_full h.sources (f := o.d) (by simp) _ e he
  · simp only [elemOf_entered g room, hf]
    rw [← hput, ← entered_eq g room]

/-- A one-source instruction gives each active lane its result. -/
theorem vec2_results {word : BitVec 32} {w : Nat} {o : Op3A} {accept : Ty → Bool} {f : State → Ty → Nat → Res} {s : State} {t : Ty}
    (ht : elemTy s = some t) (haccept : accept t = true) (room : NoSpill s) (hf : ∀ g, f (entered g s) t = f s t)
    (hd : vDstOk t.wide o.d = true) (ha : vSrcOk t.wide o.a = true) (h : Ready w (vecRead t s [o.a]) (vecWritten t s o.d) s) :
    Done w (putResults t o.d.toNat ((activeLanes s).map fun i => (i, f s t (elemOf s t o.a.toNat i))) s) (vec2 word w o accept f s) := by
  have hput := putResults_putRegs t o.d.toNat ((activeLanes s).map fun i => (i, f s t (elemOf s t o.a.toNat i))) (regsOfState s)
  rw [show putResults _ _ _ s = _ from hput s]
  refine vecIssue_done _ h ht ?_ (srcV_full h.sources (by simp) _) (fun _ hc => hc) (fun g => ?_) (putResults_loops ..)
  · rw [hd, ha, haccept]
    rfl
  · simp only [elemOf_entered g room, hf]
    rw [← hput, ← entered_eq g room]

theorem elemOf_lt (s : State) (t : Ty) (f i : Nat) : elemOf s t f i < 2 ^ t.width := Nat.mod_lt _ (Nat.two_pow_pos _)

/-- A two-source instruction that raises no flag gives each active lane its value. -/
theorem vec3_done {word : BitVec 32} {w : Nat} {o : Op3R} {accept : Ty → Bool} {old : Bool} {f : Ty → Nat → Nat → Nat → Res}
    {v : Ty → Nat → Nat → Nat → Nat} {s : State} {t : Ty} (ht : elemTy s = some t) (haccept : accept t = true)
    (hf : ∀ x y z, x < 2 ^ t.width → y < 2 ^ t.width → z < 2 ^ t.width → f t x y z = plainRes (v t x y z))
    (hd : vDstOk t.wide o.d = true) (ha : vSrcOk t.wide o.a = true) (hb : vSrcOk t.wide o.b = true)
    (h : Ready w (vecRead t s (if old then [o.a, o.b, o.d] else [o.a, o.b])) (vecWritten t s o.d) s) :
    Done w (putLanes t o.d (fun i => v t (elemOf s t o.a.toNat i) (elemOf s t o.b.toNat i) (elemOf s t o.d.toNat i)) s)
      (vec3 word w o accept old (fun _ => f) s) := by
  have hdone := vec3_results (word := word) (f := fun _ => f) ht haccept h.room (fun _ => rfl) hd ha hb h
  simp only [hf _ _ _ (elemOf_lt ..) (elemOf_lt ..) (elemOf_lt ..), putResults_plain] at hdone
  exact hdone

/-- A one-source instruction that raises no flag gives each active lane its value. -/
theorem vec2_done {word : BitVec 32} {w : Nat} {o : Op3A} {accept : Ty → Bool} {f : Ty → Nat → Res} {v : Ty → Nat → Nat}
    {s : State} {t : Ty} (ht : elemTy s = some t) (haccept : accept t = true)
    (hf : ∀ x, x < 2 ^ t.width → f t x = plainRes (v t x))
    (hd : vDstOk t.wide o.d = true) (ha : vSrcOk t.wide o.a = true) (h : Ready w (vecRead t s [o.a]) (vecWritten t s o.d) s) :
    Done w (putLanes t o.d (fun i => v t (elemOf s t o.a.toNat i)) s) (vec2 word w o accept (fun _ => f) s) := by
  have hdone := vec2_results (word := word) (f := fun _ => f) ht haccept h.room (fun _ => rfl) hd ha h
  simp only [hf _ (elemOf_lt ..), putResults_plain] at hdone
  exact hdone

/-! ### Integers (R215) -/

/-- The value of an element is its bits again, modulo 2^w. -/
theorem wrapNat_intVal (t : Ty) {x : Nat} (hx : x < 2 ^ t.width) : wrapNat (t.intVal x) t.width = x := by
  obtain ⟨k, hk⟩ := intVal_congr t x
  rw [wrapNat, hk, Int.add_mul_emod_self_left, ← Int.natCast_mod, Nat.mod_eq_of_lt hx]
  rfl

theorem wrapNat_natCast (x n : Nat) : wrapNat (x : Int) n = x % 2 ^ n := by
  rw [wrapNat, ← Int.natCast_mod]
  rfl

/-- An instruction of two sources and the old d on the elements of an integer type. -/
def IntegerRow (e : (Op3R → Instr) × Bool × (Ty → Nat → Nat → Nat → Int)) : Prop :=
  ∃ (word : Op3R → BitVec 32) (f : Ty → Nat → Nat → Nat → Res),
    (∀ o s, exec (e.1 o) s = .next (vec3 (word o) 1 o Ty.isInt e.2.1 (fun _ => f) s)) ∧
    ∀ t x y z, x < 2 ^ t.width → y < 2 ^ t.width → z < 2 ^ t.width → f t x y z = plainRes (wrapNat (e.2.2 t x y z) t.width)

theorem vectorInteger_rows : ∀ e ∈ vectorInteger, IntegerRow e := by
  simp only [vectorInteger, List.forall_mem_cons]
  refine ⟨⟨_, _, fun _ _ => rfl, fun _ _ _ _ _ _ _ => rfl⟩, ⟨_, _, fun _ _ => rfl, fun _ _ _ _ _ _ _ => rfl⟩,
    ⟨_, _, fun _ _ => rfl, fun _ _ _ _ _ _ _ => rfl⟩, ⟨_, _, fun _ _ => rfl, fun _ _ _ _ _ _ _ => rfl⟩,
    ⟨_, _, fun _ _ => rfl, fun _ _ _ _ _ _ _ => rfl⟩, ⟨_, _, fun _ _ => rfl, fun t x y _ hx hy _ => ?_⟩,
    ⟨_, _, fun _ _ => rfl, fun t x y _ hx hy _ => ?_⟩, ⟨_, _, fun _ _ => rfl, fun t x y _ _ _ _ => ?_⟩,
    ⟨_, _, fun _ _ => rfl, fun t x y _ hx _ _ => ?_⟩, ⟨_, _, fun _ _ => rfl, fun _ _ _ _ _ _ _ => rfl⟩,
    ⟨_, _, fun _ _ => rfl, fun _ _ _ _ _ _ _ => rfl⟩, List.forall_mem_nil _⟩
  · refine congrArg plainRes ?_
    dsimp only
    rw [min_def]
    split
    · rw [wrapNat_intVal t hx]
    · rw [wrapNat_intVal t hy]
  · refine congrArg plainRes ?_
    dsimp only
    rw [max_def]
    split
    · rw [wrapNat_intVal t hy]
    · rw [wrapNat_intVal t hx]
  · exact congrArg plainRes (wrapNat_natCast _ _).symm
  · refine congrArg plainRes ?_
    rw [wrapNat_natCast, Nat.mod_eq_of_lt (Nat.lt_of_le_of_lt (Nat.div_le_self _ _) hx)]
    rfl

/-- An instruction of one source on the elements of an integer type. -/
def IntegerOneRow (e : (Op3A → Instr) × (Ty → Nat → Int)) : Prop :=
  ∃ (word : Op3A → BitVec 32) (f : Ty → Nat → Res), (∀ o s, exec (e.1 o) s = .next (vec2 (word o) 1 o Ty.isInt (fun _ => f) s)) ∧
    ∀ t x, x < 2 ^ t.width → f t x = plainRes (wrapNat (e.2 t x) t.width)

/-- A count of bits of an element is an element. -/
theorem wrapNat_count {n w : Nat} (h : n ≤ w) : wrapNat (n : Int) w = n := by
  rw [wrapNat_natCast, Nat.mod_eq_of_lt (Nat.lt_of_le_of_lt h Nat.lt_two_pow_self)]

theorem vectorIntegerOne_rows : ∀ e ∈ vectorIntegerOne, IntegerOneRow e := by
  simp only [vectorIntegerOne, List.forall_mem_cons]
  refine ⟨⟨_, _, fun _ _ => rfl, fun t x _ => ?_⟩, ⟨_, _, fun _ _ => rfl, fun _ _ _ => rfl⟩,
    ⟨_, _, fun _ _ => rfl, fun t x hx => ?_⟩, ⟨_, _, fun _ _ => rfl, fun t x _ => ?_⟩, List.forall_mem_nil _⟩
  · dsimp only
    rw [intRes, Int.abs_eq_natAbs]
  · refine congrArg plainRes ?_
    dsimp only
    rw [clz_count t.width x hx, wrapNat_count (n := clzNat t.width x) (Nat.sub_le ..)]
  · refine congrArg plainRes ?_
    dsimp only
    rw [wrapNat_count ((List.length_filter_le _ _).trans (Nat.le_of_eq List.length_range)), pop_count]

/-- A bitwise or moving instruction of two sources and the old d. -/
def BitwiseRow (e : (Op3R → Instr) × Bool × (Nat → Nat → Nat → Nat)) : Prop :=
  ∃ (word : Op3R → BitVec 32) (f : Ty → Nat → Nat → Nat → Res),
    (∀ o s, exec (e.1 o) s = .next (vec3 (word o) 1 o (fun _ => true) e.2.1 (fun _ => f) s)) ∧ ∀ t x y z, f t x y z = plainRes (e.2.2 x y z)

theorem vectorBitwise_rows : ∀ e ∈ vectorBitwise, BitwiseRow e := by
  simp only [vectorBitwise, List.forall_mem_cons]
  refine ⟨⟨_, _, fun _ _ => rfl, fun _ _ _ _ => rfl⟩, ⟨_, _, fun _ _ => rfl, fun _ _ _ _ => rfl⟩,
    ⟨_, _, fun _ _ => rfl, fun _ _ _ _ => rfl⟩, ⟨_, _, fun _ _ => rfl, fun _ x y z => ?_⟩, List.forall_mem_nil _⟩
  exact congrArg plainRes (ite_not (z = 0) x y)

/-- A bitwise or moving instruction of one source. -/
def BitwiseOneRow (e : (Op3A → Instr) × (Ty → Nat → Nat)) : Prop :=
  ∃ (word : Op3A → BitVec 32) (f : Ty → Nat → Res),
    (∀ o s, exec (e.1 o) s = .next (vec2 (word o) 1 o (fun _ => true) (fun _ => f) s)) ∧ ∀ t x, f t x = plainRes (e.2 t x)

theorem vectorBitwiseOne_rows : ∀ e ∈ vectorBitwiseOne, BitwiseOneRow e := by
  simp only [vectorBitwiseOne, List.forall_mem_cons]
  exact ⟨⟨_, _, fun _ _ => rfl, fun _ _ => rfl⟩, ⟨_, _, fun _ _ => rfl, fun _ _ => rfl⟩, List.forall_mem_nil _⟩

/-- Settles O13: each row's arm is its shape with the row's function. -/
theorem vectorIntegersWrapToTheirWidth : Obligations.VectorIntegersWrapToTheirWidth := by
  refine ⟨fun e he o s t ht hint hd ha hb h => ?_, fun e he o s t ht hint hd ha h => ?_, fun e he o s t ht hd ha hb h => ?_,
    fun e he o s t ht hd ha h => ?_⟩
  · obtain ⟨word, f, hexec, hf⟩ := vectorInteger_rows e he
    exact ⟨_, hexec o s, vec3_done (v := fun t x y z => wrapNat (e.2.2 t x y z) t.width) ht hint (hf t) hd ha hb h⟩
  · obtain ⟨word, f, hexec, hf⟩ := vectorIntegerOne_rows e he
    exact ⟨_, hexec o s, vec2_done (v := fun t x => wrapNat (e.2 t x) t.width) ht hint (hf t) hd ha h⟩
  · obtain ⟨word, f, hexec, hf⟩ := vectorBitwise_rows e he
    exact ⟨_, hexec o s, vec3_done (v := fun _ x y z => e.2.2 x y z) ht rfl (fun x y z _ _ _ => hf t x y z) hd ha hb h⟩
  · obtain ⟨word, f, hexec, hf⟩ := vectorBitwiseOne_rows e he
    exact ⟨_, hexec o s, vec2_done (v := e.2) ht rfl (fun x _ => hf t x) hd ha h⟩

/-! ### Fields of 32 bits (R217) -/

/-- The value that the machine gives a lane is the one of the rules. -/
def FieldValue (f : Ty → Nat → Nat → Nat → Nat) (t : Ty) (g : BitVec 32 → BitVec 32 → BitVec 32 → BitVec 32) : Prop :=
  ∀ x y z, x < 2 ^ 32 → y < 2 ^ 32 → z < 2 ^ 32 →
    BitVec.ofNat 32 (f t x y z) = g (BitVec.ofNat 32 x) (BitVec.ofNat 32 y) (BitVec.ofNat 32 z)

theorem fieldBits_lt (s : State) (f i : Nat) : fieldBits s f false i < 2 ^ 32 := by
  rw [fieldBits]
  split
  · exact Nat.mod_lt _ (by decide)
  · exact (getV s f i).isLt

/-- An instruction on the 32 bits of each lane gives it its value. -/
theorem vecBits_done {word : BitVec 32} {o : Op3R} {old anyT : Bool} {f : Ty → Nat → Nat → Nat → Nat}
    {g : BitVec 32 → BitVec 32 → BitVec 32 → BitVec 32} {s : State} {t : Ty} (ht : (elemTy s).getD (Ty.n 32) = t)
    (hregs : t.regs = 1) (hok : (match elemTy s with | none => anyT | some t => !t.wide) = true) (hd : o.d.toNat < 96)
    (hg : FieldValue f t g) (h : Ready 1 (vecRead t s (if old then [o.a, o.b, o.d] else [o.a, o.b])) (vecWritten t s o.d) s) :
    Done 1 (putWords o.d.toNat (fun i => (g (laneWord s o.a i) (laneWord s o.b i) (laneWord s o.d i)).toNat) s)
      (vecBits word o old anyT f s) := by
  have hvalue : ∀ i, BitVec.ofNat 32 (f t (fieldBits s o.a.toNat false i) (fieldBits s o.b.toNat false i) (fieldBits s o.d.toNat false i)) =
      BitVec.ofNat 32 (g (laneWord s o.a i) (laneWord s o.b i) (laneWord s o.d i)).toNat := fun i => by
    rw [BitVec.ofNat_toNat, BitVec.setWidth_eq]
    exact hg _ _ _ (fieldBits_lt ..) (fieldBits_lt ..) (fieldBits_lt ..)
  rw [putWords, setVAll_eq, vecBits]
  refine laneIssue_done _ h ?_ ?_ (fun c hc => ?_) (fun form => ?_) (setVAll_loops _ s)
  · rw [show vDstOk false o.d = true by simp [vDstOk, hd], show vSrcOk false o.a = true by simp [vSrcOk],
      show vSrcOk false o.b = true by simp [vSrcOk]]
    exact hok
  · intro e he
    rw [← hregs] at he
    rcases List.mem_append.mp he with he | he
    · rcases List.mem_append.mp he with he | he
      · exact srcV_full h.sources (by split <;> simp) _ e he
      · exact srcV_full h.sources (by split <;> simp) _ e he
    · cases old with
      | false => exact absurd he List.not_mem_nil
      | true => exact srcV_full h.sources (f := o.d) (by simp) _ e he
  · rw [← hregs] at hc
    exact hc
  · simp only [fieldBits_entered form h.room, ht, hvalue]
    exact setVAll_entered _ form h.room

/-- Byte j that `vbcs` selects (R217). -/
theorem pick_value {x y z : Nat} (hx : x < 2 ^ 32) (hy : y < 2 ^ 32) (hz : z < 2 ^ 32) (j : Nat) :
    (BitVec.ofNat 8 (let n := bits z (4 * j) 4
      if n < 4 then bits x (8 * n) 8 else if n < 8 then bits y (8 * (n - 4)) 8 else 0)) =
    vectorField.pick (BitVec.ofNat 32 x) (BitVec.ofNat 32 y) (BitVec.ofNat 32 z) j := by
  have hbyte : ∀ (a n : Nat), a < 2 ^ 32 → BitVec.ofNat 8 (bits a (8 * n) 8) = (BitVec.ofNat 32 a).extractLsb' (8 * n) 8 := fun a n ha => by
    apply BitVec.eq_of_toNat_eq
    rw [BitVec.toNat_ofNat, BitVec.extractLsb'_toNat, BitVec.toNat_ofNat, Nat.mod_eq_of_lt ha, Nat.shiftRight_eq_div_pow, bits]
    exact Nat.mod_mod_of_dvd _ (dvd_refl _)
  have hsel : (BitVec.ofNat 32 z).toNat = z := (BitVec.toNat_ofNat ..).trans (Nat.mod_eq_of_lt hz)
  have hnibble : bits z (4 * j) 4 = z / 2 ^ (4 * j) % 16 := rfl
  rw [vectorField.pick, hsel, hnibble]
  generalize z / 2 ^ (4 * j) % 16 = n
  dsimp only
  rcases Nat.lt_or_ge n 4 with h4 | h4
  · rw [if_pos h4, if_pos (Nat.le_of_lt_succ h4)]
    exact hbyte x _ hx
  · rw [if_neg (Nat.not_lt.mpr h4), if_neg (show ¬ n ≤ 3 by omega)]
    rcases Nat.lt_or_ge n 8 with h8 | h8
    · rw [if_pos h8, if_pos (Nat.le_of_lt_succ h8)]
      exact hbyte y _ hy
    · rw [if_neg (Nat.not_lt.mpr h8), if_neg (show ¬ n ≤ 7 by omega)]
      rfl

theorem ofNat_leNat (b0 b1 b2 b3 : BitVec 8) : BitVec.ofNat 32 (leNat [b0, b1, b2, b3]) = b3 ++ b2 ++ b1 ++ b0 := by
  apply BitVec.eq_of_toNat_eq
  simp only [leNat, toNat_append_add, BitVec.toNat_ofNat]
  omega

theorem selectBytes_value (t : Ty) : FieldValue (fun _ x y z => selectBytes x y z) t fun x y z =>
    vectorField.pick x y z 3 ++ vectorField.pick x y z 2 ++ vectorField.pick x y z 1 ++ vectorField.pick x y z 0 := by
  intro x y z hx hy hz
  dsimp only
  rw [← ofNat_leNat, ← pick_value hx hy hz, ← pick_value hx hy hz, ← pick_value hx hy hz, ← pick_value hx hy hz]
  rfl

theorem ofNat_wrapNat (x : Int) (w : Nat) : BitVec.ofNat w (wrapNat x w) = BitVec.ofInt w x := by
  apply BitVec.eq_of_toNat_eq
  have hpos : ((2 ^ w : Nat) : Int) ≠ 0 := by
    have := Nat.two_pow_pos w
    omega
  have hlt : (x % ((2 ^ w : Nat) : Int)).toNat < 2 ^ w := by
    have := Int.emod_lt_of_pos x (show (0 : Int) < ((2 ^ w : Nat) : Int) by have := Nat.two_pow_pos w; omega)
    have := Int.emod_nonneg x hpos
    omega
  rw [BitVec.toNat_ofNat, BitVec.toNat_ofInt, wrapNat, Nat.mod_eq_of_lt hlt]

theorem extractField_value (t : Ty) : FieldValue (fun t x y _ => extractField t x y) t fun x y _ =>
    let p := fieldAt y.toNat
    let f := x.toNat / 2 ^ p.1 % 2 ^ p.2
    if t.kind = .int ∧ 0 < p.2 then BitVec.ofInt 32 (sextInt f p.2) else BitVec.ofNat 32 f := by
  intro x y z hx hy _
  have hxn : (BitVec.ofNat 32 x).toNat = x := (BitVec.toNat_ofNat ..).trans (Nat.mod_eq_of_lt hx)
  have hyn : (BitVec.ofNat 32 y).toNat = y := (BitVec.toNat_ofNat ..).trans (Nat.mod_eq_of_lt hy)
  dsimp only
  rw [hxn, hyn, extractField, Nat.mod_eq_of_lt hx]
  simp only [apply_ite (BitVec.ofNat 32), ofNat_wrapNat]
  rfl

/-- What is left of a word without the bits of a mask. -/
theorem sub_and_mask {w : Nat} (z m : BitVec w) : z.toNat - (z &&& m).toNat = (z &&& ~~~m).toNat := by
  have hdisjoint : (z &&& m) &&& (z &&& ~~~m) = 0 := by
    ext i hi
    simp only [BitVec.getElem_and, BitVec.getElem_not]
    cases m[i] <;> simp
  have hunion : (z &&& m) ||| (z &&& ~~~m) = z := by
    ext i hi
    simp only [BitVec.getElem_or, BitVec.getElem_and, BitVec.getElem_not]
    cases m[i] <;> simp
  have hsum : (z &&& m) + (z &&& ~~~m) = z := (BitVec.add_eq_or_of_and_eq_zero _ _ hdisjoint).trans hunion
  have hle : (z &&& m).toNat ≤ z.toNat := by
    rw [BitVec.toNat_and]
    exact Nat.and_le_left
  have hsub : z &&& ~~~m = z - (z &&& m) := by
    conv_rhs => lhs; rw [← hsum]
    rw [BitVec.add_comm, BitVec.add_sub_cancel]
  rw [hsub, BitVec.toNat_sub_of_le hle]

theorem insertField_value (t : Ty) : FieldValue (fun _ x y z => insertField x y z) t fun x y z =>
    let p := fieldAt y.toNat
    let mask := BitVec.ofNat 32 ((2 ^ p.2 - 1) * 2 ^ p.1)
    (z &&& ~~~mask) ||| (BitVec.ofNat 32 (x.toNat * 2 ^ p.1) &&& mask) := by
  intro x y z hx hy hz
  have hxn : (BitVec.ofNat 32 x).toNat = x := (BitVec.toNat_ofNat ..).trans (Nat.mod_eq_of_lt hx)
  have hyn : (BitVec.ofNat 32 y).toNat = y := (BitVec.toNat_ofNat ..).trans (Nat.mod_eq_of_lt hy)
  have hzn : (BitVec.ofNat 32 z).toNat = z := (BitVec.toNat_ofNat ..).trans (Nat.mod_eq_of_lt hz)
  dsimp only
  rw [hxn, hyn, insertField, Nat.mod_eq_of_lt hz]
  apply BitVec.eq_of_toNat_eq
  rw [BitVec.toNat_or, ← sub_and_mask, BitVec.toNat_and, BitVec.toNat_and, hzn, BitVec.toNat_ofNat, BitVec.toNat_ofNat, BitVec.toNat_ofNat]
  have hmask : (2 ^ (fieldAt y).2 - 1) * 2 ^ (fieldAt y).1 = (2 ^ fieldLen y - 1) * 2 ^ fieldPos y := rfl
  rw [hmask]
  generalize (2 ^ fieldLen y - 1) * 2 ^ fieldPos y = m
  show ((z - (z &&& (m % 2 ^ 32))) ||| (x * 2 ^ fieldPos y &&& (m % 2 ^ 32))) % 2 ^ 32 = _
  rw [Nat.or_mod_two_pow, Nat.and_mod_two_pow, Nat.mod_mod, Nat.mod_eq_of_lt (Nat.lt_of_le_of_lt (Nat.sub_le ..) hz)]
  rfl

/-- Settles O14. -/
theorem vectorFieldsActOnThirtyTwoBits : Obligations.VectorFieldsActOnThirtyTwoBits := by
  refine ⟨fun e he o s t ht hwide hd h => ?_, fun o s ht hd h => ?_⟩
  · have hregs : t.regs = 1 := by rw [Ty.regs, hwide]; rfl
    have hget : (elemTy s).getD (Ty.n 32) = t := by rw [ht]; rfl
    have hok : ∀ anyT, (match elemTy s with | none => anyT | some t => !t.wide) = true := fun anyT => by
      rw [ht]
      exact congrArg not hwide
    simp only [vectorField, List.mem_cons, List.not_mem_nil, or_false] at he
    obtain rfl | rfl | rfl := he
    · exact ⟨_, rfl, vecBits_done hget hregs (hok true) hd (selectBytes_value t) h⟩
    · exact ⟨_, rfl, vecBits_done hget hregs (hok false) hd (extractField_value t) h⟩
    · exact ⟨_, rfl, vecBits_done hget hregs (hok false) hd (insertField_value t) h⟩
  · exact ⟨_, rfl, vecBits_done (by rw [ht]; rfl) rfl (by rw [ht]) hd (selectBytes_value (Ty.n 32)) h⟩

/-! ### Floats (R219, R221) -/

/-- A float instruction of two sources and the old d, under the rounding and the flush of MODE. -/
def FloatRow (e : (Op3R → Instr) × Bool × (Ty → Rounding → Bool → Nat → Nat → Nat → Res)) : Prop :=
  ∃ word : Op3R → BitVec 32, ∀ o s, exec (e.1 o) s =
    .next (vec3 (word o) 1 o Ty.isFloat e.2.1 (fun s t x y z => e.2.2 t (rmOf (modeRm s)) (modeFz s) x y z) s)

theorem vectorFloat_rows : ∀ e ∈ vectorFloat, FloatRow e := by
  simp only [vectorFloat, List.forall_mem_cons]
  exact ⟨⟨_, fun _ _ => rfl⟩, ⟨_, fun _ _ => rfl⟩, ⟨_, fun _ _ => rfl⟩, ⟨_, fun _ _ => rfl⟩, ⟨_, fun _ _ => rfl⟩, ⟨_, fun _ _ => rfl⟩,
    List.forall_mem_nil _⟩

/-- A float instruction of one source. -/
def FloatOneRow (e : (Op3A → Instr) × Nat × (Ty → Rounding → Bool → Nat → Res)) : Prop :=
  ∃ (word : Op3A → BitVec 32) (f : State → Ty → Nat → Res), (∀ o s, exec (e.1 o) s = .next (vec2 (word o) e.2.1 o Ty.isFloat f s)) ∧
    ∀ s t x, f s t x = e.2.2 t (rmOf (modeRm s)) (modeFz s) x

/-- A float with its sign set anew is as the rules turn it. -/
theorem withSign_turned (s : State) (t : Ty) (x : Nat) (f : Bool → Bool) :
    withSign s t x f = vectorFloatOne.turned t f x (readFloat t (modeFz s) x) := by
  rw [withSign, rdF]
  cases readFloat t (modeFz s) x with
  | nan g p q => rfl
  | inf g => rfl
  | fin g m e =>
    refine congrArg plainRes ?_
    split
    · exact (Nat.zero_add _).symm
    · rfl

theorem vectorFloatOne_rows : ∀ e ∈ vectorFloatOne, FloatOneRow e := by
  simp only [vectorFloatOne, List.forall_mem_cons]
  exact ⟨⟨_, _, fun _ _ => rfl, fun s t x => withSign_turned s t x _⟩, ⟨_, _, fun _ _ => rfl, fun s t x => withSign_turned s t x _⟩,
    ⟨_, _, fun _ _ => rfl, fun _ _ _ => rfl⟩, ⟨_, _, fun _ _ => rfl, fun _ _ _ => rfl⟩, ⟨_, _, fun _ _ => rfl, fun _ _ _ => rfl⟩,
    ⟨_, _, fun _ _ => rfl, fun _ _ _ => rfl⟩, ⟨_, _, fun _ _ => rfl, fun _ _ _ => rfl⟩, ⟨_, _, fun _ _ => rfl, fun _ _ _ => rfl⟩,
    ⟨_, _, fun _ _ => rfl, fun _ _ _ => rfl⟩, ⟨_, _, fun _ _ => rfl, fun _ _ _ => rfl⟩, List.forall_mem_nil _⟩

/-- Settles O15: the rounding and the flush of MODE are those before and after the region of the instruction is entered. -/
theorem vectorFloatsRoundAndRaiseFlags : Obligations.VectorFloatsRoundAndRaiseFlags := by
  refine ⟨fun e he o s t ht hfloat hd ha hb h => ?_, fun e he o s t ht hfloat hd ha h => ?_⟩
  · obtain ⟨word, hexec⟩ := vectorFloat_rows e he
    exact ⟨_, hexec o s, vec3_results (f := fun s t x y z => e.2.2 t (rmOf (modeRm s)) (modeFz s) x y z) ht hfloat h.room
      (fun g => by rw [modeRm_entered g h.room, modeFz_entered g h.room]) hd ha hb h⟩
  · obtain ⟨word, f, hexec, hf⟩ := vectorFloatOne_rows e he
    have hdone := vec2_results (word := word o) (w := e.2.1) (f := f) ht hfloat h.room
      (fun g => funext fun x => by rw [hf, hf, modeRm_entered g h.room, modeFz_entered g h.room]) hd ha h
    simp only [hf] at hdone
    exact ⟨_, hexec o s, hdone⟩

/-! ### Comparisons and classes (R218, R220, R222) -/

theorem setPAll_regs (l : List (Nat × Nat × Bool)) (r : Regs) : r.setPAll l = { r with preds := (r.setPAll l).preds } := by
  induction l generalizing r with
  | nil => rfl
  | cons e t ih => exact ih (r.setP e.1 e.2.1 e.2.2)

/-- The registers after relations and their flags. -/
def Regs.putRelations (d : Nat) (rs : List (Nat × (Bool × Bool × Bool × Bool) × BitVec 64)) (r : Regs) : Regs :=
  { r.setPAll ((rs.map fun e => (e.1, e.2.1)).flatMap fun e => [(d, e.1, e.2.1), (d + 1, e.1, e.2.2.1), (d + 2, e.1, e.2.2.2.1),
      (d + 3, e.1, e.2.2.2.2)]) with fstat := r.fstat ||| (rs.foldl (fun m e => m ||| e.2.2) 0 &&& fstatMask) }

theorem putRelations_putRegs (d : Nat) (rs : List (Nat × (Bool × Bool × Bool × Bool) × BitVec 64)) (r : Regs) (x : State) :
    raiseFlags (rs.foldl (fun m e => m ||| e.2.2) 0) (putGroup d (rs.map fun e => (e.1, e.2.1)) (putRegs r x)) =
      putRegs (r.putRelations d rs) x := by
  rw [putGroup, setPAll_putRegs, raiseFlags_putRegs, Regs.putRelations]
  rw [setPAll_regs]

theorem putRelations_loops (d : Nat) (rs : List (Nat × (Bool × Bool × Bool × Bool) × BitVec 64)) (s : State) :
    SameLoops (putRegs ((regsOfState s).putRelations d rs) s).p s.p := by
  rw [Regs.putRelations, setPAll_regs]
  exact ⟨rfl, rfl, rfl, rfl, rfl, rfl, rfl⟩

/-- Predicates are always full (R103). -/
theorem groupLanes_full {s : State} {d : Nat} (hd : d < 16) (hgroup : d % 4 = 0) {ls : List Nat} (hls : ∀ i ∈ ls, i < 64) :
    ∀ c ∈ groupLanes d ls, regState s c = .full := by
  have hpred : ∀ n < 16, ∀ i < 64, regState s (codeP n i) = .full := fun n hn i hi => by
    rw [regState, codeP, if_neg (by omega), if_neg (by omega)]
  intro c hc
  obtain ⟨i, hi, hc⟩ := List.mem_flatMap.mp hc
  have hi := hls i hi
  simp only [List.mem_cons, List.not_mem_nil, or_false] at hc
  obtain rfl | rfl | rfl | rfl := hc
  · exact hpred _ (by omega) _ hi
  · exact hpred _ (by omega) _ hi
  · exact hpred _ (by omega) _ hi
  · exact hpred _ (by omega) _ hi

theorem lt_of_active {s : State} {i : Nat} (h : i ∈ activeLanes s) : i < 64 := (mem_lanesOf.mp (mem_members_of_active h)).1

/-- A comparison gives each active lane its relations, and raises the flags of all. -/
theorem vecCmp_done {word : BitVec 32} {o : Op3R} {accept : Ty → Bool}
    {f : State → Ty → Nat → Nat → (Bool × Bool × Bool × Bool) × BitVec 64} {s : State} {t : Ty} (ht : elemTy s = some t)
    (haccept : accept t = true) (hd : o.d.toNat < 16) (hgroup : o.d.toNat % 4 = 0) (ha : vSrcOk t.wide o.a = true)
    (hb : vSrcOk t.wide o.b = true) (hf : ∀ g, f (entered g s) t = f s t) (h : Ready 1 (vecRead t s [o.a, o.b]) [] s) :
    let rs := (activeLanes s).map fun i => (i, f s t (elemOf s t o.a.toNat i) (elemOf s t o.b.toNat i))
    Done 1 (raiseFlags (rs.foldl (fun m e => m ||| e.2.2) 0) (putGroup o.d.toNat (rs.map fun e => (e.1, e.2.1)) s))
      (vecCmp word o accept f s) := by
  intro rs
  have hput := putRelations_putRegs o.d.toNat rs (regsOfState s)
  have hready : Ready 1 (vecRead t s [o.a, o.b]) (groupLanes o.d.toNat (activeLanes s)) s :=
    { h with dests := groupLanes_full hd hgroup fun _ => lt_of_active }
  rw [show raiseFlags _ (putGroup _ _ s) = _ from hput s]
  refine vecIssue_done _ hready ht ?_ ?_ (fun _ hc => hc) (fun g => ?_) (putRelations_loops ..)
  · rw [groupOk, decide_eq_true hd, hgroup, ha, hb, haccept]
    rfl
  · intro e he
    rcases List.mem_append.mp he with he | he
    · exact srcV_full h.sources (by simp) _ e he
    · exact srcV_full h.sources (by simp) _ e he
  · simp only [elemOf_entered g h.room, hf]
    rw [← hput, ← entered_eq g h.room]

theorem putGroup_eq (d : BitVec 7) (f : Nat → Bool × Bool × Bool × Bool) (s : State) :
    putGroup d.toNat ((activeLanes s).map fun i => (i, f i)) s = putRelations d f s := by
  rw [putGroup, putRelations, List.flatMap_map]

theorem foldl_flags (l : List Nat) (b : Nat → Bool) (m : BitVec 64) (hm : m = 0 ∨ m = flagNV) :
    l.foldl (fun m i => m ||| (if b i then flagNV else 0)) m = if m = flagNV ∨ l.any b = true then flagNV else 0 := by
  induction l generalizing m with
  | nil => rcases hm with rfl | rfl <;> rfl
  | cons i r ih =>
    rw [List.foldl_cons, List.any_cons]
    cases hb : b i with
    | true =>
      have hnv : (m ||| if true = true then flagNV else 0) = flagNV := by rcases hm with rfl | rfl <;> decide
      rw [hnv, ih _ (.inr rfl)]
      simp
    | false =>
      have hkeep : (m ||| if false = true then flagNV else 0) = m := by simp
      rw [hkeep, ih _ hm, Bool.false_or]

/-- A pair of floats of which one signals is unordered. -/
theorem isNan_of_signals {a b : Num} (h : signals [a, b] = true) : (a.isNan || b.isNan) = true := by
  cases a <;> cases b <;> simp_all [signals, Num.isNan]

/-- A relation of a pair of floats that is false where they are unordered (R220). -/
def relationOf (a b : Num) (f : Int → Bool) : Bool := !(a.isNan || b.isNan) && f (cmpNum a b)

theorem compareFloat_eq (s : State) (t : Ty) (x y : Nat) : compareFloat s t x y =
    ((relationOf (rdF s t x) (rdF s t y) (fun c => decide (c < 0)), relationOf (rdF s t x) (rdF s t y) (fun c => decide (c ≤ 0)),
      relationOf (rdF s t x) (rdF s t y) (fun c => decide (c = 0)), (rdF s t x).isNan || (rdF s t y).isNan),
      if signals [rdF s t x, rdF s t y] then flagNV else 0) := by
  rw [compareFloat]
  dsimp only
  generalize rdF s t x = a
  generalize rdF s t y = b
  simp only [relationOf]
  cases h : a.isNan || b.isNan with
  | true => rfl
  | false =>
    have hquiet : signals [a, b] = false := by
      cases hs : signals [a, b] with
      | false => rfl
      | true => exact absurd (isNan_of_signals hs) (by rw [h]; nofun)
    rw [hquiet]
    rfl

theorem vcmp_done {o : Op3R} {s : State} {t : Ty} (ht : elemTy s = some t) (hint : t.isInt = true) (hd : o.d.toNat < 16)
    (hgroup : o.d.toNat % 4 = 0) (ha : vSrcOk t.wide o.a = true) (hb : vSrcOk t.wide o.b = true) (h : Ready 1 (vecRead t s [o.a, o.b]) [] s) :
    ∃ u, exec (.vcmp o) s = .next u ∧ Done 1 (putRelations o.d (fun i =>
      (decide (t.intVal (elemOf s t o.a.toNat i) < t.intVal (elemOf s t o.b.toNat i)),
        decide (t.intVal (elemOf s t o.a.toNat i) ≤ t.intVal (elemOf s t o.b.toNat i)),
        decide (t.intVal (elemOf s t o.a.toNat i) = t.intVal (elemOf s t o.b.toNat i)), false)) s) u := by
  have hdone := vecCmp_done (word := wordOf (encode (.vcmp o))) (f := fun _ t x y => ((decide (t.intVal x < t.intVal y),
    decide (t.intVal x ≤ t.intVal y), decide (t.intVal x = t.intVal y), false), 0)) ht hint hd hgroup ha hb (fun _ => rfl) h
  have hflags : ∀ (l : List Nat) (m : BitVec 64), l.foldl (fun m (_ : Nat) => m ||| (0 : BitVec 64)) m = m := fun l => by
    induction l with
    | nil => exact fun _ => rfl
    | cons _ _ ih => exact fun m => (ih _).trans BitVec.or_zero
  simp only [List.map_map, List.foldl_map, Function.comp_def, hflags, raiseFlags_zero, putGroup_eq] at hdone
  exact ⟨_, rfl, hdone⟩

theorem vfcmp_done {o : Op3R} {s : State} {t : Ty} (ht : elemTy s = some t) (hfloat : t.isFloat = true) (hd : o.d.toNat < 16)
    (hgroup : o.d.toNat % 4 = 0) (ha : vSrcOk t.wide o.a = true) (hb : vSrcOk t.wide o.b = true) (h : Ready 1 (vecRead t s [o.a, o.b]) [] s) :
    let x i := readFloat t (modeFz s) (elemOf s t o.a.toNat i)
    let y i := readFloat t (modeFz s) (elemOf s t o.b.toNat i)
    ∃ u, exec (.vfcmp o) s = .next u ∧
      Done 1 (raiseFlags (if (activeLanes s).any (fun i => signals [x i, y i]) then flagNV else 0)
        (putRelations o.d (fun i => (relationOf (x i) (y i) (fun c => decide (c < 0)), relationOf (x i) (y i) (fun c => decide (c ≤ 0)),
          relationOf (x i) (y i) (fun c => decide (c = 0)), (x i).isNan || (y i).isNan)) s)) u := by
  have hdone := vecCmp_done (word := wordOf (encode (.vfcmp o))) (f := compareFloat) ht hfloat hd hgroup ha hb
    (fun g => funext fun x => funext fun y => by rw [compareFloat_eq, compareFloat_eq, rdF, rdF, rdF, rdF, modeFz_entered g h.room]) h
  simp only [List.map_map, List.foldl_map, Function.comp_def, compareFloat_eq, putGroup_eq] at hdone
  rw [foldl_flags _ _ 0 (.inl rfl)] at hdone
  have hnv : (0 : BitVec 64) ≠ flagNV := by decide
  simp only [hnv, false_or] at hdone
  exact ⟨_, rfl, hdone⟩

theorem classBit_eq (s : State) (t : Ty) (x : Nat) : classBit s t x = floatClass t x (readFloat t (modeFz s) x) := by
  rw [classBit, rdF]
  cases readFloat t (modeFz s) x with
  | nan g p q => rfl
  | inf g => rfl
  | fin g m e => rfl

theorem vfclass_done {o : Op3A} {s : State} {t : Ty} (ht : elemTy s = some t) (hfloat : t.isFloat = true) (hd : o.d.toNat < 96)
    (ha : vSrcOk t.wide o.a = true) (h : Ready 1 (vecRead t s [o.a]) (dstV o.d.toNat 1 (activeLanes s)) s) :
    ∃ u, exec (.vfclass o) s = .next u ∧ Done 1 (putWords o.d.toNat (fun i =>
      2 ^ floatClass t (elemOf s t o.a.toNat i) (readFloat t (modeFz s) (elemOf s t o.a.toNat i))) s) u := by
  refine ⟨_, rfl, ?_⟩
  rw [putWords, setVAll_eq]
  refine vecIssue_done _ h ht ?_ (srcV_full h.sources (by simp) _) (fun _ hc => hc) (fun g => ?_) (setVAll_loops _ s)
  · rw [show vDstOk false o.d = true by simp [vDstOk, hd], ha, hfloat]
    rfl
  · simp only [classBit_eq, elemOf_entered g h.room, modeFz_entered g h.room]
    exact setVAll_entered _ g h.room

/-- Settles O16: only a signalling NaN raises a flag, and a pair with one is unordered. -/
theorem comparisonsWriteFourPredicates : Obligations.ComparisonsWriteFourPredicates :=
  ⟨fun _ _ _ ht hd hgroup ha hb h =>
    ⟨fun hint => vcmp_done ht hint hd hgroup ha hb h, fun hfloat => vfcmp_done ht hfloat hd hgroup ha hb h⟩,
    fun _ _ _ ht hfloat hd ha h => vfclass_done ht hfloat hd ha h⟩

end Sys2Proof.Machine
end

section
/-! PROOF. Conversions, packing and the cross-lane instructions (spec/10_isa_vector.md R223 to R233). -/

namespace Sys2Proof.Machine

open Sys2Proof.Rules

/-! ### Results with flags -/

/-- The registers after lane values and flags. -/
def Regs.putFlagged (l : List (Nat × Nat × BitVec 32)) (m : BitVec 64) (r : Regs) : Regs :=
  { r.setVAll l with fstat := r.fstat ||| (m &&& fstatMask) }

theorem putFlagged_putRegs (l : List (Nat × Nat × BitVec 32)) (m : BitVec 64) (r : Regs) (x : State) :
    raiseFlags m (setVAll l (putRegs r x)) = putRegs (r.putFlagged l m) x := by
  rw [setVAll_putRegs, raiseFlags_putRegs, Regs.putFlagged]
  rw [setVAll_regs]

theorem putFlagged_loops (l : List (Nat × Nat × BitVec 32)) (m : BitVec 64) (s : State) :
    SameLoops (putRegs ((regsOfState s).putFlagged l m) s).p s.p := by
  rw [Regs.putFlagged, setVAll_regs]
  exact ⟨rfl, rfl, rfl, rfl, rfl, rfl, rfl⟩

theorem putLanes_flagged (t : Ty) (d : BitVec 7) (v : Nat → Nat) (m : BitVec 64) (s : State) : raiseFlags m (putLanes t d v s) =
    putRegs ((regsOfState s).putFlagged ((activeLanes s).flatMap fun i => putElem t d.toNat i (v i)) m) s :=
  putFlagged_putRegs _ m (regsOfState s) s

/-- A vector instruction that writes lane values and raises flags is done. -/
theorem vecFlagged_done {word : BitVec 32} {w : Nat} {ok : Ty → Bool} {srcs : Ty → List Nat → List (Nat × Bool)}
    {extra : List Nat → List Nat} {dsts : Ty → List Nat → List Nat} {effect : Ty → List Nat → State → State} {s : State} {t : Ty}
    {rd wr : List Nat} {l : List (Nat × Nat × BitVec 32)} {m : BitVec 64} (h : Ready w rd wr s) (ht : elemTy s = some t)
    (hok : ok t = true) (hsrcs : ∀ e ∈ srcs t (activeLanes s), regState s e.1 = .full)
    (hdsts : ∀ c ∈ dsts t (activeLanes s), c ∈ wr)
    (he : ∀ f, effect t (activeLanes s) (entered f s) = raiseFlags m (setVAll l (entered f s))) :
    Done w (raiseFlags m (setVAll l s)) (vecIssue word w ok srcs extra dsts effect s) := by
  rw [show raiseFlags m (setVAll l s) = _ from putFlagged_putRegs l m (regsOfState s) s]
  refine vecIssue_done _ h ht hok hsrcs hdsts (fun f => ?_) (putFlagged_loops l m s)
  rw [he, ← putFlagged_putRegs, ← entered_eq f h.room]

/-- A vector instruction that writes lane values is done. -/
theorem vecLanes_done {word : BitVec 32} {w : Nat} {ok : Ty → Bool} {srcs : Ty → List Nat → List (Nat × Bool)}
    {extra : List Nat → List Nat} {dsts : Ty → List Nat → List Nat} {effect : Ty → List Nat → State → State} {s : State} {t : Ty}
    {rd wr : List Nat} {l : List (Nat × Nat × BitVec 32)} (h : Ready w rd wr s) (ht : elemTy s = some t)
    (hok : ok t = true) (hsrcs : ∀ e ∈ srcs t (activeLanes s), regState s e.1 = .full)
    (hdsts : ∀ c ∈ dsts t (activeLanes s), c ∈ wr)
    (he : ∀ f, effect t (activeLanes s) (entered f s) = setVAll l (entered f s)) :
    Done w (setVAll l s) (vecIssue word w ok srcs extra dsts effect s) := by
  rw [setVAll_eq]
  exact vecIssue_done _ h ht hok hsrcs hdsts (fun f => (he f).trans (setVAll_entered l f h.room)) (setVAll_loops l s)

/-! ### Conversions (R223) -/

theorem convEnv_entered (f : Form) {s : State} (room : NoSpill s) : convEnv (entered f s) = convEnv s := by
  funext c i j
  unfold convEnv
  simp only [modeRm_entered f room, modeFz_entered f room, modeCv_entered f room, clock_entered f room, gangIndex_entered f room]

/-- A conversion to the class of its row. -/
def ConversionRow (e : (Op3A → Instr) × Class) : Prop :=
  ∃ word : Op3A → BitVec 32, ∀ o s, exec (e.1 o) s = .next (vecCvt (word o) o e.2 s)

theorem vectorConvert_rows : ∀ e ∈ vectorConvert, ConversionRow e := by
  simp only [vectorConvert, List.forall_mem_cons]
  exact ⟨⟨_, fun _ _ => rfl⟩, ⟨_, fun _ _ => rfl⟩, ⟨_, fun _ _ => rfl⟩, ⟨_, fun _ _ => rfl⟩, ⟨_, fun _ _ => rfl⟩, ⟨_, fun _ _ => rfl⟩,
    ⟨_, fun _ _ => rfl⟩, ⟨_, fun _ _ => rfl⟩, ⟨_, fun _ _ => rfl⟩, ⟨_, fun _ _ => rfl⟩, ⟨_, fun _ _ => rfl⟩, ⟨_, fun _ _ => rfl⟩,
    ⟨_, fun _ _ => rfl⟩, ⟨_, fun _ _ => rfl⟩, ⟨_, fun _ _ => rfl⟩, ⟨_, fun _ _ => rfl⟩, ⟨_, fun _ _ => rfl⟩, List.forall_mem_nil _⟩

/-- Settles O17: a conversion reads MODE, the clock and the index of its gang, which the entry of a region leaves. -/
theorem conversionsNarrowToTheirClass : Obligations.ConversionsNarrowToTheirClass := by
  intro e he o s t ht wide hd ha h r
  obtain ⟨word, hexec⟩ := vectorConvert_rows e he
  refine ⟨_, hexec o s, ?_⟩
  refine vecFlagged_done h ht ?_ (srcV_full h.sources (by simp) _) (fun _ hc => hc) fun f => ?_
  · rw [show vDstOk (classWide e.2) o.d = true from hd, ha]
    rfl
  · simp only [convEnv_entered f h.room, elemOf_entered f h.room, List.map_map, List.flatMap_map, Function.comp_def]
    rfl

/-! ### Packing (R224, R225) -/

theorem packClass_of_packing : ∀ k ∈ packings, packClass k.1 = some k.2 ∧ 0 < k.2.2.2 := by decide

theorem countFrom_eq (a n : Nat) : countFrom a n = (List.range n).map (a + ·) := by
  induction n generalizing a with
  | zero => rfl
  | succ n ih =>
    rw [countFrom, ih, List.range_succ_eq_map, List.map_cons, List.map_map]
    exact congrArg (a :: ·) (List.map_congr_left fun j _ => by rw [Function.comp_apply]; omega)

theorem countFrom_zero (n : Nat) : countFrom 0 n = List.range n := by
  rw [countFrom_eq]
  simp

/-- Registers below v96, one after the other, are full where the fields that name each are. -/
theorem srcV_run_full {s : State} {t : Ty} (ht : t.regs = 1) {a : BitVec 7} {n : Nat} (hn : 0 < n) (ha : a.toNat + n ≤ 96)
    (h : ∀ c ∈ vecRead t s ((List.range n).map fun j => a + BitVec.ofNat 7 j), regState s c = .full) (b : Bool) :
    ∀ e ∈ srcV a.toNat n b (activeLanes s), regState s e.1 = .full := by
  intro e he
  rw [srcV, if_neg (by omega)] at he
  obtain ⟨i, hi, he⟩ := List.mem_flatMap.mp he
  obtain ⟨m, hm, rfl⟩ := List.mem_map.mp he
  obtain ⟨hlo, hhi⟩ := mem_countFrom.mp hm
  have hfield : (a + BitVec.ofNat 7 (m - a.toNat)).toNat = m := by
    rw [BitVec.toNat_add, BitVec.toNat_ofNat]
    omega
  refine h _ (List.mem_flatMap.mpr ⟨a + BitVec.ofNat 7 (m - a.toNat), List.mem_map.mpr ⟨m - a.toNat, List.mem_range.mpr (by omega), rfl⟩, ?_⟩)
  rw [hfield, srcV, if_neg (by omega), ht]
  exact List.mem_map.mpr ⟨(codeV m i, false), List.mem_flatMap.mpr ⟨i, hi, List.mem_map.mpr ⟨m, mem_countFrom.mpr (by omega), rfl⟩⟩, rfl⟩

theorem packGroupOk_of {f n : Nat} {t : Ty} (hfits : f + t.regs * n ≤ 96) (heven : t.wide = true → f % 2 = 0) :
    packGroupOk f t.regs n = true := by
  rw [packGroupOk, decide_eq_true hfits, Bool.true_and, Ty.regs]
  cases hw : t.wide with
  | false => rfl
  | true => rw [heven hw]; rfl

/-- The sum over a range, as a fold adds it up. -/
theorem foldl_codes (e n : Nat) (v : Nat → Res) :
    ((List.range n).map fun j => (j, v j)).foldl (fun w r => w + codeBits e r.2.val * 2 ^ (e * r.1)) 0 =
      ((List.range n).map fun j => (v j).val % 2 ^ e * 2 ^ (e * j)).sum := by
  rw [List.foldl_map, List.sum_eq_foldl, List.foldl_map]
  rfl

theorem regs_pos (t : Ty) : 0 < t.regs := by
  rw [Ty.regs]
  split <;> decide

theorem vpack_done {k : Nat × Class × Nat × Nat} (hk : k ∈ packings) {o : Op3K} {s : State} {t : Ty} (hcode : o.k.toNat = k.1)
    (ht : elemTy s = some t) (hd : o.d.toNat < 96) (hfits : o.a.toNat + t.regs * k.2.2.2 ≤ 96)
    (heven : t.wide = true → o.a.toNat % 2 = 0)
    (h : Ready 2 (vecRead { t with width := 32 } s ((List.range (t.regs * k.2.2.2)).map fun j => o.a + BitVec.ofNat 7 j))
      (dstV o.d.toNat 1 (activeLanes s)) s) :
    let r i j := convertElem (convEnv s k.2.1 i j) t (elemOf s t (o.a.toNat + t.regs * j) i) k.2.1
    ∃ u, exec (.vpack o) s = .next u ∧
      Done 2 (raiseFlags (flagsOf ((activeLanes s).flatMap fun i => (List.range k.2.2.2).map (r i)))
        (putWords o.d.toNat (fun i => ((List.range k.2.2.2).map fun j =>
          (r i j).val % 2 ^ k.2.2.1 * 2 ^ (k.2.2.1 * j)).sum) s)) u := by
  intro r
  obtain ⟨hclass, hn⟩ := packClass_of_packing k hk
  refine ⟨_, rfl, ?_⟩
  simp only [hcode, hclass]
  refine vecFlagged_done h ht ?_ (srcV_run_full rfl (Nat.mul_pos (regs_pos t) hn) hfits h.sources _) (fun _ hc => hc) fun f => ?_
  · rw [show vDstOk false o.d = true by simp [vDstOk, hd], packGroupOk_of hfits heven]
    rfl
  · simp only [convEnv_entered f h.room, elemOf_entered f h.room, countFrom_zero, foldl_codes, List.map_map, Function.comp_def]
    rfl

theorem vunpk_done {k : Nat × Class × Nat × Nat} (hk : k ∈ packings) {o : Op3K} {s : State} {t : Ty} (hcode : o.k.toNat = k.1)
    (ht : elemTy s = some t) (ha : o.a.toNat < 96) (hfits : o.d.toNat + t.regs * k.2.2.2 ≤ 96)
    (heven : t.wide = true → o.d.toNat % 2 = 0)
    (h : Ready 2 (vecRead { t with width := 32 } s [o.a]) (dstV o.d.toNat (t.regs * k.2.2.2) (activeLanes s)) s) :
    let r i j := unpackElem (convEnv s (classOfTy t) i j) k.2.1
      (fieldBits s o.a.toNat false i / 2 ^ (k.2.2.1 * j) % 2 ^ k.2.2.1) t
    ∃ u, exec (.vunpk o) s = .next u ∧
      Done 2 (raiseFlags (flagsOf ((activeLanes s).flatMap fun i => (List.range k.2.2.2).map (r i)))
        (setVAll ((activeLanes s).flatMap fun i => (List.range k.2.2.2).flatMap fun j =>
          putElem t (o.d.toNat + t.regs * j) i (r i j).val) s)) u := by
  intro r
  obtain ⟨hclass, -⟩ := packClass_of_packing k hk
  refine ⟨_, rfl, ?_⟩
  simp only [hcode, hclass]
  refine vecFlagged_done h ht ?_ (srcV_full (t := { t with width := 32 }) h.sources (by simp) _) (fun _ hc => hc) fun f => ?_
  · rw [packGroupOk_of hfits heven, decide_eq_true ha]
    rfl
  · simp only [convEnv_entered f h.room, fieldBits_entered f h.room, countFrom_zero, List.map_flatMap, List.flatMap_assoc,
      List.flatMap_map, List.map_map, Function.comp_def]
    rfl

/-- Settles O18: a packed lane is the sum of its elements at their places, and each is read there again. -/
theorem packAndUnpackConvertElements : Obligations.PackAndUnpackConvertElements :=
  fun _ hk _ _ _ hcode ht => ⟨vpack_done hk hcode ht, vunpk_done hk hcode ht⟩

/-! ### Shuffles (R226, R227) -/

theorem mem_ins {a b : Nat} {l : List Nat} (h : b ∈ sortNub.ins a l) : b = a ∨ b ∈ l := by
  induction l with
  | nil => exact .inl (List.mem_singleton.mp h)
  | cons c r ih =>
    rw [sortNub.ins] at h
    split at h
    · exact List.mem_cons.mp h
    · split at h
      · exact .inr h
      · rcases List.mem_cons.mp h with rfl | h
        · exact .inr (List.mem_cons_self ..)
        · exact (ih h).imp_right (List.mem_cons_of_mem c)

theorem mem_of_mem_sortNub {b : Nat} {l : List Nat} (h : b ∈ sortNub l) : b ∈ l := by
  induction l with
  | nil => exact h
  | cons a r ih =>
    rcases mem_ins h with rfl | h
    · exact List.mem_cons_self ..
    · exact List.mem_cons_of_mem a (ih h)

theorem segmentWidth_eq (w y : Nat) : segmentWidth w y = segment w y := by
  have hk : y / 2 ^ 8 % 8 < 8 := Nat.mod_lt _ (by decide)
  rw [segmentWidth, Rules.segment, bits, Nat.min_comm]
  refine congrArg (min w) ?_
  generalize y / 2 ^ 8 % 2 ^ 3 = k at hk ⊢
  match k, hk with
  | 0, _ => rfl
  | 1, _ => rfl
  | 2, _ => rfl
  | 3, _ => rfl
  | 4, _ => rfl
  | 5, _ => rfl
  | 6, _ => rfl
  | 7, _ => rfl

/-- The lane that a shuffle reads, from a function of the lane, the start and the width of its segment and b[7:0]. -/
def sourceLane (s : State) (f : Nat → Nat → Nat → Nat → Nat) (b i : Nat) : Nat :=
  let w := segment s.g.width (fieldBits s b false i)
  let j := f i (i - i % w) w (fieldBits s b false i % 2 ^ 8)
  if s.p.members.getLsbD j then j else i

/-- A shuffle by the lane of its row. -/
def ShuffleRow (e : (Op3R → Instr) × (Nat → Nat → Nat → Nat → Nat)) : Prop :=
  ∃ (word : Op3R → BitVec 32) (k : Shuffle), (∀ o s, exec (e.1 o) s = .next (vecShuffle (word o) o k s)) ∧
    ∀ s b i, shuffleFrom s k b i = sourceLane s e.2 b i

theorem shuffleFrom_eq {s : State} {k : Shuffle} {b i : Nat} {f : Nat → Nat → Nat → Nat → Nat}
    (h : ∀ w y, shuffleLane k w i y = f i (i - i % segmentWidth w y) (segmentWidth w y) (y % 2 ^ 8)) :
    shuffleFrom s k b i = sourceLane s f b i := by
  rw [shuffleFrom, sourceLane, h, segmentWidth_eq]
  rfl

theorem vectorShuffle_rows : ∀ e ∈ vectorShuffle, ShuffleRow e := by
  simp only [vectorShuffle, List.forall_mem_cons]
  exact ⟨⟨_, .index, fun _ _ => rfl, fun _ _ _ => shuffleFrom_eq fun _ _ => rfl⟩,
    ⟨_, .xor, fun _ _ => rfl, fun _ _ _ => shuffleFrom_eq fun _ _ => rfl⟩,
    ⟨_, .up, fun _ _ => rfl, fun _ _ _ => shuffleFrom_eq fun _ _ => rfl⟩,
    ⟨_, .down, fun _ _ => rfl, fun _ _ _ => shuffleFrom_eq fun _ _ => rfl⟩, List.forall_mem_nil _⟩

theorem fieldBits_wide_lt (s : State) (f i : Nat) : fieldBits s f true i < 2 ^ 64 := by
  rw [fieldBits]
  split
  · exact BitVec.isLt _
  · have hlo := (getV s f i).isLt
    have hhi := (getV s (f + 1) i).isLt
    rw [if_pos rfl]
    omega

/-- What a shuffle moves is an element of 32 or 64 bits (R227). -/
theorem shuffled_eq (s : State) (wide : Bool) (a d i j : Nat) :
    (if wide then [(d, i, BitVec.ofNat 32 (fieldBits s a wide j)), (d + 1, i, BitVec.ofNat 32 (fieldBits s a wide j / 2 ^ 32))]
      else [(d, i, BitVec.ofNat 32 (fieldBits s a wide j))]) =
    putElem { kind := .nat, width := if wide then 64 else 32, frac := 0 } d i (fieldBits s a wide j) := by
  rw [putElem]
  cases wide with
  | false =>
    rw [show Ty.extend ⟨.nat, if false = true then 64 else 32, 0⟩ _ = fieldBits s a false j from Nat.mod_eq_of_lt (fieldBits_lt s a j)]
    rfl
  | true =>
    rw [show Ty.extend ⟨.nat, if true = true then 64 else 32, 0⟩ _ = fieldBits s a true j from Nat.mod_eq_of_lt (fieldBits_wide_lt s a j)]
    rfl

/-- What a field names in the lanes that others read is full where it is for each of those. -/
theorem srcV_lanes_full {s : State} {f r : Nat} {ls ms : List Nat} {source : Nat → Nat} (hms : ∀ j ∈ ms, ∃ i ∈ ls, j = source i)
    (h : ∀ c ∈ ls.flatMap fun i => (srcV f r false [source i]).map fun c => c.1, regState s c = .full) (b : Bool) :
    ∀ e ∈ srcV f r b ms, regState s e.1 = .full := by
  have lane : ∀ i ∈ ls, ∀ e ∈ srcV f r b [source i], regState s e.1 = .full := fun i hi e he =>
    h e.1 (List.mem_flatMap.mpr ⟨i, hi, by rw [← srcV_codes _ _ b]; exact List.mem_map_of_mem he⟩)
  intro e he
  unfold srcV at he lane
  split at he
  · rename_i hf
    split at he
    · exact absurd he List.not_mem_nil
    · rename_i hne
      obtain ⟨j, hj⟩ := List.exists_mem_of_ne_nil ms (by simpa using hne)
      obtain ⟨i, hi, -⟩ := hms j hj
      exact lane i hi e (by rw [if_pos hf]; exact he)
  · rename_i hf
    obtain ⟨j, hj, he⟩ := List.mem_flatMap.mp he
    obtain ⟨i, hi, rfl⟩ := hms j hj
    exact lane i hi e (by rw [if_neg hf]; exact List.mem_flatMap.mpr ⟨_, List.mem_singleton.mpr rfl, he⟩)

/-- Settles O19: the lane that a shuffle reads is computed from b and the members, which the entry of a region leaves. -/
theorem shufflesMoveMemberLanes : Obligations.ShufflesMoveMemberLanes := by
  intro e he o s t ht hd ha w j source h
  obtain ⟨word, k, hexec, hsource⟩ := vectorShuffle_rows e he
  have hfrom : ∀ i, shuffleFrom s k o.b.toNat i = source i := hsource s o.b.toNat
  refine ⟨_, hexec o s, ?_⟩
  have hget : (elemTy s).getD (Ty.n 32) = t := by rw [ht]; rfl
  unfold vecShuffle
  rw [hget, setVAll_eq]
  refine h.writes _ (h.passes ⟨rfl, rfl⟩ ⟨rfl, rfl⟩ ?_ ?_ rfl ?_ (fun _ hc => hc) (Nat.le_refl _)) (fun f => ?_) (setVAll_loops _ s)
  · have hb : vSrcOk false o.b = true := by simp [vSrcOk]
    dsimp only
    rw [hd, ha, hb, ht]
    rfl
  · exact srcV_full (t := { t with width := 32 }) (fun c hc => h.sources c (List.mem_append_left _ hc)) (List.mem_singleton.mpr rfl) _
  · refine srcV_lanes_full (source := source) (fun l hl => ?_) (fun c hc => h.sources c (List.mem_append_right _ hc)) _
    obtain ⟨i, hi, rfl⟩ := List.mem_map.mp (mem_of_mem_sortNub hl)
    exact ⟨i, hi, hfrom i⟩
  · have hentered : ∀ i, shuffleFrom (entered f s) k o.b.toNat i = source i := fun i => by
      rw [← hfrom, shuffleFrom, shuffleFrom, members_entered f h.room, width_entered f h.room, fieldBits_entered f h.room]
    dsimp only
    simp only [hentered, fieldBits_entered f h.room, shuffled_eq]
    exact congrArg (finish 1) (setVAll_entered _ f h.room)

/-! ### Positions, masks, votes (R228, R229) -/

theorem maskOf_getLsbD {l : List Nat} (hl : ∀ i ∈ l, i < 64) (i : Nat) : (maskOf l).getLsbD i = l.contains i := by
  induction l with
  | nil => exact BitVec.getLsbD_zero
  | cons a r ih =>
    obtain ⟨ha, hr⟩ := List.forall_mem_cons.mp hl
    rw [maskOf, BitVec.getLsbD_or, ih hr, List.contains_cons, laneBit, BitVec.getLsbD_ofNat, Nat.testBit_two_pow]
    by_cases h : a = i
    · subst h
      simp [ha]
    · simp [h, Ne.symm h]

theorem activeLanes_eq_filter (s : State) : activeLanes s =
    (countFrom 0 64).filter fun i => guardOk s i && lane (s.p.exec &&& s.p.members) i := by
  rw [activeLanes, lanesOf, List.filter_filter]

theorem lanesOf_activeMask (s : State) : lanesOf (activeMask s) = activeLanes s := by
  rw [lanesOf, activeMask]
  conv_rhs => rw [activeLanes_eq_filter]
  refine List.filter_congr fun i hi => ?_
  rw [lane, maskOf_getLsbD fun _ => lt_of_active, activeLanes_eq_filter, Bool.eq_iff_iff, List.contains_iff_mem, List.mem_filter]
  exact and_iff_right hi

theorem lowest_eq (m : BitVec 64) : lowest m = (lanesOf m).headD 64 := by
  rw [lowest]
  cases lanesOf m <;> rfl

theorem vlane_done {o : OpDK} {s : State} {k : Nat → Nat} (hd : o.d.toNat < 96) (hk : o.k.toNat < 4) (hv : vlaneValue s o.k.toNat = k)
    (h : Ready 1 [] (dstV o.d.toNat 1 (activeLanes s)) s) : ∃ u, exec (.vlane o) s = .next u ∧ Done 1 (putWords o.d.toNat k s) u := by
  refine ⟨_, rfl, ?_⟩
  rw [putWords, setVAll_eq]
  refine laneIssue_done _ h ?_ (List.forall_mem_nil _) (fun _ hc => hc) (fun f => ?_) (setVAll_loops _ s)
  · rw [show vDstOk false o.d = true by simp [vDstOk, hd], decide_eq_true hk]
    rfl
  · have hentered : vlaneValue (entered f s) o.k.toNat = k := by
      rw [← hv]
      funext i
      unfold vlaneValue
      rw [activeLanes_entered f h.room, exec_entered f h.room, width_entered f h.room]
    simp only [hentered]
    exact setVAll_entered _ f h.room

/-- An instruction over the lanes that writes a scalar register is done. -/
theorem laneScalar_done {word : BitVec 32} {ok : Bool} {extra : List Nat → List Nat} {d : BitVec 7} {g : State → Word} {s : State}
    (h : Ready 1 [] [codeS d.toNat] s) (hd : d.toNat < 64) (hok : ok = true) (hg : ∀ f, g (entered f s) = g s) :
    Done 1 (setS d.toNat (g s) s) (laneIssue word 1 ok (fun _ => []) extra (fun _ => dstS d) (fun _ s => setS d.toNat (g s) s) s) := by
  refine laneIssue_done ((regsOfState s).setS d.toNat (g s)) h hok (List.forall_mem_nil _) (fun c hc => ?_) (fun f => ?_)
    ⟨rfl, rfl, rfl, rfl, rfl, rfl, rfl⟩
  · rw [dstS, show sOk d = true by simp [sOk, hd]] at hc
    exact hc
  · rw [hg]
    exact setS_entered f h.room d.toNat (g s)

theorem rdw_done {o : OpDK} {s : State} (hd : o.d.toNat < 64) (hk : o.k.toNat < 4) (h : Ready 1 [] [codeS o.d.toNat] s) :
    Done 1 (setS o.d.toNat (rdwValue s o.k.toNat) s)
      (laneIssue (wordOf (encode (.rdw o))) 1 (sOk o.d && decide (o.k.toNat < 4)) (fun _ => []) (fun _ => []) (fun _ => dstS o.d)
        (fun _ s => setS o.d.toNat (rdwValue s o.k.toNat) s) s) := by
  refine laneScalar_done (g := fun s => rdwValue s o.k.toNat) h hd ?_ fun f => ?_
  · rw [show sOk o.d = true by simp [sOk, hd], decide_eq_true hk]
    rfl
  · unfold rdwValue
    rw [activeMask_entered f h.room, members_entered f h.room]

theorem setPAll_loops (l : List (Nat × Nat × Bool)) (s : State) : SameLoops (putRegs ((regsOfState s).setPAll l) s).p s.p := by
  rw [setPAll_regs]
  exact ⟨rfl, rfl, rfl, rfl, rfl, rfl, rfl⟩

theorem predLanes_full {s : State} {d : Nat} (hd : d < 16) {ls : List Nat} (hls : ∀ i ∈ ls, i < 64) :
    ∀ c ∈ ls.map fun i => codeP d i, regState s c = .full := by
  intro c hc
  obtain ⟨i, hi, rfl⟩ := List.mem_map.mp hc
  have hi := hls i hi
  rw [regState, codeP, if_neg (by omega), if_neg (by omega)]

theorem vvote_done {o : Op3K} {s : State} (hd : o.d.toNat < 16) (ha : o.a.toNat < 16) (hk : o.k.toNat < 3) (h : Ready 1 [] [] s) :
    ∃ u, exec (.vvote o) s = .next u ∧
      Done 1 (setPAll ((activeLanes s).map fun i => (o.d.toNat, i, voteValue s o.k.toNat o.a.toNat)) s) u := by
  refine ⟨_, rfl, ?_⟩
  have hready : Ready 1 [] ((activeLanes s).map fun i => codeP o.d.toNat i) s :=
    { h with dests := predLanes_full hd fun _ => lt_of_active }
  rw [show setPAll _ s = _ from setPAll_putRegs _ (regsOfState s) s]
  refine laneIssue_done _ hready ?_ (List.forall_mem_nil _) (fun _ hc => hc) (fun f => ?_) (setPAll_loops _ s)
  · rw [show pOk o.d = true by simp [pOk, hd], show pOk o.a = true by simp [pOk, ha], decide_eq_true hk]
    rfl
  · have hentered : voteValue (entered f s) o.k.toNat o.a.toNat = voteValue s o.k.toNat o.a.toNat := by
      unfold voteValue
      simp only [activeLanes_entered f h.room, show getP (entered f s) = getP s from funext₂ (getP_entered f h.room)]
    simp only [hentered]
    conv_lhs => rw [entered_eq f h.room]
    exact setPAll_putRegs ..

theorem vballot_done {o : Op3A} {s : State} (hd : o.d.toNat < 64) (ha : o.a.toNat < 16) (h : Ready 1 [] [codeS o.d.toNat] s) :
    ∃ u, exec (.vballot o) s = .next u ∧
      Done 1 (setS o.d.toNat (maskOf ((activeLanes s).filter (getP s o.a.toNat))) s) u := by
  refine ⟨_, rfl, ?_⟩
  refine laneScalar_done (g := fun x => maskOf ((activeLanes s).filter (getP x o.a.toNat))) h hd ?_ fun f => ?_
  · rw [show sOk o.d = true by simp [sOk, hd], show pOk o.a = true by simp [pOk, ha]]
    rfl
  · simp only [show getP (entered f s) = getP s from funext₂ (getP_entered f h.room)]

/-- Settles O20. -/
theorem laneQueriesReadActiveAndMembers : Obligations.LaneQueriesReadActiveAndMembers := by
  refine ⟨fun o s k hd hk h => ?_, fun o s hd hk h => ⟨_, rdwValue s o.k.toNat, rfl, rdw_done hd hk h, ?_, ?_, ?_, ?_⟩,
    fun o s hd ha hk h => ?_, fun o s hd ha h => ?_⟩
  · obtain ⟨hcode, rfl⟩ | ⟨hcode, rfl⟩ | ⟨hcode, rfl⟩ | ⟨hcode, rfl⟩ := hk
    · exact vlane_done hd (by rw [hcode]; decide) (by rw [hcode]; rfl) h
    · exact vlane_done hd (by rw [hcode]; decide) (by rw [hcode]; rfl) h
    · exact vlane_done hd (by rw [hcode]; decide) (by rw [hcode]; exact funext fun _ => popcount_eq _) h
    · exact vlane_done hd (by rw [hcode]; decide) (by rw [hcode]; rfl) h
  · intro hcode
    rw [hcode]
    exact congrArg (fun l => BitVec.ofNat 64 (List.length l)) (lanesOf_activeMask s)
  · intro hcode
    rw [hcode]
    exact maskOf_getLsbD fun _ => lt_of_active
  · intro hcode
    rw [hcode]
    exact congrArg (BitVec.ofNat 64) ((lowest_eq _).trans (congrArg (List.headD · 64) (lanesOf_activeMask s)))
  · intro hcode
    rw [hcode]
    rfl
  · obtain ⟨u, hexec, hdone⟩ := vvote_done hd ha hk h
    refine ⟨u, _, hexec, hdone, ?_, ?_, ?_⟩
    · intro hcode
      rw [hcode]
      exact List.any_eq_true
    · intro hcode
      rw [hcode]
      exact List.all_eq_true
    · intro hcode
      rw [hcode]
      show ((activeLanes s).all (getP s o.a.toNat) || (activeLanes s).all fun i => !getP s o.a.toNat i) = true ↔ _
      rw [Bool.or_eq_true, List.all_eq_true, List.all_eq_true]
      constructor
      · rintro (hall | hnone) i hi j hj
        · exact (hall i hi).trans (hall j hj).symm
        · exact Bool.not_inj ((hnone i hi).trans (hnone j hj).symm)
      · intro hsame
        by_cases hany : ∃ i ∈ activeLanes s, getP s o.a.toNat i = true
        · obtain ⟨i, hi, hp⟩ := hany
          exact .inl fun j hj => (hsame j hj i hi).trans hp
        · exact .inr fun i hi => by
            rw [Bool.eq_false_iff.mpr fun hp => hany ⟨i, hi, hp⟩]
            rfl
  · obtain ⟨u, hexec, hdone⟩ := vballot_done hd ha h
    refine ⟨u, _, hexec, hdone, fun i => ?_⟩
    rw [maskOf_getLsbD fun _ hi => lt_of_active (List.mem_of_mem_filter hi), Bool.eq_iff_iff, List.contains_iff_mem, List.mem_filter,
      Bool.and_eq_true, List.contains_iff_mem]

/-! ### States of one gang -/

/-- A gang of a width, some of whose eight member lanes execute, with lanes of v0 and v1 given values. -/
def laned (width : Nat) (exec : BitVec 64) (vregs : SMap (BitVec 32)) : State :=
  { placeGang State.reset with
    p := { (placeGang State.reset).p with exec := exec }
    g := { (placeGang State.reset).g with width := width, vregs := vregs } }

theorem laned_room (width : Nat) (exec : BitVec 64) (vregs : SMap (BitVec 32)) : NoSpill (laned width exec vregs) := by
  exact Nat.zero_le Config.cuffEntries

theorem laned_ready (width : Nat) (exec : BitVec 64) (vregs : SMap (BitVec 32)) (rd wr : List Nat) :
    Ready 2 rd wr (laned width exec vregs) := by
  have full : ∀ c, regState (laned width exec vregs) c = .full := fun c => by
    unfold regState
    split
    · rfl
    · split
      · rfl
      · rfl
  have clock : overflows 2 (placeGang State.reset) = false := by decide
  have quiet : deliverable (laned width exec vregs) .opening = none := by
    unfold deliverable
    split
    · rfl
    · rfl
  exact ⟨fun c _ => full c, fun c _ => full c, clock, laned_room width exec vregs, quiet, fun h => Bool.noConfusion h⟩

/-- What one instruction is done from, of two sets of registers, holds the same vectors. -/
theorem Done.getV_same {w : Nat} {r q : Regs} {s t : State} (hr : Done w (putRegs r s) t) (hq : Done w (putRegs q s) t)
    (room : NoSpill s) (empty : s.p.buffer = []) (n i : Nat) : getV (putRegs r s) n i = getV (putRegs q s) n i := by
  have rooms : ∀ x, NoSpill (putRegs x s) := fun _ => room.of_empty empty empty rfl
  have h := (hr.besides_of_empty (rooms r) empty).symm.trans (hq.besides_of_empty (rooms q) empty)
  have e := congrArg (fun z : State => getV z n i) h
  exact e

/-! ### Reductions and scans (R230, R231) -/

theorem reduceNode_entered (f : Form) {s : State} (room : NoSpill s) (t : Ty) (op : Nat) :
    reduceNode (entered f s) t op = reduceNode s t op := by
  funext x y
  unfold reduceNode floatNode
  rw [modeRm_entered f room, modeFz_entered f room]

theorem laneValues_entered (f : Form) {s : State} (room : NoSpill s) (t : Ty) (a op : Nat) :
    laneValues (entered f s) t a op = laneValues s t a op := by
  unfold laneValues
  rw [activeLanes_entered f room, width_entered f room]
  simp only [elemOf_entered f room]

/-- The steps of a scan over the lanes of its gang. -/
def scanned (s : State) (t : Ty) (o : Op3K) : List Res :=
  scanTree (reduceNode s t (o.k.toNat % 8)) 6 1 (laneValues s t o.a.toNat (o.k.toNat % 8))

/-- What a scan gives lane i: the identity for a lane that is none of its gang. -/
def scanValue (s : State) (t : Ty) (o : Op3K) (i : Nat) : Nat :=
  let e : Res := { val := reduceIdentity t (o.k.toNat % 8), flags := 0 }
  if o.k.toNat < 8 then (getAt e (scanned s t o) i).val else if i = 0 then e.val else (getAt e (scanned s t o) (i - 1)).val

theorem vscan_done {o : Op3K} {s : State} {t : Ty} (ht : elemTy s = some t) (hne : activeLanes s ≠ []) (hd : vDstOk t.wide o.d = true)
    (ha : vSrcOk t.wide o.a = true) (hk : o.k.toNat < 16) (hop : reduceOk t (o.k.toNat % 8) = true)
    (h : Ready 2 (vecRead t s [o.a]) (vecWritten t s o.d) s) : ∃ u, exec (.vscan o) s = .next u ∧
      Done 2 (raiseFlags (flagsOf (scanned s t o)) (putLanes t o.d (scanValue s t o) s)) u := by
  refine ⟨_, rfl, ?_⟩
  have hlanes : (activeLanes s).isEmpty = false := by
    rw [List.isEmpty_eq_false_iff]
    exact hne
  refine vecFlagged_done h ht ?_ (srcV_full h.sources (by simp) _) (fun _ hc => hc) fun f => ?_
  · rw [hd, ha, decide_eq_true hk, hop]
    rfl
  · simp only [hlanes, reduceNode_entered f h.room, laneValues_entered f h.room]
    rfl

/-- Refutes O21: in a gang of one lane, a member lane beyond its width takes the identity from a scan, as no position of the tree
is its own. -/
theorem not_reductionsAndScansFoldTheTree : ¬ Obligations.ReductionsAndScansFoldTheTree := by
  intro h
  let s := laned 1 0xFF [(1, 5)]
  let o : Op3K := { ta := false, d := 1, a := 0, k := 0 }
  have ht : elemTy s = some (Ty.i 32) := by decide
  have hne : activeLanes s ≠ [] := by decide
  obtain ⟨-, hscan⟩ := h o s (Ty.i 32) 0 (by decide) rfl ht hne rfl rfl (laned_ready ..)
  obtain ⟨u, hexec, hdone⟩ := hscan (by decide) (by decide)
  obtain ⟨v, hexec', hdone'⟩ := vscan_done (o := o) ht hne rfl rfl (by decide) rfl (laned_ready ..)
  obtain rfl : u = v := by
    rw [hexec] at hexec'
    injection hexec'
  rw [putLanes_flagged] at hdone hdone'
  exact absurd (hdone.getV_same hdone' (laned_room ..) rfl 1 1) (by decide)

/-! ### Selection under the total order (R232, R233) -/

theorem rankedPairs_entered (f : Form) {s : State} (room : NoSpill s) (t : Ty) (a b : Nat) :
    rankedPairs (entered f s) t a b = rankedPairs s t a b := by
  unfold rankedPairs
  rw [activeLanes_entered f room, width_entered f room]
  simp only [elemOf_entered f room, fieldBits_entered f room]

/-- A selection gives each active lane the pair that is chosen for it. -/
theorem vecRank_done {word : BitVec 32} {w : Nat} {o : Op3R} {choose : Ty → List Ranked → Nat → Ranked} {s : State} {t : Ty}
    (ht : elemTy s = some t) (hd : vDstOk t.wide o.d = true) (ha : vSrcOk t.wide o.a = true) (hx : o.d.toNat + t.regs < 96)
    (h : Ready w (vecRead t s [o.a] ++ vecRead { t with width := 32 } s [o.b])
      (vecWritten t s o.d ++ dstV (o.d.toNat + t.regs) 1 (activeLanes s)) s) :
    Done w (setVAll ((activeLanes s).flatMap fun i =>
      putRanked t o.d.toNat i (choose t (rankedPairs s t o.a.toNat o.b.toNat) i)) s) (vecRank word w o choose s) := by
  refine vecLanes_done h ht ?_ ?_ (fun _ hc => hc) fun f => ?_
  · rw [hd, ha, show vSrcOk false o.b = true by simp [vSrcOk], decide_eq_true hx]
    rfl
  · intro e he
    rcases List.mem_append.mp he with he | he
    · exact srcV_full (fun c hc => h.sources c (List.mem_append_left _ hc)) (List.mem_singleton.mpr rfl) _ e he
    · exact srcV_full (t := { t with width := 32 }) (fun c hc => h.sources c (List.mem_append_right _ hc)) (List.mem_singleton.mpr rfl) _ e he
  · simp only [rankedPairs_entered f h.room]

/-- Refutes O22: the tree halves the W pairs, so that of three it drops the last, here the greatest. -/
theorem not_rankedSelectionTakesTheGreatest : ¬ Obligations.RankedSelectionTakesTheGreatest := by
  intro h
  let s := laned 3 7 [(2, 5)]
  let o : Op3R := { ta := false, tb := false, d := 2, a := 0, b := 1 }
  have ht : elemTy s = some (Ty.i 32) := by decide
  obtain ⟨hmax, -⟩ := h o s (Ty.i 32) ht rfl rfl (by decide) (by decide) (by decide)
  obtain ⟨u, p, hp, hbest, hexec, hdone⟩ := hmax (laned_ready ..)
  have hdone' := vecRank_done (word := wordOf (encode (.vmaxi o))) (o := o) (choose := fun t l _ => bestOf t 6 l) ht rfl rfl (by decide)
    (laned_ready ..)
  rw [show u = _ from (Host.Outcome.next.inj hexec).symm] at hdone
  have hpairs : rankedPairs s (Ty.i 32) o.a.toNat o.b.toNat = [⟨0, 0⟩, ⟨0, 0⟩, ⟨5, 0⟩] := by decide
  rw [hpairs] at hp hbest
  have hgreatest : ∀ p ∈ [(⟨0, 0⟩ : Ranked), ⟨0, 0⟩, ⟨5, 0⟩],
      (∀ q ∈ [(⟨0, 0⟩ : Ranked), ⟨0, 0⟩, ⟨5, 0⟩], better (Ty.i 32) q p = false) → p = ⟨5, 0⟩ := by decide
  obtain rfl := hgreatest p hp hbest
  dsimp only at hdone
  rw [setVAll_eq] at hdone hdone'
  exact absurd (hdone.getV_same hdone' (laned_room ..) rfl 2 0) (by decide)

end Sys2Proof.Machine
end

section
/-! PROOF. Stores that find the open region full (spec/02_work_hierarchy.md R41; spec/11_isa_memory_sync.md R239 to R241, R246, R255).
Where a split in its handler held a region with 32 lines, a store to one line more would commit it and open none (R337), so that
the store leaves at once. No run leads there, but the statements O25, O26, O29 and O31 say of every state with a region that the
store is held. -/

namespace Sys2Proof.Machine

-- The runs below are evaluated one after another, so that no more than one of them takes memory at a time.
set_option Elab.async false

open Sys2Proof.Rules

/-- A tile of gang 0. -/
def crowdedTile : Tile where
  launch := 1
  unit := 0
  wg := 0
  h := 0
  slot := 0
  state := .priv 0
  size := 512
  base := 0
  data := []
  fill := none
  reads := []

/-- Lane 0 of a gang in its handler, with a region in which it holds stores to 32 lines, a window on address 0 and a tile of its own. -/
def crowded : State :=
  let s := placeGang State.reset
  let store (k : Nat) : BufStore :=
    { va := BitVec.ofNat 64 (128 * (k + 1)), size := 4, op := .store [0, 0, 0, 0], lane := 0, pc := 0, word := 0, clock := 0
      tile := none, cls := 0, serial := 0, order := 0 }
  { s with
    p := { s.p with
      exec := 1, status := 1, buffer := (List.range 32).map store
      wins := [(0, { base := 0, valid := true, stale := false, coh := 0, perm := 7, limit := 65536 })] }
    launches := [{ placedLaunch with tiles := [512] }]
    tiles := [crowdedTile] }

theorem crowded_full (c : Nat) : regState crowded c = .full := by
  unfold regState
  split
  · rfl
  · split
    · rfl
    · rfl

theorem crowded_room : NoSpill crowded := by
  unfold NoSpill
  decide +kernel

theorem crowded_ready {w : Nat} (rd wr : List Nat) : Ready w rd wr crowded where
  sources c _ := crowded_full c
  dests c _ := crowded_full c
  clock := rfl
  room := crowded_room
  quiet := rfl
  whole _ := .inr rfl

/-- Lane 0 reaches address 0 through its window. -/
theorem crowded_reaches (n : Nat) (hn : n ∣ 0 ∧ n ≤ 16) (need : Need) (os : List Nat) (h : ∀ o ∈ os, o = 0) : Reaches n need crowded 0 os := by
  have haddress : address crowded 0 0 = 0 := by decide +kernel
  have hbase : (getW crowded 0).base.toNat % 2 ^ 53 = 0 := by decide +kernel
  have hlimit : (getW crowded 0).limit.toNat = 65536 := by decide +kernel
  have hperm : (getW crowded (BitVec.toNat (0 : BitVec 3))).perm = 7 := by decide +kernel
  refine ⟨by decide +kernel, by decide +kernel, by decide +kernel, ?_, ?_, ?_, ?_⟩
  · intro o ho
    obtain rfl := h o ho
    show (getW crowded 0).base.toNat % 2 ^ 53 + 0 + n ≤ 2 ^ 53
    omega
  · intro o ho
    obtain rfl := h o ho
    rw [haddress]
    intro hregion
    exact absurd hregion (by decide)
  · intro o ho
    obtain rfl := h o ho
    rw [haddress]
    exact Nat.zero_mod n
  · intro o ho
    obtain rfl := h o ho
    rw [if_pos (by show 0 + n ≤ (getW crowded 0).limit.toNat; omega)]
    rw [hperm, allows]
    simp

/-- What an instruction leaves in the open region. -/
def bufferAfter (i : Instr) (s : State) : List BufStore :=
  match exec i s with
  | .next t => t.p.buffer
  | _ => s.p.buffer

theorem bufferAfter_eq {i : Instr} {s t : State} (h : exec i s = .next t) : bufferAfter i s = t.p.buffer := by
  rw [bufferAfter, h]

theorem holding_ne {bs : List BufStore} (hne : bs ≠ []) (s : State) : (holding bs s).p.buffer ≠ [] := by
  rw [holding]
  dsimp only
  intro h
  have hnil := (List.append_eq_nil_iff.mp h).2
  rw [List.map_eq_nil_iff, numbered, List.mapIdx_eq_nil_iff] at hnil
  exact hne hnil

theorem crowded_lanes : activeLanes crowded = [0] := by decide +kernel

/-- A store of the crowded split that leaves at once is not held. -/
theorem crowded_not_held {i : Instr} {t : State} {bs : List BufStore} (hexec : exec i crowded = .next t) (hempty : bufferAfter i crowded = [])
    (hne : bs ≠ []) (h : (edges crowded).count = 0 → t.p.buffer = (holding bs crowded).p.buffer) : False :=
  holding_ne hne crowded ((h rfl).symm.trans ((bufferAfter_eq hexec).symm.trans hempty))

/-- Refutes O25: a uniform store to a line that the full region of a handler does not hold leaves at once. -/
theorem not_storesAreHeldOrSent : ¬ Obligations.StoresAreHeldOrSent := by
  intro h
  obtain ⟨-, huniform⟩ := h
  let o : OpMst := { ta := false, d := 0, w := 0, a := 0, nt := false, sz := 1 }
  obtain ⟨t, hexec, -, -, hheld, -⟩ := huniform o crowded rfl (crowded_reaches 1 (by decide) _ _ (by decide +kernel)) (crowded_ready ..)
    (by decide +kernel) (by unfold NoSpill; decide +kernel)
  exact crowded_not_held hexec (by decide +kernel) (by decide +kernel) (hheld rfl).2

/-- Refutes O26: so does a store to a tile. -/
theorem not_scratchpadAccessesReachTheirTile : ¬ Obligations.ScratchpadAccessesReachTheirTile := by
  intro h
  obtain ⟨-, hstore⟩ := h
  let o : OpMsst := { ta := false, d := 0, a := 0, sz := 1 }
  have htile : ∀ i ∈ activeLanes crowded, InTile true 1 crowded (fieldBits crowded o.a.toNat false i) := by
    rw [crowded_lanes]
    intro i hi
    obtain rfl := List.mem_singleton.mp hi
    exact ⟨by decide +kernel, by decide +kernel, crowdedTile, by decide +kernel, by decide +kernel, by decide +kernel,
      .inl ⟨rfl, by decide +kernel⟩⟩
  obtain ⟨t, hexec, -, -, hheld, -⟩ := hstore o crowded 1 rfl rfl rfl htile (crowded_ready ..) (by unfold NoSpill; decide +kernel)
  exact crowded_not_held hexec (by decide +kernel) (by decide +kernel) (hheld rfl).2

/-- Refutes O29: so does a reduction. -/
theorem not_reductionsAreHeldOrSent : ¬ Obligations.ReductionsAreHeldOrSent := by
  intro h
  let o : OpAtom := { ta := false, d := 0, w := 0, a := 0, n := 0 }
  have hoffsets : ∀ x ∈ laneOffsets crowded o.a, x = 0 := by decide +kernel
  obtain ⟨t, hexec, -, -, hheld, -⟩ := h o crowded (Ty.i 32) (by decide +kernel) rfl (.inl (by decide)) rfl
    (crowded_reaches 4 (by decide) _ _ hoffsets) (by decide +kernel) (crowded_ready ..) (by unfold NoSpill; decide +kernel)
  exact crowded_not_held hexec (by decide +kernel) (by decide +kernel) (hheld rfl).2

/-- Lane 0 reaches its own node. -/
theorem crowded_far : FarReady crowded true 0 4 0 0 where
  aligned := by decide +kernel
  carried := by
    rw [crowded_lanes]
    intro i hi
    obtain rfl := List.mem_singleton.mp hi
    intro _ hregion
    exact absurd hregion (by decide +kernel)
  near _ := by decide +kernel
  reachable := by
    rw [crowded_lanes]
    intro i hi
    obtain rfl := List.mem_singleton.mp hi
    intro haway
    exact absurd rfl haway
  room := by decide +kernel
  settled := rfl

/-- Refutes O31: so does a store to a peer, here to the own node. -/
theorem not_remoteAccessesAskTheirPeer : ¬ Obligations.RemoteAccessesAskTheirPeer := by
  intro h
  obtain ⟨-, hstore, -⟩ := h
  let o : OpX := { cls := 0, d := 0, peer := 0, a := 0, ta := false }
  obtain ⟨u, hexec, -, -, hheld, -⟩ := hstore o crowded (Ty.i 32) (by decide +kernel) rfl rfl crowded_far (by decide +kernel)
    (.inr rfl) (crowded_ready ..)
  obtain ⟨bs, -, hbuffer, hlength, -⟩ := hheld rfl
  have hne : bs ≠ [] := by
    rintro rfl
    rw [crowded_lanes] at hlength
    exact absurd hlength (by decide)
  exact crowded_not_held hexec (by decide +kernel) hne hbuffer

end Sys2Proof.Machine
end

section
/-! PROOF. A tile transition of a gang in which two splits hold lane 0 (spec/12_isa_engines_system.md R261;
spec/05_memory_hierarchy.md R94, R108). The open regions of the gang's splits that hold stores to the tile end one split at a
time, each brought to issue by its lowest lane. Where another split has the lowest lane of the one at issue, it comes back in its
place, and its slices rotate as the instruction ends. No run leads there, but O36 says of every state that nothing more changes. -/

namespace Sys2Proof.Machine

-- The runs below are evaluated one after another, so that no more than one of them takes memory at a time.
set_option Elab.async false

open Sys2Proof.Rules

/-- A store to the tile of handle 0. -/
def tileStore : BufStore :=
  { va := 0, size := 1, op := .store [0], lane := 9, pc := 0, word := 0, clock := 0, tile := some 0, cls := 0, serial := 0, order := 0 }

/-- Lane 0 at issue; of the splits of its gang one has lanes 0 and 8, the other lane 9 and a store to the tile; a path waits for
slice 1. -/
def twinned : State :=
  let s := placeGang State.reset
  let alone (m : BitVec 64) : Split := { s.p with members := m, exec := m, entry := none }
  { s with
    p := alone 1
    g := { s.g with
      splits := [alone 0x101, { s.p with members := 0x200, exec := 0x200, buffer := [tileStore] }]
      parked := [(1, [alone 0x400])] }
    launches := [{ placedLaunch with tiles := [512] }]
    tiles := [{ crowdedTile with state := .ready }] }

theorem twinned_ready : ReadyTurn 8 [] [] twinned where
  sources _ hc := absurd hc List.not_mem_nil
  dests _ hc := absurd hc List.not_mem_nil
  clock := rfl
  room := by unfold NoSpill; decide +kernel
  quiet := rfl
  whole _ := .inl (by decide +kernel)
  free := rfl
  undisturbed := rfl
  alone := .inl (by decide +kernel)

/-- The lanes of the split at issue after an instruction. -/
def membersAfter (i : Instr) (s : State) : BitVec 64 :=
  match exec i s with
  | .next t => t.p.members
  | _ => s.p.members

theorem membersAfter_eq {i : Instr} {s t : State} (h : exec i s = .next t) : membersAfter i s = t.p.members := by
  rw [membersAfter, h]

/-- What agrees with a state has its lanes, or those that the commit of its region leaves. -/
theorem Agrees.members {t u : State} (h : Agrees t u) : t.p.members = u.p.members ∨ t.p.members = (commitRegion u).p.members :=
  h.imp (fun e => congrArg (fun x => x.p.members) e.1) fun e => congrArg (fun x => x.p.members) e.1

/-- Refutes O36: `tile.own` brings lanes 0 and 8 to issue in the place of lane 0, and parks those of slice 1. -/
theorem not_tileTransitionsTakeTheirRow : ¬ Obligations.TileTransitionsTakeTheirRow := by
  intro h
  obtain ⟨hmoves, -⟩ := h
  let o : OpH := { h := 0 }
  obtain ⟨t, hexec, hdone⟩ := hmoves _ List.mem_cons_self o twinned { crowdedTile with state := .ready } (by decide) (by decide +kernel)
    (by decide +kernel) (.inr (.inr rfl)) (.inr (by decide +kernel)) rfl twinned_ready
  have hafter : t.p.members = 1 := (membersAfter_eq hexec).symm.trans (by decide +kernel)
  have hmembers := hdone.rest.members
  rw [hafter] at hmembers
  exact absurd hmembers (by decide +kernel)

end Sys2Proof.Machine
end

section
/-! PROOF. Identities that come back (spec/12_isa_engines_system.md R278, R274). A task that enters intake takes the next unused
identity. Where a launch has that identity already, the successor that `task.done` releases is a second launch of the same identity,
which has not finished. No run leads there, but O39 says of every state that every launch of the identity has EARLY set. -/

namespace Sys2Proof.Machine

-- The runs below are evaluated one after another, so that no more than one of them takes memory at a time.
set_option Elab.async false

open Sys2Proof.Rules

/-- The words of a control block of one unit of one gang of width 8 in partition 0, with PRED 1. -/
def readyBlock : List Nat := [1, 0, 0, 1, 2 ^ 16 + 2 ^ 8 + 8, 0, 0, 0, 0, 0, 0]

/-- A gang of launch 1, whose one successor has a control block that waits for it alone; the next unused identity is 1 as well. -/
def lastDone : State :=
  let s := placeGang State.reset
  { s with
    launches := [{ placedLaunch with nsucc := 1, succp := 128 }]
    mem := memWrite (memWrite (memWrite s.mem 0x500000 (leBytes 8 (codeLeaf placeFrame + 2 ^ 58 + 2 ^ 52)))
      (placeFrame + 128) (leBytes 8 256)) (placeFrame + 256) (readyBlock.flatMap (leBytes 8))
    nextId := 1
    sliceOut := -1 }

theorem lastDone_ready : ReadyAlone 8 [] [] lastDone where
  sources _ hc := absurd hc List.not_mem_nil
  dests _ hc := absurd hc List.not_mem_nil
  clock := rfl
  room := by unfold NoSpill; decide +kernel
  quiet := rfl
  whole _ := .inl (by decide +kernel)
  undisturbed := rfl

/-- The launches of the device after an instruction, each by its identity and whether it has finished early. -/
def launchesAfter (i : Instr) (s : State) : List (Nat × Bool) :=
  match exec i s with
  | .next t => t.launches.map fun l => (l.id, l.early)
  | _ => []

theorem launchesAfter_eq {i : Instr} {s t : State} (h : exec i s = .next t) :
    launchesAfter i s = t.launches.map fun l => (l.id, l.early) := by
  rw [launchesAfter, h]

/-- Refutes O39: the successor has identity 1 and has not finished. -/
theorem not_taskInstructionsSignalAndFinish : ¬ Obligations.TaskInstructionsSignalAndFinish := by
  intro h
  obtain ⟨-, hdone⟩ := h
  obtain ⟨-, -, hlaunches⟩ := hdone lastDone rfl (by decide +kernel) (by decide +kernel) (fun _ => by decide +kernel) lastDone_ready
  obtain ⟨t, hexec, -, hearly⟩ := hlaunches rfl
  have hsecond : (1, false) ∈ t.launches.map fun l => (l.id, l.early) := launchesAfter_eq hexec ▸ (by decide +kernel)
  obtain ⟨l, hl, he⟩ := List.mem_map.mp hsecond
  obtain ⟨hid, hnot⟩ := Prod.mk.inj he
  exact Bool.noConfusion (hnot.symm.trans (hearly l hl hid))

end Sys2Proof.Machine
end

section
/-! PROOF. A store of the context area at its home controller (spec/19_faults_execution_memory.md R367, R375). The refusal of a write
that spills an entry is held with cause 0x74, whatever the home controller says; O45 says of every store that it is held with the
cause that the controller gives. -/

namespace Sys2Proof.Machine

-- The runs below are evaluated one after another, so that no more than one of them takes memory at a time.
set_option Elab.async false

open Sys2Proof.Rules

/-- A store that spills an entry to an unmapped granule, at its home controller. -/
def spillAtHc : Req :=
  { id := 5, gang := 1, launch := 1, part := 0, asid := 1, core := 0, lanes := 1, lane := 0, cls := 0, va := 0x10000, size := 1
    op := .store [1], dest := .none, gangid := 0, wg := 0, fwd := [], acquire := false, drops := false, priv := false, pc := 0
    word := 0, serial := 0, clock := 0, key := none, view := none, after := 0, sx := false, nt := false, spill := true
    phase := .atHc }

/-- A gang with that store on its way. -/
def spilling : State := { placeGang State.reset with reqs := [spillAtHc], arg := .num 5 }

theorem spilling_atHome : AtHome spilling spillAtHc where
  named := ⟨rfl, by decide +kernel⟩
  free := ⟨rfl, rfl, rfl⟩
  next := ⟨by decide +kernel, by decide +kernel⟩
  alone := ⟨fun _ he => absurd he List.not_mem_nil, fun _ he => absurd he List.not_mem_nil⟩
  unheld := ⟨by decide +kernel, by decide +kernel⟩

/-- The causes of the entries in the late-fault queues after an instruction or a step. -/
def causesAfter (i : Instr) (s : State) : List (Option (BitVec 8)) :=
  match exec i s with
  | .next t => t.late.map fun e => e.cause
  | _ => []

theorem causesAfter_eq {i : Instr} {s t : State} (h : exec i s = .next t) : causesAfter i s = t.late.map fun e => e.cause := by
  rw [causesAfter, h]

/-- Refutes O45: the controller refuses the address with cause 0x70, and the entry has cause 0x74. -/
theorem not_homesServeOrRefuseAccesses : ¬ Obligations.HomesServeOrRefuseAccesses := by
  intro h
  obtain ⟨-, hatHc, -⟩ := h
  obtain ⟨-, hstore, -⟩ := hatHc spilling spillAtHc spilling_atHome rfl
  obtain ⟨t, e, hexec, -, hlate, hcause, -⟩ := hstore 0x70 [1] rfl (by decide +kernel) (by decide +kernel) (by decide)
  have hcauses : t.late.map (fun x => x.cause) = [some 0x74] := (causesAfter_eq hexec).symm.trans (by decide +kernel)
  have hnone : spilling.late = [] := rfl
  rw [hlate, hnone, List.nil_append, List.map_singleton, hcause] at hcauses
  exact absurd hcauses (by decide)

end Sys2Proof.Machine
end

section
/-! PROOF. An update that meets an older one of its own number (spec/03_logical_time.md R72, R82). The slice applies an update and
takes every entry of its number out of the buffers. Where the one update that another group holds on the line has that number, none is
left and the bytes enter Brim. No run leads there, but O46 says of every state that the base line takes them. -/

namespace Sys2Proof.Machine

-- The runs below are evaluated one after another, so that no more than one of them takes memory at a time.
set_option Elab.async false

open Sys2Proof.Rules

/-- A reduction of launch 1 to a line. -/
def comingUpdate : Update :=
  { id := 5, launch := 1, part := 0, asid := 1, gang := 1, core := 0, key := keyZero, lane := 0, va := 8, n := 0, ty := 0, rm := 0
    fz := false, v := [1, 0, 0, 0], pc := 0, serial := 0, lanes := 1, refused := false, stalled := false }

/-- The line is held with a write grant, and launch 2 has an update of the same number on it. -/
def sameNumber : State :=
  { placeGang State.reset with
    updates := [comingUpdate]
    mitten := [{ comingUpdate with launch := 2 }]
    lines := [{ ref := lineRef 0 1 0, pa := placeFrame, state := .c, grant := true, coh := 0, presence := 0, out := false, acks := []
                hostAcks := [], resume := .none, share := false, laid := [] }]
    sliceOut := -1
    arg := .num 5 }

/-- The number of entries in Brim after a step. -/
def brimAfter (i : Instr) (s : State) : Nat :=
  match exec i s with
  | .next t => t.brim.length
  | _ => 0

theorem brimAfter_eq {i : Instr} {s t : State} (h : exec i s = .next t) : brimAfter i s = t.brim.length := by
  rw [brimAfter, h]

/-- Refutes O46: the update enters Brim. -/
theorem not_floorsRiseAndReleaseWaiters : ¬ Obligations.FloorsRiseAndReleaseWaiters := by
  intro h
  obtain ⟨-, hupdate, -⟩ := h
  obtain ⟨harrive, -⟩ := hupdate sameNumber comingUpdate rfl (by decide +kernel)
  obtain ⟨-, hforeign, -⟩ := harrive rfl (by decide +kernel) (by decide +kernel)
  obtain ⟨t, hexec, -, -, -, -, hbrim, -⟩ := hforeign (by decide +kernel) (by decide +kernel) (by decide +kernel) (by decide) (by decide)
  have hcount : t.brim.length = 1 := (brimAfter_eq hexec).symm.trans (by decide +kernel)
  rw [hbrim] at hcount
  exact absurd hcount (by decide +kernel)

end Sys2Proof.Machine
end

section
/-! PROOF. The dispatch of an engine command whose output tile has stores in open regions (spec/12_isa_engines_system.md R263;
spec/04_consistency.md R94). As for a tile transition, the regions end one split at a time; in the gang in which two splits hold
lane 0 the other of them then comes to issue. No run leads there, but O47 says of every state that the split at issue stays. -/

namespace Sys2Proof.Machine

-- The runs below are evaluated one after another, so that no more than one of them takes memory at a time.
set_option Elab.async false

open Sys2Proof.Rules

/-- A copy into the tile of handle 0, in the dependency table. -/
def copyToTile : Cmd :=
  { id := 5, op := .cp, rel := false, started := false, sent := false, gang := 1, launch := 1, unit := 0, wg := 0, part := 0, asid := 1
    core := 0, counter := 0, h := 0, b := 0, n := 0, desc := [0, 0, 0x4000000000000000], fmt := [], mode := 0, pc := 0, serial := 0
    clock := 0, lgang := 0, lane := 0, lineage := 1, issueKey := keyZero, writeKey := keyZero, view := none, turn := none, upto := 0
    phase := .table, progress := 0, suspended := false, delivered := false, abandoned := false, data := none, drained := false
    shadow := none, recorded := false, prio := 0, entered := 0, order := 0 }

/-- The gang of two splits with lane 0, which has issued that copy. -/
def twinnedCopy : State := { twinned with tiles := [crowdedTile], cmds := [copyToTile], arg := .num 5 }

/-- Refutes O47: the dispatch brings lanes 0 and 8 to issue in the place of lane 0. -/
theorem not_splitsMergeAndEnginesRun : ¬ Obligations.SplitsMergeAndEnginesRun := by
  intro h
  obtain ⟨-, hcmds, -⟩ := h
  obtain ⟨hdispatch, -⟩ := hcmds twinnedCopy copyToTile rfl (by decide +kernel)
  obtain ⟨t, hexec, hbesides, -⟩ := hdispatch rfl (by decide +kernel) (by decide +kernel) (fun hdet => absurd hdet (by decide +kernel))
  have hafter : t.p.members = 0x101 := (membersAfter_eq hexec).symm.trans (by decide +kernel)
  have hmembers := congrArg Split.members hbesides
  change t.p.members = twinnedCopy.p.members at hmembers
  rw [hafter] at hmembers
  exact absurd hmembers (by decide +kernel)

end Sys2Proof.Machine
end

section
/-! PROOF. A rotation of a unit whose gang has the number of the one at issue (spec/13_scheduling.md R298, R301). The regions of the
unit's splits end one split at a time, each brought to issue by the number of its gang. Where the gang at issue, of another launch,
has that number, a gang of the unit comes back in its place, and stays resident. No run leads there, but O48 says of every state that
no gang of the unit does. -/

namespace Sys2Proof.Machine

-- The runs below are evaluated one after another, so that no more than one of them takes memory at a time.
set_option Elab.async false

open Sys2Proof.Rules

/-- Unit 0 of launch 1, resident with two gangs of number 1, gives way to unit 1; at issue is a gang of number 1 of launch 2. -/
def sameGang : State :=
  let s := placeGang State.reset
  let alone (m : BitVec 64) : Split := { s.p with members := m, exec := m, entry := none }
  let unit : UnitState :=
    { idx := 0, phase := .resident, clock := 0, final := 0, since := 0, awaitsOp := false, hold := none, cores := [0], slot := 0
      displaced := false, leaving := false }
  { s with
    p := alone 8
    g := { s.g with launch := 2, splits := [alone 1] }
    gangs := [{ s.g with area := [], splits := [alone 1] }, { s.g with area := [], splits := [alone 8] }]
    launches := [{ placedLaunch with nunit := 2, conc := 2, units := [unit, { unit with idx := 1, phase := .live, cores := [] }] }]
    ticks := 1
    arg := .num 1 }

/-- The launch and the unit of the gang at issue after a step, and whether it is resident. -/
def issuerAfter (i : Instr) (s : State) : Nat × Nat × Nat × Bool :=
  match exec i s with
  | .next t => (t.g.id, t.g.launch, t.g.unit, t.g.resident)
  | _ => (0, 0, 0, false)

theorem issuerAfter_eq {i : Instr} {s t : State} (h : exec i s = .next t) :
    issuerAfter i s = (t.g.id, t.g.launch, t.g.unit, t.g.resident) := by
  rw [issuerAfter, h]

/-- Refutes O48: a gang of unit 0 is at issue after the rotation, and resident. -/
theorem not_launchesPlaceAndRetireUnits : ¬ Obligations.LaunchesPlaceAndRetireUnits := by
  intro h
  let l : Launch := getAt Launch.vacant sameGang.launches 0
  obtain ⟨-, -, -, -, -, -, -, hrotate, -⟩ := h sameGang l (by decide +kernel)
  obtain ⟨t, hexec, -, -, haway⟩ := hrotate (getAt (UnitState.mk 0 .live 0 0 0 false none [] 0 false false) l.units 0)
    (getAt (UnitState.mk 0 .live 0 0 0 false none [] 0 false false) l.units 1) rfl rfl (by decide +kernel) (by decide +kernel)
    (by decide) rfl (by decide) (by decide +kernel) rfl (by decide +kernel) (by decide +kernel) (.inl (by decide +kernel))
    (fun _ he => absurd he List.not_mem_nil)
  have hissuer : (t.g.id, t.g.launch, t.g.unit, t.g.resident) = (1, 1, 0, true) := (issuerAfter_eq hexec).symm.trans (by decide +kernel)
  obtain ⟨hid, hrest⟩ := Prod.mk.inj hissuer
  obtain ⟨hlaunch, hrest⟩ := Prod.mk.inj hrest
  obtain ⟨hunit, hresident⟩ := Prod.mk.inj hrest
  have hgone := haway t.g (.inr rfl) (by rw [hid]; decide) hlaunch hunit
  exact Bool.noConfusion (hresident.symm.trans hgone)

end Sys2Proof.Machine
end

section
/-! PROOF. A holder of a line falls silent while the line is held twice (spec/06_coherence_fabric.md R128, R139; spec/20_faults_fabric_host_start.md
R388). The record of the silence goes to the fault queue, whose line its slice has to make room for. Where the slice holds a second
line of the same name, which is not in P, it evicts both. No run leads there, but O50 says of every state that the line leaves P. -/

namespace Sys2Proof.Machine

-- The runs below are evaluated one after another, so that no more than one of them takes memory at a time.
set_option Elab.async false

open Sys2Proof.Rules

/-- A line of the global region in P, of which node 1 holds a copy. -/
def pendingLine : Line :=
  { ref := lineRef 0 4095 (2 ^ 52), pa := placeFrame, state := .p, grant := true, coh := 0, presence := 0, out := true
    acks := [.node 1], hostAcks := [], resume := .none, share := false, laid := [] }

/-- A full slice with that line and a second one of its name; the fault queue lies in another granule. -/
def heldTwice : State :=
  let s := placeGang State.reset
  { s with
    lines := [pendingLine, { pendingLine with state := .c, acks := [] }]
    parts := [{ placedPart with rsec := 8, fqlog := 4, fqbase := 0x10000000020000 }]
    mem := memWrite (memWrite s.mem (placeRoot + 8 * 4095) (leBytes 8 (pointerEntry 0x200000))) 0x500010
      (leBytes 8 (2 ^ 63 + 2 ^ 62 + 2 ^ 54 + 2 ^ 53 + 0x610000))
    frames := mapSet noFrame s.frames 0x61 (0, 4095, 0x1000000002)
    sliceOut := -1
    arg := .lineNode pendingLine.ref 1 }

/-- Whether the line is held after a step. -/
def heldAfter (r : LineRef) (i : Instr) (s : State) : Bool :=
  match exec i s with
  | .next t => (findLine t r).isSome
  | _ => false

theorem heldAfter_eq {r : LineRef} {i : Instr} {s t : State} (h : exec i s = .next t) : heldAfter r i s = (findLine t r).isSome := by
  rw [heldAfter, h]

/-- Refutes O50: the line has gone. -/
theorem not_fabricRequestsAreAnswered : ¬ Obligations.FabricRequestsAreAnswered := by
  intro h
  obtain ⟨-, -, -, -, -, htimeout, -⟩ := h
  obtain ⟨t, x, hexec, -, -, -, hline, -⟩ := htimeout heldTwice pendingLine 1 (by decide +kernel) rfl rfl rfl (by decide +kernel) rfl rfl
  have hgone : (findLine t pendingLine.ref).isSome = false := (heldAfter_eq hexec).symm.trans (by decide +kernel)
  rw [hline] at hgone
  exact Bool.noConfusion hgone

end Sys2Proof.Machine
end

section
/-! PROOF. O60: every function of the model that makes a state of a state keeps the canonical form of memory. A function's lemma
follows its branches and cites the lemmas of the functions that it calls; a function that leaves memory alone keeps it by
definition. -/

namespace Sys2Proof.Machine

theorem foldl_wf {α : Type} {f : State → α → State} {l : List α} {s : State}
    (hf : ∀ s a, Memory.wf s.mem = true → Memory.wf (f s a).mem = true) (h : Memory.wf s.mem = true) :
    Memory.wf (l.foldl f s).mem = true :=
  KeepsForm.foldl (f := f) (fun a s h => hf s a h) l s h

theorem ite_wf {c : Prop} [Decidable c] {s t : State} (hs : Memory.wf s.mem = true) (ht : Memory.wf t.mem = true) :
    Memory.wf (if c then s else t).mem = true := by
  split
  · exact hs
  · exact ht

/-- A state that may be reached keeps the form. -/
def OkForm {ε : Type} (r : Except ε State) : Prop := ∀ t, r = .ok t → Memory.wf t.mem = true

theorem OkForm.error {ε : Type} {e : ε} : OkForm (.error e) := by
  intro t ht
  cases ht

theorem OkForm.ok {ε : Type} {s : State} (h : Memory.wf s.mem = true) : OkForm (.ok s : Except ε State) := by
  intro t ht
  cases ht
  exact h

theorem takeSlices_wf {s : State} (h : Memory.wf s.mem = true) :
    Memory.wf (takeSlices s).mem = true := h

theorem fillICache_wf {s : State} (h : Memory.wf s.mem = true) :
    Memory.wf (fillICache s).mem = true := by
  unfold fillICache
  dsimp only
  split <;> exact h

theorem onNum_wf {f : Nat → State → State} {s : State} (hf : ∀ a s, Memory.wf s.mem = true → Memory.wf (f a s).mem = true)
    (h : Memory.wf s.mem = true) :
    Memory.wf (onNum f s).mem = true := by
  unfold onNum
  split
  · exact hf _ _ h
  · exact h

theorem beginStart_wf {s : State} (h : Memory.wf s.mem = true) :
    Memory.wf (beginStart s).mem = true := h

theorem reply_wf {m : Msg} {s : State} (h : Memory.wf s.mem = true) :
    Memory.wf (reply m s).mem = true := h

theorem mapCmd_wf {id : Nat} {f : Cmd → Cmd} {s : State} (h : Memory.wf s.mem = true) :
    Memory.wf (mapCmd id f s).mem = true := h

theorem mapTile_wf {launch wg hd : Nat} {f : Tile → Tile} {s : State} (h : Memory.wf s.mem = true) :
    Memory.wf (mapTile launch wg hd f s).mem = true := h

theorem releaseInputs_wf {c : Cmd} {s : State} (h : Memory.wf s.mem = true) :
    Memory.wf (releaseInputs c s).mem = true := by
  unfold releaseInputs
  exact ite_wf h (foldl_wf (fun _ _ h1 => h1) h)

theorem track_wf {rd wr : List Nat} {s : State} (h : Memory.wf s.mem = true) :
    Memory.wf (track rd wr s).mem = true := by
  unfold track
  dsimp only
  exact ite_wf h h

theorem mapLaunch_wf {n : Nat} {f : Launch → Launch} {s : State} (h : Memory.wf s.mem = true) :
    Memory.wf (mapLaunch n f s).mem = true := h

theorem sendReq_wf {q : Req} {s : State} (h : Memory.wf s.mem = true) :
    Memory.wf (sendReq q s).mem = true := h

theorem writeTile_wf {launch wg hd off : Nat} {data : List Byte} {s : State} (h : Memory.wf s.mem = true) :
    Memory.wf (writeTile launch wg hd off data s).mem = true := h

theorem releaseStore_wf {b : BufStore} {s : State} (h : Memory.wf s.mem = true) :
    Memory.wf (releaseStore b s).mem = true := by
  unfold releaseStore
  dsimp only
  split
  · split <;> exact h
  · refine ite_wf ?_ h
    split
    · exact foldl_wf (fun _ _ h1 => h1) h
    · exact h
    · exact h
    · exact h

theorem mapPart_wf {n : Nat} {f : Partition → Partition} {s : State} (h : Memory.wf s.mem = true) :
    Memory.wf (mapPart n f s).mem = true := h

theorem countEvent_wf {launch code n : Nat} {s : State} (h : Memory.wf s.mem = true) :
    Memory.wf (countEvent launch code n s).mem = true := h

theorem depart_wf {q : RemoteReq} {s : State} (h : Memory.wf s.mem = true) :
    Memory.wf (depart q s).mem = true := by
  unfold depart
  dsimp only
  exact ite_wf h h

theorem sendRemote_wf {q : RemoteReq} {s : State} (h : Memory.wf s.mem = true) :
    Memory.wf (sendRemote q s).mem = true := by
  unfold sendRemote
  dsimp only
  exact ite_wf h (depart_wf h)

theorem sendReplay_wf {mark : RemoteReq → State → State} {q : RemoteReq} {s : State}
    (hmark : ∀ a s, Memory.wf s.mem = true → Memory.wf (mark a s).mem = true) (h : Memory.wf s.mem = true) :
    Memory.wf (sendReplay mark q s).mem = true := by
  unfold sendReplay
  dsimp only
  exact foldl_wf (fun _ _ h1 => sendRemote_wf (hmark _ _ h1)) h

theorem releaseFar_wf {b : BufStore} {l : List BufStore} {s : State} (h : Memory.wf s.mem = true) :
    Memory.wf (releaseFar b l s).mem = true := by
  unfold releaseFar
  dsimp only
  exact sendReplay_wf (fun _ _ h1 => h1) h

theorem releaseGroup_wf {l : List BufStore} {s : State} (h : Memory.wf s.mem = true) :
    Memory.wf (releaseGroup l s).mem = true := by
  unfold releaseGroup
  split
  · exact h
  · exact ite_wf (releaseFar_wf h) (releaseStore_wf h)

theorem releaseAll_wf {l : List BufStore} {s : State} (h : Memory.wf s.mem = true) :
    Memory.wf (releaseAll l s).mem = true := by
  unfold releaseAll
  exact foldl_wf (fun _ _ h1 => releaseGroup_wf h1) h

theorem releaseRegion_wf {s : State} (h : Memory.wf s.mem = true) :
    Memory.wf (releaseRegion s).mem = true := by
  unfold releaseRegion
  dsimp only
  exact releaseAll_wf h

theorem countMiss_wf {launch : Nat} {r : LineRef} {s : State} (h : Memory.wf s.mem = true) :
    Memory.wf (countMiss launch r s).mem = true := by
  unfold countMiss
  exact ite_wf (ite_wf h h) h

theorem mapLine_wf {r : LineRef} {f : Line → Line} {s : State} (h : Memory.wf s.mem = true) :
    Memory.wf (mapLine r f s).mem = true := h

theorem l1Drop_wf {q : L1Line → Bool} {s : State} (h : Memory.wf s.mem = true) :
    Memory.wf (l1Drop q s).mem = true := h

theorem dropL1_wf {r : LineRef} {except : Nat} {s : State} (h : Memory.wf s.mem = true) :
    Memory.wf (dropL1 r except s).mem = true := h

theorem dropLine_wf {r : LineRef} {s : State} (h : Memory.wf s.mem = true) :
    Memory.wf (dropLine r s).mem = true := h

theorem makeRoom_wf {n slice : Nat} {s : State} (h : Memory.wf s.mem = true) :
    Memory.wf (makeRoom n slice s).mem = true := by
  unfold makeRoom
  dsimp only
  exact foldl_wf (fun _ _ h1 => ite_wf h1 h1) h

theorem evictLine_wf {slice : Nat} {s : State} (h : Memory.wf s.mem = true) :
    Memory.wf (evictLine slice s).mem = true := by
  unfold evictLine
  exact makeRoom_wf h

theorem foreignUpdate_wf {launch : Nat} {r : LineRef} {s : State} (h : Memory.wf s.mem = true) :
    Memory.wf (foreignUpdate launch r s).mem = true := h

theorem recallCopies_wf {hosts : Bool} {r : LineRef} {data : SMap Byte} {s : State} (h : Memory.wf s.mem = true) :
    Memory.wf (recallCopies hosts r data s).mem = true := by
  unfold recallCopies
  dsimp only
  exact ite_wf h (ite_wf h h)

theorem writeAs_wf {hosts : Bool} {launch part asid o : Nat} {d : List Byte} {s : State} (h : Memory.wf s.mem = true) :
    Memory.wf (writeAs hosts launch part asid o d s).mem = true := by
  unfold writeAs
  exact recallCopies_wf (dropL1_wf (writeBase_wf _ _ _ _ _ _ h))

theorem sendDev_wf {q : Req} {s : State} (h : Memory.wf s.mem = true) :
    Memory.wf (sendDev q s).mem = true := h

theorem enqueueLate_wf {e : LateEntry} {s : State} (h : Memory.wf s.mem = true) :
    Memory.wf (enqueueLate e s).mem = true := h

theorem contextLate_wf {off : Nat} {data : List Byte} {cause : Option (BitVec 8)} {s : State} (h : Memory.wf s.mem = true) :
    Memory.wf (contextLate off data cause s).mem = true := by
  unfold contextLate
  dsimp only
  exact ite_wf h h

theorem spillAt_wf {off n : Nat} {s : State} (h : Memory.wf s.mem = true) :
    Memory.wf (spillAt off n s).mem = true := by
  unfold spillAt
  dsimp only
  exact ite_wf (contextLate_wf h) (ite_wf (contextLate_wf h) (writePiece_wf _ _ _ _ _ _ h))

theorem spillWrite_wf {o n : Nat} {s : State} (h : Memory.wf s.mem = true) :
    Memory.wf (spillWrite o n s).mem = true := by
  unfold spillWrite
  exact foldl_wf (fun _ _ h1 => spillAt_wf h1) h

theorem spillLog_wf {s : State} (h : Memory.wf s.mem = true) :
    Memory.wf (spillLog s).mem = true := by
  unfold spillLog
  dsimp only
  refine ite_wf h ?_
  split
  · exact h
  · exact spillWrite_wf h

theorem spillOver_wf {s : State} (h : Memory.wf s.mem = true) :
    Memory.wf (spillOver s).mem = true := by
  unfold spillOver
  exact foldl_wf (fun _ _ h1 => spillLog_wf h1) h

theorem commitRegion_wf {s : State} (h : Memory.wf s.mem = true) :
    Memory.wf (commitRegion s).mem = true := by
  unfold commitRegion
  exact spillOver_wf (releaseRegion_wf h)

theorem openRegion_wf {s : State} (h : Memory.wf s.mem = true) :
    Memory.wf (openRegion s).mem = true := by
  unfold openRegion
  dsimp only
  exact commitRegion_wf h

theorem enterRegion_wf {f : Form} {s : State} (h : Memory.wf s.mem = true) :
    Memory.wf (enterRegion f s).mem = true := by
  unfold enterRegion
  exact ite_wf (commitRegion_wf h) (ite_wf (openRegion_wf h) h)

theorem reclaim_wf {s : State} (h : Memory.wf s.mem = true) :
    Memory.wf (reclaim s).mem = true := h

theorem recordSlot_wf {t : TrapInfo} {s : State} (h : Memory.wf s.mem = true) : OkForm (recordSlot t s) := by
  unfold recordSlot
  dsimp only
  split
  · exact .error
  · refine .ok ?_
    split
    · exact contextLate_wf h
    · exact writePiece_wf _ _ _ _ _ _ h

theorem devStore_wf {part asid : Nat} {va : Word} {op : AccessOp} {data : List Byte} {s : State} (h : Memory.wf s.mem = true) :
    Memory.wf (devStore part asid va op data s).mem = true := by
  have held : ∀ e q, Memory.wf (if lateRoom s (homeHc (offsetOf va)) part then enqueueLate e s else sendDev q s).mem = true :=
      by
    intro e q
    split
    · exact enqueueLate_wf h
    · exact sendDev_wf h
  unfold devStore
  dsimp only
  split
  · exact held _ _
  · split
    next he => exact devWrite_wf he h
    next => exact held _ _

theorem writeComp_wf {l : Launch} {status : Nat} {cause : BitVec 8} {s : State} (h : Memory.wf s.mem = true) :
    Memory.wf (writeComp l status cause s).mem = true := by
  unfold writeComp
  exact devStore_wf h

theorem settleDies_wf {s : State} (h : Memory.wf s.mem = true) :
    Memory.wf (settleDies s).mem = true := h

theorem stopLaunch_wf {n : Nat} {s : State} (h : Memory.wf s.mem = true) :
    Memory.wf (stopLaunch n s).mem = true := by
  unfold stopLaunch
  dsimp only
  exact ite_wf h h

theorem recallOutside_wf {r : LineRef} {data : SMap Byte} {s : State} (h : Memory.wf s.mem = true) :
    Memory.wf (recallOutside r data s).mem = true := by
  unfold recallOutside
  exact recallCopies_wf h

theorem baseLine_wf {launch : Nat} {r : LineRef} {data : SMap Byte} {s : State} (h : Memory.wf s.mem = true) :
    Memory.wf (baseLine launch r data s).mem = true := by
  unfold baseLine
  dsimp only
  exact recallOutside_wf (dropL1_wf (foldl_wf (fun _ _ h1 => writeLine_wf _ _ _ _ _ h1) (countMiss_wf h)))

theorem mergeBytes_wf {e : BrimEntry} {s : State} (h : Memory.wf s.mem = true) :
    Memory.wf (mergeBytes e s).mem = true := by
  unfold mergeBytes
  dsimp only
  refine baseLine_wf ?_
  split
  · exact fillLine_wf _ _ _ h
  · exact h

theorem mergeList_wf {es : List BrimEntry} {s : State} (h : Memory.wf s.mem = true) :
    Memory.wf (mergeList es s).mem = true := by
  unfold mergeList
  exact foldl_wf (fun _ _ h1 => mergeBytes_wf h1) h

theorem mergeAll_wf {n : Nat} {s : State} (h : Memory.wf s.mem = true) :
    Memory.wf (mergeAll n s).mem = true := by
  unfold mergeAll
  exact mergeList_wf h

theorem endLaunch_wf {n status : Nat} {cause : BitVec 8} {s : State} (h : Memory.wf s.mem = true) :
    Memory.wf (endLaunch n status cause s).mem = true := by
  unfold endLaunch
  dsimp only
  exact settleDies_wf (mapLaunch_wf (writeComp_wf (mergeAll_wf (stopLaunch_wf h))))

theorem doubleTrap_wf {t : TrapInfo} {s : State} (h : Memory.wf s.mem = true) :
    Memory.wf (doubleTrap t s).mem = true := by
  unfold doubleTrap
  exact endLaunch_wf (faultQueue_wf _ _ _ h)

theorem enterTrap_wf {t : TrapInfo} {epc : Word} {s : State} (h : Memory.wf s.mem = true) :
    Memory.wf (enterTrap t epc s).mem = true := by
  unfold enterTrap
  dsimp only
  split
  · exact doubleTrap_wf h
  · split
    · exact endLaunch_wf (faultQueue_wf _ _ _ h)
    · split
      · exact doubleTrap_wf (commitRegion_wf h)
      next s' ht =>
        have hs : Memory.wf (reclaim s').mem = true := reclaim_wf (recordSlot_wf (commitRegion_wf h) s' ht)
        exact hs

theorem deliver_wf {f : HeldFault} {s : State} (h : Memory.wf s.mem = true) :
    Memory.wf (deliver f s).mem = true := by
  unfold deliver
  dsimp only
  exact enterTrap_wf h

theorem atOpening_wf {f : Form} {go : State → State} {s : State}
    (hgo : ∀ s, Memory.wf s.mem = true → Memory.wf (go s).mem = true) (h : Memory.wf s.mem = true) :
    Memory.wf (atOpening f go s).mem = true := by
  unfold atOpening
  split
  · exact deliver_wf (openRegion_wf h)
  · exact hgo _ (enterRegion_wf h)

theorem beginPending_wf {r : LineRef} {acks : List CopyHolder} {hosts : List Nat} {data : Bool} {resume : Arg} {s : State}
    (h : Memory.wf s.mem = true) :
    Memory.wf (beginPending r acks hosts data resume s).mem = true := h

theorem askHosts_wf {part asid off n : Nat} {s : State} (h : Memory.wf s.mem = true) :
    Memory.wf (askHosts part asid off n s).mem = true := by
  unfold askHosts
  dsimp only
  exact foldl_wf (fun _ _ h1 => ite_wf h1 (ite_wf (ensureLine_wf _ _ _ _ h1) (beginPending_wf (ensureLine_wf _ _ _ _ h1)))) h

theorem askFor_wf {w : Wait} {s : State} (h : Memory.wf s.mem = true) :
    Memory.wf (askFor w s).mem = true := by
  unfold askFor
  split
  · exact askHosts_wf h
  · exact h

theorem stall_wf {w : Wait} {s : State} (h : Memory.wf s.mem = true) :
    Memory.wf (stall w s).mem = true := h

theorem stallRegs_wf {codes : List Nat} {s : State} (h : Memory.wf s.mem = true) :
    Memory.wf (stallRegs codes s).mem = true := by
  unfold stallRegs
  split
  · exact deliver_wf h
  · exact h

theorem parkTrap_wf {id : Nat} {s : State} (h : Memory.wf s.mem = true) :
    Memory.wf (parkTrap id s).mem = true := by
  unfold parkTrap
  dsimp only
  exact enterTrap_wf h

theorem preciseTrap_wf {f : Fail} {word : BitVec 32} {s : State} (h : Memory.wf s.mem = true) :
    Memory.wf (preciseTrap f word s).mem = true := by
  unfold preciseTrap
  exact enterTrap_wf h

theorem failCheck_wf {f : Form} {x : Fail} {s : State} (h : Memory.wf s.mem = true) :
    Memory.wf (failCheck f x s).mem = true := by
  unfold failCheck
  exact atOpening_wf (fun _ h1 => preciseTrap_wf h1) h

theorem issue_wf {f : Form} {check : State → Verdict} {effect : State → State} {s : State}
    (heffect : ∀ s, Memory.wf s.mem = true → Memory.wf (effect s).mem = true) (h : Memory.wf s.mem = true) :
    Memory.wf (issue f check effect s).mem = true := by
  unfold issue
  split
  · exact deliver_wf h
  · refine ite_wf (preciseTrap_wf h) ?_
    refine ite_wf (preciseTrap_wf h) ?_
    split
    · exact failCheck_wf h
    · split
      · exact failCheck_wf h
      · exact parkTrap_wf h
      · exact stallRegs_wf h
      · split
        · exact failCheck_wf h
        · exact stall_wf (askFor_wf h)
        · split
          · exact failCheck_wf h
          · exact parkTrap_wf h
          · exact stallRegs_wf h
          · refine ite_wf (failCheck_wf h) ?_
            split
            · exact h
            · exact parkTrap_wf h
            · exact stallRegs_wf h
            · exact atOpening_wf (fun _ h1 => heffect _ (track_wf h1)) h

theorem deviceRecord_wf {part : Nat} {cause : BitVec 8} {kind node : Nat} {va : Word} {asid : Nat} {s : State}
    (h : Memory.wf s.mem = true) :
    Memory.wf (deviceRecord part cause kind node va asid s).mem = true := by
  unfold deviceRecord
  exact faultQueue_wf _ _ _ h

theorem eccRecord_wf {part asid : Nat} {va : Word} {s : State} (h : Memory.wf s.mem = true) :
    Memory.wf (eccRecord part asid va s).mem = true := by
  unfold eccRecord
  exact deviceRecord_wf h

theorem resetComp_wf {cause : BitVec 8} {l : Launch} {s : State} (h : Memory.wf s.mem = true) :
    Memory.wf (resetComp cause l s).mem = true := by
  unfold resetComp
  exact mapLaunch_wf (writeComp_wf h)

theorem countAnswer_wf {q : FabricReq} {part : Nat} {refused : Option Word} {s : State} (h : Memory.wf s.mem = true) :
    Memory.wf (countAnswer q part refused s).mem = true := by
  unfold countAnswer
  dsimp only
  refine ite_wf ?_ ?_
  · split
    · exact deviceRecord_wf h
    · exact h
  · refine ite_wf ?_ h
    split
    · exact deviceRecord_wf h
    · exact h

theorem dropPartition_wf {part : Nat} {s : State} (h : Memory.wf s.mem = true) :
    Memory.wf (dropPartition part s).mem = true := by
  unfold dropPartition
  refine foldl_wf ?_ h
  intro _ _ h1
  split
  · exact countAnswer_wf h1
  · exact h1

theorem resetPartition_wf {cause : BitVec 8} {part : Nat} {s : State} (h : Memory.wf s.mem = true) :
    Memory.wf (resetPartition cause part s).mem = true := by
  unfold resetPartition
  dsimp only
  exact settleDies_wf (mapPart_wf (foldl_wf (fun _ _ h1 => resetComp_wf h1)
      (dropPartition_wf (foldl_wf (fun _ _ h1 => stopLaunch_wf h1) h))))

theorem mapGang_wf {n : Nat} {f : Gang → Gang} {s : State} (h : Memory.wf s.mem = true) :
    Memory.wf (mapGang n f s).mem = true := by
  unfold mapGang
  exact ite_wf h h

theorem dropReq_wf {id : Nat} {s : State} (h : Memory.wf s.mem = true) :
    Memory.wf (dropReq id s).mem = true := h

theorem setPhase_wf {id : Nat} {p : Phase} {s : State} (h : Memory.wf s.mem = true) :
    Memory.wf (setPhase id p s).mem = true := h

theorem lateError_wf {id : Nat} {s : State} (h : Memory.wf s.mem = true) :
    Memory.wf (lateError id s).mem = true := by
  unfold lateError
  dsimp only
  split
  · exact h
  · split
    · exact mapGang_wf (eccRecord_wf (dropEntry_wf _ _ _ h))
    · exact eccRecord_wf (dropEntry_wf _ _ _ h)

theorem walkError_wf {part asid pa : Nat} {va : Word} {s : State} (h : Memory.wf s.mem = true) :
    Memory.wf (walkError part asid pa va s).mem = true := by
  unfold walkError
  dsimp only
  exact ite_wf (resetPartition_wf (eccRecord_wf h)) (ite_wf (eccRecord_wf h) (eccRecord_wf h))

theorem launchError_wf {n : Nat} {s : State} (h : Memory.wf s.mem = true) :
    Memory.wf (launchError n s).mem = true := by
  unfold launchError
  dsimp only
  exact ite_wf (endLaunch_wf (eccRecord_wf h)) h

theorem setHpcc_wf {l : HpccLine} {s : State} (h : Memory.wf s.mem = true) :
    Memory.wf (setHpcc l s).mem = true := h

theorem dropHostLine_wf {l : HpccLine} {s : State} (h : Memory.wf s.mem = true) :
    Memory.wf (dropHostLine l s).mem = true := h

theorem dropPage_wf {part asid base n hc : Nat} {s : State} (h : Memory.wf s.mem = true) :
    Memory.wf (dropPage part asid base n hc s).mem = true := h

theorem holdPage_wf {part asid off : Nat} {s : State} (h : Memory.wf s.mem = true) :
    Memory.wf (holdPage part asid off s).mem = true := by
  unfold holdPage
  split
  · exact dropPage_wf (writePte_wf _ _ _ h)
  · exact h

theorem cuffError_wf {gang order : Nat} {s : State} (h : Memory.wf s.mem = true) :
    Memory.wf (cuffError gang order s).mem = true := by
  unfold cuffError
  split
  · exact h
  · split
    · exact h
    · exact endLaunch_wf (eccRecord_wf (holdPage_wf (mapGang_wf h)))

theorem brimError_wf {id : Nat} {s : State} (h : Memory.wf s.mem = true) :
    Memory.wf (brimError id s).mem = true := by
  unfold brimError
  split
  · exact h
  · exact endLaunch_wf (eccRecord_wf (holdPage_wf h))

theorem markBad_wf {pa : Nat} {s : State} (h : Memory.wf s.mem = true) :
    Memory.wf (markBad pa s).mem = true := by
  unfold markBad
  exact ite_wf h h

theorem dirtyError_wf {r : LineRef} {s : State} (h : Memory.wf s.mem = true) :
    Memory.wf (dirtyError r s).mem = true := by
  unfold dirtyError
  split
  · exact h
  · exact eccRecord_wf (dropLine_wf (l1Drop_wf (holdPage_wf (markBad_wf h))))

theorem hbmError_wf {pa : Nat} {s : State} (h : Memory.wf s.mem = true) :
    Memory.wf (hbmError pa s).mem = true := by
  unfold hbmError
  dsimp only
  split
  · exact eccRecord_wf (dropPage_wf (markBad_wf h))
  · exact ite_wf (eccRecord_wf (ite_wf (holdPage_wf (markBad_wf h)) (markBad_wf h))) (markBad_wf h)

theorem eccError_wf {loc : EccLoc} {s : State} (h : Memory.wf s.mem = true) :
    Memory.wf (eccError loc s).mem = true := by
  unfold eccError
  dsimp only
  split
  · exact hbmError_wf h
  · exact dirtyError_wf h
  · exact brimError_wf h
  · exact cuffError_wf h
  · exact h
  · exact h
  · split <;> exact h
  · exact h
  · split
    · exact launchError_wf h
    · exact h
  · split
    · exact launchError_wf h
    · exact h
  · exact launchError_wf h
  · split
    · exact launchError_wf h
    · exact h
  · exact walkError_wf h
  · exact lateError_wf h
  · exact resetPartition_wf (eccRecord_wf h)

theorem resetParts_wf {cause : BitVec 8} {ps : List Partition} {s : State} (h : Memory.wf s.mem = true) :
    Memory.wf (resetParts cause ps s).mem = true := by
  unfold resetParts
  exact foldl_wf (fun _ _ h1 => resetPartition_wf h1) h

theorem deviceStart_wf {e : StartReport} {s : State} (h : Memory.wf s.mem = true) :
    Memory.wf (deviceStart e s).mem = true := by
  unfold deviceStart
  dsimp only
  refine ite_wf h ?_
  refine ite_wf h ?_
  split
  · exact h
  · exact ite_wf h h

theorem writeControl_wf {part a : Nat} {v m : Word} {s : State} (h : Memory.wf s.mem = true) :
    Memory.wf (writeControl part a v m s).mem = true := by
  unfold writeControl
  exact ite_wf h (ite_wf h (ite_wf h (ite_wf h (ite_wf h (ite_wf h (ite_wf h h))))))

theorem writeMail_wf {port off : Nat} {data : List Byte} {s : State} (h : Memory.wf s.mem = true) :
    Memory.wf (writeMail port off data s).mem = true := h

theorem writeMailbox_wf {port off : Nat} {v : Word} {s : State} (h : Memory.wf s.mem = true) :
    Memory.wf (writeMailbox port off v s).mem = true := by
  unfold writeMailbox
  dsimp only
  exact ite_wf h (ite_wf h (ite_wf h (ite_wf h h)))

theorem barWrite_wf {port : Nat} {v : Word} {s : State} {a : BarTarget} (h : Memory.wf s.mem = true) :
    Memory.wf (barWrite port v s a).mem = true := by
  unfold barWrite
  split
  · exact writeMailbox_wf h
  · exact h
  · exact h
  · exact writeControl_wf h

theorem hostStore_wf {i : Instr} {s : State} (h : Memory.wf s.mem = true) :
    Memory.wf (hostStore i s).mem = true := by
  unfold hostStore
  split
  · split
    · exact ite_wf (barWrite_wf h) h
    · exact ite_wf h h
  · exact h

theorem readDecoder_wf {port k : Nat} {s : State} (h : Memory.wf s.mem = true) :
    Memory.wf (readDecoder port k s).mem = true := by
  unfold readDecoder
  split
  · exact ite_wf h h
  · exact h

theorem setDecoder_wf {port k : Nat} {base : Word} {on : Bool} {s : State} (h : Memory.wf s.mem = true) :
    Memory.wf (setDecoder port k base on s).mem = true := by
  unfold setDecoder
  exact ite_wf h h

theorem hostLoad_wf {port off : Nat} {s : State} (h : Memory.wf s.mem = true) :
    Memory.wf (hostLoad port off s).mem = true := by
  unfold hostLoad
  split <;> exact h

theorem countSignature_wf {s : State} (h : Memory.wf s.mem = true) :
    Memory.wf (countSignature s).mem = true := h

theorem spdmSigned_wf {body : State → List Byte} {s : State} (h : Memory.wf s.mem = true) :
    Memory.wf (spdmSigned body s).mem = true := by
  unfold spdmSigned
  dsimp only
  split
  · exact ite_wf h h
  · exact h

theorem setStatus_wf {port st : Nat} {s : State} (h : Memory.wf s.mem = true) :
    Memory.wf (setStatus port st s).mem = true := h

theorem command_wf {op port : Nat} {f : Nat → State → Nat × State} {s : State}
    (hf : ∀ n s, Memory.wf s.mem = true → Memory.wf (f n s).2.mem = true) (h : Memory.wf s.mem = true) :
    Memory.wf (command op port f s).mem = true := by
  unfold command
  dsimp only
  split
  · exact h
  · split
    · exact setStatus_wf h
    · exact setStatus_wf (hf _ _ h)

theorem stageImage_wf {image : FwImage} {s : State} (h : Memory.wf s.mem = true) : Memory.wf (stageImage image s).2.mem = true
    := by
  unfold stageImage
  dsimp only
  split <;> exact h

theorem askImage_wf {port : Nat} {s : State} (h : Memory.wf s.mem = true) :
    Memory.wf (askImage port s).mem = true := by
  unfold askImage
  exact ite_wf (command_wf (fun _ _ h1 => h1) h) (ite_wf (reply_wf (setStatus_wf h)) h)

theorem refuseCommand_wf {port : Nat} {s : State} (h : Memory.wf s.mem = true) :
    Memory.wf (refuseCommand port s).mem = true := by
  unfold refuseCommand
  exact command_wf (fun _ _ h1 => h1) h

theorem runCommand_wf {op port : Nat} {f : Nat → State → Nat × State} {s : State}
    (hf : ∀ n s, Memory.wf s.mem = true → Memory.wf (f n s).2.mem = true) (h : Memory.wf s.mem = true) :
    Memory.wf (runCommand op port f s).mem = true := by
  unfold runCommand
  exact ite_wf (refuseCommand_wf h) (command_wf hf h)

theorem attestPart_wf {port part : Nat} {s : State} (h : Memory.wf s.mem = true) : Memory.wf (attestPart port part s).2.mem =
    true := by
  unfold attestPart
  dsimp only
  split
  · exact h
  · split
    · exact h
    · exact countSignature_wf (reply_wf h)

theorem destroyPart_wf {port part : Nat} {s : State} (h : Memory.wf s.mem = true) : Memory.wf (destroyPart port part s).2.mem
    = true := by
  unfold destroyPart
  split
  · exact resetPartition_wf h
  · exact h

theorem changeMode_wf {s : State} (h : Memory.wf s.mem = true) :
    Memory.wf (changeMode s).mem = true := by
  unfold changeMode
  exact ite_wf h h

theorem roomForRemote_wf {part : Nat} {s : State} (h : Memory.wf s.mem = true) :
    Memory.wf (roomForRemote part s).mem = true := by
  unfold roomForRemote
  dsimp only
  exact ite_wf h (foldl_wf (fun _ _ h1 => makeRoom_wf h1) h)

theorem createPart_wf {port : Nat} {members : List Nat} {part : Nat} {s : State} (h : Memory.wf s.mem = true) :
    Memory.wf (createPart port members part s).2.mem = true := by
  unfold createPart
  dsimp only
  split
  · exact h
  · split
    · exact h
    · split
      · exact h
      · exact roomForRemote_wf (changeMode_wf h)

theorem refuseIntake_wf {part asid off : Nat} {obs : Bool} {s : State} (h : Memory.wf s.mem = true) :
    Memory.wf (refuseIntake part asid off obs s).mem = true := by
  unfold refuseIntake
  dsimp only
  exact writeComp_wf h

theorem relink_wf {part : Nat} {s : State} (h : Memory.wf s.mem = true) :
    Memory.wf (relink part s).mem = true := by
  unfold relink
  dsimp only
  exact foldl_wf (fun _ _ h1 => devStore_wf h1) h

theorem joinIntake_wf {part : Nat} {l : Launch} {s : State} (h : Memory.wf s.mem = true) :
    Memory.wf (joinIntake part l s).mem = true := by
  unfold joinIntake
  exact relink_wf h

theorem settleIntake_wf {part asid off : Nat} {obs : Bool} {r : IntakeAnswer} {s : State} (h : Memory.wf s.mem = true) :
    Memory.wf (settleIntake part asid off obs r s).mem = true := by
  unfold settleIntake
  split
  · exact joinIntake_wf h
  · exact refuseIntake_wf h
  · exact h

theorem enterIntake_wf {part asid off : Nat} {s : State} (h : Memory.wf s.mem = true) :
    Memory.wf (enterIntake part asid off s).mem = true := by
  unfold enterIntake
  dsimp only
  refine ite_wf h ?_
  split
  · exact askHosts_wf h
  · exact settleIntake_wf h

theorem retryIntake_wf {s : State} (h : Memory.wf s.mem = true) :
    Memory.wf (retryIntake s).mem = true := by
  unfold retryIntake
  exact foldl_wf (fun _ _ h1 => ite_wf h1 (enterIntake_wf h1)) h

theorem leavePending_wf {r : LineRef} {s : State} (h : Memory.wf s.mem = true) :
    Memory.wf (leavePending r s).mem = true := by
  unfold leavePending
  dsimp only
  split
  · exact h
  · exact ite_wf (retryIntake_wf h) h

theorem settlePort_wf {port : Nat} {s : State} (h : Memory.wf s.mem = true) :
    Memory.wf (settlePort port s).mem = true := by
  unfold settlePort
  dsimp only
  exact foldl_wf (fun _ _ h1 => leavePending_wf h1) (foldl_wf (fun _ _ h1 => ite_wf h1 h1) h)

theorem readyTask_wf {part asid off before after : Nat} {s : State} (h : Memory.wf s.mem = true) :
    Memory.wf (readyTask part asid off before after s).mem = true := by
  unfold readyTask
  exact ite_wf (enterIntake_wf h) h

theorem withReady_wf {part asid off : Nat} {read : State → Nat → Nat → List Byte} {f : State → State} {s : State}
    (hf : ∀ s, Memory.wf s.mem = true → Memory.wf (f s).mem = true) (h : Memory.wf s.mem = true) :
    Memory.wf (withReady part asid off read f s).mem = true := by
  unfold withReady
  dsimp only
  exact ite_wf (readyTask_wf (hf _ h)) (hf _ h)

theorem performHostAtomic_wf {port part off : Nat} {op : AccessOp} {n : Nat} {s : State} (h : Memory.wf s.mem = true) :
    Memory.wf (performHostAtomic port part off op n s).mem = true := by
  unfold performHostAtomic
  dsimp only
  exact reply_wf (withReady_wf (fun _ h1 => writeBase_wf _ _ _ _ _ _ h1) h)

theorem hostWriteThen_wf {hosts : Bool} {part off : Nat} {perform : State → State} {s : State}
    (hperform : ∀ s, Memory.wf s.mem = true → Memory.wf (perform s).mem = true) (h : Memory.wf s.mem = true) :
    Memory.wf (hostWriteThen hosts part off perform s).mem = true := by
  unfold hostWriteThen
  dsimp only
  split
  · exact ensureLine_wf _ _ _ _ h
  · exact ite_wf (hperform _ (ensureLine_wf _ _ _ _ h)) (beginPending_wf (ensureLine_wf _ _ _ _ h))

theorem hostRecord_wf {part off : Nat} {cause : BitVec 8} {s : State} (h : Memory.wf s.mem = true) :
    Memory.wf (hostRecord part off cause s).mem = true := by
  unfold hostRecord
  exact deviceRecord_wf h

theorem unpark_wf {r : LineRef} {a : Arg} {s : State} (h : Memory.wf s.mem = true) :
    Memory.wf (unpark r a s).mem = true := h

theorem park_wf {r : LineRef} {a : Arg} {s : State} (h : Memory.wf s.mem = true) :
    Memory.wf (park r a s).mem = true := by
  unfold park
  exact ite_wf h h

theorem stallNoted_wf {r : LineRef} {a : Arg} {va : Word} {c : Option (BitVec 8)} {s : State} (h : Memory.wf s.mem = true) :
    Memory.wf (stallNoted r a va c s).mem = true := by
  unfold stallNoted
  exact ite_wf (park_wf h) (park_wf (faultQueue_wf _ _ _ h))

theorem hostInTurn_wf {part off : Nat} {w : Bool} {serve : State → State} {s : State}
    (hserve : ∀ s, Memory.wf s.mem = true → Memory.wf (serve s).mem = true) (h : Memory.wf s.mem = true) :
    Memory.wf (hostInTurn part off w serve s).mem = true := by
  unfold hostInTurn
  dsimp only
  exact ite_wf (ite_wf h h) (ite_wf (park_wf h) (ite_wf (stallNoted_wf h) (hserve _ h)))

theorem hostAtomicStep_wf {port : Nat} {addr : BitVec 64} {op : HostAtomicOp} {n : Nat} {v : Word} {s : State}
    (h : Memory.wf s.mem = true) :
    Memory.wf (hostAtomicStep port addr op n v s).mem = true := by
  unfold hostAtomicStep
  dsimp only
  split
  · exact h
  · refine ite_wf h ?_
    refine hostInTurn_wf ?_ h
    intro _ h1
    split
    · exact reply_wf (hostRecord_wf h1)
    · exact ite_wf h1 (ite_wf h1 (hostWriteThen_wf (fun _ h2 => performHostAtomic_wf h2) h1))

theorem cxlAsk_wf {port line : Nat} {own : Bool} {s : State} (h : Memory.wf s.mem = true) :
    Memory.wf (cxlAsk port line own s).mem = true := by
  unfold cxlAsk
  exact ite_wf h h

theorem l1Insert_wf {c : L1Line} {s : State} (h : Memory.wf s.mem = true) :
    Memory.wf (l1Insert c s).mem = true := by
  unfold l1Insert
  dsimp only
  refine ite_wf h ?_
  refine ite_wf h ?_
  split <;> exact h

theorem l1Fill_wf {q : Req} {coh : BitVec 2} {data : List Byte} {keys : Option (Key × Key)} {s : State}
    (h : Memory.wf s.mem = true) :
    Memory.wf (l1Fill q coh data keys s).mem = true := by
  unfold l1Fill
  dsimp only
  exact ite_wf h (l1Insert_wf h)

theorem acquireDrop_wf {q : Req} {s : State} (h : Memory.wf s.mem = true) :
    Memory.wf (acquireDrop q s).mem = true := by
  unfold acquireDrop
  exact ite_wf h h

theorem performHost_wf {q : Req} {l : HpccLine} {addr : Nat} {s : State} (h : Memory.wf s.mem = true) :
    Memory.wf (performHost q l addr s).mem = true := by
  unfold performHost
  dsimp only
  exact ite_wf h (ite_wf (acquireDrop_wf h) (l1Fill_wf (acquireDrop_wf h)))

theorem stallRecord_wf {q : Req} {c : BitVec 8} {s : State} (h : Memory.wf s.mem = true) :
    Memory.wf (stallRecord q c s).mem = true := by
  unfold stallRecord
  exact park_wf (faultQueue_wf _ _ _ h)

theorem appendLine_wf {cause : Option (BitVec 8)} {id : Nat} {s : State} (h : Memory.wf s.mem = true) :
    Memory.wf (appendLine cause id s).mem = true := by
  unfold appendLine
  dsimp only
  split
  · exact h
  · exact ite_wf h h

theorem appendLines_wf {q : Req} {cause : Option (BitVec 8)} {s : State} (h : Memory.wf s.mem = true) :
    Memory.wf (appendLines q cause s).mem = true := by
  unfold appendLines
  dsimp only
  exact ite_wf (foldl_wf (fun _ _ h1 => appendLine_wf h1) h) (stallRecord_wf (foldl_wf (fun _ _ h1 => appendLine_wf h1) h))

theorem appendLate_wf {q : Req} {cause : Option (BitVec 8)} {s : State} (h : Memory.wf s.mem = true) :
    Memory.wf (appendLate q cause s).mem = true := by
  unfold appendLate
  dsimp only
  exact ite_wf (appendLines_wf h) (ite_wf h (ite_wf h (stallRecord_wf h)))

theorem countRecord_wf {q : Req} {c : BitVec 8} {s : State} (h : Memory.wf s.mem = true) :
    Memory.wf (countRecord q c s).mem = true := by
  unfold countRecord
  exact ite_wf h (faultQueue_wf _ _ _ h)

theorem refuseWrite_wf {q : Req} {c : BitVec 8} {s : State} (h : Memory.wf s.mem = true) :
    Memory.wf (refuseWrite q c s).mem = true := by
  unfold refuseWrite
  split
  · exact h
  · exact ite_wf (appendLate_wf (ite_wf (countRecord_wf h) h)) h
  · exact appendLate_wf h

theorem serveGateway_wf {q : Req} {s : State} (h : Memory.wf s.mem = true) :
    Memory.wf (serveGateway q s).mem = true := by
  unfold serveGateway
  dsimp only
  split
  · exact ite_wf (refuseWrite_wf h) h
  · refine ite_wf (appendLate_wf h) ?_
    refine ite_wf h ?_
    split
    · exact ite_wf (performHost_wf h) (cxlAsk_wf h)
    · exact cxlAsk_wf h

theorem hpccRoom_wf {port line : Nat} {s : State} (h : Memory.wf s.mem = true) :
    Memory.wf (hpccRoom port line s).mem = true := by
  unfold hpccRoom
  dsimp only
  refine ite_wf h ?_
  split
  · exact h
  · refine dropHostLine_wf ?_
    split <;> exact h

theorem cacheGrant_wf {port addr : Nat} {st : Mesi} {data : List Byte} {s : State} (h : Memory.wf s.mem = true) :
    Memory.wf (cacheGrant port addr st data s).mem = true := by
  unfold cacheGrant
  dsimp only
  exact ite_wf h (foldl_wf (fun _ _ h1 => serveGateway_wf h1) (setHpcc_wf (hpccRoom_wf h)))

theorem snoop_wf {inv cur : Bool} {port addr : Nat} {s : State} (h : Memory.wf s.mem = true) :
    Memory.wf (snoop inv cur port addr s).mem = true := by
  unfold snoop
  dsimp only
  split
  · exact h
  · exact ite_wf h h

theorem onNum2_wf {f : Nat → Nat → State → State} {s : State}
    (hf : ∀ a a1 s, Memory.wf s.mem = true → Memory.wf (f a a1 s).mem = true) (h : Memory.wf s.mem = true) :
    Memory.wf (onNum2 f s).mem = true := by
  unfold onNum2
  split
  · exact hf _ _ _ h
  · exact h

theorem setOutDir_wf {d : OutDir} {s : State} (h : Memory.wf s.mem = true) :
    Memory.wf (setOutDir d s).mem = true := h

theorem hostMemwr_wf {port : Nat} {addr : BitVec 64} {data : BitVec 512} {s : State} (h : Memory.wf s.mem = true) :
    Memory.wf (hostMemwr port addr data s).mem = true := by
  unfold hostMemwr
  dsimp only
  split
  · exact h
  · refine hostInTurn_wf ?_ h
    intro _ h1
    split
    · exact reply_wf (hostRecord_wf h1)
    · exact ite_wf h1 (hostWriteThen_wf (fun _ h2 => reply_wf (writeBase_wf _ _ _ _ _ _ h2)) h1)

theorem noteHost_wf {r : LineRef} {port : Nat} {own : Bool} {s : State} (h : Memory.wf s.mem = true) :
    Memory.wf (noteHost r port own s).mem = true := h

theorem hostMemrd_wf {port : Nat} {addr : BitVec 64} {own : Bool} {s : State} (h : Memory.wf s.mem = true) :
    Memory.wf (hostMemrd port addr own s).mem = true := by
  unfold hostMemrd
  dsimp only
  split
  · exact h
  · refine hostInTurn_wf ?_ h
    intro _ h1
    split
    · exact reply_wf (hostRecord_wf h1)
    · exact reply_wf (noteHost_wf (ensureLine_wf _ _ _ _ h1))

theorem suspendCmd_wf {id : Nat} {cause sub : BitVec 8} {va : Word} {pnode : Nat} {abandoned : Bool} {s : State}
    (h : Memory.wf s.mem = true) :
    Memory.wf (suspendCmd id cause sub va pnode abandoned s).mem = true := by
  unfold suspendCmd
  dsimp only
  split
  · exact h
  · exact ite_wf (mapGang_wf h) (mapLaunch_wf (faultQueue_wf _ _ _ h))

theorem stopColl_wf {c : Cmd} {node : Nat} {s : State} (h : Memory.wf s.mem = true) :
    Memory.wf (stopColl c node s).mem = true := by
  unfold stopColl
  exact suspendCmd_wf h

theorem storeFails_wf {r : RemoteReq} {c : BitVec 8} {m : BitVec 64} {s : State} (h : Memory.wf s.mem = true) :
    Memory.wf (storeFails r c m s).mem = true := by
  unfold storeFails
  dsimp only
  split
  · exact ite_wf (faultQueue_wf _ _ _ h) (mapGang_wf h)
  · exact faultQueue_wf _ _ _ h

theorem mapSplits_wf {gang : Nat} {f : Split → Split} {s : State} (h : Memory.wf s.mem = true) :
    Memory.wf (mapSplits gang f s).mem = true := by
  unfold mapSplits
  dsimp only
  exact mapGang_wf (ite_wf h h)

theorem deliverTo_wf {gang id : Nat} {dest : Dest} {sx : Bool} {data : List Byte} {st : RegState} {ok : Bool} {s : State}
    (h : Memory.wf s.mem = true) :
    Memory.wf (deliverTo gang id dest sx data st ok s).mem = true := by
  unfold deliverTo
  dsimp only
  split
  · exact h
  · exact mapSplits_wf h
  · exact foldl_wf (fun _ _ h1 => mapGang_wf (mapSplits_wf h1)) h

theorem failLanes_wf {r : RemoteReq} {s : State} (h : Memory.wf s.mem = true) :
    Memory.wf (failLanes r s).mem = true := by
  unfold failLanes
  exact foldl_wf (fun _ _ h1 => ite_wf (deliverTo_wf h1) (deliverTo_wf h1)) h

theorem fillRemote_wf {c : RemoteCopy} {s : State} (h : Memory.wf s.mem = true) :
    Memory.wf (fillRemote c s).mem = true := by
  unfold fillRemote
  dsimp only
  exact ite_wf h h

theorem deliverLanes_wf {r : RemoteReq} {copy : Bool} {a : RemoteAnswer} {j : Nat} {l : List (Nat × Word × FabricOp)}
    {s : State}
    (h : Memory.wf s.mem = true) : Memory.wf (deliverLanes r copy a j l s).mem = true := by
  induction l generalizing j s with
  | nil => exact h
  | cons e l ih =>
    obtain ⟨i, va, op⟩ := e
    rw [deliverLanes]
    refine ih ?_
    have hd : Memory.wf (match findFirst (fun e : Nat × Dest => e.1 == i) r.dest with
        | some d => deliverTo r.gang r.id d.2 r.sx (answerBytes r copy a j va) .full true s
        | none => s).mem = true := by
      split
      · exact deliverTo_wf h
      · exact h
    split
    · exact fillRemote_wf hd
    · exact hd

theorem deliverGot_wf {r : RemoteReq} {s : State} (h : Memory.wf s.mem = true) :
    Memory.wf (deliverGot r s).mem = true := by
  unfold deliverGot
  split
  · exact deliverLanes_wf h
  · exact h

theorem closeReplay_wf {r : RemoteReq} {s : State} (h : Memory.wf s.mem = true) :
    Memory.wf (closeReplay r s).mem = true := by
  unfold closeReplay
  dsimp only
  refine ite_wf h ?_
  refine ite_wf (foldl_wf (fun _ _ h1 => deliverGot_wf h1) h) ?_
  refine ite_wf (foldl_wf (fun _ _ h1 => failLanes_wf h1) (foldl_wf (fun _ _ h1 => deliverGot_wf h1) h)) ?_
  split
  · exact storeFails_wf (foldl_wf (fun _ _ h1 => deliverGot_wf h1) h)
  · exact foldl_wf (fun _ _ h1 => deliverGot_wf h1) h

theorem failRemote_wf {r : RemoteReq} {c : BitVec 8} {m : BitVec 64} {s : State} (h : Memory.wf s.mem = true) :
    Memory.wf (failRemote r c m s).mem = true := by
  unfold failRemote
  dsimp only
  split
  · exact closeReplay_wf h
  · split
    · exact ite_wf (stopColl_wf h) (suspendCmd_wf h)
    · exact h

theorem failSilent_wf {ms : List RemoteReq} {s : State} (h : Memory.wf s.mem = true) :
    Memory.wf (failSilent ms s).mem = true := by
  unfold failSilent
  exact foldl_wf (fun _ _ h1 => failRemote_wf h1) (foldl_wf (fun _ _ h1 => h1) h)

theorem onRemote_wf {f : RemoteReq → State → State} {s : State}
    (hf : ∀ a s, Memory.wf s.mem = true → Memory.wf (f a s).mem = true) (h : Memory.wf s.mem = true) :
    Memory.wf (onRemote f s).mem = true := by
  unfold onRemote
  refine onNum_wf ?_ h
  intro _ _ h1
  split
  · exact hf _ _ h1
  · exact h1

theorem releaseHeld_wf {gang node : Nat} {s : State} (h : Memory.wf s.mem = true) :
    Memory.wf (releaseHeld gang node s).mem = true := by
  unfold releaseHeld
  dsimp only
  split
  · exact h
  · exact ite_wf h (depart_wf h)

theorem resend_wf {r : RemoteReq} {s : State} (h : Memory.wf s.mem = true) :
    Memory.wf (resend r s).mem = true := by
  unfold resend
  dsimp only
  exact ite_wf h (depart_wf h)

theorem grantReservations_wf {s : State} (h : Memory.wf s.mem = true) :
    Memory.wf (grantReservations s).mem = true := by
  unfold grantReservations
  exact foldl_wf (fun _ _ h1 => ite_wf h1 h1) h

theorem spillOne_wf {part slice : Nat} {s : State} (h : Memory.wf s.mem = true) :
    Memory.wf (spillOne part slice s).mem = true := by
  unfold spillOne
  dsimp only
  refine ite_wf h ?_
  split <;> exact h

theorem brimEnter_wf {launch : Nat} {r : LineRef} {k : Key} {order : Nat} {data : SMap Byte} {held : List Nat} {s : State}
    (h : Memory.wf s.mem = true) :
    Memory.wf (brimEnter launch r k order data held s).mem = true := by
  unfold brimEnter
  dsimp only
  exact evictLine_wf (spillOne_wf (ite_wf h h))

theorem publishBytes_wf {launch : Nat} {r : LineRef} {k : Key} {order : Nat} {data : SMap Byte} {s : State}
    (h : Memory.wf s.mem = true) :
    Memory.wf (publishBytes launch r k order data s).mem = true := by
  unfold publishBytes
  exact ite_wf (brimEnter_wf h) (foreignUpdate_wf (baseLine_wf h))

theorem publishAt_wf {launch part asid off : Nat} {k : Key} {data : List Byte} {s : State} (h : Memory.wf s.mem = true) :
    Memory.wf (publishAt launch part asid off k data s).mem = true := by
  unfold publishAt
  exact publishBytes_wf h

theorem endReservation_wf {q : FabricReq} {r : LineRef} {s : State} (h : Memory.wf s.mem = true) :
    Memory.wf (endReservation q r s).mem = true := by
  unfold endReservation
  exact grantReservations_wf h

theorem fabricPerform_wf {q : FabricReq} {part : Nat} {l : Option Launch} {s : State} (h : Memory.wf s.mem = true) :
    Memory.wf (fabricPerform q part l s).mem = true := by
  unfold fabricPerform
  dsimp only
  split
  · exact reply_wf (mapLine_wf (setOutDir_wf (countAnswer_wf (endReservation_wf h))))
  · exact reply_wf (countAnswer_wf (endReservation_wf h))
  · exact reply_wf (countAnswer_wf (endReservation_wf h))
  · exact countAnswer_wf (endReservation_wf h)
  · exact countAnswer_wf (endReservation_wf h)
  · split
    · refine reply_wf ?_
      refine ite_wf ?_ ?_
      · refine withReady_wf ?_ (countAnswer_wf (endReservation_wf h))
        intro _ h1
        split
        · exact publishAt_wf h1
        · exact publishAt_wf h1
        · exact writeBase_wf _ _ _ _ _ _ h1
      · split
        · exact publishAt_wf (countAnswer_wf (endReservation_wf h))
        · exact publishAt_wf (countAnswer_wf (endReservation_wf h))
        · exact writeBase_wf _ _ _ _ _ _ (countAnswer_wf (endReservation_wf h))
    · refine reply_wf ?_
      refine ite_wf ?_ ?_
      · refine withReady_wf ?_ (countAnswer_wf (endReservation_wf h))
        intro _ h1
        split
        · exact publishAt_wf h1
        · exact publishAt_wf h1
        · exact writeBase_wf _ _ _ _ _ _ h1
      · split
        · exact publishAt_wf (countAnswer_wf (endReservation_wf h))
        · exact publishAt_wf (countAnswer_wf (endReservation_wf h))
        · exact writeBase_wf _ _ _ _ _ _ (countAnswer_wf (endReservation_wf h))
    · refine reply_wf ?_
      refine ite_wf ?_ ?_
      · refine withReady_wf ?_ (countAnswer_wf (endReservation_wf h))
        intro _ h1
        split
        · exact publishAt_wf h1
        · exact publishAt_wf h1
        · exact writeBase_wf _ _ _ _ _ _ h1
      · split
        · exact publishAt_wf (countAnswer_wf (endReservation_wf h))
        · exact publishAt_wf (countAnswer_wf (endReservation_wf h))
        · exact writeBase_wf _ _ _ _ _ _ (countAnswer_wf (endReservation_wf h))

theorem fabricExhausted_wf {q : FabricReq} {part : Nat} {s : State} (h : Memory.wf s.mem = true) :
    Memory.wf (fabricExhausted q part s).mem = true := by
  unfold fabricExhausted
  exact countAnswer_wf h

theorem fabricFaults_wf {q : FabricReq} {part : Nat} {s : State} (h : Memory.wf s.mem = true) :
    Memory.wf (fabricFaults q part s).mem = true := by
  unfold fabricFaults
  exact countAnswer_wf h

theorem fabricHeld_wf {q : FabricReq} {part : Nat} {l : Launch} {k : Key} {d : List Byte} {c : BitVec 8} {s : State}
    (h : Memory.wf s.mem = true) :
    Memory.wf (fabricHeld q part l k d c s).mem = true := by
  unfold fabricHeld
  dsimp only
  exact ite_wf (fabricExhausted_wf h) (ite_wf (stallNoted_wf h) (fabricFaults_wf (enqueueLate_wf (brimEnter_wf h))))

theorem fabricHome_wf {q : FabricReq} {part : Nat} {a : Arg} {s : State} (h : Memory.wf s.mem = true) :
    Memory.wf (fabricHome q part a s).mem = true := by
  unfold fabricHome
  dsimp only
  refine ite_wf ?_ ?_
  · split
    · exact fabricHeld_wf h
    · exact fabricFaults_wf h
  · split
    · split
      · exact fabricHeld_wf h
      · exact fabricFaults_wf h
    · split
      · exact fabricFaults_wf (ensureLine_wf _ _ _ _ h)
      · exact ite_wf (fabricExhausted_wf (ensureLine_wf _ _ _ _ h))
          (ite_wf (ite_wf (fabricPerform_wf (ensureLine_wf _ _ _ _ h)) (beginPending_wf (ensureLine_wf _ _ _ _ h)))
          (ite_wf (ite_wf (fabricPerform_wf (ensureLine_wf _ _ _ _ h)) (beginPending_wf (ensureLine_wf _ _ _ _ h)))
          (ite_wf (fabricPerform_wf (ensureLine_wf _ _ _ _ h)) (beginPending_wf (ensureLine_wf _ _ _ _ h)))))

theorem refuseFabric_wf {q : FabricReq} {r : LineRef} {s : State} (h : Memory.wf s.mem = true) :
    Memory.wf (refuseFabric q r s).mem = true := by
  unfold refuseFabric
  dsimp only
  exact ite_wf (grantReservations_wf h) h

theorem fabricGateway_wf {q : FabricReq} {part : Nat} {a : Arg} {s : State} (h : Memory.wf s.mem = true) :
    Memory.wf (fabricGateway q part a s).mem = true := by
  unfold fabricGateway
  dsimp only
  refine ite_wf (fabricFaults_wf h) ?_
  split
  · exact fabricFaults_wf h
  · split
    · refine ite_wf ?_ (park_wf (cxlAsk_wf h))
      split <;> exact reply_wf (countAnswer_wf (performHost_wf h))
    · exact park_wf (cxlAsk_wf h)

theorem holderAnswers_wf {r : LineRef} {hd : CopyHolder} {s : State} (h : Memory.wf s.mem = true) :
    Memory.wf (holderAnswers r hd s).mem = true := by
  unfold holderAnswers
  dsimp only
  split
  · exact h
  · refine ite_wf h ?_
    refine leavePending_wf ?_
    refine mapLine_wf ?_
    split
    · exact h
    · exact ite_wf h h

theorem performDiscard_wf {q : Req} {s : State} (h : Memory.wf s.mem = true) :
    Memory.wf (performDiscard q s).mem = true := by
  unfold performDiscard
  exact ite_wf (foldl_wf (fun _ _ h1 => h1) (discardGranule_wf _ _ _ _ h)) (writePieces_wf _ _ _ _ _ _ _ h)

theorem performWriteOnly_wf {q : Req} {s : State} (h : Memory.wf s.mem = true) :
    Memory.wf (performWriteOnly q s).mem = true := by
  unfold performWriteOnly
  dsimp only
  split
  · exact setPhase_wf (performDiscard_wf h)
  · refine setPhase_wf ?_
    refine ite_wf ?_ ?_
    · refine publishAt_wf ?_
      split <;> exact h
    · refine writeBase_wf _ _ _ _ _ _ ?_
      split <;> exact h

theorem performWrite_wf {q : Req} {s : State} (h : Memory.wf s.mem = true) :
    Memory.wf (performWrite q s).mem = true := by
  unfold performWrite
  exact ite_wf (withReady_wf (fun _ h1 => performWriteOnly_wf h1) h) (performWriteOnly_wf h)

theorem serveWrite_wf {q : Req} {l : Line} {s : State} (h : Memory.wf s.mem = true) :
    Memory.wf (serveWrite q l s).mem = true := by
  unfold serveWrite
  dsimp only
  exact ite_wf (ite_wf (performWrite_wf h) h) (ite_wf (performWrite_wf h) h)

theorem inTurn_wf {q : Req} {serve : State → State} {s : State}
    (hserve : ∀ s, Memory.wf s.mem = true → Memory.wf (serve s).mem = true) (h : Memory.wf s.mem = true) :
    Memory.wf (inTurn q serve s).mem = true := by
  unfold inTurn
  exact ite_wf (hserve _ h) (park_wf h)

theorem followHeld_wf {q : Req} {answer : HcAnswer} {s : State} (h : Memory.wf s.mem = true) :
    Memory.wf (followHeld q answer s).mem = true := by
  unfold followHeld
  split
  · exact refuseWrite_wf h
  · exact appendLate_wf h

theorem writeAtHome_wf {q : Req} {s : State} (h : Memory.wf s.mem = true) :
    Memory.wf (writeAtHome q s).mem = true := by
  unfold writeAtHome
  refine ite_wf h ?_
  refine ite_wf (followHeld_wf h) ?_
  refine inTurn_wf ?_ h
  intro _ h1
  split
  · exact h1
  · exact ite_wf h1 (serveWrite_wf h1)

theorem onReq_wf {f : Req → State → State} {s : State} (hf : ∀ a s, Memory.wf s.mem = true → Memory.wf (f a s).mem = true)
    (h : Memory.wf s.mem = true) :
    Memory.wf (onReq f s).mem = true := by
  unfold onReq
  refine onNum_wf ?_ h
  intro _ _ h1
  split
  · exact hf _ _ h1
  · exact h1

theorem performLoad_wf {q : Req} {coh : BitVec 2} {s : State} (h : Memory.wf s.mem = true) :
    Memory.wf (performLoad q coh s).mem = true := by
  unfold performLoad
  dsimp only
  exact ite_wf (acquireDrop_wf h) (l1Fill_wf (acquireDrop_wf h))

theorem serveLoad_wf {q : Req} {l : Line} {s : State} (h : Memory.wf s.mem = true) :
    Memory.wf (serveLoad q l s).mem = true := by
  unfold serveLoad
  exact ite_wf (performLoad_wf h) h

theorem loadAtHome_wf {q : Req} {s : State} (h : Memory.wf s.mem = true) :
    Memory.wf (loadAtHome q s).mem = true := by
  unfold loadAtHome
  refine ite_wf h ?_
  refine inTurn_wf ?_ h
  intro _ h1
  split
  · exact h1
  · exact serveLoad_wf h1

theorem mapUnit_wf {launch i : Nat} {f : UnitState → UnitState} {s : State} (h : Memory.wf s.mem = true) :
    Memory.wf (mapUnit launch i f s).mem = true := h

theorem saveTo_wf {part asid : Nat} {ps : List (Nat × Nat)} {s : State} (h : Memory.wf s.mem = true) :
    Memory.wf (saveTo part asid ps s).mem = true := by
  unfold saveTo
  dsimp only
  exact foldl_wf (fun _ _ h1 => devStore_wf h1) h

theorem saveAccum_wf {launch i : Nat} {s : State} (h : Memory.wf s.mem = true) :
    Memory.wf (saveAccum launch i s).mem = true := by
  unfold saveAccum
  dsimp only
  split
  · exact saveTo_wf h
  · exact h

theorem contextLost_wf {launch part : Nat} {w : Party} {s : State} (h : Memory.wf s.mem = true) :
    Memory.wf (contextLost launch part w s).mem = true := by
  unfold contextLost
  exact endLaunch_wf (faultQueue_wf _ _ _ h)

theorem keepAccum_wf {launch i : Nat} {s : State} (h : Memory.wf s.mem = true) :
    Memory.wf (keepAccum launch i s).mem = true := by
  unfold keepAccum
  exact ite_wf (contextLost_wf h) (saveAccum_wf h)

theorem leaveAccum_wf {launch i : Nat} {s : State} (h : Memory.wf s.mem = true) :
    Memory.wf (leaveAccum launch i s).mem = true := by
  unfold leaveAccum
  dsimp only
  exact ite_wf (keepAccum_wf h) h

theorem saveUnit_wf {l : Launch} {u : UnitState} {s : State} (h : Memory.wf s.mem = true) :
    Memory.wf (saveUnit l u s).mem = true := by
  unfold saveUnit
  exact saveTo_wf (foldl_wf (fun _ _ h1 => saveTo_wf h1) h)

theorem setAccum_wf {launch unit : Nat} {d : SMap (BitVec 32)} {s : State} (h : Memory.wf s.mem = true) :
    Memory.wf (setAccum launch unit d s).mem = true := h

theorem restoreShadow_wf {c : Cmd} {s : State} (h : Memory.wf s.mem = true) :
    Memory.wf (restoreShadow c s).mem = true := by
  unfold restoreShadow
  dsimp only
  refine mapCmd_wf ?_
  split <;> exact h

theorem abortLoop_wf {stepb : Nat} {c : Cmd} {s : State} (h : Memory.wf s.mem = true) :
    Memory.wf (abortLoop stepb c s).mem = true := by
  unfold abortLoop
  exact ite_wf (countEvent_wf (mapCmd_wf (restoreShadow_wf h))) h

theorem saveRemotes_wf {ids : List Nat} {s : State} (h : Memory.wf s.mem = true) :
    Memory.wf (saveRemotes ids s).mem = true := h

theorem deliverResult_wf {q : Req} {data : List Byte} {ok : Bool} {s : State} (h : Memory.wf s.mem = true) :
    Memory.wf (deliverResult q data ok s).mem = true := by
  unfold deliverResult
  exact deliverTo_wf h

theorem settleLoad_wf {q : Req} {s : State} (h : Memory.wf s.mem = true) :
    Memory.wf (settleLoad q s).mem = true := by
  unfold settleLoad
  split
  · exact dropReq_wf (deliverResult_wf h)
  · exact deliverResult_wf h
  · exact h

theorem discardRegion_wf {s : State} (h : Memory.wf s.mem = true) :
    Memory.wf (discardRegion s).mem = true := by
  unfold discardRegion
  dsimp only
  split <;> exact h

theorem dropRegion_wf {s : State} (h : Memory.wf s.mem = true) :
    Memory.wf (dropRegion s).mem = true := by
  unfold dropRegion
  exact ite_wf (countEvent_wf (discardRegion_wf h)) h

theorem stayClosed_wf {old : Split} {ser : BitVec 32} {s : State} (h : Memory.wf s.mem = true) :
    Memory.wf (stayClosed old ser s).mem = true := by
  unfold stayClosed
  dsimp only
  exact ite_wf h h

theorem putBack_wf {j i : Nat} {below : List Split} {s : State} (h : Memory.wf s.mem = true) :
    Memory.wf (putBack j i below s).mem = true := by
  unfold putBack
  dsimp only
  exact ite_wf h h

theorem load_wf {n l : Nat} {s : State} (h : Memory.wf s.mem = true) :
    Memory.wf (load n l s).mem = true := by
  unfold load
  split
  · exact h
  · split <;> exact h

theorem unload_wf {s : State} (h : Memory.wf s.mem = true) :
    Memory.wf (unload s).mem = true := h

theorem withParked_wf {n j i : Nat} {f : State → State} {s : State}
    (hf : ∀ s, Memory.wf s.mem = true → Memory.wf (f s).mem = true) (h : Memory.wf s.mem = true) :
    Memory.wf (withParked n j i f s).mem = true := by
  unfold withParked
  dsimp only
  split
  · exact h
  · split
    · exact h
    · exact load_wf (unload_wf (ite_wf (putBack_wf (stayClosed_wf (hf _ h))) (hf _ h)))

theorem withSplit_wf {n l : Nat} {f : State → State} {s : State}
    (hf : ∀ s, Memory.wf s.mem = true → Memory.wf (f s).mem = true) (h : Memory.wf s.mem = true) :
    Memory.wf (withSplit n l f s).mem = true := by
  unfold withSplit
  dsimp only
  exact ite_wf (hf _ h) (ite_wf (load_wf (unload_wf (hf _ (load_wf h)))) h)

theorem withPath_wf {n l : Nat} {f : State → State} {s : State}
    (hf : ∀ s, Memory.wf s.mem = true → Memory.wf (f s).mem = true) (h : Memory.wf s.mem = true) :
    Memory.wf (withPath n l f s).mem = true := by
  unfold withPath
  split
  · exact h
  · refine ite_wf (withSplit_wf hf h) ?_
    split
    · exact withParked_wf hf h
    · exact h

theorem preempt_wf {urgent : Bool} {launch i : Nat} {s : State} (h : Memory.wf s.mem = true) :
    Memory.wf (preempt urgent launch i s).mem = true := by
  unfold preempt
  dsimp only
  refine ite_wf h ?_
  split
  · exact ite_wf h h
  · split
    · exact contextLost_wf (ite_wf h h)
    · exact settleDies_wf (leaveAccum_wf (mapUnit_wf (saveUnit_wf
        (ite_wf (foldl_wf (fun _ _ h1 => abortLoop_wf h1) (saveRemotes_wf
        (foldl_wf (fun _ _ h1 => settleLoad_wf h1) (foldl_wf (fun _ _ h1 => foldl_wf
        (fun _ _ h2 => withPath_wf (fun _ h3 => dropRegion_wf h3) h2) h1) (ite_wf h h)))))
        (saveRemotes_wf (foldl_wf (fun _ _ h1 => settleLoad_wf h1)
        (foldl_wf (fun _ _ h1 => foldl_wf (fun _ _ h2 => withPath_wf (fun _ h3 => dropRegion_wf h3) h2) h1) (ite_wf h h))))))))

theorem noHandlers_wf {s : State} (h : Memory.wf s.mem = true) :
    Memory.wf (noHandlers s).mem = true := h

theorem requestPoints_wf {die : Nat} {s : State} (h : Memory.wf s.mem = true) : Memory.wf (requestPoints die s).1.mem = true
    := by
  unfold requestPoints
  dsimp only
  split <;> exact h

theorem placeTiles_wf {l : Launch} {u : UnitState} {j core : Nat} {s : State} (h : Memory.wf s.mem = true) :
    Memory.wf (placeTiles l u j core s).mem = true := h

theorem divideCore_wf {l : Launch} {core : Nat} {s : State} (h : Memory.wf s.mem = true) :
    Memory.wf (divideCore l core s).mem = true := by
  unfold divideCore
  dsimp only
  exact ite_wf h h

theorem dropSelf_wf {core : Nat} {s : State} (h : Memory.wf s.mem = true) :
    Memory.wf (dropSelf core s).mem = true := h

theorem placeWg_wf {l : Launch} {u : UnitState} {j core : Nat} {s : State} (h : Memory.wf s.mem = true) :
    Memory.wf (placeWg l u j core s).mem = true := by
  unfold placeWg
  dsimp only
  exact placeTiles_wf (foldl_wf (fun _ _ h1 => ite_wf h1 h1) (dropSelf_wf (divideCore_wf h)))

theorem placeOn_wf {l : Launch} {u : UnitState} {cores : List Nat} {s : State} (h : Memory.wf s.mem = true) :
    Memory.wf (placeOn l u cores s).mem = true := by
  unfold placeOn
  split
  · exact contextLost_wf h
  · exact mapUnit_wf (requestPoints_wf (mapUnit_wf (foldl_wf (fun _ _ h1 => placeWg_wf h1) h)))

theorem swapIn_wf {n i fuel : Nat} {s : State} (h : Memory.wf s.mem = true) : Memory.wf (swapIn n i fuel s).mem = true := by
  induction fuel generalizing s with
  | zero => exact h
  | succ fuel ih =>
    rw [swapIn]
    dsimp only
    split
    · exact h
    · split
      · exact mapUnit_wf (placeOn_wf h)
      · split
        · exact h
        · split
          · exact mapUnit_wf h
          · refine ih (preempt_wf ?_)
            split
            · exact h
            · exact mapUnit_wf h

theorem swapUnits_wf {n : Nat} {us : List UnitState} {s : State} (h : Memory.wf s.mem = true) :
    Memory.wf (swapUnits n us s).mem = true := by
  unfold swapUnits
  exact foldl_wf (fun _ _ h1 => swapIn_wf h1) h

theorem placeFound_wf {n : Nat} {r : Option (UnitState × List Nat)} {s : State} (h : Memory.wf s.mem = true) :
    Memory.wf (placeFound n r s).mem = true := by
  unfold placeFound
  split
  · exact placeOn_wf h
  · exact h

theorem placeFreed_wf {n : Nat} {s : State} (h : Memory.wf s.mem = true) :
    Memory.wf (placeFreed n s).mem = true := by
  unfold placeFreed
  exact placeFound_wf h

theorem times_wf {f : State → State} {n : Nat} {s : State} (hf : ∀ s, Memory.wf s.mem = true → Memory.wf (f s).mem = true)
    (h : Memory.wf s.mem = true) : Memory.wf (times f n s).mem = true := by
  induction n generalizing s with
  | zero => exact h
  | succ n ih => exact ih (hf s h)

theorem giveWay_wf {n : Nat} {s : State} (h : Memory.wf s.mem = true) :
    Memory.wf (giveWay n s).mem = true := by
  unfold giveWay
  dsimp only
  exact times_wf (fun _ h1 => placeFreed_wf h1) (foldl_wf (fun _ _ h1 => preempt_wf h1) h)

theorem rotateUnits_wf {n : Nat} {s : State} (h : Memory.wf s.mem = true) :
    Memory.wf (rotateUnits n s).mem = true := by
  unfold rotateUnits
  dsimp only
  exact giveWay_wf h

theorem performDecrement_wf {launch part asid off : Nat} {s : State} (h : Memory.wf s.mem = true) :
    Memory.wf (performDecrement launch part asid off s).mem = true := by
  unfold performDecrement
  exact withReady_wf (fun _ h1 => writePieces_wf _ _ _ _ _ _ _ h1) h

theorem decrement_wf {launch part asid : Nat} {va : Word} {s : State} (h : Memory.wf s.mem = true) :
    Memory.wf (decrement launch part asid va s).mem = true := by
  unfold decrement
  dsimp only
  refine ite_wf h ?_
  refine ite_wf h ?_
  split
  · exact faultQueue_wf _ _ _ h
  · exact ite_wf h (performDecrement_wf h)

theorem releaseSuccessors_wf {l : Launch} {s : State} (h : Memory.wf s.mem = true) :
    Memory.wf (releaseSuccessors l s).mem = true := by
  unfold releaseSuccessors
  exact foldl_wf (fun _ _ h1 => decrement_wf h1) h

theorem sendDiscards_wf {l : Launch} {s : State} (h : Memory.wf s.mem = true) :
    Memory.wf (sendDiscards l s).mem = true := by
  unfold sendDiscards
  exact foldl_wf (fun _ _ h1 => h1) h

theorem retireLaunch_wf {n : Nat} {s : State} (h : Memory.wf s.mem = true) : Memory.wf (retireLaunch n s).mem = true := by
  unfold retireLaunch
  dsimp only
  split
  · exact h
  · split
    · exact mergeAll_wf h
    · split
      · exact sendDiscards_wf h
      · split
        · exact askHosts_wf h
        · have hd := mapLaunch_wf (n := n) (f := fun l => { l with phase := .retired, pool := [], discards := [] })
            (l1Drop_wf (q := fun c => c.coh == 3 && c.launch == n) h)
          split
          · exact writeComp_wf hd
          · split
            · exact writeComp_wf hd
            · exact releaseSuccessors_wf (writeComp_wf hd)

theorem removeUnit_wf {launch i : Nat} {s : State} (h : Memory.wf s.mem = true) :
    Memory.wf (removeUnit launch i s).mem = true := by
  unfold removeUnit
  dsimp only
  exact settleDies_wf (mapLaunch_wf (ite_wf h h))

theorem flushFault_wf {g : Gang} {f : HeldFault} {s : State} (h : Memory.wf s.mem = true) :
    Memory.wf (flushFault g f s).mem = true := by
  unfold flushFault
  dsimp only
  exact ite_wf (faultQueue_wf _ _ _ h) (mapLaunch_wf (faultQueue_wf _ _ _ h))

theorem flushFaults_wf {launch i : Nat} {s : State} (h : Memory.wf s.mem = true) :
    Memory.wf (flushFaults launch i s).mem = true := by
  unfold flushFaults
  exact foldl_wf (fun _ _ h1 => mapGang_wf (foldl_wf (fun _ _ h2 => flushFault_wf h2) h1)) h

theorem placeNext_wf {n : Nat} {s : State} (h : Memory.wf s.mem = true) :
    Memory.wf (placeNext n s).mem = true := by
  unfold placeNext
  exact placeFound_wf h

theorem markLeaving_wf {before after : State} (h : Memory.wf before.mem = true) (h1 : Memory.wf after.mem = true) :
    Memory.wf (markLeaving before after).mem = true := h

theorem displaceFor_wf {n : Nat} {l : List (Launch × UnitState)} {s : State} (h : Memory.wf s.mem = true) :
    Memory.wf (displaceFor n l s).mem = true := by
  induction l generalizing s with
  | nil => exact h
  | cons e l ih =>
    rw [displaceFor]
    split
    · exact h
    · exact ih (preempt_wf (mapUnit_wf h))

theorem displaceEach_wf {n k : Nat} {s : State} (h : Memory.wf s.mem = true) : Memory.wf (displaceEach n k s).mem = true := by
  induction k generalizing s with
  | zero => exact h
  | succ k ih =>
    rw [displaceEach]
    dsimp only
    split
    · exact h
    · split
      · exact ih (placeFound_wf (displaceFor_wf h))
      · exact h

theorem displaceLower_wf {n : Nat} {s : State} (h : Memory.wf s.mem = true) :
    Memory.wf (displaceLower n s).mem = true := by
  unfold displaceLower
  dsimp only
  exact ite_wf (displaceEach_wf h) (markLeaving_wf (displaceEach_wf h) (displaceEach_wf (noHandlers_wf (displaceEach_wf h))))

theorem refuseLaunch_wf {l : Launch} {s : State} (h : Memory.wf s.mem = true) :
    Memory.wf (refuseLaunch l s).mem = true := by
  unfold refuseLaunch
  exact mapLaunch_wf (writeComp_wf h)

theorem startLaunch_wf {l : Launch} {pool : List (Nat × Nat)} {s : State} (h : Memory.wf s.mem = true) :
    Memory.wf (startLaunch l pool s).mem = true := by
  unfold startLaunch
  dsimp only
  exact ite_wf h (displaceLower_wf h)

theorem leaveList_wf {l : Launch} {s : State} (h : Memory.wf s.mem = true) :
    Memory.wf (leaveList l s).mem = true := by
  unfold leaveList
  exact relink_wf h

theorem leaveIntake_wf {part : Nat} {s : State} (h : Memory.wf s.mem = true) :
    Memory.wf (leaveIntake part s).mem = true := by
  unfold leaveIntake
  split
  · exact h
  · refine ite_wf h ?_
    refine ite_wf (refuseLaunch_wf (leaveList_wf h)) ?_
    split
    · exact h
    · exact startLaunch_wf (leaveList_wf h)

theorem fillMissing_wf {q : Req} {l : Leaf} {s : State} (h : Memory.wf s.mem = true) :
    Memory.wf (fillMissing q l s).mem = true := by
  unfold fillMissing
  split
  · exact h
  · exact countEvent_wf (fillLine_wf _ _ _ h)

theorem loadAtHc_wf {q : Req} {s : State} (h : Memory.wf s.mem = true) :
    Memory.wf (loadAtHc q s).mem = true := by
  unfold loadAtHc
  dsimp only
  split
  · exact h
  · refine ite_wf h ?_
    refine ite_wf (park_wf h) ?_
    split
    · exact serveLoad_wf (setPhase_wf (unpark_wf (fillMissing_wf h)))
    · exact unpark_wf (fillMissing_wf h)

theorem discardAtHc_wf {q : Req} {s : State} (h : Memory.wf s.mem = true) :
    Memory.wf (discardAtHc q s).mem = true := by
  unfold discardAtHc
  dsimp only
  exact ite_wf (performWrite_wf h) (foldl_wf (fun _ _ h1 => ite_wf h1
      (beginPending_wf (ensureLine_wf _ _ _ _ (countMiss_wf h1)))) h)

theorem writeAtHc_wf {q : Req} {s : State} (h : Memory.wf s.mem = true) :
    Memory.wf (writeAtHc q s).mem = true := by
  unfold writeAtHc
  dsimp only
  refine ite_wf (followHeld_wf h) ?_
  split
  · exact refuseWrite_wf h
  · refine ite_wf (park_wf h) ?_
    refine ite_wf (discardAtHc_wf h) ?_
    split
    · exact serveWrite_wf (setPhase_wf (mapLine_wf (fillMissing_wf h)))
    · exact mapLine_wf (fillMissing_wf h)

theorem publicationHeld_wf {b : Publication} {cause : Option (BitVec 8)} {s : State} (h : Memory.wf s.mem = true) :
    Memory.wf (publicationHeld b cause s).mem = true := by
  unfold publicationHeld
  dsimp only
  exact enqueueLate_wf (brimEnter_wf h)

theorem engPublish_wf {s : State} {c : Cmd} {off : Nat} {data : List Byte} (h : Memory.wf s.mem = true) :
    Memory.wf (engPublish s c off data).mem = true := by
  unfold engPublish
  dsimp only
  exact ite_wf (publicationHeld_wf h) (publishBytes_wf h)

theorem engWriteAt_wf {c : Cmd} {off : Nat} {data : List Byte} {s : State} (h : Memory.wf s.mem = true) :
    Memory.wf (engWriteAt c off data s).mem = true := by
  unfold engWriteAt
  dsimp only
  refine ite_wf ?_ (ite_wf (engPublish_wf h) (ite_wf h (writePieces_wf _ _ _ _ _ _ _ h)))
  refine ite_wf h ?_
  split <;> exact h

theorem engStore_wf {c : Cmd} {va : Word} {data : List Byte} {s : State} (h : Memory.wf s.mem = true) :
    Memory.wf (engStore c va data s).mem = true := by
  unfold engStore
  dsimp only
  exact foldl_wf (fun _ _ h1 => engWriteAt_wf h1) h

theorem mloopStep_wf {c : Cmd} {s : State} (h : Memory.wf s.mem = true) : OkForm (mloopStep c s) := by
  unfold mloopStep
  dsimp only
  split
  · exact .error
  · exact .ok (mapCmd_wf (setAccum_wf h))

theorem fillRead_wf {c : Cmd} {e : Word × Nat} {s : State} (h : Memory.wf s.mem = true) :
    Memory.wf (fillRead c e s).mem = true := by
  unfold fillRead
  exact foldl_wf (fun _ _ h1 => ensureLine_wf _ _ _ _ (countMiss_wf h1)) h

theorem runUnit_wf {c : Cmd} {cause : BitVec 8} {w : UnitWork} {s : State}
    (hw : ∀ s, Memory.wf s.mem = true → Memory.wf (w.run s).mem = true) (h : Memory.wf s.mem = true) :
    OkForm (runUnit c cause w s) := by
  unfold runUnit
  split
  · exact .error
  · split
    · exact .error
    · exact .ok (hw _ (foldl_wf (fun _ _ h1 => fillRead_wf h1) h))

/-- What follows a unit of work that is done. -/
theorem runUnit_then_wf {c : Cmd} {w : UnitWork} {s : State} {f : State → State}
    (hw : ∀ s, Memory.wf s.mem = true → Memory.wf (w.run s).mem = true)
    (hf : ∀ s, Memory.wf s.mem = true → Memory.wf (f s).mem = true) (h : Memory.wf s.mem = true) :
    OkForm (match runUnit c 0xC0 w s with
      | .error x => .error x
      | .ok s => .ok (f s)) := by
  have hu := runUnit_wf (c := c) (cause := 0xC0) hw h
  split
  · exact .error
  next ht => exact .ok (hf _ (hu _ ht))

theorem sendInput_wf {c : Cmd} {s : State} (h : Memory.wf s.mem = true) :
    Memory.wf (sendInput c s).mem = true := by
  unfold sendInput
  dsimp only
  exact foldl_wf (fun _ _ h1 => sendRemote_wf h1) (mapCmd_wf (fillRead_wf h))

theorem collStep_wf {c : Cmd} {s : State} (h : Memory.wf s.mem = true) : OkForm (collStep c s) := by
  unfold collStep
  split
  · split
    · exact .error
    · exact .ok (sendInput_wf h)
  · split
    · exact .error
    · exact runUnit_then_wf (fun _ h => engStore_wf h) (fun _ h => mapCmd_wf h) h

theorem advance_wf {id : Nat} {s : State} (h : Memory.wf s.mem = true) :
    Memory.wf (advance id s).mem = true := h

theorem sideStore_wf {c : Cmd} {p : Pattern} {u : Nat} {data : List Byte} {s : State} (h : Memory.wf s.mem = true) :
    Memory.wf (sideStore c p u data s).mem = true := by
  unfold sideStore
  dsimp only
  exact ite_wf h (engStore_wf h)

theorem peerStep_wf {c : Cmd} {s : State} (h : Memory.wf s.mem = true) : OkForm (peerStep c s) := by
  unfold peerStep
  dsimp only
  split
  · exact .error
  · split
    · exact runUnit_then_wf (fun _ h => sideStore_wf h) (fun _ h => advance_wf h) h
    · split
      · exact .error
      · split
        · split
          · exact runUnit_then_wf (fun _ h => sideStore_wf h) (fun _ h => advance_wf h) h
          · exact .ok (advance_wf h)
        · split
          · exact .ok (sendRemote_wf h)
          · split
            · exact .error
            · exact .ok (sendRemote_wf (foldl_wf (fun _ _ h1 => fillRead_wf h1) h))

theorem rowUnit_wf {c : Cmd} {s t : State} {j : Nat} {w : UnitWork} (hw : rowUnit s c j = .ok w) (h : Memory.wf t.mem = true) :
    Memory.wf (w.run t).mem = true := by
  unfold rowUnit at hw
  dsimp only at hw
  split at hw
  · cases hw
  · cases hw
    split
    · exact writeTile_wf h
    · exact engStore_wf h

theorem accStoreRow_wf {c : Cmd} {x : AccShape} {r : Nat} {s : State} (h : Memory.wf s.mem = true) :
    Memory.wf ((accStoreRow c x r).run s).mem = true := by
  unfold accStoreRow
  dsimp only
  split
  · exact writeTile_wf h
  · exact engStore_wf h

theorem engTry_wf {c : Cmd} {s : State} (h : Memory.wf s.mem = true) : OkForm (engTry c s) := by
  unfold engTry
  dsimp only
  split
  · exact runUnit_then_wf (fun _ h => sideStore_wf h) (fun _ h => advance_wf h) h
  · exact peerStep_wf h
  · split
    · exact .error
    next hw => exact runUnit_then_wf (fun _ h => rowUnit_wf hw h) (fun _ h => advance_wf h) h
  · split
    · exact .error
    next hw => exact runUnit_then_wf (fun _ h => rowUnit_wf hw h) (fun _ h => advance_wf h) h
  · exact collStep_wf h
  · exact mloopStep_wf h
  · exact .ok (advance_wf (setAccum_wf h))
  · exact runUnit_then_wf (fun _ h => setAccum_wf h) (fun _ h => advance_wf h) h
  · exact runUnit_then_wf (fun _ h => accStoreRow_wf h) (fun _ h => advance_wf h) h

theorem addClock_wf {n : Nat} {s : State} (h : Memory.wf s.mem = true) :
    Memory.wf (addClock n s).mem = true := by
  unfold addClock
  dsimp only
  exact ite_wf h h

theorem retired_wf {s : State} (h : Memory.wf s.mem = true) :
    Memory.wf (retired s).mem = true := h

theorem wakeWith_wf {reopen : Nat → Gang → Split → Gang × Split} {j : Nat} {s : State} (h : Memory.wf s.mem = true) :
    Memory.wf (wakeWith reopen j s).mem = true := by
  unfold wakeWith
  dsimp only
  split
  · exact h
  · exact ite_wf h h

theorem wakeSlice_wf {j : Nat} {s : State} (h : Memory.wf s.mem = true) :
    Memory.wf (wakeSlice j s).mem = true := by
  unfold wakeSlice
  exact wakeWith_wf h

theorem rotateOn_wf {js : List Nat} {s : State} (h : Memory.wf s.mem = true) :
    Memory.wf (rotateOn js s).mem = true := by
  unfold rotateOn
  dsimp only
  exact foldl_wf (fun _ _ h1 => wakeSlice_wf h1) (foldl_wf (fun _ _ h1 => h1) (commitRegion_wf h))

theorem rotate_wf {s : State} (h : Memory.wf s.mem = true) :
    Memory.wf (rotate s).mem = true := by
  unfold rotate
  dsimp only
  exact ite_wf h (rotateOn_wf h)

theorem fallThrough_wf {s : State} (h : Memory.wf s.mem = true) :
    Memory.wf (fallThrough s).mem = true := by
  unfold fallThrough
  dsimp only
  exact ite_wf h (ite_wf (rotate_wf (ite_wf (openRegion_wf (addClock_wf h)) (track_wf (addClock_wf h))))
      (ite_wf (openRegion_wf (addClock_wf h)) (track_wf (addClock_wf h))))

theorem finish_wf {w : Nat} {s : State} (h : Memory.wf s.mem = true) :
    Memory.wf (finish w s).mem = true := by
  unfold finish
  exact fallThrough_wf (retired_wf (addClock_wf h))

theorem ewaitDone_wf {k n upto : Nat} {s : State} (h : Memory.wf s.mem = true) :
    Memory.wf (ewaitDone k n upto s).mem = true := by
  unfold ewaitDone
  dsimp only
  exact finish_wf (ite_wf h h)

theorem fillOutputs_wf {c : Cmd} {s : State} (h : Memory.wf s.mem = true) :
    Memory.wf (fillOutputs c s).mem = true := by
  unfold fillOutputs
  dsimp only
  exact foldl_wf (fun _ _ h1 => h1) h

theorem finishCmd_wf {c : Cmd} {s : State} (h : Memory.wf s.mem = true) :
    Memory.wf (finishCmd c s).mem = true := by
  unfold finishCmd
  exact leaveAccum_wf (mapCmd_wf (fillOutputs_wf (releaseInputs_wf h)))

theorem engWaits_engStalls_wf {c : Cmd} {r : LineRef} {va : Word} {s : State} (h : Memory.wf s.mem = true) :
    Memory.wf (engWaits.engStalls c r va s).mem = true := by
  unfold engWaits.engStalls
  dsimp only
  exact ite_wf (park_wf h) (park_wf (faultQueue_wf _ _ _ h))

theorem engWaits_wf {c : Cmd} {x : EngStop} {s : State} (h : Memory.wf s.mem = true) :
    Memory.wf (engWaits c x s).mem = true := by
  unfold engWaits
  dsimp only
  split
  · exact cxlAsk_wf h
  · exact beginPending_wf (ensureLine_wf _ _ _ _ (countMiss_wf h))
  · exact engWaits_engStalls_wf h
  · exact h

theorem runOne_wf {id : Nat} {s : State} (h : Memory.wf s.mem = true) : Memory.wf (runOne id s).mem = true := by
  unfold runOne
  split
  · exact h
  · split
    · exact h
    · split
      · exact engWaits_wf h
      next ht => exact engTry_wf h _ ht

theorem execEngineFinish_go_wf {id : Nat} {s : State} (h : Memory.wf s.mem = true) :
    Memory.wf (execEngineFinish.go id s).mem = true := by
  unfold execEngineFinish.go
  dsimp only
  split
  · exact h
  · refine ite_wf h ?_
    refine ite_wf (stopColl_wf h) ?_
    refine ite_wf h ?_
    split
    · exact ite_wf h (runOne_wf h)
    · exact ite_wf (finishCmd_wf (ite_wf h (runOne_wf h))) (ite_wf h (runOne_wf h))

theorem switchTiles_wf {cluster : Nat} {to' : Nat × Nat} {s : State} (h : Memory.wf s.mem = true) :
    Memory.wf (switchTiles cluster to' s).mem = true := by
  unfold switchTiles
  dsimp only
  split
  · exact ite_wf h (ite_wf (contextLost_wf (keepAccum_wf h)) (keepAccum_wf h))
  · exact ite_wf (contextLost_wf h) h

theorem passStep_wf {id : Nat} {s : State} (h : Memory.wf s.mem = true) :
    Memory.wf (passStep id s).mem = true := by
  unfold passStep
  split
  · exact h
  · exact ite_wf (runOne_wf (ite_wf h h)) h

theorem landTile_wf {gang hd : Nat} {s : State} (h : Memory.wf s.mem = true) :
    Memory.wf (landTile gang hd s).mem = true := by
  unfold landTile
  dsimp only
  split
  · exact h
  · exact foldl_wf (fun _ _ h1 => withSplit_wf (fun _ h2 => openRegion_wf h2) h1) h

theorem takeTiles_wf {c : Cmd} {tag : Nat} {s : State} (h : Memory.wf s.mem = true) :
    Memory.wf (takeTiles c tag s).mem = true := by
  unfold takeTiles
  dsimp only
  exact foldl_wf (fun _ _ h1 => h1) (foldl_wf (fun _ _ h1 => mapTile_wf (landTile_wf h1)) h)

theorem openClosed_wf {s : State} (h : Memory.wf s.mem = true) :
    Memory.wf (openClosed s).mem = true := by
  unfold openClosed
  exact ite_wf h (openRegion_wf h)

theorem leaveBarrier_wf {b : BarrierRef} {m : Nat} {last : Option Key} {s : State} (h : Memory.wf s.mem = true) :
    Memory.wf (leaveBarrier b m last s).mem = true := by
  unfold leaveBarrier
  dsimp only
  exact openClosed_wf (fallThrough_wf h)

theorem barrierOverflow_wf {b : BarrierRef} {ps : List (Gang × Split)} {s : State} (h : Memory.wf s.mem = true) :
    Memory.wf (barrierOverflow b ps s).mem = true := by
  unfold barrierOverflow
  exact foldl_wf (fun _ _ h1 => withPath_wf (fun _ h2 => h2) h1) h

theorem completeBarrier_wf {b : BarrierRef} {m0 : Nat} {k0 : Option Key} {s : State} (h : Memory.wf s.mem = true) :
    Memory.wf (completeBarrier b m0 k0 s).mem = true := by
  unfold completeBarrier
  dsimp only
  exact ite_wf (barrierOverflow_wf h) (foldl_wf (fun _ _ h1 => withPath_wf (fun _ h2 => leaveBarrier_wf h2) h1)
      (ite_wf (ite_wf h h) (foldl_wf (fun _ _ h1 => h1) (ite_wf h h))))

theorem applyUpdate_wf {u : Update} {s : State} (h : Memory.wf s.mem = true) :
    Memory.wf (applyUpdate u s).mem = true := by
  unfold applyUpdate
  dsimp only
  exact withReady_wf (fun _ h1 => publishAt_wf h1) h

theorem applyUpdates_wf {l : List Update} {s : State} (h : Memory.wf s.mem = true) : Memory.wf (applyUpdates l s).mem = true
    := by
  induction l generalizing s with
  | nil => exact h
  | cons u l ih =>
    rw [applyUpdates]
    refine ih ?_
    split
    · exact h
    · split
      · exact applyUpdate_wf h
      · exact beginPending_wf (ensureLine_wf _ _ _ _ (countMiss_wf h))

theorem keyedStall_wf {id : Nat} {r : LineRef} {e : LateEntry} {c : BitVec 8} {s : State} (h : Memory.wf s.mem = true) :
    Memory.wf (keyedStall id r e c s).mem = true := by
  unfold keyedStall
  exact park_wf (faultQueue_wf _ _ _ h)

theorem mergeBrim_wf {launch : Nat} {s : State} (h : Memory.wf s.mem = true) :
    Memory.wf (mergeBrim launch s).mem = true := by
  unfold mergeBrim
  exact mergeList_wf h

theorem sendViewed_wf {r : RemoteReq} {s : State} (h : Memory.wf s.mem = true) :
    Memory.wf (sendViewed r s).mem = true := by
  unfold sendViewed
  dsimp only
  split
  · exact ite_wf (ite_wf h (depart_wf h)) h
  · exact h

theorem issueCmd_wf {o : Order} {s : State} (h : Memory.wf s.mem = true) :
    Memory.wf (issueCmd o s).mem = true := by
  unfold issueCmd
  exact ite_wf h h

theorem partSlice_wf {j : Nat} {s : State} (h : Memory.wf s.mem = true) :
    Memory.wf (partSlice j s).mem = true := by
  unfold partSlice
  dsimp only
  exact ite_wf h h

theorem comeBack_wf {s : State} (h : Memory.wf s.mem = true) :
    Memory.wf (comeBack s).mem = true := by
  unfold comeBack
  dsimp only
  exact ite_wf h (foldl_wf (fun _ _ h1 => partSlice_wf h1) (commitRegion_wf h))

theorem finishTurn_wf {w : Nat} {s : State} (h : Memory.wf s.mem = true) :
    Memory.wf (finishTurn w s).mem = true := by
  unfold finishTurn
  dsimp only
  exact openClosed_wf (ite_wf (comeBack_wf (finish_wf h)) (ite_wf (finish_wf h) (rotate_wf (finish_wf h))))

theorem setTurn_wf {s : State} (h : Memory.wf s.mem = true) :
    Memory.wf (setTurn s).mem = true := by
  unfold setTurn
  dsimp only
  exact ite_wf h h

theorem publishWhere_wf {q : CuffEntry → Bool} {k : Key} {s : State} (h : Memory.wf s.mem = true) :
    Memory.wf (publishWhere q k s).mem = true := by
  unfold publishWhere
  dsimp only
  exact foldl_wf (fun _ _ h1 => h1) h

theorem publishing_wf {word : BitVec 32} {q : CuffEntry → Bool} {own : List Nat} {f : State → State} {s : State}
    (hf : ∀ s, Memory.wf s.mem = true → Memory.wf (f s).mem = true) (h : Memory.wf s.mem = true) :
    Memory.wf (publishing word q own f s).mem = true := by
  unfold publishing
  dsimp only
  exact ite_wf (contextLost_wf h) (ite_wf (preciseTrap_wf h) (hf _ (publishWhere_wf h)))

theorem publishingTurn_wf {word : BitVec 32} {ls : State → List Nat} {own : State → State} {s : State}
    (hown : ∀ s, Memory.wf s.mem = true → Memory.wf (own s).mem = true) (h : Memory.wf s.mem = true) :
    Memory.wf (publishingTurn word ls own s).mem = true := by
  unfold publishingTurn
  exact ite_wf (publishing_wf (fun _ h1 => hown _ (setTurn_wf h1)) h) (hown _ h)

theorem releasePerform_wf {word : BitVec 32} {o : Order} {s : State} (h : Memory.wf s.mem = true) :
    Memory.wf (releasePerform word o s).mem = true := by
  unfold releasePerform
  exact publishingTurn_wf (fun _ h1 => finishTurn_wf (issueCmd_wf h1)) h

theorem relAdmitted_wf {i : Instr} {s : State} (h : Memory.wf s.mem = true) :
    Memory.wf (relAdmitted i s).mem = true := by
  unfold relAdmitted
  split
  · exact releasePerform_wf h
  · exact h

theorem tilePerform_wf {o : TileOp} {hd : Nat} {s : State} (h : Memory.wf s.mem = true) :
    Memory.wf (tilePerform o hd s).mem = true := by
  unfold tilePerform
  dsimp only
  split
  · exact preciseTrap_wf h
  · exact h
  · exact finishTurn_wf (setTurn_wf (mapTile_wf (ite_wf (landTile_wf h) h)))

theorem markEmpty_wf {d : Dest} {id : Nat} {s : State} (h : Memory.wf s.mem = true) :
    Memory.wf (markEmpty d id s).mem = true := by
  unfold markEmpty
  split
  · exact h
  · exact h
  · exact foldl_wf (fun _ _ h1 => h1) h

theorem markDests_wf {r : RemoteReq} {s : State} (h : Memory.wf s.mem = true) :
    Memory.wf (markDests r s).mem = true := by
  unfold markDests
  exact foldl_wf (fun _ _ h1 => markEmpty_wf h1) h

theorem sendTurn_wf {q : Req} {s : State} (h : Memory.wf s.mem = true) :
    Memory.wf (sendTurn q s).mem = true := by
  unfold sendTurn
  dsimp only
  exact ite_wf h h

theorem atomNode_wf {word : BitVec 32} {o : OpXn} {ret : Bool} {op : AtomOp} {node : Nat} {l : List Far} {s : State}
    (h : Memory.wf s.mem = true) :
    Memory.wf (atomNode word o ret op node l s).mem = true := by
  unfold atomNode
  dsimp only
  exact ite_wf (foldl_wf (fun _ _ h1 => sendTurn_wf (markEmpty_wf h1)) h) (sendReplay_wf (fun _ _ h1 => markDests_wf h1) h)

theorem farStep_wf {word : BitVec 32} {o : OpXn} {ret : Bool} {s : State} (h : Memory.wf s.mem = true) :
    Memory.wf (farStep word o ret s).mem = true := by
  unfold farStep
  dsimp only
  split
  · exact h
  · split
    · exact finishTurn_wf (setTurn_wf h)
    · exact atomNode_wf h

theorem redXPerform_wf {o : OpXn} {s : State} (h : Memory.wf s.mem = true) :
    Memory.wf (redXPerform o s).mem = true := by
  unfold redXPerform
  dsimp only
  exact farStep_wf h

theorem atomXPerform_wf {o : OpXn} {s : State} (h : Memory.wf s.mem = true) :
    Memory.wf (atomXPerform o s).mem = true := by
  unfold atomXPerform
  dsimp only
  exact ite_wf (publishing_wf (fun _ h1 => farStep_wf h1) h) (farStep_wf h)

theorem storeNode_wf {word : BitVec 32} {t : Ty} {o : OpX} {node : Nat} {l : List Far} {s : State}
    (h : Memory.wf s.mem = true) :
    Memory.wf (storeNode word t o node l s).mem = true := by
  unfold storeNode
  dsimp only
  exact ite_wf (foldl_wf (fun _ _ h1 => ite_wf (sendTurn_wf h1) h1) h) (sendReplay_wf (fun _ _ h1 => h1) h)

theorem stXPerform_wf {o : OpX} {s : State} (h : Memory.wf s.mem = true) :
    Memory.wf (stXPerform o s).mem = true := by
  unfold stXPerform
  dsimp only
  split
  · exact h
  · exact ite_wf (preciseTrap_wf h) (finishTurn_wf (foldl_wf (fun _ _ h1 => storeNode_wf h1) (setTurn_wf h)))

theorem finishAlone_wf {w : Nat} {s : State} (h : Memory.wf s.mem = true) :
    Memory.wf (finishAlone w s).mem = true := by
  unfold finishAlone
  exact openClosed_wf (finish_wf h)

theorem endSplit_wf {s : State} (h : Memory.wf s.mem = true) :
    Memory.wf (endSplit s).mem = true := h

theorem refill_wf {l : List Nat} {s : State} (h : Memory.wf s.mem = true) : Memory.wf (refill l s).mem = true := by
  induction l generalizing s with
  | nil => exact h
  | cons j l ih =>
    rw [refill]
    refine ih ?_
    split
    · exact wakeWith_wf h
    · exact h

theorem haltLanes_wf {back : State → State} {s : State} (hback : ∀ s, Memory.wf s.mem = true → Memory.wf (back s).mem = true)
    (h : Memory.wf s.mem = true) :
    Memory.wf (haltLanes back s).mem = true := by
  unfold haltLanes
  dsimp only
  exact ite_wf (refill_wf (endSplit_wf (retired_wf (addClock_wf h)))) (refill_wf (hback _ (finishAlone_wf h)))

theorem haltPerform_wf {s : State} (h : Memory.wf s.mem = true) :
    Memory.wf (haltPerform s).mem = true := by
  unfold haltPerform
  exact publishingTurn_wf (fun _ h1 => haltLanes_wf (fun _ h2 => comeBack_wf h2) h1) h

theorem turnPerform_wf {s : State} (h : Memory.wf s.mem = true) :
    Memory.wf (turnPerform s).mem = true := by
  unfold turnPerform
  exact finishTurn_wf (setTurn_wf h)

theorem awaitAccesses_wf {mask : BitVec 4} {s : State} (h : Memory.wf s.mem = true) :
    Memory.wf (awaitAccesses mask s).mem = true := by
  unfold awaitAccesses
  split
  · exact deliver_wf h
  · exact h

theorem arrive_wf {k : BarrierKind} {s : State} (h : Memory.wf s.mem = true) :
    Memory.wf (arrive k s).mem = true := h

theorem arriveThen_wf {k : BarrierKind} {go : State → State} {s : State}
    (hgo : ∀ s, Memory.wf s.mem = true → Memory.wf (go s).mem = true) (h : Memory.wf s.mem = true) :
    Memory.wf (arriveThen k go s).mem = true := by
  unfold arriveThen
  dsimp only
  exact ite_wf (hgo _ (arrive_wf (commitRegion_wf h))) (awaitAccesses_wf (commitRegion_wf h))

theorem barGPerform_wf {s : State} (h : Memory.wf s.mem = true) :
    Memory.wf (barGPerform s).mem = true := by
  unfold barGPerform
  exact ite_wf (publishing_wf (fun _ h1 => comeBack_wf (arrive_wf (setTurn_wf h1))) h)
      (arriveThen_wf (fun _ h1 => rotate_wf h1) h)

theorem controlWriteIn_wf {va : Word} {d : List Byte} {s : State} (h : Memory.wf s.mem = true) :
    Memory.wf (controlWriteIn va d s).mem = true := by
  unfold controlWriteIn
  dsimp only
  exact writeControl_wf h

theorem controlWrite_wf {va : Word} {d : List Byte} {s : State} (h : Memory.wf s.mem = true) :
    Memory.wf (controlWrite va d s).mem = true := by
  unfold controlWrite
  exact ite_wf (controlWriteIn_wf h) (controlWriteIn_wf (controlWriteIn_wf h))

theorem relSend_wf {o : OpAcq} {t : Ty} {s : State} (h : Memory.wf s.mem = true) :
    Memory.wf (relSend o t s).mem = true := by
  unfold relSend
  dsimp only
  exact foldl_wf (fun _ _ h1 => ite_wf (controlWrite_wf h1) (ite_wf h1 (sendTurn_wf h1))) h

theorem refreshWindow_wf {n : Nat} {s : State} (h : Memory.wf s.mem = true) :
    Memory.wf (refreshWindow n s).mem = true := by
  unfold refreshWindow
  exact ite_wf h h

theorem relPerform_wf {o : OpAcq} {s : State} (h : Memory.wf s.mem = true) :
    Memory.wf (relPerform o s).mem = true := by
  unfold relPerform
  split
  · exact h
  · exact ite_wf (awaitAccesses_wf h) (publishingTurn_wf (fun _ h1 => finishTurn_wf (refreshWindow_wf (relSend_wf h1))) h)

theorem acqPerform_wf {o : OpAcq} {s : State} (h : Memory.wf s.mem = true) :
    Memory.wf (acqPerform o s).mem = true := by
  unfold acqPerform
  dsimp only
  split
  · exact h
  · exact finishTurn_wf (refreshWindow_wf (foldl_wf (fun _ _ h1 => ite_wf (deliverResult_wf (markEmpty_wf h1))
      (sendTurn_wf (markEmpty_wf h1))) (setTurn_wf h)))

theorem redPerform_wf {o : OpAtom} {s : State} (h : Memory.wf s.mem = true) :
    Memory.wf (redPerform o s).mem = true := by
  unfold redPerform
  dsimp only
  split
  · exact h
  · exact finishTurn_wf (foldl_wf (fun _ _ h1 => sendTurn_wf h1) (setTurn_wf h))

theorem atomSend_wf {word : BitVec 32} {w : BitVec 3} {a : BitVec 7} {d : Nat} {op : AtomOp} {s : State}
    (h : Memory.wf s.mem = true) :
    Memory.wf (atomSend word w a d op s).mem = true := by
  unfold atomSend
  dsimp only
  exact foldl_wf (fun _ _ h1 => sendTurn_wf (markEmpty_wf h1)) h

theorem atomPerform_wf {i : Instr} {w : BitVec 3} {a : BitVec 7} {d : Nat} {s : State} (h : Memory.wf s.mem = true) :
    Memory.wf (atomPerform i w a d s).mem = true := by
  unfold atomPerform
  dsimp only
  split
  · exact h
  · exact publishingTurn_wf (fun _ h1 => finishTurn_wf (refreshWindow_wf (atomSend_wf h1))) h

theorem performTurn_wf {i : Instr} {s : State} (h : Memory.wf s.mem = true) :
    Memory.wf (performTurn i s).mem = true := by
  unfold performTurn
  split
  · exact atomPerform_wf h
  · exact atomPerform_wf h
  · exact atomPerform_wf h
  · exact atomPerform_wf h
  · exact redPerform_wf h
  · exact acqPerform_wf h
  · exact relPerform_wf h
  · exact barGPerform_wf h
  · exact turnPerform_wf h
  · exact haltPerform_wf h
  · exact stXPerform_wf h
  · exact atomXPerform_wf h
  · exact redXPerform_wf h
  · exact tilePerform_wf h
  · exact tilePerform_wf h
  · exact tilePerform_wf h
  · exact relAdmitted_wf h

theorem ackCopy_wf {q : Req} {d : List Byte} {s : State} (h : Memory.wf s.mem = true) :
    Memory.wf (ackCopy q d s).mem = true := by
  unfold ackCopy
  dsimp only
  exact ite_wf h h

theorem joinSplits_wf {n la lb : Nat} {s : State} (h : Memory.wf s.mem = true) :
    Memory.wf (joinSplits n la lb s).mem = true := by
  unfold joinSplits
  dsimp only
  split
  · exact mapGang_wf h
  · exact h

theorem lendSlices_wf {s : State} (h : Memory.wf s.mem = true) :
    Memory.wf (lendSlices s).mem = true := by
  unfold lendSlices
  dsimp only
  exact ite_wf h (foldl_wf (fun _ _ h1 => wakeSlice_wf h1) (foldl_wf (fun _ _ h1 => h1) h))

theorem presentTurn_wf {i : Instr} {s : State} (h : Memory.wf s.mem = true) :
    Memory.wf (presentTurn i s).mem = true := by
  unfold presentTurn
  dsimp only
  exact lendSlices_wf h

theorem takeTurn_wf {i : Instr} {perform : State → State} {s : State}
    (hperform : ∀ s, Memory.wf s.mem = true → Memory.wf (perform s).mem = true) (h : Memory.wf s.mem = true) :
    Memory.wf (takeTurn i perform s).mem = true := by
  unfold takeTurn
  exact ite_wf (presentTurn_wf h) (hperform _ h)

theorem takePublishing_wf {i : Instr} {q : State → CuffEntry → Bool} {own : State → List Nat} {perform : State → State}
    {s : State} (hperform : ∀ s, Memory.wf s.mem = true → Memory.wf (perform s).mem = true) (h : Memory.wf s.mem = true) :
    Memory.wf (takePublishing i q own perform s).mem = true := by
  unfold takePublishing
  exact ite_wf (preciseTrap_wf h) (takeTurn_wf hperform h)

theorem farTrap_wf {r : RemoteReq} {id : Nat} {s : State} (h : Memory.wf s.mem = true) :
    Memory.wf (farTrap r id s).mem = true := by
  unfold farTrap
  dsimp only
  exact enterTrap_wf (foldl_wf (fun _ _ h1 => foldl_wf (fun _ _ h2 => deliverTo_wf h2) h1) h)

theorem farContinue_wf {word : BitVec 32} {o : OpXn} {ret : Bool} {id : Nat} {s : State} (h : Memory.wf s.mem = true) :
    Memory.wf (farContinue word o ret id s).mem = true := by
  unfold farContinue
  dsimp only
  refine ite_wf h ?_
  split
  · exact farTrap_wf h
  · exact farStep_wf h

theorem farIssue_wf {i : Instr} {word : BitVec 32} {o : OpXn} {ret : Bool} {perform : State → State} {s : State}
    (hperform : ∀ s, Memory.wf s.mem = true → Memory.wf (perform s).mem = true) (h : Memory.wf s.mem = true) :
    Memory.wf (farIssue i word o ret perform s).mem = true := by
  unfold farIssue
  dsimp only
  split
  · exact farContinue_wf h
  · split
    · exact issue_wf (fun _ h1 => finish_wf h1) h
    · exact issue_wf (fun _ h1 => takePublishing_wf hperform h1) h

theorem hcIssue_wf {word : BitVec 32} {o : OpS6} {resX resY : Word} {act : Nat → HcArgs → State → HcResult} {s : State}
    (hact : ∀ n a s, Memory.wf s.mem = true → Memory.wf (act n a s).after.mem = true) (h : Memory.wf s.mem = true) :
    Memory.wf (hcIssue word o resX resY act s).mem = true := by
  unfold hcIssue
  dsimp only
  refine issue_wf ?_ h
  intro s h1
  split
  · exact stall_wf (hact _ _ _ h1)
  · refine finishAlone_wf ?_
    split <;> exact hact _ _ _ h1

theorem performEntry_wf {e : LateEntry} {s : State} (h : Memory.wf s.mem = true) :
    Memory.wf (performEntry e s).mem = true := by
  unfold performEntry
  dsimp only
  split <;> exact ite_wf (withReady_wf (fun _ h1 => foldl_wf (fun _ _ h2 => writeAs_wf h2) h1) h)
      (foldl_wf (fun _ _ h1 => writeAs_wf h1) h)

theorem requeueUpdate_wf {e : LateEntry} {launch : Nat} {s : State} (h : Memory.wf s.mem = true) :
    Memory.wf (requeueUpdate e launch s).mem = true := by
  unfold requeueUpdate
  split <;> exact h

theorem replayWrite_wf {q : Req} {s : State} (h : Memory.wf s.mem = true) :
    Memory.wf (replayWrite q s).mem = true := by
  unfold replayWrite
  dsimp only
  exact ite_wf (performWrite_wf h) (recallOutside_wf (dropL1_wf (performWrite_wf h)))

theorem replayLine_wf {e : LateEntry} {q : Req} {s : State} (h : Memory.wf s.mem = true) :
    Memory.wf (replayLine e q s).mem = true := by
  unfold replayLine
  dsimp only
  exact ite_wf (setPhase_wf (discardGranule_wf _ _ _ _ (performEntry_wf h))) (performEntry_wf h)

theorem performHostEntry_wf {e : LateEntry} {s : State} (h : Memory.wf s.mem = true) :
    Memory.wf (performHostEntry e s).mem = true := by
  unfold performHostEntry
  dsimp only
  split
  · exact h
  · split
    · exact performHost_wf h
    · exact h
    · exact h

theorem replayPublication_wf {b : Nat} {s : State} (h : Memory.wf s.mem = true) :
    Memory.wf (replayPublication b s).mem = true := by
  unfold replayPublication
  dsimp only
  split <;> exact h

theorem replayEntry_wf {e : LateEntry} {s : State} (h : Memory.wf s.mem = true) :
    Memory.wf (replayEntry e s).mem = true := by
  unfold replayEntry
  dsimp only
  split
  · exact replayPublication_wf (freeLate_wf _ _ h)
  · refine ite_wf (performHostEntry_wf (freeLate_wf _ _ h)) ?_
    split
    · exact ite_wf (replayLine_wf (freeLate_wf _ _ h)) (replayWrite_wf (freeLate_wf _ _ h))
    · split
      · exact requeueUpdate_wf (freeLate_wf _ _ h)
      · exact performEntry_wf (freeLate_wf _ _ h)

theorem replayWait_wf {s : State} {e : LateEntry} {w : Wait} {t : State} (ht : replayWait s e = some (w, t))
    (h : Memory.wf s.mem = true) : Memory.wf t.mem = true := by
  unfold replayWait at ht
  dsimp only at ht
  split at ht
  · split at ht
    · cases ht
    · split at ht
      · cases ht
      · obtain ⟨-, rfl⟩ := Prod.mk.inj (Option.some.inj ht)
        exact cxlAsk_wf h
  · obtain ⟨-, hs⟩ := Option.ite_none_right_eq_some.mp ht
    obtain ⟨-, rfl⟩ := Prod.mk.inj (Option.some.inj hs)
    exact askHosts_wf h

theorem migrated_wf {hc off new : Nat} {l : Leaf} {s : State} (h : Memory.wf s.mem = true) :
    Memory.wf (migrated hc off new l s).mem = true := by
  unfold migrated
  dsimp only
  exact writePte_wf _ _ _ (foldl_wf (fun _ _ h1 => moveGranule_wf _ _ _ h1) h)

theorem reducePages_wf {part asid lo hi : Nat} {s : State} (h : Memory.wf s.mem = true) :
    Memory.wf (reducePages part asid lo hi s).mem = true := h

theorem plbInvalidate_wf {k : Nat} {v : Word} {s : State} (h : Memory.wf s.mem = true) :
    Memory.wf (plbInvalidate k v s).mem = true := by
  unfold plbInvalidate
  dsimp only
  exact foldl_wf (fun _ _ h1 => h1) h

theorem pmc_wf {word : BitVec 32} {clears : Bool} {o : OpSN} {s : State} (h : Memory.wf s.mem = true) :
    Memory.wf (pmc word clears o s).mem = true := by
  unfold pmc
  dsimp only
  exact issue_wf (fun _ h1 => finishAlone_wf (ite_wf h1 h1)) h

theorem writeSpecial_wf {n : Nat} {v : Word} {s : State} (h : Memory.wf s.mem = true) :
    Memory.wf (writeSpecial n v s).mem = true := by
  unfold writeSpecial
  dsimp only
  split <;> exact h

theorem specialWrite_wf {word : BitVec 32} {o : OpSN} {f : Word → Word → Word} {clears : Bool} {s : State}
    (h : Memory.wf s.mem = true) :
    Memory.wf (specialWrite word o f clears s).mem = true := by
  unfold specialWrite
  dsimp only
  refine issue_wf ?_ h
  intro _ h1
  refine finishAlone_wf ?_
  split
  · exact writeSpecial_wf h1
  · exact ite_wf h1 h1
  · exact h1

theorem specialRead_wf {f : Form} {w d n : Nat} {s : State} (h : Memory.wf s.mem = true) :
    Memory.wf (specialRead f w d n s).mem = true := by
  unfold specialRead
  dsimp only
  exact issue_wf (fun _ h1 => ite_wf (finishAlone_wf h1) (finish_wf h1)) h

theorem resumeGang_wf {s : State} (h : Memory.wf s.mem = true) :
    Memory.wf (resumeGang s).mem = true := h

theorem reissueRemote_again_wf {g : Nat} {r : RemoteReq} {m : BitVec 64} {s : State} (h : Memory.wf s.mem = true) :
    Memory.wf (reissueRemote.again g r m s).mem = true := by
  unfold reissueRemote.again
  dsimp only
  exact ite_wf h h

theorem reissueRemote_wf {s : State} (h : Memory.wf s.mem = true) :
    Memory.wf (reissueRemote s).mem = true := by
  unfold reissueRemote
  dsimp only
  split
  · exact h
  · exact ite_wf h (foldl_wf (fun _ _ h1 => reissueRemote_again_wf h1) h)

theorem reissueLoad_wf {s : State} (h : Memory.wf s.mem = true) :
    Memory.wf (reissueLoad s).mem = true := by
  unfold reissueLoad
  dsimp only
  split
  · exact h
  · exact foldl_wf (fun _ _ h1 => h1) h

theorem returnFromTrap_wf {s : State} (h : Memory.wf s.mem = true) :
    Memory.wf (returnFromTrap s).mem = true := by
  unfold returnFromTrap
  dsimp only
  split
  · exact contextLost_wf h
  · exact openRegion_wf (resumeGang_wf (foldl_wf (fun _ _ h1 => h1)
      (ite_wf (reissueRemote_wf (ite_wf (reissueLoad_wf h) h)) (ite_wf (reissueLoad_wf h) h))))

theorem releaseEarly_wf {s : State} (h : Memory.wf s.mem = true) :
    Memory.wf (releaseEarly s).mem = true := by
  unfold releaseEarly
  dsimp only
  exact ite_wf h (releaseSuccessors_wf h)

theorem taskSend_wf {add : Bool} {word : BitVec 32} {o : OpSN} {s : State} (h : Memory.wf s.mem = true) :
    Memory.wf (taskSend add word o s).mem = true := by
  unfold taskSend
  exact ite_wf (awaitAccesses_wf h) h

theorem taskIssue_wf {add : Bool} {word : BitVec 32} {o : OpSN} {s : State} (h : Memory.wf s.mem = true) :
    Memory.wf (taskIssue add word o s).mem = true := by
  unfold taskIssue
  dsimp only
  exact issue_wf (fun _ h1 => taskSend_wf h1) h

theorem taskAnswer_wf {add : Bool} {word : BitVec 32} {o : OpSN} {id : Nat} {s : State} (h : Memory.wf s.mem = true) :
    Memory.wf (taskAnswer add word o id s).mem = true := by
  unfold taskAnswer
  dsimp only
  split
  · exact h
  · split
    · exact ite_wf (preciseTrap_wf h) (finishAlone_wf h)
    · exact preciseTrap_wf h
    · exact h

theorem taskSignal_wf {add : Bool} {word : BitVec 32} {o : OpSN} {s : State} (h : Memory.wf s.mem = true) :
    Memory.wf (taskSignal add word o s).mem = true := by
  unfold taskSignal
  split
  · exact taskAnswer_wf h
  · exact taskIssue_wf h

theorem engineIssue_wf {i : Instr} {srcs : List Nat} {order : State → Order} {s : State} (h : Memory.wf s.mem = true) :
    Memory.wf (engineIssue i srcs order s).mem = true := by
  unfold engineIssue
  dsimp only
  exact issue_wf (fun _ h1 => ite_wf (takePublishing_wf (fun _ h2 => releasePerform_wf h2) h1)
      (finishAlone_wf (issueCmd_wf h1))) h

theorem engineOf_wf {i : Instr} {srcs : List Nat} {s : State} (h : Memory.wf s.mem = true) :
    Memory.wf (engineOf i srcs s).mem = true := by
  unfold engineOf
  exact engineIssue_wf h

theorem tileIssue_wf {o : TileOp} {hd : BitVec 7} {s : State} (h : Memory.wf s.mem = true) :
    Memory.wf (tileIssue o hd s).mem = true := by
  unfold tileIssue
  dsimp only
  exact issue_wf (fun _ h1 => takeTurn_wf (fun _ h2 => tilePerform_wf h2) h1) h

theorem waitCntEffect_wf {o : OpWait} {s : State} (h : Memory.wf s.mem = true) :
    Memory.wf (waitCntEffect o s).mem = true := by
  unfold waitCntEffect
  dsimp only
  exact ite_wf (ite_wf (finish_wf (ite_wf (commitRegion_wf h) h)) (finishAlone_wf (ite_wf (commitRegion_wf h) h)))
      (stall_wf (ite_wf (commitRegion_wf h) h))

theorem barrierIssue_wf {f : Form} {check : State → Verdict} {effect : State → State} {s : State}
    (heffect : ∀ s, Memory.wf s.mem = true → Memory.wf (effect s).mem = true) (h : Memory.wf s.mem = true) :
    Memory.wf (barrierIssue f check effect s).mem = true := by
  unfold barrierIssue
  split
  · exact deliver_wf h
  · exact issue_wf heffect h

theorem barrierEffect_wf {k : BarrierKind} {s : State} (h : Memory.wf s.mem = true) :
    Memory.wf (barrierEffect k s).mem = true := by
  unfold barrierEffect
  exact arriveThen_wf (fun _ h1 => h1) h

theorem fenceDone_wf {o : OpF} {s : State} (h : Memory.wf s.mem = true) :
    Memory.wf (fenceDone o s).mem = true := by
  unfold fenceDone
  dsimp only
  exact ite_wf (finish_wf (ite_wf h h)) (finishAlone_wf (ite_wf h h))

theorem fenceEffect_wf {o : OpF} {s : State} (h : Memory.wf s.mem = true) :
    Memory.wf (fenceEffect o s).mem = true := by
  unfold fenceEffect
  dsimp only
  exact ite_wf (awaitAccesses_wf (ite_wf (commitRegion_wf h) h)) (fenceDone_wf (ite_wf (commitRegion_wf h) h))

theorem bufferStores_wf {bs : List BufStore} {s : State} (h : Memory.wf s.mem = true) :
    Memory.wf (bufferStores bs s).mem = true := by
  unfold bufferStores
  dsimp only
  exact ite_wf (releaseAll_wf h) h

theorem atomIssue_wf {i : Instr} {ta : Bool} {d : BitVec 7} {w : BitVec 3} {a : BitVec 7} {s : State}
    (h : Memory.wf s.mem = true) :
    Memory.wf (atomIssue i ta d w a s).mem = true := by
  unfold atomIssue
  dsimp only
  split
  · exact issue_wf (fun _ h1 => finish_wf h1) h
  · exact issue_wf (fun _ h1 => takePublishing_wf (fun _ h2 => atomPerform_wf h2) h1) h

theorem capNode_wf {word : BitVec 32} {d node : Nat} {l : List Far} {s : State} (h : Memory.wf s.mem = true) :
    Memory.wf (capNode word d node l s).mem = true := by
  unfold capNode
  dsimp only
  exact ite_wf (foldl_wf (fun _ _ h1 => sendReq_wf (markEmpty_wf h1)) h) (sendReplay_wf (fun _ _ h1 => markDests_wf h1) h)

theorem issueLoad_wf {q : Req} {s : State} (h : Memory.wf s.mem = true) :
    Memory.wf (issueLoad q s).mem = true := by
  unfold issueLoad
  dsimp only
  refine sendReq_wf ?_
  refine markEmpty_wf ?_
  split <;> exact h

theorem loadNode_wf {word : BitVec 32} {cls : BitVec 2} {n : Nat} {sx : Bool} {dest : Nat → Dest} {node : Nat} {l : List Far}
    {s : State} (h : Memory.wf s.mem = true) :
    Memory.wf (loadNode word cls n sx dest node l s).mem = true := by
  unfold loadNode
  dsimp only
  exact ite_wf (foldl_wf (fun _ _ h1 => issueLoad_wf h1) h) (ite_wf (foldl_wf (fun _ _ h1 => sendReq_wf (markEmpty_wf h1)) h)
      (sendReplay_wf (fun _ _ h1 => markDests_wf h1) (foldl_wf (fun _ _ h1 => sendReq_wf (markEmpty_wf h1)) h)))

theorem bufferDiscards_wf {bs : List BufStore} {s : State} (h : Memory.wf s.mem = true) :
    Memory.wf (bufferDiscards bs s).mem = true := by
  unfold bufferDiscards
  dsimp only
  exact ite_wf (releaseAll_wf h) h

theorem prefetchFill_wf {l2 : Bool} {va : Word} {coh : BitVec 2} {data : List Byte} {s : State} (h : Memory.wf s.mem = true) :
    Memory.wf (prefetchFill l2 va coh data s).mem = true := by
  unfold prefetchFill
  dsimp only
  exact ite_wf h (l1Fill_wf h)

theorem prefetchHome_wf {l2 : Bool} {va : Word} {s : State} (h : Memory.wf s.mem = true) :
    Memory.wf (prefetchHome l2 va s).mem = true := by
  unfold prefetchHome
  dsimp only
  refine ite_wf h ?_
  split
  · exact ensureLine_wf _ _ _ _ (countMiss_wf h)
  · exact ite_wf (ensureLine_wf _ _ _ _ (countMiss_wf h)) (prefetchFill_wf (ensureLine_wf _ _ _ _ (countMiss_wf h)))

theorem prefetchHost_wf {l2 : Bool} {va : Word} {s : State} (h : Memory.wf s.mem = true) :
    Memory.wf (prefetchHost l2 va s).mem = true := by
  unfold prefetchHost
  dsimp only
  split
  · exact h
  · split
    · exact ite_wf h (prefetchFill_wf h)
    · exact cxlAsk_wf h

theorem prefetchLine_wf {l2 : Bool} {va : Word} {s : State} (h : Memory.wf s.mem = true) :
    Memory.wf (prefetchLine l2 va s).mem = true := by
  unfold prefetchLine
  exact ite_wf h (ite_wf (prefetchHost_wf h) (prefetchHome_wf h))

theorem storeAll_wf {bs : List BufStore} {s : State} (h : Memory.wf s.mem = true) :
    Memory.wf (storeAll bs s).mem = true := by
  unfold storeAll
  dsimp only
  refine bufferStores_wf ?_
  refine foldl_wf ?_ h
  intro _ _ h1
  split
  · exact controlWrite_wf h1
  · exact h1

theorem loadAll_wf {word : BitVec 32} {n : Nat} {sx nt : Bool} {dest : Nat → Dest} {l : List (Nat × Word)} {s : State}
    (h : Memory.wf s.mem = true) :
    Memory.wf (loadAll word n sx nt dest l s).mem = true := by
  unfold loadAll
  dsimp only
  exact foldl_wf (fun _ _ h1 => ite_wf (deliverResult_wf (markEmpty_wf h1)) (issueLoad_wf h1)) h

theorem laneIssue_wf {word : BitVec 32} {weight : Nat} {ok : Bool} {srcs : List Nat → List (Nat × Bool)}
    {extra dsts : List Nat → List Nat} {effect : List Nat → State → State} {s : State}
    (heffect : ∀ a s, Memory.wf s.mem = true → Memory.wf (effect a s).mem = true) (h : Memory.wf s.mem = true) :
    Memory.wf (laneIssue word weight ok srcs extra dsts effect s).mem = true := by
  unfold laneIssue
  dsimp only
  exact issue_wf (fun _ h1 => finish_wf (heffect _ _ h1)) h

theorem setVAll_wf {l : List (Nat × Nat × BitVec 32)} {s : State} (h : Memory.wf s.mem = true) : Memory.wf (setVAll l s).mem =
    true := by
  induction l generalizing s with
  | nil => exact h
  | cons e l ih => exact ih h

theorem vecIssue_wf {word : BitVec 32} {weight : Nat} {ok : Ty → Bool} {srcs : Ty → List Nat → List (Nat × Bool)}
    {extra : List Nat → List Nat} {dsts : Ty → List Nat → List Nat} {effect : Ty → List Nat → State → State} {s : State}
    (heffect : ∀ a a1 s, Memory.wf s.mem = true → Memory.wf (effect a a1 s).mem = true) (h : Memory.wf s.mem = true) :
    Memory.wf (vecIssue word weight ok srcs extra dsts effect s).mem = true := by
  unfold vecIssue
  dsimp only
  split
  · exact issue_wf (fun _ h1 => finish_wf h1) h
  · exact issue_wf (fun _ h1 => finish_wf (heffect _ _ _ h1)) h

theorem vecRank_wf {word : BitVec 32} {weight : Nat} {o : Op3R} {choose : Ty → List Ranked → Nat → Ranked} {s : State}
    (h : Memory.wf s.mem = true) :
    Memory.wf (vecRank word weight o choose s).mem = true := by
  unfold vecRank
  dsimp only
  exact vecIssue_wf (fun _ _ _ h1 => setVAll_wf h1) h

theorem raiseFlags_wf {f : BitVec 64} {s : State} (h : Memory.wf s.mem = true) :
    Memory.wf (raiseFlags f s).mem = true := h

theorem setPAll_wf {l : List (Nat × Nat × Bool)} {s : State} (h : Memory.wf s.mem = true) : Memory.wf (setPAll l s).mem = true
    := by
  induction l generalizing s with
  | nil => exact h
  | cons e l ih => exact ih h

theorem vecShuffle_wf {word : BitVec 32} {o : Op3R} {k : Shuffle} {s : State} (h : Memory.wf s.mem = true) :
    Memory.wf (vecShuffle word o k s).mem = true := by
  unfold vecShuffle
  dsimp only
  exact issue_wf (fun _ h1 => finish_wf (setVAll_wf h1)) h

theorem vecCvt_wf {word : BitVec 32} {o : Op3A} {c : Class} {s : State} (h : Memory.wf s.mem = true) :
    Memory.wf (vecCvt word o c s).mem = true := by
  unfold vecCvt
  dsimp only
  exact vecIssue_wf (fun _ _ _ h1 => raiseFlags_wf (setVAll_wf h1)) h

theorem putResults_wf {t : Ty} {d : Nat} {rs : List (Nat × Res)} {s : State} (h : Memory.wf s.mem = true) :
    Memory.wf (putResults t d rs s).mem = true := by
  unfold putResults
  exact raiseFlags_wf (setVAll_wf h)

theorem vec2_wf {word : BitVec 32} {weight : Nat} {o : Op3A} {accept : Ty → Bool} {f : State → Ty → Nat → Res} {s : State}
    (h : Memory.wf s.mem = true) :
    Memory.wf (vec2 word weight o accept f s).mem = true := by
  unfold vec2
  exact vecIssue_wf (fun _ _ _ h1 => putResults_wf h1) h

theorem putGroup_wf {d : Nat} {rs : List (Nat × Bool × Bool × Bool × Bool)} {s : State} (h : Memory.wf s.mem = true) :
    Memory.wf (putGroup d rs s).mem = true := by
  unfold putGroup
  exact setPAll_wf h

theorem vecCmp_wf {word : BitVec 32} {o : Op3R} {accept : Ty → Bool}
    {f : State → Ty → Nat → Nat → (Bool × Bool × Bool × Bool) × BitVec 64} {s : State} (h : Memory.wf s.mem = true) :
    Memory.wf (vecCmp word o accept f s).mem = true := by
  unfold vecCmp
  dsimp only
  exact vecIssue_wf (fun _ _ _ h1 => raiseFlags_wf (putGroup_wf h1)) h

theorem vec3_wf {word : BitVec 32} {weight : Nat} {o : Op3R} {accept : Ty → Bool} {old : Bool}
    {f : State → Ty → Nat → Nat → Nat → Res} {s : State} (h : Memory.wf s.mem = true) :
    Memory.wf (vec3 word weight o accept old f s).mem = true := by
  unfold vec3
  exact vecIssue_wf (fun _ _ _ h1 => putResults_wf h1) h

theorem vecBits_wf {word : BitVec 32} {o : Op3R} {old anyT : Bool} {f : Ty → Nat → Nat → Nat → Nat} {s : State}
    (h : Memory.wf s.mem = true) :
    Memory.wf (vecBits word o old anyT f s).mem = true := by
  unfold vecBits
  dsimp only
  exact laneIssue_wf (fun _ _ h1 => setVAll_wf h1) h

theorem modeField_wf {word : BitVec 32} {ok : Bool} {f : Word → Word} {s : State} (h : Memory.wf s.mem = true) :
    Memory.wf (modeField word ok f s).mem = true := by
  unfold modeField
  dsimp only
  exact issue_wf (fun _ h1 => finish_wf h1) h

theorem loopGet_wf {one : Bool} {word : BitVec 32} {o : OpS6} {s : State} (h : Memory.wf s.mem = true) :
    Memory.wf (loopGet one word o s).mem = true := by
  unfold loopGet
  dsimp only
  exact issue_wf (fun _ h1 => finish_wf h1) h

theorem loopSet_wf {one : Bool} {word : BitVec 32} {o : OpS6} {s : State} (h : Memory.wf s.mem = true) :
    Memory.wf (loopSet one word o s).mem = true := by
  unfold loopSet
  dsimp only
  exact issue_wf (fun _ h1 => finish_wf h1) h

theorem jump_wf {w : Nat} {target : Word} {s : State} (h : Memory.wf s.mem = true) :
    Memory.wf (jump w target s).mem = true := by
  unfold jump
  dsimp only
  exact ite_wf (finish_wf h) (ite_wf (rotate_wf (retired_wf (addClock_wf h))) (retired_wf (addClock_wf h)))

theorem loopStart_wf {one : Bool} {word : BitVec 32} {o : OpBC} {s : State} (h : Memory.wf s.mem = true) :
    Memory.wf (loopStart one word o s).mem = true := by
  unfold loopStart
  dsimp only
  exact issue_wf (fun _ h1 => ite_wf (jump_wf h1) (finish_wf h1)) h

theorem parkChildren_wf {j : Nat} {l : List Split} {s : State} (h : Memory.wf s.mem = true) :
    Memory.wf (parkChildren j l s).mem = true := by
  induction l with
  | nil => exact h
  | cons q l ih => exact ih

theorem placeChild_wf {q : Split} {back : List Nat} {s : State} (h : Memory.wf s.mem = true) :
    Memory.wf (placeChild q back s).mem = true := by
  unfold placeChild
  dsimp only
  exact ite_wf h (rotateOn_wf h)

theorem divide_wf {child : BitVec 64 → Word → Split} {choice : List (Nat × Word)} {s : State} (h : Memory.wf s.mem = true) :
    Memory.wf (divide child choice s).mem = true := by
  unfold divide
  dsimp only
  exact foldl_wf (fun _ _ h1 => parkChildren_wf h1) (foldl_wf (fun _ _ h1 => placeChild_wf h1) (commitRegion_wf h))

theorem goWhole_wf {branch : Bool} {t : Word} {s : State} (h : Memory.wf s.mem = true) :
    Memory.wf (goWhole branch t s).mem = true := by
  unfold goWhole
  dsimp only
  exact ite_wf (rotate_wf (retired_wf (addClock_wf h))) (retired_wf (addClock_wf h))

theorem goLanes_wf {branch : Bool} {act : List (Nat × Word)} {s : State} (h : Memory.wf s.mem = true) :
    Memory.wf (goLanes branch act s).mem = true := by
  unfold goLanes
  dsimp only
  split
  · exact finish_wf h
  · exact ite_wf (ite_wf (finish_wf h) (goWhole_wf h)) (divide_wf (retired_wf (addClock_wf h)))

theorem branchWhole_wf {f : Form} {off : BitVec 17} {taken : State → Bool} {s : State} (h : Memory.wf s.mem = true) :
    Memory.wf (branchWhole f off taken s).mem = true := by
  unfold branchWhole
  exact issue_wf (fun _ h1 => ite_wf (jump_wf h1) (finish_wf h1)) h

theorem refillReturn_wf {f : State → State} {s : State} (hf : ∀ s, Memory.wf s.mem = true → Memory.wf (f s).mem = true)
    (h : Memory.wf s.mem = true) :
    Memory.wf (refillReturn f s).mem = true := by
  unfold refillReturn
  exact ite_wf (contextLost_wf h) (hf _ h)

theorem pushReturn_wf {ra : Word} {s : State} (h : Memory.wf s.mem = true) :
    Memory.wf (pushReturn ra s).mem = true := by
  unfold pushReturn
  dsimp only
  exact ite_wf h (spillWrite_wf h)

theorem transfer_wf {target : Word} {s : State} (h : Memory.wf s.mem = true) :
    Memory.wf (transfer target s).mem = true := by
  unfold transfer
  dsimp only
  exact ite_wf (rotate_wf (retired_wf (addClock_wf h))) (retired_wf (addClock_wf h))

theorem scalarConst_wf {word : BitVec 32} {d : BitVec 7} {rd : Bool} {f : Word → Word} {s : State}
    (h : Memory.wf s.mem = true) :
    Memory.wf (scalarConst word d rd f s).mem = true := by
  unfold scalarConst
  dsimp only
  exact issue_wf (fun _ h1 => finish_wf h1) h

theorem scalar2_wf {word : BitVec 32} {o : Op3A} {f : Word → Word} {s : State} (h : Memory.wf s.mem = true) :
    Memory.wf (scalar2 word o f s).mem = true := by
  unfold scalar2
  dsimp only
  exact issue_wf (fun _ h1 => finish_wf h1) h

theorem scalarImm_wf {word : BitVec 32} {ta : Bool} {d a : BitVec 7} {f : Word → Word} {s : State}
    (h : Memory.wf s.mem = true) :
    Memory.wf (scalarImm word ta d a f s).mem = true := by
  unfold scalarImm
  exact scalar2_wf h

theorem scalar3_wf {word : BitVec 32} {o : Op3R} {f : Word → Word → Word} {s : State} (h : Memory.wf s.mem = true) :
    Memory.wf (scalar3 word o f s).mem = true := by
  unfold scalar3
  dsimp only
  exact issue_wf (fun _ h1 => finish_wf h1) h

theorem select_wf {n l : Nat} {s : State} (h : Memory.wf s.mem = true) :
    Memory.wf (select n l s).mem = true := by
  unfold select
  exact ite_wf h (load_wf h)

theorem hcEntry_wf {part : Nat} {a : HcArgs} {s : State} (h : Memory.wf s.mem = true) : Memory.wf (hcEntry part a s).after.mem
    = true := by
  unfold hcEntry
  dsimp only
  split
  · exact h
  · split
    · exact h
    · split
      · exact h
      · split
        · exact h
        · split
          · exact h
          · split
            · exact writePte_wf _ _ _ h
            · split
              · exact h
              · exact reducePages_wf (dropPage_wf (writePte_wf _ _ _ h))

theorem hcRead_wf {part : Nat} {a : HcArgs} {s : State} (h : Memory.wf s.mem = true) : Memory.wf (hcRead part a s).after.mem =
    true := by
  unfold hcRead
  split
  · split <;> exact h
  · exact h
  · exact h
  · exact h

theorem hcRoot_wf {part : Nat} {a : HcArgs} {s : State} (h : Memory.wf s.mem = true) : Memory.wf (hcRoot part a s).after.mem =
    true := by
  unfold hcRoot
  dsimp only
  split <;> exact h

theorem hcFrame_wf {part : Nat} {a : HcArgs} {s : State} (h : Memory.wf s.mem = true) : Memory.wf (hcFrame part a s).after.mem
    = true := by
  unfold hcFrame
  dsimp only
  split <;> exact h

theorem hcMigrate_wf {copied : Bool} {part : Nat} {a : HcArgs} {s : State} (h : Memory.wf s.mem = true) :
    Memory.wf (hcMigrate copied part a s).after.mem = true := by
  unfold hcMigrate
  dsimp only
  split
  · exact h
  · split
    · exact h
    · split
      · exact migrated_wf h
      · split
        · exact h
        · split
          · exact h
          · split
            · exact h
            · split
              · exact h
              · exact writePte_wf _ _ _ h

theorem hcReplay_wf {part : Nat} {a : HcArgs} {s : State} (h : Memory.wf s.mem = true) : Memory.wf
    (hcReplay part a s).after.mem = true := by
  unfold hcReplay
  dsimp only
  split
  · exact h
  · split
    · exact h
    · split
      next hw =>
        obtain ⟨e, -, he⟩ := List.exists_of_findSome?_eq_some hw
        exact replayWait_wf he h
      next => exact foldl_wf (fun _ _ h1 => replayEntry_wf h1) h

theorem hcDrop_wf {part : Nat} {a : HcArgs} {s : State} (h : Memory.wf s.mem = true) : Memory.wf (hcDrop part a s).after.mem =
    true := by
  unfold hcDrop
  split
  · exact h
  · exact dropGranuleEntries_wf _ _ _ _ h

theorem hcUnhold_wf {part : Nat} {a : HcArgs} {s : State} (h : Memory.wf s.mem = true) : Memory.wf
    (hcUnhold part a s).after.mem = true := by
  unfold hcUnhold
  split
  · exact h
  next l hl =>
    dsimp only
    split
    · exact h
    · refine writePte_wf _ _ _ ?_
      have hz : ∀ (bad : List Nat) (m : SMap Byte), Memory.wf m = true →
          Memory.wf (bad.foldl (fun m b => memZero m (b * 128) (b * 128 + 128)) m) = true := by
        intro bad
        induction bad with
        | nil => exact fun _ hm => hm
        | cons b bad ih => exact fun m hm => ih _ (memZero_wf _ _ _ hm)
      exact hz _ _ h

/-- Every state that the outcome leads to keeps the form. -/
def Leads (r : Host.Outcome State Fault Refusal) : Prop := ∀ t, r = .next t → Memory.wf t.mem = true

theorem Leads.next {s : State} (h : Memory.wf s.mem = true) : Leads (.next s) := by
  intro t ht
  cases ht
  exact h

theorem Leads.refused {r : Refusal} : Leads (.refused r) := by
  intro t ht
  cases ht

theorem leads_ite {c : Prop} [Decidable c] {r q : Host.Outcome State Fault Refusal} (hr : Leads r) (hq : Leads q) :
    Leads (if c then r else q) := by
  split
  · exact hr
  · exact hq

theorem ite_snd_wf {α : Type} {c : Prop} [Decidable c] {x y : α × State} (hx : Memory.wf x.2.mem = true)
    (hy : Memory.wf y.2.mem = true) :
    Memory.wf (if c then x else y).2.mem = true := by
  split
  · exact hx
  · exact hy

/-- `issue_wf` with the effect spoken of through the state it gives, which keeps it from being computed. -/
theorem issueTo_wf {f : Form} {check : State → Verdict} {effect : State → State} {s : State}
    (heffect : ∀ s t, Memory.wf s.mem = true → effect s = t → Memory.wf t.mem = true) (h : Memory.wf s.mem = true) :
    Memory.wf (issue f check effect s).mem = true :=
  issue_wf (fun s h1 => heffect s _ h1 rfl) h

theorem execHalt_wf {s : State} (h : Memory.wf s.mem = true) : Leads (execHalt s) := by
  unfold execHalt
  refine .next ?_
  refine ite_wf (issue_wf (fun _ h1 => finish_wf h1) h) ?_
  split
  · exact deliver_wf h
  · exact issue_wf (fun _ h1 => ite_wf (takePublishing_wf (fun _ h2 => haltPerform_wf h2) h1)
      (haltLanes_wf (fun _ h2 => h2) h1)) h

theorem execVpack_wf {o : Op3K} {s : State} (h : Memory.wf s.mem = true) : Leads (execVpack o s) := by
  unfold execVpack
  refine .next ?_
  split
  · exact vecIssue_wf (fun _ _ _ h1 => h1) h
  · exact vecIssue_wf (fun _ _ _ h1 => raiseFlags_wf (setVAll_wf h1)) h

theorem execVunpk_wf {o : Op3K} {s : State} (h : Memory.wf s.mem = true) : Leads (execVunpk o s) := by
  unfold execVunpk
  refine .next ?_
  split
  · exact vecIssue_wf (fun _ _ _ h1 => h1) h
  · exact vecIssue_wf (fun _ _ _ h1 => raiseFlags_wf (setVAll_wf h1)) h

theorem execLdG_wf {o : OpM} {s : State} (h : Memory.wf s.mem = true) : Leads (execLdG o s) := by
  unfold execLdG
  refine .next ?_
  split
  · exact issue_wf (fun _ h1 => finish_wf h1) h
  · exact issue_wf (fun _ h1 => finish_wf (refreshWindow_wf (loadAll_wf h1))) h

theorem execStG_wf {o : OpMst} {s : State} (h : Memory.wf s.mem = true) : Leads (execStG o s) := by
  unfold execStG
  refine .next ?_
  split
  · exact issue_wf (fun _ h1 => finish_wf h1) h
  · exact issue_wf (fun _ h1 => finish_wf (refreshWindow_wf (storeAll_wf h1))) h

theorem execLdS_wf {o : OpMs} {s : State} (h : Memory.wf s.mem = true) : Leads (execLdS o s) := by
  unfold execLdS
  refine .next ?_
  split
  · exact issue_wf (fun _ h1 => finish_wf h1) h
  · exact issue_wf (fun _ h1 => finish_wf (foldl_wf (fun _ _ h2 => sendReq_wf (markEmpty_wf h2)) h1)) h

theorem execStS_wf {o : OpMsst} {s : State} (h : Memory.wf s.mem = true) : Leads (execStS o s) := by
  unfold execStS
  refine .next ?_
  split
  · exact issue_wf (fun _ h1 => finish_wf h1) h
  · exact issue_wf (fun _ h1 => finish_wf (bufferStores_wf h1)) h

theorem execLdX_wf {o : OpX} {s : State} (h : Memory.wf s.mem = true) : Leads (execLdX o s) := by
  unfold execLdX
  refine .next ?_
  split
  · exact issue_wf (fun _ h1 => finish_wf h1) h
  · exact issue_wf (fun _ h1 => finish_wf (foldl_wf (fun _ _ h2 => loadNode_wf h2) h1)) h

theorem execStX_wf {o : OpX} {s : State} (h : Memory.wf s.mem = true) : Leads (execStX o s) := by
  unfold execStX
  refine .next ?_
  split
  · exact issue_wf (fun _ h1 => finish_wf h1) h
  · exact issue_wf (fun _ h1 => ite_wf (takePublishing_wf (fun _ h2 => stXPerform_wf h2) h1)
      (finishTurn_wf (bufferStores_wf h1))) h

theorem execRed_wf {o : OpAtom} {s : State} (h : Memory.wf s.mem = true) : Leads (execRed o s) := by
  unfold execRed
  refine .next ?_
  split
  · exact issue_wf (fun _ h1 => finish_wf h1) h
  · exact issue_wf (fun _ h1 => ite_wf (takeTurn_wf (fun _ h2 => redPerform_wf h2) h1)
      (finish_wf (refreshWindow_wf (bufferStores_wf h1)))) h

theorem execAcq_wf {o : OpAcq} {s : State} (h : Memory.wf s.mem = true) : Leads (execAcq o s) := by
  unfold execAcq
  refine .next ?_
  split
  · exact issue_wf (fun _ h1 => finish_wf h1) h
  · exact issue_wf (fun _ h1 => takeTurn_wf (fun _ h2 => acqPerform_wf h2) h1) h

theorem execRel_wf {o : OpAcq} {s : State} (h : Memory.wf s.mem = true) : Leads (execRel o s) := by
  unfold execRel
  refine .next ?_
  split
  · exact issue_wf (fun _ h1 => finish_wf h1) h
  · exact issue_wf (fun _ h1 => takePublishing_wf (fun _ h2 => relPerform_wf h2) h1) h

theorem execWaitCnt_wf {o : OpWait} {s : State} (h : Memory.wf s.mem = true) : Leads (execWaitCnt o s) := by
  unfold execWaitCnt
  refine .next ?_
  split
  · exact deliver_wf h
  · exact issue_wf (fun _ h1 => waitCntEffect_wf h1) h

theorem execEwait_wf {o : OpEw} {s : State} (h : Memory.wf s.mem = true) : Leads (execEwait o s) := by
  unfold execEwait
  refine .next ?_
  split
  · exact deliver_wf h
  · exact issue_wf (fun _ h1 => ewaitDone_wf h1) h

theorem execEpoll_wf {o : OpE} {s : State} (h : Memory.wf s.mem = true) : Leads (execEpoll o s) := by
  unfold execEpoll
  refine .next ?_
  split
  · exact deliver_wf h
  · exact issue_wf (fun _ h1 => finish_wf h1) h

theorem execReservedEncoding_wf {w : BitVec 32} {s : State} (h : Memory.wf s.mem = true) : Leads (execReservedEncoding w s) :=
    by
  unfold execReservedEncoding
  refine .next ?_
  split
  · exact deliver_wf h
  · exact issue_wf (fun _ h1 => h1) h

theorem execRegang_wf {s : State} (h : Memory.wf s.mem = true) : Leads (execRegang s) := by
  unfold execRegang
  refine .next ?_
  split
  · split
    · exact ite_wf (load_wf (joinSplits_wf (unload_wf (withPath_wf (fun _ h1 => commitRegion_wf h1)
        (withPath_wf (fun _ h1 => commitRegion_wf h1) h))))) h
    · exact h
  · exact h

theorem execLoadResultArrive_wf {s : State} (h : Memory.wf s.mem = true) : Leads (execLoadResultArrive s) := by
  unfold execLoadResultArrive
  refine .next ?_
  refine onReq_wf ?_ h
  intro _ _ h1
  split
  · exact ite_wf h1 (dropReq_wf (deliverResult_wf h1))
  · exact h1

theorem execLoadFaultResponse_wf {s : State} (h : Memory.wf s.mem = true) : Leads (execLoadFaultResponse s) := by
  unfold execLoadFaultResponse
  refine .next ?_
  refine onReq_wf ?_ h
  intro _ _ h1
  split
  · exact deliverResult_wf h1
  · exact h1

theorem execStoreAck_wf {s : State} (h : Memory.wf s.mem = true) : Leads (execStoreAck s) := by
  unfold execStoreAck
  refine .next ?_
  refine onReq_wf ?_ h
  intro _ _ h1
  split
  · exact dropReq_wf (ackCopy_wf h1)
  · exact h1
  · exact h1
  · exact ite_wf h1 h1
  · exact h1

theorem execTurnAdmit_wf {s : State} (h : Memory.wf s.mem = true) : Leads (execTurnAdmit s) := by
  unfold execTurnAdmit
  refine .next ?_
  refine onNum2_wf ?_ h
  intro _ _ _ h1
  dsimp only
  split
  · exact h1
  · refine ite_wf ?_ h1
    refine withSplit_wf ?_ h1
    intro _ h2
    split
    · exact performTurn_wf (commitRegion_wf h2)
    · exact h2

theorem execDetLoadPerform_wf {s : State} (h : Memory.wf s.mem = true) : Leads (execDetLoadPerform s) := by
  unfold execDetLoadPerform
  refine .next ?_
  refine onNum_wf ?_ h
  intro _ _ h1
  split
  · exact ite_wf (loadAtHome_wf h1) h1
  · exact sendViewed_wf h1
  · exact h1

theorem execFloorGatedAction_wf {s : State} (h : Memory.wf s.mem = true) : Leads (execFloorGatedAction s) := by
  unfold execFloorGatedAction
  refine .next ?_
  refine onNum2_wf ?_ h
  intro _ _ _ h1
  split
  · exact h1
  · split
    · exact ite_wf (withPath_wf (fun _ h2 => h2) h1) h1
    · exact h1

theorem execCrownFloorUpdate_wf {s : State} (h : Memory.wf s.mem = true) : Leads (execCrownFloorUpdate s) := by
  unfold execCrownFloorUpdate
  refine .next ?_
  refine onNum_wf ?_ h
  intro _ _ h1
  dsimp only
  split
  · exact h1
  · exact ite_wf (mergeBrim_wf h1) (ite_wf (mergeBrim_wf (applyUpdates_wf h1)) (mergeBrim_wf (applyUpdates_wf h1)))

theorem execPublicationArrive_wf {s : State} (h : Memory.wf s.mem = true) : Leads (execPublicationArrive s) := by
  unfold execPublicationArrive
  refine .next ?_
  refine onNum_wf ?_ h
  intro _ _ h1
  dsimp only
  split
  · exact h1
  · exact ite_wf (ite_wf h1 (keyedStall_wf h1)) (ite_wf (publicationHeld_wf h1) (publishBytes_wf h1))

theorem execMittenUpdateArrive_wf {s : State} (h : Memory.wf s.mem = true) : Leads (execMittenUpdateArrive s) := by
  unfold execMittenUpdateArrive
  refine .next ?_
  refine onNum_wf ?_ h
  intro _ _ h1
  dsimp only
  split
  · exact h1
  · refine ite_wf (ite_wf h1 (ite_wf h1 (keyedStall_wf h1))) ?_
    refine ite_wf (applyUpdates_wf h1) ?_
    refine ite_wf h1 ?_
    split
    · exact h1
    · exact ite_wf h1 h1

theorem execRedRefusalReturn_wf {s : State} (h : Memory.wf s.mem = true) : Leads (execRedRefusalReturn s) := by
  unfold execRedRefusalReturn
  refine .next ?_
  refine onNum_wf ?_ h
  intro _ _ h1
  split
  · exact h1
  · exact ite_wf h1 h1

theorem execFloorSideband_wf {s : State} (h : Memory.wf s.mem = true) : Leads (execFloorSideband s) := by
  unfold execFloorSideband
  refine .next ?_
  split <;> exact h

theorem execBarrierComplete_wf {s : State} (h : Memory.wf s.mem = true) : Leads (execBarrierComplete s) := by
  unfold execBarrierComplete
  refine .next ?_
  split
  · exact ite_wf (completeBarrier_wf h) h
  · exact ite_wf (completeBarrier_wf h) h
  · exact h

theorem execEngineDispatch_wf {s : State} (h : Memory.wf s.mem = true) : Leads (execEngineDispatch s) := by
  unfold execEngineDispatch
  refine .next ?_
  refine onNum_wf ?_ h
  intro _ _ h1
  dsimp only
  split
  · exact h1
  · exact ite_wf h1 (ite_wf (takeTiles_wf h1) h1)

theorem execMatrixPassGrant_wf {s : State} (h : Memory.wf s.mem = true) : Leads (execMatrixPassGrant s) := by
  unfold execMatrixPassGrant
  refine .next ?_
  refine onNum_wf ?_ h
  intro _ _ h1
  split
  · exact h1
  · exact passStep_wf (switchTiles_wf h1)

theorem execEngineFinish_wf {s : State} (h : Memory.wf s.mem = true) : Leads (execEngineFinish s) := by
  unfold execEngineFinish
  refine .next ?_
  split
  · exact execEngineFinish_go_wf h
  · exact execEngineFinish_go_wf h
  · exact h

theorem execEwaitComplete_wf {s : State} (h : Memory.wf s.mem = true) : Leads (execEwaitComplete s) := by
  unfold execEwaitComplete
  refine .next ?_
  refine onNum2_wf ?_ h
  intro _ _ _ h1
  refine withSplit_wf ?_ h1
  intro _ h2
  split
  · exact ite_wf (ewaitDone_wf h2) h2
  · exact h2

theorem execEngineAccessFault_wf {s : State} (h : Memory.wf s.mem = true) : Leads (execEngineAccessFault s) := by
  unfold execEngineAccessFault
  refine .next ?_
  refine onNum_wf ?_ h
  intro _ _ h1
  split
  · exact h1
  · refine ite_wf h1 ?_
    split
    · exact suspendCmd_wf h1
    · exact h1

theorem execMatrixOperandFault_wf {s : State} (h : Memory.wf s.mem = true) : Leads (execMatrixOperandFault s) := by
  unfold execMatrixOperandFault
  refine .next ?_
  refine onNum_wf ?_ h
  intro _ _ h1
  split
  · exact h1
  · refine ite_wf h1 ?_
    split
    · exact suspendCmd_wf (restoreShadow_wf h1)
    · exact h1

theorem execCollectiveTimeout_wf {s : State} (h : Memory.wf s.mem = true) : Leads (execCollectiveTimeout s) := by
  unfold execCollectiveTimeout
  refine .next ?_
  refine onNum2_wf ?_ h
  intro _ _ _ h1
  split
  · exact h1
  · exact ite_wf (stopColl_wf (failSilent_wf h1)) (ite_wf (stopColl_wf h1) h1)

theorem execDeferredFaultRecord_wf {s : State} (h : Memory.wf s.mem = true) : Leads (execDeferredFaultRecord s) := by
  unfold execDeferredFaultRecord
  refine .next ?_
  refine onNum_wf ?_ h
  intro _ _ h1
  split
  · exact h1
  · exact recordUpTo_wf _ _ h1

theorem execTurnStallWatchdog_wf {s : State} (h : Memory.wf s.mem = true) : Leads (execTurnStallWatchdog s) := by
  unfold execTurnStallWatchdog
  refine .next ?_
  refine onNum2_wf ?_ h
  intro _ _ _ h1
  dsimp only
  split
  · exact h1
  · split
    · exact ite_wf h1 (faultQueue_wf _ _ _ h1)
    · exact h1

theorem execDomainDescriptorMatch_wf {s : State} (h : Memory.wf s.mem = true) : Leads (execDomainDescriptorMatch s) := by
  unfold execDomainDescriptorMatch
  refine .next ?_
  split
  · exact ite_wf h (ite_wf (refuseLaunch_wf h) (ite_wf (displaceLower_wf h) h))
  · exact h

theorem execOpPointStable_wf {s : State} (h : Memory.wf s.mem = true) : Leads (execOpPointStable s) := by
  unfold execOpPointStable
  refine .next ?_
  refine onNum_wf ?_ h
  intro _ _ h1
  split <;> exact h1

theorem execTurnDrivenSwapIn_wf {s : State} (h : Memory.wf s.mem = true) : Leads (execTurnDrivenSwapIn s) := by
  unfold execTurnDrivenSwapIn
  refine .next ?_
  split
  · exact swapUnits_wf h
  · exact swapUnits_wf h
  · exact h

theorem execInvalidationAck_wf {s : State} (h : Memory.wf s.mem = true) : Leads (execInvalidationAck s) := by
  unfold execInvalidationAck
  refine .next ?_
  split
  · exact holderAnswers_wf h
  · exact h

theorem execInvalidationArrive_wf {s : State} (h : Memory.wf s.mem = true) : Leads (execInvalidationArrive s) := by
  unfold execInvalidationArrive
  refine .next ?_
  split <;> exact h

theorem execInvalidationTimeout_wf {s : State} (h : Memory.wf s.mem = true) : Leads (execInvalidationTimeout s) := by
  unfold execInvalidationTimeout
  refine .next ?_
  split
  · split
    · exact h
    · exact ite_wf h (holderAnswers_wf (deviceRecord_wf (ite_wf h h)))
  · exact h

theorem execFabricRequestArrive_wf {s : State} (h : Memory.wf s.mem = true) : Leads (execFabricRequestArrive s) := by
  unfold execFabricRequestArrive
  refine .next ?_
  split
  · refine ite_wf h ?_
    split
    · exact countAnswer_wf h
    · refine ite_wf (countAnswer_wf h) ?_
      split
      · exact h
      · exact h
      · exact ite_wf (countAnswer_wf h) (ite_wf (countAnswer_wf h)
          (ite_wf (ite_wf h (fabricGateway_wf h)) (ite_wf (refuseFabric_wf h) (ite_wf (fabricHome_wf h) (park_wf h)))))
  · exact h

theorem execReservationExpire_wf {s : State} (h : Memory.wf s.mem = true) : Leads (execReservationExpire s) := by
  unfold execReservationExpire
  refine .next ?_
  split
  · exact grantReservations_wf h
  · exact h

theorem execIntermediateForward_wf {s : State} (h : Memory.wf s.mem = true) : Leads (execIntermediateForward s) := by
  unfold execIntermediateForward
  refine .next ?_
  split <;> exact h

theorem execRemoteResponse_wf {s : State} (h : Memory.wf s.mem = true) : Leads (execRemoteResponse s) := by
  unfold execRemoteResponse
  refine .next ?_
  split
  · split
    · exact h
    · exact ite_wf h (releaseHeld_wf (ite_wf h (closeReplay_wf h)))
  · exact h

theorem execRemoteFaultResponse_wf {s : State} (h : Memory.wf s.mem = true) : Leads (execRemoteFaultResponse s) := by
  unfold execRemoteFaultResponse
  refine .next ?_
  split
  · split
    · exact h
    · exact ite_wf h (releaseHeld_wf (failRemote_wf h))
  · exact h

theorem execFloorSilenceTimeout_wf {s : State} (h : Memory.wf s.mem = true) : Leads (execFloorSilenceTimeout s) := by
  unfold execFloorSilenceTimeout
  refine .next ?_
  refine onNum2_wf ?_ h
  intro _ _ _ h1
  split
  · exact h1
  · exact endLaunch_wf h1

theorem execBoundaryFilterProbe_wf {s : State} (h : Memory.wf s.mem = true) : Leads (execBoundaryFilterProbe s) := by
  unfold execBoundaryFilterProbe
  refine .next ?_
  split
  · exact ite_wf h h
  · exact h

theorem execHostMemrd_wf {s : State} (h : Memory.wf s.mem = true) : Leads (execHostMemrd s) := by
  unfold execHostMemrd
  refine .next ?_
  split
  · exact hostMemrd_wf h
  · exact h

theorem execHostMemwr_wf {s : State} (h : Memory.wf s.mem = true) : Leads (execHostMemwr s) := by
  unfold execHostMemwr
  refine .next ?_
  split
  · exact hostMemwr_wf h
  · exact h

theorem execBisnpResponse_wf {s : State} (h : Memory.wf s.mem = true) : Leads (execBisnpResponse s) := by
  unfold execBisnpResponse
  refine .next ?_
  split
  · split
    · exact h
    · refine ite_wf h ?_
      refine leavePending_wf ?_
      refine mapLine_wf ?_
      refine setOutDir_wf ?_
      split
      · exact memWrite_wf _ _ _ h
      · exact h
  · exact h

theorem execCxlCacheGrant_wf {s : State} (h : Memory.wf s.mem = true) : Leads (execCxlCacheGrant s) := by
  unfold execCxlCacheGrant
  refine .next ?_
  split
  · exact cacheGrant_wf h
  · exact h

theorem execHostAtomic_wf {s : State} (h : Memory.wf s.mem = true) : Leads (execHostAtomic s) := by
  unfold execHostAtomic
  refine .next ?_
  split
  · exact hostAtomicStep_wf h
  · exact h

theorem execHostLinkRetrain_wf {s : State} (h : Memory.wf s.mem = true) : Leads (execHostLinkRetrain s) := by
  unfold execHostLinkRetrain
  refine .next ?_
  split
  · exact ite_wf h (retryIntake_wf h)
  · exact h

theorem execCreate_wf {s : State} (h : Memory.wf s.mem = true) : Leads (execCreate s) := by
  unfold execCreate
  refine .next ?_
  split
  · exact runCommand_wf (fun _ _ h1 => createPart_wf h1) h
  · exact h

theorem execStage_wf {s : State} (h : Memory.wf s.mem = true) : Leads (execStage s) := by
  unfold execStage
  refine .next ?_
  split
  · exact askImage_wf h
  · exact ite_wf (command_wf (fun _ _ h1 => stageImage_wf h1) h) h
  · exact h

theorem execRegisterWrite_wf {s : State} (h : Memory.wf s.mem = true) : Leads (execRegisterWrite s) := by
  unfold execRegisterWrite
  refine .next ?_
  split
  · exact hostLoad_wf h
  · exact setDecoder_wf h
  · exact readDecoder_wf h
  · exact hostStore_wf h

theorem execDeviceStart_wf {s : State} (h : Memory.wf s.mem = true) : Leads (execDeviceStart s) := by
  unfold execDeviceStart
  refine .next ?_
  split
  · exact deviceStart_wf h
  · exact h

theorem execStartStepTimeout_wf {s : State} (h : Memory.wf s.mem = true) : Leads (execStartStepTimeout s) := by
  unfold execStartStepTimeout
  refine .next ?_
  split
  · exact ite_wf h h
  · exact h

theorem execEccUncorrectable_wf {s : State} (h : Memory.wf s.mem = true) : Leads (execEccUncorrectable s) := by
  unfold execEccUncorrectable
  refine .next ?_
  split
  · exact eccError_wf h
  · exact h

theorem execPlbFetchResponse_wf {s : State} (h : Memory.wf s.mem = true) : Leads (execPlbFetchResponse s) := by
  unfold execPlbFetchResponse
  refine .next ?_
  split <;> exact h

theorem execEngineReadsDone_wf {s : State} (h : Memory.wf s.mem = true) : Leads (execEngineReadsDone s) := by
  unfold execEngineReadsDone
  refine .next ?_
  refine onNum_wf ?_ h
  intro _ _ h1
  split
  · exact h1
  · exact ite_wf (releaseInputs_wf h1) h1

theorem execConfigurationRequest_wf {s : State} (h : Memory.wf s.mem = true) : Leads (execConfigurationRequest s) := by
  unfold execConfigurationRequest
  refine .next ?_
  split
  · exact ite_wf (beginStart_wf (ite_wf h h)) (ite_wf h h)
  · exact h

theorem execSel_wf {o : Op3R} {s : State} (h : Memory.wf s.mem = true) :
    Leads (execSel o s) :=
  .next (issue_wf (fun _ h1 => finish_wf h1) h)

theorem execCall_wf {o : OpB} {s : State} (h : Memory.wf s.mem = true) :
    Leads (execCall o s) :=
  .next (issue_wf (fun _ h1 => transfer_wf (pushReturn_wf h1)) h)

theorem execRet_wf {s : State} (h : Memory.wf s.mem = true) :
    Leads (execRet s) :=
  .next (issue_wf (fun _ h1 => refillReturn_wf (fun _ h2 => retired_wf (addClock_wf h2)) h1) h)

theorem execRetVa_wf {o : OpV} {s : State} (h : Memory.wf s.mem = true) :
    Leads (execRetVa o s) :=
  .next (issue_wf (fun _ h1 => ite_wf (finish_wf h1) (refillReturn_wf (fun _ h2 => goLanes_wf h2) h1)) h)

theorem execVbr_wf {o : OpBC} {s : State} (h : Memory.wf s.mem = true) :
    Leads (execVbr o s) :=
  .next (issue_wf (fun _ h1 => goLanes_wf h1) h)

theorem execRegion_wf {s : State} (h : Memory.wf s.mem = true) :
    Leads (execRegion s) :=
  .next (issue_wf (fun _ h1 => ite_wf (finish_wf h1) (openRegion_wf (finish_wf h1))) h)

theorem execYield_wf {s : State} (h : Memory.wf s.mem = true) :
    Leads (execYield s) :=
  .next (issue_wf (fun _ h1 => finishAlone_wf h1) h)

theorem execNop_wf {s : State} (h : Memory.wf s.mem = true) :
    Leads (execNop s) :=
  .next (issue_wf (fun _ h1 => finish_wf h1) h)

theorem execModeLd_wf {o : OpS6} {s : State} (h : Memory.wf s.mem = true) :
    Leads (execModeLd o s) :=
  .next (issue_wf (fun _ h1 => finish_wf h1) h)

theorem execModeSt_wf {o : OpS6} {s : State} (h : Memory.wf s.mem = true) :
    Leads (execModeSt o s) :=
  .next (issue_wf (fun _ h1 => finish_wf h1) h)

theorem execVfclass_wf {o : Op3A} {s : State} (h : Memory.wf s.mem = true) :
    Leads (execVfclass o s) :=
  .next (vecIssue_wf (fun _ _ _ h1 => setVAll_wf h1) h)

theorem execVlane_wf {o : OpDK} {s : State} (h : Memory.wf s.mem = true) :
    Leads (execVlane o s) :=
  .next (laneIssue_wf (fun _ _ h1 => setVAll_wf h1) h)

theorem execVvote_wf {o : Op3K} {s : State} (h : Memory.wf s.mem = true) :
    Leads (execVvote o s) :=
  .next (laneIssue_wf (fun _ _ h1 => setPAll_wf h1) h)

theorem execVred_wf {o : Op3K} {s : State} (h : Memory.wf s.mem = true) :
    Leads (execVred o s) :=
  .next (vecIssue_wf (fun _ _ _ h1 => ite_wf h1 (raiseFlags_wf (setVAll_wf h1))) h)

theorem execVscan_wf {o : Op3K} {s : State} (h : Memory.wf s.mem = true) :
    Leads (execVscan o s) :=
  .next (vecIssue_wf (fun _ _ _ h1 => ite_wf h1 (raiseFlags_wf (setVAll_wf h1))) h)

theorem execLdU_wf {o : OpM} {s : State} (h : Memory.wf s.mem = true) :
    Leads (execLdU o s) := by
  unfold execLdU
  refine .next (issueTo_wf ?_ h)
  intro s t h1 ht
  subst ht
  exact finish_wf (refreshWindow_wf (loadAll_wf h1))

theorem execStU_wf {o : OpMst} {s : State} (h : Memory.wf s.mem = true) :
    Leads (execStU o s) := by
  unfold execStU
  refine .next (issueTo_wf ?_ h)
  intro s t h1 ht
  subst ht
  exact finish_wf (refreshWindow_wf (storeAll_wf h1))

theorem execPf_wf {o : OpPf} {s : State} (h : Memory.wf s.mem = true) :
    Leads (execPf o s) :=
  .next (issue_wf (fun _ h1 => finish_wf (ite_wf h1 (foldl_wf (fun _ _ h2 => prefetchLine_wf h2) h1))) h)

theorem execDis_wf {o : OpDis} {s : State} (h : Memory.wf s.mem = true) :
    Leads (execDis o s) :=
  .next (issue_wf (fun _ h1 => finish_wf (refreshWindow_wf (bufferDiscards_wf h1))) h)

theorem execWinOpen_wf {o : OpWa} {s : State} (h : Memory.wf s.mem = true) :
    Leads (execWinOpen o s) :=
  .next (issue_wf (fun _ h1 => finish_wf h1) h)

theorem execWinClose_wf {o : OpW} {s : State} (h : Memory.wf s.mem = true) :
    Leads (execWinClose o s) :=
  .next (issue_wf (fun _ h1 => finish_wf h1) h)

theorem execPeerCap_wf {o : OpPeer} {s : State} (h : Memory.wf s.mem = true) :
    Leads (execPeerCap o s) :=
  .next (issue_wf (fun _ h1 => finish_wf (foldl_wf (fun _ _ h2 => capNode_wf h2) h1)) h)

theorem execFence_wf {o : OpF} {s : State} (h : Memory.wf s.mem = true) :
    Leads (execFence o s) :=
  .next (issue_wf (fun _ h1 => fenceEffect_wf h1) h)

theorem execBar_wf {s : State} (h : Memory.wf s.mem = true) :
    Leads (execBar s) :=
  .next (barrierIssue_wf (fun _ h1 => barrierEffect_wf h1) h)

theorem execBarC_wf {s : State} (h : Memory.wf s.mem = true) :
    Leads (execBarC s) :=
  .next (barrierIssue_wf (fun _ h1 => barrierEffect_wf h1) h)

theorem execBarG_wf {s : State} (h : Memory.wf s.mem = true) :
    Leads (execBarG s) :=
  .next (barrierIssue_wf (fun _ h1 => ite_wf (awaitAccesses_wf h1) (takePublishing_wf (fun _ h2 => barGPerform_wf h2) h1)) h)

theorem execTurn_wf {s : State} (h : Memory.wf s.mem = true) :
    Leads (execTurn s) :=
  .next (issue_wf (fun _ h1 => takeTurn_wf (fun _ h2 => turnPerform_wf h2) h1) h)

theorem execCjmpImm_wf {o : OpN9} {s : State} (h : Memory.wf s.mem = true) :
    Leads (execCjmpImm o s) :=
  .next (issue_wf (fun _ h1 => finish_wf h1) h)

theorem execCjmpReg_wf {o : OpS6} {s : State} (h : Memory.wf s.mem = true) :
    Leads (execCjmpReg o s) :=
  .next (issue_wf (fun _ h1 => finish_wf h1) h)

theorem execCjmpto_wf {o : OpS6} {s : State} (h : Memory.wf s.mem = true) :
    Leads (execCjmpto o s) :=
  .next (issue_wf (fun _ h1 => finish_wf h1) h)

theorem execRdclk_wf {o : OpS6} {s : State} (h : Memory.wf s.mem = true) :
    Leads (execRdclk o s) :=
  .next (issue_wf (fun _ h1 => finish_wf h1) h)

theorem execRdq_wf {o : OpS6} {s : State} (h : Memory.wf s.mem = true) :
    Leads (execRdq o s) :=
  .next (issue_wf (fun _ h1 => finish_wf h1) h)

theorem execTileQ_wf {o : OpHD} {s : State} (h : Memory.wf s.mem = true) :
    Leads (execTileQ o s) :=
  .next (issue_wf (fun _ h1 => finish_wf h1) h)

theorem execTaskDone_wf {s : State} (h : Memory.wf s.mem = true) :
    Leads (execTaskDone s) :=
  .next (issue_wf (fun _ h1 => ite_wf (awaitAccesses_wf h1) (finishAlone_wf (releaseEarly_wf h1))) h)

theorem execTrap_wf {o : OpN9} {s : State} (h : Memory.wf s.mem = true) :
    Leads (execTrap o s) :=
  .next (issue_wf (fun _ h1 => enterTrap_wf (retired_wf (addClock_wf h1))) h)

theorem execRte_wf {s : State} (h : Memory.wf s.mem = true) :
    Leads (execRte s) :=
  .next (issue_wf (fun _ h1 => returnFromTrap_wf h1) h)

theorem execBrk_wf {o : OpN9} {s : State} (h : Memory.wf s.mem = true) :
    Leads (execBrk o s) :=
  .next (issue_wf (fun _ h1 => enterTrap_wf h1) h)

theorem execIcinv_wf {o : OpSN} {s : State} (h : Memory.wf s.mem = true) :
    Leads (execIcinv o s) :=
  .next (issue_wf (fun _ h1 => finishAlone_wf h1) h)

theorem execPlbInv_wf {o : OpPlb} {s : State} (h : Memory.wf s.mem = true) :
    Leads (execPlbInv o s) :=
  .next (issue_wf (fun _ h1 => finishAlone_wf (plbInvalidate_wf h1)) h)

theorem execHcOpEntry_wf {o : OpS6} {s : State} (h : Memory.wf s.mem = true) :
    Leads (execHcOpEntry o s) :=
  .next (hcIssue_wf (fun _ _ _ h1 => hcEntry_wf h1) h)

theorem execHcOpRoot_wf {o : OpS6} {s : State} (h : Memory.wf s.mem = true) :
    Leads (execHcOpRoot o s) :=
  .next (hcIssue_wf (fun _ _ _ h1 => hcRoot_wf h1) h)

theorem execHcOpFrame_wf {o : OpS6} {s : State} (h : Memory.wf s.mem = true) :
    Leads (execHcOpFrame o s) :=
  .next (hcIssue_wf (fun _ _ _ h1 => hcFrame_wf h1) h)

theorem execHcOpMigrate_wf {o : OpS6} {s : State} (h : Memory.wf s.mem = true) :
    Leads (execHcOpMigrate o s) :=
  .next (hcIssue_wf (fun _ _ _ h1 => hcMigrate_wf h1) h)

theorem execHcOpReplay_wf {o : OpS6} {s : State} (h : Memory.wf s.mem = true) :
    Leads (execHcOpReplay o s) :=
  .next (hcIssue_wf (fun _ _ _ h1 => hcReplay_wf h1) h)

theorem execHcOpDrop_wf {o : OpS6} {s : State} (h : Memory.wf s.mem = true) :
    Leads (execHcOpDrop o s) :=
  .next (hcIssue_wf (fun _ _ _ h1 => hcDrop_wf h1) h)

theorem execHcOpUnhold_wf {o : OpS6} {s : State} (h : Memory.wf s.mem = true) :
    Leads (execHcOpUnhold o s) :=
  .next (hcIssue_wf (fun _ _ _ h1 => hcUnhold_wf h1) h)

theorem execHcOpRead_wf {o : OpS6} {s : State} (h : Memory.wf s.mem = true) :
    Leads (execHcOpRead o s) :=
  .next (hcIssue_wf (fun _ _ _ h1 => hcRead_wf h1) h)

theorem execAtomX_wf {o : OpXn} {s : State} (h : Memory.wf s.mem = true) :
    Leads (execAtomX o s) :=
  .next (farIssue_wf (fun _ h1 => atomXPerform_wf h1) h)

theorem execRedX_wf {o : OpXn} {s : State} (h : Memory.wf s.mem = true) :
    Leads (execRedX o s) :=
  .next (farIssue_wf (fun _ h1 => redXPerform_wf h1) h)

theorem execFloorSendInterval_wf {s : State} (h : Memory.wf s.mem = true) :
    Leads (execFloorSendInterval s) :=
  .next (onNum_wf (fun _ _ h1 => ite_wf h1 h1) h)

theorem execHcAccess_wf {s : State} (h : Memory.wf s.mem = true) :
    Leads (execHcAccess s) :=
  .next (onReq_wf (fun _ _ h1 => ite_wf h1 (ite_wf (serveGateway_wf h1) (ite_wf (writeAtHc_wf h1) (loadAtHc_wf h1)))) h)

theorem execTaskLeaveIntake_wf {s : State} (h : Memory.wf s.mem = true) :
    Leads (execTaskLeaveIntake s) :=
  .next (onNum_wf (fun _ _ h1 => leaveIntake_wf h1) h)

theorem execUnitPlace_wf {s : State} (h : Memory.wf s.mem = true) :
    Leads (execUnitPlace s) :=
  .next (onNum_wf (fun _ _ h1 => placeNext_wf h1) h)

theorem execUnitRetire_wf {s : State} (h : Memory.wf s.mem = true) :
    Leads (execUnitRetire s) :=
  .next (onNum2_wf (fun _ _ _ h1 => ite_wf (ite_wf (flushFaults_wf h1) (removeUnit_wf (flushFaults_wf h1))) h1) h)

theorem execLaunchRetire_wf {s : State} (h : Memory.wf s.mem = true) :
    Leads (execLaunchRetire s) :=
  .next (onNum_wf (fun _ _ h1 => retireLaunch_wf h1) h)

theorem execResidencyPeriodEnd_wf {s : State} (h : Memory.wf s.mem = true) :
    Leads (execResidencyPeriodEnd s) :=
  .next (onNum_wf (fun _ _ h1 => ite_wf (rotateUnits_wf h1) (giveWay_wf h1)) h)

theorem execHomeLocalLoad_wf {s : State} (h : Memory.wf s.mem = true) :
    Leads (execHomeLocalLoad s) :=
  .next (onReq_wf (fun _ _ h1 => ite_wf h1 (ite_wf (serveGateway_wf h1) (loadAtHome_wf h1))) h)

theorem execHomeLocalStore_wf {s : State} (h : Memory.wf s.mem = true) :
    Leads (execHomeLocalStore s) :=
  .next (onReq_wf (fun _ _ h1 => ite_wf h1 (ite_wf (serveGateway_wf h1) (writeAtHome_wf h1))) h)

theorem execRefusalReceive_wf {s : State} (h : Memory.wf s.mem = true) :
    Leads (execRefusalReceive s) :=
  .next (onRemote_wf (fun _ _ h1 => ite_wf h1 h1) h)

theorem execRefusalResend_wf {s : State} (h : Memory.wf s.mem = true) :
    Leads (execRefusalResend s) :=
  .next (onRemote_wf (fun _ _ h1 => ite_wf (resend_wf h1) (ite_wf (releaseHeld_wf h1) (ite_wf (depart_wf h1) h1))) h)

theorem execRemoteTimeout_wf {s : State} (h : Memory.wf s.mem = true) :
    Leads (execRemoteTimeout s) :=
  .next (onRemote_wf (fun _ _ h1 => ite_wf h1 (failSilent_wf h1)) h)

theorem execBoundaryFilterAnswer_wf {s : State} (h : Memory.wf s.mem = true) :
    Leads (execBoundaryFilterAnswer s) :=
  .next (onNum_wf (fun _ _ h1 => ite_wf h1 h1) h)

theorem execHostSnpdata_wf {s : State} (h : Memory.wf s.mem = true) :
    Leads (execHostSnpdata s) :=
  .next (onNum2_wf (fun _ _ _ h1 => snoop_wf h1) h)

theorem execHostSnpinv_wf {s : State} (h : Memory.wf s.mem = true) :
    Leads (execHostSnpinv s) :=
  .next (onNum2_wf (fun _ _ _ h1 => snoop_wf h1) h)

theorem execHostSnpcur_wf {s : State} (h : Memory.wf s.mem = true) :
    Leads (execHostSnpcur s) :=
  .next (onNum2_wf (fun _ _ _ h1 => snoop_wf h1) h)

theorem execHostLinkLoss_wf {s : State} (h : Memory.wf s.mem = true) :
    Leads (execHostLinkLoss s) :=
  .next (onNum_wf (fun _ _ h1 => settlePort_wf (resetParts_wf h1)) h)

theorem execDestroy_wf {s : State} (h : Memory.wf s.mem = true) :
    Leads (execDestroy s) :=
  .next (onNum_wf (fun _ _ h1 => runCommand_wf (fun _ _ h2 => destroyPart_wf h2) h1) h)

theorem execReset_wf {s : State} (h : Memory.wf s.mem = true) :
    Leads (execReset s) :=
  .next (onNum_wf (fun _ _ h1 => runCommand_wf (fun _ _ h2 => ite_snd_wf (resetPartition_wf h2) h2) h1) h)

theorem execQuery_wf {s : State} (h : Memory.wf s.mem = true) :
    Leads (execQuery s) :=
  .next (onNum_wf (fun _ _ h1 => runCommand_wf (fun _ _ h2 => ite_snd_wf (writeMail_wf h2) h2) h1) h)

theorem execAttest_wf {s : State} (h : Memory.wf s.mem = true) :
    Leads (execAttest s) :=
  .next (onNum_wf (fun _ _ h1 => command_wf (fun _ _ h2 => attestPart_wf h2) h1) h)

theorem execPowercap_wf {s : State} (h : Memory.wf s.mem = true) :
    Leads (execPowercap s) := by
  refine .next (onNum_wf (fun _ _ h1 => runCommand_wf ?_ h1) h)
  intro _ _ h2
  dsimp only
  split <;> exact h2

theorem execStartrec_wf {s : State} (h : Memory.wf s.mem = true) :
    Leads (execStartrec s) :=
  .next (onNum_wf (fun _ _ h1 => command_wf (fun _ _ h2 => writeMail_wf h2) h1) h)

theorem execRestart_wf {s : State} (h : Memory.wf s.mem = true) :
    Leads (execRestart s) :=
  .next (onNum_wf (fun _ _ h1 => ite_wf (beginStart_wf (ite_wf
      (ite_wf (command_wf (fun _ _ h2 => h2) h1) (command_wf (fun _ _ h2 => h2) h1))
      (resetParts_wf (ite_wf (command_wf (fun _ _ h2 => h2) h1) (command_wf (fun _ _ h2 => h2) h1)))))
      (command_wf (fun _ _ h2 => h2) h1)) h)

theorem execSpdmGetCertificate_wf {s : State} (h : Memory.wf s.mem = true) :
    Leads (execSpdmGetCertificate s) :=
  .next (onNum_wf (fun _ _ h1 => ite_wf h1 h1) h)

theorem execPowerCapExceed_wf {s : State} (h : Memory.wf s.mem = true) :
    Leads (execPowerCapExceed s) :=
  .next (onNum_wf (fun _ _ h1 => ite_wf h1 h1) h)

theorem execPowerCapRelease_wf {s : State} (h : Memory.wf s.mem = true) :
    Leads (execPowerCapRelease s) :=
  .next (onNum_wf (fun _ _ h1 => ite_wf h1 h1) h)

theorem exec_wf {i : Instr} {s : State} (h : Memory.wf s.mem = true) : Leads (exec i s) := by
  cases i with
  | add _ => exact .next (scalar3_wf h)
  | sub _ => exact .next (scalar3_wf h)
  | mul _ => exact .next (scalar3_wf h)
  | mulh _ => exact .next (scalar3_wf h)
  | mulhn _ => exact .next (scalar3_wf h)
  | div _ => exact .next (scalar3_wf h)
  | divn _ => exact .next (scalar3_wf h)
  | rem _ => exact .next (scalar3_wf h)
  | remn _ => exact .next (scalar3_wf h)
  | andS _ => exact .next (scalar3_wf h)
  | orS _ => exact .next (scalar3_wf h)
  | xorS _ => exact .next (scalar3_wf h)
  | shl _ => exact .next (scalar3_wf h)
  | shr _ => exact .next (scalar3_wf h)
  | sra _ => exact .next (scalar3_wf h)
  | minS _ => exact .next (scalar3_wf h)
  | maxS _ => exact .next (scalar3_wf h)
  | minn _ => exact .next (scalar3_wf h)
  | maxn _ => exact .next (scalar3_wf h)
  | slt _ => exact .next (scalar3_wf h)
  | sltn _ => exact .next (scalar3_wf h)
  | seq _ => exact .next (scalar3_wf h)
  | sel _ => exact execSel_wf h
  | clz _ => exact .next (scalar2_wf h)
  | ctz _ => exact .next (scalar2_wf h)
  | pop _ => exact .next (scalar2_wf h)
  | lea _ => exact .next (scalar3_wf h)
  | addi _ => exact .next (scalarImm_wf h)
  | andi _ => exact .next (scalarImm_wf h)
  | ori _ => exact .next (scalarImm_wf h)
  | xori _ => exact .next (scalarImm_wf h)
  | shli _ => exact .next (scalarImm_wf h)
  | shri _ => exact .next (scalarImm_wf h)
  | srai _ => exact .next (scalarImm_wf h)
  | movi _ => exact .next (scalarConst_wf h)
  | movh _ => exact .next (scalarConst_wf h)
  | jmp _ => exact .next (issue_wf (fun _ h1 => jump_wf h1) h)
  | jal _ => exact .next (issue_wf (fun _ h1 => jump_wf h1) h)
  | jr _ => exact .next (issue_wf (fun _ h1 => jump_wf h1) h)
  | call _ => exact execCall_wf h
  | ret => exact execRet_wf h
  | retVa _ => exact execRetVa_wf h
  | bz _ => exact .next (branchWhole_wf h)
  | bnz _ => exact .next (branchWhole_wf h)
  | bany _ => exact .next (branchWhole_wf h)
  | ball _ => exact .next (branchWhole_wf h)
  | vbr _ => exact execVbr_wf h
  | loopLc0 _ => exact .next (loopStart_wf h)
  | loopLc1 _ => exact .next (loopStart_wf h)
  | loopSetLc0 _ => exact .next (loopSet_wf h)
  | loopSetLc1 _ => exact .next (loopSet_wf h)
  | loopGetLc0 _ => exact .next (loopGet_wf h)
  | loopGetLc1 _ => exact .next (loopGet_wf h)
  | region => exact execRegion_wf h
  | yield => exact execYield_wf h
  | nop => exact execNop_wf h
  | halt => exact execHalt_wf h
  | modeT _ => exact .next (modeField_wf h)
  | modeG _ => exact .next (modeField_wf h)
  | modeRm _ => exact .next (modeField_wf h)
  | modeCv _ => exact .next (modeField_wf h)
  | modeLd _ => exact execModeLd_wf h
  | modeSt _ => exact execModeSt_wf h
  | rdsp _ => exact .next (specialRead_wf h)
  | vadd _ => exact .next (vec3_wf h)
  | vsub _ => exact .next (vec3_wf h)
  | vmul _ => exact .next (vec3_wf h)
  | vmulh _ => exact .next (vec3_wf h)
  | vmad _ => exact .next (vec3_wf h)
  | vand _ => exact .next (vec3_wf h)
  | vor _ => exact .next (vec3_wf h)
  | vxor _ => exact .next (vec3_wf h)
  | vnot _ => exact .next (vec2_wf h)
  | vshl _ => exact .next (vec3_wf h)
  | vshr _ => exact .next (vec3_wf h)
  | vsra _ => exact .next (vec3_wf h)
  | vmin _ => exact .next (vec3_wf h)
  | vmax _ => exact .next (vec3_wf h)
  | vabs _ => exact .next (vec2_wf h)
  | vneg _ => exact .next (vec2_wf h)
  | vclz _ => exact .next (vec2_wf h)
  | vpop _ => exact .next (vec2_wf h)
  | vcmp _ => exact .next (vecCmp_wf h)
  | vsel _ => exact .next (vec3_wf h)
  | vmov _ => exact .next (vec2_wf h)
  | vbcs _ => exact .next (vecBits_wf h)
  | vbfe _ => exact .next (vecBits_wf h)
  | vbfi _ => exact .next (vecBits_wf h)
  | vadds _ => exact .next (vec3_wf h)
  | vfadd _ => exact .next (vec3_wf h)
  | vfsub _ => exact .next (vec3_wf h)
  | vfmul _ => exact .next (vec3_wf h)
  | vffma _ => exact .next (vec3_wf h)
  | vfneg _ => exact .next (vec2_wf h)
  | vfabs _ => exact .next (vec2_wf h)
  | vfmin _ => exact .next (vec3_wf h)
  | vfmax _ => exact .next (vec3_wf h)
  | vfcmp _ => exact .next (vecCmp_wf h)
  | vfrcp _ => exact .next (vec2_wf h)
  | vfrsq _ => exact .next (vec2_wf h)
  | vfsqrt _ => exact .next (vec2_wf h)
  | vfexp2 _ => exact .next (vec2_wf h)
  | vflog2 _ => exact .next (vec2_wf h)
  | vfsin _ => exact .next (vec2_wf h)
  | vfcos _ => exact .next (vec2_wf h)
  | vftanh _ => exact .next (vec2_wf h)
  | vfclass _ => exact execVfclass_wf h
  | vcvtF64 _ => exact .next (vecCvt_wf h)
  | vcvtF32 _ => exact .next (vecCvt_wf h)
  | vcvtF16 _ => exact .next (vecCvt_wf h)
  | vcvtBf16 _ => exact .next (vecCvt_wf h)
  | vcvtE4m3 _ => exact .next (vecCvt_wf h)
  | vcvtE5m2 _ => exact .next (vecCvt_wf h)
  | vcvtE3m2 _ => exact .next (vecCvt_wf h)
  | vcvtE2m3 _ => exact .next (vecCvt_wf h)
  | vcvtE2m1 _ => exact .next (vecCvt_wf h)
  | vcvtI32 _ => exact .next (vecCvt_wf h)
  | vcvtN32 _ => exact .next (vecCvt_wf h)
  | vcvtI16 _ => exact .next (vecCvt_wf h)
  | vcvtN16 _ => exact .next (vecCvt_wf h)
  | vcvtI8 _ => exact .next (vecCvt_wf h)
  | vcvtN8 _ => exact .next (vecCvt_wf h)
  | vcvtI4 _ => exact .next (vecCvt_wf h)
  | vcvtN4 _ => exact .next (vecCvt_wf h)
  | vpack _ => exact execVpack_wf h
  | vunpk _ => exact execVunpk_wf h
  | vshf _ => exact .next (vecShuffle_wf h)
  | vshfx _ => exact .next (vecShuffle_wf h)
  | vshfu _ => exact .next (vecShuffle_wf h)
  | vshfd _ => exact .next (vecShuffle_wf h)
  | vlane _ => exact execVlane_wf h
  | vvote _ => exact execVvote_wf h
  | vballot _ => exact .next (laneIssue_wf (fun _ _ h1 => h1) h)
  | vred _ => exact execVred_wf h
  | vscan _ => exact execVscan_wf h
  | vmaxi _ => exact .next (vecRank_wf h)
  | vtopk _ => exact .next (vecRank_wf h)
  | rdw _ => exact .next (laneIssue_wf (fun _ _ h1 => h1) h)
  | ldG _ => exact execLdG_wf h
  | stG _ => exact execStG_wf h
  | ldS _ => exact execLdS_wf h
  | stS _ => exact execStS_wf h
  | ldU _ => exact execLdU_wf h
  | stU _ => exact execStU_wf h
  | pf _ => exact execPf_wf h
  | dis _ => exact execDis_wf h
  | winOpen _ => exact execWinOpen_wf h
  | winClose _ => exact execWinClose_wf h
  | ldX _ => exact execLdX_wf h
  | stX _ => exact execStX_wf h
  | peerCap _ => exact execPeerCap_wf h
  | atom _ => exact .next (atomIssue_wf h)
  | atomCas _ => exact .next (atomIssue_wf h)
  | atomCas16 _ => exact .next (atomIssue_wf h)
  | atomMaxi _ => exact .next (atomIssue_wf h)
  | red _ => exact execRed_wf h
  | acq _ => exact execAcq_wf h
  | rel _ => exact execRel_wf h
  | fence _ => exact execFence_wf h
  | bar => exact execBar_wf h
  | barC => exact execBarC_wf h
  | barG => exact execBarG_wf h
  | turn => exact execTurn_wf h
  | cjmpImm _ => exact execCjmpImm_wf h
  | cjmpReg _ => exact execCjmpReg_wf h
  | cjmpto _ => exact execCjmpto_wf h
  | rdclk _ => exact execRdclk_wf h
  | rdq _ => exact execRdq_wf h
  | waitCnt _ => exact execWaitCnt_wf h
  | tileOwn _ => exact .next (tileIssue_wf h)
  | tileSeal _ => exact .next (tileIssue_wf h)
  | tileFree _ => exact .next (tileIssue_wf h)
  | tileQ _ => exact execTileQ_wf h
  | cp _ => exact .next (engineOf_wf h)
  | cpR _ => exact .next (engineOf_wf h)
  | cpX _ => exact .next (engineOf_wf h)
  | cpXR _ => exact .next (engineOf_wf h)
  | gat _ => exact .next (engineOf_wf h)
  | gatR _ => exact .next (engineOf_wf h)
  | scat _ => exact .next (engineOf_wf h)
  | scatR _ => exact .next (engineOf_wf h)
  | coll _ => exact .next (engineOf_wf h)
  | collR _ => exact .next (engineOf_wf h)
  | mloop _ => exact .next (engineOf_wf h)
  | maccZ _ => exact .next (engineOf_wf h)
  | maccZR _ => exact .next (engineOf_wf h)
  | maccLd _ => exact .next (engineOf_wf h)
  | maccLdR _ => exact .next (engineOf_wf h)
  | maccSt _ => exact .next (engineOf_wf h)
  | maccStR _ => exact .next (engineOf_wf h)
  | ewait _ => exact execEwait_wf h
  | epoll _ => exact execEpoll_wf h
  | taskSig _ => exact .next (taskSignal_wf h)
  | taskPost _ => exact .next (taskSignal_wf h)
  | taskDone => exact execTaskDone_wf h
  | trap _ => exact execTrap_wf h
  | rte => exact execRte_wf h
  | csrr _ => exact .next (specialRead_wf h)
  | csrw _ => exact .next (specialWrite_wf h)
  | csrs _ => exact .next (specialWrite_wf h)
  | csrc _ => exact .next (specialWrite_wf h)
  | brk _ => exact execBrk_wf h
  | pmcRead _ => exact .next (pmc_wf h)
  | pmcReadClear _ => exact .next (pmc_wf h)
  | icinv _ => exact execIcinv_wf h
  | plbInv _ => exact execPlbInv_wf h
  | hcOpEntry _ => exact execHcOpEntry_wf h
  | hcOpRoot _ => exact execHcOpRoot_wf h
  | hcOpFrame _ => exact execHcOpFrame_wf h
  | hcOpMigrate _ => exact execHcOpMigrate_wf h
  | hcOpReplay _ => exact execHcOpReplay_wf h
  | hcOpDrop _ => exact execHcOpDrop_wf h
  | hcOpUnhold _ => exact execHcOpUnhold_wf h
  | hcOpRead _ => exact execHcOpRead_wf h
  | atomX _ => exact execAtomX_wf h
  | redX _ => exact execRedX_wf h
  | illegalInstruction _ => exact .next (preciseTrap_wf h)
  | reservedEncoding _ => exact execReservedEncoding_wf h
  | regang => exact execRegang_wf h
  | loadResultArrive => exact execLoadResultArrive_wf h
  | loadFaultResponse => exact execLoadFaultResponse_wf h
  | storeAck => exact execStoreAck_wf h
  | turnAdmit => exact execTurnAdmit_wf h
  | detLoadPerform => exact execDetLoadPerform_wf h
  | floorGatedAction => exact execFloorGatedAction_wf h
  | crownFloorUpdate => exact execCrownFloorUpdate_wf h
  | publicationArrive => exact execPublicationArrive_wf h
  | publicationAck => exact .next (onNum_wf (fun _ _ h1 => h1) h)
  | mittenUpdateArrive => exact execMittenUpdateArrive_wf h
  | redRefusalReturn => exact execRedRefusalReturn_wf h
  | floorSideband => exact execFloorSideband_wf h
  | floorSendInterval => exact execFloorSendInterval_wf h
  | barrierComplete => exact execBarrierComplete_wf h
  | engineDispatch => exact execEngineDispatch_wf h
  | matrixPassGrant => exact execMatrixPassGrant_wf h
  | engineFinish => exact execEngineFinish_wf h
  | ewaitComplete => exact execEwaitComplete_wf h
  | engineAccessFault => exact execEngineAccessFault_wf h
  | matrixOperandFault => exact execMatrixOperandFault_wf h
  | collectiveTimeout => exact execCollectiveTimeout_wf h
  | deferredFaultRecord => exact execDeferredFaultRecord_wf h
  | hcAccess => exact execHcAccess_wf h
  | turnStallWatchdog => exact execTurnStallWatchdog_wf h
  | taskLeaveIntake => exact execTaskLeaveIntake_wf h
  | domainDescriptorMatch => exact execDomainDescriptorMatch_wf h
  | unitPlace => exact execUnitPlace_wf h
  | opPointStable => exact execOpPointStable_wf h
  | unitRetire => exact execUnitRetire_wf h
  | launchRetire => exact execLaunchRetire_wf h
  | residencyPeriodEnd => exact execResidencyPeriodEnd_wf h
  | turnDrivenSwapIn => exact execTurnDrivenSwapIn_wf h
  | homeLocalLoad => exact execHomeLocalLoad_wf h
  | homeLocalStore => exact execHomeLocalStore_wf h
  | invalidationAck => exact execInvalidationAck_wf h
  | invalidationArrive => exact execInvalidationArrive_wf h
  | invalidationTimeout => exact execInvalidationTimeout_wf h
  | fabricRequestArrive => exact execFabricRequestArrive_wf h
  | reservationExpire => exact execReservationExpire_wf h
  | refusalReceive => exact execRefusalReceive_wf h
  | refusalResend => exact execRefusalResend_wf h
  | intermediateForward => exact execIntermediateForward_wf h
  | remoteResponse => exact execRemoteResponse_wf h
  | remoteFaultResponse => exact execRemoteFaultResponse_wf h
  | remoteTimeout => exact execRemoteTimeout_wf h
  | floorSilenceTimeout => exact execFloorSilenceTimeout_wf h
  | boundaryFilterProbe => exact execBoundaryFilterProbe_wf h
  | boundaryFilterAnswer => exact execBoundaryFilterAnswer_wf h
  | hostMemrd => exact execHostMemrd_wf h
  | hostMemwr => exact execHostMemwr_wf h
  | bisnpResponse => exact execBisnpResponse_wf h
  | hostSnpdata => exact execHostSnpdata_wf h
  | hostSnpinv => exact execHostSnpinv_wf h
  | hostSnpcur => exact execHostSnpcur_wf h
  | cxlCacheGrant => exact execCxlCacheGrant_wf h
  | hostAtomic => exact execHostAtomic_wf h
  | hostLinkLoss => exact execHostLinkLoss_wf h
  | hostLinkRetrain => exact execHostLinkRetrain_wf h
  | create => exact execCreate_wf h
  | destroy => exact execDestroy_wf h
  | reset => exact execReset_wf h
  | query => exact execQuery_wf h
  | attest => exact execAttest_wf h
  | powercap => exact execPowercap_wf h
  | stage => exact execStage_wf h
  | startrec => exact execStartrec_wf h
  | restart => exact execRestart_wf h
  | spdmGetCertificate => exact execSpdmGetCertificate_wf h
  | spdmChallenge => exact .next (spdmSigned_wf h)
  | spdmGetMeasurements => exact .next (spdmSigned_wf h)
  | apertureMapWrite => exact .next (hostStore_wf h)
  | fqConfigWrite => exact .next (hostStore_wf h)
  | eselWrite => exact .next (hostStore_wf h)
  | registerWrite => exact execRegisterWrite_wf h
  | deviceStart => exact execDeviceStart_wf h
  | startStepTimeout => exact execStartStepTimeout_wf h
  | startRetry => exact .next (ite_wf h (ite_wf h h))
  | powerCapExceed => exact execPowerCapExceed_wf h
  | powerCapRelease => exact execPowerCapRelease_wf h
  | thermalHold => exact .next (onNum_wf (fun _ _ h1 => h1) h)
  | thermalHoldRelease => exact .next (onNum_wf (fun _ _ h1 => h1) h)
  | thermalTrip => exact .next (resetParts_wf h)
  | eccCorrected => exact .next h
  | eccUncorrectable => exact execEccUncorrectable_wf h
  | hbmScrub => exact .next h
  | plbFetchResponse => exact execPlbFetchResponse_wf h
  | engineReadsDone => exact execEngineReadsDone_wf h
  | configurationRequest => exact execConfigurationRequest_wf h
  | hostLinkDown => exact .next (onNum_wf (fun _ _ h1 => h1) h)
  | thermalTripClear => exact .next h
  | minimalPortFallback => exact .next (ite_wf h h)

theorem issueCurrent_wf {s : State} (h : Memory.wf s.mem = true) : Leads (issueCurrent s) := by
  unfold issueCurrent
  split
  · exact .next (deliver_wf h)
  · split
    · exact .next (preciseTrap_wf (openClosed_wf h))
    · refine leads_ite (.next (openRegion_wf h)) ?_
      split
      · exact .next (deliver_wf h)
      · split
        · exact .next (deliver_wf h)
        · refine leads_ite (.next (askHosts_wf h)) ?_
          split
          · exact .next (preciseTrap_wf h)
          · exact exec_wf (fillICache_wf h)

theorem issueSplit_wf {n l : Nat} {s : State} (h : Memory.wf s.mem = true) : Leads (issueSplit n l s) := by
  unfold issueSplit
  exact leads_ite (issueCurrent_wf (takeSlices_wf (select_wf h))) (.next (select_wf h))

theorem makeMove_wf {m : Move} {s : State} (h : Memory.wf s.mem = true) : Leads (makeMove m s) := by
  cases m with
  | agent i a => exact exec_wf h
  | select n l => exact issueSplit_wf h

theorem step_wf {s : State} (h : Memory.wf s.mem = true) : Leads (step s) := by
  unfold step
  split
  · exact .next h
  · exact makeMove_wf h

/-- Settles O60: what a step may do keeps the form, function by function of the model. -/
theorem everyStepKeepsMemoryForm : Obligations.EveryStepKeepsMemoryForm := by
  unfold Obligations.EveryStepKeepsMemoryForm
  exact fun s t h ht => step_wf h t ht

end Sys2Proof.Machine
end

section
/-! PROOF. Fences and counts (spec/11_isa_memory_sync.md R249, R250; spec/04_consistency.md R89, R91). -/

namespace Sys2Proof.Machine

/-! ### What an instruction that falls through leaves -/

/-- A region that opens where none is leaves an instruction done. -/
theorem finishAlone_falls {w : Nat} {x : State} (room : NoSpill x) (h : (edges x).repeats = true → NoRotation x) :
    Done w x (finishAlone w x) := by
  have hd := finish_done w room h
  unfold finishAlone openClosed
  split
  · exact hd
  · exact openRegion_done room hd

/-- A part of the device that neither retiring an instruction nor the commit of a region changes. -/
theorem Agrees.field {α : Type} (view : State → α) {t u : State} (h : Agrees t u) (room : NoSpill u) (hb : ∀ x, view x.besides = view x)
    (hs : ∀ x, view x.sansEntry = view x) : view t = view u := by
  rcases h with ⟨h, -⟩ | ⟨h, -⟩
  · rw [← hb t, h, hb]
  · rw [← hb t, h, hb, field_commit view room hs]

/-- What falls through from a state falls through from any other of the same loops and clock. -/
theorem Done.retired {w : Nat} {x s t : State} (h : Done w x t) (hl : SameLoops x.p s.p) (hstatus : x.p.status = s.p.status)
    (hclock : x.p.clock = s.p.clock) : Retired w s t := by
  have he := edges_congr hl
  obtain ⟨hlc0, hlc1, hlr0, hlr1⟩ := h.loops
  exact ⟨h.pc.trans he.loops.pc, ⟨hlc0.trans he.loops.lc0, hlc1.trans he.loops.lc1, hlr0.trans he.loops.lr0, hlr1.trans he.loops.lr1⟩,
    h.clock.trans (by rw [he.count, clockAfter, clockAfter, isPriv, isPriv, hstatus, hclock]), h.wait⟩

/-- What falls through leaves every register and byte. -/
theorem Done.unwritten {w : Nat} {x t : State} (h : Done w x t) (room : NoSpill x) : Unwritten x t := by
  have keep : ∀ {α : Type} (view : State → α), (∀ x, view x.besides = view x) → (∀ x, view x.sansEntry = view x) → view t = view x :=
    fun view hb hs => h.rest.field view room hb hs
  exact ⟨keep (fun x => x.p.sregs) (fun _ => rfl) fun _ => rfl, keep (fun x => x.p.wins) (fun _ => rfl) fun _ => rfl,
    ⟨keep (fun x => x.p.mode) (fun _ => rfl) fun _ => rfl, keep (fun x => x.p.exec) (fun _ => rfl) fun _ => rfl,
      keep (fun x => x.p.fstat) (fun _ => rfl) fun _ => rfl, keep (fun x => x.p.status) (fun _ => rfl) fun _ => rfl,
      keep (fun x => x.p.epc) (fun _ => rfl) fun _ => rfl, keep (fun x => x.p.cause) (fun _ => rfl) fun _ => rfl,
      keep (fun x => x.p.frec) (fun _ => rfl) fun _ => rfl⟩,
    keep (fun x => x.p.rstack) (fun _ => rfl) fun _ => rfl, keep (fun x => x.p.members) (fun _ => rfl) fun _ => rfl,
    keep (fun x => x.g.vregs) (fun _ => rfl) fun _ => rfl, keep (fun x => x.g.preds) (fun _ => rfl) fun _ => rfl, h.memory⟩

theorem Done.regState {w : Nat} {x t : State} (h : Done w x t) (room : NoSpill x) (r : Nat) : regState t r = regState x r :=
  h.rest.field (fun x => Machine.regState x r) room (fun _ => rfl) fun _ => rfl

theorem Unwritten.refl (s : State) : Unwritten s s :=
  ⟨rfl, rfl, ⟨rfl, rfl, rfl, rfl, rfl, rfl, rfl⟩, rfl, rfl, rfl, rfl, fun _ => rfl⟩

theorem Unwritten.trans {s t u : State} (h : Unwritten s t) (k : Unwritten t u) : Unwritten s u := by
  obtain ⟨hmode, hexec, hfstat, hstatus, hepc, hcause, hfrec⟩ := h.special
  obtain ⟨kmode, kexec, kfstat, kstatus, kepc, kcause, kfrec⟩ := k.special
  exact ⟨k.scalars.trans h.scalars, k.windows.trans h.windows,
    ⟨kmode.trans hmode, kexec.trans hexec, kfstat.trans hfstat, kstatus.trans hstatus, kepc.trans hepc, kcause.trans hcause,
      kfrec.trans hfrec⟩, k.stack.trans h.stack, k.members.trans h.members, k.vectors.trans h.vectors, k.predicates.trans h.predicates,
    fun a => (k.memory a).trans (h.memory a)⟩

/-- A commit leaves every register and byte. -/
theorem commitRegion_unwritten {s : State} (room : NoSpill s) : Unwritten s (commitRegion s) := by
  have hs := commitRegion_split room
  exact ⟨hs.sregs, hs.wins, ⟨hs.mode, hs.exec, hs.fstat, hs.status, hs.epc, hs.cause, hs.frec⟩, hs.rstack, hs.members,
    field_commit (fun x => x.g.vregs) room fun _ => rfl,
    field_commit (fun x => x.g.preds) room fun _ => rfl, fun a => by rw [commitRegion_mem room]⟩

theorem commitRegion_regState {s : State} (room : NoSpill s) (r : Nat) : regState (commitRegion s) r = regState s r :=
  field_commit (fun x => Machine.regState x r) room fun _ => rfl

/-! ### Copies in an L1 (R89, R111) -/

/-- A view of the elements of a list that a change leaves is left by a change of some of them. -/
theorem map_updateWhere {α β : Type} {v : α → β} {f : α → α} (h : ∀ a, v (f a) = v a) (p : α → Bool) (l : List α) :
    (updateWhere p f l).map v = l.map v := by
  induction l with
  | nil => rfl
  | cons a r ih =>
    rw [updateWhere, List.map_cons, List.map_cons, ih]
    split
    · rw [h]
    · rfl

/-- Which copies the L1s hold: the core and the line of each, how it is kept coherent, and its start key. -/
def State.copies (s : State) : List (Nat × LineRef × BitVec 2 × Option Key) := s.l1.map fun c => (c.core, c.ref, c.coh, c.startKey)

theorem sendWrite_copies (q : Req) : Keeps State.copies (sendWrite q) := by
  intro s
  unfold sendWrite
  show (match q.op with
    | .store _ => _
    | _ => s.l1).map _ = s.l1.map _
  split
  · refine map_updateWhere ?_ _ _
    exact fun _ => rfl
  · rfl

theorem depart_copies (q : RemoteReq) : Keeps State.copies (depart q) := by
  intro s
  unfold depart
  dsimp only
  split <;> rfl

theorem sendRemote_copies (q : RemoteReq) : Keeps State.copies (sendRemote q) := by
  intro s
  unfold sendRemote
  dsimp only
  split
  · rfl
  · exact depart_copies _ _

theorem releaseStore_copies (b : BufStore) : Keeps State.copies (releaseStore b) := by
  intro s
  unfold releaseStore
  split
  · split <;> rfl
  · dsimp only
    split
    · split
      · next d _ => exact Keeps.foldl (f := cuffLine b d) (fun _ _ => rfl) _ s
      · rfl
      · rfl
      · exact sendWrite_copies _ s
    · exact sendWrite_copies _ s

theorem releaseGroup_copies (l : List BufStore) : Keeps State.copies (releaseGroup l) := by
  intro s
  cases l with
  | nil => rfl
  | cons b r =>
    rw [releaseGroup]
    split
    · exact Keeps.foldl (fun a x => sendRemote_copies _ x) _ s
    · exact releaseStore_copies b s

/-- A commit sends stores, whose bytes are pending in the copies of the core; it drops no copy and fills none. -/
theorem commitRegion_copies {s : State} (room : NoSpill s) : (commitRegion s).copies = s.copies := by
  rw [commitRegion_eq room, releaseRegion, releaseAll]
  exact Keeps.foldl (f := fun s g => releaseGroup g s) releaseGroup_copies _ _

/-- A copy after an instruction was there before it, but for its pending bytes. -/
theorem Agrees.copies {t u : State} (h : Agrees t u) (room : NoSpill u) : t.copies = u.copies := by
  rcases h with ⟨h, -⟩ | ⟨h, -⟩
  · have e := congrArg State.copies h
    exact e
  · have e := congrArg State.copies h
    exact Eq.trans e (commitRegion_copies room)

theorem exists_of_copies {t u : State} (h : t.copies = u.copies) {c : L1Line} (hc : c ∈ t.l1) :
    ∃ e ∈ u.l1, e.core = c.core ∧ e.coh = c.coh ∧ e.startKey = c.startKey := by
  have hmem : (c.core, c.ref, c.coh, c.startKey) ∈ u.copies := h ▸ List.mem_map_of_mem hc
  obtain ⟨e, he, heq⟩ := List.mem_map.mp hmem
  obtain ⟨hcore, -, hcoh, hkey⟩ := by simpa only [Prod.mk.injEq] using heq
  exact ⟨e, he, hcore, hcoh, hkey⟩

/-- The core holds no self-invalidating copy of a free launch (R89). -/
def NoSelfCopy (core : Nat) (s : State) : Prop := ∀ c ∈ s.l1, ¬ (c.core = core ∧ c.coh = 0 ∧ c.startKey = none)

theorem NoSelfCopy.of_copies {core : Nat} {t u : State} (h : NoSelfCopy core u) (hcopies : t.copies = u.copies) : NoSelfCopy core t := by
  intro c hc hself
  obtain ⟨e, he, hcore, hcoh, hkey⟩ := exists_of_copies hcopies hc
  exact h e he ⟨hcore.trans hself.1, hcoh.trans hself.2.1, hkey.trans hself.2.2⟩

theorem dropSelf_none (core : Nat) (s : State) : NoSelfCopy core (dropSelf core s) := by
  rintro c hc ⟨hcore, hcoh, hkey⟩
  obtain ⟨-, hkept⟩ := List.mem_filter.mp hc
  simp [hcore, hcoh, hkey] at hkept

/-! ### fence (R249) -/

theorem bne_decide {n : Nat} (a b : BitVec n) : (a != b) = decide (a ≠ b) := by rw [bne, beq_eq_decide, decide_not]

/-- What a fence leaves of the copies of its core. -/
def fenced (o : OpF) (c : State) : State :=
  if o.kind != 2 && decide (2 ≤ o.scope.toNat) && !detNow c then dropSelf c.g.core c else c

/-- The split goes on, and a region opens where none is open. -/
def goesOn (x : State) : State := if x.p.entry.isSome then finish 4 x else finishAlone 4 x

theorem goesOn_done {x : State} (room : NoSpill x) (h : (edges x).repeats = true → NoRotation x) : Done 4 x (goesOn x) := by
  unfold goesOn
  split
  · exact finish_done 4 room h
  · exact finishAlone_falls room h

/-- With no store held none is held afterwards. -/
theorem Done.buffer_empty {w : Nat} {x t : State} (h : Done w x t) (hx : x.p.buffer = []) : t.p.buffer = [] := by
  rcases h.rest with ⟨-, hbuf⟩ | ⟨-, hbuf⟩
  · exact hbuf.trans hx
  · exact hbuf

theorem fenceDone_eq (o : OpF) (c : State) : fenceDone o c = goesOn (fenced o c) := rfl

theorem fenced_same (o : OpF) (c : State) : (fenced o c).p = c.p ∧ (fenced o c).g = c.g ∧ (fenced o c).mem = c.mem := by
  unfold fenced
  split
  · exact ⟨rfl, rfl, rfl⟩
  · exact ⟨rfl, rfl, rfl⟩

/-- In a free launch no store enters the Cuff buffer (R41). -/
theorem releaseRegion_cuff {s : State} (hfree : detNow s = false) : (releaseRegion s).g.cuff = s.g.cuff := by
  have hsent := releaseAll_sent s.p.buffer (s := { s with p := { s.p with
    buffer := [], entry := none, fresh := false, liveIn := [], written := [] } }) hfree
  have e := congrArg (fun x : State => x.g.cuff) hsent
  exact e

theorem NoSpill.of_free {x y : State} (room : NoSpill y) (hx : detNow x = false) (hy : detNow y = false) (hcuff : x.g.cuff = y.g.cuff) :
    NoSpill x := by
  rw [NoSpill, releaseRegion_cuff hx, hcuff, ← releaseRegion_cuff hy]
  exact room

theorem fenced_room (o : OpF) {c : State} (room : NoSpill c) : NoSpill (fenced o c) := by
  unfold fenced
  split
  · next h =>
    have hfree : detNow c = false := by simpa using (Bool.and_eq_true_iff.mp h).2
    exact room.of_free (x := dropSelf c.g.core c) hfree hfree rfl
  · exact room

/-- A fence whose accesses have performed falls through. -/
theorem fenceDone_falls (o : OpF) {c : State} (room : NoSpill c) (hrot : (edges c).repeats = true → NoRotation c) :
    Done 4 (fenced o c) (fenceDone o c) := by
  obtain ⟨hp, hg, -⟩ := fenced_same o c
  have hwhole : (edges (fenced o c)).repeats = true → NoRotation (fenced o c) := by
    rw [edges, NoRotation, rotatable, isPriv, hp, hg]
    exact hrot
  exact goesOn_done (fenced_room o room) hwhole

/-- The region that a fence or a count leaves: committed or as it was. -/
def committedIf (b : Bool) (s : State) : State := if b then commitRegion s else s

section

variable {b : Bool} {s : State} (room : NoSpill s)

include room in
theorem committedIf_split : SameSplit (committedIf b s).p s.p := by
  cases b
  · exact .refl _
  · exact commitRegion_split room

include room in
theorem committedIf_room : NoSpill (committedIf b s) := by
  cases b
  · exact room
  · exact room.commit

include room in
theorem committedIf_whole (h : (edges s).repeats = true → NoRotation s) :
    (edges (committedIf b s)).repeats = true → NoRotation (committedIf b s) := by
  intro hrep
  have hn := h ((edges_congr (committedIf_split room).loops).repeats ▸ hrep)
  cases b
  · exact hn
  · exact noRotation_commit room hn

include room in
theorem committedIf_unwritten : Unwritten s (committedIf b s) := by
  cases b
  · exact .refl s
  · exact commitRegion_unwritten room

include room in
theorem committedIf_field {α : Type} (view : State → α) (h : ∀ x, view x.sansEntry = view x) : view (committedIf b s) = view s := by
  cases b
  · rfl
  · exact field_commit view room h

end

theorem detNow_commit {s : State} (room : NoSpill s) : detNow (commitRegion s) = detNow s := by
  rw [← entered_alone (f := haltForm s) room rfl, detNow_entered _ room]

/-- An instruction without registers that opens no region is issued as it is. -/
theorem Ready.issues {w : Nat} {s : State} (h : Ready w [] [] s) {word : BitVec 32} {effect : State → State} :
    issue (Form.plain word w) noCheck effect s = effect s := by
  rw [h.passes (f := Form.plain word w) (check := noCheck) ⟨rfl, rfl⟩ ⟨rfl, rfl⟩ rfl nofun rfl nofun nofun (Nat.le_refl _),
    entered_self ⟨rfl, rfl⟩ rfl rfl]

/-- Whether a fence commits its region: it selects class local, or the class of a store to a peer that is held (R91). -/
def fenceCommits (o : OpF) (s : State) : Bool := o.kind != 1 && (o.mask.getLsbD 0 || buffersFar o.mask s)

theorem fence_performs {o : OpF} {s : State} (hform : wellFormed (.fence o) = true) (h : Ready 4 [] [] s)
    (hperformed : accessPending (committedIf (fenceCommits o s) s) o.mask (o.kind == 1) = false) :
    exec (.fence o) s = .next (fenceDone o (committedIf (fenceCommits o s) s)) := by
  have hexec : exec (.fence o) s = .next (issue { Form.plain (wordOf (encode (.fence o))) 4 with
      bad := if wellFormed (.fence o) then none else some 0x03 } noCheck (fenceEffect o) s) := rfl
  rw [hexec, hform, if_pos rfl]
  refine congrArg Host.Outcome.next ?_
  refine (h.issues (effect := fenceEffect o)).trans ?_
  show (if accessPending (committedIf (fenceCommits o s) s) o.mask (o.kind == 1) then _ else _) = _
  rw [hperformed, if_neg Bool.false_ne_true]
  rfl

theorem fence_completes {o : OpF} {s : State} (hlow : 1 ≤ o.kind.toNat) (hhigh : o.kind.toNat ≤ 3) (hscope : o.scope.toNat < 7)
    (h : Ready 4 [] [] s) (hperformed : accessPending (committedIf (fenceCommits o s) s) o.mask (o.kind == 1) = false) :
    ∃ t, exec (.fence o) s = .next t ∧ Retired 4 s t ∧ Unwritten s t ∧ (∀ r, regState t r = regState s r) ∧
      (fenceCommits o s = true → t.p.buffer = []) ∧
      (o.kind ≠ 2 → 2 ≤ o.scope.toNat → detNow s = false → NoSelfCopy s.g.core t) := by
  have hform : wellFormed (.fence o) = true := by simp [wellFormed, hlow, hhigh, hscope]
  refine ⟨_, fence_performs hform h hperformed, ?_⟩
  generalize hb : fenceCommits o s = b
  have hroom : NoSpill (committedIf b s) := committedIf_room h.room
  obtain ⟨hp, hg, hmem⟩ := fenced_same o (committedIf b s)
  have hdone := fenceDone_falls o hroom (committedIf_whole h.room h.whole)
  have hroom' := fenced_room o hroom
  have hsplit : SameSplit (fenced o (committedIf b s)).p s.p := hp ▸ committedIf_split h.room
  have hunwritten : Unwritten (committedIf b s) (fenced o (committedIf b s)) := by
    have hrefl := Unwritten.refl (committedIf b s)
    exact ⟨hp ▸ rfl, hp ▸ rfl, hp ▸ hrefl.special, hp ▸ rfl, hp ▸ rfl, hg ▸ rfl, hg ▸ rfl, fun a => by rw [hmem]⟩
  refine ⟨hdone.retired hsplit.loops hsplit.status hsplit.clock, ((committedIf_unwritten h.room).trans hunwritten).trans (hdone.unwritten hroom'), fun r => ?_,
    fun hcommits => ?_, fun hkind hwide hfree => ?_⟩
  · rw [hdone.regState hroom', regState, hp, hg]
    exact committedIf_field h.room (fun x => regState x r) fun _ => rfl
  · have hempty : (fenced o (committedIf b s)).p.buffer = [] := by
      rw [hp, hcommits]
      exact commitRegion_buffer h.room
    exact hdone.buffer_empty hempty
  · have hcore : (committedIf b s).g.core = s.g.core := committedIf_field h.room (fun x => x.g.core) fun _ => rfl
    have hdet : detNow (committedIf b s) = false := by
      cases b
      · exact hfree
      · exact (detNow_commit h.room).trans hfree
    refine NoSelfCopy.of_copies ?_ (hdone.rest.copies hroom')
    rw [fenced, hdet, if_pos (by simpa [hwide] using hkind), hcore]
    exact dropSelf_none _ _

/-! ### wait.cnt (R250) -/

theorem waitCnt_completes {o : OpWait} {s : State} (hcount : countOf (committedIf (decide (o.k.toNat < 2)) s) o.k.toNat ≤ o.n.toNat)
    (hwrites : o.k = 0 → o.n = 0 → writesPending (committedIf (decide (o.k.toNat < 2)) s) = false)
    (hfault : o.k.toNat < 2 → countFault s o.k.toNat = none) (hengines : o.k.toNat = 3 → deliverable s .engines = none)
    (h : Ready 4 [] [] s) :
    ∃ t, exec (.waitCnt o) s = .next t ∧ Done 4 s t ∧
      (o.k.toNat < 2 → t.besides = (commitRegion s).besides ∧ t.p.buffer = []) := by
  have hheld : (if o.k.toNat = 3 then deliverable s .engines else countFault s o.k.toNat) = none := by
    split
    · next hk => exact hengines hk
    · by_cases hk : o.k.toNat < 2
      · exact hfault hk
      · simp [countFault, Nat.not_lt.mp hk]
  have hperformed : countDone (committedIf (decide (o.k.toNat < 2)) s) o.k.toNat o.n.toNat = true := by
    have hzero : ((o.k.toNat == 0 && o.n.toNat == 0) && writesPending (committedIf (decide (o.k.toNat < 2)) s)) = false := by
      by_cases hk : o.k = 0
      · by_cases hn : o.n = 0
        · rw [hwrites hk hn, Bool.and_false]
        · have : o.n.toNat ≠ 0 := fun e => hn (BitVec.eq_of_toNat_eq e)
          simp [this]
      · have : o.k.toNat ≠ 0 := fun e => hk (BitVec.eq_of_toNat_eq e)
        simp [this]
    rw [countDone, hzero, decide_eq_true hcount]
    rfl
  have hexec : exec (.waitCnt o) s = .next (waitCntEffect o s) := by
    show execWaitCnt o s = _
    rw [execWaitCnt, hheld]
    exact congrArg Host.Outcome.next h.issues
  refine ⟨_, hexec, ?_⟩
  have heffect : waitCntEffect o s = goesOn (committedIf (decide (o.k.toNat < 2)) s) := by
    have hregion : committedIf (decide (o.k.toNat < 2)) s = if o.k.toNat < 2 then commitRegion s else s := by
      by_cases hk : o.k.toNat < 2 <;> simp [hk, committedIf]
    rw [hregion] at hperformed ⊢
    rw [waitCntEffect]
    rw [hperformed, if_pos rfl]
    rfl
  rw [heffect]
  have hdone := goesOn_done (committedIf_room (b := decide (o.k.toNat < 2)) h.room) (committedIf_whole h.room h.whole)
  by_cases hk : o.k.toNat < 2
  · rw [decide_eq_true hk] at hdone ⊢
    have hempty : (committedIf true s).p.buffer = [] := commitRegion_buffer h.room
    have hleft : (goesOn (committedIf true s)).besides = (commitRegion s).besides ∧ (goesOn (committedIf true s)).p.buffer = [] :=
      ⟨hdone.besides_of_empty h.room.commit hempty, hdone.buffer_empty hempty⟩
    have hsplit := committedIf_split (b := true) h.room
    obtain ⟨hpc, hloops, hclock, hwait⟩ := hdone.retired hsplit.loops hsplit.status hsplit.clock
    refine ⟨⟨hpc, hloops, hclock, hwait, .inr hleft, fun a => ?_⟩, fun _ => hleft⟩
    rw [hdone.memory]
    exact (commitRegion_unwritten h.room).memory a
  · rw [decide_eq_false hk] at hdone ⊢
    exact ⟨hdone, fun hlt => absurd hlt hk⟩

/-- Settles O33: a fence and a count fall through from the state in which their region has committed. -/
theorem fencesAndCountsWaitThenComplete : Obligations.FencesAndCountsWaitThenComplete := by
  refine ⟨fun o s hlow hhigh hscope => ?fence, fun o s => ?count⟩
  case fence =>
    intro far commits c hperformed h
    have hfar : far = buffersFar o.mask s := by
      show s.p.buffer.any _ = s.p.buffer.any _
      congr 1
      funext b
      rw [bne_decide]
    have hcommits : commits = fenceCommits o s := by
      show (decide (o.kind ≠ 1) && (o.mask.getLsbD 0 || far)) = _
      rw [hfar, fenceCommits]
      rw [bne_decide]
    have hc : c = committedIf (fenceCommits o s) s := by
      show (if commits then commitRegion s else s) = _
      rw [hcommits]
      rfl
    rw [hc, show decide (o.kind = 1) = (o.kind == 1) from (beq_eq_decide ..).symm] at hperformed
    rw [hcommits]
    exact fence_completes hlow hhigh hscope h hperformed
  case count =>
    intro c hcount hwrites hfault hengines h
    have hc : c = committedIf (decide (o.k.toNat < 2)) s := by
      show (if o.k.toNat < 2 then commitRegion s else s) = _
      by_cases hk : o.k.toNat < 2 <;> simp [hk, committedIf]
    rw [hc] at hcount hwrites
    exact waitCnt_completes hcount hwrites hfault hengines h

end Sys2Proof.Machine
end

section
/-! PROOF. What an access sees of the device: the tables, the lines and the partitions but for their event counters, none of which the
end of a region or the retirement of an instruction changes (spec/05_memory_hierarchy.md R119 to R124). Windows (R237) and the return
from a trap (spec/17_fault_architecture.md R338). -/

namespace Sys2Proof.Machine

/-! ### What accesses see -/

/-- The device without the bookkeeping of regions, the wait of the split and the event counters. -/
def State.lasting (s : State) : State :=
  { s.sansEntry with p := { s.p.sansEntry with wait := .none }, parts := s.parts.map Partition.besides }

theorem lasting_congr {x y : State} (h : x.sansEntry = y.sansEntry) (hparts : x.parts.map Partition.besides = y.parts.map Partition.besides) :
    x.lasting = y.lasting := by
  have hp : x.p.sansEntry = y.p.sansEntry := congrArg State.p h
  rw [State.lasting, h, hp, hparts]
  rfl

theorem entered_lasting (f : Form) {s : State} (room : NoSpill s) : (entered f s).lasting = s.lasting :=
  lasting_congr (entered_sansEntry f room) (entered_parts f room)

/-- A field that neither the end of a region nor retiring an instruction changes. -/
theorem field_lasting {α : Type} (view : State → α) {x y : State} (hxy : x.lasting = y.lasting) (h : ∀ z, view z.lasting = view z) :
    view x = view y := by
  rw [← h x, hxy, h]

theorem partOf_lasting (s : State) (k : Nat) : partOf s.lasting k = (partOf s k).besides := by
  unfold partOf
  show (findFirst _ (s.parts.map Partition.besides)).getD _ = _
  induction s.parts with
  | nil => rfl
  | cons q r ih =>
    rw [List.map_cons, findFirst, findFirst]
    by_cases hq : (q.id == k) = true
    · rw [if_pos hq, if_pos (show (q.besides.id == k) = true from hq)]
      rfl
    · rw [if_neg hq, if_neg (show ¬ (q.besides.id == k) = true from hq)]
      exact ih

theorem poolIndex_lasting (s : State) (part off : Nat) : poolIndex s.lasting part off = poolIndex s part off := by
  rw [poolIndex, poolIndex, partOf_lasting]
  rfl

theorem poolLeaf_lasting (s : State) (part b : Nat) : poolLeaf s.lasting part b = poolLeaf s part b := by
  rw [poolLeaf, poolLeaf, partOf_lasting]
  rfl

theorem walk_lasting (s : State) (part asid off : Nat) : walk s.lasting part asid off = walk s part asid off := by
  unfold walk
  simp only [poolIndex_lasting, poolLeaf_lasting]
  rfl

theorem pageInfo_lasting (s : State) (part asid : Nat) (va : Word) : pageInfo s.lasting part asid va = pageInfo s part asid va := by
  unfold pageInfo
  simp only [walk_lasting, partOf_lasting]
  rfl

theorem walkBad_lasting (s : State) (part asid off : Nat) : walkBad s.lasting part asid off = walkBad s part asid off := by
  unfold walkBad tablePath
  simp only [poolIndex_lasting]
  rfl

theorem hcAnswer_lasting (s : State) (part asid off : Nat) (r w dis : Bool) :
    hcAnswer s.lasting part asid off r w dis = hcAnswer s part asid off r w dis := by
  unfold hcAnswer frameMatches
  simp only [walkBad_lasting, walk_lasting, poolIndex_lasting]
  rfl

theorem admits_lasting (s : State) (part asid off : Nat) (w : Bool) : admits s.lasting part asid off w = admits s part asid off w := by
  unfold admits hcCheck
  simp only [hcAnswer_lasting]
  rfl

theorem admitsAll_lasting (s : State) (part asid : Nat) (w : Bool) (l : List (Nat × Nat)) :
    admitsAll s.lasting part asid w l = admitsAll s part asid w l := by
  induction l with
  | nil => rfl
  | cons e r ih =>
    obtain ⟨o, n⟩ := e
    rw [admitsAll, admitsAll, admits_lasting, ih]

theorem baseBytes_lasting (s : State) (part asid off n : Nat) : baseBytes s.lasting part asid off n = baseBytes s part asid off n := by
  unfold baseBytes
  simp only [walk_lasting]
  rfl

theorem devRead_lasting (s : State) (part asid off n : Nat) : devRead s.lasting part asid off n = devRead s part asid off n := by
  unfold devRead
  simp only [admitsAll_lasting, baseBytes_lasting]

/-! ### Windows (R237) -/

theorem pageInfo_entered (f : Form) {s : State} (room : NoSpill s) (part asid : Nat) (va : Word) :
    pageInfo (entered f s) part asid va = pageInfo s part asid va := by
  rw [← pageInfo_lasting, entered_lasting f room, pageInfo_lasting]

theorem openWindow_entered (f : Form) {s : State} (room : NoSpill s) (base : Word) : openWindow (entered f s) base = openWindow s base := by
  have hpart : (entered f s).g.part = s.g.part := field_entered (fun x => x.g.part) f room fun _ => rfl
  have hasid : (entered f s).g.asid = s.g.asid := field_entered (fun x => x.g.asid) f room fun _ => rfl
  simp only [openWindow, hpart, hasid, pageInfo_entered f room]

theorem setW_entered (f : Form) {s : State} (room : NoSpill s) (n : Nat) (w : Window) :
    setW n w (entered f s) = putRegs { regsOfState s with wins := mapSet Window.closed s.p.wins n w } (entered f s) := by
  rw [entered_eq f room, setW_putRegs, ← entered_eq f room]
  rfl

theorem winOpen_done {o : OpWa} {s : State} (ha : o.a.toNat < 64) (hwindow : isControl (getS s o.a.toNat) = false)
    (hnode : nodeOf (getS s o.a.toNat) = (curPart s).node) (h : Ready 4 [codeS o.a.toNat] [codeW o.w.toNat] s) :
    ∃ t, exec (.winOpen o) s = .next t ∧ Done 4 (setW o.w.toNat (openWindow s (getS s o.a.toNat)) s) t := by
  have hcheck : winOpenCheck s (getS s o.a.toNat) = .ok := by
    rw [winOpenCheck, hwindow, hnode, if_neg Bool.false_ne_true, if_neg (not_not.mpr rfl)]
  refine ⟨_, rfl, h.writes { regsOfState s with wins := mapSet Window.closed s.p.wins o.w.toNat (openWindow s (getS s o.a.toNat)) }
    (h.passes ⟨rfl, rfl⟩ ⟨rfl, rfl⟩ (by simp [sOk_of_lt ha]) (by simpa using h.sources) hcheck nofun (by simp) (Nat.le_refl _))
    (fun f => ?_) ⟨rfl, rfl, rfl, rfl, rfl, rfl, rfl⟩⟩
  rw [← setW_entered f h.room, getS_entered f h.room, openWindow_entered f h.room]

theorem winClose_done {o : OpW} {s : State} (h : Ready 4 [] [codeW o.w.toNat] s) :
    ∃ t, exec (.winClose o) s = .next t ∧ Done 4 (setW o.w.toNat { getW s o.w.toNat with valid := false } s) t := by
  refine ⟨_, rfl, h.writes { regsOfState s with wins := mapSet Window.closed s.p.wins o.w.toNat { getW s o.w.toNat with valid := false } }
    (h.passes ⟨rfl, rfl⟩ ⟨rfl, rfl⟩ rfl nofun rfl nofun (by simp) (Nat.le_refl _)) (fun f => ?_) ⟨rfl, rfl, rfl, rfl, rfl, rfl, rfl⟩⟩
  rw [← setW_entered f h.room, getW_entered f h.room]

/-- The node of an address outside the control space is all that lies above its offset. -/
theorem nodeOf_window {va : Word} (h : va.getLsbD 63 = false) : nodeOf va = va.toNat / 2 ^ 53 := by
  have hlt : va.toNat < 2 ^ 63 := by
    rw [BitVec.getLsbD, Nat.testBit_eq_decide_div_mod_eq] at h
    have := va.isLt
    have hbit : va.toNat / 2 ^ 63 % 2 ≠ 1 := of_decide_eq_false h
    omega
  rw [nodeOf, bits, Nat.mod_eq_of_lt (by omega)]

/-- Settles O23: the home gives the same of a page before and after the region of the instruction is entered. -/
theorem windowsOpenAndClose : Obligations.WindowsOpenAndClose := by
  refine ⟨fun o s ha hwindow hnode h => winOpen_done ha hwindow ?_ h, fun o s h => winClose_done h, fun s part asid va hmem haddr hnone => ?_⟩
  · exact (nodeOf_window hwindow).trans hnode
  · rw [pageInfo, hmem, if_neg Bool.false_ne_true, if_neg haddr, hnone]
    rfl

/-! ### rte (R338) -/

/-- The words of the state that a record saves. -/
def recordWord (bytes : List Byte) (j : Nat) : Word := BitVec.ofNat 64 (leNat ((bytes.drop (8 * j)).take 8))

def recordWords (bytes : List Byte) : List Word := (countFrom 0 8).map (recordWord bytes)

theorem getAt_recordWords (bytes : List Byte) {j : Nat} (hj : j < 8) : getAt 0 (recordWords bytes) j = recordWord bytes j := by
  interval_cases j <;> rfl

/-- The scalar registers with the words of a record in s58 to s63. -/
def restoredRegs (w : List Word) (m : SMap Word) : SMap Word :=
  (countFrom 0 6).foldl (fun m i => mapSet 0 m (58 + i) (getAt 0 w (2 + i))) m

theorem restoreS_foldl (w : List Word) (l : List Nat) (s : State) :
    ∃ st, l.foldl (fun s i => restoreS (58 + i) (getAt 0 w (2 + i)) s) s =
      { s with p := { s.p with sregs := l.foldl (fun m i => mapSet 0 m (58 + i) (getAt 0 w (2 + i))) s.p.sregs, sstate := st } } := by
  induction l generalizing s with
  | nil => exact ⟨_, rfl⟩
  | cons i r ih =>
    obtain ⟨st, h⟩ := ih (restoreS (58 + i) (getAt 0 w (2 + i)) s)
    exact ⟨st, h⟩

theorem mapGet_restoredRegs (w : List Word) (m : SMap Word) (n : Nat) :
    mapGet 0 (restoredRegs w m) n = if 58 ≤ n ∧ n < 64 then getAt 0 w (n - 56) else mapGet 0 m n := by
  show mapGet 0 (mapSet 0 (mapSet 0 (mapSet 0 (mapSet 0 (mapSet 0 (mapSet 0 m 58 _) 59 _) 60 _) 61 _) 62 _) 63 _) n = _
  simp only [mapGet_mapSet]
  by_cases h63 : n = 63
  · subst h63; rfl
  by_cases h62 : n = 62
  · subst h62; rfl
  by_cases h61 : n = 61
  · subst h61; rfl
  by_cases h60 : n = 60
  · subst h60; rfl
  by_cases h59 : n = 59
  · subst h59; rfl
  by_cases h58 : n = 58
  · subst h58; rfl
  · rw [if_neg h63, if_neg h62, if_neg h61, if_neg h60, if_neg h59, if_neg h58, if_neg (by omega)]

/-- The split with the state of its record, at EPC and outside the handler. -/
def restored (w : List Word) (st : SMap RegState) (s : State) : State :=
  { s with p := { s.p with
      sregs := restoredRegs w s.p.sregs, sstate := st
      mode := getAt 0 w 0 &&& 0x1FFFFFFFFFFFF#64
      exec := getAt 0 w 1 &&& s.p.members
      status := 0
      pc := s.p.epc
      redo := if s.p.epc = s.p.entryEpc then s.p.again else none
      again := none
      wait := .none } }

/-- A return reissues nothing of a trap of its kind, or goes elsewhere than the trap's instruction. -/
def ReissuesNone (q : Split) : Prop := ∀ kind, bits q.status.toNat 9 3 = kind → (kind = 1 ∨ kind = 4) → q.epc ≠ q.entryEpc

theorem returnFromTrap_restores {s : State} {w : List Word} (hw : savedWords s = .ok w) (hnone : ReissuesNone s.p) :
    ∃ st, returnFromTrap s = openRegion (resumeGang (restored w st s)) := by
  obtain ⟨st, hfold⟩ := restoreS_foldl w (countFrom 0 6) s
  have hload : ¬ (bits s.p.status.toNat 9 3 = 1 ∧ s.p.epc = s.p.entryEpc) := fun h => hnone 1 h.1 (.inl rfl) h.2
  have hremote : ¬ (bits s.p.status.toNat 9 3 = 4 ∧ s.p.epc = s.p.entryEpc) := fun h => hnone 4 h.1 (.inr rfl) h.2
  refine ⟨st, ?_⟩
  unfold returnFromTrap
  rw [hw]
  dsimp only
  rw [if_neg hload, if_neg hremote, hfold]
  rfl

/-- A split has come back from its handler with the words of its record, and goes on at EPC where a region opens. -/
structure ReturnsTo (w : List Word) (s t : State) : Prop where
  pc : t.p.pc = s.p.epc
  status : t.p.status = 0
  mode : t.p.mode = getAt 0 w 0 &&& 0x1FFFFFFFFFFFF#64
  exec : t.p.exec = getAt 0 w 1 &&& s.p.members
  scalars : t.p.sregs = restoredRegs w s.p.sregs
  clock : t.p.clock = s.p.clock
  members : t.p.members = s.p.members
  stack : t.p.rstack = s.p.rstack
  windows : t.p.wins = s.p.wins
  flags : t.p.fstat = s.p.fstat
  vectors : t.g.vregs = s.g.vregs
  predicates : t.g.preds = s.g.preds
  trapped : t.g.trapped = false
  wait : t.p.wait = .none
  entry : ∃ e, t.p.entry = some e ∧ e.pc = s.p.epc
  memory : t.mem = s.mem

/-- Two states with the same registers and bytes. -/
structure SeenAlike (y s : State) : Prop where
  split : ({ y.p.sansEntry with wait := .none } : Split) = { s.p.sansEntry with wait := .none }
  vectors : y.g.vregs = s.g.vregs
  predicates : y.g.preds = s.g.preds
  memory : y.mem = s.mem

theorem ReturnsTo.of_alike {w : List Word} {y s t : State} (h : ReturnsTo w y t) (hsame : SeenAlike y s) : ReturnsTo w s t := by
  have field : ∀ {α : Type} (view : Split → α), (∀ q : Split, view { q.sansEntry with wait := .none } = view q) → view y.p = view s.p :=
    fun view hview => by rw [← hview y.p, hsame.split, hview]
  have hepc := field Split.epc fun _ => rfl
  have hmembers := field Split.members fun _ => rfl
  obtain ⟨e, he, hpc⟩ := h.entry
  exact ⟨h.pc.trans hepc, h.status, h.mode, hmembers ▸ h.exec, field Split.sregs (fun _ => rfl) ▸ h.scalars,
    h.clock.trans (field Split.clock fun _ => rfl), h.members.trans hmembers, h.stack.trans (field Split.rstack fun _ => rfl),
    h.windows.trans (field Split.wins fun _ => rfl), h.flags.trans (field Split.fstat fun _ => rfl), h.vectors.trans hsame.vectors,
    h.predicates.trans hsame.predicates, h.trapped, h.wait, ⟨e, he, hpc.trans hepc⟩, h.memory.trans hsame.memory⟩

theorem restored_returns {w : List Word} {st : SMap RegState} {y : State} (room : NoSpill (resumeGang (restored w st y)))
    (hmembers : y.p.members ≠ 0) : ReturnsTo w y (openRegion (resumeGang (restored w st y))) := by
  have hs := openRegion_split room
  obtain ⟨k, c, q, hg⟩ := openRegion_gang room
  obtain ⟨-, -, -, e, he, hpc⟩ := openRegion_opens room (by rw [isPriv]; exact BitVec.getLsbD_zero) hmembers
  exact ⟨hs.pc, hs.status, hs.mode, hs.exec, hs.sregs, hs.clock, hs.members, hs.rstack, hs.wins, hs.fstat, by rw [hg]; rfl, by rw [hg]; rfl,
    by rw [hg]; rfl, hs.wait, ⟨e, he, hpc.trans hs.pc⟩, openRegion_mem room⟩

section

variable {s : State} {bytes : List Byte} (hpriv : isPriv s = true) (halign : s.p.epc.toNat % 4 = 0) (hempty : s.p.buffer = [])
  (hrecord : recordPending s = false) (hreadable : unreadable s s.g.part s.g.asid (offsetOf s.p.frec) 128 = false)
  (hbytes : devRead s s.g.part s.g.asid (offsetOf (s.p.frec + 64)) 64 = .ok bytes) (h : Ready 4 [] [] s)

include hpriv halign hrecord hreadable h in
theorem rte_returns : exec .rte s = .next (returnFromTrap (retired (commitRegion s))) := by
  have hcheck : (failIf (decide (s.p.epc.toNat % 4 ≠ 0)) 0x05).andThen
      (if recordPending s then .wait .record else readable s (offsetOf s.p.frec) 128) = .ok := by
    rw [hrecord, if_neg Bool.false_ne_true, readable, hreadable, halign]
    rfl
  have hissue := issue_ok (s := s) (f := { Form.plain (wordOf (encode .rte)) 4 with privileged := true, irrevocable := true })
    (check := fun s => (failIf (decide (s.p.epc.toNat % 4 ≠ 0)) 0x05).andThen
      (if recordPending s then .wait .record else readable s (offsetOf s.p.frec) 128))
    (effect := fun s => returnFromTrap (retired s)) (by simp [deliverable, hpriv, Form.plain]) h.quiet (fun _ => hpriv) nofun rfl nofun
    hcheck nofun h.clock nofun
  rw [entered_alone h.room rfl] at hissue
  exact congrArg Host.Outcome.next hissue

include h in
theorem retiredCommit_lasting : (retired (commitRegion s)).lasting = s.lasting := by
  obtain ⟨Q, hretired, hparts⟩ := retired_eq (commitRegion s)
  rw [← lasting_congr (commitRegion_sansEntry h.room) (commitRegion_parts h.room), hretired, State.lasting, State.lasting, ← hparts]
  rfl

include hbytes h in
theorem savedWords_retiredCommit : savedWords (retired (commitRegion s)) =
    .ok (recordWords bytes) := by
  have hlasting := retiredCommit_lasting h
  have hpart : (retired (commitRegion s)).g.part = s.g.part :=
    field_lasting (fun x => x.g.part) hlasting fun _ => rfl
  have hasid : (retired (commitRegion s)).g.asid = s.g.asid :=
    field_lasting (fun x => x.g.asid) hlasting fun _ => rfl
  have hfrec : (retired (commitRegion s)).p.frec = s.p.frec :=
    field_lasting (fun x => x.p.frec) hlasting fun _ => rfl
  have hread : ∀ part asid off n, devRead (retired (commitRegion s)) part asid off n = devRead s part asid off n :=
    fun part asid off n => field_lasting (fun x => devRead x part asid off n) hlasting fun z => devRead_lasting z part asid off n
  rw [savedWords, hpart, hasid, hfrec, hread, hbytes]
  rfl

include hempty h in
/-- A return that finds nothing held leaves room in the Cuff buffer. -/
theorem restored_room (w : List Word) (st : SMap RegState) : NoSpill (resumeGang (restored w st (retired (commitRegion s)))) := by
  obtain ⟨Q, hretired, -⟩ := retired_eq (commitRegion s)
  have hbuffer := commitRegion_buffer h.room
  have hcuff := commitRegion_cuff h.room fun _ => hempty
  rw [hretired]
  generalize commitRegion s = c at hbuffer hcuff
  refine h.room.of_empty ?_ hempty ?_
  · exact hbuffer
  · exact hcuff

include hpriv halign hempty hrecord hreadable hbytes h in
theorem rte_restores (hmembers : s.p.members ≠ 0) (hnone : ReissuesNone s.p) :
    ∃ t, exec .rte s = .next t ∧ ReturnsTo (recordWords bytes) s t := by
  have hlasting := retiredCommit_lasting h
  have keep : ∀ {α : Type} (view : State → α), (∀ z, view z.lasting = view z) → view (retired (commitRegion s)) = view s :=
    fun view hview => field_lasting view hlasting hview
  have hsame : SeenAlike (retired (commitRegion s)) s := by
    constructor
    case split => exact keep (fun x => { x.p.sansEntry with wait := .none }) fun _ => rfl
    case vectors => exact keep (fun x => x.g.vregs) fun _ => rfl
    case predicates => exact keep (fun x => x.g.preds) fun _ => rfl
    case memory => exact keep State.mem fun _ => rfl
  obtain ⟨st, hreturn⟩ := returnFromTrap_restores (savedWords_retiredCommit hbytes h)
    (show ReissuesNone (retired (commitRegion s)).p by
      rw [ReissuesNone, keep (fun x => x.p.epc) fun _ => rfl, keep (fun x => x.p.entryEpc) fun _ => rfl,
        keep (fun x => x.p.status) fun _ => rfl]
      exact hnone)
  refine ⟨_, rte_returns hpriv halign hrecord hreadable h, ?_⟩
  rw [hreturn]
  exact (restored_returns (restored_room hempty h _ st) (by rw [keep (fun x => x.p.members) fun _ => rfl]; exact hmembers)).of_alike hsame

end

/-- Settles O41: the record is read as it was before the region before the return committed. -/
theorem returnFromTrapRestoresTheRecord : Obligations.ReturnFromTrapRestoresTheRecord := by
  intro s bytes hpriv halign hempty hmembers hkind hrecord hreadable hbytes h
  have hnone : ReissuesNone s.p := fun kind hbits hload => by
    rw [bits] at hbits
    rcases hkind with hk | hk | hk | hk
    · omega
    · omega
    · omega
    · exact hk
  obtain ⟨t, ht, hr⟩ := rte_restores hpriv halign hempty hrecord hreadable hbytes h hmembers hnone
  refine ⟨t, ht, hr.pc, hr.status, hr.mode.trans (congrArg (· &&& 0x1FFFFFFFFFFFF#64) (getAt_recordWords bytes (by decide))),
    hr.exec.trans (congrArg (· &&& s.p.members) (getAt_recordWords bytes (by decide))), fun n => ?_, hr.clock, hr.members, hr.stack,
    hr.windows, hr.flags, hr.vectors, hr.predicates, hr.trapped, hr.wait, hr.entry, fun a => by rw [hr.memory]⟩
  rw [getS, hr.scalars, mapGet_restoredRegs]
  by_cases hn : 58 ≤ n ∧ n < 64
  · rw [if_pos hn, if_pos hn]
    exact getAt_recordWords bytes (by omega)
  · rw [if_neg hn, if_neg hn]
    rfl

end Sys2Proof.Machine
end

section
/-! PROOF. Engine waits (spec/12_isa_engines_system.md R265, R266; spec/03_logical_time.md R78; spec/04_consistency.md R95). -/

namespace Sys2Proof.Machine

/-- Room in the Cuff buffer depends on the members, the handler and the buffer of the split alone. -/
theorem NoSpill.of_split {s : State} (room : NoSpill s) {P : Split} (hmembers : P.members = s.p.members) (hstatus : P.status = s.p.status)
    (hafter : P.after = s.p.after) (hbuffer : P.buffer = s.p.buffer) : NoSpill { s with p := P } := by
  have hunseen : Unseen { P with buffer := [], entry := none, fresh := false, liveIn := [], written := [] }
      s.parts { s with p := { s.p with buffer := [], entry := none, fresh := false, liveIn := [], written := [] } } :=
    ⟨hmembers, hstatus, hafter, fun _ => rfl⟩
  obtain ⟨-, -, -, F, -, -, hblind⟩ := releaseAll_releases s.p.buffer
    { s with p := { s.p with buffer := [], entry := none, fresh := false, liveIn := [], written := [] } }
  have hsame : releaseRegion { s with p := P } = tweak { P with buffer := [], entry := none, fresh := false, liveIn := [], written := [] }
      s.g.vregs s.g.vstate s.g.preds s.g.serial (F s.parts) (releaseRegion s) := by
    have e := hblind _ s.g.vregs s.g.vstate s.g.preds s.g.serial _ hunseen
    rw [releaseRegion, hbuffer]
    exact e
  rw [NoSpill, hsame]
  exact room

/-! ### ewait (R266) -/

/-- What an `ewait` whose counter has fallen takes in before the split goes on. -/
def joinedState (k n upto : Nat) (s : State) : State :=
  if detNow s then { s with p := { s.p with lastTurn := optKeyMax s.p.lastTurn (latestKey (joined s k n upto)) } }
  else dropSelf s.g.core s

theorem ewaitDone_eq (k n upto : Nat) (s : State) : ewaitDone k n upto s = finish 4 (joinedState k n upto s) := rfl

section

variable {k n upto : Nat} {s : State}

theorem joinedState_det (h : detNow s = true) : joinedState k n upto s =
    { s with p := { s.p with lastTurn := optKeyMax s.p.lastTurn (latestKey (joined s k n upto)) } } := if_pos h

theorem joinedState_free (h : detNow s = false) : joinedState k n upto s = dropSelf s.g.core s := if_neg (by rw [h]; exact Bool.false_ne_true)

theorem joinedState_room (room : NoSpill s) : NoSpill (joinedState k n upto s) := by
  cases h : detNow s with
  | true =>
    rw [joinedState_det h]
    exact room.of_split rfl rfl rfl rfl
  | false =>
    rw [joinedState_free h]
    exact room.of_free (x := dropSelf s.g.core s) h h rfl

/-- The loops, the clock and the paths of the gang are as they were. -/
theorem joinedState_loops : SameLoops (joinedState k n upto s).p s.p ∧ (joinedState k n upto s).p.status = s.p.status ∧
    (joinedState k n upto s).p.clock = s.p.clock := by
  unfold joinedState
  split
  · exact ⟨⟨rfl, rfl, rfl, rfl, rfl, rfl, rfl⟩, rfl, rfl⟩
  · exact ⟨⟨rfl, rfl, rfl, rfl, rfl, rfl, rfl⟩, rfl, rfl⟩

theorem joinedState_rotates (h : NoRotation s) : NoRotation (joinedState k n upto s) := by
  unfold joinedState
  split
  · exact h
  · exact h

theorem joinedState_unwritten : Unwritten s (joinedState k n upto s) := by
  unfold joinedState
  split
  · exact ⟨rfl, rfl, ⟨rfl, rfl, rfl, rfl, rfl, rfl, rfl⟩, rfl, rfl, rfl, rfl, fun _ => rfl⟩
  · exact ⟨rfl, rfl, ⟨rfl, rfl, rfl, rfl, rfl, rfl, rfl⟩, rfl, rfl, rfl, rfl, fun _ => rfl⟩

theorem joinedState_regState (r : Nat) : regState (joinedState k n upto s) r = regState s r := by
  unfold joinedState
  split
  · rfl
  · rfl

end

theorem ewait_joins {o : OpEw} {s : State} (hpriv : isPriv s = false) (hquiet : deliverable s (.counter o.k.toNat) = none)
    (hcount : counterOf s s.g.id o.k.toNat ≤ o.n.toNat) (h : Ready 4 [] [] s) :
    exec (.ewait o) s = .next (finish 4 (joinedState o.k.toNat o.n.toNat (ewaitSince s) s)) := by
  have hissue := issue_ok (s := s) (f := { Form.plain (wordOf (encode (.ewait o))) 4 with barred := true })
    (check := fun s => if counterOf s s.g.id o.k.toNat ≤ o.n.toNat then .ok else .wait (.ewait o.k.toNat o.n.toNat (ewaitSince s)))
    (effect := fun s => ewaitDone o.k.toNat o.n.toNat (ewaitSince s) s) rfl h.quiet nofun (fun _ => hpriv) rfl nofun (if_pos hcount)
    nofun h.clock nofun
  rw [entered_self ⟨rfl, rfl⟩ rfl rfl, ewaitDone_eq] at hissue
  show execEwait o s = _
  rw [execEwait, hquiet]
  exact congrArg Host.Outcome.next hissue

theorem ewait_completes {o : OpEw} {s : State} (hpriv : isPriv s = false) (hquiet : deliverable s (.counter o.k.toNat) = none)
    (hwait : s.p.wait = .none) (hcount : counterOf s s.g.id o.k.toNat ≤ o.n.toNat) (h : Ready 4 [] [] s) :
    ∃ t, exec (.ewait o) s = .next t ∧ Retired 4 s t ∧ Unwritten s t ∧ (∀ r, regState t r = regState s r) ∧
      (detNow s = false → t.p.lastTurn = s.p.lastTurn ∧ NoSelfCopy s.g.core t) ∧
      (detNow s = true → t.p.lastTurn = optKeyMax s.p.lastTurn (latestKey (joined s o.k.toNat o.n.toNat s.nextId))) := by
  have hsince : ewaitSince s = s.nextId := by rw [ewaitSince, hwait]
  refine ⟨_, ewait_joins hpriv hquiet hcount h, ?_⟩
  rw [hsince]
  obtain ⟨hloops, hstatus, hclock⟩ := joinedState_loops (k := o.k.toNat) (n := o.n.toNat) (upto := s.nextId) (s := s)
  have hroom := joinedState_room (k := o.k.toNat) (n := o.n.toNat) (upto := s.nextId) h.room
  have hdone := finish_done 4 hroom fun hrep => joinedState_rotates (h.whole ((edges_congr hloops).repeats ▸ hrep))
  have hturn := hdone.rest.field (fun x => x.p.lastTurn) hroom (fun _ => rfl) fun _ => rfl
  refine ⟨hdone.retired hloops hstatus hclock, joinedState_unwritten.trans (hdone.unwritten hroom),
    fun r => (hdone.regState hroom r).trans (joinedState_regState r), fun hfree => ⟨?_, ?_⟩, fun hdet => ?_⟩
  · rw [hturn, joinedState_free hfree]
    rfl
  · refine NoSelfCopy.of_copies ?_ (hdone.rest.copies hroom)
    rw [joinedState_free hfree]
    exact dropSelf_none _ _
  · rw [hturn, joinedState_det hdet]

/-! ### epoll (R266) -/

theorem curView_entered (f : Form) {s : State} (room : NoSpill s) : curView (entered f s) = curView s := by
  have hturn : (entered f s).p.lastTurn = s.p.lastTurn := (entered_split f room).lastTurn
  rw [curView, curView, viewOf, viewOf, hturn, clock_entered f room]
  have e := congrArg (fun l : Launch => key3 ((quantumIndex l s.p.clock.toNat - l.lag) * l.quantum) 0 0) (curLaunch_entered f room)
  exact congrArg (keyMaxOpt · _) e

theorem pollCount_entered (f : Form) {s : State} (room : NoSpill s) (k : Nat) : pollCount (entered f s) k = pollCount s k := by
  have hcmds : (entered f s).cmds = s.cmds := field_entered State.cmds f room fun _ => rfl
  have hid : (entered f s).g.id = s.g.id := field_entered (fun x => x.g.id) f room fun _ => rfl
  simp only [pollCount, counterOf, detNow_entered f room, curView_entered f room, hcmds, hid]

theorem epoll_done {o : OpE} {s : State} (hquiet : deliverable s (.counter o.k.toNat) = none)
    (hfloor : detNow s = true → keyLe (curView s) (curLaunch s).floor = true) (h : Ready 1 [] [codeS o.d.toNat] s) :
    ∃ t, exec (.epoll o) s = .next t ∧ Done 1 (setS o.d.toNat (BitVec.ofNat 64 (pollCount s o.k.toNat)) s) t := by
  have hcheck : (if detNow s && !keyLe (curView s) (curLaunch s).floor then Verdict.wait (.view (curView s) (some o.k.toNat)) else .ok) = .ok := by
    cases hdet : detNow s with
    | true => rw [hfloor hdet]; rfl
    | false => rfl
  have hexec : exec (.epoll o) s = .next (issue { Form.plain (wordOf (encode (.epoll o))) 1 with dsts := [codeS o.d.toNat] }
      (fun s => if detNow s && !keyLe (curView s) (curLaunch s).floor then .wait (.view (curView s) (some o.k.toNat)) else .ok)
      (fun s => finish 1 (setS o.d.toNat (BitVec.ofNat 64 (pollCount s o.k.toNat)) s)) s) := by
    show execEpoll o s = _
    rw [execEpoll, hquiet]
  refine ⟨_, hexec, h.writes ((regsOfState s).setS o.d.toNat (BitVec.ofNat 64 (pollCount s o.k.toNat)))
    (h.passes ⟨rfl, rfl⟩ ⟨rfl, rfl⟩ rfl nofun hcheck nofun (fun _ hc => hc) (Nat.le_refl _)) (fun f => ?_)
    ⟨rfl, rfl, rfl, rfl, rfl, rfl, rfl⟩⟩
  rw [← setS_entered f h.room, pollCount_entered f h.room]

/-- Settles O38: the state that an `ewait` goes on from is that of the split but for what it joins. -/
theorem engineWaitsJoinTheirCommands : Obligations.EngineWaitsJoinTheirCommands := by
  refine ⟨fun o s hpriv hquiet hwait hcount h => ewait_completes hpriv hquiet hwait hcount h, fun o s hquiet hfloor h => ?_⟩
  intro n
  have hn : n = pollCount s o.k.toNat := by
    show (if detNow s then _ else _) = _
    rw [pollCount]
    simp only [Bool.decide_and, beq_eq_decide, keyLe]
  rw [hn]
  exact epoll_done hquiet hfloor h

end Sys2Proof.Machine
end

section
/-! PROOF. The tiles of a block product (spec/12_isa_engines_system.md R271, R272). The table of block shapes gives 8 accumulator tiles to
shape 4, 256 × 512, and so does the model; O37 lists 4. -/

namespace Sys2Proof.Machine

-- The runs below are evaluated one after another, so that no more than one of them takes memory at a time.
set_option Elab.async false

open Sys2Proof.Rules

/-- A block product of shape 4, of one step along K. -/
def wideLoop : Instr := .mloop { d := 0, f := 16, k := 7 }

/-- A split whose scalar registers describe it; every operand lies in a page that may be read. -/
def wideBlock : State :=
  let s := placeGang State.reset
  { s with
    p := { s.p with sregs := [(4, 1), (5, 4)] }
    plb := [{ core := 0, part := 0, asid := 1, granule := 0, perm := 7, coh := 0 }] }

theorem wideBlock_full (c : Nat) : regState wideBlock c = .full := by
  unfold regState
  split
  · rfl
  · split
    · rfl
    · rfl

theorem wideBlock_ready (rd : List Nat) : ReadyAlone 9 rd [] wideBlock where
  sources c _ := wideBlock_full c
  dests c _ := wideBlock_full c
  clock := rfl
  room := by unfold NoSpill; decide +kernel
  quiet := rfl
  whole _ := .inl (by decide +kernel)
  undisturbed := rfl

/-- How many tiles the commands in the table take after an instruction. -/
def tilesAfter (i : Instr) (s : State) : List Nat :=
  match exec i s with
  | .next t => t.cmds.map Cmd.n
  | _ => []

theorem tilesAfter_eq {i : Instr} {s t : State} (h : exec i s = .next t) : tilesAfter i s = t.cmds.map Cmd.n := by
  rw [tilesAfter, h]

/-- Refutes O37: the command takes 8 tiles. -/
theorem not_engineCommandsEnterTheTable : ¬ Obligations.EngineCommandsEnterTheTable := by
  intro h
  obtain ⟨rs, o, hform, hcheck, hrel, hweight, htiles⟩ : ∃ rs o, engineForm wideBlock wideLoop = some (rs, o) ∧
      orderCheck o wideBlock = .ok ∧ o.rel = false ∧ engineWeight o = 9 ∧ o.n = 4 :=
    ⟨_, _, rfl, by decide +kernel, rfl, by decide +kernel, by decide +kernel⟩
  have hready : (if o.rel then ReadyTurn (engineWeight o) (rs.map codeS) [] wideBlock
      else ReadyAlone (engineWeight o) (rs.map codeS) [] wideBlock) := by
    rw [hrel, hweight, if_neg Bool.false_ne_true]
    exact wideBlock_ready _
  have hcoll : o.op = .coll → collRead (commitRegion wideBlock) o.desc ≠ .void := by
    intro hop
    cases hform
    cases hop
  obtain ⟨t, c, hexec, hordered, hdone⟩ := h wideLoop wideBlock rs o hform (by decide +kernel) (by decide +kernel) hcheck hcoll hready
  have hcmds : t.cmds.map Cmd.n = (commitRegion wideBlock).cmds.map Cmd.n ++ [c.n] := by
    have hempty := commitRegion_buffer (wideBlock_ready []).room
    have hroom := (wideBlock_ready []).room.commit.of_empty hempty hempty rfl
    rw [hdone.rest.field State.cmds hroom (fun _ => rfl) fun _ => rfl, List.map_append]
    rfl
  rw [hordered.tiles.2.2, htiles, ← tilesAfter_eq hexec] at hcmds
  exact absurd hcmds (by decide +kernel)

end Sys2Proof.Machine
end

section
/-! PROOF. Barriers (spec/11_isa_memory_sync.md R251; spec/03_logical_time.md R51). -/

namespace Sys2Proof.Machine

open Sys2Proof.Rules

/-! ### Arrival -/

/-- An instruction that opens no region by itself takes its effect where it passes every check. -/
theorem issue_unopened {f : Form} {check : State → Verdict} {effect : State → State} {s : State}
    (hheld : (if f.turn then deliverable s .turn else if f.irrevocable then deliverable s .irrevocable else none) = none)
    (hopens : opensHere f s = false) (hpriv : f.privileged = false) (hbarred : f.barred = true → isPriv s = false) (hbad : f.bad = none)
    (haddrs : f.addrs = []) (hcheck : check s = .ok) (hsrcs : f.srcs = []) (hclock : overflows (f.full s) s = false) (hdsts : f.dsts = []) :
    issue f check effect s = effect (entered f s) := by
  have hbarred' : (f.barred && isPriv s) = false := by
    cases hb : f.barred with
    | false => rfl
    | true => rw [hbarred hb]; rfl
  have hatOpening : ∀ go, atOpening f go s = go (enterRegion f s) := fun go => by rw [atOpening, hopens]; rfl
  unfold issue
  rw [hheld]
  simp only [hpriv, hbarred', hbad, haddrs, hcheck, hsrcs, hclock, hdsts, scanSources, List.map_nil, Bool.false_and, Bool.false_eq_true,
    if_false, hatOpening, entered, List.append_nil]

/-- A commit that follows a commit finds nothing to do. -/
theorem commitRegion_twice {s : State} (room : NoSpill s) : commitRegion (commitRegion s) = commitRegion s := by
  rw [commitRegion_eq room.commit]
  exact releaseRegion_released (commitRegion_p room)

/-- What a split did before a barrier has performed (R93). -/
def Settled (s c : State) : Prop := ∀ q ∈ c.reqs, q.gang = s.g.id → q.lanes &&& s.p.members ≠ 0 → q.cls = 0 →
  q.settled = true ∨ ((curLaunch s).det = true ∧ q.aperture = false)

theorem settledBefore_of {s c : State} (h : Settled s c) (hid : c.g.id = s.g.id) (hmembers : c.p.members = s.p.members)
    (hdet : (curLaunch c).det = (curLaunch s).det) : settledBefore c (c.g, c.p) = true := by
  rw [settledBefore, Bool.not_eq_true', List.any_eq_false]
  intro q hq hbusy
  simp only [Bool.and_eq_true, beq_iff_eq, Bool.not_eq_true', Bool.or_eq_true] at hbusy
  obtain ⟨⟨⟨⟨hgang, hmeets⟩, hcls⟩, hsettled⟩, hfar⟩ := hbusy
  have hlanes : q.lanes &&& s.p.members ≠ 0 := by
    rw [← hmembers]
    simpa [meets] using hmeets
  change (curLaunch c).det = false ∨ q.aperture = true at hfar
  rcases h q hq (hgang.trans hid) hlanes hcls with hdone | ⟨hd, ha⟩
  · rw [hdone] at hsettled
    exact Bool.noConfusion hsettled
  · rw [hdet, hd, ha] at hfar
    exact hfar.elim (fun e => Bool.noConfusion e) fun e => Bool.noConfusion e

theorem getAt_setAt (l : List Nat) (i k v : Nat) (hi : i < l.length) : (setAt l i v).getD k 0 = if k = i then v else l.getD k 0 := by
  induction l generalizing i k with
  | nil => exact absurd hi (Nat.not_lt_zero _)
  | cons a r ih =>
    cases i with
    | zero => cases k <;> rfl
    | succ i =>
      cases k with
      | zero => rfl
      | succ k =>
        have := ih i k (Nat.lt_of_succ_lt_succ hi)
        simpa [setAt] using this

/-- What an arrival leaves: the split waits, its count of the kind is one more, and no region is open. -/
structure Arrived (k : BarrierKind) (s t : State) : Prop where
  unwritten : Unwritten s t
  pc : t.p.pc = s.p.pc
  clock : t.p.clock = s.p.clock
  entry : t.p.entry = none
  buffer : t.p.buffer = []
  wait : t.p.wait = .barrier k (t.p.arrivals.getD (barrierNumber k) 0)
  count : t.p.arrivals.getD (barrierNumber k) 0 = s.p.arrivals.getD (barrierNumber k) 0 + 1
  others : ∀ j, j ≠ barrierNumber k → t.p.arrivals.getD j 0 = s.p.arrivals.getD j 0

theorem getAt_eq_getD {α : Type} (d : α) (l : List α) (i : Nat) : getAt d l i = l.getD i d := by
  induction l generalizing i with
  | nil => rfl
  | cons a r ih =>
    cases i with
    | zero => rfl
    | succ i => exact (ih i).trans (by simp)

/-- A split with no region open arrives. -/
theorem arrive_of {s c : State} (k : BarrierKind) (hs : SameSplit c.p s.p) (hunwritten : Unwritten s c) (hentry : c.p.entry = none)
    (hbuffer : c.p.buffer = []) (hlength : s.p.arrivals.length = 3) : Arrived k s (arrive k c) := by
  have hindex : barrierIndex k = barrierNumber k := by cases k <;> rfl
  have hlt : barrierNumber k < c.p.arrivals.length := by
    rw [hs.arrivals, hlength]
    cases k <;> decide
  have hcount : ∀ j, (arrive k c).p.arrivals.getD j 0 =
      if j = barrierNumber k then s.p.arrivals.getD (barrierNumber k) 0 + 1 else s.p.arrivals.getD j 0 := by
    intro j
    show (setAt c.p.arrivals (barrierIndex k) (getAt 0 c.p.arrivals (barrierIndex k) + 1)).getD j 0 = _
    rw [hindex, getAt_setAt _ _ _ _ hlt, hs.arrivals, getAt_eq_getD]
  obtain ⟨hscalars, hwindows, hspecial, hstack, hmembers, hvectors, hpredicates, hmemory⟩ := hunwritten
  have hone := (hcount (barrierNumber k)).trans (if_pos rfl)
  have hwait : (arrive k c).p.wait = .barrier k (getAt 0 c.p.arrivals (barrierIndex k) + 1) := rfl
  refine ⟨⟨hscalars, hwindows, hspecial, hstack, hmembers, hvectors, hpredicates, hmemory⟩, hs.pc, hs.clock, hentry, hbuffer,
    ?_, hone, fun j hj => (hcount j).trans (if_neg hj)⟩
  rw [hwait, hone, hindex, hs.arrivals, getAt_eq_getD]

theorem arrive_arrived (k : BarrierKind) {s : State} (room : NoSpill s) (hlength : s.p.arrivals.length = 3) :
    Arrived k s (arrive k (commitRegion s)) :=
  arrive_of k (commitRegion_split room) (commitRegion_unwritten room) (by rw [commitRegion_p room]) (commitRegion_buffer room) hlength

section

variable {s : State} (room : NoSpill s)

include room in
theorem commit_settles (h : Settled s (commitRegion s)) : settledBefore (commitRegion s) ((commitRegion s).g, (commitRegion s).p) = true :=
  settledBefore_of h (field_commit (fun x => x.g.id) room fun _ => rfl) (commitRegion_split room).members
    (by rw [← entered_alone (f := haltForm s) room rfl, det_entered _ room])

include room in
theorem arriveThen_arrives (k : BarrierKind) (go : State → State) (h : Settled s (commitRegion s)) :
    arriveThen k go s = go (arrive k (commitRegion s)) := by
  rw [arriveThen, commit_settles room h, if_pos rfl]

theorem barrierIssue_eq {f : Form} {check : State → Verdict} {effect : State → State}
    (h : (curLaunch s).det = false → deliverable s .irrevocable = none) : barrierIssue f check effect s = issue f check effect s := by
  rw [barrierIssue]
  cases hdet : (curLaunch s).det with
  | true => rfl
  | false => rw [if_neg Bool.false_ne_true, h hdet]

theorem overflows_zero : overflows 0 s = false := by
  simp only [overflows, Bool.and_eq_false_iff, decide_eq_false_iff_not]
  right
  have := s.p.clock.isLt
  omega

end

/-- The split at issue arrives at a barrier of its gang's workgroup or cluster group. -/
theorem barrierEffect_arrives {s : State} {word : BitVec 32} {check : State → Verdict} (k : BarrierKind) (hpriv : isPriv s = false)
    (hquiet : (curLaunch s).det = false → deliverable s .irrevocable = none) (hcheck : check s = .ok) (room : NoSpill s)
    (h : Settled s (commitRegion s)) :
    barrierIssue { Form.plain word 0 with barred := true, back := fun _ => 0 } check (barrierEffect k) s = arrive k (commitRegion s) := by
  refine (barrierIssue_eq hquiet).trans ?_
  refine (issue_unopened rfl rfl rfl (fun _ => hpriv) rfl rfl hcheck rfl ?_ rfl).trans ?_
  · exact overflows_zero
  · rw [entered_self ⟨rfl, rfl⟩ rfl rfl, barrierEffect, arriveThen_arrives room k _ h]

theorem Settled.congr {x y c : State} (hid : y.g.id = x.g.id) (hmembers : y.p.members = x.p.members)
    (hdet : (curLaunch y).det = (curLaunch x).det) (h : Settled x c) : Settled y c := by
  rw [Settled, hid, hmembers, hdet]
  exact h

theorem Settled.commit {s c : State} (room : NoSpill s) (h : Settled s c) : Settled (commitRegion s) c :=
  h.congr (field_commit (fun x => x.g.id) room fun _ => rfl) (commitRegion_split room).members
    (by rw [← entered_alone (f := haltForm s) room rfl, det_entered _ room])

/-- A split that waits at a barrier rotates where it did. -/
theorem noRotation_arrive {s : State} (h : NoRotation s) (k : BarrierKind) : NoRotation (arrive k s) := by
  have hrot : rotatable (arrive k s) = rotatable s := by
    unfold rotatable
    rfl
  rw [NoRotation, hrot]
  exact h

/-- A barrier of a free launch is arrived at by the split whole: no slice rotates. -/
theorem barGPerform_arrives {s : State} (hfree : detNow s = false) (room : NoSpill s) (hrot : NoRotation s) (h : Settled s (commitRegion s)) :
    barGPerform (commitRegion s) = arrive .launch (commitRegion s) := by
  have hfree' : detNow (commitRegion s) = false := (detNow_commit room).trans hfree
  have hrotates : NoRotation (arrive .launch (commitRegion s)) := noRotation_arrive (noRotation_commit room hrot) .launch
  have hsettled : Settled (commitRegion s) (commitRegion (commitRegion s)) := by
    rw [commitRegion_twice room]
    exact h.commit room
  rw [barGPerform, hfree', if_neg Bool.false_ne_true, arriveThen_arrives room.commit .launch rotate hsettled, commitRegion_twice room,
    rotate_none hrotates]

/-- The split at issue arrives at a barrier of a free launch. -/
theorem barG_arrives {s : State} (hpriv : isPriv s = false) (hfree : detNow s = false) (hquiet : deliverable s .irrevocable = none)
    (hturn : deliverable s .turn = none) (hunits : (curLaunch s).nunit ≤ (curLaunch s).conc) (room : NoSpill s) (hrot : NoRotation s)
    (h : Settled s (commitRegion s)) : exec .barG s = .next (arrive .launch (commitRegion s)) := by
  have hcheck : failIf (decide ((curLaunch s).conc < (curLaunch s).nunit)) 0x0B = .ok := if_neg (by simpa using hunits)
  have hfree' : detNow (commitRegion s) = false := (detNow_commit room).trans hfree
  have hperform := barGPerform_arrives hfree room hrot h
  refine congrArg Host.Outcome.next ?_
  refine (barrierIssue_eq fun _ => hquiet).trans ?_
  refine (issue_unopened ?_ rfl rfl (fun _ => hpriv) rfl rfl hcheck rfl ?_ rfl).trans ?_
  · exact hturn
  · exact overflows_zero
  · rw [entered_alone room rfl]
    simp only [takePublishing, takeTurn, hfree', Bool.false_and, Bool.false_eq_true, if_false]
    exact hperform

theorem barrier_arrives {e : Instr × BarrierKind × (Launch → Prop)} (he : e ∈ barriers) {s : State} (hpriv : isPriv s = false)
    (hrot : NoRotation s) (hlaunch : e.2.2 (curLaunch s)) (hdet : detNow s = true → e.2.1 ≠ .launch)
    (hfree : detNow s = false → deliverable s .irrevocable = none ∧ deliverable s .turn = none) (room : NoSpill s)
    (h : Settled s (commitRegion s)) : exec e.1 s = .next (arrive e.2.1 (commitRegion s)) := by
  have hquiet : (curLaunch s).det = false → deliverable s .irrevocable = none := fun hd => (hfree (by rw [detNow, hd]; rfl)).1
  simp only [barriers, List.mem_cons, List.not_mem_nil, or_false] at he
  rcases he with rfl | rfl | rfl
  · exact congrArg Host.Outcome.next (barrierEffect_arrives .wg hpriv hquiet rfl room h)
  · refine congrArg Host.Outcome.next (barrierEffect_arrives .cluster hpriv hquiet ?_ room h)
    rw [show (curLaunch s).cg = true from hlaunch]
    rfl
  · have hnow : detNow s = false := by
      cases hd : detNow s with
      | false => rfl
      | true => exact absurd rfl (hdet hd)
    exact barG_arrives hpriv hnow (hfree hnow).1 (hfree hnow).2 hlaunch room hrot h

/-! ### BARRIER_COMPLETE -/

section

variable {s : State} {j : Nat} {b : BarrierRef} (hb : b = { kind := .wg, launch := s.g.launch, unit := s.g.unit, wg := s.g.wg })
  (hpriv : isPriv s = false) (hwait : s.p.wait = .barrier .wg j) (hempty : s.p.buffer = []) (halone : participants s b = [(s.g, s.p)])
  (hsettled : Settled s s) (hclock : s.p.clock.toNat + 4 + (edges s).count < 2 ^ 64)

include hb hwait halone hsettled in
theorem barrierReady_alone : barrierReady s b = true := by
  subst hb
  have harrived : arrivedAt .wg s.p = some j := by rw [arrivedAt, hwait]; rfl
  rw [barrierReady, halone]
  simp only [harrived, List.all_cons, List.all_nil, settledBefore_of hsettled rfl rfl rfl]
  rfl

include hb halone hclock in
/-- The split leaves at its clock plus 4. -/
theorem completeBarrier_alone : completeBarrier b 0 none s =
    leaveBarrier b (maxClock [(s.g, s.p)]) (optKeyMax none (maxArrival (curLaunch s) [(s.g, s.p)])) s := by
  subst hb
  have hmax : max 0 (maxClock [(s.g, s.p)]) = s.p.clock.toNat := by simp [maxClock]
  have hfits : ([(s.g, s.p)].any fun e => decide (2 ^ 64 ≤ max 0 (maxClock [(s.g, s.p)]) + 4 + edgesAt e.2)) = false := by
    rw [hmax]
    simp only [List.any_cons, List.any_nil, Bool.or_false, decide_eq_false_iff_not, not_le]
    exact hclock
  unfold completeBarrier
  rw [halone]
  dsimp only
  rw [hfits, if_neg Bool.false_ne_true, show acrossMembers (launchOf s s.g.launch) .wg = false from decide_eq_false (fun h => nomatch h.1),
    if_neg Bool.false_ne_true, decide_eq_true rfl, Bool.or_true, if_pos rfl, List.foldl_cons, List.foldl_nil, withPath]
  rw [show gangOf s s.g.id = some s.g from if_pos rfl]
  dsimp only
  rw [if_pos (.inl ⟨rfl, rfl⟩), withSplit, if_pos ⟨rfl, rfl⟩, Nat.zero_max]
  rfl

include hpriv hb in
/-- A split that leaves a barrier of its workgroup retires an instruction of weight 4. -/
theorem leaveBarrier_eq (last : Option Key) : leaveBarrier b s.p.clock.toNat last s =
    finishAlone 4 { s with p := { s.p with wait := .none } } := by
  subst hb
  have hclock : BitVec.ofNat 64 (s.p.clock.toNat + 4) = clockAfter 4 { s with p := { s.p with wait := .none } } := by
    have hnow : isPriv { s with p := { s.p with wait := .none } } = false := hpriv
    rw [clockAfter, hnow, if_neg Bool.false_ne_true, BitVec.ofNat_add, BitVec.ofNat_toNat, BitVec.setWidth_eq]
  rw [leaveBarrier, finishAlone, finish, addClock_eq, hclock]
  dsimp only
  rw [Bool.and_eq_false_iff.mpr (.inr (decide_eq_false (fun h => nomatch h))), if_neg Bool.false_ne_true]
  rfl

include hb hpriv hwait hempty halone hsettled hclock in
theorem barrierComplete_done (harg : s.arg = .barrier b) (hrot : NoRotation s) (room : NoSpill s) :
    ∃ t, exec .barrierComplete s = .next t ∧ Done 4 { s with p := { s.p with wait := .none } } t := by
  have hacross : acrossMembers (launchOf s b.launch) b.kind = false := by
    subst hb
    exact decide_eq_false (fun h => nomatch h.1)
  have hcomplete : completeBarrier b 0 none s = finishAlone 4 { s with p := { s.p with wait := .none } } := by
    rw [completeBarrier_alone hb halone hclock, show maxClock [(s.g, s.p)] = s.p.clock.toNat by simp [maxClock], leaveBarrier_eq hb hpriv]
  have hmove : execBarrierComplete s = .next (completeBarrier b 0 none s) := by
    rw [execBarrierComplete, harg]
    dsimp only
    rw [barrierReady_alone hb hwait halone hsettled, hacross]
    exact congrArg Host.Outcome.next (if_pos rfl)
  have hexec : exec .barrierComplete s = .next (finishAlone 4 { s with p := { s.p with wait := .none } }) :=
    hmove.trans (congrArg Host.Outcome.next hcomplete)
  exact ⟨_, hexec, finishAlone_done (room.of_split rfl rfl rfl rfl) hempty fun _ => hrot⟩

end

/-- Settles O34: a commit leaves what the split waits for, and leaving a barrier is an instruction that retires. -/
theorem barriersArriveAndComplete : Obligations.BarriersArriveAndComplete := by
  refine ⟨fun e he s hpriv hlength hrot hlaunch hdet hfree room hsettled => ?_, fun s j => ?_⟩
  · obtain ⟨hunwritten, hpc, hclock, hentry, hbuffer, hwait, hcount, hothers⟩ := arrive_arrived e.2.1 room hlength
    exact ⟨_, barrier_arrives he hpriv hrot hlaunch hdet hfree room hsettled, hunwritten, hpc, hclock, hentry, hbuffer, hwait, hcount, hothers⟩
  · intro b hpriv hwait hempty halone harg hsettled hclock hrot room
    exact barrierComplete_done (j := j) (b := b) rfl hpriv hwait hempty halone hsettled hclock harg hrot room

end Sys2Proof.Machine
end

section
/-! PROOF. Traps (spec/17_fault_architecture.md R336, R344, R347; spec/18_instruction_exceptions.md R363; O40). -/

namespace Sys2Proof.Machine
open Host Sys2Proof.Rules

/-! ### What a commit leaves alone, spills and all (R39, R67) -/

/-- The device without what the stores of a region change as they leave, and at the homes that serve them. -/
def State.sansStores (s : State) : State := { s.sansHome.sansRelease with parts := s.parts.map Partition.besides }

theorem sansStores_of_sansHome {s t : State} (h : t.sansHome = s.sansHome) : t.sansStores = s.sansStores :=
  congrArg (fun x : State => { x.sansRelease with parts := x.parts }) h

theorem releaseAll_sansStores (l : List BufStore) : Keeps State.sansStores (releaseAll l) := by
  intro s
  have hrest := releaseAll_release l s
  obtain ⟨-, -, -, F, hF, hparts, -⟩ := releaseAll_releases l s
  have hbesides : (releaseAll l s).parts.map Partition.besides = s.parts.map Partition.besides := by rw [hparts, hF]
  calc (releaseAll l s).sansStores
      = { (releaseAll l s).sansRelease.sansHome with parts := (releaseAll l s).parts.map Partition.besides } := rfl
    _ = s.sansStores := by rw [hrest, hbesides]; rfl

theorem spillLog_sansStores : Keeps State.sansStores spillLog := by
  intro s
  unfold spillLog
  split
  · rfl
  · split
    · rfl
    · exact (sansStores_of_sansHome (spillWrite_atHomes _ _ _)).trans rfl

theorem spillOver_sansStores : Keeps State.sansStores spillOver := fun s =>
  Keeps.foldl (f := fun s (_ : Nat) => spillLog s) (fun _ => spillLog_sansStores) _ s

/-- The split of which no region is open. -/
def Split.closed (q : Split) : Split := { q with buffer := [], entry := none, fresh := false, liveIn := [], written := [] }

theorem commitRegion_sansStores (s : State) : (commitRegion s).sansStores = { s.sansStores with p := s.p.closed } :=
  (spillOver_sansStores _).trans (releaseAll_sansStores _ _)

theorem commitRegion_closed (s : State) : (commitRegion s).p = s.p.closed := by
  have e := congrArg State.p (commitRegion_sansStores s)
  exact e

/-! ### A commit leaves no more on chip than fits (R67) -/

theorem onChip_cons (e : CuffEntry) (c : List CuffEntry) : onChip (e :: c) = if e.log.isNone then e :: onChip c else onChip c :=
  List.filter_cons

/-- An entry before others that move to the log. -/
theorem onChip_logged_cons (p : CuffEntry → Bool) (j : Nat) (a : CuffEntry) (c : List CuffEntry) :
    onChip (updateWhere p (fun x => { x with log := some j }) (a :: c)) =
      if p a = false ∧ a.log.isNone = true then a :: onChip (updateWhere p (fun x => { x with log := some j }) c)
      else onChip (updateWhere p (fun x => { x with log := some j }) c) := by
  rw [updateWhere, onChip_cons]
  cases p a <;> simp

theorem onChip_logged_le (p : CuffEntry → Bool) (j : Nat) (c : List CuffEntry) :
    (onChip (updateWhere p (fun x => { x with log := some j }) c)).length ≤ (onChip c).length := by
  induction c with
  | nil => exact Nat.le_refl _
  | cons a r ih =>
    rw [onChip_logged_cons, onChip_cons]
    cases p a <;> cases a.log.isNone <;> simp <;> omega

/-- An entry that moves to the log leaves the chip. -/
theorem onChip_logged_lt {p : CuffEntry → Bool} {e : CuffEntry} (j : Nat) {c : List CuffEntry} (he : e ∈ onChip c) (hp : p e = true) :
    (onChip (updateWhere p (fun x => { x with log := some j }) c)).length < (onChip c).length := by
  obtain ⟨hmem, hnone⟩ := List.mem_filter.mp he
  clear he
  induction hmem with
  | head r =>
    have := onChip_logged_le p j r
    rw [onChip_logged_cons, onChip_cons]
    simp [hp, hnone]
    omega
  | tail a _ ih =>
    rw [onChip_logged_cons, onChip_cons]
    cases p a <;> cases a.log.isNone <;> simp <;> omega

theorem leastBy_mem {α : Type} (lt : α → α → Bool) (l : List α) : ∀ x, leastBy lt l = some x → x ∈ l := by
  induction l with
  | nil => exact fun x (h : none = some x) => nomatch h
  | cons a r ih =>
    intro x h
    rw [leastBy] at h
    cases hr : leastBy lt r with
    | none =>
      rw [hr] at h
      exact (Option.some.inj h) ▸ List.mem_cons_self
    | some b =>
      rw [hr] at h
      dsimp only at h
      split at h
      · exact (Option.some.inj h) ▸ List.mem_cons_of_mem _ (ih b hr)
      · exact (Option.some.inj h) ▸ List.mem_cons_self

theorem eq_nil_of_leastBy_none {α : Type} (lt : α → α → Bool) {l : List α} (h : leastBy lt l = none) : l = [] := by
  cases l with
  | nil => rfl
  | cons a r =>
    rw [leastBy] at h
    cases hr : leastBy lt r with
    | none => simp [hr] at h
    | some b =>
      rw [hr] at h
      dsimp only at h
      split at h <;> exact nomatch h

theorem spillLog_onChip (s : State) :
    (onChip (spillLog s).g.cuff).length ≤ max Config.cuffEntries ((onChip s.g.cuff).length - 1) := by
  rw [spillLog]
  split
  · next hfits => exact le_max_of_le_left hfits
  · next hfull =>
    split
    · next hnone =>
      rw [eq_nil_of_leastBy_none _ hnone] at hfull
      exact absurd (Nat.zero_le _) hfull
    · next e he =>
      rw [(spillWrite_atHomes _ _).g]
      have hlt := onChip_logged_lt (p := fun x => x.order == e.order) (freeLogSlot s.g) (leastBy_mem _ _ e he) (beq_self_eq_true _)
      exact le_max_of_le_right (Nat.le_sub_one_of_lt hlt)

theorem spillLogs_onChip (l : List Nat) (s : State) :
    (onChip (l.foldl (fun s _ => spillLog s) s).g.cuff).length ≤ max Config.cuffEntries ((onChip s.g.cuff).length - l.length) := by
  induction l generalizing s with
  | nil => exact le_max_right _ _
  | cons a r ih =>
    have hone := spillLog_onChip s
    have hrest := ih (spillLog s)
    rw [List.foldl_cons, List.length_cons]
    omega

theorem commitRegion_onChip (s : State) : (onChip (commitRegion s).g.cuff).length ≤ Config.cuffEntries := by
  have h := spillLogs_onChip (List.range ((onChip (releaseRegion s).g.cuff).length - Config.cuffEntries)) (releaseRegion s)
  rw [List.length_range] at h
  exact h.trans (by omega)

/-- A commit that follows a commit finds nothing to do, whatever spilled. -/
theorem commitRegion_idem (s : State) : commitRegion (commitRegion s) = commitRegion s := by
  have hreleased : releaseRegion (commitRegion s) = commitRegion s := releaseRegion_released (commitRegion_closed s)
  have room : NoSpill (commitRegion s) := by
    rw [NoSpill, hreleased]
    exact commitRegion_onChip s
  rw [commitRegion_eq room, hreleased]

theorem gang_of_sansCuff {x y : Gang} (h : { x with cuff := [], cuffSeq := 0 } = { y with cuff := [], cuffSeq := 0 }) :
    ∃ k q, x = { y with cuff := k, cuffSeq := q } :=
  ⟨x.cuff, x.cuffSeq, congrArg (fun g : Gang => { g with cuff := x.cuff, cuffSeq := x.cuffSeq }) h⟩

theorem commitRegion_gang (s : State) : ∃ k q, (commitRegion s).g = { s.g with cuff := k, cuffSeq := q } := by
  have e := congrArg State.g (commitRegion_sansStores s)
  exact gang_of_sansCuff e

/-! ### What is recorded of a trap (R344) -/

theorem recordTail_commit (s : State) : recordTail (commitRegion s) = recordTail s := by
  have e := congrArg (fun q => recordTail { s with p := q }) (commitRegion_closed s)
  exact e

theorem partyOf_commit (s : State) : partyOf (commitRegion s).g = partyOf s.g := by
  obtain ⟨k, q, hg⟩ := commitRegion_gang s
  rw [hg]
  rfl

theorem softTrap_commit (s : State) (cause : BitVec 8) (n : Nat) (word : BitVec 32) :
    softTrap (commitRegion s) cause n word = softTrap s cause n word := by
  have e := congrArg (fun q => softTrap { s with p := q } cause n word) (commitRegion_closed s)
  exact e

theorem record_of_softTrap (s : State) (cause : BitVec 8) (n : Nat) (word : BitVec 32) :
    recordHead (softTrap s cause n word) (partyOf s.g) ++ recordTail s = faultRecord 0 cause 0 0 0 n word s := by
  simp [recordHead, recordTail, faultRecord, softTrap, partyOf, countFrom, bit]

/-- A precise trap that names no address is a trap of its own cause. -/
theorem preciseTrap_failOf (cause : BitVec 8) (word : BitVec 32) (s : State) :
    preciseTrap (failOf cause) word s = enterTrap (softTrap s cause 0 word) s.p.pc s := rfl

/-! ### Entry (R336) -/

theorem curPart_besides {x y : State} (h : x.parts.map Partition.besides = y.parts.map Partition.besides) (hpart : x.g.part = y.g.part) :
    (curPart x).besides = (curPart y).besides := by
  rw [curPart, curPart, ← partOf_lasting, ← partOf_lasting, hpart]
  exact congrArg (fun l => (findFirst (fun q : Partition => q.id == y.g.part) l).getD Partition.vacant) h

theorem tvec_commit (s : State) : (curPart (commitRegion s)).tvec = (curPart s).tvec := by
  obtain ⟨k, q, hg⟩ := commitRegion_gang s
  have hparts := congrArg State.parts (commitRegion_sansStores s)
  have e := congrArg Partition.tvec (curPart_besides hparts (by rw [hg]))
  exact e

theorem hasHandler_of_tvec {x y : State} (h : HasHandler x) (e : (curPart y).tvec = (curPart x).tvec) : HasHandler y := by
  rw [HasHandler, e]
  exact h

theorem isPriv_commit (s : State) : isPriv (commitRegion s) = isPriv s := by
  rw [isPriv, commitRegion_closed]
  rfl

theorem takeSlice_ctx (j : Nat) (g : Gang) : (takeSlice j g).ctx = g.ctx := by
  unfold takeSlice
  split <;> rfl

theorem reclaimSlices_ctx (m : BitVec 64) (js : List Nat) (g : Gang) : (reclaimSlices m js g).ctx = g.ctx := by
  induction js generalizing g with
  | nil => rfl
  | cons j r ih => exact (ih _).trans (takeSlice_ctx j _)

/-- A trap of kind 0 without a subcause enters the handler once its record is written. -/
theorem enterTrap_enters {t : TrapInfo} {epc : Word} {x m : State} (hkind : t.kind = 0) (hsub : t.sub = 0) (hpriv : isPriv x = false)
    (hh : HasHandler x) (h : Recorded (recordHead t (partyOf x.g) ++ recordTail x) x m) :
    enterTrap t epc x = handlerEntered 0 t.cause 0 epc m := by
  obtain ⟨hadmits, hunheld, hm, htvec⟩ := h
  obtain ⟨hsome, haligned⟩ := hh
  have hhandler : handlerOf (curPart x) = (curPart x).tvec := if_pos haligned
  obtain ⟨k, q, hg⟩ := commitRegion_gang x
  have hslot : recordSlot t (commitRegion x) = .ok m := by
    rw [recordSlot, partyOf_commit, recordTail_commit]
    simp only [hg, hadmits, hunheld, hm]
    rfl
  have hfrec : BitVec.ofNat 64 ((reclaim m).g.ctx.toNat / 128 * 128) = BitVec.ofNat 64 (m.g.ctx.toNat / 128 * 128) := by
    rw [show (reclaim m).g.ctx = m.g.ctx from reclaimSlices_ctx _ _ _]
  rw [enterTrap, hpriv]
  simp only [hhandler, hsome, hslot, hkind, hsub]
  rw [hfrec, handlerEntered, htvec]
  rfl

/-! ### Where a trap is raised (R42, R363) -/

/-- Outside a deterministic launch an opening delivers what an irrevocable instruction does (R340). -/
theorem deliverable_irrevocable (s : State) : deliverable s .irrevocable = deliverable s .opening := rfl

/-- An irrevocable instruction that names no register begins from the commit of its region. -/
theorem entered_irrevocable {f : Form} (h : f.irrevocable = true) (s : State) : entered f s = commitRegion s := by
  have hclosed : (commitRegion s).p.entry.isNone = true := by rw [commitRegion_closed]; rfl
  rw [entered, enterRegion, h, if_pos rfl, track, hclosed, if_pos rfl]

/-- An irrevocable instruction that may retire takes its effect on the committed region. -/
theorem issue_irrevocable {f : Form} {effect : State → State} {s : State} (hf : f = { Form.plain f.word f.weight with irrevocable := true, back := f.back })
    (hquiet : deliverable s .irrevocable = none) (hclock : overflows (f.full s) s = false) :
    issue f noCheck effect s = effect (commitRegion s) := by
  have hirr : f.irrevocable = true := congrArg Form.irrevocable hf
  rw [← entered_irrevocable hirr s, hf]
  rw [hf] at hclock
  exact issue_ok hquiet (deliverable_irrevocable s ▸ hquiet) nofun nofun rfl nofun rfl nofun hclock nofun

/-- A privileged instruction traps before anything else of it outside a handler (R177). -/
theorem issue_unprivileged {f : Form} {check : State → Verdict} {effect : State → State} {s : State} (hprivileged : f.privileged = true)
    (halone : f.turn = false ∧ f.irrevocable = true) (hpriv : isPriv s = false) (hquiet : deliverable s .irrevocable = none) :
    issue f check effect s = preciseTrap (failOf 0x02) f.word s := by
  rw [issue, halone.1, halone.2, hprivileged, hpriv]
  simp only [Bool.false_eq_true, if_false, if_true, hquiet]
  rfl

/-- A word with a set reserved field traps where its cause is raised. -/
theorem issue_bad {f : Form} {cause : BitVec 8} {effect : State → State} {s : State} (hbad : f.bad = some cause) (hbarred : f.barred = false)
    (hpriv : f.privileged = true → isPriv s = true)
    (hd : (if f.turn then deliverable s .turn else if f.irrevocable then deliverable s .irrevocable else none) = none)
    (hopening : deliverable s .opening = none) (hopens : f.opens = fun _ => false) :
    issue f noCheck effect s = preciseTrap (failOf cause) f.word (enterRegion f s) := by
  have h1 : (f.privileged && !isPriv s) = false := by
    cases h : f.privileged
    · rfl
    · simp [hpriv h]
  rw [issue, hd]
  simp only [h1, hbad, hbarred, Bool.false_and]
  rw [if_neg Bool.false_ne_true, if_neg Bool.false_ne_true, failCheck, atOpening_quiet hopening, ← hopens]

/-! ### Instructions that name themselves (R177, R279, R280) -/

/-- A trap whose record is written from the split as it stands enters the handler. -/
theorem softTrap_enters {cause : BitVec 8} {n : Nat} {word : BitVec 32} {epc : Word} {s m : State} (hpriv : isPriv s = false)
    (hh : HasHandler s) (h : Recorded (faultRecord 0 cause 0 0 0 n word s) s m) :
    enterTrap (softTrap s cause n word) epc s = handlerEntered 0 cause 0 epc m :=
  enterTrap_enters rfl rfl hpriv hh (by rw [record_of_softTrap]; exact h)

theorem recorded_commit {r : List Byte} {s m : State} (h : Recorded r s m) : Recorded r (commitRegion s) m := by
  obtain ⟨hadmits, hunheld, hm, htvec⟩ := h
  obtain ⟨k, q, hg⟩ := commitRegion_gang s
  have hpart : (commitRegion s).g.part = s.g.part := by rw [hg]
  have hasid : (commitRegion s).g.asid = s.g.asid := by rw [hg]
  have hctx : (commitRegion s).g.ctx = s.g.ctx := by rw [hg]
  rw [Recorded, commitRegion_idem, hpart, hasid, hctx]
  exact ⟨hadmits, hunheld, hm, htvec.trans (tvec_commit s).symm⟩

theorem faultRecord_commit (cause : BitVec 8) (n : Nat) (word : BitVec 32) (s : State) :
    faultRecord 0 cause 0 0 0 n word (commitRegion s) = faultRecord 0 cause 0 0 0 n word s := by
  rw [← record_of_softTrap, softTrap_commit, partyOf_commit, recordTail_commit, record_of_softTrap]

theorem brk_eq (n : OpN9) {s : State} (hclock : overflows (fullWeight 0 s) s = false) (hquiet : deliverable s .irrevocable = none) :
    exec (.brk n) s = .next (enterTrap (softTrap s 0x09 n.n.toNat (wordOf (encode (.brk n)))) s.p.pc (commitRegion s)) := by
  have hissue := issue_irrevocable (f := { Form.plain (wordOf (encode (.brk n))) 0 with irrevocable := true, back := fun _ => 0 })
    (effect := fun s => enterTrap (softTrap s 0x09 n.n.toNat (wordOf (encode (.brk n)))) s.p.pc s) rfl hquiet
    (overflows_of_le (Nat.zero_le _) hclock)
  refine (congrArg Host.Outcome.next hissue).trans ?_
  rw [softTrap_commit, commitRegion_closed]
  rfl


theorem brk_enters {n : OpN9} {s m : State} (hpriv : isPriv s = false) (hh : HasHandler s) (hquiet : deliverable s .irrevocable = none)
    (hclock : overflows (fullWeight 0 s) s = false)
    (h : Recorded (faultRecord 0 0x09 0 0 0 n.n.toNat ((encode (.brk n)).getD 0) s) s m) :
    exec (.brk n) s = .next (handlerEntered 0 0x09 0 s.p.pc m) := by
  rw [brk_eq n hclock hquiet, ← softTrap_commit]
  refine congrArg Host.Outcome.next (softTrap_enters ((isPriv_commit s).trans hpriv) (hasHandler_of_tvec hh (tvec_commit s)) ?_)
  rw [faultRecord_commit]
  exact recorded_commit h

/-- A privileged instruction outside a handler enters it with cause 0x02 (R177). -/
theorem unprivileged_enters {f : Form} {check : State → Verdict} {effect : State → State} {s m : State} (hprivileged : f.privileged = true)
    (halone : f.turn = false ∧ f.irrevocable = true) (hpriv : isPriv s = false) (hquiet : deliverable s .irrevocable = none)
    (hh : HasHandler s) (h : Recorded (faultRecord 0 0x02 0 0 0 0 f.word s) s m) :
    issue f check effect s = handlerEntered 0 0x02 0 s.p.pc m :=
  (issue_unprivileged hprivileged halone hpriv hquiet).trans (softTrap_enters hpriv hh h)

theorem trapping_enters {s m : State} (hpriv : isPriv s = false) (hh : HasHandler s) (hquiet : deliverable s .irrevocable = none)
    {w : BitVec 32} {n : OpN9} {a : OpSN} {b : OpPlb} {c : OpS6} :
    ∀ e ∈ trapping w n a b c, overflows (fullWeight 0 s) s = false → Recorded (faultRecord 0 e.2.1 0 0 0 e.2.2.1 e.2.2.2 s) s m →
      exec e.1 s = .next (handlerEntered 0 e.2.1 0 s.p.pc m) := by
  have hpriv' {f : Form} {check : State → Verdict} {effect : State → State} (hprivileged : f.privileged = true)
      (halone : f.turn = false ∧ f.irrevocable = true) (h : Recorded (faultRecord 0 0x02 0 0 0 0 f.word s) s m) :
      Host.Outcome.next (issue f check effect s) = (.next (handlerEntered 0 0x02 0 s.p.pc m) : Host.Outcome State Fault Refusal) :=
    congrArg Host.Outcome.next (unprivileged_enters hprivileged halone hpriv hquiet hh h)
  simp only [trapping, List.map, List.cons_append, List.nil_append, List.forall_mem_cons, List.not_mem_nil, false_imp_iff, implies_true,
    and_true]
  refine ⟨fun _ h => congrArg Host.Outcome.next (softTrap_enters hpriv hh h), fun hclock h => brk_enters hpriv hh hquiet hclock h,
    fun _ h => hpriv' rfl ⟨rfl, rfl⟩ h, fun _ h => hpriv' rfl ⟨rfl, rfl⟩ h, fun _ h => hpriv' rfl ⟨rfl, rfl⟩ h,
    fun _ h => hpriv' rfl ⟨rfl, rfl⟩ h, fun _ h => hpriv' rfl ⟨rfl, rfl⟩ h, fun _ h => hpriv' rfl ⟨rfl, rfl⟩ h,
    fun _ h => hpriv' rfl ⟨rfl, rfl⟩ h, fun _ h => hpriv' rfl ⟨rfl, rfl⟩ h, fun _ h => hpriv' rfl ⟨rfl, rfl⟩ h,
    fun _ h => hpriv' rfl ⟨rfl, rfl⟩ h, fun _ h => hpriv' rfl ⟨rfl, rfl⟩ h⟩

/-! ### Launches that end (R339, R347) -/

/-- A launch of which no unit is left has ended with a cause. -/
def EndedWith (cause : BitVec 8) (n : Nat) (t : State) : Prop :=
  ∀ l ∈ t.launches, l.id = n → l.phase = .retired ∧ l.ended = some (cause, 3) ∧ l.units = []

theorem endLaunch_endedWith (n : Nat) (cause : BitVec 8) (s : State) : EndedWith cause n (endLaunch n 3 cause s) := by
  intro l hl hid
  obtain ⟨x, -, rfl⟩ := mem_updateWhere hl
  split at hid
  · next h => rw [if_pos h]; exact ⟨rfl, rfl, rfl⟩
  · next h => exact absurd hid (by simpa using h)

/-- Without a handler a trap ends the launch with its cause. -/
theorem enterTrap_unhandled {t : TrapInfo} {epc : Word} {s : State} (hpriv : isPriv s = false) (hnone : (curPart s).tvec = 0) :
    EndedWith t.cause s.g.launch (enterTrap t epc s) := by
  have hhandler : handlerOf (curPart s) = 0 := by rw [handlerOf, hnone, ite_self]
  rw [enterTrap, hpriv]
  simp only [hhandler]
  exact endLaunch_endedWith _ _ _

/-- In a handler a trap ends the launch with the cause of a double trap. -/
theorem enterTrap_doubled {t : TrapInfo} {epc : Word} {s : State} (hpriv : isPriv s = true) :
    EndedWith 0xE1 s.g.launch (enterTrap t epc s) := by
  rw [enterTrap, hpriv, if_pos rfl]
  exact endLaunch_endedWith _ _ _

theorem illegal_eq (w : BitVec 32) (s : State) :
    exec (.illegalInstruction w) s = .next (enterTrap (softTrap s 0x01 0 w) s.p.pc s) := rfl

theorem softTrap_unhandled {cause : BitVec 8} {n : Nat} {word : BitVec 32} {epc : Word} {s x : State} (hlaunch : x.g.launch = s.g.launch)
    (hpriv : isPriv x = false) (hnone : (curPart x).tvec = 0) :
    EndedWith cause s.g.launch (enterTrap (softTrap s cause n word) epc x) :=
  hlaunch ▸ enterTrap_unhandled (t := softTrap s cause n word) hpriv hnone

theorem traps_end {s : State} {w : BitVec 32} {n : OpN9} (hclock : overflows (fullWeight 0 s) s = false)
    (hquiet : deliverable s .irrevocable = none) :
    ∀ e ∈ [(Instr.illegalInstruction w, (0x01 : BitVec 8)), (.brk n, 0x09)],
      ((curPart s).tvec = 0 → isPriv s = false → ∃ t, exec e.1 s = .next t ∧ EndedWith e.2 s.g.launch t) ∧
      (isPriv s = true → ∃ t, exec e.1 s = .next t ∧ EndedWith 0xE1 s.g.launch t) := by
  obtain ⟨k, q, hg⟩ := commitRegion_gang s
  have hlaunch : (commitRegion s).g.launch = s.g.launch := by rw [hg]
  simp only [List.forall_mem_cons, List.not_mem_nil, false_imp_iff, implies_true, and_true]
  refine ⟨⟨fun hnone hpriv => ?_, fun hpriv => ?_⟩, fun hnone hpriv => ?_, fun hpriv => ?_⟩
  · exact ⟨_, illegal_eq w s, softTrap_unhandled rfl hpriv hnone⟩
  · exact ⟨_, illegal_eq w s, enterTrap_doubled hpriv⟩
  · exact ⟨_, brk_eq n hclock hquiet, softTrap_unhandled hlaunch ((isPriv_commit s).trans hpriv) ((tvec_commit s).trans hnone)⟩
  · exact ⟨_, brk_eq n hclock hquiet, hlaunch ▸ enterTrap_doubled ((isPriv_commit s).trans hpriv)⟩

/-! ### A word with a set reserved field (R363) -/

theorem bits_top (w : BitVec 32) : bits w.toNat 23 9 = w.toNat / 2 ^ 23 := by
  have := w.isLt
  unfold bits
  omega

theorem privOpcode_iff (w : BitVec 32) : privOpcode w = true ↔ w.toNat / 2 ^ 23 ∈ privOps := by
  rw [privOpcode, bits_top, privOps, List.contains_iff_mem]

theorem turnOp_irrevocable {s : State} {op : Nat} (h : turnOp s op = true) : irrevocableOp s op = true := by
  simp only [turnOp, irrevocableOp, Bool.or_eq_true, List.contains_iff_mem, List.mem_append] at h ⊢
  rcases h with ((h | h) | h) | h
  · left; left; left; left; left; left
    simp only [List.mem_cons, List.not_mem_nil, or_false] at h ⊢
    omega
  · exact .inl (.inl (.inl (.inl (.inl (.inr h)))))
  · exact .inl (.inr h)
  · exact .inr h

/-- The form of a word with a set reserved field. -/
def reservedForm (w : BitVec 32) (s : State) : Form :=
  { Form.plain w 1 with
    bad := some 0x03, privileged := privOpcode w, dsts := reservedDsts w s
    irrevocable := irrevocableOp s (bits w.toNat 23 9), turn := turnOp s (bits w.toNat 23 9) }

/-- A privileged opcode traps outside a handler before its reserved field is looked at. -/
theorem reservedForm_privileged {w : BitVec 32} {s : State} (hop : w.toNat / 2 ^ 23 ∈ privOps) (hpriv : isPriv s = false)
    (hd : (if (reservedForm w s).turn then deliverable s .turn
      else if (reservedForm w s).irrevocable then deliverable s .irrevocable else none) = none) :
    issue (reservedForm w s) noCheck (fun s => s) s = preciseTrap (failOf 0x02) w s := by
  have hprivileged : (reservedForm w s).privileged = true := (privOpcode_iff w).mpr hop
  rw [issue, hd, hprivileged, hpriv]
  rfl

theorem enterRegion_reserved {w : BitVec 32} {s : State} (hop : w.toNat / 2 ^ 23 ∉ privOps) :
    enterRegion (reservedForm w s) s = reservedEntered w s := by
  rw [reservedEntered]
  simp only [hop, if_false]
  rw [← bits_top, enterRegion]
  cases h : irrevocableOp s (bits w.toNat 23 9) with
  | true => simp [reservedForm, h]
  | false => simp [reservedForm, opensHere, Form.plain, h]

/-- A change of the split keeps where it is, that no handler runs, and the handler of its partition. -/
structure SamePlace (s u : State) : Prop where
  pc : u.p.pc = s.p.pc
  priv : isPriv u = isPriv s
  tvec : (curPart u).tvec = (curPart s).tvec

theorem commitRegion_samePlace (s : State) : SamePlace s (commitRegion s) :=
  ⟨by rw [commitRegion_closed]; rfl, isPriv_commit s, tvec_commit s⟩

theorem openRegion_samePlace (s : State) : SamePlace s (openRegion s) := by
  obtain ⟨hpc, hpriv, htvec⟩ := commitRegion_samePlace s
  unfold openRegion
  generalize commitRegion s = c at hpc hpriv htvec ⊢
  obtain ⟨k, hk⟩ := openOn_gang c.nextId c.g c.p
  have hsplit := openOn_split c.nextId c.g c.p
  refine ⟨hsplit.pc.trans hpc, ?_, ?_⟩
  · rw [← hpriv]
    exact congrArg (fun x : Word => x.getLsbD 0) hsplit.status
  · rw [← htvec]
    have hpart : (openOn c.nextId c.g c.p).1.part = c.g.part := by rw [hk]
    exact congrArg (fun n => (partOf c n).tvec) hpart

theorem reservedEntered_samePlace (w : BitVec 32) (s : State) : SamePlace s (reservedEntered w s) := by
  rw [reservedEntered]
  split
  · exact ⟨rfl, rfl, rfl⟩
  · split
    · exact commitRegion_samePlace s
    · split
      · exact openRegion_samePlace s
      · exact ⟨rfl, rfl, rfl⟩

theorem reserved_issues {w : BitVec 32} {s : State} (hpoint : ∀ x, reservedPoint w s = some x → deliverable s x = none) :
    exec (.reservedEncoding w) s = .next (issue (reservedForm w s) noCheck (fun s => s) s) := by
  have hnone : (reservedPoint w s).bind (deliverable s) = none := Option.bind_eq_none_iff.mpr hpoint
  show execReservedEncoding w s = _
  rw [execReservedEncoding, hnone]
  rfl

/-- R363: a word with a set reserved field is a trap with the cause of its opcode. -/
theorem reserved_enters {s m : State} {w : BitVec 32} (hpriv : isPriv s = false) (hh : HasHandler s)
    (hquiet : deliverable s .irrevocable = none) (hpoint : ∀ x, reservedPoint w s = some x → deliverable s x = none)
    (hturn : turnOp s (w.toNat / 2 ^ 23) = true → deliverable s .turn = none) {cause : BitVec 8}
    (hcause : cause = if w.toNat / 2 ^ 23 ∈ privOps then 0x02 else 0x03)
    (h : Recorded (faultRecord 0 cause 0 0 0 0 w (reservedEntered w s)) (reservedEntered w s) m) :
    exec (.reservedEncoding w) s = .next (handlerEntered 0 cause 0 s.p.pc m) := by
  have hd : (if (reservedForm w s).turn then deliverable s .turn
      else if (reservedForm w s).irrevocable then deliverable s .irrevocable else none) = none := by
    split
    · next hw => exact hturn (by rw [← bits_top]; exact hw)
    · rw [hquiet, ite_self]
  obtain ⟨hpc, hpriv', htvec⟩ := reservedEntered_samePlace w s
  rw [reserved_issues hpoint, ← hpc]
  refine congrArg Host.Outcome.next (Eq.trans ?_ (softTrap_enters (hpriv'.trans hpriv) (hasHandler_of_tvec hh htvec) h))
  rw [← preciseTrap_failOf, hcause]
  by_cases hop : w.toNat / 2 ^ 23 ∈ privOps
  · rw [if_pos hop, reservedForm_privileged hop hpriv hd, reservedEntered, if_pos hop]
  · have hunprivileged : (reservedForm w s).privileged = true → isPriv s = true := fun hp => absurd ((privOpcode_iff w).mp hp) hop
    rw [if_neg hop, issue_bad rfl rfl hunprivileged hd hquiet rfl, enterRegion_reserved hop]
    rfl

/-! ### The trap instruction (R280) -/

/-- `trap` retires before its trap is taken. -/
theorem trap_eq {o : OpN9} {s : State} (hready : Ready 4 [] [] s) :
    exec (.trap o) s = .next (enterTrap (softTrap s 0x08 o.n.toNat (wordOf (encode (.trap o)))) (s.p.pc + 4)
      (retired (addClock 4 (commitRegion s)))) := by
  have hissue := issue_irrevocable (f := { Form.plain (wordOf (encode (.trap o))) 4 with irrevocable := true, back := fun _ => 0 })
    (effect := fun s => enterTrap (softTrap s 0x08 o.n.toNat (wordOf (encode (.trap o)))) (s.p.pc + 4) (retired (addClock 4 s))) rfl
    hready.quiet (overflows_of_le (Nat.le_add_right 4 _) hready.clock)
  refine (congrArg Host.Outcome.next hissue).trans ?_
  rw [softTrap_commit, show (commitRegion s).p.pc = s.p.pc by rw [commitRegion_closed]; rfl]

/-- A split that has retired an instruction, with its record and its place. -/
theorem retired_frame (w : Nat) (x : State) :
    recordTail (retired (addClock w x)) = recordTail x ∧ (retired (addClock w x)).g = x.g ∧
      isPriv (retired (addClock w x)) = isPriv x ∧ (curPart (retired (addClock w x))).tvec = (curPart x).tvec ∧
      (retired (addClock w x)).p.clock = clockAfter w x := by
  obtain ⟨Q, hretired, hparts⟩ := retired_eq (addClock w x)
  rw [hretired, addClock_eq]
  have e := congrArg Partition.tvec (curPart_besides (x := { x with parts := Q }) (y := x) (by rw [addClock_eq] at hparts; exact hparts) rfl)
  exact ⟨rfl, rfl, rfl, e, rfl⟩

theorem trap_enters {o : OpN9} {s m : State} (hpriv : isPriv s = false) (hh : HasHandler s) (hready : Ready 4 [] [] s)
    (h : Recorded (faultRecord 0 0x08 0 0 0 o.n.toNat ((encode (.trap o)).getD 0) s) (retired (addClock 4 (commitRegion s))) m) :
    exec (.trap o) s = .next (handlerEntered 0 0x08 0 (s.p.pc + 4) m) ∧ m.p.clock = s.p.clock + 4 := by
  have hpriv' := (isPriv_commit s).trans hpriv
  obtain ⟨htail, hg, hisPriv, htvec, hclock⟩ := retired_frame 4 (commitRegion s)
  refine ⟨?_, ?_⟩
  · rw [trap_eq hready]
    refine congrArg Host.Outcome.next (enterTrap_enters rfl rfl (hisPriv.trans hpriv')
      (hasHandler_of_tvec hh (htvec.trans (tvec_commit s))) ?_)
    rw [htail, hg, partyOf_commit, recordTail_commit, record_of_softTrap]
    exact h
  · obtain ⟨-, -, hm, -⟩ := h
    rw [hm, (writePiece_atHomes _ _ _ _ _).p, commitRegion_closed]
    refine hclock.trans ?_
    rw [clockAfter, hpriv', if_neg Bool.false_ne_true, commitRegion_closed]
    rfl

/-- Settles O40. -/
theorem trapsEnterTheHandlerOrEnd : Obligations.TrapsEnterTheHandlerOrEnd := by
  refine ⟨fun s m hpriv hh hquiet => ⟨fun _ _ _ _ _ => trapping_enters hpriv hh hquiet,
    fun w hpoint hopening hturn h => reserved_enters hpriv hh hquiet hpoint hturn rfl h,
    fun o hready h => trap_enters hpriv hh hready h⟩, fun s w n hclock hquiet => traps_end hclock hquiet⟩

end Sys2Proof.Machine
end

section
/-! PROOF. The operations of `hc.op` (spec/12_isa_engines_system.md R284; spec/05_memory_hierarchy.md R119 to R124;
spec/19_faults_execution_memory.md R371, R372; O42). -/

namespace Sys2Proof.Machine
open Host Sys2Proof.Rules

/-! ### The instruction (R284) -/

/-- What an `hc.op` does with the result of its operation. -/
def hcTakes (o : OpS6) (r : HcResult) : State :=
  match r.waits with
  | some w => stall w r.after
  | none =>
    finishAlone 4 (match r.entry with
      | some e => setS (o.s.toNat + 2) (BitVec.ofNat 64 e) (setS o.s.toNat (BitVec.ofNat 64 r.status) r.after)
      | none => setS o.s.toNat (BitVec.ofNat 64 r.status) r.after)

/-- An `hc.op` can complete: a handler runs, its three registers are at hand. -/
structure HcReady (o : OpS6) (s : State) : Prop where
  priv : isPriv s = true
  group : o.s.toNat + 2 < 64
  ready : ReadyAlone 4 [codeS o.s.toNat, codeS (o.s.toNat + 1), codeS (o.s.toNat + 2)] [codeS o.s.toNat] s

/-- The operands of an `hc.op` that is issued. -/
def hcOperands (o : OpS6) (s : State) : HcArgs := { x := getS s o.s.toNat, y := getS s (o.s.toNat + 1), z := getS s (o.s.toNat + 2) }

theorem getS_commit (s : State) (n : Nat) : getS (commitRegion s) n = getS s n := by
  rw [getS, commitRegion_closed]
  rfl

/-- An `hc.op` whose reserved bits are 0 performs its operation on the committed region. -/
theorem hcIssue_takes {o : OpS6} {s : State} (h : HcReady o s) {word : BitVec 32} {resX resY : Word} {act : Nat → HcArgs → State → HcResult}
    (hx : getS s o.s.toNat &&& resX = 0) (hy : getS s (o.s.toNat + 1) &&& resY = 0) :
    hcIssue word o resX resY act s = hcTakes o (act s.g.part (hcOperands o s) (commitRegion s)) := by
  obtain ⟨hpriv, hgroup, hready⟩ := h
  have hcheck : failIf (decide (getS s o.s.toNat &&& resX ≠ 0 ∨ getS s (o.s.toNat + 1) &&& resY ≠ 0)) 0x03 = .ok :=
    if_neg (by simp [hx, hy])
  obtain ⟨k, q, hg⟩ := commitRegion_gang s
  have hpart : (commitRegion s).g.part = s.g.part := by rw [hg]
  have hargs : hcArgs (commitRegion s) o = hcOperands o s := by simp only [hcArgs, getS_commit, hcOperands]
  rw [hcIssue, hready.passes ⟨rfl, rfl⟩ (fun _ => hpriv) rfl (if_pos hgroup)
    (by simpa [hcGroup] using hready.sources) hcheck (fun _ he => absurd he List.not_mem_nil) (fun _ hc => hc) (Nat.le_refl _), entered_irrevocable rfl, hpart, hargs]
  rfl

/-- A state that differs from the committed one in memory, tables and homes alone. -/
structure SameIssue (s u : State) : Prop where
  split : u.p = (commitRegion s).p
  gang : u.g = (commitRegion s).g

theorem hcFinish_done {o : OpS6} {s : State} (h : HcReady o s) {x : State}
    (hp : x.p = { (commitRegion s).p with sregs := x.p.sregs, sstate := x.p.sstate }) (hg : x.g = (commitRegion s).g) :
    Done 4 x (finishAlone 4 x) := by
  have hbuffer : x.p.buffer = [] := by rw [hp, commitRegion_closed]; rfl
  have hpriv : isPriv x = true := by
    rw [← h.priv, isPriv, hp, commitRegion_closed]
    rfl
  refine finishAlone_done (NoSpill.of_empty h.ready.room.commit hbuffer ?_ (congrArg Gang.cuff hg)) hbuffer fun _ => .inr hpriv
  rw [commitRegion_closed]
  rfl

/-- An operation that is done writes its status. -/
theorem hcTakes_done {o : OpS6} {s : State} (h : HcReady o s) {u : State} (hu : SameIssue s u) (status : Nat) :
    Done 4 (setS o.s.toNat (BitVec.ofNat 64 status) u) (hcTakes o { status := status, entry := none, after := u }) :=
  hcFinish_done h (by rw [← hu.split]; rfl) hu.gang

theorem hcTakes_entry {o : OpS6} {s : State} (h : HcReady o s) {u : State} (hu : SameIssue s u) (e : Nat) :
    Done 4 (setS (o.s.toNat + 2) (BitVec.ofNat 64 e) (setS o.s.toNat 0 u)) (hcTakes o { status := 0, entry := some e, after := u }) :=
  hcFinish_done h (by rw [← hu.split]; rfl) hu.gang

theorem part_commit {α : Type} (view : Partition → α) (s : State) (h : ∀ q, view q.besides = view q) :
    view (partOf (commitRegion s) s.g.part) = view (curPart s) := by
  obtain ⟨k, q, hg⟩ := commitRegion_gang s
  have hparts := congrArg State.parts (commitRegion_sansStores s)
  have e := curPart_besides (x := commitRegion s) (y := s) hparts (by rw [hg])
  rw [curPart, hg] at e
  rw [← h, e, h]

/-! ### READ and ENTRY (R119, R120) -/

section Operations
variable {o : OpS6} {s u : State} {part : Nat} {a : HcArgs}

theorem hcRead_absent (hpool : poolIndex u part a.off = none) (hnone : entryAt u part a.asid a.off a.level = none) :
    hcRead part a u = { status := 1, entry := none, after := u } := by
  rw [hcRead, hpool, hnone]
  rfl

theorem hcRead_entry {pa : Nat} (hpool : poolIndex u part a.off = none) (hsome : entryAt u part a.asid a.off a.level = some pa) :
    hcRead part a u = { status := 0, entry := some (memWord u.mem pa), after := u } := by
  rw [hcRead, hpool, hsome]

/-- What ENTRY writes does not lie in the pinned pool (R374). -/
def EntryOutside (u : State) (part : Nat) (a : HcArgs) : Prop :=
  poolIndex u part a.off = none ∧
    (Pte.v a.z.toNat = true → Pte.leaf a.z.toNat = true → inPool (partOf u part) (Pte.addr a.z.toNat) = false)

theorem EntryOutside.passes (h : EntryOutside u part a) :
    ((poolIndex u part a.off).isSome || (Pte.v a.z.toNat && Pte.leaf a.z.toNat && inPool (partOf u part) (Pte.addr a.z.toNat))) = false := by
  obtain ⟨hpool, hleaf⟩ := h
  rw [hpool]
  cases hv : Pte.v a.z.toNat <;> cases hl : Pte.leaf a.z.toNat <;> simp
  exact hleaf hv hl

theorem hcEntry_absent (h : EntryOutside u part a) (hnone : entryAt u part a.asid a.off a.level = none) :
    hcEntry part a u = { status := 1, entry := none, after := u } := by
  rw [hcEntry]
  simp only [h.passes, hnone, Bool.false_eq_true, if_false]
  rfl

/-- An entry of no page is written over one that is not valid. -/
theorem hcEntry_written {pa : Nat} (hpool : poolIndex u part a.off = none) (hsome : entryAt u part a.asid a.off a.level = some pa)
    (hold : Pte.v (memWord u.mem pa) = false)
    (hnew : Pte.v a.z.toNat = false ∨ (Pte.leaf a.z.toNat = false ∧ entryValid (homeHc a.off) a.level a.z.toNat = true)) :
    hcEntry part a u = { status := 0, entry := none, after := writePte pa a.z.toNat u } := by
  have hleaf : (Pte.v a.z.toNat && Pte.leaf a.z.toNat) = false := by
    rcases hnew with h | ⟨h, -⟩ <;> simp [h]
  have hvalid : (Pte.v a.z.toNat && !entryValid (homeHc a.off) a.level a.z.toNat) = false := by
    rcases hnew with h | ⟨-, h⟩ <;> simp [h]
  have hreduces : entryReduces (memWord u.mem pa) a.z.toNat = false := by rw [entryReduces, hold]; rfl
  rw [hcEntry]
  simp only [hpool, hsome, hleaf, hvalid, hold, hreduces, Option.isSome_none, Bool.false_and, Bool.and_false, Bool.or_false,
    Bool.false_eq_true, if_false, Bool.not_false, if_true]
  rfl

/-! ### ROOT and FRAME (R119, R121) -/

theorem hcRoot_written (hown : ownHc (partOf u part) a.x.toNat = true) (hframe : ownFrame (partOf u part) a.z.toNat = true)
    (hshare : shareOf a.z.toNat = a.x.toNat) :
    hcRoot part a u =
      { status := 0, entry := none, after := { u with roots := mapSet noRoot u.roots (a.x.toNat * 8 + part) a.z.toNat } } := by
  rw [hcRoot]
  simp only [hown, hframe, hshare, bne_self_eq_false, Bool.not_true, Bool.or_false, Bool.false_eq_true, if_false]
  rfl

theorem hcFrame_written (haligned : a.x.toNat % 65536 = 0) (hframe : ownFrame (partOf u part) a.x.toNat = true)
    (hpool : namesPool u part (offsetOf a.z) a.x.toNat = false) :
    hcFrame part a u = { status := 0, entry := none, after := { u with
      frames := mapSet noFrame u.frames (a.x.toNat / 65536) (part, tagAsid a.asid (offsetOf a.z), offsetOf a.z / 65536) } } := by
  rw [hcFrame]
  simp only [haligned, hframe, hpool, ne_eq, not_true_eq_false, Bool.not_true]
  rfl

/-! ### MIGRATE (R124) -/

theorem hcMigrate_locks {l : Leaf} (hpool : poolIndex u part a.off = none) (hwalk : tableWalk u part a.asid a.off = some l)
    (hlock : Pte.lock l.entry = false) (hpin : Pte.pin l.entry = false) (hnew : inPool (partOf u part) a.z.toNat = false)
    (hold : inPool (partOf u part) (Pte.addr l.entry) = false) (haligned : a.z.toNat % 2 ^ l.pageBits = 0)
    (hframe : ownFrame (partOf u part) a.z.toNat = true)
    (hmatch : recordsMatch u part a.asid (a.off / 2 ^ l.pageBits * 2 ^ l.pageBits) l.pageBits a.z.toNat (homeHc a.off) = true) :
    hcMigrate false part a u =
      { status := 0, entry := none, waits := some .migration, after := writePte l.entryPa (Pte.setBit l.entry 56 true) u } := by
  have hpopulated : populated a.z.toNat = true := by
    rw [ownFrame, Bool.and_eq_true, Bool.and_eq_true] at hframe
    exact hframe.1.2
  rw [hcMigrate]
  simp only [hpool, hwalk, hlock, hpin, hnew, hold, haligned, hframe, hmatch, hpopulated, Option.isSome_none, Bool.false_eq_true,
    if_false, ne_eq, not_true_eq_false, Bool.not_true, or_self]
  rfl

theorem hcMigrate_copied {l : Leaf} (hpool : poolIndex u part a.off = none) (hwalk : tableWalk u part a.asid a.off = some l) :
    hcMigrate true part a u = { status := 0, entry := none, after := migrated (homeHc a.off) a.off a.z.toNat l u } := by
  rw [hcMigrate]
  simp only [hpool, hwalk, Option.isSome_none, Bool.false_eq_true, if_false, if_true]
  rfl

/-! ### UNHOLD (R371) -/

theorem hcUnhold_clears {l : Leaf} (hwalk : walk u part a.asid a.off = some l) (hlock : Pte.lock l.entry = false)
    (hbad : ∀ b ∈ u.badLines, b * 128 < l.pa - a.off % 2 ^ l.pageBits ∨ l.pa - a.off % 2 ^ l.pageBits + 2 ^ l.pageBits ≤ b * 128) :
    hcUnhold part a u = { status := 0, entry := none, after := writePte l.entryPa (Pte.setBit l.entry 57 false) u } := by
  have hnone : pageBad u a.off l = [] := by
    rw [pageBad, List.filter_eq_nil_iff]
    intro b hb
    rw [Bool.and_eq_true, decide_eq_true_eq]
    rcases hbad b hb with h | h <;> omega
  have hkept : u.badLines.filter (fun b => !([] : List Nat).contains b) = u.badLines := List.filter_eq_self.mpr fun _ _ => rfl
  rw [hcUnhold, hwalk]
  simp only [hlock, hnone, hkept, Bool.false_eq_true, if_false]
  rfl

/-! ### REPLAY and DROP (R372) -/

/-- A held store that no access waits for. -/
structure PlainLate (e : LateEntry) : Prop where
  brim : e.brim = none
  request : e.reqId = none
  key : e.key = none
  node : e.node = none
  gang : e.gang = none
  recorded : e.recorded = true
  device : regionOf (offsetOf e.va) ≠ 3
  store : ∃ d, e.op = .store d

theorem PlainLate.counts {e : LateEntry} (h : PlainLate e) : counts e.op = false := by
  obtain ⟨d, hd⟩ := h.store
  rw [hd]
  rfl

theorem freeLate_plain {e : LateEntry} (h : PlainLate e) : freeLate e u = { u with late := u.late.filter fun x => x.id != e.id } := by
  rw [freeLate, h.recorded, if_pos rfl]

theorem replayEntry_plain {e : LateEntry} (h : PlainLate e) :
    replayEntry e u = performEntry e { u with late := u.late.filter fun x => x.id != e.id } := by
  rw [replayEntry, freeLate_plain h]
  simp only [h.brim, h.request, h.device, launchOfLate, h.key, if_false, Option.bind_none]

theorem replayWait_plain {e : LateEntry} (h : PlainLate e) (hreads : unreadable u e.part e.asid (offsetOf e.va) e.size = false) :
    replayWait u e = none := by
  have hhost : hostWrite e = false := by rw [hostWrite, h.node]; rfl
  rw [replayWait]
  simp only [h.device, h.brim, hhost, hreads, if_false, Bool.false_eq_true, Option.isNone_none, Bool.and_false]

theorem hcReplay_plain (hplain : ∀ e ∈ lateOf u part a.asid a.off, PlainLate e)
    (hrefusal : firstRefusal u (lateOf u part a.asid a.off) = none)
    (hunlocked : ∀ e ∈ lateOf u part a.asid a.off, ∀ l, walk u part a.asid (offsetOf e.va) = some l → Pte.lock l.entry = false)
    (hreads : ∀ e ∈ lateOf u part a.asid a.off, unreadable u e.part e.asid (offsetOf e.va) e.size = false) :
    hcReplay part a u = { status := 0, entry := none, after :=
      (lateOf u part a.asid a.off).foldl (fun u e => performEntry e { u with late := u.late.filter fun x => x.id != e.id }) u } := by
  have hlocks : ((lateOf u part a.asid a.off).any fun e => (walk u part a.asid (offsetOf e.va)).any fun l => Pte.lock l.entry) = false := by
    rw [List.any_eq_false]
    intro e he
    cases hw : walk u part a.asid (offsetOf e.va) with
    | none => exact Bool.false_ne_true
    | some l => exact ne_true_of_eq_false (hunlocked e he l hw)
  have hwaits : (lateOf u part a.asid a.off).findSome? (replayWait u) = none :=
    List.findSome?_eq_none_iff.mpr fun e he => replayWait_plain (hplain e he) (hreads e he)
  have hfold : (lateOf u part a.asid a.off).foldl (fun s e => replayEntry e s) u =
      (lateOf u part a.asid a.off).foldl (fun u e => performEntry e { u with late := u.late.filter fun x => x.id != e.id }) u :=
    List.foldl_ext _ _ _ fun _ e he => replayEntry_plain (hplain e he)
  rw [hcReplay, granuleLate]
  simp only [hrefusal, hlocks, hwaits, hfold, Bool.false_eq_true, if_false]
  rfl

theorem lateLaunch_plain {e : LateEntry} (h : PlainLate e) : lateLaunch u e = none := by
  rw [lateLaunch, h.gang, h.request]
  rfl

theorem endsLaunch_none (e : LateEntry) (u : State) : endsLaunch e none u = u := by
  unfold endsLaunch
  cases e.cause <;> rfl

theorem of_findFirst {α : Type} {q : α → Bool} {l : List α} {a : α} (h : findFirst q l = some a) : a ∈ l ∧ q a = true := by
  induction l with
  | nil => exact nomatch h
  | cons b r ih =>
    rw [findFirst] at h
    split at h
    · next hb => exact Option.some.inj h ▸ ⟨List.mem_cons_self, hb⟩
    · exact ⟨List.mem_cons_of_mem _ (ih h).1, (ih h).2⟩

/-- A plain entry is dropped by its leaving the queue. -/
theorem dropEntry_plain {e : LateEntry} (h : PlainLate e) (first : BitVec 8) (hfound : ∀ x ∈ u.late, x.id = e.id → x = e) :
    dropEntry first e u = { u with late := u.late.filter fun x => x.id != e.id } := by
  have hsame : (findFirst (fun x => x.id == e.id) u.late).getD e = e := by
    cases hf : findFirst (fun x => x.id == e.id) u.late with
    | none => rfl
    | some x =>
      obtain ⟨hmem, hid⟩ := of_findFirst hf
      exact hfound x hmem (beq_iff_eq.mp hid)
  obtain ⟨d, hd⟩ := h.store
  rw [dropEntry]
  simp only [h.recorded, if_true, hsame, lateLaunch_plain h, endsLaunch_none, dropFreed, h.brim, h.request, h.node, hd, freeLate_plain h,
    Option.bind_none]

theorem dropEntries_plain (first : BitVec 8) (es : List LateEntry) (hplain : ∀ e ∈ es, PlainLate e) (u : State)
    (hfound : ∀ e ∈ es, ∀ x ∈ u.late, x.id = e.id → x = e) :
    es.foldl (fun s e => dropEntry first e s) u =
      { u with late := u.late.filter fun e => !(es.map fun x => x.id).contains e.id } := by
  induction es generalizing u with
  | nil => exact congrArg (fun l => { u with late := l }) (List.filter_eq_self.mpr fun _ _ => rfl).symm
  | cons e r ih =>
    obtain ⟨he, hr⟩ := List.forall_mem_cons.mp hplain
    obtain ⟨hfe, hfr⟩ := List.forall_mem_cons.mp hfound
    rw [List.foldl_cons, dropEntry_plain he first hfe, ih hr _ fun x hx y hy => hfr x hx y (List.mem_of_mem_filter hy)]
    refine congrArg (fun l => { u with late := l }) ?_
    rw [List.filter_filter]
    refine List.filter_congr fun x _ => ?_
    rw [List.map_cons, List.contains_cons, Bool.not_or]
    exact Bool.and_comm _ _

/-- Entries of a queue with names of their own. -/
theorem eq_of_late_id {l : List LateEntry} (h : (l.map fun e => e.id).Nodup) : ∀ x ∈ l, ∀ e ∈ l, x.id = e.id → x = e :=
  fun _ hx _ he hid => List.inj_on_of_nodup_map h hx he hid

theorem hcDrop_plain (hpool : poolIndex u part a.off = none) (hplain : ∀ e ∈ lateOf u part a.asid a.off, PlainLate e)
    (hids : (u.late.map fun e => e.id).Nodup) :
    hcDrop part a u = { status := 0, entry := none, after :=
      { u with late := u.late.filter fun e => !((lateOf u part a.asid a.off).map fun x => x.id).contains e.id } } := by
  have hfold := dropEntries_plain (firstCause u part a.asid a.off) (lateOf u part a.asid a.off) hplain u
    fun e he x hx hid => eq_of_late_id hids x hx e (List.mem_of_mem_filter he) hid
  rw [hcDrop]
  simp only [hpool, Option.isSome_none, Bool.false_eq_true, if_false, dropGranuleEntries, hfold]
  rfl

end Operations

/-! ### What the operations leave alone -/

theorem writeAs_atHomes (hosts : Bool) (launch part asid o : Nat) (d : List Byte) : AtHomes (writeAs hosts launch part asid o d) :=
  (recallCopies_atHomes hosts _ _).comp ((dropL1_atHomes _ 256).comp (writeBase_atHomes launch part asid o d))

/-- The writes of a held store at its home. -/
def lateWrites (e : LateEntry) (new : List Byte) (s : State) : State :=
  (pieces (offsetOf e.va) new.length).foldl
    (fun s p => writeAs (!hostWrite e) 0 e.part e.asid p.1 ((new.drop (p.1 - offsetOf e.va)).take p.2) s) s

theorem lateWrites_atHomes (e : LateEntry) (new : List Byte) : AtHomes (lateWrites e new) :=
  Keeps.foldl (f := fun s (p : Nat × Nat) => writeAs (!hostWrite e) 0 e.part e.asid p.1 ((new.drop (p.1 - offsetOf e.va)).take p.2) s)
    (fun _ => writeAs_atHomes _ _ _ _ _ _) _

theorem performEntry_plain {e : LateEntry} (h : PlainLate e) (s : State) :
    performEntry e s = lateWrites e (opBytes e.op (baseBytes s e.part e.asid (offsetOf e.va) e.size)) s := by
  obtain ⟨d, hd⟩ := h.store
  unfold performEntry
  rw [h.counts, h.node, hd]
  rfl

theorem performEntry_atHomes {e : LateEntry} (h : PlainLate e) : AtHomes (performEntry e) := fun s => by
  rw [performEntry_plain h]
  exact lateWrites_atHomes e _ s

theorem sameIssue_refl (s : State) : SameIssue s (commitRegion s) := ⟨rfl, rfl⟩

theorem SameIssue.then {s u : State} (h : SameIssue s u) {f : State → State} (hf : AtHomes f) : SameIssue s (f u) :=
  ⟨(hf.p u).trans h.split, (hf.g u).trans h.gang⟩

theorem foldl_sameIssue {α : Type} {s : State} {f : State → α → State} (l : List α) (hf : ∀ a ∈ l, ∀ u, (f u a).sansHome = u.sansHome)
    {u : State} (h : SameIssue s u) : SameIssue s (l.foldl f u) := by
  induction l generalizing u with
  | nil => exact h
  | cons a r ih =>
    obtain ⟨ha, hr⟩ := List.forall_mem_cons.mp hf
    exact ih hr ⟨(congrArg State.p (ha u)).trans h.split, (congrArg State.g (ha u)).trans h.gang⟩

theorem moveGranule_issue (old new : Nat) : Keeps (fun s => (s.p, s.g)) (moveGranule old new) := fun _ => rfl

theorem migrated_sameIssue {s : State} (hc off new : Nat) (l : Leaf) : SameIssue s (migrated hc off new l (commitRegion s)) := by
  rw [migrated]
  have hmoved := Keeps.foldl (view := fun s => (s.p, s.g)) (f := fun s k => moveGranule (Pte.addr l.entry + k) (new + k) s)
    (fun k => moveGranule_issue _ _) (homedGranules hc (off / 2 ^ l.pageBits * 2 ^ l.pageBits) l.pageBits) (commitRegion s)
  exact SameIssue.then ⟨congrArg Prod.fst hmoved, congrArg Prod.snd hmoved⟩ (writePte_atHomes _ _)

/-! ### The operations complete -/

section Completes
variable {o : OpS6} {s : State} (h : HcReady o s)

/-- The operation of an `hc.op` on the committed region is done with a status. -/
def Completes (o : OpS6) (s : State) (i : Instr) (status : Nat) (u : State) : Prop :=
  ∃ t, exec i s = .next t ∧ Done 4 (setS o.s.toNat (BitVec.ofNat 64 status) u) t

include h

theorem completes_of {i : Instr} {act : Nat → HcArgs → State → HcResult} {status : Nat} {u : State}
    (hexec : exec i s = .next (hcTakes o (act s.g.part (hcOperands o s) (commitRegion s))))
    (hact : act s.g.part (hcOperands o s) (commitRegion s) = { status := status, entry := none, after := u }) (hu : SameIssue s u) :
    Completes o s i status u :=
  ⟨_, hexec, by rw [hact]; exact hcTakes_done h hu status⟩

theorem read_takes (hy : getS s (o.s.toNat + 1) &&& resLevel = 0) :
    exec (.hcOpRead o) s = .next (hcTakes o (hcRead s.g.part (hcOperands o s) (commitRegion s))) :=
  congrArg Host.Outcome.next (hcIssue_takes h (BitVec.and_zero) hy)

theorem entry_takes (hy : getS s (o.s.toNat + 1) &&& resLevel = 0) :
    exec (.hcOpEntry o) s = .next (hcTakes o (hcEntry s.g.part (hcOperands o s) (commitRegion s))) :=
  congrArg Host.Outcome.next (hcIssue_takes h (BitVec.and_zero) hy)

/-- READ and ENTRY of an address without tables, and of an entry that is there. -/
theorem tables_complete (hy : getS s (o.s.toNat + 1) &&& resLevel = 0)
    (hpool : poolIndex (commitRegion s) s.g.part (hcOperands o s).off = none) :
    (entryAt (commitRegion s) s.g.part (hcOperands o s).asid (hcOperands o s).off (hcOperands o s).level = none →
      Completes o s (.hcOpRead o) 1 (commitRegion s) ∧
      ((Pte.v (hcOperands o s).z.toNat = true → Pte.leaf (hcOperands o s).z.toNat = true →
          inPool (curPart s) (Pte.addr (hcOperands o s).z.toNat) = false) →
        Completes o s (.hcOpEntry o) 1 (commitRegion s))) ∧
    (∀ pa, entryAt (commitRegion s) s.g.part (hcOperands o s).asid (hcOperands o s).off (hcOperands o s).level = some pa →
      (∃ t, exec (.hcOpRead o) s = .next t ∧
        Done 4 (setS (o.s.toNat + 2) (BitVec.ofNat 64 (memWord s.mem pa)) (setS o.s.toNat 0 (commitRegion s))) t) ∧
      (pa < 2 ^ 39 → Pte.v (memWord s.mem pa) = false →
        (Pte.v (hcOperands o s).z.toNat = false ∨ (Pte.leaf (hcOperands o s).z.toNat = false ∧
          entryValid (homeHc (hcOperands o s).off) (hcOperands o s).level (hcOperands o s).z.toNat = true)) →
        Completes o s (.hcOpEntry o) 0 { commitRegion s with
          mem := memWrite (commitRegion s).mem pa (leBytes 8 (hcOperands o s).z.toNat)
          badEntries := (commitRegion s).badEntries.filter (· != pa) })) := by
  have hmem : (commitRegion s).mem = s.mem := commitRegion_mem h.ready.room
  refine ⟨fun hnone => ⟨?_, fun hleaf => ?_⟩, fun pa hsome => ⟨?_, fun hpa hold hnew => ?_⟩⟩
  · exact completes_of h (read_takes h hy) (hcRead_absent hpool hnone) (sameIssue_refl s)
  · refine completes_of h (entry_takes h hy) (hcEntry_absent ⟨hpool, fun hv hl => ?_⟩ hnone) (sameIssue_refl s)
    exact (part_commit (fun q => inPool q _) s fun _ => rfl).trans (hleaf hv hl)
  · refine ⟨_, read_takes h hy, ?_⟩
    rw [hcRead_entry hpool hsome, hmem]
    exact hcTakes_entry h (sameIssue_refl s) _
  · have hwritten := hcEntry_written hpool hsome (by rw [hmem]; exact hold) hnew
    rw [writePte, if_pos hpa] at hwritten
    exact completes_of h (entry_takes h hy) hwritten ⟨rfl, rfl⟩

theorem root_completes (hx : getS s o.s.toNat &&& 0xFFFFFFFFFFFFFFE0 = 0) (hown : ownHc (curPart s) (hcOperands o s).x.toNat = true)
    (hframe : ownFrame (curPart s) (hcOperands o s).z.toNat = true)
    (hshare : (hcOperands o s).z.toNat / 2 ^ 34 % 32 = (hcOperands o s).x.toNat) :
    Completes o s (.hcOpRoot o) 0 { commitRegion s with
      roots := mapSet noRoot (commitRegion s).roots ((hcOperands o s).x.toNat * 8 + s.g.part) (hcOperands o s).z.toNat } :=
  completes_of h (congrArg Host.Outcome.next (hcIssue_takes h hx BitVec.and_zero))
    (hcRoot_written ((part_commit (fun q => ownHc q _) s fun _ => rfl).trans hown)
      ((part_commit (fun q => ownFrame q _) s fun _ => rfl).trans hframe) hshare) ⟨rfl, rfl⟩

theorem frame_completes (hy : getS s (o.s.toNat + 1) &&& resAsid = 0) (haligned : (hcOperands o s).x.toNat % 65536 = 0)
    (hframe : ownFrame (curPart s) (hcOperands o s).x.toNat = true)
    (hpool : namesPool (commitRegion s) s.g.part (offsetOf (hcOperands o s).z) (hcOperands o s).x.toNat = false) :
    Completes o s (.hcOpFrame o) 0 { commitRegion s with
      frames := mapSet noFrame (commitRegion s).frames ((hcOperands o s).x.toNat / 65536)
        (s.g.part, tagAsid (hcOperands o s).asid (offsetOf (hcOperands o s).z), offsetOf (hcOperands o s).z / 65536) } :=
  completes_of h (congrArg Host.Outcome.next (hcIssue_takes h BitVec.and_zero hy))
    (hcFrame_written haligned ((part_commit (fun q => ownFrame q _) s fun _ => rfl).trans hframe) hpool) ⟨rfl, rfl⟩

theorem migrate_takes (hy : getS s (o.s.toNat + 1) &&& resAsid = 0) :
    exec (.hcOpMigrate o) s =
      .next (hcTakes o (hcMigrate (decide (s.p.wait = .migration)) s.g.part (hcOperands o s) (commitRegion s))) :=
  congrArg Host.Outcome.next (hcIssue_takes h BitVec.and_zero hy)

theorem migrate_locks (hy : getS s (o.s.toNat + 1) &&& resAsid = 0) (hwait : s.p.wait ≠ .migration) {l : Leaf}
    (hpool : poolIndex (commitRegion s) s.g.part (hcOperands o s).off = none)
    (hwalk : tableWalk (commitRegion s) s.g.part (hcOperands o s).asid (hcOperands o s).off = some l)
    (hlock : Pte.lock l.entry = false) (hpin : Pte.pin l.entry = false) (hnew : inPool (curPart s) (hcOperands o s).z.toNat = false)
    (hold : inPool (curPart s) (Pte.addr l.entry) = false) (haligned : (hcOperands o s).z.toNat % 2 ^ l.pageBits = 0)
    (hframe : ownFrame (curPart s) (hcOperands o s).z.toNat = true)
    (hmatch : recordsMatch (commitRegion s) s.g.part (hcOperands o s).asid ((hcOperands o s).off / 2 ^ l.pageBits * 2 ^ l.pageBits)
      l.pageBits (hcOperands o s).z.toNat (homeHc (hcOperands o s).off) = true) :
    exec (.hcOpMigrate o) s = .next (stall .migration (writePte l.entryPa (Pte.setBit l.entry 56 true) (commitRegion s))) := by
  rw [migrate_takes h hy, decide_eq_false hwait]
  refine congrArg (fun r => Host.Outcome.next (hcTakes o r)) (hcMigrate_locks hpool hwalk hlock hpin ?_ ?_ haligned ?_ hmatch)
  · exact (part_commit (fun q => inPool q _) s fun _ => rfl).trans hnew
  · exact (part_commit (fun q => inPool q _) s fun _ => rfl).trans hold
  · exact (part_commit (fun q => ownFrame q _) s fun _ => rfl).trans hframe

theorem migrate_completes (hy : getS s (o.s.toNat + 1) &&& resAsid = 0) (hwait : s.p.wait = .migration) {l : Leaf}
    (hpool : poolIndex (commitRegion s) s.g.part (hcOperands o s).off = none)
    (hwalk : tableWalk (commitRegion s) s.g.part (hcOperands o s).asid (hcOperands o s).off = some l) :
    Completes o s (.hcOpMigrate o) 0 (migrated (homeHc (hcOperands o s).off) (hcOperands o s).off (hcOperands o s).z.toNat l (commitRegion s)) := by
  refine completes_of h (migrate_takes h hy) ?_ (migrated_sameIssue _ _ _ _)
  rw [decide_eq_true hwait]
  exact hcMigrate_copied hpool hwalk

theorem unhold_completes (hy : getS s (o.s.toNat + 1) &&& resAsid = 0) {l : Leaf}
    (hwalk : walk (commitRegion s) s.g.part (hcOperands o s).asid (hcOperands o s).off = some l) (hlock : Pte.lock l.entry = false)
    (hbad : ∀ b ∈ (commitRegion s).badLines, b * 128 < l.pa - (hcOperands o s).off % 2 ^ l.pageBits ∨
      l.pa - (hcOperands o s).off % 2 ^ l.pageBits + 2 ^ l.pageBits ≤ b * 128) :
    Completes o s (.hcOpUnhold o) 0 (writePte l.entryPa (Pte.setBit l.entry 57 false) (commitRegion s)) :=
  completes_of h (congrArg Host.Outcome.next (hcIssue_takes h BitVec.and_zero hy)) (hcUnhold_clears hwalk hlock hbad)
    ((sameIssue_refl s).then (writePte_atHomes _ _))

theorem replay_completes (hy : getS s (o.s.toNat + 1) &&& resAsid = 0) {es : List LateEntry}
    (hes : es = lateOf (commitRegion s) s.g.part (hcOperands o s).asid (hcOperands o s).off) (hplain : ∀ e ∈ es, PlainLate e)
    (hrefusal : firstRefusal (commitRegion s) es = none)
    (hunlocked : ∀ e ∈ es, ∀ l, walk (commitRegion s) s.g.part (hcOperands o s).asid (offsetOf e.va) = some l → Pte.lock l.entry = false)
    (hreads : ∀ e ∈ es, unreadable (commitRegion s) e.part e.asid (offsetOf e.va) e.size = false) :
    Completes o s (.hcOpReplay o) 0
      (es.foldl (fun u e => performEntry e { u with late := u.late.filter fun x => x.id != e.id }) (commitRegion s)) := by
  have hissue := foldl_sameIssue es (fun e he u => (performEntry_atHomes (hplain e he)).comp (f := performEntry e)
    (g := fun u => { u with late := u.late.filter fun x => x.id != e.id }) (fun _ => rfl) u) (sameIssue_refl s)
  subst hes
  exact completes_of h (congrArg Host.Outcome.next (hcIssue_takes h BitVec.and_zero hy)) (hcReplay_plain hplain hrefusal hunlocked hreads)
    hissue

theorem drop_completes (hy : getS s (o.s.toNat + 1) &&& resAsid = 0)
    (hpool : poolIndex (commitRegion s) s.g.part (hcOperands o s).off = none) {es : List LateEntry}
    (hes : es = lateOf (commitRegion s) s.g.part (hcOperands o s).asid (hcOperands o s).off) (hplain : ∀ e ∈ es, PlainLate e)
    (hids : ((commitRegion s).late.map fun e => e.id).Nodup) :
    Completes o s (.hcOpDrop o) 0
      { commitRegion s with late := (commitRegion s).late.filter fun e => !(es.map fun x => x.id).contains e.id } := by
  subst hes
  exact completes_of h (congrArg Host.Outcome.next (hcIssue_takes h BitVec.and_zero hy)) (hcDrop_plain hpool hplain hids) ⟨rfl, rfl⟩

end Completes

/-- Settles O42. -/
theorem pageTableOperationsComplete : Obligations.PageTableOperationsComplete := by
  intro o s hpriv hgroup hready
  have h : HcReady o s := ⟨hpriv, hgroup, hready⟩
  refine ⟨fun hy hpool => tables_complete h hy hpool, fun hx hown hframe hshare => root_completes h hx hown hframe hshare,
    fun hy => ⟨fun haligned hframe hpool => frame_completes h hy haligned hframe hpool, fun l hpool hwalk => ⟨?_, fun hwait =>
      migrate_completes h hy hwait hpool hwalk⟩, fun l hwalk hlock hbad => unhold_completes h hy hwalk hlock hbad,
      fun es hes hplain => ?_⟩⟩
  · intro hwait hlock hpin hnew hold haligned hframe hmatch
    refine ⟨_, migrate_locks h hy hwait hpool hwalk hlock hpin hnew hold haligned hframe hmatch, rfl, ?_⟩
    have hp : (writePte l.entryPa (Pte.setBit l.entry 56 true) (commitRegion s)).p = s.p.closed :=
      ((writePte_atHomes _ _).p _).trans (commitRegion_closed s)
    have hg := (writePte_atHomes l.entryPa (Pte.setBit l.entry 56 true)).g (commitRegion s)
    obtain ⟨k, q, hk⟩ := commitRegion_gang s
    have hpc := congrArg Split.pc hp
    have hsregs := congrArg Split.sregs hp
    have hclock := congrArg Split.clock hp
    have hvregs := congrArg Gang.vregs (hg.trans hk)
    exact ⟨hpc, hsregs, hclock, hvregs, rfl⟩
  · have hplain' : ∀ e ∈ es, PlainLate e := fun e he => by
      obtain ⟨h1, h2, h3, h4, h5, h6, h7, h8⟩ := hplain e he
      exact ⟨h1, h2, h3, h4, h5, h6, h7, h8⟩
    exact ⟨fun hrefusal hunlocked hreads => replay_completes h hy hes hplain' hrefusal hunlocked hreads,
      fun hpool hids => drop_completes h hy hpool hes hplain' hids⟩

end Sys2Proof.Machine
end

section
/-! PROOF. Answers of local accesses (spec/05_memory_hierarchy.md R102, R111, R123; spec/19_faults_execution_memory.md R365; O43). -/

namespace Sys2Proof.Machine
open Host Sys2Proof.Rules

/-! ### Registers that an answer reaches (R102) -/

/-- The device without its registers and region entries. -/
def State.sansGangs (s : State) : State := { s with p := Split.vacant, g := Gang.vacant, gangs := [] }

theorem mapGang_sansGangs (n : Nat) (f : Gang → Gang) : Keeps State.sansGangs (mapGang n f) := fun s => by
  unfold mapGang
  split <;> rfl

theorem mapSplits_sansGangs (n : Nat) (f : Split → Split) : Keeps State.sansGangs (mapSplits n f) := fun s => by
  unfold mapSplits
  refine (mapGang_sansGangs _ _ _).trans ?_
  split <;> rfl

theorem mapGang_own {s : State} {n : Nat} (h : s.g.id = n) (f : Gang → Gang) : mapGang n f s = { s with g := f s.g } := if_pos h

theorem mapSplits_own {s : State} {n : Nat} (h : s.g.id = n) (f : Split → Split) :
    mapSplits n f s = { s with
      p := f s.p, g := { s.g with splits := s.g.splits.map f, parked := s.g.parked.map fun e => (e.1, e.2.map f) } } := by
  rw [mapSplits, if_pos h]
  exact mapGang_own (s := { s with p := f s.p }) h _

/-- The step by which a result reaches one register of a lane. -/
def deliverVector (gang id k : Nat) (v : BitVec 32) (st : RegState) (ok : Bool) (s : State) : State :=
  mapGang gang (fun g => { g with
      vregs := (deliverLane k id v st ok g.vregs g.vstate).1, vstate := (deliverLane k id v st ok g.vregs g.vstate).2 })
    (mapSplits gang (fun p => { p with entry := p.entry.map fun e => { e with
      vregs := (deliverLane k id v st ok e.vregs e.vstate).1, vstate := (deliverLane k id v st ok e.vregs e.vstate).2 } }) s)

theorem deliverTo_vector (gang id d n l : Nat) (sx : Bool) (data : List Byte) (st : RegState) (ok : Bool) (s : State) :
    deliverTo gang id (.vector d n l) sx data st ok s =
      (countFrom 0 n).foldl (fun s j => deliverVector gang id ((d + j) * 64 + l) (getAt 0 (loadedRegs sx data) j) st ok s) s := rfl

theorem deliverTo_sansGangs (gang id : Nat) (dest : Dest) (sx : Bool) (data : List Byte) (st : RegState) (ok : Bool) :
    Keeps State.sansGangs (deliverTo gang id dest sx data st ok) := by
  intro s
  cases dest with
  | none => rfl
  | scalar r => exact mapSplits_sansGangs _ _ s
  | vector d n l =>
    rw [deliverTo_vector]
    exact Keeps.foldl (f := fun s j => deliverVector gang id ((d + j) * 64 + l) (getAt 0 (loadedRegs sx data) j) st ok s)
      (fun j => (mapGang_sansGangs _ _).comp (mapSplits_sansGangs _ _)) _ s

/-- A result that reaches one register of a lane of the gang at issue. -/
theorem deliverVector_eq {s : State} {gang : Nat} (hgang : s.g.id = gang) (id k : Nat) (v : BitVec 32) (st : RegState) (ok : Bool) :
    ∃ e sp pk, deliverVector gang id k v st ok s =
      { s with
        p := { s.p with entry := e }
        g := { s.g with
          splits := sp, parked := pk
          vregs := (deliverLane k id v st ok s.g.vregs s.g.vstate).1, vstate := (deliverLane k id v st ok s.g.vregs s.g.vstate).2 } } := by
  rw [deliverVector, mapSplits_own hgang, mapGang_own (by exact hgang)]
  exact ⟨_, _, _, rfl⟩

theorem answered_trans {st : RegState} {as bs : List Nat} {s t u : State} (h : Answered st as s t) (k : Answered st bs t u) :
    Answered st (as ++ bs) s u := by
  refine ⟨fun c => ?_, fun n hn hc => ?_, fun n l hl hc => ?_, ?_, ?_, k.memory.trans h.memory⟩
  · rw [k.states, h.states]
    by_cases ha : c ∈ as <;> by_cases hb : c ∈ bs <;> simp [ha, hb]
  · rw [List.mem_append, not_or] at hc
    rw [k.scalars n hn hc.2, h.scalars n hn hc.1]
  · rw [List.mem_append, not_or] at hc
    rw [k.vectors n l hl hc.2, h.vectors n l hl hc.1]
  · rw [k.split, h.split]
  · rw [k.gang, h.gang]

theorem regState_scalar {s : State} {r : Nat} (h : r < 64) : regState s (codeS r) = mapGet .full s.p.sstate r := if_pos h

theorem regState_vector (s : State) (n l : Nat) : regState s (codeV n l) = mapGet .full s.g.vstate (n * 64 + l) := by
  have hhigh : ¬ codeV n l < 64 := by unfold codeV; omega
  rw [regState, if_neg hhigh, if_pos (by unfold codeV; omega)]
  rw [codeV, show 4096 + n * 64 + l - 4096 = n * 64 + l by omega]

/-- A vector register of which the state changes. -/
theorem regState_setV {s t : State} {n l : Nat} {st : RegState} (hscalar : t.p.sstate = s.p.sstate)
    (hvector : t.g.vstate = mapSet .full s.g.vstate (n * 64 + l) st) (c : Nat) :
    regState t c = if c ∈ [codeV n l] then st else regState s c := by
  simp only [List.mem_singleton]
  unfold regState codeV
  rw [hscalar, hvector, mapGet_mapSet]
  by_cases hlow : c < 64
  · rw [if_pos hlow, if_pos hlow, if_neg (by omega)]
  · by_cases hhigh : 4096 ≤ c
    · rw [if_neg hlow, if_pos hhigh, if_neg hlow, if_pos hhigh]
      exact if_congr (by omega) rfl rfl
    · rw [if_neg hlow, if_neg hhigh, if_neg hlow, if_neg hhigh, if_neg (by omega)]

/-- A scalar register of which the state changes. -/
theorem regState_setS' {s t : State} {r : Nat} {st : RegState} (hr : r < 64) (hvector : t.g.vstate = s.g.vstate)
    (hscalar : t.p.sstate = mapSet .full s.p.sstate r st) (c : Nat) :
    regState t c = if c ∈ [codeS r] then st else regState s c := by
  simp only [List.mem_singleton]
  unfold regState codeS
  rw [hscalar, hvector, mapGet_mapSet]
  by_cases hlow : c < 64
  · rw [if_pos hlow, if_pos hlow]
  · rw [if_neg hlow, if_neg hlow, if_neg (show ¬ c = r by omega)]

/-- A register of a lane that awaits an answer takes it. -/
theorem deliverVector_answers {s : State} {gang id n l : Nat} (hgang : s.g.id = gang)
    (hempty : regState s (codeV n l) = .empty id) (v : BitVec 32) (st : RegState) (ok : Bool) :
    Answered st [codeV n l] s (deliverVector gang id (n * 64 + l) v st ok s) ∧
      getV (deliverVector gang id (n * 64 + l) v st ok s) n l = if ok then v else getV s n l := by
  obtain ⟨e, sp, pk, hs⟩ := deliverVector_eq hgang id (n * 64 + l) v st ok
  rw [regState_vector] at hempty
  rw [hs, deliverLane, if_pos hempty]
  refine ⟨⟨regState_setV rfl rfl, fun _ _ _ => rfl, fun j i hi hc => ?_, rfl, rfl, rfl⟩, ?_⟩
  · have hne : ¬ j * 64 + i = n * 64 + l := fun h => hc (by rw [List.mem_singleton]; unfold codeV; omega)
    cases ok with
    | false => rfl
    | true => exact (mapGet_mapSet _ _ _ _ _).trans (if_neg hne)
  · cases ok with
    | false => rfl
    | true => exact (mapGet_mapSet _ _ _ _ _).trans (if_pos rfl)

/-- A scalar register that awaits an answer takes it. -/
theorem deliverScalar_answers {s : State} {gang id r : Nat} (hgang : s.g.id = gang) (hr : r < 64) (hempty : regState s (codeS r) = .empty id)
    (v : Word) (st : RegState) (ok : Bool) :
    Answered st [codeS r] s (mapSplits gang (deliverScalar r id v st ok) s) ∧
      getS (mapSplits gang (deliverScalar r id v st ok) s) r = if ok then v else getS s r := by
  rw [regState_scalar hr] at hempty
  have hsplit : deliverScalar r id v st ok s.p = { s.p with
      sstate := mapSet .full s.p.sstate r st, sregs := if ok then mapSet 0 s.p.sregs r v else s.p.sregs
      entry := (deliverScalar r id v st ok s.p).entry } := by
    unfold deliverScalar
    dsimp only
    rw [if_pos (decide_eq_true hempty)]
  rw [mapSplits_own hgang, hsplit]
  refine ⟨⟨regState_setS' hr rfl rfl, fun n hn hc => ?_, fun _ _ _ _ => rfl, rfl, rfl, rfl⟩, ?_⟩
  · have hne : ¬ n = r := fun h => hc (by rw [List.mem_singleton, h])
    cases ok with
    | false => rfl
    | true => exact (mapGet_mapSet _ _ _ _ _).trans (if_neg hne)
  · cases ok with
    | false => rfl
    | true => exact (mapGet_mapSet _ _ _ _ _).trans (if_pos rfl)

/-! ### Values (R152, R238) -/

theorem leNat_lt (l : List Byte) : leNat l < 2 ^ (8 * l.length) := by
  induction l with
  | nil => exact Nat.one_pos
  | cons b r ih =>
    have hb := b.isLt
    rw [leNat, List.length_cons, show 8 * (r.length + 1) = 8 * r.length + 8 by omega, Nat.pow_add]
    omega

theorem ofNat_mod_pow (w x : Nat) : BitVec.ofNat w (x % 2 ^ w) = BitVec.ofNat w x := by
  apply BitVec.eq_of_toNat_eq
  rw [BitVec.toNat_ofNat, BitVec.toNat_ofNat, Nat.mod_mod]

theorem toNat_emod_pow (w x : Nat) : ((x : Int) % ((2 ^ w : Nat) : Int)).toNat = x % 2 ^ w := by
  rw [← Int.natCast_emod, Int.toNat_natCast]

/-- A value whose bytes fill the register is their bits, whether or not its sign is extended. -/
theorem ofInt_sextInt {w x : Nat} (hx : x < 2 ^ w) : BitVec.ofInt w (sextInt x w) = BitVec.ofNat w x := by
  apply BitVec.eq_of_toNat_eq
  rw [BitVec.toNat_ofInt, BitVec.toNat_ofNat, sextInt]
  simp only [Nat.mod_eq_of_lt hx]
  split
  · rw [toNat_emod_pow, Nat.mod_eq_of_lt hx]
  · rw [Int.sub_emod_right, toNat_emod_pow, Nat.mod_eq_of_lt hx]

/-- The value of loaded bytes that fit a register. -/
theorem ofNat_loadedValue (sx : Bool) (w : Nat) (data : List Byte) (h : data.length * 8 ≤ w) :
    BitVec.ofNat w (loadedValue sx w data) =
      if sx then BitVec.ofInt w (sextInt (leNat data) (8 * data.length)) else BitVec.ofNat w (leNat data) := by
  have hlt := leNat_lt data
  rw [Nat.mul_comm] at h
  rw [loadedValue, Nat.mul_comm data.length 8]
  cases sx with
  | false => exact ofNat_mod_pow w _
  | true =>
    by_cases hfull : 8 * data.length < w
    · rw [decide_eq_true hfull]
      apply BitVec.eq_of_toNat_eq
      rw [Bool.and_self, if_pos rfl, if_pos rfl, BitVec.toNat_ofNat, BitVec.toNat_ofInt, wrapNat, Nat.mod_eq_of_lt]
      have hpos : (0 : Int) < ((2 ^ w : Nat) : Int) := by exact_mod_cast Nat.two_pow_pos w
      have hle := Int.emod_nonneg (sextInt (leNat data) (8 * data.length)) hpos.ne'
      have hbound := Int.emod_lt_of_pos (sextInt (leNat data) (8 * data.length)) hpos
      exact (Int.toNat_lt hle).mpr hbound
    · have hw : w = 8 * data.length := by omega
      subst hw
      rw [decide_eq_false hfull]
      exact (ofNat_mod_pow _ _).trans (ofInt_sextInt hlt).symm

/-- The value that a scalar register takes (R152). -/
theorem scalarAnswer (sx : Bool) {data : List Byte} (h : data.length ≤ 8) :
    BitVec.ofNat 64 (loadedValue sx 64 data) = answerWord 64 sx data 0 := by
  rw [ofNat_loadedValue sx 64 data (by omega), answerWord, List.take_of_length_le (by simpa using h)]
  rfl

theorem getAt_map_countFrom {α : Type} {d : α} {f : Nat → α} {n j : Nat} (hj : j < n) : getAt d ((countFrom 0 n).map f) j = f j := by
  simp [getAt_eq_getD, countFrom_eq, hj]

/-- The value that register j of a vector group takes (R238). -/
theorem vectorAnswer (sx : Bool) {data : List Byte} {j : Nat} (hsize : data.length ≤ 4 ∨ data.length % 4 = 0) (hj : j < (data.length + 3) / 4) :
    getAt 0 (loadedRegs sx data) j = answerWord 32 sx data j := by
  rw [loadedRegs]
  by_cases hshort : data.length ≤ 4
  · have hj0 : j = 0 := by omega
    subst hj0
    rw [if_pos hshort, answerWord]
    refine (ofNat_loadedValue sx 32 data (by omega)).trans ?_
    rw [List.take_of_length_le (by simpa using hshort)]
    rfl
  · have hmul : data.length % 4 = 0 := hsize.resolve_left hshort
    have hpart : ((data.drop (4 * j)).take 4).length = 4 := by
      rw [List.length_take, List.length_drop]
      omega
    have hlt := leNat_lt ((data.drop (4 * j)).take 4)
    rw [hpart] at hlt
    rw [if_neg hshort, getAt_map_countFrom (by omega), answerWord]
    cases sx with
    | false => rfl
    | true =>
      rw [if_pos rfl]
      change _ = BitVec.ofInt 32 (sextInt (leNat ((data.drop (4 * j)).take 4)) (8 * ((data.drop (4 * j)).take 4).length))
      rw [hpart]
      exact (ofInt_sextInt hlt).symm

/-! ### A result reaches its destination (R102) -/

theorem codeV_inj {a b l : Nat} : codeV a l = codeV b l ↔ a = b := by
  unfold codeV
  omega

theorem answered_gang {st : RegState} {cs : List Nat} {s t : State} (h : Answered st cs s t) : t.g.id = s.g.id := by rw [h.gang]

theorem answered_refl (st : RegState) (s : State) : Answered st [] s s :=
  ⟨fun _ => rfl, fun _ _ _ => rfl, fun _ _ _ _ => rfl, rfl, rfl, rfl⟩

/-- The registers of a vector group that await an answer take it in order. -/
theorem deliverVectors_answer {gang id d l : Nat} (hl : l < 64) (v : Nat → BitVec 32) (st : RegState) (ok : Bool) (js : List Nat)
    (hjs : js.Nodup) {s : State} (hgang : s.g.id = gang) (hempty : ∀ j ∈ js, regState s (codeV (d + j) l) = .empty id) :
    Answered st (js.map fun j => codeV (d + j) l) s (js.foldl (fun s j => deliverVector gang id ((d + j) * 64 + l) (v j) st ok s) s) ∧
      ∀ j ∈ js, getV (js.foldl (fun s j => deliverVector gang id ((d + j) * 64 + l) (v j) st ok s) s) (d + j) l =
        if ok then v j else getV s (d + j) l := by
  induction js generalizing s with
  | nil => exact ⟨answered_refl st s, nofun⟩
  | cons a r ih =>
    obtain ⟨hmem, hr⟩ := List.nodup_cons.mp hjs
    obtain ⟨hea, her⟩ := List.forall_mem_cons.mp hempty
    have hother {j : Nat} (hj : j ∈ r) : codeV (d + j) l ∉ [codeV (d + a) l] := by
      rw [List.mem_singleton, codeV_inj]
      exact fun h => hmem ((Nat.add_left_cancel h) ▸ hj)
    obtain ⟨hone, hvalue⟩ := deliverVector_answers hgang hea (v a) st ok
    obtain ⟨hrest, hvalues⟩ := ih hr ((answered_gang hone).trans hgang) fun j hj =>
      (hone.states _).trans ((if_neg (hother hj)).trans (her j hj))
    refine ⟨answered_trans hone hrest, List.forall_mem_cons.mpr ⟨?_, fun j hj => ?_⟩⟩
    · refine (hrest.vectors _ _ hl ?_).trans hvalue
      rw [List.mem_map]
      rintro ⟨j, hj, hcode⟩
      exact hmem ((Nat.add_left_cancel (codeV_inj.mp hcode)) ▸ hj)
    · refine (hvalues j hj).trans ?_
      rw [hone.vectors _ _ hl (hother hj)]

theorem destCodes_vector (d n l : Nat) : destCodes (.vector d n l) = (countFrom 0 n).map fun j => codeV (d + j) l := by
  simp [destCodes, countFrom_eq]

theorem countFrom_nodup (a n : Nat) : (countFrom a n).Nodup := by
  rw [countFrom_eq]
  exact List.Nodup.map (add_right_injective a) List.nodup_range

theorem mem_countFrom_zero {n j : Nat} : j ∈ countFrom 0 n ↔ j < n := by simp [countFrom_eq]

/-- A result, or a refusal, reaches a destination that awaits it. -/
theorem deliverTo_answers {gang id n : Nat} {dest : Dest} (hfits : fits n dest) (sx : Bool) (data : List Byte) (st : RegState) (ok : Bool)
    {s : State} (hgang : s.g.id = gang) (hempty : ∀ c ∈ destCodes dest, regState s c = .empty id) :
    Answered st (destCodes dest) s (deliverTo gang id dest sx data st ok s) ∧
      (∀ r, dest = .scalar r → getS (deliverTo gang id dest sx data st ok s) r =
        if ok then BitVec.ofNat 64 (loadedValue sx 64 data) else getS s r) ∧
      ∀ d m l, dest = .vector d m l → ∀ j < m, getV (deliverTo gang id dest sx data st ok s) (d + j) l =
        if ok then getAt 0 (loadedRegs sx data) j else getV s (d + j) l := by
  cases dest with
  | none => exact hfits.elim
  | scalar r =>
    obtain ⟨hone, hvalue⟩ := deliverScalar_answers hgang hfits.1 (hempty _ (List.mem_singleton_self _))
      (BitVec.ofNat 64 (loadedValue sx 64 data)) st ok
    exact ⟨hone, fun _ hr => by cases hr; exact hvalue, nofun⟩
  | vector d m l =>
    rw [destCodes_vector] at hempty ⊢
    rw [deliverTo_vector]
    obtain ⟨hall, hvalues⟩ := deliverVectors_answer hfits.1 (fun j => getAt 0 (loadedRegs sx data) j) st ok (countFrom 0 m)
      (countFrom_nodup 0 m) hgang fun j hj => hempty _ (List.mem_map_of_mem hj)
    refine ⟨hall, nofun, fun _ _ _ hv j hj => ?_⟩
    cases hv
    exact hvalues j (mem_countFrom_zero.mpr hj)

/-- A refusal writes no register. -/
theorem deliverLane_refused (k id : Nat) (v : BitVec 32) (st : RegState) (vs : SMap (BitVec 32)) (ss : SMap RegState) :
    (deliverLane k id v st false vs ss).1 = vs := by
  unfold deliverLane
  split <;> rfl

theorem deliverTo_refused {gang id : Nat} {dest : Dest} (sx : Bool) (data : List Byte) (st : RegState) {s : State} (hgang : s.g.id = gang) :
    (deliverTo gang id dest sx data st false s).p.sregs = s.p.sregs ∧ (deliverTo gang id dest sx data st false s).g.vregs = s.g.vregs := by
  cases dest with
  | none => exact ⟨rfl, rfl⟩
  | scalar r =>
    rw [deliverTo, mapSplits_own hgang]
    refine ⟨?_, rfl⟩
    unfold deliverScalar
    dsimp only
    split <;> rfl
  | vector d m l =>
    rw [deliverTo_vector]
    generalize countFrom 0 m = js
    induction js generalizing s with
    | nil => exact ⟨rfl, rfl⟩
    | cons a r ih =>
      obtain ⟨e, sp, pk, hs⟩ := deliverVector_eq hgang id ((d + a) * 64 + l) (getAt 0 (loadedRegs sx data) a) st false
      rw [List.foldl_cons, hs, deliverLane_refused]
      exact ih hgang

/-! ### Results, refusals and acknowledgements (R102, R365) -/

section Answers
variable {s : State} {q : Req} (harg : s.arg = .num q.id) (hreq : reqOf s q.id = some q)

theorem onReq_named {f : Req → State → State} (harg : s.arg = .num q.id) (hreq : reqOf s q.id = some q) : onReq f s = f q s := by
  rw [onReq, onNum, harg]
  dsimp only
  rw [hreq]

theorem fits_ne_none {n : Nat} {d : Dest} (h : fits n d) : d ≠ .none := by
  rintro rfl
  exact h

include harg hreq

theorem loadResult_arrives (hgang : q.gang = s.g.id) {data : List Byte} (hphase : q.phase = .done data)
    (hfits : fits data.length q.dest) (hempty : ∀ c ∈ destCodes q.dest, regState s c = .empty q.id) :
    ∃ t, exec .loadResultArrive s = .next t ∧ Answered .full (destCodes q.dest) s t ∧
      t.reqs = s.reqs.filter (fun x => x.id != q.id) ∧ (∀ r, q.dest = .scalar r → getS t r = answerWord 64 q.sx data 0) ∧
      ∀ d n l, q.dest = .vector d n l → ∀ j < n, getV t (d + j) l = answerWord 32 q.sx data j := by
  have hexec : exec .loadResultArrive s = .next (dropReq q.id (deliverResult q data true s)) := by
    refine congrArg Host.Outcome.next ((onReq_named harg hreq).trans ?_)
    simp only [hphase]
    exact if_neg (fits_ne_none hfits)
  obtain ⟨hall, hscalar, hvector⟩ := deliverTo_answers hfits q.sx data .full true hgang.symm hempty
  have hreqs := congrArg State.reqs (deliverTo_sansGangs q.gang q.id q.dest q.sx data .full true s)
  have hreqs : (deliverResult q data true s).reqs = s.reqs := hreqs
  obtain ⟨hstates, hscalars, hvectors, hsplit, hgangs, hmem⟩ := hall
  refine ⟨_, hexec, ⟨hstates, hscalars, hvectors, hsplit, hgangs, hmem⟩, congrArg (List.filter _) hreqs, fun r hr => ?_,
    fun d n l hd j hj => ?_⟩
  · refine (hscalar r hr).trans (scalarAnswer q.sx ?_)
    rw [hr] at hfits
    obtain ⟨-, hsize⟩ := hfits
    simp only [List.mem_cons, List.not_mem_nil, or_false] at hsize
    omega
  · refine (hvector d n l hd j hj).trans (vectorAnswer q.sx ?_ ?_)
    · rw [hd] at hfits
      obtain ⟨-, hsize, -⟩ := hfits
      simp only [List.mem_cons, List.not_mem_nil, or_false] at hsize
      omega
    · rw [hd] at hfits
      obtain ⟨-, -, hn⟩ := hfits
      exact hn ▸ hj

theorem loadFault_responds (hgang : q.gang = s.g.id) {c : BitVec 8} {n : Nat} (hphase : q.phase = .refused c) (hfits : fits n q.dest)
    (hempty : ∀ r ∈ destCodes q.dest, regState s r = .empty q.id) :
    ∃ t, exec .loadFaultResponse s = .next t ∧ Answered (.faulted q.id) (destCodes q.dest) s t ∧ t.reqs = s.reqs ∧
      t.p.sregs = s.p.sregs ∧ t.g.vregs = s.g.vregs := by
  have hexec : exec .loadFaultResponse s = .next (deliverResult q [] false s) := by
    refine congrArg Host.Outcome.next ((onReq_named harg hreq).trans ?_)
    simp only [hphase]
  obtain ⟨hall, -, -⟩ := deliverTo_answers hfits q.sx [] (.faulted q.id) false hgang.symm hempty
  have hreqs := congrArg State.reqs (deliverTo_sansGangs q.gang q.id q.dest q.sx [] (.faulted q.id) false s)
  exact ⟨_, hexec, hall, hreqs, deliverTo_refused q.sx [] _ hgang.symm⟩

theorem storeAck_ends {old : List Byte} (hphase : q.phase = .done old) (hdest : q.dest = .none)
    (hop : (∃ n ty rm fz v, q.op = .reduce n ty rm fz v) ∨ q.op = .discard) :
    exec .storeAck s = .next { s with reqs := s.reqs.filter fun x => x.id != q.id } := by
  refine congrArg Host.Outcome.next ((onReq_named harg hreq).trans ?_)
  rcases hop with ⟨n, ty, rm, fz, v, hop⟩ | hop
  · simp only [hphase, hdest, hop]
    rfl
  · simp only [hphase, hdest, hop]
    rfl

theorem storeAck_store {old d : List Byte} (hphase : q.phase = .done old) (hdest : q.dest = .none) (hop : q.op = .store d) :
    exec .storeAck s = .next (dropReq q.id (ackCopy q d s)) := by
  refine congrArg Host.Outcome.next ((onReq_named harg hreq).trans ?_)
  simp only [hphase, hdest, hop]

end Answers

/-- No byte of an acknowledged store waits in a copy of its core. -/
theorem ackCopy_pending (q : Req) (d : List Byte) (s : State) :
    ∀ c ∈ (ackCopy q d s).l1, c.core = q.core → c.ref = q.ref → ∀ i ∈ c.pending, i < q.off % 128 ∨ q.off % 128 + q.size ≤ i := by
  intro c hc hcore href i hi
  unfold ackCopy at hc
  dsimp only at hc
  split at hc
  · next hclash =>
    have hkept := (List.mem_filter.mp hc).2
    simp [hclash, hcore, href] at hkept
  · obtain ⟨x, hx, rfl⟩ := mem_updateWhere hc
    split at hi
    · have := (List.mem_filter.mp hi).2
      simp at this
      omega
    · next hmine =>
      rw [if_neg hmine] at hcore href
      simp [hcore, href] at hmine

theorem ackCopy_quiet (q : Req) (d : List Byte) (s : State) : Quiet s (ackCopy q d s) ∧ (ackCopy q d s).reqs = s.reqs := by
  unfold ackCopy
  dsimp only
  split
  · exact ⟨⟨rfl, rfl, rfl, rfl⟩, rfl⟩
  · exact ⟨⟨rfl, rfl, rfl, rfl⟩, rfl⟩

/-! ### The PLB (R123) -/

/-- The entry that a home's answer brings. -/
def fetchedEntry (s : State) (core part asid : Nat) (va : Word) : PlbEntry :=
  { core := core, part := part, asid := tagAsid asid (offsetOf va), granule := offsetOf va / 65536
    perm := (pageInfo s part asid va).perm, coh := (pageInfo s part asid va).coh }

/-- The entries of other granules, with room for one more of the core. -/
def plbRest (e : PlbEntry) (l : List PlbEntry) : List PlbEntry :=
  l.filter fun x => !(x.core == e.core && x.part == e.part && x.asid == e.asid && x.granule == e.granule)

/-- A split that waits for the entry goes on. -/
def plbWake (e : PlbEntry) (g : Gang) (p : Split) : Split :=
  match p.wait with
  | .plb a _ =>
    if g.core = e.core ∧ g.part = e.part ∧ tagAsid g.asid (offsetOf a) = e.asid ∧ offsetOf a / 65536 = e.granule then
      { p with wait := .plb a true }
    else p
  | _ => p

def plbWakeGang (e : PlbEntry) (g : Gang) : Gang :=
  { g with splits := g.splits.map (plbWake e g), parked := g.parked.map fun x => (x.1, x.2.map (plbWake e g)) }

theorem plbWake_split (e : PlbEntry) (g : Gang) (p : Split) : plbWake e g p = { p with wait := (plbWake e g p).wait } := by
  unfold plbWake
  split
  · split <;> rfl
  · rfl

theorem plbFetch_eq {s : State} {core part asid : Nat} {va : Word} (harg : s.arg = .plb core part asid va)
    (hroom : (s.plb.filter fun x => x.core == core).length < 64) :
    exec .plbFetchResponse s = .next { s with
      plb := plbRest (fetchedEntry s core part asid va) s.plb ++ [fetchedEntry s core part asid va]
      p := plbWake (fetchedEntry s core part asid va) s.g s.p, g := plbWakeGang (fetchedEntry s core part asid va) s.g
      gangs := s.gangs.map (plbWakeGang (fetchedEntry s core part asid va)) } := by
  have hrest : ((plbRest (fetchedEntry s core part asid va) s.plb).filter fun x => x.core == core).length < Config.plbEntries :=
    (((List.filter_sublist).filter _).length_le).trans_lt hroom
  have hexec : exec .plbFetchResponse s = .next { s with
      plb := (if ((plbRest (fetchedEntry s core part asid va) s.plb).filter fun x => x.core == core).length < Config.plbEntries then
        plbRest (fetchedEntry s core part asid va) s.plb
        else dropFirst (fun x => x.core == core) (plbRest (fetchedEntry s core part asid va) s.plb)) ++ [fetchedEntry s core part asid va]
      p := plbWake (fetchedEntry s core part asid va) s.g s.p, g := plbWakeGang (fetchedEntry s core part asid va) s.g
      gangs := s.gangs.map (plbWakeGang (fetchedEntry s core part asid va)) } := by
    show execPlbFetchResponse s = _
    rw [execPlbFetchResponse, harg]
    rfl
  rw [hexec, if_pos hrest]

/-- Settles O43. -/
theorem answersFillTheirDestinations : Obligations.AnswersFillTheirDestinations := by
  refine ⟨fun s q harg hreq hgang => ⟨fun data hphase hfits hempty => loadResult_arrives harg hreq hgang hphase hfits hempty,
    fun c n hphase hfits hempty => loadFault_responds harg hreq hgang hphase hfits hempty, fun old hphase hdest => ⟨?_, ?_, ?_⟩⟩,
    fun s core part asid va harg hroom => ?_⟩
  · exact fun n ty rm fz v hop => storeAck_ends harg hreq hphase hdest (.inl ⟨n, ty, rm, fz, v, hop⟩)
  · exact fun hop => storeAck_ends harg hreq hphase hdest (.inr hop)
  · intro d hop
    obtain ⟨⟨hp, hg, hgangs, hmem⟩, hreqs⟩ := ackCopy_quiet q d s
    exact ⟨_, storeAck_store harg hreq hphase hdest hop, ⟨hp, hg, hgangs, hmem⟩, congrArg (List.filter _) hreqs, ackCopy_pending q d s⟩
  · refine ⟨_, plbFetch_eq harg hroom, List.mem_append_right _ (List.mem_singleton_self _), fun e he hne => ?_,
      plbWake_split _ _ _, rfl, rfl, rfl, fun hwait hcore hpart hasid => ?_⟩
    · refine List.mem_append_left _ (List.mem_filter.mpr ⟨he, ?_⟩)
      simp only [Bool.not_eq_true', Bool.and_eq_false_iff, beq_eq_false_iff_ne, or_assoc]
      exact hne
    · show (plbWake _ s.g s.p).wait = _
      rw [plbWake, hwait]
      dsimp only
      rw [if_pos ⟨hcore, hpart, by rw [hasid]; rfl, rfl⟩]

end Sys2Proof.Machine
end

section
/-! PROOF. Answers of peers (spec/06_coherence_fabric.md R129, R132, R133; spec/20_faults_fabric_host_start.md R385, R386; O44). -/

namespace Sys2Proof.Machine
open Host Sys2Proof.Rules

/-! ### Registers that a refusal reaches (R102) -/

/-- A register that is in a state already keeps it. -/
theorem regState_kept {s : State} {x : Nat} {st : RegState} (h : regState s x = st) (c : Nat) :
    regState s c = if c ∈ [x] then st else regState s c := by
  simp only [List.mem_singleton]
  split
  · next hc => rw [hc, h]
  · rfl

theorem deliverVector_refuses {s : State} {gang id n l : Nat} (hgang : s.g.id = gang) (v : BitVec 32) {st : RegState}
    (h : regState s (codeV n l) = .empty id ∨ regState s (codeV n l) = st) :
    Answered st [codeV n l] s (deliverVector gang id (n * 64 + l) v st false s) := by
  by_cases hempty : regState s (codeV n l) = .empty id
  · exact (deliverVector_answers hgang hempty v st false).1
  · have hkept := h.resolve_left hempty
    obtain ⟨e, sp, pk, hs⟩ := deliverVector_eq hgang id (n * 64 + l) v st false
    rw [regState_vector] at hempty
    rw [hs, deliverLane, if_neg hempty]
    exact ⟨regState_kept hkept, fun _ _ _ => rfl, fun _ _ _ _ => rfl, rfl, rfl, rfl⟩

theorem deliverScalar_refuses {s : State} {gang id r : Nat} (hgang : s.g.id = gang) (hr : r < 64) (v : Word) {st : RegState}
    (h : regState s (codeS r) = .empty id ∨ regState s (codeS r) = st) :
    Answered st [codeS r] s (mapSplits gang (deliverScalar r id v st false) s) := by
  by_cases hempty : regState s (codeS r) = .empty id
  · exact (deliverScalar_answers hgang hr hempty v st false).1
  · have hkept := h.resolve_left hempty
    rw [regState_scalar hr] at hempty
    have hsplit : deliverScalar r id v st false s.p = { s.p with entry := (deliverScalar r id v st false s.p).entry } := by
      unfold deliverScalar
      dsimp only
      rw [if_neg (by simpa using hempty)]
    rw [mapSplits_own hgang, hsplit]
    exact ⟨regState_kept hkept, fun _ _ _ => rfl, fun _ _ _ _ => rfl, rfl, rfl, rfl⟩

theorem deliverVectors_refuse {gang id d l : Nat} (v : Nat → BitVec 32) {st : RegState} (js : List Nat) {s : State} (hgang : s.g.id = gang)
    (h : ∀ j ∈ js, regState s (codeV (d + j) l) = .empty id ∨ regState s (codeV (d + j) l) = st) :
    Answered st (js.map fun j => codeV (d + j) l) s
      (js.foldl (fun s j => deliverVector gang id ((d + j) * 64 + l) (v j) st false s) s) := by
  induction js generalizing s with
  | nil => exact answered_refl st s
  | cons a r ih =>
    obtain ⟨ha, hr⟩ := List.forall_mem_cons.mp h
    have hone := deliverVector_refuses hgang (v a) ha
    refine answered_trans hone (ih ((answered_gang hone).trans hgang) fun j hj => ?_)
    rw [hone.states]
    split
    · exact .inr rfl
    · exact hr j hj

/-- A refusal reaches a destination that awaits it, whatever other lane it is the destination of. -/
theorem deliverTo_refuses {gang id : Nat} {dest : Dest} (hfits : ∃ n, fits n dest) (sx : Bool) (data : List Byte) {st : RegState}
    {s : State} (hgang : s.g.id = gang) (h : ∀ c ∈ destCodes dest, regState s c = .empty id ∨ regState s c = st) :
    Answered st (destCodes dest) s (deliverTo gang id dest sx data st false s) := by
  obtain ⟨n, hfits⟩ := hfits
  cases dest with
  | none => exact hfits.elim
  | scalar r => exact deliverScalar_refuses hgang hfits.1 _ (h _ (List.mem_singleton_self _))
  | vector d m l =>
    rw [destCodes_vector] at h ⊢
    exact deliverVectors_refuse _ (countFrom 0 m) hgang fun j hj => h _ (List.mem_map_of_mem hj)

/-- The destinations of several lanes are refused. -/
theorem refuseAll {gang id : Nat} {st : RegState} (ds : List (Nat × Dest)) (hfits : ∀ e ∈ ds, ∃ n, fits n e.2) {s : State}
    (hgang : s.g.id = gang) (h : ∀ e ∈ ds, ∀ c ∈ destCodes e.2, regState s c = .empty id ∨ regState s c = st) :
    Answered st (ds.flatMap fun e => destCodes e.2) s (ds.foldl (fun s e => deliverTo gang id e.2 false [] st false s) s) ∧
      (ds.foldl (fun s e => deliverTo gang id e.2 false [] st false s) s).p.sregs = s.p.sregs ∧
      (ds.foldl (fun s e => deliverTo gang id e.2 false [] st false s) s).g.vregs = s.g.vregs := by
  induction ds generalizing s with
  | nil => exact ⟨answered_refl st s, rfl, rfl⟩
  | cons e r ih =>
    obtain ⟨hfe, hfr⟩ := List.forall_mem_cons.mp hfits
    obtain ⟨he, hr⟩ := List.forall_mem_cons.mp h
    have hone := deliverTo_refuses hfe false [] hgang he
    obtain ⟨hall, hsregs, hvregs⟩ := ih hfr ((answered_gang hone).trans hgang) fun x hx c hc => by
      rw [hone.states]
      split
      · exact .inr rfl
      · exact hr x hx c hc
    obtain ⟨hs, hv⟩ := deliverTo_refused (id := id) (dest := e.2) false [] st hgang
    exact ⟨answered_trans hone hall, hsregs.trans hs, hvregs.trans hv⟩

/-! ### A request of one line (R144) -/

/-- The device with a request between others. -/
def beside (l m : List RemoteReq) (x : RemoteReq) (s : State) : State := { s with remotes := l ++ x :: m }

/-- Nothing else of a replay is on its way, and no other request has the name of its one. -/
structure OneLine (l m : List RemoteReq) (r : RemoteReq) : Prop where
  named : ∀ y ∈ l ++ m, y.id ≠ r.id
  alone : ∀ y ∈ l ++ m, ¬ (y.gang = r.gang ∧ y.group = r.group ∧ y.cmd = none)

theorem oneLine_of_onTheWay {s : State} {r : RemoteReq} (h : OnTheWay s r) : ∃ l m, s = beside l m r s ∧ OneLine l m r := by
  obtain ⟨l, m, hlm, hl, -, hm⟩ := List.filter_eq_cons_iff.mp h.one
  have hother : ∀ y ∈ l ++ m, y.id ≠ r.id := by
    intro y hy
    rcases List.mem_append.mp hy with hy | hy
    · simpa using hl y hy
    · simpa using List.filter_eq_nil_iff.mp hm y hy
  refine ⟨l, m, congrArg (fun q => { s with remotes := q }) hlm, hother, fun y hy hmate => ?_⟩
  have hmem : y ∈ s.remotes := by
    rw [hlm]
    rcases List.mem_append.mp hy with hy | hy
    · exact List.mem_append_left _ hy
    · exact List.mem_append_right _ (List.mem_cons_of_mem _ hy)
  exact hother y hy (congrArg RemoteReq.id (h.alone y hmem hmate.1 hmate.2.1 hmate.2.2))

theorem updateWhere_append {α : Type} (q : α → Bool) (f : α → α) (l m : List α) :
    updateWhere q f (l ++ m) = updateWhere q f l ++ updateWhere q f m := by
  induction l with
  | nil => rfl
  | cons a r ih => rw [List.cons_append, updateWhere, updateWhere, ih]; rfl

theorem updateWhere_none {α : Type} {q : α → Bool} (f : α → α) {l : List α} (h : ∀ x ∈ l, q x = false) : updateWhere q f l = l := by
  induction l with
  | nil => rfl
  | cons a r ih =>
    obtain ⟨ha, hr⟩ := List.forall_mem_cons.mp h
    rw [updateWhere, ih hr, ha, if_neg Bool.false_ne_true]

section OneLine
variable {l m : List RemoteReq} {r x : RemoteReq} (h : OneLine l m r) (s : State)
include h

theorem mapRemote_beside (hid : x.id = r.id) (f : RemoteReq → RemoteReq) : mapRemote r.id f (beside l m x s) = beside l m (f x) s := by
  have hl : ∀ y ∈ l, (y.id == r.id) = false := fun y hy => by simpa using h.named y (List.mem_append_left _ hy)
  have hm : ∀ y ∈ m, (y.id == r.id) = false := fun y hy => by simpa using h.named y (List.mem_append_right _ hy)
  refine congrArg (fun q => { s with remotes := q }) ?_
  show updateWhere _ f (l ++ x :: m) = _
  rw [updateWhere_append, updateWhere_none f hl, updateWhere, updateWhere_none f hm, if_pos (by simp [hid])]

theorem named_beside (hid : x.id = r.id) : ((beside l m x s).remotes.filter fun y => y.id == r.id) = [x] := by
  have hl : l.filter (fun y => y.id == r.id) = [] :=
    List.filter_eq_nil_iff.mpr fun y hy => by simpa using h.named y (List.mem_append_left _ hy)
  have hm : m.filter (fun y => y.id == r.id) = [] :=
    List.filter_eq_nil_iff.mpr fun y hy => by simpa using h.named y (List.mem_append_right _ hy)
  show (l ++ x :: m).filter _ = _
  rw [List.filter_append, List.filter_cons, hl, hm, if_pos (by simp [hid])]
  rfl

theorem replayMates_beside (hsame : x.gang = r.gang ∧ x.group = r.group ∧ x.cmd = none) : replayMates (beside l m x s) r = [x] := by
  have hother : ∀ y ∈ l ++ m, (y.gang == r.gang && y.group == r.group && y.cmd.isNone) = false := by
    intro y hy
    rw [Bool.eq_false_iff]
    intro hmate
    simp only [Bool.and_eq_true, beq_iff_eq, Option.isNone_iff_eq_none] at hmate
    exact h.alone y hy ⟨hmate.1.1, hmate.1.2, hmate.2⟩
  show (l ++ x :: m).filter _ = _
  rw [List.filter_append, List.filter_cons,
    List.filter_eq_nil_iff.mpr fun y hy => ne_true_of_eq_false (hother y (List.mem_append_left _ hy)),
    List.filter_eq_nil_iff.mpr fun y hy => ne_true_of_eq_false (hother y (List.mem_append_right _ hy)), if_pos (by simp [hsame])]
  rfl

/-- The filter that ends a replay leaves its request or takes it. -/
theorem closed_beside (hid : x.id = r.id) (keeps : RemoteReq → Bool) :
    (beside l m x s).remotes.filter (fun y => !(([x] : List RemoteReq).any fun z => z.id == y.id) || keeps y) =
      l ++ (if keeps x then [x] else []) ++ m := by
  have hkept : ∀ y ∈ l ++ m, (!(([x] : List RemoteReq).any fun z => z.id == y.id) || keeps y) = true := by
    intro y hy
    have hne : (x.id == y.id) = false := by
      rw [hid]
      simpa using (h.named y hy).symm
    simp [hne]
  show (l ++ x :: m).filter _ = _
  rw [List.filter_append, List.filter_cons, List.filter_eq_self.mpr fun y hy => hkept y (List.mem_append_left _ hy),
    List.filter_eq_self.mpr fun y hy => hkept y (List.mem_append_right _ hy)]
  cases keeps x <;> simp

end OneLine

theorem findFirst_eq_head {α : Type} (q : α → Bool) (l : List α) : findFirst q l = (l.filter q).head? := by
  cases hl : l.filter q with
  | nil =>
    cases hf : findFirst q l with
    | none => rfl
    | some a => exact absurd (List.filter_eq_nil_iff.mp hl a (of_findFirst hf).1) (not_not_intro (of_findFirst hf).2)
  | cons a r => exact findFirst_of_filter hl

/-- A request that is the only one of its name. -/
theorem remoteOf_of_named {t : State} {n : Nat} {xs : List RemoteReq} (h : (t.remotes.filter fun y => y.id == n) = xs) :
    remoteOf t n = xs.head? := by
  rw [remoteOf, findFirst_eq_head, h]

theorem maskOf_testBit (l : List Nat) (i : Nat) : (maskOf l).getLsbD i = true ↔ i < 64 ∧ i ∈ l := by
  induction l with
  | nil => simp [maskOf]
  | cons a r ih =>
    rw [maskOf, BitVec.getLsbD_or, Bool.or_eq_true, ih, laneBit, BitVec.getLsbD_ofNat, Nat.testBit_two_pow, List.mem_cons]
    simp only [Bool.and_eq_true, decide_eq_true_eq]
    constructor
    · rintro (⟨hi, ha⟩ | ⟨hi, hr⟩)
      · exact ⟨hi, .inl ha.symm⟩
      · exact ⟨hi, .inr hr⟩
    · rintro ⟨hi, ha | hr⟩
      · exact .inl ⟨hi, ha.symm⟩
      · exact .inr ⟨hi, hr⟩

section Way
variable {s : State} {r : RemoteReq} (h : OnTheWay s r)
include h

theorem onTheWay_inFlight : inFlight r = true := by
  obtain ⟨hwaiting, hheld, hsaved, hview, hrest⟩ := h.sent
  rw [inFlight, hwaiting, hheld, hsaved, hview, decide_eq_true hrest]
  rfl

theorem onTheWay_found : remoteOf s r.id = some r := remoteOf_of_named h.one

theorem opsMask_rest : opsMask r = r.rest := by
  obtain ⟨-, -, -, hrest⟩ := h.unheard
  apply BitVec.eq_of_getLsbD_eq
  intro i hi
  rw [Bool.eq_iff_iff, hrest, opsMask, maskOf_testBit, List.mem_map]

theorem onTheWay_ops : r.ops ≠ [] := by
  obtain ⟨-, -, -, hrest⟩ := h.unheard
  intro hnil
  refine h.sent.2.2.2.2 (BitVec.eq_of_getLsbD_eq fun i _ => ?_)
  refine Eq.trans (Bool.eq_false_iff.mpr fun hi => ?_) BitVec.getLsbD_zero.symm
  obtain ⟨-, e, he, -⟩ := (hrest i).mp hi
  rw [hnil] at he
  exact List.not_mem_nil he

end Way

/-! ### Requests that were held back leave (R133) -/

theorem depart_quiet (q : RemoteReq) (s : State) : Quiet s (depart q s) ∧ (depart q s).remotes = s.remotes := by
  unfold depart
  dsimp only
  split <;> exact ⟨⟨rfl, rfl, rfl, rfl⟩, rfl⟩

theorem quiet_trans {s t u : State} (h : Quiet s t) (k : Quiet t u) : Quiet s u :=
  ⟨k.issue.trans h.issue, k.gang.trans h.gang, k.gangs.trans h.gangs, k.memory.trans h.memory⟩

theorem updateWhere_filter {α : Type} {q p : α → Bool} {f : α → α} (hf : ∀ x, q x = true → p x = false ∧ p (f x) = false) (l : List α) :
    (updateWhere q f l).filter p = l.filter p := by
  induction l with
  | nil => rfl
  | cons a r ih =>
    rw [updateWhere, List.filter_cons, List.filter_cons, ih]
    by_cases hq : q a = true
    · rw [if_pos hq, (hf a hq).1, (hf a hq).2, if_neg Bool.false_ne_true, if_neg Bool.false_ne_true]
    · rw [if_neg hq]

/-- A request that was not held back stays as it is. -/
theorem releaseHeld_leaves (gang node n : Nat) {s : State} (hn : ∀ x ∈ s.remotes, x.id = n → x.heldBack = false) :
    Quiet s (releaseHeld gang node s) ∧
      ((releaseHeld gang node s).remotes.filter fun x => x.id == n) = s.remotes.filter fun x => x.id == n := by
  unfold releaseHeld
  split
  · exact ⟨⟨rfl, rfl, rfl, rfl⟩, rfl⟩
  · next r hr =>
    have hheld : r ∈ s.remotes ∧ r.heldBack = true := by
      rw [heldNext] at hr
      split at hr
      · exact nomatch hr
      · obtain ⟨hmem, hq⟩ := of_findFirst hr
        simp only [Bool.and_eq_true] at hq
        exact ⟨hmem, hq.1.2⟩
    have hne : r.id ≠ n := fun h => Bool.noConfusion (hheld.2.symm.trans (hn r hheld.1 h))
    have hkept := updateWhere_filter (q := fun x : RemoteReq => x.id == r.id) (p := fun x => x.id == n)
      (f := fun r => { r with heldBack := false }) (fun x hx => by
        have hx : x.id = r.id := by simpa using hx
        simp [hx, hne]) s.remotes
    dsimp only
    split
    · exact ⟨⟨rfl, rfl, rfl, rfl⟩, hkept⟩
    · obtain ⟨hq, hrem⟩ := depart_quiet r (mapRemote r.id (fun r => { r with heldBack := false }) s)
      exact ⟨⟨hq.issue, hq.gang, hq.gangs, hq.memory⟩, (congrArg (List.filter _) hrem).trans hkept⟩

/-! ### What a peer's answer gives its lanes (R129) -/

/-- The device without its copies of other devices' lines. -/
def State.sansCopies (s : State) : State := { s with remoteCopies := [] }

theorem fillRemote_sansCopies (c : RemoteCopy) : Keeps State.sansCopies (fillRemote c) := by
  intro s
  unfold fillRemote
  dsimp only
  split <;> rfl

theorem answered_congr {st : RegState} {cs : List Nat} {s t u : State} (h : Answered st cs s t) (hp : u.p = t.p) (hg : u.g = t.g)
    (hm : u.mem = t.mem) : Answered st cs s u := by
  obtain ⟨hstates, hscalars, hvectors, hsplit, hgang, hmem⟩ := h
  refine ⟨fun c => ?_, fun n hn hc => ?_, fun n l hl hc => ?_, by rw [hp]; exact hsplit, by rw [hg]; exact hgang, hm.trans hmem⟩
  · rw [← hstates c, regState, regState, hp, hg]
  · rw [← hscalars n hn hc, getS, getS, hp]
  · rw [← hvectors n l hl hc, getV, getV, hg]

/-- A change of copies alone answers nothing. -/
theorem answered_copies {st : RegState} {cs : List Nat} {s t u : State} (h : Answered st cs s t) (hu : u.sansCopies = t.sansCopies) :
    Answered st cs s u := by
  have hp := congrArg State.p hu
  have hg := congrArg State.g hu
  have hm := congrArg State.mem hu
  exact answered_congr h hp hg hm

/-- What one lane of an answer brings to its registers. -/
def laneDelivers (r : RemoteReq) (copy : Bool) (a : RemoteAnswer) (j i : Nat) (va : Word) (s : State) : State :=
  match findFirst (fun e => e.1 == i) r.dest with
  | some d => deliverTo r.gang r.id d.2 r.sx (answerBytes r copy a j va) .full true s
  | none => s

/-- What one lane of an answer brings, with the copy of its line. -/
def laneAnswer (r : RemoteReq) (copy : Bool) (a : RemoteAnswer) (j i : Nat) (va : Word) (s : State) : State :=
  if copy && !r.dropped.contains (offsetOf va / 128 * 128) then
    fillRemote { part := r.part, node := r.node, va := offsetOf va / 128 * 128, coh := a.coh, launch := r.launch
                 data := takePad 128 ((a.data.drop (128 * j)).take 128) } (laneDelivers r copy a j i va s)
  else laneDelivers r copy a j i va s

theorem laneAnswer_sansCopies (r : RemoteReq) (copy : Bool) (a : RemoteAnswer) (j i : Nat) (va : Word) (s : State) :
    (laneAnswer r copy a j i va s).sansCopies = (laneDelivers r copy a j i va s).sansCopies := by
  unfold laneAnswer
  split
  · exact fillRemote_sansCopies _ _
  · rfl

theorem deliverLanes_cons (r : RemoteReq) (copy : Bool) (a : RemoteAnswer) (j i : Nat) (va : Word) (op : FabricOp)
    (l : List (Nat × Word × FabricOp)) (s : State) :
    deliverLanes r copy a j ((i, va, op) :: l) s = deliverLanes r copy a (j + 1) l (laneAnswer r copy a j i va s) := rfl

theorem laneAnswer_remotes (r : RemoteReq) (copy : Bool) (a : RemoteAnswer) (j i : Nat) (va : Word) :
    Keeps State.remotes (laneAnswer r copy a j i va) := by
  intro s
  have hsame := congrArg State.remotes (laneAnswer_sansCopies r copy a j i va s)
  refine Eq.trans hsame ?_
  show (laneDelivers r copy a j i va s).remotes = s.remotes
  unfold laneDelivers
  split
  · next d _ =>
    have e := congrArg State.remotes (deliverTo_sansGangs r.gang r.id d.2 r.sx (answerBytes r copy a j va) .full true s)
    exact e
  · rfl

theorem laneAnswer_fills {r : RemoteReq} {copy : Bool} {a : RemoteAnswer} {d n j i : Nat} {va : Word} {s : State}
    (hdest : findFirst (fun e => e.1 == i) r.dest = some (i, .vector d n i)) (hi : i < 64) (hsize : r.size ∈ [1, 2, 4, 8, 16])
    (hn : n = (r.size + 3) / 4) (hbytes : (answerBytes r copy a j va).length = r.size) (hgang : s.g.id = r.gang)
    (hempty : ∀ c ∈ destCodes (.vector d n i), regState s c = .empty r.id) :
    Answered .full (destCodes (.vector d n i)) s (laneAnswer r copy a j i va s) ∧
      ∀ k < n, getV (laneAnswer r copy a j i va s) (d + k) i = answerWord 32 r.sx (answerBytes r copy a j va) k := by
  have hfits : fits (answerBytes r copy a j va).length (.vector d n i) := ⟨hi, hbytes ▸ hsize, by rw [hbytes, hn]⟩
  obtain ⟨hall, -, hvalues⟩ := deliverTo_answers hfits r.sx (answerBytes r copy a j va) .full true hgang hempty
  have hdelivers : laneDelivers r copy a j i va s = deliverTo r.gang r.id (.vector d n i) r.sx (answerBytes r copy a j va) .full true s := by
    rw [laneDelivers, hdest]
  have hsame := laneAnswer_sansCopies r copy a j i va s
  rw [hdelivers] at hsame
  refine ⟨answered_copies hall hsame, fun k hk => ?_⟩
  have hg := congrArg State.g hsame
  have hg : (laneAnswer r copy a j i va s).g =
    (deliverTo r.gang r.id (.vector d n i) r.sx (answerBytes r copy a j va) .full true s).g := hg
  have hvalue := hvalues d n i rfl k hk
  rw [if_pos rfl] at hvalue
  rw [getV, hg]
  refine hvalue.trans (vectorAnswer r.sx ?_ (by rw [hbytes, ← hn]; exact hk))
  simp only [List.mem_cons, List.not_mem_nil, or_false] at hsize
  omega

/-- The lanes of different numbers have different registers. -/
theorem destCodes_disjoint {d n i k c : Nat} (hi : i < 64) (hk : k < 64) (hne : i ≠ k) (hc : c ∈ destCodes (.vector d n i)) :
    c ∉ destCodes (.vector d n k) := by
  rw [destCodes_vector, List.mem_map] at hc ⊢
  obtain ⟨x, -, rfl⟩ := hc
  rintro ⟨y, -, h⟩
  unfold codeV at h
  omega

/-- An answer fills the registers of its lanes in order. -/
theorem deliverLanes_fill {r : RemoteReq} {copy : Bool} {a : RemoteAnswer} {d n : Nat} (hsize : r.size ∈ [1, 2, 4, 8, 16])
    (hn : n = (r.size + 3) / 4) (l : List (Nat × Word × FabricOp)) (j : Nat) (hnodup : (l.map fun e => e.1).Nodup) (hlanes : ∀ e ∈ l, e.1 < 64)
    (hdest : ∀ e ∈ l, findFirst (fun x => x.1 == e.1) r.dest = some (e.1, .vector d n e.1))
    (hbytes : ∀ k e, l[k]? = some e → (answerBytes r copy a (j + k) e.2.1).length = r.size) {s : State} (hgang : s.g.id = r.gang)
    (hempty : ∀ e ∈ l, ∀ c ∈ destCodes (.vector d n e.1), regState s c = .empty r.id) :
    Answered .full (l.flatMap fun e => destCodes (.vector d n e.1)) s (deliverLanes r copy a j l s) ∧
      ∀ k i va op, l[k]? = some (i, va, op) → ∀ q < n, getV (deliverLanes r copy a j l s) (d + q) i =
        answerWord 32 r.sx (answerBytes r copy a (j + k) va) q := by
  induction l generalizing j s with
  | nil => exact ⟨answered_refl _ _, nofun⟩
  | cons e l ih =>
    obtain ⟨i, va, op⟩ := e
    obtain ⟨hmem, hnodup⟩ := List.nodup_cons.mp hnodup
    obtain ⟨hi, hlanes⟩ := List.forall_mem_cons.mp hlanes
    obtain ⟨hdi, hdest⟩ := List.forall_mem_cons.mp hdest
    obtain ⟨hei, hempty⟩ := List.forall_mem_cons.mp hempty
    obtain ⟨hone, hvalue⟩ := laneAnswer_fills hdi hi hsize hn (hbytes 0 _ rfl) hgang hei
    have hne {x : Nat × Word × FabricOp} (hx : x ∈ l) : x.1 ≠ i := fun h => hmem (List.mem_map.mpr ⟨x, hx, h⟩)
    have hrest := ih (j + 1) hnodup hlanes hdest
      (fun k e he => by rw [show j + 1 + k = j + (k + 1) by omega]; exact hbytes (k + 1) e he) ((answered_gang hone).trans hgang)
      fun x hx c hc => by
        rw [hone.states, if_neg (destCodes_disjoint (hlanes x hx) hi (hne hx) hc)]
        exact hempty x hx c hc
    obtain ⟨hall, hvalues⟩ := hrest
    rw [deliverLanes_cons]
    refine ⟨answered_trans hone hall, fun k i' va' op' hk q hq => ?_⟩
    cases k with
    | zero =>
      cases hk
      refine (hall.vectors _ _ hi ?_).trans (hvalue q hq)
      rw [List.mem_flatMap]
      rintro ⟨x, hx, hc⟩
      refine destCodes_disjoint (hlanes x hx) hi (hne hx) hc ?_
      rw [destCodes_vector]
      exact List.mem_map.mpr ⟨q, mem_countFrom_zero.mpr hq, rfl⟩
    | succ k =>
      rw [show j + (k + 1) = j + 1 + k by omega]
      exact hvalues k i' va' op' hk q hq

theorem deliverLanes_remotes (r : RemoteReq) (copy : Bool) (a : RemoteAnswer) (l : List (Nat × Word × FabricOp)) (j : Nat) :
    Keeps State.remotes (deliverLanes r copy a j l) := by
  induction l generalizing j with
  | nil => exact fun _ => rfl
  | cons e l ih => exact fun s => (ih (j + 1) _).trans (laneAnswer_remotes r copy a j e.1 e.2.1 s)

/-- An answer to stores brings nothing. -/
theorem deliverLanes_none {r : RemoteReq} (hdest : r.dest = []) (a : RemoteAnswer) (l : List (Nat × Word × FabricOp)) (j : Nat) (s : State) :
    deliverLanes r false a j l s = s := by
  induction l generalizing j s with
  | nil => rfl
  | cons e l ih =>
    obtain ⟨i, va, op⟩ := e
    rw [deliverLanes_cons, ih, laneAnswer, laneDelivers, hdest]
    rfl

theorem findFirst_lane {ops : List (Nat × Word × FabricOp)} {d n i : Nat} (hi : i ∈ ops.map fun e => e.1) :
    findFirst (fun x => x.1 == i) (ops.map fun e => (e.1, Dest.vector d n e.1)) = some (i, .vector d n i) := by
  induction ops with
  | nil => exact absurd hi List.not_mem_nil
  | cons e r ih =>
    rw [List.map_cons, findFirst]
    by_cases he : e.1 = i
    · subst he
      exact if_pos (beq_self_eq_true _)
    · rw [if_neg (by simpa using he)]
      exact ih ((List.mem_cons.mp hi).resolve_left (Ne.symm he))

/-! ### The end of a replay (R144, R385) -/

/-- A request of the replay, as its answers change it. -/
structure SameReplay (r x : RemoteReq) : Prop where
  id : x.id = r.id
  gang : x.gang = r.gang
  group : x.group = r.group
  cmd : x.cmd = none
  ops : x.ops = r.ops
  dest : x.dest = r.dest
  rest : x.rest = 0

theorem SameReplay.awaited {r x : RemoteReq} (h : SameReplay r x) : awaitedBySplit x = awaitedBySplit r := by
  rw [awaitedBySplit, awaitedBySplit, h.ops]

section Close
variable {l m : List RemoteReq} {r x : RemoteReq} (h : OneLine l m r) (hx : SameReplay r x) (s : State)
include h hx

/-- Every line has been answered: the values arrive, failures are reported, and the replay is gone. -/
theorem closeReplay_beside : closeReplay r (beside l m x s) =
    let t := deliverGot x (beside l m x s)
    let u :=
      if awaitedBySplit r then t
      else if r.dest ≠ [] then ([x].filter fun x => x.fault.isSome).foldl (fun s x => failLanes x s) t
      else
        match leastBy (fun a b => decide (lowest a.failed < lowest b.failed)) ([x].filter fun x => x.fault.isSome) with
        | some y => storeFails y (y.fault.getD 0x91) (([x].filter fun x => x.fault.isSome).foldl (fun m y => m ||| y.failed) 0) t
        | none => t
    { u with remotes := u.remotes.filter fun y => !(([x] : List RemoteReq).any fun z => z.id == y.id) || awaitedBySplit y
        || (y.fault.isSome && decide (y.dest ≠ []) && !capSilent y) } := by
  have hmates := replayMates_beside h s (x := x) ⟨hx.gang, hx.group, hx.cmd⟩
  have hdone : (([x] : List RemoteReq).any fun y => decide (y.rest ≠ 0)) = false := by simp [hx.rest]
  rw [closeReplay, hmates]
  dsimp only
  rw [hdone]
  rfl

/-- An answer that names no failure. -/
theorem closeReplay_answered (hfault : x.fault = none) {t : State} (ht : deliverGot x (beside l m x s) = t)
    (hremotes : t.remotes = (beside l m x s).remotes) :
    closeReplay r (beside l m x s) = { t with remotes := l ++ (if awaitedBySplit r then [x] else []) ++ m } := by
  have hnone : ([x].filter fun x => x.fault.isSome) = [] := by simp [hfault]
  have hclosed := closed_beside h s hx.id fun y => awaitedBySplit y || (y.fault.isSome && decide (y.dest ≠ []) && !capSilent y)
  simp only [← Bool.or_assoc] at hclosed
  rw [closeReplay_beside h hx, ht, hnone]
  have hsame : (if awaitedBySplit r then t else if r.dest ≠ [] then ([] : List RemoteReq).foldl (fun s x => failLanes x s) t
      else match leastBy (fun a b => decide (lowest a.failed < lowest b.failed)) ([] : List RemoteReq) with
        | some y => storeFails y (y.fault.getD 0x91) (([] : List RemoteReq).foldl (fun m y => m ||| y.failed) 0) t
        | none => t) = t := by
    split
    · rfl
    · split <;> rfl
  dsimp only
  rw [hsame, hremotes, hclosed, hfault, hx.awaited]
  simp

/-- A load of which the lanes have failed. -/
theorem closeReplay_faulted {c : BitVec 8} (hfault : x.fault = some c) (hanswer : x.answer = none) (hawaited : awaitedBySplit r = false)
    (hdest : r.dest ≠ []) (hsilent : capSilent x = false) {t : State} (ht : failLanes x (beside l m x s) = t)
    (hremotes : t.remotes = (beside l m x s).remotes) :
    closeReplay r (beside l m x s) = t := by
  have hsome : ([x].filter fun x => x.fault.isSome) = [x] := by simp [hfault]
  have hgot : deliverGot x (beside l m x s) = beside l m x s := by rw [deliverGot, hanswer]
  have hclosed := closed_beside h s hx.id fun y => awaitedBySplit y || (y.fault.isSome && decide (y.dest ≠ []) && !capSilent y)
  simp only [← Bool.or_assoc] at hclosed
  rw [closeReplay_beside h hx, hgot, hsome]
  dsimp only
  rw [hawaited, if_neg Bool.false_ne_true, if_pos hdest, List.foldl_cons, List.foldl_nil, ht, hremotes, hclosed, hfault, hsilent, hx.dest,
    decide_eq_true hdest]
  simp only [Option.isSome_some, Bool.not_false, Bool.and_true, Bool.or_true, if_true]
  rw [List.append_assoc, List.singleton_append]
  exact congrArg (fun q => { t with remotes := q }) hremotes.symm

/-- A store of which the lanes have failed. -/
theorem closeReplay_storeFails {c : BitVec 8} (hfault : x.fault = some c) (hanswer : x.answer = none) (hawaited : awaitedBySplit r = false)
    (hdest : r.dest = []) {t : State} (ht : storeFails x c x.failed (beside l m x s) = t)
    (hremotes : t.remotes = (beside l m x s).remotes) :
    closeReplay r (beside l m x s) = { t with remotes := l ++ m } := by
  have hsome : ([x].filter fun x => x.fault.isSome) = [x] := by simp [hfault]
  have hgot : deliverGot x (beside l m x s) = beside l m x s := by rw [deliverGot, hanswer]
  have hclosed := closed_beside h s hx.id fun y => awaitedBySplit y || (y.fault.isSome && decide (y.dest ≠ []) && !capSilent y)
  simp only [← Bool.or_assoc] at hclosed
  have hmask : ([x] : List RemoteReq).foldl (fun m y => m ||| y.failed) 0 = x.failed := BitVec.zero_or
  rw [closeReplay_beside h hx, hgot, hsome]
  dsimp only
  rw [hawaited, if_neg Bool.false_ne_true, if_neg (not_not_intro hdest), leastBy]
  dsimp only [leastBy]
  rw [hmask, hfault, Option.getD_some, ht, hremotes, hclosed, hx.awaited, hawaited, hx.dest, hdest]
  simp

end Close

/-! ### Lanes that fail (R385, R386) -/

/-- A request of which some lanes have failed. -/
def noted (c : BitVec 8) (m : BitVec 64) (r : RemoteReq) : RemoteReq :=
  { r with fault := some c, failed := r.failed ||| m, got := r.got &&& ~~~m, rest := r.rest &&& ~~~m }

/-- A request of which every lane has failed. -/
def allFailed (c : BitVec 8) (r : RemoteReq) : RemoteReq := { r with fault := some c, failed := r.rest, rest := 0 }

theorem noteFail_beside {l m : List RemoteReq} {r x : RemoteReq} (h : OneLine l m r) (hid : x.id = r.id) (c : BitVec 8) (k : BitVec 64)
    (s : State) : noteFail r.id c k (beside l m x s) = beside l m (noted c k x) s := mapRemote_beside h s hid _

section Fails
variable {s : State} {r : RemoteReq} (h : OnTheWay s r)
include h

theorem noted_rest (c : BitVec 8) : noted c r.rest r = allFailed c r := by
  obtain ⟨-, hgot, hfailed, -⟩ := h.unheard
  have hnone : r.rest &&& ~~~r.rest = 0 := by ext; simp
  have hgot' : r.got &&& ~~~r.rest = r.got := by rw [hgot]; exact BitVec.zero_and
  have hall : r.failed ||| r.rest = r.rest := by rw [hfailed]; exact BitVec.zero_or
  rw [noted, hnone, hgot', hall]
  rfl

theorem noted_allFailed (c : BitVec 8) : noted c r.rest (allFailed c r) = allFailed c r := by
  obtain ⟨-, hgot, -, -⟩ := h.unheard
  have hgot' : r.got &&& ~~~r.rest = r.got := by rw [hgot]; exact BitVec.zero_and
  show ({ allFailed c r with
    fault := some c, failed := r.rest ||| r.rest, got := r.got &&& ~~~r.rest, rest := 0 &&& ~~~r.rest } : RemoteReq) = _
  have hzero : (0 : BitVec 64) &&& ~~~r.rest = 0 := BitVec.zero_and
  rw [hgot', BitVec.or_self, hzero]
  rfl

theorem allFailed_same (c : BitVec 8) : SameReplay r (allFailed c r) := ⟨rfl, rfl, rfl, h.plain.1, rfl, rfl, rfl⟩

/-- The head of the operations says of which kind the request is. -/
theorem notAwaited_of_load (hops : ∀ e ∈ r.ops, ∃ b, e.2.2 = .load b) (c : BitVec 8) :
    awaitedBySplit r = false ∧ capSilent (allFailed c r) = false := by
  obtain ⟨e, l, hl⟩ := List.exists_cons_of_ne_nil (onTheWay_ops h)
  obtain ⟨b, hb⟩ := hops e (by rw [hl]; exact List.mem_cons_self)
  obtain ⟨i, va, op⟩ := e
  have hb : op = .load b := hb
  subst hb
  refine ⟨by rw [awaitedBySplit, hl], ?_⟩
  rw [capSilent]
  show ((allFailed c r).fault == _ && match r.ops with
    | (_, _, .cap) :: _ => true
    | _ => false) = false
  rw [hl]
  exact Bool.and_false _

theorem notAwaited_of_store (hops : ∀ e ∈ r.ops, ∃ d, e.2.2 = .store d) : awaitedBySplit r = false := by
  obtain ⟨e, l, hl⟩ := List.exists_cons_of_ne_nil (onTheWay_ops h)
  obtain ⟨d, hd⟩ := hops e (by rw [hl]; exact List.mem_cons_self)
  obtain ⟨i, va, op⟩ := e
  have hd : op = .store d := hd
  subst hd
  rw [awaitedBySplit, hl]

end Fails

theorem answered_source {st : RegState} {cs : List Nat} {s z t : State} (h : Answered st cs z t) (hp : z.p = s.p) (hg : z.g = s.g)
    (hm : z.mem = s.mem) : Answered st cs s t := by
  obtain ⟨hstates, hscalars, hvectors, hsplit, hgang, hmem⟩ := h
  refine ⟨fun c => ?_, fun n hn hc => ?_, fun n l hl hc => ?_, by rw [← hp]; exact hsplit, by rw [← hg]; exact hgang, hmem.trans hm⟩
  · rw [hstates c, regState, regState, hp, hg]
  · rw [hscalars n hn hc, getS, getS, hp]
  · rw [hvectors n l hl hc, getV, getV, hg]

/-- A device with the registers and the memory of another. -/
structure SameGangs (s z : State) : Prop where
  split : z.p = s.p
  gang : z.g = s.g
  memory : z.mem = s.mem

/-- The loads of a request have failed: their destinations are faulted, and the request waits to be looked at. -/
structure LoadsFailed (l m : List RemoteReq) (r : RemoteReq) (c : BitVec 8) (s z t : State) : Prop where
  answered : Answered (.faulted r.id) ((r.dest.filter fun e => r.rest.getLsbD e.1).flatMap fun e => destCodes e.2) s t
  scalars : t.p.sregs = s.p.sregs
  vectors : t.g.vregs = s.g.vregs
  remotes : t.remotes = l ++ allFailed c r :: m
  parts : t.parts = z.parts

theorem closeReplay_loads {l m : List RemoteReq} {s z : State} {r : RemoteReq} (h : OnTheWay s r) (hone : OneLine l m r) (hz : SameGangs s z)
    (c : BitVec 8) (hops : ∀ e ∈ r.ops, ∃ b, e.2.2 = .load b) (hdest : r.dest ≠ []) (hfits : ∀ e ∈ r.dest, ∃ n, fits n e.2)
    (hempty : ∀ e ∈ r.dest, ∀ x ∈ destCodes e.2, regState s x = .empty r.id) :
    LoadsFailed l m r c s z (closeReplay r (beside l m (allFailed c r) z)) := by
  obtain ⟨hawaited, hsilent⟩ := notAwaited_of_load h hops c
  obtain ⟨hp, hg, hm⟩ := hz
  have hgang : (beside l m (allFailed c r) z).g.id = r.gang := (congrArg Gang.id hg).trans h.gang.symm
  have hstate (x : Nat) : regState (beside l m (allFailed c r) z) x = regState s x := by
    show regState z x = _
    rw [regState, regState, hp, hg]
  obtain ⟨hall, hsregs, hvregs⟩ := refuseAll (id := r.id) (st := .faulted r.id) (r.dest.filter fun e => r.rest.getLsbD e.1)
    (fun e he => hfits e (List.mem_of_mem_filter he)) hgang
    fun e he x hx => .inl ((hstate x).trans (hempty e (List.mem_of_mem_filter he) x hx))
  have hlanes : failLanes (allFailed c r) (beside l m (allFailed c r) z) =
      (r.dest.filter fun e => r.rest.getLsbD e.1).foldl (fun s e => deliverTo r.gang r.id e.2 false [] (.faulted r.id) false s)
        (beside l m (allFailed c r) z) := by
    rw [failLanes, hsilent]
    rfl
  have hkeeps := Keeps.foldl (view := State.sansGangs)
    (f := fun s (e : Nat × Dest) => deliverTo r.gang r.id e.2 false [] (.faulted r.id) false s)
    (fun e => deliverTo_sansGangs _ _ _ _ _ _ _) (r.dest.filter fun e => r.rest.getLsbD e.1) (beside l m (allFailed c r) z)
  have hremotes := congrArg State.remotes hkeeps
  have hparts := congrArg State.parts hkeeps
  rw [closeReplay_faulted hone (allFailed_same h c) z rfl h.unheard.1 hawaited hdest hsilent hlanes hremotes]
  exact ⟨answered_source hall hp hg hm, hsregs.trans (congrArg Split.sregs hp), hvregs.trans (congrArg Gang.vregs hg), hremotes, hparts⟩

/-- The stores of a request have failed: a fault is held for the gang, and the request is gone. -/
structure StoresFailed (l m : List RemoteReq) (r : RemoteReq) (c : BitVec 8) (s z : State) (f : HeldFault) (t : State) : Prop where
  split : t.p = s.p
  gang : t.g = { s.g with faults := s.g.faults ++ [f] }
  memory : t.mem = s.mem
  kind : f.kind = 4
  cause : f.cause = c
  lanes : f.lanes = r.rest
  node : f.pnode = r.node
  place : f.pc = r.pc
  serial : f.serial = r.serial
  remotes : t.remotes = l ++ m
  parts : t.parts = z.parts

/-- A failed store of the gang at issue is held for it. -/
theorem storeFails_held {x : RemoteReq} {s : State} (hgang : s.g.id = x.gang) (hended : s.g.ended = false) (c : BitVec 8) (k : BitVec 64) :
    ∃ f : HeldFault, storeFails x c k s = { s with g := { s.g with faults := s.g.faults ++ [f] } } ∧ f.kind = 4 ∧ f.cause = c ∧
      f.lanes = k ∧ f.pnode = x.node ∧ f.pc = x.pc ∧ f.serial = x.serial := by
  have hfound : gangOf s x.gang = some s.g := if_pos hgang
  unfold storeFails
  rw [hfound]
  dsimp only
  rw [if_neg (ne_true_of_eq_false hended), mapGang_own hgang]
  exact ⟨_, rfl, rfl, rfl, rfl, rfl, rfl, rfl⟩

theorem closeReplay_stores {l m : List RemoteReq} {s z : State} {r : RemoteReq} (h : OnTheWay s r) (hone : OneLine l m r) (hz : SameGangs s z)
    (c : BitVec 8) (hops : ∀ e ∈ r.ops, ∃ d, e.2.2 = .store d) (hdest : r.dest = []) (hended : s.g.ended = false) :
    ∃ f, StoresFailed l m r c s z f (closeReplay r (beside l m (allFailed c r) z)) := by
  obtain ⟨hp, hg, hm⟩ := hz
  have hgang : (beside l m (allFailed c r) z).g.id = r.gang := (congrArg Gang.id hg).trans h.gang.symm
  have hended : (beside l m (allFailed c r) z).g.ended = false := (congrArg Gang.ended hg).trans hended
  obtain ⟨f, hfails, hkind, hcause, hlanes, hnode, hpc, hserial⟩ := storeFails_held (x := allFailed c r) hgang hended c (allFailed c r).failed
  rw [closeReplay_storeFails hone (allFailed_same h c) z rfl h.unheard.1 (notAwaited_of_store h hops) hdest hfails rfl]
  exact ⟨f, hp, congrArg (fun g : Gang => { g with faults := g.faults ++ [f] }) hg, hm, hkind, hcause, hlanes, hnode, hpc, hserial, rfl, rfl⟩

/-! ### The steps at the source (R132, R385, R386) -/

theorem onRemote_found {s : State} {r : RemoteReq} (harg : s.arg = .num r.id) (hfound : remoteOf s r.id = some r)
    (f : RemoteReq → State → State) : onRemote f s = f r s := by
  rw [onRemote, onNum, harg]
  dsimp only
  rw [hfound]

/-- A refused request. -/
def refusedOnce (r : RemoteReq) : RemoteReq := { r with refusals := min 15 (r.refusals + 1), waiting := true }

section Steps
variable {s : State} {r : RemoteReq} (h : OnTheWay s r) {l m : List RemoteReq} (hs : s = beside l m r s) (hone : OneLine l m r)
include h

theorem onRemote_named (harg : s.arg = .num r.id) (f : RemoteReq → State → State) : onRemote f s = f r s :=
  onRemote_found harg (onTheWay_found h) f

include hs hone

omit h in
theorem mapRemote_way (f : RemoteReq → RemoteReq) : mapRemote r.id f s = beside l m (f r) s :=
  (congrArg (mapRemote r.id f) hs).trans (mapRemote_beside hone s rfl f)

theorem refusal_received (harg : s.arg = .num r.id) :
    exec .refusalReceive s = .next (countEvent r.launch 0x030 1 (beside l m (refusedOnce r) s)) := by
  refine congrArg Host.Outcome.next ((onRemote_named h harg _).trans ?_)
  rw [onTheWay_inFlight h, if_pos rfl, mapRemote_way hs hone]
  rfl

/-- Only the request itself fails with it. -/
theorem failsWith_alone (hheld : ∀ x ∈ s.remotes, x.gang = r.gang → x.node = r.node → x.heldBack = true → x.rest = 0) :
    s.remotes.filter (failsWith r) = [r] := by
  have hother : ∀ y ∈ l ++ m, y ∈ s.remotes → ¬ failsWith r y = true := by
    intro y hy hmem hfails
    simp only [failsWith, Bool.and_eq_true, beq_iff_eq, Bool.or_eq_true, decide_eq_true_eq] at hfails
    obtain ⟨⟨hgang, hnode⟩, ⟨hgroup, hcmd⟩ | ⟨hback, hrest⟩⟩ := hfails
    · exact hone.alone y hy ⟨hgang, hgroup, hcmd.trans h.plain.1⟩
    · exact hrest (hheld y hmem hgang hnode hback)
  have hself : failsWith r r = true := by simp [failsWith]
  have hremotes : s.remotes = l ++ r :: m := congrArg State.remotes hs
  have hl : l.filter (failsWith r) = [] := List.filter_eq_nil_iff.mpr fun y hy =>
    hother y (List.mem_append_left _ hy) (by rw [hremotes]; exact List.mem_append_left _ hy)
  have hm : m.filter (failsWith r) = [] := List.filter_eq_nil_iff.mpr fun y hy =>
    hother y (List.mem_append_right _ hy) (by rw [hremotes]; exact List.mem_append_right _ (List.mem_cons_of_mem _ hy))
  rw [hremotes, List.filter_append, List.filter_cons, if_pos hself, hl, hm]
  rfl

omit hs in
theorem failRemote_way {z : State} (c : BitVec 8) {x : RemoteReq} (hx : x.id = r.id) (hnoted : noted c r.rest x = allFailed c r) :
    failRemote r c r.rest (beside l m x z) = closeReplay r (beside l m (allFailed c r) z) := by
  rw [failRemote, h.plain.1]
  dsimp only
  rw [noteFail_beside hone hx, hnoted]

theorem remote_timesOut (harg : s.arg = .num r.id)
    (hheld : ∀ x ∈ s.remotes, x.gang = r.gang → x.node = r.node → x.heldBack = true → x.rest = 0) :
    exec .remoteTimeout s = .next (closeReplay r (beside l m (allFailed 0x92 r) (markDead r.part r.node s))) := by
  have hdead : markDead r.part r.node s = beside l m r (markDead r.part r.node s) := congrArg (markDead r.part r.node) hs
  have hcmd : ([r] : List RemoteReq).filter (fun x => x.cmd.isNone) = [r] := by simp [h.plain.1]
  refine congrArg Host.Outcome.next ((onRemote_named h harg _).trans ?_)
  rw [onTheWay_inFlight h, Bool.not_true, if_neg Bool.false_ne_true, failsWith_alone h hs hone hheld, failSilent, hcmd, List.foldl_cons,
    List.foldl_nil, List.foldl_cons, List.foldl_nil, opsMask_rest h]
  rw [hdead, noteFail_beside hone rfl, noted_rest h]
  exact failRemote_way h hone 0x92 rfl (noted_allFailed h 0x92)

omit hone in
theorem fault_responds {a : FaultAnswer} {k : BitVec 64} (harg : s.arg = .remoteFault r.id a k) :
    exec .remoteFaultResponse s = .next (releaseHeld r.gang r.node (failRemote r (answerCause a) (k &&& r.rest) (beside l m r s))) := by
  show execRemoteFaultResponse s = _
  rw [execRemoteFaultResponse, harg]
  dsimp only
  rw [onTheWay_found h]
  dsimp only
  rw [onTheWay_inFlight h, Bool.not_true, if_neg Bool.false_ne_true, ← hs]

end Steps

/-- A request that is not held back stays as it is when others leave. -/
theorem releaseHeld_named {l m : List RemoteReq} {r : RemoteReq} (hone : OneLine l m r) {xs : List RemoteReq}
    (hxs : xs = [] ∨ ∃ x, xs = [x] ∧ x.id = r.id ∧ x.heldBack = false) {t : State} (ht : t.remotes = l ++ xs ++ m) (gang node : Nat) :
    Quiet t (releaseHeld gang node t) ∧ ((releaseHeld gang node t).remotes.filter fun y => y.id == r.id) = xs := by
  have hfilter (ys : List RemoteReq) (hys : ∀ y ∈ ys, y ∈ l ++ m) : ys.filter (fun y => y.id == r.id) = [] :=
    List.filter_eq_nil_iff.mpr fun y hy => by simpa using hone.named y (hys y hy)
  have hl := hfilter l fun y hy => List.mem_append_left _ hy
  have hm := hfilter m fun y hy => List.mem_append_right _ hy
  have hbase : (t.remotes.filter fun y => y.id == r.id) = xs := by
    rw [ht, List.filter_append, List.filter_append, hl, hm]
    rcases hxs with rfl | ⟨x, rfl, hid, -⟩
    · rfl
    · rw [List.filter_cons, if_pos (by simp [hid])]
      rfl
  obtain ⟨hquiet, hsame⟩ := releaseHeld_leaves gang node r.id (s := t) fun y hy hid => by
    have hmem : y ∈ xs := hbase ▸ List.mem_filter.mpr ⟨hy, by simp [hid]⟩
    rcases hxs with rfl | ⟨x, rfl, -, hback⟩
    · exact absurd hmem List.not_mem_nil
    · exact List.mem_singleton.mp hmem ▸ hback
  exact ⟨hquiet, hsame.trans hbase⟩

/-! ### The answers (R129, R132, R385, R386) -/

section Answers
variable {s : State} {r : RemoteReq} (h : OnTheWay s r) {l m : List RemoteReq} (hs : s = beside l m r s) (hone : OneLine l m r)

/-- What is left of a request of which every lane has failed. -/
theorem loads_recorded {c : BitVec 8} {z t : State} (hf : LoadsFailed l m r c s z t) {u : State}
    (hq : Quiet t u) (hnamed : (u.remotes.filter fun y => y.id == r.id) = [allFailed c r]) :
    Answered (.faulted r.id) ((r.dest.filter fun e => r.rest.getLsbD e.1).flatMap fun e => destCodes e.2) s u ∧
      u.p.sregs = s.p.sregs ∧ u.g.vregs = s.g.vregs ∧
      ∃ x, remoteOf u r.id = some x ∧ x.fault = some c ∧ x.failed = r.rest ∧ x.rest = 0 :=
  ⟨answered_congr hf.answered hq.issue hq.gang hq.memory, (congrArg Split.sregs hq.issue).trans hf.scalars,
    (congrArg Gang.vregs hq.gang).trans hf.vectors, _, remoteOf_of_named hnamed, rfl, rfl, rfl⟩

theorem quiet_refl (s : State) : Quiet s s := ⟨rfl, rfl, rfl, rfl⟩

theorem allFailed_named (hone : OneLine l m r) {c : BitVec 8} {z t : State} (hf : LoadsFailed l m r c s z t) :
    (t.remotes.filter fun y => y.id == r.id) = [allFailed c r] := by
  rw [hf.remotes]
  exact named_beside hone t (x := allFailed c r) rfl

theorem gone_named (hone : OneLine l m r) {t : State} (ht : t.remotes = l ++ m) : (t.remotes.filter fun y => y.id == r.id) = [] := by
  rw [ht]
  exact List.filter_eq_nil_iff.mpr fun y hy => by simpa using hone.named y hy

include h hs hone

/-- A request of loads that meets silence. -/
theorem timeout_loads (harg : s.arg = .num r.id)
    (hheld : ∀ x ∈ s.remotes, x.gang = r.gang → x.node = r.node → x.heldBack = true → x.rest = 0)
    (hops : ∀ e ∈ r.ops, ∃ b, e.2.2 = .load b) (hdest : r.dest ≠ []) (hfits : ∀ e ∈ r.dest, ∃ n, fits n e.2)
    (hempty : ∀ e ∈ r.dest, ∀ x ∈ destCodes e.2, regState s x = .empty r.id) :
    ∃ t, exec .remoteTimeout s = .next t ∧ LoadsFailed l m r 0x92 s (markDead r.part r.node s) t :=
  ⟨_, remote_timesOut h hs hone harg hheld, closeReplay_loads h hone (z := markDead r.part r.node s) ⟨rfl, rfl, rfl⟩ _ hops hdest hfits hempty⟩

/-- A request of stores that meets silence. -/
theorem timeout_stores (harg : s.arg = .num r.id)
    (hheld : ∀ x ∈ s.remotes, x.gang = r.gang → x.node = r.node → x.heldBack = true → x.rest = 0)
    (hops : ∀ e ∈ r.ops, ∃ d, e.2.2 = .store d) (hdest : r.dest = []) (hended : s.g.ended = false) :
    ∃ t f, exec .remoteTimeout s = .next t ∧ StoresFailed l m r 0x92 s (markDead r.part r.node s) f t := by
  obtain ⟨f, hf⟩ := closeReplay_stores h hone (z := markDead r.part r.node s) ⟨rfl, rfl, rfl⟩ 0x92 hops hdest hended
  exact ⟨_, f, remote_timesOut h hs hone harg hheld, hf⟩

end Answers

/-- A silent node is dead to its partition. -/
theorem markDead_sets (part node : Nat) (s : State) :
    ∀ q ∈ (markDead part node s).parts, q.id = part → (mapGet 0 q.dead (node / 64)).getLsbD (node % 64) = true := by
  intro q hq hid
  obtain ⟨x, -, rfl⟩ := mem_updateWhere hq
  split at hid
  · next hx =>
    rw [if_pos hx]
    show (mapGet 0 (mapSet 0 x.dead (node / 64) _) (node / 64)).getLsbD (node % 64) = true
    rw [mapGet_mapSet, if_pos rfl, BitVec.getLsbD_or, BitVec.getLsbD_ofNat, Nat.testBit_two_pow_self,
      decide_eq_true (Nat.mod_lt _ (by decide : 0 < 64))]
    simp
  · next hx => exact absurd hid (by simpa using hx)

/-! ### Some lanes fail, others wait (R385) -/

theorem failRemote_plain {r : RemoteReq} (hcmd : r.cmd = none) (c : BitVec 8) (k : BitVec 64) (s : State) :
    failRemote r c k s = closeReplay r (noteFail r.id c k s) := by rw [failRemote, hcmd]

section Partial
variable {s : State} {r : RemoteReq} (h : OnTheWay s r) {l m : List RemoteReq} (hone : OneLine l m r)

theorem and_rest_of_covers {a k : BitVec 64} (hk : a &&& ~~~k = 0) : k &&& a = a := by
  apply BitVec.eq_of_getLsbD_eq
  intro i hi
  have hbit := congrArg (fun x : BitVec 64 => x.getLsbD i) hk
  have hbit : (a.getLsbD i && !k.getLsbD i) = false := by simpa [hi] using hbit
  rw [BitVec.getLsbD_and]
  cases ha : a.getLsbD i with
  | false => exact Bool.and_false _
  | true =>
    rw [ha, Bool.true_and, Bool.not_eq_false'] at hbit
    rw [hbit]
    rfl

theorem and_not_and {a k : BitVec 64} : a &&& ~~~(k &&& a) = a &&& ~~~k := by
  apply BitVec.eq_of_getLsbD_eq
  intro i hi
  simp only [BitVec.getLsbD_and, BitVec.getLsbD_not, hi, decide_true, Bool.true_and]
  cases a.getLsbD i <;> simp

include h

theorem noted_some (c : BitVec 8) (k : BitVec 64) : noted c (k &&& r.rest) r =
    { r with fault := some c, failed := r.rest &&& k, rest := r.rest &&& ~~~k } := by
  obtain ⟨-, hgot, hfailed, -⟩ := h.unheard
  have hgot' : r.got &&& ~~~(k &&& r.rest) = r.got := by rw [hgot]; exact BitVec.zero_and
  have hall : r.failed ||| (k &&& r.rest) = r.rest &&& k := by rw [hfailed, BitVec.and_comm]; exact BitVec.zero_or
  rw [noted, hgot', hall, and_not_and]

include hone

omit h in
/-- A replay with lanes that have not been answered waits. -/
theorem closeReplay_waits {x : RemoteReq} (hsame : x.gang = r.gang ∧ x.group = r.group ∧ x.cmd = none) (hrest : x.rest ≠ 0) :
    closeReplay r (beside l m x s) = beside l m x s := by
  have hwaits : (([x] : List RemoteReq).any fun y => decide (y.rest ≠ 0)) = true := by simpa using hrest
  rw [closeReplay, replayMates_beside hone s hsame]
  dsimp only
  rw [hwaits, if_pos rfl]

theorem failRemote_some (c : BitVec 8) {k : BitVec 64} (hk : r.rest &&& ~~~k ≠ 0) :
    failRemote r c (k &&& r.rest) (beside l m r s) =
      beside l m { r with fault := some c, failed := r.rest &&& k, rest := r.rest &&& ~~~k } s := by
  rw [failRemote_plain h.plain.1, noteFail_beside hone rfl, noted_some h]
  exact closeReplay_waits hone (x := { r with fault := some c, failed := r.rest &&& k, rest := r.rest &&& ~~~k })
    ⟨rfl, rfl, h.plain.1⟩ hk

end Partial

/-! ### Values arrive (R129) -/

/-- A request that has been answered. -/
def answeredBy (a : RemoteAnswer) (r : RemoteReq) : RemoteReq := { r with answer := some a, got := r.rest, rest := 0 }

section Responses
variable {s : State} {r : RemoteReq} (h : OnTheWay s r) {l m : List RemoteReq} (hs : s = beside l m r s) (hone : OneLine l m r)

include h

theorem got_all : (r.ops.filter fun e => lane r.rest e.1) = r.ops.filter fun e => decide (e.1 < 64) := by
  obtain ⟨-, -, -, hrest⟩ := h.unheard
  refine List.filter_congr fun e he => ?_
  rw [Bool.eq_iff_iff, lane, hrest, decide_eq_true_eq]
  exact ⟨fun hi => hi.1, fun hi => ⟨hi, e, he, rfl⟩⟩

include hs hone

theorem remote_responds {a : RemoteAnswer} (harg : s.arg = .answer r.id a) :
    exec .remoteResponse s = .next (releaseHeld r.gang r.node (closeReplay r (beside l m (answeredBy a r) s))) := by
  have hcmd : r.cmd.isSome = false := by rw [h.plain.1]; rfl
  show execRemoteResponse s = _
  rw [execRemoteResponse, harg]
  dsimp only
  rw [onTheWay_found h]
  dsimp only
  rw [onTheWay_inFlight h, Bool.not_true, if_neg Bool.false_ne_true, hcmd, if_neg Bool.false_ne_true, mapRemote_way hs hone]
  rfl

end Responses

/-- Whether the answers to loads leave copies. -/
theorem keepsCopy_eq {r : RemoteReq} {line : Bool} (hne : r.ops ≠ []) (hops : ∀ e ∈ r.ops, answersValue line e.2.2) (a : RemoteAnswer) :
    keepsCopy r a = (line && (a.coh == 1 || a.coh == 3)) := by
  obtain ⟨e, l, hl⟩ := List.exists_cons_of_ne_nil hne
  have he := hops e (by rw [hl]; exact List.mem_cons_self)
  obtain ⟨i, va, op⟩ := e
  rw [keepsCopy, hl, Bool.and_comm line]
  refine congrArg _ ?_
  cases op with
  | load c => exact he
  | loadAt _ _ => exact (show line = false from he).symm
  | atomic _ _ _ _ _ _ => exact (show line = false from he).symm
  | atomicAt _ _ _ _ _ _ _ => exact (show line = false from he).symm
  | _ => exact he.elim

/-- The bytes of lane k of an answer (R129, R255). -/
theorem answerBytes_eq {r : RemoteReq} {a : RemoteAnswer} {copy : Bool} {k : Nat} {va : Word} (hfits : offsetOf va % 128 + r.size ≤ 128) :
    answerBytes r copy a k va = (a.data.drop (if copy then 128 * k + offsetOf va % 128 else r.size * k)).take r.size := by
  rw [answerBytes]
  cases copy with
  | false => rfl
  | true =>
    rw [if_pos rfl, if_pos rfl, List.drop_take, List.drop_drop, List.take_take, Nat.min_eq_left (by omega)]

theorem answerBytes_length {r : RemoteReq} {a : RemoteAnswer} {copy : Bool} {k : Nat} {va : Word} (hfits : offsetOf va % 128 + r.size ≤ 128)
    (hk : k < r.ops.length) (hlen : a.data.length = (if copy then 128 else r.size) * r.ops.length) :
    (answerBytes r copy a k va).length = r.size := by
  rw [answerBytes_eq hfits, List.length_take, List.length_drop, hlen]
  cases copy with
  | false =>
    have hmul : r.size * (k + 1) ≤ r.size * r.ops.length := Nat.mul_le_mul_left _ hk
    rw [Nat.mul_add, Nat.mul_one] at hmul
    simp only [Bool.false_eq_true, if_false]
    omega
  | true =>
    simp only [if_true]
    omega

section Responses
variable {s : State} {r : RemoteReq} (h : OnTheWay s r) {l m : List RemoteReq} (hs : s = beside l m r s) (hone : OneLine l m r)
include h hs hone

theorem answer_fills {a : RemoteAnswer} {line : Bool} {d n : Nat} (harg : s.arg = .answer r.id a)
    (hops : ∀ e ∈ r.ops, answersValue line e.2.2) (hnodup : (r.ops.map fun e => e.1).Nodup) (hlanes : ∀ e ∈ r.ops, e.1 < 64)
    (hdest : r.dest = r.ops.map fun e => (e.1, .vector d n e.1)) (hsize : r.size ∈ [1, 2, 4, 8, 16]) (hn : n = (r.size + 3) / 4)
    (hempty : ∀ e ∈ r.dest, ∀ x ∈ destCodes e.2, regState s x = .empty r.id)
    (hlen : a.data.length = (if line && (a.coh == 1 || a.coh == 3) then 128 else r.size) * r.ops.length)
    (hfits : ∀ e ∈ r.ops, offsetOf e.2.1 % 128 + r.size ≤ 128) :
    ∃ t, exec .remoteResponse s = .next t ∧ Answered .full (r.dest.flatMap fun e => destCodes e.2) s t ∧ r ∉ t.remotes ∧
      ∀ k i va op, r.ops[k]? = some (i, va, op) → ∀ j < n, getV t (d + j) i = answerWord 32 r.sx
        ((a.data.drop (if line && (a.coh == 1 || a.coh == 3) then 128 * k + offsetOf va % 128 else r.size * k)).take r.size) j := by
  have hcopy : keepsCopy (answeredBy a r) a = (line && (a.coh == 1 || a.coh == 3)) := keepsCopy_eq (onTheWay_ops h) hops a
  have hgot : ((answeredBy a r).ops.filter fun e => lane (answeredBy a r).got e.1) = r.ops :=
    (got_all h).trans (List.filter_eq_self.mpr fun e he => decide_eq_true (hlanes e he))
  generalize (line && (a.coh == 1 || a.coh == 3)) = copy at hlen hcopy ⊢
  have hfill := deliverLanes_fill (r := answeredBy a r) (copy := copy) (a := a) hsize hn r.ops 0 hnodup hlanes
    (fun e he => by
      show findFirst _ r.dest = _
      rw [hdest]
      exact findFirst_lane (List.mem_map_of_mem he))
    (fun k e he => by
      rw [Nat.zero_add]
      obtain ⟨hk, rfl⟩ := List.getElem?_eq_some_iff.mp he
      exact answerBytes_length (hfits _ (List.getElem_mem hk)) hk hlen)
    (s := beside l m (answeredBy a r) s) h.gang.symm
    fun e he => hempty (e.1, .vector d n e.1) (by rw [hdest]; exact List.mem_map.mpr ⟨e, he, rfl⟩)
  obtain ⟨hall, hvalues⟩ := hfill
  have hdeliver : deliverGot (answeredBy a r) (beside l m (answeredBy a r) s) =
      deliverLanes (answeredBy a r) copy a 0 r.ops (beside l m (answeredBy a r) s) := by
    show deliverLanes _ (keepsCopy (answeredBy a r) a) a 0 ((answeredBy a r).ops.filter fun e => lane (answeredBy a r).got e.1) _ = _
    rw [hcopy, hgot]
  have hremotes := deliverLanes_remotes (answeredBy a r) copy a r.ops 0 (beside l m (answeredBy a r) s)
  have hclose := closeReplay_answered hone (x := answeredBy a r) ⟨rfl, rfl, rfl, h.plain.1, rfl, rfl, rfl⟩ s h.plain.2 hdeliver hremotes
  refine ⟨_, remote_responds h hs hone harg, ?_⟩
  obtain ⟨hquiet, hnamed⟩ := releaseHeld_named hone (xs := if awaitedBySplit r then [answeredBy a r] else []) (by
    split
    · exact .inr ⟨_, rfl, rfl, h.sent.2.1⟩
    · exact .inl rfl) (congrArg State.remotes hclose) r.gang r.node
  rw [hclose] at hquiet hnamed ⊢
  have hcodes : (r.dest.flatMap fun e => destCodes e.2) = r.ops.flatMap fun e => destCodes (.vector d n e.1) := by
    rw [hdest, List.flatMap_map]
  refine ⟨?_, fun hmem => ?_, fun k i va op hk j hj => ?_⟩
  · rw [hcodes]
    exact answered_source (answered_congr hall hquiet.issue hquiet.gang hquiet.memory) rfl rfl rfl
  · have hin := List.mem_filter (p := fun y : RemoteReq => y.id == r.id) |>.mpr ⟨hmem, beq_self_eq_true r.id⟩
    rw [hnamed] at hin
    split at hin
    · exact h.sent.2.2.2.2 (congrArg RemoteReq.rest (List.mem_singleton.mp hin))
    · exact List.not_mem_nil hin
  · have hvalue := hvalues k i va op hk j hj
    obtain ⟨hklt, hkeq⟩ := List.getElem?_eq_some_iff.mp hk
    have hva := hfits _ (List.getElem_mem hklt)
    rw [hkeq] at hva
    rw [Nat.zero_add, answerBytes_eq (r := answeredBy a r) hva] at hvalue
    refine Eq.trans ?_ hvalue
    rw [getV, hquiet.gang]
    rfl

/-- An answer to stores ends them. -/
theorem answer_ends {a : RemoteAnswer} (harg : s.arg = .answer r.id a) (hdest : r.dest = []) (hops : ∀ e ∈ r.ops, ∃ d, e.2.2 = .store d) :
    ∃ t, exec .remoteResponse s = .next t ∧ Quiet s t ∧ remoteOf t r.id = none := by
  have hcopy : keepsCopy (answeredBy a r) a = false := by
    obtain ⟨e, q, hq⟩ := List.exists_cons_of_ne_nil (onTheWay_ops h)
    obtain ⟨d, hd⟩ := hops e (by rw [hq]; exact List.mem_cons_self)
    obtain ⟨i, va, op⟩ := e
    have hd : op = .store d := hd
    subst hd
    show ((a.coh == 1 || a.coh == 3) && match r.ops with
      | (_, _, .load c) :: _ => c
      | _ => false) = false
    rw [hq]
    exact Bool.and_false _
  have hdeliver : deliverGot (answeredBy a r) (beside l m (answeredBy a r) s) = beside l m (answeredBy a r) s := by
    show deliverLanes _ (keepsCopy (answeredBy a r) a) a 0 _ _ = _
    rw [hcopy]
    exact deliverLanes_none (r := answeredBy a r) hdest a _ 0 _
  have hclose := closeReplay_answered hone (x := answeredBy a r) ⟨rfl, rfl, rfl, h.plain.1, rfl, rfl, rfl⟩ s h.plain.2 hdeliver rfl
  rw [notAwaited_of_store h hops, if_neg Bool.false_ne_true] at hclose
  refine ⟨_, remote_responds h hs hone harg, ?_⟩
  obtain ⟨hquiet, hnamed⟩ := releaseHeld_named hone (xs := []) (.inl rfl) (congrArg State.remotes hclose) r.gang r.node
  rw [hclose] at hquiet hnamed ⊢
  exact ⟨⟨hquiet.issue, hquiet.gang, hquiet.gangs, hquiet.memory⟩, remoteOf_of_named hnamed⟩

end Responses

/-! ### Refused requests leave again (R132) -/

/-- A request that is alone leaves when its back-off has expired. -/
theorem refusal_resends {u : State} {w : RemoteReq} (harg : u.arg = .num w.id) (hremotes : u.remotes = [w]) (hwaiting : w.waiting = true)
    (hheld : w.heldBack = false) (hsaved : w.saved = false) :
    exec .refusalResend u = .next (depart w { u with remotes := [{ w with waiting := false }] }) := by
  have hfound : remoteOf u w.id = some w := by
    rw [remoteOf, hremotes, findFirst, if_pos (beq_self_eq_true _)]
  have hmay : mayResend u w = false := by rw [mayResend, hsaved]; rfl
  have hone : mapRemote w.id (fun r => { r with waiting := false }) u = { u with remotes := [{ w with waiting := false }] } := by
    rw [mapRemote, hremotes, updateWhere, if_pos (beq_self_eq_true _)]
    rfl
  refine congrArg Host.Outcome.next ((onRemote_found harg hfound _).trans ?_)
  rw [if_neg (ne_true_of_eq_false hmay), if_neg (ne_true_of_eq_false hheld), if_pos (by rw [hwaiting, hsaved]; rfl), hone]

theorem depart_sends (w : RemoteReq) (s : State) : (depart w s).outbox = s.outbox ++ [remoteMsg s w] := by
  unfold depart
  dsimp only
  split <;> rfl

theorem countEvent_quiet (launch code n : Nat) (s : State) : Quiet s (countEvent launch code n s) ∧
    (countEvent launch code n s).outbox = s.outbox ∧ (countEvent launch code n s).remotes = s.remotes :=
  ⟨⟨rfl, rfl, rfl, rfl⟩, rfl, rfl⟩

theorem answerCause_eq : ∀ e ∈ faultAnswers, answerCause e.1 = e.2 := by decide

/-! ### The obligation -/

section Fault
variable {s : State} {r : RemoteReq} (h : OnTheWay s r) {l m : List RemoteReq} (hs : s = beside l m r s) (hone : OneLine l m r)
include h hs hone

theorem fault_all {a : FaultAnswer} {k : BitVec 64} (harg : s.arg = .remoteFault r.id a k) (hk : r.rest &&& ~~~k = 0) :
    exec .remoteFaultResponse s =
      .next (releaseHeld r.gang r.node (closeReplay r (beside l m (allFailed (answerCause a) r) s))) := by
  rw [fault_responds h hs harg, and_rest_of_covers hk, failRemote_way h hone _ rfl (noted_rest h _)]

theorem fault_some {a : FaultAnswer} {k : BitVec 64} (harg : s.arg = .remoteFault r.id a k) (hk : r.rest &&& ~~~k ≠ 0) :
    ∃ t, exec .remoteFaultResponse s = .next t ∧ Quiet s t ∧
      remoteOf t r.id = some { r with fault := some (answerCause a), failed := r.rest &&& k, rest := r.rest &&& ~~~k } := by
  refine ⟨_, fault_responds h hs harg, ?_⟩
  rw [failRemote_some h hone _ hk]
  obtain ⟨hquiet, hnamed⟩ := releaseHeld_named hone
    (xs := [{ r with fault := some (answerCause a), failed := r.rest &&& k, rest := r.rest &&& ~~~k }])
    (t := beside l m { r with fault := some (answerCause a), failed := r.rest &&& k, rest := r.rest &&& ~~~k } s)
    (.inr ⟨_, rfl, rfl, h.sent.2.1⟩) (by rw [List.append_assoc]; rfl) r.gang r.node
  exact ⟨⟨hquiet.issue, hquiet.gang, hquiet.gangs, hquiet.memory⟩, remoteOf_of_named hnamed⟩

end Fault

/-- Settles O44. -/
theorem remoteAnswersCompleteOrRecord : Obligations.RemoteAnswersCompleteOrRecord := by
  intro s r h
  obtain ⟨l, m, hs, hone⟩ := oneLine_of_onTheWay h
  refine ⟨fun harg => ⟨?refused, fun hheld => ⟨?silentLoads, ?silentStores⟩⟩, ?resent, ?values, ?ended, ?faults⟩
  case refused =>
    obtain ⟨hquiet, houtbox, -⟩ := countEvent_quiet r.launch 0x030 1 (beside l m (refusedOnce r) s)
    exact ⟨_, refusal_received h hs hone harg, ⟨hquiet.issue, hquiet.gang, hquiet.gangs, hquiet.memory⟩, houtbox,
      remoteOf_of_named (named_beside hone s (x := refusedOnce r) rfl)⟩
  case silentLoads =>
    intro hops _ hdest hfits hempty
    obtain ⟨t, hexec, hf⟩ := timeout_loads h hs hone harg hheld hops hdest hfits hempty
    obtain ⟨hanswered, hsregs, hvregs, hx⟩ := loads_recorded hf (quiet_refl t) (allFailed_named hone hf)
    exact ⟨t, hexec, hanswered, hsregs, hvregs, fun q hq => markDead_sets _ _ s q (hf.parts ▸ hq), hx⟩
  case silentStores =>
    intro hops _ hdest hended
    obtain ⟨t, f, hexec, hf⟩ := timeout_stores h hs hone harg hheld hops hdest hended
    exact ⟨t, f, hexec, hf.split, hf.gang, hf.memory, fun q hq => markDead_sets _ _ s q (hf.parts ▸ hq), hf.kind, hf.cause, hf.lanes,
      hf.node, hf.place, hf.serial, remoteOf_of_named (gone_named hone hf.remotes)⟩
  case resent =>
    rintro u w rfl rfl
    obtain ⟨hquiet, hremotes⟩ := depart_quiet { r with waiting := true }
      { s with arg := .num r.id, remotes := [{ { r with waiting := true } with waiting := false }] }
    exact ⟨_, refusal_resends (w := { r with waiting := true }) rfl rfl rfl h.sent.2.1 h.sent.2.2.1, ⟨hquiet.issue, hquiet.gang, hquiet.gangs, hquiet.memory⟩, hremotes,
      _, depart_sends _ _⟩
  case values =>
    intro a line d n harg hops hnodup hlanes hdest hsize hn hempty _ hlen hfits
    exact answer_fills h hs hone harg hops hnodup hlanes hdest hsize hn hempty hlen hfits
  case ended =>
    exact fun a harg hdest _ hops => answer_ends h hs hone harg hdest hops
  case faults =>
    intro e he k harg
    rw [← answerCause_eq e he]
    refine ⟨fun hk => ⟨?_, ?_⟩, fun hk => fault_some h hs hone harg hk⟩
    · intro hops _ hdest hfits hempty
      have hf := closeReplay_loads h hone (z := s) ⟨rfl, rfl, rfl⟩ (answerCause e.1) hops hdest hfits hempty
      obtain ⟨hquiet, hnamed⟩ := releaseHeld_named hone (xs := [allFailed (answerCause e.1) r]) (.inr ⟨_, rfl, rfl, h.sent.2.1⟩)
        (by rw [List.append_assoc]; exact hf.remotes) r.gang r.node
      obtain ⟨hanswered, hsregs, hvregs, hx⟩ := loads_recorded hf hquiet hnamed
      exact ⟨_, fault_all h hs hone harg hk, hanswered, hsregs, hvregs, trivial, hx⟩
    · intro hops _ hdest hended
      obtain ⟨f, hf⟩ := closeReplay_stores h hone (z := s) ⟨rfl, rfl, rfl⟩ (answerCause e.1) hops hdest hended
      obtain ⟨hquiet, hnamed⟩ := releaseHeld_named hone (xs := []) (.inl rfl) (by rw [List.append_nil]; exact hf.remotes) r.gang r.node
      exact ⟨_, f, fault_all h hs hone harg hk, hquiet.issue.trans hf.split, hquiet.gang.trans hf.gang, hquiet.memory.trans hf.memory,
        trivial, hf.kind, hf.cause, hf.lanes, hf.node, hf.place, hf.serial, remoteOf_of_named hnamed⟩

end Sys2Proof.Machine
end

section
/-! PROOF. Loads, atomics, acquire and release (spec/11_isa_memory_sync.md R235, R239, R240, R245 to R248): one request of each lane joins
those on their way, and its destination is empty until the answer. -/

namespace Sys2Proof.Machine

open Sys2Proof.Rules

/-! ### What a commit leaves of the requests on their way -/

/-- Requests join those on their way, and the numbers given rise. -/
def Queues (s t : State) : Prop := s.nextId ≤ t.nextId ∧ ∃ l, t.reqs = s.reqs ++ l

theorem Queues.of_eq {s t : State} (hnext : t.nextId = s.nextId) (hreqs : t.reqs = s.reqs) : Queues s t :=
  ⟨hnext.ge, [], by rw [hreqs, List.append_nil]⟩

theorem Queues.trans {s t u : State} (h : Queues s t) (k : Queues t u) : Queues s u := by
  obtain ⟨hnext, l, hl⟩ := h
  obtain ⟨knext, m, hm⟩ := k
  exact ⟨hnext.trans knext, l ++ m, by rw [hm, hl, List.append_assoc]⟩

theorem Queues.mem {s t : State} (h : Queues s t) {q : Req} (hq : q ∈ s.reqs) : q ∈ t.reqs := by
  obtain ⟨-, l, hl⟩ := h
  exact hl ▸ List.mem_append_left l hq

theorem Queues.foldl {α : Type} {f : State → α → State} (h : ∀ a s, Queues s (f s a)) (l : List α) (s : State) : Queues s (l.foldl f s) := by
  induction l generalizing s with
  | nil => exact .of_eq rfl rfl
  | cons a r ih => exact (h a s).trans (ih _)

theorem sendReq_queues (q : Req) (s : State) : Queues s (sendReq q s) := ⟨Nat.le_succ _, _, rfl⟩

theorem depart_queues (q : RemoteReq) (s : State) : Queues s (depart q s) := by
  unfold depart
  dsimp only
  split <;> exact .of_eq rfl rfl

theorem sendRemote_queues (q : RemoteReq) (s : State) : Queues s (sendRemote q s) := by
  unfold sendRemote
  dsimp only
  split
  · exact ⟨Nat.le_succ _, [], by rw [List.append_nil]⟩
  · exact Queues.trans ⟨Nat.le_succ _, [], by rw [List.append_nil]⟩ (depart_queues _ _)

theorem releaseStore_queues (b : BufStore) (s : State) : Queues s (releaseStore b s) := by
  unfold releaseStore
  split
  · split <;> exact .of_eq rfl rfl
  · dsimp only
    split
    · split
      · next d _ => exact Queues.foldl (f := cuffLine b d) (fun _ _ => .of_eq rfl rfl) _ s
      · exact ⟨Nat.le_succ _, [], by rw [List.append_nil]⟩
      · exact .of_eq rfl rfl
      · exact ⟨Nat.le_succ _, _, rfl⟩
    · exact ⟨Nat.le_succ _, _, rfl⟩

theorem releaseGroup_queues (l : List BufStore) (s : State) : Queues s (releaseGroup l s) := by
  cases l with
  | nil => exact .of_eq rfl rfl
  | cons b r =>
    rw [releaseGroup]
    split
    · exact Queues.foldl (fun a x => sendRemote_queues _ x) _ s
    · exact releaseStore_queues b s

theorem releaseAll_queues (l : List BufStore) (s : State) : Queues s (releaseAll l s) :=
  Queues.foldl (f := fun s g => releaseGroup g s) releaseGroup_queues _ _

theorem commitRegion_queues {s : State} (room : NoSpill s) : Queues s (commitRegion s) := by
  have h := releaseAll_queues s.p.buffer
    { s with p := { s.p with buffer := [], entry := none, fresh := false, liveIn := [], written := [] } }
  rw [commitRegion_eq room]
  exact ⟨h.1, h.2⟩

theorem Agrees.queues {t u : State} (h : Agrees t u) (room : NoSpill u) : Queues u t := by
  rcases h with ⟨h, -⟩ | ⟨h, -⟩
  · have hnext := congrArg State.nextId h
    have hreqs := congrArg State.reqs h
    exact .of_eq hnext hreqs
  · have hnext := congrArg State.nextId h
    have hreqs := congrArg State.reqs h
    exact (commitRegion_queues room).trans (.of_eq hnext hreqs)

theorem entered_queues (f : Form) {s : State} (room : NoSpill s) : Queues s (entered f s) := by
  rcases entered_besides f room with ⟨h, -⟩ | ⟨h, -⟩
  · have hnext := congrArg State.nextId h
    have hreqs := congrArg State.reqs h
    exact .of_eq hnext hreqs
  · have hnext := congrArg State.nextId h
    have hreqs := congrArg State.reqs h
    exact (commitRegion_queues room).trans (.of_eq hnext hreqs)

/-! ### What the Cuff buffer sees of the device (R41, R64) -/

/-- What the stores of a region show to the Cuff buffer: not what is on its way, nor what the launch notes or the partition counts. -/
def State.cuffView (s : State) : State :=
  { s with
    p := { Split.vacant with members := s.p.members, status := s.p.status }
    g := { s.g with vregs := [], vstate := [] }
    reqs := [], remotes := [], updates := [], tiles := [], l1 := [], outbox := [], nextId := 0
    launches := s.launches.map Launch.plain, parts := s.parts.map Partition.besides }

theorem curLaunch_cuffView (s : State) : (curLaunch s.cuffView).plain = (curLaunch s).plain := by
  have hplain : (s.launches.map Launch.plain).map Launch.plain = s.launches.map Launch.plain := by simp [Launch.plain]
  exact find_plain hplain _

theorem detNow_cuffView (s : State) : detNow s.cuffView = detNow s := by
  have h := congrArg Launch.det (curLaunch_cuffView s)
  exact congrArg (· && !isPriv s) h

theorem gangIndex_cuffView (s : State) : gangIndex (curLaunch s.cuffView) s.g = gangIndex (curLaunch s) s.g := by
  have hscope := congrArg Launch.dscope (curLaunch_cuffView s)
  have hrank := congrArg Launch.mrank (curLaunch_cuffView s)
  change (curLaunch s.cuffView).dscope = (curLaunch s).dscope at hscope
  change (curLaunch s.cuffView).mrank = (curLaunch s).mrank at hrank
  rw [gangIndex, gangIndex, hscope, hrank]

/-- A change is seen by the Cuff buffer as it is made to what the Cuff buffer sees. -/
def CuffSees (f : State → State) : Prop := ∀ s, (f s).cuffView = (f s.cuffView).cuffView

theorem cuffView_twice (s : State) : s.cuffView.cuffView = s.cuffView := by simp [State.cuffView, Launch.plain, Partition.besides]

theorem CuffSees.congr {f : State → State} (h : CuffSees f) {s t : State} (hst : s.cuffView = t.cuffView) :
    (f s).cuffView = (f t).cuffView := by
  rw [h s, hst, ← h t]

theorem CuffSees.foldl {α : Type} {f : State → α → State} (h : ∀ a, CuffSees fun s => f s a) (l : List α) :
    CuffSees fun s => l.foldl f s := by
  have hall : ∀ s t : State, s.cuffView = t.cuffView → (l.foldl f s).cuffView = (l.foldl f t).cuffView := by
    induction l with
    | nil => exact fun _ _ hst => hst
    | cons a r ih => exact fun s t hst => ih _ _ ((h a).congr hst)
  exact fun s => hall _ _ (cuffView_twice s).symm

theorem cuffLine_cuffSees (b : BufStore) (d : List Byte) (line : Nat) : CuffSees fun s => cuffLine b d s line := by
  intro s
  have hentry : cuffEntryOf s.cuffView b d line = cuffEntryOf s b d line :=
    congrArg (fun i => { cuffEntryOf s b d line with key := key3 b.clock.toNat i (lowest s.p.members) }) (gangIndex_cuffView s)
  show { s.cuffView with g := { s.cuffView.g with cuff := cuffAdd (othersOn s line) (cuffEntryOf s b d line) s.g.cuff } } =
    { s.cuffView.cuffView with g := { s.cuffView.g with cuff := cuffAdd (othersOn s line) (cuffEntryOf s.cuffView b d line) s.g.cuff } }
  rw [cuffView_twice, hentry]

theorem depart_cuffView (q : RemoteReq) : Keeps State.cuffView (depart q) := by
  intro s
  unfold depart
  dsimp only
  split
  · rfl
  · obtain ⟨Q, hcount, hparts⟩ := countEvent_parts q.launch 0x031 (sentBytes q) { s with outbox := s.outbox ++ [remoteMsg s q] }
    rw [hcount]
    exact congrArg (fun P => { s.cuffView with parts := P }) hparts

theorem sendRemote_cuffView (q : RemoteReq) : Keeps State.cuffView (sendRemote q) := by
  intro s
  unfold sendRemote
  dsimp only
  split
  · rfl
  · exact depart_cuffView _ _

theorem discards_cuffView (n : Nat) (q : Req) : Keeps State.cuffView (mapLaunch n fun l => { l with discards := l.discards ++ [q] }) :=
  fun s => congrArg (fun L => { s.cuffView with launches := L })
    (mapLaunch_plain n (fun l => { l with discards := l.discards ++ [q] }) (fun _ => rfl) s)

theorem releaseStore_cuffSees (b : BufStore) : CuffSees (releaseStore b) := by
  intro s
  have hsame : s.cuffView = s.cuffView.cuffView := (cuffView_twice s).symm
  unfold releaseStore
  split
  · split
    · exact hsame
    · exact hsame
  · dsimp only
    rw [detNow_cuffView]
    split
    · split
      · next d _ => exact CuffSees.foldl (cuffLine_cuffSees b d) _ s
      · exact hsame
      · exact (discards_cuffView _ _ _).trans (hsame.trans (discards_cuffView _ _ _).symm)
      · exact hsame
    · exact hsame

theorem node_cuffView (s : State) : (partOf s.cuffView s.g.part).node = (partOf s s.g.part).node := by
  have h := besides_nodes (Q := s.parts.map Partition.besides) (R := s.parts) (by simp [Partition.besides]) s.g.part
  have hnode := congrArg Partition.node h
  exact hnode

theorem releaseGroup_cuffSees (l : List BufStore) : CuffSees (releaseGroup l) := by
  intro s
  cases l with
  | nil => exact (cuffView_twice s).symm
  | cons b r =>
    have hnode : (partOf s.cuffView s.cuffView.g.part).node = (partOf s s.g.part).node := node_cuffView s
    rw [releaseGroup, releaseGroup, hnode]
    split
    · have hfar : Keeps State.cuffView (releaseFar b (b :: r)) := fun x => by
        rw [releaseFar, sendReplay]
        exact Keeps.foldl (fun a x => sendRemote_cuffView _ x) _ x
      rw [hfar, hfar, cuffView_twice]
    · exact releaseStore_cuffSees b s

theorem releaseAll_cuffSees (l : List BufStore) : CuffSees (releaseAll l) := by
  intro s
  have hnode : (partOf s.cuffView s.cuffView.g.part).node = (partOf s s.g.part).node := node_cuffView s
  rw [releaseAll, releaseAll, hnode]
  exact CuffSees.foldl (f := fun s g => releaseGroup g s) releaseGroup_cuffSees _ s

/-- Room in the Cuff buffer is that of what the Cuff buffer sees. -/
theorem NoSpill.of_cuffView {x s : State} (room : NoSpill s) (hbuffer : x.p.buffer = s.p.buffer) (h : x.cuffView = s.cuffView) :
    NoSpill x := by
  have hreleased : (releaseRegion x).cuffView = (releaseRegion s).cuffView := by
    rw [releaseRegion, releaseRegion, hbuffer]
    exact (releaseAll_cuffSees s.p.buffer).congr h
  have hcuff := congrArg (fun y : State => y.g.cuff) hreleased
  change (releaseRegion x).g.cuff = (releaseRegion s).g.cuff at hcuff
  rw [NoSpill, hcuff]
  exact room

/-! ### One request of each lane -/

/-- The device without what requests change as they leave: the states of their destinations, what is on its way, the pending bytes of
copies, and what is counted. -/
def State.sansAsks (s : State) : State :=
  { s with
    p := { s.p with sstate := [] }, g := { s.g with vstate := [] }
    reqs := [], nextId := 0, l1 := [], parts := s.parts.map Partition.besides }

/-- A request of a lane joins those on their way; its destination awaits it, and nothing else differs. -/
structure Asks (P : Req → Prop) (d : Dest) (s t : State) : Prop where
  rest : t.sansAsks = s.sansAsks
  number : t.nextId = s.nextId + 1
  sent : ∃ q, t.reqs = s.reqs ++ [q] ∧ q.id = s.nextId ∧ P q
  states : ∀ c, regState t c = if c ∈ destCodes d then .empty s.nextId else regState s c

/-- One request of each lane of a list has joined those on their way. -/
structure AsksAll {α : Type} (P : α → Req → Prop) (dest : α → Dest) (l : List α) (s t : State) : Prop where
  rest : t.sansAsks = s.sansAsks
  queues : Queues s t
  sent : ∀ e ∈ l, ∃ q ∈ t.reqs, s.nextId ≤ q.id ∧ P e q ∧ ∀ c ∈ destCodes (dest e), regState t c = .empty q.id
  states : ∀ c, (∀ e ∈ l, c ∉ destCodes (dest e)) → regState t c = regState s c

theorem Asks.queues {P : Req → Prop} {d : Dest} {s t : State} (h : Asks P d s t) : Queues s t := by
  obtain ⟨q, hq, -⟩ := h.sent
  exact ⟨h.number ▸ Nat.le_succ _, _, hq⟩

theorem foldl_asks {α : Type} {step : State → α → State} {P : α → Req → Prop} {dest : α → Dest} {l : List α} {s : State}
    (hstep : ∀ e ∈ l, ∀ x, x.sansAsks = s.sansAsks → Asks (P e) (dest e) x (step x e))
    (hapart : l.Pairwise fun a b => ∀ c ∈ destCodes (dest a), c ∉ destCodes (dest b)) : AsksAll P dest l s (l.foldl step s) := by
  induction l generalizing s with
  | nil => exact ⟨rfl, .of_eq rfl rfl, nofun, fun _ _ => rfl⟩
  | cons a r ih =>
    obtain ⟨hfirst, hlater⟩ := List.pairwise_cons.mp hapart
    have hone := hstep a List.mem_cons_self s rfl
    have hall := ih (s := step s a) (fun e he x hx => hstep e (List.mem_cons_of_mem a he) x (hx.trans hone.rest)) hlater
    refine ⟨hall.rest.trans hone.rest, hone.queues.trans hall.queues, fun e he => ?_, fun c hc => ?_⟩
    · rcases List.mem_cons.mp he with rfl | he
      · obtain ⟨q, hq, hid, hP⟩ := hone.sent
        refine ⟨q, hall.queues.mem (hq ▸ List.mem_append_right _ (List.mem_singleton_self q)), hid.ge, hP, fun c hc => ?_⟩
        rw [List.foldl_cons, hall.states c fun b hb => hfirst b hb c hc, hone.states, if_pos hc, hid]
      · obtain ⟨q, hq, hid, hP⟩ := hall.sent e he
        exact ⟨q, hq, hone.queues.1.trans hid, hP⟩
    · rw [List.foldl_cons, hall.states c fun e he => hc e (List.mem_cons_of_mem a he), hone.states, if_neg (hc a List.mem_cons_self)]

theorem unwritten_entered (f : Form) {s : State} (room : NoSpill s) : Unwritten s (entered f s) := by
  have hs := entered_split f room
  exact ⟨hs.sregs, hs.wins, ⟨hs.mode, hs.exec, hs.fstat, hs.status, hs.epc, hs.cause, hs.frec⟩, hs.rstack, hs.members,
    field_entered (fun x => x.g.vregs) f room fun _ => rfl, field_entered (fun x => x.g.preds) f room fun _ => rfl,
    fun a => by rw [field_entered State.mem f room fun _ => rfl]⟩

section

variable {x y : State} (h : x.sansAsks = y.sansAsks)

include h

/-- A part of the device that no request changes as it leaves. -/
theorem field_sansAsks {β : Type} (view : State → β) (hview : ∀ z, view z.sansAsks = view z) : view x = view y := by
  rw [← hview x, h, hview]

theorem loops_sansAsks : SameLoops x.p y.p := by
  have hp (p : Split) : SameLoops { p with sstate := [] } p := ⟨rfl, rfl, rfl, rfl, rfl, rfl, rfl⟩
  have hxy : { x.p with sstate := [] } = { y.p with sstate := [] } := congrArg State.p h
  obtain ⟨hpc, hrstack, hlr0, hlr1, hlater, hlc0, hlc1⟩ := hxy ▸ hp x.p
  exact ⟨hpc.symm, hrstack.symm, hlr0.symm, hlr1.symm, hlater.symm, hlc0.symm, hlc1.symm⟩

theorem unwritten_sansAsks : Unwritten y x := by
  have keep {β : Type} (view : State → β) (hview : ∀ z, view z.sansAsks = view z) : view x = view y := field_sansAsks h view hview
  exact ⟨keep (fun x => x.p.sregs) fun _ => rfl, keep (fun x => x.p.wins) fun _ => rfl,
    ⟨keep (fun x => x.p.mode) fun _ => rfl, keep (fun x => x.p.exec) fun _ => rfl, keep (fun x => x.p.fstat) fun _ => rfl,
      keep (fun x => x.p.status) fun _ => rfl, keep (fun x => x.p.epc) fun _ => rfl, keep (fun x => x.p.cause) fun _ => rfl,
      keep (fun x => x.p.frec) fun _ => rfl⟩,
    keep (fun x => x.p.rstack) fun _ => rfl, keep (fun x => x.p.members) fun _ => rfl, keep (fun x => x.g.vregs) fun _ => rfl,
    keep (fun x => x.g.preds) fun _ => rfl, fun a => keep (fun x => memByte x.mem a) fun _ => rfl⟩

theorem room_sansAsks (room : NoSpill y) : NoSpill x := by
  have hview (z : State) : z.sansAsks.cuffView = z.cuffView := by simp [State.sansAsks, State.cuffView, Partition.besides]
  exact room.of_cuffView (field_sansAsks h (fun x => x.p.buffer) fun _ => rfl) (field_sansAsks h State.cuffView hview)

end

/-- An instruction that has sent one request of each lane and then fallen through. -/
theorem AsksAll.retires {α : Type} {P : α → Req → Prop} {dest : α → Dest} {l : List α} {f : Form} {s x t : State} {w : Nat}
    (h : AsksAll P dest l (entered f s) x) (room : NoSpill s) (hdone : Done w x t) :
    Retired w s t ∧ Unwritten s t ∧
      (∀ e ∈ l, ∃ q ∈ t.reqs, s.nextId ≤ q.id ∧ P e q ∧ ∀ c ∈ destCodes (dest e), regState t c = .empty q.id) ∧
      (∀ c, (∀ e ∈ l, c ∉ destCodes (dest e)) → regState t c = regState s c) ∧ ∀ q ∈ s.reqs, q ∈ t.reqs := by
  have hroom : NoSpill x := room_sansAsks h.rest (room.entered f)
  have hsplit := entered_split f room
  have hqueues := (entered_queues f room).trans h.queues
  have hlater := hdone.rest.queues hroom
  have hloops : SameLoops x.p s.p := by
    obtain ⟨hpc, hrstack, hlr0, hlr1, hlate, hlc0, hlc1⟩ := loops_sansAsks h.rest
    exact ⟨hpc.trans hsplit.pc, hrstack.trans hsplit.rstack, hlr0.trans hsplit.lr0, hlr1.trans hsplit.lr1, hlate.trans hsplit.lrLater,
      hlc0.trans hsplit.lc0, hlc1.trans hsplit.lc1⟩
  refine ⟨hdone.retired hloops ((field_sansAsks h.rest (fun x => x.p.status) fun _ => rfl).trans hsplit.status)
      ((field_sansAsks h.rest (fun x => x.p.clock) fun _ => rfl).trans hsplit.clock),
    ((unwritten_entered f room).trans (unwritten_sansAsks h.rest)).trans (hdone.unwritten hroom), fun e he => ?_, fun c hc => ?_,
    fun q hq => hlater.mem (hqueues.mem hq)⟩
  · obtain ⟨q, hq, hid, hP, hempty⟩ := h.sent e he
    exact ⟨q, hlater.mem hq, (entered_queues f room).1.trans hid, hP, fun c hc => (hdone.regState hroom c).trans (hempty c hc)⟩
  · rw [hdone.regState hroom, h.states c hc, regState_entered f room]

/-! ### Destinations -/

/-- A destination that a register has room for. -/
def named : Dest → Prop
  | .scalar r => r < 64
  | _ => True

theorem foldl_setVEmpty (l id : Nat) (rs : List Nat) (s : State) :
    (rs.foldl (fun s r => setVEmpty r l id s) s).sansAsks = s.sansAsks ∧
      (rs.foldl (fun s r => setVEmpty r l id s) s).reqs = s.reqs ∧ (rs.foldl (fun s r => setVEmpty r l id s) s).nextId = s.nextId ∧
      ∀ c, regState (rs.foldl (fun s r => setVEmpty r l id s) s) c = if c ∈ rs.map (fun r => codeV r l) then .empty id else regState s c := by
  induction rs generalizing s with
  | nil => exact ⟨rfl, rfl, rfl, fun _ => rfl⟩
  | cons r rs ih =>
    obtain ⟨hrest, hreqs, hnext, hstates⟩ := ih (setVEmpty r l id s)
    refine ⟨hrest, hreqs, hnext, fun c => ?_⟩
    rw [List.foldl_cons, hstates, regState_setV (s := s) (t := setVEmpty r l id s) (st := .empty id) rfl rfl]
    by_cases hr : c = codeV r l <;> simp [hr]

/-- Emptying a destination. -/
theorem markEmpty_states {d : Dest} (hd : named d) (id : Nat) (s : State) :
    (markEmpty d id s).sansAsks = s.sansAsks ∧ (markEmpty d id s).reqs = s.reqs ∧ (markEmpty d id s).nextId = s.nextId ∧
      ∀ c, regState (markEmpty d id s) c = if c ∈ destCodes d then .empty id else regState s c := by
  cases d with
  | none => exact ⟨rfl, rfl, rfl, fun _ => rfl⟩
  | scalar r => exact ⟨rfl, rfl, rfl, regState_setS' hd rfl rfl⟩
  | vector d n l => exact foldl_setVEmpty l id (countFrom d n) s

/-- A request leaves once its destination is empty. -/
theorem asks_sendReq {P : Req → Prop} {q : Req} {s z : State} {d : Dest} (hd : named d) (hrest : z.sansAsks = (markEmpty d s.nextId s).sansAsks)
    (hreqs : z.reqs = s.reqs) (hnext : z.nextId = s.nextId) (hstates : ∀ c, regState z c = regState (markEmpty d s.nextId s) c)
    (hP : P { q with id := s.nextId }) : Asks P d s (sendReq q z) := by
  obtain ⟨hempty, -, -, hcodes⟩ := markEmpty_states hd s.nextId s
  refine ⟨hrest.trans hempty, congrArg (· + 1) hnext, ⟨{ q with id := s.nextId }, ?_, rfl, hP⟩, fun c => (hstates c).trans (hcodes c)⟩
  rw [sendReq, hreqs, hnext]

theorem asks_sendTurn {P : Req → Prop} {q : Req} {s : State} {d : Dest} (hd : named d)
    (hP : P { q with
      id := s.nextId, key := if detNow s then some (curKey s) else none, phase := if isControl q.va then .refused 0x70 else .sent }) :
    Asks P d s (sendTurn q (markEmpty d s.nextId s)) := by
  obtain ⟨hrest, hreqs, hnext, -⟩ := markEmpty_states hd s.nextId s
  have hdet : detNow (markEmpty d s.nextId s) = detNow s := field_sansAsks hrest detNow fun _ => rfl
  have hkey : curKey (markEmpty d s.nextId s) = curKey s := field_sansAsks hrest curKey fun _ => rfl
  rw [sendTurn]
  dsimp only
  rw [hdet, hkey]
  split
  · exact asks_sendReq hd rfl hreqs hnext (fun _ => rfl) hP
  · exact asks_sendReq hd rfl hreqs hnext (fun _ => rfl) hP

/-! ### Addresses (R235, R236) -/

theorem windowAddress_eq (s : State) (w : BitVec 3) (o : Nat) : windowAddress (getW s w.toNat) o = address s w o := by
  apply BitVec.eq_of_toNat_eq
  generalize hb : (getW s w.toNat).base = b
  have hlt := b.isLt
  have hlow : (b.toNat + o) % 2 ^ 53 < 2 ^ 53 := Nat.mod_lt _ (Nat.two_pow_pos _)
  have hhigh : b.toNat / 2 ^ 53 < 2 ^ 11 := Nat.div_lt_of_lt_mul (by rw [← Nat.pow_add]; exact hlt)
  have hword : (address s w o).toNat = b.toNat / 2 ^ 53 * 2 ^ 53 + (b.toNat + o) % 2 ^ 53 := by
    rw [address, hb, BitVec.toNat_append, BitVec.extractLsb'_toNat, BitVec.toNat_add, BitVec.toNat_setWidth, BitVec.toNat_ofNat,
      Nat.shiftRight_eq_div_pow, Nat.mod_eq_of_lt hhigh, ← Nat.add_mod, ← Nat.shiftLeft_add_eq_or_of_lt hlow, Nat.shiftLeft_eq]
  rw [hword, windowAddress, hb, BitVec.toNat_ofNat, Nat.mod_eq_of_lt]
  omega

theorem isControl_address (s : State) (w : BitVec 3) (o : Nat) : isControl (address s w o) = (getW s w.toNat).base.getLsbD 63 := by
  rw [isControl, address, BitVec.getLsbD_append, if_neg (by decide), BitVec.getLsbD_extractLsb']
  rfl

theorem firstFail_ok {l : List (Nat × Ea)} (h : ∀ e ∈ l, ∃ va, e.2 = .ok va) : firstFail l = none ∧ firstMiss l = none := by
  induction l with
  | nil => exact ⟨rfl, rfl⟩
  | cons e r ih =>
    obtain ⟨i, ea⟩ := e
    obtain ⟨va, hva⟩ := h _ List.mem_cons_self
    dsimp only at hva
    subst hva
    exact ih fun x hx => h x (List.mem_cons_of_mem _ hx)

theorem laneVerdict_ok {l : List (Nat × Ea)} (h : ∀ e ∈ l, ∃ va, e.2 = .ok va) : laneVerdict l = .ok := by
  obtain ⟨hfail, hmiss⟩ := firstFail_ok h
  rw [laneVerdict, hfail, hmiss]

/-- What a window that is not stale, or an entry for its granule, permits passes the check of the core. -/
theorem corePermission_ok {s : State} {win : Window} {o n : Nat} {need : Need} (husable : win.stale = false)
    (hp : if o + n ≤ win.limit.toNat then allows win.perm need = true
      else ∃ e, plbEntry s s.g.core s.g.part s.g.asid (win.base + BitVec.ofNat 64 o) = some e ∧ allows e.perm need = true) :
    corePermission s win o n need = .ok := by
  have hwindow : usableWindow s win = win := by rw [usableWindow, husable]; rfl
  rw [corePermission, hwindow]
  split
  · next hin =>
    rw [if_pos hin] at hp
    rw [hp, Bool.true_or, if_pos rfl]
  · next hout =>
    rw [if_neg hout] at hp
    obtain ⟨e, he, hallowed⟩ := hp
    rw [he]
    change (if allows e.perm need || _ then CoreCheck.ok else .fail) = .ok
    rw [hallowed, Bool.true_or, if_pos rfl]

section

variable {n : Nat} {need : Need} {s : State} {w : BitVec 3} {os : List Nat} (h : Reaches n need s w os)

include h

theorem reaches_near (o : Nat) : isControl (address s w o) = false := (isControl_address s w o).trans h.node

/-- An access that passes the checks of the rules passes those of the core. -/
theorem effective_ok {o : Nat} (ho : o ∈ os) : effective s (getW s w.toNat) o n need = .ok (address s w o) := by
  have haddress := windowAddress_eq s w o
  have hnear := reaches_near h o
  have hshut : apertureShut s (offsetOf (address s w o)) = false := by
    by_cases hr : regionOf (offsetOf (address s w o)) = 3
    · obtain ⟨p, hp, hflit⟩ := h.carried o ho hr
      simp [apertureShut, hp, hflit]
    · simp [apertureShut, hr]
  have hpermitted := corePermission_ok h.usable (h.permitted o ho)
  have hinside := h.inside o ho
  rw [effective, h.valid, Bool.not_true, if_neg Bool.false_ne_true, if_neg (Nat.not_lt.mpr hinside), haddress]
  simp [h.aligned o ho, hnear, hshut, hpermitted]

theorem refreshWindow_fresh {x : State} (hx : getW x w.toNat = getW s w.toNat) : refreshWindow w.toNat x = x := by
  rw [refreshWindow, hx, h.usable, Bool.and_false, if_neg Bool.false_ne_true]

end

theorem laneTargets_eq (s : State) (w : BitVec 3) (a : BitVec 7) :
    laneTargets s w a = (activeLanes s).map fun i => (i, address s w (fieldBits s a.toNat false i)) := by
  rw [laneTargets]
  exact List.map_congr_left fun i _ => by rw [windowAddress_eq, laneOffset]

theorem laneTargets_entered (f : Form) {s : State} (room : NoSpill s) (w : BitVec 3) (a : BitVec 7) :
    laneTargets (entered f s) w a = laneTargets s w a := by
  simp only [laneTargets, laneOffset, activeLanes_entered f room, getW_entered f room, fieldBits_entered f room]

theorem laneAddrs_ok {n : Nat} {need : Need} {s : State} {w : BitVec 3} {a : BitVec 7} (h : Reaches n need s w (laneOffsets s a)) :
    laneVerdict (laneAddrs s w a n need) = .ok := by
  refine laneVerdict_ok fun e he => ?_
  obtain ⟨i, hi, rfl⟩ := List.mem_map.mp he
  exact ⟨_, effective_ok h (List.mem_map_of_mem hi)⟩

/-! ### Destinations of lanes -/

/-- The registers of one lane are not those of another. -/
theorem lanes_apart (d n : Nat) {ls : List Nat} (hls : ls.Nodup) (hlt : ∀ i ∈ ls, i < 64) :
    ls.Pairwise fun i j => ∀ c ∈ destCodes (.vector d n i), c ∉ destCodes (.vector d n j) := by
  refine hls.imp_of_mem fun {i j} hi hj hne c hci hcj => hne ?_
  obtain ⟨x, -, rfl⟩ := List.mem_map.mp hci
  obtain ⟨y, -, hy⟩ := List.mem_map.mp hcj
  have hilt := hlt i hi
  have hjlt := hlt j hj
  unfold codeV at hy
  omega

theorem activeLanes_nodup (s : State) : (activeLanes s).Nodup := ((countFrom_nodup 0 64).filter _).filter _

theorem activeLanes_lt {s : State} {i : Nat} (h : i ∈ activeLanes s) : i < 64 :=
  mem_countFrom_zero.mp (List.mem_of_mem_filter (List.mem_of_mem_filter h))

theorem dstV_eq (d n : Nat) (ls : List Nat) : dstV d n ls = ls.flatMap fun i => destCodes (.vector d n i) := rfl

/-! ### Loads (R239, R240) -/

/-- What the request of a load is. -/
structure LoadOf (n : Nat) (sx : Bool) (s : State) (lane : Nat) (va : Word) (dest : Dest) (q : Req) : Prop where
  place : q.lane = lane ∧ q.va = va ∧ q.size = n
  kind : q.op = .load ∧ q.dest = dest ∧ q.sx = sx
  issuer : q.gang = s.g.id ∧ q.lanes = s.p.members ∧ q.pc = s.p.pc
  view : q.view = if detNow s && decide (regionOf (offsetOf va) ≠ 3) then some (curView s) else none

/-- A load leaves with its forwarded bytes, its view and its key, and in a phase of its own. -/
theorem loadReq_eq (q : Req) (s : State) : ∃ fwd key phase, loadReq q s = { q with
    id := s.nextId, fwd := fwd, key := key, phase := phase, view := if viewed s q.va then some (curView s) else none } := by
  unfold loadReq
  dsimp only
  repeat' split
  all_goals exact ⟨_, _, _, rfl⟩

theorem issueLoad_asks {P : Req → Prop} {q : Req} {s : State} (hd : named q.dest) (hP : ∀ fwd key phase, P { q with
      id := s.nextId, fwd := fwd, key := key, phase := phase, view := if viewed s q.va then some (curView s) else none }) :
    Asks P q.dest s (issueLoad q s) := by
  obtain ⟨fwd, key, phase, hload⟩ := loadReq_eq q s
  have hcounted : ∀ x : State, x.sansAsks = s.sansAsks → x.reqs = s.reqs → x.nextId = s.nextId → (∀ c, regState x c = regState s c) →
      Asks P q.dest s (sendReq (loadReq q s) (markEmpty q.dest x.nextId x)) := by
    intro x hrest hreqs hnext hstates
    obtain ⟨erest, ereqs, enext, estates⟩ := markEmpty_states hd x.nextId x
    obtain ⟨srest, -, -, sstates⟩ := markEmpty_states hd s.nextId s
    refine asks_sendReq hd (erest.trans (hrest.trans srest.symm)) (ereqs.trans hreqs) (enext.trans hnext) (fun c => ?_)
      (by rw [hload]; exact hP fwd key phase)
    rw [estates, sstates, hstates, hnext]
  have hdest : (loadReq q s).dest = q.dest := by rw [hload]
  rw [issueLoad, hdest]
  split
  · obtain ⟨Q, hcount, hparts⟩ := countEvent_parts s.g.launch 0x010 1 s
    rw [hcount]
    exact hcounted _ (congrArg (fun P => { s.sansAsks with parts := P }) hparts) rfl rfl fun _ => rfl
  · exact hcounted s rfl rfl rfl fun _ => rfl

/-- The load of one lane, or of the split, leaves. -/
theorem loadStep_asks {n lane : Nat} {sx nt : Bool} {va : Word} {dest : Dest} {word : BitVec 32} {s y : State} (hd : named dest)
    (hsame : y.sansAsks = s.sansAsks) :
    Asks (LoadOf n sx s lane va dest) dest y (issueLoad { mkReq y lane va n .load dest word with sx := sx, nt := nt } y) := by
  refine issueLoad_asks (q := { mkReq y lane va n .load dest word with sx := sx, nt := nt }) hd fun fwd key phase => ⟨⟨rfl, rfl, rfl⟩, ⟨rfl, rfl, rfl⟩, ⟨?_, ?_, ?_⟩, ?_⟩
  · exact field_sansAsks hsame (fun x => x.g.id) fun _ => rfl
  · exact field_sansAsks hsame (fun x => x.p.members) fun _ => rfl
  · exact field_sansAsks hsame (fun x => x.p.pc) fun _ => rfl
  · have hview : curView y = curView s := field_sansAsks hsame curView fun _ => rfl
    have hdet : detNow y = detNow s := field_sansAsks hsame detNow fun _ => rfl
    show (if viewed y va then some (curView y) else none) = _
    rw [viewed, hview, hdet]

theorem LoadOf.of_entered {n lane : Nat} {sx : Bool} {f : Form} {s : State} {va : Word} {dest : Dest} {q : Req} (room : NoSpill s)
    (h : LoadOf n sx (entered f s) lane va dest q) : LoadOf n sx s lane va dest q := by
  obtain ⟨hplace, hkind, ⟨hgang, hlanes, hpc⟩, hview⟩ := h
  refine ⟨hplace, hkind, ⟨hgang.trans (field_entered (fun x => x.g.id) f room fun _ => rfl), hlanes.trans (members_entered f room),
    hpc.trans (pc_entered f room)⟩, ?_⟩
  rw [hview, detNow_entered f room, curView_entered f room]

theorem loadSent_of {n lane : Nat} {sx : Bool} {s t : State} {va : Word} {dest : Dest}
    (h : ∃ q ∈ t.reqs, s.nextId ≤ q.id ∧ LoadOf n sx s lane va dest q ∧ ∀ c ∈ destCodes dest, regState t c = .empty q.id) :
    LoadSent n sx s t lane va dest := by
  obtain ⟨q, hq, hid, ⟨⟨hlane, hva, hsize⟩, ⟨hop, hdest, hsx⟩, ⟨hgang, hlanes, hpc⟩, hview⟩, hempty⟩ := h
  exact ⟨q, hq, hid, hlane, hva, hsize, hop, hdest, hsx, hgang, hlanes, hpc, hview, hempty⟩

theorem loadAll_near {word : BitVec 32} {n : Nat} {sx nt : Bool} {dest : Nat → Dest} {l : List (Nat × Word)} {s : State}
    (hnear : ∀ e ∈ l, isControl e.2 = false) : loadAll word n sx nt dest l s =
      l.foldl (fun s e => issueLoad { mkReq s e.1 e.2 n .load (dest e.1) word with sx := sx, nt := nt } s) s := by
  refine List.foldl_ext _ _ _ fun x e he => ?_
  rw [hnear e he, if_neg Bool.false_ne_true]

/-- A rotation that a back edge would make does not happen once requests have left. -/
theorem whole_sansAsks {f : Form} {s x : State} (h : x.sansAsks = (entered f s).sansAsks) (room : NoSpill s)
    (hwhole : (edges s).repeats = true → NoRotation s) : (edges x).repeats = true → NoRotation x := by
  intro hrepeats
  have hloops : SameLoops x.p s.p := by
    have hs := (entered_split f room).loops
    obtain ⟨hpc, hrstack, hlr0, hlr1, hlate, hlc0, hlc1⟩ := loops_sansAsks h
    exact ⟨hpc.trans hs.pc, hrstack.trans hs.rstack, hlr0.trans hs.lr0, hlr1.trans hs.lr1, hlate.trans hs.lrLater,
      hlc0.trans hs.lc0, hlc1.trans hs.lc1⟩
  have hrot := hwhole ((edges_congr hloops).repeats ▸ hrepeats)
  have hslices : rotatable x = rotatable s := (field_sansAsks h rotatable fun _ => rfl).trans (rotatable_entered f room)
  have hpriv : isPriv x = isPriv s := (field_sansAsks h isPriv fun _ => rfl).trans (isPriv_entered f room)
  rw [NoRotation, hslices, hpriv]
  exact hrot

/-- Loads that leave, and the instruction falls through. -/
theorem loads_retire {n : Nat} {sx nt : Bool} {word : BitVec 32} {dest : Nat → Dest} {l : List (Nat × Word)} {f : Form} {s : State}
    {w : BitVec 3} {os : List Nat} (hreach : Reaches n { rd := true, wr := false } s w os) (room : NoSpill s)
    (hwhole : (edges s).repeats = true → NoRotation s) (hl : ∀ e ∈ l, isControl e.2 = false ∧ named (dest e.1))
    (hapart : l.Pairwise fun a b => ∀ c ∈ destCodes (dest a.1), c ∉ destCodes (dest b.1)) :
    ∃ t, finish 4 (refreshWindow w.toNat (loadAll word n sx nt dest l (entered f s))) = t ∧ Retired 4 s t ∧ Unwritten s t ∧
      (∀ e ∈ l, LoadSent n sx s t e.1 e.2 (dest e.1)) ∧
      (∀ c, (∀ e ∈ l, c ∉ destCodes (dest e.1)) → regState t c = regState s c) ∧ ∀ q ∈ s.reqs, q ∈ t.reqs := by
  have hasks : AsksAll (fun e => LoadOf n sx (entered f s) e.1 e.2 (dest e.1)) (fun e => dest e.1) l (entered f s)
      (loadAll word n sx nt dest l (entered f s)) := by
    rw [loadAll_near fun e he => (hl e he).1]
    exact foldl_asks (fun e he y hy => loadStep_asks (hl e he).2 hy) hapart
  have hwindow : getW (loadAll word n sx nt dest l (entered f s)) w.toNat = getW s w.toNat :=
    (field_sansAsks hasks.rest (fun x => getW x w.toNat) fun _ => rfl).trans (getW_entered f room _)
  have hdone := finish_done 4 (room_sansAsks hasks.rest (room.entered f)) (whole_sansAsks hasks.rest room hwhole)
  obtain ⟨hretired, hunwritten, hsent, hothers, hreqs⟩ := hasks.retires room hdone
  refine ⟨_, rfl, ?_⟩
  rw [refreshWindow_fresh hreach hwindow]
  refine ⟨hretired, hunwritten, fun e he => ?_, hothers, hreqs⟩
  obtain ⟨q, hq, hid, hload, hempty⟩ := hsent e he
  exact loadSent_of ⟨q, hq, hid, hload.of_entered room, hempty⟩

theorem ldG_sends {o : OpM} {s : State} {n : Nat} (hform : wellFormed (.ldG o) = true) (hsize : accessSize s o.sz.toNat = some n)
    (hdst : sizeDstOk s o.sz.toNat o.d = true) (hreach : Reaches n { rd := true, wr := false } s o.w (laneOffsets s o.a))
    (h : Ready 4 (vecRead (Ty.n 32) s [o.a]) (dstV o.d.toNat (regsOf n) (activeLanes s)) s) :
    ∃ t, exec (.ldG o) s = .next t ∧ Retired 4 s t ∧ Unwritten s t ∧
      (∀ i ∈ activeLanes s, LoadSent n (signExtends s o.sx o.sz.toNat) s t i (address s o.w (fieldBits s o.a.toNat false i))
        (.vector o.d.toNat (regsOf n) i)) ∧
      (∀ c, c ∉ dstV o.d.toNat (regsOf n) (activeLanes s) → regState t c = regState s c) ∧ ∀ q ∈ s.reqs, q ∈ t.reqs := by
  let f : Form := { memForm (wordOf (encode (.ldG o))) 4 (wellFormed (.ldG o) && sizeDstOk s o.sz.toNat o.d) o.ta o.w o.a s with
    dsts := dstV o.d.toNat (regsOf n) (activeLanes s)
    opens := fun s => blockedLoad n (laneTargets s o.w o.a) s }
  let effect (x : State) : State := finish 4 (refreshWindow o.w.toNat (loadAll (wordOf (encode (.ldG o))) n
    (signExtends x o.sx o.sz.toNat) o.nt (fun i => .vector o.d.toNat (regsOf n) i) (laneTargets x o.w o.a) x))
  have hexec : exec (.ldG o) s = .next (issue f (fun s => laneVerdict (laneAddrs s o.w o.a n readNeed)) effect s) := by
    show Host.Outcome.next (match accessSize s o.sz.toNat with | none => _ | some n => _) = _
    rw [hsize]
  have hissue : issue f (fun s => laneVerdict (laneAddrs s o.w o.a n readNeed)) effect s = effect (entered f s) :=
    h.passes ⟨rfl, rfl⟩ ⟨rfl, rfl⟩ (by show (if _ then _ else _) = _; rw [hform, hdst]; rfl)
      (srcV_full h.sources List.mem_cons_self o.ta) (laneAddrs_ok hreach) nofun (fun _ hc => hc) (Nat.le_refl _)
  have hsx : signExtends (entered f s) o.sx o.sz.toNat = signExtends s o.sx o.sz.toNat := by
    rw [signExtends, signExtends, elemTy_entered f h.room]
  have hnear : ∀ e ∈ laneTargets s o.w o.a, isControl e.2 = false ∧ named (.vector o.d.toNat (regsOf n) e.1) := fun e he => by
    rw [laneTargets_eq] at he
    obtain ⟨i, -, rfl⟩ := List.mem_map.mp he
    exact ⟨reaches_near hreach _, trivial⟩
  have hapart : (laneTargets s o.w o.a).Pairwise fun a b =>
      ∀ c ∈ destCodes (.vector o.d.toNat (regsOf n) a.1), c ∉ destCodes (.vector o.d.toNat (regsOf n) b.1) := by
    rw [laneTargets_eq, List.pairwise_map]
    exact lanes_apart _ _ (activeLanes_nodup s) fun i => activeLanes_lt
  obtain ⟨t, ht, hretired, hunwritten, hsent, hothers, hreqs⟩ := loads_retire (n := n) (sx := signExtends s o.sx o.sz.toNat) (nt := o.nt)
    (word := wordOf (encode (.ldG o))) (dest := fun i => .vector o.d.toNat (regsOf n) i) (l := laneTargets s o.w o.a) (f := f)
    hreach h.room h.whole hnear hapart
  refine ⟨t, ?_, hretired, hunwritten, fun i hi => ?_, fun c hc => hothers c fun e he hmem => hc ?_, hreqs⟩
  · rw [hexec, hissue, ← ht]
    show Host.Outcome.next (finish 4 _) = _
    rw [hsx, laneTargets_entered f h.room]
  · exact hsent (i, address s o.w (fieldBits s o.a.toNat false i)) (by rw [laneTargets_eq]; exact List.mem_map_of_mem hi)
  · rw [laneTargets_eq] at he
    obtain ⟨i, hi, rfl⟩ := List.mem_map.mp he
    exact List.mem_flatMap.mpr ⟨i, hi, hmem⟩

theorem splitTarget_entered (f : Form) {s : State} (room : NoSpill s) (w : BitVec 3) (a : BitVec 7) :
    splitTarget (entered f s) w a = splitTarget s w a := by
  rw [splitTarget, splitTarget, getW_entered f room, getS_entered f room]

theorem ldU_sends {o : OpM} {s : State} {n : Nat} (hform : wellFormed (.ldU o) = true) (hn : n = if o.sz = 0 then 8 else 2 ^ (o.sz.toNat - 1))
    (hreach : Reaches n { rd := true, wr := false } s o.w [(getS s o.a.toNat).toNat % 2 ^ 32])
    (h : Ready 4 [codeS o.a.toNat] [codeS o.d.toNat] s) :
    ∃ t, exec (.ldU o) s = .next t ∧ Retired 4 s t ∧ Unwritten s t ∧
      LoadSent n o.sx s t 64 (address s o.w ((getS s o.a.toNat).toNat % 2 ^ 32)) (.scalar o.d.toNat) ∧
      (∀ c, c ≠ codeS o.d.toNat → regState t c = regState s c) ∧ ∀ q ∈ s.reqs, q ∈ t.reqs := by
  have hsize : (if o.sz.toNat = 0 then 8 else 2 ^ (o.sz.toNat - 1)) = n := by
    rw [hn]
    exact if_congr (by rw [← BitVec.toNat_inj]; rfl) rfl rfl
  let f : Form := { Form.plain (wordOf (encode (.ldU o))) 4 with
    bad := if wellFormed (.ldU o) then none else some 0x03
    addrs := srcS o.a o.ta
    reads := [codeW o.w.toNat]
    dsts := [codeS o.d.toNat]
    opens := fun s => blockedLoad n (splitTarget s o.w o.a) s }
  let effect (x : State) : State := finish 4 (refreshWindow o.w.toNat (loadAll (wordOf (encode (.ldU o))) n o.sx o.nt
    (fun _ => .scalar o.d.toNat) (splitTarget x o.w o.a) x))
  have hexec : exec (.ldU o) s = .next (issue f (fun s => splitVerdict (splitAddr s o.w o.a n readNeed)) effect s) := by
    subst hsize
    rfl
  have hcheck : splitVerdict (splitAddr s o.w o.a n readNeed) = .ok := by
    have hea := effective_ok hreach List.mem_cons_self
    rw [splitAddr]
    exact congrArg splitVerdict hea
  have hissue : issue f (fun s => splitVerdict (splitAddr s o.w o.a n readNeed)) effect s = effect (entered f s) :=
    h.passes ⟨rfl, rfl⟩ ⟨rfl, rfl⟩ (if_pos hform) (by simpa [srcS, f] using h.sources) hcheck nofun (fun _ hc => hc) (Nat.le_refl _)
  have htarget : splitTarget s o.w o.a = [(64, address s o.w ((getS s o.a.toNat).toNat % 2 ^ 32))] := by
    rw [splitTarget, windowAddress_eq]
  have hscalar : o.d.toNat < 64 := by
    have hfields : (isS o.d && isS o.a && isUniformSize o.sx o.sz) = true := hform
    exact of_decide_eq_true (Bool.and_eq_true_iff.mp (Bool.and_eq_true_iff.mp hfields).1).1
  obtain ⟨t, ht, hretired, hunwritten, hsent, hothers, hreqs⟩ := loads_retire (n := n) (sx := o.sx) (nt := o.nt)
    (word := wordOf (encode (.ldU o))) (dest := fun _ => .scalar o.d.toNat) (l := splitTarget s o.w o.a) (f := f) hreach h.room h.whole
    (by rw [htarget]; exact List.forall_mem_singleton.mpr ⟨reaches_near hreach _, hscalar⟩)
    (by rw [htarget]; exact List.pairwise_singleton _ _)
  refine ⟨t, ?_, hretired, hunwritten, hsent (64, _) (by rw [htarget]; exact List.mem_cons_self), fun c hc => hothers c fun e _ hmem =>
    hc (List.mem_singleton.mp hmem), hreqs⟩
  rw [hexec, hissue, ← ht]
  show Host.Outcome.next (finish 4 _) = _
  rw [splitTarget_entered f h.room]

/-- Settles O24: the loads of an instruction leave one by one, each with its destination empty, and the instruction falls through. -/
theorem loadsSendTheirRequests : Obligations.LoadsSendTheirRequests :=
  ⟨fun _ _ _ hform hsize hdst hreach h => ldG_sends hform hsize hdst hreach h, fun _ _ hform hreach h => ldU_sends hform rfl hreach h⟩

end Sys2Proof.Machine
end

section
/-! PROOF. The turn operations of a free launch that ask a home (spec/11_isa_memory_sync.md R245 to R248). -/

namespace Sys2Proof.Machine

open Sys2Proof.Rules

/-! ### Turns of a free launch (R60) -/

/-- A turn of a free launch is issued on its committed region. -/
theorem ReadyTurn.passes {w : Nat} {rd wr : List Nat} {s : State} (h : ReadyTurn w rd wr s) {f : Form} {check : State → Verdict}
    {effect : State → State} (hturn : f.turn = true) (hpriv : f.privileged = false ∧ f.barred = false)
    (hbad : f.bad = none) (haddrs : ∀ e ∈ f.addrs, regState s e.1 = .full) (hcheck : check s = .ok)
    (hsrcs : ∀ e ∈ f.srcs, regState s e.1 = .full) (hdsts : ∀ c ∈ f.dsts, c ∈ wr) (hweight : f.full s = fullWeight w s) :
    issue f check effect s = effect (entered f s) := by
  refine issue_ok ?_ h.quiet ?_ ?_ hbad haddrs hcheck hsrcs (hweight ▸ h.clock) fun c hc => h.dests c (hdsts c hc)
  · rw [hturn, if_pos rfl]; exact h.undisturbed
  · rw [hpriv.1]; nofun
  · rw [hpriv.2]; nofun

section

variable {α : Type} {P : α → Req → Prop} {dest : α → Dest} {l : List α} {f : Form} {s x : State}
  (h : AsksAll P dest l (entered f s) x) (room : NoSpill s) (hturn : f.irrevocable = true) (hfree : detNow s = false) (hrot : NoRotation s)

include h room hturn hfree hrot

/-- A turn that has asked for every lane retires. -/
theorem AsksAll.turns : Retired 8 s (finishTurn 8 x) ∧ Unwritten s (finishTurn 8 x) ∧
    (∀ e ∈ l, ∃ q ∈ (finishTurn 8 x).reqs, s.nextId ≤ q.id ∧ P e q ∧ ∀ c ∈ destCodes (dest e), regState (finishTurn 8 x) c = .empty q.id) ∧
    (∀ c, (∀ e ∈ l, c ∉ destCodes (dest e)) → regState (finishTurn 8 x) c = regState s c) ∧ ∀ q ∈ s.reqs, q ∈ (finishTurn 8 x).reqs := by
  have hdet : detNow x = false := (field_sansAsks h.rest detNow fun _ => rfl).trans ((detNow_entered f room).trans hfree)
  have hslices : rotatable x = rotatable s := (field_sansAsks h.rest rotatable fun _ => rfl).trans (rotatable_entered f room)
  have hpriv : isPriv x = isPriv s := (field_sansAsks h.rest isPriv fun _ => rfl).trans (isPriv_entered f room)
  have hbuffer : x.p.buffer = [] := by
    rw [field_sansAsks h.rest (fun x => x.p.buffer) fun _ => rfl, entered_irrevocable hturn, commitRegion_buffer room]
  exact h.retires room (finishTurn_done hdet (room_sansAsks h.rest (room.entered f)) hbuffer (by rw [NoRotation, hslices, hpriv]; exact hrot))

end

/-! ### Requests of turns -/

/-- What the request of a lane of a turn is. -/
structure TurnOf (n : Nat) (acquire : Bool) (s : State) (lane : Nat) (va : Word) (op : AccessOp) (dest : Dest) (q : Req) : Prop where
  place : q.lane = lane ∧ q.va = va ∧ q.size = n
  kind : q.op = op ∧ q.dest = dest ∧ q.cls = 0 ∧ q.acquire = acquire
  issuer : q.gang = s.g.id ∧ q.lanes = s.p.members ∧ q.pc = s.p.pc
  phase : q.phase = .sent

theorem TurnOf.of_entered {n lane : Nat} {acquire : Bool} {f : Form} {s : State} {va : Word} {op : AccessOp} {dest : Dest} {q : Req}
    (room : NoSpill s) (h : TurnOf n acquire (entered f s) lane va op dest q) : TurnOf n acquire s lane va op dest q := by
  obtain ⟨hplace, hkind, ⟨hgang, hlanes, hpc⟩, hphase⟩ := h
  exact ⟨hplace, hkind, ⟨hgang.trans (field_entered (fun x => x.g.id) f room fun _ => rfl), hlanes.trans (members_entered f room),
    hpc.trans (pc_entered f room)⟩, hphase⟩

theorem asked_of {n lane : Nat} {acquire : Bool} {s t : State} {va : Word} {op : AccessOp} {dest : Dest}
    (h : ∃ q ∈ t.reqs, s.nextId ≤ q.id ∧ TurnOf n acquire s lane va op dest q ∧ ∀ c ∈ destCodes dest, regState t c = .empty q.id) :
    Asked n 0 acquire s t lane va op dest := by
  obtain ⟨q, hq, hid, ⟨⟨hlane, hva, hsize⟩, ⟨hop, hdest, hcls, hacquire⟩, ⟨hgang, hlanes, hpc⟩, -⟩, hempty⟩ := h
  exact ⟨q, hq, hid, hlane, hva, hsize, hop, hdest, hcls, hacquire, hgang, hlanes, hpc, hempty⟩

theorem sent_of {n lane : Nat} {acquire : Bool} {s t : State} {va : Word} {op : AccessOp} {dest : Dest}
    (h : ∃ q ∈ t.reqs, s.nextId ≤ q.id ∧ TurnOf n acquire s lane va op dest q) : Sent s t lane va op := by
  obtain ⟨q, hq, hid, ⟨⟨hlane, hva, -⟩, ⟨hop, -, -, -⟩, ⟨hgang, hlanes, -⟩, hphase⟩⟩ := h
  exact ⟨q, hq, hid, hlane, hva, hop, hgang, hlanes, hphase⟩

/-- The request of one lane of a turn leaves. -/
theorem turnStep_asks {q : Req} {n lane : Nat} {acquire : Bool} {va : Word} {op : AccessOp} {dest : Dest} {word : BitVec 32} {s y : State}
    (hd : named dest) (hnear : isControl va = false) (hsame : y.sansAsks = s.sansAsks)
    (hq : ∃ sx drops, q = { mkReq y lane va n op dest word with sx := sx, acquire := acquire, drops := drops }) :
    Asks (TurnOf n acquire s lane va op dest) dest y (sendTurn q (markEmpty dest y.nextId y)) := by
  obtain ⟨sx, drops, rfl⟩ := hq
  refine asks_sendTurn hd ⟨⟨rfl, rfl, rfl⟩, ⟨rfl, rfl, rfl, rfl⟩, ⟨?_, ?_, ?_⟩, if_neg (ne_true_of_eq_false hnear)⟩
  · exact field_sansAsks hsame (fun x => x.g.id) fun _ => rfl
  · exact field_sansAsks hsame (fun x => x.p.members) fun _ => rfl
  · exact field_sansAsks hsame (fun x => x.p.pc) fun _ => rfl

/-! ### Bytes of registers (R238) -/

theorem leBytes_eq (n x : Nat) : leBytes n x = (List.range n).map fun k => BitVec.ofNat 8 (x / 256 ^ k) := by
  induction n generalizing x with
  | zero => rfl
  | succ n ih =>
    rw [leBytes, ih, List.range_succ_eq_map, List.map_cons, List.map_map, Nat.pow_zero, Nat.div_one]
    refine congrArg _ (List.map_congr_left fun k _ => ?_)
    rw [Function.comp_apply, Nat.div_div_eq_div_mul, Nat.pow_succ']

theorem leBytes_word (x : BitVec 32) : leBytes 4 x.toNat = (List.range 4).map fun k => x.extractLsb' (8 * k) 8 := by
  rw [leBytes_eq]
  refine List.map_congr_left fun k _ => BitVec.eq_of_toNat_eq ?_
  rw [BitVec.toNat_ofNat, BitVec.extractLsb'_toNat, Nat.shiftRight_eq_div_pow, Nat.pow_mul]

theorem regBytes_eq (s : State) (d : Nat) (r i : Nat) :
    regBytes s d r i = (List.range (4 * r)).map fun k => (getV s (d + k / 4) i).extractLsb' (8 * (k % 4)) 8 := by
  rw [regBytes, countFrom_eq]
  induction r with
  | zero => rfl
  | succ r ih =>
    rw [List.range_succ, List.map_append, List.flatMap_append, ih, Nat.mul_succ, List.range_add, List.map_append, List.map_map]
    refine congrArg _ ?_
    rw [List.map_singleton, List.flatMap_singleton, leBytes_word]
    refine List.map_congr_left fun k hk => ?_
    have hlt := List.mem_range.mp hk
    rw [Function.comp_apply, show (4 * r + k) / 4 = r by omega, show (4 * r + k) % 4 = k by omega]

/-- The low bytes of the registers of a lane. -/
theorem regBytes_take {s : State} {d : BitVec 7} {e n r i : Nat} (he : d.toNat = e) (h : n ≤ 4 * r) :
    (regBytes s e r i).take n = laneBytes s d n i := by
  rw [regBytes_eq, laneBytes, ← List.map_take, List.take_range, Nat.min_eq_left h, he]

/-- An element fills at most the registers of its operand. -/
theorem bytes_of_elemTy {s : State} {t : Ty} (h : elemTy s = some t) : t.width / 8 ≤ 4 * t.regs := by
  have hcode : ∀ c < 12, ∀ t, tyOfCode c = some t → t.width / 8 ≤ 4 * t.regs := by decide
  by_cases hc : modeT s < 12
  · exact hcode _ hc t h
  · rw [elemTy, tyOfCode] at h
    · cases h
    all_goals omega

theorem srcV_dst {d r : Nat} (hd : d < 96) (b : Bool) (ls : List Nat) : ∀ e ∈ srcV d r b ls, e.1 ∈ dstV d r ls := by
  intro e he
  rw [srcV, if_neg (Nat.not_le.mpr hd)] at he
  obtain ⟨i, hi, hmem⟩ := List.mem_flatMap.mp he
  obtain ⟨n, hn, rfl⟩ := List.mem_map.mp hmem
  exact List.mem_flatMap.mpr ⟨i, hi, List.mem_map_of_mem hn⟩

theorem targets_near {w : BitVec 3} {a : BitVec 7} {n : Nat} {need : Need} {s : State} (h : Reaches n need s w (laneOffsets s a)) :
    ∀ e ∈ laneTargets s w a, isControl e.2 = false := by
  intro e he
  rw [laneTargets_eq] at he
  obtain ⟨i, -, rfl⟩ := List.mem_map.mp he
  exact reaches_near h _

/-- A turn that has sent the request of every active lane retires. -/
theorem lanes_turn {n : Nat} {need : Need} {acquire : Bool} {w : BitVec 3} {a : BitVec 7} {op : Nat → AccessOp} {dest : Nat → Dest}
    {step : State → Nat × Word → State} {f : Form} {s : State} (hreach : Reaches n need s w (laneOffsets s a)) (room : NoSpill s)
    (hturn : f.irrevocable = true) (hfree : detNow s = false) (hrot : NoRotation s)
    (hapart : (activeLanes s).Pairwise fun i j => ∀ c ∈ destCodes (dest i), c ∉ destCodes (dest j))
    (hstep : ∀ i ∈ activeLanes s, ∀ va, isControl va = false → ∀ y, y.sansAsks = (entered f s).sansAsks →
      Asks (TurnOf n acquire (entered f s) i va (op i) (dest i)) (dest i) y (step y (i, va))) :
    ∃ u, finishTurn 8 (refreshWindow w.toNat ((laneTargets s w a).foldl step (entered f s))) = u ∧ Retired 8 s u ∧ Unwritten s u ∧
      (∀ i ∈ activeLanes s, ∃ q ∈ u.reqs, s.nextId ≤ q.id ∧
        TurnOf n acquire s i (address s w (fieldBits s a.toNat false i)) (op i) (dest i) q ∧
          ∀ c ∈ destCodes (dest i), regState u c = .empty q.id) ∧
      ∀ c, (∀ i ∈ activeLanes s, c ∉ destCodes (dest i)) → regState u c = regState s c := by
  have hasks : AsksAll (fun e => TurnOf n acquire (entered f s) e.1 e.2 (op e.1) (dest e.1)) (fun e => dest e.1) (laneTargets s w a)
      (entered f s) ((laneTargets s w a).foldl step (entered f s)) := by
    rw [laneTargets_eq]
    refine foldl_asks (fun e he => ?_) (by rw [List.pairwise_map]; exact hapart)
    obtain ⟨i, hi, rfl⟩ := List.mem_map.mp he
    exact hstep i hi _ (reaches_near hreach _)
  have hwindow := (field_sansAsks hasks.rest (fun x => getW x w.toNat) fun _ => rfl).trans (getW_entered f room _)
  obtain ⟨hretired, hunwritten, hsent, hothers, -⟩ := hasks.turns room hturn hfree hrot
  refine ⟨_, rfl, ?_⟩
  rw [refreshWindow_fresh hreach hwindow]
  refine ⟨hretired, hunwritten, fun i hi => ?_, fun c hc => hothers c fun e he => ?_⟩
  · have htarget : (i, address s w (fieldBits s a.toNat false i)) ∈ laneTargets s w a := by
      rw [laneTargets_eq]
      exact List.mem_map_of_mem hi
    obtain ⟨q, hq, hid, hturn, hempty⟩ := hsent _ htarget
    exact ⟨q, hq, hid, hturn.of_entered room, hempty⟩
  · rw [laneTargets_eq] at he
    obtain ⟨i, hi, rfl⟩ := List.mem_map.mp he
    exact hc i hi

theorem vectors_apart (d r : Nat) (s : State) :
    (activeLanes s).Pairwise fun i j => ∀ c ∈ destCodes (.vector d r i), c ∉ destCodes (.vector d r j) :=
  lanes_apart d r (activeLanes_nodup s) fun _ => activeLanes_lt

theorem not_mem_dstV {d r c : Nat} {ls : List Nat} (h : c ∉ dstV d r ls) : ∀ i ∈ ls, c ∉ destCodes (.vector d r i) :=
  fun i hi hmem => h (List.mem_flatMap.mpr ⟨i, hi, hmem⟩)

/-! ### acq (R248) -/

/-- The acquire load of one lane. -/
def acqStep (o : OpAcq) (t : Ty) (sx : Bool) (s : State) (e : Nat × Word) : State :=
  sendTurn { mkReq s e.1 e.2 (t.width / 8) .load (.vector o.d.toNat t.regs e.1) (wordOf (encode (.acq o))) with
    sx := sx, acquire := true, drops := decide (2 ≤ o.scope.toNat) } (markEmpty (.vector o.d.toNat t.regs e.1) s.nextId s)

theorem acqPerform_eq {o : OpAcq} {t : Ty} {y : State} (ht : elemTy y = some t) (hfree : detNow y = false)
    (hnear : ∀ e ∈ laneTargets y o.w o.a, isControl e.2 = false) : ∃ sx : State → Bool, acqPerform o y =
      finishTurn 8 (refreshWindow o.w.toNat ((laneTargets y o.w o.a).foldl (fun s e => acqStep o t (sx s) s e) y)) := by
  refine ⟨fun s => signExtends s false 0, ?_⟩
  have hturn : setTurn y = y := by rw [setTurn, hfree]; rfl
  rw [acqPerform, ht]
  dsimp only
  rw [hturn]
  congr 2
  refine List.foldl_ext _ _ _ fun x e he => ?_
  rw [hnear e he, if_neg Bool.false_ne_true]
  rfl

theorem acq_asks {o : OpAcq} {s : State} {t : Ty} (ht : elemTy s = some t) (hd : o.d.toNat < 96) (hscope : o.scope.toNat < 7)
    (hdst : vDstOk t.wide o.d = true) (hreach : Reaches (t.width / 8) { rd := true, wr := false } s o.w (laneOffsets s o.a))
    (h : ReadyTurn 8 (vecRead (Ty.n 32) s [o.a]) (dstV o.d.toNat t.regs (activeLanes s)) s) :
    ∃ u, exec (.acq o) s = .next u ∧ Retired 8 s u ∧ Unwritten s u ∧
      (∀ i ∈ activeLanes s, Asked (t.width / 8) 0 true s u i (address s o.w (fieldBits s o.a.toNat false i)) .load
        (.vector o.d.toNat t.regs i)) ∧
      ∀ c, c ∉ dstV o.d.toNat t.regs (activeLanes s) → regState u c = regState s c := by
  have hform : wellFormed (.acq o) = true := by
    show (decide (o.d.toNat < 96) && decide (o.scope.toNat < 7)) = true
    rw [decide_eq_true hd, decide_eq_true hscope]
    rfl
  let f : Form := { memForm (wordOf (encode (.acq o))) 8 true o.ta o.w o.a s with
    irrevocable := true, turn := true
    bad := if wellFormed (.acq o) && vDstOk t.wide o.d then none else some 0x03
    dsts := dstV o.d.toNat t.regs (activeLanes s) }
  have hexec : exec (.acq o) s = .next (issue f (fun s => laneVerdict (laneAddrs s o.w o.a (t.width / 8) readNeed))
      (fun s => takeTurn (.acq o) (acqPerform o) s) s) := by
    show Host.Outcome.next (match elemTy s with | none => _ | some t => _) = _
    rw [ht]
  have hissue := h.passes (f := f) (check := fun s => laneVerdict (laneAddrs s o.w o.a (t.width / 8) readNeed))
    (effect := fun s => takeTurn (.acq o) (acqPerform o) s) rfl ⟨rfl, rfl⟩
    (by show (if _ then _ else _) = _; rw [hform, hdst]; rfl) (srcV_full h.sources List.mem_cons_self o.ta) (laneAddrs_ok hreach) nofun
    (fun _ hc => hc) rfl
  have hfree : detNow (entered f s) = false := (detNow_entered f h.room).trans h.free
  obtain ⟨sx, hperform⟩ := acqPerform_eq (o := o) ((elemTy_entered f h.room).trans ht) hfree
    (by rw [laneTargets_entered f h.room]; exact targets_near hreach)
  rw [laneTargets_entered f h.room] at hperform
  obtain ⟨u, hu, hretired, hunwritten, hsent, hothers⟩ := lanes_turn (step := fun s e => acqStep o t (sx s) s e) (op := fun _ => .load)
    (dest := fun i => .vector o.d.toNat t.regs i) (f := f) hreach h.room rfl h.free h.alone (vectors_apart _ _ s)
    fun i _ va hva y hy => turnStep_asks trivial hva hy ⟨_, _, rfl⟩
  refine ⟨u, ?_, hretired, hunwritten, fun i hi => asked_of (hsent i hi), fun c hc => hothers c (not_mem_dstV hc)⟩
  rw [hexec, hissue, takeTurn, hfree, if_neg Bool.false_ne_true, hperform, hu]

/-! ### rel (R248) -/

/-- What a release does for one lane. -/
def relStep (o : OpAcq) (t : Ty) (s : State) (e : Nat × Word) : State :=
  let d := elemBytes s t o.d.toNat e.1
  if isControl e.2 then controlWrite e.2 d s
  else if detNow s && decide (regionOf (offsetOf e.2) ≠ 3) then sendPublication (curKey s) (publishStore s e.1 e.2 d) s
  else sendTurn (mkReq s e.1 e.2 d.length (.store d) .none (wordOf (encode (.rel o)))) s

theorem relSend_eq (o : OpAcq) (t : Ty) (s : State) : relSend o t s = (laneTargets s o.w o.a).foldl (relStep o t) s := rfl

theorem relPerform_eq {o : OpAcq} {t : Ty} {y : State} (ht : elemTy y = some t) (hfree : detNow y = false)
    (hperformed : accessPending y 15 false = false) :
    relPerform o y = finishTurn 8 (refreshWindow o.w.toNat ((laneTargets y o.w o.a).foldl (relStep o t) y)) := by
  rw [relPerform, ht]
  simp only [publishingTurn, hfree, hperformed, Bool.not_false, Bool.true_and, Bool.false_eq_true, if_false]
  rw [relSend_eq]

/-- The release store of one lane of a free launch leaves. -/
theorem relStep_asks {o : OpAcq} {s x y : State} {t : Ty} {i : Nat} {va : Word} (ht : elemTy s = some t) (hva : isControl va = false)
    (hfree : detNow x = false) (hbytes : ∀ r, regBytes x o.d.toNat r i = regBytes s o.d.toNat r i) (hsame : y.sansAsks = x.sansAsks) :
    Asks (TurnOf (t.width / 8) false x i va (.store (laneBytes s o.d (t.width / 8) i)) .none) .none y (relStep o t y (i, va)) := by
  have hdet : detNow y = false := (field_sansAsks hsame detNow fun _ => rfl).trans hfree
  have hdata : elemBytes y t o.d.toNat i = laneBytes s o.d (t.width / 8) i := by
    rw [elemBytes, field_sansAsks hsame (fun x => regBytes x o.d.toNat t.regs i) fun _ => rfl, hbytes,
      regBytes_take rfl (bytes_of_elemTy ht)]
  have hlength : (laneBytes s o.d (t.width / 8) i).length = t.width / 8 := by rw [laneBytes, List.length_map, List.length_range]
  rw [relStep]
  dsimp only
  rw [hva, if_neg Bool.false_ne_true, hdet, Bool.false_and, if_neg Bool.false_ne_true, hdata, hlength]
  exact turnStep_asks (dest := .none) trivial hva hsame ⟨_, _, rfl⟩

theorem rel_sends {o : OpAcq} {s : State} {t : Ty} (ht : elemTy s = some t) (hd : o.d.toNat < 96) (hscope : o.scope.toNat < 7)
    (hdst : vDstOk t.wide o.d = true) (hreach : Reaches (t.width / 8) { rd := false, wr := true } s o.w (laneOffsets s o.a))
    (hperformed : accessPending (commitRegion s) 15 false = false)
    (h : ReadyTurn 8 (vecRead (Ty.n 32) s [o.a] ++ dstV o.d.toNat t.regs (activeLanes s)) [] s) :
    ∃ u, exec (.rel o) s = .next u ∧ Retired 8 s u ∧ Unwritten s u ∧
      ∀ i ∈ activeLanes s, Sent s u i (address s o.w (fieldBits s o.a.toNat false i)) (.store (laneBytes s o.d (t.width / 8) i)) := by
  have hform : wellFormed (.rel o) = true := by
    show (decide (o.d.toNat < 96) && decide (o.scope.toNat < 7)) = true
    rw [decide_eq_true hd, decide_eq_true hscope]
    rfl
  let f : Form := { memForm (wordOf (encode (.rel o))) 8 true o.ta o.w o.a s with
    irrevocable := true, turn := true
    bad := if wellFormed (.rel o) && vDstOk t.wide o.d then none else some 0x03
    srcs := srcV o.d.toNat t.regs false (activeLanes s) }
  let effect (x : State) : State := takePublishing (.rel o) inLineage (atomLines o.w o.a) (relPerform o) x
  have hexec : exec (.rel o) s = .next (issue f (fun s => laneVerdict (laneAddrs s o.w o.a (t.width / 8) writeNeed)) effect s) := by
    show Host.Outcome.next (match elemTy s with | none => _ | some t => _) = _
    rw [ht]
  have hissue := h.passes (f := f) (check := fun s => laneVerdict (laneAddrs s o.w o.a (t.width / 8) writeNeed)) (effect := effect)
    rfl ⟨rfl, rfl⟩ (by show (if _ then _ else _) = _; rw [hform, hdst]; rfl)
    (srcV_full (fun c hc => h.sources c (List.mem_append_left _ hc)) List.mem_cons_self o.ta) (laneAddrs_ok hreach)
    (fun e he => h.sources _ (List.mem_append_right _ (srcV_dst hd _ _ e he))) nofun rfl
  have hfree : detNow (entered f s) = false := (detNow_entered f h.room).trans h.free
  have hperform := relPerform_eq (o := o) ((elemTy_entered f h.room).trans ht) hfree (by rw [entered_irrevocable rfl]; exact hperformed)
  rw [laneTargets_entered f h.room] at hperform
  obtain ⟨u, hu, hretired, hunwritten, hsent, -⟩ := lanes_turn (step := relStep o t) (acquire := false)
    (op := fun i => .store (laneBytes s o.d (t.width / 8) i)) (dest := fun _ => .none) (f := f) hreach h.room rfl h.free h.alone
    (List.pairwise_of_forall fun _ _ _ hc => nomatch hc)
    fun i _ va hva y hy => relStep_asks ht hva hfree (fun r => regBytes_entered f h.room _ r i) hy
  refine ⟨u, ?_, hretired, hunwritten, fun i hi => ?_⟩
  · rw [hexec, hissue]
    show Host.Outcome.next (takePublishing (.rel o) inLineage (atomLines o.w o.a) (relPerform o) (entered f s)) = _
    rw [takePublishing, hfree, Bool.false_and, if_neg Bool.false_ne_true, takeTurn, hfree, if_neg Bool.false_ne_true, hperform, hu]
  · obtain ⟨q, hq, hid, hturn, -⟩ := hsent i hi
    exact sent_of ⟨q, hq, hid, hturn⟩

/-- Settles O30: both are turns of a free launch that ask the homes lane by lane. -/
theorem acquireAndReleaseAskTheirHome : Obligations.AcquireAndReleaseAskTheirHome :=
  fun _ _ _ ht hd hscope hdst => ⟨fun hreach h => acq_asks ht hd hscope hdst hreach h,
    fun hreach hperformed h => rel_sends ht hd hscope hdst hreach hperformed h⟩

/-! ### Atomics (R245 to R247) -/

theorem atomSend_eq (word : BitVec 32) (w : BitVec 3) (a : BitVec 7) (d : Nat) (op : AtomOp) (y : State) :
    atomSend word w a d op y = (laneTargets y w a).foldl (fun s e =>
      sendTurn (mkReq s e.1 e.2 op.size (op.op y e.1) (.vector d op.regs e.1) word) (markEmpty (.vector d op.regs e.1) s.nextId s)) y := by
  rw [atomSend, List.foldl_map]

/-- An atomic of a free launch asks its homes lane by lane. -/
theorem atomIssue_asks {i : Instr} {ta : Bool} {d : BitVec 7} {w : BitVec 3} {a : BitVec 7} {s : State} {aop : AtomOp} {op : Nat → AccessOp}
    (hatom : atomOf s i = some aop) (hsame : ∀ f, atomOf (entered f s) i = atomOf s i)
    (hd : d.toNat < 96) (hop : ∀ f, ∀ l ∈ activeLanes s, aop.op (entered f s) l = op l)
    (hreach : Reaches aop.size { rd := true, wr := true } s w (laneOffsets s a))
    (h : ReadyTurn 8 (vecRead (Ty.n 32) s [a] ++ dstV d.toNat aop.uses (activeLanes s)) (dstV d.toNat aop.regs (activeLanes s)) s) :
    Retired 8 s (atomIssue i ta d w a s) ∧ Unwritten s (atomIssue i ta d w a s) ∧
      (∀ l ∈ activeLanes s, Asked aop.size 0 false s (atomIssue i ta d w a s) l (address s w (fieldBits s a.toNat false l)) (op l)
        (.vector d.toNat aop.regs l)) ∧
      ∀ c, c ∉ dstV d.toNat aop.regs (activeLanes s) → regState (atomIssue i ta d w a s) c = regState s c := by
  let f : Form := { memForm (wordOf (encode i)) 8 true ta w a s with
    irrevocable := true, turn := true
    srcs := srcV d.toNat aop.uses false (activeLanes s), dsts := dstV d.toNat aop.regs (activeLanes s) }
  let effect (x : State) : State := takePublishing i inLineage (atomLines w a) (atomPerform i w a d.toNat) x
  have hexec : atomIssue i ta d w a s = issue f (fun s => laneVerdict (laneAddrs s w a aop.size bothNeed)) effect s := by
    rw [atomIssue, hatom]
  have hissue := h.passes (f := f) (check := fun s => laneVerdict (laneAddrs s w a aop.size bothNeed)) (effect := effect) rfl ⟨rfl, rfl⟩ rfl
    (srcV_full (fun c hc => h.sources c (List.mem_append_left _ hc)) List.mem_cons_self ta) (laneAddrs_ok hreach)
    (fun e he => h.sources _ (List.mem_append_right _ (srcV_dst hd _ _ e he))) (fun _ hc => hc) rfl
  have hfree : detNow (entered f s) = false := (detNow_entered f h.room).trans h.free
  have hperform : effect (entered f s) =
      finishTurn 8 (refreshWindow w.toNat (atomSend (wordOf (encode i)) w a d.toNat aop (entered f s))) := by
    show takePublishing i inLineage (atomLines w a) (atomPerform i w a d.toNat) (entered f s) = _
    rw [takePublishing, hfree, Bool.false_and, if_neg Bool.false_ne_true, takeTurn, hfree, if_neg Bool.false_ne_true, atomPerform, hsame f,
      hatom]
    show publishingTurn _ _ _ _ = _
    rw [publishingTurn, hfree, if_neg Bool.false_ne_true]
  rw [atomSend_eq, laneTargets_entered f h.room] at hperform
  obtain ⟨u, hu, hretired, hunwritten, hsent, hothers⟩ := lanes_turn (acquire := false) (op := op) (n := aop.size)
    (step := fun y e => sendTurn (mkReq y e.1 e.2 aop.size (aop.op (entered f s) e.1) (.vector d.toNat aop.regs e.1) (wordOf (encode i)))
      (markEmpty (.vector d.toNat aop.regs e.1) y.nextId y))
    (dest := fun l => .vector d.toNat aop.regs l) (f := f) hreach h.room rfl h.free h.alone (vectors_apart _ _ s)
    fun l hl va hva y hy => turnStep_asks trivial hva hy ⟨_, _, by rw [hop f l hl]; rfl⟩
  have hdone : atomIssue i ta d w a s = u := by rw [hexec, hissue, hperform, hu]
  rw [hdone]
  exact ⟨hretired, hunwritten, fun l hl => asked_of (hsent l hl), fun c hc => hothers c (not_mem_dstV hc)⟩

theorem atomicTy_of {n : Nat} {t : Ty} (h : atomicAllows n t) (hn : n < 7 ∨ n = 8) : atomicTy n t = true := by
  rcases h with ht | ⟨ht, hlogic⟩
  · simp only [List.mem_cons, List.not_mem_nil, or_false] at ht
    rcases ht with rfl | rfl | rfl | rfl <;> rfl
  · simp only [List.mem_cons, List.not_mem_nil, or_false, not_or] at ht hlogic
    have hcode : n < 3 ∨ n = 6 ∨ n = 8 := by omega
    rcases ht with rfl | rfl | rfl | rfl <;> exact decide_eq_true hcode

theorem modes_entered (f : Form) {s : State} (room : NoSpill s) :
    modeT (entered f s) = modeT s ∧ modeRm (entered f s) = modeRm s ∧ modeFz (entered f s) = modeFz s :=
  ⟨by rw [modeT, modeT, mode_entered f room], modeRm_entered f room, modeFz_entered f room⟩

theorem elemBytes_entered (f : Form) {s : State} (room : NoSpill s) {t : Ty} (ht : elemTy s = some t) {d : BitVec 7} {e : Nat}
    (he : d.toNat = e) (l : Nat) : elemBytes (entered f s) t e l = laneBytes s d (t.width / 8) l := by
  rw [elemBytes, regBytes_entered f room, regBytes_take he (bytes_of_elemTy ht)]

theorem atom_asks {o : OpAtom} {s : State} {t : Ty} (ht : elemTy s = some t) (hform : wellFormed (.atom o) = true)
    (hallows : atomicAllows o.n.toNat t) (hdst : vDstOk t.wide o.d = true)
    (hreach : Reaches (t.width / 8) { rd := true, wr := true } s o.w (laneOffsets s o.a))
    (h : ReadyTurn 8 (vecRead (Ty.n 32) s [o.a] ++ dstV o.d.toNat t.regs (activeLanes s)) (dstV o.d.toNat t.regs (activeLanes s)) s) :
    ∃ u, exec (.atom o) s = .next u ∧ Retired 8 s u ∧ Unwritten s u ∧
      (∀ l ∈ activeLanes s, Asked (t.width / 8) 0 false s u l (address s o.w (fieldBits s o.a.toNat false l))
        (.rmw o.n.toNat (modeT s) (modeRm s) (modeFz s) (laneBytes s o.d (t.width / 8) l) []) (.vector o.d.toNat t.regs l)) ∧
      ∀ c, c ∉ dstV o.d.toNat t.regs (activeLanes s) → regState u c = regState s c := by
  have hfields : (isV o.d && decide (o.n.toNat < 7)) = true := hform
  obtain ⟨hd, hn⟩ := Bool.and_eq_true_iff.mp hfields
  have hatom : ∀ x, elemTy x = some t → atomOf x (.atom o) = some (typedAtom t o.d.toNat o.n.toNat) := fun x hx => by
    show ((elemTy x).bind fun t => _) = _
    rw [hx, Option.bind_some, hform, atomicTy_of hallows (.inl (of_decide_eq_true hn)), hdst]
    rfl
  refine ⟨_, rfl, atomIssue_asks (hatom s ht) (fun f => ?_) (of_decide_eq_true hd) (fun f l _ => ?_) hreach h⟩
  · rw [hatom s ht, hatom _ ((elemTy_entered f h.room).trans ht)]
  · obtain ⟨hmodeT, hmodeRm, hmodeFz⟩ := modes_entered f h.room
    show AccessOp.rmw _ _ _ _ _ _ = _
    rw [hmodeT, hmodeRm, hmodeFz, elemBytes_entered f h.room ht rfl]

/-- The second operand group of a compare-and-swap lies above the first. -/
theorem second_group {d : BitVec 7} {r : Nat} (h : d.toNat + 2 * r ≤ 96) : (d + BitVec.ofNat 7 r).toNat = d.toNat + r := by
  rw [BitVec.toNat_add, BitVec.toNat_ofNat, Nat.add_mod_mod, Nat.mod_eq_of_lt (by omega)]

theorem atomCas_asks {o : OpMw} {s : State} {t : Ty} (ht : elemTy s = some t) (hallows : atomicAllows 8 t)
    (hgroup : o.d.toNat + 2 * t.regs ≤ 96) (hdst : vDstOk t.wide o.d = true)
    (hreach : Reaches (t.width / 8) { rd := true, wr := true } s o.w (laneOffsets s o.a))
    (h : ReadyTurn 8 (vecRead (Ty.n 32) s [o.a] ++ dstV o.d.toNat (2 * t.regs) (activeLanes s)) (dstV o.d.toNat t.regs (activeLanes s)) s) :
    ∃ u, exec (.atomCas o) s = .next u ∧ Retired 8 s u ∧ Unwritten s u ∧
      (∀ l ∈ activeLanes s, Asked (t.width / 8) 0 false s u l (address s o.w (fieldBits s o.a.toNat false l))
        (swapOf s o.d (t.width / 8) t.regs l false) (.vector o.d.toNat t.regs l)) ∧
      ∀ c, c ∉ dstV o.d.toNat t.regs (activeLanes s) → regState u c = regState s c := by
  have hatom : ∀ x, elemTy x = some t → atomOf x (.atomCas o) = some (typedCas t o.d.toNat) := fun x hx => by
    show ((elemTy x).bind fun t => _) = _
    rw [hx, Option.bind_some, atomicTy_of hallows (.inr rfl), groupFits, hdst, decide_eq_true hgroup]
    rfl
  have hd : o.d.toNat < 96 := by
    have := regs_pos t
    omega
  refine ⟨_, rfl, atomIssue_asks (hatom s ht) (fun f => ?_) hd (fun f l _ => ?_) hreach h⟩
  · rw [hatom s ht, hatom _ ((elemTy_entered f h.room).trans ht)]
  · obtain ⟨hmodeT, hmodeRm, hmodeFz⟩ := modes_entered f h.room
    show AccessOp.rmw 8 _ _ _ _ _ = _
    rw [hmodeT, hmodeRm, hmodeFz, elemBytes_entered f h.room ht rfl, elemBytes_entered f h.room ht (second_group hgroup)]
    rfl

theorem atomCas16_asks {o : OpMw} {s : State} (haligned : o.d.toNat % 4 = 0) (hd : o.d.toNat ≤ 88)
    (hreach : Reaches 16 { rd := true, wr := true } s o.w (laneOffsets s o.a))
    (h : ReadyTurn 8 (vecRead (Ty.n 32) s [o.a] ++ dstV o.d.toNat 8 (activeLanes s)) (dstV o.d.toNat 4 (activeLanes s)) s) :
    ∃ u, exec (.atomCas16 o) s = .next u ∧ Retired 8 s u ∧ Unwritten s u ∧
      (∀ l ∈ activeLanes s, Asked 16 0 false s u l (address s o.w (fieldBits s o.a.toNat false l)) (swapOf s o.d 16 4 l true)
        (.vector o.d.toNat 4 l)) ∧
      ∀ c, c ∉ dstV o.d.toNat 4 (activeLanes s) → regState u c = regState s c := by
  have hform : wellFormed (.atomCas16 o) = true := by
    show (decide (o.d.toNat % 4 = 0) && decide (o.d.toNat ≤ 88)) = true
    rw [decide_eq_true haligned, decide_eq_true hd]
    rfl
  have hatom : ∀ x, atomOf x (.atomCas16 o) = some (wideCas o.d.toNat) := fun x => if_pos hform
  have hbytes (x : State) {d : BitVec 7} {e : Nat} (he : d.toNat = e) (l : Nat) : regBytes x e 4 l = laneBytes x d 16 l := by
    rw [← regBytes_take he (r := 4) (by decide), List.take_of_length_le (by rw [regBytes_eq, List.length_map, List.length_range])]
  refine ⟨_, rfl, atomIssue_asks (hatom s) (fun f => ?_) (by omega) (fun f l _ => ?_) hreach h⟩
  · rw [hatom, hatom]
  · obtain ⟨hmodeT, hmodeRm, hmodeFz⟩ := modes_entered f h.room
    show AccessOp.rmw 10 _ _ _ (regBytes (entered f s) (o.d.toNat + 4) 4 l) (regBytes (entered f s) o.d.toNat 4 l) = _
    rw [hmodeT, hmodeRm, hmodeFz, regBytes_entered f h.room, regBytes_entered f h.room, hbytes s rfl, hbytes s (second_group (r := 4) (by omega))]
    rfl

theorem xor_top {e : Nat} (h : e < 2 ^ 16) : e ^^^ 2 ^ 15 = (e + 2 ^ 15) % 2 ^ 16 := by
  have hlow {r : Nat} (hr : r < 2 ^ 15) : r ^^^ 2 ^ 15 = r + 2 ^ 15 := by
    have hor : 2 ^ 15 * 1 + r = 2 ^ 15 * 1 ||| r := Nat.two_pow_add_eq_or_of_lt hr 1
    rw [Nat.add_comm, ← Nat.mul_one (2 ^ 15), hor, Nat.mul_one]
    refine Nat.eq_of_testBit_eq fun i => ?_
    rw [Nat.testBit_xor, Nat.testBit_or, Nat.testBit_two_pow]
    by_cases hi : 15 = i
    · subst hi
      simp [Nat.testBit_lt_two_pow hr]
    · simp [hi]
  by_cases he : e < 2 ^ 15
  · rw [hlow he, Nat.mod_eq_of_lt (by omega)]
  · obtain ⟨r, rfl⟩ := Nat.exists_eq_add_of_le' (Nat.not_lt.mp he)
    have hr : r < 2 ^ 15 := by omega
    rw [← hlow hr, Nat.xor_assoc, Nat.xor_self, Nat.xor_zero, hlow hr]
    omega

theorem lt_of_testBit_false {k x : Nat} (h : x < 2 ^ (k + 1)) (hb : x.testBit k = false) : x < 2 ^ k := by
  rw [Nat.testBit_eq_decide_div_mod_eq, decide_eq_false_iff_not] at hb
  rw [Nat.pow_succ] at h
  by_contra hle
  have hdiv : x / 2 ^ k = 1 := Nat.div_eq_of_lt_le (by omega) (by omega)
  exact hb (by rw [hdiv])

theorem quietField_lt {k f : Nat} (hf : f < 2 ^ (k + 1)) : (if f.testBit k then f else f + 2 ^ k) < 2 ^ (k + 1) := by
  split
  · exact hf
  · next hb =>
    have hlow := lt_of_testBit_false hf (Bool.eq_false_iff.mpr hb)
    rw [Nat.pow_succ]
    omega

theorem signBit_le (t : Ty) (g : Bool) : signBit t g ≤ 2 ^ (t.width - 1) := by
  cases g
  · exact (Nat.zero_mul _).trans_le (Nat.zero_le _)
  · exact (Nat.one_mul _).le

/-- The order key and the quiet form of a 16-bit float have 16 bits. -/
theorem halfFloat_lt {t : Ty} (ht : t = Ty.f16 ∨ t = Ty.bf16) {e : Nat} (he : e < 2 ^ 16) : ordKey t e < 2 ^ 16 ∧ quiet t e < 2 ^ 16 := by
  have hwidth : t.width = 16 := by rcases ht with rfl | rfl <;> rfl
  have hnan : ∀ g p, encodeNan t g p < 2 ^ 16 := by
    intro g p
    have hsign := signBit_le t g
    rcases ht with rfl | rfl
    · have hfield := quietField_lt (k := 9) (Nat.mod_lt (p / 2 ^ (52 - 10)) (Nat.two_pow_pos 10))
      show signBit Ty.f16 g + 31744 + (if (p / 2 ^ (52 - 10) % 2 ^ (9 + 1)).testBit 9 then p / 2 ^ (52 - 10) % 2 ^ (9 + 1)
        else p / 2 ^ (52 - 10) % 2 ^ (9 + 1) + 2 ^ 9) < 2 ^ 16
      change signBit Ty.f16 g ≤ 2 ^ 15 at hsign
      omega
    · have hfield := quietField_lt (k := 6) (Nat.mod_lt (p / 2 ^ (52 - 7)) (Nat.two_pow_pos 7))
      show signBit Ty.bf16 g + 32640 + (if (p / 2 ^ (52 - 7) % 2 ^ (6 + 1)).testBit 6 then p / 2 ^ (52 - 7) % 2 ^ (6 + 1)
        else p / 2 ^ (52 - 7) % 2 ^ (6 + 1) + 2 ^ 6) < 2 ^ 16
      change signBit Ty.bf16 g ≤ 2 ^ 15 at hsign
      omega
  constructor
  · rw [ordKey, hwidth, Nat.mod_eq_of_lt he]
    split
    · decide
    · split
      · omega
      · next hb =>
        have hlow := lt_of_testBit_false (k := 15) he (Bool.eq_false_iff.mpr hb)
        omega
  · rw [quiet]
    split
    · exact hnan _ _
    · rw [hwidth]
      exact Nat.mod_lt _ (Nat.two_pow_pos 16)

/-- The word of a 16-bit element and an index. -/
theorem maxiWord_eq {t : Ty} (ht : t ∈ [Ty.f16, Ty.bf16, Ty.i 16, Ty.n 16]) {e x : Nat} (he : e < 2 ^ 16) (hx : x < 2 ^ 32) :
    maxiWord t e x = packedMax t e x := by
  simp only [List.mem_cons, List.not_mem_nil, or_false] at ht
  have hfloat : t = Ty.f16 ∨ t = Ty.bf16 → maxiWord t e x = packedMax t e x := fun hf => by
    have hisFloat : t.isFloat = true := by rcases hf with rfl | rfl <;> rfl
    obtain ⟨hkey, hquiet⟩ := halfFloat_lt hf he
    rw [maxiWord, packedMax, hisFloat]
    simp only [if_true]
    rw [Nat.mod_eq_of_lt hkey, Nat.mod_eq_of_lt hquiet, Nat.mod_eq_of_lt hx]
    rfl
  rcases ht with hf | hf | rfl | rfl
  · exact hfloat (.inl hf)
  · exact hfloat (.inr hf)
  · show Nat.xor e 0x8000 % 2 ^ 16 * 2 ^ 48 + (2 ^ 32 - 1 - x % 2 ^ 32) * 2 ^ 16 + e % 2 ^ 16 =
      (e + 0x8000) % 2 ^ 16 * 2 ^ 48 + (0xFFFFFFFF - x) * 2 ^ 16 + e
    have hxor : Nat.xor e 0x8000 = (e + 2 ^ 15) % 2 ^ 16 := xor_top he
    rw [hxor, Nat.mod_mod, Nat.mod_eq_of_lt hx, Nat.mod_eq_of_lt he]
    rfl
  · show e % 2 ^ 16 * 2 ^ 48 + (2 ^ 32 - 1 - x % 2 ^ 32) * 2 ^ 16 + e % 2 ^ 16 = e * 2 ^ 48 + (0xFFFFFFFF - x) * 2 ^ 16 + e
    rw [Nat.mod_eq_of_lt hx, Nat.mod_eq_of_lt he]
    rfl

theorem maxiBytes_eq {s : State} {t : Ty} (ht : t ∈ [Ty.f16, Ty.bf16, Ty.i 16, Ty.n 16, Ty.n 64]) (d : BitVec 7) (l : Nat) :
    maxiBytes s t d.toNat l = if t = Ty.n 64 then laneBytes s d 8 l
      else leBytes 8 (packedMax t ((getV s d.toNat l).toNat % 2 ^ 16) (getV s (d.toNat + 1) l).toNat) := by
  have hhalf : t ∈ [Ty.f16, Ty.bf16, Ty.i 16, Ty.n 16] → maxiBytes s t d.toNat l = if t = Ty.n 64 then laneBytes s d 8 l
      else leBytes 8 (packedMax t ((getV s d.toNat l).toNat % 2 ^ 16) (getV s (d.toNat + 1) l).toNat) := fun hm => by
    have hwidth : t.width ≠ 64 := by
      simp only [List.mem_cons, List.not_mem_nil, or_false] at hm
      rcases hm with rfl | rfl | rfl | rfl <;> decide
    have hne : t ≠ Ty.n 64 := fun h => hwidth (h ▸ rfl)
    rw [maxiBytes, if_neg hwidth, if_neg hne, maxiWord_eq hm (Nat.mod_lt _ (Nat.two_pow_pos 16)) (getV s (d.toNat + 1) l).isLt]
  rw [show [Ty.f16, Ty.bf16, Ty.i 16, Ty.n 16, Ty.n 64] = [Ty.f16, Ty.bf16, Ty.i 16, Ty.n 16] ++ [Ty.n 64] from rfl, List.mem_append] at ht
  rcases ht with hm | hm
  · exact hhalf hm
  · obtain rfl := List.mem_singleton.mp hm
    have hwidth : (Ty.n 64).width = 64 := rfl
    rw [if_pos rfl, maxiBytes, if_pos hwidth, ← regBytes_take (r := 2) rfl (by decide),
      List.take_of_length_le (by rw [regBytes_eq, List.length_map, List.length_range])]

theorem maxiBytes_entered (f : Form) {s : State} (room : NoSpill s) (t : Ty) (d l : Nat) :
    maxiBytes (entered f s) t d l = maxiBytes s t d l := by
  rw [maxiBytes, maxiBytes, regBytes_entered f room, getV_entered f room, getV_entered f room]

theorem atomMaxi_asks {o : OpMw} {s : State} {t : Ty} (ht : elemTy s = some t) (hty : t ∈ [Ty.f16, Ty.bf16, Ty.i 16, Ty.n 16, Ty.n 64])
    (hd : o.d.toNat < 96) (heven : o.d.toNat % 2 = 0) (hreach : Reaches 8 { rd := true, wr := true } s o.w (laneOffsets s o.a))
    (h : ReadyTurn 8 (vecRead (Ty.n 32) s [o.a] ++ dstV o.d.toNat 2 (activeLanes s)) (dstV o.d.toNat 2 (activeLanes s)) s) :
    ∃ u, exec (.atomMaxi o) s = .next u ∧ Retired 8 s u ∧ Unwritten s u ∧
      (∀ l ∈ activeLanes s, Asked 8 0 false s u l (address s o.w (fieldBits s o.a.toNat false l))
        (.rmw 9 (modeT s) (modeRm s) (modeFz s) (if t = Ty.n 64 then laneBytes s o.d 8 l
          else leBytes 8 (packedMax t ((getV s o.d.toNat l).toNat % 2 ^ 16) (getV s (o.d.toNat + 1) l).toNat)) []) (.vector o.d.toNat 2 l)) ∧
      ∀ c, c ∉ dstV o.d.toNat 2 (activeLanes s) → regState u c = regState s c := by
  have hform : wellFormed (.atomMaxi o) = true := by
    show (decide (o.d.toNat < 96) && decide (o.d.toNat % 2 = 0)) = true
    rw [decide_eq_true hd, decide_eq_true heven]
    rfl
  have hkind : maxiTy t = true := by
    simp only [List.mem_cons, List.not_mem_nil, or_false] at hty
    rcases hty with rfl | rfl | rfl | rfl | rfl <;> rfl
  have hatom : ∀ x, elemTy x = some t → atomOf x (.atomMaxi o) = some (maxiAtom t o.d.toNat) := fun x hx => by
    show ((elemTy x).bind fun t => _) = _
    rw [hx, Option.bind_some, hform, hkind]
    rfl
  refine ⟨_, rfl, atomIssue_asks (hatom s ht) (fun f => ?_) hd (fun f l _ => ?_) hreach h⟩
  · rw [hatom s ht, hatom _ ((elemTy_entered f h.room).trans ht)]
  · obtain ⟨hmodeT, hmodeRm, hmodeFz⟩ := modes_entered f h.room
    show AccessOp.rmw 9 _ _ _ (maxiBytes (entered f s) t o.d.toNat l) _ = _
    rw [hmodeT, hmodeRm, hmodeFz, maxiBytes_entered f h.room, maxiBytes_eq hty]

/-- Settles O28: the four atomics are issued as one turn, whose operations differ. -/
theorem atomicsAskTheirHome : Obligations.AtomicsAskTheirHome :=
  fun _ => ⟨fun _ _ ht hform hallows hdst hreach h => atom_asks ht hform hallows hdst hreach h,
    fun _ _ ht hallows hgroup hdst hreach h => atomCas_asks ht hallows hgroup hdst hreach h,
    fun _ haligned hd hreach h => atomCas16_asks haligned hd hreach h,
    fun _ _ ht hty hd heven hreach h => atomMaxi_asks ht hty hd heven hreach h⟩

end Sys2Proof.Machine
end

section
/-! PROOF. Atomics and reductions at peers (spec/06_coherence_fabric.md R142 to R144; spec/11_isa_memory_sync.md R255): the lanes of the
lowest node are asked first, and with no node left the instruction retires. -/

namespace Sys2Proof.Machine

open Sys2Proof.Rules

/-! ### Nodes in ascending order (R143) -/

theorem mem_ins_iff {a b : Nat} {l : List Nat} : b ∈ sortNub.ins a l ↔ b = a ∨ b ∈ l := by
  induction l with
  | nil => simp [sortNub.ins]
  | cons c r ih =>
    rw [sortNub.ins]
    split
    · simp
    · split
      · next h => subst h; simp
      · rw [List.mem_cons, ih, List.mem_cons]
        tauto

theorem mem_sortNub_iff {b : Nat} {l : List Nat} : b ∈ sortNub l ↔ b ∈ l := by
  induction l with
  | nil => rfl
  | cons a r ih => rw [sortNub, mem_ins_iff, ih, List.mem_cons]

theorem ins_ascends {a : Nat} {l : List Nat} (h : l.Pairwise (· < ·)) : (sortNub.ins a l).Pairwise (· < ·) := by
  induction l with
  | nil => exact List.pairwise_singleton _ _
  | cons c r ih =>
    obtain ⟨hc, hr⟩ := List.pairwise_cons.mp h
    rw [sortNub.ins]
    split
    · next hlt => exact List.pairwise_cons.mpr ⟨List.forall_mem_cons.mpr ⟨hlt, fun b hb => hlt.trans (hc b hb)⟩, h⟩
    · split
      · exact h
      · next hge hne =>
        refine List.pairwise_cons.mpr ⟨fun b hb => ?_, ih hr⟩
        rcases mem_ins_iff.mp hb with rfl | hb
        · omega
        · exact hc b hb

theorem sortNub_ascends (l : List Nat) : (sortNub l).Pairwise (· < ·) := by
  induction l with
  | nil => exact .nil
  | cons a r ih => exact ins_ascends ih

theorem length_ins_le (a : Nat) (l : List Nat) : (sortNub.ins a l).length ≤ l.length + 1 := by
  induction l with
  | nil => exact Nat.le_refl _
  | cons c r ih =>
    rw [sortNub.ins]
    split
    · exact Nat.le_refl _
    · split
      · exact Nat.le_succ _
      · exact Nat.succ_le_succ ih

theorem length_sortNub_le (l : List Nat) : (sortNub l).length ≤ l.length := by
  induction l with
  | nil => exact Nat.le_refl _
  | cons a r ih => exact (length_ins_le a _).trans (Nat.succ_le_succ ih)

/-- The first node of a list that is not empty is the lowest. -/
theorem sortNub_least {l : List Nat} (h : l ≠ []) : ∃ a r, sortNub l = a :: r ∧ a ∈ l ∧ ∀ b ∈ l, a ≤ b := by
  cases hsorted : sortNub l with
  | nil =>
    obtain ⟨b, hb⟩ := List.exists_mem_of_ne_nil l h
    exact absurd (mem_sortNub_iff.mpr hb) (by rw [hsorted]; exact List.not_mem_nil)
  | cons a r =>
    have hascends := sortNub_ascends l
    rw [hsorted, List.pairwise_cons] at hascends
    refine ⟨a, r, rfl, mem_sortNub_iff.mp (by rw [hsorted]; exact List.mem_cons_self), fun b hb => ?_⟩
    have hmem := mem_sortNub_iff.mpr hb
    rw [hsorted] at hmem
    rcases List.mem_cons.mp hmem with rfl | hr
    · exact Nat.le_refl _
    · exact (hascends.1 b hr).le

/-! ### The checks of R143 -/

theorem findFirst_none {α : Type} {q : α → Bool} {l : List α} (h : ∀ a ∈ l, q a = false) : findFirst q l = none := by
  induction l with
  | nil => rfl
  | cons a r ih =>
    rw [findFirst, h a List.mem_cons_self, if_neg Bool.false_ne_true]
    exact ih fun b hb => h b (List.mem_cons_of_mem a hb)

theorem mem_nodesOf {l : List Far} {m : Nat} : m ∈ nodesOf l ↔ ∃ e ∈ l, e.node = m := by rw [nodesOf, mem_sortNub_iff, List.mem_map]

theorem farVerdict_ok {s : State} {writes : Bool} {cls : BitVec 2} {n : Nat} {peer : BitVec 5} {a : BitVec 7}
    (h : FarReady s writes cls n peer a) : farVerdict s writes cls n (farLanes s peer a) = .ok := by
  have hlane {q : Far → Bool} (hq : ∀ i ∈ activeLanes s, q { lane := i, node := laneNode s peer i, va := farVA s peer a i } = false) :
      ∀ e ∈ farLanes s peer a, q e = false := fun e he => by
    obtain ⟨i, hi, rfl⟩ := List.mem_map.mp he
    exact hq i hi
  have haligned : findFirst (fun e => decide (e.va.toNat % n ≠ 0)) (farLanes s peer a) = none :=
    findFirst_none (hlane fun i hi => decide_eq_false (not_not.mpr (h.aligned i hi)))
  have hcarried : findFirst (fun e => decide (e.node = ownNode s) && apertureShut s (offsetOf e.va)) (farLanes s peer a) = none := by
    refine findFirst_none (hlane fun i hi => ?_)
    by_cases hnode : laneNode s peer i = ownNode s
    · by_cases hregion : regionOf (offsetOf (farVA s peer a i)) = 3
      · obtain ⟨p, hp, hflit⟩ := h.carried i hi hnode hregion
        simp [apertureShut, hp, hflit]
      · simp [apertureShut, hregion]
    · simp [hnode]
  have haway : ∀ m ∈ (nodesOf (farLanes s peer a)).filter fun m => m != ownNode s, ∃ i ∈ activeLanes s, laneNode s peer i = m ∧ m ≠ ownNode s := by
    intro m hm
    obtain ⟨hmem, hne⟩ := List.mem_filter.mp hm
    obtain ⟨e, he, hnode⟩ := mem_nodesOf.mp hmem
    obtain ⟨i, hi, rfl⟩ := List.mem_map.mp he
    exact ⟨i, hi, hnode, by simpa using hne⟩
  have hnear : ¬ (cls = 0 ∧ (nodesOf (farLanes s peer a)).filter (fun m => m != ownNode s) ≠ []) := by
    rintro ⟨hcls, hne⟩
    obtain ⟨m, hm⟩ := List.exists_mem_of_ne_nil _ hne
    obtain ⟨i, hi, hnode, hown⟩ := haway m hm
    exact hown (hnode ▸ h.near hcls i hi)
  have hreachable : findFirst (unreachable s) ((nodesOf (farLanes s peer a)).filter fun m => m != ownNode s) = none := by
    refine findFirst_none fun m hm => ?_
    obtain ⟨i, hi, hnode, hown⟩ := haway m hm
    exact hnode ▸ h.reachable i hi fun hsame => hown (hnode.symm.trans hsame)
  have hroom : remoteRoom s s.g.core ((nodesOf (farLanes s peer a)).filter fun m => m != ownNode s).length = true := by
    have hcount : ((nodesOf (farLanes s peer a)).filter fun m => m != ownNode s).length ≤ (activeLanes s).length :=
      ((List.length_filter_le _ _).trans (length_sortNub_le _)).trans (by rw [List.length_map, farLanes, List.length_map])
    exact decide_eq_true ((Nat.add_le_add_left hcount _).trans h.room)
  rw [farVerdict, haligned]
  dsimp only
  rw [hcarried]
  dsimp only
  rw [if_neg hnear, hreachable]
  dsimp only
  rw [h.settled, hroom]
  rfl

/-! ### A replay leaves line by line (R132, R144) -/

/-- The device without what accesses and requests change as they leave. -/
def State.sansFar (s : State) : State := { s.sansAsks with remotes := [], outbox := [] }

theorem depart_sansFar (q : RemoteReq) : Keeps State.sansFar (depart q) := by
  intro s
  unfold depart
  dsimp only
  split
  · rfl
  · obtain ⟨Q, hcount, hparts⟩ := countEvent_parts q.launch 0x031 (sentBytes q) { s with outbox := s.outbox ++ [remoteMsg s q] }
    rw [hcount]
    exact congrArg (fun P => { s.sansFar with parts := P }) hparts

/-- A request has joined those on their way to peers. -/
theorem sendRemote_joins (q : RemoteReq) (s : State) : (sendRemote q s).sansFar = s.sansFar ∧ (sendRemote q s).nextId = s.nextId + 1 ∧
    ∃ r, (sendRemote q s).remotes = s.remotes ++ [r] ∧ r.id = s.nextId ∧ r.node = q.node ∧ r.cls = q.cls ∧ r.rest = q.rest := by
  have hdepart (r : RemoteReq) (y : State) : (depart r y).nextId = y.nextId ∧ (depart r y).remotes = y.remotes := by
    unfold depart
    dsimp only
    split <;> exact ⟨rfl, rfl⟩
  unfold sendRemote
  dsimp only
  split
  · exact ⟨rfl, rfl, _, rfl, rfl, rfl, rfl, rfl⟩
  · refine ⟨depart_sansFar _ _, (hdepart _ _).1, _, (hdepart _ _).2, rfl, rfl, rfl, rfl⟩

theorem markDests_joins {r : RemoteReq} (h : ∀ e ∈ r.dest, named e.2) (s : State) : (markDests r s).sansFar = s.sansFar ∧
    (markDests r s).nextId = s.nextId ∧ (markDests r s).remotes = s.remotes := by
  rw [markDests]
  generalize r.dest = l at h
  induction l generalizing s with
  | nil => exact ⟨rfl, rfl, rfl⟩
  | cons e l ih =>
    obtain ⟨hd, hl⟩ := List.forall_mem_cons.mp h
    obtain ⟨hrest, -, hnext, -⟩ := markEmpty_states hd r.id s
    obtain ⟨lrest, lnext, lremotes⟩ := ih (markEmpty e.2 r.id s) hl
    exact ⟨lrest.trans (congrArg (fun x : State => { x with remotes := [], outbox := [] }) hrest), lnext.trans hnext,
      lremotes.trans (field_sansAsks hrest State.remotes fun _ => rfl)⟩

/-- Requests to peers join those on their way, and the numbers given rise. -/
structure Joins (s t : State) : Prop where
  rest : t.sansFar = s.sansFar
  number : s.nextId ≤ t.nextId
  remotes : ∀ r ∈ s.remotes, r ∈ t.remotes

theorem Joins.trans {s t u : State} (h : Joins s t) (k : Joins t u) : Joins s u :=
  ⟨k.rest.trans h.rest, h.number.trans k.number, fun r hr => k.remotes r (h.remotes r hr)⟩

/-- A request of a line of the replay is on its way. -/
def LineSent (q : RemoteReq) (id line : Nat) (t : State) : Prop :=
  ∃ r ∈ t.remotes, id ≤ r.id ∧ r.node = q.node ∧ r.cls = q.cls ∧ r.rest = (lineRequest q line).rest

theorem sendReplay_joins {q : RemoteReq} (h : ∀ e ∈ q.dest, named e.2) (s : State) : Joins s (sendReplay markDests q s) ∧
    ∀ e ∈ q.ops, LineSent q s.nextId (lineOf e.2.1) (sendReplay markDests q s) := by
  have hlines : ∀ (L : List Nat) (g : Nat) (y : State), Joins y (L.foldl (fun s line =>
      let r := { lineRequest q line with group := g, id := s.nextId }
      sendRemote r (markDests r s)) y) ∧ ∀ line ∈ L, LineSent q y.nextId line (L.foldl (fun s line =>
      let r := { lineRequest q line with group := g, id := s.nextId }
      sendRemote r (markDests r s)) y) := by
    intro L g
    induction L with
    | nil => exact fun y => ⟨⟨rfl, Nat.le_refl _, fun _ hr => hr⟩, nofun⟩
    | cons line L ih =>
      intro y
      obtain ⟨mrest, mnext, mremotes⟩ := markDests_joins (r := { lineRequest q line with group := g, id := y.nextId })
        (fun e he => h e (List.mem_filter.mp he).1) y
      obtain ⟨srest, snext, r, hr, hid, hnode, hcls, hmask⟩ := sendRemote_joins { lineRequest q line with group := g, id := y.nextId }
        (markDests { lineRequest q line with group := g, id := y.nextId } y)
      obtain ⟨hjoins, hsent⟩ := ih (sendRemote { lineRequest q line with group := g, id := y.nextId }
        (markDests { lineRequest q line with group := g, id := y.nextId } y))
      have hone : Joins y (sendRemote { lineRequest q line with group := g, id := y.nextId }
          (markDests { lineRequest q line with group := g, id := y.nextId } y)) :=
        ⟨srest.trans mrest, by rw [snext, mnext]; exact Nat.le_succ _, fun x hx => by
          rw [hr, mremotes]
          exact List.mem_append_left _ hx⟩
      refine ⟨hone.trans hjoins, List.forall_mem_cons.mpr ⟨?_, fun l hl => ?_⟩⟩
      · exact ⟨r, hjoins.remotes r (hr ▸ List.mem_append_right _ (List.mem_singleton_self r)), by rw [hid, mnext], hnode, hcls, hmask⟩
      · obtain ⟨x, hx, hxid, hx'⟩ := hsent l hl
        exact ⟨x, hx, hone.number.trans hxid, hx'⟩
  obtain ⟨hjoins, hsent⟩ := hlines (sortNub (q.ops.map fun e => lineOf e.2.1)) s.nextId s
  exact ⟨hjoins, fun e he => hsent _ (mem_sortNub_iff.mpr (List.mem_map_of_mem he))⟩

/-! ### The lanes of one node (R144) -/

/-- What a lane of a node has sent: an access of the class to the node's own memory, or its part of the request to a peer. -/
def NodeAsked (own : Bool) (node : Nat) (cls : BitVec 2) (id : Nat) (t : State) (e : Far) : Prop :=
  if own then ∃ q ∈ t.reqs, id ≤ q.id ∧ q.lane = e.lane ∧ q.va = e.va ∧ q.cls = cls
  else ∃ r ∈ t.remotes, id ≤ r.id ∧ r.node = node ∧ r.cls = cls ∧ r.rest.getLsbD e.lane = true

/-- Where the old values of a remote atomic go. -/
def farDest (o : OpXn) (ret : Bool) (op : AtomOp) (i : Nat) : Dest := if ret then .vector o.d.toNat op.regs i else .none

theorem farDest_named (o : OpXn) (ret : Bool) (op : AtomOp) (i : Nat) : named (farDest o ret op i) := by cases ret <;> trivial

theorem farDest_apart (o : OpXn) (ret : Bool) (op : AtomOp) {l : List Far} (hl : (l.map Far.lane).Nodup) (hlt : ∀ e ∈ l, e.lane < 64) :
    l.Pairwise fun a b => ∀ c ∈ destCodes (farDest o ret op a.lane), c ∉ destCodes (farDest o ret op b.lane) := by
  cases ret with
  | false => exact List.pairwise_of_forall fun _ _ _ hc => nomatch hc
  | true =>
    have h := lanes_apart o.d.toNat op.regs hl fun i hi => by
      obtain ⟨e, he, rfl⟩ := List.mem_map.mp hi
      exact hlt e he
    rw [List.pairwise_map] at h
    exact h

/-- The own lanes of a remote atomic, whose operations may return nothing. -/
def ownAtoms (word : BitVec 32) (o : OpXn) (ret : Bool) (op : AtomOp) (act : AccessOp → AccessOp) (l : List Far) (y : State) : State :=
  (l.map fun e => (e, op.op y e.lane)).foldl (fun s e =>
    sendTurn { mkReq s e.1.lane e.1.va op.size (act e.2) (farDest o ret op e.1.lane) word with cls := o.cls }
      (markEmpty (farDest o ret op e.1.lane) s.nextId s)) y

/-- The replay of a remote atomic. -/
def farAtoms (word : BitVec 32) (o : OpXn) (ret : Bool) (op : AtomOp) (node : Nat) (l : List Far) (y : State) : RemoteReq :=
  { mkRemote y node o.cls word with
    size := op.size
    ops := (l.map fun e => (e, op.op y e.lane)).map fun e => (e.1.lane, e.1.va, fabricOpOf y ret e.2)
    dest := if ret then l.map fun e => (e.lane, farDest o ret op e.lane) else []
    key := if detNow y then some (curKey y) else none }

theorem atomNode_own (word : BitVec 32) (o : OpXn) (ret : Bool) (op : AtomOp) {node : Nat} (l : List Far) {y : State}
    (h : node = ownNode y) : ∃ act, atomNode word o ret op node l y =
      { ownAtoms word o ret op act l y with p := { (ownAtoms word o ret op act l y).p with wait := .remote y.nextId } } := by
  refine ⟨fun a => match ret, a with
    | false, .rmw n ty rm fz v _ => .reduce n ty rm fz v
    | _, a => a, ?_⟩
  rw [atomNode, if_pos h]
  rfl

theorem atomNode_far (word : BitVec 32) (o : OpXn) (ret : Bool) (op : AtomOp) {node : Nat} (l : List Far) {y : State}
    (h : node ≠ ownNode y) : atomNode word o ret op node l y =
      { sendReplay markDests (farAtoms word o ret op node l y) y with
        p := { (sendReplay markDests (farAtoms word o ret op node l y) y).p with wait := .remote y.nextId } } := by
  rw [atomNode, if_neg h]
  rfl

/-- The access of one own lane leaves. -/
theorem ownAtom_asks {dest : Dest} (hd : named dest) (lane : Nat) (va : Word) (size : Nat) (op : AccessOp) (word : BitVec 32) (cls : BitVec 2)
    (x : State) : Asks (fun q => q.lane = lane ∧ q.va = va ∧ q.cls = cls) dest x
      (sendTurn { mkReq x lane va size op dest word with cls := cls } (markEmpty dest x.nextId x)) :=
  asks_sendTurn (q := { mkReq x lane va size op dest word with cls := cls }) hd ⟨rfl, rfl, rfl⟩

theorem ownAtoms_asks (word : BitVec 32) (o : OpXn) (ret : Bool) (op : AtomOp) (act : AccessOp → AccessOp) {l : List Far}
    (hl : (l.map Far.lane).Nodup) (hlt : ∀ e ∈ l, e.lane < 64) (y : State) : (ownAtoms word o ret op act l y).sansAsks = y.sansAsks ∧
      ∀ e ∈ l, ∃ q ∈ (ownAtoms word o ret op act l y).reqs, y.nextId ≤ q.id ∧ q.lane = e.lane ∧ q.va = e.va ∧ q.cls = o.cls := by
  have h := foldl_asks (step := fun s e =>
      sendTurn { mkReq s e.1.lane e.1.va op.size (act e.2) (farDest o ret op e.1.lane) word with cls := o.cls }
      (markEmpty (farDest o ret op e.1.lane) s.nextId s))
    (P := fun e q => q.lane = e.1.lane ∧ q.va = e.1.va ∧ q.cls = o.cls) (dest := fun e : Far × AccessOp => farDest o ret op e.1.lane)
    (l := l.map fun e => (e, op.op y e.lane)) (s := y) (fun e _ x _ => ownAtom_asks (farDest_named o ret op e.1.lane) _ _ _ _ _ _ x)
    (by rw [List.pairwise_map]; exact farDest_apart o ret op hl hlt)
  refine ⟨h.rest, fun e he => ?_⟩
  obtain ⟨q, hq, hid, ⟨hlane, hva, hcls⟩, -⟩ := h.sent _ (List.mem_map_of_mem he)
  exact ⟨q, hq, hid, hlane, hva, hcls⟩

theorem farAtoms_joins (word : BitVec 32) (o : OpXn) (ret : Bool) (op : AtomOp) (node : Nat) {l : List Far} (hlt : ∀ e ∈ l, e.lane < 64)
    (y : State) : (sendReplay markDests (farAtoms word o ret op node l y) y).sansFar = y.sansFar ∧
      ∀ e ∈ l, ∃ r ∈ (sendReplay markDests (farAtoms word o ret op node l y) y).remotes, y.nextId ≤ r.id ∧ r.node = node ∧ r.cls = o.cls ∧
        r.rest.getLsbD e.lane = true := by
  have hdest : ∀ e ∈ (farAtoms word o ret op node l y).dest, named e.2 := by
    intro e he
    cases ret with
    | false => cases he
    | true =>
      obtain ⟨x, -, rfl⟩ := List.mem_map.mp he
      trivial
  obtain ⟨hjoins, hsent⟩ := sendReplay_joins hdest y
  refine ⟨hjoins.rest, fun e he => ?_⟩
  have hop : (e.lane, e.va, fabricOpOf y ret (op.op y e.lane)) ∈ (farAtoms word o ret op node l y).ops :=
    List.mem_map_of_mem (f := fun e : Far × AccessOp => (e.1.lane, e.1.va, fabricOpOf y ret e.2)) (List.mem_map_of_mem he)
  obtain ⟨r, hr, hid, hnode, hcls, hrest⟩ := hsent _ hop
  refine ⟨r, hr, hid, hnode, hcls, ?_⟩
  rw [hrest, lineRequest, maskOf_testBit]
  exact ⟨hlt e he, List.mem_map_of_mem (f := fun e : Nat × Word × FabricOp => e.1) (List.mem_filter.mpr ⟨hop, by simp⟩)⟩

/-- The lanes of a node have asked it, and the split waits for its answers. -/
theorem atomNode_asks (word : BitVec 32) (o : OpXn) (ret : Bool) (op : AtomOp) (node : Nat) {l : List Far} (hl : (l.map Far.lane).Nodup)
    (hlt : ∀ e ∈ l, e.lane < 64) (y : State) : (atomNode word o ret op node l y).sansFar =
        { y with p := { y.p with wait := .remote y.nextId } }.sansFar ∧
      ∀ e ∈ l, NodeAsked (decide (node = ownNode y)) node o.cls y.nextId (atomNode word o ret op node l y) e := by
  by_cases hown : node = ownNode y
  · obtain ⟨act, hnode⟩ := atomNode_own word o ret op l hown
    obtain ⟨hrest, hasked⟩ := ownAtoms_asks word o ret op act hl hlt y
    rw [hnode]
    refine ⟨congrArg (fun x : State => { x with p := { x.p with wait := .remote y.nextId }, remotes := [], outbox := [] }) hrest, fun e he => ?_⟩
    rw [NodeAsked, decide_eq_true hown, if_pos rfl]
    exact hasked e he
  · obtain ⟨hrest, hasked⟩ := farAtoms_joins word o ret op node hlt y
    rw [atomNode_far word o ret op l hown]
    refine ⟨congrArg (fun x : State => { x with p := { x.p with wait := .remote y.nextId } }) hrest, fun e he => ?_⟩
    rw [NodeAsked, decide_eq_false hown, if_neg Bool.false_ne_true]
    exact hasked e he

/-! ### The first node (R255) -/

theorem farAtom_congr {x s : State} (h : elemTy x = elemTy s) (o : OpXn) (ret : Bool) : farAtom x o ret = farAtom s o ret := by
  rw [farAtom, farAtom, h]

theorem farAtom_dst {s : State} {o : OpXn} {ret : Bool} {op : AtomOp} (h : farAtom s o ret = some op) : o.d.toNat < 96 := by
  have hv {wide : Bool} (hd : vDstOk wide o.d = true) : o.d.toNat < 96 := of_decide_eq_true (Bool.and_eq_true_iff.mp hd).1
  unfold farAtom at h
  dsimp only at h
  split at h
  · split at h
    · next hc =>
      have hd := (of_decide_eq_true (Bool.and_eq_true_iff.mp hc).2).2
      omega
    · cases h
  · split at h
    · cases h
    · split at h
      · split at h
        · next hc => exact hv (Bool.and_eq_true_iff.mp hc).2
        · cases h
      · split at h
        · split at h
          · next hc => exact hv (Bool.and_eq_true_iff.mp (Bool.and_eq_true_iff.mp hc).2).1
          · cases h
        · split at h
          · next hc => exact hv (Bool.and_eq_true_iff.mp hc).2
          · cases h

theorem farLanes_entered (f : Form) {s : State} (room : NoSpill s) (peer : BitVec 5) (a : BitVec 7) :
    farLanes (entered f s) peer a = farLanes s peer a := by
  simp only [farLanes, laneNode, activeLanes_entered f room, getV_entered f room, fieldBits_entered f room]

/-- A remote atomic that has asked no node yet asks its lowest. -/
theorem farStep_asks (word : BitVec 32) {o : OpXn} {ret : Bool} {op : AtomOp} {y : State} (hatom : farAtom y o ret = some op)
    (hredo : y.p.redo = none) (hactive : activeLanes y ≠ []) :
    ∃ node, (∀ i ∈ activeLanes y, node ≤ laneNode y o.peer i) ∧ (∃ i ∈ activeLanes y, laneNode y o.peer i = node) ∧
      (farStep word o ret y).p.wait = .remote y.nextId ∧ (farStep word o ret y).p.pc = y.p.pc ∧ Unwritten y (farStep word o ret y) ∧
      ∀ i ∈ activeLanes y, laneNode y o.peer i = node → NodeAsked (decide (node = ownNode y)) node o.cls y.nextId (farStep word o ret y)
        { lane := i, node := node, va := farVA y o.peer o.a i } := by
  have hleft : farLeft y o = farLanes y o.peer o.a := by rw [farLeft, hredo]
  have hne : (farLanes y o.peer o.a).map Far.node ≠ [] := by simpa [farLanes] using hactive
  obtain ⟨node, rest, hnodes, hmem, hleast⟩ := sortNub_least hne
  have hat : ∀ e ∈ atNode node (farLanes y o.peer o.a), ∃ i ∈ activeLanes y, e.lane = i := fun e he => by
    obtain ⟨i, hi, rfl⟩ := List.mem_map.mp (List.mem_filter.mp he).1
    exact ⟨i, hi, rfl⟩
  have hnodup : ((atNode node (farLanes y o.peer o.a)).map Far.lane).Nodup := by
    have hall : ((farLanes y o.peer o.a).map Far.lane).Nodup := by
      rw [farLanes, List.map_map, show Far.lane ∘ _ = id from rfl, List.map_id]
      exact activeLanes_nodup y
    exact hall.sublist (List.filter_sublist.map _)
  obtain ⟨hsame, hasked⟩ := atomNode_asks word o ret op node hnodup (fun e he => by
    obtain ⟨i, hi, rfl⟩ := hat e he
    exact activeLanes_lt hi) y
  have hstep : farStep word o ret y = { atomNode word o ret op node (atNode node (farLanes y o.peer o.a)) y with
      p := { (atomNode word o ret op node (atNode node (farLanes y o.peer o.a)) y).p with
        redo := some (lanesMask ((farLanes y o.peer o.a).filter fun e => e.node != node)) } } := by
    rw [farStep, hatom]
    dsimp only
    rw [hleft, nodesOf, hnodes]
  generalize atomNode word o ret op node (atNode node (farLanes y o.peer o.a)) y = t at hsame hasked hstep
  have keep {β : Type} (view : State → β) (hview : ∀ z, view z.sansFar = view z) : view t = view { y with p := { y.p with wait := .remote y.nextId } } := by
    rw [← hview t, hsame, hview]
  refine ⟨node, fun i hi => hleast _ ?_, ?_, ?_⟩
  · rw [farLanes, List.map_map]
    exact List.mem_map_of_mem (f := fun i => laneNode y o.peer i) hi
  · obtain ⟨e, he, hnode⟩ := List.mem_map.mp hmem
    obtain ⟨i, hi, rfl⟩ := List.mem_map.mp he
    exact ⟨i, hi, hnode⟩
  · rw [hstep]
    refine ⟨keep (fun x => x.p.wait) fun _ => rfl, keep (fun x => x.p.pc) fun _ => rfl, ?_, fun i hi hnode => ?_⟩
    · exact ⟨keep (fun x => x.p.sregs) fun _ => rfl, keep (fun x => x.p.wins) fun _ => rfl,
        ⟨keep (fun x => x.p.mode) fun _ => rfl, keep (fun x => x.p.exec) fun _ => rfl, keep (fun x => x.p.fstat) fun _ => rfl,
          keep (fun x => x.p.status) fun _ => rfl, keep (fun x => x.p.epc) fun _ => rfl, keep (fun x => x.p.cause) fun _ => rfl,
          keep (fun x => x.p.frec) fun _ => rfl⟩,
        keep (fun x => x.p.rstack) fun _ => rfl, keep (fun x => x.p.members) fun _ => rfl, keep (fun x => x.g.vregs) fun _ => rfl,
        keep (fun x => x.g.preds) fun _ => rfl, fun a => keep (fun x => memByte x.mem a) fun _ => rfl⟩
    · exact hasked _ (List.mem_filter.mpr ⟨List.mem_map.mpr ⟨i, hi, congrArg (fun n => { lane := i, node := n, va := farVA y o.peer o.a i : Far }) hnode⟩, beq_self_eq_true node⟩)

/-! ### Their issue -/

/-- How `atom.x` and `red.x` are issued. -/
structure FarInstr (i : Instr) (o : OpXn) (ret : Bool) (perform : State → State) : Prop where
  issues : ∀ s, exec i s = .next (farIssue i (wordOf (encode i)) o ret perform s)
  performs : ∀ s, detNow s = false → perform s = farStep (wordOf (encode i)) o ret { s with p := { s.p with wait := .none } }
  assigned : wellFormed i = true → ((if ret then decide (o.n.toNat < 7 ∨ o.n.toNat = 8 ∨ o.n.toNat = 9 ∨ o.n.toNat = 10)
    else decide (o.n.toNat < 6)) && (decide (96 ≤ o.a.toNat) || o.a.toNat % 2 == 0)) = true

theorem atomX_far (o : OpXn) : FarInstr (.atomX o) o true (atomXPerform o) := by
  refine ⟨fun _ => rfl, fun s hfree => ?_, fun h => ?_⟩
  · have hdet : detNow { s with p := { s.p with wait := .none } } = false := hfree
    rw [atomXPerform]
    dsimp only
    rw [hdet, if_neg Bool.false_ne_true]
  · have hfields : (isV o.d && isPairOrScalar o.a && isAtomXCode o.n) = true := h
    simp only [Bool.and_eq_true, isPairOrScalar, isAtomXCode, Bool.or_eq_true, decide_eq_true_eq] at hfields
    obtain ⟨⟨-, hpair⟩, hcode⟩ := hfields
    rw [if_pos rfl, Bool.and_eq_true, decide_eq_true_eq, Bool.or_eq_true, decide_eq_true_eq, beq_iff_eq]
    exact ⟨by omega, hpair⟩

theorem redX_far (o : OpXn) : FarInstr (.redX o) o false (redXPerform o) := by
  refine ⟨fun _ => rfl, fun s hfree => rfl, fun h => ?_⟩
  have hfields : (isV o.d && isPairOrScalar o.a && decide (o.n.toNat < 6)) = true := h
  simp only [Bool.and_eq_true, isPairOrScalar, Bool.or_eq_true, decide_eq_true_eq] at hfields
  obtain ⟨⟨-, hpair⟩, hcode⟩ := hfields
  rw [if_neg Bool.false_ne_true, Bool.and_eq_true, decide_eq_true_eq, Bool.or_eq_true, decide_eq_true_eq, beq_iff_eq]
  exact ⟨hcode, hpair⟩

section

variable {i : Instr} {o : OpXn} {ret : Bool} {perform : State → State} (hi : FarInstr i o ret perform) {s : State} {op : AtomOp}
  (hform : wellFormed i = true) (hatom : farAtom s o ret = some op)

/-- A remote atomic that has asked nobody. -/
def unwaiting (f : Form) (s : State) : State := { entered f s with p := { (entered f s).p with wait := .none } }

include hi hform hatom in
/-- A remote atomic is issued on its committed region. -/
theorem farIssue_begins (hwait : ∀ id, s.p.wait ≠ .remote id) (hredo : s.p.redo = none) (hready : FarReady s true o.cls op.size o.peer o.a)
    (h : ReadyTurn 8 (farRead s o.peer o.a ++ dstV o.d.toNat op.uses (activeLanes s))
      (if ret then dstV o.d.toNat op.regs (activeLanes s) else []) s) :
    ∃ f, exec i s = .next (farStep (wordOf (encode i)) o ret (unwaiting f s)) := by
  let f : Form := { farForm (wordOf (encode i)) true o.ta o.peer o.a s with
    irrevocable := true, turn := true
    srcs := srcV o.d.toNat op.uses false (activeLanes s)
    dsts := if ret then dstV o.d.toNat op.regs (activeLanes s) else [] }
  let effect (x : State) : State :=
    takePublishing i (fun s e => ret && inLineage s e) (fun s => if ret then ownLines o.peer o.a s else []) perform x
  have hleft : farLeft s o = farLanes s o.peer o.a := by rw [farLeft, hredo]
  have hexec : exec i s = .next (issue f (fun s => farVerdict s true o.cls op.size (farLeft s o)) effect s) := by
    rw [hi.issues, farIssue]
    split
    · next id hw => exact absurd hw (hwait id)
    · exact congrArg Host.Outcome.next (by dsimp only; rw [hi.assigned hform, if_pos rfl, hatom])
  have haddrs : ∀ e ∈ f.addrs, regState s e.1 = .full := by
    intro e he
    refine h.sources _ (List.mem_append_left _ ?_)
    rcases List.mem_append.mp he with hpeer | hoffset
    · exact List.mem_append_left _ (srcV_dst (by have := o.peer.isLt; omega) _ _ e hpeer)
    · refine List.mem_append_right _ ?_
      rw [← srcV_codes _ _ o.ta]
      exact List.mem_map_of_mem hoffset
  have hissue := h.passes (f := f) (check := fun s => farVerdict s true o.cls op.size (farLeft s o)) (effect := effect) rfl ⟨rfl, rfl⟩ rfl
    haddrs (by rw [hleft]; exact farVerdict_ok hready)
    (fun e he => h.sources _ (List.mem_append_right _ (srcV_dst (farAtom_dst hatom) _ _ e he))) (fun _ hc => hc) rfl
  have hfree : detNow (entered f s) = false := (detNow_entered f h.room).trans h.free
  have hperform : effect (entered f s) = farStep (wordOf (encode i)) o ret (unwaiting f s) := by
    show takePublishing i _ _ perform (entered f s) = _
    rw [takePublishing, hfree, Bool.false_and, if_neg Bool.false_ne_true, takeTurn, hfree, if_neg Bool.false_ne_true, hi.performs _ hfree,
      unwaiting]
  exact ⟨f, hexec.trans (congrArg Host.Outcome.next (hissue.trans hperform))⟩

omit hi in
theorem unwaiting_same (f : Form) (room : NoSpill s) : Unwritten s (unwaiting f s) ∧ activeLanes (unwaiting f s) = activeLanes s ∧
    (∀ i, laneNode (unwaiting f s) o.peer i = laneNode s o.peer i) ∧ (∀ i, farVA (unwaiting f s) o.peer o.a i = farVA s o.peer o.a i) ∧
    ownNode (unwaiting f s) = (curPart s).node := by
  have hsplit := entered_split f room
  have hvectors : (unwaiting f s).g.vregs = s.g.vregs := (unwritten_entered f room).vectors
  have hnode : ∀ n i, getV (unwaiting f s) n i = getV s n i := fun n i => by rw [getV, getV, hvectors]
  refine ⟨?_, activeLanes_entered f room, fun i => ?_, fun i => ?_, field_curPart Partition.node f room fun _ => rfl⟩
  · obtain ⟨hscalars, hwindows, hspecial, hstack, hmembers, hvectors, hpredicates, hmemory⟩ := unwritten_entered f room
    exact ⟨hscalars, hwindows, hspecial, hstack, hmembers, hvectors, hpredicates, hmemory⟩
  · rw [laneNode, laneNode, hnode]
  · have hbits : fieldBits (unwaiting f s) o.a.toNat true i = fieldBits s o.a.toNat true i := fieldBits_entered f room _ _ _
    rw [farVA, farVA, hnode, hbits]

include hi hform hatom in
/-- The first step of a remote atomic: its lowest node is asked. -/
theorem farIssue_asks (hwait : ∀ id, s.p.wait ≠ .remote id) (hredo : s.p.redo = none) (hactive : activeLanes s ≠ [])
    (hready : FarReady s true o.cls op.size o.peer o.a)
    (h : ReadyTurn 8 (farRead s o.peer o.a ++ dstV o.d.toNat op.uses (activeLanes s))
      (if ret then dstV o.d.toNat op.regs (activeLanes s) else []) s) :
    ∃ u id, exec i s = .next u ∧ u.p.wait = .remote id ∧ s.nextId ≤ id ∧ u.p.pc = s.p.pc ∧ Unwritten s u ∧
      ∃ node, (∀ i ∈ activeLanes s, node ≤ laneNode s o.peer i) ∧ (∃ i ∈ activeLanes s, laneNode s o.peer i = node) ∧
        (∀ i ∈ activeLanes s, laneNode s o.peer i = node → if node = (curPart s).node
          then ∃ q ∈ u.reqs, id ≤ q.id ∧ q.lane = i ∧ q.va = farVA s o.peer o.a i ∧ q.cls = o.cls
          else ∃ r ∈ u.remotes, id ≤ r.id ∧ r.node = node ∧ r.cls = o.cls ∧ r.rest.getLsbD i = true) := by
  obtain ⟨f, hexec⟩ := farIssue_begins hi hform hatom hwait hredo hready h
  obtain ⟨hunwritten, hlanes, hnode, hva, hown⟩ := unwaiting_same (o := o) f h.room
  have hatom' : farAtom (unwaiting f s) o ret = some op := (farAtom_congr (elemTy_entered f h.room) o ret).trans hatom
  have hredo' : (unwaiting f s).p.redo = none := (entered_split f h.room).redo.trans hredo
  have hnumber : s.nextId ≤ (unwaiting f s).nextId := (entered_queues f h.room).1
  have hplace : (unwaiting f s).p.pc = s.p.pc := pc_entered f h.room
  generalize unwaiting f s = y at *
  obtain ⟨node, hleast, hmeets, hwaits, hpc, hsame, hasked⟩ := farStep_asks (wordOf (encode i)) hatom' hredo' (by rw [hlanes]; exact hactive)
  refine ⟨_, y.nextId, hexec, hwaits, hnumber, hpc.trans hplace, hunwritten.trans hsame, node, ?_, ?_, fun i hi hat => ?_⟩
  · simpa only [hlanes, hnode] using hleast
  · simpa only [hlanes, hnode] using hmeets
  · have hlane := hasked i (by rw [hlanes]; exact hi) (by rw [hnode]; exact hat)
    rw [NodeAsked, hown] at hlane
    by_cases hself : node = (curPart s).node
    · rw [decide_eq_true hself, if_pos rfl] at hlane
      rw [if_pos hself, ← hva]
      exact hlane
    · rw [decide_eq_false hself, if_neg Bool.false_ne_true] at hlane
      rw [if_neg hself]
      exact hlane

omit hi in
/-- With no node left a remote atomic retires. -/
theorem farStep_done {word : BitVec 32} {y : State} (hatom : farAtom y o ret = some op) (hredo : y.p.redo = some 0) (hfree : detNow y = false) :
    farStep word o ret y = finishTurn 8 { y with p := { y.p with redo := none } } := by
  have hleft : nodesOf (farLeft y o) = [] := by
    rw [farLeft, hredo]
    dsimp only
    rw [List.filter_eq_nil_iff.mpr fun e _ => by simp [lane]]
    rfl
  have hturn : setTurn { y with p := { y.p with redo := none } } = { y with p := { y.p with redo := none } } := by
    have hz : detNow { y with p := { y.p with redo := none } } = false := hfree
    rw [setTurn, hz, if_neg Bool.false_ne_true]
  rw [farStep, hatom]
  dsimp only
  rw [hleft]
  dsimp only
  rw [hturn]

include hi hatom in
/-- The last step of a remote atomic: no node is left, and it retires. -/
theorem farIssue_retires {id : Nat} (hwait : s.p.wait = .remote id) (hredo : s.p.redo = some 0) (hanswered : farPending s id = false)
    (hsound : ∀ r ∈ s.remotes, farDone s id r = true → r.fault = none) (hfree : detNow s = false) (hrot : NoRotation s) (room : NoSpill s)
    (hbuffer : s.p.buffer = []) : ∃ u, exec i s = .next u ∧ Done 8 { s with
      p := { s.p with redo := none, wait := .none }
      remotes := s.remotes.filter fun r => !farDone s id r } u := by
  have hfault : findFirst (fun r => farDone s id r && r.fault.isSome) s.remotes = none := by
    refine findFirst_none fun r hr => ?_
    cases hd : farDone s id r with
    | false => rfl
    | true => rw [hsound r hr hd]; rfl
  have hcontinue : farContinue (wordOf (encode i)) o ret id s = farStep (wordOf (encode i)) o ret
      { s with remotes := s.remotes.filter fun r => !farDone s id r, p := { s.p with wait := .none } } := by
    rw [farContinue, hanswered, if_neg Bool.false_ne_true, hfault]
  have hexec : exec i s = .next (farContinue (wordOf (encode i)) o ret id s) := by rw [hi.issues, farIssue, hwait]
  have hlast := farStep_done (word := wordOf (encode i))
    (y := { s with remotes := s.remotes.filter fun r => !farDone s id r, p := { s.p with wait := .none } })
    ((farAtom_congr rfl o ret).trans hatom) hredo hfree
  exact ⟨_, hexec.trans (congrArg Host.Outcome.next (hcontinue.trans hlast)), finishTurn_done hfree (room.of_empty hbuffer hbuffer rfl) hbuffer hrot⟩

end

/-- Settles O32: each of the two asks its lowest node first and retires once no node is left. -/
theorem remoteAtomicsAskTheLowestNode : Obligations.RemoteAtomicsAskTheLowestNode := by
  intro e he o s op hform hatom
  have hboth : ∃ perform, FarInstr (e.1 o) o e.2 perform := by
    simp only [remoteAtomics, List.mem_cons, List.not_mem_nil, or_false] at he
    rcases he with rfl | rfl
    · exact ⟨_, atomX_far o⟩
    · exact ⟨_, redX_far o⟩
  obtain ⟨perform, hi⟩ := hboth
  exact ⟨farIssue_asks hi hform hatom, fun id hwait hredo hanswered hsound hfree hrot room hbuffer =>
    farIssue_retires hi hatom hwait hredo hanswered hsound hfree hrot room hbuffer⟩

end Sys2Proof.Machine
end

section
/-! PROOF. What the reset of a partition leaves of it: no copy, no command, no access of a launch, registers at their reset values
(spec/16_host_partitions_monitors.md R324; spec/20_faults_fabric_host_start.md R399). -/

namespace Sys2Proof.Machine

open Sys2Proof.Rules

/-! ### What a partition loses and does not get back -/

/-- The registers of a partition are as its reset leaves them. -/
def Partition.Blank (q : Partition) : Prop :=
  q.tvec = 0 ∧ q.fqlog = 0 ∧ q.esel = [] ∧ q.evc = [] ∧ q.dead = [] ∧ q.aperture = [] ∧ q.intake = []

/-- From s to t the partition gets nothing: no launch that goes on, no copy, no command, no access of a gang, no register written. -/
structure Fades (part : Nat) (s t : State) : Prop where
  launches : ∀ x ∈ t.launches, x.part = part → ∃ y ∈ s.launches, y.id = x.id ∧ y.part = part ∧ (y.phase = .retired → x.phase = .retired)
  copies : ∀ c ∈ t.l1, c.ref.part = part → c ∈ s.l1
  reqs : ∀ q ∈ t.reqs, q.part = part → q.gang = 0 ∨ q ∈ s.reqs
  cmds : ∀ c ∈ t.cmds, c.part = part → c ∈ s.cmds
  brim : ∀ e ∈ t.brim, e.ref.part = part → e ∈ s.brim
  parts : ∀ r ∈ t.parts, r.id = part → ∃ q ∈ s.parts, q.id = part ∧ (q.Blank → r.Blank)
  readied : ∀ e ∈ t.readied, e.1 = part → e ∈ s.readied

theorem Fades.refl (part : Nat) (s : State) : Fades part s s where
  launches x hx h := ⟨x, hx, rfl, h, id⟩
  copies _ hc _ := hc
  reqs _ hq _ := .inr hq
  cmds _ hc _ := hc
  brim _ he _ := he
  parts r hr h := ⟨r, hr, h, id⟩
  readied _ he _ := he

theorem Fades.trans {part : Nat} {s t u : State} (h : Fades part s t) (k : Fades part t u) : Fades part s u where
  launches x hx e := by
    obtain ⟨y, hy, hid, hpart, hret⟩ := k.launches x hx e
    obtain ⟨z, hz, hid', hpart', hret'⟩ := h.launches y hy hpart
    exact ⟨z, hz, hid'.trans hid, hpart', hret ∘ hret'⟩
  copies c hc e := h.copies c (k.copies c hc e) e
  reqs q hq e := (k.reqs q hq e).elim .inl fun h' => h.reqs q h' e
  cmds c hc e := h.cmds c (k.cmds c hc e) e
  brim x hx e := h.brim x (k.brim x hx e) e
  parts r hr e := by
    obtain ⟨q, hq, hid, hblank⟩ := k.parts r hr e
    obtain ⟨x, hx, hid', hblank'⟩ := h.parts q hq hid
    exact ⟨x, hx, hid', hblank ∘ hblank'⟩
  readied x hx e := h.readied x (k.readied x hx e) e

/-- A change of anything else. -/
theorem Fades.of_eq {part : Nat} {s t : State} (launches : t.launches = s.launches := by rfl) (l1 : t.l1 = s.l1 := by rfl)
    (reqs : t.reqs = s.reqs := by rfl) (cmds : t.cmds = s.cmds := by rfl) (brim : t.brim = s.brim := by rfl)
    (parts : t.parts = s.parts := by rfl) (readied : t.readied = s.readied := by rfl) : Fades part s t where
  launches x hx h := ⟨x, launches ▸ hx, rfl, h, id⟩
  copies _ hc _ := l1 ▸ hc
  reqs _ hq _ := .inr (reqs ▸ hq)
  cmds _ hc _ := cmds ▸ hc
  brim _ he _ := brim ▸ he
  parts r hr h := ⟨r, parts ▸ hr, h, id⟩
  readied _ he _ := readied ▸ he

/-- What a reset has left of a partition stays so. -/
theorem partReset_fades {part : Nat} {s t : State} (h : PartReset part s) (k : Fades part s t) : PartReset part t := by
  obtain ⟨hl, hc, hq, hm, hb, hp⟩ := h
  refine ⟨fun x hx e => ?_, fun c hc' e => hc c (k.copies c hc' e) e, fun q hq' e => ?_,
    fun c hc' e => hm c (k.cmds c hc' e) e, fun x hx e => hb x (k.brim x hx e) e, fun r hr e => ?_⟩
  · obtain ⟨y, hy, -, hpart, hret⟩ := k.launches x hx e
    exact hret (hl y hy hpart)
  · exact (k.reqs q hq' e).elim id fun h' => hq q h' e
  · obtain ⟨q, hq, hid, hblank⟩ := k.parts r hr e
    exact hblank (hp q hq hid)

theorem Fades.foldl {α : Type} {part : Nat} {f : State → α → State} (h : ∀ s a, Fades part s (f s a)) (l : List α) (s : State) :
    Fades part s (l.foldl f s) := by
  induction l generalizing s with
  | nil => exact .refl part s
  | cons a r ih => exact (h s a).trans (ih _)

/-! ### Writes and records of the device -/

/-- The device without lines, held stores, bytes, messages and the counter of numbers. -/
def State.sansBytes (s : State) : State :=
  { s with lines := [], late := [], mem := [], badEntries := [], outbox := [], nextId := 0 }

/-- A relation of states holds over a write or a record of the device's own: over whatever such a write consists of. -/
structure OverWrites (R : State → State → Prop) : Prop where
  refl : ∀ s, R s s
  trans : ∀ {s t u}, R s t → R t u → R s u
  bytes : ∀ {s t : State}, t.sansBytes = s.sansBytes → R s t
  copies : ∀ q s, R s (l1Drop q s)
  events : ∀ n counts k s, counts 0 = false → R s (mapPart n (bumpEvents counts k) s)
  foreign : ∀ launch r s, R s (foreignUpdate launch r s)
  asked : ∀ {q : Req} s, q.gang = 0 → R s (sendDev q s)
  records : ∀ n s, R s (mapPart n (fun q => { q with fqtail := q.fqtail + 1 }) s)
  losses : ∀ n s, R s (loseRecord n s)

section
variable {R : State → State → Prop} (h : OverWrites R)
include h

theorem OverWrites.foldl {α : Type} {f : State → α → State} (hf : ∀ s a, R s (f s a)) (l : List α) (s : State) :
    R s (l.foldl f s) := by
  induction l generalizing s with
  | nil => exact h.refl s
  | cons a r ih => exact h.trans (hf s a) (ih _)

theorem OverWrites.makeRoom (n slice : Nat) (s : State) : R s (makeRoom n slice s) :=
  h.foldl (fun s r => by split; exacts [h.refl s, h.trans (h.copies _ s) (h.bytes rfl)]) _ s

theorem OverWrites.fillLine (r : LineRef) (l : Leaf) (s : State) : R s (fillLine r l s) :=
  h.trans (h.makeRoom 1 (homeOf s r.part r.va) s) (h.bytes rfl)

theorem OverWrites.ensureLine (p asid off : Nat) (s : State) : R s (ensureLine p asid off s) := by
  unfold Machine.ensureLine
  split
  · exact h.refl s
  · split
    · exact h.fillLine _ _ s
    · exact h.refl s

theorem OverWrites.writePte (pa e : Nat) (s : State) : R s (writePte pa e s) := by
  unfold Machine.writePte
  split <;> exact h.bytes rfl

theorem OverWrites.reviveGranule (p asid off : Nat) (s : State) : R s (reviveGranule p asid off s) := by
  unfold Machine.reviveGranule
  split
  · exact h.refl s
  · split
    · refine h.trans ?_ (h.writePte _ _ _)
      exact h.bytes rfl
    · exact h.refl s

theorem OverWrites.writeLine (p asid off : Nat) (d : List Byte) (s : State) : R s (writeLine p asid off d s) := by
  have k := h.trans (h.reviveGranule p asid off s) (h.ensureLine p asid off _)
  rw [Machine.writeLine]
  split
  · exact k
  · exact h.trans k (h.bytes rfl)

theorem OverWrites.countMiss (launch : Nat) (r : LineRef) (s : State) : R s (countMiss launch r s) := by
  unfold Machine.countMiss
  split
  · split
    · exact h.events _ _ _ s rfl
    · exact h.events _ _ _ s rfl
  · exact h.refl s

theorem OverWrites.writeBase (launch p asid off : Nat) (d : List Byte) (s : State) : R s (writeBase launch p asid off d s) := by
  rw [Machine.writeBase]
  exact h.trans (h.trans (h.countMiss launch _ s) (h.writeLine p asid off d _)) (h.foreign launch _ _)

theorem OverWrites.recallCopies (b : Bool) (r : LineRef) (d : SMap Byte) (s : State) : R s (recallCopies b r d s) := by
  unfold Machine.recallCopies
  dsimp only
  split
  · exact h.bytes rfl
  · split <;> exact h.bytes rfl

theorem OverWrites.writePiece (launch p asid o : Nat) (d : List Byte) (s : State) : R s (writePiece launch p asid o d s) := by
  rw [Machine.writePiece]
  split
  · exact h.asked s rfl
  · exact h.trans (h.trans (h.writeBase launch p asid o d s) (h.copies _ _)) (h.recallCopies true _ _ _)

theorem OverWrites.writePieces (launch p asid off : Nat) (d : List Byte) (l : List (Nat × Nat)) (s : State) :
    R s (writePieces launch p asid off d l s) := by
  induction l generalizing s with
  | nil => exact h.refl s
  | cons e r ih => exact h.trans (h.writePiece launch p asid e.1 _ s) (ih _)

theorem OverWrites.devWrite {launch p asid off : Nat} {d : List Byte} {s t : State} (hw : devWrite launch p asid off d s = .ok t) :
    R s t := by
  unfold Machine.devWrite at hw
  split at hw
  · cases hw
  · cases hw
    exact h.writePieces launch p asid off d _ s

theorem OverWrites.devStore (p asid : Nat) (va : Word) (op : AccessOp) (d : List Byte) (s : State) :
    R s (devStore p asid va op d s) := by
  have held (e : LateEntry) (q : Req) (hq : q.gang = 0) :
      R s (if lateRoom s (homeHc (offsetOf va)) p then enqueueLate e s else sendDev q s) := by
    split
    · exact h.bytes rfl
    · exact h.asked s hq
  unfold Machine.devStore
  dsimp only
  split
  · exact held _ _ rfl
  · split
    · next hw => exact h.devWrite hw
    · exact held _ _ rfl

theorem OverWrites.faultQueue (p : Nat) (head : List Byte) (s : State) : R s (faultQueue p head s) := by
  unfold Machine.faultQueue
  dsimp only
  split
  · exact h.losses p s
  · split
    · exact h.losses p s
    · split
      · exact h.losses p s
      · next hw => exact h.trans (h.devWrite hw) (h.records p _)

theorem OverWrites.deviceRecord (p : Nat) (cause : BitVec 8) (kind node : Nat) (va : Word) (asid : Nat) (s : State) :
    R s (deviceRecord p cause kind node va asid s) := by
  rw [Machine.deviceRecord]
  exact h.faultQueue p _ s

end

/-! ### No write of the device gives a partition anything -/

theorem fades_mapPart (part n : Nat) {f : Partition → Partition} (hid : ∀ q, (f q).id = q.id)
    (hf : ∀ q : Partition, q.Blank → (f q).Blank) (s : State) : Fades part s (mapPart n f s) :=
  { Fades.refl part s with
    parts := fun r hr e => by
      obtain ⟨q, hq, rfl⟩ := mem_updateWhere hr
      refine ⟨q, hq, ?_, ?_⟩
      · rw [← e]; split
        · exact (hid q).symm
        · rfl
      · intro hb; split
        · exact hf q hb
        · exact hb }

theorem blank_bumpEvents {counts : Word → Bool} (h0 : counts 0 = false) (n : Nat) {q : Partition} (h : q.Blank) :
    (bumpEvents counts n q).Blank := by
  obtain ⟨ht, hf, hs, he, hr⟩ := h
  refine ⟨ht, hf, hs, ?_, hr⟩
  rw [bumpEvents, hs, he]
  simp only [mapGet, h0, Bool.false_eq_true, if_false]
  exact List.foldl_fixed _

/-- A change of launches that ends or keeps them. -/
theorem fades_mapLaunches (part : Nat) (p : Launch → Bool) {f : Launch → Launch}
    (hf : ∀ l, (f l).id = l.id ∧ (f l).part = l.part ∧ (l.phase = .retired → (f l).phase = .retired)) (s : State) :
    Fades part s { s with launches := updateWhere p f s.launches } :=
  { Fades.refl part s with
    launches := fun x hx e => by
      obtain ⟨l, hl, rfl⟩ := mem_updateWhere hx
      obtain ⟨hid, hpart, hret⟩ := hf l
      split at e
      · next h => rw [if_pos h]; exact ⟨l, hl, hid.symm, hpart.symm.trans e, hret⟩
      · next h => rw [if_neg h]; exact ⟨l, hl, rfl, e, id⟩ }

theorem fades_overWrites (part : Nat) : OverWrites (Fades part) where
  refl := Fades.refl part
  trans := Fades.trans
  bytes h := .of_eq (congrArg State.launches h :) (congrArg State.l1 h :) (congrArg State.reqs h :) (congrArg State.cmds h :)
    (congrArg State.brim h :) (congrArg State.parts h :) (congrArg State.readied h :)
  copies _ s := { Fades.refl part s with copies := fun _ hc _ => (List.mem_filter.mp hc).1 }
  events n counts k s h0 := fades_mapPart part n (f := bumpEvents counts k) (fun _ => rfl) (fun _ => blank_bumpEvents h0 k) s
  foreign _ r s := fades_mapLaunches part _ (f := fun l => { l with fu := true, fline := userVA (partOf s r.part).node r.va })
    (fun _ => ⟨rfl, rfl, id⟩) s
  asked s h := { Fades.refl part s with
    reqs := fun x hx _ => (List.mem_append.mp hx).elim .inr fun hx => .inl (by rw [List.mem_singleton.mp hx]; exact h) }
  records n s := fades_mapPart part n (f := fun q => { q with fqtail := q.fqtail + 1 }) (fun _ => rfl) (fun _ h => h) s
  losses n s := fades_mapPart part n (f := fun q => { q with fqlost := q.fqlost + 1 }) (fun _ => rfl) (fun _ h => h) s

theorem fades_countAnswer (part : Nat) (q : FabricReq) (p : Nat) (v : Option Word) (s : State) :
    Fades part s (countAnswer q p v s) := by
  have record (v : Option Word) (s : State) : Fades part s (match v with
      | some va => deviceRecord p 0x91 4 q.source va 0xFFF s
      | none => s) := by
    cases v with
    | none => exact .refl part s
    | some va => exact (fades_overWrites part).deviceRecord p _ _ _ _ _ s
  unfold countAnswer
  dsimp only
  split
  · exact record v s
  · split
    · exact .trans .of_eq (record _ _)
    · exact .of_eq

/-! ### The steps of a reset -/

theorem fades_settleDies (part : Nat) (s : State) : Fades part s (settleDies s) := .of_eq

theorem fades_stopLaunch (part n : Nat) (s : State) : Fades part s (stopLaunch n s) := by
  have h : Fades part s (if s.g.launch = n ∧ s.g.id ≠ 0 then { s with p := Split.vacant, g := Gang.vacant } else s) := by
    split <;> exact .of_eq
  refine h.trans ?_
  rw [stopLaunch]
  generalize (if s.g.launch = n ∧ s.g.id ≠ 0 then { s with p := Split.vacant, g := Gang.vacant } else s) = u
  exact { Fades.refl part u with
    copies := fun _ hc _ => (List.mem_filter.mp hc).1
    reqs := fun _ hq _ => .inr (List.mem_filter.mp hq).1
    cmds := fun _ hc _ => (List.mem_filter.mp hc).1 }

theorem fades_answers (part p : Nat) (l : List Arg) (s : State) : Fades part s (l.foldl (fun t a => match a with
    | .fabric q => countAnswer q p none t
    | _ => t) s) := by
  refine .foldl (fun t a => ?_) l s
  split
  · exact fades_countAnswer part _ p none t
  · exact .refl part t

theorem fades_dropPartition (part p : Nat) (s : State) : Fades part s (dropPartition p s) := by
  rw [dropPartition]
  refine .trans ?_ (fades_answers part p (waitingArgs p s) _)
  exact { Fades.refl part s with
    copies := fun _ hc _ => (List.mem_filter.mp hc).1
    reqs := fun _ hq _ => .inr (List.mem_filter.mp hq).1
    cmds := fun _ hc _ => (List.mem_filter.mp hc).1
    brim := fun _ he _ => (List.mem_filter.mp he).1
    readied := fun _ he _ => (List.mem_filter.mp he).1 }

theorem fades_resetComp (part : Nat) (cause : BitVec 8) (l : Launch) (s : State) : Fades part s (resetComp cause l s) :=
  ((fades_overWrites part).devStore _ _ _ _ _ s).trans (fades_mapLaunches part _
    (f := fun l => { l with phase := .retired, units := [], pool := [], discards := [] }) (fun _ => ⟨rfl, rfl, fun _ => rfl⟩) _)

theorem resetRegisters_blank (q : Partition) : (resetRegisters q).Blank := ⟨rfl, rfl, rfl, rfl, rfl, rfl, rfl⟩

theorem fades_resetPartition (part : Nat) (cause : BitVec 8) (p : Nat) (s : State) : Fades part s (resetPartition cause p s) := by
  rw [resetPartition]
  refine .trans ?_ (fades_settleDies part _)
  refine .trans ?_ (fades_mapPart part p (f := resetRegisters) (fun _ => rfl) (fun q _ => resetRegisters_blank q) _)
  refine .trans ?_ (.foldl (fun t l => fades_resetComp part cause l t) _ _)
  exact (Fades.foldl (fun t (l : Launch) => fades_stopLaunch part l.id t) _ s).trans (fades_dropPartition part p _)

theorem fades_resetParts (part : Nat) (cause : BitVec 8) (ps : List Partition) (s : State) : Fades part s (resetParts cause ps s) :=
  .foldl (f := fun t q => resetPartition cause q.id t) (fun t q => fades_resetPartition part cause q.id t) ps s

/-! ### What the reset leaves -/

theorem resetComp_retired (cause : BitVec 8) (l : Launch) (s : State) :
    ∀ x ∈ (resetComp cause l s).launches, x.id = l.id → x.phase = .retired := by
  intro x hx hid
  obtain ⟨y, -, rfl⟩ := mem_updateWhere hx
  split at hid
  · next h => rw [if_pos h]
  · next h => exact absurd hid (by simpa using h)

theorem resetComps_retired (cause : BitVec 8) (ls : List Launch) (s : State) :
    ∀ l ∈ ls, ∀ x ∈ (ls.foldl (fun s l => resetComp cause l s) s).launches, x.id = l.id → x.phase = .retired := by
  induction ls generalizing s with
  | nil => simp
  | cons a r ih =>
    intro l hl x hx hid
    obtain rfl | hl := List.mem_cons.mp hl
    · obtain ⟨y, hy, hid', -, hret⟩ := (Fades.foldl (fun t l => fades_resetComp x.part cause l t) r _).launches x hx rfl
      exact hret (resetComp_retired cause _ s y hy (hid'.trans hid))
    · exact ih _ l hl x hx hid

/-- What the queues and copies of a partition are after step 3 of its reset. -/
theorem dropPartition_empty (part : Nat) (s : State) :
    (∀ c ∈ (dropPartition part s).l1, c.ref.part ≠ part) ∧ (∀ q ∈ (dropPartition part s).reqs, q.part = part → q.gang = 0) ∧
      (∀ c ∈ (dropPartition part s).cmds, c.part ≠ part) ∧ (∀ e ∈ (dropPartition part s).brim, e.ref.part ≠ part) ∧
      ∀ e ∈ (dropPartition part s).readied, e.1 ≠ part := by
  rw [dropPartition]
  generalize hu : ({ s with
    inbound := s.inbound.map fun e => if e.part = part then { e with refused := none } else e
    lines := s.lines.filter fun l => l.ref.part != part
    l1 := s.l1.filter fun c => c.ref.part != part
    remoteCopies := s.remoteCopies.filter fun c => c.part != part
    brim := s.brim.filter fun e => e.ref.part != part
    pubs := s.pubs.filter fun b => b.part != part
    updates := s.updates.filter fun u => u.part != part
    mitten := s.mitten.filter fun u => u.part != part
    retry := s.retry.filter fun u => u.part != part
    late := s.late.filter fun e => e.part != part
    remotes := s.remotes.filter fun r => r.part != part
    reqs := s.reqs.filter fun q => q.part != part
    cmds := s.cmds.filter fun c => c.part != part
    starving := s.starving.filter fun x => x.want.ref.part != part
    reserved := s.reserved.filter fun x => x.ref.part != part
    hostQueue := s.hostQueue.filter fun e => e.1.part != part
    noted := s.noted.filter fun e => e.1.part != part
    readied := s.readied.filter fun e => e.1 != part
    outbox := s.outbox ++ resetAnswers part s } : State) = u
  have k := fades_answers part part (waitingArgs part s) u
  have out {α : Type} {l : List α} {f : α → Nat} {x : α} (h : x ∈ l.filter fun a => f a != part) : f x ≠ part := by
    simpa using (List.mem_filter.mp h).2
  refine ⟨fun c hc e => ?_, fun q hq e => (k.reqs q hq e).elim id fun h => ?_, fun c hc e => ?_, fun x hx e => ?_,
    fun x hx e => ?_⟩
  · have h := k.copies c hc e
    subst hu
    exact out (f := fun c : L1Line => c.ref.part) h e
  · subst hu
    exact absurd e (out (f := fun q : Req => q.part) h)
  · have h := k.cmds c hc e
    subst hu
    exact out (f := fun c : Cmd => c.part) h e
  · have h := k.brim x hx e
    subst hu
    exact out (f := fun e : BrimEntry => e.ref.part) h e
  · have h := k.readied x hx e
    subst hu
    exact out (f := fun e : Nat × Nat × Nat => e.1) h e

theorem resetPartition_reset (cause : BitVec 8) (part : Nat) (s : State) : PartReset part (resetPartition cause part s) := by
  rw [resetPartition]
  generalize hls : (s.launches.filter fun l => l.part == part && decide (l.phase ≠ .retired)) = ls
  have hstop := Fades.foldl (part := part) (fun t (l : Launch) => fades_stopLaunch part l.id t) ls s
  generalize ls.foldl (fun s l => stopLaunch l.id s) s = u at hstop
  have hdrop := fades_dropPartition part part u
  obtain ⟨hl1, hreqs, hcmds, hbrim, -⟩ := dropPartition_empty part u
  generalize dropPartition part u = v at hdrop hl1 hreqs hcmds hbrim
  have hcomp := Fades.foldl (part := part) (fun t l => fades_resetComp part cause l t) ls v
  have hretired := resetComps_retired cause ls v
  generalize ls.foldl (fun s l => resetComp cause l s) v = w at hcomp hretired
  refine ⟨fun x hx e => ?_, fun c hc e => hl1 c (hcomp.copies c hc e) e,
    fun q hq e => (hcomp.reqs q hq e).elim id fun h => hreqs q h e,
    fun c hc e => hcmds c (hcomp.cmds c hc e) e, fun x hx e => hbrim x (hcomp.brim x hx e) e, fun r hr e => ?_⟩
  · obtain ⟨y, hy, hid, hpart, hret⟩ := ((hstop.trans hdrop).trans hcomp).launches x hx e
    by_cases hp : y.phase = .retired
    · exact hret hp
    · exact hretired y (by rw [← hls]; exact List.mem_filter.mpr ⟨hy, by simp [hpart, hp]⟩) x hx hid.symm
  · obtain ⟨q, -, rfl⟩ := mem_updateWhere hr
    split at e
    · next h => rw [if_pos h]; exact resetRegisters_blank q
    · next h => exact absurd e (by simpa using h)

/-- No task of the partition waits to enter intake. -/
theorem resetPartition_readied (cause : BitVec 8) (part : Nat) (s : State) :
    ∀ e ∈ (resetPartition cause part s).readied, e.1 ≠ part := by
  rw [resetPartition]
  generalize (s.launches.filter fun l => l.part == part && decide (l.phase ≠ .retired)) = ls
  generalize ls.foldl (fun s l => stopLaunch l.id s) s = u
  obtain ⟨-, -, -, -, hreadied⟩ := dropPartition_empty part u
  exact fun e he hpart => hreadied e
    ((Fades.foldl (part := part) (fun t l => fades_resetComp part cause l t) ls (dropPartition part u)).readied e he hpart) hpart

theorem resetParts_readied (cause : BitVec 8) (ps : List Partition) (s : State) :
    ∀ q ∈ ps, ∀ e ∈ (resetParts cause ps s).readied, e.1 ≠ q.id := by
  induction ps generalizing s with
  | nil => simp
  | cons a r ih =>
    intro q hq
    obtain rfl | hq := List.mem_cons.mp hq
    · exact fun e he hpart => resetPartition_readied cause q.id s e ((fades_resetParts q.id cause r _).readied e he hpart) hpart
    · exact ih _ q hq

theorem resetParts_reset (cause : BitVec 8) (ps : List Partition) (s : State) :
    ∀ q ∈ ps, PartReset q.id (resetParts cause ps s) := by
  induction ps generalizing s with
  | nil => simp
  | cons a r ih =>
    intro q hq
    obtain rfl | hq := List.mem_cons.mp hq
    · exact partReset_fades (resetPartition_reset cause _ s) (fades_resetParts _ cause r _)
    · exact ih _ q hq

/-! ### What a reset leaves alone -/

/-- The device without what the reset of a partition changes besides launches and partitions. -/
def State.sansQueues (s : State) : State :=
  { s with
    p := Split.vacant, g := Gang.vacant, gangs := [], reqs := [], remotes := [], cmds := [], tiles := [], accums := [], loaded := []
    lines := [], l1 := [], remoteCopies := [], brim := [], pubs := [], updates := [], mitten := [], retry := [], late := [], reserved := []
    starving := [], hostQueue := [], noted := [], readied := [], mem := [], badEntries := [], dies := [], inbound := [], nextId := 0
    outbox := [] }

/-- A relation of states holds over the reset of a partition. -/
structure OverResets (R : State → State → Prop) : Prop extends OverWrites R where
  queues : ∀ {s t : State}, t.sansQueues = s.sansQueues → R s t
  ends : ∀ n s, R s (mapLaunch n (fun l => { l with phase := .retired, units := [], pool := [], discards := [] }) s)
  clears : ∀ n s, R s (mapPart n resetRegisters s)

section
variable {R : State → State → Prop} (h : OverResets R)
include h

theorem OverResets.countAnswer (q : FabricReq) (p : Nat) (v : Option Word) (s : State) : R s (countAnswer q p v s) := by
  have record (v : Option Word) (s : State) : R s (match v with
      | some va => deviceRecord p 0x91 4 q.source va 0xFFF s
      | none => s) := by
    cases v with
    | none => exact h.refl s
    | some va => exact h.deviceRecord p _ _ _ _ _ s
  unfold Machine.countAnswer
  dsimp only
  split
  · exact record v s
  · split
    · refine h.trans ?_ (record _ _)
      exact h.queues rfl
    · exact h.queues rfl

theorem OverResets.stopLaunch (n : Nat) (s : State) : R s (stopLaunch n s) := by
  refine h.queues ?_
  unfold Machine.stopLaunch
  dsimp only
  split <;> rfl

theorem OverResets.dropPartition (p : Nat) (s : State) : R s (dropPartition p s) := by
  rw [Machine.dropPartition]
  refine h.trans ?_ (h.foldl (f := fun t (a : Arg) => match a with
    | .fabric q => Machine.countAnswer q p none t
    | _ => t) (fun t a => ?_) (waitingArgs p s) _)
  · exact h.queues rfl
  · split
    · exact h.countAnswer _ p none t
    · exact h.refl t

theorem OverResets.resetPartition (cause : BitVec 8) (p : Nat) (s : State) : R s (resetPartition cause p s) := by
  have hcomp (s : State) (l : Launch) : R s (resetComp cause l s) := h.trans (h.devStore _ _ _ _ _ s) (h.ends l.id _)
  rw [Machine.resetPartition]
  exact h.trans (h.trans (h.trans (h.foldl (f := fun s (l : Launch) => Machine.stopLaunch l.id s) (fun s l => h.stopLaunch l.id s) _ s)
    (h.dropPartition p _)) (h.foldl (f := fun s l => resetComp cause l s) hcomp _ _)) (h.trans (h.clears p _) (h.queues rfl))

theorem OverResets.resetParts (cause : BitVec 8) (ps : List Partition) (s : State) : R s (resetParts cause ps s) :=
  h.foldl (f := fun s (q : Partition) => Machine.resetPartition cause q.id s) (fun s q => h.resetPartition cause q.id s) ps s

end

/-- The device without what the reset of a partition may change. -/
def State.sansReset (s : State) : State := { s.sansQueues with launches := [], parts := [] }

theorem sansReset_overResets : OverResets fun s t => t.sansReset = s.sansReset where
  refl _ := rfl
  trans h k := k.trans h
  bytes h := (congrArg State.sansReset h :)
  copies _ _ := rfl
  events _ _ _ _ _ := rfl
  foreign _ _ _ := rfl
  asked _ _ := rfl
  records _ _ := rfl
  losses _ _ := rfl
  queues h := congrArg (fun u : State => { u with launches := [], parts := [] }) h
  ends _ _ := rfl
  clears _ _ := rfl

/-- The partitions that a device has, in their order. -/
def State.partIds (s : State) : List Nat := s.parts.map fun q => q.id

theorem partIds_mapPart (n : Nat) {f : Partition → Partition} (hf : ∀ q, (f q).id = q.id) (s : State) :
    (mapPart n f s).partIds = s.partIds := map_updateWhere hf _ s.parts

theorem partIds_overResets : OverResets fun s t => t.partIds = s.partIds where
  refl _ := rfl
  trans h k := k.trans h
  bytes h := (congrArg State.partIds h :)
  copies _ _ := rfl
  events n c k s _ := partIds_mapPart n (f := bumpEvents c k) (fun _ => rfl) s
  foreign _ _ _ := rfl
  asked _ _ := rfl
  records n s := partIds_mapPart n (f := fun q => { q with fqtail := q.fqtail + 1 }) (fun _ => rfl) s
  losses n s := partIds_mapPart n (f := fun q => { q with fqlost := q.fqlost + 1 }) (fun _ => rfl) s
  queues h := (congrArg State.partIds h :)
  ends _ _ := rfl
  clears n s := partIds_mapPart n (f := resetRegisters) (fun _ => rfl) s

end Sys2Proof.Machine
end

section
/-! PROOF. Starts, operating points, trips and memory errors (spec/16_host_partitions_monitors.md R326 to R330;
spec/19_faults_execution_memory.md R381, R382; spec/20_faults_fabric_host_start.md R398, R400 to R402). -/

namespace Sys2Proof.Machine

open Sys2Proof.Rules

/-! ### The start of the device -/

/-- The image of a slot is one that a start runs: its signature verifies, and it is not below the fused minimum. -/
def GoodImage (u : Startup) (i : Option FwImage) : Prop :=
  ∃ x, i = some x ∧ verified u x = true ∧ u.minVersion.toNat ≤ x.version.toNat

theorem slotResult_eq_one {u : Startup} {i : Option FwImage} : slotResult u i = 1 ↔ GoodImage u i := by
  cases i with
  | none => simp [slotResult, GoodImage]
  | some x =>
    simp only [slotResult, GoodImage, Option.some.injEq, exists_eq_left']
    by_cases hv : verified u x = true
    · by_cases hm : x.version.toNat < u.minVersion.toNat
      · simp [hv, hm]
      · simp [hv, hm, Nat.le_of_not_lt hm]
    · simp [hv]

theorem one_lt_slotResult {u : Startup} {i : Option FwImage} (h : ¬ GoodImage u i) : 1 < slotResult u i := by
  have h1 : slotResult u i ≠ 1 := mt slotResult_eq_one.mp h
  have h0 : slotResult u i ≠ 0 := by
    unfold slotResult
    split
    · decide
    · split
      · decide
      · split <;> decide
  omega

/-- The slot that a start reads first. -/
def firstSlot (u : Startup) : Nat := if u.first = 2 then 2 else 1

theorem firstSlot_cases (u : Startup) : firstSlot u = 1 ∨ firstSlot u = 2 := by
  unfold firstSlot
  split <;> simp

theorem bootScan_none {u : Startup} (hf : ¬ GoodImage u (slotOf u (firstSlot u))) (hg : ¬ GoodImage u (slotOf u (3 - firstSlot u))) :
    (bootScan u 2).image = none := by
  have h1 := one_lt_slotResult hf
  have h2 := one_lt_slotResult hg
  unfold firstSlot at h1 h2
  simp only [bootScan, OfNat.ofNat_ne_zero, if_false, lt_self_iff_false, or_false, if_neg (Nat.not_le.mpr h1), if_neg (Nat.ne_of_gt h1),
    if_neg (Nat.ne_of_gt h2), if_true]

/-- The slot that starts: the first one whose image is good. -/
theorem bootScan_boot {u : Startup} {b : Nat} (hb : b = firstSlot u ∨ b = 3 - firstSlot u ∧ ¬ GoodImage u (slotOf u (firstSlot u)))
    (hgood : GoodImage u (slotOf u b)) : (bootScan u 2).boot = b ∧ (bootScan u 2).image = slotOf u b := by
  have hr := slotResult_eq_one.mpr hgood
  have hcases := firstSlot_cases u
  have himage : (bootScan u 2).image = if (bootScan u 2).boot = 0 then none else slotOf u (bootScan u 2).boot := rfl
  have hboot : (bootScan u 2).boot = b := by
    obtain rfl | ⟨rfl, hbad⟩ := hb
    · unfold firstSlot at hr
      simp only [bootScan, OfNat.ofNat_ne_zero, if_false, hr, if_true, firstSlot]
    · have h1 := one_lt_slotResult hbad
      unfold firstSlot at hr h1
      simp only [bootScan, OfNat.ofNat_ne_zero, if_false, lt_self_iff_false, or_false, if_neg (Nat.not_le.mpr h1),
        if_neg (Nat.ne_of_gt h1), hr, if_true, firstSlot]
  refine ⟨hboot, ?_⟩
  rw [himage, hboot, if_neg]
  omega

/-- The fields of the first word of the start-failure record (R401). -/
theorem startRecord_first {u : Startup} {e : StartReport} {step reason count slotA slotB fwver : Nat} {minimal : Bool}
    (hs : step < 2 ^ 8) (hr : reason < 2 ^ 8) (hc : count < 2 ^ 8) :
    ∃ w, (startRecord u e step reason count slotA slotB fwver minimal)[0]? = some w ∧ w.toNat % 2 ^ 8 = reason ∧
      w.toNat / 2 ^ 8 % 2 ^ 8 = step ∧ w.toNat / 2 ^ 16 % 2 ^ 8 = count := by
  refine ⟨_, rfl, ?_⟩
  rw [BitVec.toNat_ofNat]
  omega

theorem failStart_failed (e : StartReport) {step reason : Nat} (slotA slotB fwver : Nat) (s : State) (hs : step < 2 ^ 8)
    (hr : reason < 2 ^ 8) : StartFailed step reason s (failStart e step reason slotA slotB fwver s) where
  phase := rfl
  count := rfl
  first := startRecord_first hs hr (Nat.lt_succ_of_le (Nat.min_le_left _ _))
  rest := rfl

theorem clustersLost_eq (e : StartReport) : clustersLost e =
    e.clustersOut ||| (if e.hbmOut.extractLsb' 0 4 = 0xF then 0x00000000FFFFFFFF else 0) |||
      (if e.hbmOut.extractLsb' 4 4 = 0xF ∨ e.bridgeOut = true then 0xFFFFFFFF00000000 else 0) := by
  have low : ∀ h : BitVec 8, h &&& 0x0F = 0x0F ↔ h.extractLsb' 0 4 = 0xF := by decide
  have high : ∀ h : BitVec 8, h &&& 0xF0 = 0xF0 ↔ h.extractLsb' 4 4 = 0xF := by decide
  simp only [clustersLost, low, high]
  rfl

theorem startTimeout_failed {s : State} {step tried : Nat} {e : StartReport} (harg : s.arg = .startTimeout step tried e)
    (hs : step < 2 ^ 8) (hrun : s.startup.phase = .running) :
    ∃ t, exec .startStepTimeout s = .next t ∧ StartFailed step 4 s t := by
  have h : exec .startStepTimeout s = .next (let x := bootScan s.startup (if step ≤ 1 then 0 else if step = 2 then tried else 2)
      failStart e step 4 x.slotA x.slotB (if step ≤ 1 then 0 else x.version) s) := by
    show execStartStepTimeout s = _
    rw [execStartStepTimeout, harg]
    dsimp only
    rw [if_pos hrun]
  exact ⟨_, h, failStart_failed e _ _ _ s hs (by decide)⟩

theorem beginStart_starting (s : State) : Starting s (beginStart s) where
  phase := rfl
  vacant := ⟨rfl, rfl, rfl⟩
  nothing := ⟨rfl, rfl, rfl, rfl⟩
  memory := rfl

/-! ### Operating points -/

theorem map_getAt_countFrom {α : Type} (d : α) (l : List α) : (countFrom 0 l.length).map (getAt d l) = l := by
  refine List.ext_getElem (by simp [countFrom_eq]) fun i h _ => ?_
  simp only [List.length_map, countFrom_eq, List.length_range] at h
  simp [countFrom_eq, getAt_eq_getD, h]

/-- What the settling of the dies does not set. -/
theorem map_settleDies {β : Type} {v : Die → β} (ht : ∀ d w, v { d with target := w } = v d) (hp : ∀ d w, v { d with point := w } = v d)
    (s : State) : (settleDies s).dies.map v = s.dies.map v := by
  conv_rhs => rw [← map_getAt_countFrom Die.reset s.dies]
  simp only [settleDies, List.map_map]
  refine List.map_congr_left fun i _ => ?_
  simp only [Function.comp_apply]
  split
  · exact ht _ _
  · exact hp _ _

theorem settleDies_settled (s : State) : Rules.Settled (settleDies s) := by
  intro i hi htarget
  have hlt : i < s.dies.length := by simpa [settleDies, countFrom_eq] using hi
  have hat : getAt Die.reset (settleDies s).dies i = _ := getAt_map_countFrom hlt
  rw [hat] at htarget ⊢
  dsimp only at htarget ⊢
  by_cases hm : (getAt Die.reset s.dies i).target.isSome = true
  · rw [if_pos hm] at htarget
    cases htarget
  · rw [if_neg hm]
    rfl

theorem mapDies_lowered {f : Nat → Nat} (s : State) : SameButDies s (mapDies (fun d => { d with lowered := f d.lowered }) s) ∧
    Rules.Settled (mapDies (fun d => { d with lowered := f d.lowered }) s) ∧
    (mapDies (fun d => { d with lowered := f d.lowered }) s).dies.map (fun d => d.lowered) = s.dies.map fun d => f d.lowered := by
  refine ⟨rfl, settleDies_settled _, ?_⟩
  rw [mapDies, map_settleDies (fun _ _ => rfl) (fun _ _ => rfl), List.map_map]
  rfl

theorem setAt_eq_set {α : Type} (l : List α) (i : Nat) (v : α) : setAt l i v = l.set i v := by
  induction l generalizing i with
  | nil => rfl
  | cons a r ih =>
    cases i with
    | zero => rfl
    | succ i => rw [setAt, List.set_cons_succ, ih]

theorem holdDie_hold (h : Bool) (die : Nat) (s : State) : SameButDies s (holdDie h die s) ∧ Rules.Settled (holdDie h die s) ∧
    (holdDie h die s).dies.map (fun d => d.hold) = (s.dies.map fun d => d.hold).set die h := by
  refine ⟨rfl, settleDies_settled _, ?_⟩
  rw [holdDie, map_settleDies (fun _ _ => rfl) (fun _ _ => rfl), setAt_eq_set, List.map_set]

/-! ### Memory errors -/

theorem keeps_overWrites {β : Type} (v : State → β) (hv : ∀ s t : State, v { s with
    lines := t.lines, late := t.late, mem := t.mem, badEntries := t.badEntries, outbox := t.outbox, nextId := t.nextId
    l1 := t.l1, reqs := t.reqs, launches := t.launches, parts := t.parts } = v s) : OverWrites fun s t => v t = v s where
  refl _ := rfl
  trans h k := k.trans h
  bytes {s t} h := by
    have e : t = { s with
        lines := t.lines, late := t.late, mem := t.mem, badEntries := t.badEntries, outbox := t.outbox, nextId := t.nextId
        l1 := t.l1, reqs := t.reqs, launches := t.launches, parts := t.parts } :=
      (congrArg (fun u : State => { u with
        lines := t.lines, late := t.late, mem := t.mem, badEntries := t.badEntries, outbox := t.outbox, nextId := t.nextId
        l1 := t.l1, reqs := t.reqs, launches := t.launches, parts := t.parts }) h :)
    rw [e, hv]
  copies q s := hv s (l1Drop q s)
  events n c k s _ := hv s (mapPart n (bumpEvents c k) s)
  foreign n r s := hv s (foreignUpdate n r s)
  asked {q} s _ := hv s (sendDev q s)
  records n s := hv s (mapPart n (fun q => { q with fqtail := q.fqtail + 1 }) s)
  losses n s := hv s (loseRecord n s)

/-- The launches that a device has, in their order. -/
def State.launchIds (s : State) : List Nat := s.launches.map fun l => l.id

theorem launchIds_overWrites : OverWrites fun s t => t.launchIds = s.launchIds where
  refl _ := rfl
  trans h k := k.trans h
  bytes h := (congrArg State.launchIds h :)
  copies _ _ := rfl
  events _ _ _ _ _ := rfl
  foreign _ r s := map_updateWhere (v := fun l : Launch => l.id)
    (f := fun l => { l with fu := true, fline := userVA (partOf s r.part).node r.va }) (fun _ => rfl) _ s.launches
  asked _ _ := rfl
  records _ _ := rfl
  losses _ _ := rfl

section
variable {R : State → State → Prop} (h : OverWrites R)
include h

theorem OverWrites.baseLine (launch : Nat) (r : LineRef) (data : SMap Byte) (s : State) : R s (baseLine launch r data s) := by
  rw [Machine.baseLine]
  exact h.trans (h.trans (h.trans (h.countMiss launch r s)
    (h.foldl (f := fun s (b : Nat × Byte) => Machine.writeLine r.part r.asid (r.va + b.1) [b.2] s)
      (fun s b => h.writeLine r.part r.asid (r.va + b.1) [b.2] s) data _)) (h.copies _ _)) (h.recallCopies true r data _)

theorem OverWrites.mergeBytes (e : BrimEntry) (s : State) : R s (mergeBytes e s) := by
  unfold Machine.mergeBytes
  dsimp only
  split
  · exact h.trans (h.fillLine _ _ _) (h.baseLine _ _ _ _)
  · exact h.baseLine _ _ _ _

theorem OverWrites.mergeAll (hb : ∀ (s : State) (b : List BrimEntry), R s { s with brim := b }) (n : Nat) (s : State) :
    R s (mergeAll n s) := by
  rw [Machine.mergeAll, mergeList]
  exact h.foldl (f := fun s (e : BrimEntry) => Machine.mergeBytes e { s with brim := s.brim.filter fun x => x.id != e.id })
    (fun s e => h.trans (hb s _) (h.mergeBytes e _)) _ s

end

theorem launchIds_endLaunch (n status : Nat) (cause : BitVec 8) (s : State) : (endLaunch n status cause s).launchIds = s.launchIds := by
  have hstop : (stopLaunch n s).launchIds = s.launchIds := by
    unfold State.launchIds stopLaunch
    dsimp only
    split <;> rfl
  rw [endLaunch]
  generalize launchOf (mergeAll n (stopLaunch n s)) n = l
  have hcomp := launchIds_overWrites.devStore l.part l.asid (l.tcb + 64)
    (.store (leBytes 8 (compWord l status cause) ++ leBytes 8 l.fline.toNat)) (leBytes 8 (compWord l status cause) ++ leBytes 8 l.fline.toNat)
    (mergeAll n (stopLaunch n s))
  have hmerge := launchIds_overWrites.mergeAll (fun _ _ => rfl) n (stopLaunch n s)
  have hend := map_updateWhere (v := fun l : Launch => l.id)
    (f := fun l => { l with phase := .retired, ended := some (cause, status), units := [], discards := [] }) (fun _ => rfl)
    (fun l => l.id == n) (writeComp l status cause (mergeAll n (stopLaunch n s))).launches
  exact hend.trans (hcomp.trans (hmerge.trans hstop))

theorem exists_findFirst {α : Type} {q : α → Bool} {l : List α} {a : α} (ha : a ∈ l) (h : q a = true) : ∃ b, findFirst q l = some b := by
  cases hf : findFirst q l with
  | some b => exact ⟨b, rfl⟩
  | none =>
    rw [findFirst_eq_head, List.head?_eq_none_iff, List.filter_eq_nil_iff] at hf
    exact absurd h (hf a ha)

theorem launchOf_endLaunch {n status : Nat} {cause : BitVec 8} {s : State} (h : n ∈ s.launchIds) :
    (launchOf (endLaunch n status cause s) n).phase = .retired ∧ (launchOf (endLaunch n status cause s) n).ended = some (cause, status) := by
  rw [← launchIds_endLaunch n status cause s] at h
  obtain ⟨l, hl, hid⟩ := List.mem_map.mp h
  obtain ⟨x, hx⟩ := exists_findFirst (q := fun l : Launch => l.id == n) hl (by simpa using hid)
  obtain ⟨hmem, hxid⟩ := of_findFirst hx
  rw [launchOf, hx]
  exact endLaunch_ended n status cause s x hmem (by simpa using hxid)

theorem launchIds_eccRecord (part asid : Nat) (va : Word) (s : State) : (eccRecord part asid va s).launchIds = s.launchIds :=
  launchIds_overWrites.deviceRecord part 0x73 0 0 va asid s

theorem mem_launchIds {s : State} {l : Launch} (h : (s.launches.filter fun x => x.id == l.id) = [l]) : l.id ∈ s.launchIds :=
  List.mem_map.mpr ⟨l, (List.mem_filter.mp (h ▸ List.mem_singleton_self l)).1, rfl⟩

theorem launchError_ended {s : State} {l : Launch} (h : (s.launches.filter fun x => x.id == l.id) = [l]) (hrun : l.phase = .running) :
    (launchOf (launchError l.id s) l.id).phase = .retired ∧ (launchOf (launchError l.id s) l.id).ended = some (0x73, 3) := by
  have hl : launchOf s l.id = l := by rw [launchOf, findFirst_eq_head, h]; rfl
  rw [launchError, hl, if_pos hrun]
  exact launchOf_endLaunch (by rw [launchIds_eccRecord]; exact mem_launchIds h)

theorem launchIds_holdPage (part asid off : Nat) (s : State) : (holdPage part asid off s).launchIds = s.launchIds := by
  unfold holdPage
  split
  · exact launchIds_overWrites.writePte _ _ s
  · rfl

theorem launchIds_mapGang (n : Nat) (f : Gang → Gang) (s : State) : (mapGang n f s).launchIds = s.launchIds := by
  unfold mapGang
  split <;> rfl

theorem cuffError_ended {s : State} {n o : Nat} {g : Gang} {c : CuffEntry} {l : Launch} (hg : gangOf s n = some g)
    (hc : (g.cuff.filter fun x => x.order == o && x.log.isSome) = [c]) (hl : g.launch = l.id)
    (h : (s.launches.filter fun x => x.id == l.id) = [l]) :
    (launchOf (cuffError n o s) l.id).phase = .retired ∧ (launchOf (cuffError n o s) l.id).ended = some (0x73, 3) := by
  have hfound : findFirst (fun e => e.order == o && e.log.isSome) g.cuff = some c := by rw [findFirst_eq_head, hc]; rfl
  rw [cuffError, hg]
  dsimp only
  rw [hfound, hl]
  refine launchOf_endLaunch ?_
  rw [launchIds_eccRecord, launchIds_holdPage, launchIds_mapGang]
  exact mem_launchIds h

/-- The split at issue, its gang, and the lines that carry an error. -/
def State.issueAndErrors (s : State) : Split × Gang × List Nat := (s.p, s.g, s.badLines)

theorem issueAndErrors_overWrites : OverWrites fun s t => t.issueAndErrors = s.issueAndErrors :=
  keeps_overWrites State.issueAndErrors fun _ _ => rfl

theorem issueAndErrors_holdPage (part asid off : Nat) (s : State) : (holdPage part asid off s).issueAndErrors = s.issueAndErrors := by
  unfold holdPage
  split
  · exact issueAndErrors_overWrites.writePte _ _ s
  · rfl

theorem mem_markBad (pa : Nat) (s : State) : pa / 128 ∈ (markBad pa s).badLines := by
  unfold markBad
  split
  · next h => simpa using h
  · simp

theorem hbmError_issueAndErrors (pa : Nat) (s : State) : (hbmError pa s).issueAndErrors = (markBad pa s).issueAndErrors := by
  have record (part asid : Nat) (va : Word) (s : State) : (eccRecord part asid va s).issueAndErrors = s.issueAndErrors :=
    issueAndErrors_overWrites.deviceRecord part 0x73 0 0 va asid s
  unfold hbmError
  dsimp only
  generalize markBad pa s = u
  split
  · exact record _ _ _ _
  · split
    · refine (record _ _ _ _).trans ?_
      split
      · exact issueAndErrors_holdPage _ _ _ u
      · rfl
    · rfl

theorem hbmError_marks (pa : Nat) (s : State) : (hbmError pa s).p = s.p ∧ (hbmError pa s).g = s.g ∧ pa / 128 ∈ (hbmError pa s).badLines := by
  have h := hbmError_issueAndErrors pa s
  have hp : (hbmError pa s).p = (markBad pa s).p := congrArg (fun e => e.1) h
  have hg : (hbmError pa s).g = (markBad pa s).g := congrArg (fun e => e.2.1) h
  have hb : (hbmError pa s).badLines = (markBad pa s).badLines := congrArg (fun e => e.2.2) h
  have hmark : (markBad pa s).p = s.p ∧ (markBad pa s).g = s.g := by unfold markBad; split <;> exact ⟨rfl, rfl⟩
  exact ⟨hp.trans hmark.1, hg.trans hmark.2, hb ▸ mem_markBad pa s⟩

theorem findLine_dropLine (r : LineRef) (s : State) : findLine (dropLine r s) r = none :=
  findFirst_none fun l hl => by simpa using (List.mem_filter.mp hl).2

/-! ### The steps -/

theorem deviceStart_runs {s : State} {e : StartReport} (harg : s.arg = .start e) : exec .deviceStart s = .next (deviceStart e s) := by
  show execDeviceStart s = _
  rw [execDeviceStart, harg]

section
variable {s : State} {e : StartReport} (harg : s.arg = .start e) (hrun : s.startup.phase = .running)
include harg hrun

theorem deviceStart_badRom (hrom : e.romOk = false) : ∃ t, exec .deviceStart s = .next t ∧ StartFailed 1 1 s t := by
  refine ⟨_, (deviceStart_runs harg).trans ?_, failStart_failed e 0 0 0 s (by decide) (by decide)⟩
  rw [deviceStart, if_neg (not_not_intro hrun), hrom]
  rfl

theorem deviceStart_noImage (hrom : e.romOk = true) (hf : ¬ GoodImage s.startup (slotOf s.startup (firstSlot s.startup)))
    (hg : ¬ GoodImage s.startup (slotOf s.startup (3 - firstSlot s.startup))) :
    ∃ t, exec .deviceStart s = .next t ∧ StartFailed 2 2 s t := by
  have h : exec .deviceStart s = .next (let x := bootScan s.startup 2; failStart e 2 2 x.slotA x.slotB x.version s) := by
    rw [deviceStart_runs harg, deviceStart, if_neg (not_not_intro hrun), hrom]
    dsimp only
    rw [bootScan_none hf hg]
    rfl
  exact ⟨_, h, failStart_failed e _ _ _ s (by decide) (by decide)⟩

theorem deviceStart_noCluster {b : Nat} {x : FwImage} (hrom : e.romOk = true)
    (hb : b = firstSlot s.startup ∨ b = 3 - firstSlot s.startup ∧ ¬ GoodImage s.startup (slotOf s.startup (firstSlot s.startup)))
    (hgood : GoodImage s.startup (slotOf s.startup b)) (hx : slotOf s.startup b = some x)
    (hlost : clustersLost e = BitVec.allOnes 64) : ∃ t, exec .deviceStart s = .next t ∧ StartFailed 3 3 s t := by
  have h : exec .deviceStart s = .next (let x := bootScan s.startup 2; failStart e 3 3 x.slotA x.slotB x.version s) := by
    rw [deviceStart_runs harg, deviceStart, if_neg (not_not_intro hrun), hrom]
    dsimp only
    rw [(bootScan_boot hb hgood).2, hx]
    exact congrArg Host.Outcome.next (if_pos hlost)
  exact ⟨_, h, failStart_failed e _ _ _ s (by decide) (by decide)⟩

theorem deviceStart_completes {b : Nat} {x : FwImage} (hrom : e.romOk = true)
    (hb : b = firstSlot s.startup ∨ b = 3 - firstSlot s.startup ∧ ¬ GoodImage s.startup (slotOf s.startup (firstSlot s.startup)))
    (hgood : GoodImage s.startup (slotOf s.startup b)) (hx : slotOf s.startup b = some x)
    (hlost : clustersLost e ≠ BitVec.allOnes 64) : exec .deviceStart s = .next (completeStart e b x s) := by
  rw [deviceStart_runs harg, deviceStart, if_neg (not_not_intro hrun), hrom]
  dsimp only
  rw [(bootScan_boot hb hgood).2, (bootScan_boot hb hgood).1, hx]
  exact congrArg Host.Outcome.next (if_neg hlost)

end

theorem completeStart_minVersion (e : StartReport) (b : Nat) (x : FwImage) (s : State) :
    (completeStart e b x s).startup.minVersion.toNat = max s.startup.minVersion.toNat x.version.toNat := by
  show (if s.startup.minVersion.toNat < x.version.toNat then x.version else s.startup.minVersion).toNat = _
  split <;> omega

/-- A verified slot is the first one, or the other one after a bad first one. -/
theorem exists_boot {u : Startup} (h : GoodImage u u.slotA ∨ GoodImage u u.slotB) :
    ∃ b, (b = firstSlot u ∨ b = 3 - firstSlot u ∧ ¬ GoodImage u (slotOf u (firstSlot u))) ∧ GoodImage u (slotOf u b) := by
  by_cases hf : GoodImage u (slotOf u (firstSlot u))
  · exact ⟨_, .inl rfl, hf⟩
  · refine ⟨_, .inr ⟨rfl, hf⟩, ?_⟩
    obtain h1 | h2 := firstSlot_cases u
    · rw [h1] at hf ⊢
      exact h.resolve_left hf
    · rw [h2] at hf ⊢
      exact h.resolve_right hf

theorem not_good_slots {u : Startup} (ha : ¬ GoodImage u u.slotA) (hb : ¬ GoodImage u u.slotB) (n : Nat) : ¬ GoodImage u (slotOf u n) := by
  unfold slotOf
  split
  · exact hb
  · exact ha

theorem startRetry_restarts {s : State} (hphase : s.startup.phase = .failed) (h : s.startup.count < 3) :
    exec .startRetry s = .next (beginStart s) := by
  show execStartRetry s = _
  rw [execStartRetry, if_neg (not_not_intro hphase), if_pos h]

theorem startRetry_minimal {s : State} (hphase : s.startup.phase = .failed) (h : 3 ≤ s.startup.count) :
    ∃ t, exec .startRetry s = .next t ∧ Quiet s t ∧ t.startup.phase = .minimal ∧ t.startup.minimalPort = 0 ∧
      (∀ p ∈ t.ports, p.linkUp = true ∧ p.flit = false) ∧
      ∀ w r, s.startup.record = w :: r → t.startup.record = (w ||| 0x01000000) :: r := by
  refine ⟨_, congrArg Host.Outcome.next ((if_neg (not_not_intro hphase)).trans (if_neg (Nat.not_lt.mpr h))), ⟨rfl, rfl, rfl, rfl⟩, rfl, rfl,
    fun p hp => ?_, fun w r hr => ?_⟩
  · obtain ⟨q, -, rfl⟩ := List.mem_map.mp hp
    exact ⟨rfl, rfl⟩
  · show markMinimal s.startup.record = _
    rw [hr]
    rfl

/-- The device with its answer to a configuration request. -/
def configured (port : Nat) (s : State) : State :=
  { s with outbox := s.outbox ++ [if portServes s port then .configDone port else .configRetry port] }

theorem configurationRequest_runs {s : State} {port : Nat} {b : Bool} (harg : s.arg = .numBool port b) :
    exec .configurationRequest s = .next (if b then beginStart (configured port s) else configured port s) := by
  have hu : (if portServes s port then reply (.configDone port) s else reply (.configRetry port) s) = configured port s := by
    unfold configured
    split <;> rfl
  show execConfigurationRequest s = _
  rw [execConfigurationRequest, harg]
  dsimp only
  rw [hu]

theorem powerCapExceed_over {s : State} {w : Nat} (harg : s.arg = .num w) : exec .powerCapExceed s =
    .next (if deviceCap s < w then mapDies (fun d => { d with lowered := min 3 (d.lowered + 1) }) s else s) := by
  show execPowerCapExceed s = _
  rw [execPowerCapExceed, onNum, harg]

theorem powerCapRelease_under {s : State} {w : Nat} (harg : s.arg = .num w) : exec .powerCapRelease s =
    .next (if 100 * w < 95 * deviceCap s then mapDies (fun d => { d with lowered := d.lowered - 1 }) s else s) := by
  show execPowerCapRelease s = _
  rw [execPowerCapRelease, onNum, harg]

theorem eccUncorrectable_runs {s : State} {loc : EccLoc} (harg : s.arg = .ecc loc) : exec .eccUncorrectable s = .next (eccError loc s) := by
  show execEccUncorrectable s = _
  rw [execEccUncorrectable, harg]

/-- Settles O53: clause by clause, from what a start finds in the two slots, the settling of the dies, and the reset of a partition. -/
theorem startPowerAndMemoryErrors : Obligations.StartPowerAndMemoryErrors := by
  refine ⟨fun s e harg hrun => ⟨fun hrom => deviceStart_badRom harg hrun hrom, fun hrom ha hb => ?_, fun hrom hgood hlost => ?_,
      fun b x hrom hlost hb hgood hx => ?_⟩,
    fun s step tried e harg hs hrun => startTimeout_failed harg hs hrun,
    fun s hphase => ⟨fun h => ⟨_, startRetry_restarts hphase h, beginStart_starting s⟩, startRetry_minimal hphase⟩,
    fun s hphase => congrArg Host.Outcome.next (if_pos hphase), fun s port b harg => ?_, fun s => ⟨fun w harg => ?_, fun die harg hdie e he => ?_,
      ⟨_, rfl, ?_, resetParts_reset 0xF2 s.parts _⟩, rfl, rfl, rfl⟩, fun s loc harg => ?_⟩
  · exact deviceStart_noImage harg hrun hrom (not_good_slots ha hb _) (not_good_slots ha hb _)
  · rw [← clustersLost_eq] at hlost
    obtain ⟨b, hb, hg⟩ := exists_boot hgood
    obtain ⟨x, hx, -⟩ := id hg
    exact deviceStart_noCluster harg hrun hrom hb hg hx hlost
  · rw [← clustersLost_eq] at hlost ⊢
    exact ⟨_, deviceStart_completes harg hrun hrom hb hgood hx hlost, ⟨rfl, rfl, rfl, rfl⟩, rfl, rfl, rfl, rfl, rfl, rfl, rfl, rfl, rfl, rfl,
      rfl, completeStart_minVersion e b x s⟩
  · have h := configurationRequest_runs harg
    exact ⟨fun hb => h.trans (congrArg _ (if_neg (by simp [hb]))),
      fun hb => ⟨_, h.trans (congrArg _ (if_pos hb)), rfl, ⟨rfl, ⟨rfl, rfl, rfl⟩, ⟨rfl, rfl, rfl, rfl⟩, rfl⟩⟩⟩
  · refine ⟨fun h => ⟨_, (powerCapExceed_over harg).trans (congrArg _ (if_pos h)), mapDies_lowered (f := fun n => min 3 (n + 1)) s⟩,
      fun h => (powerCapExceed_over harg).trans (congrArg _ (if_neg (Nat.not_lt.mpr h))),
      fun h => ⟨_, (powerCapRelease_under harg).trans (congrArg _ (if_pos h)), mapDies_lowered (f := fun n => n - 1) s⟩,
      fun h => (powerCapRelease_under harg).trans (congrArg _ (if_neg (Nat.not_lt.mpr h)))⟩
  · have h (b : Bool) : Host.Outcome.next (onNum (holdDie b) s) = (.next (holdDie b die s) : Host.Outcome State Fault Refusal) := by
      rw [onNum, harg]
    simp only [List.mem_cons, List.not_mem_nil, or_false] at he
    obtain rfl | rfl := he
    · exact ⟨_, h true, holdDie_hold true die s⟩
    · exact ⟨_, h false, holdDie_hold false die s⟩
  · exact congrArg State.tripped (sansReset_overResets.resetParts 0xF2 s.parts { s with tripped := true })
  · have h := eccUncorrectable_runs harg
    refine ⟨?_, ?_, ?_, ?_, ?_, ?_, ?_⟩
    · rintro core r rfl
      exact ⟨_, h, ⟨rfl, rfl, rfl, rfl⟩, rfl, rfl⟩
    · rintro r rfl
      exact ⟨_, h, ⟨rfl, rfl, rfl, rfl⟩, rfl, findLine_dropLine r _⟩
    · rintro n g l rfl hg hl hone hlrun
      refine ⟨_, h, ?_⟩
      rw [eccError, hg]
      dsimp only
      rw [hl]
      exact launchError_ended hone hlrun
    · rintro n o g c l rfl hg hc hl hone
      exact ⟨_, h, cuffError_ended hg hc hl hone⟩
    · rintro n u l rfl rfl hone hlrun
      exact ⟨_, h, launchError_ended hone hlrun⟩
    · rintro part rfl
      exact ⟨_, h, resetPartition_reset 0xF0 part _⟩
    · rintro pa rfl
      exact ⟨_, h, hbmError_marks pa s⟩

end Sys2Proof.Machine
end

section
/-! PROOF. The mailbox: its words, the turn of a command, and what each command leaves (spec/16_host_partitions_monitors.md R320 to R328;
spec/20_faults_fabric_host_start.md R402). -/

namespace Sys2Proof.Machine

open Sys2Proof.Rules

/-! ### Words of a mailbox -/

theorem setAt_length {α : Type} (l : List α) (i : Nat) (v : α) : (setAt l i v).length = l.length := by
  rw [setAt_eq_set, List.length_set]

theorem portOf_mapPort {port : Nat} {f : Port → Port} {s : State} (h : port < s.ports.length) :
    portOf (mapPort port f s) port = f (portOf s port) := by
  show getAt Port.reset (setAt s.ports port (f (getAt Port.reset s.ports port))) port = _
  rw [getAt_eq_getD, setAt_eq_set, List.getD_eq_getElem?_getD, List.getElem?_set_self h]
  rfl

theorem mailBytes_eq (s : State) (port off n : Nat) :
    mailBytes s port off n = (List.range n).map fun i => memByte (portOf s port).mailbox (off + i) := by
  rw [mailBytes, countFrom_eq, List.map_map]
  rfl

/-- What was written into a mailbox is read there. -/
theorem mailBytes_writeMail {port off : Nat} {d : List Byte} {s : State} (h : port < s.ports.length) :
    mailBytes (writeMail port off d s) port off d.length = d := by
  rw [mailBytes_eq, writeMail, portOf_mapPort h]
  refine List.ext_getElem (by simp) fun i h1 h2 => ?_
  simp only [List.getElem_map, List.getElem_range, memByte_memWrite]
  rw [if_pos (by omega), Nat.add_sub_cancel_left, List.getD_eq_getElem _ _ h2]

/-- STATUS is the two bytes from offset 2. -/
theorem mailStatus_eq (s : State) (port : Nat) : mailStatus s port = leNat (mailBytes s port 2 2) := by
  have h (i : Nat) := (memByte (portOf s port).mailbox i).isLt
  have h0 := h 0
  have h1 := h 1
  have h2 := h 2
  have h3 := h 3
  simp only [mailStatus, mailWord, bits, mailBytes_eq, List.range_succ, List.range_zero, List.nil_append, List.cons_append, List.map_cons,
    List.map_nil, leNat, Nat.zero_add, Nat.reduceAdd]
  omega

theorem mailStatus_setStatus {port st : Nat} {s : State} (hp : port < s.ports.length) (hst : st < 2 ^ 16) :
    mailStatus (setStatus port st s) port = st := by
  have h := mailBytes_writeMail (off := 2) (d := leBytes 2 st) hp
  rw [length_leBytes] at h
  rw [mailStatus_eq, setStatus, h, leNat_leBytes (by omega)]

theorem port_of_status {s : State} {port : Nat} (h : mailStatus s port ≠ 0) : port < s.ports.length := by
  by_contra hn
  apply h
  have hport : portOf s port = Port.reset := by
    rw [portOf, getAt_eq_getD, List.getD_eq_getElem?_getD, List.getElem?_eq_none (Nat.le_of_not_lt hn)]
    rfl
  rw [mailStatus_eq, mailBytes_eq, hport]
  rfl

/-! ### The turn of a command -/

theorem served_eq {s : State} {op port : Nat} (hhead : s.posted.head? = some port) (hop : mailWord s port 0 % 256 = op) :
    served s op port = true := by
  simp [served, hhead, hop]

theorem not_served {s : State} {op port : Nat} (h : s.posted.head? ≠ some port) : served s op port = false := by
  simp [served, h]

theorem command_waits {op port : Nat} {f : Nat → State → Nat × State} {s : State} (h : s.posted.head? ≠ some port) :
    command op port f s = s := by
  rw [command, not_served h]
  rfl

theorem command_ends {op port : Nat} {f : Nat → State → Nat × State} {s : State} (hhead : s.posted.head? = some port)
    (hop : mailWord s port 0 % 256 = op) (hst : mailStatus s port = 2) :
    command op port f s = ended port (f (bits (mailWord s port 0) 8 8) s).1 (f (bits (mailWord s port 0) 8 8) s).2 := by
  rw [command, served_eq hhead hop, hst]
  rfl

section
variable {s : State} {op port part : Nat}

theorem command_busy {f : Nat → State → Nat × State} (h : Posted 1 s op port part) : command op port f s = setStatus port 2 s := by
  rw [command, served_eq h.first h.op, h.status]
  rfl

theorem command_runs {f : Nat → State → Nat × State} (h : Posted 2 s op port part) :
    command op port f s = ended port (f part s).1 (f part s).2 := by
  rw [command_ends h.first h.op h.status, h.part]

theorem notRun_started (hphase : s.startup.phase = .started) : notRun s port = !knownOp (mailWord s port 0 % 256) := by
  rw [notRun, hphase]
  rfl

theorem runCommand_known {f : Nat → State → Nat × State} {st : Nat} (h : Posted st s op port part) (hop : knownOp op = true) :
    runCommand op port f s = command op port f s := by
  rw [runCommand, notRun_started h.started, h.op, hop]
  rfl

theorem runCommand_waits {f : Nat → State → Nat × State} (h : s.posted.head? ≠ some port) : runCommand op port f s = s := by
  unfold runCommand
  split
  · exact command_waits h
  · exact command_waits h

theorem runCommand_runs {f : Nat → State → Nat × State} (h : Posted 2 s op port part) (hop : knownOp op = true) :
    runCommand op port f s = ended port (f part s).1 (f part s).2 := (runCommand_known h hop).trans (command_runs h)

/-- A command that minimal mode does not run (R402). -/
theorem runCommand_minimal {f : Nat → State → Nat × State} {o : Nat} (hphase : s.startup.phase = .minimal)
    (hhead : s.posted.head? = some port) (hst : mailStatus s port = 2) (hop : minimalOp (mailWord s port 0 % 256) = false) :
    runCommand o port f s = ended port 0x12 s := by
  have h : notRun s port = true := by rw [notRun, hphase]; simp [hop]
  rw [runCommand, h, if_pos rfl, refuseCommand, command_ends hhead rfl hst, hphase]
  rfl

theorem runCommand_unknown {f : Nat → State → Nat × State} {o st : Nat} (h : Posted st s op port part) (hop : knownOp op = false) :
    runCommand o port f s = command op port (fun _ s => (if s.startup.phase = .minimal then 0x12 else 0x10, s)) s := by
  rw [runCommand, notRun_started h.started, h.op, hop, refuseCommand, h.op]
  rfl

end

theorem mailStatus_ended {s u : State} {op port part st : Nat} (h : Posted 2 s op port part) (hu : u.ports.length = s.ports.length)
    (hst : st < 2 ^ 16) : mailStatus (ended port st u) port = st := by
  have hp : port < s.ports.length := port_of_status (by rw [h.status]; decide)
  exact mailStatus_setStatus (s := { u with posted := u.posted.tail }) (hu ▸ hp) hst

/-! ### The steps that run commands -/

/-- A step passes a command on to the system controller. -/
def RunsCommand (s : State) (op port : Nat) (i : Instr) : Prop :=
  ∃ f, exec i s = .next (runCommand op port f s) ∨ exec i s = .next (command op port f s)

theorem RunsCommand.waits {s : State} {op port : Nat} {i : Instr} (h : RunsCommand s op port i) (hhead : s.posted.head? ≠ some port) :
    exec i s = .next s := by
  obtain ⟨f, h | h⟩ := h
  · exact h.trans (congrArg _ (runCommand_waits hhead))
  · exact h.trans (congrArg _ (command_waits hhead))

theorem RunsCommand.busy {s : State} {op port part : Nat} {i : Instr} (h : RunsCommand s op port i) (hp : Posted 1 s op port part)
    (hop : knownOp op = true) : exec i s = .next (setStatus port 2 s) := by
  obtain ⟨f, h | h⟩ := h
  · exact h.trans (congrArg _ ((runCommand_known hp hop).trans (command_busy hp)))
  · exact h.trans (congrArg _ (command_busy hp))

section
variable {s : State} {port : Nat} (harg : s.arg = .num port)
include harg

theorem onNum_runs (f : Nat → State → State) : onNum f s = f port s := by rw [onNum, harg]

theorem destroy_runs : exec .destroy s = .next (runCommand 2 port (destroyPart port) s) := congrArg _ (onNum_runs harg _)

theorem reset_runs : exec .reset s = .next (runCommand 3 port (fun part s =>
    if boundTo s port part then (0, resetPartition 0xF0 part s) else (0x11, s)) s) := congrArg _ (onNum_runs harg _)

theorem query_runs : exec .query s = .next (runCommand 4 port (fun part s =>
    if boundTo s port part then (0, writeMail port 8 (partOf s part).record s) else (0x11, s)) s) := congrArg _ (onNum_runs harg _)

theorem attest_runs : exec .attest s = .next (command 5 port (attestPart port) s) := congrArg _ (onNum_runs harg _)

theorem powercap_runs : exec .powercap s = .next (runCommand 6 port (fun _ s =>
    let w := mailWord s port 8
    if 600 ≤ w ∧ w ≤ 2400 then (0, mapPort port (fun p => { p with powerCap := w }) s) else (0x12, s)) s) := congrArg _ (onNum_runs harg _)

theorem startrec_runs : exec .startrec s = .next (command 8 port (fun _ s =>
    (0, writeMail port 8 (s.startup.record.flatMap fun w => leBytes 8 w.toNat) s)) s) := congrArg _ (onNum_runs harg _)

/-- RESTART once its command is busy: the command ends, and the device starts anew. -/
def restarted (port : Nat) (s : State) : State :=
  let u := command 9 port (fun _ s => (0, s)) s
  let u := if (mailWord s port 8).testBit 0 then { u with startup := { u.startup with count := 0 } } else u
  beginStart (if u.startup.phase = .minimal then u else resetParts 0xF0 u.parts u)

theorem restart_runs : exec .restart s = .next (if served s 9 port && mailStatus s port == 2 then restarted port s
    else command 9 port (fun _ s => (0, s)) s) := congrArg _ (onNum_runs harg _)

theorem stage_runs : exec .stage s = .next (askImage port s) := by
  show execStage s = _
  rw [execStage, harg]

end

theorem create_runs {s : State} {port : Nat} {members : List Nat} (harg : s.arg = .create port members) :
    exec .create s = .next (runCommand 1 port (createPart port members) s) := by
  show execCreate s = _
  rw [execCreate, harg]

theorem stageImage_runs {s : State} {port : Nat} {image : FwImage} (harg : s.arg = .stage port image) :
    exec .stage s = .next (if mailStatus s port = 2 then command 7 port (fun _ s => stageImage image s) s else s) := by
  show execStage s = _
  rw [execStage, harg]

/-- R320: a command waits for its turn, and is busy before it runs; STAGE asks its host for the image first. -/
theorem commands_wait (s : State) (port part op : Nat) (i : Instr) (members : List Nat) (image : FwImage)
    (h : (op, i) ∈ [(2, Instr.destroy), (3, .reset), (4, .query), (5, .attest), (6, .powercap), (7, .stage), (8, .startrec), (9, .restart)] ∧
        s.arg = .num port ∨ (op, i) = (1, .create) ∧ s.arg = .create port members ∨ (op, i) = (7, .stage) ∧ s.arg = .stage port image) :
    (s.posted.head? ≠ some port → exec i s = .next s) ∧
      (Posted 1 s op port part → exec i s = .next (
        if i ≠ .stage then setStatus port 2 s
        else if s.arg = .num port then
          let u := setStatus port 2 s
          { u with outbox := u.outbox ++ [.imageRead port (BitVec.ofNat 64 (mailWord s port 8))] }
        else s)) := by
  have plain (hr : RunsCommand s op port i) (hop : knownOp op = true) (hi : i ≠ .stage) :
      (s.posted.head? ≠ some port → exec i s = .next s) ∧ (Posted 1 s op port part → exec i s = .next (
        if i ≠ .stage then setStatus port 2 s
        else if s.arg = .num port then
          let u := setStatus port 2 s
          { u with outbox := u.outbox ++ [.imageRead port (BitVec.ofNat 64 (mailWord s port 8))] }
        else s)) :=
    ⟨hr.waits, fun hp => (hr.busy hp hop).trans (congrArg _ (if_pos hi).symm)⟩
  obtain ⟨hop, harg⟩ | ⟨hop, harg⟩ | ⟨hop, harg⟩ := h
  · simp only [List.mem_cons, Prod.mk.injEq, List.not_mem_nil, or_false] at hop
    obtain ⟨rfl, rfl⟩ | ⟨rfl, rfl⟩ | ⟨rfl, rfl⟩ | ⟨rfl, rfl⟩ | ⟨rfl, rfl⟩ | ⟨rfl, rfl⟩ | ⟨rfl, rfl⟩ | ⟨rfl, rfl⟩ := hop
    · exact plain ⟨_, .inl (destroy_runs harg)⟩ rfl (by decide)
    · exact plain ⟨_, .inl (reset_runs harg)⟩ rfl (by decide)
    · exact plain ⟨_, .inl (query_runs harg)⟩ rfl (by decide)
    · exact plain ⟨_, .inr (attest_runs harg)⟩ rfl (by decide)
    · exact plain ⟨_, .inl (powercap_runs harg)⟩ rfl (by decide)
    · rw [stage_runs harg, askImage]
      refine ⟨fun hhead => ?_, fun hp => ?_⟩
      · split
        · exact congrArg _ (command_waits hhead)
        · rw [not_served hhead]; rfl
      · have hup : (portOf s port).down = false := by
          have hs := hp.serves
          simp only [portServes, Bool.and_eq_true, Bool.not_eq_true'] at hs
          exact hs.1.1.2
        rw [hup, served_eq hp.first hp.op, hp.status, if_neg (not_not_intro rfl), if_pos harg]
        rfl
    · exact plain ⟨_, .inr (startrec_runs harg)⟩ rfl (by decide)
    · refine ⟨fun hhead => (restart_runs harg).trans ?_, fun hp => (restart_runs harg).trans ?_⟩
      · rw [not_served hhead, command_waits hhead]; rfl
      · rw [hp.status, command_busy hp, Bool.and_comm]; rfl
  · obtain ⟨rfl, rfl⟩ := Prod.mk.inj hop
    exact plain ⟨_, .inl (create_runs harg)⟩ rfl (by decide)
  · obtain ⟨rfl, rfl⟩ := Prod.mk.inj hop
    have hnum : s.arg ≠ .num port := by rw [harg]; exact fun h => nomatch h
    refine ⟨fun hhead => (stageImage_runs harg).trans ?_, fun hp => (stageImage_runs harg).trans ?_⟩
    · rw [command_waits hhead, ite_self]
    · rw [if_neg (by rw [hp.status]; decide), if_neg (not_not_intro rfl), if_neg hnum]

/-- R320, R402: a command that names no operation, or one that minimal mode does not run; STAGE over a lost link. -/
theorem commands_refused (s : State) (port part op : Nat) (harg : s.arg = .num port) :
    (op ∉ [1, 2, 3, 4, 5, 6, 7, 8, 9] → (Posted 1 s op port part → exec .query s = .next (setStatus port 2 s)) ∧
      (Posted 2 s op port part → exec .query s = .next (ended port 0x10 s))) ∧
    (s.startup.phase = .minimal → s.posted.head? = some port → mailStatus s port = 2 → mailWord s port 0 % 256 = op →
      op ∉ [5, 7, 8, 9] → ∀ i ∈ [Instr.destroy, .reset, .query, .powercap], exec i s = .next (ended port 0x12 s)) ∧
    (mailWord s port 0 % 256 = 7 → s.posted.head? = some port → mailStatus s port = 2 → (portOf s port).down = true →
      exec .stage s = .next (ended port 0x13 s)) := by
  refine ⟨fun hop => ?_, fun hphase hhead hst hop hnot i hi => ?_, fun hop hhead hst hdown => ?_⟩
  · have hunknown : knownOp op = false := by
      simp only [List.mem_cons, List.not_mem_nil, or_false, not_or] at hop
      simp only [knownOp, decide_eq_false_iff_not]
      omega
    refine ⟨fun hp => (query_runs harg).trans (congrArg _ ?_), fun hp => (query_runs harg).trans (congrArg _ ?_)⟩
    · rw [runCommand_unknown hp hunknown, command_busy hp]
    · rw [runCommand_unknown hp hunknown, command_runs hp, hp.started]
      rfl
  · have hminimal : minimalOp (mailWord s port 0 % 256) = false := by
      rw [hop]
      simpa [minimalOp] using hnot
    simp only [List.mem_cons, List.not_mem_nil, or_false] at hi
    obtain rfl | rfl | rfl | rfl := hi
    · exact (destroy_runs harg).trans (congrArg _ (runCommand_minimal hphase hhead hst hminimal))
    · exact (reset_runs harg).trans (congrArg _ (runCommand_minimal hphase hhead hst hminimal))
    · exact (query_runs harg).trans (congrArg _ (runCommand_minimal hphase hhead hst hminimal))
    · exact (powercap_runs harg).trans (congrArg _ (runCommand_minimal hphase hhead hst hminimal))
  · rw [stage_runs harg, askImage, hdown, if_pos rfl, command_ends hhead hop hst]

theorem create_minimal (s : State) (port op : Nat) (members : List Nat) (harg : s.arg = .create port members)
    (hphase : s.startup.phase = .minimal) (hhead : s.posted.head? = some port) (hst : mailStatus s port = 2)
    (hop : mailWord s port 0 % 256 = op) (hnot : op ∉ [5, 7, 8, 9]) : exec .create s = .next (ended port 0x12 s) := by
  refine (create_runs harg).trans (congrArg _ (runCommand_minimal hphase hhead hst ?_))
  rw [hop]
  simpa [minimalOp] using hnot

/-! ### CREATE (R321) -/

theorem recWord_mailBytes (s : State) (port : Nat) {j : Nat} (h : j < 16) :
    recWord (mailBytes s port 8 128) j = mailWord s port (8 + 8 * j) := by
  rw [recWord, mailWord, mailBytes_eq, mailBytes_eq]
  congr 1
  refine List.ext_getElem (by simp; omega) fun i h1 h2 => ?_
  simp [Nat.add_assoc]

theorem mailWord_lt (s : State) (port off : Nat) : mailWord s port off < 2 ^ 64 := by
  have h := leNat_lt (mailBytes s port off 8)
  rwa [mailBytes_eq, List.length_map, List.length_range, ← mailBytes_eq] at h

theorem recUnits_mailBytes (s : State) (port : Nat) : (recUnits (mailBytes s port 8 128)).toNat = leNat (mailBytes s port 16 48) := by
  have hb : ((mailBytes s port 8 128).drop 8).take 48 = mailBytes s port 16 48 := by
    rw [mailBytes_eq, mailBytes_eq]
    refine List.ext_getElem (by simp) fun i h1 h2 => ?_
    simp only [List.getElem_take, List.getElem_drop, List.getElem_map, List.getElem_range]
    rw [show 8 + (8 + i) = 16 + i by omega]
  have hlt := leNat_lt (mailBytes s port 16 48)
  rw [show 8 * (mailBytes s port 16 48).length = 384 by simp [mailBytes_eq]] at hlt
  rw [recUnits, hb, BitVec.toNat_ofNat]
  exact Nat.mod_eq_of_lt hlt

theorem recordBits_eq (s : State) (port lo n : Nat) {j : Nat} (h : j < 16) :
    bits (recWord (mailBytes s port 8 128) j) lo n = recordBits s port j lo n := by
  rw [recWord_mailBytes s port h]
  rfl

theorem roomForRemote_mem (part : Nat) (s : State) : (roomForRemote part s).mem = s.mem := by
  have room (n slice : Nat) : Keeps State.mem (makeRoom n slice) := fun s =>
    Keeps.foldl (f := fun s r => if sliceFill s slice + n ≤ Config.sliceLines then s else evictOne s r)
      (fun r s => by dsimp only; split <;> rfl) _ s
  unfold roomForRemote
  dsimp only
  split
  · rfl
  · exact Keeps.foldl (f := fun s n => makeRoom 0 n s) (room 0) _ s

section
variable {s : State} {port part : Nat} {members : List Nat}

theorem create_ends (harg : s.arg = .create port members) (h : Posted 2 s 1 port part) :
    exec .create s = .next (ended port (createPart port members part s).1 (createPart port members part s).2) :=
  (create_runs harg).trans (congrArg _ (runCommand_runs h rfl))

theorem createPart_new (h : CanCreate s port part) : createPart port members part s =
    (0, roomForRemote part { changeMode s with parts := s.parts ++ [partOfRecord part port members (mailBytes s port 8 128)] }) := by
  obtain ⟨hfields, ⟨hnew, hlt, htrip⟩, hfits⟩ := h
  simp only [createPart, hfields, hnew, htrip, hfits]
  rw [if_neg (by decide), if_neg (by decide), if_neg]
  simpa using hlt

theorem createPart_refused :
    (recReserved (mailBytes s port 8 128) = false → createPart port members part s = (0x10, s)) ∧
      (recReserved (mailBytes s port 8 128) = true → hasPart s part = true → createPart port members part s = (0x11, s)) ∧
      (recReserved (mailBytes s port 8 128) = true → hasPart s part = false →
        8 ≤ part ∨ s.tripped = true ∨ recFits s port (mailBytes s port 8 128) = false → createPart port members part s = (0x12, s)) := by
  refine ⟨fun h => ?_, fun h hp => ?_, fun h hp hn => ?_⟩
  · simp only [createPart, h]
    rfl
  · simp only [createPart, h, hp]
    rfl
  · simp only [createPart, h, hp]
    rw [if_neg (by decide), if_neg (by decide), if_pos]
    simpa using hn

end

/-! ### DESTROY, RESET, QUERY and ATTEST (R324, R328) -/

section
variable {s : State} {port part : Nat} (hhas : hasPart s part = true) (hport : (partOf s part).port = port)
include hhas hport

theorem boundTo_own : boundTo s port part = true := by simp [boundTo, hhas, hport]

theorem destroyPart_own : destroyPart port part s = (0,
    let u := resetPartition 0xF0 part s
    { u with
      parts := u.parts.filter fun q => q.id != part
      launches := u.launches.filter fun l => l.part != part
      ports := u.ports.map fun p => { p with decoders := setAt p.decoders part none }
      outDirs := u.outDirs.filter fun d => d.ref.part != part }) := by
  rw [destroyPart, boundTo_own hhas hport]
  rfl

end

theorem boundTo_none {s : State} {port part : Nat} (h : hasPart s part = false) : boundTo s port part = false := by simp [boundTo, h]

theorem hasPart_filter (l : List Partition) (part : Nat) : ((l.filter fun q => q.id != part).any fun q => q.id == part) = false := by
  simp

theorem hasPart_iff {s : State} {part : Nat} : hasPart s part = true ↔ part ∈ s.partIds := by
  simp [hasPart, State.partIds]

theorem ports_resetPartition (cause : BitVec 8) (part : Nat) (s : State) : (resetPartition cause part s).ports = s.ports :=
  (congrArg State.ports (sansReset_overResets.resetPartition cause part s) :)

/-- Step 4 of DESTROY: what the partition held is free. -/
def freedPart (part : Nat) (s : State) : State :=
  { s with
    parts := s.parts.filter fun q => q.id != part
    launches := s.launches.filter fun l => l.part != part
    ports := s.ports.map fun p => { p with decoders := setAt p.decoders part none }
    outDirs := s.outDirs.filter fun d => d.ref.part != part }

theorem fades_freedPart (part : Nat) (s : State) : Fades part s (freedPart part s) :=
  { Fades.refl part s with
    launches := fun x hx e => ⟨x, (List.mem_filter.mp hx).1, rfl, e, id⟩
    parts := fun r hr e => ⟨r, (List.mem_filter.mp hr).1, e, id⟩ }

theorem fades_ended (part port st : Nat) (s : State) : Fades part s (ended port st s) := .of_eq

section
variable {s : State} {port part : Nat} (harg : s.arg = .num port) (hhas : hasPart s part = true) (hport : (partOf s part).port = port)
include harg hhas hport

theorem destroy_ends (h : Posted 2 s 2 port part) :
    exec .destroy s = .next (ended port 0 (freedPart part (resetPartition 0xF0 part s))) := by
  rw [destroy_runs harg, runCommand_runs h rfl, destroyPart, boundTo_own hhas hport]
  rfl

theorem destroy_frees (h : Posted 2 s 2 port part) : ∃ t, exec .destroy s = .next t ∧ mailStatus t port = 0 ∧ hasPart t part = false ∧
    PartReset part t ∧ ∀ l ∈ t.launches, l.part ≠ part := by
  refine ⟨_, destroy_ends harg hhas hport h, mailStatus_ended h ?_ (by decide), hasPart_filter _ part,
    partReset_fades (resetPartition_reset 0xF0 part s) ((fades_freedPart part _).trans (fades_ended part port 0 _)), fun l hl => ?_⟩
  · rw [freedPart, List.length_map, ports_resetPartition]
  · simpa using (List.mem_filter.mp hl).2

theorem reset_resets (h : Posted 2 s 3 port part) : ∃ t, exec .reset s = .next t ∧ mailStatus t port = 0 ∧ hasPart t part = true ∧
    PartReset part t := by
  have hends : exec .reset s = .next (ended port 0 (resetPartition 0xF0 part s)) := by
    rw [reset_runs harg, runCommand_runs h rfl, boundTo_own hhas hport]
    rfl
  refine ⟨_, hends, mailStatus_ended h (by rw [ports_resetPartition]) (by decide), ?_,
    partReset_fades (resetPartition_reset 0xF0 part s) (fades_ended part port 0 _)⟩
  have hids : (resetPartition 0xF0 part s).partIds = s.partIds := partIds_overResets.resetPartition 0xF0 part s
  exact hasPart_iff.mpr (hids ▸ hasPart_iff.mp hhas)

theorem query_ends (h : Posted 2 s 4 port part) :
    exec .query s = .next (ended port 0 (writeMail port 8 (partOf s part).record s)) := by
  rw [query_runs harg, runCommand_runs h rfl, boundTo_own hhas hport]
  rfl

end

theorem none_bound {s : State} {port part : Nat} (harg : s.arg = .num port) (hhas : hasPart s part = false) :
    (Posted 2 s 2 port part → exec .destroy s = .next (ended port 0x11 s)) ∧
      (Posted 2 s 3 port part → exec .reset s = .next (ended port 0x11 s)) ∧
      (Posted 2 s 4 port part → exec .query s = .next (ended port 0x11 s)) ∧
      (Posted 2 s 5 port part → exec .attest s = .next (ended port 0x11 s)) := by
  have hb := boundTo_none (port := port) hhas
  refine ⟨fun h => ?_, fun h => ?_, fun h => ?_, fun h => ?_⟩
  · rw [destroy_runs harg, runCommand_runs h rfl, destroyPart, hb]
    rfl
  · rw [reset_runs harg, runCommand_runs h rfl, hb]
    rfl
  · rw [query_runs harg, runCommand_runs h rfl, hb]
    rfl
  · rw [attest_runs harg, command_runs h, attestPart, h.started, hb]
    rfl

/-! ### Attestation -/

theorem octets_eq (n x : Nat) : octets n x = (List.range n).map fun i => BitVec.ofNat 8 (x / 256 ^ (n - 1 - i)) := by
  induction n generalizing x with
  | zero => rfl
  | succ n ih =>
    rw [octets, ih, List.range_succ, List.map_append, List.map_singleton, Nat.add_sub_cancel, Nat.sub_self, Nat.pow_zero, Nat.div_one]
    congr 1
    refine List.map_congr_left fun i hi => ?_
    have hlt := List.mem_range.mp hi
    rw [Nat.div_div_eq_div_mul, ← Nat.pow_succ', show (n - 1 - i).succ = n - i by omega]

theorem length_octets (n x : Nat) : (octets n x).length = n := by rw [octets_eq, List.length_map, List.length_range]

/-- The octets of a word are its bytes, the most significant first. -/
theorem octets_toNat {w n : Nat} (d : BitVec w) : octets n d.toNat = (List.range n).map fun i => d.extractLsb' (8 * (n - 1 - i)) 8 := by
  rw [octets_eq]
  refine List.map_congr_left fun i _ => ?_
  apply BitVec.eq_of_toNat_eq
  rw [BitVec.toNat_ofNat, BitVec.extractLsb'_toNat, Nat.shiftRight_eq_div_pow, Nat.pow_mul]

theorem octets_digest (d : BitVec 384) : octets 48 d.toNat = digestBytes d := octets_toNat d

theorem length_attestBody (s : State) (port part : Nat) : (attestBody s part (mailBytes s port 8 48)).length = 256 := by
  simp only [attestBody, List.length_append, length_octets, length_leBytes, List.length_replicate, mailBytes_eq, List.length_map,
    List.length_range]

theorem length_signature (s : State) (d : List Byte) : (signature s d).length = 96 := length_octets 96 _

theorem take_attestBody (s : State) (port part : Nat) (hphase : s.startup.phase = .started) (l : List Byte) :
    (attestBody s part (mailBytes s port 8 48) ++ l).take 192 = mailBytes s port 8 48 ++ digestBytes (sha384 Config.romImage) ++
      digestBytes s.startup.digest ++ digestBytes (sha384 (partOf s part).record) := by
  have hdigest : firmwareDigest s = s.startup.digest := by rw [firmwareDigest, hphase]; rfl
  rw [attestBody, List.append_assoc, List.append_assoc, List.append_assoc, hdigest, octets_digest, octets_digest, octets_digest]
  refine List.take_left' ?_
  simp only [List.length_append, digestBytes, mailBytes_eq, List.length_map, List.length_range]

theorem attest_answers {s : State} {port part : Nat} (harg : s.arg = .num port) (hhas : hasPart s part = true)
    (hport : (partOf s part).port = port) (h : Posted 2 s 5 port part) (hto : mailWord s port 56 % 128 = 0) :
    ∃ t data, exec .attest s = .next t ∧ Quiet s t ∧ mailStatus t port = 0 ∧
      t.outbox = s.outbox ++ [.hostWrite port (BitVec.ofNat 64 (mailWord s port 56)) data] ∧ data.length = 352 ∧
      data.take 192 = mailBytes s port 8 48 ++ digestBytes (sha384 Config.romImage) ++ digestBytes s.startup.digest ++
        digestBytes (sha384 (partOf s part).record) := by
  have hends : exec .attest s = .next (ended port 0 (countSignature (reply (.hostWrite port (BitVec.ofNat 64 (mailWord s port 56))
      (attestBody s part (mailBytes s port 8 48) ++ signature s (attestBody s part (mailBytes s port 8 48)))) s))) := by
    rw [attest_runs harg, command_runs h, attestPart, boundTo_own hhas hport, h.started]
    dsimp only
    rw [if_neg (by decide), if_neg (not_not_intro hto)]
  refine ⟨_, _, hends, ⟨rfl, rfl, rfl, rfl⟩, mailStatus_ended h rfl (by decide), rfl, ?_, take_attestBody s port part h.started _⟩
  rw [List.length_append, length_attestBody, length_signature]

/-! ### POWERCAP, STAGE, STARTREC and RESTART (R327, R329, R401) -/

theorem mapPort_of {s : State} {port : Nat} {p : Port} (h : s.ports[port]? = some p) (f : Port → Port) :
    mapPort port f s = { s with ports := s.ports.set port (f p) } := by
  rw [mapPort, setAt_eq_set, getAt_eq_getD, List.getD_eq_getElem?_getD, h]
  rfl

theorem powercap_ends {s : State} {port part : Nat} (harg : s.arg = .num port) (h : Posted 2 s 6 port part) {p : Port}
    (hp : s.ports[port]? = some p) : exec .powercap s = .next (if 600 ≤ mailWord s port 8 ∧ mailWord s port 8 ≤ 2400
      then ended port 0 { s with ports := s.ports.set port { p with powerCap := mailWord s port 8 } } else ended port 0x12 s) := by
  rw [powercap_runs harg, runCommand_runs h rfl]
  dsimp only
  rw [mapPort_of hp]
  split <;> rfl

theorem stage_ends {s : State} {port part : Nat} {image : FwImage} (harg : s.arg = .stage port image) (h : Posted 2 s 7 port part) :
    exec .stage s = .next (
      if verified s.startup image = true ∧ s.startup.minVersion.toNat ≤ image.version.toNat then ended port 0 { s with
        startup := if s.startup.boot = 1 then { s.startup with slotB := some image, first := 2 }
          else { s.startup with slotA := some image, first := 1 } }
      else ended port 0x13 s) := by
  rw [stageImage_runs harg, if_pos h.status, command_runs h]
  dsimp only
  rw [stageImage]
  by_cases hv : verified s.startup image = true ∧ s.startup.minVersion.toNat ≤ image.version.toNat
  · rw [if_pos hv, if_neg (by simpa [hv.1] using hv.2)]
  · rw [if_neg hv, if_pos]
    by_cases hs : verified s.startup image = true
    · simp only [hs, true_and, Nat.not_le] at hv
      simp [hv]
    · simp [hs]

theorem restart_starts {s : State} {port part : Nat} (harg : s.arg = .num port) (h : Posted 2 s 9 port part) (hparts : s.parts = []) :
    ∃ t, exec .restart s = .next t ∧ t.startup.phase = .running ∧ t.startup.step = 1 ∧
      t.startup.count = (if (mailWord s port 8).testBit 0 then 0 else s.startup.count) ∧ t.startup.slotA = s.startup.slotA ∧
      t.startup.slotB = s.startup.slotB ∧ t.launches = [] ∧ t.gangs = [] ∧ t.p = Split.vacant ∧ t.mem = s.mem := by
  have hruns : exec .restart s = .next (restarted port s) := by
    rw [restart_runs harg, served_eq h.first h.op, h.status]
    rfl
  have hrestarted : restarted port s = beginStart (if (mailWord s port 8).testBit 0 then
      { ended port 0 s with startup := { s.startup with count := 0 } } else ended port 0 s) := by
    rw [restarted, command_runs h]
    dsimp only
    by_cases hbit : (mailWord s port 8).testBit 0 = true
    · rw [if_pos hbit, if_pos hbit]
      show beginStart (if s.startup.phase = _ then _ else resetParts 0xF0 s.parts _) = _
      rw [hparts, h.started]
      rfl
    · rw [if_neg hbit, if_neg hbit]
      show beginStart (if s.startup.phase = _ then _ else resetParts 0xF0 s.parts _) = _
      rw [hparts, h.started]
      rfl
  rw [hrestarted] at hruns
  refine ⟨_, hruns, rfl, rfl, ?_, ?_, ?_, rfl, rfl, rfl, ?_⟩
  · show (if _ then _ else _ : State).startup.count = _
    split <;> rfl
  · show (if _ then _ else _ : State).startup.slotA = _
    split <;> rfl
  · show (if _ then _ else _ : State).startup.slotB = _
    split <;> rfl
  · show (if _ then _ else _ : State).mem = _
    split <;> rfl

end Sys2Proof.Machine
end

section
/-! PROOF. The registers that a host reads and writes, and the messages of the identity (spec/06_coherence_fabric.md R149, R150;
spec/16_host_partitions_monitors.md R319, R322, R328, R331; spec/17_fault_architecture.md R345). -/

namespace Sys2Proof.Machine

open Sys2Proof.Rules

/-! ### Words of BAR 0 -/

theorem barTarget_mailbox {off : Nat} (h8 : off % 8 = 0) (h : off < 256) : barTarget off = some (.mailbox off) := by
  rw [barTarget, if_neg (not_not_intro h8), if_pos h]

/-- The word at an offset of the window of a partition. -/
theorem barTarget_window {part a : Nat} (hp : part < 8) (ha : a < 0x100000) (h8 : a % 8 = 0) : barTarget (windowAt part a) =
    if 0x10000 ≤ a ∧ a < 0x11000 ∧ windowControl ((a - 0x10000) / 8) then some (.control part ((a - 0x10000) / 8))
    else if windowSpace a then some (.space part a) else none := by
  have hpart : windowAt part a / 0x100000 - 1 = part := by unfold windowAt; omega
  have hat : windowAt part a % 0x100000 = a := by unfold windowAt; omega
  have h8' : windowAt part a % 8 = 0 := by unfold windowAt; omega
  have h1 : ¬ windowAt part a < 256 := by unfold windowAt; omega
  have h2 : ¬ (windowAt part a = 0x20000 ∨ windowAt part a = 0x20008) := by unfold windowAt; omega
  have h3 : ¬ (windowAt part a < 0x100000 ∨ 0x900000 ≤ windowAt part a) := by unfold windowAt; omega
  rw [barTarget, if_neg (not_not_intro h8'), if_neg h1, if_neg h2, if_neg h3, hpart, hat]

theorem barTarget_control {part n : Nat} (hp : part < 8) (hn : windowControl n = true) :
    barTarget (windowAt part (0x10000 + 8 * n)) = some (.control part n) := by
  have hlt : n < 0x200 := by
    simp only [windowControl, decide_eq_true_eq] at hn
    omega
  have hat : (0x10000 + 8 * n - 0x10000) / 8 = n := by omega
  rw [barTarget_window hp (by omega) (by omega), hat, if_pos ⟨by omega, by omega, hn⟩]

theorem barTarget_space {part a : Nat} (hp : part < 8) (h8 : a % 8 = 0) (ha : windowSpace a = true) :
    barTarget (windowAt part a) = some (.space part a) := by
  have hlt : 0x30000 ≤ a ∧ a < 0x40400 := by
    simp only [windowSpace, decide_eq_true_eq] at ha
    omega
  rw [barTarget_window hp (by omega) h8, if_neg (by omega), if_pos ha]

section
variable {s : State} {port : Nat} (hserves : portServes s port = true)
include hserves

theorem barAt_mailbox {off : Nat} (h8 : off % 8 = 0) (h : off < 256) : barAt s port off = some (.mailbox off) := by
  rw [barAt, barTarget_mailbox h8 h]
  exact if_pos hserves

theorem barAt_control {part n : Nat} (hb : boundTo s port part = true) (hp : part < 8) (hn : windowControl n = true) :
    barAt s port (windowAt part (0x10000 + 8 * n)) = some (.control part n) := by
  rw [barAt, barTarget_control hp hn]
  exact if_pos (by rw [barReaches, hserves, hb]; rfl)

theorem barAt_space {part a : Nat} (hb : boundTo s port part = true) (hp : part < 8) (h8 : a % 8 = 0) (ha : windowSpace a = true) :
    barAt s port (windowAt part a) = some (.space part a) := by
  rw [barAt, barTarget_space hp h8 ha]
  exact if_pos (by rw [barReaches, hserves, hb]; rfl)

end

theorem barAt_unbound {s : State} {port part a : Nat} (hb : boundTo s port part = false) (hp : part < 8) (h8 : a % 8 = 0)
    (ha : windowSpace a = true) : barAt s port (windowAt part a) = none := by
  rw [barAt, barTarget_space hp h8 ha]
  exact if_neg (by rw [barReaches, hb, Bool.and_false]; decide)

/-! ### Reads and writes of them -/

theorem hostStore_at {s : State} {port off : Nat} {v : Word} {b : BarTarget} (harg : s.arg = .bar port off (some v))
    (hb : barAt s port off = some b) : hostStore (barStep b) s = barWrite port v s b := by
  rw [hostStore, harg]
  dsimp only
  rw [hb]
  exact if_pos rfl

theorem registerWrite_at {s : State} {port off : Nat} {v : Word} {b : BarTarget} (harg : s.arg = .bar port off (some v))
    (hb : barAt s port off = some b) (hstep : barStep b = .registerWrite) : exec .registerWrite s = .next (barWrite port v s b) := by
  show execRegisterWrite s = _
  rw [execRegisterWrite, harg]
  exact congrArg _ (hstep ▸ hostStore_at harg hb)

theorem registerWrite_reads {s : State} {port off : Nat} {b : BarTarget} (harg : s.arg = .bar port off none)
    (hb : barAt s port off = some b) : exec .registerWrite s = .next (reply (.barData port off (barRead s port b)) s) := by
  show execRegisterWrite s = _
  rw [execRegisterWrite, harg]
  dsimp only
  rw [hostLoad, hb]

theorem registerWrite_unsupported {s : State} {port off : Nat} {v : Option Word} (harg : s.arg = .bar port off v)
    (hb : barAt s port off = none) : exec .registerWrite s = .next (reply (.hostUnsupported port) s) := by
  show execRegisterWrite s = _
  rw [execRegisterWrite, harg]
  cases v with
  | none =>
    dsimp only
    rw [hostLoad, hb]
  | some v =>
    dsimp only
    rw [hostStore, harg]
    dsimp only
    rw [hb]
    rfl

/-! ### The mailbox -/

theorem mailWord_writeMail {s : State} {port off : Nat} (h : port < s.ports.length) (v : Word) :
    mailWord (writeMail port off (leBytes 8 v.toNat) s) port off = v.toNat := by
  have hb := mailBytes_writeMail (off := off) (d := leBytes 8 v.toNat) h
  rw [length_leBytes] at hb
  rw [mailWord, hb, leNat_leBytes (Nat.lt_of_lt_of_le v.isLt (by decide))]

section
variable {s : State} {port : Nat} {v : Word} (hserves : portServes s port = true) (harg : s.arg = .bar port 0 (some v))
include hserves harg

theorem command_write : exec .registerWrite s = .next (writeMailbox port 0 v s) :=
  registerWrite_at harg (barAt_mailbox hserves rfl (by decide)) rfl

theorem command_write_busy (h : mailStatus s port = 2) : exec .registerWrite s = .next s := by
  rw [command_write hserves harg, writeMailbox, if_neg (by decide), if_pos h]

theorem command_write_idle (h : mailStatus s port ≠ 2) (hv : v.toNat / 2 ^ 16 % 2 ^ 16 ≠ 1) (hp : port < s.ports.length) :
    exec .registerWrite s = .next { writeMail port 0 (leBytes 8 v.toNat) s with posted := s.posted.filter fun p => p != port } := by
  have hst : mailStatus (writeMail port 0 (leBytes 8 v.toNat) s) port ≠ 1 := by
    rw [mailStatus, mailWord_writeMail hp]
    exact hv
  rw [command_write hserves harg, writeMailbox, if_neg (by decide), if_neg h]
  dsimp only
  rw [if_pos hst]
  rfl

theorem command_write_posts (h : mailStatus s port ≠ 2) (hp : port < s.ports.length) (hnew : port ∉ s.posted)
    (hv : v.toNat / 2 ^ 16 % 2 ^ 16 = 1) :
    exec .registerWrite s = .next { writeMail port 0 (leBytes 8 v.toNat) s with posted := s.posted ++ [port] } := by
  have hst : mailStatus (writeMail port 0 (leBytes 8 v.toNat) s) port = 1 := by
    rw [mailStatus, mailWord_writeMail hp]
    exact hv
  have hposted : ¬ (writeMail port 0 (leBytes 8 v.toNat) s).posted.contains port = true := fun hc => hnew (List.contains_iff_mem.mp hc)
  rw [command_write hserves harg, writeMailbox, if_neg (by decide), if_neg h]
  dsimp only
  rw [if_neg (not_not_intro hst), if_neg hposted]
  rfl

end

theorem mailbox_write {s : State} {port off : Nat} {v : Word} (hserves : portServes s port = true) (harg : s.arg = .bar port off (some v))
    (h8 : off % 8 = 0) (hpos : 0 < off) (hlt : off < 256) : exec .registerWrite s = .next (writeMail port off (leBytes 8 v.toNat) s) := by
  rw [registerWrite_at harg (barAt_mailbox hserves h8 hlt) rfl, barWrite, writeMailbox, if_pos (Nat.ne_of_gt hpos)]

/-! ### The window of a partition -/

section
variable {s : State} {port part : Nat} (hserves : portServes s port = true) (hb : boundTo s port part = true) (hp : part < 8)
include hserves hb hp

theorem control_write {n : Nat} {v : Word} (hn : 0x181 ≤ n ∧ n ≤ 0x184)
    (harg : s.arg = .bar port (windowAt part (0x10000 + 8 * n)) (some v)) :
    exec .registerWrite s = .next (withPart part (writeControlReg s.ticks n v) s) := by
  have hc : windowControl n = true := by
    simp only [windowControl, decide_eq_true_eq]
    omega
  exact registerWrite_at harg (barAt_control hserves hb hp hc) (if_neg (by omega))

theorem controlWrites_written {v : Word} : ∀ e ∈ controlWrites, s.arg = .bar port (windowAt part (0x10000 + 8 * e.1)) (some v) →
    exec .registerWrite s = .next (withPart part (e.2 v) s) := by
  intro e he harg
  simp only [controlWrites, List.mem_cons, List.not_mem_nil, or_false] at he
  obtain rfl | rfl | rfl | rfl := he
  · exact control_write hserves hb hp (by decide) harg
  · exact control_write hserves hb hp (by decide) harg
  · exact control_write hserves hb hp (by decide) harg
  · exact control_write hserves hb hp (by decide) harg

theorem space_write {a : Nat} {v : Word} (h8 : a % 8 = 0) (ha : windowSpace a = true) (hstep : barStep (.space part a) = .registerWrite)
    (harg : s.arg = .bar port (windowAt part a) (some v)) : exec .registerWrite s = .next (writeControl part a v allBits s) :=
  registerWrite_at harg (barAt_space hserves hb hp h8 ha) hstep

theorem dead_write {j : Nat} {v : Word} (hj : j < 16) (harg : s.arg = .bar port (windowAt part (0x30100 + 8 * j)) (some v)) :
    exec .registerWrite s =
      .next (withPart part (fun q => { q with dead := mapSet 0 q.dead j (mapGet 0 q.dead j &&& ~~~v) }) s) := by
  have hspace : windowSpace (0x30100 + 8 * j) = true := by
    simp only [windowSpace, decide_eq_true_eq]
    omega
  have hstep : barStep (.space part (0x30100 + 8 * j)) = .registerWrite := by
    rw [barStep, if_neg (by omega), if_neg (by omega)]
  have hat : (0x30100 + 8 * j - 0x30100) / 8 = j := by omega
  have hall : v &&& allBits = v := BitVec.and_allOnes
  rw [space_write hserves hb hp (by omega) hspace hstep harg, writeControl, if_neg (by omega), if_neg (by omega), if_neg (by omega),
    if_neg (by omega), if_neg (by omega), if_pos (by omega), hat, hall]
  rfl

end

theorem window_read {s : State} {port off : Nat} {b : BarTarget} {w : Word} (harg : s.arg = .bar port off none) (hat : barAt s port off = some b)
    (hw : barRead s port b = w) : exec .registerWrite s = .next { s with outbox := s.outbox ++ [.barData port off w] } := by
  rw [registerWrite_reads harg hat, hw]
  rfl


theorem mailbox_read {s : State} {port off : Nat} (hserves : portServes s port = true) (harg : s.arg = .bar port off none)
    (h8 : off % 8 = 0) (hlt : off < 256) :
    exec .registerWrite s = .next { s with outbox := s.outbox ++ [.barData port off (BitVec.ofNat 64 (mailWord s port off))] } :=
  window_read harg (barAt_mailbox hserves h8 hlt) (by rw [barRead])

/-- Words that a host reads in the window of a partition. -/
theorem window_reads {s : State} {port part : Nat} (hserves : portServes s port = true) (hb : boundTo s port part = true) (hp : part < 8) :
    ∀ e ∈ [(0x10000 + 8 * 0x181, fun q : Partition => BitVec.ofNat 64 q.resper), (0x10000 + 8 * 0x190, fun q => mapGet 0 q.esel 0),
        (0x30000, fun q => q.tvec), (0x30008, fun q => q.fqbase), (0x30020, fun q => q.fqtail.setWidth 64),
        (0x30100, fun q => mapGet 0 q.dead 0), (0x40000, fun q => mapGet 0 q.aperture 0)],
      s.arg = .bar port (windowAt part e.1) none → exec .registerWrite s =
        .next { s with outbox := s.outbox ++ [.barData port (windowAt part e.1) (e.2 (partOf s part))] } := by
  have space {a : Nat} (ha : windowSpace a = true) (h8 : a % 8 = 0) := barAt_space hserves hb hp h8 ha
  intro e he harg
  simp only [List.mem_cons, List.not_mem_nil, or_false] at he
  obtain rfl | rfl | rfl | rfl | rfl | rfl | rfl := he
  · exact window_read harg (barAt_control hserves hb hp (n := 0x181) rfl) rfl
  · exact window_read harg (barAt_control hserves hb hp (n := 0x190) rfl) rfl
  · exact window_read harg (space rfl rfl) rfl
  · exact window_read harg (space rfl rfl) rfl
  · exact window_read harg (space rfl rfl) rfl
  · exact window_read harg (space rfl rfl) rfl
  · exact window_read harg (space rfl rfl) rfl

theorem window_writes {s : State} {port part : Nat} (hserves : portServes s port = true) (hb : boundTo s port part = true) (hp : part < 8)
    (v : Word) :
    (s.arg = .bar port (windowAt part 0x30000) (some v) → exec .registerWrite s = .next (withPart part (fun q => { q with tvec := v }) s)) ∧
      (s.arg = .bar port (windowAt part 0x30018) (some v) →
        exec .registerWrite s = .next (withPart part (fun q => { q with fqhead := v.setWidth 32 }) s)) ∧
      (s.arg = .bar port (windowAt part 0x30028) (some v) →
        exec .registerWrite s = .next (withPart part (fun q => { q with fqlost := q.fqlost &&& ~~~ v.setWidth 32 }) s)) := by
  refine ⟨fun harg => space_write hserves hb hp rfl rfl rfl harg, fun harg => space_write hserves hb hp rfl rfl rfl harg,
    fun harg => (space_write hserves hb hp rfl rfl rfl harg).trans ?_⟩
  have hall : v &&& allBits = v := BitVec.and_allOnes
  show Host.Outcome.next (mapPart part (fun q => { q with fqlost := q.fqlost &&& ~~~((v &&& allBits).setWidth 32) }) s) = _
  rw [hall]
  rfl

/-! ### HDM decoders -/

theorem cxlOn_flit {s : State} {port : Nat} {p : Port} (hserves : portServes s port = true) (hp : s.ports[port]? = some p) :
    cxlOn s port = p.flit := by
  have hport : portOf s port = p := by
    rw [portOf, getAt_eq_getD, List.getD_eq_getElem?_getD, hp]
    rfl
  simp only [portServes, hport, Bool.and_eq_true, Bool.not_eq_true'] at hserves
  rw [cxlOn, hp]
  simp only [hserves.1.1.1, hserves.1.1.2, Bool.and_true, Bool.not_false]

theorem decoder_write {s : State} {port k : Nat} {base : Word} {p : Port} (hserves : portServes s port = true) (hk : k < 8)
    (hp : s.ports[port]? = some p) (hflit : p.flit = true) (hb : boundTo s port k = true) (harg : s.arg = .decoder port k base true) :
    exec .registerWrite s = .next { s with ports := s.ports.set port { p with decoders := p.decoders.set k (some base) } } := by
  have hexec : exec .registerWrite s = .next (setDecoder port k base true s) := by
    show execRegisterWrite s = _
    rw [execRegisterWrite, harg]
  rw [hexec, setDecoder, cxlOn_flit hserves hp, if_pos ⟨hflit, hk⟩, mapPort_of hp, setAt_eq_set, hb]
  rfl

theorem decoder_read {s : State} {port k : Nat} {p : Port} (hserves : portServes s port = true) (hk : k < 8)
    (hp : s.ports[port]? = some p) (harg : s.arg = .num2 port k) :
    exec .registerWrite s = .next { s with outbox := s.outbox ++ [
      if p.flit then .decoderData port k (p.decoders.getD k none) else .hostUnsupported port] } := by
  have hexec : exec .registerWrite s = .next (readDecoder port k s) := by
    show execRegisterWrite s = _
    rw [execRegisterWrite, harg]
  rw [hexec, readDecoder, hp]
  dsimp only
  rw [cxlOn_flit hserves hp, getAt_eq_getD]
  by_cases hflit : p.flit = true
  · rw [if_pos ⟨hflit, hk⟩, if_pos hflit]
    rfl
  · rw [if_neg fun h => hflit h.1, if_neg hflit]
    rfl

/-! ### The aperture map, the fault queue and the event selections -/

theorem apertureMask_eq (hi : Bool) (v : Word) : v &&& apertureMask hi =
    if hi then v &&& 0xFFFFFFFFFFE00078 else v &&& 0x0007FFFFFFFFFFFF := by
  cases hi <;> rfl

theorem exists_partOf {s : State} {part : Nat} (h : hasPart s part = true) : ∃ q ∈ s.parts, q.id = part ∧ partOf s part = q := by
  obtain ⟨q, hq, hid⟩ := List.any_eq_true.mp h
  obtain ⟨r, hr⟩ := exists_findFirst (q := fun q : Partition => q.id == part) hq hid
  obtain ⟨hmem, hrid⟩ := of_findFirst hr
  exact ⟨r, hmem, by simpa using hrid, by rw [partOf, hr]; rfl⟩

theorem findFirst_updated {α : Type} {q : α → Bool} {f : α → α} (hf : ∀ a, q a = true → q (f a) = true) (l : List α) :
    findFirst q (updateWhere q f l) = (findFirst q l).map f := by
  induction l with
  | nil => rfl
  | cons a r ih =>
    by_cases h : q a = true
    · simp [updateWhere, findFirst, h, hf a h]
    · simp [updateWhere, findFirst, h, ih]

/-- A partition after a change of its registers. -/
theorem partOf_mapPart {s : State} {part : Nat} {f : Partition → Partition} (hf : ∀ q, (f q).id = q.id) (h : hasPart s part = true) :
    partOf (mapPart part f s) part = f (partOf s part) := by
  obtain ⟨q, hq, hid⟩ := List.any_eq_true.mp h
  obtain ⟨r, hr⟩ := exists_findFirst (q := fun q : Partition => q.id == part) hq hid
  have hu : findFirst (fun q => q.id == part) (updateWhere (fun q => q.id == part) f s.parts) = some (f r) := by
    rw [findFirst_updated (fun a ha => by rw [hf]; exact ha), hr]
    rfl
  rw [partOf, partOf, mapPart, hu, hr]
  rfl

section
variable {s : State} {port part : Nat} {v : Word} (hserves : portServes s port = true) (hb : boundTo s port part = true) (hp : part < 8)
include hserves hb hp

theorem aperture_write (hhas : hasPart s part = true) {k : Nat} {hi : Bool} (hk : k < 64)
    (harg : s.arg = .bar port (windowAt part (0x40000 + 16 * k + if hi then 8 else 0)) (some v)) :
    ∃ t, exec .apertureMapWrite s = .next t ∧ t.mem = s.mem ∧
      t.p = { s.p with wins := t.p.wins, entry := t.p.entry } ∧ t.g.vregs = s.g.vregs ∧ (∀ i, mapGet 0 (partOf t part).aperture i =
        if i = 2 * k + (if hi then 1 else 0) then (if hi then v &&& 0xFFFFFFFFFFE00078 else v &&& 0x0007FFFFFFFFFFFF)
        else mapGet 0 (partOf s part).aperture i) := by
  have hbound : (if hi then 8 else 0) = 8 * bit hi := by cases hi <;> rfl
  have hbit : bit hi < 2 := by cases hi <;> decide
  rw [hbound] at harg
  have hspace : windowSpace (0x40000 + 16 * k + 8 * bit hi) = true := by
    simp only [windowSpace, decide_eq_true_eq]
    omega
  have hstep : barStep (.space part (0x40000 + 16 * k + 8 * bit hi)) = .apertureMapWrite := if_pos (by omega)
  have hword : (0x40000 + 16 * k + 8 * bit hi - 0x40000) / 16 = k := by omega
  have hhalf : ((0x40000 + 16 * k + 8 * bit hi - 0x40000) / 8 % 2 == 1) = hi := by
    rw [show (0x40000 + 16 * k + 8 * bit hi - 0x40000) / 8 % 2 = bit hi by omega]
    cases hi <;> rfl
  have hexec : exec .apertureMapWrite s = .next (writeAperture part k hi v s) := by
    have hst := hostStore_at harg (barAt_space hserves hb hp (by omega) hspace)
    rw [hstep, barWrite, writeControl, if_neg (by omega), if_neg (by omega), if_neg (by omega), if_neg (by omega), if_neg (by omega),
      if_neg (by omega), if_pos (by omega), hword, hhalf] at hst
    exact congrArg Host.Outcome.next hst
  refine ⟨_, hexec, rfl, ?_, ?_, fun i => ?_⟩
  · unfold writeAperture staleWindows
    dsimp only
    split <;> rfl
  · unfold writeAperture staleWindows
    dsimp only
    split <;> rfl
  · have hpart : partOf (writeAperture part k hi v s) part =
        (fun q : Partition => { q with aperture := mapSet 0 q.aperture (2 * k + bit hi) (v &&& apertureMask hi) }) (partOf s part) :=
      partOf_mapPart (f := fun q => { q with aperture := mapSet 0 q.aperture (2 * k + bit hi) (v &&& apertureMask hi) })
        (fun _ => rfl) hhas
    rw [hpart]
    dsimp only
    rw [mapGet_mapSet, apertureMask_eq]
    rfl

theorem fqbase_write (harg : s.arg = .bar port (windowAt part 0x30008) (some v)) : exec .fqConfigWrite s = .next (withPart part (fun q =>
      if v = q.fqbase then q else { q with fqbase := v, fqhead := 0, fqtail := 0 }) s) := by
  have hst : hostStore .fqConfigWrite s = mapPart part (fun q => setQueue v q.fqlog q) s :=
    hostStore_at harg (barAt_space hserves hb hp (a := 0x30008) rfl rfl)
  have hset : (fun q : Partition => setQueue v q.fqlog q) = fun q =>
      if v = q.fqbase then q else { q with fqbase := v, fqhead := 0, fqtail := 0 } := by
    funext q
    rw [setQueue]
    simp only [and_true]
  rw [hset] at hst
  exact congrArg Host.Outcome.next hst

theorem fqlog_write (harg : s.arg = .bar port (windowAt part 0x30010) (some v)) : exec .fqConfigWrite s = .next (withPart part (fun q =>
      if v.toNat % 32 = q.fqlog ∨ v.toNat % 32 ∈ [1, 2, 3] ∨ 16 < v.toNat % 32 then q
      else { q with fqlog := v.toNat % 32, fqhead := 0, fqtail := 0 }) s) := by
  have hst : hostStore .fqConfigWrite s = mapPart part (writeFqlog v.toNat) s :=
    hostStore_at harg (barAt_space hserves hb hp (a := 0x30010) rfl rfl)
  have hset : writeFqlog v.toNat = fun q =>
      if v.toNat % 32 = q.fqlog ∨ v.toNat % 32 ∈ [1, 2, 3] ∨ 16 < v.toNat % 32 then q
      else { q with fqlog := v.toNat % 32, fqhead := 0, fqtail := 0 } := by
    funext q
    simp only [writeFqlog, setQueue, true_and, List.mem_cons, List.not_mem_nil, or_false]
    by_cases hvalid : v.toNat % 32 = 0 ∨ 4 ≤ v.toNat % 32 ∧ v.toNat % 32 ≤ 16
    · rw [if_pos hvalid]
      by_cases hsame : v.toNat % 32 = q.fqlog
      · rw [if_pos hsame, if_pos (.inl hsame)]
      · rw [if_neg hsame, if_neg (by omega)]
    · rw [if_neg hvalid, if_pos (by omega)]
  rw [hset] at hst
  exact congrArg Host.Outcome.next hst

theorem esel_write {k : Nat} (hk : k < 16) (harg : s.arg = .bar port (windowAt part (0x10000 + 8 * (0x190 + k))) (some v)) :
    exec .eselWrite s = .next (withPart part (fun q =>
      if v.toNat % 2 ^ 12 ∈ [0, 1, 2, 3, 4, 5, 0x10, 0x11, 0x12, 0x13, 0x14, 0x20, 0x21, 0x30, 0x31] then
        { q with esel := mapSet 0 q.esel k (v &&& 0x8FFF), evc := mapSet 0 q.evc k 0, evcFrom := mapSet 0 q.evcFrom k s.ticks } else q) s) := by
  have hc : windowControl (0x190 + k) = true := by
    simp only [windowControl, decide_eq_true_eq]
    omega
  have hstep : barStep (.control part (0x190 + k)) = .eselWrite := if_pos (by omega)
  have hst : hostStore .eselWrite s = mapPart part (writeControlReg s.ticks (0x190 + k) v) s :=
    hstep ▸ hostStore_at harg (barAt_control hserves hb hp hc)
  have hset : writeControlReg s.ticks (0x190 + k) v = fun q =>
      if v.toNat % 2 ^ 12 ∈ [0, 1, 2, 3, 4, 5, 0x10, 0x11, 0x12, 0x13, 0x14, 0x20, 0x21, 0x30, 0x31] then
        { q with esel := mapSet 0 q.esel k (v &&& 0x8FFF), evc := mapSet 0 q.evc k 0, evcFrom := mapSet 0 q.evcFrom k s.ticks } else q := by
    funext q
    have hesel : writeControlReg s.ticks (0x190 + k) v q = writeEsel s.ticks k v q := by
      unfold writeControlReg
      split
      any_goals omega
      rw [if_pos (by omega), Nat.add_sub_cancel_left]
    rw [hesel, writeEsel, eventAssigned, bits, Nat.pow_zero, Nat.div_one]
    simp only [List.contains_iff_mem]
    rfl
  rw [hset] at hst
  exact congrArg Host.Outcome.next hst

end

/-! ### The identity of the device -/

theorem certificates_started {s : State} (h : s.startup.phase = .started) :
    certificates s = s.startup.certificate ++ Config.aliasCertificate s.startup.secret s.startup.digest := by
  rw [certificates, firmwareDigest, h]
  rfl

theorem spdmGetCertificate_answers {s : State} {port : Nat} (hserves : portServes s port = true) (harg : s.arg = .num port)
    (hphase : s.startup.phase = .started) : exec .spdmGetCertificate s = .next { s with
      outbox := s.outbox ++ [.spdm port (s.startup.certificate ++ Config.aliasCertificate s.startup.secret s.startup.digest)] } := by
  show execSpdmGetCertificate s = _
  rw [execSpdmGetCertificate, onNum_runs harg, if_pos hserves, certificates_started hphase]
  rfl

theorem spdmSigned_answers {s : State} {port : Nat} {nonce : BitVec 256} {f : State → List Byte} {body : List Byte}
    (hserves : portServes s port = true) (harg : s.arg = .spdm port nonce) (hbody : f s = body) :
    ∃ t sig, (.next (spdmSigned f s) : Host.Outcome State Fault Refusal) = .next t ∧ Quiet s t ∧ sig.length = 96 ∧
      t.outbox = s.outbox ++ [.spdm port (((List.range 32).map fun i => nonce.extractLsb' (8 * (31 - i)) 8) ++ body ++ sig)] ∧
      t.startup = { s.startup with signatures := s.startup.signatures + 1 } := by
  have hoctets : octets 32 nonce.toNat = (List.range 32).map fun i => nonce.extractLsb' (8 * (31 - i)) 8 := octets_toNat nonce
  refine ⟨countSignature (reply (.spdm port (octets 32 nonce.toNat ++ f s ++ signature s (octets 32 nonce.toNat ++ f s))) s), _, ?_, ?_,
    length_signature s (octets 32 nonce.toNat ++ f s), ?_, ?_⟩
  · rw [spdmSigned, harg]
    dsimp only
    rw [if_pos hserves]
  · exact ⟨rfl, rfl, rfl, rfl⟩
  · rw [← hoctets, ← hbody]
    rfl
  · rfl

/-! ### Together -/

theorem commands_end (s : State) (port part : Nat) :
    (∀ members, Posted 2 s 1 port part → s.arg = .create port members →
      (CanCreate s port part → ∃ u q, exec .create s = .next (ended port 0 u) ∧
        u = roomForRemote part { changeMode s with parts := s.parts ++ [q] } ∧ u.mem = s.mem ∧
        (s.parts ≠ [] → changeMode s = s) ∧ q.l2p = (mailWord s port 64).testBit 2 ∧ q.memmap.toNat = leNat (mailBytes s port 16 48) ∧
        q.id = part ∧ q.port = port ∧ q.record = mailBytes s port 8 128 ∧ q.clmask.toNat = mailWord s port 8 ∧
        q.rsec = recordBits s port 7 0 2 ∧ q.node = recordBits s port 7 16 10 ∧ q.domain = recordBits s port 7 32 16 ∧
        q.drank = recordBits s port 7 48 10 ∧ q.ctxmb = recordBits s port 8 0 32 ∧ q.spillmb = recordBits s port 8 32 32 ∧
        q.hdmgb = recordBits s port 9 0 32 ∧ q.intake = [] ∧ q.dead = [] ∧ q.tvec = 0 ∧ q.resper = 1000 ∧
        q.stepb = 1024 ∧ q.rtime = 50 ∧ q.starve = 8) ∧
      (recReserved (mailBytes s port 8 128) = false → exec .create s = .next (ended port 0x10 s)) ∧
      (recReserved (mailBytes s port 8 128) = true → hasPart s part = true → exec .create s = .next (ended port 0x11 s)) ∧
      (recReserved (mailBytes s port 8 128) = true → hasPart s part = false →
        8 ≤ part ∨ s.tripped = true ∨ recFits s port (mailBytes s port 8 128) = false →
        exec .create s = .next (ended port 0x12 s))) := by
  intro members h harg
  have hends := create_ends harg h
  obtain ⟨hfields, hexists, hno⟩ := createPart_refused (s := s) (port := port) (part := part) (members := members)
  refine ⟨fun hcan => ⟨_, partOfRecord part port members (mailBytes s port 8 128), hends.trans (by rw [createPart_new hcan]),
      rfl, ?_, fun hne => if_neg hne, ?_, recUnits_mailBytes s port, rfl, rfl, rfl, ?_, recordBits_eq s port 0 2 (by decide),
      recordBits_eq s port 16 10 (by decide), recordBits_eq s port 32 16 (by decide), recordBits_eq s port 48 10 (by decide),
      recordBits_eq s port 0 32 (by decide), recordBits_eq s port 32 32 (by decide), recordBits_eq s port 0 32 (by decide),
      rfl, rfl, rfl, rfl, rfl, rfl, rfl⟩,
    fun hr => hends.trans (by rw [hfields hr]), fun hr hp => hends.trans (by rw [hexists hr hp]),
    fun hr hp hn => hends.trans (by rw [hno hr hp hn])⟩
  · refine (roomForRemote_mem part _).trans ?_
    show (changeMode s).mem = s.mem
    unfold changeMode
    split <;> rfl
  · show (recWord (mailBytes s port 8 128) 7).testBit 2 = _
    rw [recWord_mailBytes s port (by decide)]
  · show (BitVec.ofNat 64 (recWord (mailBytes s port 8 128) 0)).toNat = _
    rw [recWord_mailBytes s port (by decide), BitVec.toNat_ofNat]
    exact Nat.mod_eq_of_lt (mailWord_lt s port _)

theorem startrec_ends {s : State} {port part : Nat} (harg : s.arg = .num port) (h : Posted 2 s 8 port part) :
    exec .startrec s = .next (ended port 0 (writeMail port 8 (s.startup.record.flatMap fun w => leBytes 8 w.toNat) s)) := by
  rw [startrec_runs harg, command_runs h]

/-- Settles O52: the turn of a command first, then each command and each register by the lemma about it. -/
theorem hostCommandsAndRegistersTakeEffect : Obligations.HostCommandsAndRegistersTakeEffect := by
  refine ⟨fun s port st hp hst => mailStatus_setStatus hp hst, commands_wait, commands_refused, create_minimal,
    fun s port part => ⟨commands_end s port part, fun harg hhas hport => ⟨destroy_frees harg hhas hport, reset_resets harg hhas hport,
        query_ends harg hhas hport, attest_answers harg hhas hport⟩, none_bound, fun harg h p hp => powercap_ends harg h hp,
      fun image harg h => stage_ends harg h, startrec_ends, restart_starts⟩,
    fun s port hserves => ⟨spdmGetCertificate_answers hserves, fun nonce harg hphase e he => ?_,
      fun off v harg h8 hpos hlt => mailbox_write hserves harg h8 hpos hlt,
      fun v harg => ⟨command_write_busy hserves harg, command_write_idle hserves harg, command_write_posts hserves harg⟩,
      fun off harg h8 hlt => mailbox_read hserves harg h8 hlt, fun part hp hhas hport => ?_,
      fun part v hp hnot harg => ?_, fun k base p hk hp hflit hhas hport harg => ?_, fun k p hk hp harg => decoder_read hserves hk hp harg⟩,
    fun s port part v hserves hp hhas hport => ?_⟩
  · simp only [List.mem_cons, List.not_mem_nil, or_false] at he
    obtain rfl | rfl := he
    · refine spdmSigned_answers hserves harg ?_
      rw [certificates_started hphase, octets_digest]
    · refine spdmSigned_answers hserves harg ?_
      rw [firmwareDigest, hphase]
      rfl
  · have hb := boundTo_own hhas hport
    refine ⟨fun v => ?_, window_reads hserves hb hp⟩
    obtain ⟨htvec, hfqhead, hfqlost⟩ := window_writes hserves hb hp v
    exact ⟨controlWrites_written hserves hb hp, htvec, hfqhead, hfqlost, fun j hj harg => dead_write hserves hb hp hj harg⟩
  · have hb : boundTo s port part = false := by
      obtain h | h := hnot
      · exact boundTo_none h
      · simp [boundTo, h]
    exact registerWrite_unsupported harg (barAt_unbound hb hp rfl rfl)
  · exact decoder_write hserves hk hp hflit (boundTo_own hhas hport) harg
  · have hb := boundTo_own hhas hport
    exact ⟨fun k hi hk harg => aperture_write hserves hb hp hhas hk harg, fqbase_write hserves hb hp, fqlog_write hserves hb hp,
      fun k hk harg => esel_write hserves hb hp hk harg⟩

end Sys2Proof.Machine
end

section
/-! PROOF. Accesses of hosts to device memory (spec/06_coherence_fabric.md R147, R149; spec/15_programs_fabric_host.md R313;
spec/16_host_partitions_monitors.md R324; spec/20_faults_fabric_host_start.md R399). -/

namespace Sys2Proof.Machine

open Sys2Proof.Rules

/-! ### The decoders of a port -/

theorem decoderBase_iff {s : State} {port k b : Nat} (hk : k < 8) :
    decoderBase s port k = some b ↔ ∃ base : Word, Decodes s port k base ∧ b = base.toNat := by
  constructor
  · intro h
    unfold decoderBase at h
    split at h
    · next hon =>
      simp only [Bool.and_eq_true, beq_iff_eq] at hon
      obtain ⟨⟨hcxl, hhas⟩, hport⟩ := hon
      split at h
      · cases h
      · next p hp =>
        rw [cxlOn, hp] at hcxl
        simp only [Bool.and_eq_true, Bool.not_eq_true'] at hcxl
        rw [getAt_eq_getD, List.getD_eq_getElem?_getD] at h
        cases hd : p.decoders[k]? with
        | none => rw [hd] at h; cases h
        | some d =>
          rw [hd] at h
          cases d with
          | none => cases h
          | some base => exact ⟨base, ⟨hk, hhas, hport, p, hp, hcxl.1.1, hcxl.1.2, hcxl.2, hd⟩, (Option.some.inj h).symm⟩
    · cases h
  · rintro ⟨base, ⟨-, hhas, hport, p, hp, hflit, hup, hdown, hd⟩, rfl⟩
    have hcxl : cxlOn s port = true := by
      rw [cxlOn, hp]
      simp only [hflit, hup, hdown, Bool.not_false, Bool.and_self]
    rw [decoderBase, hcxl, hhas, hport, hp]
    simp only [beq_self_eq_true, Bool.and_self, if_true, getAt_eq_getD, List.getD_eq_getElem?_getD, hd, Option.getD_some, Option.map_some]

/-- What decoder k of a port gives for a host address. -/
def decodeAt (s : State) (port k : Nat) (addr : BitVec 64) : Option (Nat × Nat) :=
  match decoderBase s port k with
  | none => none
  | some b => if b ≤ addr.toNat ∧ addr.toNat - b < (partOf s k).hdmgb * 2 ^ 30 then some (k, 2 ^ 52 + (addr.toNat - b)) else none

theorem decodeAt_eq_some {s : State} {port k : Nat} {addr : BitVec 64} {r : Nat × Nat} (hk : k < 8) :
    decodeAt s port k addr = some r ↔ ∃ base, Covers s port k base addr ∧ r = (k, 2 ^ 52 + (addr.toNat - base.toNat)) := by
  constructor
  · intro h
    unfold decodeAt at h
    split at h
    · cases h
    · next b hb =>
      obtain ⟨base, hdec, rfl⟩ := (decoderBase_iff hk).mp hb
      split at h
      · next hin => exact ⟨base, ⟨hdec, hin.1, by omega⟩, (Option.some.inj h).symm⟩
      · cases h
  · rintro ⟨base, ⟨hdec, hle, hlt⟩, rfl⟩
    rw [decodeAt, (decoderBase_iff hk).mpr ⟨base, hdec, rfl⟩]
    exact if_pos ⟨hle, by omega⟩

theorem hdmOffset_undecoded {s : State} {port : Nat} {addr : BitVec 64} (h : Undecoded s port addr) : hdmOffset s port addr = none := by
  refine List.findSome?_eq_none_iff.mpr fun k hk => ?_
  have hlt : k < 8 := by simpa using (mem_countFrom.mp hk).2
  by_contra hne
  obtain ⟨r, hr⟩ := Option.ne_none_iff_exists'.mp hne
  obtain ⟨base, hcov, -⟩ := (decodeAt_eq_some hlt).mp hr
  exact h k base hcov

theorem hdmOffset_decoded {s : State} {port part off : Nat} {addr : BitVec 64} (h : Decoded s port part addr off) :
    hdmOffset s port addr = some (part, off) := by
  obtain ⟨⟨base, hcov, rfl⟩, halone⟩ := h
  have hlt : part < 8 := hcov.1.1
  have hsome : decodeAt s port part addr = some (part, 2 ^ 52 + (addr.toNat - base.toNat)) := (decodeAt_eq_some hlt).mpr ⟨base, hcov, rfl⟩
  have hisSome : ((countFrom 0 8).findSome? fun k => decodeAt s port k addr).isSome := by
    rw [List.findSome?_isSome_iff]
    exact ⟨part, mem_countFrom.mpr ⟨Nat.zero_le _, by omega⟩, by rw [hsome]; rfl⟩
  obtain ⟨r, hr⟩ := Option.isSome_iff_exists.mp hisSome
  obtain ⟨k, hk, hkr⟩ := List.exists_of_findSome?_eq_some hr
  have hklt : k < 8 := by simpa using (mem_countFrom.mp hk).2
  obtain ⟨b, hb, -⟩ := (decodeAt_eq_some hklt).mp hkr
  obtain rfl := halone k b hb
  exact hr.trans (hkr.symm.trans hsome)

theorem Decoded.port {s : State} {port part off : Nat} {addr : BitVec 64} (h : Decoded s port part addr off) :
    (partOf s part).port = port := by
  obtain ⟨⟨base, hcov, -⟩, -⟩ := h
  exact hcov.1.2.2.1

theorem Decoded.has {s : State} {port part off : Nat} {addr : BitVec 64} (h : Decoded s port part addr off) :
    hasPart s part = true := by
  obtain ⟨⟨base, hcov, -⟩, -⟩ := h
  exact hcov.1.2.1

/-! ### A request is served when it comes -/

theorem sansQueue_self {s : State} (hq : s.hostQueue = []) (hn : s.noted = []) : { s with hostQueue := [], noted := [] } = s := by
  cases s
  dsimp only at hq hn
  subst hq hn
  rfl

theorem unpark_none {s : State} (hq : s.hostQueue = []) (hn : s.noted = []) (r : LineRef) (a : Arg) : unpark r a s = s := by
  have h : unpark r a s = { s with hostQueue := [], noted := [] } := by
    rw [unpark, hq, hn]
    rfl
  rw [h, sansQueue_self hq hn]

section
variable {s : State} {part off : Nat} {w : Bool} {serve : State → State} (hnone : NoneWaits s)
include hnone

theorem postedWaits_none (a : Arg) : postedWaits s a = false := by
  obtain ⟨hq, -, hlines, hlate⟩ := hnone
  unfold postedWaits
  split
  · next port tag addr data ha =>
    rw [hq]
    simp only [List.takeWhile_nil, List.any_nil, Bool.false_or, Bool.or_eq_false_iff, List.any_eq_false]
    refine ⟨fun l hl => ?_, fun e he => ?_⟩
    · by_cases hp : l.state = .p
      · simp [hlines l hl hp]
      · simp [hp]
    · simp [heldPosted, hlate e he]
  · rfl

theorem hostInTurn_serves (hreset : beingReset s part = false)
    (hline : ∀ l, findLine s (lineRef part 4095 off) = some l → l.state ≠ .p) (hroom : lineRoom s (lineRef part 4095 off) = true)
    (hlock : w = true → ∀ x, walk s part 4095 off = some x → Pte.lock x.entry = false)
    (hheld : w = true → granuleHeld s part 4095 off = false ∨ lateRoom s (homeHc off) part = true) :
    hostInTurn part off w serve s = serve s := by
  have hwaits := postedWaits_none hnone s.arg
  obtain ⟨hq, hn, -, -⟩ := hnone
  have hmay : mayServe s (lineRef part 4095 off) s.arg = true := by
    rw [mayServe, firstHere, hq]
    cases hl : findLine s (lineRef part 4095 off) with
    | none => rfl
    | some l => simp [findFirst, hline l hl]
  have hlocked : (w && (walk s part 4095 off).any fun l => Pte.lock l.entry) = false := by
    cases w with
    | false => rfl
    | true =>
      cases hx : walk s part 4095 off with
      | none => rfl
      | some x => simpa using hlock rfl x hx
  have hserve : hostMayServe s part off w s.arg = true := by
    rw [hostMayServe, hmay, hroom, hwaits, hlocked, hn]
    simp
  have hfull : (w && granuleHeld s part 4095 off && !lateRoom s (homeHc off) part) = false := by
    cases w with
    | false => rfl
    | true => obtain h | h := hheld rfl <;> simp [h]
  rw [hostInTurn, hreset, hserve, hfull, unpark_none hq hn]
  rfl

end

/-- R324: a request to a partition that is being reset. -/
theorem hostInTurn_reset {s : State} {part : Nat} (off : Nat) (w : Bool) (serve : State → State) (h : beingReset s part = true) :
    hostInTurn part off w serve s = if awaitsHost s.arg then reply (.hostAbort (partOf s part).port) s else s := by
  rw [hostInTurn, h]
  rfl

/-! ### The line at its home -/

section
variable {s : State} {part off : Nat} {l : Line} (hline : findLine s (lineRef part 4095 off) = some l)
include hline

theorem lineRoom_held : lineRoom s (lineRef part 4095 off) = true := by
  rw [lineRoom, hline]
  rfl

theorem ensureLine_held : ensureLine part 4095 off s = s := by rw [ensureLine, hline]

theorem baseBytes_held (n : Nat) : baseBytes s part 4095 off n = memBytes s.mem (l.pa + off % 128) n := by rw [baseBytes, hline]

theorem countMiss_held (launch : Nat) : countMiss launch (lineRef part 4095 off) s = s := by
  rw [countMiss, hline]
  exact if_neg fun h => by simp at h

theorem findLine_ref : l.ref = lineRef part 4095 off := by simpa using (of_findFirst hline).2

/-- A base write at a line in its home slice: the bytes of the line, and the foreign-update bits. -/
theorem writeBase_held (hdead : ∀ x, walk s part 4095 off = some x → Pte.dead x.entry = false) (d : List Byte) :
    writeBase 0 part 4095 off d s = foreignUpdate 0 (lineRef part 4095 off) (mapLine (lineRef part 4095 off)
      (fun l => { l with state := if l.state = .p then .p else .d }) { s with mem := memWrite s.mem (l.pa + off % 128) d }) := by
  have hrevive : reviveGranule part 4095 off s = s := by
    unfold reviveGranule
    split
    · rfl
    · next x hx => rw [hdead x hx]; rfl
  rw [writeBase, countMiss_held hline, writeLine, hrevive, ensureLine_held hline, hline]

end

theorem findLine_mapLine {s : State} {r : LineRef} {f : Line → Line} {l : Line} (hf : ∀ l, (f l).ref = l.ref) (h : findLine s r = some l) :
    findLine (mapLine r f s) r = some (f l) := by
  show findFirst (fun l => l.ref == r) (updateWhere (fun l => l.ref == r) f s.lines) = _
  rw [findFirst_updated (fun a ha => by rw [hf]; exact ha)]
  exact congrArg (Option.map f) h

theorem outDirOf_ref (s : State) (r : LineRef) : (outDirOf s r).ref = r := by
  unfold outDirOf
  cases h : findFirst (fun d => d.ref == r) s.outDirs with
  | none => rfl
  | some d => simpa using (of_findFirst h).2

theorem getD_setAt_self {l : List Nat} {i : Nat} (v d : Nat) (h : i < l.length) : (setAt l i v).getD i d = v := by
  rw [setAt_eq_set, List.getD_eq_getElem?_getD, List.getElem?_set_self h]
  rfl

/-- The state of a line in the directory of hosts after a read. -/
theorem noteHost_host {s : State} {r : LineRef} {port : Nat} (own : Bool) (hp : port < 2) (hlen : (outDirOf s r).host.length = 2) :
    (if own then 2 else 1) ≤ (outDirOf (noteHost r port own s) r).host.getD port 0 := by
  have hst : (if own then 2 else 1) ≤ (if own then 2 else max 1 (getAt 0 (outDirOf s r).host port)) := by
    split
    · exact Nat.le_refl 2
    · exact Nat.le_max_left 1 _
  have hpos : 1 ≤ (if own then 2 else max 1 (getAt 0 (outDirOf s r).host port)) := Nat.le_trans (by split <;> decide) hst
  have hback := getD_setAt_self (if own then 2 else max 1 (getAt 0 (outDirOf s r).host port)) 0 (hlen ▸ hp : port < (outDirOf s r).host.length)
  have hne : ¬ ((outDirOf s r).dev = 0 ∧ setAt (outDirOf s r).host port (if own then 2 else max 1 (getAt 0 (outDirOf s r).host port)) = [0, 0]) := by
    rintro ⟨-, h⟩
    rw [h] at hback
    have hz : [0, 0].getD port 0 = 0 := by
      obtain h0 | h1 : port = 0 ∨ port = 1 := by omega
      · rw [h0]; rfl
      · rw [h1]; rfl
    omega
  have hdir : outDirOf (noteHost r port own s) r =
      { outDirOf s r with host := setAt (outDirOf s r).host port (if own then 2 else max 1 (getAt 0 (outDirOf s r).host port)) } := by
    have houts : (noteHost r port own s).outDirs =
        { outDirOf s r with host := setAt (outDirOf s r).host port (if own then 2 else max 1 (getAt 0 (outDirOf s r).host port)) } ::
          s.outDirs.filter fun e => e.ref != (outDirOf s r).ref := if_neg hne
    rw [outDirOf, houts]
    simp [findFirst, outDirOf_ref]
  rw [hdir]
  exact hst.trans_eq hback.symm

/-! ### Records of refused accesses -/

theorem writePieces_atHomes (launch part asid off : Nat) (d : List Byte) (l : List (Nat × Nat)) :
    AtHomes (writePieces launch part asid off d l) := by
  induction l with
  | nil => exact fun _ => rfl
  | cons e r ih => exact ih.comp (writePiece_atHomes launch part asid e.1 _)

theorem partOf_atHomes {f : State → State} (h : AtHomes f) (s : State) (n : Nat) : (partOf (f s) n).besides = (partOf s n).besides := by
  have hparts : (f s).parts.map Partition.besides = s.parts.map Partition.besides := congrArg State.parts (h s)
  rw [← partOf_lasting, ← partOf_lasting]
  show (findFirst _ ((f s).parts.map Partition.besides)).getD _ = (findFirst _ (s.parts.map Partition.besides)).getD _
  rw [hparts]

theorem hasPart_atHomes {f : State → State} (h : AtHomes f) (s : State) (n : Nat) : hasPart (f s) n = hasPart s n := by
  have hparts : (f s).parts.map Partition.besides = s.parts.map Partition.besides := congrArg State.parts (h s)
  have hmap (l : List Partition) : (l.any fun q => q.id == n) = (l.map Partition.besides).any fun q => q.id == n := by
    rw [List.any_map]
    rfl
  rw [hasPart, hasPart, hmap, hparts, ← hmap]

/-- A write of the device's own counts events, and changes nothing else of a partition. -/
theorem devWrite_partition {launch part asid off : Nat} {d : List Byte} {s t : State} (h : devWrite launch part asid off d s = .ok t)
    (n : Nat) : hasPart t n = hasPart s n ∧ (partOf t n).besides = (partOf s n).besides := by
  unfold devWrite at h
  split at h
  · cases h
  · cases h
    have hw := writePieces_atHomes launch part asid off d (pieces off d.length)
    exact ⟨hasPart_atHomes hw s n, partOf_atHomes hw s n⟩

theorem loseRecord_left {s : State} {part : Nat} (h : hasPart s part = true) : RecordLeft part s (loseRecord part s) :=
  .inr (congrArg Partition.fqlost (partOf_mapPart (f := fun q => { q with fqlost := q.fqlost + 1 }) (fun _ => rfl) h))

/-- A record of the device is in the fault queue, or counted as lost. -/
theorem faultQueue_left {s : State} {part : Nat} (head : List Byte) (h : hasPart s part = true) :
    RecordLeft part s (faultQueue part head s) := by
  unfold faultQueue
  dsimp only
  split
  · exact loseRecord_left h
  · split
    · exact loseRecord_left h
    · split
      · exact loseRecord_left h
      · next t ht =>
        obtain ⟨hhas, hkept⟩ := devWrite_partition ht part
        refine .inl ?_
        rw [partOf_mapPart (f := fun q => { q with fqtail := q.fqtail + 1 }) (fun _ => rfl) (hhas.trans h)]
        have htail := congrArg (fun q : Partition => q.fqtail + 1) hkept
        exact htail

/-- The split at issue and the gangs of the device. -/
def State.residents (s : State) : Split × Gang × List Gang := (s.p, s.g, s.gangs)

theorem residents_overWrites : OverWrites fun s t => t.residents = s.residents := keeps_overWrites State.residents fun _ _ => rfl

theorem hostRecord_residents (part off : Nat) (c : BitVec 8) (s : State) : (hostRecord part off c s).residents = s.residents :=
  residents_overWrites.deviceRecord part c 4 0 _ _ s

theorem hostRecord_left {s : State} {part : Nat} (off : Nat) (c : BitVec 8) (h : hasPart s part = true) :
    RecordLeft part s (hostRecord part off c s) := faultQueue_left _ h

theorem refused_host {s : State} {part : Nat} (off : Nat) (c : BitVec 8) (m : Msg) (h : hasPart s part = true) :
    (reply m (hostRecord part off c s)).p = s.p ∧ (reply m (hostRecord part off c s)).g = s.g ∧
      (reply m (hostRecord part off c s)).gangs = s.gangs ∧ RecordLeft part s (reply m (hostRecord part off c s)) ∧
      m ∈ (reply m (hostRecord part off c s)).outbox := by
  have hr := hostRecord_residents part off c s
  exact ⟨congrArg (fun e => e.1) hr, congrArg (fun e => e.2.1) hr, congrArg (fun e => e.2.2) hr, hostRecord_left off c h,
    List.mem_append_right _ (List.mem_singleton_self m)⟩

end Sys2Proof.Machine
end

section
/-! PROOF. What reads, writes and atomics of hosts leave, and the answers to snoops (spec/06_coherence_fabric.md R147 to R149;
spec/15_programs_fabric_host.md R313). -/

namespace Sys2Proof.Machine

open Sys2Proof.Rules

/-! ### The value that an atomic leaves -/

theorem leBytes_leNat (l : List Byte) : leBytes l.length (leNat l) = l := by
  induction l with
  | nil => rfl
  | cons b r ih =>
    have hb := b.isLt
    rw [List.length_cons, leNat, leBytes, show (b.toNat + 256 * leNat r) / 256 = leNat r by omega, ih]
    congr 1
    apply BitVec.eq_of_toNat_eq
    rw [BitVec.toNat_ofNat]
    omega

theorem leBytes_mod (n x : Nat) : leBytes n (x % 256 ^ n) = leBytes n x := by
  induction n generalizing x with
  | zero => rfl
  | succ n ih =>
    have hdiv : x % 256 ^ (n + 1) / 256 = x / 256 % 256 ^ n := by
      rw [Nat.pow_succ', Nat.mod_mul_right_div_self]
    have hlow : x % 256 ^ (n + 1) % 256 = x % 256 := Nat.mod_mod_of_dvd x (Dvd.intro_left (256 ^ n) rfl)
    rw [leBytes, leBytes, hdiv, ih]
    congr 1
    apply BitVec.eq_of_toNat_eq
    rw [BitVec.toNat_ofNat, BitVec.toNat_ofNat]
    exact hlow

theorem leNat_bound {l : List Byte} {n : Nat} (h : l.length = n) : leNat l < 256 ^ n := by
  have hlt := leNat_lt l
  rwa [h, Nat.pow_mul] at hlt

/-- The type of an atomic of a host: n32 for four bytes, n64 for eight. -/
theorem hostAtomic_type {n : Nat} (hn : n = 4 ∨ n = 8) : ∃ t ∈ [Ty.n 32, Ty.n 64],
    tyOfCode (if n = 8 then 4 else 1) = some t ∧ t.width / 8 = n ∧ t.isFloat = false ∧ 2 ^ t.width = 256 ^ n := by
  obtain rfl | rfl := hn
  · exact ⟨Ty.n 32, by simp, rfl, rfl, rfl, rfl⟩
  · exact ⟨Ty.n 64, by simp, rfl, rfl, rfl, rfl⟩

theorem hostAtomic_leaves (op : HostAtomicOp) {n : Nat} (v : Word) {old : List Byte} (hn : n = 4 ∨ n = 8) (hlen : old.length = n) :
    opBytes (hostAtomicAccess op n v) old = leBytes n (hostAtomicValue op n v.toNat (leNat old)) := by
  obtain ⟨t, -, hcode, hwidth, hint, hpow⟩ := hostAtomic_type hn
  have hx := leNat_bound hlen
  have hpos : 0 < 256 ^ n := Nat.pow_pos (by decide)
  have hbits : 2 ^ (8 * n) = 256 ^ n := Nat.pow_mul 2 8 n
  have hold : leBytes n (leNat old) = old := hlen ▸ leBytes_leNat old
  have arith {k z : Nat} (hk : k < 8) (hz : atomicOp k t 0 false (leNat old) (v.toNat % 256 ^ n) = z) :
      opBytes (.rmw k (if n = 8 then 4 else 1) 0 false (leBytes n v.toNat) []) old = leBytes n z := by
    have h := opBytes_atomic hk hcode (hwidth ▸ hx) (by rw [hwidth]; exact Nat.mod_lt v.toNat hpos) hz _ (List.mem_cons_self ..)
    rwa [hwidth, leBytes_mod, hold] at h
  cases op with
  | fetchAdd =>
    refine arith (by decide) ?_
    have hadd : atomicOp 0 t 0 false (leNat old) (v.toNat % 256 ^ n) = wrapNat (t.intVal (leNat old) + t.intVal (v.toNat % 256 ^ n)) t.width := by
      rw [atomicOp, hint]
      rfl
    rw [hadd, wrap_intVal_add, ← BitVec.ofNat_add, BitVec.toNat_ofNat, hpow, Nat.add_mod_mod, hostAtomicValue, hbits]
  | swap =>
    have h := arith (k := 6) (by decide) rfl
    rw [hostAtomicAccess, hostAtomicValue, hbits]
    exact h
  | cas c =>
    rw [hostAtomicAccess, hostAtomicValue, hbits]
    have hcas : opBytes (.rmw 8 (if n = 8 then 4 else 1) 0 false (leBytes n v.toNat) (leBytes n c.toNat)) old =
        if old = leBytes n c.toNat then leBytes n v.toNat else old := by
      rw [opBytes, if_pos (.inl rfl)]
    have hsame : old = leBytes n c.toNat ↔ leNat old = c.toNat % 256 ^ n := by
      rw [← leBytes_mod n c.toNat]
      constructor
      · intro h
        rw [h, leNat_leBytes (Nat.mod_lt _ hpos)]
      · intro h
        rw [← h, hold]
    refine hcas.trans ?_
    by_cases h : leNat old = c.toNat % 256 ^ n
    · rw [if_pos h, if_pos (hsame.mpr h), leBytes_mod]
    · rw [if_neg h, if_neg (mt hsame.mp h), hold]

/-- Memory after an atomic of a host at an address. -/
def atomicWritten (m : List Host.Cell) (pa n : Nat) (op : HostAtomicOp) (v : Word) : List Host.Cell :=
  memWrite m pa (leBytes n (hostAtomicValue op n v.toNat (leNat (memBytes m pa n))))

/-! ### Accesses that are served -/

/-- The write of a host at a line that its home may write. -/
theorem hostWriteThen_performs {s : State} {part : Nat} {hosts : Bool} {off : Nat} {l : Line} (hw : Writable s part off l) (perform : State → State) :
    hostWriteThen hosts part off perform s = perform s := by
  rw [hostWriteThen, ensureLine_held hw.line.1, hw.line.1]
  dsimp only
  rw [hw.alone]
  cases hosts <;> rfl

theorem writable_serves {s : State} {part off : Nat} {l : Line} (hnone : NoneWaits s) (hreset : beingReset s part = false) (hw : Writable s part off l) (serve : State → State) :
    hostInTurn part off true serve s = serve s :=
  hostInTurn_serves hnone hreset (fun x hx => by rw [hw.line.1] at hx; cases hx; exact hw.line.2) (lineRoom_held hw.line.1)
    (fun _ x hx => (hw.unlocked x hx).1) (fun _ => .inl hw.unheld)

section
variable {s : State} {port part off0 tag : Nat} {addr : BitVec 64}

theorem hostMemrd_runs {own : Bool} (harg : s.arg = .hostRead port tag addr own) :
    exec .hostMemrd s = .next (hostMemrd port addr own s) := by
  show execHostMemrd s = _
  rw [execHostMemrd, harg]

theorem hostMemwr_runs {data : BitVec 512} {relaxed : Bool} (harg : s.arg = .hostWrite port tag addr data relaxed) :
    exec .hostMemwr s = .next (hostMemwr port addr data s) := by
  show execHostMemwr s = _
  rw [execHostMemwr, harg]

theorem hostAtomic_runs {op : HostAtomicOp} {n : Nat} {v : Word} (harg : s.arg = .hostAtomic port tag addr op n v) :
    exec .hostAtomic s = .next (hostAtomicStep port addr op n v s) := by
  show execHostAtomic s = _
  rw [execHostAtomic, harg]

/-- R324: accesses to a partition that is being reset. -/
theorem accesses_in_reset (hreset : beingReset s part = true) (hdec : Decoded s port part addr off0) :
    (∀ own, s.arg = .hostRead port tag addr own → exec .hostMemrd s = .next { s with outbox := s.outbox ++ [.hostAbort port] }) ∧
      (∀ data relaxed, s.arg = .hostWrite port tag addr data relaxed → exec .hostMemwr s = .next s) ∧
      (∀ op n v, s.arg = .hostAtomic port tag addr op n v → n = 4 ∨ n = 8 → off0 % n = 0 →
        exec .hostAtomic s = .next { s with outbox := s.outbox ++ [.hostAbort port] }) := by
  have hoff := hdmOffset_decoded hdec
  have hport := Decoded.port hdec
  refine ⟨fun own harg => ?_, fun data relaxed harg => ?_, fun op n v harg hn hal => ?_⟩
  · have hwaits : awaitsHost s.arg = true := by rw [harg]; rfl
    rw [hostMemrd_runs harg, hostMemrd, hoff]
    exact congrArg _ ((hostInTurn_reset _ _ _ hreset).trans (by rw [hwaits, hport]; rfl))
  · have hwaits : awaitsHost s.arg = false := by rw [harg]; rfl
    rw [hostMemwr_runs harg, hostMemwr, hoff]
    exact congrArg _ ((hostInTurn_reset _ _ _ hreset).trans (by rw [hwaits]; rfl))
  · have hwaits : awaitsHost s.arg = true := by rw [harg]; rfl
    rw [hostAtomic_runs harg, hostAtomicStep, hoff]
    dsimp only
    rw [if_neg (by omega)]
    exact congrArg _ ((hostInTurn_reset _ _ _ hreset).trans (by rw [hwaits, hport]; rfl))

theorem hostRead_undecoded {own : Bool} (harg : s.arg = .hostRead port tag addr own) (hno : Undecoded s port addr) :
    exec .hostMemrd s = .next { s with outbox := s.outbox ++ [.hostUnsupported port] } := by
  rw [hostMemrd_runs harg, hostMemrd, hdmOffset_undecoded hno]
  rfl

theorem hostWrite_undecoded {data : BitVec 512} {relaxed : Bool} (harg : s.arg = .hostWrite port tag addr data relaxed)
    (hno : Undecoded s port addr) : exec .hostMemwr s = .next { s with outbox := s.outbox ++ [.hostUnsupported port] } := by
  rw [hostMemwr_runs harg, hostMemwr, hdmOffset_undecoded hno]
  rfl

theorem hostAtomic_undecoded {op : HostAtomicOp} {n : Nat} {v : Word} (harg : s.arg = .hostAtomic port tag addr op n v)
    (hno : Undecoded s port addr) : exec .hostAtomic s = .next { s with outbox := s.outbox ++ [.hostUnsupported port] } := by
  rw [hostAtomic_runs harg, hostAtomicStep, hdmOffset_undecoded hno]
  rfl

theorem hostAtomic_misfit {op : HostAtomicOp} {n : Nat} {v : Word} (hdec : Decoded s port part addr off0)
    (harg : s.arg = .hostAtomic port tag addr op n v)
    (hbad : (n ≠ 4 ∧ n ≠ 8) ∨ off0 % n ≠ 0) : exec .hostAtomic s = .next { s with outbox := s.outbox ++ [.hostUnsupported port] } := by
  rw [hostAtomic_runs harg, hostAtomicStep, hdmOffset_decoded hdec]
  dsimp only
  rw [if_pos hbad]
  rfl

variable (hnone : NoneWaits s) (hreset : beingReset s part = false) (hdec : Decoded s port part addr off0)
include hnone hreset hdec

theorem hostRead_served {own : Bool} {l : Line} (harg : s.arg = .hostRead port tag addr own) (hp : port < 2)
    (hl : HomeLine s part (off0 / 64 * 64) l) : ∃ t, exec .hostMemrd s = .next t ∧ Quiet s t ∧
      t.outbox = s.outbox ++ [.hostData port (memBytes s.mem (l.pa + off0 / 64 * 64 % 128) 64) false] ∧
      ((outDirOf s (lineRef part 4095 (off0 / 64 * 64))).host.length = 2 →
        (if own then 2 else 1) ≤ (outDirOf t (lineRef part 4095 (off0 / 64 * 64))).host.getD port 0) := by
  obtain ⟨hline, hstate⟩ := hl
  have hexec : exec .hostMemrd s = .next (reply (.hostData port (memBytes s.mem (l.pa + off0 / 64 * 64 % 128) 64) false)
      (noteHost (lineRef part 4095 (off0 / 64 * 64)) port own s)) := by
    have hadmits : admits s part 4095 (off0 / 64 * 64) false = none := by rw [admits, hline]; rfl
    have hnoted : findLine (noteHost (lineRef part 4095 (off0 / 64 * 64)) port own s) (lineRef part 4095 (off0 / 64 * 64)) =
        some { l with out := true } :=
      findLine_mapLine (s := setOutDir _ s) (f := fun l => { l with out := true }) (fun _ => rfl) hline
    rw [hostMemrd_runs harg, hostMemrd, hdmOffset_decoded hdec]
    dsimp only
    rw [hostInTurn_serves (w := false) hnone hreset (fun x hx => by rw [hline] at hx; cases hx; exact hstate) (lineRoom_held hline)
      (fun h => nomatch h) (fun h => nomatch h)]
    rw [hadmits]
    dsimp only
    rw [ensureLine_held hline, baseBytes_held hnoted]
    rfl
  exact ⟨_, hexec, ⟨rfl, rfl, rfl, rfl⟩, rfl, fun hlen => noteHost_host own hp hlen⟩

theorem hostRead_refused {own : Bool} {c : BitVec 8} (harg : s.arg = .hostRead port tag addr own)
    (hline : findLine s (lineRef part 4095 (off0 / 64 * 64)) = none) (hroom : lineRoom s (lineRef part 4095 (off0 / 64 * 64)) = true)
    (hcheck : hcCheck s part 4095 (off0 / 64 * 64) false false = .refuse c) :
    ∃ t, exec .hostMemrd s = .next t ∧ t.p = s.p ∧ t.g = s.g ∧ t.gangs = s.gangs ∧ RecordLeft part s t ∧
      .hostData port (List.replicate 64 0) true ∈ t.outbox := by
  have hadmits : admits s part 4095 (off0 / 64 * 64) false = some c := by rw [admits, hline, hcheck]
  have hexec : exec .hostMemrd s =
      .next (reply (.hostData port (List.replicate 64 0) true) (hostRecord part (off0 / 64 * 64) c s)) := by
    rw [hostMemrd_runs harg, hostMemrd, hdmOffset_decoded hdec]
    dsimp only
    rw [hostInTurn_serves (w := false) hnone hreset (fun x hx => by rw [hline] at hx; cases hx) hroom (fun h => nomatch h)
      (fun h => nomatch h)]
    rw [hadmits]
  exact ⟨_, hexec, refused_host _ c _ (Decoded.has hdec)⟩

theorem hostWrite_served {data : BitVec 512} {relaxed : Bool} {l : Line} (harg : s.arg = .hostWrite port tag addr data relaxed)
    (hw : Writable s part (off0 / 64 * 64) l) : ∃ t, exec .hostMemwr s = .next t ∧
      Quiet { s with mem := memWrite s.mem (l.pa + off0 / 64 * 64 % 128) (leBytes 64 data.toNat) } t ∧
      t.outbox = s.outbox ++ [.hostComplete port] := by
  have hadmits : admits s part 4095 (off0 / 64 * 64) true = none := by rw [admits, hw.line.1]; exact if_pos (by rw [hw.grant]; rfl)
  have hexec : exec .hostMemwr s =
      .next (reply (.hostComplete port) (writeBase 0 part 4095 (off0 / 64 * 64) (leBytes 64 data.toNat) s)) := by
    rw [hostMemwr_runs harg, hostMemwr, hdmOffset_decoded hdec]
    dsimp only
    rw [writable_serves hnone hreset hw]
    rw [hadmits, hw.unheld]
    exact congrArg Host.Outcome.next (hostWriteThen_performs (hosts := false) hw fun s =>
      reply (.hostComplete port) (writeBase 0 part 4095 (off0 / 64 * 64) (leBytes 64 data.toNat) s))
  rw [writeBase_held hw.line.1 (fun x hx => (hw.unlocked x hx).2)] at hexec
  exact ⟨_, hexec, ⟨rfl, rfl, rfl, rfl⟩, rfl⟩

theorem hostWrite_refused {data : BitVec 512} {relaxed : Bool} {c : BitVec 8} (harg : s.arg = .hostWrite port tag addr data relaxed)
    (hline : findLine s (lineRef part 4095 (off0 / 64 * 64)) = none) (hroom : lineRoom s (lineRef part 4095 (off0 / 64 * 64)) = true)
    (hcheck : hcCheck s part 4095 (off0 / 64 * 64) true false = .refuse c)
    (hlock : ∀ x, walk s part 4095 (off0 / 64 * 64) = some x → Pte.lock x.entry = false)
    (hheld : granuleHeld s part 4095 (off0 / 64 * 64) = false ∨ lateRoom s (homeHc (off0 / 64 * 64)) part = true) :
    ∃ t, exec .hostMemwr s = .next t ∧ t.p = s.p ∧ t.g = s.g ∧ t.gangs = s.gangs ∧ RecordLeft part s t ∧
      .hostComplete port ∈ t.outbox := by
  have hadmits : admits s part 4095 (off0 / 64 * 64) true = some c := by rw [admits, hline, hcheck]
  have hexec : exec .hostMemwr s = .next (reply (.hostComplete port) (hostRecord part (off0 / 64 * 64) c s)) := by
    rw [hostMemwr_runs harg, hostMemwr, hdmOffset_decoded hdec]
    dsimp only
    rw [hostInTurn_serves hnone hreset (fun x hx => by rw [hline] at hx; cases hx) hroom (fun _ => hlock) (fun _ => hheld)]
    rw [hadmits]
  exact ⟨_, hexec, refused_host _ c _ (Decoded.has hdec)⟩

/-- An atomic of a host in its turn at a line that its home may write. -/
theorem hostAtomic_inTurn {op : HostAtomicOp} {n : Nat} {v : Word} {l : Line} (harg : s.arg = .hostAtomic port tag addr op n v)
    (hn : n = 4 ∨ n = 8) (hal : off0 % n = 0) (hw : Writable s part off0 l) :
    exec .hostAtomic s = .next (if !onTaskPage s part 4095 off0 then reply (.hostUnsupported port) s
      else performHostAtomic port part off0 (hostAtomicAccess op n v) n s) := by
  have hadmits : admitsBoth s part 4095 off0 = none := by rw [admitsBoth, hw.line.1]; exact if_pos hw.grant
  rw [hostAtomic_runs harg, hostAtomicStep, hdmOffset_decoded hdec]
  dsimp only
  rw [if_neg (by omega), writable_serves hnone hreset hw, hadmits, hw.unheld]
  exact congrArg _ (if_congr Iff.rfl rfl (hostWriteThen_performs hw _))

theorem hostAtomic_offTaskPage {op : HostAtomicOp} {n : Nat} {v : Word} {l : Line} (harg : s.arg = .hostAtomic port tag addr op n v)
    (hn : n = 4 ∨ n = 8) (hal : off0 % n = 0) (hw : Writable s part off0 l) (htask : onTaskPage s part 4095 off0 = false) :
    exec .hostAtomic s = .next { s with outbox := s.outbox ++ [.hostUnsupported port] } := by
  rw [hostAtomic_inTurn hnone hreset hdec harg hn hal hw, htask]
  rfl

theorem hostAtomic_served {op : HostAtomicOp} {n : Nat} {v : Word} {l : Line} (harg : s.arg = .hostAtomic port tag addr op n v)
    (hn : n = 4 ∨ n = 8) (hal : off0 % n = 0) (hw : Writable s part off0 l) (htask : onTaskPage s part 4095 off0 = true)
    (hpred : 4 ≤ off0 % 128) : ∃ t, exec .hostAtomic s = .next t ∧
      Quiet { s with mem := atomicWritten s.mem (l.pa + off0 % 128) n op v } t ∧
      t.outbox = s.outbox ++ [.hostAtomicData port (BitVec.ofNat 64 (leNat (memBytes s.mem (l.pa + off0 % 128) n)))] := by
  have hexec := hostAtomic_inTurn hnone hreset hdec harg hn hal hw
  rw [htask] at hexec
  have hlen : (memBytes s.mem (l.pa + off0 % 128) n).length = n := by simp [memBytes, countFrom_eq]
  have hperform : performHostAtomic port part off0 (hostAtomicAccess op n v) n s =
      reply (.hostAtomicData port (BitVec.ofNat 64 (leNat (memBytes s.mem (l.pa + off0 % 128) n))))
        (writeBase 0 part 4095 off0
          (leBytes n (hostAtomicValue op n v.toNat (leNat (memBytes s.mem (l.pa + off0 % 128) n)))) s) := by
    rw [performHostAtomic, baseBytes_held hw.line.1, withReady, if_neg (Nat.not_lt.mpr hpred), hostAtomic_leaves op v hn hlen]
  rw [writeBase_held hw.line.1 (fun x hx => (hw.unlocked x hx).2)] at hperform
  exact ⟨_, hexec.trans (congrArg _ hperform), ⟨rfl, rfl, rfl, rfl⟩, rfl⟩

end

/-! ### Snoops and grants (R148) -/

theorem hpccOf_keys {s : State} {port line : Nat} {l : HpccLine} (h : hpccOf s port line = some l) : l.port = port ∧ l.addr = line := by
  simpa using (of_findFirst h).2

/-- What the HPCC holds of a line after its entry is set. -/
theorem hpccOf_setHpcc (l : HpccLine) (s : State) : hpccOf (setHpcc l s) l.port l.addr = if l.state = .i then none else some l := by
  have hnone : findFirst (fun x => x.port == l.port && x.addr == l.addr) (s.hpcc.filter fun x => !(x.port == l.port && x.addr == l.addr)) = none :=
    findFirst_none fun x hx => Bool.not_eq_true' _ ▸ (List.mem_filter.mp hx).2
  show findFirst _ (_ ++ _) = _
  rw [findFirst_eq_head, List.filter_append, List.head?_append, ← findFirst_eq_head, hnone]
  by_cases h : l.state = .i
  · simp [h]
  · simp [h]

/-- A snoop is answered from the state of the line, which becomes what its row gives. -/
theorem snoop_answers {inv cur : Bool} {s : State} {port addr : Nat} {l : HpccLine} (h : hpccOf s port (addr / 128 * 128) = some l) :
    Quiet s (snoop inv cur port addr s) ∧
      (snoop inv cur port addr s).outbox = s.outbox ++ [.snpAnswer port (addr / 128 * 128) (snoopRow inv cur l.state).1
        (if (snoopRow inv cur l.state).2.1 then l.data else [])] ∧
      hpccOf (snoop inv cur port addr s) port (addr / 128 * 128) =
        if (snoopRow inv cur l.state).2.2 = .i then none else some { l with state := (snoopRow inv cur l.state).2.2 } := by
  obtain ⟨hport, haddr⟩ := hpccOf_keys h
  rw [snoop]
  dsimp only
  rw [h]
  dsimp only
  by_cases hi : (snoopRow inv cur l.state).2.2 = .i
  · rw [if_pos hi, if_pos hi]
    refine ⟨⟨rfl, rfl, rfl, rfl⟩, rfl, ?_⟩
    rw [← hport, ← haddr]
    exact (hpccOf_setHpcc { l with state := .i } _).trans (if_pos rfl)
  · rw [if_neg hi, if_neg hi]
    refine ⟨⟨rfl, rfl, rfl, rfl⟩, rfl, ?_⟩
    rw [← hport, ← haddr]
    exact (hpccOf_setHpcc { l with state := (snoopRow inv cur l.state).2.2 } _).trans (if_neg hi)

theorem snoop_absent {inv cur : Bool} {s : State} {port addr : Nat} (h : hpccOf s port (addr / 128 * 128) = none) :
    snoop inv cur port addr s = { s with outbox := s.outbox ++ [.snpAnswer port (addr / 128 * 128) "RspIHitI" []] } := by
  rw [snoop]
  dsimp only
  rw [h]
  rfl

end Sys2Proof.Machine
end

section
/-! PROOF. Grants of host lines, and the links of the host ports (spec/06_coherence_fabric.md R148; spec/16_host_partitions_monitors.md R319,
R320; spec/20_faults_fabric_host_start.md R396, R397). -/

namespace Sys2Proof.Machine

open Sys2Proof.Rules

/-! ### Grants -/

theorem takePad_self {d : List Byte} {n : Nat} (h : d.length = n) : takePad n d = d := by
  rw [takePad, ← h]
  exact map_getAt_countFrom 0 d

theorem hpccRoom_below {s : State} {port line : Nat} (h : s.hpcc.length < 32768) : hpccRoom port line s = s := by
  rw [hpccRoom]
  exact if_pos (Nat.lt_of_le_of_lt (List.length_filter_le _ _) h)

theorem cxlCacheGrant_runs {s : State} {port addr : Nat} {st : Mesi} {d : List Byte} (harg : s.arg = .grant port addr st d) :
    exec .cxlCacheGrant s = .next (cacheGrant port addr st d s) := by
  show execCxlCacheGrant s = _
  rw [execCxlCacheGrant, harg]

theorem grant_unasked {s : State} {port addr : Nat} {st : Mesi} {d : List Byte} (harg : s.arg = .grant port addr st d)
    (h : (port, addr / 128 * 128) ∉ s.cxlAsked) : exec .cxlCacheGrant s = .next s := by
  rw [cxlCacheGrant_runs harg, cacheGrant]
  exact congrArg _ (if_pos (by simp [h]))

theorem grant_brings {s : State} {port addr : Nat} {st : Mesi} {d : List Byte} (harg : s.arg = .grant port addr st d) (hst : st ≠ .i)
    (hd : d.length = 128) (hasked : (port, addr / 128 * 128) ∈ s.cxlAsked) (hroom : s.hpcc.length < 32768)
    (hidle : ∀ q ∈ s.reqs, q.phase ≠ .pending) : ∃ t, exec .cxlCacheGrant s = .next t ∧ Quiet s t ∧
      hpccOf t port (addr / 128 * 128) = some { port := port, addr := addr / 128 * 128, state := st, data := d } := by
  let u : State := setHpcc { port := port, addr := addr / 128 * 128, state := st, data := d }
    { s with cxlAsked := s.cxlAsked.filter fun e => e != (port, addr / 128 * 128) }
  have hnone : (u.reqs.filter (waitsForLine u port (addr / 128 * 128))) = [] :=
    List.filter_eq_nil_iff.mpr fun q hq => by simp [waitsForLine, hidle q hq]
  have hexec : exec .cxlCacheGrant s = .next { u with
      agenda := ((u.hostQueue.filter (cacheGrant.fabricForLine u port (addr / 128 * 128))).flatMap fun e => resumeMove u e.2) ++ u.agenda } := by
    rw [cxlCacheGrant_runs harg, cacheGrant]
    dsimp only
    rw [if_neg (by simp [hst, hasked]), hpccRoom_below (by exact hroom), takePad_self hd, hnone]
    rfl
  have hline : hpccOf u port (addr / 128 * 128) = some { port := port, addr := addr / 128 * 128, state := st, data := d } :=
    (hpccOf_setHpcc { port := port, addr := addr / 128 * 128, state := st, data := d } _).trans (if_neg hst)
  exact ⟨_, hexec, ⟨rfl, rfl, rfl, rfl⟩, hline⟩

/-! ### Tasks that enter intake -/

/-- A relation of states holds over a task of a partition that enters intake. -/
structure OverIntake (part : Nat) (R : State → State → Prop) : Prop extends OverWrites R where
  waits : ∀ s a o, R s { s with readied := s.readied ++ [(part, a, o)] }
  joins : ∀ s (l : Launch), l.part = part → R s (mapPart part (fun q => { q with intake := q.intake ++ [l.id] })
    { s with launches := s.launches ++ [l], nextId := s.nextId + 1 })

/-- The launch of a control block belongs to the partition that reads it. -/
theorem checkTcb_part {s : State} {part asid off : Nat} {b : List Byte} {l : Launch} (h : checkTcb s part asid off b = .admitted l) :
    l.part = part := by
  unfold checkTcb at h
  split at h
  · cases h
  · split at h
    · cases h
    · split at h
      · cases h
      · split at h
        · split at h
          · cases h
          · cases h
          · split at h
            · cases h
            · cases h
              rfl
        · cases h
          rfl

section
variable {part : Nat} {R : State → State → Prop} (h : OverIntake part R)
include h

theorem OverIntake.askHosts (asid off n : Nat) (s : State) : R s (askHosts part asid off n s) := by
  rw [Machine.askHosts]
  refine h.foldl (f := fun s (e : Nat × Nat) =>
    let r := lineRef part asid e.1
    if dirtyHosts s r = [] ∨ (admits s part asid e.1 false).isSome then s
    else
      let s := Machine.ensureLine part asid e.1 s
      if (findLine s r).any fun l => decide (l.state = .p) then s
      else beginPending r [] (dirtyHosts s r) true .none s) (fun s e => ?_) _ s
  dsimp only
  split
  · exact h.refl s
  · split
    · exact h.ensureLine part asid e.1 s
    · exact h.trans (h.ensureLine part asid e.1 s) (h.bytes rfl)

theorem OverIntake.settleIntake (asid off : Nat) (obs : Bool) {r : IntakeAnswer} (hr : ∀ l, r = .admitted l → l.part = part) (s : State) :
    R s (settleIntake part asid off obs r s) := by
  cases r with
  | admitted l =>
    have hrelink (s : State) : R s (relink part s) := by
      rw [relink]
      refine h.foldl (fun s id => h.trans ?_ (h.devStore _ _ _ _ _ _)) _ s
      exact h.bytes rfl
    exact h.trans (h.joins s l (hr l rfl)) (hrelink _)
  | refused => exact h.devStore _ _ _ _ _ s
  | void => exact h.refl s

theorem OverIntake.enterIntake (asid off : Nat) (s : State) : R s (enterIntake part asid off s) := by
  unfold Machine.enterIntake
  dsimp only
  split
  · exact h.waits s asid off
  · split
    · exact h.trans (h.waits s asid off) (h.askHosts _ _ _ _)
    · exact h.settleIntake _ _ _ (fun l hl => checkTcb_part hl) s

end

/-- A relation of states holds over what follows when a line leaves P. -/
structure OverLines (R : State → State → Prop) : Prop extends OverWrites R where
  looked : ∀ s : State, R s { s with readied := [] }
  queued : ∀ (s : State) q a, R s { s with hostQueue := q, agenda := a }

section
variable {R : State → State → Prop} (h : OverLines R)
include h

theorem OverLines.retryIntake {s : State} (hr : ∀ e ∈ s.readied, OverIntake e.1 R) : R s (retryIntake s) := by
  rw [Machine.retryIntake]
  refine h.trans (h.looked s) ?_
  generalize ({ s with readied := [] } : State) = u
  revert hr u
  generalize s.readied = l
  intro hr u
  induction l generalizing u with
  | nil => exact h.refl u
  | cons e r ih =>
    refine h.trans ?_ (ih (fun x hx => hr x (List.mem_cons_of_mem e hx)) _)
    dsimp only
    split
    · exact h.refl u
    · exact (hr e (List.mem_cons_self ..)).enterIntake _ _ u

theorem OverLines.leavePending (r : LineRef) {s : State} (hr : ∀ e ∈ s.readied, OverIntake e.1 R) : R s (leavePending r s) := by
  unfold Machine.leavePending
  split
  · exact h.refl s
  · split
    · refine h.trans ?_ (h.queued _ _ _)
      refine h.trans (h.bytes (t := mapLine r (fun l => { l with state := .d, resume := .none, share := false, laid := [] }) s) rfl) ?_
      exact h.retryIntake hr
    · exact h.refl s

end

theorem fades_mapOther {part n : Nat} (hne : n ≠ part) {f : Partition → Partition} (hid : ∀ q, (f q).id = q.id) (s : State) :
    Fades part s (mapPart n f s) :=
  { Fades.refl part s with
    parts := fun r hr e => by
      obtain ⟨q, hq, rfl⟩ := mem_updateWhere hr
      by_cases h : (q.id == n) = true
      · rw [if_pos h, hid] at e
        exact absurd (e ▸ (beq_iff_eq.mp h).symm) hne
      · rw [if_neg h] at e ⊢
        exact ⟨q, hq, e, id⟩ }

theorem fades_overIntake {part p : Nat} (hne : p ≠ part) : OverIntake p (Fades part) where
  toOverWrites := fades_overWrites part
  waits s a o := { Fades.refl part s with
    readied := fun e he hp => (List.mem_append.mp he).elim id fun he => absurd (by rw [List.mem_singleton.mp he] at hp; exact hp) hne }
  joins s l hl := by
    refine .trans ?_ (fades_mapOther hne (f := fun q => { q with intake := q.intake ++ [l.id] }) (fun _ => rfl) _)
    exact { Fades.refl part s with
      launches := fun x hx e => (List.mem_append.mp hx).elim (fun hx => ⟨x, hx, rfl, e, id⟩) fun hx =>
        absurd (hl.symm.trans (by rw [← List.mem_singleton.mp hx]; exact e)) hne }

theorem fades_overLines (part : Nat) : OverLines (Fades part) where
  toOverWrites := fades_overWrites part
  looked s := { Fades.refl part s with readied := fun _ he => nomatch he }
  queued _ _ _ := .of_eq

/-! ### Links -/

/-- The ports, their commands, and the host lines that the device has. -/
def State.hostSide (s : State) : List Port × List Nat × List HpccLine := (s.ports, s.posted, s.hpcc)

theorem hostSide_overWrites : OverWrites fun s t => t.hostSide = s.hostSide := keeps_overWrites State.hostSide fun _ _ => rfl

theorem hostSide_overIntake (p : Nat) : OverIntake p fun s t => t.hostSide = s.hostSide where
  toOverWrites := hostSide_overWrites
  waits _ _ _ := rfl
  joins _ _ _ := rfl

theorem hostSide_overLines : OverLines fun s t => t.hostSide = s.hostSide where
  toOverWrites := hostSide_overWrites
  looked _ := rfl
  queued _ _ _ := rfl

/-- The host lines of a lost port go. -/
def dropHostLines (port : Nat) (s : State) : State := s.hpcc.foldl (fun s l => if l.port = port then dropHostLine l s else s) s

/-- The device after the coherent state of a lost port is dropped, but for the lines that waited for its host. -/
def portCleared (port : Nat) (s : State) : State :=
  let ds := s.outDirs.map fun d => { d with host := setAt d.host port 0 }
  let s := dropHostLines port s
  { s with
    cxlAsked := s.cxlAsked.filter fun e => e.1 != port
    outDirs := ds.filter fun d => !decide (d.dev = 0 ∧ d.host = [0, 0])
    hostQueue := s.hostQueue.filter fun e => !(fromHost e.2 && (partOf s e.1.part).port == port) }

/-- A line that waited for the host of a lost port waits for it no more. -/
def unwait (port : Nat) (s : State) (l : Line) : State :=
  leavePending l.ref (mapLine l.ref (fun x => { x with hostAcks := x.hostAcks.filter fun p => p != port }) s)

theorem settlePort_eq (port : Nat) (s : State) : settlePort port s =
    ((portCleared port s).lines.filter fun l => l.hostAcks.contains port).foldl (unwait port) (portCleared port s) := rfl

theorem dropHostLine_keeps (l : HpccLine) (s : State) : (dropHostLine l s).posted = s.posted ∧ (dropHostLine l s).ports = s.ports ∧
    (dropHostLine l s).readied = s.readied ∧ (∀ part, Fades part s (dropHostLine l s)) ∧
    (dropHostLine l s).hpcc = s.hpcc.filter fun x => !(x.port == l.port && x.addr == l.addr) := by
  refine ⟨rfl, rfl, rfl, fun part => .trans ?_ ((fades_overWrites part).copies _ _), List.append_nil _⟩
  exact .of_eq

/-- What is left after the host lines of a port have gone, from a list of them on. -/
theorem dropHostLines_from (port : Nat) (ls : List HpccLine) (s : State) :
    let t := ls.foldl (fun s l => if l.port = port then dropHostLine l s else s) s
    t.posted = s.posted ∧ t.ports = s.ports ∧ t.readied = s.readied ∧ (∀ part, Fades part s t) ∧
      ∀ l ∈ t.hpcc, l ∈ s.hpcc ∧ (l ∈ ls → l.port ≠ port) := by
  induction ls generalizing s with
  | nil => exact ⟨rfl, rfl, rfl, fun part => .refl part s, fun l hl => ⟨hl, fun h => nomatch h⟩⟩
  | cons a r ih =>
    dsimp only [List.foldl_cons] at ih ⊢
    by_cases ha : a.port = port
    · obtain ⟨hposted, hports, hreadied, hfades, hhpcc⟩ := dropHostLine_keeps a s
      obtain ⟨h1, h2, h3, h4, h5⟩ := ih (dropHostLine a s)
      rw [if_pos ha]
      refine ⟨h1.trans hposted, h2.trans hports, h3.trans hreadied, fun part => (hfades part).trans (h4 part), fun l hl => ?_⟩
      obtain ⟨hmem, hrest⟩ := h5 l hl
      rw [hhpcc] at hmem
      obtain ⟨hin, hkeep⟩ := List.mem_filter.mp hmem
      refine ⟨hin, fun hl' => ?_⟩
      obtain rfl | hl' := List.mem_cons.mp hl'
      · simp at hkeep
      · exact hrest hl'
    · obtain ⟨h1, h2, h3, h4, h5⟩ := ih s
      rw [if_neg ha]
      refine ⟨h1, h2, h3, h4, fun l hl => ⟨(h5 l hl).1, fun hl' => ?_⟩⟩
      obtain rfl | hl' := List.mem_cons.mp hl'
      · exact ha
      · exact (h5 l hl).2 hl'

theorem portCleared_keeps (port : Nat) (s : State) : (portCleared port s).posted = s.posted ∧ (portCleared port s).ports = s.ports ∧
    (portCleared port s).readied = s.readied ∧ (∀ part, Fades part s (portCleared port s)) ∧
    ∀ l ∈ (portCleared port s).hpcc, l.port ≠ port := by
  obtain ⟨h1, h2, h3, h4, h5⟩ := dropHostLines_from port s.hpcc s
  exact ⟨h1, h2, h3, fun part => (h4 part).trans .of_eq, fun l hl => (h5 l hl).2 (h5 l hl).1⟩

theorem unwait_hostSide (port : Nat) (s : State) (l : Line) : (unwait port s l).hostSide = s.hostSide :=
  hostSide_overLines.leavePending l.ref (s := mapLine l.ref (fun x => { x with hostAcks := x.hostAcks.filter fun p => p != port }) s)
    fun e _ => hostSide_overIntake e.1

theorem fades_unwait {part port : Nat} {s : State} (h : ∀ e ∈ s.readied, e.1 ≠ part) (l : Line) : Fades part s (unwait port s l) :=
  .trans (t := mapLine l.ref (fun x => { x with hostAcks := x.hostAcks.filter fun p => p != port }) s) .of_eq
    ((fades_overLines part).leavePending l.ref fun e he => fades_overIntake (h e he))

theorem fades_unwaits {part port : Nat} (ls : List Line) {s : State} (h : ∀ e ∈ s.readied, e.1 ≠ part) :
    Fades part s (ls.foldl (unwait port) s) := by
  induction ls generalizing s with
  | nil => exact .refl part s
  | cons a r ih =>
    have hstep := fades_unwait (port := port) h a
    exact hstep.trans (ih fun e he hp => h e (hstep.readied e he hp) hp)

theorem settlePort_hostSide (port : Nat) (s : State) : (settlePort port s).posted = s.posted ∧ (settlePort port s).ports = s.ports ∧
    ∀ l ∈ (settlePort port s).hpcc, l.port ≠ port := by
  obtain ⟨h1, h2, -, -, h5⟩ := portCleared_keeps port s
  have hside : (settlePort port s).hostSide = (portCleared port s).hostSide := by
    rw [settlePort_eq]
    exact hostSide_overLines.foldl (f := unwait port) (fun s l => unwait_hostSide port s l) _ _
  have hports : (settlePort port s).ports = (portCleared port s).ports := congrArg (fun e => e.1) hside
  have hposted : (settlePort port s).posted = (portCleared port s).posted := congrArg (fun e => e.2.1) hside
  have hhpcc : (settlePort port s).hpcc = (portCleared port s).hpcc := congrArg (fun e => e.2.2) hside
  exact ⟨hposted.trans h1, hports.trans h2, hhpcc ▸ h5⟩

theorem fades_settlePort {part : Nat} (port : Nat) {s : State} (h : ∀ e ∈ s.readied, e.1 ≠ part) : Fades part s (settlePort port s) := by
  obtain ⟨-, -, h3, h4, -⟩ := portCleared_keeps port s
  rw [settlePort_eq]
  exact (h4 part).trans (fades_unwaits _ (h3.symm ▸ h))

section
variable {s : State} {port : Nat} {p : Port} (hp : s.ports[port]? = some p)
include hp

theorem linkDown_lowers (harg : s.arg = .num port) :
    exec .hostLinkDown s = .next { s with ports := s.ports.set port { p with linkUp := false } } :=
  congrArg Host.Outcome.next ((onNum_runs harg _).trans (mapPort_of hp _))

omit hp in
theorem linkRetrain_lost {flit : Bool} (harg : s.arg = .numBool port flit) (hlost : portLost s port = true) :
    exec .hostLinkRetrain s = .next s := by
  show execHostLinkRetrain s = _
  rw [execHostLinkRetrain, harg]
  exact congrArg Host.Outcome.next (if_pos hlost)

theorem linkRetrain_serves {flit : Bool} (harg : s.arg = .numBool port flit) (hkept : portLost s port = false) (hnone : s.readied = []) :
    exec .hostLinkRetrain s = .next { s with ports := s.ports.set port { p with linkUp := true, down := false, flit := flit } } := by
  have hexec : exec .hostLinkRetrain s = .next (if portLost s port then s
      else retryIntake (mapPort port (fun p => { p with linkUp := true, down := false, flit := flit }) s)) := by
    show execHostLinkRetrain s = _
    rw [execHostLinkRetrain, harg]
  have hretry (u : State) (hu : u.readied = []) : retryIntake u = u := by
    have hlook : retryIntake u = { u with readied := [] } := by
      rw [retryIntake, hu]
      rfl
    rw [hlook, ← hu]
  rw [hexec, hkept, if_neg Bool.false_ne_true, mapPort_of hp]
  exact congrArg Host.Outcome.next (hretry _ hnone)

/-- R396: the loss of a link resets the partitions bound to its port. -/
theorem linkLoss_resets (harg : s.arg = .num port) : ∃ t, exec .hostLinkLoss s = .next t ∧ t.posted = s.posted ∧
    t.ports = s.ports.set port { p with linkUp := false, down := true } ∧
    (∀ q ∈ s.parts, q.port = port → PartReset q.id t) ∧ ∀ l ∈ t.hpcc, l.port ≠ port := by
  have hexec : exec .hostLinkLoss s = .next (settlePort port (resetParts 0xF1 (s.parts.filter fun q => q.port == port)
      { s with ports := s.ports.set port { p with linkUp := false, down := true } })) := by
    refine congrArg Host.Outcome.next ((onNum_runs harg _).trans ?_)
    rw [mapPort_of hp]
  generalize hv : ({ s with ports := s.ports.set port { p with linkUp := false, down := true } } : State) = v at hexec
  have hkeep := sansReset_overResets.resetParts 0xF1 (s.parts.filter fun q => q.port == port) v
  have hposted : (resetParts 0xF1 (s.parts.filter fun q => q.port == port) v).posted = v.posted := (congrArg State.posted hkeep :)
  have hports : (resetParts 0xF1 (s.parts.filter fun q => q.port == port) v).ports = v.ports := (congrArg State.ports hkeep :)
  obtain ⟨h1, h2, h3⟩ := settlePort_hostSide port (resetParts 0xF1 (s.parts.filter fun q => q.port == port) v)
  refine ⟨_, hexec, h1.trans (hposted.trans (by rw [← hv])), h2.trans (hports.trans (by rw [← hv])), fun q hq hport => ?_, h3⟩
  have hmem : q ∈ s.parts.filter fun q => q.port == port := List.mem_filter.mpr ⟨hq, by simpa using hport⟩
  exact partReset_fades (resetParts_reset 0xF1 _ v q hmem) (fades_settlePort port (resetParts_readied 0xF1 _ v q hmem))

end

/-! ### Snoops by their rows -/

/-- What a step answers to a snoop of each kind, and of each state of the line. -/
def SnoopStep (i : Instr) (inv cur : Bool) (rows : List (Mesi × String × Bool × Mesi)) : Prop :=
  (∀ s : State, exec i s = .next (onNum2 (snoop inv cur) s)) ∧ ∀ row ∈ rows, snoopRow inv cur row.1 = row.2

theorem snoopRows_steps : ∀ e ∈ snoopRows, ∃ inv cur, SnoopStep e.1 inv cur e.2 := by
  intro e he
  simp only [snoopRows, List.mem_cons, List.not_mem_nil, or_false] at he
  obtain rfl | rfl | rfl := he
  · exact ⟨false, false, fun _ => rfl, by decide⟩
  · exact ⟨true, false, fun _ => rfl, by decide⟩
  · exact ⟨false, true, fun _ => rfl, by decide⟩

theorem snoops_answered {i : Instr} {inv cur : Bool} {rows : List (Mesi × String × Bool × Mesi)} (h : SnoopStep i inv cur rows) {s : State}
    {port addr : Nat} (harg : s.arg = .num2 port addr) :
    (hpccOf s port (addr / 128 * 128) = none →
      exec i s = .next { s with outbox := s.outbox ++ [.snpAnswer port (addr / 128 * 128) "RspIHitI" []] }) ∧
    ∀ row ∈ rows, ∀ l, hpccOf s port (addr / 128 * 128) = some l → l.state = row.1 → ∃ t, exec i s = .next t ∧ Quiet s t ∧
      t.outbox = s.outbox ++ [.snpAnswer port (addr / 128 * 128) row.2.1 (if row.2.2.1 then l.data else [])] ∧
      hpccOf t port (addr / 128 * 128) = (if row.2.2.2 = .i then none else some { l with state := row.2.2.2 }) := by
  obtain ⟨hexec, hrows⟩ := h
  have hnum : onNum2 (snoop inv cur) s = snoop inv cur port addr s := by rw [onNum2, harg]
  refine ⟨fun hnone => (hexec s).trans (congrArg _ (hnum.trans (snoop_absent hnone))), fun row hrow l hl hstate => ?_⟩
  have hanswer := snoop_answers (inv := inv) (cur := cur) hl
  rw [hstate, hrows row hrow] at hanswer
  exact ⟨_, (hexec s).trans (congrArg _ hnum), hanswer⟩

/-- Settles O51: the accesses of hosts by the line that serves them, snoops by their rows, and a lost link by the reset of its
partitions, which nothing that follows undoes. -/
theorem hostAccessesAreAnswered : Obligations.HostAccessesAreAnswered := by
  refine ⟨fun s port part tag off0 addr hnone => ⟨fun hreset hdec => accesses_in_reset hreset hdec, fun hreset =>
      ⟨fun own harg => ⟨hostRead_undecoded harg, fun l hdec hp hl => hostRead_served hnone hreset hdec harg hp hl,
          fun c hdec hline hroom hcheck => hostRead_refused hnone hreset hdec harg hline hroom hcheck⟩,
        fun data relaxed harg => ⟨hostWrite_undecoded harg, fun l hdec hw => hostWrite_served hnone hreset hdec harg hw,
          fun c hdec hline hroom hcheck hlock hheld => hostWrite_refused hnone hreset hdec harg hline hroom hcheck hlock hheld⟩,
        fun op n v harg => ⟨hostAtomic_undecoded harg, fun hdec hbad => hostAtomic_misfit hdec harg hbad,
          fun l hdec hn hal hw => ⟨hostAtomic_offTaskPage hnone hreset hdec harg hn hal hw,
            hostAtomic_served hnone hreset hdec harg hn hal hw⟩⟩⟩⟩,
    fun e he s port addr harg => ?_, fun s port addr st d harg hst hd => ⟨grant_unasked harg, grant_brings harg hst hd⟩,
    fun s port p hp => ⟨linkDown_lowers hp, fun flit harg => ⟨linkRetrain_serves hp harg, fun hlost => ?_⟩, fun harg => ?_⟩⟩
  · obtain ⟨inv, cur, h⟩ := snoopRows_steps e he
    exact snoops_answered h harg
  · exact linkRetrain_lost harg hlost
  · obtain ⟨t, hexec, hposted, hports, hreset, hhpcc⟩ := linkLoss_resets hp harg
    refine ⟨t, hexec, hposted, hports, fun q hq hport => ?_, hhpcc⟩
    obtain ⟨hlaunches, -, -, -, -, hparts⟩ := hreset q hq hport
    refine ⟨hlaunches, fun r hr hid => ?_⟩
    obtain ⟨htvec, -, hrest⟩ := hparts r hr hid
    exact ⟨htvec, hrest⟩

end Sys2Proof.Machine
end

section
/-! PROOF. Prefetches and discards (spec/11_isa_memory_sync.md R242, R243): a discard of granules is held in its region or sent, and a
prefetch fills lines, which shows in no byte of a live granule. -/

namespace Sys2Proof.Machine

open Sys2Proof.Rules

/-! ### Discards that leave (R125, R243) -/

/-- A discard of this node's own memory. -/
structure IsDiscard (b : BufStore) : Prop where
  tile : b.tile = none
  cls : b.cls = 0
  op : b.op = .discard

theorem IsDiscard.near {b : BufStore} (h : IsDiscard b) (own : Nat) : isFar own b = false := by
  rw [isFar, h.tile, h.cls]
  rfl

/-- The device without what discards change as they leave: what is on its way, and what launches note. -/
def State.sansDiscards (s : State) : State := { s with reqs := [], nextId := 0, launches := s.launches.map Launch.plain }

theorem noted_sansDiscards (n : Nat) (q : Req) : Keeps State.sansDiscards (mapLaunch n fun l => { l with discards := l.discards ++ [q] }) :=
  fun s => congrArg (fun L => { s.sansDiscards with launches := L })
    (mapLaunch_plain n (fun l => { l with discards := l.discards ++ [q] }) (fun _ => rfl) s)

theorem releaseStore_sansDiscards {b : BufStore} (h : IsDiscard b) : Keeps State.sansDiscards (releaseStore b) := by
  intro s
  rw [releaseStore, h.tile]
  dsimp only
  rw [h.op]
  split
  · exact noted_sansDiscards _ _ s
  · rfl

theorem groupFar_append {own : Nat} {bs : List BufStore} (h : ∀ b ∈ bs, IsDiscard b) (l : List BufStore) :
    groupFar own (l ++ bs) = groupFar own l ++ bs.map fun b => [b] := by
  induction l with
  | nil =>
    show groupFar own bs = bs.map fun b => [b]
    induction bs with
    | nil => rfl
    | cons b r ih =>
      obtain ⟨hb, hr⟩ := List.forall_mem_cons.mp h
      rw [groupFar, ih hr, hb.near]
      cases r <;> rfl
  | cons a l ih =>
    rw [List.cons_append, groupFar, groupFar, ih]
    cases hl : groupFar own l with
    | nil =>
      cases bs with
      | nil => rfl
      | cons b r => simp [(h b List.mem_cons_self).near]
    | cons g gs =>
      cases g with
      | nil => rfl
      | cons c g =>
        dsimp only [List.cons_append]
        split <;> rfl

/-- Discards at the end of a region leave after its stores, one by one. -/
theorem releaseAll_append {bs : List BufStore} (h : ∀ b ∈ bs, IsDiscard b) (l : List BufStore) (s : State) :
    releaseAll (l ++ bs) s = bs.foldl (fun s b => releaseStore b s) (releaseAll l s) := by
  rw [releaseAll, releaseAll, groupFar_append h, List.foldl_append, List.foldl_map]
  refine List.foldl_ext _ _ _ fun x b hb => ?_
  rw [releaseGroup, (h b hb).near, if_neg Bool.false_ne_true]

theorem foldl_sansDiscards {bs : List BufStore} (h : ∀ b ∈ bs, IsDiscard b) :
    Keeps State.sansDiscards fun s => bs.foldl (fun s b => releaseStore b s) s := by
  intro s
  induction bs generalizing s with
  | nil => rfl
  | cons b r ih =>
    obtain ⟨hb, hr⟩ := List.forall_mem_cons.mp h
    exact (ih hr _).trans (releaseStore_sansDiscards hb s)

theorem field_sansDiscards {β : Type} {x y : State} (h : x.sansDiscards = y.sansDiscards) (view : State → β)
    (hview : ∀ z, view z.sansDiscards = view z) : view x = view y := by
  rw [← hview x, h, hview]

theorem cuffView_sansDiscards (z : State) : z.sansDiscards.cuffView = z.cuffView := by
  simp [State.sansDiscards, State.cuffView, Launch.plain]

/-- Discards take no room in the Cuff buffer. -/
theorem room_discards {bs : List BufStore} (h : ∀ b ∈ bs, IsDiscard b) {s : State} (room : NoSpill s) :
    NoSpill { s with p := { s.p with buffer := s.p.buffer ++ bs } } := by
  have hkept := foldl_sansDiscards h (releaseRegion s)
  have hcuff := field_sansDiscards hkept (fun z => z.g.cuff) fun _ => rfl
  rw [NoSpill, releaseRegion]
  dsimp only
  rw [releaseAll_append h]
  exact hcuff ▸ room

/-- A discard of a free launch or of a handler leaves for its home. -/
theorem releaseStore_asks {b : BufStore} (h : IsDiscard b) {s x : State} (hfree : detNow s = false) (hx : x.sansAsks = s.sansAsks) :
    Asks (fun q => q.lane = b.lane ∧ q.va = b.va ∧ q.op = .discard ∧ q.gang = s.g.id ∧ q.lanes = s.p.members ∧ q.phase = .sent) .none x
      (releaseStore b x) := by
  have hdet : detNow x = false := (field_sansAsks hx detNow fun _ => rfl).trans hfree
  have hgang : x.g.id = s.g.id := field_sansAsks hx (fun z => z.g.id) fun _ => rfl
  have hmembers : x.p.members = s.p.members := field_sansAsks hx (fun z => z.p.members) fun _ => rfl
  rw [releaseStore, h.tile]
  dsimp only
  rw [hdet, Bool.false_and, Bool.false_and, if_neg Bool.false_ne_true]
  exact asks_sendReq (d := .none) trivial rfl rfl rfl (fun _ => rfl) ⟨rfl, rfl, h.op, hgang, hmembers, rfl⟩

/-- What falls through from a state falls through from any other of the same loops, clock and held stores. -/
theorem Done.of_same {w : Nat} {x u t : State} (h : Done w x t) (room : NoSpill u) (hb : x.besides = u.besides)
    (hbuffer : x.p.buffer = u.p.buffer) (hloops : SameLoops x.p u.p) (hclock : x.p.clock = u.p.clock) (hm : x.mem = u.mem) :
    Done w u t := by
  have hstatus : x.p.status = u.p.status := congrArg (fun z => z.p.status) hb
  obtain ⟨hpc, hloop, hclk, hwait⟩ := h.retired hloops hstatus hclock
  refine ⟨hpc, hloop, hclk, hwait, ?_, fun a => hm ▸ h.memory a⟩
  rcases h.rest with ⟨hr, hbuf⟩ | ⟨hr, hbuf⟩
  · exact .inl ⟨hr.trans hb, hbuf.trans hbuffer⟩
  · exact .inr ⟨hr.trans (commitRegion_besides hb hbuffer room), hbuf⟩

/-- Where no loop body ends, an instruction falls through with its region open. -/
theorem finish_buffer_kept (w : Nat) {x : State} (h : (edges x).count = 0) : (finish w x).p.buffer = x.p.buffer := by
  obtain ⟨Q, hy, -⟩ := retired_eq (addClock w x)
  rw [addClock_eq] at hy
  rw [finish, addClock_eq, hy, fallThrough]
  have hl : SameLoops { x.p with clock := clockAfter w x, fresh := false, wait := .none } x.p := ⟨rfl, rfl, rfl, rfl, rfl, rfl, rfl⟩
  rw [if_pos ((backEdges_congr (x.p.pc + 4) hl).count.trans h)]

/-! ### dis (R243) -/

section

variable {o : OpDis} {s : State}

/-- The granules that a `dis` names, each as its region holds it. -/
def disHeld (o : OpDis) (s : State) : List BufStore :=
  (List.range ((getS s o.d.toNat).toNat / 65536)).map fun k =>
    held s (.dis o) 64 (address s o.w ((getS s o.a.toNat).toNat % 2 ^ 32 + 65536 * k)) 65536 .discard

theorem disHeld_discards : ∀ b ∈ disHeld o s, IsDiscard b := fun b hb => by
  obtain ⟨k, -, rfl⟩ := List.mem_map.mp hb
  exact ⟨rfl, rfl, rfl⟩

/-- What `dis` asks of its window and its range (R243). -/
structure DisReady (o : OpDis) (s : State) : Prop where
  form : wellFormed (.dis o) = true
  valid : (getW s o.w.toNat).valid = true
  usable : (getW s o.w.toNat).stale = false
  node : (getW s o.w.toNat).base.getLsbD 63 = false
  start : (getW s o.w.toNat).base.toNat % 2 ^ 53 + (getS s o.a.toNat).toNat % 2 ^ 32 < 2 ^ 53
  inside : (getS s o.d.toNat).toNat ≠ 0 →
    (getW s o.w.toNat).base.toNat % 2 ^ 53 + (getS s o.a.toNat).toNat % 2 ^ 32 + (getS s o.d.toNat).toNat ≤ 3 * 2 ^ 51
  aligned : ((getW s o.w.toNat).base.toNat % 2 ^ 53 + (getS s o.a.toNat).toNat % 2 ^ 32) % 65536 = 0
  whole : (getS s o.d.toNat).toNat % 65536 = 0
  permitted : ∀ k < (getS s o.d.toNat).toNat / 65536,
    if (getS s o.a.toNat).toNat % 2 ^ 32 + 65536 * k + 65536 ≤ (getW s o.w.toNat).limit.toNat then
      (getW s o.w.toNat).perm.getLsbD 1 = true
    else ∃ e, plbEntry s s.g.core s.g.part s.g.asid
      ((getW s o.w.toNat).base + BitVec.ofNat 64 ((getS s o.a.toNat).toNat % 2 ^ 32 + 65536 * k)) = some e ∧ e.perm.getLsbD 1 = true

theorem granuleChecks_ok {w : Window} {off : Nat} {gs : List Nat}
    (h : ∀ k ∈ gs, corePermission s w (off + 65536 * k) 65536 writeNeed = .ok) : granuleChecks s w off gs = none := by
  induction gs with
  | nil => rfl
  | cons k r ih =>
    obtain ⟨hk, hr⟩ := List.forall_mem_cons.mp h
    rw [granuleChecks, hk]
    exact ih hr

/-- A `dis` whose range the rules admit passes its checks. -/
theorem DisReady.verdict (h : DisReady o s) :
    disVerdict s (usableWindow s (getW s o.w.toNat)) ((getS s o.a.toNat).toNat % 2 ^ 32) (getS s o.d.toNat).toNat = .ok := by
  obtain ⟨-, hvalid, husable, hnode, hstart, hinside, haligned, hwhole, hpermitted⟩ := h
  have hwindow : usableWindow s (getW s o.w.toNat) = getW s o.w.toNat := by rw [usableWindow, husable]; rfl
  have hchecks : granuleChecks s (getW s o.w.toNat) ((getS s o.a.toNat).toNat % 2 ^ 32)
      (countFrom 0 ((getS s o.d.toNat).toNat / 65536)) = none :=
    granuleChecks_ok fun k hk => corePermission_ok husable (hpermitted k (mem_countFrom_zero.mp hk))
  have hcontrol : isControl (getW s o.w.toNat).base = false := hnode
  have hend : ¬ 2 ^ 53 < (getW s o.w.toNat).base.toNat % 2 ^ 53 + (getS s o.a.toNat).toNat % 2 ^ 32 + max (getS s o.d.toNat).toNat 1 := by
    omega
  have hhost : ¬ (0 < (getS s o.d.toNat).toNat ∧
      3 * 2 ^ 51 < (getW s o.w.toNat).base.toNat % 2 ^ 53 + (getS s o.a.toNat).toNat % 2 ^ 32 + (getS s o.d.toNat).toNat) := by omega
  simp only [disVerdict, hwindow, hvalid, hcontrol, hend, hhost, haligned, hwhole, hchecks, Bool.not_true, Bool.not_false, Bool.false_and,
    Bool.true_and, ← Bool.decide_and, decide_false, Bool.or_self, Bool.false_eq_true, ne_eq, not_true_eq_false, if_false]

/-- The form of a `dis`, which reads its window, its offset and its length. -/
def disForm (o : OpDis) : Form := { Form.plain (wordOf (encode (.dis o))) 4 with
  bad := if wellFormed (.dis o) then none else some 0x03
  addrs := [(codeS o.a.toNat, false), (codeS o.d.toNat, false)]
  reads := [codeW o.w.toNat] }

/-- The state without what a `dis` changes before it falls through. -/
def State.sansHeld (s : State) : State :=
  { s.sansDiscards with p := { s.p with liveIn := [], written := [], buffer := [] } }

theorem entered_dis (o : OpDis) (s : State) : ∃ li w, entered (disForm o) s = { s with p := { s.p with liveIn := li, written := w } } :=
  entered_reading ⟨rfl, rfl⟩ rfl

theorem discards_held (h : DisReady o s) : ((discards (entered (disForm o) s) (wordOf (encode (.dis o))) (getW s o.w.toNat)
    ((getS s o.a.toNat).toNat % 2 ^ 32) (getS s o.d.toNat).toNat).filter fun b => !isControl b.va) = disHeld o s := by
  obtain ⟨li, w, hentered⟩ := entered_dis o s
  have hall : discards (entered (disForm o) s) (wordOf (encode (.dis o))) (getW s o.w.toNat)
      ((getS s o.a.toNat).toNat % 2 ^ 32) (getS s o.d.toNat).toNat = disHeld o s := by
    rw [discards, countFrom_eq, List.map_map, hentered]
    refine List.map_congr_left fun k _ => ?_
    dsimp only [Function.comp_apply]
    rw [Nat.zero_add, windowAddress_eq]
    rfl
  rw [hall, List.filter_eq_self]
  intro b hb
  obtain ⟨k, -, rfl⟩ := List.mem_map.mp hb
  show (!isControl (address s o.w _)) = true
  rw [isControl_address, h.node]
  rfl

/-- A part of the device that neither a `dis` nor what it holds or sends changes. -/
theorem field_sansHeld {β : Type} {x y : State} (h : x.sansHeld = y.sansHeld) (view : State → β) (hview : ∀ z, view z.sansHeld = view z) :
    view x = view y := by
  rw [← hview x, h, hview]

/-- Discards that are held or sent leave a state that falls through as the state before does. -/
theorem falls_sansHeld {x t : State} (hx : x.sansHeld = s.sansHeld) (room : NoSpill x) (hdone : Done 4 x t) : Retired 4 s t ∧ Unwritten s t := by
  have hp (p : Split) : SameLoops { p with liveIn := [], written := [], buffer := [] } p := ⟨rfl, rfl, rfl, rfl, rfl, rfl, rfl⟩
  have hxs : { x.p with liveIn := [], written := [], buffer := [] } = { s.p with liveIn := [], written := [], buffer := [] } :=
    congrArg State.p hx
  have hloops : SameLoops x.p s.p := by
    obtain ⟨hpc, hrstack, hlr0, hlr1, hlater, hlc0, hlc1⟩ := hxs ▸ hp x.p
    exact ⟨hpc.symm, hrstack.symm, hlr0.symm, hlr1.symm, hlater.symm, hlc0.symm, hlc1.symm⟩
  have keep {β : Type} (view : State → β) (hview : ∀ z, view z.sansHeld = view z) : view x = view s := field_sansHeld hx view hview
  have hunwritten : Unwritten s x :=
    ⟨keep (fun x => x.p.sregs) fun _ => rfl, keep (fun x => x.p.wins) fun _ => rfl,
      ⟨keep (fun x => x.p.mode) fun _ => rfl, keep (fun x => x.p.exec) fun _ => rfl, keep (fun x => x.p.fstat) fun _ => rfl,
        keep (fun x => x.p.status) fun _ => rfl, keep (fun x => x.p.epc) fun _ => rfl, keep (fun x => x.p.cause) fun _ => rfl,
        keep (fun x => x.p.frec) fun _ => rfl⟩,
      keep (fun x => x.p.rstack) fun _ => rfl, keep (fun x => x.p.members) fun _ => rfl, keep (fun x => x.g.vregs) fun _ => rfl,
      keep (fun x => x.g.preds) fun _ => rfl, fun a => keep (fun x => memByte x.mem a) fun _ => rfl⟩
  exact ⟨hdone.retired hloops (keep (fun x => x.p.status) fun _ => rfl) (keep (fun x => x.p.clock) fun _ => rfl),
    hunwritten.trans (hdone.unwritten room)⟩

theorem whole_sansHeld {x : State} (hx : x.sansHeld = s.sansHeld) (hwhole : (edges s).repeats = true → NoRotation s) :
    (edges x).repeats = true → NoRotation x := by
  intro hrepeats
  have hedges : (edges x).repeats = (edges s).repeats := field_sansHeld hx (fun z => (edges z).repeats) fun z =>
    (edges_congr (x := z.sansHeld) (y := z) ⟨rfl, rfl, rfl, rfl, rfl, rfl, rfl⟩).repeats
  have hslices : rotatable x = rotatable s := field_sansHeld hx rotatable fun _ => rfl
  have hpriv : isPriv x = isPriv s := field_sansHeld hx isPriv fun _ => rfl
  rw [NoRotation, hslices, hpriv]
  exact hwhole (hedges ▸ hrepeats)

/-- A `dis` whose checks pass holds or sends its discards and falls through. -/
theorem dis_runs (h : DisReady o s) (hready : Ready 4 [codeS o.a.toNat, codeS o.d.toNat] [] s)
    {x : State} (hx : bufferDiscards (disHeld o s) (entered (disForm o) s) = x) (hsame : x.sansHeld = s.sansHeld) :
    exec (.dis o) s = .next (finish 4 x) := by
  let off (s : State) : Nat := (getS s o.a.toNat).toNat % 2 ^ 32
  let check (s : State) : Verdict := disVerdict s (usableWindow s (getW s o.w.toNat)) (off s) (getS s o.d.toNat).toNat
  let effect (s : State) : State := finish 4 (refreshWindow o.w.toNat (bufferDiscards
    ((discards s (wordOf (encode (.dis o))) (getW s o.w.toNat) (off s) (getS s o.d.toNat).toNat).filter fun b => !isControl b.va) s))
  have hissue : issue (disForm o) check effect s = effect (entered (disForm o) s) :=
    hready.passes ⟨rfl, rfl⟩ ⟨rfl, rfl⟩ (if_pos h.form) (fun e he => by
      rcases List.mem_cons.mp he with rfl | he
      · exact hready.sources _ List.mem_cons_self
      · rw [List.mem_singleton.mp he]
        exact hready.sources _ (List.mem_cons_of_mem _ List.mem_cons_self)) h.verdict nofun nofun (Nat.le_refl _)
  have hwindow : getW x o.w.toNat = getW s o.w.toNat := field_sansHeld hsame (fun z => getW z o.w.toNat) fun _ => rfl
  have hfresh : refreshWindow o.w.toNat x = x := by
    rw [refreshWindow, hwindow, h.usable, Bool.and_false, if_neg Bool.false_ne_true]
  have hheld := discards_held h
  show Host.Outcome.next (issue (disForm o) check effect s) = _
  rw [hissue]
  show Host.Outcome.next (finish 4 (refreshWindow o.w.toNat (bufferDiscards (List.filter _ (discards _ _ (getW (entered (disForm o) s) _)
    ((getS (entered (disForm o) s) _).toNat % _) (getS (entered (disForm o) s) _).toNat)) _))) = _
  rw [getW_entered _ hready.room, getS_entered _ hready.room, getS_entered _ hready.room, hheld, hx, hfresh]

/-- In an open region, a `dis` is held there. -/
theorem dis_holds (h : DisReady o s) (hready : Ready 4 [codeS o.a.toNat, codeS o.d.toNat] [] s) (hopen : s.p.entry.isSome = true) :
    ∃ t, exec (.dis o) s = .next t ∧ Retired 4 s t ∧ Unwritten s t ∧
      Done 4 { s with p := { s.p with buffer := s.p.buffer ++ disHeld o s } } t ∧
      ((edges s).count = 0 → t.p.buffer = s.p.buffer ++ disHeld o s) := by
  obtain ⟨li, w, hentered⟩ := entered_dis o s
  let x : State := { s with p := { s.p with liveIn := li, written := w, buffer := s.p.buffer ++ disHeld o s } }
  have hshut : s.p.entry.isNone = false := by rw [← Option.not_isSome, hopen]; rfl
  have hx : bufferDiscards (disHeld o s) (entered (disForm o) s) = x := by
    rw [bufferDiscards, hentered]
    exact if_neg (by rw [hshut]; exact Bool.false_ne_true)
  have hroom : NoSpill x := (room_discards disHeld_discards (hready.room)).congr rfl rfl
  have hsame : x.sansHeld = s.sansHeld := rfl
  have hdone := finish_done 4 hroom (whole_sansHeld hsame hready.whole)
  obtain ⟨hretired, hunwritten⟩ := falls_sansHeld hsame hroom hdone
  have hloops : SameLoops x.p s.p := ⟨rfl, rfl, rfl, rfl, rfl, rfl, rfl⟩
  exact ⟨_, dis_runs h hready hx hsame, hretired, hunwritten,
    hdone.of_same (room_discards disHeld_discards hready.room) rfl rfl ⟨rfl, rfl, rfl, rfl, rfl, rfl, rfl⟩ rfl rfl,
    fun hcount => finish_buffer_kept 4 ((edges_congr hloops).count.trans hcount)⟩

/-- Where no region is open, a `dis` is sent. -/
theorem dis_sends (h : DisReady o s) (hready : Ready 4 [codeS o.a.toNat, codeS o.d.toNat] [] s) (hshut : s.p.entry = none) :
    ∃ t, exec (.dis o) s = .next t ∧ Retired 4 s t ∧ Unwritten s t ∧
      (isPriv s = true → ∀ b ∈ disHeld o s, Sent s t 64 b.va .discard) := by
  have hentered : entered (disForm o) s = s := by
    rw [entered, track]
    have henter : enterRegion (disForm o) s = s := by simp [enterRegion, opensHere, disForm, Form.plain, writesLiveIn]
    rw [henter, hshut]
    rfl
  let x : State := (disHeld o s).foldl (fun s b => releaseStore b s) s
  have hx : bufferDiscards (disHeld o s) (entered (disForm o) s) = x := by
    rw [bufferDiscards, hentered, hshut]
    exact releaseAll_append disHeld_discards [] s
  have hdiscards : x.sansDiscards = s.sansDiscards := foldl_sansDiscards disHeld_discards s
  have hsame : x.sansHeld = s.sansHeld :=
    congrArg (fun z : State => { z with p := { z.p with liveIn := [], written := [], buffer := [] } }) hdiscards
  have hroom : NoSpill x := hready.room.of_cuffView (field_sansDiscards hdiscards (fun z => z.p.buffer) fun _ => rfl)
    (field_sansDiscards hdiscards State.cuffView cuffView_sansDiscards)
  have hdone := finish_done 4 hroom (whole_sansHeld hsame hready.whole)
  obtain ⟨hretired, hunwritten⟩ := falls_sansHeld hsame hroom hdone
  refine ⟨_, dis_runs h hready hx hsame, hretired, hunwritten, fun hpriv b hb => ?_⟩
  have hfree : detNow s = false := by rw [detNow, hpriv, Bool.not_true, Bool.and_false]
  obtain ⟨q, hq, hid, ⟨hlane, hva, hop, hgang, hlanes, hphase⟩, -⟩ :=
    (foldl_asks (dest := fun _ => Dest.none) (l := disHeld o s) (step := fun s b => releaseStore b s) (s := s)
      (fun b hb y hy => releaseStore_asks (disHeld_discards b hb) hfree hy) (List.pairwise_of_forall fun _ _ => nofun)).sent b hb
  obtain ⟨k, -, rfl⟩ := List.mem_map.mp hb
  exact ⟨q, (hdone.rest.queues hroom).mem hq, hid, hlane, hva, hop, hgang, hlanes, hphase⟩

end

/-! ### What a prefetch changes (R242) -/

/-- The device without what fills change: lines, copies, what is asked of hosts, memory and event counters. -/
def State.sansFill (s : State) : State :=
  { s with lines := [], l1 := [], cxlAsked := [], outbox := [], mem := [], parts := s.parts.map Partition.besides }

theorem field_sansFill {β : Type} {x y : State} (h : x.sansFill = y.sansFill) (view : State → β) (hview : ∀ z, view z.sansFill = view z) :
    view x = view y := by
  rw [← hview x, h, hview]

theorem makeRoom_sansFill (n slice : Nat) : Keeps State.sansFill (makeRoom n slice) := fun s =>
  Keeps.foldl (f := fun s r => if sliceFill s slice + n ≤ Config.sliceLines then s else evictOne s r)
    (fun r s => by dsimp only; split <;> rfl) _ s

theorem fillLine_sansFill (r : LineRef) (l : Leaf) : Keeps State.sansFill (fillLine r l) := fun s =>
  (rfl : (fillLine r l s).sansFill = (evictLine (homeOf s r.part r.va) s).sansFill).trans (makeRoom_sansFill 1 _ s)

theorem ensureLine_sansFill (part asid off : Nat) : Keeps State.sansFill (ensureLine part asid off) := by
  intro s
  unfold ensureLine
  split
  · rfl
  · split
    · exact fillLine_sansFill _ _ s
    · rfl

theorem mapPart_sansFill (n : Nat) {f : Partition → Partition} (hf : ∀ q, (f q).besides = q.besides) : Keeps State.sansFill (mapPart n f) :=
  fun s => congrArg (fun l => { s.sansFill with parts := l }) (updateWhere_besides _ f hf s.parts)

theorem countMiss_sansFill (launch : Nat) (r : LineRef) : Keeps State.sansFill (countMiss launch r) := by
  intro s
  unfold countMiss
  split
  · split
    · exact mapPart_sansFill _ (f := bumpEvents _ _) (fun _ => rfl) s
    · exact mapPart_sansFill _ (f := bumpEvents _ _) (fun _ => rfl) s
  · rfl

theorem l1Insert_fills (c : L1Line) (s : State) : (l1Insert c s).sansFill = s.sansFill ∧ (l1Insert c s).mem = s.mem := by
  unfold l1Insert
  dsimp only
  split
  · exact ⟨rfl, rfl⟩
  · split
    · exact ⟨rfl, rfl⟩
    · split <;> exact ⟨rfl, rfl⟩

theorem prefetchFill_fills (l2 : Bool) (va : Word) (coh : BitVec 2) (data : List Byte) (s : State) :
    (prefetchFill l2 va coh data s).sansFill = s.sansFill ∧ (prefetchFill l2 va coh data s).mem = s.mem := by
  unfold prefetchFill l1Fill
  dsimp only
  split
  · exact ⟨rfl, rfl⟩
  · split
    · exact ⟨rfl, rfl⟩
    · exact l1Insert_fills _ s

theorem walk_sansFill (s : State) (part asid off : Nat) : walk { s.sansFill with mem := s.mem } part asid off = walk s part asid off := by
  have hparts : (s.parts.map Partition.besides).map Partition.besides = s.parts.map Partition.besides := by simp [Partition.besides]
  have hlasting : ({ s.sansFill with mem := s.mem } : State).lasting = { s.lasting with lines := [], l1 := [], cxlAsked := [], outbox := [] } :=
    congrArg (fun Q => { s.lasting with lines := [], l1 := [], cxlAsked := [], outbox := [], parts := Q }) hparts
  rw [← walk_lasting, ← walk_lasting s, hlasting]
  rfl

/-- A walk of the tables is the same after a fill that leaves memory as it is. -/
theorem walk_of_fill {x y : State} (h : x.sansFill = y.sansFill) (hm : x.mem = y.mem) (part asid off : Nat) :
    walk x part asid off = walk y part asid off := by
  rw [← walk_sansFill x, h, hm, walk_sansFill]

/-- A fill of a line of a live granule leaves memory. -/
theorem ensureLine_mem {part asid off : Nat} {s : State} (h : ∀ l, walk s part asid off = some l → Pte.dead l.entry = false) :
    (ensureLine part asid off s).mem = s.mem := by
  unfold ensureLine
  split
  · rfl
  · split
    · next l hl =>
      rw [fillLine]
      dsimp only
      rw [h l hl, if_neg Bool.false_ne_true, evictLine_mem]
    · rfl

theorem prefetchHome_fills (l2 : Bool) (va : Word) (s : State) : (prefetchHome l2 va s).sansFill = s.sansFill ∧
    ((∀ l, walk s s.g.part s.g.asid (offsetOf va) = some l → Pte.dead l.entry = false) → (prefetchHome l2 va s).mem = s.mem) := by
  let r := lineRef s.g.part s.g.asid (offsetOf va)
  let y := ensureLine s.g.part s.g.asid (offsetOf va) (countMiss s.g.launch r s)
  have hcount := countMiss_sansFill s.g.launch r s
  have hmiss := countMiss_mem s.g.launch r s
  have hy : y.sansFill = s.sansFill := (ensureLine_sansFill _ _ _ _).trans hcount
  have hmem (h : ∀ l, walk s s.g.part s.g.asid (offsetOf va) = some l → Pte.dead l.entry = false) : y.mem = s.mem :=
    (ensureLine_mem fun l hl => h l ((walk_of_fill hcount hmiss _ _ _).symm.trans hl)).trans hmiss
  rw [prefetchHome]
  dsimp only
  split
  · exact ⟨rfl, fun _ => rfl⟩
  · split
    · exact ⟨hy, hmem⟩
    · split
      · exact ⟨hy, hmem⟩
      · obtain ⟨hfill, hkept⟩ := prefetchFill_fills l2 va _ _ y
        exact ⟨hfill.trans hy, fun h => hkept.trans (hmem h)⟩

theorem prefetchHost_fills (l2 : Bool) (va : Word) (s : State) :
    (prefetchHost l2 va s).sansFill = s.sansFill ∧ (prefetchHost l2 va s).mem = s.mem := by
  rw [prefetchHost]
  dsimp only
  split
  · exact ⟨rfl, rfl⟩
  · split
    · split
      · exact ⟨rfl, rfl⟩
      · exact prefetchFill_fills l2 va _ _ s
    · rw [cxlAsk]
      split <;> exact ⟨rfl, rfl⟩

theorem prefetchLine_fills (l2 : Bool) (va : Word) (s : State) : (prefetchLine l2 va s).sansFill = s.sansFill ∧
    ((∀ l, walk s s.g.part s.g.asid (offsetOf va) = some l → Pte.dead l.entry = false) → (prefetchLine l2 va s).mem = s.mem) := by
  rw [prefetchLine]
  split
  · exact ⟨rfl, fun _ => rfl⟩
  · split
    · obtain ⟨hfill, hmem⟩ := prefetchHost_fills l2 va s
      exact ⟨hfill, fun _ => hmem⟩
    · exact prefetchHome_fills l2 va s

theorem foldl_fills (l2 : Bool) (es : List (Nat × Word)) (s : State) :
    (es.foldl (fun s e => prefetchLine l2 e.2 s) s).sansFill = s.sansFill ∧
      ((∀ e ∈ es, ∀ l, walk s s.g.part s.g.asid (offsetOf e.2) = some l → Pte.dead l.entry = false) →
        (es.foldl (fun s e => prefetchLine l2 e.2 s) s).mem = s.mem) := by
  induction es generalizing s with
  | nil => exact ⟨rfl, fun _ => rfl⟩
  | cons e r ih =>
    obtain ⟨hone, honemem⟩ := prefetchLine_fills l2 e.2 s
    obtain ⟨hall, hallmem⟩ := ih (prefetchLine l2 e.2 s)
    refine ⟨hall.trans hone, fun h => ?_⟩
    obtain ⟨hfirst, hlater⟩ := List.forall_mem_cons.mp h
    have hm := honemem hfirst
    have hg : (prefetchLine l2 e.2 s).g = s.g := field_sansFill hone State.g fun _ => rfl
    refine (hallmem fun x hx l hl => hlater x hx l ?_).trans hm
    rw [hg] at hl
    rw [← hl]
    exact (walk_of_fill hone hm _ _ _).symm

/-! ### pf (R242) -/

/-- What a list of checked addresses keeps is what passed. -/
theorem mem_of_okAddrs {l : List (Nat × Ea)} {e : Nat × Word} (h : e ∈ okAddrs l) : (e.1, Ea.ok e.2) ∈ l := by
  induction l using okAddrs.induct with
  | case1 => exact absurd h List.not_mem_nil
  | case2 r i va ih =>
    rcases List.mem_cons.mp h with rfl | h
    · exact List.mem_cons_self
    · exact List.mem_cons_of_mem _ (ih h)
  | case3 a r hne ih =>
    rw [okAddrs.eq_3 _ _ hne] at h
    exact List.mem_cons_of_mem _ (ih h)

/-- An access that passes names the address of its window and offset. -/
theorem effective_address {s : State} {win : Window} {o n : Nat} {need : Need} {va : Word} (h : effective s win o n need = .ok va) :
    va = windowAddress win o := by
  unfold effective at h
  dsimp only at h
  split at h
  · cases h
  · split at h
    · cases h
    · split at h
      · cases h
      · split at h
        · cases h
        · split at h
          · cases h
          · split at h
            · exact (Ea.ok.inj h).symm
            · cases h
            · cases h

/-- The addresses that a prefetch fills are those of its lanes. -/
theorem mem_prefetchLanes {o : OpPf} {s : State} {e : Nat × Word} (he : e ∈ prefetchLanes o s) :
    e.1 ∈ activeLanes s ∧ e.2 = address s o.w (fieldBits s o.a.toNat false e.1) := by
  obtain ⟨i, hi, heq⟩ := List.mem_map.mp (mem_of_okAddrs he)
  obtain ⟨rfl, hva⟩ := Prod.mk.inj heq
  exact ⟨hi, (effective_address hva).trans (windowAddress_eq s o.w _)⟩

/-- What a `pf` fills once its region has noted what it reads. -/
def prefetched (o : OpPf) (s : State) : State :=
  if detNow s then s else (prefetchLanes o s).foldl (fun s e => prefetchLine o.l2 e.2 s) s

theorem prefetched_fills (o : OpPf) (s : State) : (prefetched o s).sansFill = s.sansFill ∧
    ((∀ i ∈ activeLanes s, ∀ l, walk s s.g.part s.g.asid (offsetOf (address s o.w (fieldBits s o.a.toNat false i))) = some l →
      Pte.dead l.entry = false) → (prefetched o s).mem = s.mem) := by
  rw [prefetched]
  split
  · exact ⟨rfl, fun _ => rfl⟩
  · obtain ⟨hfill, hmem⟩ := foldl_fills o.l2 (prefetchLanes o s) s
    refine ⟨hfill, fun h => hmem fun e he => ?_⟩
    obtain ⟨hlane, hva⟩ := mem_prefetchLanes he
    rw [hva]
    exact h e.1 hlane

/-- Fills leave room in the Cuff buffer. -/
theorem prefetched_room (o : OpPf) {s : State} (room : NoSpill s) : NoSpill (prefetched o s) := by
  by_cases hdet : detNow s = true
  · rwa [prefetched, if_pos hdet]
  · have hfree := Bool.eq_false_iff.mpr hdet
    have hfill := (prefetched_fills o s).1
    exact room.of_free ((field_sansFill hfill detNow fun _ => rfl).trans hfree) hfree (field_sansFill hfill (fun z => z.g.cuff) fun _ => rfl)

theorem pf_completes {o : OpPf} {s : State} (h : Ready 4 (vecRead (Ty.n 32) s [o.a]) [] s) :
    ∃ t, exec (.pf o) s = .next t ∧ Retired 4 s t ∧ Unwritten { s with mem := t.mem } t ∧ (∀ c, regState t c = regState s c) ∧
      ((∀ i ∈ activeLanes s, ∀ l, walk s s.g.part s.g.asid (offsetOf (address s o.w (fieldBits s o.a.toNat false i))) = some l →
        Pte.dead l.entry = false) → ∀ a, memByte t.mem a = memByte s.mem a) ∧
      (detNow s = true → Done 4 s t) := by
  let f : Form := memForm (wordOf (encode (.pf o))) 4 true o.ta o.w o.a s
  obtain ⟨li, w, hentered⟩ : ∃ li w, entered f s = { s with p := { s.p with liveIn := li, written := w } } := entered_reading ⟨rfl, rfl⟩ rfl
  let y : State := { s with p := { s.p with liveIn := li, written := w } }
  have hyroom : NoSpill y := h.room.congr rfl rfl
  have hpasses : issue f noCheck (fun s => finish 4 (prefetched o s)) s = finish 4 (prefetched o (entered f s)) :=
    h.passes ⟨rfl, rfl⟩ ⟨rfl, rfl⟩ rfl (srcV_full h.sources List.mem_cons_self o.ta) rfl nofun nofun (Nat.le_refl _)
  have hissue := hpasses.trans (congrArg (fun z => finish 4 (prefetched o z)) hentered)
  obtain ⟨hfill, hmem⟩ := prefetched_fills o y
  have hroom := prefetched_room o hyroom
  set x := prefetched o y with hx
  have hp : x.p = y.p := field_sansFill hfill State.p fun _ => rfl
  have hg : x.g = s.g := field_sansFill hfill State.g fun _ => rfl
  have hloops : SameLoops x.p s.p := hp ▸ ⟨rfl, rfl, rfl, rfl, rfl, rfl, rfl⟩
  have hdone : Done 4 x (finish 4 x) := finish_done 4 hroom fun hrepeats => by
    have hrot := h.whole ((edges_congr hloops).repeats ▸ hrepeats)
    rwa [NoRotation, rotatable, isPriv, hp, hg]
  have hbytes : ∀ a, memByte (finish 4 x).mem a = memByte x.mem a := hdone.memory
  obtain ⟨kscalars, kwindows, kspecial, kstack, kmembers, kvectors, kpredicates, -⟩ := hdone.unwritten hroom
  rw [hp] at kscalars kwindows kspecial kstack kmembers
  rw [hg] at kvectors kpredicates
  refine ⟨finish 4 x, congrArg Host.Outcome.next hissue, hdone.retired hloops (by rw [hp]) (by rw [hp]),
    ⟨kscalars, kwindows, kspecial, kstack, kmembers, kvectors, kpredicates, fun _ => rfl⟩, fun c => ?_, fun hlive a => ?_, fun hdet => ?_⟩
  · rw [hdone.regState hroom, regState, hp, hg]
    rfl
  · rw [hbytes, hmem hlive]
  · have hsame : x = y := if_pos hdet
    rw [hsame] at hdone ⊢
    exact hdone.of_same h.room rfl rfl ⟨rfl, rfl, rfl, rfl, rfl, rfl, rfl⟩ rfl rfl

/-- Settles O27: a prefetch fills lines at its issue, and none of a dead granule; a discard joins its region, or leaves where none is open. -/
theorem prefetchAndDiscardComplete : Obligations.PrefetchAndDiscardComplete := by
  refine ⟨fun o s h => pf_completes h, ?_⟩
  intro o s hform w off len start count hvalid husable hnode hstart hinside haligned hwhole hpermitted hready va bs
  have h : DisReady o s := ⟨hform, hvalid, husable, hnode, hstart, hinside, haligned, hwhole, hpermitted⟩
  by_cases hopen : s.p.entry.isSome = true
  · obtain ⟨t, hexec, hretired, hunwritten, hdone, hbuffer⟩ := dis_holds h hready hopen
    refine ⟨t, hexec, hretired, hunwritten, fun _ => ⟨hdone, hbuffer⟩, fun hshut => ?_⟩
    rw [hshut] at hopen
    cases hopen
  · have hshut := Option.not_isSome_iff_eq_none.mp hopen
    obtain ⟨t, hexec, hretired, hunwritten, hsent⟩ := dis_sends h hready hshut
    exact ⟨t, hexec, hretired, hunwritten, fun hsome => absurd hsome hopen,
      fun _ hpriv k hk => hsent hpriv _ (List.mem_map_of_mem (List.mem_range.mpr hk))⟩

end Sys2Proof.Machine
end
